-- ==== Sys2Proof/Word.lean ====
section
/-! DEFINITION. Word.lean: the word types of the manual (R6, R10) and their plainest arithmetic. -/

namespace Sys2Proof

/-- A byte of memory (R6). -/
abbrev Byte := BitVec 8

/-- A 32-bit vector register lane (R78). -/
abbrev Word32 := BitVec 32

/-- A 64-bit scalar, address or instruction word (R79, R112). -/
abbrev Word64 := BitVec 64

/-- A 64-byte sector as one little-endian value (R178). -/
abbrev Sector := BitVec 512

/-- The 32 lanes of a group as a mask: bit i is lane i (R85). -/
abbrev LaneMask := BitVec 32

end Sys2Proof
end

