-- ==== Sys2Proof/Syntax.lean ====
section
/-! DEFINITION. Syntax.lean: the commands of the block, one constructor of `Instr` for each row of the opcode table, and the
records their operands are made of. A command names who acts (a group, a channel, a port, a controller) and what the outside
supplies (an instruction word, a frame, a measurement, the outcome of a training); everything else comes from the state. -/

namespace Sys2Proof

/-- A group of a launch: launch-context number, gang index, group index (R76, R77). -/
structure GroupRef where
  ctx : Nat
  gang : Nat
  group : Nat
  deriving DecidableEq, Repr

/-- A fetched command: its channel and its SEQ, the FETCH count of its slot (R301). -/
structure CmdRef where
  ch : Nat
  seq : Nat
  deriving DecidableEq, Repr

/-- The credential under which an access is made (CRED, Table 18.2). -/
inductive Cred where
  | none
  | slice (n : Nat)
  | manager
  deriving DecidableEq, Repr

/-- The resources that have a dispatch queue (R273), and the units of Table 10.3 that run the rest. -/
inductive Resource where
  | rows
  | copyEngine
  | contextEngine
  | reductionEngine
  | commandProcessor
  | bankEngine
  deriving DecidableEq, Repr

/-- A 512-byte line: of device memory by its physical line number, or of a slice's shared scratch (R178, R184). -/
inductive LineKey where
  | dev (line : Nat)
  | shr (slice line : Nat)
  deriving DecidableEq, Repr

/-- A draft frame without its KIND, which the command's row gives (Table 11.7). `ether` is its EtherType, `seq` the per-link sequence
number. -/
structure DraftFrame where
  vlan : Option Nat := none
  ether : Nat := 0x88B5
  hops : Nat := 0
  seq : Nat
  origin : Nat
  arg0 : Nat := 0
  arg1 : Nat := 0
  arg2 : Nat := 0
  arg3 : Nat := 0
  deriving DecidableEq, Repr

/-- What carries a transport frame or a RoCEv2 packet (R319, R321, R322): VLAN tag, UDP port, DSCP, whether it is ECN-capable (ECT(0)), hop
limit, flow label. -/
structure Envelope where
  vlan : Option Nat := none
  port : Nat := 30400
  dscp : Nat := 0
  ect : Bool := true
  hops : Nat := 64
  flow : Nat := 0
  deriving DecidableEq, Repr

/-- What a COLL frame is part of (R351; the layout of stream and block number in ADDR is not given, log 50): the group's number, the
collective's count on its slot, the contributing and the receiving rank, pass, step, and the block's number within the contribution. -/
structure CollBlk where
  group : Nat := 0
  cseq : Nat := 0
  rank : Nat := 0
  dst : Nat := 0
  pass : Nat := 0
  step : Nat := 0
  block : Nat := 0
  deriving DecidableEq, Repr

/-- A transport frame without its TYPE, which the row gives (Table 11.3), in its envelope. `len` is LENGTH; `crcOk` is the outcome of its
CRC-32C check; `ece` is ECE of an ACK and, of every other frame, the congestion mark of its IP header; `blk`: of a COLL frame, its block. -/
structure TFrame where
  llr : Bool := false
  ackReq : Bool := false
  ece : Bool := false
  psn : Nat := 0
  ackPsn : Nat := 0
  src : Nat := 0
  addr : Word64 := 0
  path : Nat := 0
  lseq : Nat := 0
  aux : Nat := 0
  payload : List Byte := []
  crcOk : Bool := true
  fecOk : Bool := true
  ver : Nat := 1
  len : Nat := payload.length
  ip : Envelope := {}
  blk : Option CollBlk := none
  deriving DecidableEq, Repr

/-- A RoCEv2 packet (R328, R329): destination QP, base opcode, sequence number, RDMA header and payload. `icrcOk` is the
outcome of the invariant-CRC check, `ce` the congestion mark. -/
structure RocePacket where
  qp : Nat
  opcode : Nat
  psn : Nat := 0
  rkey : BitVec 32 := 0
  va : Word64 := 0
  len : Nat := 0
  payload : List Byte := []
  icrcOk : Bool := true
  ce : Bool := false
  deriving DecidableEq, Repr

/-- A slice operation request less its OP, which the row gives (Table 13.3). -/
structure SopReq where
  slice : Nat
  seq : Nat := 0
  psize : Nat := 0
  tier : Nat := 0
  write : Bool := false
  exec : Bool := false
  die : Nat := 0
  anyDie : Bool := true
  va : Word64 := 0
  count : Nat := 0
  limitUs : Nat := 0
  deriving DecidableEq, Repr

/-- An object-dictionary frame (Table 18.2): route, header fields, body and authenticator bytes. In band it comes at port `q` under the
transport header `tr` (TYPE 7), whose payload is the frame itself; on the management port to UDP port `udp` from `peer`, the sender's IPv6
address and UDP port as one number. -/
structure OdFrame where
  inBand : Bool
  udp : Nat := 30412
  peer : Nat := 0
  q : Nat := 0
  ver : Nat := 1
  op : Nat := 0
  bodyLen : Nat := 0
  reqId : Nat := 0
  epoch : Nat := 0
  counter : Nat := 0
  cred : Nat := 0
  noResp : Bool := false
  slice : Nat := 0
  resBits : Nat := 0
  status : Nat := 0
  reason : Nat := 0
  count : Nat := 0
  body : List Byte := []
  auth : List Byte := []
  tr : TFrame := { addr := BitVec.ofNat 64 (2 ^ 45), len := 32 + body.length + auth.length }
  deriving DecidableEq, Repr

/-- A signed firmware image as FW_RECOVERY's verification finds it (R395, R473): stage, security version, signature outcome. -/
structure FwImage where
  stage : Nat
  secVersion : Nat
  sigOk : Bool
  deriving DecidableEq, Repr

/-- A chiplet message of class REQ or SNR (Table 16.4). `malformed` marks a reserved code, a bad form or a credit overrun. -/
structure CpMsg where
  addr : BitVec 48
  sectors : BitVec 8 := 0
  len : Nat := 0
  byteMask : List Bool := []
  data : List Byte := []
  rel : Bool := false
  op : Nat := 0
  size8 : Bool := false
  b : Word64 := 0
  c : Word64 := 0
  malformed : Bool := false
  late : Bool := false
  deriving DecidableEq, Repr

/-- What a chiplet negotiation finds (Table 16.2): modules trained at step 1, the die's capability word, and whether a step failed. -/
structure CpNegotiation where
  trained : Nat
  dieWord : Word64
  failed : Bool := false
  deriving DecidableEq, Repr

/-- Where an invalidation arrives: at a die's agent (0 to 3), a chiplet agent (4, 5), or a core's L1 queue (R188, R193). -/
inductive InvTarget where
  | agent (a : Nat)
  | core (c : Nat)
  deriving DecidableEq, Repr

/-- A unit with miss registers (R195): a core's L1, or an LLC slice of a die. -/
inductive MissUnit where
  | l1 (core : Nat)
  | llc (die slice : Nat)
  deriving DecidableEq, Repr

/-- Where a corrected error was found (R354); on a stack channel, whether a repair of its DRAM rows failed (R239). -/
inductive ErrPlace where
  | stack (stack ch : Nat) (repairFailed : Bool)
  | ddr (ch : Nat)
  | core (core : Nat)
  | port (port : Nat)
  | cxl (port : Nat)
  | chiplet (port : Nat)
  | llm
  deriving DecidableEq, Repr

/-- Who met an uncorrectable error (Table 12.1). -/
inductive ErrReader where
  | patrol
  | launch (ctx : Nat)
  | command (ch seq : Nat)
  | emberMove (slice : Nat)
  | bankReserve
  deriving DecidableEq, Repr

/-- What patrol found on a line (R251). -/
inductive PatrolFind where
  | clean
  | corrected
  | uncorrectable
  deriving DecidableEq, Repr

/-- A route that a recomputation from the neighbours' tables yields (R334). -/
structure RouteCand where
  dst : Nat
  port : Nat
  hops : Nat
  nextHop : Nat
  direct : Bool
  deriving DecidableEq, Repr

/-- What the damper's activity counters count (R413): instructions issued of a class, matrix-engine cycles, LLC accesses, flit transfers of a
network or link, memory-tier bursts, port bytes. -/
inductive Activity where
  | issued (cls : Nat)
  | matrixCycles
  | llcAccesses
  | flits (net : Nat)
  | bursts
  | portBytes
  deriving DecidableEq, Repr

/-- An activity counter of a power domain over one window. -/
structure ActCount where
  domain : Nat
  what : Activity
  n : Nat
  deriving DecidableEq, Repr

/-- What one 2 µs window counts and measures (R413, R414): activity, and temperatures in m°C of the dies (G0 to G3, then Proty: the hottest
sensor) and of the stacks. -/
structure DamperIn where
  activity : List ActCount := []
  dieTemps : List Int := []
  stackTemps : List Int := []
  deriving DecidableEq, Repr

/-- What the power stages and the board's sensors measure over 1 ms beside the input's voltage (R421, R425, R443): its current, AUX12's
current, the cooler's tachometer, plate and spreader in m°C; whether LEAK_N is low, and whether a sensor still stands at its trip
temperature. -/
structure Telemetry where
  inputmA : Nat
  aux12mA : Nat := 0
  tachHz : Nat := 0
  platemC : Int := 0
  spreadermC : Int := 0
  leak : Bool := false
  tripping : Bool := false
  deriving DecidableEq, Repr

/-- What the management boot meets (Table 17.2): whether the input is above 39.5 V, whether OTP could be read at M1, and of each of stages 2
and 3 which copies' signatures verify (bit 0 copy A, bit 1 copy B). -/
structure MgmtBoot where
  inputOk : Bool := true
  otpOk : Bool := true
  stage2 : BitVec 2 := 3
  stage3 : BitVec 2 := 3
  deriving DecidableEq, Repr

/-- Outcomes of BOOT (Table 17.3): which copies' signatures verify of stages 4 and 5, rails, OTP, dead die links after three attempts, failing core sites
(die, row, site), LLM self-test. -/
structure BootIn where
  stage4 : BitVec 2 := 3
  stage5 : BitVec 2 := 3
  railsOk : Bool := true
  otpOk : Bool := true
  deadLinks : BitVec 8 := 0
  badSites : List (Nat × Nat × Nat) := []
  llmOk : Bool := true
  deriving DecidableEq, Repr

/-- A CXL port as enumeration finds it (R257). -/
structure CxlPort where
  port : Nat
  rate : Nat
  width : Nat
  devices : Nat
  capacity : Nat
  deriving DecidableEq, Repr

/-- Outcomes of TRAIN (Table 17.4): stack channels that fail (stack, channel), DDR data rate (0 none), CXL ports up, logical
ports trained. -/
structure TrainIn where
  badChannels : List (Nat × Nat) := []
  ddrRate : Nat := 8800
  cxl : List CxlPort := []
  ports : List Nat := []
  deriving DecidableEq, Repr

/-- What start-up zeroes (R468). -/
inductive ZeroTarget where
  | stacked
  | reserve
  | ddr
  | cxl
  deriving DecidableEq, Repr

/-- The commands of the block: one constructor for each row of spec/opcode_table.json. -/
inductive Instr where
  /-- SCL_ADD (R122). Scalar add (register or immediate form): adds two 64-bit values modulo 2^64 into a scalar register. -/
  | sclAdd (g : GroupRef) (w : Word64)
  /-- SCL_SUB (R122). Scalar subtract (register or immediate form): subtracts modulo 2^64. -/
  | sclSub (g : GroupRef) (w : Word64)
  /-- SCL_MUL (R122). Scalar multiply (register or immediate form): multiplies modulo 2^64. -/
  | sclMul (g : GroupRef) (w : Word64)
  /-- SCL_AND (R122). Scalar bitwise AND, with a sign-extended immediate in the I form. -/
  | sclAnd (g : GroupRef) (w : Word64)
  /-- SCL_OR (R122). Scalar bitwise OR, with a sign-extended immediate in the I form. -/
  | sclOr (g : GroupRef) (w : Word64)
  /-- SCL_XOR (R122). Scalar bitwise XOR, with a sign-extended immediate in the I form. -/
  | sclXor (g : GroupRef) (w : Word64)
  /-- SCL_SHL (R122). Scalar shift left by the amount modulo 64. -/
  | sclShl (g : GroupRef) (w : Word64)
  /-- SCL_SHR (R122). Scalar logical shift right, shifting in zeros. -/
  | sclShr (g : GroupRef) (w : Word64)
  /-- SCL_SRA (R122). Scalar arithmetic shift right, copying the sign bit. -/
  | sclSra (g : GroupRef) (w : Word64)
  /-- SCL_MIN (R122). Scalar signed minimum. -/
  | sclMin (g : GroupRef) (w : Word64)
  /-- SCL_MAX (R122). Scalar signed maximum. -/
  | sclMax (g : GroupRef) (w : Word64)
  /-- SCL_MINU (R122). Scalar unsigned minimum. -/
  | sclMinu (g : GroupRef) (w : Word64)
  /-- SCL_MAXU (R122). Scalar unsigned maximum. -/
  | sclMaxu (g : GroupRef) (w : Word64)
  /-- SCL_MOV (R122). Scalar register move. -/
  | sclMov (g : GroupRef) (w : Word64)
  /-- SCL_CMP (R123). Scalar compare under a condition code, writing a predicate in all 32 lanes. -/
  | sclCmp (g : GroupRef) (w : Word64)
  /-- SCL_MOVI (R122). Writes a sign-extended 32-bit immediate to a scalar register. -/
  | sclMovi (g : GroupRef) (w : Word64)
  /-- SCL_MOVHI (R122). Writes an immediate to bits [63:32] of a scalar register, keeping bits [31:0]. -/
  | sclMovhi (g : GroupRef) (w : Word64)
  /-- ADD (R124). Vector add per active lane (register or immediate form). -/
  | add (g : GroupRef) (w : Word64)
  /-- SUB (R124). Vector subtract per active lane. -/
  | sub (g : GroupRef) (w : Word64)
  /-- MUL (R124). Vector multiply per active lane, low half for integers. -/
  | mul (g : GroupRef) (w : Word64)
  /-- FMA (R50). Vector fused multiply-add with one rounding. -/
  | fma (g : GroupRef) (w : Word64)
  /-- DIV (R50). Vector floating-point divide, correctly rounded. -/
  | div (g : GroupRef) (w : Word64)
  /-- SQRT (R50). Vector floating-point square root, correctly rounded. -/
  | sqrt (g : GroupRef) (w : Word64)
  /-- MIN (R51). Vector minimum, with the NaN and signed-zero rules for floats. -/
  | min (g : GroupRef) (w : Word64)
  /-- MAX (R51). Vector maximum, with the NaN and signed-zero rules for floats. -/
  | max (g : GroupRef) (w : Word64)
  /-- ABS (R124). Vector absolute value. -/
  | abs (g : GroupRef) (w : Word64)
  /-- NEG (R124). Vector negate. -/
  | neg (g : GroupRef) (w : Word64)
  /-- CVT (R125). Vector conversion between element types under the rounding mode, including RSR with a scalar position base. -/
  | cvt (g : GroupRef) (w : Word64)
  /-- AND (R124). Vector bitwise AND. -/
  | vAnd (g : GroupRef) (w : Word64)
  /-- OR (R124). Vector bitwise OR. -/
  | vOr (g : GroupRef) (w : Word64)
  /-- XOR (R124). Vector bitwise XOR. -/
  | vXor (g : GroupRef) (w : Word64)
  /-- NOT (R124). Vector bitwise NOT. -/
  | vNot (g : GroupRef) (w : Word64)
  /-- SHL (R124). Vector shift left by B modulo the width. -/
  | shl (g : GroupRef) (w : Word64)
  /-- SHR (R124). Vector shift right, logical for u types and arithmetic for s types. -/
  | shr (g : GroupRef) (w : Word64)
  /-- MULHI (R124). Vector high half of an integer product. -/
  | mulhi (g : GroupRef) (w : Word64)
  /-- POPC (R124). Vector population count. -/
  | popc (g : GroupRef) (w : Word64)
  /-- CLZ (R124). Vector count of leading zeros. -/
  | clz (g : GroupRef) (w : Word64)
  /-- SEL (R124). Vector select by a predicate. -/
  | sel (g : GroupRef) (w : Word64)
  /-- CMP (R124). Vector compare, writing a predicate per lane. -/
  | cmp (g : GroupRef) (w : Word64)
  /-- RED (R52). Reduction across the active lanes by the butterfly order, written to every active lane. -/
  | red (g : GroupRef) (w : Word64)
  /-- MOV (R124). Vector move, or an immediate broadcast in the I form. -/
  | vMov (g : GroupRef) (w : Word64)
  /-- MOV_SV (R124). Broadcasts a scalar register into a vector register of every lane. -/
  | movSv (g : GroupRef) (w : Word64)
  /-- MOV_VS (R124). Copies one lane's vector register into a scalar register. -/
  | movVs (g : GroupRef) (w : Word64)
  /-- LANEID (R124). Writes each lane's number into a vector register. -/
  | laneid (g : GroupRef) (w : Word64)
  /-- ILLEGAL_INSTRUCTION (R118). An unallocated opcode, a reserved guard or a refused code raises cause 0x44 and kills the launch. -/
  | illegalInstruction (g : GroupRef) (w : Word64)
  /-- LD (R126). Load of SIZE bytes per active lane from the named space, with its ordering. -/
  | ld (g : GroupRef) (w : Word64)
  /-- ST (R126). Store of SIZE bytes per active lane to the named space, with its ordering. -/
  | st (g : GroupRef) (w : Word64)
  /-- ST_CVT_BF16 (R131). Converting store of f32 lanes to bfloat16. -/
  | stCvtBf16 (g : GroupRef) (w : Word64)
  /-- ST_CVT_F16 (R131). Converting store of f32 lanes to binary16. -/
  | stCvtF16 (g : GroupRef) (w : Word64)
  /-- ST_CVT_E4M3 (R131). Converting store of f32 lanes to E4M3. -/
  | stCvtE4m3 (g : GroupRef) (w : Word64)
  /-- ST_CVT_E5M2 (R131). Converting store of f32 lanes to E5M2. -/
  | stCvtE5m2 (g : GroupRef) (w : Word64)
  /-- ATOM_ADD (R132). Atomic wrapping add returning the old value. -/
  | atomAdd (g : GroupRef) (w : Word64)
  /-- ATOM_FADD (R133). Atomic floating-point add, or cause 0x45 when determinism mask bit 0 is set. -/
  | atomFadd (g : GroupRef) (w : Word64)
  /-- ATOM_MIN_S (R132). Atomic signed minimum. -/
  | atomMinS (g : GroupRef) (w : Word64)
  /-- ATOM_MAX_S (R132). Atomic signed maximum. -/
  | atomMaxS (g : GroupRef) (w : Word64)
  /-- ATOM_MIN_U (R132). Atomic unsigned minimum. -/
  | atomMinU (g : GroupRef) (w : Word64)
  /-- ATOM_MAX_U (R132). Atomic unsigned maximum. -/
  | atomMaxU (g : GroupRef) (w : Word64)
  /-- ATOM_AND (R132). Atomic AND. -/
  | atomAnd (g : GroupRef) (w : Word64)
  /-- ATOM_OR (R132). Atomic OR. -/
  | atomOr (g : GroupRef) (w : Word64)
  /-- ATOM_XOR (R132). Atomic XOR. -/
  | atomXor (g : GroupRef) (w : Word64)
  /-- ATOM_EXCH (R132). Atomic exchange. -/
  | atomExch (g : GroupRef) (w : Word64)
  /-- ATOM_CAS (R132). Atomic compare-and-swap, writing a failure predicate. -/
  | atomCas (g : GroupRef) (w : Word64)
  /-- LOCK_ACQ (R108). Tries to take an owner-tagged lock per lane without waiting and enters it in the launch's lock table. -/
  | lockAcq (g : GroupRef) (w : Word64)
  /-- LOCK_REL (R110). Releases an owner-tagged lock held by the launch. -/
  | lockRel (g : GroupRef) (w : Word64)
  /-- FENCE (R135). Orders the group's earlier and later accesses at a scope as acquire, release or full. -/
  | fence (g : GroupRef) (w : Word64)
  /-- DISCARD (R199). Declares whole 512-byte lines dead, invalidating them without writeback at their homes. -/
  | discard (g : GroupRef) (w : Word64)
  /-- PIN_LLC (R197). Pins the lines of a range in their home LLM, or refuses the whole request. -/
  | pinLlc (g : GroupRef) (w : Word64)
  /-- UNPIN_LLC (R136). Releases the pins on the lines of a range. -/
  | unpinLlc (g : GroupRef) (w : Word64)
  /-- PF_DEV (R136). Requests the lines of a range into the LLM. -/
  | pfDev (g : GroupRef) (w : Word64)
  /-- ID_GET (R137). Writes a selected identity value to a scalar register. -/
  | idGet (g : GroupRef) (w : Word64)
  /-- TIME_GET (R137). Writes device time, or the release-tick start time under mask bit 5. -/
  | timeGet (g : GroupRef) (w : Word64)
  /-- TICK_GET (R137). Writes the current tick number, or the release tick under mask bit 5. -/
  | tickGet (g : GroupRef) (w : Word64)
  /-- NOP (R138). Does nothing. -/
  | nop (g : GroupRef) (w : Word64)
  /-- BR (R138). Unconditional branch of every active lane, yielding on a backward target when other paths are queued. -/
  | br (g : GroupRef) (w : Word64)
  /-- BR_P (R86). Conditional branch that may split the path and create a join entry. -/
  | brP (g : GroupRef) (w : Word64)
  /-- CALL (R138). Writes the return address into a vector pair and branches. -/
  | call (g : GroupRef) (w : Word64)
  /-- RET (R139). Branches to the address held in the link pair. -/
  | ret (g : GroupRef) (w : Word64)
  /-- JMP_S (R138). Branches to the address in a scalar register. -/
  | jmpS (g : GroupRef) (w : Word64)
  /-- EXIT (R87). The active lanes of the path exit and are removed from the join entries. -/
  | exitLanes (g : GroupRef) (w : Word64)
  /-- PAUSE (R88). Yields the path, which is not runnable for 32 cycles. -/
  | pause (g : GroupRef) (w : Word64)
  /-- PAUSE_EXPIRY (R88). 32 cycles after a pause, the paused path becomes runnable again. -/
  | pauseExpiry (g : GroupRef)
  /-- BAR_GANG (R140). Parks the path at the gang barrier and completes the barrier when every non-exited group has arrived. -/
  | barGang (g : GroupRef) (w : Word64)
  /-- SHFL_IDX (R90). Shuffle from the lane named by an index. -/
  | shflIdx (g : GroupRef) (w : Word64)
  /-- SHFL_UP (R90). Shuffle from lane i minus a delta. -/
  | shflUp (g : GroupRef) (w : Word64)
  /-- SHFL_DOWN (R90). Shuffle from lane i plus a delta. -/
  | shflDown (g : GroupRef) (w : Word64)
  /-- SHFL_XOR (R90). Shuffle from lane i XOR a mask. -/
  | shflXor (g : GroupRef) (w : Word64)
  /-- VOTE_ANY (R90). Predicate true in every active lane if any active lane's predicate is true. -/
  | voteAny (g : GroupRef) (w : Word64)
  /-- VOTE_ALL (R90). Predicate true in every active lane if every active lane's predicate is true. -/
  | voteAll (g : GroupRef) (w : Word64)
  /-- VOTE_UNI (R90). Predicate true in every active lane if the operand is equal in all active lanes. -/
  | voteUni (g : GroupRef) (w : Word64)
  /-- VOTE_BALLOT (R90). Writes the mask of active lanes whose predicate is true to a scalar register. -/
  | voteBallot (g : GroupRef) (w : Word64)
  /-- P_AND (R142). Predicate AND per active lane. -/
  | pAnd (g : GroupRef) (w : Word64)
  /-- P_OR (R142). Predicate OR per active lane. -/
  | pOr (g : GroupRef) (w : Word64)
  /-- P_XOR (R142). Predicate XOR per active lane. -/
  | pXor (g : GroupRef) (w : Word64)
  /-- P_NOT (R142). Predicate NOT per active lane. -/
  | pNot (g : GroupRef) (w : Word64)
  /-- STK_START (R92). Reads a stream descriptor and starts the stream with full 0 and empty SLOTS, first stopping any running stream. -/
  | stkStart (g : GroupRef) (w : Word64)
  /-- STK_TAKE (R96). Takes the next slot of a stream in sequence order, or returns false at stream end. -/
  | stkTake (g : GroupRef) (w : Word64)
  /-- STK_TAKE_AT (R97). Takes the slot with a named sequence number. -/
  | stkTakeAt (g : GroupRef) (w : Word64)
  /-- STK_GIVE (R97). Gives a taken slot back to the stoker. -/
  | stkGive (g : GroupRef) (w : Word64)
  /-- STK_STOP (R100). Ends a stream at once, discarding fills in flight. -/
  | stkStop (g : GroupRef) (w : Word64)
  /-- STK_WAIT (R100). Blocks until a drain stream has ended and all its stores are done. -/
  | stkWait (g : GroupRef) (w : Word64)
  /-- STOKER_SLOT_FILLED (R96). The stoker finishes a fill slot and the full count rises. -/
  | stokerSlotFilled (ctx gang stream : Nat)
  /-- STOKER_SLOT_STORED (R96). The stoker finishes storing a drain slot and the empty count rises. -/
  | stokerSlotStored (ctx gang stream : Nat)
  /-- GMMA (R147). Issues a matrix multiply-accumulate into the matrix queue, or faults when diverged. -/
  | gmma (g : GroupRef) (w : Word64)
  /-- ACC_ZERO (R149). Issues a clear of an accumulator tile into the matrix queue. -/
  | accZero (g : GroupRef) (w : Word64)
  /-- ACC_LD (R149). Issues a load of an accumulator tile from a binary32 descriptor. -/
  | accLd (g : GroupRef) (w : Word64)
  /-- ACC_ST (R149). Issues a store of an accumulator tile, converting under RM. -/
  | accSt (g : GroupRef) (w : Word64)
  /-- MATRIX_QUEUE_EXECUTE (R84). The matrix engine takes the next queue entry and executes it with exact k-block accumulation. -/
  | matrixQueueExecute (core : Nat)
  /-- FAULT_REPORT (R103). A fault report reaches the command processors, which signal the kill over the draft. -/
  | faultReport (ctx : Nat)
  /-- LAUNCH_KILL (R103). After issued stores complete, the kill releases locks as abandoned, writes the fault record and completes the
  launch CONTEXT_KILLED. -/
  | launchKill (ctx : Nat)
  /-- WATCHDOG_NO_RETIRE (R102). No group of a resident launch retired an instruction for one tick period; cause 0x4D. -/
  | watchdogNoRetire (ctx : Nat)
  /-- WATCHDOG_LIMIT (R102). The launch's resident time reaches its WDOG limit; cause 0x4E. -/
  | watchdogLimit (ctx : Nat)
  /-- CORE_HANG (R356). A core misses the heartbeat for 10 µs while holding a gang, or misses the kill bound, and is declared dead. -/
  | coreHang (core : Nat)
  /-- ROW_SELF_TEST (R408). A row held by no slice is switched on for 2 ms every 60 s to self-test its cores. -/
  | rowSelfTest (die row : Nat) (failed : BitVec 13)
  /-- LAUNCH_COMPLETE (R170). After the last group exits and all stores are performed, the launch releases held locks and writes its
  completion record. -/
  | launchComplete (ctx : Nat)
  /-- LAUNCH (R302). Command that starts the gangs of a launch on the slice's core rows. -/
  | launchCmd (r : CmdRef)
  /-- COPY (R304). Command that copies bytes from source to destination on a copy engine, then writes the flag. -/
  | copyCmd (r : CmdRef)
  /-- FILL (R304). Command that fills a destination with an 8-byte pattern. -/
  | fillCmd (r : CmdRef)
  /-- INLINE_WRITE (R304). Command that writes its inline payload to a destination. -/
  | inlineWrite (r : CmdRef)
  /-- WAIT (R306). Command that holds back its channel until a word meets a condition. -/
  | waitCmd (r : CmdRef)
  /-- WAIT_REEVALUATE (R306). A write to the waited word's line causes the WAIT to re-evaluate its condition within 2 µs. -/
  | waitReevaluate (ch : Nat)
  /-- SIGNAL (R306). Command that writes or adds to a word at a global address as one indivisible access. -/
  | signalCmd (r : CmdRef)
  /-- FENCE_CMD (R308). Command that waits for every earlier command of its channel and holds back later ones until it completes. -/
  | fenceCmd (r : CmdRef)
  /-- BANK (R366). Command that requests a bank point of its lock set. -/
  | bankCmd (r : CmdRef)
  /-- MEASURED_LOAD (R307). Command that copies data while hashing it into a measurement slot, recording the digest when FINAL. -/
  | measuredLoad (r : CmdRef)
  /-- MIX (R286). Command that runs chunked prefill beside repeated decode launches within the same ticks. -/
  | mixCmd (r : CmdRef)
  /-- RESERVED_COMMAND (R299). A command with a reserved opcode, with unpredictable results. -/
  | reservedCommand (r : CmdRef)
  /-- DONATE (R215). CONTEXT_MAP operation that adds 2 MiB pages to the slice's ember pools. -/
  | donate (r : CmdRef)
  /-- RECLAIM (R215). CONTEXT_MAP operation that removes pages from the ember pools. -/
  | reclaim (r : CmdRef)
  /-- ALLOC (R218). CONTEXT_MAP operation that allocates FREE map entries as EMPTY. -/
  | alloc (r : CmdRef)
  /-- REF (R218). CONTEXT_MAP operation that increments an entry's reference count. -/
  | refEntry (r : CmdRef)
  /-- FREE (R224). CONTEXT_MAP operation that decrements REFS and at zero frees the entry and quarantines its storage. -/
  | freeEntry (r : CmdRef)
  /-- QUERY (R213). CONTEXT_MAP operation that copies entries out with ADDR zero. -/
  | queryEntry (r : CmdRef)
  /-- SET (R218). CONTEXT_MAP operation that sets DEADLINE and optionally PIN_TIER. -/
  | setEntry (r : CmdRef)
  /-- LAYOUT (R208). CONTEXT_MAP operation that writes a layout word of the slice. -/
  | layoutCmd (r : CmdRef)
  /-- ENCODE (R223). CONTEXT_MOVE operation that encodes staged keys and values into new block storage, copy-on-write when shared. -/
  | encode (r : CmdRef)
  /-- DECODE (R220). CONTEXT_MOVE operation that writes a block's positions to staging. -/
  | decode (r : CmdRef)
  /-- MIGRATE (R225). CONTEXT_MOVE operation that copies a block to a tier, possibly narrowing its format. -/
  | migrate (r : CmdRef)
  /-- CONTEXT_BLOCK_TRANSACTION (R222). The context engine completes one non-pre-emptible block transaction and switches the entry to new storage. -/
  | contextBlockTransaction (r : CmdRef)
  /-- ALL_REDUCE (R346). Collective that reduces over all ranks into every rank's destination. -/
  | allReduce (r : CmdRef)
  /-- REDUCE (R348). Collective that reduces into the root's destination only. -/
  | reduceCmd (r : CmdRef)
  /-- BROADCAST (R346). Collective that copies the root's source to every rank. -/
  | broadcastCmd (r : CmdRef)
  /-- REDUCE_SCATTER (R346). Collective that gives rank r the reduction of every rank's block r. -/
  | reduceScatter (r : CmdRef)
  /-- ALL_GATHER (R346). Collective that gathers every rank's block into every destination. -/
  | allGather (r : CmdRef)
  /-- ALL_TO_ALL (R346). Collective that exchanges blocks between all ranks. -/
  | allToAll (r : CmdRef)
  /-- BARRIER (R346). Collective that completes when every rank has arrived. -/
  | barrierCmd (r : CmdRef)
  /-- COLLECTIVE_STEP_START (R348). A collective step starts once every contribution to it has reached the reduction engine. -/
  | collectiveStepStart (g : Nat)
  /-- COLLECTIVE_WAIT_EXPIRY (R348). A step that has waited COLL_WAIT ticks completes the collective REMOTE_LOST. -/
  | collectiveWaitExpiry (g : Nat)
  /-- COMMAND_FETCH (R293). The command processors fetch the command at FETCH with its word and extension slots and advance FETCH. -/
  | commandFetch (ch : Nat)
  /-- DISPATCH (R274). A queue dispatches the channel head with the earliest effective deadline once resources and a completion slot are free. -/
  | dispatch (res : Resource)
  /-- TICK_BOUNDARY (R272). At T(B) the tick number advances, released commands enter dispatch and released launches start. -/
  | tickBoundary
  /-- GRANULE_BOUNDARY (R277). Every 10 µs the command processors form each slice's resident set and pre-empt launches or take them in. -/
  | granuleBoundary
  /-- SAVE_COMPLETE (R278). A pre-empted launch's save images are written and its cores are freed. -/
  | saveComplete (ctx : Nat)
  /-- RESTORE_COMPLETE (R278). A launch's save images are written back onto cores and issue resumes. -/
  | restoreComplete (ctx : Nat)
  /-- OVERRUN_STOP (R282). An overrun reaching one tick period stops the non-pre-emptible command, which completes OVERRUN. -/
  | overrunStop (r : CmdRef)
  /-- VOTE_CLOSE (R283). At T(B) − LS_LEAD each member module casts its READY vote for the lock set. -/
  | voteClose (k : Nat)
  /-- HELLO (R342). Draft HELLO frame from a neighbour, exchanged during discovery and by late joiners. -/
  | hello (q : Nat) (f : DraftFrame)
  /-- ELECT (R343). Draft ELECT flood carrying the best root candidate, forwarded only on improvement. -/
  | elect (q : Nat) (f : DraftFrame)
  /-- ASSIGN (R343). Draft ASSIGN record giving a module its depth, parent, ring position and system size. -/
  | assign (q : Nat) (f : DraftFrame)
  /-- ALIGN (R339). Draft ALIGN frame carrying timestamps; steers device time toward the parent. -/
  | align (q : Nat) (f : DraftFrame)
  /-- ALIGN_EXCHANGE (R339). Every 100 µs the module sends ALIGN frames to every neighbour. -/
  | alignExchange
  /-- VOTE (R283). Draft VOTE frame combined by AND up the tree for a lock set's boundary. -/
  | vote (q : Nat) (f : DraftFrame)
  /-- OUTCOME (R283). Draft OUTCOME frame returning the lock-set decision, releasing heads, sealing or confirming banks. -/
  | outcome (q : Nat) (f : DraftFrame)
  /-- PARITY_UPDATE_COMPLETE (R367). Bringing parity to the sealed tick ends, allowing the older before-images to be freed. -/
  | parityUpdateComplete (k : Nat)
  /-- BARRIER_UP (R338). Draft BARRIER_UP frame combined up the tree. -/
  | barrierUp (q : Nat) (f : DraftFrame)
  /-- BARRIER_DOWN (R338). Draft BARRIER_DOWN frame completing a barrier down the tree. -/
  | barrierDown (q : Nat) (f : DraftFrame)
  /-- PERIOD (R265). Draft PERIOD flood carrying the pending tick period and its tick. -/
  | periodFrame (q : Nat) (f : DraftFrame)
  /-- ROLLBACK (R370). Draft ROLLBACK flood that stops member channels and starts the restore. -/
  | rollback (q : Nat) (f : DraftFrame)
  /-- LOST (R500). Draft LOST flood naming a lost module; member modules originate a class 0x04 rollback. -/
  | lostFrame (q : Nat) (f : DraftFrame)
  /-- DRAFT_NAK (R336). Draft DRAFT_NAK frame asking the sender to resend from a missing SEQ. -/
  | draftNak (q : Nat) (f : DraftFrame)
  /-- DRAFT_NAK_RETRY (R336). Every 20 µs until a draft gap is filled, the receiver resends DRAFT_NAK. -/
  | draftNakRetry (q : Nat)
  /-- NEIGHBOUR_LOSS (R500). No draft frame from a neighbour for 300 µs, or all links down, declares it lost and floods LOST. -/
  | neighbourLoss (q : Nat)
  /-- HOLDOVER_EXPIRY (R264). HOLDOVER beyond HOLDOVER_LIMIT enters FREE and its lock sets treat the module as lost. -/
  | holdoverExpiry
  /-- WRITE (R321). Transport WRITE frame performed in PSN order at the target after window checks. -/
  | writeFrame (q : Nat) (f : TFrame)
  /-- READ_REQ (R321). Transport READ_REQ frame read at the target and answered with READ_RESP. -/
  | readReq (q : Nat) (f : TFrame)
  /-- READ_RESP (R321). Transport READ_RESP frame delivering data to a waiting load or copy. -/
  | readResp (q : Nat) (f : TFrame)
  /-- ACK (R324). Transport ACK frame acknowledging every PSN below ACK_PSN, with ECE halving the path rate. -/
  | ackFrame (q : Nat) (f : TFrame)
  /-- NAK (R324). Transport NAK frame causing retransmission from a PSN, or reporting a refusal. -/
  | nakFrame (q : Nat) (f : TFrame)
  /-- SIGNAL_FRAME (R306). Transport SIGNAL frame performed as one indivisible access at the target's home. -/
  | signalFrame (q : Nat) (f : TFrame)
  /-- COLL (R351). Transport COLL frame carrying a collective stream block to the reduction engine. -/
  | collFrame (q : Nat) (f : TFrame)
  /-- LINK_ACK (R325). Link-level acknowledgement freeing replay-buffer space on a hop. -/
  | linkAck (q : Nat) (f : TFrame)
  /-- LINK_NAK (R325). Link-level replay request; the sender replays from the named LSEQ. -/
  | linkNak (q : Nat) (f : TFrame)
  /-- LINK_ACK_TIMER (R325). Every 1 µs the receiver of a direct hop sends a LINK_ACK. -/
  | linkAckTimer (q : Nat)
  /-- FRAME_FORWARD (R327). A frame not addressed to the module is forwarded by the route table. -/
  | frameForward (q dst : Nat) (ty : Nat) (f : TFrame)
  /-- ACK_TIMER (R324). An acknowledgement is sent within 2 µs of the oldest unacknowledged frame. -/
  | ackTimer (path : Nat)
  /-- RETRANSMIT_TIMEOUT (R324). An unacknowledged frame is retransmitted after the larger of 4 round trips and 20 µs. -/
  | retransmitTimeout (path : Nat)
  /-- TRANSPORT_TIMEOUT (R311). A path exceeds TRANSPORT_TIMEOUT: remaining writes are dropped, the command completes REMOTE_LOST and the
  path is reset. -/
  | transportTimeout (path : Nat)
  /-- ECE_RECOVERY (R326). Each 10 µs without ECE raises a path's rate by 1/64 of the port rate. -/
  | eceRecovery (path : Nat)
  /-- PATH_CONTEXT_FREE (R323). A path context is freed after 1 s idle with nothing unacknowledged. -/
  | pathContextFree (path : Nat)
  /-- WC_IDLE_SEND (R314). A write-combining entry with no store for 1 µs is sent. -/
  | wcIdleSend (core : Nat) (line : Word64)
  /-- SEND (R330). RoCEv2 SEND packet filling receive slots, or drawing an RNR or error NAK. -/
  | roceSend (p : RocePacket)
  /-- RDMA_WRITE (R329). RoCEv2 RDMA WRITE checked against the window and QP key and performed at device scope. -/
  | rdmaWrite (p : RocePacket)
  /-- RDMA_READ (R329). RoCEv2 RDMA READ request answered with read responses. -/
  | rdmaRead (p : RocePacket)
  /-- ROCE_ACKNOWLEDGE (R328). RoCEv2 acknowledge advancing QP_SQ_DONE. -/
  | roceAcknowledge (p : RocePacket)
  /-- CNP (R328). A received RoCEv2 CNP halves the path rate like ECE. -/
  | cnp (qp : Nat)
  /-- ROCE_UNSUPPORTED_OPCODE (R328). An unsupported RoCEv2 opcode draws an invalid-request NAK and moves the QP to error. -/
  | roceUnsupportedOpcode (p : RocePacket)
  /-- PORT_DOWN (R334). A logical port goes down and routes switch to their alternates within 100 µs. -/
  | portDown (q : Nat)
  /-- ROUTE_RECOMPUTE (R334). Entries without a valid alternate are recomputed from neighbours' tables within 50 ms. -/
  | routeRecompute (routes : List RouteCand)
  /-- PORT_UP (R470). A logical port trains and begins HELLO as a new neighbour. -/
  | portUp (q : Nat)
  /-- JOINED_ENTRY (R343). Time alignment converges and the module enters LOCKED and JOINED. -/
  | joinedEntry
  /-- RDS (R191). Read-shared request at a home directory, served from the nearest holder. -/
  | rds (a : Nat) (l : LineKey) (sectors : BitVec 8)
  /-- RDM (R191). Read-for-ownership request at a home directory. -/
  | rdm (a : Nat) (l : LineKey)
  /-- UPG (R191). Upgrade of a shared copy at the home directory, or treated as RdM. -/
  | upg (a : Nat) (l : LineKey)
  /-- WBK (R191). Writeback of an owned line to its home. -/
  | wbk (a : Nat) (l : LineKey) (dirty : BitVec 8)
  /-- DROP (R191). An owner gives up a line without data. -/
  | dropLine (a : Nat) (l : LineKey)
  /-- FORWARD (R193). A forward reaches an owning agent, which completes its waiting accesses then supplies data. -/
  | forwardLine (a : Nat) (l : LineKey)
  /-- INVALIDATION (R193). An invalidation reaches an agent or L1 queue and is answered. -/
  | invalidation (t : InvTarget) (l : LineKey)
  /-- FILL_DATA_ARRIVAL (R195). Fill data lands at a miss register and is given to its waiters in arrival order. -/
  | fillDataArrival (m : MissUnit) (l : LineKey)
  /-- WRITEBACK_LANDS (R194). A writeback lands at the home, which then serves the queued requests. -/
  | writebackLands (l : LineKey)
  /-- LINK_FREEZE (R203). Write of a die-link freeze bit, stopping grants and rerouting requests. -/
  | linkFreeze (cr : Cred) (l : Nat) (v : Nat)
  /-- DIE_LINK_RETRAIN (R25). A die link retrains or is declared dead after three failures and traffic reroutes. -/
  | dieLinkRetrain (l : Nat) (fails : Nat)
  /-- CH_FREEZE (R249). Write of a stack-channel freeze bit, holding requests at its arbiter. -/
  | chFreeze (cr : Cred) (stack ch : Nat) (v : Nat)
  /-- CORRECTED_ERROR (R354). A corrected memory or link error is corrected in place and counted. -/
  | correctedError (p : ErrPlace)
  /-- UNCORRECTABLE_ERROR (R252). An uncorrectable error poisons the line and causes rollback or stop by Table 12.1. -/
  | uncorrectableError (line : Nat) (reader : ErrReader)
  /-- PATROL_SCRUB (R251). Patrol reads a line of a tier, writes back corrected data and counts corrections. -/
  | patrolScrub (line : Nat) (found : PatrolFind) (lastOfPass : Bool)
  /-- CXL_LINK_FAIL (R258). A CXL link or device fails and its lines are treated as uncorrectable. -/
  | cxlLinkFail (x : Nat)
  /-- TIERING_MOVE_COMPLETE (R227). An automatic move's transaction ends and the entry switches to its new storage. -/
  | tieringMoveComplete (slice : Nat)
  /-- HEAT_DECAY (R227). When the tick count reaches HEAT_DECAY, every HEAT of the slice is halved. -/
  | heatDecay (slice : Nat)
  /-- BEFORE_IMAGE_COPY (R362). A first write to a banked page after a bank point waits while its before-image is copied, then proceeds. -/
  | beforeImageCopy (slice page : Nat)
  /-- ROLLBACK_DETECT (R370). A detecting unit reports a rollback-class event and the module floods ROLLBACK. -/
  | rollbackDetect (k cls : Nat)
  /-- RESTORE_COMPLETE_ROLLBACK (R370). Before-images, map and parity restores end and the member votes ready for rekindle. -/
  | restoreCompleteRollback (k : Nat)
  /-- REJOIN_WAIT_EXPIRY (R372). A lost member not returned within REJOIN_WAIT ends the lock set. -/
  | rejoinWaitExpiry (k : Nat)
  /-- MAINTENANCE_POINT (R359). With no bank point within 1 s of a core death or failing channel, a maintenance point replaces and maps out. -/
  | maintenancePoint
  /-- CREATE (R382). Slice operation granting all resources and entering ACTIVE, or refusing whole. -/
  | createSlice (cr : Cred) (o : SopReq)
  /-- DESTROY (R401). Slice operation disabling windows, entering DESTROYED and starting the scrub. -/
  | destroySlice (cr : Cred) (o : SopReq)
  /-- MAP (R390). Slice operation that maps pages from the quota with well-formed entries. -/
  | mapPages (cr : Cred) (o : SopReq)
  /-- UNMAP (R390). Slice operation that removes mappings and returns pages to the quota. -/
  | unmap (cr : Cred) (o : SopReq)
  /-- PROTECT (R390). Slice operation that sets page rights. -/
  | protect (cr : Cred) (o : SopReq)
  /-- QUIESCE (R384). Slice operation entering QUIESCING with a limit for running commands. -/
  | quiesceSlice (cr : Cred) (o : SopReq)
  /-- QUIESCE_LIMIT_EXPIRY (R384). At LIMIT_US running commands of the slice are stopped and complete SLICE_QUIESCED. -/
  | quiesceLimitExpiry (slice : Nat)
  /-- QUIET_REACHED (R385). Every quiet condition holds and the slice enters QUIET. -/
  | quietReached (slice : Nat)
  /-- RESUME (R383). Slice operation returning a QUIET slice to ACTIVE. -/
  | resumeSlice (cr : Cred) (o : SopReq)
  /-- RESET (R387). Slice operation returning slice state to creation values, or NOT_QUIET. -/
  | resetSlice (cr : Cred) (o : SopReq)
  /-- SCRUB_END (R401). The scrub of a destroyed slice ends and its resources return to their pools; `checkFailed`: the
  read-back check of a secure-world slice's scrub has failed (Table 13.11). -/
  | scrubEnd (slice : Nat) (checkFailed : Bool)
  /-- MIG_LOG_HARVEST (R391). A read of MIG_LOG returns and clears the set bits of the migration log. -/
  | migLogHarvest (cr : Cred) (slice : Nat)
  /-- MIG_ENABLE (R391). Write of MIG_ENABLE; setting it clears the migration log. -/
  | migEnable (cr : Cred) (slice : Nat) (v : Nat)
  /-- ATTEST_NONCE (R398). Write of a slice nonce producing a signed slice token. -/
  | attestNonce (cr : Cred) (slice : Nat) (nonce : List Byte)
  /-- DEV_ATTEST_NONCE (R398). Manager write of a nonce producing a signed device token. -/
  | devAttestNonce (cr : Cred) (nonce : List Byte)
  /-- SPDM_REQUEST (R400). Write of an SPDM request answered by the root of trust. -/
  | spdmRequest (cr : Cred) (req : List Byte)
  /-- ARB_ADVANCE (R396). Manager write advancing an anti-rollback counter. -/
  | arbAdvance (cr : Cred) (c v : Nat)
  /-- MGR_KEY (R483). Write of the manager public key, unsigned only while it is all zero. -/
  | mgrKey (cr : Cred) (mgmt : Bool) (key : List Byte)
  /-- DOORBELL (R293). Write of a channel's new TAIL, enabling fetch of the covered slots. -/
  | doorbell (cr : Cred) (ch : Nat) (v : Nat)
  /-- COMPL_HEAD (R296). Write returning consumed completion records, freeing slots for dispatch. -/
  | complHead (cr : Cred) (ch : Nat) (v : Nat)
  /-- CH_ENABLE (R297). Write enabling or disabling a channel's fetch. -/
  | chEnable (cr : Cred) (ch : Nat) (v : Nat)
  /-- PERIOD_AT (R265). Write on the root scheduling a tick-period change, or refused. -/
  | periodAt (cr : Cred) (v : Nat)
  /-- LS_ENABLE (R285). Write enabling a lock-set slot after its checks. -/
  | lsEnable (cr : Cred) (k v : Nat)
  /-- W_ENABLE (R313). Write enabling or disabling an export window, completing when admitted accesses are performed. -/
  | wEnable (cr : Cred) (win v : Nat)
  /-- QP_SQ_TAIL (R330). Write posting send slots of a QP. -/
  | qpSqTail (cr : Cred) (qp v : Nat)
  /-- QP_RQ_HEAD (R330). Write returning consumed receive slots of a QP. -/
  | qpRqHead (cr : Cred) (qp v : Nat)
  /-- ALERT_CAUSE (R444). Manager write-1-to-clear of alert bits; `ended`: bits of the causes that the sensors then show to be over. -/
  | alertCause (cr : Cred) (v ended : Nat)
  /-- RESTART (R460). Manager write returning the module to STANDBY and retrying start-up. -/
  | restart (cr : Cred) (v : Nat)
  /-- FW_RECOVERY (R473). Bulk write of a signed image that is verified, written to copy A and restarted from M1. -/
  | fwRecovery (img : FwImage)
  /-- OBJECT_WRITE (R491). Write of any object without a row of its own, after type, right, range and state checks. -/
  | objectWrite (cr : Cred) (index sub ty : Nat) (val : List Byte)
  /-- OD_READ (R484). Object dictionary READ frame returning one value entry per reference. -/
  | odRead (f : OdFrame)
  /-- OD_WRITE (R484). Object dictionary WRITE frame performing its entries in order until the first refusal. -/
  | odWrite (f : OdFrame)
  /-- OD_BULK_READ (R486). Bulk read of an object chunk, taking a snapshot at offset 0. -/
  | odBulkRead (f : OdFrame)
  /-- OD_BULK_WRITE (R487). Bulk write chunk staged until the FINAL chunk writes the object. -/
  | odBulkWrite (f : OdFrame) (img : FwImage)
  /-- OD_SUBSCRIBE (R488). Creates a subscription on change or periodic. -/
  | odSubscribe (f : OdFrame)
  /-- OD_UNSUBSCRIBE (R488). Ends a subscription. -/
  | odUnsubscribe (f : OdFrame)
  /-- OD_NOTIFY (R488). A subscription's sample or period timer sends a NOTIFY frame. -/
  | odNotify (sub : Nat)
  /-- OD_MALFORMED_FRAME (R478). A frame with a reserved OP or malformed header is refused with REASON 0x08. -/
  | odMalformedFrame (f : OdFrame)
  /-- SNAPSHOT_EXPIRY (R486). A bulk snapshot unread for 10 s is released. -/
  | snapshotExpiry (cr : Cred) (key : Nat)
  /-- BULK_BUFFER_EXPIRY (R487). An idle bulk staging buffer is emptied after 10 s. -/
  | bulkBufferExpiry (cr : Cred)
  /-- STORED_COUNTER_FLUSH (R493). Stored counters are written to flash at most once per 60 s. -/
  | storedCounterFlush
  /-- CP_ENABLE (R446). Write starting negotiation of a chiplet port. -/
  | cpEnable (cr : Cred) (p v : Nat)
  /-- CP_NEGOTIATION_COMPLETE (R446). Chiplet negotiation ends, admitting or refusing the die. -/
  | cpNegotiationComplete (p : Nat) (n : CpNegotiation)
  /-- SS_ENABLE (R453). Write enabling or disabling a spark-screen window, recalling held lines on disable. -/
  | ssEnable (cr : Cred) (p win v : Nat)
  /-- CP_RD (R450). Chiplet RD request for sectors of a line, screened and performed at the home. -/
  | cpRd (p : Nat) (m : CpMsg)
  /-- CP_RDO (R450). Chiplet RDO request for ownership of a line. -/
  | cpRdo (p : Nat) (m : CpMsg)
  /-- CP_WR (R450). Chiplet WR of bytes within one line, optionally with release ordering. -/
  | cpWr (p : Nat) (m : CpMsg)
  /-- CP_ATOM (R450). Chiplet atomic request. -/
  | cpAtom (p : Nat) (m : CpMsg)
  /-- CP_WBK (R450). Chiplet writeback of dirty sectors. -/
  | cpWbk (p : Nat) (m : CpMsg)
  /-- CP_DROP (R450). Chiplet gives up an owned line without data. -/
  | cpDrop (p : Nat) (m : CpMsg)
  /-- CP_ACK (R449). Chiplet snoop answer without data. -/
  | cpAck (p : Nat) (m : CpMsg)
  /-- CP_ACK_DATA (R449). Chiplet snoop answer carrying data. -/
  | cpAckData (p : Nat) (m : CpMsg)
  /-- SNOOP_TIMEOUT (R452). A snoop unanswered for 2 µs fences the chiplet port. -/
  | snoopTimeout (p : Nat) (addr : BitVec 48)
  /-- DAMPER_WINDOW (R414). Every 2 µs the damper estimates power and current and steps, gates or boosts. -/
  | damperWindow (m : DamperIn)
  /-- DAMPER_TRIM (R413). Every 1 ms the damper trims its coefficients against measured input power. -/
  | damperTrim (measuredW : Nat)
  /-- ENERGY_UPDATE (R421). Every 1 ms ENERGY is updated from power-stage measurements: the input's voltage at the sense wires and at the
  terminals, and the rest. -/
  | energyUpdate (sensemV terminalmV : Nat) (t : Telemetry)
  /-- POINT_CHANGE_COMPLETE (R412). A change of point completes and POINT_HELD and CORE_CLOCK are written. -/
  | pointChangeComplete
  /-- THERMAL_TRIP (R416). A sensor at its trip temperature removes every rail except domain 87 and enters STANDBY. -/
  | thermalTrip
  /-- DROOP_ONSET (R417). A row supply droop stretches that row's clock within 1 ns. -/
  | droopOnset (die row : Nat)
  /-- DROOP_RECOVERY (R417). The supply recovers and the stretch is released over 100 ns. -/
  | droopRecovery (die row cycles : Nat)
  /-- DOMAIN_87_UP (R461). Domain 87 comes up and the boot ROM runs the management boot. -/
  | domain87Up (b : MgmtBoot)
  /-- INPUT_BELOW_18V (R425). Input below 18 V puts the module OFF. -/
  | inputBelow18v
  /-- PRESENT_N_CLOSE (R428). PRESENT_N closes and inrush is scheduled 10 ms later. -/
  | presentNClose
  /-- PRESENT_N_OPEN (R428). PRESENT_N opens and stages and switch turn off within 100 µs. -/
  | presentNOpen
  /-- INRUSH_START (R428). 10 ms after PRESENT_N closes, the input switch begins charging the bulk. -/
  | inrushStart
  /-- INRUSH_COMPLETE (R428). The bulk charge completes. -/
  | inrushComplete
  /-- POWER_GOOD (R463). All power-good conditions hold and the module may enter BOOT. -/
  | powerGood
  /-- UNDERVOLTAGE (R425). Input below 38.5 V turns the stages off and enters STANDBY. -/
  | undervoltage
  /-- OVERVOLTAGE (R425). Input above 62 V for 20 µs opens the input switch. -/
  | overvoltage
  /-- OVERVOLTAGE_RECOVERY (R425). Input falls below 61 V and the switch closes again. -/
  | overvoltageRecovery
  /-- INPUT_OVERCURRENT (R425). Input above 75 A for 50 µs opens the input switch. -/
  | inputOvercurrent
  /-- OVERCURRENT_RECLOSE (R425). 1 s after an overcurrent trip the input switch closes again. -/
  | overcurrentReclose
  /-- AUX12_SHORT (R425). AUX12 above 4 A for 1 ms turns AUX12 off. -/
  | aux12Short
  /-- AUX12_RETRY (R425). Every 1 s AUX12 is retried after a short. -/
  | aux12Retry (mA : Nat)
  /-- ENABLE_CHANGE (R460). ENABLE goes low, returning the module to STANDBY, or rises, allowing start-up. -/
  | enableChange (high : Bool) (lowMs : Nat)
  /-- VSENSE_CHECK (R425). Every 1 ms VSENSE is compared with the terminal measurement. -/
  | vsenseCheck (sensemV terminalmV : Nat)
  /-- LEAK_DETECT (R443). LEAK_N low for 10 ms counts a leak and may enter STANDBY. -/
  | leakDetect
  /-- COOL_TACH_LOW (R443). Tachometer below COOL_TACH_MIN for 2 s sets an alert. -/
  | coolTachLow (hz : Nat)
  /-- PLATE_OVER_LIMIT (R441). PLATE_TEMP above the class limit for 1 s sets an alert. -/
  | plateOverLimit (mC : Nat)
  /-- MGMT_LINK_DOWN (R436). An open or shorted management pair takes the port down. -/
  | mgmtLinkDown
  /-- BOOT (R464). The module enters BOOT, powers its dies, loads firmware, trains die links and self-tests cores. -/
  | boot (b : BootIn)
  /-- READY_LOCAL (R467). Every training activity has ended or passed its bound and the module enters READY_LOCAL. -/
  | readyLocal (t : TrainIn)
  /-- DIE_LINK_RETURN (R25). A die link that was retraining finishes its retrain and returns to service, and traffic goes back to its normal
  routes. -/
  | dieLinkReturn (l : Nat)
  /-- MAP_OUT_COMPLETE (R243). A stack-channel map-out ends its copies and writes the lookup, STACK_TOP, MAPOUTS and CH_STATE, steering
  queued requests to the new placements. -/
  | mapOutComplete (stack ch : Nat)
  /-- SPARE_REPLACEMENT_COMPLETE (R358). The spare finishes taking a dead core's logical column, and gangs may again be placed on that column. -/
  | spareReplacementComplete (die row : Nat)
  /-- TIER_ZEROING_COMPLETE (R468). Start-up zeroing of a tier, or of the bank reserve, ends; its capacity joins the pool and REKINDLE lock
  sets may be enabled. -/
  | tierZeroingComplete (tier : ZeroTarget)
  /-- MGMT_LINK_UP (R436). The management port's 10BASE-T1S link comes back up and MGMT_LINK reads true. -/
  | mgmtLinkUp
  /-- PTP_MESSAGE (R341). An IEEE 1588 message received by the root with PTP_ENABLE set is used to set or slew device time and update PTP_OFFSET. -/
  | ptpMessage (ptpTime : Nat)
  /-- NEIGHBOUR_DISCOVERY_MESSAGE (R320). An IPv6 neighbour-discovery message for a port address, or for the management link-local address,
  is answered. -/
  | neighbourDiscoveryMessage (q : Nat) (pfx iid : Word64)
  /-- PFC_FRAME (R319). A received IEEE 802.1Qbb priority-flow-control frame pauses or resumes transmission on the RoCEv2 priority. -/
  | pfcFrame (q : Nat) (pause : Bool)
  /-- TRANSPORT_RESERVED_TYPE (R321). A transport frame whose TYPE is reserved is dropped and counted in CRC_DROPS. -/
  | transportReservedType (ty : Nat)
  deriving DecidableEq, Repr

end Sys2Proof
end

