-- ==== Sys2Proof/Config.lean ====
section
/-! DEFINITION. Config.lean: what one part fixes and no rule states, and the free values. Every constant here is opaque:
no proof can see its value, so a claim holds whatever it is. -/

namespace Sys2Proof.Config

/-- Free values (log 3): the value number `n` that the manual leaves open. `State.free` numbers them. -/
opaque freeNat : Nat → Nat

/-- Values "By test" and "Running" of the object tables (R501), by object key (index × 256 + subindex). -/
opaque byTest : Nat → Nat

/-- The address hash of a 512-byte line that spreads traffic between opposite dies over the two ring routes (R25, log 105). -/
opaque lineHash : Nat → Bool

/-- The hash of a path, by its two modules, that gives its frames their flow label (R322, log 107). -/
opaque flowHash : Nat → Nat → Nat

/-- ADDR of a COLL frame, from its stream and block number as numbers (Table 11.3, log 50). -/
opaque collAddr : List Nat → Word64

/-- The slot strap SLOT2 to SLOT0 of the chassis (R435), 0 to 7. -/
opaque slotStrap : Nat

/-- Bytes of a signed attestation token (R398) over its claims as numbers: the key and the CBOR form are not in the manual. -/
opaque tokenBytes : List Nat → List Byte

/-- The root of trust's answer to an SPDM request it supports (R400), from the number of the answer, the digests of boot stages 1 to 5 and the
four counters (measurements 1 to 6), and the request: its signature, nonce and certificates are not in the manual. -/
opaque spdmAnswer : List Nat → List Byte → List Byte

/-- Security version of the image of stage `i` that copy B of the module flash holds (R395). -/
opaque versionB : Nat → Nat

/-- The damper's coefficients (R413), set at test: 1/1000 mW, and 1/1000 mA of core-rail current, per count of an activity (by its number) of
a power domain. -/
opaque powerCoef : Nat → Nat → Nat
opaque currentCoef : Nat → Nat → Nat

/-- The static terms of a power domain's estimate (R413) in mW and mA, from its voltage in mV and its temperature in m°C. -/
opaque staticPower : Nat → Nat → Int → Nat
opaque staticCurrent : Nat → Nat → Int → Nat

/-- The certificate chain DEVICE_CERTS (Table 13.9). -/
opaque deviceCerts : List Byte

/-- SHA-384 boot digest of stage `i` as a 384-bit number (R395). -/
opaque bootDigest : Nat → Nat

/-- The device's own capability word's fields that R448 leaves to the part: VENDOR and DIE_ID (Table 16.3). -/
opaque chipletIdent : Nat

end Sys2Proof.Config
end

