-- ==== Sys2Proof/Machine/State.lean ====
section
/-! DEFINITION. State.lean: everything the manual gives the module to hold, as plain data, and the state after reset. Objects of
the dictionary stand in `od` (one home each); what is no object stands in the records below. -/

namespace Sys2Proof.Machine

/-- Reasons for a fault of the model. -/
inductive Fault where
  /-- Raised by a physical access to a range that Table 8.1 reserves or that no tier populates. By R237 no access of the device
  reaches one, so only states outside the model's invariant raise it. Safe: the machine stops. -/
  | absentAddress
  deriving DecidableEq, Repr

/-- Reasons for a refusal. -/
inductive Refusal where
  /-- Raised by Dispatch for a command that has no meaning yet. Safe: nothing is claimed about it. -/
  | notModelled (mnemonic : String)
  /-- Raised when an operand is not well formed (WellFormed.lean): a word of another row, a number outside the part's range.
  Safe: the machine stops. -/
  | illFormed
  deriving DecidableEq, Repr

/-! ### Program execution (chapters 03 and 04) -/

/-- A line and the number of one of its eight sectors. -/
structure SectKey where
  line : LineKey
  i : Nat
  deriving DecidableEq, Repr

/-- A path of a group (R85). `parked` at bar.gang (R140), `paused` within 32 cycles of its pause (R88). -/
structure Path where
  pc : Word64
  mask : LaneMask
  join : Option Nat := none
  parked : Bool := false
  paused : Bool := false
  deriving DecidableEq, Repr

/-- A join entry (R85), named by `id`. -/
structure Join where
  id : Nat
  rpc : Word64
  expected : LaneMask
  arrived : LaneMask := 0
  parent : Option Nat := none
  deriving DecidableEq, Repr

/-- A plain load of one instruction from one sector whose value may still be that of a later moment (R164): space, bytes of each lane,
destination register, and the lanes with their addresses. -/
structure LateLoad where
  space : Nat
  n : Nat
  reg : Nat
  lanes : List (Nat × Nat)
  deriving DecidableEq, Repr

/-- A thread group (R76 to R91): registers held sparsely over their start values, the current path, the path queue and the
join table. Vector register r of lane i has key r × 32 + i. `late`: loads that may take a later value (R164); `fenced`: the group has run
an acquire fence at device scope or wider (R168). -/
structure Group where
  idx : Nat
  quad : Nat
  slot : Nat
  sregs : List (Nat × Word64) := []
  preds : List (Nat × LaneMask) := []
  predBase : Nat := 0
  vregs : List (Nat × Word32) := []
  cur : Option Path
  queue : List Path := []
  joins : List Join := []
  nextJoin : Nat := 0
  late : List LateLoad := []
  fenced : Bool := false
  deriving DecidableEq, Repr

/-- A stream descriptor as stk.start read it (Table 3.6); `bad` where R8, R94, R229 or R230 make its results unpredictable. -/
structure Desc where
  kind : Nat
  space : Nat
  srcFmt : Nat
  dstFmt : Nat
  ringBase : Nat
  slotBytes : Nat
  slots : Nat
  runAhead : Nat
  base : Word64
  rowBytes : Nat
  rows : Nat
  rowStride : Word64
  planes : Nat
  totalSlots : Nat
  planeStride : Word64
  bad : Bool := false
  deriving DecidableEq, Repr

/-- A stoker stream (R92 to R100). `avail`: sequence numbers that stk.take may hand out; `held`: taken and not given back; `given`: given
back and, on a drain stream, not yet stored; `work`: the next sequence number the stoker works on; `pos`: bytes of the walk that it has
covered; `dim`: the head dimension common to a context stream; `sent`: pieces of the slot being drained that are stored; `shadow`: sectors
that the gang's groups have stored to since the stream started, as they were before (R99). -/
structure Stream where
  no : Nat
  desc : Desc
  ended : Bool := false
  full : Nat := 0
  empty : Nat := 0
  work : Nat := 0
  avail : List Nat := []
  held : List Nat := []
  given : List Nat := []
  pos : Nat := 0
  dim : Option Nat := none
  sent : Nat := 0
  shadow : List (LineKey × Nat × Sector) := []
  deriving DecidableEq, Repr

/-- An accumulator tile (R79): element m × 64 + n over the free start value numbered `base` onward. -/
structure Tile where
  base : Nat
  cells : List (Nat × Word32) := []
  deriving DecidableEq, Repr

/-- A gang on its core (R76). -/
structure Gang where
  idx : Nat
  core : Nat
  groups : List Group
  spad : List Host.Cell := []
  tiles : List Tile := []
  streams : List Stream := []
  deriving DecidableEq, Repr

/-- A detected fault (Table 3.10 less FAULT_COUNT and LOCKS). `store`: it is that of a system-space store dropped or refused (R315). -/
structure FaultInfo where
  cause : Nat
  source : Nat := 0
  core : Nat := 0
  quad : Nat := 0
  slot : Nat := 0
  unit : Nat := 0
  gang : Nat := 0
  lanes : LaneMask := 0
  pc : Word64 := 0
  addr : Word64 := 0
  tick : Nat := 0
  time : Nat := 0
  info : Word64 := 0
  store : Bool := false
  deriving DecidableEq, Repr

/-- A held lock word: space (1 shared scratch, 2 device memory) and address (R109). -/
structure LockEnt where
  space : Nat
  addr : Word64
  deriving DecidableEq, Repr

/-- Life of a launch: waiting for rows, resident, being saved, saved, being restored (R277, R278). -/
inductive Phase where
  | waiting
  | resident
  | saving
  | saved
  | restoring
  deriving DecidableEq, Repr

/-- Part a launch plays: a LAUNCH command, a MIX's prefill chunk or a MIX's decode step (R286). -/
inductive Role where
  | command
  | prefill
  | decode
  deriving DecidableEq, Repr

/-- A launch context (R76, R101 to R111, R277, Table 10.5). `since`: device time from which no instruction has retired while resident; while
it is saved, the time that had passed. `resTicks`: tick periods resident. `overAt`: the time of the granule boundary that selected it for
pre-emption although it runs on, and `overrun` the granules of debt that this has made (R281). `lowStore`: the lowest global address of its
system-space stores that were dropped or refused (R315). `stop`: the status of a launch that is stopped without a fault record. `freed`:
locks released as abandoned. `deadline`: that of a MIX's launch; a LAUNCH has its command's. `codeStored`: words (address / 8) of executable
pages that have been stored to since the LAUNCH began (R115). `frozenAt`: the device time from which a request of the launch has waited at a
frozen channel, and `waited` the time that such waits took since the last instruction retired (R249). -/
structure Launch where
  ctx : Nat
  slice : Nat
  ch : Nat
  seq : Nat
  role : Role := .command
  entry : Word64
  faultRec : Word64
  rtick : Nat
  wdog : Nat
  gangs : Nat
  groups : Nat
  vregs : Nat
  spad : Nat
  tiles : Nat
  trap : Bool
  streams : Nat
  rows : List Nat := []
  sinit : List (Nat × Word64) := []
  phase : Phase := .waiting
  nextGang : Nat := 0
  live : List Gang := []
  locks : List LockEnt := []
  reports : List FaultInfo := []
  fault : Option FaultInfo := none
  faultCount : Nat := 0
  stopped : List Nat := []
  killed : Bool := false
  stop : Option Nat := none
  freed : Nat := 0
  resTicks : Nat := 0
  granules : Nat := 0
  since : Nat := 0
  relTick : Nat := 0
  relTime : Nat := 0
  atomic : Bool := false
  overrun : Nat := 0
  overAt : Option Nat := none
  deadline : Option Int := none
  codeStored : List Nat := []
  waited : Nat := 0
  lowStore : Option Nat := none
  frozenAt : Option Nat := none
  deriving DecidableEq, Repr

/-- An entry of a core's matrix queue (R84): the word and the descriptor registers read at issue. -/
structure MatEnt where
  g : GroupRef
  word : Word64
  aLo : Word64 := 0
  aHi : Word64 := 0
  bLo : Word64 := 0
  bHi : Word64 := 0
  pc : Word64 := 0
  deriving DecidableEq, Repr

/-- An entry of a core's write-combining buffer (R314): its line's global address, the bytes written, the group that last
wrote it and its slot. Entries stand least recently used first. -/
structure WcEnt where
  line : Word64
  bytes : List Host.Cell
  g : GroupRef
  slot : Nat
  deriving DecidableEq, Repr

/-- A core that is not as at reset: its matrix queue, write-combining buffer, whether it is dead (takes no new gang),
hung as well (runs nothing) or under replacement, and the times (UPTIME) of its corrected errors of the last second (R84, R314, R356 to R358). -/
structure Core where
  no : Nat
  mq : List MatEnt := []
  wc : List WcEnt := []
  dead : Bool := false
  hung : Bool := false
  replacing : Bool := false
  errTimes : List Nat := []
  deriving DecidableEq, Repr

/-! ### Memory, caches and directories (chapters 05, 06 and 08) -/

/-- An L1 line of a core with its valid sectors and their data (R178, R180). -/
structure L1Line where
  core : Nat
  line : LineKey
  slice : Nat
  sectors : List (Nat × Sector)
  deriving DecidableEq, Repr

/-- A line in an LLM, of its home die or as an agent's copy (R183): valid sectors, dirty sectors with the value beneath each, pin (R178,
R197). Most recently used first in the list. -/
structure LlmLine where
  die : Nat
  line : Nat
  slice : Nat
  valid : BitVec 8
  under : List (Nat × Sector) := []
  pinned : Bool := false
  deriving DecidableEq, Repr

/-- A discarded sector: a read takes the value beneath or the latest one, until the next write (R174, R199). -/
structure DeadSector where
  sector : Nat
  under : Sector
  deriving DecidableEq, Repr

/-- A store of a core that its agent has not performed yet (R162 to R168): the bytes that one instruction writes within one sector, as
(offset, bytes) in lane order. `rel`: a release at device scope or wider, performed after every earlier store of the core; `mark`: a
release fence, which nothing later of the core passes. -/
structure StoreEnt where
  ctx : Nat
  core : Nat
  slice : Nat
  space : Nat
  va : Nat
  line : LineKey
  i : Nat
  parts : List (Nat × List Byte) := []
  rel : Bool := false
  mark : Bool := false
  deriving DecidableEq, Repr

/-- States of a home-directory entry (Table 6.3). -/
inductive DirState where
  | shared
  | owned (a : Nat)
  | writeback (a : Nat)
  deriving DecidableEq, Repr

/-- A request queued at a home directory behind one in progress (R191). -/
structure DirReq where
  agent : Nat
  kind : Nat
  sectors : BitVec 8 := 255
  deriving DecidableEq, Repr

/-- An entry of a home directory (R186, R187): `owner` is the slice of the line; `fwd` a forward that an owner has not
answered; `awaited` agents whose invalidation answer is awaited; `req` the request in progress; `evict`: the entry is being freed; `wbk`: the
owner's writeback meets the forward (Table 6.4). -/
structure DirEnt where
  line : LineKey
  owner : Nat
  state : DirState
  holders : List Nat := []
  broadcast : Bool := false
  req : Option DirReq := none
  awaited : List Nat := []
  fwd : Option Nat := none
  queue : List DirReq := []
  dropped : Bool := false
  evict : Bool := false
  wbk : Bool := false
  deriving DecidableEq, Repr

/-- An entry of a die's local directory (R188): core rows that hold the line. -/
structure LocalDir where
  die : Nat
  line : LineKey
  slice : Nat
  rows : List Nat
  broadcast : Bool := false
  deriving DecidableEq, Repr

/-- Who asks for a sector: the device itself, a chiplet port, a group on its core (R126), an engine of a launch on a core or a core's
L1, a command, or an ember-store command (R216). -/
inductive Asker where
  | device
  | port (p : Nat)
  | group (g : GroupRef) (core : Nat)
  | unit (ctx core : Nat)
  | cmd (ch seq : Nat)
  | ember
  deriving DecidableEq, Repr

/-- A miss register with its waiters in arrival order (R195). -/
structure MissReg where
  u : MissUnit
  line : LineKey
  slice : Nat
  requested : BitVec 8
  invalidated : Bool := false
  bypass : Bool := false
  waiters : List Asker := []
  deriving DecidableEq, Repr

/-- An entry of a core's stream detector (R196): requester, last missing line, stride, run length. -/
structure DetEnt where
  core : Nat
  requester : Nat
  last : Nat
  stride : Int := 0
  run : Nat := 0
  deriving DecidableEq, Repr

/-- What a granted extent of physical memory is used for: a mapped page, a translation area, a save area, the device's own context map,
a page that UNMAP has returned to its slice's quota and that may hold its data, or storage of a destroyed slice to be scrubbed. -/
inductive Use where
  | page
  | trans
  | save
  | table
  | spare
  | scrub
  deriving DecidableEq, Repr

/-- A granted extent of physical memory (R390, R155, R279). -/
structure Extent where
  base : Nat
  size : Nat
  slice : Nat
  use : Use
  deriving DecidableEq, Repr

/-- Memory and caches. `bytes`: latest values in coherence order; an unlisted byte reads as the scrub value zero (R174, R468). `invq`:
invalidations queued at a core (R169). `poison`: poisoned sectors (R252). `lookup`: the map-out lookup of each die, its entries in order
(R242). `cxlCorrected`: corrections found by patrol on the lines of a CXL port (R251), which no object shows. `draining`: drained objects of
links and channels that a granted burst keeps false (R203, R249). `mapping`: channels being mapped out; `heldFreeze`: those of them that the
manager's freeze holds as well (R249); `deferrals`: points in a row at which the map-out of a channel (32 times the stack, and the channel)
was deferred (R379); `errSecond`: stack channels with the
times (UPTIME) of their corrected errors of the last second; `waitingReq`: requests that wait at frozen channels or whose fill has landed,
in arrival order (R195, R247); `missInput`: those that wait for a miss register (R195); `heldReqs`: agents' requests that wait at a home
for room in its directory or for a route (R189, R26), in arrival order; `cxlRegions`: base, size, ports; `retrain`: die
links that retrain; `zeroed`: tiers zeroed since the start-up. -/
structure Mem where
  bytes : List Host.Cell := []
  l1 : List L1Line := []
  invq : List (Nat × LineKey) := []
  llm : List LlmLine := []
  dead : List DeadSector := []
  poison : List Nat := []
  dirs : List DirEnt := []
  ldirs : List LocalDir := []
  miss : List MissReg := []
  det : List DetEnt := []
  extents : List Extent := []
  retrain : List Nat := []
  mapping : List (Nat × Nat) := []
  errSecond : List (Nat × Nat) := []
  deferrals : List (Nat × Nat) := []
  heldFreeze : List (Nat × Nat) := []
  waitingReq : List (Asker × SectKey) := []
  missInput : List MissReg := []
  heldReqs : List (LineKey × DirReq) := []
  lookup : List (Nat × List Nat) := []
  cxlCorrected : List (Nat × Nat) := []
  draining : List Nat := []
  cxlRegions : List (Nat × Nat × List Nat) := []
  zeroed : List ZeroTarget := []
  deriving DecidableEq, Repr

/-! ### Slices, ember store, measurements (chapters 07 and 13) -/

/-- A context-map entry (Table 7.3): `state` 0 FREE, 1 EMPTY, 2 STORED. -/
structure CtxEntry where
  state : Nat := 0
  tier : Nat := 0
  kfmt : Nat := 0
  vfmt : Nat := 0
  layout : Nat := 0
  pin : Bool := false
  valid : Nat := 0
  heat : Nat := 0
  refs : Nat := 0
  addr : Nat := 0
  deadline : Nat := 0
  tag : Nat := 0
  deriving DecidableEq, Repr

/-- A page of an ember pool (R215). -/
structure PoolPage where
  va : Nat
  pa : Nat
  tier : Nat
  deriving DecidableEq, Repr

/-- Quarantined storage (R224); `needSeal`: the next seal of the slice's lock set must come first. -/
structure Quar where
  pa : Nat
  bytes : Nat
  tier : Nat
  needSeal : Bool
  deriving DecidableEq, Repr

/-- A move that automatic tiering has listed or is making (R227): handle, tier it leaves and target tier. -/
structure Move where
  handle : Nat
  src : Nat
  tier : Nat
  demote : Bool
  started : Bool := false
  deriving DecidableEq, Repr

/-- A measurement slot in use (R307): the bytes fed so far, as SHA-384 chaining words, the bytes of a block not yet whole, and
their count; `bad` where the digest is unpredictable; `last`: channel and SEQ of the last command on the slot. -/
structure MSlot where
  slot : Nat
  words : List Word64
  buf : List Byte := []
  count : Nat := 0
  bad : Bool := false
  last : Option (Nat × Nat) := none
  deriving DecidableEq, Repr

/-- A recorded measurement (R399). -/
structure MRec where
  slot : Nat
  label : Word64
  digest : List Byte
  deriving DecidableEq, Repr

/-- An entry of an operation result ring (Table 13.5). -/
structure SopRes where
  seq : Nat
  op : Nat
  status : Nat
  done : Nat
  tick : Nat
  deriving DecidableEq, Repr

/-- An operation that waits behind another of its slice (R388). -/
structure SopWait where
  byManager : Bool
  op : Nat
  req : SopReq
  deriving DecidableEq, Repr

/-- A table of a slice's translation area: level and address (R155). -/
structure Table where
  level : Nat
  base : Nat
  deriving DecidableEq, Repr

/-- Resources of a slice (Table 13.1): of one that exists, or of one that is destroyed and not yet scrubbed (R401). -/
structure Held where
  slice : Nat
  world : Nat
  rows : Nat
  cache : List Nat
  scratch : List Nat
  stacked : Nat
  ddr : Nat
  cxl : Nat
  chans : Nat
  share : Nat
  mapBase : Nat
  mapEntries : Nat
  areas : Nat
  deriving DecidableEq, Repr

/-- What a slice holds beside its objects (chapters 05, 07, 12 and 13). `marks`: high and low watermark in force, by
tier (R235); `demoting`: tiers whose demotion goes on until they are below their low watermark (R227); `heatDue`: halvings of HEAT that boundaries
found due (R227); `debts`: granules of overrun debt by the rows that they are owed on, as a mask (R281); `denied`: the launches and heads in
whose place a granule of debt was paid at the last granule boundary (R281); `chosen`: the rows that the last granule boundary took LAUNCHes in
on, by channel and command (R277). -/
structure Slice where
  no : Nat
  transBase : Nat := 0
  saveBase : Nat := 0
  tables : List Table := []
  scratch : List Host.Cell := []
  entries : List (Nat × CtxEntry) := []
  mapBase : Nat := 0
  pools : List PoolPage := []
  quar : List Quar := []
  moves : List Move := []
  abandoned : List Nat := []
  heatTicks : Nat := 0
  heatDue : Nat := 0
  dirty : List Nat := []
  migDirty : List Nat := []
  hseq : Nat := 0
  mslots : List MSlot := []
  mrecs : List MRec := []
  waits : List SopWait := []
  current : Option SopWait := none
  limitAt : Option Nat := none
  results : List SopRes := []
  debts : List (Nat × Nat) := []
  marks : List (Nat × Nat) := []
  demoting : List Nat := []
  denied : List Nat := []
  chosen : List (Nat × Nat × List Nat) := []
  deriving DecidableEq, Repr

/-! ### Work channels (chapters 09 and 10) -/

/-- How a command completes (Table 10.4): a status before the marks of R287, BYTES, CAUSE, LOCKS. `raw`: the status is written as it
stands (R15); `live`: BYTES are those of the time at which the record is written. -/
structure Final where
  status : Nat
  raw : Bool := false
  live : Bool := false
  bytes : Nat := 0
  cause : Nat := 0
  locks : Nat := 0
  deriving DecidableEq, Repr

/-- A fetched command (Tables 10.1, 10.2): whether a reserved bit of its word is set (`res`), its slot and payload as fetched, its release
and its progress. `done`: bytes issued, elements or blocks done, chunks of a MIX ended; `step`: decode steps of the tick, or whether a WAIT
is armed; `chunk` and `recs`: CHUNK_TOKENS at the fetch and the two launch records of a MIX; `buf`: bytes of a transfer read and not yet
written; `worst`: what a launch of a MIX ended with; `ord`: its number in the order of dispatch; `overAt`: the time of the first granule
boundary that found a BANK in flight; `lost`: first byte of the walk whose write was refused or given up; `final`: the outcome of a command whose record could not be written yet. -/
structure Cmd where
  seq : Nat
  op : Nat
  ext : Nat
  serial : Bool
  tag : Nat
  res : Bool := false
  slot : List Byte
  payload : List Byte := []
  released : Bool := false
  relTick : Nat := 0
  rerun : Bool := false
  done : Nat := 0
  step : Nat := 0
  missed : Bool := false
  flagSent : Bool := false
  lost : Option Nat := none
  overAt : Option Nat := none
  ord : Nat := 0
  relTime : Nat := 0
  chunk : Nat := 0
  recs : List Byte := []
  locks : Nat := 0
  buf : List Byte := []
  worst : Option Final := none
  final : Option Final := none
  deriving DecidableEq, Repr

/-- A work channel beside its objects: TAIL, commands fetched and not dispatched, commands in flight (R293, R296). `notifyDue`: the
last COMPL_TAIL is still to be written to NOTIFY; `fenceAt`: SEQ of the last FENCE done or SERIAL command dispatched (R307). -/
structure Chan where
  no : Nat
  tail : Nat := 0
  fetched : List Cmd := []
  flight : List Cmd := []
  notifyDue : Bool := false
  fenceAt : Option Nat := none
  deriving DecidableEq, Repr

/-! ### Banking and lock sets (chapters 09 and 12) -/

/-- A before-image (R362): slice, virtual page number, physical base, the page's listed bytes, the sealed tick it belongs
to, and the numbers of its sectors that were poisoned when it was taken (R252). -/
structure Image where
  slice : Nat
  page : Nat
  pa : Nat
  bytes : List Host.Cell
  tick : Nat
  marks : List Nat := []
  deriving DecidableEq, Repr

/-- A parity page (R363): slice, group index, its listed bytes, and the numbers of its sectors that poisoned data went into (R252). -/
structure Parity where
  slice : Nat
  group : Nat
  bytes : List Host.Cell
  marks : List Nat := []
  deriving DecidableEq, Repr

/-- A journal entry (Table 12.5). -/
structure JEnt where
  seq : Nat
  ch : Nat
  status : Nat
  op : Nat
  rolledBack : Bool
  rerun : Bool
  bytes : Nat
  tick : Nat
  tag : Nat
  deriving DecidableEq, Repr

/-- Context map and layouts recorded at a seal (R233, R367), with the collective counts of the slice's group slots. -/
structure MapSeal where
  tick : Nat
  slice : Nat
  entries : List (Nat × CtxEntry)
  layouts : List Nat
  gseq : List (Nat × Nat) := []
  deriving DecidableEq, Repr

/-- A vote of a child of the system tree for a boundary (Table 11.8, R366, R367). `low` is the oldest sealed tick reported with a
vote for rekindle (R370 step 5). -/
structure Vote where
  port : Nat
  boundary : Nat
  ready : Bool
  bank : Bool
  confirm : Bool
  low : Nat := 0
  deriving DecidableEq, Repr

/-- Votes for a lock set of which this module holds no member, on their way up (R338). -/
structure Relay where
  lsid : Nat
  votes : List Vote
  deriving DecidableEq, Repr

/-- A rollback in progress (R370; its class stands in LAST_CLASS): originator, sealed tick it carried, whether the restore has ended, and
the lock words (slice, space, address) that stopped launches held, and the commands stopped by step 3 with their channels (R376, R377). -/
structure Rb where
  origin : Nat
  target : Nat
  restored : Bool := false
  restoredAt : Nat := 0
  locks : List (Nat × Nat × Nat) := []
  halted : List (Nat × Cmd) := []
  deriving DecidableEq, Repr

/-- A lock-set slot beside its objects. `seals`: sealed ticks retained, newest first; `unconfirmed`: the newest is not confirmed by
every member; `confirmed`: it is, and step 5 of Table 12.2 is awaited; `replay`: the replay log, each record with the sealed tick
that it follows and its channel; `interval`: BANK_INTERVAL in force; `ext`: writes into banked regions from outside the lock set since the last
seal, `extPrev` those between the seals retained; `waitMember`: a lost member that is waited for. -/
structure LockSet where
  k : Nat
  votes : List Vote := []
  mine : Option Vote := none
  outcome : Option Vote := none
  unconfirmed : Bool := false
  confirmed : Bool := false
  seals : List Nat := []
  images : List Image := []
  parity : List Parity := []
  parityDone : Bool := true
  replay : List (Nat × Nat × Cmd) := []
  journal : List JEnt := []
  mapSeals : List MapSeal := []
  rb : Option Rb := none
  rbTick : Nat := 0
  rbCount : Nat := 0
  waitMember : Option Nat := none
  interval : Nat := 0
  ext : Nat := 0
  extPrev : Nat := 0
  deriving DecidableEq, Repr

/-- The bank engine: pages whose first write waits for a before-image (R362), when the wait for a bank or maintenance
point began (R359); `reserve`: bytes of the reserve in force. -/
structure Bank where
  reserve : Nat := 0
  waiting : List (Nat × Nat) := []
  maintSince : Option Nat := none
  deriving DecidableEq, Repr

/-! ### Network (chapter 11) -/

/-- On whose behalf a frame was sent: a group's system-space store or load, a drain stream of the stoker, a command, or the
device itself. -/
inductive FrameFor where
  | device
  | store (g : GroupRef) (core slot : Nat)
  | load (g : GroupRef)
  | drain (ctx gang stream core : Nat)
  | cmd (ch seq : Nat)
  | flag (ch seq : Nat)
  deriving DecidableEq, Repr

/-- A frame that the module has sent and that is not acknowledged, or has received and not performed: transport TYPE, header and payload, and
for whom. Of a received TYPE 7 frame: the number of its row, the frame and the image of a BULK_WRITE. -/
structure Sent where
  ty : Nat
  f : TFrame
  who : FrameFor := .device
  od : Option (Nat × OdFrame × FwImage) := none
  deriving DecidableEq, Repr

/-- A READ_REQ that is not answered, or whose answer waits for its reader: target module, address, length, data, or the cause with
which it failed; `own`: bytes that the reader's write-combining buffer held over it when it was sent (R162). -/
structure ReadWait where
  who : FrameFor
  dst : Nat
  psn : Nat
  addr : Word64
  n : Nat
  data : Option (List Byte) := none
  fail : Option Nat := none
  own : List Host.Cell := []
  deriving DecidableEq, Repr

/-- A path context (R323, R324): destination, next PSN to send, frames not acknowledged, next PSN to perform and frames held
beyond a gap, rate in 1/64, frames performed since the last ACK, time of the last frame sent or received. -/
structure PathCtx where
  no : Nat
  dst : Nat
  nextPsn : Nat := 0
  unacked : List Sent := []
  expect : Nat := 0
  held : List Sent := []
  rate : Nat := 64
  owed : Nat := 0
  sawCe : Bool := false
  nakked : Bool := false
  used : Nat := 0
  deriving DecidableEq, Repr

/-- A logical port beside its objects (R318, R325, R335, R336, R339): `alignTx` are the times of its ALIGNs sent, newest
first, as far as the neighbour may still answer them, `alignRx` that of the last one received, `offset` the offset last measured against its
neighbour; `rxNak`: a LINK_NAK for `rxLseq` is out; `rtt`: the round trip last measured; `direct`: the neighbour is directly attached;
`replay` and `txq`: frames (destination, TYPE, frame) kept with their LSEQ, and those that wait for room. -/
structure Port where
  q : Nat
  up : Bool := false
  neighbour : Option Nat := none
  txSeq : Nat := 0
  sent : List (Nat × DraftFrame) := []
  rxSeq : Nat := 0
  heldDraft : List (Nat × DraftFrame) := []
  gap : Bool := false
  lseq : Nat := 0
  replay : List (Nat × Nat × Nat × TFrame) := []
  rxLseq : Nat := 0
  rxNak : Bool := false
  paused : Bool := false
  depth : Nat := 65535
  child : Bool := false
  hello : Bool := false
  direct : Bool := false
  alignTx : List Nat := []
  alignRx : Option Nat := none
  offset : Int := 0
  rtt : Option Nat := none
  txq : List (Nat × Nat × TFrame) := []
  deriving DecidableEq, Repr

/-- A queue pair beside its objects (R328 to R330): the PSN expected (2^24 before the first packet, log 60), the next PSN sent, send slots
sent, the open receive message's bytes, the open RDMA WRITE, messages sent with their slots, first and last PSN, the rate at the time of the
last CNP and that time. -/
structure Qp where
  no : Nat
  rxPsn : Nat := 2 ^ 24
  rate : Nat := 64
  txPsn : Nat := 0
  sqTail : Nat := 0
  rxBytes : List Byte := []
  rxOpen : Bool := false
  waVa : Word64 := 0
  waKey : BitVec 32 := 0
  waLeft : Nat := 0
  sqSent : List (Nat × Nat × Nat) := []
  rateAt : Nat := 0
  deriving DecidableEq, Repr

/-- A rank's contribution to a step of a collective that has reached this module (R348): the group, the collective's count, the contributing
and the receiving rank, the step, the pass, and the blocks so far by number. -/
structure Contribution where
  group : Nat
  cseq : Nat
  rank : Nat
  dst : Nat
  step : Nat
  pass : Nat := 0
  blocks : List (Nat × List Byte)
  deriving DecidableEq, Repr

/-- A collective in flight (R346 to R351): its group slot, the command it serves, its sequence number on the slot, its descriptor and
member table (module, channel) as read; `ring`: ALGO; the step it has reached, whether this module's contribution to it is sent, ticks waited. -/
structure Coll where
  g : Nat
  ch : Nat
  seq : Nat
  cseq : Nat
  op : Nat
  rop : Nat
  dtype : Nat
  xrmode : Nat
  expGiven : Bool
  fixedExp : Int
  count : Nat
  root : Nat
  rank : Nat
  src : Word64
  dst : Word64
  stepElems : Nat
  flag : Word64
  flagValue : Word64
  members : List (Nat × Nat)
  ring : Bool := false
  step : Nat := 0
  heads : Bool := false
  sent : Bool := false
  ticks : Nat := 0
  deriving DecidableEq, Repr

/-- A flooded draft frame seen: its KIND, its ORIGIN with its ARGs, the ports on which copies of it have come (log 54). -/
structure Flood where
  kind : Nat
  args : List Nat
  ports : List Nat
  deriving DecidableEq, Repr

/-- Network state. `slew`: ns of correction still to be made, `slewWait`: ns since the last (R260); `timeSet`: device time has been set;
`holdSince`: when HOLDOVER began; `period`: changes of the tick period that have been flooded and not applied (tick, period in µs), by tick;
`eras`: changes applied, newest first (tick, its start, the period in ns before it; R261, R265); `roceWait`: RoCEv2 packets that wait at a
paused port. `routes`: entries of the route table that are not zero (R333). `best`: best root candidate seen (rank, ID). `tree`: the system
tree as its ASSIGN records gave it, in ring order (module, depth, parent); `ptp`: PTP time less device time as a candidate for root has
measured it; `helloAt`: when step 2 of discovery began. -/
structure Net where
  ports : List Port := []
  paths : List PathCtx := []
  routes : List (Nat × Nat) := []
  qps : List Qp := []
  colls : List Coll := []
  best : Option (Nat × Nat) := none
  ringPos : Nat := 0
  parent : Option Nat := none
  tree : List (Nat × Nat × Nat) := []
  ptp : Option Int := none
  helloAt : Nat := 0
  below : List Nat := []
  lost : List Nat := []
  contribs : List Contribution := []
  gseq : List (Nat × Nat) := []
  barriers : List (Nat × Nat × Nat) := []
  relay : List Relay := []
  period : List (Nat × Nat) := []
  eras : List (Nat × Nat × Nat) := []
  reads : List ReadWait := []
  floods : List Flood := []
  roceWait : List (Nat × Nat × Nat × Nat × List Byte) := []
  slew : Int := 0
  slewWait : Nat := 0
  timeSet : Bool := false
  holdSince : Nat := 0
  deriving DecidableEq, Repr

/-! ### Object dictionary protocol (chapter 18) -/

/-- A response as it was sent (Table 18.2, R478); `frame`: its bytes. -/
structure OdResp where
  op : Nat
  reqId : Nat
  epoch : Nat
  counter : Nat
  status : Nat
  reason : Nat
  count : Nat
  body : List Byte
  inBand : Bool
  dst : Nat
  auth : List Byte := []
  frame : List Byte := []
  deriving DecidableEq, Repr

/-- Counter window of a credential (R481): highest COUNTER accepted, the accepted ones among the 64 below it, and the last 8
accepted frames (EPOCH, COUNTER) with their responses. -/
structure Window where
  cred : Cred
  high : Nat := 0
  seen : List Nat := []
  recent : List (Nat × Nat × OdResp) := []
  deriving DecidableEq, Repr

/-- A bulk snapshot (R486): `read` is the UPTIME of its last read. -/
structure Snapshot where
  cred : Cred
  key : Nat
  data : List Byte
  read : Nat := 0
  deriving DecidableEq, Repr

/-- A bulk staging buffer (R487): the bytes written so far by offset, the UPTIME of the last chunk. -/
structure BulkBuf where
  cred : Cred
  key : Nat
  chunks : List (Nat × List Byte) := []
  wrote : Nat := 0
  deriving DecidableEq, Repr

/-- A subscription (R488): `last` and `sentAt` are the value last sent and the UPTIME of that, at first of the SUBSCRIBE. -/
structure Subscription where
  no : Nat
  cred : Cred
  key : Nat
  periodic : Bool
  periodMs : Nat
  inBand : Bool
  dst : Nat
  seq : Nat := 0
  last : Option Nat := none
  sentAt : Nat := 0
  deriving DecidableEq, Repr

/-- Object-dictionary protocol state. `failsSent`: times (UPTIME) of the responses of the last second to frames that failed authentication;
`flash`: stored counters as flash holds them, `flushedAt`: the UPTIME of the last write that no other event asked for (R493); `firmware`: the
UPTIME at which frames arrived that firmware may not have finished (R494). -/
structure OdProto where
  windows : List Window := []
  snaps : List Snapshot := []
  bufs : List BulkBuf := []
  subs : List Subscription := []
  failsSent : List Nat := []
  flash : List (Nat × Nat) := []
  flushedAt : Option Nat := none
  firmware : List Nat := []
  deriving DecidableEq, Repr

/-! ### Power, electrical interface, chiplet ports, start-up (chapters 14 to 17) -/

/-- A step of the damper toward another point that has not completed (R412), with whether an excess of power or current started it (R415). -/
structure PointChange where
  target : Nat
  byExcess : Bool := false
  deriving DecidableEq, Repr

/-- The damper's windows and clocks (R411 to R420): consecutive 2 µs windows above the power limit, above each die's current limit, and
above the Gient, Proty and stack temperature targets; windows in which the prediction and the temperatures allow a step up; a change of
point under way; the issue gate in eighths of the cycles (8: none); rows whose clock is stretched; the coefficients' trim in 1/1000;
whether a limit has broken steady clock; the sum of the estimates in mW since the last trim, and their number. -/
structure Power where
  overPower : Nat := 0
  overCurrent : List Nat := []
  hot : List Nat := []
  mayPower : Nat := 0
  mayCurrent : Nat := 0
  cool : Nat := 0
  change : Option PointChange := none
  gate : Nat := 8
  classInForce : Option Nat := none
  stretched : List (Nat × Nat) := []
  trims : Int := 0
  steadyBroken : Bool := false
  estSum : Nat := 0
  estCount : Nat := 0
  deriving DecidableEq, Repr

/-- The electrical interface (R424 to R443): what the pins and the input switch do. `inputOn`: the input is not below its undervoltage
threshold; `inrushDue`: the switch is to start charging; `ocWait`: it waits after an overcurrent; `aux12`: AUX12 is not off after a short;
`held`: conditions of ALERT_CAUSE that still hold and nothing else here shows (management pair, leak, trip temperature, tachometer, plate);
`energyNj`: energy not yet counted in ENERGY, in nJ. -/
structure Elec where
  inputOn : Bool := true
  present : Bool := true
  switchClosed : Bool := false
  charged : Bool := false
  inrushDue : Bool := true
  overVolt : Bool := false
  ocWait : Bool := false
  aux12 : Bool := true
  held : Nat := 0
  energyNj : Nat := 0
  deriving DecidableEq, Repr

/-- A line that a chiplet die holds (R451): its chiplet address, its line, its address in the window's slice, whether owned. -/
structure HeldLine where
  addr : BitVec 48
  line : LineKey
  slice : Nat
  window : Nat
  at_ : Nat
  owned : Bool
  deriving DecidableEq, Repr

/-- A chiplet port beside its objects (R446 to R457): what was granted, lines held, snoops not answered with whether they ask the die to
give the line up, times (UPTIME) of the violations of the last millisecond, and of each metered window the tokens in 1/1000 byte with the
time at which they were so many. -/
structure Chiplet where
  no : Nat
  coherent : Bool := false
  atomics : Bool := false
  held : List HeldLine := []
  snoops : List (BitVec 48 × Bool) := []
  violMs : List Nat := []
  tokens : List (Nat × Nat × Nat) := []
  deriving DecidableEq, Repr

/-- Start-up progress (R459 to R474). `ran`: the management boot has run; `m3`: stage 3 serves the dictionary; `epoch`: BOOT_EPOCH has risen
for the start-up to come; `powerGood`: power-good holds; `mayStart`: a start-up may begin (R469); `heldHello`: HELLO frames before
READY_LOCAL (Table 17.6); `refusedStage`: the stage that was refused in both copies; `images`: security versions of images that FW_RECOVERY
wrote to copy A, by stage. -/
structure Boot where
  ran : Bool := false
  m3 : Bool := false
  epoch : Bool := false
  powerGood : Bool := false
  mayStart : Bool := true
  heldHello : List (Nat × DraftFrame) := []
  refusedStage : Nat := 0
  images : List (Nat × Nat) := []
  deriving DecidableEq, Repr

/-! ### Outputs -/

/-- What the module sends. To a chiplet die (`chip`): 0 FWD_S, 1 INV, 2 FWD_M, 3 DATA, 4 CMP, 5 REFUSE (Table 16.4). -/
inductive Out where
  | draft (q kind : Nat) (f : DraftFrame)
  | trans (q dst ty : Nat) (f : TFrame)
  | roce (q : Nat) (ip : Envelope) (qp opcode psn : Nat) (data : List Byte)
  | od (r : OdResp)
  | notify (inBand : Bool) (dst sub seq time key value : Nat)
  | chip (p : Nat) (msg : Nat) (addr : BitVec 48) (data : List Byte)
  | nd (q : Nat) (vlan : Option Nat)
  deriving DecidableEq, Repr

/-! ### The state -/

/-- The module. `pending`: the commands that wait, first in, first out. `free`: the number of the next free value (log 3).
`out`: what the module has sent, newest first. `inForce`: of objects that apply at the next start-up, the values of the last one.
`scrubs`: resources of destroyed slices. `turns`: round-robin pointers of quadrants (R83), by core × 4 + quadrant. `stores`: stores on
their way to their agents, in the order of their issue. -/
structure State where
  od : List (Nat × Nat) := []
  inForce : List (Nat × Nat) := []
  scrubs : List Held := []
  blobs : List (Nat × List Byte) := []
  mem : Mem := {}
  cores : List Core := []
  launches : List Launch := []
  nextCtx : Nat := 0
  nextOrd : Nat := 0
  turns : List (Nat × Nat) := []
  stores : List StoreEnt := []
  chans : List Chan := []
  slices : List Slice := []
  sopResults : List SopRes := []
  locks : List LockSet := []
  bank : Bank := {}
  granule : Nat := 0
  net : Net := {}
  odp : OdProto := {}
  power : Power := {}
  elec : Elec := {}
  chips : List Chiplet := []
  boot : Boot := {}
  free : Nat := 0
  out : List Out := []
  pending : List Instr := []
  deriving DecidableEq, Repr

/-- The state after reset: every object at its reset value (an unlisted object reads as that), memory and queues empty, domain
87 just up and the management boot not yet run (MODULE_STATE resets to 1, STANDBY; Table 17.7). -/
def State.reset : State := {}

end Sys2Proof.Machine
end

