-- ==== Sys2Proof/Machine/ObjTable.lean ====
section
/-! DEFINITION. ObjTable.lean: the object dictionary's table: every object of the manual with its index range, subindex range,
type, access, world, persistence and reset value, row by row from the object tables of chapters 06 to 18 (R19, R497, R498), and
one key name for each. An object's key is index × 256 + subindex (R9). -/

namespace Sys2Proof.Machine

/-- The access column of an object table (Table 18.7). -/
inductive Acc where
  | ro
  | rw
  | wo
  | rwq
  | mgr
  deriving DecidableEq, Repr

/-- The reset column: a number (a blob or string as its little-endian number), a part-specific value (R501), or a value that
`specialReset` gives. -/
inductive Rst where
  | num (n : Nat)
  | test
  | special
  deriving DecidableEq, Repr

/-- A row of an object table: first index, number of indexes, first and last subindex, name, TYPE (Table 18.6), access, world S,
stored, reset, write only, BLOB length (0: variable or not a BLOB), bulk access only. -/
structure ObjRow where
  base : Nat
  count : Nat
  lo : Nat
  hi : Nat
  name : String
  ty : Nat
  acc : Acc
  secure : Bool
  stored : Bool
  reset : Rst
  writeOnly : Bool
  blobLen : Nat
  bulk : Bool
  deriving DecidableEq, Repr

/-- Object rows, part 0. -/
def objRows0 : List ObjRow := [
  ⟨0x4000, 1, 0x01, 0x19, "DIE_DISTANCE", 2, .mgr, false, true, .special, false, 0, false⟩,
  ⟨0x4001, 1, 0x01, 0x04, "SCRATCH_WAYS", 3, .ro, false, false, .num 0, false, 0, false⟩,
  ⟨0x4001, 1, 0x05, 0x08, "FREE_WAYS", 3, .ro, false, false, .num 65535, false, 0, false⟩,
  ⟨0x4002, 1, 0x01, 0x08, "LINK_FREEZE", 1, .mgr, false, false, .num 0, false, 0, false⟩,
  ⟨0x4002, 1, 0x09, 0x10, "LINK_DRAINED", 1, .ro, false, false, .num 1, false, 0, false⟩,
  ⟨0x4003, 1, 0x01, 0x01, "PRIO_BASE_D", 2, .mgr, false, true, .num 8, false, 0, false⟩,
  ⟨0x4003, 1, 0x02, 0x02, "PRIO_BASE_B", 2, .mgr, false, true, .num 2, false, 0, false⟩,
  ⟨0x4003, 1, 0x03, 0x03, "CONTROL_CAP", 2, .ro, false, false, .num 16, false, 0, false⟩,
  ⟨0x4003, 1, 0x04, 0x04, "DRAFT_CAP", 2, .ro, false, false, .num 2, false, 0, false⟩,
  ⟨0x4004, 1, 0x01, 0x04, "DIR_EVICTIONS", 5, .ro, false, false, .num 0, false, 0, false⟩,
  ⟨0x4004, 1, 0x05, 0x08, "BROADCASTS", 5, .ro, false, false, .num 0, false, 0, false⟩,
  ⟨0x4004, 1, 0x09, 0x10, "REVOCATIONS", 5, .ro, false, false, .num 0, false, 0, false⟩,
  ⟨0x4040, 64, 0x01, 0x04, "CACHE_WAYS", 3, .ro, false, false, .num 0, false, 0, false⟩,
  ⟨0x4040, 64, 0x05, 0x08, "SLICE_SCRATCH_WAYS", 3, .ro, false, false, .num 0, false, 0, false⟩,
  ⟨0x4040, 64, 0x09, 0x09, "PIN_BUDGET", 4, .ro, false, false, .num 0, false, 0, false⟩,
  ⟨0x4040, 64, 0x0A, 0x0A, "PINNED", 4, .ro, false, false, .num 0, false, 0, false⟩,
  ⟨0x4040, 64, 0x0B, 0x0B, "PIN_REFUSALS", 5, .ro, false, false, .num 0, false, 0, false⟩,
  ⟨0xC000, 1, 0x01, 0x01, "MAP_CAPACITY", 4, .ro, false, false, .num 67108864, false, 0, false⟩,
  ⟨0xC000, 1, 0x02, 0x02, "MAP_UNASSIGNED", 4, .ro, false, false, .num 67108864, false, 0, false⟩,
  ⟨0xC000, 1, 0x03, 0x03, "MAP_CACHE_HITS", 5, .ro, false, false, .num 0, false, 0, false⟩,
  ⟨0xC000, 1, 0x04, 0x04, "MAP_CACHE_MISSES", 5, .ro, false, false, .num 0, false, 0, false⟩,
  ⟨0xC000, 1, 0x05, 0x05, "ENGINE_SHARE", 2, .mgr, false, true, .num 16, false, 0, false⟩,
  ⟨0xC040, 64, 0x01, 0x01, "MAP_QUOTA", 4, .ro, false, false, .num 0, false, 0, false⟩,
  ⟨0xC040, 64, 0x02, 0x02, "MAP_LIVE", 4, .ro, false, false, .num 0, false, 0, false⟩,
  ⟨0xC040, 64, 0x03, 0x05, "POOL_BYTES", 5, .ro, false, false, .num 0, false, 0, false⟩,
  ⟨0xC040, 64, 0x06, 0x08, "POOL_USED", 5, .ro, false, false, .num 0, false, 0, false⟩,
  ⟨0xC040, 64, 0x09, 0x0B, "HIGH_WM", 2, .rw, false, false, .num 90, false, 0, false⟩,
  ⟨0xC040, 64, 0x0C, 0x0E, "LOW_WM", 2, .rw, false, false, .num 80, false, 0, false⟩,
  ⟨0xC040, 64, 0x0F, 0x0F, "HEAT_DECAY", 3, .rw, false, false, .num 16, false, 0, false⟩,
  ⟨0xC040, 64, 0x10, 0x10, "PROMOTE_HEAT", 2, .rw, false, false, .num 32, false, 0, false⟩,
  ⟨0xC040, 64, 0x11, 0x11, "LOOKAHEAD", 3, .rw, false, false, .num 4, false, 0, false⟩,
  ⟨0xC040, 64, 0x12, 0x12, "RECOMPRESS", 2, .rw, false, false, .num 0, false, 0, false⟩,
  ⟨0xC040, 64, 0x13, 0x13, "MIGRATIONS", 5, .ro, false, false, .num 0, false, 0, false⟩,
  ⟨0xC040, 64, 0x14, 0x14, "RECOMPRESSIONS", 5, .ro, false, false, .num 0, false, 0, false⟩,
  ⟨0xC040, 64, 0x15, 0x15, "REQUANTISED", 5, .ro, false, false, .num 0, false, 0, false⟩,
  ⟨0xC040, 64, 0x16, 0x16, "INF_ENCODED", 5, .ro, false, false, .num 0, false, 0, false⟩,
  ⟨0xC040, 64, 0x17, 0x17, "NAN_ENCODED", 5, .ro, false, false, .num 0, false, 0, false⟩,
  ⟨0xC040, 64, 0x18, 0x18, "COW_COPIES", 5, .ro, false, false, .num 0, false, 0, false⟩,
  ⟨0xC040, 64, 0x19, 0x19, "QUARANTINED", 5, .ro, false, false, .num 0, false, 0, false⟩,
  ⟨0xC080, 64, 0x01, 0x10, "LAYOUT", 4, .ro, false, false, .num 0, false, 0, false⟩]

/-- Object rows, part 1. -/
def objRows1 : List ObjRow := [
  ⟨0x4100, 1, 0x01, 0x04, "STACK_TOP", 5, .ro, false, true, .special, false, 0, false⟩,
  ⟨0x4100, 1, 0x05, 0x08, "MAPOUTS", 2, .ro, false, true, .num 0, false, 0, false⟩,
  ⟨0x4101, 1, 0x01, 0x0C, "LIVE_CHANNELS", 4, .ro, false, true, .num 4294967295, false, 0, false⟩,
  ⟨0x4102, 1, 0x01, 0x01, "PRIO_BASE_D", 2, .mgr, false, true, .num 8, false, 0, false⟩,
  ⟨0x4102, 1, 0x02, 0x02, "PRIO_BASE_B", 2, .mgr, false, true, .num 2, false, 0, false⟩,
  ⟨0x4102, 1, 0x03, 0x03, "PRIO_BASE_S", 2, .mgr, false, true, .num 0, false, 0, false⟩,
  ⟨0x4102, 1, 0x04, 0x04, "FAIL_LIMIT", 4, .mgr, false, true, .num 64, false, 0, false⟩,
  ⟨0x4103, 1, 0x01, 0x03, "SCRUB_HOURS", 3, .mgr, false, true, .special, false, 0, false⟩,
  ⟨0x4103, 1, 0x04, 0x06, "SCRUB_PASSES", 5, .ro, false, false, .num 0, false, 0, false⟩,
  ⟨0x4110, 12, 0x01, 0x20, "CH_FREEZE", 1, .mgr, false, false, .num 0, false, 0, false⟩,
  ⟨0x4110, 12, 0x21, 0x40, "CH_DRAINED", 1, .ro, false, false, .num 1, false, 0, false⟩,
  ⟨0x4110, 12, 0x41, 0x60, "CH_STATE", 2, .ro, false, true, .num 0, false, 0, false⟩,
  ⟨0x4110, 12, 0x61, 0x80, "CH_CORRECTED", 5, .ro, false, false, .num 0, false, 0, false⟩,
  ⟨0x4110, 12, 0x81, 0xA0, "CH_UNCORRECTED", 5, .ro, false, false, .num 0, false, 0, false⟩,
  ⟨0x4120, 1, 0x01, 0x01, "DDR_PRESENT", 1, .ro, false, false, .num 0, false, 0, false⟩,
  ⟨0x4120, 1, 0x02, 0x02, "DDR_RATE", 3, .ro, false, false, .num 0, false, 0, false⟩,
  ⟨0x4120, 1, 0x09, 0x10, "DDR_CORRECTED", 5, .ro, false, false, .num 0, false, 0, false⟩,
  ⟨0x4120, 1, 0x11, 0x18, "DDR_UNCORRECTED", 5, .ro, false, false, .num 0, false, 0, false⟩,
  ⟨0x4121, 1, 0x01, 0x01, "CXL_UNMAPPED", 5, .ro, false, false, .num 0, false, 0, false⟩,
  ⟨0x4130, 8, 0x01, 0x01, "LINK_UP", 1, .ro, false, false, .num 0, false, 0, false⟩,
  ⟨0x4130, 8, 0x02, 0x02, "RATE", 2, .ro, false, false, .num 0, false, 0, false⟩,
  ⟨0x4130, 8, 0x03, 0x03, "WIDTH", 2, .ro, false, false, .num 0, false, 0, false⟩,
  ⟨0x4130, 8, 0x04, 0x04, "DEVICES", 2, .ro, false, false, .num 0, false, 0, false⟩,
  ⟨0x4130, 8, 0x05, 0x05, "CAPACITY", 5, .ro, false, false, .num 0, false, 0, false⟩,
  ⟨0x4130, 8, 0x06, 0x06, "FLIT_RETRIES", 5, .ro, false, false, .num 0, false, 0, false⟩,
  ⟨0x4130, 8, 0x07, 0x07, "POISON", 5, .ro, false, false, .num 0, false, 0, false⟩,
  ⟨0x4140, 8, 0x01, 0x01, "SET_PORTS", 2, .mgr, false, true, .num 0, false, 0, false⟩,
  ⟨0x4140, 8, 0x02, 0x02, "SET_BASE", 5, .ro, false, false, .num 0, false, 0, false⟩,
  ⟨0x4140, 8, 0x03, 0x03, "SET_SIZE", 5, .ro, false, false, .num 0, false, 0, false⟩,
  ⟨0x7000, 1, 0x01, 0x01, "DEVICE_TIME", 9, .ro, false, false, .num 0, false, 0, false⟩,
  ⟨0x7000, 1, 0x02, 0x02, "TICK_NUMBER", 10, .ro, false, false, .num 0, false, 0, false⟩,
  ⟨0x7000, 1, 0x03, 0x03, "TICK_PERIOD", 4, .ro, false, false, .num 1000, false, 0, false⟩,
  ⟨0x7000, 1, 0x04, 0x04, "TICK_START", 9, .ro, false, false, .num 0, false, 0, false⟩,
  ⟨0x7001, 1, 0x01, 0x01, "PERIOD_NEXT", 4, .mgr, false, false, .num 0, false, 0, false⟩,
  ⟨0x7001, 1, 0x02, 0x02, "PERIOD_AT", 10, .mgr, false, false, .num 0, false, 0, false⟩,
  ⟨0x7001, 1, 0x03, 0x03, "PERIOD_DEFAULT", 4, .mgr, false, true, .num 1000, false, 0, false⟩,
  ⟨0x7002, 1, 0x01, 0x01, "ALIGN_STATE", 2, .ro, false, false, .num 0, false, 0, false⟩,
  ⟨0x7002, 1, 0x02, 0x02, "ALIGN_OFFSET", 6, .ro, false, false, .num 0, false, 0, false⟩,
  ⟨0x7002, 1, 0x03, 0x03, "HOLDOVER_LIMIT", 4, .mgr, false, true, .num 10000, false, 0, false⟩,
  ⟨0x7002, 1, 0x04, 0x04, "ALIGN_LOSSES", 5, .ro, false, false, .num 0, false, 0, false⟩]

/-- Object rows, part 2. -/
def objRows2 : List ObjRow := [
  ⟨0x7010, 8, 0x01, 0x01, "LS_ID", 4, .mgr, false, true, .num 0, false, 0, false⟩,
  ⟨0x7010, 8, 0x02, 0x02, "LS_CHANNELS", 12, .mgr, false, true, .num 0, false, 32, false⟩,
  ⟨0x7010, 8, 0x03, 0x03, "LS_LEAD", 4, .mgr, false, true, .num 50, false, 0, false⟩,
  ⟨0x7010, 8, 0x04, 0x04, "LS_ENABLE", 1, .mgr, false, true, .num 0, false, 0, false⟩,
  ⟨0x7010, 8, 0x05, 0x05, "LS_SHIFT", 5, .ro, false, false, .num 0, false, 0, false⟩,
  ⟨0x7010, 8, 0x06, 0x06, "LS_LAST_RELEASE", 10, .ro, false, false, .num 0, false, 0, false⟩,
  ⟨0x7010, 8, 0x07, 0x07, "LS_DEFERRALS", 5, .ro, false, false, .num 0, false, 0, false⟩,
  ⟨0x6800, 1, 0x01, 0x10, "DCLASS_LAT", 1, .mgr, false, true, .special, false, 0, false⟩,
  ⟨0x6840, 64, 0x01, 0x01, "QUANTUM", 3, .rw, false, false, .num 10, false, 0, false⟩,
  ⟨0x6840, 64, 0x02, 0x02, "CHUNK_TOKENS", 4, .rw, false, false, .num 512, false, 0, false⟩,
  ⟨0x6840, 64, 0x03, 0x03, "SAVE_AREA", 5, .ro, false, false, .num 0, false, 0, false⟩,
  ⟨0x6840, 64, 0x04, 0x04, "PREEMPTIONS", 5, .ro, false, false, .num 0, false, 0, false⟩,
  ⟨0x6840, 64, 0x05, 0x05, "PREEMPT_DEFERRED", 5, .ro, false, false, .num 0, false, 0, false⟩,
  ⟨0x6840, 64, 0x06, 0x06, "OVERRUN_DEBT", 4, .ro, false, false, .num 0, false, 0, false⟩,
  ⟨0x6840, 64, 0x07, 0x07, "OVERRUNS", 5, .ro, false, false, .num 0, false, 0, false⟩,
  ⟨0x6900, 256, 0x01, 0x01, "SUBMITTED", 5, .ro, false, false, .num 0, false, 0, false⟩,
  ⟨0x6900, 256, 0x02, 0x02, "STARTED", 5, .ro, false, false, .num 0, false, 0, false⟩,
  ⟨0x6900, 256, 0x03, 0x03, "COMPLETED", 5, .ro, false, false, .num 0, false, 0, false⟩,
  ⟨0x6900, 256, 0x04, 0x04, "KILLED", 5, .ro, false, false, .num 0, false, 0, false⟩,
  ⟨0x6900, 256, 0x05, 0x05, "REKINDLED", 5, .ro, false, false, .num 0, false, 0, false⟩,
  ⟨0x6900, 256, 0x06, 0x06, "DEADLINE_MISSED", 5, .ro, false, false, .num 0, false, 0, false⟩,
  ⟨0x6000, 256, 0x01, 0x01, "CH_SLICE", 2, .ro, false, false, .num 255, false, 0, false⟩,
  ⟨0x6000, 256, 0x02, 0x02, "CH_ENABLE", 1, .rw, false, false, .num 0, false, 0, false⟩,
  ⟨0x6000, 256, 0x03, 0x03, "RING_BASE", 5, .rwq, false, false, .num 0, false, 0, false⟩,
  ⟨0x6000, 256, 0x04, 0x04, "RING_SLOTS", 4, .rwq, false, false, .num 64, false, 0, false⟩,
  ⟨0x6000, 256, 0x05, 0x05, "CWORD_BASE", 5, .rwq, false, false, .num 0, false, 0, false⟩,
  ⟨0x6000, 256, 0x06, 0x06, "COMPL_BASE", 5, .rwq, false, false, .num 0, false, 0, false⟩,
  ⟨0x6000, 256, 0x07, 0x07, "COMPL_SLOTS", 4, .rwq, false, false, .num 64, false, 0, false⟩,
  ⟨0x6000, 256, 0x08, 0x08, "NOTIFY", 5, .rwq, false, false, .num 0, false, 0, false⟩,
  ⟨0x6000, 256, 0x09, 0x09, "DOORBELL", 4, .wo, false, false, .num 0, true, 0, false⟩,
  ⟨0x6000, 256, 0x0A, 0x0A, "FETCH", 4, .ro, false, false, .num 0, false, 0, false⟩,
  ⟨0x6000, 256, 0x0B, 0x0B, "COMPL_HEAD", 4, .rw, false, false, .num 0, false, 0, false⟩,
  ⟨0x6000, 256, 0x0C, 0x0C, "COMPL_TAIL", 4, .ro, false, false, .num 0, false, 0, false⟩,
  ⟨0x6A00, 256, 0x01, 0x01, "W_ENABLE", 1, .mgr, false, false, .num 0, false, 0, false⟩,
  ⟨0x6A00, 256, 0x02, 0x02, "W_KIND", 2, .mgr, false, false, .num 0, false, 0, false⟩,
  ⟨0x6A00, 256, 0x03, 0x03, "W_SLICE", 2, .mgr, false, false, .num 0, false, 0, false⟩,
  ⟨0x6A00, 256, 0x04, 0x04, "W_BASE", 5, .mgr, false, false, .num 0, false, 0, false⟩,
  ⟨0x6A00, 256, 0x05, 0x05, "W_SIZE", 5, .mgr, false, false, .num 0, false, 0, false⟩,
  ⟨0x6A00, 256, 0x06, 0x06, "W_RIGHTS", 2, .mgr, false, false, .num 0, false, 0, false⟩,
  ⟨0x6A00, 256, 0x07, 0x07, "W_PEER_LO", 4, .mgr, false, false, .num 0, false, 0, false⟩]

/-- Object rows, part 3. -/
def objRows3 : List ObjRow := [
  ⟨0x6A00, 256, 0x08, 0x08, "W_PEER_HI", 4, .mgr, false, false, .num 262143, false, 0, false⟩,
  ⟨0x6A00, 256, 0x09, 0x09, "W_REFUSED", 5, .ro, false, false, .num 0, false, 0, false⟩,
  ⟨0x6B00, 1, 0x01, 0x01, "TRANSPORT_TIMEOUT", 4, .mgr, false, true, .num 10000, false, 0, false⟩,
  ⟨0x6B00, 1, 0x02, 0x02, "STORES_DROPPED", 5, .ro, false, false, .num 0, false, 0, false⟩,
  ⟨0x3000, 1, 0x01, 0x01, "MODULE_ID", 4, .mgr, false, true, .num 4294967295, false, 0, false⟩,
  ⟨0x3000, 1, 0x02, 0x02, "ROOT_RANK", 4, .mgr, false, true, .num 4294967295, false, 0, false⟩,
  ⟨0x3000, 1, 0x03, 0x03, "FABRIC_PREFIX", 5, .mgr, false, true, .num 0, false, 0, false⟩,
  ⟨0x3000, 1, 0x04, 0x04, "TRANSPORT_PORT", 3, .mgr, false, true, .num 30400, false, 0, false⟩,
  ⟨0x3000, 1, 0x05, 0x05, "DRAFT_ETHERTYPE", 3, .mgr, false, true, .num 34997, false, 0, false⟩,
  ⟨0x3000, 1, 0x06, 0x06, "DSCP", 4, .mgr, false, true, .num 1706542, false, 0, false⟩,
  ⟨0x3000, 1, 0x07, 0x07, "VLAN", 3, .mgr, false, true, .num 0, false, 0, false⟩,
  ⟨0x3000, 1, 0x08, 0x08, "PTP_ENABLE", 1, .mgr, false, true, .num 0, false, 0, false⟩,
  ⟨0x3001, 1, 0x01, 0x01, "DISC_STATE", 2, .ro, false, false, .num 0, false, 0, false⟩,
  ⟨0x3001, 1, 0x02, 0x02, "ROOT_ID", 4, .ro, false, false, .num 4294967295, false, 0, false⟩,
  ⟨0x3001, 1, 0x03, 0x03, "SYSTEM_SIZE", 4, .ro, false, false, .num 0, false, 0, false⟩,
  ⟨0x3001, 1, 0x04, 0x04, "TREE_DEPTH", 3, .ro, false, false, .num 0, false, 0, false⟩,
  ⟨0x3001, 1, 0x05, 0x05, "MY_DEPTH", 3, .ro, false, false, .num 65535, false, 0, false⟩,
  ⟨0x3001, 1, 0x06, 0x06, "DIAMETER", 4, .ro, false, false, .num 0, false, 0, false⟩,
  ⟨0x3001, 1, 0x07, 0x07, "PARENT_PORT", 2, .ro, false, false, .num 255, false, 0, false⟩,
  ⟨0x3001, 1, 0x08, 0x08, "DUP_ID", 1, .ro, false, false, .num 0, false, 0, false⟩,
  ⟨0x3001, 1, 0x09, 0x09, "REELECTIONS", 5, .ro, false, false, .num 0, false, 0, false⟩,
  ⟨0x3001, 1, 0x0A, 0x0A, "PTP_OFFSET", 7, .ro, false, false, .num 0, false, 0, false⟩,
  ⟨0x3010, 16, 0x01, 0x01, "PORT_MODE", 2, .mgr, false, true, .num 0, false, 0, false⟩,
  ⟨0x3010, 16, 0x02, 0x02, "LINK_UP", 2, .ro, false, false, .num 0, false, 0, false⟩,
  ⟨0x3010, 16, 0x03, 0x06, "NEIGHBOUR", 4, .ro, false, false, .num 4294967295, false, 0, false⟩,
  ⟨0x3010, 16, 0x07, 0x07, "FEC_CORRECTED", 5, .ro, false, false, .num 0, false, 0, false⟩,
  ⟨0x3010, 16, 0x08, 0x08, "FEC_UNCORRECTED", 5, .ro, false, false, .num 0, false, 0, false⟩,
  ⟨0x3010, 16, 0x09, 0x09, "LLR_REPLAYS", 5, .ro, false, false, .num 0, false, 0, false⟩,
  ⟨0x3010, 16, 0x0A, 0x0A, "DRAFT_DOUBLE_LOSS", 5, .ro, false, false, .num 0, false, 0, false⟩,
  ⟨0x3010, 16, 0x0B, 0x0B, "DRAFT_HOP_NS", 3, .ro, false, false, .num 0, false, 0, false⟩,
  ⟨0x3010, 16, 0x0C, 0x0C, "DRAFT_RESYNCS", 5, .ro, false, false, .num 0, false, 0, false⟩,
  ⟨0x3100, 1, 0x01, 0x01, "PATHS_LIVE", 4, .ro, false, false, .num 0, false, 0, false⟩,
  ⟨0x3100, 1, 0x02, 0x02, "RETRANSMITS", 5, .ro, false, false, .num 0, false, 0, false⟩,
  ⟨0x3100, 1, 0x03, 0x03, "ECN_MARKS", 5, .ro, false, false, .num 0, false, 0, false⟩,
  ⟨0x3100, 1, 0x04, 0x04, "CRC_DROPS", 5, .ro, false, false, .num 0, false, 0, false⟩,
  ⟨0x3100, 1, 0x05, 0x05, "PATHS_LOST", 5, .ro, false, false, .num 0, false, 0, false⟩,
  ⟨0x3100, 1, 0x06, 0x06, "FORWARDED", 5, .ro, false, false, .num 0, false, 0, false⟩,
  ⟨0x3200, 1, 0x01, 0x01, "ROUTE_TABLE", 12, .mgr, false, false, .num 0, false, 0, true⟩,
  ⟨0x3200, 1, 0x02, 0x02, "REROUTES", 5, .ro, false, false, .num 0, false, 0, false⟩,
  ⟨0x3200, 1, 0x03, 0x03, "UNREACHABLE", 4, .ro, false, false, .num 0, false, 0, false⟩]

/-- Object rows, part 4. -/
def objRows4 : List ObjRow := [
  ⟨0x3300, 1024, 0x01, 0x01, "QP_SLICE", 2, .mgr, false, false, .num 255, false, 0, false⟩,
  ⟨0x3300, 1024, 0x02, 0x02, "QP_PEER", 12, .mgr, false, false, .num 0, false, 16, false⟩,
  ⟨0x3300, 1024, 0x03, 0x03, "QP_PEER_QPN", 4, .mgr, false, false, .num 0, false, 0, false⟩,
  ⟨0x3300, 1024, 0x04, 0x04, "QP_KEY", 4, .mgr, false, false, .num 0, false, 0, false⟩,
  ⟨0x3300, 1024, 0x05, 0x05, "QP_ENABLE", 1, .mgr, false, false, .num 0, false, 0, false⟩,
  ⟨0x3300, 1024, 0x06, 0x06, "QP_STATE", 2, .ro, false, false, .num 0, false, 0, false⟩,
  ⟨0x3300, 1024, 0x07, 0x07, "QP_SQ_BASE", 5, .rwq, false, false, .num 0, false, 0, false⟩,
  ⟨0x3300, 1024, 0x08, 0x08, "QP_RQ_BASE", 5, .rwq, false, false, .num 0, false, 0, false⟩,
  ⟨0x3300, 1024, 0x09, 0x09, "QP_SLOTS", 4, .rwq, false, false, .num 64, false, 0, false⟩,
  ⟨0x3300, 1024, 0x0A, 0x0A, "QP_SQ_TAIL", 4, .wo, false, false, .num 0, true, 0, false⟩,
  ⟨0x3300, 1024, 0x0B, 0x0B, "QP_SQ_DONE", 4, .ro, false, false, .num 0, false, 0, false⟩,
  ⟨0x3300, 1024, 0x0C, 0x0C, "QP_RQ_TAIL", 4, .ro, false, false, .num 0, false, 0, false⟩,
  ⟨0x3300, 1024, 0x0D, 0x0D, "QP_RQ_HEAD", 4, .rw, false, false, .num 0, false, 0, false⟩,
  ⟨0x3800, 1, 0x01, 0x01, "COLL_WAIT", 4, .mgr, false, true, .num 1000, false, 0, false⟩,
  ⟨0x3800, 1, 0x02, 0x02, "COLL_STEPS", 5, .ro, false, false, .num 0, false, 0, false⟩,
  ⟨0x3800, 1, 0x03, 0x03, "COLL_LOST", 5, .ro, false, false, .num 0, false, 0, false⟩,
  ⟨0x3810, 64, 0x01, 0x01, "G_SLICE", 2, .mgr, false, false, .num 255, false, 0, false⟩,
  ⟨0x3810, 64, 0x02, 0x02, "G_SIZE", 4, .rwq, false, false, .num 0, false, 0, false⟩,
  ⟨0x3810, 64, 0x03, 0x03, "G_RANK", 4, .rwq, false, false, .num 0, false, 0, false⟩,
  ⟨0x3810, 64, 0x04, 0x04, "G_TABLE", 5, .rwq, false, false, .num 0, false, 0, false⟩,
  ⟨0x3810, 64, 0x05, 0x05, "G_BUSY", 1, .ro, false, false, .num 0, false, 0, false⟩,
  ⟨0x8000, 1, 0x01, 0x01, "BANK_RESERVE", 3, .mgr, false, true, .num 128, false, 0, false⟩,
  ⟨0x8000, 1, 0x02, 0x02, "RESERVE_FREE", 5, .ro, false, false, .num 0, false, 0, false⟩,
  ⟨0x8000, 1, 0x03, 0x03, "COLD_CAUSE", 2, .ro, false, true, .num 0, false, 0, false⟩,
  ⟨0x8000, 1, 0x04, 0x04, "CORE_HANGS", 5, .ro, false, false, .num 0, false, 0, false⟩,
  ⟨0x8000, 1, 0x05, 0x05, "CORES_REPLACED", 5, .ro, false, true, .num 0, false, 0, false⟩,
  ⟨0x8000, 1, 0x06, 0x06, "UNCORRECTED_EVENTS", 5, .ro, false, false, .num 0, false, 0, false⟩,
  ⟨0x8000, 1, 0x07, 0x07, "PARITY_REBUILDS", 5, .ro, false, false, .num 0, false, 0, false⟩,
  ⟨0x8000, 1, 0x08, 0x08, "MAPOUT_DEFERRALS", 5, .ro, false, false, .num 0, false, 0, false⟩,
  ⟨0x8000, 1, 0x09, 0x09, "LINKS_DEAD", 2, .ro, false, true, .num 0, false, 0, false⟩,
  ⟨0x8000, 1, 0x0A, 0x0A, "MULTI_LINK_OUT", 5, .ro, false, false, .num 0, false, 0, false⟩,
  ⟨0x8000, 1, 0x0B, 0x0B, "FORCED_BANKS", 5, .ro, false, false, .num 0, false, 0, false⟩,
  ⟨0x8000, 1, 0x0C, 0x0C, "MAINT_POINTS", 5, .ro, false, false, .num 0, false, 0, false⟩,
  ⟨0x8010, 4, 0x01, 0x0C, "SPARE_SITE", 2, .ro, false, true, .special, false, 0, false⟩,
  ⟨0x8010, 4, 0x0D, 0x18, "DEAD_SITES", 3, .ro, false, true, .special, false, 0, false⟩,
  ⟨0x8040, 64, 0x01, 0x10, "REGION_BASE", 5, .rwq, false, false, .num 0, false, 0, false⟩,
  ⟨0x8040, 64, 0x11, 0x20, "REGION_SIZE", 5, .rwq, false, false, .num 0, false, 0, false⟩,
  ⟨0x8040, 64, 0x21, 0x21, "BANKED_BYTES", 5, .ro, false, false, .num 0, false, 0, false⟩,
  ⟨0x8040, 64, 0x22, 0x22, "DIRTY_PAGES", 4, .ro, false, false, .num 0, false, 0, false⟩,
  ⟨0x8100, 8, 0x01, 0x01, "BANK_INTERVAL", 3, .mgr, false, true, .num 0, false, 0, false⟩]

/-- Object rows, part 5. -/
def objRows5 : List ObjRow := [
  ⟨0x8100, 8, 0x02, 0x02, "REKINDLE", 1, .mgr, false, true, .num 1, false, 0, false⟩,
  ⟨0x8100, 8, 0x03, 0x03, "REKINDLE_LIMIT", 2, .mgr, false, true, .num 3, false, 0, false⟩,
  ⟨0x8100, 8, 0x04, 0x04, "REJOIN_WAIT", 4, .mgr, false, true, .num 10000, false, 0, false⟩,
  ⟨0x8100, 8, 0x05, 0x05, "LAST_BANKED", 10, .ro, false, false, .num 0, false, 0, false⟩,
  ⟨0x8100, 8, 0x06, 0x06, "BANKS", 5, .ro, false, false, .num 0, false, 0, false⟩,
  ⟨0x8100, 8, 0x07, 0x07, "BANKS_DEFERRED", 5, .ro, false, false, .num 0, false, 0, false⟩,
  ⟨0x8100, 8, 0x08, 0x08, "ROLLBACKS", 5, .ro, false, false, .num 0, false, 0, false⟩,
  ⟨0x8100, 8, 0x09, 0x09, "LAST_CLASS", 2, .ro, false, false, .num 0, false, 0, false⟩,
  ⟨0x8100, 8, 0x0A, 0x0A, "UNPROTECTED", 1, .ro, false, false, .num 0, false, 0, false⟩,
  ⟨0x8100, 8, 0x0B, 0x0B, "LS_FAILED", 1, .ro, false, false, .num 0, false, 0, false⟩,
  ⟨0x8100, 8, 0x0C, 0x0C, "JOURNAL", 12, .ro, false, false, .num 0, false, 0, true⟩,
  ⟨0x8100, 8, 0x0D, 0x0D, "JOURNAL_COUNT", 4, .ro, false, false, .num 0, false, 0, false⟩,
  ⟨0x8100, 8, 0x0E, 0x0E, "JOURNAL_LOST", 5, .ro, false, false, .num 0, false, 0, false⟩,
  ⟨0x8100, 8, 0x0F, 0x0F, "EXT_WRITES_ROLLED", 5, .ro, false, false, .num 0, false, 0, false⟩,
  ⟨0x5000, 1, 0x01, 0x01, "SLICES_LIVE", 2, .ro, false, false, .num 0, false, 0, false⟩,
  ⟨0x5000, 1, 0x02, 0x02, "STEADY_POINT", 2, .mgr, false, true, .num 2, false, 0, false⟩,
  ⟨0x5000, 1, 0x03, 0x03, "STEADY_BREAKS", 5, .ro, false, false, .num 0, false, 0, false⟩,
  ⟨0x5000, 1, 0x04, 0x04, "SCRUB_BYTES", 5, .ro, false, false, .num 0, false, 0, false⟩,
  ⟨0x5001, 1, 0x01, 0x01, "SOP_REQUEST", 12, .mgr, false, false, .num 0, true, 64, false⟩,
  ⟨0x5001, 1, 0x02, 0x02, "SOP_RESULT", 12, .mgr, false, false, .num 0, false, 128, false⟩,
  ⟨0x5040, 64, 0x01, 0x01, "S_STATE", 2, .ro, false, false, .num 0, false, 0, false⟩,
  ⟨0x5040, 64, 0x02, 0x02, "S_PID", 4, .mgr, false, false, .num 0, false, 0, false⟩,
  ⟨0x5040, 64, 0x03, 0x03, "S_WORLD", 2, .mgr, false, false, .num 0, false, 0, false⟩,
  ⟨0x5040, 64, 0x04, 0x04, "S_ROWS", 5, .mgr, false, false, .num 0, false, 0, false⟩,
  ⟨0x5040, 64, 0x05, 0x08, "S_CACHE_WAYS", 3, .mgr, false, false, .num 0, false, 0, false⟩,
  ⟨0x5040, 64, 0x09, 0x0C, "S_SCRATCH_WAYS", 3, .mgr, false, false, .num 0, false, 0, false⟩,
  ⟨0x5040, 64, 0x0D, 0x0D, "S_STACKED", 4, .mgr, false, false, .num 0, false, 0, false⟩,
  ⟨0x5040, 64, 0x0E, 0x0E, "S_DDR", 4, .mgr, false, false, .num 0, false, 0, false⟩,
  ⟨0x5040, 64, 0x0F, 0x0F, "S_CXL", 4, .mgr, false, false, .num 0, false, 0, false⟩,
  ⟨0x5040, 64, 0x10, 0x10, "S_CHANNELS", 12, .mgr, false, false, .num 0, false, 32, false⟩,
  ⟨0x5040, 64, 0x11, 0x11, "S_PORT_SHARE", 2, .mgr, false, false, .num 0, false, 0, false⟩,
  ⟨0x5040, 64, 0x12, 0x12, "S_MAP_ENTRIES", 4, .mgr, false, false, .num 0, false, 0, false⟩,
  ⟨0x5040, 64, 0x13, 0x13, "S_PIN_BUDGET", 4, .mgr, false, false, .num 0, false, 0, false⟩,
  ⟨0x5040, 64, 0x14, 0x14, "S_DCLASSES", 3, .mgr, false, false, .num 0, false, 0, false⟩,
  ⟨0x5040, 64, 0x15, 0x15, "S_TRANS_AREA", 3, .mgr, false, false, .num 2, false, 0, false⟩,
  ⟨0x5040, 64, 0x16, 0x16, "S_STEADY_CLOCK", 1, .mgr, false, false, .num 0, false, 0, false⟩,
  ⟨0x5040, 64, 0x17, 0x17, "DET_MASK", 4, .rwq, false, false, .num 91, false, 0, false⟩,
  ⟨0x5040, 64, 0x18, 0x18, "RSR_SEED", 5, .rwq, false, false, .num 0, false, 0, false⟩,
  ⟨0x5040, 64, 0x19, 0x19, "S_OP_REQUEST", 12, .wo, false, false, .num 0, true, 64, false⟩,
  ⟨0x5040, 64, 0x1A, 0x1A, "S_OP_RESULT", 12, .ro, false, false, .num 0, false, 128, false⟩]

/-- Object rows, part 6. -/
def objRows6 : List ObjRow := [
  ⟨0x5040, 64, 0x1B, 0x1B, "MIG_ENABLE", 1, .rw, false, false, .num 0, false, 0, false⟩,
  ⟨0x5040, 64, 0x1C, 0x1C, "MIG_LOG", 12, .ro, false, false, .num 0, false, 0, true⟩,
  ⟨0x5040, 64, 0x1D, 0x1F, "MAPPED_BYTES", 5, .ro, false, false, .num 0, false, 0, false⟩,
  ⟨0x5040, 64, 0x20, 0x20, "SCRUB_PENDING", 1, .ro, false, false, .num 0, false, 0, false⟩,
  ⟨0x9000, 1, 0x01, 0x01, "DEBUG_STATE", 2, .ro, true, true, .num 0, false, 0, false⟩,
  ⟨0x9001, 1, 0x01, 0x04, "ROW_WORLD", 3, .ro, true, false, .num 0, false, 0, false⟩,
  ⟨0x9002, 1, 0x01, 0x01, "BOOT_DIGESTS", 12, .ro, true, false, .num 0, false, 240, false⟩,
  ⟨0x9003, 1, 0x01, 0x04, "ARB_COUNTER", 2, .ro, true, true, .num 0, false, 0, false⟩,
  ⟨0x9003, 1, 0x05, 0x08, "ARB_ADVANCE", 2, .mgr, true, true, .num 0, true, 0, false⟩,
  ⟨0x9004, 1, 0x01, 0x01, "DEVICE_CERTS", 12, .ro, true, true, .num 0, false, 0, true⟩,
  ⟨0x9004, 1, 0x02, 0x02, "MGR_KEY", 12, .mgr, true, true, .num 0, false, 97, false⟩,
  ⟨0x9005, 1, 0x01, 0x01, "DEV_ATTEST_NONCE", 12, .mgr, true, false, .num 0, true, 32, false⟩,
  ⟨0x9005, 1, 0x02, 0x02, "DEV_ATTEST_TOKEN", 12, .mgr, true, false, .num 0, false, 0, true⟩,
  ⟨0x9006, 1, 0x01, 0x01, "SPDM_REQUEST", 12, .wo, true, false, .num 0, true, 0, false⟩,
  ⟨0x9006, 1, 0x02, 0x02, "SPDM_RESPONSE", 12, .ro, true, false, .num 0, false, 0, false⟩,
  ⟨0x9010, 64, 0x01, 0x01, "RGN_BASE", 5, .ro, true, false, .num 0, false, 0, false⟩,
  ⟨0x9010, 64, 0x02, 0x02, "RGN_SIZE", 5, .ro, true, false, .num 0, false, 0, false⟩,
  ⟨0x9010, 64, 0x03, 0x03, "RGN_WORLD", 2, .ro, true, false, .num 0, false, 0, false⟩,
  ⟨0x9010, 64, 0x04, 0x04, "RGN_SLICE", 2, .ro, true, false, .num 255, false, 0, false⟩,
  ⟨0x9080, 64, 0x01, 0x01, "ATTEST_NONCE", 12, .wo, true, false, .num 0, true, 32, false⟩,
  ⟨0x9080, 64, 0x02, 0x02, "ATTEST_TOKEN", 12, .ro, true, false, .num 0, false, 0, true⟩,
  ⟨0x2000, 1, 0x01, 0x01, "COOLING_CLASS", 2, .mgr, false, true, .num 2, false, 0, false⟩,
  ⟨0x2000, 1, 0x02, 0x02, "POINT_TARGET", 2, .mgr, false, true, .num 0, false, 0, false⟩,
  ⟨0x2000, 1, 0x03, 0x03, "POINT_HELD", 2, .ro, false, false, .num 3, false, 0, false⟩,
  ⟨0x2000, 1, 0x04, 0x04, "CORE_CLOCK", 4, .ro, false, false, .num 0, false, 0, false⟩,
  ⟨0x2000, 1, 0x05, 0x05, "BOOST_ENABLE", 1, .mgr, false, true, .num 0, false, 0, false⟩,
  ⟨0x2000, 1, 0x06, 0x06, "BOOST_MHZ", 3, .ro, false, false, .num 0, false, 0, false⟩,
  ⟨0x2000, 1, 0x07, 0x07, "POINT_CHANGES", 5, .ro, false, false, .num 0, false, 0, false⟩,
  ⟨0x2001, 1, 0x01, 0x01, "POWER_LIMIT", 4, .ro, false, false, .special, false, 0, false⟩,
  ⟨0x2001, 1, 0x02, 0x02, "POWER_CAP", 4, .mgr, false, true, .num 0, false, 0, false⟩,
  ⟨0x2001, 1, 0x03, 0x03, "POWER_EST", 4, .ro, false, false, .num 0, false, 0, false⟩,
  ⟨0x2001, 1, 0x04, 0x04, "POWER_MEASURED", 4, .ro, false, false, .num 0, false, 0, false⟩,
  ⟨0x2001, 1, 0x05, 0x05, "ENERGY", 5, .ro, false, false, .num 0, false, 0, false⟩,
  ⟨0x2002, 1, 0x01, 0x05, "DIE_CURRENT", 3, .ro, false, false, .num 0, false, 0, false⟩,
  ⟨0x2002, 1, 0x06, 0x0A, "DIE_CURRENT_LIMIT", 3, .ro, false, true, .test, false, 0, false⟩,
  ⟨0x2003, 1, 0x01, 0x01, "TJ_TARGET", 2, .mgr, false, true, .num 100, false, 0, false⟩,
  ⟨0x2003, 1, 0x02, 0x02, "STACK_TARGET", 2, .mgr, false, true, .num 95, false, 0, false⟩,
  ⟨0x2003, 1, 0x03, 0x07, "DIE_TEMP", 6, .ro, false, false, .num 0, false, 0, false⟩,
  ⟨0x2003, 1, 0x08, 0x13, "STACK_TEMP", 6, .ro, false, false, .num 0, false, 0, false⟩,
  ⟨0x2003, 1, 0x14, 0x14, "THERM_TRIPS", 5, .ro, false, true, .num 0, false, 0, false⟩]

/-- Object rows, part 7. -/
def objRows7 : List ObjRow := [
  ⟨0x2004, 1, 0x01, 0x01, "THROTTLE_POWER", 5, .ro, false, false, .num 0, false, 0, false⟩,
  ⟨0x2004, 1, 0x02, 0x02, "THROTTLE_CURRENT", 5, .ro, false, false, .num 0, false, 0, false⟩,
  ⟨0x2004, 1, 0x03, 0x03, "THROTTLE_THERMAL", 5, .ro, false, false, .num 0, false, 0, false⟩,
  ⟨0x2004, 1, 0x04, 0x04, "ISSUE_GATED", 5, .ro, false, false, .num 0, false, 0, false⟩,
  ⟨0x2005, 1, 0x01, 0x04, "DROOP_EVENTS", 5, .ro, false, false, .num 0, false, 0, false⟩,
  ⟨0x2005, 1, 0x05, 0x08, "STRETCHED_CYCLES", 5, .ro, false, false, .num 0, false, 0, false⟩,
  ⟨0x2005, 1, 0x09, 0x09, "DROOP_THRESHOLD", 2, .ro, false, true, .test, false, 0, false⟩,
  ⟨0x2010, 4, 0x01, 0x90, "ROW_VOLTAGE", 3, .ro, false, true, .test, false, 0, false⟩,
  ⟨0x2020, 1, 0x01, 0x58, "POWER_DOMAIN_STATE", 2, .ro, false, false, .num 0, false, 0, false⟩,
  ⟨0x2100, 1, 0x01, 0x01, "INPUT_VOLTAGE", 4, .ro, false, false, .num 0, false, 0, false⟩,
  ⟨0x2100, 1, 0x02, 0x02, "INPUT_CURRENT", 4, .ro, false, false, .num 0, false, 0, false⟩,
  ⟨0x2100, 1, 0x03, 0x03, "SENSE_OPEN", 1, .ro, false, false, .num 0, false, 0, false⟩,
  ⟨0x2100, 1, 0x04, 0x04, "ENABLE_IN", 1, .ro, false, false, .num 0, false, 0, false⟩,
  ⟨0x2100, 1, 0x05, 0x05, "UV_EVENTS", 5, .ro, false, true, .num 0, false, 0, false⟩,
  ⟨0x2100, 1, 0x06, 0x06, "OV_EVENTS", 5, .ro, false, true, .num 0, false, 0, false⟩,
  ⟨0x2100, 1, 0x07, 0x07, "OC_EVENTS", 5, .ro, false, true, .num 0, false, 0, false⟩,
  ⟨0x2100, 1, 0x08, 0x08, "HOT_UNPLUGS", 5, .ro, false, true, .num 0, false, 0, false⟩,
  ⟨0x2101, 1, 0x01, 0x01, "AUX12_CURRENT", 3, .ro, false, false, .num 0, false, 0, false⟩,
  ⟨0x2101, 1, 0x02, 0x02, "AUX12_SHORTS", 5, .ro, false, true, .num 0, false, 0, false⟩,
  ⟨0x2102, 1, 0x01, 0x01, "ALERT_CAUSE", 3, .mgr, false, false, .num 0, false, 0, false⟩,
  ⟨0x2102, 1, 0x02, 0x02, "ALERT_MASK", 3, .mgr, false, true, .num 2047, false, 0, false⟩,
  ⟨0x2103, 1, 0x01, 0x01, "SLOT_ID", 2, .ro, false, false, .special, false, 0, false⟩,
  ⟨0x2103, 1, 0x02, 0x02, "MGMT_LINK", 1, .ro, false, false, .num 0, false, 0, false⟩,
  ⟨0x2103, 1, 0x03, 0x03, "MGMT_UDP_PORT", 3, .mgr, false, true, .num 30412, false, 0, false⟩,
  ⟨0x2103, 1, 0x04, 0x04, "PLCA_NODES", 2, .mgr, false, true, .num 8, false, 0, false⟩,
  ⟨0x2103, 1, 0x05, 0x05, "PLCA_TO", 2, .mgr, false, true, .num 32, false, 0, false⟩,
  ⟨0x2103, 1, 0x06, 0x06, "MGMT_LINK_LOSSES", 5, .ro, false, false, .num 0, false, 0, false⟩,
  ⟨0x2104, 1, 0x01, 0x01, "LOCATE", 1, .mgr, false, false, .num 0, false, 0, false⟩,
  ⟨0x2105, 1, 0x01, 0x01, "COOL_MODE", 2, .mgr, false, true, .num 0, false, 0, false⟩,
  ⟨0x2105, 1, 0x02, 0x02, "COOL_DUTY", 2, .mgr, false, true, .num 100, false, 0, false⟩,
  ⟨0x2105, 1, 0x03, 0x03, "COOL_DUTY_OUT", 2, .ro, false, false, .num 100, false, 0, false⟩,
  ⟨0x2105, 1, 0x04, 0x04, "COOL_TACH_HZ", 4, .ro, false, false, .num 0, false, 0, false⟩,
  ⟨0x2105, 1, 0x05, 0x05, "COOL_TACH_MIN", 4, .mgr, false, true, .num 0, false, 0, false⟩,
  ⟨0x2105, 1, 0x06, 0x06, "PLATE_TEMP", 6, .ro, false, false, .num 0, false, 0, false⟩,
  ⟨0x2105, 1, 0x07, 0x07, "SPREADER_TEMP", 6, .ro, false, false, .num 0, false, 0, false⟩,
  ⟨0x2105, 1, 0x08, 0x08, "LEAK_ACTION", 2, .mgr, false, true, .num 0, false, 0, false⟩,
  ⟨0x2105, 1, 0x09, 0x09, "LEAK_EVENTS", 5, .ro, false, true, .num 0, false, 0, false⟩,
  ⟨0xB000, 2, 0x01, 0x01, "CP_ENABLE", 1, .mgr, false, true, .num 0, false, 0, false⟩,
  ⟨0xB000, 2, 0x02, 0x02, "CP_STATE", 2, .ro, false, false, .num 0, false, 0, false⟩,
  ⟨0xB000, 2, 0x03, 0x03, "CP_CAPS_LOCAL", 5, .ro, false, false, .special, false, 0, false⟩]

/-- Object rows, part 8. -/
def objRows8 : List ObjRow := [
  ⟨0xB000, 2, 0x04, 0x04, "CP_CAPS_DIE", 5, .ro, false, false, .num 0, false, 0, false⟩,
  ⟨0xB000, 2, 0x05, 0x05, "CP_RATE", 3, .ro, false, false, .num 0, false, 0, false⟩,
  ⟨0xB000, 2, 0x06, 0x06, "CP_FENCE_LIMIT", 3, .mgr, false, true, .num 16, false, 0, false⟩,
  ⟨0xB000, 2, 0x07, 0x07, "CP_VIOLATIONS", 5, .ro, false, false, .num 0, false, 0, false⟩,
  ⟨0xB000, 2, 0x08, 0x08, "CP_LAST_VIOLATION", 12, .ro, false, false, .num 0, false, 16, false⟩,
  ⟨0xB000, 2, 0x09, 0x09, "CP_FENCES", 5, .ro, false, false, .num 0, false, 0, false⟩,
  ⟨0xB000, 2, 0x0A, 0x0A, "CP_SNOOP_LATE", 5, .ro, false, false, .num 0, false, 0, false⟩,
  ⟨0xB000, 2, 0x0B, 0x0B, "CP_HELD_LINES", 4, .ro, false, false, .num 0, false, 0, false⟩,
  ⟨0xB000, 2, 0x0C, 0x0C, "CP_RETRIES", 5, .ro, false, false, .num 0, false, 0, false⟩,
  ⟨0xB000, 2, 0x0D, 0x0D, "CP_UNCACHED", 5, .ro, false, false, .num 0, false, 0, false⟩,
  ⟨0xB100, 64, 0x01, 0x01, "SS_ENABLE", 1, .mgr, false, false, .num 0, false, 0, false⟩,
  ⟨0xB100, 64, 0x02, 0x02, "SS_SLICE", 2, .mgr, false, false, .num 255, false, 0, false⟩,
  ⟨0xB100, 64, 0x03, 0x03, "SS_BASE", 5, .mgr, false, false, .num 0, false, 0, false⟩,
  ⟨0xB100, 64, 0x04, 0x04, "SS_SIZE", 5, .mgr, false, false, .num 0, false, 0, false⟩,
  ⟨0xB100, 64, 0x05, 0x05, "SS_RIGHTS", 2, .mgr, false, false, .num 0, false, 0, false⟩,
  ⟨0xB100, 64, 0x06, 0x06, "SS_RATE", 4, .mgr, false, false, .num 0, false, 0, false⟩,
  ⟨0xB100, 64, 0x07, 0x07, "SS_BURST", 4, .mgr, false, false, .num 65536, false, 0, false⟩,
  ⟨0xB100, 64, 0x08, 0x08, "SS_BYTES", 5, .ro, false, false, .num 0, false, 0, false⟩,
  ⟨0xB100, 64, 0x09, 0x09, "SS_REFUSED", 5, .ro, false, false, .num 0, false, 0, false⟩,
  ⟨0x1020, 1, 0x01, 0x01, "MODULE_STATE", 2, .ro, false, false, .num 1, false, 0, false⟩,
  ⟨0x1020, 1, 0x02, 0x02, "START_FAIL", 2, .ro, false, false, .num 0, false, 0, false⟩,
  ⟨0x1020, 1, 0x03, 0x03, "RESTART", 1, .mgr, false, false, .num 0, true, 0, false⟩,
  ⟨0x1020, 1, 0x04, 0x04, "BOOT_COPIES", 2, .ro, false, false, .num 0, false, 0, false⟩,
  ⟨0x1020, 1, 0x05, 0x05, "FW_RECOVERY", 12, .wo, true, false, .num 0, true, 0, true⟩,
  ⟨0x1000, 1, 0x01, 0x01, "VENDOR", 11, .ro, false, true, .num 30510788216058965, false, 0, false⟩,
  ⟨0x1000, 1, 0x02, 0x02, "PRODUCT", 11, .ro, false, true, .num 122613394001737121004416321, false, 0, false⟩,
  ⟨0x1000, 1, 0x03, 0x03, "PART_NUMBER", 11, .ro, false, true, .num 3904959742020832577, false, 0, false⟩,
  ⟨0x1000, 1, 0x04, 0x04, "STEPPING", 11, .ro, false, true, .num 12610, false, 0, false⟩,
  ⟨0x1000, 1, 0x05, 0x05, "SERIAL", 11, .ro, false, true, .test, false, 0, false⟩,
  ⟨0x1000, 1, 0x06, 0x06, "MGMT_MAC", 12, .ro, false, true, .test, false, 6, false⟩,
  ⟨0x1000, 1, 0x07, 0x07, "TEST_DATE", 4, .ro, false, true, .test, false, 0, false⟩,
  ⟨0x1001, 1, 0x01, 0x01, "FW_RELEASE", 4, .ro, false, false, .special, false, 0, false⟩,
  ⟨0x1001, 1, 0x02, 0x06, "IMAGE_VERSION", 4, .ro, false, false, .test, false, 0, false⟩,
  ⟨0x1001, 1, 0x07, 0x0A, "SECURITY_VERSION", 2, .ro, false, false, .test, false, 0, false⟩,
  ⟨0x1001, 1, 0x0B, 0x0B, "OD_VERSION", 2, .ro, false, false, .num 1, false, 0, false⟩,
  ⟨0x1002, 1, 0x01, 0x01, "BOOT_EPOCH", 5, .ro, false, true, .num 0, false, 0, false⟩,
  ⟨0x1002, 1, 0x02, 0x02, "BODY_MAX_MGMT", 3, .ro, false, false, .num 1312, false, 0, false⟩,
  ⟨0x1002, 1, 0x03, 0x03, "BODY_MAX_BAND", 3, .ro, false, false, .num 8064, false, 0, false⟩,
  ⟨0x1040, 64, 0x01, 0x01, "OD_SLICE_KEY", 12, .mgr, true, false, .num 0, true, 48, false⟩,
  ⟨0xA000, 1, 0x01, 0x01, "UPTIME", 9, .ro, false, false, .num 0, false, 0, false⟩]

/-- Object rows, part 9. -/
def objRows9 : List ObjRow := [
  ⟨0xA001, 1, 0x01, 0x01, "OD_FRAMES", 5, .ro, false, false, .num 0, false, 0, false⟩,
  ⟨0xA001, 1, 0x02, 0x02, "OD_AUTH_FAILS", 5, .ro, false, false, .num 0, false, 0, false⟩,
  ⟨0xA001, 1, 0x03, 0x03, "OD_DROPPED", 5, .ro, false, false, .num 0, false, 0, false⟩,
  ⟨0xA001, 1, 0x04, 0x04, "OD_REFUSED", 5, .ro, false, false, .num 0, false, 0, false⟩,
  ⟨0xA001, 1, 0x05, 0x05, "NOTIFY_SENT", 5, .ro, false, false, .num 0, false, 0, false⟩,
  ⟨0xA001, 1, 0x06, 0x06, "NOTIFY_COALESCED", 5, .ro, false, false, .num 0, false, 0, false⟩,
  ⟨0xA001, 1, 0x07, 0x07, "SUBS_LIVE", 2, .ro, false, false, .num 0, false, 0, false⟩,
  ⟨0xA001, 1, 0x08, 0x08, "MGR_COUNTER", 5, .ro, false, false, .num 0, false, 0, false⟩,
  ⟨0xA002, 1, 0x01, 0x04, "SELFTEST_RUNS", 5, .ro, false, false, .num 0, false, 0, false⟩,
  ⟨0xA002, 1, 0x05, 0x08, "SELFTEST_FAILS", 5, .ro, false, false, .num 0, false, 0, false⟩,
  ⟨0xA040, 64, 0x01, 0x01, "ISSUED", 5, .ro, false, false, .num 0, false, 0, false⟩,
  ⟨0xA040, 64, 0x02, 0x02, "GMMA_KBLOCKS", 5, .ro, false, false, .num 0, false, 0, false⟩,
  ⟨0xA040, 64, 0x03, 0x03, "STOKER_BYTES", 5, .ro, false, false, .num 0, false, 0, false⟩,
  ⟨0xA040, 64, 0x04, 0x04, "LLM_HITS", 5, .ro, false, false, .num 0, false, 0, false⟩,
  ⟨0xA040, 64, 0x05, 0x05, "LLM_MISSES", 5, .ro, false, false, .num 0, false, 0, false⟩,
  ⟨0xA040, 64, 0x06, 0x06, "SYS_BYTES_OUT", 5, .ro, false, false, .num 0, false, 0, false⟩,
  ⟨0xA040, 64, 0x07, 0x07, "SYS_BYTES_IN", 5, .ro, false, false, .num 0, false, 0, false⟩]

/-- Every object row of the manual. -/
def objRows : List ObjRow :=
  objRows0 ++ objRows1 ++ objRows2 ++ objRows3 ++ objRows4 ++ objRows5 ++ objRows6 ++ objRows7 ++ objRows8 ++ objRows9

/-- The row that an index and a subindex name, if any (R497). -/
def objRow? (key : Nat) : Option ObjRow :=
  let ix := key / 256
  let sub := key % 256
  objRows.find? fun r => r.base ≤ ix && ix < r.base + r.count && r.lo ≤ sub && sub ≤ r.hi

/-- Die distances at reset, from die f to die t, G0 to G3 then Proty (Table 1.2). -/
def dieDistanceReset (f t : Nat) : Nat :=
  if f = t then 0 else if f < 4 ∧ t < 4 ∧ (f + 2) % 4 = t then 2 else 1

/-- The device's own capability word (Table 16.3, R448): version 1, four modules, 32 GT/s, COHERENT, ATOMICS, SNOOP_NS 0. -/
def deviceCapWord : Nat := 1 + 3 * 2 ^ 8 + 2 * 2 ^ 10 + 2 ^ 12 + 2 ^ 13 + Config.chipletIdent % 2 ^ 32 * 2 ^ 32

/-- Reset values that depend on the index or subindex (rows marked special). Of a fresh part SPARE_SITE is 13 or 0xFF, and DEAD_SITES
names the failed site of a row whose SPARE_SITE is 0xFF (R501; log 10). -/
def specialReset (key : Nat) : Nat :=
  let ix := key / 256
  let sub := key % 256
  if ix = 0x4000 then dieDistanceReset ((sub - 1) / 5) ((sub - 1) % 5)
  else if ix = 0x4100 then sub * 0x3000000000
  else if ix = 0x4103 then (if sub = 3 then 72 else 24)
  else if ix = 0x6800 then (if sub ≤ 4 then 1 else 0)
  else if ix = 0x2001 then 1100
  else if ix = 0x1001 then 2 ^ 24 + Config.byTest key % 2 ^ 24
  else if 0x8010 ≤ ix ∧ ix < 0x8014 then
    (if sub ≤ 12 then (if Config.byTest key % 2 = 0 then 13 else 0xFF)
     else if Config.byTest (key - 12) % 2 = 0 then 0 else 2 ^ (Config.byTest key % 14))
  else if ix = 0x2103 then Config.slotStrap % 8
  else if ix / 2 = 0x5800 then deviceCapWord
  else 0

/-- The reset value of an object (0 for an object with no value of its own). -/
def objReset (key : Nat) : Nat :=
  match objRow? key with
  | some r =>
    match r.reset with
    | .num n => n
    | .test => Config.byTest key % 2 ^ (if r.ty = 2 then 8 else if r.ty = 3 then 16 else if r.ty = 4 then 32 else if r.ty = 11 then 96 else if r.ty = 12 then 48 else 64)
    | .special => specialReset key
  | none => 0

/-! ### Key names -/

namespace Obj

/-- DIE_DISTANCE, 0x4000:01 to :19 (R207). -/
def dieDistance (j : Nat) : Nat := 0x4000 * 256 + (0x01 + j)
/-- SCRATCH_WAYS, 0x4001:01 to :04 (R207). -/
def scratchWays (j : Nat) : Nat := 0x4001 * 256 + (0x01 + j)
/-- FREE_WAYS, 0x4001:05 to :08 (R207). -/
def freeWays (j : Nat) : Nat := 0x4001 * 256 + (0x05 + j)
/-- LINK_FREEZE, 0x4002:01 to :08 (R207). -/
def linkFreeze (j : Nat) : Nat := 0x4002 * 256 + (0x01 + j)
/-- LINK_DRAINED, 0x4002:09 to :10 (R207). -/
def linkDrained (j : Nat) : Nat := 0x4002 * 256 + (0x09 + j)
/-- PRIO_BASE_D, 0x4003:01 (R207). -/
def prioBaseD : Nat := 0x4003 * 256 + 0x01
/-- PRIO_BASE_B, 0x4003:02 (R207). -/
def prioBaseB : Nat := 0x4003 * 256 + 0x02
/-- CONTROL_CAP, 0x4003:03 (R207). -/
def controlCap : Nat := 0x4003 * 256 + 0x03
/-- DRAFT_CAP, 0x4003:04 (R207). -/
def draftCap : Nat := 0x4003 * 256 + 0x04
/-- DIR_EVICTIONS, 0x4004:01 to :04 (R207). -/
def dirEvictions (j : Nat) : Nat := 0x4004 * 256 + (0x01 + j)
/-- BROADCASTS, 0x4004:05 to :08 (R207). -/
def broadcasts (j : Nat) : Nat := 0x4004 * 256 + (0x05 + j)
/-- REVOCATIONS, 0x4004:09 to :10 (R207). -/
def revocations (j : Nat) : Nat := 0x4004 * 256 + (0x09 + j)
/-- CACHE_WAYS, 0x4040 + n:01 to :04 (R207). -/
def cacheWays (n : Nat) (j : Nat) : Nat := (0x4040 + n) * 256 + (0x01 + j)
/-- SLICE_SCRATCH_WAYS, 0x4040 + n:05 to :08 (R207). -/
def sliceScratchWays (n : Nat) (j : Nat) : Nat := (0x4040 + n) * 256 + (0x05 + j)
/-- PIN_BUDGET, 0x4040 + n:09 (R207). -/
def pinBudget (n : Nat) : Nat := (0x4040 + n) * 256 + 0x09
/-- PINNED, 0x4040 + n:0A (R207). -/
def pinned (n : Nat) : Nat := (0x4040 + n) * 256 + 0x0A
/-- PIN_REFUSALS, 0x4040 + n:0B (R207). -/
def pinRefusals (n : Nat) : Nat := (0x4040 + n) * 256 + 0x0B
/-- MAP_CAPACITY, 0xC000:01 (R235). -/
def mapCapacity : Nat := 0xC000 * 256 + 0x01
/-- MAP_UNASSIGNED, 0xC000:02 (R235). -/
def mapUnassigned : Nat := 0xC000 * 256 + 0x02
/-- MAP_CACHE_HITS, 0xC000:03 (R235). -/
def mapCacheHits : Nat := 0xC000 * 256 + 0x03
/-- MAP_CACHE_MISSES, 0xC000:04 (R235). -/
def mapCacheMisses : Nat := 0xC000 * 256 + 0x04
/-- ENGINE_SHARE, 0xC000:05 (R235). -/
def engineShare : Nat := 0xC000 * 256 + 0x05
/-- MAP_QUOTA, 0xC040 + n:01 (R235). -/
def mapQuota (n : Nat) : Nat := (0xC040 + n) * 256 + 0x01
/-- MAP_LIVE, 0xC040 + n:02 (R235). -/
def mapLive (n : Nat) : Nat := (0xC040 + n) * 256 + 0x02
/-- POOL_BYTES, 0xC040 + n:03 to :05 (R235). -/
def poolBytes (n : Nat) (j : Nat) : Nat := (0xC040 + n) * 256 + (0x03 + j)
/-- POOL_USED, 0xC040 + n:06 to :08 (R235). -/
def poolUsed (n : Nat) (j : Nat) : Nat := (0xC040 + n) * 256 + (0x06 + j)
/-- HIGH_WM, 0xC040 + n:09 to :0B (R235). -/
def highWm (n : Nat) (j : Nat) : Nat := (0xC040 + n) * 256 + (0x09 + j)
/-- LOW_WM, 0xC040 + n:0C to :0E (R235). -/
def lowWm (n : Nat) (j : Nat) : Nat := (0xC040 + n) * 256 + (0x0C + j)
/-- HEAT_DECAY, 0xC040 + n:0F (R235). -/
def heatDecay (n : Nat) : Nat := (0xC040 + n) * 256 + 0x0F
/-- PROMOTE_HEAT, 0xC040 + n:10 (R235). -/
def promoteHeat (n : Nat) : Nat := (0xC040 + n) * 256 + 0x10
/-- LOOKAHEAD, 0xC040 + n:11 (R235). -/
def lookahead (n : Nat) : Nat := (0xC040 + n) * 256 + 0x11
/-- RECOMPRESS, 0xC040 + n:12 (R235). -/
def recompress (n : Nat) : Nat := (0xC040 + n) * 256 + 0x12
/-- MIGRATIONS, 0xC040 + n:13 (R235). -/
def migrations (n : Nat) : Nat := (0xC040 + n) * 256 + 0x13
/-- RECOMPRESSIONS, 0xC040 + n:14 (R235). -/
def recompressions (n : Nat) : Nat := (0xC040 + n) * 256 + 0x14
/-- REQUANTISED, 0xC040 + n:15 (R235). -/
def requantised (n : Nat) : Nat := (0xC040 + n) * 256 + 0x15
/-- INF_ENCODED, 0xC040 + n:16 (R235). -/
def infEncoded (n : Nat) : Nat := (0xC040 + n) * 256 + 0x16
/-- NAN_ENCODED, 0xC040 + n:17 (R235). -/
def nanEncoded (n : Nat) : Nat := (0xC040 + n) * 256 + 0x17
/-- COW_COPIES, 0xC040 + n:18 (R235). -/
def cowCopies (n : Nat) : Nat := (0xC040 + n) * 256 + 0x18
/-- QUARANTINED, 0xC040 + n:19 (R235). -/
def quarantined (n : Nat) : Nat := (0xC040 + n) * 256 + 0x19
/-- LAYOUT, 0xC080 + n:01 to :10 (R235). -/
def layout (n : Nat) (j : Nat) : Nat := (0xC080 + n) * 256 + (0x01 + j)
/-- STACK_TOP, 0x4100:01 to :04 (R259). -/
def stackTop (j : Nat) : Nat := 0x4100 * 256 + (0x01 + j)
/-- MAPOUTS, 0x4100:05 to :08 (R259). -/
def mapouts (j : Nat) : Nat := 0x4100 * 256 + (0x05 + j)
/-- LIVE_CHANNELS, 0x4101:01 to :0C (R259). -/
def liveChannels (j : Nat) : Nat := 0x4101 * 256 + (0x01 + j)
/-- PRIO_BASE_D, 0x4102:01 (R259). -/
def chPrioBaseD : Nat := 0x4102 * 256 + 0x01
/-- PRIO_BASE_B, 0x4102:02 (R259). -/
def chPrioBaseB : Nat := 0x4102 * 256 + 0x02
/-- PRIO_BASE_S, 0x4102:03 (R259). -/
def chPrioBaseS : Nat := 0x4102 * 256 + 0x03
/-- FAIL_LIMIT, 0x4102:04 (R259). -/
def failLimit : Nat := 0x4102 * 256 + 0x04
/-- SCRUB_HOURS, 0x4103:01 to :03 (R259). -/
def scrubHours (j : Nat) : Nat := 0x4103 * 256 + (0x01 + j)
/-- SCRUB_PASSES, 0x4103:04 to :06 (R259). -/
def scrubPasses (j : Nat) : Nat := 0x4103 * 256 + (0x04 + j)
/-- CH_FREEZE, 0x4110 + s:01 to :20 (R259). -/
def chFreeze (n : Nat) (j : Nat) : Nat := (0x4110 + n) * 256 + (0x01 + j)
/-- CH_DRAINED, 0x4110 + s:21 to :40 (R259). -/
def chDrained (n : Nat) (j : Nat) : Nat := (0x4110 + n) * 256 + (0x21 + j)
/-- CH_STATE, 0x4110 + s:41 to :60 (R259). -/
def chState (n : Nat) (j : Nat) : Nat := (0x4110 + n) * 256 + (0x41 + j)
/-- CH_CORRECTED, 0x4110 + s:61 to :80 (R259). -/
def chCorrected (n : Nat) (j : Nat) : Nat := (0x4110 + n) * 256 + (0x61 + j)
/-- CH_UNCORRECTED, 0x4110 + s:81 to :A0 (R259). -/
def chUncorrected (n : Nat) (j : Nat) : Nat := (0x4110 + n) * 256 + (0x81 + j)
/-- DDR_PRESENT, 0x4120:01 (R259). -/
def ddrPresent : Nat := 0x4120 * 256 + 0x01
/-- DDR_RATE, 0x4120:02 (R259). -/
def ddrRate : Nat := 0x4120 * 256 + 0x02
/-- DDR_CORRECTED, 0x4120:09 to :10 (R259). -/
def ddrCorrected (j : Nat) : Nat := 0x4120 * 256 + (0x09 + j)
/-- DDR_UNCORRECTED, 0x4120:11 to :18 (R259). -/
def ddrUncorrected (j : Nat) : Nat := 0x4120 * 256 + (0x11 + j)
/-- CXL_UNMAPPED, 0x4121:01 (R259). -/
def cxlUnmapped : Nat := 0x4121 * 256 + 0x01
/-- LINK_UP, 0x4130 + x:01 (R259). -/
def cxlLinkUp (n : Nat) : Nat := (0x4130 + n) * 256 + 0x01
/-- RATE, 0x4130 + x:02 (R259). -/
def cxlRate (n : Nat) : Nat := (0x4130 + n) * 256 + 0x02
/-- WIDTH, 0x4130 + x:03 (R259). -/
def cxlWidth (n : Nat) : Nat := (0x4130 + n) * 256 + 0x03
/-- DEVICES, 0x4130 + x:04 (R259). -/
def cxlDevices (n : Nat) : Nat := (0x4130 + n) * 256 + 0x04
/-- CAPACITY, 0x4130 + x:05 (R259). -/
def cxlCapacity (n : Nat) : Nat := (0x4130 + n) * 256 + 0x05
/-- FLIT_RETRIES, 0x4130 + x:06 (R259). -/
def cxlFlitRetries (n : Nat) : Nat := (0x4130 + n) * 256 + 0x06
/-- POISON, 0x4130 + x:07 (R259). -/
def cxlPoison (n : Nat) : Nat := (0x4130 + n) * 256 + 0x07
/-- SET_PORTS, 0x4140 + i:01 (R259). -/
def setPorts (n : Nat) : Nat := (0x4140 + n) * 256 + 0x01
/-- SET_BASE, 0x4140 + i:02 (R259). -/
def setBase (n : Nat) : Nat := (0x4140 + n) * 256 + 0x02
/-- SET_SIZE, 0x4140 + i:03 (R259). -/
def setSize (n : Nat) : Nat := (0x4140 + n) * 256 + 0x03
/-- DEVICE_TIME, 0x7000:01 (R289). -/
def deviceTime : Nat := 0x7000 * 256 + 0x01
/-- TICK_NUMBER, 0x7000:02 (R289). -/
def tickNumber : Nat := 0x7000 * 256 + 0x02
/-- TICK_PERIOD, 0x7000:03 (R289). -/
def tickPeriod : Nat := 0x7000 * 256 + 0x03
/-- TICK_START, 0x7000:04 (R289). -/
def tickStart : Nat := 0x7000 * 256 + 0x04
/-- PERIOD_NEXT, 0x7001:01 (R289). -/
def periodNext : Nat := 0x7001 * 256 + 0x01
/-- PERIOD_AT, 0x7001:02 (R289). -/
def periodAt : Nat := 0x7001 * 256 + 0x02
/-- PERIOD_DEFAULT, 0x7001:03 (R289). -/
def periodDefault : Nat := 0x7001 * 256 + 0x03
/-- ALIGN_STATE, 0x7002:01 (R289). -/
def alignState : Nat := 0x7002 * 256 + 0x01
/-- ALIGN_OFFSET, 0x7002:02 (R289). -/
def alignOffset : Nat := 0x7002 * 256 + 0x02
/-- HOLDOVER_LIMIT, 0x7002:03 (R289). -/
def holdoverLimit : Nat := 0x7002 * 256 + 0x03
/-- ALIGN_LOSSES, 0x7002:04 (R289). -/
def alignLosses : Nat := 0x7002 * 256 + 0x04
/-- LS_ID, 0x7010 + k:01 (R289). -/
def lsId (n : Nat) : Nat := (0x7010 + n) * 256 + 0x01
/-- LS_CHANNELS, 0x7010 + k:02 (R289). -/
def lsChannels (n : Nat) : Nat := (0x7010 + n) * 256 + 0x02
/-- LS_LEAD, 0x7010 + k:03 (R289). -/
def lsLead (n : Nat) : Nat := (0x7010 + n) * 256 + 0x03
/-- LS_ENABLE, 0x7010 + k:04 (R289). -/
def lsEnable (n : Nat) : Nat := (0x7010 + n) * 256 + 0x04
/-- LS_SHIFT, 0x7010 + k:05 (R289). -/
def lsShift (n : Nat) : Nat := (0x7010 + n) * 256 + 0x05
/-- LS_LAST_RELEASE, 0x7010 + k:06 (R289). -/
def lsLastRelease (n : Nat) : Nat := (0x7010 + n) * 256 + 0x06
/-- LS_DEFERRALS, 0x7010 + k:07 (R289). -/
def lsDeferrals (n : Nat) : Nat := (0x7010 + n) * 256 + 0x07
/-- DCLASS_LAT, 0x6800:01 to :10 (R290). -/
def dclassLat (j : Nat) : Nat := 0x6800 * 256 + (0x01 + j)
/-- QUANTUM, 0x6840 + n:01 (R290). -/
def quantum (n : Nat) : Nat := (0x6840 + n) * 256 + 0x01
/-- CHUNK_TOKENS, 0x6840 + n:02 (R290). -/
def chunkTokens (n : Nat) : Nat := (0x6840 + n) * 256 + 0x02
/-- SAVE_AREA, 0x6840 + n:03 (R290). -/
def saveArea (n : Nat) : Nat := (0x6840 + n) * 256 + 0x03
/-- PREEMPTIONS, 0x6840 + n:04 (R290). -/
def preemptions (n : Nat) : Nat := (0x6840 + n) * 256 + 0x04
/-- PREEMPT_DEFERRED, 0x6840 + n:05 (R290). -/
def preemptDeferred (n : Nat) : Nat := (0x6840 + n) * 256 + 0x05
/-- OVERRUN_DEBT, 0x6840 + n:06 (R290). -/
def overrunDebt (n : Nat) : Nat := (0x6840 + n) * 256 + 0x06
/-- OVERRUNS, 0x6840 + n:07 (R290). -/
def overruns (n : Nat) : Nat := (0x6840 + n) * 256 + 0x07
/-- SUBMITTED, 0x6900 + c:01 (R290). -/
def submitted (n : Nat) : Nat := (0x6900 + n) * 256 + 0x01
/-- STARTED, 0x6900 + c:02 (R290). -/
def started (n : Nat) : Nat := (0x6900 + n) * 256 + 0x02
/-- COMPLETED, 0x6900 + c:03 (R290). -/
def completed (n : Nat) : Nat := (0x6900 + n) * 256 + 0x03
/-- KILLED, 0x6900 + c:04 (R290). -/
def killed (n : Nat) : Nat := (0x6900 + n) * 256 + 0x04
/-- REKINDLED, 0x6900 + c:05 (R290). -/
def chRekindled (n : Nat) : Nat := (0x6900 + n) * 256 + 0x05
/-- DEADLINE_MISSED, 0x6900 + c:06 (R290). -/
def deadlineMissed (n : Nat) : Nat := (0x6900 + n) * 256 + 0x06
/-- CH_SLICE, 0x6000 + c:01 (R317). -/
def chSlice (n : Nat) : Nat := (0x6000 + n) * 256 + 0x01
/-- CH_ENABLE, 0x6000 + c:02 (R317). -/
def chEnable (n : Nat) : Nat := (0x6000 + n) * 256 + 0x02
/-- RING_BASE, 0x6000 + c:03 (R317). -/
def ringBase (n : Nat) : Nat := (0x6000 + n) * 256 + 0x03
/-- RING_SLOTS, 0x6000 + c:04 (R317). -/
def ringSlots (n : Nat) : Nat := (0x6000 + n) * 256 + 0x04
/-- CWORD_BASE, 0x6000 + c:05 (R317). -/
def cwordBase (n : Nat) : Nat := (0x6000 + n) * 256 + 0x05
/-- COMPL_BASE, 0x6000 + c:06 (R317). -/
def complBase (n : Nat) : Nat := (0x6000 + n) * 256 + 0x06
/-- COMPL_SLOTS, 0x6000 + c:07 (R317). -/
def complSlots (n : Nat) : Nat := (0x6000 + n) * 256 + 0x07
/-- NOTIFY, 0x6000 + c:08 (R317). -/
def notify (n : Nat) : Nat := (0x6000 + n) * 256 + 0x08
/-- DOORBELL, 0x6000 + c:09 (R317). -/
def doorbell (n : Nat) : Nat := (0x6000 + n) * 256 + 0x09
/-- FETCH, 0x6000 + c:0A (R317). -/
def fetch (n : Nat) : Nat := (0x6000 + n) * 256 + 0x0A
/-- COMPL_HEAD, 0x6000 + c:0B (R317). -/
def complHead (n : Nat) : Nat := (0x6000 + n) * 256 + 0x0B
/-- COMPL_TAIL, 0x6000 + c:0C (R317). -/
def complTail (n : Nat) : Nat := (0x6000 + n) * 256 + 0x0C
/-- W_ENABLE, 0x6A00 + w:01 (R317). -/
def wEnable (n : Nat) : Nat := (0x6A00 + n) * 256 + 0x01
/-- W_KIND, 0x6A00 + w:02 (R317). -/
def wKind (n : Nat) : Nat := (0x6A00 + n) * 256 + 0x02
/-- W_SLICE, 0x6A00 + w:03 (R317). -/
def wSlice (n : Nat) : Nat := (0x6A00 + n) * 256 + 0x03
/-- W_BASE, 0x6A00 + w:04 (R317). -/
def wBase (n : Nat) : Nat := (0x6A00 + n) * 256 + 0x04
/-- W_SIZE, 0x6A00 + w:05 (R317). -/
def wSize (n : Nat) : Nat := (0x6A00 + n) * 256 + 0x05
/-- W_RIGHTS, 0x6A00 + w:06 (R317). -/
def wRights (n : Nat) : Nat := (0x6A00 + n) * 256 + 0x06
/-- W_PEER_LO, 0x6A00 + w:07 (R317). -/
def wPeerLo (n : Nat) : Nat := (0x6A00 + n) * 256 + 0x07
/-- W_PEER_HI, 0x6A00 + w:08 (R317). -/
def wPeerHi (n : Nat) : Nat := (0x6A00 + n) * 256 + 0x08
/-- W_REFUSED, 0x6A00 + w:09 (R317). -/
def wRefused (n : Nat) : Nat := (0x6A00 + n) * 256 + 0x09
/-- TRANSPORT_TIMEOUT, 0x6B00:01 (R317). -/
def transportTimeout : Nat := 0x6B00 * 256 + 0x01
/-- STORES_DROPPED, 0x6B00:02 (R317). -/
def storesDropped : Nat := 0x6B00 * 256 + 0x02
/-- MODULE_ID, 0x3000:01 (R353). -/
def moduleId : Nat := 0x3000 * 256 + 0x01
/-- ROOT_RANK, 0x3000:02 (R353). -/
def rootRank : Nat := 0x3000 * 256 + 0x02
/-- FABRIC_PREFIX, 0x3000:03 (R353). -/
def fabricPrefix : Nat := 0x3000 * 256 + 0x03
/-- TRANSPORT_PORT, 0x3000:04 (R353). -/
def transportPort : Nat := 0x3000 * 256 + 0x04
/-- DRAFT_ETHERTYPE, 0x3000:05 (R353). -/
def draftEthertype : Nat := 0x3000 * 256 + 0x05
/-- DSCP, 0x3000:06 (R353). -/
def dscp : Nat := 0x3000 * 256 + 0x06
/-- VLAN, 0x3000:07 (R353). -/
def vlan : Nat := 0x3000 * 256 + 0x07
/-- PTP_ENABLE, 0x3000:08 (R353). -/
def ptpEnable : Nat := 0x3000 * 256 + 0x08
/-- DISC_STATE, 0x3001:01 (R353). -/
def discState : Nat := 0x3001 * 256 + 0x01
/-- ROOT_ID, 0x3001:02 (R353). -/
def rootId : Nat := 0x3001 * 256 + 0x02
/-- SYSTEM_SIZE, 0x3001:03 (R353). -/
def systemSize : Nat := 0x3001 * 256 + 0x03
/-- TREE_DEPTH, 0x3001:04 (R353). -/
def treeDepth : Nat := 0x3001 * 256 + 0x04
/-- MY_DEPTH, 0x3001:05 (R353). -/
def myDepth : Nat := 0x3001 * 256 + 0x05
/-- DIAMETER, 0x3001:06 (R353). -/
def diameter : Nat := 0x3001 * 256 + 0x06
/-- PARENT_PORT, 0x3001:07 (R353). -/
def parentPort : Nat := 0x3001 * 256 + 0x07
/-- DUP_ID, 0x3001:08 (R353). -/
def dupId : Nat := 0x3001 * 256 + 0x08
/-- REELECTIONS, 0x3001:09 (R353). -/
def reelections : Nat := 0x3001 * 256 + 0x09
/-- PTP_OFFSET, 0x3001:0A (R353). -/
def ptpOffset : Nat := 0x3001 * 256 + 0x0A
/-- PORT_MODE, 0x3010 + p:01 (R353). -/
def portMode (n : Nat) : Nat := (0x3010 + n) * 256 + 0x01
/-- LINK_UP, 0x3010 + p:02 (R353). -/
def linkUp (n : Nat) : Nat := (0x3010 + n) * 256 + 0x02
/-- NEIGHBOUR, 0x3010 + p:03 to :06 (R353). -/
def neighbour (n : Nat) (j : Nat) : Nat := (0x3010 + n) * 256 + (0x03 + j)
/-- FEC_CORRECTED, 0x3010 + p:07 (R353). -/
def fecCorrected (n : Nat) : Nat := (0x3010 + n) * 256 + 0x07
/-- FEC_UNCORRECTED, 0x3010 + p:08 (R353). -/
def fecUncorrected (n : Nat) : Nat := (0x3010 + n) * 256 + 0x08
/-- LLR_REPLAYS, 0x3010 + p:09 (R353). -/
def llrReplays (n : Nat) : Nat := (0x3010 + n) * 256 + 0x09
/-- DRAFT_DOUBLE_LOSS, 0x3010 + p:0A (R353). -/
def draftDoubleLoss (n : Nat) : Nat := (0x3010 + n) * 256 + 0x0A
/-- DRAFT_HOP_NS, 0x3010 + p:0B (R353). -/
def draftHopNs (n : Nat) : Nat := (0x3010 + n) * 256 + 0x0B
/-- DRAFT_RESYNCS, 0x3010 + p:0C (R353). -/
def draftResyncs (n : Nat) : Nat := (0x3010 + n) * 256 + 0x0C
/-- PATHS_LIVE, 0x3100:01 (R353). -/
def pathsLive : Nat := 0x3100 * 256 + 0x01
/-- RETRANSMITS, 0x3100:02 (R353). -/
def retransmits : Nat := 0x3100 * 256 + 0x02
/-- ECN_MARKS, 0x3100:03 (R353). -/
def ecnMarks : Nat := 0x3100 * 256 + 0x03
/-- CRC_DROPS, 0x3100:04 (R353). -/
def crcDrops : Nat := 0x3100 * 256 + 0x04
/-- PATHS_LOST, 0x3100:05 (R353). -/
def pathsLost : Nat := 0x3100 * 256 + 0x05
/-- FORWARDED, 0x3100:06 (R353). -/
def forwarded : Nat := 0x3100 * 256 + 0x06
/-- ROUTE_TABLE, 0x3200:01 (R353). -/
def routeTable : Nat := 0x3200 * 256 + 0x01
/-- REROUTES, 0x3200:02 (R353). -/
def reroutes : Nat := 0x3200 * 256 + 0x02
/-- UNREACHABLE, 0x3200:03 (R353). -/
def unreachable : Nat := 0x3200 * 256 + 0x03
/-- QP_SLICE, 0x3300 + q:01 (R353). -/
def qpSlice (n : Nat) : Nat := (0x3300 + n) * 256 + 0x01
/-- QP_PEER, 0x3300 + q:02 (R353). -/
def qpPeer (n : Nat) : Nat := (0x3300 + n) * 256 + 0x02
/-- QP_PEER_QPN, 0x3300 + q:03 (R353). -/
def qpPeerQpn (n : Nat) : Nat := (0x3300 + n) * 256 + 0x03
/-- QP_KEY, 0x3300 + q:04 (R353). -/
def qpKey (n : Nat) : Nat := (0x3300 + n) * 256 + 0x04
/-- QP_ENABLE, 0x3300 + q:05 (R353). -/
def qpEnable (n : Nat) : Nat := (0x3300 + n) * 256 + 0x05
/-- QP_STATE, 0x3300 + q:06 (R353). -/
def qpState (n : Nat) : Nat := (0x3300 + n) * 256 + 0x06
/-- QP_SQ_BASE, 0x3300 + q:07 (R353). -/
def qpSqBase (n : Nat) : Nat := (0x3300 + n) * 256 + 0x07
/-- QP_RQ_BASE, 0x3300 + q:08 (R353). -/
def qpRqBase (n : Nat) : Nat := (0x3300 + n) * 256 + 0x08
/-- QP_SLOTS, 0x3300 + q:09 (R353). -/
def qpSlots (n : Nat) : Nat := (0x3300 + n) * 256 + 0x09
/-- QP_SQ_TAIL, 0x3300 + q:0A (R353). -/
def qpSqTail (n : Nat) : Nat := (0x3300 + n) * 256 + 0x0A
/-- QP_SQ_DONE, 0x3300 + q:0B (R353). -/
def qpSqDone (n : Nat) : Nat := (0x3300 + n) * 256 + 0x0B
/-- QP_RQ_TAIL, 0x3300 + q:0C (R353). -/
def qpRqTail (n : Nat) : Nat := (0x3300 + n) * 256 + 0x0C
/-- QP_RQ_HEAD, 0x3300 + q:0D (R353). -/
def qpRqHead (n : Nat) : Nat := (0x3300 + n) * 256 + 0x0D
/-- COLL_WAIT, 0x3800:01 (R353). -/
def collWait : Nat := 0x3800 * 256 + 0x01
/-- COLL_STEPS, 0x3800:02 (R353). -/
def collSteps : Nat := 0x3800 * 256 + 0x02
/-- COLL_LOST, 0x3800:03 (R353). -/
def collLost : Nat := 0x3800 * 256 + 0x03
/-- G_SLICE, 0x3810 + g:01 (R353). -/
def gSlice (n : Nat) : Nat := (0x3810 + n) * 256 + 0x01
/-- G_SIZE, 0x3810 + g:02 (R353). -/
def gSize (n : Nat) : Nat := (0x3810 + n) * 256 + 0x02
/-- G_RANK, 0x3810 + g:03 (R353). -/
def gRank (n : Nat) : Nat := (0x3810 + n) * 256 + 0x03
/-- G_TABLE, 0x3810 + g:04 (R353). -/
def gTable (n : Nat) : Nat := (0x3810 + n) * 256 + 0x04
/-- G_BUSY, 0x3810 + g:05 (R353). -/
def gBusy (n : Nat) : Nat := (0x3810 + n) * 256 + 0x05
/-- BANK_RESERVE, 0x8000:01 (R380). -/
def bankReserve : Nat := 0x8000 * 256 + 0x01
/-- RESERVE_FREE, 0x8000:02 (R380). -/
def reserveFree : Nat := 0x8000 * 256 + 0x02
/-- COLD_CAUSE, 0x8000:03 (R380). -/
def coldCause : Nat := 0x8000 * 256 + 0x03
/-- CORE_HANGS, 0x8000:04 (R380). -/
def coreHangs : Nat := 0x8000 * 256 + 0x04
/-- CORES_REPLACED, 0x8000:05 (R380). -/
def coresReplaced : Nat := 0x8000 * 256 + 0x05
/-- UNCORRECTED_EVENTS, 0x8000:06 (R380). -/
def uncorrectedEvents : Nat := 0x8000 * 256 + 0x06
/-- PARITY_REBUILDS, 0x8000:07 (R380). -/
def parityRebuilds : Nat := 0x8000 * 256 + 0x07
/-- MAPOUT_DEFERRALS, 0x8000:08 (R380). -/
def mapoutDeferrals : Nat := 0x8000 * 256 + 0x08
/-- LINKS_DEAD, 0x8000:09 (R380). -/
def linksDead : Nat := 0x8000 * 256 + 0x09
/-- MULTI_LINK_OUT, 0x8000:0A (R380). -/
def multiLinkOut : Nat := 0x8000 * 256 + 0x0A
/-- FORCED_BANKS, 0x8000:0B (R380). -/
def forcedBanks : Nat := 0x8000 * 256 + 0x0B
/-- MAINT_POINTS, 0x8000:0C (R380). -/
def maintPoints : Nat := 0x8000 * 256 + 0x0C
/-- SPARE_SITE, 0x8010 + d:01 to :0C (R380). -/
def spareSite (n : Nat) (j : Nat) : Nat := (0x8010 + n) * 256 + (0x01 + j)
/-- DEAD_SITES, 0x8010 + d:0D to :18 (R380). -/
def deadSites (n : Nat) (j : Nat) : Nat := (0x8010 + n) * 256 + (0x0D + j)
/-- REGION_BASE, 0x8040 + n:01 to :10 (R380). -/
def regionBase (n : Nat) (j : Nat) : Nat := (0x8040 + n) * 256 + (0x01 + j)
/-- REGION_SIZE, 0x8040 + n:11 to :20 (R380). -/
def regionSize (n : Nat) (j : Nat) : Nat := (0x8040 + n) * 256 + (0x11 + j)
/-- BANKED_BYTES, 0x8040 + n:21 (R380). -/
def bankedBytes (n : Nat) : Nat := (0x8040 + n) * 256 + 0x21
/-- DIRTY_PAGES, 0x8040 + n:22 (R380). -/
def dirtyPages (n : Nat) : Nat := (0x8040 + n) * 256 + 0x22
/-- BANK_INTERVAL, 0x8100 + k:01 (R380). -/
def bankInterval (n : Nat) : Nat := (0x8100 + n) * 256 + 0x01
/-- REKINDLE, 0x8100 + k:02 (R380). -/
def rekindle (n : Nat) : Nat := (0x8100 + n) * 256 + 0x02
/-- REKINDLE_LIMIT, 0x8100 + k:03 (R380). -/
def rekindleLimit (n : Nat) : Nat := (0x8100 + n) * 256 + 0x03
/-- REJOIN_WAIT, 0x8100 + k:04 (R380). -/
def rejoinWait (n : Nat) : Nat := (0x8100 + n) * 256 + 0x04
/-- LAST_BANKED, 0x8100 + k:05 (R380). -/
def lastBanked (n : Nat) : Nat := (0x8100 + n) * 256 + 0x05
/-- BANKS, 0x8100 + k:06 (R380). -/
def banks (n : Nat) : Nat := (0x8100 + n) * 256 + 0x06
/-- BANKS_DEFERRED, 0x8100 + k:07 (R380). -/
def banksDeferred (n : Nat) : Nat := (0x8100 + n) * 256 + 0x07
/-- ROLLBACKS, 0x8100 + k:08 (R380). -/
def rollbacks (n : Nat) : Nat := (0x8100 + n) * 256 + 0x08
/-- LAST_CLASS, 0x8100 + k:09 (R380). -/
def lastClass (n : Nat) : Nat := (0x8100 + n) * 256 + 0x09
/-- UNPROTECTED, 0x8100 + k:0A (R380). -/
def unprotected (n : Nat) : Nat := (0x8100 + n) * 256 + 0x0A
/-- LS_FAILED, 0x8100 + k:0B (R380). -/
def lsFailed (n : Nat) : Nat := (0x8100 + n) * 256 + 0x0B
/-- JOURNAL, 0x8100 + k:0C (R380). -/
def journal (n : Nat) : Nat := (0x8100 + n) * 256 + 0x0C
/-- JOURNAL_COUNT, 0x8100 + k:0D (R380). -/
def journalCount (n : Nat) : Nat := (0x8100 + n) * 256 + 0x0D
/-- JOURNAL_LOST, 0x8100 + k:0E (R380). -/
def journalLost (n : Nat) : Nat := (0x8100 + n) * 256 + 0x0E
/-- EXT_WRITES_ROLLED, 0x8100 + k:0F (R380). -/
def extWritesRolled (n : Nat) : Nat := (0x8100 + n) * 256 + 0x0F
/-- SLICES_LIVE, 0x5000:01 (R406). -/
def slicesLive : Nat := 0x5000 * 256 + 0x01
/-- STEADY_POINT, 0x5000:02 (R406). -/
def steadyPoint : Nat := 0x5000 * 256 + 0x02
/-- STEADY_BREAKS, 0x5000:03 (R406). -/
def steadyBreaks : Nat := 0x5000 * 256 + 0x03
/-- SCRUB_BYTES, 0x5000:04 (R406). -/
def scrubBytes : Nat := 0x5000 * 256 + 0x04
/-- SOP_REQUEST, 0x5001:01 (R406). -/
def sopRequest : Nat := 0x5001 * 256 + 0x01
/-- SOP_RESULT, 0x5001:02 (R406). -/
def sopResult : Nat := 0x5001 * 256 + 0x02
/-- S_STATE, 0x5040 + n:01 (R406). -/
def sState (n : Nat) : Nat := (0x5040 + n) * 256 + 0x01
/-- S_PID, 0x5040 + n:02 (R406). -/
def sPid (n : Nat) : Nat := (0x5040 + n) * 256 + 0x02
/-- S_WORLD, 0x5040 + n:03 (R406). -/
def sWorld (n : Nat) : Nat := (0x5040 + n) * 256 + 0x03
/-- S_ROWS, 0x5040 + n:04 (R406). -/
def sRows (n : Nat) : Nat := (0x5040 + n) * 256 + 0x04
/-- S_CACHE_WAYS, 0x5040 + n:05 to :08 (R406). -/
def sCacheWays (n : Nat) (j : Nat) : Nat := (0x5040 + n) * 256 + (0x05 + j)
/-- S_SCRATCH_WAYS, 0x5040 + n:09 to :0C (R406). -/
def sScratchWays (n : Nat) (j : Nat) : Nat := (0x5040 + n) * 256 + (0x09 + j)
/-- S_STACKED, 0x5040 + n:0D (R406). -/
def sStacked (n : Nat) : Nat := (0x5040 + n) * 256 + 0x0D
/-- S_DDR, 0x5040 + n:0E (R406). -/
def sDdr (n : Nat) : Nat := (0x5040 + n) * 256 + 0x0E
/-- S_CXL, 0x5040 + n:0F (R406). -/
def sCxl (n : Nat) : Nat := (0x5040 + n) * 256 + 0x0F
/-- S_CHANNELS, 0x5040 + n:10 (R406). -/
def sChannels (n : Nat) : Nat := (0x5040 + n) * 256 + 0x10
/-- S_PORT_SHARE, 0x5040 + n:11 (R406). -/
def sPortShare (n : Nat) : Nat := (0x5040 + n) * 256 + 0x11
/-- S_MAP_ENTRIES, 0x5040 + n:12 (R406). -/
def sMapEntries (n : Nat) : Nat := (0x5040 + n) * 256 + 0x12
/-- S_PIN_BUDGET, 0x5040 + n:13 (R406). -/
def sPinBudget (n : Nat) : Nat := (0x5040 + n) * 256 + 0x13
/-- S_DCLASSES, 0x5040 + n:14 (R406). -/
def sDclasses (n : Nat) : Nat := (0x5040 + n) * 256 + 0x14
/-- S_TRANS_AREA, 0x5040 + n:15 (R406). -/
def sTransArea (n : Nat) : Nat := (0x5040 + n) * 256 + 0x15
/-- S_STEADY_CLOCK, 0x5040 + n:16 (R406). -/
def sSteadyClock (n : Nat) : Nat := (0x5040 + n) * 256 + 0x16
/-- DET_MASK, 0x5040 + n:17 (R406). -/
def detMask (n : Nat) : Nat := (0x5040 + n) * 256 + 0x17
/-- RSR_SEED, 0x5040 + n:18 (R406). -/
def rsrSeed (n : Nat) : Nat := (0x5040 + n) * 256 + 0x18
/-- S_OP_REQUEST, 0x5040 + n:19 (R406). -/
def sOpRequest (n : Nat) : Nat := (0x5040 + n) * 256 + 0x19
/-- S_OP_RESULT, 0x5040 + n:1A (R406). -/
def sOpResult (n : Nat) : Nat := (0x5040 + n) * 256 + 0x1A
/-- MIG_ENABLE, 0x5040 + n:1B (R406). -/
def migEnable (n : Nat) : Nat := (0x5040 + n) * 256 + 0x1B
/-- MIG_LOG, 0x5040 + n:1C (R406). -/
def migLog (n : Nat) : Nat := (0x5040 + n) * 256 + 0x1C
/-- MAPPED_BYTES, 0x5040 + n:1D to :1F (R406). -/
def mappedBytes (n : Nat) (j : Nat) : Nat := (0x5040 + n) * 256 + (0x1D + j)
/-- SCRUB_PENDING, 0x5040 + n:20 (R406). -/
def scrubPending (n : Nat) : Nat := (0x5040 + n) * 256 + 0x20
/-- DEBUG_STATE, 0x9000:01 (R406). -/
def debugState : Nat := 0x9000 * 256 + 0x01
/-- ROW_WORLD, 0x9001:01 to :04 (R406). -/
def rowWorld (j : Nat) : Nat := 0x9001 * 256 + (0x01 + j)
/-- BOOT_DIGESTS, 0x9002:01 (R406). -/
def bootDigests : Nat := 0x9002 * 256 + 0x01
/-- ARB_COUNTER, 0x9003:01 to :04 (R406). -/
def arbCounter (j : Nat) : Nat := 0x9003 * 256 + (0x01 + j)
/-- ARB_ADVANCE, 0x9003:05 to :08 (R406). -/
def arbAdvance (j : Nat) : Nat := 0x9003 * 256 + (0x05 + j)
/-- DEVICE_CERTS, 0x9004:01 (R406). -/
def deviceCerts : Nat := 0x9004 * 256 + 0x01
/-- MGR_KEY, 0x9004:02 (R406). -/
def mgrKey : Nat := 0x9004 * 256 + 0x02
/-- DEV_ATTEST_NONCE, 0x9005:01 (R406). -/
def devAttestNonce : Nat := 0x9005 * 256 + 0x01
/-- DEV_ATTEST_TOKEN, 0x9005:02 (R406). -/
def devAttestToken : Nat := 0x9005 * 256 + 0x02
/-- SPDM_REQUEST, 0x9006:01 (R406). -/
def spdmRequest : Nat := 0x9006 * 256 + 0x01
/-- SPDM_RESPONSE, 0x9006:02 (R406). -/
def spdmResponse : Nat := 0x9006 * 256 + 0x02
/-- RGN_BASE, 0x9010 + e:01 (R406). -/
def rgnBase (n : Nat) : Nat := (0x9010 + n) * 256 + 0x01
/-- RGN_SIZE, 0x9010 + e:02 (R406). -/
def rgnSize (n : Nat) : Nat := (0x9010 + n) * 256 + 0x02
/-- RGN_WORLD, 0x9010 + e:03 (R406). -/
def rgnWorld (n : Nat) : Nat := (0x9010 + n) * 256 + 0x03
/-- RGN_SLICE, 0x9010 + e:04 (R406). -/
def rgnSlice (n : Nat) : Nat := (0x9010 + n) * 256 + 0x04
/-- ATTEST_NONCE, 0x9080 + n:01 (R406). -/
def attestNonce (n : Nat) : Nat := (0x9080 + n) * 256 + 0x01
/-- ATTEST_TOKEN, 0x9080 + n:02 (R406). -/
def attestToken (n : Nat) : Nat := (0x9080 + n) * 256 + 0x02
/-- COOLING_CLASS, 0x2000:01 (R423). -/
def coolingClass : Nat := 0x2000 * 256 + 0x01
/-- POINT_TARGET, 0x2000:02 (R423). -/
def pointTarget : Nat := 0x2000 * 256 + 0x02
/-- POINT_HELD, 0x2000:03 (R423). -/
def pointHeld : Nat := 0x2000 * 256 + 0x03
/-- CORE_CLOCK, 0x2000:04 (R423). -/
def coreClock : Nat := 0x2000 * 256 + 0x04
/-- BOOST_ENABLE, 0x2000:05 (R423). -/
def boostEnable : Nat := 0x2000 * 256 + 0x05
/-- BOOST_MHZ, 0x2000:06 (R423). -/
def boostMhz : Nat := 0x2000 * 256 + 0x06
/-- POINT_CHANGES, 0x2000:07 (R423). -/
def pointChanges : Nat := 0x2000 * 256 + 0x07
/-- POWER_LIMIT, 0x2001:01 (R423). -/
def powerLimit : Nat := 0x2001 * 256 + 0x01
/-- POWER_CAP, 0x2001:02 (R423). -/
def powerCap : Nat := 0x2001 * 256 + 0x02
/-- POWER_EST, 0x2001:03 (R423). -/
def powerEst : Nat := 0x2001 * 256 + 0x03
/-- POWER_MEASURED, 0x2001:04 (R423). -/
def powerMeasured : Nat := 0x2001 * 256 + 0x04
/-- ENERGY, 0x2001:05 (R423). -/
def energy : Nat := 0x2001 * 256 + 0x05
/-- DIE_CURRENT, 0x2002:01 to :05 (R423). -/
def dieCurrent (j : Nat) : Nat := 0x2002 * 256 + (0x01 + j)
/-- DIE_CURRENT_LIMIT, 0x2002:06 to :0A (R423). -/
def dieCurrentLimit (j : Nat) : Nat := 0x2002 * 256 + (0x06 + j)
/-- TJ_TARGET, 0x2003:01 (R423). -/
def tjTarget : Nat := 0x2003 * 256 + 0x01
/-- STACK_TARGET, 0x2003:02 (R423). -/
def stackTarget : Nat := 0x2003 * 256 + 0x02
/-- DIE_TEMP, 0x2003:03 to :07 (R423). -/
def dieTemp (j : Nat) : Nat := 0x2003 * 256 + (0x03 + j)
/-- STACK_TEMP, 0x2003:08 to :13 (R423). -/
def stackTemp (j : Nat) : Nat := 0x2003 * 256 + (0x08 + j)
/-- THERM_TRIPS, 0x2003:14 (R423). -/
def thermTrips : Nat := 0x2003 * 256 + 0x14
/-- THROTTLE_POWER, 0x2004:01 (R423). -/
def throttlePower : Nat := 0x2004 * 256 + 0x01
/-- THROTTLE_CURRENT, 0x2004:02 (R423). -/
def throttleCurrent : Nat := 0x2004 * 256 + 0x02
/-- THROTTLE_THERMAL, 0x2004:03 (R423). -/
def throttleThermal : Nat := 0x2004 * 256 + 0x03
/-- ISSUE_GATED, 0x2004:04 (R423). -/
def issueGated : Nat := 0x2004 * 256 + 0x04
/-- DROOP_EVENTS, 0x2005:01 to :04 (R423). -/
def droopEvents (j : Nat) : Nat := 0x2005 * 256 + (0x01 + j)
/-- STRETCHED_CYCLES, 0x2005:05 to :08 (R423). -/
def stretchedCycles (j : Nat) : Nat := 0x2005 * 256 + (0x05 + j)
/-- DROOP_THRESHOLD, 0x2005:09 (R423). -/
def droopThreshold : Nat := 0x2005 * 256 + 0x09
/-- ROW_VOLTAGE, 0x2010 + d:01 to :90 (R423). -/
def rowVoltage (n : Nat) (j : Nat) : Nat := (0x2010 + n) * 256 + (0x01 + j)
/-- POWER_DOMAIN_STATE, 0x2020:01 to :58 (R423). -/
def powerDomainState (j : Nat) : Nat := 0x2020 * 256 + (0x01 + j)
/-- INPUT_VOLTAGE, 0x2100:01 (R444). -/
def inputVoltage : Nat := 0x2100 * 256 + 0x01
/-- INPUT_CURRENT, 0x2100:02 (R444). -/
def inputCurrent : Nat := 0x2100 * 256 + 0x02
/-- SENSE_OPEN, 0x2100:03 (R444). -/
def senseOpen : Nat := 0x2100 * 256 + 0x03
/-- ENABLE_IN, 0x2100:04 (R444). -/
def enableIn : Nat := 0x2100 * 256 + 0x04
/-- UV_EVENTS, 0x2100:05 (R444). -/
def uvEvents : Nat := 0x2100 * 256 + 0x05
/-- OV_EVENTS, 0x2100:06 (R444). -/
def ovEvents : Nat := 0x2100 * 256 + 0x06
/-- OC_EVENTS, 0x2100:07 (R444). -/
def ocEvents : Nat := 0x2100 * 256 + 0x07
/-- HOT_UNPLUGS, 0x2100:08 (R444). -/
def hotUnplugs : Nat := 0x2100 * 256 + 0x08
/-- AUX12_CURRENT, 0x2101:01 (R444). -/
def aux12Current : Nat := 0x2101 * 256 + 0x01
/-- AUX12_SHORTS, 0x2101:02 (R444). -/
def aux12Shorts : Nat := 0x2101 * 256 + 0x02
/-- ALERT_CAUSE, 0x2102:01 (R444). -/
def alertCause : Nat := 0x2102 * 256 + 0x01
/-- ALERT_MASK, 0x2102:02 (R444). -/
def alertMask : Nat := 0x2102 * 256 + 0x02
/-- SLOT_ID, 0x2103:01 (R444). -/
def slotId : Nat := 0x2103 * 256 + 0x01
/-- MGMT_LINK, 0x2103:02 (R444). -/
def mgmtLink : Nat := 0x2103 * 256 + 0x02
/-- MGMT_UDP_PORT, 0x2103:03 (R444). -/
def mgmtUdpPort : Nat := 0x2103 * 256 + 0x03
/-- PLCA_NODES, 0x2103:04 (R444). -/
def plcaNodes : Nat := 0x2103 * 256 + 0x04
/-- PLCA_TO, 0x2103:05 (R444). -/
def plcaTo : Nat := 0x2103 * 256 + 0x05
/-- MGMT_LINK_LOSSES, 0x2103:06 (R444). -/
def mgmtLinkLosses : Nat := 0x2103 * 256 + 0x06
/-- LOCATE, 0x2104:01 (R444). -/
def locate : Nat := 0x2104 * 256 + 0x01
/-- COOL_MODE, 0x2105:01 (R444). -/
def coolMode : Nat := 0x2105 * 256 + 0x01
/-- COOL_DUTY, 0x2105:02 (R444). -/
def coolDuty : Nat := 0x2105 * 256 + 0x02
/-- COOL_DUTY_OUT, 0x2105:03 (R444). -/
def coolDutyOut : Nat := 0x2105 * 256 + 0x03
/-- COOL_TACH_HZ, 0x2105:04 (R444). -/
def coolTachHz : Nat := 0x2105 * 256 + 0x04
/-- COOL_TACH_MIN, 0x2105:05 (R444). -/
def coolTachMin : Nat := 0x2105 * 256 + 0x05
/-- PLATE_TEMP, 0x2105:06 (R444). -/
def plateTemp : Nat := 0x2105 * 256 + 0x06
/-- SPREADER_TEMP, 0x2105:07 (R444). -/
def spreaderTemp : Nat := 0x2105 * 256 + 0x07
/-- LEAK_ACTION, 0x2105:08 (R444). -/
def leakAction : Nat := 0x2105 * 256 + 0x08
/-- LEAK_EVENTS, 0x2105:09 (R444). -/
def leakEvents : Nat := 0x2105 * 256 + 0x09
/-- CP_ENABLE, 0xB000 + p:01 (R458). -/
def cpEnable (n : Nat) : Nat := (0xB000 + n) * 256 + 0x01
/-- CP_STATE, 0xB000 + p:02 (R458). -/
def cpState (n : Nat) : Nat := (0xB000 + n) * 256 + 0x02
/-- CP_CAPS_LOCAL, 0xB000 + p:03 (R458). -/
def cpCapsLocal (n : Nat) : Nat := (0xB000 + n) * 256 + 0x03
/-- CP_CAPS_DIE, 0xB000 + p:04 (R458). -/
def cpCapsDie (n : Nat) : Nat := (0xB000 + n) * 256 + 0x04
/-- CP_RATE, 0xB000 + p:05 (R458). -/
def cpRate (n : Nat) : Nat := (0xB000 + n) * 256 + 0x05
/-- CP_FENCE_LIMIT, 0xB000 + p:06 (R458). -/
def cpFenceLimit (n : Nat) : Nat := (0xB000 + n) * 256 + 0x06
/-- CP_VIOLATIONS, 0xB000 + p:07 (R458). -/
def cpViolations (n : Nat) : Nat := (0xB000 + n) * 256 + 0x07
/-- CP_LAST_VIOLATION, 0xB000 + p:08 (R458). -/
def cpLastViolation (n : Nat) : Nat := (0xB000 + n) * 256 + 0x08
/-- CP_FENCES, 0xB000 + p:09 (R458). -/
def cpFences (n : Nat) : Nat := (0xB000 + n) * 256 + 0x09
/-- CP_SNOOP_LATE, 0xB000 + p:0A (R458). -/
def cpSnoopLate (n : Nat) : Nat := (0xB000 + n) * 256 + 0x0A
/-- CP_HELD_LINES, 0xB000 + p:0B (R458). -/
def cpHeldLines (n : Nat) : Nat := (0xB000 + n) * 256 + 0x0B
/-- CP_RETRIES, 0xB000 + p:0C (R458). -/
def cpRetries (n : Nat) : Nat := (0xB000 + n) * 256 + 0x0C
/-- CP_UNCACHED, 0xB000 + p:0D (R458). -/
def cpUncached (n : Nat) : Nat := (0xB000 + n) * 256 + 0x0D
/-- SS_ENABLE, 0xB100 + 32p + w:01 (R458). -/
def ssEnable (n : Nat) : Nat := (0xB100 + n) * 256 + 0x01
/-- SS_SLICE, 0xB100 + 32p + w:02 (R458). -/
def ssSlice (n : Nat) : Nat := (0xB100 + n) * 256 + 0x02
/-- SS_BASE, 0xB100 + 32p + w:03 (R458). -/
def ssBase (n : Nat) : Nat := (0xB100 + n) * 256 + 0x03
/-- SS_SIZE, 0xB100 + 32p + w:04 (R458). -/
def ssSize (n : Nat) : Nat := (0xB100 + n) * 256 + 0x04
/-- SS_RIGHTS, 0xB100 + 32p + w:05 (R458). -/
def ssRights (n : Nat) : Nat := (0xB100 + n) * 256 + 0x05
/-- SS_RATE, 0xB100 + 32p + w:06 (R458). -/
def ssRate (n : Nat) : Nat := (0xB100 + n) * 256 + 0x06
/-- SS_BURST, 0xB100 + 32p + w:07 (R458). -/
def ssBurst (n : Nat) : Nat := (0xB100 + n) * 256 + 0x07
/-- SS_BYTES, 0xB100 + 32p + w:08 (R458). -/
def ssBytes (n : Nat) : Nat := (0xB100 + n) * 256 + 0x08
/-- SS_REFUSED, 0xB100 + 32p + w:09 (R458). -/
def ssRefused (n : Nat) : Nat := (0xB100 + n) * 256 + 0x09
/-- MODULE_STATE, 0x1020:01 (R475). -/
def moduleState : Nat := 0x1020 * 256 + 0x01
/-- START_FAIL, 0x1020:02 (R475). -/
def startFail : Nat := 0x1020 * 256 + 0x02
/-- RESTART, 0x1020:03 (R475). -/
def restart : Nat := 0x1020 * 256 + 0x03
/-- BOOT_COPIES, 0x1020:04 (R475). -/
def bootCopies : Nat := 0x1020 * 256 + 0x04
/-- FW_RECOVERY, 0x1020:05 (R475). -/
def fwRecovery : Nat := 0x1020 * 256 + 0x05
/-- VENDOR, 0x1000:01 (R501). -/
def vendor : Nat := 0x1000 * 256 + 0x01
/-- PRODUCT, 0x1000:02 (R501). -/
def product : Nat := 0x1000 * 256 + 0x02
/-- PART_NUMBER, 0x1000:03 (R501). -/
def partNumber : Nat := 0x1000 * 256 + 0x03
/-- STEPPING, 0x1000:04 (R501). -/
def stepping : Nat := 0x1000 * 256 + 0x04
/-- SERIAL, 0x1000:05 (R501). -/
def serial : Nat := 0x1000 * 256 + 0x05
/-- MGMT_MAC, 0x1000:06 (R501). -/
def mgmtMac : Nat := 0x1000 * 256 + 0x06
/-- TEST_DATE, 0x1000:07 (R501). -/
def testDate : Nat := 0x1000 * 256 + 0x07
/-- FW_RELEASE, 0x1001:01 (R501). -/
def fwRelease : Nat := 0x1001 * 256 + 0x01
/-- IMAGE_VERSION, 0x1001:02 to :06 (R501). -/
def imageVersion (j : Nat) : Nat := 0x1001 * 256 + (0x02 + j)
/-- SECURITY_VERSION, 0x1001:07 to :0A (R501). -/
def securityVersion (j : Nat) : Nat := 0x1001 * 256 + (0x07 + j)
/-- OD_VERSION, 0x1001:0B (R501). -/
def odVersion : Nat := 0x1001 * 256 + 0x0B
/-- BOOT_EPOCH, 0x1002:01 (R501). -/
def bootEpoch : Nat := 0x1002 * 256 + 0x01
/-- BODY_MAX_MGMT, 0x1002:02 (R501). -/
def bodyMaxMgmt : Nat := 0x1002 * 256 + 0x02
/-- BODY_MAX_BAND, 0x1002:03 (R501). -/
def bodyMaxBand : Nat := 0x1002 * 256 + 0x03
/-- OD_SLICE_KEY, 0x1040 + n:01 (R501). -/
def odSliceKey (n : Nat) : Nat := (0x1040 + n) * 256 + 0x01
/-- UPTIME, 0xA000:01 (R501). -/
def uptime : Nat := 0xA000 * 256 + 0x01
/-- OD_FRAMES, 0xA001:01 (R501). -/
def odFrames : Nat := 0xA001 * 256 + 0x01
/-- OD_AUTH_FAILS, 0xA001:02 (R501). -/
def odAuthFails : Nat := 0xA001 * 256 + 0x02
/-- OD_DROPPED, 0xA001:03 (R501). -/
def odDropped : Nat := 0xA001 * 256 + 0x03
/-- OD_REFUSED, 0xA001:04 (R501). -/
def odRefused : Nat := 0xA001 * 256 + 0x04
/-- NOTIFY_SENT, 0xA001:05 (R501). -/
def notifySent : Nat := 0xA001 * 256 + 0x05
/-- NOTIFY_COALESCED, 0xA001:06 (R501). -/
def notifyCoalesced : Nat := 0xA001 * 256 + 0x06
/-- SUBS_LIVE, 0xA001:07 (R501). -/
def subsLive : Nat := 0xA001 * 256 + 0x07
/-- MGR_COUNTER, 0xA001:08 (R501). -/
def mgrCounter : Nat := 0xA001 * 256 + 0x08
/-- SELFTEST_RUNS, 0xA002:01 to :04 (R501). -/
def selftestRuns (j : Nat) : Nat := 0xA002 * 256 + (0x01 + j)
/-- SELFTEST_FAILS, 0xA002:05 to :08 (R501). -/
def selftestFails (j : Nat) : Nat := 0xA002 * 256 + (0x05 + j)
/-- ISSUED, 0xA040 + n:01 (R501). -/
def issued (n : Nat) : Nat := (0xA040 + n) * 256 + 0x01
/-- GMMA_KBLOCKS, 0xA040 + n:02 (R501). -/
def gmmaKblocks (n : Nat) : Nat := (0xA040 + n) * 256 + 0x02
/-- STOKER_BYTES, 0xA040 + n:03 (R501). -/
def stokerBytes (n : Nat) : Nat := (0xA040 + n) * 256 + 0x03
/-- LLM_HITS, 0xA040 + n:04 (R501). -/
def llmHits (n : Nat) : Nat := (0xA040 + n) * 256 + 0x04
/-- LLM_MISSES, 0xA040 + n:05 (R501). -/
def llmMisses (n : Nat) : Nat := (0xA040 + n) * 256 + 0x05
/-- SYS_BYTES_OUT, 0xA040 + n:06 (R501). -/
def sysBytesOut (n : Nat) : Nat := (0xA040 + n) * 256 + 0x06
/-- SYS_BYTES_IN, 0xA040 + n:07 (R501). -/
def sysBytesIn (n : Nat) : Nat := (0xA040 + n) * 256 + 0x07

end Obj

end Sys2Proof.Machine
end

