-- ==== Sys2Proof/Machine/Num.lean ====
section
/-! DEFINITION. Num.lean: the number formats and the exact arithmetic of chapter 02: decoding, rounding, conversion, correctly
rounded arithmetic, MX blocks, EB planes, k-block accumulation, XR elements and the stochastic-rounding hash. Every value is
taken as an exact dyadic number and narrowed once. -/

namespace Sys2Proof.Machine

/-! ### Formats (R39, Table 2.1) -/

/-- How a format uses its top encodings: as IEEE 754, only S.1111.111 a NaN (E4M3), or no special encodings. -/
inductive Specials where
  | ieee
  | nanOnly
  | none
  deriving DecidableEq, Repr

/-- A floating-point format: exponent and mantissa widths, bias, special encodings. -/
structure FFmt where
  eb : Nat
  mb : Nat
  bias : Int
  sp : Specials
  deriving DecidableEq, Repr

def fmtF64 : FFmt := ⟨11, 52, 1023, .ieee⟩
def fmtF32 : FFmt := ⟨8, 23, 127, .ieee⟩
def fmtF16 : FFmt := ⟨5, 10, 15, .ieee⟩
def fmtBf16 : FFmt := ⟨8, 7, 127, .ieee⟩
def fmtE4M3 : FFmt := ⟨4, 3, 7, .nanOnly⟩
def fmtE5M2 : FFmt := ⟨5, 2, 15, .ieee⟩
def fmtE3M2 : FFmt := ⟨3, 2, 3, .none⟩
def fmtE2M3 : FFmt := ⟨2, 3, 1, .none⟩
def fmtE2M1 : FFmt := ⟨2, 1, 1, .none⟩

/-- A value: (−1)^neg × m × 2^e, an infinity, or a NaN. `e` is the weight of the least significant bit of the source. -/
inductive FVal where
  | fin (neg : Bool) (m : Nat) (e : Int)
  | inf (neg : Bool)
  | nan
  deriving DecidableEq, Repr

/-- Width of a format in bits. -/
def fmtWidth (f : FFmt) : Nat := 1 + f.eb + f.mb

/-- The encoding of the largest finite magnitude (Table 2.1). -/
def fmtMaxCode (f : FFmt) : Nat :=
  match f.sp with
  | .ieee => (2 ^ f.eb - 1) * 2 ^ f.mb - 1
  | .nanOnly => 2 ^ (f.eb + f.mb) - 2
  | .none => 2 ^ (f.eb + f.mb) - 1

/-- The canonical NaN (R40); 0 for a format without one. -/
def fmtNaN (f : FFmt) : Nat :=
  match f.sp with
  | .ieee => (2 ^ f.eb - 1) * 2 ^ f.mb + 2 ^ (f.mb - 1)
  | .nanOnly => 2 ^ (f.eb + f.mb) - 1
  | .none => 0

/-- The sign bit of a format set, or not. -/
def fmtSign (f : FFmt) (neg : Bool) : Nat := if neg then 2 ^ (f.eb + f.mb) else 0

/-- The value of an encoding (R39). -/
def decodeF (f : FFmt) (bits : Nat) : FVal :=
  let neg := bits.testBit (f.eb + f.mb)
  let e := bits / 2 ^ f.mb % 2 ^ f.eb
  let m := bits % 2 ^ f.mb
  let top := e = 2 ^ f.eb - 1
  if f.sp = .ieee ∧ top ∧ m = 0 then .inf neg
  else if f.sp = .ieee ∧ top then .nan
  else if f.sp = .nanOnly ∧ top ∧ m = 2 ^ f.mb - 1 then .nan
  else if e = 0 then .fin neg m (1 - f.bias - f.mb)
  else .fin neg (2 ^ f.mb + m) (e - f.bias - f.mb)

/-! ### Rounding (R43, R44, R68) -/

/-- Whether a magnitude with integer part `kept`, and `k` bits below it that read `d`, rounds up: mode (Table 2.2), sign, and
the hash for RSR (R68). -/
def roundsUp (rm : Nat) (hash : Nat) (neg : Bool) (kept d k : Nat) : Bool :=
  if d = 0 then false
  else match rm with
  | 0 => decide (2 ^ k < 2 * d) || (decide (2 * d = 2 ^ k) && kept % 2 == 1)
  | 1 => false
  | 2 => neg
  | 3 => !neg
  | _ =>
    let dd := if 64 < k then d / 2 ^ (k - 64) else d
    let kk := min k 64
    decide (2 ^ kk ≤ dd + hash % 2 ^ kk)

/-- The magnitude m × 2^e as a multiple of 2^q, rounded. -/
def roundAt (rm hash : Nat) (neg : Bool) (m : Nat) (e q : Int) : Nat :=
  if q ≤ e then m * 2 ^ (e - q).toNat
  else
    let k := (q - e).toNat
    let kept := m / 2 ^ k
    if roundsUp rm hash neg kept (m % 2 ^ k) k then kept + 1 else kept

/-- Weight of the most significant bit of m × 2^e, m not 0: floor(log2) of the value. -/
def topExp (m : Nat) (e : Int) : Int := e + Nat.log2 m

/-- The infinity of a format, or its largest finite value where it has none (Table 2.3). -/
def infCode (f : FFmt) : Nat :=
  match f.sp with
  | .ieee => (2 ^ f.eb - 1) * 2 ^ f.mb
  | _ => fmtMaxCode f

/-- What a finite value beyond the largest finite one becomes (Table 2.3). -/
def overflowCode (f : FFmt) (rm : Nat) (neg : Bool) : Nat :=
  match f.sp with
  | .ieee =>
    if rm = 0 ∨ (rm = 2 ∧ neg) ∨ (rm = 3 ∧ !neg) then infCode f else fmtMaxCode f
  | _ => fmtMaxCode f

/-- A rounded result: its encoding and the IEEE conditions that the trap of R53 knows. -/
structure Rounded where
  bits : Nat
  invalid : Bool := false
  overflow : Bool := false
  deriving DecidableEq, Repr

/-- A finite value in a format, rounded once (R43, R44). -/
def roundFin (f : FFmt) (rm hash : Nat) (neg : Bool) (m : Nat) (e : Int) : Rounded :=
  if m = 0 then ⟨fmtSign f neg, false, false⟩
  else
    let emin : Int := 1 - f.bias
    let q := max (topExp m e) emin - f.mb
    let r := roundAt rm hash neg m e q
    -- the encoding of r × 2^q: a carry into the next binade carries into the exponent field by itself
    let code : Nat :=
      if r < 2 ^ f.mb then r
      else ((q + f.mb + f.bias).toNat - 1) * 2 ^ f.mb + r
    if fmtMaxCode f < code then ⟨fmtSign f neg + overflowCode f rm neg, false, true⟩
    else ⟨fmtSign f neg + code, false, false⟩

/-- A value in a format (R44). The NaN of a format without one is 0; block conversions set the scale instead. DESIGN CHOICE (log 104):
saturation counts as the overflow of IEEE 754 for a finite value beyond the largest one, and not for an infinity. -/
def convF (f : FFmt) (rm hash : Nat) (v : FVal) : Rounded :=
  match v with
  | .fin neg m e => roundFin f rm hash neg m e
  | .inf neg => ⟨fmtSign f neg + infCode f, false, false⟩
  | .nan => ⟨fmtNaN f, false, false⟩

/-! ### Stochastic rounding (R66, R67) -/

/-- sr_hash of R67. -/
def srHash (seed tick p : Word64) : Word64 :=
  let z := seed ^^^ (tick <<< 16) ^^^ p
  let z := z + 0x9E3779B97F4A7C15
  let z := (z ^^^ (z >>> 30)) * 0xBF58476D1CE4E5B9
  let z := (z ^^^ (z >>> 27)) * 0x94D049BB133111EB
  z ^^^ (z >>> 31)

/-! ### Exact dyadic numbers -/

/-- m × 2^e with a signed m. -/
structure Dy where
  m : Int
  e : Int
  deriving DecidableEq, Repr

def dyAdd (a b : Dy) : Dy :=
  let e := min a.e b.e
  ⟨a.m * 2 ^ (a.e - e).toNat + b.m * 2 ^ (b.e - e).toNat, e⟩

def dyMul (a b : Dy) : Dy := ⟨a.m * b.m, a.e + b.e⟩

def dyLt (a b : Dy) : Bool :=
  let e := min a.e b.e
  decide (a.m * 2 ^ (a.e - e).toNat < b.m * 2 ^ (b.e - e).toNat)

/-- A finite value as a dyadic number; 0 for the others. -/
def dyOf : FVal → Dy
  | .fin neg m e => ⟨if neg then -(m : Int) else m, e⟩
  | _ => ⟨0, 0⟩

/-- A dyadic number in a format, a zero taking the given sign. -/
def roundDy (f : FFmt) (rm : Nat) (zeroNeg : Bool) (d : Dy) : Rounded :=
  if d.m = 0 then ⟨fmtSign f zeroNeg, false, false⟩
  else roundFin f rm 0 (decide (d.m < 0)) d.m.natAbs d.e

/-! ### Correctly rounded arithmetic (R50) -/

def negF : FVal → FVal
  | .fin s m e => .fin (!s) m e
  | .inf s => .inf (!s)
  | .nan => .nan

def signOf : FVal → Bool
  | .fin s _ _ => s
  | .inf s => s
  | .nan => false

def isZeroF : FVal → Bool
  | .fin _ m _ => m == 0
  | _ => false

def nanResult (f : FFmt) (invalid : Bool) : Rounded := ⟨fmtNaN f, invalid, false⟩

/-- A + B. -/
def addF (f : FFmt) (rm : Nat) (a b : FVal) : Rounded :=
  match a, b with
  | .nan, _ => nanResult f false
  | _, .nan => nanResult f false
  | .inf s, .inf t => if s = t then ⟨fmtSign f s + infCode f, false, false⟩ else nanResult f true
  | .inf s, _ => ⟨fmtSign f s + infCode f, false, false⟩
  | _, .inf s => ⟨fmtSign f s + infCode f, false, false⟩
  | x, y =>
    let zn := if signOf x = signOf y then signOf x else rm == 2
    -- an exact sum of 0 keeps the common sign of two zeros and is otherwise +0, or −0 under RDN
    let zn := if isZeroF x && isZeroF y then zn else rm == 2
    roundDy f rm zn (dyAdd (dyOf x) (dyOf y))

/-- A × B. -/
def mulF (f : FFmt) (rm : Nat) (a b : FVal) : Rounded :=
  let s := signOf a != signOf b
  match a, b with
  | .nan, _ => nanResult f false
  | _, .nan => nanResult f false
  | .inf _, y => if isZeroF y then nanResult f true else ⟨fmtSign f s + infCode f, false, false⟩
  | x, .inf _ => if isZeroF x then nanResult f true else ⟨fmtSign f s + infCode f, false, false⟩
  | x, y => roundDy f rm s (dyMul (dyOf x) (dyOf y))

/-- A × B + C with one rounding. DESIGN CHOICE (log 104): zero times an infinity plus a NaN raises no invalid operation, which IEEE 754-2019
leaves to the implementation. -/
def fmaF (f : FFmt) (rm : Nat) (a b c : FVal) : Rounded :=
  let s := signOf a != signOf b
  let isInf : FVal → Bool := fun v => match v with | .inf _ => true | _ => false
  let isNan : FVal → Bool := fun v => match v with | .nan => true | _ => false
  if isNan a || isNan b || isNan c then nanResult f false
  else if (isInf a && isZeroF b) || (isZeroF a && isInf b) then nanResult f true
  else if isInf a || isInf b then
    match c with
    | .inf t => if s = t then ⟨fmtSign f s + infCode f, false, false⟩ else nanResult f true
    | _ => ⟨fmtSign f s + infCode f, false, false⟩
  else match c with
  | .inf t => ⟨fmtSign f t + infCode f, false, false⟩
  | _ =>
    let p := dyMul (dyOf a) (dyOf b)
    let zn := if p.m = 0 ∧ isZeroF c ∧ s = signOf c then s else rm == 2
    roundDy f rm zn (dyAdd p (dyOf c))

/-- A / B. The quotient is taken to more bits than the format holds, with a sticky last bit. -/
def divF (f : FFmt) (rm : Nat) (a b : FVal) : Rounded :=
  let s := signOf a != signOf b
  match a, b with
  | .nan, _ => nanResult f false
  | _, .nan => nanResult f false
  | .inf _, .inf _ => nanResult f true
  | .inf _, _ => ⟨fmtSign f s + infCode f, false, false⟩
  | _, .inf _ => ⟨fmtSign f s, false, false⟩
  | .fin _ m e, .fin _ n g =>
    if n = 0 then (if m = 0 then nanResult f true else ⟨fmtSign f s + infCode f, false, false⟩)
    else if m = 0 then ⟨fmtSign f s, false, false⟩
    else
      let k := 2 * f.mb + 8
      let q := m * 2 ^ k / n
      let sticky := if m * 2 ^ k % n = 0 then 0 else 1
      roundFin f rm 0 s (2 * q + sticky) (e - g - k - 1)

/-- Largest r with r² ≤ n, below 2^k: one bit of r per step of the recursion. -/
def isqrtGo (n : Nat) : Nat → Nat → Nat
  | 0, r => r
  | k + 1, r =>
    let b := r + 2 ^ k
    if b * b ≤ n then isqrtGo n k b else isqrtGo n k r

/-- The integer square root. -/
def isqrt (n : Nat) : Nat := isqrtGo n (Nat.log2 n / 2 + 1) 0

/-- √A. -/
def sqrtF (f : FFmt) (rm : Nat) (a : FVal) : Rounded :=
  match a with
  | .nan => nanResult f false
  | .inf s => if s then nanResult f true else ⟨infCode f, false, false⟩
  | .fin s m e =>
    if m = 0 then ⟨fmtSign f s, false, false⟩
    else if s then nanResult f true
    else
      -- an even exponent, and enough bits that the root carries more than the format holds
      let k := 2 * f.mb + 8
      let m' := if e % 2 = 0 then m * 2 ^ (2 * k) else m * 2 ^ (2 * k + 1)
      let e' := (if e % 2 = 0 then e else e - 1) - 2 * k
      let r := isqrt m'
      let sticky := if r * r = m' then 0 else 1
      roundFin f rm 0 false (2 * r + sticky) (e' / 2 - 1)

/-- A < B on numbers, −0 and +0 equal; false with a NaN (Table 4.12). -/
def ltF (a b : FVal) : Bool :=
  match a, b with
  | .nan, _ => false
  | _, .nan => false
  | .inf s, .inf t => s && !t
  | .inf s, _ => s
  | _, .inf t => !t
  | x, y => dyLt (dyOf x) (dyOf y)

/-- A = B on numbers, −0 and +0 equal; false with a NaN. -/
def eqF (a b : FVal) : Bool :=
  match a, b with
  | .nan, _ => false
  | _, .nan => false
  | x, y => !(ltF x y) && !(ltF y x)

/-- Order of minimum and maximum: −0 below +0 (R51). -/
def ordLt (a b : FVal) : Bool :=
  if isZeroF a && isZeroF b then signOf a && !signOf b else ltF a b

/-- Minimum (or maximum) of two encodings of a format (R51). -/
def minMaxF (f : FFmt) (isMax : Bool) (a b : Nat) : Nat :=
  let va := decodeF f a
  let vb := decodeF f b
  match va, vb with
  | .nan, .nan => fmtNaN f
  | .nan, _ => b
  | _, .nan => a
  | _, _ => if (if isMax then ordLt va vb else ordLt vb va) then b else a

/-! ### Integer conversions (R499) -/

/-- A float rounded to an integer of `w` bits, signed or not, saturating; a NaN gives 0. -/
def toIntF (rm hash : Nat) (signed : Bool) (w : Nat) (v : FVal) : Rounded :=
  let hi : Int := if signed then 2 ^ (w - 1) - 1 else 2 ^ w - 1
  let lo : Int := if signed then -(2 ^ (w - 1)) else 0
  let enc : Int → Nat := fun i => (i % 2 ^ w).toNat
  match v with
  | .nan => ⟨0, true, false⟩
  | .inf s => ⟨enc (if s then lo else hi), true, false⟩
  | .fin s m e =>
    let r : Int := roundAt rm hash s m e 0
    let i : Int := if s then -r else r
    if hi < i then ⟨enc hi, true, false⟩
    else if i < lo then ⟨enc lo, true, false⟩
    else ⟨enc i, false, false⟩

/-- An integer as a value. -/
def ofIntF (i : Int) : FVal := .fin (decide (i < 0)) i.natAbs 0

/-! ### MX blocks (R41, R45) -/

/-- The formats of tile descriptors (Table 4.20), by FMT code 0 to 4 and 6 to 8; none for MXINT8 (5) and reserved codes. -/
def tileFmt (code : Nat) : Option FFmt :=
  match code with
  | 0 => some fmtE4M3
  | 1 => some fmtE5M2
  | 2 => some fmtE3M2
  | 3 => some fmtE2M3
  | 4 => some fmtE2M1
  | 6 => some fmtBf16
  | 7 => some fmtF32
  | 8 => some fmtF16
  | _ => none

/-- Element width in bits of a tile format code. -/
def tileWidth (code : Nat) : Nat :=
  match code with
  | 0 | 1 | 5 => 8
  | 2 | 3 => 6
  | 4 => 4
  | 6 | 8 => 16
  | 7 => 32
  | _ => 8

/-- Whether a tile format code is an MX format with block scales. -/
def isMx (code : Nat) : Bool := code ≤ 5

/-- emax_elem of R45. -/
def emaxElem (code : Nat) : Int :=
  match code with
  | 0 => 8
  | 1 => 15
  | 2 => 4
  | 3 => 2
  | 4 => 2
  | _ => 0

/-- An element of a tile format as a value; MXINT8 element n has the value n × 2^−6 (R39, R42). -/
def decodeElem (code bits : Nat) : FVal :=
  if code = 5 then
    let n : Int := if bits % 256 < 128 then (bits % 256 : Nat) else (bits % 256 : Nat) - 256
    .fin (decide (n < 0)) n.natAbs (-6)
  else match tileFmt code with
  | some f => decodeF f bits
  | none => .nan

/-- floor(log2) of the largest finite magnitude of a list, if one is not zero. -/
def maxTopExp (vs : List FVal) : Option Int :=
  vs.foldl (fun acc v => match v with
    | .fin _ m e => if m = 0 then acc else match acc with
      | none => some (topExp m e)
      | some x => some (max x (topExp m e))
    | _ => acc) none

/-- The scale exponent X of R45, with the scale byte: 0 when no finite source value is non-zero. -/
def mxScale (code : Nat) (vs : List FVal) : Int × Nat :=
  match maxTopExp vs with
  | none => (-127, 0)
  | some t =>
    let x := max (-127) (min 127 (t - emaxElem code))
    (x, (x + 127).toNat)

/-- A value scaled by 2^−X. -/
def scaleF (x : Int) : FVal → FVal
  | .fin s m e => .fin s m (e - x)
  | v => v

/-- One element of a block converted under Table 2.3; a NaN in a format without one leaves a bit pattern that no rule states
(log 14: the free number `fr`), under a scale of 0xFF. An MXINT8 element is never 0x80 (R42). -/
def mxElem (fr code rm hash : Nat) (v : FVal) : Nat :=
  if code = 5 then
    match v with
    | .nan => if fr % 255 < 128 then fr % 255 else fr % 255 + 1
    | .inf s => if s then 0x81 else 0x7F
    | .fin s m e =>
      let r := min (roundAt rm hash s m e (-6)) 127
      if s then (256 - r) % 256 else r
  else match tileFmt code with
  | none => 0
  | some f =>
    match v, f.sp with
    | .nan, .none => fr % 2 ^ fmtWidth f
    | _, _ => (convF f rm hash v).bits

/-- What the conversion of one element of a block raises: overflow, where a finite value lies beyond the format's largest (Table 2.3, R53). -/
def mxElemRaises (code rm hash : Nat) (v : FVal) : Rounded :=
  if code = 5 then match v with
    | .fin s m e => { bits := 0, overflow := decide (127 < roundAt rm hash s m e (-6)) }
    | _ => { bits := 0 }
  else match tileFmt code with
  | none => { bits := 0 }
  | some f => convF f rm hash v

/-- What the conversions of a block's elements raise. -/
def mxRaises (code rm : Nat) (hash : Nat → Nat) (vs : List FVal) : List Rounded :=
  vs.mapIdx fun i v => mxElemRaises code rm (hash i) (scaleF (mxScale code vs).1 v)

/-- A block of values in an MX format: its scale and its elements, in the mode `rm` with the hash of element i (R45); free number `fr`
of an element that no rule states. -/
def mxBlock (fr : Nat → Nat) (code rm : Nat) (hash : Nat → Nat) (vs : List FVal) : Nat × List Nat :=
  let (x, s) := mxScale code vs
  let noNan := code = 5 || (match tileFmt code with | some f => f.sp == .none | none => false)
  let s' := if noNan && vs.contains .nan then 0xFF else s
  (s', vs.mapIdx fun i v => mxElem (fr i) code rm (hash i) (scaleF x v))

/-- An element under a scale: 2^(S − 127) × element; a scale of 0xFF makes it a NaN (R41). -/
def mxValue (code scale bits : Nat) : FVal :=
  if scale = 0xFF then .nan else scaleF (127 - scale) (decodeElem code bits)

/-! ### EB planes (R46 to R49, R225) -/

/-- Element magnitudes of EB4 (E2M1, in halves) and EB3 (Table 2.5, in halves), by code. -/
def ebMags (fmt : Nat) : List Nat := if fmt = 2 then [0, 1, 2, 3, 4, 6, 8, 12] else [0, 2, 4, 8]

/-- Sign bit weight of an EB4 or EB3 element code. -/
def ebSignBit (fmt : Nat) : Nat := if fmt = 2 then 8 else 4

/-- Width in bits of an element of EB8 (1), EB4 (2), EB3 (3). -/
def ebWidth (fmt : Nat) : Nat := if fmt = 1 then 8 else if fmt = 2 then 4 else 3

/-- Elements per group (Table 2.4). -/
def ebGroup (fmt : Nat) : Nat := if fmt = 1 then 32 else 16

/-- M of R48. -/
def ebM (fmt : Nat) : Nat := if fmt = 2 then 6 else 4

/-- The largest finite magnitude of a list, as a dyadic number. -/
def amaxDy (vs : List FVal) : Dy :=
  vs.foldl (fun acc v => match v with
    | .fin _ m e => if dyLt acc ⟨m, e⟩ then ⟨m, e⟩ else acc
    | _ => acc) ⟨0, 0⟩

/-- Smallest x from `x` upward, within `fuel` steps, with a ≤ b × 2^x. -/
def ceilLog2Go (a : Dy) (b : Nat) : Nat → Int → Int
  | 0, x => x
  | k + 1, x => if dyLt ⟨b, x⟩ a then ceilLog2Go a b k (x + 1) else x

/-- The plane exponent X of R48 and the plane scale P. -/
def ebPlaneScale (fmt : Nat) (vs : List FVal) : Int × Nat :=
  let a := amaxDy vs
  if a.m = 0 then (-127, 0)
  else
    let b := ebM fmt * 448
    let x0 := topExp a.m.natAbs a.e - Nat.log2 b - 1
    let x := max (-127) (min 127 (ceilLog2Go a b 4 x0))
    (x, (x + 127).toNat)

/-- An unsigned E4M3 group scale: a / (M × 2^X) under RUP, at most 448 (R48). -/
def ebGroupScale (fmt : Nat) (x : Int) (a : Dy) : Nat :=
  if a.m = 0 then 0
  else
    let m := a.m.natAbs * 2 ^ 16
    let q := m / ebM fmt
    let sticky := if m % ebM fmt = 0 then 0 else 1
    (roundFin fmtE4M3 3 0 false (2 * q + sticky) (a.e - 17 - x)).bits

/-- The value of a group-scale byte; bits [6:0] of 0x7F read as 448 (R47). -/
def ebScaleVal (g : Nat) : Dy :=
  if g % 128 = 127 then ⟨448, 0⟩ else dyOf (decodeF fmtE4M3 (g % 128))

/-- The code of the element magnitude nearest to |x| / unit, ties to the even code: the count of midpoints passed (R48). -/
def ebNearest (fmt : Nat) (mag unit : Dy) : Nat :=
  let ms := ebMags fmt
  -- midpoints in quarters: (v_i + v_(i+1)) / 2 with v in halves
  let mids := (ms.zip ms.tail).map fun p => p.1 + p.2
  (mids.mapIdx fun i s => (i, s)).foldl (fun acc p =>
    let mid : Dy := dyMul ⟨p.2, -2⟩ unit
    if dyLt mid mag || (!(dyLt mag mid) && p.1 % 2 == 1) then p.1 + 1 else acc) 0

/-- One element of an EB4 or EB3 plane under group scale g and plane exponent X (R48). -/
def ebElem (fmt : Nat) (x : Int) (g : Nat) (v : FVal) : Nat :=
  match v with
  | .nan => 0
  | .inf s => (ebMags fmt).length - 1 + (if s then ebSignBit fmt else 0)
  | .fin s m e =>
    let unit := dyMul (ebScaleVal g) ⟨1, x⟩
    let c := if unit.m = 0 then 0 else ebNearest fmt ⟨m, e⟩ unit
    -- an EB3 zero has one code (log 99)
    c + (if s && !(fmt == 3 && c == 0) then ebSignBit fmt else 0)

/-- Cut a list into pieces of n, at most `fuel` of them. -/
def chunks {α : Type} (n : Nat) : Nat → List α → List (List α)
  | 0, _ => []
  | k + 1, l => if l.isEmpty then [] else l.take n :: chunks n k (l.drop n)

/-- A plane encoded: elements, group scales, plane scale (0 for EB8), infinities and NaNs counted (R48). -/
def ebEncode (fmt : Nat) (vs : List FVal) : List Nat × List Nat × Nat :=
  let noNan := vs.map fun v => if v = .nan then .fin false 0 0 else v
  if fmt = 1 then
    let blocks := (chunks 32 vs.length noNan).map fun g =>
      let (x, s) := mxScale 0 g
      (s, g.map fun v => (convF fmtE4M3 0 0 (scaleF x v)).bits)
    (blocks.flatMap (·.2), blocks.map (·.1), 0)
  else
    let (x, p) := ebPlaneScale fmt noNan
    let gs := (chunks 16 vs.length noNan).map fun g =>
      let s := ebGroupScale fmt x (amaxDy g)
      (s, g.map fun v => ebElem fmt x s v)
    (gs.flatMap (·.2), gs.map (·.1), p)

/-- The exact value of an EB element (R47). A plane scale 0xFF is taken literally, as 2^128 (DESIGN CHOICE, log 125). -/
def ebValue (fmt : Nat) (elem gscale pscale : Nat) : FVal :=
  if fmt = 1 then mxValue 0 gscale elem
  else
    let neg := elem % (2 * ebSignBit fmt) / ebSignBit fmt = 1
    let mag := (ebMags fmt).getD (elem % ebSignBit fmt) 0
    let v := dyMul ⟨mag, -1⟩ (dyMul (ebScaleVal gscale) ⟨1, (pscale : Int) - 127⟩)
    .fin (neg && !(fmt == 3 && mag == 0)) v.m.natAbs v.e

/-- A value in bfloat16 under RNE, saturating at the largest finite value (R49). -/
def ebToBf16 (v : FVal) : Nat :=
  match v with
  | .nan => fmtNaN fmtBf16
  | .inf s => fmtSign fmtBf16 s + fmtMaxCode fmtBf16
  | .fin s m e =>
    let r := roundFin fmtBf16 0 0 s m e
    if r.overflow then fmtSign fmtBf16 s + fmtMaxCode fmtBf16 else r.bits

/-! ### Matrix k-blocks (R54 to R58) -/

/-- A product of two operand elements with the sign it has when it is zero. -/
inductive Prod where
  | nan
  | inf (neg : Bool)
  | fin (neg : Bool) (m : Nat) (e : Int)
  deriving DecidableEq, Repr

def mulProd (a b : FVal) : Prod :=
  let s := signOf a != signOf b
  match a, b with
  | .nan, _ => .nan
  | _, .nan => .nan
  | .inf _, y => if isZeroF y then .nan else .inf s
  | x, .inf _ => if isZeroF x then .nan else .inf s
  | .fin _ m e, .fin _ n g => .fin s (m * n) (e + g)

/-- R57: bits of a product below 2^(emax − 95) are discarded, toward zero. -/
def truncProd (emax : Int) : Prod → Prod
  | .fin s m e =>
    if e < emax - 95 then .fin s (m / 2 ^ (emax - 95 - e).toNat) (emax - 95) else .fin s m e
  | p => p

/-- The largest exponent among the non-zero products of a k-block (R57). -/
def prodEmax (ps : List Prod) : Option Int :=
  ps.foldl (fun acc p => match p with
    | .fin _ m e => if m = 0 then acc else match acc with
      | none => some e
      | some x => some (max x e)
    | _ => acc) none

/-- One k-block: acc + Σ products, rounded once to binary32 under RNE. `truncate` for bfloat16 and binary32 operands. -/
def kBlock (truncate : Bool) (acc : Nat) (ps : List Prod) : Nat :=
  let va := decodeF fmtF32 acc
  let ps := match truncate, prodEmax ps with
    | true, some em => ps.map (truncProd em)
    | _, _ => ps
  let pos := ps.contains (.inf false) || va == .inf false
  let neg := ps.contains (.inf true) || va == .inf true
  if ps.contains .nan || va == .nan || (pos && neg) then fmtNaN fmtF32
  else if pos then infCode fmtF32
  else if neg then fmtSign fmtF32 true + infCode fmtF32
  else
    let sum := ps.foldl (fun d p => match p with
      | .fin s m e => dyAdd d ⟨if s then -(m : Int) else m, e⟩
      | _ => d) (dyOf va)
    let allNegZero := isZeroF va && signOf va && ps.all fun p => match p with
      | .fin s m _ => s && m == 0
      | _ => false
    let r := (roundDy fmtF32 0 false sum).bits
    if allNegZero then 2 ^ 31 else if r % 2 ^ 31 = 0 then 0 else r

/-- What one k-block raises (R53): invalid operation of a product 0 × ∞, or of opposite infinities with no NaN among the terms; overflow of a
finite sum beyond the binary32 range. -/
def kRaises (truncate : Bool) (acc : Nat) (qs : List (FVal × FVal)) : Rounded :=
  let isInf (v : FVal) : Bool := v == .inf false || v == .inf true
  let ps := qs.map fun q => mulProd q.1 q.2
  let va := decodeF fmtF32 acc
  let pos := ps.contains (.inf false) || va == .inf false
  let neg := ps.contains (.inf true) || va == .inf true
  let nan := ps.contains .nan || va == .nan
  let r := kBlock truncate acc ps
  { bits := r,
    invalid := qs.any (fun q => (isInf q.1 && isZeroF q.2) || (isZeroF q.1 && isInf q.2)) || (!nan && pos && neg),
    overflow := !nan && !pos && !neg && r % 2 ^ 31 == infCode fmtF32 }

/-! ### XR elements (R59 to R65) -/

/-- h of R60: ceil(log2(CCOUNT_M1 + 1)). -/
def xrH (ccountM1 : Nat) : Nat := if ccountM1 = 0 then 0 else Nat.log2 ccountM1 + 1

/-- F of R60. -/
def xrF (xr64 : Bool) (ccountM1 : Nat) : Int := if xr64 then 43 else 29 - xrH ccountM1

/-- SPEC code of an element (Table 2.6). -/
def xrSpec : FVal → Nat
  | .fin _ _ _ => 0
  | .inf false => 1
  | .inf true => 2
  | .nan => 3

/-- EXP of a block's contribution: the largest floor(log2) of its finite non-zero elements, −32,768 without one (R61). -/
def xrExp (vs : List FVal) : Int := (maxTopExp vs).getD (-32768)

/-- round(x / u) under RNE for unit u = 2^(EXP − F) (R61), clamped when the exponent was given (R63). -/
def xrInt (xr64 : Bool) (ccountM1 : Nat) (exp : Int) (given : Bool) (v : FVal) : Int :=
  match v with
  | .fin s m e =>
    if exp = -32768 then 0
    else
      let r : Int := roundAt 0 0 s m e (exp - xrF xr64 ccountM1)
      let lim : Int := if xr64 then 2 ^ 44 else 2 ^ (30 - xrH ccountM1)
      let r := if given then min r lim else r
      if s then -r else r
  | _ => 0

/-- The final result of an element in a float format (Table 2.7). `sum` is the wrapped signed integer sum. -/
def xrResult (f : FFmt) (xr64 : Bool) (ccountM1 : Nat) (spec : Nat) (exp sum : Int) : Nat :=
  match spec with
  | 3 => fmtNaN f
  | 1 => infCode f
  | 2 => fmtSign f true + infCode f
  | _ =>
    if exp = -32768 then 0
    else (roundDy f 0 false ⟨sum, exp - xrF xr64 ccountM1⟩).bits

/-- A signed number of `w` bits from its value modulo 2^w. -/
def wrapInt (w : Nat) (i : Int) : Int :=
  let r := i % 2 ^ w
  if r < 2 ^ (w - 1) then r else r - 2 ^ w

/-- The fixed binary tree of R65: pairs are summed under RNE, an unpaired last node passes through. -/
def pairSum (f : FFmt) : List Nat → List Nat
  | a :: b :: rest => (addF f 0 (decodeF f a) (decodeF f b)).bits :: pairSum f rest
  | l => l

def rankTree (f : FFmt) : Nat → List Nat → Nat
  | 0, l => l.headD 0
  | k + 1, l => match l with
    | [x] => x
    | _ => rankTree f k (pairSum f l)

end Sys2Proof.Machine
end

