-- ==== Sys2Proof/Machine/Ops.lean ====
section
/-! DEFINITION. Ops.lean: the named operations that every meaning is written over: canonical sparse maps, objects of the
dictionary, the records of the state found and written back by their number, free values, and the bytes and fields of
little-endian structures (R6). -/

namespace Sys2Proof.Machine

/-- The result type of a meaning. -/
abbrev Res := Host.Outcome State Fault Refusal

/-! ### Canonical sparse maps: keys strictly rising, no entry equal to the default of its key -/

/-- The value at a key: what is listed, else the default. -/
def sget {α : Type} (d : Nat → α) : List (Nat × α) → Nat → α
  | [], a => d a
  | (k, v) :: l, a => if a = k then v else sget d l a

/-- A key and its value put in its place. -/
def sinsert {α : Type} (a : Nat) (v : α) : List (Nat × α) → List (Nat × α)
  | [] => [(a, v)]
  | (k, w) :: l => if a < k then (a, v) :: (k, w) :: l else (k, w) :: sinsert a v l

/-- Writing a value at a key; writing the default removes the entry. -/
def sput {α : Type} [DecidableEq α] (d : Nat → α) (l : List (Nat × α)) (a : Nat) (v : α) : List (Nat × α) :=
  let rest := l.filter fun p => p.1 != a
  if v = d a then rest else sinsert a v rest

/-- Whether a list has the canonical form. -/
def swf {α : Type} [DecidableEq α] (d : Nat → α) : List (Nat × α) → Bool
  | [] => true
  | [(k, v)] => decide (v ≠ d k)
  | (k, v) :: (k', v') :: l => decide (v ≠ d k) && decide (k < k') && swf d ((k', v') :: l)

/-! ### Cells of bytes -/

/-- The default byte of every memory of the module: the scrub value zero (R174, R468; log 4). -/
def scrubByte (_ : Nat) : Byte := 0

/-- A byte of a cell list. -/
def cellGet (l : List Host.Cell) (a : Nat) : Byte := sget scrubByte l a

/-- Writing a byte of a cell list. -/
def cellPut (l : List Host.Cell) (a : Nat) (b : Byte) : List Host.Cell := sput scrubByte l a b

/-- `n` bytes from an address. -/
def cellsGet (l : List Host.Cell) (a : Nat) : Nat → List Byte
  | 0 => []
  | n + 1 => cellGet l a :: cellsGet l (a + 1) n

/-- Writing bytes from an address on. -/
def cellsPut (l : List Host.Cell) (a : Nat) : List Byte → List Host.Cell
  | [] => l
  | b :: bs => cellsPut (cellPut l a b) (a + 1) bs

/-- Cells written one after another. -/
def cellsAdd (l cs : List Host.Cell) : List Host.Cell := cs.foldl (fun l c => cellPut l c.1 c.2) l

/-- Canonical form of a memory of bytes: addresses strictly rising, no listed zero. -/
abbrev Memory.wf (l : List Host.Cell) : Prop := swf scrubByte l = true

/-! ### Little-endian structures (R6) -/

/-- A list of bytes as a number. -/
def leNat : List Byte → Nat
  | [] => 0
  | b :: bs => b.toNat + 256 * leNat bs

/-- The `n` low bytes of a number. -/
def toLe : Nat → Nat → List Byte
  | 0, _ => []
  | n + 1, v => BitVec.ofNat 8 v :: toLe n (v / 256)

/-- Bits [hi:lo] of a number. -/
def bits (v hi lo : Nat) : Nat := v / 2 ^ lo % 2 ^ (hi + 1 - lo)

/-- Bit `i` of a number as a truth value. -/
def bitN (v i : Nat) : Bool := v.testBit i

/-- A field of `n` bytes at an offset of a structure; bytes beyond its end read as zero. -/
def fieldLe (bs : List Byte) (off n : Nat) : Nat := leNat ((bs.drop off).take n)

/-- A number of `w` bits read as signed. -/
def signedN (w v : Nat) : Int := if v % 2 ^ w < 2 ^ (w - 1) then (v % 2 ^ w : Nat) else (v % 2 ^ w : Nat) - 2 ^ w

/-- A signed number as the 32 bits of an I32 object. -/
def toI32 (i : Int) : Nat := (i % 2 ^ 32).toNat

/-- Number of one bits among the low `w`. -/
def popN (w v : Nat) : Nat := ((List.range w).filter fun i => v.testBit i).length

/-- A list padded or cut to `n` bytes. -/
def padTo (n : Nat) (bs : List Byte) : List Byte := (bs ++ List.replicate (n - bs.length) 0).take n

/-! ### Records found and written back by their number -/

/-- Replace the record with the same key, or append it. -/
def upsert {α : Type} (key : α → Nat) (x : α) : List α → List α
  | [] => [x]
  | y :: l => if key y = key x then x :: l else y :: upsert key x l

/-- Apply a function to the records that satisfy a test. -/
def mapIf {α : Type} (p : α → Bool) (f : α → α) (l : List α) : List α := l.map fun x => if p x then f x else x

/-- Add to a list of numbers without a repeat. -/
def addNew {α : Type} [DecidableEq α] (x : α) (l : List α) : List α := if x ∈ l then l else l ++ [x]

namespace State

/-! ### Objects -/

/-- The value of an object. -/
def getObj (s : State) (k : Nat) : Nat := sget objReset s.od k

/-- Writing the value of an object. -/
def putObj (s : State) (k v : Nat) : State := { s with od := sput objReset s.od k v }

/-- Width in bits of an object's type (Table 18.6); 64 for the rest. -/
def objWidth (k : Nat) : Nat :=
  match objRow? k with
  | some r => if r.ty = 1 then 1 else if r.ty = 2 then 8 else if r.ty = 3 then 16 else if r.ty = 4 then 32 else 64
  | none => 64

/-- Adding to a counter, which wraps at its width. -/
def addObj (s : State) (k n : Nat) : State := s.putObj k ((s.getObj k + n) % 2 ^ objWidth k)

/-- Taking from a counter, at least to zero. -/
def subObj (s : State) (k n : Nat) : State := s.putObj k (s.getObj k - n)

/-- A variable-length object (certificates, tokens, answers). -/
def getBlob (s : State) (k : Nat) : List Byte := sget (fun _ => []) s.blobs k

def putBlob (s : State) (k : Nat) (v : List Byte) : State := { s with blobs := sput (fun _ => []) s.blobs k v }

/-- The counters that are stored (R493). -/
def storedCounters : List Nat :=
  [Obj.uvEvents, Obj.ovEvents, Obj.ocEvents, Obj.hotUnplugs, Obj.aux12Shorts, Obj.thermTrips, Obj.leakEvents, Obj.coresReplaced]

/-- The stored counters written to flash. -/
def flushCounters (s : State) : State :=
  { s with odp := { s.odp with flash := (storedCounters.map fun k => (k, s.getObj k)).filter fun p => p.2 != 0 } }

/-- A bit of ALERT_CAUSE is set (R444). -/
def setAlert (s : State) (i : Nat) : State := s.putObj Obj.alertCause (s.getObj Obj.alertCause ||| 2 ^ i)

/-- A cause whose condition goes on holds after a manager has cleared its bit (R444). -/
def raiseHeld (s : State) (i : Nat) : State := { s.setAlert i with elec := { s.elec with held := s.elec.held ||| 2 ^ i } }

/-- The condition of a cause no longer holds. -/
def endHeld (s : State) (i : Nat) : State := { s with elec := { s.elec with held := s.elec.held &&& (65535 ^^^ 2 ^ i) } }

/-! ### Free values (log 3) -/

/-- The next free value. -/
def freeVal (s : State) : Nat := Config.freeNat s.free

/-- The state after `n` free values are used. -/
def useFree (s : State) (n : Nat) : State := { s with free := s.free + n }

/-! ### Records -/

def slice (s : State) (n : Nat) : Slice := (s.slices.find? fun x => x.no == n).getD { no := n }

def setSlice (s : State) (x : Slice) : State := { s with slices := upsert Slice.no x s.slices }

def chan (s : State) (n : Nat) : Chan := (s.chans.find? fun x => x.no == n).getD { no := n }

def setChan (s : State) (x : Chan) : State := { s with chans := upsert Chan.no x s.chans }

def core (s : State) (n : Nat) : Core := (s.cores.find? fun x => x.no == n).getD { no := n }

def setCore (s : State) (x : Core) : State := { s with cores := upsert Core.no x s.cores }

def launch? (s : State) (ctx : Nat) : Option Launch := s.launches.find? fun x => x.ctx == ctx

def setLaunch (s : State) (x : Launch) : State :=
  { s with launches := s.launches.map fun y => if y.ctx = x.ctx then x else y }

def lockSet (s : State) (k : Nat) : LockSet := (s.locks.find? fun x => x.k == k).getD { k := k }

def setLockSet (s : State) (x : LockSet) : State := { s with locks := upsert LockSet.k x s.locks }

def port (s : State) (q : Nat) : Port := (s.net.ports.find? fun x => x.q == q).getD { q := q }

def setPort (s : State) (x : Port) : State := { s with net := { s.net with ports := upsert Port.q x s.net.ports } }

def path? (s : State) (n : Nat) : Option PathCtx := s.net.paths.find? fun x => x.no == n

def setPath (s : State) (x : PathCtx) : State := { s with net := { s.net with paths := upsert PathCtx.no x s.net.paths } }

def qp (s : State) (n : Nat) : Qp := (s.net.qps.find? fun x => x.no == n).getD { no := n }

def setQp (s : State) (x : Qp) : State := { s with net := { s.net with qps := upsert Qp.no x s.net.qps } }

def coll? (s : State) (g : Nat) : Option Coll := s.net.colls.find? fun x => x.g == g

def setColl (s : State) (x : Coll) : State := { s with net := { s.net with colls := upsert Coll.g x s.net.colls } }

def chip (s : State) (p : Nat) : Chiplet := (s.chips.find? fun x => x.no == p).getD { no := p }

def setChip (s : State) (x : Chiplet) : State := { s with chips := upsert Chiplet.no x s.chips }

/-- Recording something that the module sends. -/
def send (s : State) (o : Out) : State := { s with out := o :: s.out }

/-- Device time and the tick number (R12). -/
def now (s : State) : Nat := s.getObj Obj.deviceTime

def tick (s : State) : Nat := s.getObj Obj.tickNumber

/-- The value in force of an object whose changes apply at the next start-up. -/
def forced (s : State) (k : Nat) : Nat := sget objReset s.inForce k

/-- The module's own ID (R353: as of the last start-up). -/
def ownId (s : State) : Nat := s.forced Obj.moduleId

end State

/-- Device time counts one nanosecond; every 20,000 a correction that is due adds or withholds one, 50 ppm (R260, log 55). -/
def countTime (s : State) : State :=
  let n := s.net
  if n.slew = 0 then s.addObj Obj.deviceTime 1
  else if n.slewWait + 1 < 20000 then { (s.addObj Obj.deviceTime 1) with net := { n with slewWait := n.slewWait + 1 } }
  else if 0 < n.slew then { (s.addObj Obj.deviceTime 2) with net := { n with slew := n.slew - 1, slewWait := 0 } }
  else { s with net := { n with slew := n.slew + 1, slewWait := 0 } }

/-- One nanosecond passes with no command waiting (log 2): UPTIME counts in every state but OFF (0), device time from BOOT (2)
up (R12, R262, R459). -/
def idle (s : State) : State :=
  let m := s.getObj Obj.moduleState
  let s := if m = 0 then s else s.addObj Obj.uptime 1
  if 2 ≤ m then countTime s else s

/-! ### Outcomes -/

/-- A command about something that the state may lack (named in the text beside it): where it is lacking, the event does not happen
and nothing changes (log 1). -/
def withSome {α : Type} (s : State) (o : Option α) (_what : String) (f : α → Res) : Res :=
  match o with
  | some x => f x
  | none => .next s

/-- A command of an event that the state must allow: where it does not, the event does not happen and nothing changes (log 1). -/
def onlyIf (s : State) (ok : Bool) (_what : String) (r : Res) : Res := if ok then r else .next s

/-! ### Lists -/

/-- The sum of a list. -/
def sumNat (l : List Nat) : Nat := l.foldl (· + ·) 0

/-- Insertion into an ordered list. -/
def insertBy {α : Type} (lt : α → α → Bool) (x : α) : List α → List α
  | [] => [x]
  | y :: l => if lt x y then x :: y :: l else y :: insertBy lt x l

/-- A list in order, equal elements as they stand. -/
def sortBy {α : Type} (lt : α → α → Bool) (l : List α) : List α := l.foldr (insertBy lt) []

end Sys2Proof.Machine
end

