-- ==== Sys2Proof/Machine/Mem.lean ====
section
/-! DEFINITION. Mem.lean: memory. Homes and placements (R185, R238, R241), the walk of the translation tables and the
world check (R153, R154, R393), the dirty-page and migration logs and the before-image gate (R361, R362, R391), and sectors of the
coherent store with dead lines (R174). -/

namespace Sys2Proof.Machine

/-! ### Physical addresses: homes and placements -/

/-- home_die of R185 over 2-bit pieces of the line address. -/
def xorPieces (w : Nat) : Nat → Nat → Nat
  | 0, _ => 0
  | k + 1, v => (v % 2 ^ w) ^^^ xorPieces w k (v / 2 ^ w)

/-- Size of a die window of stacked memory. -/
def dieWindow : Nat := 0x3000000000

/-- Base of the DDR tier and of the CXL tier (Table 8.1). -/
def ddrBase : Nat := 0x10000000000
def cxlBase : Nat := 0x100000000000

/-- The tier of a physical address: 0 stacked, 1 DDR, 2 CXL. -/
def tierOf (pa : Nat) : Nat := if pa < ddrBase then 0 else if pa < cxlBase then 1 else 2

/-- The home die of a physical address (R21, R185). -/
def homeDie (pa : Nat) : Nat := if pa < 4 * dieWindow then pa / dieWindow else xorPieces 2 19 (pa / 512)

/-- The LLC slice of a physical address within its home die (R185). -/
def llcSlice (pa : Nat) : Nat := xorPieces 4 10 (pa / 512)

/-- The set of a physical address in its LLC slice (Table 6.1). -/
def llcSet (pa : Nat) : Nat := ((pa / 512) ^^^ (pa / 2 ^ 20)) % 2048

/-- The channels that a stack has mapped out, by CH_STATE. -/
def slotOut (s : State) (d slot : Nat) : Bool := s.getObj (Obj.chState (3 * d + slot % 3) (slot / 3)) == 2

/-- The mapped-out slots of a die, ascending. -/
def outSlots (s : State) (d : Nat) : List Nat := (List.range 96).filter fun x => slotOut s d x

/-- Lines below `x` whose slot belongs to `slots`. -/
def linesBelow (slots : List Nat) (x : Nat) : Nat := x / 96 * slots.length + (slots.filter fun y => y < x % 96).length

/-- The slots of a die whose channels are not mapped out, ascending. -/
def liveSlots (s : State) (d : Nat) : List Nat := (List.range 96).filter fun x => !(slotOut s d x)

/-- The line of rank `t` among those whose slot belongs to `slots`. -/
def lineOfRank (slots : List Nat) (t : Nat) : Nat := t / slots.length * 96 + slots.getD (t % slots.length) 0

/-- The entries that the bank engine writes into the map-out lookup of a die (R241, R242): entry j holds the hole line that is paired with
the displaced line of rank 4,096 × j. -/
def lookupOf (s : State) (d : Nat) : List Nat :=
  let out := outSlots s d
  let hole := (96 - out.length) * 2 ^ 22
  (List.range ((linesBelow out hole + 4095) / 4096)).map fun j => lineOfRank (liveSlots s d) (linesBelow (liveSlots s d) hole + 4096 * j)

/-- The lookup of a die written, after its mapped-out channels have changed. -/
def writeLookup (s : State) (d : Nat) : State :=
  { s with mem := { s.mem with lookup := sput (fun _ => []) s.mem.lookup d (lookupOf s d) } }

/-- The placement of line `l` of die `d`: base placement, or that of the paired hole line, which follows from the lookup entry of its run
(R238, R241, R242). -/
def placeLine (s : State) (d l : Nat) : Nat :=
  let out := outSlots s d
  let hole := (96 - out.length) * 2 ^ 22
  if hole ≤ l ∨ ¬ (l % 96 ∈ out) then l
  else
    let r := linesBelow out l
    let first := (sget (fun _ => []) s.mem.lookup d).getD (r / 4096) hole
    lineOfRank (liveSlots s d) (linesBelow (liveSlots s d) first + r % 4096)

/-- The stack, the channel in it and the row in the channel that hold a stacked physical address (R238). -/
def stackPlace (s : State) (pa : Nat) : Nat × Nat × Nat :=
  let d := pa / dieWindow
  let line := placeLine s d (pa % dieWindow / 512)
  let slot := line % 96
  (3 * d + slot % 3, slot / 3, line / 96)

/-- The stack and channel that hold a stacked physical address. -/
def stackChannel (s : State) (pa : Nat) : Nat × Nat := ((stackPlace s pa).1, (stackPlace s pa).2.1)

/-- The DDR channel of an address of the DDR tier, and the address within the channel (R254). -/
def ddrPlace (pa : Nat) : Nat × Nat :=
  let off := pa - ddrBase
  ((off / 2 ^ 12 % 8) ^^^ (off / 2 ^ 20 % 8) ^^^ (off / 2 ^ 28 % 8), off / 2 ^ 15 * 2 ^ 12 + off % 2 ^ 12)

def ddrChannel (pa : Nat) : Nat := (ddrPlace pa).1

/-- Whether a physical address exists: below STACK_TOP of its window, in a populated DDR tier, or in a CXL region
(Table 8.1, R237, R241, R255, R257). -/
def paExists (s : State) (pa : Nat) : Bool :=
  if pa < 4 * dieWindow then decide (pa < s.getObj (Obj.stackTop (pa / dieWindow)))
  else if ddrBase ≤ pa ∧ pa < ddrBase + 2 ^ 40 then s.getObj Obj.ddrPresent == 1
  else s.mem.cxlRegions.any fun r => decide (r.1 ≤ pa ∧ pa < r.1 + r.2.1)

/-- A link or channel begins to drain: whether a granted burst remains at the freeze is a free choice (R203, R249, log 110). -/
def startDrain (s : State) (key : Nat) : State :=
  let s' := (s.useFree 1).putObj key (s.freeVal % 2)
  if s.freeVal % 2 = 1 then s' else { s' with mem := { s'.mem with draining := addNew key s'.mem.draining } }

/-- A link or channel holds no granted burst any more. -/
def endDrain (s : State) (key : Nat) : State :=
  let s := s.putObj key 1
  { s with mem := { s.mem with draining := s.mem.draining.filter (· != key) } }

/-- Granted bursts of what drains may end now: a free choice for each (log 110). -/
def drainBursts (s : State) : State :=
  s.mem.draining.foldl (fun s key => if s.freeVal % 2 = 1 then endDrain (s.useFree 1) key else s.useFree 1) s

/-! ### Why an access does not go through -/

/-- A fault of Table 3.8 (cause and INFO), a wait with what the wait starts, an address that does not exist, or an access whose
results are unpredictable (R216). -/
inductive Stop where
  | cause (code : Nat) (info : Word64)
  | wait (s : State)
  | absent
  | any
  deriving DecidableEq, Repr

/-! ### Regions and translation -/

/-- The lowest-numbered enabled region-table entry that covers a physical address (R393). -/
def regionOf (s : State) (pa : Nat) : Option Nat :=
  (List.range 64).find? fun e =>
    let b := s.getObj (Obj.rgnBase e)
    let z := s.getObj (Obj.rgnSize e)
    decide (z ≠ 0 ∧ b ≤ pa ∧ pa < b + z)

/-- A translation entry as read from memory (Table 5.4). -/
structure Pte where
  valid : Bool
  leaf : Bool
  write : Bool
  exec : Bool
  world : Nat
  banked : Bool
  addr : Nat
  deriving DecidableEq, Repr

def decodePte (v : Nat) : Pte :=
  { valid := v.testBit 0, leaf := v.testBit 1, write := v.testBit 2, exec := v.testBit 3, world := v / 16 % 2,
    banked := v.testBit 5, addr := v / 256 % 2 ^ 44 * 256 }

def encodePte (p : Pte) : Nat :=
  (if p.valid then 1 else 0) + (if p.leaf then 2 else 0) + (if p.write then 4 else 0) + (if p.exec then 8 else 0)
    + p.world % 2 * 16 + (if p.banked then 32 else 0) + p.addr / 256 % 2 ^ 44 * 256

/-- log2 of the span of one entry of a level (Table 5.3). -/
def levelShift (l : Nat) : Nat := if l = 3 then 39 else if l = 2 then 30 else if l = 1 then 21 else 16

/-- Index of a virtual address at a level. -/
def levelIndex (l va : Nat) : Nat :=
  va / 2 ^ levelShift l % (if l = 3 then 262144 else if l = 0 then 32 else 512)

/-- Reading the entry of a table. -/
def pteAt (s : State) (base idx : Nat) : Pte := decodePte (leNat (cellsGet s.mem.bytes (base + 8 * idx) 8))

/-- The walk from a table of level `l` down (R153): the leaf entry, its level and where it stands. -/
def walkFrom (s : State) (va : Nat) : Nat → Nat → Option (Pte × Nat × Nat)
  | 0, base =>
    let p := pteAt s base (levelIndex 0 va)
    if p.valid then some (p, 0, base + 8 * levelIndex 0 va) else none
  | l + 1, base =>
    let p := pteAt s base (levelIndex (l + 1) va)
    if !p.valid then none
    else if p.leaf then some (p, l + 1, base + 8 * levelIndex (l + 1) va)
    else walkFrom s va l p.addr

/-- The walk of a slice's tables; none outside the 57-bit range (R153). -/
def walk (s : State) (n va : Nat) : Option (Pte × Nat × Nat) :=
  if 2 ^ 57 ≤ va then none else walkFrom s va 3 (s.slice n).transBase

/-- Bytes of a table of a level (Table 5.3). -/
def tableBytes (l : Nat) : Nat := if l = 3 then 2 ^ 21 else if l = 0 then 256 else 4096

/-- The entries of a table that hold anything, by index. -/
def pteSlots (s : State) (l base : Nat) : List Nat :=
  (s.mem.bytes.filter fun c => decide (base ≤ c.1 ∧ c.1 < base + tableBytes l)).foldl (fun is c => addNew ((c.1 - base) / 8) is) []

/-- The virtual addresses that the tables from one of level `l` down, itself for the space from `va` on, map to a physical address. -/
def vasFrom (s : State) (pa : Nat) : Nat → Nat → Nat → List Nat
  | 0, base, va => (pteSlots s 0 base).filterMap fun i =>
    let p := pteAt s base i
    if p.valid ∧ p.addr ≤ pa ∧ pa < p.addr + 2 ^ levelShift 0 then some (va + i * 2 ^ levelShift 0 + (pa - p.addr)) else none
  | l + 1, base, va => (pteSlots s (l + 1) base).flatMap fun i =>
    let p := pteAt s base i
    let at_ := va + i * 2 ^ levelShift (l + 1)
    if !p.valid then []
    else if p.leaf then (if p.addr ≤ pa ∧ pa < p.addr + 2 ^ levelShift (l + 1) then [at_ + (pa - p.addr)] else [])
    else vasFrom s pa l p.addr at_

/-- The virtual addresses of a slice that lead to a line of device memory. -/
def vasOf (s : State) (n : Nat) (l : LineKey) : List Nat := match l with
  | .dev x => vasFrom s (x * 512) 3 (s.slice n).transBase 0
  | .shr _ _ => []

/-- The world of a slice (Table 13.7). -/
def sliceWorld (s : State) (n : Nat) : Nat := s.getObj (Obj.sWorld n) % 2

/-- Translation of a virtual address of a slice for a read (0), write (1) or fetch (2) by a unit of the slice's world. -/
def translate (s : State) (n va kind : Nat) : Except Stop Nat :=
  match walk s n va with
  | none => .error (.cause 0x40 0)
  | some (p, l, _) =>
    let pa := p.addr + va % 2 ^ levelShift l
    if kind = 1 ∧ !p.write then .error (.cause 0x41 1)
    else if kind = 2 ∧ !p.exec then .error (.cause 0x41 2)
    else
      let u := sliceWorld s n
      match regionOf s pa with
      | some e =>
        if u = s.getObj (Obj.rgnWorld e) % 2 ∧ u = p.world then
          if paExists s pa then .ok pa else .error .absent
        else .error (.cause 0x42 (BitVec.ofNat 64 e))
      | none =>
        if u = 0 ∧ p.world = 0 then
          if paExists s pa then .ok pa else .error .absent
        else .error (.cause 0x40 0)

/-! ### Dirty-page log and the before-image gate -/

/-- The member channels of a lock-set slot as a bit mask (LS_CHANNELS). -/
def lsMembers (s : State) (k : Nat) : Nat := s.getObj (Obj.lsChannels k)

/-- The enabled lock set of a channel; R267 allows one. -/
def lsOf (s : State) (ch : Nat) : Option Nat :=
  (List.range 8).find? fun k => s.getObj (Obj.lsEnable k) == 1 && (lsMembers s k).testBit ch

/-- The enabled lock sets with REKINDLE = 1, and with a bank point behind them, that have a member channel of the slice. -/
def bankersOf (s : State) (n : Nat) : List Nat :=
  (List.range 8).filter fun k =>
    s.getObj (Obj.lsEnable k) == 1 && s.getObj (Obj.rekindle k) == 1 && !(s.lockSet k).seals.isEmpty &&
      (List.range 256).any fun c => (lsMembers s k).testBit c && s.getObj (Obj.chSlice c) == n

/-- Whether a virtual address lies in a declared banked region of the slice (R360). -/
def inBanked (s : State) (n va : Nat) : Bool :=
  (List.range 16).any fun j =>
    let b := s.getObj (Obj.regionBase n j)
    let z := s.getObj (Obj.regionSize n j)
    decide (z ≠ 0 ∧ b ≤ va ∧ va < b + z)

/-- Whether a part of a slice's virtual space touches a banked region. -/
def bankedPart (s : State) (n va size : Nat) : Bool :=
  (List.range 16).any fun j =>
    let b := s.getObj (Obj.regionBase n j)
    let z := s.getObj (Obj.regionSize n j)
    decide (z ≠ 0 ∧ b < va + size ∧ va < b + z)

/-- R362: a write that must wait for a before-image puts its page in the bank engine's queue. -/
def imageGate (s : State) (n va : Nat) : Except Stop Unit :=
  let page := va / 65536
  if page ∈ (s.slice n).dirty then .ok ()
  else if !(inBanked s n va) then .ok ()
  else if (bankersOf s n).isEmpty then .ok ()
  else .error (.wait { s with bank := { s.bank with waiting := addNew (n, page) s.bank.waiting } })

/-- R361, R391: a write to a page sets its bit in the dirty-page log and, with MIG_ENABLE, in the migration log. -/
def logWrite (s : State) (n va : Nat) : State :=
  let x := s.slice n
  let page := va / 65536
  let x := { x with dirty := addNew page x.dirty }
  let x := if s.getObj (Obj.migEnable n) = 1 then { x with migDirty := addNew page x.migDirty } else x
  s.setSlice x

/-! ### Sectors of the coherent store -/

/-- The sector that holds a physical address, or an offset of a slice's shared scratch. -/
def devSect (pa : Nat) : SectKey := ⟨.dev (pa / 512), pa / 64 % 8⟩
def shrSect (n off : Nat) : SectKey := ⟨.shr n (off / 512), off / 64 % 8⟩

/-- First byte of a sector in its memory. -/
def sectBase (k : SectKey) : Nat :=
  match k.line with
  | .dev l => l * 512 + k.i * 64
  | .shr _ l => l * 512 + k.i * 64

/-- The bytes of the memory that holds a line. -/
def memOf (s : State) (l : LineKey) : List Host.Cell :=
  match l with
  | .dev _ => s.mem.bytes
  | .shr n _ => (s.slice n).scratch

/-- Latest value of a sector in coherence order. -/
def latest (s : State) (k : SectKey) : Sector := BitVec.ofNat 512 (leNat (cellsGet (memOf s k.line) (sectBase k) 64))

/-- The dead record of a sector of device memory. -/
def deadOf (s : State) (k : SectKey) : Option DeadSector :=
  match k.line with
  | .dev l => s.mem.dead.find? fun d => d.sector == l * 8 + k.i
  | .shr _ _ => none

/-- One read of a sector at its home: of a discarded sector, the value beneath or the latest one by a free choice (R174). -/
def readSect (s : State) (k : SectKey) : State × Sector :=
  match deadOf s k with
  | none => (s, latest s k)
  | some d => (s.useFree 1, if s.freeVal % 2 = 0 then latest s k else d.under)

/-- The CXL port that holds a physical address of the CXL tier (R257). -/
def cxlPort (s : State) (pa : Nat) : Option Nat :=
  (s.mem.cxlRegions.find? fun r => decide (r.1 ≤ pa ∧ pa < r.1 + r.2.1)).map fun r =>
    r.2.2.getD ((pa - r.1) / 4096 % r.2.2.length) 0

/-- Whether a line lies beyond a CXL port that is down (R258). -/
def cxlDown (s : State) (l : Nat) : Bool :=
  decide (cxlBase ≤ l * 512) && (match cxlPort s (l * 512) with
    | some x => s.getObj (Obj.cxlLinkUp x) != 1
    | none => false)

/-- A sector's number in the list of poisoned ones: of device memory by its place, of shared scratch above every address (Table 8.1). -/
def sectNum (k : SectKey) : Nat := match k.line with
  | .dev l => l * 8 + k.i
  | .shr n l => (2 ^ 42 * (n + 1) + l) * 8 + k.i

/-- Whether a sector is poisoned (R252), or its CXL port is down (R258). -/
def poisoned (s : State) (k : SectKey) : Bool :=
  s.mem.poison.contains (sectNum k) || (match k.line with
    | .dev l => cxlDown s l
    | .shr _ _ => false)

end Sys2Proof.Machine
end

