-- ==== Sys2Proof/Machine/Cache.lean ====
section
/-! DEFINITION. Cache.lean: the caches and what keeps them coherent. Die routes (R25, R26, R203), LLM tags of a home and of an agent's
copies (R178, R182, R190), the home and local directories as every access moves them (R183, R186 to R193), the L1 of a core with queued
invalidations (R169, R179, R180), stream detection (R196), miss registers (R195), and whether an access goes on or waits. -/

namespace Sys2Proof.Machine

/-! ### Die links and routes (R25, R26, Tables 1.2 and 1.3) -/

/-- Whether a die link is out of service: frozen, retraining or dead. -/
def linkOut (s : State) (l : Nat) : Bool :=
  s.getObj (Obj.linkFreeze l) == 1 || s.mem.retrain.contains l || bitN (s.getObj Obj.linksDead) l

def linksOut (s : State) : Nat := ((List.range 8).filter fun l => linkOut s l).length

/-- The dies that a link joins (Table 6.5); 4 is Proty. -/
def linkEnds (l : Nat) : Nat × Nat := if l < 4 then (l, (l + 1) % 4) else (l - 4, 4)

/-- Whether a link in service joins two dies. -/
def linked (s : State) (a b : Nat) : Bool :=
  (List.range 8).any fun l => !(linkOut s l) && (linkEnds l == (a, b) || linkEnds l == (b, a))

/-- The routes of `k` hops over links in service, the one whose hops reach the lower-numbered dies first: R26 states it of the first hop, and
for the second it is the model's choice (DESIGN CHOICE, log 124). -/
def routesOf (s : State) : Nat → Nat → Nat → List (List Nat)
  | 0, a, b => if a = b then [[a]] else []
  | k + 1, a, b => ((List.range 5).filter fun m => linked s a m).flatMap fun m => (routesOf s k m b).map fun r => a :: r

/-- The shortest route over links in service, counted in hops; none where they do not join the dies (R26). -/
def shortestRoute (s : State) (a b : Nat) : Option (List Nat) := ((List.range 5).flatMap fun k => routesOf s k a b).head?

/-- The ring route between opposite dies, by a hash of the line (R25; which hash is left open, log 105), or the other for every line where
a link of it is out. -/
def acrossRing (s : State) (line a b : Nat) : List Nat :=
  let m := if Config.lineHash line then (a + 1) % 4 else (a + 3) % 4
  let o := (m + 2) % 4
  if linked s a m && linked s m b then [a, m, b] else [a, o, b]

/-- The route that a line's traffic takes between two dies. -/
def dieRoute (s : State) (line a b : Nat) : Option (List Nat) :=
  if a = b then some [a]
  else if 2 ≤ linksOut s then shortestRoute s a b
  else if a < 4 ∧ b < 4 ∧ (a + 2) % 4 = b then some (acrossRing s line a b)
  else if linked s a b then some [a, b]
  else if a < 4 ∧ b < 4 then some [a, 4, b]
  else if b = 4 then some [a, min ((a + 1) % 4) ((a + 3) % 4), 4]
  else some [4, min ((b + 1) % 4) ((b + 3) % 4), b]

/-- Distance between two agents (R24): a chiplet agent takes that of Proty (R192). In a table written asymmetric the requester's row counts
(DESIGN CHOICE, log 124). -/
def agentDistance (s : State) (a b : Nat) : Nat := s.getObj (Obj.dieDistance (5 * min a 4 + min b 4))

/-! ### Ways, homes and sets -/

/-- Number of ways in a way mask. -/
def ways (m : Nat) : Nat := popN 16 m

/-- The cache ways of a slice on a die. -/
def cacheWaysOf (s : State) (n d : Nat) : Nat := ways (s.getObj (Obj.cacheWays n d))

/-- Ways of either kind, which carry directory entries (R186). -/
def anyWays (s : State) (n d : Nat) : Bool :=
  s.getObj (Obj.cacheWays n d) != 0 || s.getObj (Obj.sliceScratchWays n d) != 0

/-- Directory ways of a slice on a die (R186). -/
def dirWays (s : State) (n d : Nat) : Nat := ways (s.getObj (Obj.cacheWays n d)) + ways (s.getObj (Obj.sliceScratchWays n d))

/-- The die that holds a line of a slice's shared scratch: its grants on G0 to G3 one after another (R152). -/
def shrDie (s : State) (n line : Nat) : Nat :=
  let end_ (d : Nat) : Nat := ((List.range (d + 1)).map fun i => ways (s.getObj (Obj.sliceScratchWays n i))).foldl (· + ·) 0 * 2 ^ 15
  ((List.range 4).find? fun d => decide (line < end_ d)).getD 3

/-- Where a shared-scratch line stands within its die's grant. -/
def shrWithin (s : State) (n line : Nat) : Nat :=
  line - ((List.range (shrDie s n line)).map fun i => ways (s.getObj (Obj.sliceScratchWays n i))).foldl (· + ·) 0 * 2 ^ 15

/-- The home die of a line (R184, R185). -/
def lineDie (s : State) (l : LineKey) : Nat :=
  match l with
  | .dev x => homeDie (x * 512)
  | .shr n x => shrDie s n x

/-- The LLC slice and the set of a line in it (R184, R185, Table 6.1). -/
def lineSet (s : State) (l : LineKey) : Nat × Nat :=
  match l with
  | .dev x => (llcSlice (x * 512), llcSet (x * 512))
  | .shr n x => (shrWithin s n x % 16, shrWithin s n x / 16 % 2048)

/-- The slice that owns a line. -/
def lineOwner (s : State) (l : LineKey) : Option Nat :=
  match l with
  | .shr n _ => some n
  | .dev x => (s.mem.extents.find? fun e => decide (e.base ≤ x * 512 ∧ x * 512 < e.base + e.size)).map (·.slice)

/-- Whether an access of a slice from a die is cached (R190): the slice holds a way on that die and on the line's home die, and, for
device memory, a cache way on that die. -/
def caches (s : State) (n d : Nat) (l : LineKey) : Bool :=
  anyWays s n d && anyWays s n (lineDie s l) && (match l with
    | .dev _ => s.getObj (Obj.cacheWays n d) != 0
    | .shr _ _ => true)

/-! ### Directory entries -/

def findDir (s : State) (l : LineKey) : Option DirEnt := s.mem.dirs.find? fun e => e.line == l

/-- The entry of a line, written back at the most recently used place. -/
def putDir (s : State) (e : DirEnt) : State :=
  { s with mem := { s.mem with dirs := e :: s.mem.dirs.filter fun x => x.line != e.line } }

def dropDir (s : State) (l : LineKey) : State := { s with mem := { s.mem with dirs := s.mem.dirs.filter fun x => x.line != l } }

/-- Whether an entry is in a transient form. -/
def transient (e : DirEnt) : Bool :=
  e.req.isSome || !e.awaited.isEmpty || e.fwd.isSome || (match e.state with
    | .writeback _ => true
    | _ => false)

/-- R187: recording an agent; a fifth sets the broadcast bit, which keeps no pointers. -/
def addHolder (e : DirEnt) (a : Nat) : DirEnt :=
  if e.broadcast || e.holders.contains a then e
  else if e.holders.length < 4 then { e with holders := e.holders ++ [a] } else { e with holders := [], broadcast := true }

/-- The agents that an entry tracks. -/
def agentsOf (e : DirEnt) : List Nat := match e.state with
  | .owned a => [a]
  | .writeback a => [a]
  | .shared => if e.broadcast then List.range 6 else e.holders

/-! ### LLM tags (R178, R179, R182) -/

/-- Drop the last record that satisfies a test. -/
def dropLast {α : Type} (p : α → Bool) (l : List α) : List α :=
  match (l.reverse.findIdx? p) with
  | none => l
  | some i => l.eraseIdx (l.length - 1 - i)

/-- A line in the LLM of a die. -/
def llmOf (s : State) (d line : Nat) : Option LlmLine := s.mem.llm.find? fun x => x.die == d && x.line == line

/-- Whether a line is in an LLM. -/
def llmHas (s : State) (line : Nat) : Bool := s.mem.llm.any fun x => x.line == line

/-- Lines that compete with a line for its set in the LLM of a die. -/
def sameSet (x : LlmLine) (n d line : Nat) : Bool :=
  x.slice == n && x.die == d && llcSlice (x.line * 512) == llcSlice (line * 512) && llcSet (x.line * 512) == llcSet (line * 512)

/-- Whether a line is in a transient state at a die: its directory entry is, or its fill is pending (R182). -/
def lineBusy (s : State) (d line : Nat) : Bool :=
  (match findDir s (.dev line) with
    | some e => transient e
    | none => false) ||
    s.mem.miss.any fun m => m.line == .dev line && (match m.u with
      | .llc e _ => e == d
      | .l1 _ => false)

/-- What stands beneath a sector before it becomes dirty. -/
def beneath (s : State) (line i : Nat) : Sector :=
  match s.mem.dead.find? fun d => d.sector == line * 8 + i with
  | some d => d.under
  | none => latest s ⟨.dev line, i⟩

/-- The dirty sectors of an agent's line return to the home (R179): they are dirty there, where the home's LLM holds the line, and are
written beneath where it does not. -/
def dirtyHome (s : State) (d line : Nat) : State :=
  let home := homeDie (line * 512)
  match llmOf s d line with
  | none => s
  | some x =>
    if d = home then s
    else
      let put (h : LlmLine) : LlmLine := x.under.foldl (fun h p =>
        { h with valid := h.valid ||| (1 <<< p.1), under := if h.under.any (fun q => q.1 == p.1) then h.under else h.under ++ [p] }) h
      { s with mem := { s.mem with llm := s.mem.llm.map fun (y : LlmLine) =>
          if y.line = line ∧ y.die = d then { y with under := [] } else if y.line = line ∧ y.die = home then put y else y } }

/-- How an access fills the LLM (R179, R190, R196): the sectors it asks for; the whole line (a stoker stream, a request for ownership);
the whole line at the least recently used place (the bypass mark); nothing (system space, and where R190 keeps no copy). -/
inductive Fill where
  | sectors
  | whole
  | bypass
  | nothing
  deriving DecidableEq, Repr

/-- Whether the LLM of a die holds a line with every one of some sectors. -/
def llmHit (s : State) (d line : Nat) (sectors : List Nat) : Bool :=
  s.mem.llm.any fun x => x.die == d && x.line == line && sectors.all fun i => x.valid.getLsbD i

/-! ### Local directories and invalidations at L1s (R169, R188, R189) -/

/-- The cores of a core row. -/
def rowCores (r : Nat) : List Nat := (List.range 13).map fun c => r * 13 + c

/-- An invalidation goes to the L1 of every core in the rows that a die's entry points at, or in all 12 rows after an overflow, but not to
the writer's own; each queues it (R169). The entry keeps the writer's row, where its L1 holds the line. A round counts one in BROADCASTS
(DESIGN CHOICE, log 126). -/
def invalidateDie (s : State) (wr : Option Nat) (die : Nat) (l : LineKey) : State :=
  match s.mem.ldirs.find? fun e => e.die == die && e.line == l with
  | none => s
  | some e =>
    let rows := if e.broadcast then (List.range 12).map fun r => 12 * die + r else e.rows
    let s := if e.broadcast then s.addObj (Obj.broadcasts die) 1 else s
    let own := (s.mem.l1.filter fun x => x.line == l && x.core / 156 == die && some x.core == wr).map fun x => x.core / 13
    let rest := s.mem.ldirs.filter fun x => !(x.die == die && x.line == l)
    { s with mem := { s.mem with
        invq := (rows.flatMap rowCores).foldl (fun q c => if some c = wr then q else addNew (c, l) q) s.mem.invq,
        ldirs := if own.isEmpty then rest else { e with rows := own, broadcast := false } :: rest } }

/-- Invalidations of a line queued at every L1 that the local directories track, but the writer's own (R169, R188). -/
def invalidateL1 (s : State) (wr : Option Nat) (l : LineKey) : State :=
  ((s.mem.ldirs.filter fun e => e.line == l).map (·.die)).foldl (fun s d => invalidateDie s wr d l) s

/-- A die's local directory records the row of an L1 that fills a line: four row pointers, then broadcast; the least recently used
entry of the slice in the set makes room, its copies invalidated (R188, R189; the set is taken from the line's set, log 26). -/
def ldirAdd (s : State) (core n : Nat) (l : LineKey) : State :=
  let die := core / 156
  let row := core / 13
  let set (x : LineKey) : Nat × Nat := let p := lineSet s x; (p.1, p.2 % 512)
  match s.mem.ldirs.find? fun e => e.die == die && e.line == l with
  | some e =>
    let e := if e.broadcast || e.rows.contains row then e
      else if e.rows.length < 4 then { e with rows := e.rows ++ [row] } else { e with rows := [], broadcast := true }
    { s with mem := { s.mem with ldirs := e :: s.mem.ldirs.filter fun x => !(x.die == die && x.line == l) } }
  | none =>
    let mates := s.mem.ldirs.filter fun e => e.die == die && e.slice == n && set e.line == set l
    let s := if mates.length < dirWays s n die then s
      else match mates.getLast? with
        | some e => invalidateDie (s.addObj (Obj.dirEvictions die) 1) none die e.line
        | none => s
    { s with mem := { s.mem with ldirs := { die := die, line := l, slice := n, rows := [row] } :: s.mem.ldirs } }

/-! ### Copies at agents (R183, R189, R191) -/

/-- A copy at the agent of a die other than the home is gone: its dirty sectors have returned to the home, its LLM's line and its L1s'
copies go. -/
def dropCopy (s : State) (wr : Option Nat) (a : Nat) (l : LineKey) : State :=
  if 4 ≤ a ∨ a = lineDie s l then s
  else
    let s := match l with
      | .dev x =>
        let s := dirtyHome s a x
        { s with mem := { s.mem with llm := s.mem.llm.filter fun y => !(y.die == a && y.line == x) } }
      | .shr _ _ => s
    invalidateDie s wr a l

/-- Room for a line in its set in the LLM of a die: the least recently used line that is neither pinned nor transient goes, its dirty
sectors written beneath; an agent's owned line is written back and its directory entry freed, after its L1s' copies. None where the slice
has no cache way, or where no line may go. -/
def llmRoom (s : State) (n d line : Nat) : Option State :=
  let w := cacheWaysOf s n d
  let mates := s.mem.llm.filter fun x => sameSet x n d line
  if w = 0 then none
  else if mates.length < w then some s
  else match (mates.filter fun x => !x.pinned && !(lineBusy s d x.line)).getLast? with
    | none => none
    | some x =>
      let out (s : State) : State := { s with mem := { s.mem with llm := s.mem.llm.filter fun y => !(y.die == d && y.line == x.line) } }
      if d = homeDie (x.line * 512) then some (out s)
      else match findDir s (.dev x.line) with
        | some e => if e.state = .owned d then some (dropDir (dropCopy s none d (.dev x.line)) (.dev x.line)) else some (out s)
        | none => some (out s)

/-- An access of a slice to sectors of a device line at the LLM of a die: it is a hit when the line holds every one of them; a miss fetches
the sectors or the whole line and allocates an absent line; a present line moves to the front; a write makes the sectors dirty over what stood
beneath. -/
def llmTouch (s : State) (n d line : Nat) (sectors : List Nat) (write : Bool) (fill : Fill) : State :=
  let got := if fill = .whole ∨ fill = .bypass then List.range 8 else sectors
  let mark (x : LlmLine) : LlmLine :=
    { x with valid := got.foldl (fun v i => v ||| (1 <<< i)) x.valid,
             under := if write then sectors.foldl (fun u i => if u.any (fun p => p.1 == i) then u else u ++ [(i, beneath s line i)]) x.under else x.under }
  let s := if llmHit s d line sectors then s.addObj (Obj.llmHits n) 1 else s.addObj (Obj.llmMisses n) 1
  match llmOf s d line with
  | some x =>
    let rest := s.mem.llm.filter fun y => !(y.die == d && y.line == line)
    { s with mem := { s.mem with llm := mark x :: rest } }
  | none =>
    if fill = .nothing then s
    else match llmRoom s n d line with
    | none => s
    | some s =>
      let x := mark { die := d, line := line, slice := n, valid := 0 }
      { s with mem := { s.mem with llm := if fill = .bypass then s.mem.llm ++ [x] else x :: s.mem.llm } }

/-! ### Chiplet ports' copies (R449 to R452) -/

/-- The line that a chiplet agent holds. -/
def chipLine (s : State) (a : Nat) (l : LineKey) : Option HeldLine := if a < 4 then none else (s.chip (a - 4)).held.find? fun h => h.line == l

/-- Chiplet ports that hold a line, owned or (for a write) at all, with the chiplet address to snoop. -/
def chipHolders (s : State) (l : LineKey) (write : Bool) (but : Option Nat) : List (Nat × HeldLine) :=
  s.chips.flatMap fun c => if some c.no = but then [] else
    (c.held.filter fun h => h.line == l && (write || h.owned)).map fun h => (c.no, h)

/-- Ask a chiplet port for a line it holds: a snoop, unless one is outstanding (R449, R452, Table 6.3). -/
def snoopChip (s : State) (p : Nat) (h : HeldLine) (write : Bool) : State :=
  let c := s.chip p
  if c.snoops.any fun q => q.1 == h.addr then s
  else (s.setChip { c with snoops := c.snoops ++ [(h.addr, write)] }).send (.chip p (if !write then 0 else if h.owned then 2 else 1) h.addr [])

/-! ### Room in a home directory (R189) -/

/-- An entry's copies at dies are gone and it is freed; one that a chiplet port holds is asked for first, and the entry stays transient
until the port has answered. -/
def evictDir (s : State) (e : DirEnt) : State :=
  let s := s.addObj (Obj.dirEvictions (lineDie s e.line)) 1
  let s := if e.broadcast then s.addObj (Obj.broadcasts (lineDie s e.line)) 1 else s
  let s := (agentsOf e).foldl (fun s a => dropCopy s none a e.line) s
  match chipHolders s e.line true none with
  | [] => dropDir s e.line
  | hs => putDir (hs.foldl (fun s p => snoopChip s p.1 p.2 true) s) { e with awaited := hs.map fun p => 4 + p.1, evict := true }

/-- Room for a new entry of a slice in a line's set: where its directory ways are all taken, the least recently used entry that is not
transient goes. The request waits while all are transient, or until the victim is freed. -/
def dirRoom (s : State) (n : Nat) (l : LineKey) : Except State State :=
  let d := lineDie s l
  let mates := s.mem.dirs.filter fun e => e.owner == n && lineDie s e.line == d && lineSet s e.line == lineSet s l
  if mates.length < dirWays s n d then .ok s
  else match (mates.filter fun e => !(transient e)).getLast? with
    | none => .error s
    | some e =>
      let s := evictDir s e
      if (findDir s e.line).isSome then .error s else .ok s

/-! ### What an access does to a home directory (Table 6.3) -/

/-- The home itself reads a line (R191): an owner's dirty sectors return and it keeps a shared copy. -/
def dirHomeRead (s : State) (l : LineKey) : State :=
  match findDir s l with
  | some e => match e.state with
    | .owned b =>
      let s := match l with
        | .dev x => dirtyHome s b x
        | .shr _ _ => s
      putDir s { e with state := .shared, holders := [b], broadcast := false }
    | _ => s
  | none => s

/-- The agent of a die reads a line homed elsewhere (RdS): it is one more holder. -/
def dirRead (s : State) (n d : Nat) (l : LineKey) : State :=
  match findDir s l with
  | none => match dirRoom s n l with
    | .ok s => putDir s { line := l, owner := n, state := .shared, holders := [d] }
    | .error s => s
  | some e => if e.state = .owned d then putDir s e
    else
      let s := dirHomeRead s l
      match findDir s l with
      | some e => putDir s (addHolder e d)
      | none => s

/-- Every copy of a line goes but the writer's own and its agent's. -/
def dropOthers (s : State) (wr : Option Nat) (d : Nat) (l : LineKey) : State :=
  let s := match findDir s l with
    | none => s
    | some e =>
      let s := if e.broadcast then s.addObj (Obj.broadcasts (lineDie s l)) 1 else s
      ((agentsOf e).filter fun a => a != d).foldl (fun s a => dropCopy s wr a l) s
  invalidateL1 s wr l

/-- A write of a line: every copy but the writer's agent's goes. With `own` the agent of die `d` requests ownership (RdM or Upg); without,
the home does as its own agent (R191), and the writer's die stays tracked where the writer's L1 keeps its copy. -/
def dirWrite (s : State) (wr : Option Nat) (n d : Nat) (l : LineKey) (own : Bool) : State :=
  let home := lineDie s l
  let s := dropOthers s wr d l
  let mine := s.mem.l1.any fun x => x.line == l && some x.core == wr
  match findDir s l with
  | none => if own then (match dirRoom s n l with
      | .ok s => putDir s { line := l, owner := n, state := .owned d }
      | .error s => s) else s
  | some e =>
    if own then putDir s { e with state := .owned d, holders := [], broadcast := false }
    else if d != home && mine then putDir (dirHomeRead s l) { e with state := .shared, holders := [d], broadcast := false }
    else dropDir (dropCopy s wr d l) l

/-- The holder nearest to an agent supplies a shared line, the home's LLM among them where it holds the sectors; of equal distances the
lower agent number (R24, R192; distances from the requester's row, DESIGN CHOICE, log 124). None: the home supplies from its memory. -/
def nearest (s : State) (l : LineKey) (d : Nat) (sectors : List Nat) : Option Nat :=
  let home := lineDie s l
  let hs := match findDir s l with
    | some e => if e.state = .shared then ((agentsOf e).filter fun a => a != d) else []
    | none => []
  let hs := match l with
    | .dev x => if llmHit s home x sectors then home :: hs else hs
    | .shr _ _ => home :: hs
  hs.foldl (fun b a => match b with
    | none => some a
    | some b => if agentDistance s d a < agentDistance s d b ∨ (agentDistance s d a = agentDistance s d b ∧ a < b) then some a else some b) none

/-- Does the home's LLM serve a read of a line for another die? Where nothing holds the line, or where no holder is nearer (R192). -/
def homeServes (s : State) (l : LineKey) (d : Nat) (sectors : List Nat) : Bool := match findDir s l with
  | none => true
  | some e => e.state == .shared && (nearest s l d sectors == none || nearest s l d sectors == some (lineDie s l))

/-- An access of a slice from die `d` to sectors of a line, as the caches and directories see it (R179, R182, R183, R190, R191): a read is
served by the die's own LLM, by the nearest holder, by an owner or by the home, and leaves a copy at the die; one that is not cached is
performed at the home and allocates nothing. -/
def readVia (s : State) (n d : Nat) (l : LineKey) (sectors : List Nat) (fill : Fill) : State :=
  let home := lineDie s l
  if fill = .nothing ∨ !(caches s n d l) then
    let s := dirHomeRead s l
    match l with
    | .dev x => llmTouch s n home x sectors false .nothing
    | .shr _ _ => s
  else match l with
  | .shr _ _ => if d = home then s else dirRead s n d l
  | .dev x =>
    if d = home then llmTouch (dirHomeRead s l) n home x sectors false fill
    else if llmHit s d x sectors then llmTouch s n d x sectors false fill
    else
      let s := if homeServes s l d sectors then llmTouch s n home x sectors false fill else s
      llmTouch (dirRead s n d l) n d x sectors false fill

/-- The die whose agent owns a line with dirty sectors, another than `d`, and those sectors with what stands beneath each. -/
def ownerDirty (s : State) (d x : Nat) : Option (Nat × List (Nat × Sector)) := match findDir s (.dev x) with
  | some e => match e.state with
    | .owned b => if b = d then none else match llmOf s b x with
      | some y => if y.under.isEmpty then none else some (b, y.under)
      | none => none
    | _ => none
  | none => none

/-- The dirty sectors of a die's copy of a line. -/
def setUnder (s : State) (d x : Nat) (u : List (Nat × Sector)) : State :=
  { s with mem := { s.mem with llm := mapIf (fun y => y.die == d && y.line == x) (fun y => { y with under := u }) s.mem.llm } }

/-- Values beneath of two lists, the first one's where both have a sector. -/
def joinUnder (a b : List (Nat × Sector)) : List (Nat × Sector) := a ++ b.filter fun p => !(a.any fun q => q.1 == p.1)

/-- The agent of die `d` writes a sector of a device line as its owner, the home's as its own agent (R191): all eight sectors come (R179), an
owner's dirty ones among them as dirty (Table 6.3); where `d` has no room for the line they return to the home. -/
def ownWrite (s : State) (wr : Option Nat) (n d x i : Nat) (fill : Fill) : State :=
  let take (s : State) : State := llmTouch (dirWrite s wr n d (.dev x) (d != homeDie (x * 512))) n d x [i] true fill
  match ownerDirty s d x with
  | none => take s
  | some (b, ds) =>
    let t := take (setUnder s b x [])
    match llmOf t d x with
    | some y => setUnder t d x (joinUnder (joinUnder (((llmOf s d x).map (·.under)).getD []) ds) y.under)
    | none => take s

/-- A write of a slice from die `d`: the die's agent takes ownership with all eight sectors, or the home performs it. -/
def writeVia (s : State) (wr : Option Nat) (n d : Nat) (l : LineKey) (i : Nat) (fill : Fill) : State :=
  match l with
  | .shr _ _ => dirWrite s wr n d l false
  | .dev x =>
    if fill = .nothing ∨ !(caches s n d l) then llmTouch (dirWrite s wr n d l false) n (homeDie (x * 512)) x [i] true .nothing
    else ownWrite s wr n d x i (if fill = .bypass then .bypass else .whole)

/-! ### Writing a sector -/

/-- Put bytes at an offset into a sector value. -/
def sectPut (v : Sector) (off : Nat) (bs : List Byte) : Sector :=
  let m := (2 ^ (8 * bs.length) - 1) <<< (8 * off)
  BitVec.ofNat 512 ((v.toNat &&& (2 ^ 512 - 1 - m)) ||| (leNat bs <<< (8 * off)))

/-- Bytes of a sector value. -/
def sectGet (v : Sector) (off n : Nat) : List Byte := toLe n (v.toNat / 2 ^ (8 * off))

/-- A core's own store updates its L1 copy when the line is present (R180). -/
def updateL1 (s : State) (wr : Option Nat) (k : SectKey) (off : Nat) (bs : List Byte) : State :=
  match wr with
  | none => s
  | some c =>
    let upd (x : L1Line) : L1Line :=
      { x with sectors := x.sectors.map fun p => if p.1 = k.i then (p.1, sectPut p.2 off bs) else p }
    { s with mem := { s.mem with l1 := mapIf (fun x => x.core == c && x.line == k.line) upd s.mem.l1 } }

/-- A sector's copy in the writer's own L1 goes where the order of its values has passed it, so that no later load of the core mixes the store
with a value of another place of that order (R172). -/
def freshL1 (s : State) (wr : Option Nat) (k : SectKey) : State :=
  match wr with
  | none => s
  | some c =>
    let pure (x : L1Line) : L1Line := { x with sectors := x.sectors.filter fun p => p.1 != k.i || p.2 == latest s k }
    { s with mem := { s.mem with l1 := mapIf (fun x => x.core == c && x.line == k.line) pure s.mem.l1 } }

/-- Drop an L1 copy. -/
def dropL1 (s : State) (core : Nat) (l : LineKey) : State :=
  { s with mem := { s.mem with l1 := s.mem.l1.filter fun x => !(x.core == core && x.line == l) } }

/-- A write of only a part of a discarded sector lands over one of the values that a read may return (R174, log 101), and the
writer's own L1 keeps no copy of another choice. -/
def mergeDead (s : State) (wr : Option Nat) (k : SectKey) (len : Nat) : State :=
  match deadOf s k with
  | none => s
  | some _ =>
    if len = 64 then s
    else
      let (s, v) := readSect s k
      let s := match wr with
        | some c => dropL1 s c k.line
        | none => s
      { s with mem := { s.mem with bytes := cellsPut s.mem.bytes (sectBase k) (toLe 64 v.toNat) } }

/-- The die whose agent performs the writes of a core; a write of no core is performed at the home. -/
def writerDie (s : State) (wr : Option Nat) (l : LineKey) : Nat := match wr with
  | some c => c / 156
  | none => lineDie s l

/-- Bytes land in a sector's storage, and a discarded sector that is written lives again. -/
def putSect (s : State) (k : SectKey) (off : Nat) (bs : List Byte) : State := match k.line with
  | .dev l =>
    { s with mem := { s.mem with
        bytes := cellsPut s.mem.bytes (sectBase k + off) bs,
        dead := s.mem.dead.filter fun d => d.sector != l * 8 + k.i } }
  | .shr m _ =>
    let x := s.slice m
    s.setSlice { x with scratch := cellsPut x.scratch (sectBase k + off) bs }

/-- The bytes of one store within one sector, performed by the agent of a die: the latest value changes, a discarded sector is live again, a
poisoned sector written whole is clean (R172, R174, Table 12.1). -/
def writeSectAt (die : Nat) (fill : Fill) (s : State) (wr : Option Nat) (n : Nat) (k : SectKey) (off : Nat) (bs : List Byte) : State :=
  let s := freshL1 (mergeDead s wr k bs.length) wr k
  let s := putSect (writeVia s wr n die k.line k.i fill) k off bs
  let s := if bs.length = 64 then { s with mem := { s.mem with poison := s.mem.poison.filter fun p => p != sectNum k } } else s
  updateL1 s wr k off bs

/-- The same by the agent of the writer's die. -/
def writeSectAs (fill : Fill) (s : State) (wr : Option Nat) (n : Nat) (k : SectKey) (off : Nat) (bs : List Byte) : State :=
  writeSectAt (writerDie s wr k.line) fill s wr n k off bs

def writeSect (s : State) (wr : Option Nat) (n : Nat) (k : SectKey) (off : Nat) (bs : List Byte) : State :=
  writeSectAs .sectors s wr n k off bs

/-! ### Requesters -/

/-- The die that a request comes from; 4 is Proty, where commands, ports and chiplets stand. -/
def askerDie (a : Asker) : Nat := match a with
  | .group _ c => c / 156
  | .unit _ c => c / 156
  | _ => 4

/-- The core on whose behalf a request is made. -/
def askerCore (a : Asker) : Option Nat := match a with
  | .group _ c => some c
  | .unit _ c => some c
  | _ => none

/-- The launch on whose behalf a request is made. -/
def askerCtx (a : Asker) : Option Nat := match a with
  | .group g _ => some g.ctx
  | .unit c _ => some c
  | _ => none

/-- The chiplet port that asks. -/
def askerPort (a : Asker) : Option Nat := match a with
  | .port p => some p
  | _ => none

/-! ### Reading through a core's L1 (R179, R180, R190) -/

/-- Whether an L1 of a core may keep a line of a slice (R190). -/
def l1Keeps (s : State) (core n : Nat) (l : LineKey) : Bool := caches s n (core / 156) l

/-- The index of a line in the L1 (address bits [14:9]). -/
def l1Set (l : LineKey) : Nat := match l with
  | .dev x => x % 64
  | .shr _ x => x % 64

/-- R169: an acquire at device or system scope applies every invalidation queued at the core. -/
def applyInv (s : State) (core : Nat) : State :=
  { s with mem := { s.mem with
      l1 := s.mem.l1.filter fun x => !(x.core == core && s.mem.invq.contains (core, x.line)),
      invq := s.mem.invq.filter fun q => q.1 != core } }

/-- Put a line at the front of the core's set, or with the bypass mark at its least recently used place (R196); the least
recently used of eight goes. -/
def l1Insert (s : State) (x : L1Line) (bypass : Bool) : State :=
  let rest := s.mem.l1.filter fun y => !(y.core == x.core && y.line == x.line)
  let inSet (y : L1Line) : Bool := y.core == x.core && l1Set y.line == l1Set x.line
  let rest := if 8 ≤ (rest.filter inSet).length then dropLast inSet rest else rest
  let s := ldirAdd s x.core x.slice x.line
  { s with mem := { s.mem with l1 := if bypass then rest ++ [x] else x :: rest } }

/-! ### Stream detection (R196) -/

/-- The number of a line in its memory. -/
def lineNo (l : LineKey) : Nat := match l with
  | .dev x => x
  | .shr _ x => x

/-- The requester number of a stoker stream: the 32 group slots come before. -/
def streamReq (gang stream : Nat) : Nat := 32 + 16 * gang + stream

/-- A hit of a requester ends its run. -/
def detectHit (s : State) (core req : Nat) : State :=
  { s with mem := { s.mem with det := mapIf (fun d => d.core == core && d.requester == req) (fun d => { d with stride := 0, run := 0 }) s.mem.det } }

/-- A miss of a requester: the entry is brought to the front, its run counted, and the miss carries the bypass mark when four
misses at this stride came before it. -/
def detectMiss (s : State) (core req : Nat) (l : LineKey) : State × Bool :=
  let n := lineNo l
  let old := s.mem.det.find? fun d => d.core == core && d.requester == req
  let rest := s.mem.det.filter fun d => !(d.core == core && d.requester == req)
  let (e, byp) : DetEnt × Bool := match old with
    | none => ({ core := core, requester := req, last := n }, false)
    | some d =>
      let st : Int := (n : Int) - d.last
      if st = 0 ∨ st < -64 ∨ 64 < st then ({ d with last := n, stride := 0, run := 0 }, false)
      else if st = d.stride then ({ d with last := n, run := d.run + 1 }, decide (4 ≤ d.run))
      else ({ d with last := n, stride := st, run := 1 }, false)
  let mine := rest.filter fun d => d.core == core
  let rest := if 32 ≤ mine.length then dropLast (fun d => d.core == core) rest else rest
  ({ s with mem := { s.mem with det := e :: rest } }, byp)

/-- The sector of a line in a core's L1, where valid. -/
def l1Has (s : State) (core : Nat) (k : SectKey) : Option Sector :=
  ((s.mem.l1.find? fun x => x.core == core && x.line == k.line).bind fun x => x.sectors.find? fun p => p.1 == k.i).map (·.2)

/-- A sector fetched for a core's L1 joins its line there, where R190 keeps it; one of a dead line is not kept, so that each read chooses
anew (R174). -/
def l1Keep (s : State) (core n : Nat) (k : SectKey) (v : Sector) (bypass : Bool) : State :=
  if !(l1Keeps s core n k.line) || (deadOf s k).isSome then s
  else
    let old := ((s.mem.l1.find? fun x => x.core == core && x.line == k.line).map (·.sectors)).getD []
    l1Insert s { core := core, line := k.line, slice := n, sectors := (k.i, v) :: old.filter fun p => p.1 != k.i } bypass

/-- The line that an L1 has just served moves to the front of its set. -/
def l1Front (s : State) (core : Nat) (l : LineKey) : State :=
  let mine (x : L1Line) : Bool := x.core == core && x.line == l
  { s with mem := { s.mem with l1 := s.mem.l1.filter mine ++ s.mem.l1.filter fun x => !(mine x) } }

/-- What a load's sectors of one line make of the requester's run: one miss for the line where one of them is missing, else a hit (R179,
R196). -/
def detectLine (core req : Nat) (l : LineKey) (ks : List SectKey) (s : State) : State × Bool :=
  if ks.all fun k => (l1Has s core k).isSome then (detectHit s core req, false) else detectMiss s core req l

/-- The lines of a load's sectors, each with the bypass mark that its misses carry. -/
def detectLines (core req : Nat) (ks : List SectKey) (s : State) : State × List (LineKey × Bool) :=
  ((ks.map (·.line)).foldl (fun ls l => addNew l ls) []).foldl (fun (x : State × List (LineKey × Bool)) l =>
    let r := detectLine core req l (ks.filter fun k => k.line == l) x.1
    (r.1, (l, r.2) :: x.2)) (s, [])

/-- One sector as a plain load on a core reads it: from the L1 copy where valid, else by way of its die's agent, keeping it (R179). -/
def l1Sect (s : State) (core n : Nat) (byp : Bool) (k : SectKey) : State × Sector :=
  match l1Has s core k with
  | some v => (l1Front s core k.line, v)
  | none =>
    let s := readVia s n (core / 156) k.line [k.i] (if byp then .bypass else .sectors)
    let (s, v) := readSect s k
    (l1Keep s core n k v byp, v)

/-- One sector as a remote access or an atomic reads it: at the home. -/
def homeSectAs (fill : Fill) (s : State) (n : Nat) (k : SectKey) : State × Sector :=
  readSect (readVia s n (lineDie s k.line) k.line [k.i] fill) k

/-- One sector as a requester reads it past its L1: by way of its die's agent, or at the home where it stands on no compute die. -/
def agentSect (fill : Fill) (by_ : Asker) (s : State) (n : Nat) (k : SectKey) : State × Sector :=
  match askerCore by_ with
  | some c => readSect (readVia s n (c / 156) k.line [k.i] fill) k
  | none => homeSectAs fill s n k

def homeSect (s : State) (n : Nat) (k : SectKey) : State × Sector := homeSectAs .sectors s n k

/-! ### Who asks, and requests that wait (R195, R247, R249) -/

/-- Whether the requester of a waiting request is still there; what the device itself, a port or the context engine asked for stands until its
turn is over (`freePlaces`). -/
def askerLive (s : State) (a : Asker) : Bool := match a with
  | .group g _ => (match s.launch? g.ctx with
    | some l => l.live.any fun x => x.idx == g.gang && x.groups.any fun t => t.idx == g.group
    | none => false)
  | .unit c _ => (s.launch? c).isSome
  | .cmd ch seq => (s.chan ch).flight.any fun c => c.seq == seq
  | .port p => s.getObj (Obj.cpState p) == 2
  | .device => true
  | .ember => true

/-- Whether a request for a stacked sector waits at a frozen channel: the channel's freeze bit is set, and a sector that it needs is valid in
no LLM: its own of a read, all eight of a write, which takes ownership (R179, R249). -/
def frozen (s : State) (k : SectKey) (write : Bool) : Bool :=
  match k.line with
  | .shr _ _ => false
  | .dev l =>
    decide (l * 512 < 4 * dieWindow) &&
      ((if write then List.range 8 else [k.i]).any fun i => !(s.mem.llm.any fun x => x.line == l && x.valid.getLsbD i)) &&
      (let c := stackChannel s (l * 512)
       s.getObj (Obj.chFreeze c.1 c.2) == 1 && s.getObj (Obj.chState c.1 c.2) != 2)

/-- A request that must wait takes its place, in arrival order (R247). -/
def waitPlace (s : State) (k : SectKey) (by_ : Asker) : State :=
  { s with mem := { s.mem with waitingReq := addNew (by_, k) s.mem.waitingReq } }

/-- A request takes its place at a frozen channel, and its launch's watchdog holds (R247, R249). -/
def waitFrozen (s : State) (k : SectKey) (by_ : Asker) : State :=
  let s := waitPlace s k by_
  match askerCtx by_ with
  | some c => { s with launches := mapIf (fun l => l.ctx == c && l.frozenAt.isNone) (fun l => { l with frozenAt := some s.now }) s.launches }
  | none => s

/-- Whether another request that waited for the sector comes first (R195, R247). An access of several sectors is served as a whole, so of
two that wait for each other's sectors the one that came first goes first (log 108). -/
def behindOther (s : State) (k : SectKey) (by_ : Asker) : Bool :=
  let place (a : Asker) : Nat := (s.mem.waitingReq.findIdx? fun x => x.1 == a).getD s.mem.waitingReq.length
  match s.mem.waitingReq.find? fun x => x.2 == k && askerLive s x.1 with
  | some x => x.1 != by_ && decide (place x.1 < place by_)
  | none => false

/-- Whether a request of a launch waits at a frozen channel (R249). -/
def launchFrozen (s : State) (ctx : Nat) : Bool :=
  s.mem.waitingReq.any fun x => askerCtx x.1 == some ctx && frozen s x.2 true && askerLive s x.1

/-- The time that a launch waited at frozen channels is added up once none of its requests waits there. -/
def settleFrozen (s : State) : State :=
  { s with launches := s.launches.map fun (l : Launch) => match l.frozenAt with
      | some t => if launchFrozen s l.ctx then l else { l with waited := l.waited + (s.now - t), frozenAt := none }
      | none => l }

/-- Requests of a requester that are served leave their places. -/
def served (s : State) (by_ : Asker) : State :=
  if s.mem.waitingReq.isEmpty && s.mem.missInput.isEmpty then s
  else settleFrozen { s with mem := { s.mem with waitingReq := s.mem.waitingReq.filter fun x => x.1 != by_,
                                                 missInput := s.mem.missInput.filter fun m => m.waiters != [by_] } }

/-- A request of a requester for one sector is served. -/
def servedAt (s : State) (by_ : Asker) (k : SectKey) : State :=
  if s.mem.waitingReq.isEmpty then s
  else settleFrozen { s with mem := { s.mem with waitingReq := s.mem.waitingReq.filter fun x => x != (by_, k) } }

/-- The miss register of a unit for a line. -/
def missOf (s : State) (u : MissUnit) (l : LineKey) : Option MissReg := s.mem.miss.find? fun m => m.u == u && m.line == l

/-- The home LLC slice of a line. -/
def homeUnit (s : State) (l : LineKey) : MissUnit := .llc (lineDie s l) (lineSet s l).1

/-- One more waiter of a miss register, up to 16, with the sector that it needs. -/
def addWaiter (s : State) (m : MissReg) (a : Asker) (i : Nat) : State :=
  let m' := if m.waiters.contains a || decide (16 ≤ m.waiters.length) then m else { m with waiters := m.waiters ++ [a] }
  { s with mem := { s.mem with miss := mapIf (fun x => x.u == m.u && x.line == m.line) (fun _ => { m' with requested := m'.requested ||| (1 <<< i) }) s.mem.miss } }

/-- A load that finds an L1's 64 registers busy waits at its input, in arrival order. -/
def waitInput (s : State) (m : MissReg) : State :=
  if s.mem.missInput.any fun x => x.u == m.u && x.line == m.line && x.waiters == m.waiters then s
  else { s with mem := { s.mem with missInput := s.mem.missInput ++ [m] } }

/-- A request meets a line whose fill is on its way (R195): its core's L1 register or, on a miss there too, the home's. It becomes one of
the register's waiters, and of a load the L1 takes a register of its own, one of 64, for the line. A store or an atomic, which allocates
nothing in the L1 (R180), waits at the home's. None where no fill is awaited. -/
def missWait (s : State) (k : SectKey) (write : Bool) (by_ : Asker) : Option State :=
  let atHome : Option MissReg := match k.line with
    | .dev x => if llmHit s (lineDie s k.line) x [k.i] then none else missOf s (homeUnit s k.line) k.line
    | .shr _ _ => none
  let own := (askerCore by_).bind fun c => missOf s (.l1 c) k.line
  match own, (if write then none else askerCore by_), atHome with
  | some m, _, none => some (addWaiter s m by_ k.i)
  | _, none, some h => some (addWaiter s h by_ k.i)
  | some m, some c, some h => some (addWaiter (addWaiter s m by_ k.i) h (.unit ((askerCtx by_).getD 0) c) k.i)
  | none, some c, some h =>
    let m : MissReg := { u := .l1 c, line := k.line, slice := h.slice, requested := 1 <<< k.i, waiters := [by_] }
    if 64 ≤ (s.mem.miss.filter fun m => m.u == .l1 c).length then some (waitInput s m)
    else
      let s := { s with mem := { s.mem with miss := s.mem.miss ++ [m] } }
      some (addWaiter s h (.unit ((askerCtx by_).getD 0) c) k.i)
  | none, _, none => none

/-- What a cached access from a die must wait for at the line's home directory: room for its entry (R189), or a chiplet port that is the
nearest holder of a shared line and is asked for its data (R192). -/
def dirWait (s : State) (k : SectKey) (write : Bool) (by_ : Asker) : Option State :=
  let d := askerDie by_
  match lineOwner s k.line with
  | none => none
  | some n =>
    if 4 ≤ d ∨ d = lineDie s k.line ∨ !(caches s n d k.line) then none
    else match findDir s k.line with
    | none => match dirRoom s n k.line with
      | .ok _ => none
      | .error s => some s
    | some e =>
      if write || e.state != .shared || (agentsOf e).contains d then none
      else match nearest s k.line d [k.i] with
        | some a => match chipLine s a k.line with
          | some h => some (snoopChip (putDir s { e with req := some { agent := d, kind := 0 }, fwd := some a }) (a - 4) h false)
          | none => none
        | none => none

/-- Does the core's L1 hold a sector that a group asks for? -/
def l1Serves (s : State) (k : SectKey) (by_ : Asker) : Bool := match by_ with
  | .group _ c => (l1Has s c k).isSome
  | _ => false

/-- Whether accesses of an agent's die wait on a line in a miss register (R193). -/
def agentWaits (s : State) (a : Nat) (l : LineKey) : Bool :=
  s.mem.miss.any fun m => m.line == l && m.waiters.any (askerLive s ·) && (match m.u with
    | .l1 c => c / 156 == a
    | .llc d _ => d == a)

/-- Must an access of a die wait for the line's request in progress, or behind one that is held at the home? The accesses that wait at its owner
complete before the owner answers a forward (R193). -/
def inTransit (s : State) (l : LineKey) (d : Nat) : Bool := s.mem.heldReqs.any (fun r => r.1 == l) || (match findDir s l with
  | some e => transient e && !(e.state == .owned d && e.fwd == some d && agentWaits s d l)
  | none => false)

/-- Whether links join the dies that an access needs (R26): the asker's with the home, of a read the one that supplies the data with both, of a
write every holder's with the home. What the die's own LLM holds, or owns, asks nobody. -/
def roadsOpen (s : State) (k : SectKey) (write : Bool) (d : Nat) : Bool :=
  let home := lineDie s k.line
  let joined (a b : Nat) : Bool := (dieRoute s (lineNo k.line) (min a 4) (min b 4)).isSome
  let here := match k.line with
    | .dev x => decide (d < 4) && llmHit s d x [k.i] && (!write || (findDir s k.line).any fun e => e.state == .owned d)
    | .shr _ _ => false
  here || (joined d home && (match findDir s k.line with
    | none => true
    | some e => if write then ((agentsOf e).filter fun a => a != d).all fun a => joined home a
      else match e.state with
        | .owned b => b == d || (joined home b && joined b d)
        | _ => match nearest s k.line d [k.i] with
          | some a => joined home a && joined a d
          | none => true))

/-- An access to a sector goes on, or waits: behind the line's request in progress, behind a chiplet's copy, between dies that no link
joins (R26), for a directory entry, for a fill, behind a frozen channel, or at poisoned data (a read). A load that hits in its core's L1
asks nobody. -/
def reach (s : State) (k : SectKey) (write : Bool) (by_ : Asker) : Except Stop Unit :=
  let hs := chipHolders s k.line write (askerPort by_)
  if !write && l1Serves s k by_ then .ok ()
  else if inTransit s k.line (askerDie by_) then .error (.wait s)
  else if !hs.isEmpty then .error (.wait (hs.foldl (fun s p => snoopChip s p.1 p.2 write) s))
  else if !(roadsOpen s k write (askerDie by_)) then .error (.wait (waitPlace s k by_))
  else match dirWait s k write by_ with
  | some s => .error (.wait s)
  | none => match missWait s k write by_ with
    | some s => .error (.wait s)
    | none =>
      if frozen s k write then .error (.wait (waitFrozen s k by_))
      else if behindOther s k by_ then .error (.wait s)
      else if !write && poisoned s k then .error (.wait s)
      else .ok ()

/-- Requests of the device itself, of ports and of the context engine leave their places once nothing holds them back any more (log 108). -/
def freePlaces (s : State) : State :=
  let fixed (x : Asker × SectKey) : Bool := match x.1 with
    | .device => true
    | .port _ => true
    | .ember => true
    | _ => false
  if s.mem.waitingReq.isEmpty then s
  else { s with mem := { s.mem with waitingReq := s.mem.waitingReq.filter fun x => !(fixed x) || frozen s x.2 true || !(roadsOpen s x.2 true 4) } }

end Sys2Proof.Machine
end

