-- ==== Sys2Proof/Machine/Store.lean ====
section
/-! DEFINITION. Store.lean: runs of bytes of a slice as engines, commands, windows and the module's own records read and write them,
stores on their way from a core (R162 to R168), and discarded lines (R174, R199). -/

namespace Sys2Proof.Machine

/-! ### Runs of bytes of a slice: what engines, commands, windows and the module's own records read and write -/

/-- Size of a slice's shared scratch: its grants on the four dies (R152). -/
def scratchSize (s : State) (n : Nat) : Nat :=
  ((List.range 4).map fun d => ways (s.getObj (Obj.sliceScratchWays n d))).foldl (· + ·) 0 * 2 ^ 24

/-- The sector of an address of a slice in space 1 (shared scratch) or 2 (device memory), with the checks of Table 3.8. -/
def locate (s : State) (n space addr kind : Nat) : Except Stop SectKey :=
  if space = 1 then
    if addr < scratchSize s n then .ok (shrSect n addr) else .error (.cause 0x40 0)
  else match translate s n addr kind with
    | .ok pa => .ok (devSect pa)
    | .error e => .error e

/-- Whether an address lies in a page that the slice has donated to a pool (R216). -/
def donated (s : State) (n va : Nat) : Bool := (s.slice n).pools.any fun p => decide (p.va ≤ va ∧ va < p.va + 2 ^ 21)

/-- Whether a requester is an ember-store command or the tiering of blocks (Tables 7.4 and 10.1). -/
def emberAsks (s : State) (by_ : Asker) : Bool := match by_ with
  | .ember => true
  | .cmd ch seq => (s.chan ch).flight.any fun c => c.seq == seq && [9, 10].contains c.op
  | _ => false

/-- Whether R216 leaves an access open: only the ember-store commands may access a donated page. -/
def openAccess (s : State) (n space va : Nat) (by_ : Asker) : Bool := space != 1 && donated s n va && !(emberAsks s by_)

/-- A read of one sector goes on, or not. -/
def readOk (s : State) (m space addr : Nat) (by_ : Asker) : Except Stop SectKey :=
  match locate s m space addr 0 with
  | .error e => .error e
  | .ok k =>
    if openAccess s m space addr by_ then .error .any
    else match reach s k false by_ with
      | .error e => .error e
      | .ok () => .ok k

/-- Bytes left in the sector of an address. -/
def sectLeft (addr : Nat) : Nat := 64 - addr % 64

/-- Reads `n` bytes of slice `m` at device scope, sector by sector; `fuel` bounds the sectors. -/
def readRunGo (fill : Fill) (by_ : Asker) (m space : Nat) : Nat → State → Nat → Nat → Except Stop (State × List Byte)
  | 0, s, _, _ => .ok (s, [])
  | fuel + 1, s, addr, n =>
    if n = 0 then .ok (s, [])
    else match readOk s m space addr by_ with
      | .error e => .error e
      | .ok k =>
        let c := min n (sectLeft addr)
        let (s, v) := agentSect fill by_ s m k
        match readRunGo fill by_ m space fuel s (addr + c) (n - c) with
        | .error e => .error e
        | .ok (s, bs) => .ok (s, sectGet v (addr % 64) c ++ bs)

def readRunAs (fill : Fill) (by_ : Asker) (s : State) (m space addr n : Nat) : Except Stop (State × List Byte) :=
  readRunGo fill by_ m space (n / 64 + 2) s addr n

def readRun (s : State) (m space addr n : Nat) : Except Stop (State × List Byte) := readRunAs .sectors .device s m space addr n

/-- Whether one sector-sized piece of a write may go through now. -/
def writeOk (s : State) (m space addr : Nat) (by_ : Asker) : Except Stop SectKey :=
  match locate s m space addr 1 with
  | .error e => .error e
  | .ok k => if openAccess s m space addr by_ then .error .any else match reach s k true by_ with
    | .error e => .error e
    | .ok () =>
      if space = 1 then .ok k
      else match imageGate s m addr with
        | .error e => .error e
        | .ok () => .ok k

/-- A store into an executable page is noted for every launch of the slice that has begun (R115), by words of eight bytes. -/
def noteCode (s : State) (m addr n : Nat) : State :=
  match translate s m addr 2 with
  | .error _ => s
  | .ok _ =>
    let ws := (List.range ((addr + n - 1) / 8 + 1 - addr / 8)).map fun i => addr / 8 + i
    { s with launches := mapIf (fun l => l.slice == m) (fun l => { l with codeStored := ws.foldl (fun c w => addNew w c) l.codeStored }) s.launches }

/-- One piece of a write, with the dirty-page log, performed by the agent of a die. -/
def writePieceAt (die : Nat) (fill : Fill) (s : State) (wr : Option Nat) (m space addr : Nat) (k : SectKey) (bs : List Byte) : State :=
  let s := if space = 1 then s else noteCode (logWrite s m addr) m addr bs.length
  writeSectAt die fill s wr m k (addr % 64) bs

/-- The same by the agent of the writer's die. -/
def writePieceAs (fill : Fill) (s : State) (wr : Option Nat) (m space addr : Nat) (k : SectKey) (bs : List Byte) : State :=
  writePieceAt (writerDie s wr k.line) fill s wr m space addr k bs

def writePiece (s : State) (wr : Option Nat) (m space addr : Nat) (k : SectKey) (bs : List Byte) : State :=
  writePieceAs .sectors s wr m space addr k bs

/-- Writes bytes of slice `m` at device scope, piece by piece: the state after the pieces that went through, with the number of
bytes written and why it stopped, if it did. -/
def writeRunGo (fill : Fill) (wr : Option Nat) (by_ : Asker) (m space : Nat) : Nat → State → Nat → List Byte → Nat → State × Nat × Option Stop
  | 0, s, _, _, done => (s, done, none)
  | fuel + 1, s, addr, bs, done =>
    if bs.isEmpty then (s, done, none)
    else match writeOk s m space addr by_ with
      | .error e => (s, done, some e)
      | .ok k =>
        let c := min bs.length (sectLeft addr)
        writeRunGo fill wr by_ m space fuel (writePieceAs fill s wr m space addr k (bs.take c)) (addr + c) (bs.drop c) (done + c)

/-- `wr`: the core on whose behalf the bytes are written, whose own L1 follows (R166, R180). -/
def writeRunAs (fill : Fill) (wr : Option Nat) (by_ : Asker) (s : State) (m space addr : Nat) (bs : List Byte) : State × Nat × Option Stop :=
  writeRunGo fill wr by_ m space (bs.length / 64 + 2) s addr bs 0

def writeRun (s : State) (m space addr : Nat) (bs : List Byte) : State × Nat × Option Stop := writeRunAs .sectors none .device s m space addr bs

/-- Whether every byte of a range translates for a kind of access. -/
def rangeOkGo (s : State) (n kind : Nat) : Nat → Nat → Nat → Except Stop Unit
  | 0, _, _ => .ok ()
  | fuel + 1, va, len =>
    if len = 0 then .ok ()
    else match translate s n va kind with
      | .error e => .error e
      | .ok _ =>
        let c := min len (65536 - va % 65536)
        rangeOkGo s n kind fuel (va + c) (len - c)

def rangeOk (s : State) (n va len kind : Nat) : Except Stop Unit := rangeOkGo s n kind (len / 65536 + 2) va len

/-- Reads bytes of physical memory that no slice's right guards (translation entries, records of the device itself). -/
def physGet (s : State) (pa n : Nat) : List Byte := cellsGet s.mem.bytes pa n

/-- Writes bytes of physical memory by firmware: the sectors are live, whole sectors clean, L1 copies queued for
invalidation. -/
def physPut (s : State) (pa : Nat) (bs : List Byte) : State :=
  let s := { s with mem := { s.mem with
    bytes := cellsPut s.mem.bytes pa bs,
    dead := s.mem.dead.filter fun d => !(decide (pa / 64 ≤ d.sector ∧ d.sector * 64 < pa + bs.length)),
    poison := s.mem.poison.filter fun p => !(decide (pa ≤ p * 64 ∧ p * 64 + 64 ≤ pa + bs.length)) } }
  (s.mem.l1.map (·.line)).foldl (fun s l => match l with
    | .dev x => if pa / 512 ≤ x ∧ x * 512 < pa + bs.length then invalidateL1 s none l else s
    | .shr _ _ => s) s

/-! ### Stores on their way (R162 to R168, R180, log 5) -/

/-- The stores of a core, in the order of their issue. -/
def storesOf (s : State) (core : Nat) : List StoreEnt := s.stores.filter fun e => e.core == core

/-- A sector as the groups of a core see it: with the core's own stores laid over it (R162, R168). -/
def overlay (s : State) (core : Nat) (k : SectKey) (v : Sector) : Sector :=
  ((storesOf s core).filter fun e => e.line == k.line && e.i == k.i).foldl
    (fun v e => e.parts.foldl (fun v p => sectPut v p.1 p.2) v) v

/-- The sectors of a load through the L1, each distinct sector read once (R128, R172), with the core's own stores laid over it. -/
def loadSectsGo (core n : Nat) (marks : List (LineKey × Bool)) : List SectKey → State → State × List (SectKey × Sector)
  | [], s => (s, [])
  | k :: ks, s =>
    let (s, v) := l1Sect s core n (marks.any fun m => m == (k.line, true)) k
    let v := overlay s core k v
    let (s, rest) := loadSectsGo core n marks ks s
    (s, (k, v) :: rest)

def loadSects (core n req : Nat) (ks : List SectKey) (s : State) : State × List (SectKey × Sector) :=
  let (s, marks) := detectLines core req ks s
  loadSectsGo core n marks ks s

/-- Whether a load of some bytes of a sector (offset and length of each lane) may take them by way of its core's own stores: none of those
touches one of the bytes, or the last that does writes all of them, so that the load stands at one point of the sector's order (R172). -/
def forwards (s : State) (core : Nat) (k : SectKey) (rs : List (Nat × Nat)) : Bool :=
  let covers (e : StoreEnt) (i : Nat) : Bool := e.parts.any fun p => decide (p.1 ≤ i ∧ i < p.1 + p.2.length)
  let bytes := rs.flatMap fun r => (List.range r.2).map fun i => r.1 + i
  match (((storesOf s core).filter fun e => e.line == k.line && e.i == k.i).filter fun e => bytes.any (covers e)).getLast? with
  | none => true
  | some e => bytes.all (covers e)

/-- Whether a store may be performed before the ones that stand ahead of it: none of them is to its line (R180) or a release fence, and
a release waits for all of them (R165). Other stores are performed in any order (R164). -/
def mayLand (before : List StoreEnt) (e : StoreEnt) : Bool :=
  before.all (fun b => b.line != e.line && !b.mark) && (!e.rel || before.isEmpty)

/-- One store of a core performed at its home, whole within its sector (R172); false where it may not be, or where it must wait. -/
def landOne (s : State) (core i : Nat) : State × Bool :=
  let es := storesOf s core
  match es[i]? with
  | none => (s, false)
  | some e =>
    let rest := { s with stores := s.stores.erase e }
    if !(mayLand (es.take i) e) then (s, false)
    else if e.mark then (rest, true)
    else match reach s ⟨e.line, e.i⟩ true (.unit e.ctx core) with
      | .error (.wait s) => (s, false)
      | .error _ => (s, false)
      | .ok () => match (if e.space = 1 then .ok () else imageGate s e.slice e.va) with
        | .error (.wait s) => (s, false)
        | .error _ => (s, false)
        | .ok () => (servedAt (e.parts.foldl (fun s p => writePiece s (some core) e.slice e.space (e.va / 64 * 64 + p.1) ⟨e.line, e.i⟩ p.2) rest)
          (.unit e.ctx core) ⟨e.line, e.i⟩, true)

/-- The first `n` stores of a core performed in order; false where one must wait. -/
def landFirst (core : Nat) : Nat → State → State × Bool
  | 0, s => (s, true)
  | n + 1, s => match landOne s core 0 with
    | (s, true) => landFirst core n s
    | (s, false) => (s, false)

/-- Every store of a core performed: what a full fence, a release at system scope and the end of a launch wait for (R167, R170, R175). -/
def landAll (s : State) (core : Nat) : State × Bool := landFirst core (storesOf s core).length s

/-- The stores of a core that an access at the home of a line must follow: those to the line, and those before a release fence. -/
def landFor (s : State) (core : Nat) (l : LineKey) : State × Bool :=
  let es := (storesOf s core).reverse
  match es.findIdx? fun e => e.line == l || e.mark with
  | none => (s, true)
  | some i => landFirst core (es.length - i) s

/-- Stores of a core performed or kept by free choices, in any order that is allowed. -/
def landPick (core : Nat) : Nat → State → State
  | 0, s => s
  | n + 1, s =>
    let m := (storesOf s core).length
    if m = 0 then s else landPick core n (landOne (s.useFree 1) core (s.freeVal % m)).1

/-- How many of a core's stores are performed now is a free choice. -/
def landSome (s : State) (core : Nat) : State :=
  let m := (storesOf s core).length
  if m = 0 then s else landPick core (s.freeVal % (m + 1)) (s.useFree 1)

/-- Every store of every core performed, but those that must wait. -/
def landEvery (s : State) : State :=
  ((s.stores.map (·.core)).foldl (fun cs c => addNew c cs) []).foldl (fun s c => (landAll s c).1) s

/-! ### Discard (R174, R199) -/

/-- Whether a discard of the line at an address goes on: as a write would, but a chiplet's copy and a writeback on its way do not hold it
back (R199). -/
def discardOk (s : State) (m va : Nat) (by_ : Asker) : Except Stop SectKey :=
  match locate s m 2 va 1 with
  | .error e => .error e
  | .ok k =>
    let busy := match findDir s k.line with
      | some e => e.req.isSome || !e.awaited.isEmpty || e.fwd.isSome
      | none => false
    if openAccess s m 2 va by_ then .error .any
    else if busy then .error (.wait s)
    else if !(roadsOpen s k true (askerDie by_)) then .error (.wait (waitPlace s k by_))
    else if behindOther s k by_ then .error (.wait s)
    else match imageGate s m va with
      | .error e => .error e
      | .ok () => .ok k

/-- A chiplet port's copy of a dead line is taken back without its data: the die is sent INV and owes the answer (Table 16.4). -/
def takeChip (s : State) (p : Nat) (h : HeldLine) : State :=
  let c := s.chip p
  let left := c.held.filter fun x => x.addr != h.addr
  ((s.setChip { c with held := left, snoops := c.snoops ++ [(h.addr, true)] }).putObj (Obj.cpHeldLines p) left.length).send (.chip p 1 h.addr [])

/-- Every L1's and every chiplet port's copy of a dead line goes, and its pin. -/
def takeCopies (s : State) (wr : Option Nat) (line : Nat) : State :=
  let s := match llmOf s (homeDie (line * 512)) line with
    | some x => if x.pinned then s.subObj (Obj.pinned x.slice) 1 else s
    | none => s
  let s := invalidateL1 s wr (.dev line)
  let s := match wr with
    | some c => dropL1 s c (.dev line)
    | none => s
  (chipHolders s (.dev line) true none).foldl (fun s p => takeChip s p.1 p.2) s

/-- The home of a dead line: every copy invalidated without writeback, an owner's taken by Drop, the line dropped from every LLM with its
pin, a writeback on its way dropped (its entry stays for the requests behind it); each sector whose value beneath differs from the latest
may read as either. -/
def discardLine (s : State) (wr : Option Nat) (line : Nat) : State :=
  let home := llmOf s (homeDie (line * 512)) line
  let all := (home.map (·.under)).getD [] ++ (s.mem.llm.filter fun x => x.line == line).flatMap (·.under)
  let under (i : Nat) : Sector := match all.find? fun p => p.1 == i with
    | some p => p.2
    | none => beneath s line i
  let differ := (List.range 8).filter fun i => under i != latest s { line := .dev line, i := i }
  let news := differ.map fun i => { sector := line * 8 + i, under := under i : DeadSector }
  let s := takeCopies s wr line
  { s with mem := { s.mem with
      llm := s.mem.llm.filter fun y => y.line != line,
      dead := (s.mem.dead.filter fun d => d.sector / 8 != line) ++ news,
      dirs := s.mem.dirs.filter fun d => d.line != .dev line || transient d } }

end Sys2Proof.Machine
end

