-- ==== Sys2Proof/Machine/Operands.lean ====
section
/-! DEFINITION. Operands.lean: the fields of an instruction word (Tables 4.2 to 4.9), element types (Table 4.10), the registers
of a group, the operands that a word names (R113, R119, R125), and what the decoder finds wrong with a word (R113, R118, R124). -/

namespace Sys2Proof.Machine

/-! ### Fields of an instruction word -/

def fOpcode (w : Word64) : Nat := bits w.toNat 7 0
def fGuard (w : Word64) : Nat := bits w.toNat 11 8
def fGneg (w : Word64) : Bool := w.toNat.testBit 12
/-- Bits [15:13]: RM, ITYPE, PD, PCOND or ACC by format. -/
def fTop3 (w : Word64) : Nat := bits w.toNat 15 13
def fD (w : Word64) : Nat := bits w.toNat 23 16
def fA (w : Word64) : Nat := bits w.toNat 31 24
def fB (w : Word64) : Nat := bits w.toNat 39 32
def fC (w : Word64) : Nat := bits w.toNat 47 40
def fType (w : Word64) : Nat := bits w.toNat 51 48
def fAS (w : Word64) : Bool := w.toNat.testBit 52
def fBS (w : Word64) : Bool := w.toNat.testBit 53
def fCS (w : Word64) : Bool := w.toNat.testBit 54
def fImm32 (w : Word64) : Nat := bits w.toNat 63 32
/-- M and A format: scalar base, address mode, vector offset. -/
def fSbase (w : Word64) : Nat := bits w.toNat 29 24
def fAmode (w : Word64) : Nat := bits w.toNat 31 30
def fVoff (w : Word64) : Nat := bits w.toNat 39 32
def fMspace (w : Word64) : Nat := bits w.toNat 41 40
def fMscope (w : Word64) : Nat := bits w.toNat 43 42
def fMorder (w : Word64) : Nat := bits w.toNat 45 44
def fMsize (w : Word64) : Nat := bits w.toNat 48 46
def fMimm (w : Word64) : Int := signedN 15 (bits w.toNat 63 49)
def fVB (w : Word64) : Nat := bits w.toNat 47 40
def fVC (w : Word64) : Nat := bits w.toNat 55 48
def fAscope (w : Word64) : Nat := bits w.toNat 57 56
def fAorder (w : Word64) : Nat := bits w.toNat 59 58
def fAspace (w : Word64) : Nat := bits w.toNat 61 60
def fAsize (w : Word64) : Nat := bits w.toNat 62 62
/-- B format. -/
def fCneg (w : Word64) : Bool := w.toNat.testBit 16
def fTarget (w : Word64) : Int := signedN 23 (bits w.toNat 39 17)
def fRpc (w : Word64) : Int := signedN 23 (bits w.toNat 62 40)
def fLink (w : Word64) : Nat := bits w.toNat 47 40
def fJmpSA (w : Word64) : Nat := bits w.toNat 45 40
/-- X and S format. -/
def fX21 (w : Word64) : Nat := bits w.toNat 21 16
def fX27 (w : Word64) : Nat := bits w.toNat 27 22
def fZero (w : Word64) : Bool := w.toNat.testBit 28
def fKblk (w : Word64) : Nat := bits w.toNat 36 29
def fXrm (w : Word64) : Nat := bits w.toNat 39 37
def fSB (w : Word64) : Nat := bits w.toNat 33 28
def fSscope (w : Word64) : Nat := bits w.toNat 35 34
def fSorder (w : Word64) : Nat := bits w.toNat 37 36
def fSel (w : Word64) : Nat := bits w.toNat 41 38
def fStream (w : Word64) : Nat := bits w.toNat 45 42

/-- IMM of an I format word, sign-extended to 64 bits (R122). -/
def immS (w : Word64) : Word64 := BitVec.signExtend 64 (BitVec.ofNat 32 (fImm32 w))

/-! ### Classes of the opcode map (Table 4.11) -/

def isScalarR (o : Nat) : Bool := decide (o ≤ 0x0E)
def isScalarI (o : Nat) : Bool := decide (0x10 ≤ o ∧ o ≤ 0x1E)
def isVectorR (o : Nat) : Bool := decide (0x20 ≤ o ∧ o ≤ 0x3A)
/-- Offsets of Table 4.13 that have an I form. -/
def vectorIOffsets : List Nat := [0x00, 0x01, 0x02, 0x06, 0x07, 0x0B, 0x0C, 0x0D, 0x0F, 0x10, 0x17]
def isVectorI (o : Nat) : Bool := decide (0x40 ≤ o) && vectorIOffsets.contains (o - 0x40)
def isMem (o : Nat) : Bool := decide (0x60 ≤ o ∧ o ≤ 0x65)
def isAtomic (o : Nat) : Bool := decide (0x70 ≤ o ∧ o ≤ 0x7A)
def isLock (o : Nat) : Bool := decide (0x7B ≤ o ∧ o ≤ 0x7C)
def isSystem (o : Nat) : Bool := decide (0x80 ≤ o ∧ o ≤ 0x87)
def isControl (o : Nat) : Bool := decide (0x90 ≤ o ∧ o ≤ 0x98)
def isShuffle (o : Nat) : Bool := decide (0xA0 ≤ o ∧ o ≤ 0xA7)
def isPredOp (o : Nat) : Bool := decide (0xA8 ≤ o ∧ o ≤ 0xAB)
def isStoker (o : Nat) : Bool := decide (0xB0 ≤ o ∧ o ≤ 0xB5)
def isMatrix (o : Nat) : Bool := decide (0xC0 ≤ o ∧ o ≤ 0xC3)

/-- Whether an opcode is allocated (R121). -/
def allocated (o : Nat) : Bool :=
  isScalarR o || isScalarI o || isVectorR o || isVectorI o || isMem o || isAtomic o || isLock o || isSystem o ||
    isControl o || isShuffle o || isPredOp o || isStoker o || isMatrix o

/-- The group-wide classes (R117). -/
def groupWide (o : Nat) : Bool := isScalarR o || isScalarI o || isSystem o || isControl o || isStoker o || isMatrix o

/-! ### Element types (Table 4.10) -/

/-- Registers per lane of a type. -/
def typeRegs (t : Nat) : Nat := if t = 4 ∨ t = 5 ∨ t = 6 then 2 else 1

/-- Width of one element. -/
def elemWidth (t : Nat) : Nat := if t = 4 ∨ t = 5 ∨ t = 6 then 64 else if t = 7 ∨ t = 8 then 16 else if t = 9 ∨ t = 10 then 8 else 32

/-- Elements held in one lane's register or pair. -/
def elemCount (t : Nat) : Nat := if t = 7 ∨ t = 8 then 2 else if t = 9 ∨ t = 10 then 4 else 1

/-- The float format of a type, none for integers. -/
def typeFmt (t : Nat) : Option FFmt :=
  if t = 3 then some fmtF32 else if t = 4 then some fmtF64 else if t = 7 then some fmtF16 else if t = 8 then some fmtBf16
  else if t = 9 then some fmtE4M3 else if t = 10 then some fmtE5M2 else none

def isFloatT (t : Nat) : Bool := t == 3 || t == 4 || t == 7 || t == 8
def isIntT (t : Nat) : Bool := t == 1 || t == 2 || t == 5 || t == 6
def isSignedT (t : Nat) : Bool := t == 2 || t == 6

/-- Types that Table 4.13 lists for the instruction at an offset. -/
def typeListed (off t : Nat) : Bool :=
  match off with
  | 0x00 | 0x01 | 0x02 | 0x06 | 0x07 | 0x15 | 0x16 => isIntT t || isFloatT t
  | 0x03 => isFloatT t
  | 0x04 | 0x05 => t == 3 || t == 4
  | 0x08 | 0x09 => t == 2 || t == 6 || isFloatT t
  | 0x0A => decide (t ≤ 10)
  | 0x0B | 0x0C | 0x0D | 0x0E => decide (t ≤ 2)
  | 0x0F | 0x10 | 0x11 => isIntT t
  | 0x12 | 0x13 | 0x17 | 0x18 | 0x19 => t == 0 || t == 5
  | 0x14 => decide (t ≤ 8)
  | 0x1A => t == 0
  | _ => false

/-- Type of a vector instruction's operands: TYPE, or ITYPE in an I form (R120). -/
def vecType (w : Word64) : Nat := if isVectorI (fOpcode w) then fTop3 w else fType w

/-- Offset in Table 4.13. -/
def vecOff (w : Word64) : Nat := if isVectorI (fOpcode w) then fOpcode w - 0x40 else fOpcode w - 0x20

/-- Values that each lane converts: those of the side with more values per register (R125; log 15 for pairs of types where
neither side is e4m3x4 or e5m2x4). -/
def cvtCount (a b : Nat) : Nat := max (elemCount a) (elemCount b)

/-- Registers that the side of type `t` occupies when the other side is of type `other` (R125). -/
def cvtRegs (t other : Nat) : Nat := cvtCount t other * elemWidth t / 32

/-! ### What the decoder finds (R113, R118, R124, R129, R131, R134) -/

/-- Whether a guard field is one the word may not have (R116, R117, R118). -/
def badGuard (w : Word64) : Bool :=
  decide (1 ≤ fGuard w ∧ fGuard w ≤ 7) || (groupWide (fOpcode w) && (fGuard w != 0 || fGneg w))

/-- Bytes per lane of a SIZE code of the M format. -/
def mBytes (w : Word64) : Nat := 2 ^ fMsize w

/-- Vector registers that the word names: first register and count. -/
def vregsNamed (w : Word64) : List (Nat × Nat) :=
  let o := fOpcode w
  if isVectorR o then
    let off := vecOff w
    let t := fType w
    let r := typeRegs t
    let src (f : Nat) (sc : Bool) (n : Nat) : List (Nat × Nat) := if sc then [] else [(f, n)]
    if off = 0x0A then
      let u := fC w % 16
      (fD w, cvtRegs u t) :: src (fA w) (fAS w) (cvtRegs t u)
    else if off = 0x15 then src (fA w) (fAS w) r ++ src (fB w) (fBS w) r
    else if off = 0x18 then [(fD w, r)]
    else if off = 0x19 then src (fA w) (fAS w) r ++ (if fBS w then [] else [(fB w, 1)])
    else if off = 0x1A then [(fD w, 1)]
    else
      let d := (fD w, r) :: src (fA w) (fAS w) r
      let two := [0x00, 0x01, 0x02, 0x03, 0x04, 0x06, 0x07, 0x0B, 0x0C, 0x0D, 0x0F, 0x10, 0x11, 0x14].contains off
      d ++ (if two then src (fB w) (fBS w) r else []) ++ (if off = 0x03 then src (fC w) (fCS w) r else [])
  else if isVectorI o then
    if vecOff w = 0x17 then [(fD w, 1)] else [(fD w, 1), (fA w, 1)]
  else if isMem o then
    let n := if o ≤ 0x61 then (if fMsize w ≤ 2 then 1 else if fMsize w = 3 then 2 else 4) else 1
    (fD w, n) :: (if fAmode w = 1 then [(fVoff w, 1)] else if fAmode w = 2 then [(fVoff w, 2)] else [])
  else if isAtomic o || isLock o then
    let n := if fAsize w = 1 then 2 else 1
    let regs := if o = 0x7C then [] else [(fD w, n)]
    let ops := if isLock o then [] else (fVB w, n) :: (if o = 0x7A then [(fVC w, n)] else [])
    regs ++ ops ++ (if fAmode w = 1 then [(fVoff w, 1)] else if fAmode w = 2 then [(fVoff w, 2)] else [])
  else if isControl o then
    if o = 0x93 ∨ o = 0x94 then [(fLink w, 2)] else []
  else if isShuffle o then
    if o ≤ 0xA3 then (fD w, 1) :: (if fAS w then [] else [(fA w, 1)]) ++ (if fBS w then [] else [(fB w, 1)])
    else if o = 0xA6 then [(fA w, 1)] else []
  else []

/-- A register field whose number is not a multiple of the operand's register count (R113, R125, R145). `acc.zero` reads no descriptor, so its SA
is ignored (DESIGN CHOICE, log 104). -/
def misaligned (w : Word64) : Bool :=
  let o := fOpcode w
  (vregsNamed w).any (fun p => p.1 % p.2 != 0) ||
    (o == 0x2A && fAS w && fA w % ((cvtRegs (fType w) (fC w % 16) + 1) / 2) != 0) ||
    (isMatrix o && o != 0xC1 && fX21 w % 2 == 1) || (o == 0xC0 && fX27 w % 2 == 1)

/-- A code that the instruction does not accept (R118, R120, R124, R125, R129, R131, R134, R142). DESIGN CHOICE (log 104): `vote.*` and `p.*`
accept every code of TYPE, which they do not use. -/
def badCode (w : Word64) : Bool :=
  let o := fOpcode w
  if o = 0x0E then decide (8 ≤ fC w % 16)
  else if isVectorR o then
    let off := vecOff w
    !(typeListed off (fType w)) ||
      (off == 0x0A && (decide (11 ≤ fC w % 16) || (fTop3 w == 4 && !(fBS w)))) ||
      (off == 0x15 && decide (8 ≤ fC w % 16)) ||
      (off == 0x16 && (decide (6 ≤ fC w % 8) || (decide (3 ≤ fC w % 8) && isFloatT (fType w))))
  else if isVectorI o then decide (4 ≤ fTop3 w) || (vecOff w != 0x17 && !(typeListed (vecOff w) (fTop3 w)))
  else if isMem o then
    decide (5 ≤ fMsize w) ||
      (if o = 0x60 then fMorder w == 2 || fMorder w == 3 else fMorder w == 1 || fMorder w == 3) ||
      (fMorder w == 0 && fMscope w != 0) ||
      (decide (o = 0x62 ∨ o = 0x63) && fMsize w != 1) || (decide (o = 0x64 ∨ o = 0x65) && fMsize w != 0) ||
      (decide (0x62 ≤ o) && fTop3 w == 4 && fMspace w != 2)
  else if isLock o then fAsize w != 1 || fAscope w != 0 || fAorder w != 0
  else if o = 0x80 then fSorder w == 0
  else if o = 0x85 then decide (7 ≤ fSel w)
  else if isShuffle o then decide (o ≤ 0xA3) && fType w != 0
  else false

/-- A word that raises cause 0x44 (R113, R118). -/
def illegalWord (w : Word64) : Bool := !(allocated (fOpcode w)) || badGuard w || badCode w || misaligned w

/-- A register or tile beyond the gang's allocation (R80, R113). -/
def beyond (v tiles : Nat) (w : Word64) : Bool :=
  (vregsNamed w).any (fun p => decide (v < p.1 + p.2)) || (isMatrix (fOpcode w) && decide (tiles ≤ fTop3 w))

/-- A scope that the addressed space does not support, or an atomic or lock where there is none (R129, R133): cause 0x49. -/
def badScope (w : Word64) : Bool :=
  let o := fOpcode w
  if isMem o then
    if fMorder w = 0 then false
    else match fMspace w with
      | 0 => decide (2 ≤ fMscope w)
      | 1 => fMscope w == 3
      | 2 => false
      | _ => fMscope w != 3
  else if isAtomic o then fAspace w == 0 || fAspace w == 3 || fAscope w == 3
  else if isLock o then fAspace w == 0 || fAspace w == 3
  else false

/-- Bits that stand in a field marked reserved (R8, R43, R119, R122): a word that has one has unpredictable results. PD of `lock.acq` is taken as
reserved (DESIGN CHOICE, log 104). -/
def reservedBits (w : Word64) : Bool :=
  let o := fOpcode w
  let hi6 (x : Nat) : Bool := decide (64 ≤ x)
  let hi3 (x : Nat) : Bool := decide (8 ≤ x)
  if isScalarR o then
    fTop3 w != 0 || fType w != 0 || decide (bits w.toNat 63 52 ≠ 0) || hi6 (fA w) ||
      (if o = 0x0E then hi3 (fD w) || hi6 (fB w) else hi6 (fD w) || (o != 0x0D && hi6 (fB w)))
  else if isScalarI o then
    fTop3 w != 0 || hi6 (fD w) || (decide (o ≤ 0x1C) && hi6 (fA w))
  else if isVectorR o then
    let off := vecOff w
    let float := isFloatT (fType w) || off == 0x0A
    decide (bits w.toNat 63 55 ≠ 0) || (!float && fTop3 w != 0) || decide (5 ≤ fTop3 w) ||
      (off != 0x0A && fTop3 w == 4) || (fAS w && hi6 (fA w)) || (fBS w && hi6 (fB w)) || (fCS w && hi6 (fC w)) ||
      (off == 0x15 && hi3 (fD w)) || (off == 0x14 && hi3 (fC w)) || (off == 0x18 && hi6 (fA w)) || (off == 0x19 && hi6 (fD w))
  else if isVectorI o then vecOff w == 0x17 && fA w != 0
  else if isMem o then
    fAmode w == 3 || (if o ≤ 0x61 then fTop3 w != 0 else decide (5 ≤ fTop3 w))
  else if isAtomic o || isLock o then
    w.toNat.testBit 63 || fAmode w == 3 || (o != 0x7A && o != 0x7C && fTop3 w != 0) ||
      (isLock o && (fVB w != 0 || fVC w != 0))
  else if isSystem o || isStoker o then decide (bits w.toNat 63 46 ≠ 0)
  else if isControl o then
    w.toNat.testBit 63 || (decide (o = 0x93 ∨ o = 0x94) && decide (bits w.toNat 62 48 ≠ 0)) ||
      (o == 0x95 && decide (bits w.toNat 62 46 ≠ 0))
  else if isShuffle o || isPredOp o then
    decide (bits w.toNat 63 55 ≠ 0) || fTop3 w != 0 || (fBS w && hi6 (fB w)) || (decide (o ≤ 0xA3) && fAS w && hi6 (fA w)) ||
      (decide (o = 0xA4 ∨ o = 0xA5) && (hi3 (fA w) || hi3 (fD w))) || (o == 0xA6 && hi3 (fD w)) ||
      (o == 0xA7 && (hi3 (fA w) || hi6 (fD w))) ||
      (isPredOp o && (hi3 (fA w) || hi3 (fD w) || (o != 0xAB && hi3 (fB w))))
  else if isMatrix o then
    decide (bits w.toNat 63 40 ≠ 0) || (o != 0xC0 && fX27 w != 0) || (o == 0xC0 && fKblk w == 0) ||
      (o == 0xC3 && decide (5 ≤ fXrm w))
  else false

/-! ### Registers of a group (R79, R112) -/

namespace Group

/-- Scalar register. -/
def sreg (t : Group) (r : Nat) : Word64 := sget (fun _ => 0) t.sregs (r % 64)

def setS (t : Group) (r : Nat) (v : Word64) : Group := { t with sregs := sput (fun _ => 0) t.sregs (r % 64) v }

/-- Vector register of a lane. -/
def vreg (t : Group) (r i : Nat) : Word32 := sget (fun _ => 0) t.vregs (r * 32 + i)

def setV (t : Group) (r i : Nat) (v : Word32) : Group := { t with vregs := sput (fun _ => 0) t.vregs (r * 32 + i) v }

/-- A predicate in its 32 lanes; its value at gang start is free (log 9). -/
def preg (t : Group) (p : Nat) : LaneMask :=
  sget (fun k => BitVec.ofNat 32 (Config.freeNat (t.predBase + k))) t.preds (p % 8)

end Group

/-- Writing an entry of a sorted list that keeps every entry written. -/
def lput {α : Type} : List (Nat × α) → Nat → α → List (Nat × α)
  | [], a, v => [(a, v)]
  | (k, w) :: l, a, v => if a < k then (a, v) :: (k, w) :: l else if a = k then (a, v) :: l else (k, w) :: lput l a v

namespace Group

def setP (t : Group) (p : Nat) (v : LaneMask) : Group := { t with preds := lput t.preds (p % 8) v }

/-- `n` registers of a lane from `r` on, as one number. -/
def vregs' (t : Group) (r i : Nat) : Nat → Nat
  | 0 => 0
  | n + 1 => (t.vreg r i).toNat + 2 ^ 32 * vregs' t (r + 1) i n

/-- Writing `n` registers of a lane. -/
def setVs (t : Group) (r i : Nat) : Nat → Nat → Group
  | 0, _ => t
  | n + 1, v => (t.setV r i (BitVec.ofNat 32 v)).setVs (r + 1) i n (v / 2 ^ 32)

end Group

/-- Scalar registers from `r` on, `n` of them, as one number (R125). -/
def sregsNat (t : Group) (r : Nat) : Nat → Nat
  | 0 => 0
  | n + 1 => (t.sreg r).toNat + 2 ^ 64 * sregsNat t (r + 1) n

/-- A source operand of `n` registers in a lane: vector registers, or scalar registers given to every lane (Table 4.3). -/
def srcOperand (t : Group) (r : Nat) (scalar : Bool) (i n : Nat) : Nat :=
  if scalar then sregsNat t r ((n + 1) / 2) % 2 ^ (32 * n) else t.vregs' r i n

/-! ### Lanes -/

/-- The lanes of a mask, ascending. -/
def lanesOf (m : LaneMask) : List Nat := (List.range 32).filter fun i => m.toNat.testBit i

/-- A mask from a test on lanes. -/
def maskOf (p : Nat → Bool) : LaneMask := BitVec.ofNat 32 ((List.range 32).foldl (fun a i => if p i then a + 2 ^ i else a) 0)

/-- The lanes whose guard is true (R114, R116). -/
def guardMask (t : Group) (w : Word64) : LaneMask :=
  if fGuard w = 0 then BitVec.allOnes 32
  else if fGneg w then ~~~(t.preg (fGuard w - 8)) else t.preg (fGuard w - 8)

/-- The lanes in which a per-lane instruction acts (R114). -/
def actMask (t : Group) (p : Path) (w : Word64) : LaneMask := if groupWide (fOpcode w) then p.mask else p.mask &&& guardMask t w

/-- Merge new predicate bits into the lanes of a mask. -/
def mergeP (old new m : LaneMask) : LaneMask := (old &&& ~~~m) ||| (new &&& m)

/-- A write of one value per lane to registers from `r` on. -/
def writeLanes (t : Group) (r n : Nat) (ls : List Nat) (f : Nat → Nat) : Group :=
  ls.foldl (fun t i => t.setVs r i n (f i)) t

end Sys2Proof.Machine
end

