-- ==== Sys2Proof/Machine/Flags.lean ====
section
/-! DEFINITION. Flags.lean: there are no flag registers (R112); conditions live in predicates. Here stand the condition codes of
Table 4.12, the per-lane arithmetic conditions of the trap (R53), and the integer results that depend on signedness. -/

namespace Sys2Proof.Machine

/-! ### Condition codes (Table 4.12) -/

/-- A condition on two integers. Codes 6 and 7 ask for a NaN operand, which an integer never is. -/
def condInt (c : Nat) (a b : Int) : Bool :=
  match c with
  | 0 => decide (a = b)
  | 1 => decide (a ≠ b)
  | 2 => decide (a < b)
  | 3 => decide (a ≤ b)
  | 4 => decide (a > b)
  | 5 => decide (a ≥ b)
  | 6 => false
  | _ => true

/-- A condition on two floating-point values (Table 4.12, third column for a NaN). -/
def condF (c : Nat) (a b : FVal) : Bool :=
  let un := a == .nan || b == .nan
  match c with
  | 0 => eqF a b
  | 1 => un || !(eqF a b)
  | 2 => ltF a b
  | 3 => ltF a b || eqF a b
  | 4 => ltF b a
  | 5 => ltF b a || eqF a b
  | 6 => un
  | _ => !un

/-! ### Elements of a lane's operand -/

/-- Element `j` of width `w` of an operand. -/
def elemOf (w j v : Nat) : Nat := v / 2 ^ (w * j) % 2 ^ w

/-- Elements of width `w` packed, the first lowest. -/
def packElems (w : Nat) : List Nat → Nat
  | [] => 0
  | x :: xs => x % 2 ^ w + 2 ^ w * packElems w xs

/-- An integer element as a number by the type's signedness. -/
def intVal (t v : Nat) : Int := if isSignedT t then signedN (elemWidth t) v else (v % 2 ^ elemWidth t : Nat)

/-- A number as an element: it wraps modulo 2^width (R124). -/
def wrapElem (t : Nat) (i : Int) : Nat := (i % 2 ^ elemWidth t).toNat

/-! ### Arithmetic conditions of an instruction (R53) -/

/-- Lanes that raised IEEE invalid operation and lanes that raised overflow. -/
structure Raised where
  invalid : List Nat := []
  overflow : List Nat := []
  deriving DecidableEq, Repr

/-- Add what a lane's rounded results raised. -/
def Raised.add (r : Raised) (i : Nat) (rs : List Rounded) : Raised :=
  { invalid := if rs.any (·.invalid) then addNew i r.invalid else r.invalid,
    overflow := if rs.any (·.overflow) then addNew i r.overflow else r.overflow }

/-- The arithmetic trap: its cause by the lowest faulting lane, with every lane that raised either condition (R53). -/
def Raised.trap (r : Raised) : Option (Nat × LaneMask) :=
  let m := maskOf fun i => r.invalid.contains i || r.overflow.contains i
  match lanesOf m with
  | [] => none
  | i :: _ => some (if r.invalid.contains i then 0x4A else 0x4B, m)

/-! ### Integer counts -/

/-- Leading zeros of a value of `w` bits. -/
def clzN (w v : Nat) : Nat := if v % 2 ^ w = 0 then w else w - 1 - Nat.log2 (v % 2 ^ w)

end Sys2Proof.Machine
end

