-- ==== Sys2Proof/Machine/Issue.lean ====
section
/-! DEFINITION. Issue.lean: how a group issues an instruction. Placement of gangs on cores (R76, R77, R276), paths and joins
(R85 to R89), the gang barrier (R140), raising a fault (R103, R105), and whether a group may issue. -/

namespace Sys2Proof.Machine

/-! ### Placement of gangs -/

/-- The flat core numbers of a list of flat rows (die × 12 + row), ascending (R11). -/
def coresOf (rows : List Nat) : List Nat := rows.flatMap fun r => (List.range 13).map fun c => r * 13 + c

/-- The cores of a launch that its rows offer for placement: a dead core is none (R357). -/
def coresFor (s : State) (rows : List Nat) : List Nat := (coresOf rows).filter fun c => !(s.core c).dead

/-- Whether a launch's gangs stand on their cores. -/
def onCores (l : Launch) : Bool := l.phase == .resident || l.phase == .saving || l.phase == .restoring

/-- The gangs on a core, each with its launch. -/
def gangsOn (s : State) (c : Nat) : List (Launch × Gang) :=
  (s.launches.filter onCores).flatMap fun l => (l.live.filter fun g => g.core == c).map fun g => (l, g)

/-- Slots of a quadrant in use on a core. -/
def slotsUsed (s : State) (c q : Nat) : List Nat :=
  (gangsOn s c).flatMap fun p => (p.2.groups.filter fun t => t.quad == q).map (·.slot)

/-- Groups of a gang of `n` that stand on quadrant `q` (R77). -/
def quadNeed (n q : Nat) : Nat := (n + 3 - q) / 4

/-- Whether every resource that a gang of the launch declares is free on a core (R76 to R78, Tables 3.2 and 3.3). -/
def roomOn (s : State) (l : Launch) (c : Nat) : Bool :=
  let on := gangsOn s c
  let sum (f : Launch → Nat) : Nat := (on.map fun p => f p.1).foldl (· + ·) 0
  (List.range 4).all (fun q =>
      decide ((slotsUsed s c q).length + quadNeed l.groups q ≤ 8) &&
        decide ((on.map fun p => quadNeed p.1.groups q * (p.1.vregs / 8)).foldl (· + ·) 0 + quadNeed l.groups q * (l.vregs / 8) ≤ 64)) &&
    decide (sum (·.spad) + l.spad ≤ 2 ^ 21) && decide (sum (·.tiles) + l.tiles ≤ 8) &&
    decide (sum (·.streams) + l.streams ≤ 16)

/-- Whether a gang of the launch may be placed on a core: it is neither dead nor being replaced, and has room. -/
def fits (s : State) (l : Launch) (c : Nat) : Bool := !(s.core c).dead && !(s.core c).replacing && roomOn s l c

/-- Lowest slot of 0 to 7 that is not listed. -/
def lowestFree (used : List Nat) : Nat := ((List.range 8).find? fun x => !(used.contains x)).getD 8

/-- The groups of a gang as they start: quadrant g mod 4, lowest free slot, one path of 32 lanes at ENTRY (R77, R85, R303). -/
def startGroups (s : State) (l : Launch) (c : Nat) : List Group :=
  (List.range l.groups).foldl (fun (acc : List Group) i =>
    let q := i % 4
    let used := slotsUsed s c q ++ (acc.filter fun t => t.quad == q).map (·.slot)
    acc ++ [{ idx := i, quad := q, slot := lowestFree used, sregs := l.sinit, predBase := s.free + 8 * i,
              cur := some { pc := l.entry, mask := BitVec.allOnes 32 } }]) []

/-- Starting the launch's next gang on a core: registers and scratchpad cleared, tiles and predicates free (R81, log 9); its
start acts as an acquire at device scope (R170). -/
def startGang (s : State) (l : Launch) (c : Nat) : State :=
  let gs := startGroups s l c
  let s := s.useFree (8 * l.groups)
  let g : Gang := { idx := l.nextGang, core := c, groups := gs,
                    tiles := (List.range l.tiles).map fun i => { base := s.free + 4096 * i } }
  let s := s.useFree (4096 * l.tiles)
  applyInv (s.setLaunch { l with nextGang := l.nextGang + 1, live := l.live ++ [g] }) c

/-- Place the next gangs of a resident launch while one fits: in gang-index order on core g mod n of the launch's cores with
determinism mask bit [3], on any core where it fits without it (R71, R276). DESIGN CHOICE (log 21): with bit [3] clear, too, the gangs
start in gang-index order, which R276 leaves open. -/
def placeGangs (ctx : Nat) : Nat → State → State
  | 0, s => s
  | k + 1, s =>
    match s.launch? ctx with
    | none => s
    | some l =>
      if l.phase != .resident || l.killed || l.gangs ≤ l.nextGang then s
      else
        let cs := coresFor s l.rows
        if (s.getObj (Obj.detMask l.slice)).testBit 3 then
          let c := cs.getD (l.nextGang % cs.length) 0
          if !cs.isEmpty && fits s l c then placeGangs ctx k (startGang s l c) else s
        else
          let cand := cs.filter (fits s l)
          if cand.isEmpty then s
          else placeGangs ctx k (startGang (s.useFree 1) l (cand.getD (s.freeVal % cand.length) 0))

/-- Place what fits of a launch. -/
def placeAll (s : State) (ctx : Nat) : State :=
  match s.launch? ctx with
  | none => s
  | some l => placeGangs ctx (l.gangs - l.nextGang) s

/-- Place what fits of every launch of a slice, in the order of their launch. -/
def placeSlice (s : State) (n : Nat) : State :=
  ((s.launches.filter fun l => l.slice == n).map (·.ctx)).foldl placeAll s

/-! ### Finding and writing back a group -/

/-- A group where it runs. -/
structure Here where
  l : Launch
  g : Gang
  t : Group
  p : Path
  deriving DecidableEq, Repr

def findGang (l : Launch) (i : Nat) : Option Gang := l.live.find? fun g => g.idx == i

def findGroup (g : Gang) (i : Nat) : Option Group := g.groups.find? fun t => t.idx == i

/-- Change a gang of a launch. -/
def updGang (s : State) (ctx gang : Nat) (f : Gang → Gang) : State :=
  { s with launches := mapIf (fun l => l.ctx == ctx) (fun l => { l with live := mapIf (fun g => g.idx == gang) f l.live }) s.launches }

/-- Write a group back. -/
def setGroup (s : State) (r : GroupRef) (t : Group) : State :=
  updGang s r.ctx r.gang fun g => { g with groups := g.groups.map fun u => if u.idx = r.group then t else u }

/-- Change a launch. -/
def updLaunch (s : State) (ctx : Nat) (f : Launch → Launch) : State :=
  { s with launches := mapIf (fun l => l.ctx == ctx) f s.launches }

/-! ### Paths and joins (R85 to R89) -/

/-- R87: every queued path runs except one parked at the barrier and one within 32 cycles of its pause. -/
def runnable (p : Path) : Bool := !p.parked && !p.paused

/-- The first runnable path of the queue and the rest. -/
def takeRunnable : List Path → Option (Path × List Path)
  | [] => none
  | p :: l => if runnable p then some (p, l) else (takeRunnable l).map fun x => (x.1, p :: x.2)

/-- With no current path, the first runnable path in queue order becomes current. -/
def switchPath (t : Group) : Group :=
  match takeRunnable t.queue with
  | some (p, q) => { t with cur := some p, queue := q }
  | none => { t with cur := none }

/-- A join whose arrived mask equals its expected mask: it is freed, and a path with the arrived mask forms at the rpc (none
when no lane is left). -/
def completeJoin (t : Group) : Option Group :=
  match t.joins.find? fun j => j.arrived == j.expected with
  | none => none
  | some j =>
    let t := { t with joins := t.joins.filter fun x => x.id != j.id }
    if j.arrived = 0 then some t
    else
      let q := match t.cur with
        | some p => t.queue ++ [p]
        | none => t.queue
      some { t with cur := some { pc := j.rpc, mask := j.arrived, join := j.parent }, queue := q }

/-- The joins that complete after an arrival or an exit, one after another; then the first runnable path when none is current. -/
def afterRemoval : Nat → Group → Group
  | 0, t => t
  | k + 1, t =>
    match completeJoin t with
    | some t => if t.cur.isSome then t else afterRemoval k t
    | none => switchPath t

/-- R87: whether the current path stands at the rpc of its join. -/
def atRpc (t : Group) : Option Join :=
  match t.cur with
  | none => none
  | some p => match p.join with
    | none => none
    | some j => t.joins.find? fun x => x.id == j && x.rpc == p.pc

/-- Arrivals of the current path, until the current path is not at its join's rpc; `fuel` bounds the joins. -/
def settle : Nat → Group → Group
  | 0, t => t
  | k + 1, t =>
    match t.cur, atRpc t with
    | some p, some j =>
      let t := { t with cur := none, joins := t.joins.map fun x => if x.id = j.id then { x with arrived := x.arrived ||| p.mask } else x }
      settle k (afterRemoval (t.joins.length + 1) t)
    | _, _ => t

/-- Enough fuel for `settle`: every path and join arrives at most once. -/
def settled (t : Group) : Group := settle (2 * t.joins.length + t.queue.length + 2) t

/-- Whether every lane of a group has exited. -/
def groupExited (t : Group) : Bool := t.cur.isNone && t.queue.isEmpty && t.joins.isEmpty

/-- R87 exit: the current path is removed and its lanes leave every join. -/
def exitPath (t : Group) : Group :=
  match t.cur with
  | none => t
  | some p =>
    let t := { t with cur := none, joins := t.joins.map fun j => { j with expected := j.expected &&& ~~~p.mask } }
    settled (afterRemoval (t.joins.length + 1) t)

/-- A path becomes runnable elsewhere: a blocked group takes the first runnable path; a lone paused path gives way (R88). -/
def wakeGroup (t : Group) : Group :=
  match t.cur with
  | none => settled (switchPath t)
  | some p =>
    if runnable p then t
    else match takeRunnable t.queue with
      | some (q, rest) => settled { t with cur := some q, queue := rest ++ [p] }
      | none => t

/-- Append the current path to the queue tail and switch. -/
def yieldPath (t : Group) (p : Path) : Group := settled (switchPath { t with cur := none, queue := t.queue ++ [p] })

/-! ### The gang barrier (R140) -/

/-- Lanes of a group that have not exited: on a path or waiting at a join. -/
def liveLanes (t : Group) : LaneMask :=
  let ps := match t.cur with
    | some p => p :: t.queue
    | none => t.queue
  t.joins.foldl (fun m j => m ||| j.arrived) (ps.foldl (fun m p => m ||| p.mask) 0)

/-- Lanes parked at the barrier. -/
def parkedLanes (t : Group) : LaneMask := (t.queue.filter (·.parked)).foldl (fun m p => m ||| p.mask) 0

/-- A group that has arrived: every lane that has not exited is parked. -/
def arrivedAtBar (t : Group) : Bool := liveLanes t == parkedLanes t

/-- When every non-exited group has arrived, every parked path becomes runnable. -/
def barrier (g : Gang) : Gang :=
  if (g.groups.any fun t => parkedLanes t != 0) && g.groups.all (fun t => groupExited t || arrivedAtBar t) then
    { g with groups := g.groups.map fun t =>
        if groupExited t then t else wakeGroup { t with queue := t.queue.map fun p => { p with parked := false } } }
  else g

/-! ### The end of a gang -/

/-- Whether the matrix queue of a core holds work of a gang. -/
def matrixBusy (s : State) (ctx gang core : Nat) : Bool := (s.core core).mq.any fun e => e.g.ctx == ctx && e.g.gang == gang

/-- When the last group of a gang exits, its streams stop (R100). Once its matrix work is done too, its resources are free and
the launch's next gangs are placed. -/
def reapGangs (s : State) (ctx : Nat) : State :=
  match s.launch? ctx with
  | none => s
  | some l =>
    let done (g : Gang) : Bool := g.groups.all groupExited
    let live := (l.live.filter fun g => !(done g && !(matrixBusy s ctx g.idx g.core))).map
      fun g => if done g then { g with streams := [] } else g
    placeSlice (placeAll (s.setLaunch { l with live := live }) ctx) l.slice

/-! ### Faults (R101 to R105) -/

/-- Step 1 of Table 3.9: the core stops issue for the launch, and the report is on its way. Once a kill is under way nothing more
is reported (R105). -/
def raiseFault (s : State) (ctx core : Nat) (f : FaultInfo) : State :=
  updLaunch s ctx fun l =>
    if l.killed then l
    else { l with reports := l.reports ++ [{ f with core := core, tick := s.tick, time := s.now }], stopped := addNew core l.stopped }

/-- A fault of a group's instruction (Table 3.10, SOURCE 0). -/
def groupFault (h : Here) (cause : Nat) (lanes : LaneMask) (addr info : Word64) : FaultInfo :=
  { cause := cause, source := 0, quad := h.t.quad, slot := h.t.slot, unit := h.t.idx, gang := h.g.idx, lanes := lanes,
    pc := h.p.pc, addr := addr, info := info }

/-! ### The group that a command names -/

/-- The group that a command names, if it can issue now: its launch resident and not killed, its core not stopped or dead, its
current path runnable. -/
def here? (s : State) (r : GroupRef) : Option Here :=
  match s.launch? r.ctx with
  | none => none
  | some l => match findGang l r.gang with
    | none => none
    | some g => match findGroup g r.group with
      | none => none
      | some t => t.cur.map fun p => { l := l, g := g, t := t, p := p }

/-- Whether a group may issue (R82, R103, R278). -/
def mayIssue (s : State) (h : Here) : Bool :=
  h.l.phase == .resident && !h.l.killed && !(h.l.stopped.contains h.g.core) && !(s.core h.g.core).hung && runnable h.p

end Sys2Proof.Machine
end

