-- ==== Sys2Proof/Machine/Net.lean ====
section
/-! DEFINITION. Net.lean: reaching other modules, and being reached. Global addresses (R10, R157), export windows (R158, R312),
path contexts and numbered frames (R321 to R325), routes (R333), and the write-combining buffers (R314, R315). -/

namespace Sys2Proof.Machine

/-! ### Global addresses (R10) -/

def gModule (a : Nat) : Nat := bits a 63 46
def gClass (a : Nat) : Nat := bits a 45 44
def gOffset (a : Nat) : Nat := bits a 43 0

/-- A global address from its parts. -/
def gAddr (m c off : Nat) : Nat := m * 2 ^ 46 + c * 2 ^ 44 + off

/-! ### Routes (Table 11.6) -/

/-- The logical port that frames to a module leave by: the primary where usable, else the alternate. -/
def routeOf (s : State) (dst : Nat) : Option Nat :=
  let e := sget (fun _ => 0) s.net.routes dst
  if bitN e 6 then some (bits e 5 0) else if bitN e 14 then some (bits e 13 8) else none

/-- Whether the next hop toward a module by a port is directly attached (R325): as its route entry says, where it names the port. -/
def routeDirect (s : State) (q dst : Nat) : Bool :=
  let e := sget (fun _ => 0) s.net.routes dst
  if bitN e 6 && bits e 5 0 == q then bitN e 7 else if bitN e 14 && bits e 13 8 == q then bitN e 15 else (s.port q).direct

/-- Whether a module can be reached: the own one, or one with a route (R159). -/
def reachable (s : State) (dst : Nat) : Bool := dst == s.ownId || (routeOf s dst).isSome

/-! ### Frames -/

/-- The VLAN tag on transmit (R319). -/
def vlanTag (s : State) : Option Nat := if s.forced Obj.vlan = 0 then none else some (s.forced Obj.vlan % 4096)

/-- Whether a command's deadline class is latency-sensitive (R270). -/
def latSensitive (s : State) (ch seq : Nat) : Bool :=
  match ((s.chan ch).flight ++ (s.chan ch).fetched).find? fun c => c.seq == seq with
  | some c => s.getObj (Obj.dclassLat (bits (fieldLe c.slot 8 8) 51 48)) == 1
  | none => false

/-- Whether a frame travels as class D: a COLL, or one for a command of a latency-sensitive class, a launch's accesses with it (R322). -/
def classD (s : State) (ty : Nat) (who : FrameFor) : Bool :=
  let ofLaunch (ctx : Nat) : Bool := match s.launch? ctx with
    | some l => latSensitive s l.ch l.seq
    | none => false
  ty == 6 || (match who with
    | .device => false
    | .store g _ _ => ofLaunch g.ctx
    | .load g => ofLaunch g.ctx
    | .drain ctx _ _ _ => ofLaunch ctx
    | .cmd ch seq => latSensitive s ch seq
    | .flag ch seq => latSensitive s ch seq)

/-- The envelope of a frame of this module to another: UDP port, DSCP of its class, ECT(0), hop limit 64 and the flow label of the path
(R321, R322). -/
def envelope (s : State) (dst ty : Nat) (who : FrameFor) : Envelope :=
  { port := s.forced Obj.transportPort, dscp := if classD s ty who then bits (s.forced Obj.dscp) 5 0 else bits (s.forced Obj.dscp) 13 8,
    flow := Config.flowHash s.ownId dst % 2 ^ 20 }

/-- Bytes of a frame in a replay buffer: header, payload and CRC (log 107). -/
def frameBytes (f : TFrame) : Nat := 36 + f.payload.length

/-- Whether frames of a hop carry link retry: a direct one whose round trip, as last measured, is at most 5 µs (R325). -/
def linkRetry (s : State) (q dst : Nat) : Bool :=
  routeDirect s q dst && (match (s.port q).rtt with
    | some t => decide (t ≤ 5000)
    | none => false)

/-- The frame that goes next of those that wait at a port: the first of class D, else the first of class B (R327). -/
def nextTx (s : State) (l : List (Nat × Nat × TFrame)) : Option (Nat × Nat × TFrame) :=
  match l.find? fun x => x.2.2.ip.dscp == bits (s.forced Obj.dscp) 5 0 with
  | some x => some x
  | none => l.head?

/-- Frames that wait at a port leave, class D before class B, each numbered and kept for link replay, as far as the 1 MiB replay buffer has
room (R325, R327). -/
def drainTx (q : Nat) : Nat → State → State
  | 0, s => s
  | n + 1, s =>
    let p := s.port q
    match nextTx s p.txq with
    | none => s
    | some (dst, ty, g) =>
      let f := { g with llr := true, lseq := p.lseq }
      if 2 ^ 20 < sumNat (p.replay.map fun x => frameBytes x.2.2.2) + frameBytes f then s
      else
        let p := { p with lseq := (p.lseq + 1) % 65536, replay := p.replay ++ [(p.lseq, dst, ty, f)], txq := p.txq.erase (dst, ty, g) }
        drainTx q n ((s.setPort p).send (.trans q dst ty f))

/-- A link frame leaves (R325): LINK_ACK (8) or LINK_NAK (9) to the neighbour of a port, with the LSEQ that it names; it has no LSEQ of its
own. -/
def sendLink (s : State) (q ty lseq : Nat) : State :=
  match (s.port q).neighbour with
  | none => s
  | some m => s.send (.trans q m ty { src := s.ownId, aux := lseq, ip := { envelope s m ty .device with vlan := vlanTag s } })

/-- The port that a frame of this module leaves by: its route's; the blocks of a collective stream to a neighbour that several ports lead to
are striped over them by their number (R351, log 118). -/
def egress (s : State) (dst ty : Nat) (f : TFrame) : Option Nat :=
  let joined := s.net.ports.filter fun p => p.up && p.neighbour == some dst
  match f.blk with
  | some b => if ty = 6 ∧ 1 < joined.length then (joined[b.block % joined.length]?).map (·.q) else routeOf s dst
  | none => routeOf s dst

/-- A frame leaves (R319, R325, R333). -/
def emit (s : State) (dst ty : Nat) (f : TFrame) : State :=
  match (if f.src = s.ownId then egress s dst ty f else routeOf s dst) with
  | none => s
  | some q =>
    let f := { f with llr := false, lseq := 0, ip := { f.ip with vlan := vlanTag s } }
    if linkRetry s q dst then
      let p := s.port q
      drainTx q (p.txq.length + 1) (s.setPort { p with txq := p.txq ++ [(dst, ty, f)] })
    else s.send (.trans q dst ty f)

/-- The path context to a destination, opened at the first frame (R323). -/
def pathTo (s : State) (dst : Nat) : Option PathCtx := s.net.paths.find? fun p => p.dst == dst

/-- Whether a path is idle: nothing of it is unacknowledged, held or owed. -/
def idlePath (p : PathCtx) : Bool := p.unacked.isEmpty && p.held.isEmpty && p.owed == 0

/-- The least recently used of the idle paths of a list. -/
def oldestIdle (l : List PathCtx) : Option PathCtx :=
  (l.filter idlePath).foldl (fun b p => match b with
    | some x => if p.used < x.used then some p else some x
    | none => some p) none

/-- Open a path context: the lowest free number. With all 16,384 in use the least recently used idle one is freed; none is
opened while no context is idle. -/
def openPath (s : State) (dst : Nat) : Option (State × PathCtx) :=
  match pathTo s dst with
  | some p => some (s, p)
  | none =>
    let n := s.net.paths.length
    if n < 16384 then
      let no := ((List.range (n + 1)).find? fun i => !(s.net.paths.any fun p => p.no == i)).getD n
      let p : PathCtx := { no := no, dst := dst, used := s.now }
      some ((s.setPath p).addObj Obj.pathsLive 1, p)
    else match oldestIdle s.net.paths with
      | none => none
      | some old =>
        let p : PathCtx := { no := old.no, dst := dst, used := s.now }
        some (s.setPath p, p)

/-- Send a numbered frame on the path to a destination; it stays unacknowledged until the path says otherwise (R323, R324). -/
def sendFrame (s : State) (dst ty : Nat) (f : TFrame) (who : FrameFor) : Option State :=
  match openPath s dst with
  | none => none
  | some (s, p) =>
    let f := { f with psn := p.nextPsn, ackPsn := p.expect, src := s.ownId, path := p.no, ip := envelope s dst ty who }
    let s := s.setPath { p with nextPsn := (p.nextPsn + 1) % 2 ^ 32, used := s.now, unacked := p.unacked ++ [{ ty := ty, f := f, who := who }] }
    some (emit s dst ty f)

/-- Send an acknowledgement frame (ACK or NAK), which has no number of its own. -/
def sendAck (s : State) (p : PathCtx) (ty aux : Nat) (ece : Bool) : State :=
  emit s p.dst ty { ackPsn := p.expect, src := s.ownId, path := p.no, aux := aux, ece := ece, ip := envelope s p.dst ty .device }

/-! ### Export windows (R158, R312, R313) -/

/-- The slice, space and address that an offset of a target class reaches, if the window admits an access of `n` bytes by
module `src`. A slice that is not ACTIVE admits none (Table 13.2), but for the rest of a message that it admitted before (`going`). -/
def windowTarget (s : State) (cls off n : Nat) (write roce : Bool) (src : Nat) (going : Bool := false) : Option (Nat × Nat × Nat) :=
  let w := bits off 43 36
  let o := bits off 35 0
  let sl := s.getObj (Obj.wSlice w)
  let rights := s.getObj (Obj.wRights w)
  if s.getObj (Obj.wEnable w) = 1 ∧ cls ≤ 1 ∧ s.getObj (Obj.wKind w) = cls ∧ o + n ≤ s.getObj (Obj.wSize w) ∧
      rights.testBit (if write then 1 else 0) = true ∧ (roce = false ∨ rights.testBit 2 = true) ∧
      (rights / 8 % 2 = sliceWorld s sl) ∧ s.getObj (Obj.wPeerLo w) ≤ src ∧ src ≤ s.getObj (Obj.wPeerHi w) ∧
      (s.getObj (Obj.sState sl) = 1 ∨ (going = true ∧ s.getObj (Obj.sState sl) = 2)) ∧ s.getObj Obj.moduleState ≠ 6 then
    some (sl, if cls = 0 then 2 else 1, s.getObj (Obj.wBase w) + o)
  else none

/-- A refusal is counted at the window. -/
def refuseAt (s : State) (off : Nat) : State := s.addObj (Obj.wRefused (bits off 43 36)) 1

/-- Whether every byte of a range of a slice may be read or written now, piece by piece. -/
def spanOkGo (s : State) (m space : Nat) (write : Bool) (by_ : Asker) : Nat → Nat → Nat → Except Stop Unit
  | 0, _, _ => .ok ()
  | fuel + 1, addr, n =>
    if n = 0 then .ok ()
    else
      match (if write then writeOk s m space addr by_ else readOk s m space addr by_) with
      | .error e => .error e
      | .ok _ =>
        let c := min n (sectLeft addr)
        spanOkGo s m space write by_ fuel (addr + c) (n - c)

def spanOkBy (by_ : Asker) (s : State) (m space addr n : Nat) (write : Bool) : Except Stop Unit :=
  spanOkGo s m space write by_ (n / 64 + 2) addr n

def spanOk (s : State) (m space addr n : Nat) (write : Bool) : Except Stop Unit := spanOkBy .device s m space addr n write

/-- What became of an access at a target. -/
inductive Served (α : Type) where
  | done (s : State) (x : α)
  | refused (s : State)
  | wait (s : State)
  deriving Repr

/-- The channel that a frame was sent for. -/
def chanOfFrame (s : State) (w : FrameFor) : Option Nat :=
  match w with
  | .store g _ _ => (s.launch? g.ctx).map (·.ch)
  | .load g => (s.launch? g.ctx).map (·.ch)
  | .drain ctx _ _ _ => (s.launch? ctx).map (·.ch)
  | .cmd ch _ => some ch
  | .flag ch _ => some ch
  | .device => none

/-- Where a system-space write comes from: a host over RoCEv2 or a chiplet, another module, or a channel of this one (none: the device). -/
inductive Source where
  | host
  | module
  | local_ (ch : Option Nat)
  deriving DecidableEq, Repr

/-- A write that came in through a window into a banked region is counted for the lock sets that bank it, where it came from outside that lock
set (Table 12.4): a host's did, this module's own by its channel; of another module's no state tells, so it is a free choice (log 46). -/
def noteExternal (s : State) (src : Source) (sl sp a : Nat) : State :=
  if sp ≠ 2 ∨ inBanked s sl a = false then s
  else (bankersOf s sl).foldl (fun s k =>
    let x := s.lockSet k
    match src with
    | .host => s.setLockSet { x with ext := x.ext + 1 }
    | .module => (s.useFree 1).setLockSet { x with ext := x.ext + s.freeVal % 2 }
    | .local_ none => s
    | .local_ (some ch) => if lsOf s ch = some k then s else s.setLockSet { x with ext := x.ext + 1 }) s

/-- A system-space write performed at this module for module `src`: whole or not at all, in one event at any length (log 121), and cached
nowhere (R160). -/
def serveWrite (s : State) (src addr : Nat) (bs : List Byte) (roce : Bool) (from_ : Source) (going : Bool := false) : Served Unit :=
  match windowTarget s (gClass addr) (gOffset addr) bs.length true roce src going with
  | none => .refused (refuseAt s (gOffset addr))
  | some (sl, sp, a) =>
    match spanOk s sl sp a bs.length true with
    | .error (.wait s) => .wait s
    | .error _ => .refused (refuseAt s (gOffset addr))
    | .ok () => .done (noteExternal ((writeRunAs .nothing none .device s sl sp a bs).1.addObj (Obj.sysBytesIn sl) bs.length) from_ sl sp a) ()

/-- A system-space read performed at this module for module `src`, cached nowhere (R160). -/
def serveRead (s : State) (src addr n : Nat) (roce : Bool) : Served (List Byte) :=
  match windowTarget s (gClass addr) (gOffset addr) n false roce src with
  | none => .refused (refuseAt s (gOffset addr))
  | some (sl, sp, a) =>
    match readRunAs .nothing .device s sl sp a n with
    | .error (.wait s) => .wait s
    | .error _ => .refused (refuseAt s (gOffset addr))
    | .ok (s, bs) => .done (s.addObj (Obj.sysBytesIn sl) n) bs

/-! ### System-space stores that fail (R315) -/

/-- The lowest address of a launch's stores dropped or refused. -/
def noteLow (s : State) (ctx addr : Nat) : State :=
  updLaunch s ctx fun l => { l with lowStore := some (match l.lowStore with
    | some a => min a addr
    | none => addr) }

/-- A store of a launch is dropped (cause 0x40) or refused (0x43): counted, and the launch gets a fault. -/
def storeFailed (s : State) (who : FrameFor) (refused : Bool) (addr : Nat) : State :=
  let cause := if refused then 0x43 else 0x40
  let info : Word64 := if refused then BitVec.ofNat 64 (gClass addr) else 0
  match who with
  | .store g core slot =>
    raiseFault (noteLow (s.addObj Obj.storesDropped 1) g.ctx addr) g.ctx core
      { cause := cause, source := 0, store := true, quad := g.group % 4, slot := slot, unit := g.group, gang := g.gang,
        addr := BitVec.ofNat 64 addr, info := info }
  | .drain ctx gang st core =>
    raiseFault (noteLow (s.addObj Obj.storesDropped 1) ctx addr) ctx core
      { cause := cause, source := 1, store := true, unit := st, gang := gang, addr := BitVec.ofNat 64 addr, info := info }
  | _ => s

/-- One system-space write on behalf of a store: performed here, or sent; false when it must wait. -/
def sysStore (s : State) (sl : Nat) (who : FrameFor) (addr : Nat) (bs : List Byte) : State × Bool :=
  if gModule addr = s.ownId then
    match serveWrite s s.ownId addr bs false (.local_ (chanOfFrame s who)) with
    | .done s _ => (s, true)
    | .refused s => (storeFailed s who true addr, true)
    | .wait s => (s, false)
  else match sendFrame s (gModule addr) 0 { addr := BitVec.ofNat 64 addr, payload := bs } who with
    | some s => (s.addObj (Obj.sysBytesOut sl) bs.length, true)
    | none => (s, false)

/-! ### System-space reads (R159, R160) -/

/-- What a system-space read comes to: the bytes, a wait for the answer, or a fault. -/
inductive SysGot where
  | got (s : State) (bs : List Byte)
  | wait (s : State)
  | fault (s : State) (cause : Nat) (info : Word64)

/-- Bytes at rising offsets laid over those of a run that begins at offset 0. -/
def layOver (own : List Host.Cell) (bs : List Byte) : List Byte :=
  bs.mapIdx fun i b => match own.find? fun c => c.1 == i with
    | some c => c.2
    | none => b

/-- A system-space read on behalf of `who`: here at once, or by a READ_REQ whose answer it waits for; `own` is laid over that answer. -/
def sysReadOver (own : List Host.Cell) (s : State) (who : FrameFor) (addr n : Nat) : SysGot :=
  let cls : Word64 := BitVec.ofNat 64 (gClass addr)
  if 2 ≤ gClass addr then .fault s 0x43 cls
  else if gModule addr = s.ownId then
    match serveRead s s.ownId addr n false with
    | .done s bs => .got s bs
    | .refused s => .fault s 0x43 cls
    | .wait s => .wait s
  else match s.net.reads.find? fun x => x.who == who && x.addr.toNat == addr && x.n == n with
    | some x => match x.fail, x.data with
      | some c, _ => .fault s c (if c = 0x43 then cls else 0)
      | none, some bs => .got s (layOver x.own bs)
      | none, none => .wait s
    | none =>
      if !(reachable s (gModule addr)) then .fault s 0x40 0
      else match sendFrame s (gModule addr) 1 { addr := BitVec.ofNat 64 addr, aux := n } who with
        | none => .wait s
        | some s' =>
          let psn := (((pathTo s' (gModule addr)).map (·.nextPsn)).getD 0 + 2 ^ 32 - 1) % 2 ^ 32
          .wait { s' with net := { s'.net with reads := s'.net.reads ++
            [{ who := who, dst := gModule addr, psn := psn, addr := BitVec.ofNat 64 addr, n := n, own := own }] } }

def sysRead (s : State) (who : FrameFor) (addr n : Nat) : SysGot := sysReadOver [] s who addr n

/-- Drop the reads made on behalf of `who`, answered or not. -/
def dropReads (s : State) (who : FrameFor) : State :=
  { s with net := { s.net with reads := s.net.reads.filter fun x => x.who != who } }

/-! ### Write-combining buffers (R314) -/

/-- The contiguous runs of a list of written bytes at rising offsets. -/
def runsOf : List Host.Cell → List (Nat × List Byte)
  | [] => []
  | (a, b) :: l =>
    match runsOf l with
    | (a', bs) :: rest => if a + 1 = a' then (a, b :: bs) :: rest else (a, [b]) :: (a', bs) :: rest
    | [] => [(a, [b])]

/-- Send runs in ascending order; what must wait stays. -/
def sendRuns (sl : Nat) (who : FrameFor) (line : Nat) : List (Nat × List Byte) → State → State × List (Nat × List Byte)
  | [], s => (s, [])
  | r :: rest, s =>
    match sysStore s sl who (line + r.1) r.2 with
    | (s, true) => sendRuns sl who line rest s
    | (s, false) => (s, r :: rest)

/-- The slice of a launch. -/
def sliceOf (s : State) (ctx : Nat) : Nat := ((s.launch? ctx).map (·.slice)).getD 0

/-- Send an entry of a core's buffer; true when all of it went. -/
def wcSend (s : State) (core : Nat) (e : WcEnt) : State × Bool :=
  let (s, left) := sendRuns (sliceOf s e.g.ctx) (.store e.g core e.slot) e.line.toNat (runsOf e.bytes) s
  let c := s.core core
  match left with
  | [] => (s.setCore { c with wc := c.wc.filter fun x => x.line != e.line }, true)
  | _ =>
    let bytes := left.flatMap fun r => r.2.mapIdx fun i b => (r.1 + i, b)
    (s.setCore { c with wc := mapIf (fun x => x.line == e.line) (fun x => { x with bytes := bytes }) c.wc }, false)

/-- Send every entry of a list; true when all of them went. -/
def wcFlush (core : Nat) : List WcEnt → State → State × Bool
  | [], s => (s, true)
  | e :: rest, s =>
    match wcSend s core e with
    | (s, true) => wcFlush core rest s
    | (s, false) => (s, false)

/-- Bytes at rising offsets from an address, kept even where zero. -/
def wcMerge (l : List Host.Cell) (off : Nat) : List Byte → List Host.Cell
  | [] => l
  | b :: bs => wcMerge (lput l off b) (off + 1) bs

/-- A store enters the buffer: it merges into the entry of its line or takes an entry, the least recently used one going first
when eight are in use; a full line is sent. False when the entry that must go cannot go yet. -/
def wcStore (s : State) (core : Nat) (g : GroupRef) (slot addr : Nat) (bs : List Byte) : State × Bool :=
  let line := addr / 512 * 512
  let key : Word64 := BitVec.ofNat 64 line
  let c := s.core core
  let room := match c.wc.find? fun e => e.line == key with
    | some _ => (s, true)
    | none => match c.wc with
      | e :: _ => if 8 ≤ c.wc.length then wcSend s core e else (s, true)
      | [] => (s, true)
  match room with
  | (s, false) => (s, false)
  | (s, true) =>
    let c := s.core core
    let old := match c.wc.find? fun e => e.line == key with
      | some e => e.bytes
      | none => []
    let e : WcEnt := { line := key, bytes := wcMerge old (addr % 512) bs, g := g, slot := slot }
    let s := s.setCore { c with wc := (c.wc.filter fun x => x.line != key) ++ [e] }
    if e.bytes.length = 512 then ((wcSend s core e).1, true) else (s, true)

/-- The bytes of [addr, addr + n) that a core's buffer holds, by their offsets from `addr`. -/
def wcBytes (s : State) (core addr n : Nat) : List Host.Cell :=
  (List.range n).filterMap fun i =>
    ((s.core core).wc.find? fun e => e.line.toNat == (addr + i) / 512 * 512).bind fun e =>
      (e.bytes.find? fun c => c.1 == (addr + i) % 512).map fun c => (i, c.2)

/-- Whether a store or drain of a launch has a frame that is not acknowledged. -/
def storesPending (s : State) (ctx : Nat) : Bool :=
  s.net.paths.any fun p => p.unacked.any fun x => match x.who with
    | .store g _ _ => g.ctx == ctx
    | .drain c _ _ _ => c == ctx
    | _ => false

end Sys2Proof.Machine
end

