-- ==== Sys2Proof/Machine/Frame.lean ====
section
/-! DEFINITION. Frame.lean: unpredictable results (R15) and `runInstr`, the frame that every program instruction runs in: whose turn
it is in its quadrant (R30, R83), the fetch (R115), the decoder (R118), and what the group and the launch are left with. -/

namespace Sys2Proof.Machine

/-! ### Unpredictable results (R15 to R17) -/

/-- A gang of a slice, picked by a number. -/
def pickGang (s : State) (n i : Nat) : Option (Launch × Gang) :=
  let gs := (s.launches.filter fun l => l.slice == n).flatMap fun l => l.live.map fun g => (l, g)
  gs[i % gs.length]?

/-- Free writes to the registers of a group. -/
def scrambleGroup (base : Nat) : Nat → Group → Group
  | 0, t => t
  | k + 1, t =>
    let x := Config.freeNat (base + 3 * k)
    let r := Config.freeNat (base + 3 * k + 1)
    let t := match Config.freeNat (base + 3 * k + 2) % 3 with
      | 0 => t.setS r (BitVec.ofNat 64 x)
      | 1 => t.setV (r / 32 % 256) (r % 32) (BitVec.ofNat 32 x)
      | _ => t.setP r (BitVec.ofNat 32 x)
    scrambleGroup base k t

/-- A free write to a tile of a gang. -/
def scrambleTile (a x : Nat) (ts : List Tile) : List Tile :=
  ts.mapIdx fun i t => if i = a / 4096 % ts.length then { t with cells := lput t.cells (a % 4096) (BitVec.ofNat 32 x) } else t

/-- One free write into a location that the slice may write, by five free values from `base` on: a byte of device memory, of shared
scratch, of system space (where its window admits it) or of a gang's scratchpad, a tile element, or a register of a group. -/
def scrambleOne (n base : Nat) (s : State) : State :=
  let v (i : Nat) : Nat := Config.freeNat (base + i)
  let b : Byte := BitVec.ofNat 8 (v 1)
  let inGang (f : Launch → Gang → Gang) : State := match pickGang s n (v 3) with
    | some (l, g) => updGang s l.ctx g.idx (f l)
    | none => s
  match v 0 % 6 with
  | 0 => (writeRun s n 2 (v 2) [b]).1
  | 1 => (writeRun s n 1 (v 2) [b]).1
  | 2 => (sysStore s n .device (v 2 % 2 ^ 64) [b]).1
  | 3 => inGang fun l g => if l.spad = 0 then g else { g with spad := cellPut g.spad (v 2 % l.spad) b }
  | 4 => inGang fun _ g => { g with tiles := scrambleTile (v 2) (v 1) g.tiles }
  | _ => inGang fun _ g =>
    { g with groups := g.groups.mapIdx fun i t => if i = v 4 % g.groups.length then scrambleGroup (base + 1) 1 t else t }

/-- `k` free writes, from free values `base` on. -/
def scrambleAll (n base : Nat) : Nat → State → State
  | 0, s => s
  | k + 1, s => scrambleAll n base k (scrambleOne n (base + 5 * k) s)

/-- Unpredictable results of a slice: any values in any location that it may write. -/
def unpredictable (s : State) (n : Nat) : State :=
  let k := s.freeVal
  scrambleAll n (s.free + 1) k (s.useFree (5 * k + 1))

/-! ### Whose turn it is (R30, R83) -/

/-- The round-robin pointer of a quadrant. -/
def turnOf (s : State) (c q : Nat) : Nat := sget (fun _ => 0) s.turns (4 * c + q)

/-- How far a slot stands behind the pointer of its quadrant. -/
def behind (s : State) (c q slot : Nat) : Nat := (slot + 8 - turnOf s c q) % 8

/-- The other groups of the quadrant that may issue and that stand before this one from the pointer on. -/
def ahead (s : State) (h : Here) : List Here :=
  ((gangsOn s h.g.core).flatMap fun x => (x.2.groups.filter fun t => t.quad == h.t.quad).filterMap fun t =>
      t.cur.map fun p => ({ l := x.1, g := x.2, t := t, p := p } : Here)).filter fun x =>
    mayIssue s x && decide (behind s h.g.core h.t.quad x.t.slot < behind s h.g.core h.t.quad h.t.slot)

/-- R83: the quadrant issues from the first ready slot at or after its pointer. Whether a group that may issue has its operands and
its unit in a cycle is timing, so each one ahead is ready or not by a free choice (log 103); the named group issues when none is. -/
def myTurn (s : State) (h : Here) : State × Bool :=
  match ahead s h with
  | [] => (s, true)
  | l => (s.useFree 1, s.freeVal % 2 ^ l.length == 0)

/-- After an issue the pointer stands at the next slot. -/
def passTurn (s : State) (h : Here) : State :=
  { s with turns := sput (fun _ => 0) s.turns (4 * h.g.core + h.t.quad) ((h.t.slot + 1) % 8) }

/-! ### Addresses of the lanes (R126) -/

/-- The address of a lane, modulo 2^64. -/
def laneAddr (t : Group) (w : Word64) (imm : Int) (i : Nat) : Nat :=
  let base : Int := (t.sreg (fSbase w)).toNat
  let off : Int := match fAmode w with
    | 0 => base
    | 1 => base + (t.vreg (fVoff w) i).toNat
    | _ => t.vregs' (fVoff w) i 2
  ((off + imm) % 2 ^ 64).toNat

/-- Registers that a load or store of a SIZE occupies. -/
def sizeRegs (n : Nat) : Nat := (n + 3) / 4

/-! ### Loads that take their value late (R164) -/

/-- The requester that a group is (R247). -/
def askOf (h : Here) : Asker := .group ⟨h.l.ctx, h.g.idx, h.t.idx⟩ h.g.core

/-- The sector of an address of a load, where it has one. -/
def lateKey (s : State) (h : Here) (space a : Nat) : Option SectKey := match locate s h.l.slice space a 0 with
  | .ok k => some k
  | .error _ => none

/-- Whether the group's next word leaves the loads that may take a later value as they are: a plain load or store of memory that names none of
their registers and touches none of their sectors. Anything else orders them, or reads what they write. -/
def leavesLate (s : State) (h : Here) (w : Word64) : Bool :=
  let keys := (lanesOf (actMask h.t h.p w)).map fun i => lateKey s h (fMspace w) (laneAddr h.t w (fMimm w) i)
  decide (fOpcode w = 0x60 ∨ fOpcode w = 0x61) && fMorder w == 0 && decide (fMspace w = 1 ∨ fMspace w = 2) &&
    h.t.late.all fun e =>
      ((vregsNamed w).all fun r => decide (r.1 + r.2 ≤ e.reg ∨ e.reg + sizeRegs e.n ≤ r.1)) &&
        e.lanes.all fun l => keys.all fun k => k.isSome && k != lateKey s h e.space l.2

/-- A late load takes its value now, or had it before, by a free choice: its sector whole, from one point of its order (R172), and the L1's copy
with it. Where the access cannot be made now, or a store of the core to the sector is on its way, it had it before. -/
def settleOne (h : Here) (x : State × Group) (e : LateLoad) : State × Group :=
  match e.lanes with
  | [] => x
  | (_, a) :: _ => match readOk x.1 h.l.slice e.space a (askOf h) with
    | .error _ => x
    | .ok k =>
      let s := x.1.useFree 1
      if x.1.freeVal % 2 = 0 || (storesOf s h.g.core).any fun y => y.line == k.line && y.i == k.i then (s, x.2)
      else
        let (s, v) := readSect s k
        let renew (l : L1Line) : L1Line := { l with sectors := l.sectors.map fun p => if p.1 = k.i then (p.1, v) else p }
        ({ s with mem := { s.mem with l1 := mapIf (fun l => l.core == h.g.core && l.line == k.line) renew s.mem.l1 } },
          e.lanes.foldl (fun t l => t.setVs e.reg l.1 (sizeRegs e.n) (leNat (sectGet v (l.2 % 64) e.n))) x.2)

/-- Before its next instruction a group's late loads take their values, unless that one leaves them. -/
def settleLate (s : State) (r : GroupRef) (h : Here) (w : Word64) : State × Here :=
  if h.t.late.isEmpty || leavesLate s h w then (s, h)
  else
    let x := h.t.late.foldl (settleOne h) (s, { h.t with late := [] })
    (setGroup x.1 r x.2, { h with t := x.2 })

/-! ### The frame of an instruction -/

/-- What the body of an instruction asks for. -/
inductive Act where
  /-- The next instruction. -/
  | step (s : State) (t : Group)
  /-- A transfer of every active lane; a backward one yields when other paths are queued (R88, R138). -/
  | jump (s : State) (t : Group) (target : Word64)
  /-- The paths of the group are already moved. -/
  | paths (s : State) (t : Group)
  /-- The instruction does not issue yet. -/
  | wait (s : State)
  /-- A fault: cause, lanes, address, INFO. -/
  | fault (s : State) (cause : Nat) (lanes : LaneMask) (addr info : Word64)
  /-- An address that does not exist. -/
  | absent
  /-- Unpredictable results (R15). -/
  | any (s : State)
  deriving DecidableEq, Repr

/-- Book an issued instruction: the turn passes, the group's requests are served, ISSUED of the slice counts, and the launch has retired
one (R83, R102). -/
def issued (s : State) (h : Here) : State :=
  let s := served (passTurn s h) (askOf h)
  (updLaunch s h.l.ctx fun l => { l with since := s.now, waited := 0, frozenAt := l.frozenAt.map fun _ => s.now }).addObj (Obj.issued h.l.slice) 1

/-- The group after a transfer to a target. -/
def jumpGroup (t : Group) (p : Path) (target : Word64) : Group :=
  if target ≤ p.pc ∧ !t.queue.isEmpty then yieldPath t { p with pc := target }
  else settled { t with cur := some { p with pc := target } }

/-- Write the group back, complete a barrier that this completes, and free a gang that this ends. -/
def putBack (s : State) (r : GroupRef) (h : Here) (t : Group) : State :=
  let s := updGang (setGroup s r t) r.ctx r.gang barrier
  if groupExited t then reapGangs s h.l.ctx else s

/-- Carry out what the body asks for. -/
def finish (r : GroupRef) (h : Here) (a : Act) : Res :=
  match a with
  | .step s t => .next (putBack (issued s h) r h (settled { t with cur := some { h.p with pc := h.p.pc + 8 } }))
  | .jump s t target => .next (putBack (issued s h) r h (jumpGroup t h.p target))
  | .paths s t => .next (putBack (issued s h) r h t)
  | .wait s => .next s
  | .fault s cause lanes addr info => .next (raiseFault (passTurn s h) h.l.ctx h.g.core (groupFault h cause lanes addr info))
  | .absent => .fault .absentAddress
  | .any s =>
    let s := unpredictable s h.l.slice
    -- kill the launch with any cause, or go on with any register values
    if s.freeVal % 2 = 0 then
      .next (raiseFault (passTurn (s.useFree 2) h) h.l.ctx h.g.core
        (groupFault h (0x40 + Config.freeNat (s.free + 1) % 15) h.p.mask 0 0))
    else
      let k := Config.freeNat (s.free + 1)
      let t := scrambleGroup (s.free + 2) k h.t
      .next (putBack (issued (s.useFree (3 * k + 2)) h) r h (settled { t with cur := some { h.p with pc := h.p.pc + 8 } }))

/-- The fetch of R115: alignment, then translation and the EXEC right; code stored after the LAUNCH began has unpredictable
results. -/
def fetchCheck (s : State) (h : Here) : Option Act :=
  if h.p.pc.toNat % 8 ≠ 0 then some (.fault s 0x47 h.p.mask h.p.pc 8)
  else match translate s h.l.slice h.p.pc.toNat 2 with
    | .ok _ => if h.l.codeStored.contains (h.p.pc.toNat / 8) || donated s h.l.slice h.p.pc.toNat then some (.any s) else none
    | .error (.cause c i) => some (.fault s c h.p.mask h.p.pc i)
    | .error (.wait s) => some (.wait s)
    | .error .absent => some .absent
    | .error .any => some (.any s)

/-- What the decoder finds before the body runs (R80, R118): cause 0x44, cause 0x46, or a reserved bit. Of a per-lane instruction the
lanes that act fault, so none does where no lane's guard is true (R114, log 19). -/
def decodeFault (s : State) (h : Here) (w : Word64) : Option Act :=
  let m := actMask h.t h.p w
  if !(allocated (fOpcode w)) || badGuard w then some (.fault s 0x44 h.p.mask 0 w)
  else if (badCode w || misaligned w) && m != 0 then some (.fault s 0x44 m 0 w)
  else if beyond h.l.vregs h.l.tiles w && m != 0 then some (.fault s 0x46 m 0 w)
  else if reservedBits w then some (.any s)
  else none

/-- Runs the body where the group may issue, it is its turn, and the fetch succeeds; a blocked group stays as it is (log 7). -/
def atGroup (s : State) (r : GroupRef) (f : State → Here → Act) : Res :=
  match here? s r with
  | none => .next s
  | some h =>
    if !(mayIssue s h) then .next s
    else match myTurn s h with
      | (s, false) => .next s
      | (s, true) => finish r h (match fetchCheck s h with
        | some a => a
        | none => f s h)

/-- An instruction of a row: the delivered word must carry one of the row's opcodes (log 1). -/
def runInstr (ops : List Nat) (s : State) (r : GroupRef) (w : Word64) (body : State → Here → Act) : Res :=
  if !(ops.contains (fOpcode w)) then .refused .illFormed
  else atGroup s r fun s h => match decodeFault s h w with
    | some a => a
    | none => body (settleLate s r h w).1 (settleLate s r h w).2

end Sys2Proof.Machine
end

