-- ==== Sys2Proof/Machine/Vector.lean ====
section
/-! DEFINITION. Vector.lean: the vector class, per active lane (Table 4.13, R124, R125), with the floating-point results of R50 to
R53 and the conversions of R44, R66, R68 and R499. -/

namespace Sys2Proof.Machine

/-- Rounding mode of a vector instruction: RM, or RNE in an I form (Tables 4.3, 4.4). -/
def vecRm (w : Word64) : Nat := if isVectorI (fOpcode w) then 0 else fTop3 w

/-- Source A of a lane. -/
def vecA (t : Group) (w : Word64) (i : Nat) : Nat :=
  if isVectorI (fOpcode w) then t.vregs' (fA w) i 1 else srcOperand t (fA w) (fAS w) i (typeRegs (fType w))

/-- Source B of a lane: vB, a scalar register, or IMM. -/
def vecB (t : Group) (w : Word64) (i : Nat) : Nat :=
  if isVectorI (fOpcode w) then fImm32 w else srcOperand t (fB w) (fBS w) i (typeRegs (fType w))

/-- Source C of a lane. -/
def vecC (t : Group) (w : Word64) (i : Nat) : Nat := srcOperand t (fC w) (fCS w) i (typeRegs (fType w))

/-- Element by element over the lane operands, packing the results (R124: packed halves are independent). -/
def perElem (ty : Nat) (f : Nat → Rounded) : Nat × List Rounded :=
  let rs := (List.range (elemCount ty)).map f
  (packElems (elemWidth ty) (rs.map (·.bits)), rs)

/-- A vector instruction whose lane result is `f` of the lane (the packed result and what its elements raised), with the
arithmetic trap of R53. -/
def vectorOp (ops : List Nat) (s : State) (g : GroupRef) (w : Word64) (f : Group → Nat → Nat × List Rounded) : Res :=
  runInstr ops s g w fun s h =>
    let m := actMask h.t h.p w
    let ls := lanesOf m
    let rs := ls.map fun i => (i, f h.t i)
    let raised := rs.foldl (fun (r : Raised) p => r.add p.1 p.2.2) {}
    match (if h.l.trap then raised.trap else none) with
    | some (c, lm) => .fault s c lm 0 w
    | none => .step s (rs.foldl (fun t p => t.setVs (fD w) p.1 (typeRegs (vecType w)) p.2.1) h.t)

/-- A binary operation, in its integer and its floating-point form. -/
def binElem (w : Word64) (fi : Int → Int → Int) (ff : FFmt → Nat → FVal → FVal → Rounded) (t : Group) (i : Nat) :
    Nat × List Rounded :=
  let ty := vecType w
  let ew := elemWidth ty
  perElem ty fun j =>
    let a := elemOf ew j (vecA t w i)
    let b := elemOf ew j (vecB t w i)
    match typeFmt ty with
    | some f => ff f (vecRm w) (decodeF f a) (decodeF f b)
    | none => ⟨wrapElem ty (fi (intVal ty a) (intVal ty b)), false, false⟩

/-- A bitwise or other exact operation on whole elements. -/
def rawElem (w : Word64) (f : Nat → Nat → Nat) (t : Group) (i : Nat) : Nat × List Rounded :=
  let ty := vecType w
  let ew := elemWidth ty
  perElem ty fun j => ⟨f (elemOf ew j (vecA t w i)) (elemOf ew j (vecB t w i)) % 2 ^ ew, false, false⟩

/-- ADD (R124, R50). -/
def execAdd (g : GroupRef) (w : Word64) (s : State) : Res := vectorOp [0x20, 0x40] s g w (binElem w (· + ·) addF)

/-- SUB (R124, R50): a floating-point difference is the sum with the negated value. -/
def execSub (g : GroupRef) (w : Word64) (s : State) : Res :=
  vectorOp [0x21, 0x41] s g w (binElem w (· - ·) fun f rm a b => addF f rm a (negF b))

/-- MUL (R124, R50): low half for integers. -/
def execMul (g : GroupRef) (w : Word64) (s : State) : Res := vectorOp [0x22, 0x42] s g w (binElem w (· * ·) mulF)

/-- FMA (R50): one rounding. -/
def execFma (g : GroupRef) (w : Word64) (s : State) : Res :=
  vectorOp [0x23] s g w fun t i =>
    let ty := vecType w
    let ew := elemWidth ty
    let f := (typeFmt ty).getD fmtF32
    let e (j v : Nat) : FVal := decodeF f (elemOf ew j v)
    perElem ty fun j => fmaF f (vecRm w) (e j (vecA t w i)) (e j (vecB t w i)) (e j (vecC t w i))

/-- DIV (R50). -/
def execDiv (g : GroupRef) (w : Word64) (s : State) : Res := vectorOp [0x24] s g w (binElem w (fun a _ => a) divF)

/-- SQRT (R50). -/
def execSqrt (g : GroupRef) (w : Word64) (s : State) : Res :=
  vectorOp [0x25] s g w fun t i =>
    let ty := vecType w
    let f := (typeFmt ty).getD fmtF32
    perElem ty fun j => sqrtF f (vecRm w) (decodeF f (elemOf (elemWidth ty) j (vecA t w i)))

/-- Minimum or maximum of two elements (R51). -/
def minMaxElem (ty : Nat) (isMax : Bool) (a b : Nat) : Nat :=
  match typeFmt ty with
  | some f => minMaxF f isMax a b
  | none => if (if isMax then intVal ty a < intVal ty b else intVal ty b < intVal ty a) then b else a

/-- MIN (R51). -/
def execMin (g : GroupRef) (w : Word64) (s : State) : Res :=
  vectorOp [0x26, 0x46] s g w (rawElem w (minMaxElem (vecType w) false))

/-- MAX (R51). -/
def execMax (g : GroupRef) (w : Word64) (s : State) : Res :=
  vectorOp [0x27, 0x47] s g w (rawElem w (minMaxElem (vecType w) true))

/-- ABS of one element (R124): the sign bit of a float cleared, a NaN canonical (R40); an integer wraps. -/
def absElem (ty a : Nat) : Nat :=
  match typeFmt ty with
  | some f => if decodeF f a = .nan then fmtNaN f else a % 2 ^ (elemWidth ty - 1)
  | none => wrapElem ty (intVal ty a).natAbs

/-- ABS (R124). -/
def execAbs (g : GroupRef) (w : Word64) (s : State) : Res :=
  vectorOp [0x28] s g w (rawElem w fun a _ => absElem (vecType w) a)

/-- NEG of one element (R124): the sign bit of a float inverted, a NaN canonical (R40); an integer wraps. -/
def negElem (ty a : Nat) : Nat :=
  match typeFmt ty with
  | some f => if decodeF f a = .nan then fmtNaN f else a ^^^ 2 ^ (elemWidth ty - 1)
  | none => wrapElem ty (-(intVal ty a))

/-- NEG (R124). -/
def execNeg (g : GroupRef) (w : Word64) (s : State) : Res :=
  vectorOp [0x29] s g w (rawElem w fun a _ => negElem (vecType w) a)

/-! ### Conversion (R125, R499) -/

/-- One element converted from type `a` to type `b`. -/
def cvtElem (a b rm hash v : Nat) : Rounded :=
  match typeFmt a, typeFmt b with
  | some f, some g => convF g rm hash (decodeF f v)
  | some f, none => toIntF rm hash (isSignedT b) (elemWidth b) (decodeF f v)
  | none, some g => convF g rm hash (ofIntF (intVal a v))
  | none, none => ⟨wrapElem b (intVal a v), false, false⟩

/-- RSR taken as RNE where determinism mask bit [2] is set (R71). -/
def effRm (s : State) (n rm : Nat) : Nat := if rm = 4 ∧ (s.getObj (Obj.detMask n)).testBit 2 then 0 else rm

/-- The low 64 bits of the hash of a launch at a position (R66, R67). -/
def rsrHash (s : State) (l : Launch) (p : Nat) : Nat :=
  (srHash (BitVec.ofNat 64 (s.getObj (Obj.rsrSeed l.slice))) (BitVec.ofNat 64 l.rtick) (BitVec.ofNat 64 p)).toNat

/-- The values of a lane converted, packed, with what they raised. -/
def cvtLane (s : State) (h : Here) (w : Word64) (i : Nat) : Nat × List Rounded :=
  let a := fType w
  let b := fC w % 16
  let n := cvtCount a b
  let src := srcOperand h.t (fA w) (fAS w) i (cvtRegs a b)
  let base := if fTop3 w = 4 then (h.t.sreg (fB w)).toNat else 0
  let rs := (List.range n).map fun j =>
    cvtElem a b (effRm s h.l.slice (fTop3 w)) (rsrHash s h.l (base + i * n + j)) (elemOf (elemWidth a) j src)
  (packElems (elemWidth b) (rs.map (·.bits)), rs)

/-- CVT (R125): under RM, RSR with the position base in s(B). -/
def execCvt (g : GroupRef) (w : Word64) (s : State) : Res :=
  runInstr [0x2A] s g w fun s h =>
    let a := fType w
    let b := fC w % 16
    let rs := (lanesOf (actMask h.t h.p w)).map fun i => (i, cvtLane s h w i)
    let raised := rs.foldl (fun (r : Raised) p => r.add p.1 p.2.2) {}
    match (if h.l.trap then raised.trap else none) with
    | some (c, lm) => .fault s c lm 0 w
    | none => .step s (rs.foldl (fun t p => t.setVs (fD w) p.1 (cvtRegs b a) p.2.1) h.t)

/-! ### Bitwise and shift operations -/

/-- AND (R124). -/
def execVAnd (g : GroupRef) (w : Word64) (s : State) : Res := vectorOp [0x2B, 0x4B] s g w (rawElem w (· &&& ·))

/-- OR (R124). -/
def execVOr (g : GroupRef) (w : Word64) (s : State) : Res := vectorOp [0x2C, 0x4C] s g w (rawElem w (· ||| ·))

/-- XOR (R124). -/
def execVXor (g : GroupRef) (w : Word64) (s : State) : Res := vectorOp [0x2D, 0x4D] s g w (rawElem w (· ^^^ ·))

/-- NOT (R124). -/
def execVNot (g : GroupRef) (w : Word64) (s : State) : Res :=
  vectorOp [0x2E] s g w (rawElem w fun a _ => 2 ^ elemWidth (vecType w) - 1 - a)

/-- SHL (R124): by B modulo the width. -/
def execShl (g : GroupRef) (w : Word64) (s : State) : Res :=
  vectorOp [0x2F, 0x4F] s g w (rawElem w fun a b => a * 2 ^ (b % elemWidth (vecType w)))

/-- SHR (R124): logical for u types, arithmetic for s types. -/
def execShr (g : GroupRef) (w : Word64) (s : State) : Res :=
  vectorOp [0x30, 0x50] s g w (rawElem w fun a b =>
    wrapElem (vecType w) (intVal (vecType w) a / 2 ^ (b % elemWidth (vecType w))))

/-- MULHI (R124): the high half of the product. -/
def execMulhi (g : GroupRef) (w : Word64) (s : State) : Res :=
  vectorOp [0x31] s g w (rawElem w fun a b =>
    wrapElem (vecType w) (intVal (vecType w) a * intVal (vecType w) b / 2 ^ elemWidth (vecType w)))

/-- POPC (R124). -/
def execPopc (g : GroupRef) (w : Word64) (s : State) : Res :=
  vectorOp [0x32] s g w (rawElem w fun a _ => popN (elemWidth (vecType w)) a)

/-- CLZ (R124). -/
def execClz (g : GroupRef) (w : Word64) (s : State) : Res :=
  vectorOp [0x33] s g w (rawElem w fun a _ => clzN (elemWidth (vecType w)) a)

/-- SEL (R124): A where p(C[2:0]) is true, B elsewhere. -/
def execSel (g : GroupRef) (w : Word64) (s : State) : Res :=
  vectorOp [0x34] s g w fun t i => (if (t.preg (fC w % 8)).getLsbD i then vecA t w i else vecB t w i, [])

/-- A compare of one lane; on a packed type the conjunction of the halves (R124). -/
def cmpLane (t : Group) (w : Word64) (i : Nat) : Bool :=
  let ty := vecType w
  let ew := elemWidth ty
  (List.range (elemCount ty)).all fun j =>
    let a := elemOf ew j (vecA t w i)
    let b := elemOf ew j (vecB t w i)
    match typeFmt ty with
    | some f => condF (fC w % 16) (decodeF f a) (decodeF f b)
    | none => condInt (fC w % 16) (intVal ty a) (intVal ty b)

/-- CMP (R124): p(D[2:0]) in each acting lane. A NaN operand raises no condition (log 16). -/
def execCmp (g : GroupRef) (w : Word64) (s : State) : Res :=
  runInstr [0x35] s g w fun s h =>
    let m := actMask h.t h.p w
    .step s (h.t.setP (fD w) (mergeP (h.t.preg (fD w)) (maskOf fun i => cmpLane h.t w i) m))

/-! ### Reduction (R52) -/

/-- Identity of a reduction's operation on one element (log 17): −0 for a floating-point sum, +0 under RDN; a NaN for minimum
and maximum (R51). -/
def redIdent (ty op rm : Nat) : Nat :=
  let ew := elemWidth ty
  match op, typeFmt ty with
  | 0, some f => if rm = 2 then 0 else fmtSign f true
  | 0, none => 0
  | 1, some f => fmtNaN f
  | 2, some f => fmtNaN f
  | 1, none => if isSignedT ty then 2 ^ (ew - 1) - 1 else 2 ^ ew - 1
  | 2, none => if isSignedT ty then 2 ^ (ew - 1) else 0
  | 3, _ => 2 ^ ew - 1
  | _, _ => 0

/-- One step of a reduction on two elements. -/
def redOp (ty op rm a b : Nat) : Rounded :=
  match op, typeFmt ty with
  | 0, some f => addF f rm (decodeF f a) (decodeF f b)
  | 0, none => ⟨wrapElem ty (intVal ty a + intVal ty b), false, false⟩
  | 1, _ => ⟨minMaxElem ty false a b, false, false⟩
  | 2, _ => ⟨minMaxElem ty true a b, false, false⟩
  | 3, _ => ⟨a &&& b, false, false⟩
  | 4, _ => ⟨a ||| b, false, false⟩
  | _, _ => ⟨a ^^^ b, false, false⟩

/-- Lane values combined with those of lane i XOR d. -/
def redStep (ty op rm d : Nat) (v : List (Nat × List Rounded)) : List (Nat × List Rounded) :=
  let ew := elemWidth ty
  v.mapIdx fun i x =>
    let y := (v.getD (i ^^^ d) (0, [])).1
    let rs := (List.range (elemCount ty)).map fun j => redOp ty op rm (elemOf ew j x.1) (elemOf ew j y)
    (packElems ew (rs.map (·.bits)), x.2 ++ rs)

/-- The 32 lane values after d = 16, 8, 4, 2, 1. -/
def reduce (t : Group) (w : Word64) (m : LaneMask) : List (Nat × List Rounded) :=
  let ty := vecType w
  let op := fC w % 8
  let start := (List.range 32).map fun i =>
    (if m.getLsbD i then vecA t w i else packElems (elemWidth ty) (List.replicate (elemCount ty) (redIdent ty op (vecRm w))), [])
  [16, 8, 4, 2, 1].foldl (fun v d => redStep ty op (vecRm w) d v) start

/-- RED (R52): over the acting lanes, written to every acting lane. -/
def execRed (g : GroupRef) (w : Word64) (s : State) : Res :=
  vectorOp [0x36] s g w fun t i =>
    let m := match t.cur with
      | some p => actMask t p w
      | none => 0
    (reduce t w m).getD i (0, [])

/-! ### Moves -/

/-- MOV (R124): A, or IMM in the I form. -/
def execVMov (g : GroupRef) (w : Word64) (s : State) : Res :=
  vectorOp [0x37, 0x57] s g w fun t i => (if isVectorI (fOpcode w) then fImm32 w else vecA t w i, [])

/-- MOV_SV (R124): s(A) in every lane. -/
def execMovSv (g : GroupRef) (w : Word64) (s : State) : Res :=
  vectorOp [0x38] s g w fun t _ => ((t.sreg (fA w)).toNat % 2 ^ (32 * typeRegs (fType w)), [])

/-- MOV_VS (R124, R91): s(D) = A of the named lane, that of the scalar register with AS = 1 (Table 4.3); with BS = 0 and no acting lane s(D) is unchanged. -/
def execMovVs (g : GroupRef) (w : Word64) (s : State) : Res :=
  runInstr [0x39] s g w fun s h =>
    match lanesOf (actMask h.t h.p w) with
    | [] => .step s h.t
    | low :: _ =>
      let i := if fBS w then (h.t.sreg (fB w)).toNat % 32 else (h.t.vreg (fB w) low).toNat % 32
      .step s (h.t.setS (fD w) (BitVec.ofNat 64 (srcOperand h.t (fA w) (fAS w) i (typeRegs (fType w)))))

/-- LANEID (R124). -/
def execLaneid (g : GroupRef) (w : Word64) (s : State) : Res := vectorOp [0x3A] s g w fun _ i => (i, [])

/-- ILLEGAL_INSTRUCTION (R118, R80): a word that the decoder refuses raises cause 0x44, or 0x46 beyond the allocation; a word
that it accepts is not one of this row. -/
def execIllegalInstruction (g : GroupRef) (w : Word64) (s : State) : Res :=
  let bad := illegalWord w || (match here? s g with
    | some h => beyond h.l.vregs h.l.tiles w
    | none => false)
  if !bad then .refused .illFormed
  else atGroup s g fun s h => (decodeFault s h w).getD (.step s h.t)

end Sys2Proof.Machine
end

