-- ==== Sys2Proof/Machine/Memory.lean ====
section
/-! DEFINITION. Memory.lean: loads and stores (R126 to R131), fences (R135), cache hints (R136, R197 to R199) and the identity
and time reads (R137, R75). -/

namespace Sys2Proof.Machine

/-! ### Checks of the lanes (R81, R127) -/

/-- What the lanes of an access come to: their addresses in order, or the fault of the lowest faulting lane with every faulting
lane, or a wait. -/
inductive Lanes where
  | ok
  | act (a : Act)
  deriving DecidableEq, Repr

/-- A lane's check of one access of `n` bytes in a space, against the gang's scratchpad, the translation and the export windows;
`write` for a store. -/
def laneCheck (s : State) (h : Here) (by_ : Asker) (space addr n : Nat) (write : Bool) : Except Stop Unit :=
  if addr % n ≠ 0 then .error (.cause 0x47 (BitVec.ofNat 64 n))
  else match space with
  | 0 => if addr + n ≤ h.l.spad then .ok () else .error (.cause 0x40 0)
  | 3 =>
    if 2 ≤ gClass addr then .error (.cause 0x43 (BitVec.ofNat 64 (gClass addr)))
    else if reachable s (gModule addr) then .ok () else .error (.cause 0x40 0)
  | _ =>
    match (if write then writeOk s h.l.slice space addr by_ else readOk s h.l.slice space addr by_) with
    | .ok _ => .ok ()
    | .error e => .error e

/-- Check every lane before any lane acts (log 18): the waits of all lanes are started, a fault names the lowest faulting lane
and lists them all (R127, Table 3.10). Of a scratchpad or shared-scratch access ADDRESS is the offset (DESIGN CHOICE, log 86). -/
def checkLanes (s : State) (ls : List (Nat × Nat)) (f : State → Nat → Except Stop Unit) : Lanes :=
  let rs := ls.map fun p => (p.1, p.2, f s p.2)
  let bad := rs.filter fun r => match r.2.2 with
    | .error (.cause _ _) => true
    | _ => false
  if rs.any fun r => r.2.2 matches .error .absent then .act .absent
  else if rs.any fun r => r.2.2 matches .error .any then .act (.any s)
  else match bad with
  | (_, a, .error (.cause c i)) :: _ => .act (.fault s c (maskOf fun j => bad.any fun r => r.1 == j) (BitVec.ofNat 64 a) i)
  | _ =>
    if rs.any fun r => r.2.2 matches .error (.wait _) then
      .act (.wait (ls.foldl (fun s p => match f s p.2 with
        | .error (.wait s) => s
        | _ => s) s))
    else .ok

/-! ### Scratchpad of the gang -/

/-- The gang of a group as it stands now. -/
def gangNow (s : State) (r : GroupRef) : Option Gang := match s.launch? r.ctx with
  | none => none
  | some l => findGang l r.gang

def spadGet (s : State) (r : GroupRef) (a n : Nat) : List Byte :=
  match gangNow s r with
  | some g => cellsGet g.spad a n
  | none => List.replicate n 0

def spadPut (s : State) (r : GroupRef) (a : Nat) (bs : List Byte) : State :=
  updGang s r.ctx r.gang fun g => { g with spad := cellsPut g.spad a bs }

/-! ### The group's own work in the matrix queue -/

/-- A tile descriptor (Table 4.20). -/
structure TileDesc where
  base : Nat
  stride : Nat
  fmt : Nat
  space : Nat
  res : Nat
  scaleOff : Nat
  sstride : Nat
  deriving DecidableEq, Repr

def tileDesc (lo hi : Word64) : TileDesc :=
  { base := lo.toNat, stride := bits hi.toNat 15 0, fmt := bits hi.toNat 19 16, space := bits hi.toNat 20 20,
    res := bits hi.toNat 23 21, scaleOff := bits hi.toNat 47 24, sstride := bits hi.toNat 63 48 }

/-- Row address. -/
def rowAt (d : TileDesc) (m : Nat) : Nat := (d.base + m * d.stride) % 2 ^ 64

/-- Address of the first scale of a row. -/
def scaleAt (d : TileDesc) (m : Nat) : Nat := (d.base + 64 * d.scaleOff + m * d.sstride) % 2 ^ 64

/-- The runs of bytes that a tile in memory occupies: 64 rows, and two scales of each row in an MX format. -/
def tileRuns (d : TileDesc) : List (Nat × Nat) :=
  (List.range 64).flatMap fun m => (rowAt d m, 8 * tileWidth d.fmt) :: (if isMx d.fmt then [(scaleAt d m, 2)] else [])

/-- Whether an `acc.ld` or `acc.st` of the group that still waits in the core's matrix queue touches one of the bytes [a, a + n) of a
space: the group's later access to them takes effect after it (R162, R163, R170). -/
def tileQueued (s : State) (r : GroupRef) (core space n : Nat) (as : List Nat) : Bool :=
  (s.core core).mq.any fun e => e.g == r && (fOpcode e.word == 0xC2 || fOpcode e.word == 0xC3) &&
    (let d := tileDesc e.aLo e.aHi
     (if d.space = 0 then space == 0 else space == 2) &&
       (tileRuns d).any fun x => as.any fun a => decide (a < x.1 + x.2 ∧ x.1 < a + n))

/-- R148: whether a `gmma` of the group waits in the core's matrix queue. -/
def gmmaQueued (s : State) (r : GroupRef) (core : Nat) : Bool :=
  (s.core core).mq.any fun e => e.g == r && fOpcode e.word == 0xC0

/-- Whether an entry of the group that reads or writes memory waits in the core's matrix queue: its stores and loads count as the
group's own in program order, so a later release by the group waits for it (R148, R165, R170). -/
def engineOwes (s : State) (r : GroupRef) (core : Nat) : Bool :=
  (s.core core).mq.any fun e => e.g == r && fOpcode e.word != 0xC1

/-- Whether an `acc.ld` of the group waits in the core's matrix queue. -/
def tileLoads (s : State) (r : GroupRef) (core : Nat) : Bool := (s.core core).mq.any fun e => e.g == r && fOpcode e.word == 0xC2

/-- Whether an `acc.st` of the group waits in the core's matrix queue. -/
def tileStores (s : State) (r : GroupRef) (core : Nat) : Bool := (s.core core).mq.any fun e => e.g == r && fOpcode e.word == 0xC3

/-! ### LD (R126, R169, R179) -/

/-- Bytes of a lane out of the sectors read. -/
def fromSects (vs : List (SectKey × Sector)) (k : SectKey) (addr n : Nat) : Nat :=
  match vs.find? fun p => p.1 == k with
  | some p => leNat (sectGet p.2 (addr % 64) n)
  | none => 0

/-- A cached load: with acquire the queued invalidations apply (device and system scope) and the L1 copies of the addressed
lines drop first (R169). -/
def cachedLoad (s : State) (h : Here) (space n scope : Nat) (acq : Bool) (ls : List (Nat × Nat)) : State × (Nat → Nat) :=
  let key (a : Nat) : SectKey := match locate s h.l.slice space a 0 with
    | .ok k => k
    | .error _ => shrSect h.l.slice a
  let ks := (ls.map fun p => key p.2).foldl (fun acc k => addNew k acc) []
  let s := if acq && decide (2 ≤ scope) then applyInv s h.g.core else s
  let s := if acq then ks.foldl (fun s k => dropL1 s h.g.core k.line) s else s
  let (s, vs) := loadSects h.g.core h.l.slice (h.t.quad * 8 + h.t.slot) ks s
  (s, fun a => fromSects vs (key a) a n)

/-- The distinct sectors of some addresses of a load. -/
def sectsOf (s : State) (h : Here) (space : Nat) (as : List Nat) : List SectKey :=
  (as.filterMap fun a => lateKey s h space a).foldl (fun ks k => addNew k ks) []

/-- Before a load: the core's stores on their way to an addressed sector are performed where it may not take its bytes from them: an acquire at
device scope or wider and a load after such a fence, which see a store only when every observer does (R168), and one that would mix their bytes
with others of the sector (R172). False where one must wait. -/
def loadReady (s : State) (h : Here) (space n : Nat) (whole : Bool) (as : List Nat) : State × Bool :=
  (sectsOf s h space as).foldl (fun (x : State × Bool) k =>
    let rs := (as.filter fun a => lateKey s h space a == some k).map fun a => (a % 64, n)
    if x.2 && ((storesOf x.1 h.g.core).any fun e => e.line == k.line && e.i == k.i) && (whole || !(forwards x.1 h.g.core k rs))
    then landFor x.1 h.g.core k.line else x) (s, true)

/-- What a plain load leaves that may still take a later value: one entry for each sector. -/
def lateLoads (s : State) (h : Here) (space n reg : Nat) (ls : List (Nat × Nat)) : List LateLoad :=
  (sectsOf s h space (ls.map (·.2))).map fun k =>
    { space := space, n := n, reg := reg, lanes := ls.filter fun l => lateKey s h space l.2 == some k }

/-- One system-space load of an address (R159, R160). The group sees its own stores of the core's buffer, those that the buffer held when the
read was sent and those that it holds at the answer (R162). -/
def sysLoad (s : State) (r : GroupRef) (h : Here) (addr n : Nat) : SysGot :=
  match sysReadOver (wcBytes s h.g.core addr n) s (.load r) addr n with
  | .got s bs => .got s (layOver (wcBytes s h.g.core addr n) bs)
  | x => x

/-- What the addresses of a system-space load come to, each address read once for all of its lanes (R128): values, faults (cause and
INFO), and whether one still waits. -/
structure SysLoaded where
  s : State
  vals : List (Nat × Nat) := []
  faults : List (Nat × Nat × Word64) := []
  waits : Bool := false

def sysLoads (r : GroupRef) (h : Here) (n : Nat) (as : List Nat) (s : State) : SysLoaded :=
  as.foldl (fun x a => match sysLoad x.s r h a n with
    | .fault s c i => { x with s := s, faults := x.faults ++ [(a, c, i)] }
    | .wait s => { x with s := s, waits := true }
    | .got s bs => { x with s := s, vals := x.vals ++ [(a, leNat bs)] }) { s := s }

/-- The value read at an address. -/
def loadedAt (x : SysLoaded) (a : Nat) : Nat := ((x.vals.find? fun p => p.1 == a).map (·.2)).getD 0

/-- An acquire load first drops its core's L1 copy of the line (R169). -/
def dropAt (s : State) (h : Here) (space addr : Nat) : State :=
  if space = 1 ∨ space = 2 then match locate s h.l.slice space addr 0 with
    | .ok k => dropL1 s h.g.core k.line
    | .error _ => s
  else s

/-- LD (R126, R127, R129). A system-space load faults once every lane's answer is there, so that LANES holds each lane that failed; as an
acquire at system scope it applies the core's queued invalidations (R169). A plain load of memory may still take the value of a later moment
(R164). -/
def execLd (g : GroupRef) (w : Word64) (s : State) : Res :=
  runInstr [0x60] s g w fun s h =>
    let n := mBytes w
    let space := fMspace w
    let ls := (lanesOf (actMask h.t h.p w)).map fun i => (i, laneAddr h.t w (fMimm w) i)
    let put (t : Group) (vs : List (Nat × Nat)) : Group := vs.foldl (fun t p => t.setVs (fD w) p.1 (sizeRegs n) p.2) t
    if badScope w && !ls.isEmpty then .fault s 0x49 (actMask h.t h.p w) 0 w
    else match checkLanes s ls (fun s a => laneCheck (if fMorder w = 1 then dropAt s h space a else s) h (askOf h) space a n false) with
    | .act a => a
    | .ok =>
      if tileQueued s g h.g.core space n (ls.map (·.2)) then .wait s
      else match space with
      | 0 => .step s (put h.t (ls.map fun p => (p.1, leNat (spadGet s g p.2 n))))
      | 3 =>
        let x := sysLoads g h n ((ls.map (·.2)).foldl (fun acc a => addNew a acc) []) s
        if x.waits then .wait x.s
        else match ls.filter fun p => x.faults.any fun f => f.1 == p.2 with
        | p :: ps =>
          let (_, c, info) := (x.faults.find? fun f => f.1 == p.2).getD (0, 0x40, 0)
          .fault (dropReads x.s (.load g)) c (maskOf fun j => (p :: ps).any fun q => q.1 == j) (BitVec.ofNat 64 p.2) info
        | [] =>
          let s := dropReads x.s (.load g)
          .step (if fMorder w = 1 then applyInv s h.g.core else s) (put h.t (ls.map fun p => (p.1, loadedAt x p.2)))
      | _ =>
        match loadReady s h space n (h.t.fenced || (fMorder w == 1 && decide (2 ≤ fMscope w))) (ls.map (·.2)) with
        | (s, false) => .wait s
        | (s, true) =>
          let (s', f) := cachedLoad s h space n (fMscope w) (fMorder w == 1) ls
          let t := put h.t (ls.map fun p => (p.1, f p.2))
          .step s' (if fMorder w = 1 then t else { t with late := t.late ++ lateLoads s h space n (fD w) ls })

/-! ### ST (R126, R128, R131) -/

/-- A lane's bytes put with those that its instruction writes in the same sector (R172). -/
def addPart (e : StoreEnt) (off : Nat) (bs : List Byte) : List StoreEnt → List StoreEnt
  | [] => [{ e with parts := [(off, bs)] }]
  | x :: xs => if x.line = e.line ∧ x.i = e.i ∧ x.va = e.va then { x with parts := x.parts ++ [(off, bs)] } :: xs else x :: addPart e off bs xs

/-- The stores of an instruction, one for each sector, from its lanes' addresses and bytes in ascending lane order. -/
def storeEnts (s : State) (h : Here) (space : Nat) (rel : Bool) (data : List (Nat × List Byte)) : List StoreEnt :=
  data.foldl (fun es d => match locate s h.l.slice space d.1 1 with
    | .ok k => addPart { ctx := h.l.ctx, core := h.g.core, slice := h.l.slice, space := space, va := d.1 / 64 * 64, line := k.line, i := k.i, rel := rel }
        (d.1 % 64) d.2 es
    | .error _ => es) []

/-- R99: the fill streams of a gang keep reading what stood at their `stk.start` in the sectors that the gang stores to later. -/
def keepShadow (s : State) (ctx gang core : Nat) (ks : List SectKey) : State :=
  let old := ks.map fun k => (k.line, k.i, overlay s core k (latest s k))
  updGang s ctx gang fun g => { g with streams := g.streams.map fun t =>
    if t.desc.kind = 1 ∨ t.ended then t
    else { t with shadow := t.shadow ++ old.filter fun o => !(t.shadow.any fun x => x.1 == o.1 && x.2.1 == o.2.1) } }

/-- Stores of an instruction join their core's, and how many of those are performed at once is a free choice (R164, R167). What they write
into executable pages is noted as they issue (R115). -/
def pushStores (s : State) (ctx gang core : Nat) (es : List StoreEnt) : State :=
  let s := keepShadow s ctx gang core (es.map fun e => ⟨e.line, e.i⟩)
  let s := es.foldl (fun s e => if e.space = 1 then s else e.parts.foldl (fun s p => noteCode s e.slice (e.va + p.1) p.2.length) s) s
  landSome { s with stores := s.stores ++ es } core

/-- A store of lanes to shared scratch or device memory. -/
def storeAll (s : State) (h : Here) (space : Nat) (rel : Bool) (data : List (Nat × List Byte)) : State :=
  pushStores s h.l.ctx h.g.idx h.g.core (storeEnts s h space rel data)

/-- The lanes of a system-space store enter the write-combining buffer in ascending lane order; false at the first that must
wait. -/
def sysStores (r : GroupRef) (core slot : Nat) : List (Nat × List Byte) → State → State × Bool
  | [], s => (s, true)
  | p :: ps, s =>
    match wcStore s core r slot p.1 p.2 with
    | (s, true) => sysStores r core slot ps s
    | (s, false) => (s, false)

/-- R175: a release at system scope performs the core's stores, sends every entry of its write-combining buffer and waits until every
earlier system-space store of the launch is acknowledged. Answers the state and whether the wait is over. -/
def sysRelease (s : State) (h : Here) : State × Bool :=
  match landAll s h.g.core with
  | (s, false) => (s, false)
  | (s, true) => match wcFlush h.g.core (s.core h.g.core).wc s with
    | (s, true) => (s, !(storesPending s h.l.ctx))
    | (s, false) => (s, false)

/-- Whether one of the bytes [a, a + n) of a space belongs to a lock word that a launch of the slice holds: a write of it by anything but
`lock.acq` and `lock.rel` has unpredictable results (R107). -/
def heldLock (s : State) (sl space n : Nat) (as : List Nat) : Bool :=
  (s.launches.filter fun l => l.slice == sl).any fun l => l.locks.any fun k =>
    k.space == space && as.any fun a => decide (a < k.addr.toNat + 8 ∧ k.addr.toNat < a + n)

/-- A store of the lanes' bytes (address and bytes by lane, ascending: the highest lane's bytes remain, R128). -/
def storeLanes (s : State) (r : GroupRef) (h : Here) (w : Word64) (n : Nat) (data : List (Nat × Nat × List Byte)) : Act :=
  let space := fMspace w
  if badScope w && !data.isEmpty then .fault s 0x49 (actMask h.t h.p w) 0 w
  else if fMorder w = 2 && engineOwes s r h.g.core then .wait s
  else match checkLanes s (data.map fun d => (d.1, d.2.1)) (fun s a => laneCheck s h (askOf h) space a n true) with
  | .act a => a
  | .ok =>
    if tileQueued s r h.g.core space n (data.map (·.2.1)) then .wait s
    else if heldLock s h.l.slice space n (data.map (·.2.1)) then .any s
    else if space = 0 then
      if gmmaQueued s r h.g.core then .wait s
      else .step (data.foldl (fun s d => spadPut s r d.2.1 d.2.2) s) h.t
    else
      let (s, ready) := if fMorder w = 2 ∧ fMscope w = 3 then sysRelease s h else (s, true)
      if !ready then .wait s
      else if space = 3 then
        match sysStores r h.g.core h.t.slot (data.map (·.2)) s with
        | (s, true) => .step s h.t
        | (s, false) => .wait s
      else .step (storeAll s h space (fMorder w == 2 && decide (2 ≤ fMscope w)) (data.map (·.2))) h.t

/-- ST (R126). -/
def execSt (g : GroupRef) (w : Word64) (s : State) : Res :=
  runInstr [0x61] s g w fun s h =>
    let n := mBytes w
    storeLanes s g h w n ((lanesOf (actMask h.t h.p w)).map fun i =>
      (i, laneAddr h.t w (fMimm w) i, toLe n (h.t.vregs' (fD w) i (sizeRegs n))))

/-- A converting store to a format (R131): f32 under RM, RSR with P = virtual byte address × 8 (R66), with the trap of R53. Where a
conversion's trap and a scope violation both hold, the trap is reported (DESIGN CHOICE, log 104). -/
def storeConverted (op : Nat) (f : FFmt) (g : GroupRef) (w : Word64) (s : State) : Res :=
  runInstr [op] s g w fun s h =>
    let n := fmtWidth f / 8
    let rows := (lanesOf (actMask h.t h.p w)).map fun i =>
      let a := laneAddr h.t w (fMimm w) i
      (i, a, convF f (effRm s h.l.slice (fTop3 w)) (rsrHash s h.l (a * 8)) (decodeF fmtF32 (h.t.vreg (fD w) i).toNat))
    let raised := rows.foldl (fun (r : Raised) p => r.add p.1 [p.2.2]) {}
    let lanes := checkLanes s (rows.map fun p => (p.1, p.2.1)) (fun s a => laneCheck s h (askOf h) (fMspace w) a n true)
    match lanes, (if h.l.trap then raised.trap else none) with
    | .ok, some (c, lm) => .fault s c lm 0 w
    | _, _ => storeLanes s g h w n (rows.map fun p => (p.1, p.2.1, toLe n p.2.2.bits))

/-- ST_CVT_BF16 (R131). -/
def execStCvtBf16 (g : GroupRef) (w : Word64) (s : State) : Res := storeConverted 0x62 fmtBf16 g w s

/-- ST_CVT_F16 (R131). -/
def execStCvtF16 (g : GroupRef) (w : Word64) (s : State) : Res := storeConverted 0x63 fmtF16 g w s

/-- ST_CVT_E4M3 (R131). -/
def execStCvtE4m3 (g : GroupRef) (w : Word64) (s : State) : Res := storeConverted 0x64 fmtE4M3 g w s

/-- ST_CVT_E5M2 (R131). -/
def execStCvtE5m2 (g : GroupRef) (w : Word64) (s : State) : Res := storeConverted 0x65 fmtE5M2 g w s

/-! ### FENCE (R135, R165 to R169, R175) -/

/-- The order that a fence puts on the core's stores at device scope: a full fence has them performed (R167); a release fence stands
between the earlier ones and the later ones (R165). -/
def fenceStores (s : State) (core : Nat) (order : Nat) : State × Bool :=
  if order = 3 then landAll s core
  else if order = 2 ∧ !(storesOf s core).isEmpty then
    ({ s with stores := s.stores ++ [{ ctx := 0, core := core, slice := 0, space := 2, va := 0, line := .dev 0, i := 0, rel := true, mark := true }] }, true)
  else (s, true)

/-- FENCE: at device scope its release side orders the core's stores, and its acquire side applies the core's queued invalidations; at
system scope it sends the write-combining buffer (R314), and its release side waits for the acknowledgements. The observers of narrower scopes
stand on the core, where they see its stores as they issue. An acquire follows the group's tile loads, which are loads of its own (Table 5.7). -/
def execFence (g : GroupRef) (w : Word64) (s : State) : Res :=
  runInstr [0x80] s g w fun s h =>
    if ((fSorder w).testBit 1 && engineOwes s g h.g.core) || ((fSorder w).testBit 0 && tileLoads s g h.g.core) then .wait s else
    let (s, ready) := if fSscope w < 2 then (s, true)
      else if fSscope w = 2 then fenceStores s h.g.core (fSorder w)
      else if (fSorder w).testBit 1 then sysRelease s h else wcFlush h.g.core (s.core h.g.core).wc s
    if !ready then .wait s
    else
      if 2 ≤ fSscope w ∧ (fSorder w).testBit 0 then .step (applyInv s h.g.core) { h.t with fenced := true } else .step s h.t

/-! ### Cache hints (Table 4.16) -/

/-- Virtual addresses of the 512-byte lines from one on; `fuel` bounds them. -/
def lineAddrs : Nat → Nat → List Nat
  | 0, _ => []
  | k + 1, a => a :: lineAddrs k (a + 512)

/-- Lines that touch [a, a + n), by their virtual addresses; none for n = 0. -/
def linesTouching (a n : Nat) : List Nat := if n = 0 then [] else lineAddrs ((a + n - 1) / 512 + 1 - a / 512) (a / 512 * 512)

/-- Lines that lie wholly inside [a, a + n). -/
def linesInside (a n : Nat) : List Nat :=
  let lo := (a + 511) / 512
  let hi := (a + n) / 512
  lineAddrs (hi - lo) (lo * 512)

/-- DISCARD (R136, R199): checked as a write on every page of the range's dead lines, gated and logged as a write (R361), after the core's
earlier stores and the group's tile loads and stores of those lines. -/
def execDiscard (g : GroupRef) (w : Word64) (s : State) : Res :=
  runInstr [0x81] s g w fun s h =>
    let a := (h.t.sreg (fX27 w)).toNat
    let n := (h.t.sreg (fSB w)).toNat
    let vas := linesInside a n
    if tileQueued s g h.g.core 2 512 vas then .wait s
    else match landAll s h.g.core with
    | (s, false) => .wait s
    | (s, true) => match checkLanes s (vas.map fun v => (0, v)) (fun s v => match discardOk s h.l.slice v (askOf h) with
        | .ok _ => .ok ()
        | .error e => .error e) with
    | .act (.fault s c _ ad i) => .fault s c h.p.mask ad i
    | .act x => x
    | .ok => if heldLock s h.l.slice 2 512 vas then .any s else
      .step (vas.foldl (fun s v => match translate s h.l.slice v 1 with
        | .ok pa => discardLine (logWrite s h.l.slice v) (some h.g.core) (pa / 512)
        | .error _ => s) s) h.t

/-- Physical lines of a range, none where a page fails translation. -/
def rangeLines (s : State) (n : Nat) (vas : List Nat) : Option (List Nat) :=
  vas.foldr (fun v acc => match acc, translate s n v 0 with
    | some l, .ok pa => some (pa / 512 :: l)
    | _, _ => none) (some [])

/-- The pin limits of R197 for a request's new lines together with the slice's pins. -/
def pinOk (s : State) (n : Nat) (news : List Nat) : Bool :=
  let all := news ++ ((s.mem.llm.filter fun x => x.slice == n && x.pinned).map (·.line))
  decide (all.length ≤ s.getObj (Obj.pinBudget n)) &&
    news.all (fun l =>
      let d := homeDie (l * 512)
      let w := cacheWaysOf s n d
      decide (w ≠ 0) &&
        decide ((all.filter fun x => homeDie (x * 512) == d).length ≤ 16384 * w) &&
        decide ((all.filter fun x => homeDie (x * 512) == d && llcSlice (x * 512) == llcSlice (l * 512) &&
          llcSet (x * 512) == llcSet (l * 512)).length ≤ w / 2))

/-- Pin one line: it is allocated in its home LLM and pinned. -/
def pinLine (n : Nat) (s : State) (l : Nat) : State :=
  let home := homeDie (l * 512)
  let s := if (llmOf s home l).isSome then s else llmTouch s n home l [] false .sectors
  { s with mem := { s.mem with llm := mapIf (fun x => x.die == home && x.line == l) (fun x => { x with pinned := true }) s.mem.llm } }

/-- Lines pinned one after another; none where a line finds no room, every other line of its set being in a transient state. -/
def pinLines (n : Nat) : List Nat → State → Option State
  | [], s => some s
  | l :: ls, s =>
    if (llmOf s (homeDie (l * 512)) l).isNone && (llmRoom s n (homeDie (l * 512)) l).isNone then none else pinLines n ls (pinLine n s l)

/-- PIN_LLC (R197): every line touching the range, or nothing. A length of 0 has no effect, and PD is true: no line is
left unpinned (DESIGN CHOICE, log 104). -/
def execPinLlc (g : GroupRef) (w : Word64) (s : State) : Res :=
  runInstr [0x82] s g w fun s h =>
    let n := h.l.slice
    let full (b : Bool) : LaneMask := if b then BitVec.allOnes 32 else 0
    let vas := linesTouching (h.t.sreg (fX27 w)).toNat (h.t.sreg (fSB w)).toNat
    if vas.any (donated s n) then .any s else
    let news := (rangeLines s n vas).map fun ls =>
      (ls.foldl (fun acc l => addNew l acc) []).filter fun l => !(s.mem.llm.any fun x => x.line == l && x.pinned)
    match news with
    | some news =>
      if vas.isEmpty then .step s (h.t.setP (fTop3 w) (full true))
      else if pinOk s n news then match pinLines n news s with
        | some t => .step (t.addObj (Obj.pinned n) news.length) (h.t.setP (fTop3 w) (full true))
        | none => .wait s
      else .step (s.addObj (Obj.pinRefusals n) 1) (h.t.setP (fTop3 w) (full false))
    | none => .step (s.addObj (Obj.pinRefusals n) 1) (h.t.setP (fTop3 w) (full false))

/-- Release the pin of one line of a slice (R198). -/
def unpinLine (n : Nat) (s : State) (l : Nat) : State :=
  if s.mem.llm.any fun x => x.line == l && x.pinned && x.slice == n then
    { (s.subObj (Obj.pinned n) 1) with mem := { s.mem with llm := mapIf (fun x => x.line == l) (fun x => { x with pinned := false }) s.mem.llm } }
  else s

/-- UNPIN_LLC (R136): pages that fail translation are skipped. -/
def execUnpinLlc (g : GroupRef) (w : Word64) (s : State) : Res :=
  runInstr [0x83] s g w fun s h =>
    let vas := linesTouching (h.t.sreg (fX27 w)).toNat (h.t.sreg (fSB w)).toNat
    .step (vas.foldl (fun s v => match translate s h.l.slice v 0 with
      | .ok pa => unpinLine h.l.slice s (pa / 512)
      | .error _ => s) s) h.t

/-- A line requested under a miss register of its home LLC slice, one of 512; with none free it waits at the input (R195). -/
def requestLine (s : State) (n l : Nat) : State :=
  let u := homeUnit s (.dev l)
  let m : MissReg := { u := u, line := .dev l, slice := n, requested := 255 }
  if (llmOf s (homeDie (l * 512)) l).isSome || cacheWaysOf s n (homeDie (l * 512)) == 0 || (missOf s u (.dev l)).isSome ||
      s.mem.missInput.any (fun x => x.line == .dev l) then s
  else if (s.mem.miss.filter fun x => x.u == u).length < 512 then { s with mem := { s.mem with miss := s.mem.miss ++ [m] } }
  else { s with mem := { s.mem with missInput := s.mem.missInput ++ [m] } }

/-- PF_DEV (R136, R195): each line that is not in its home LLM is requested. -/
def execPfDev (g : GroupRef) (w : Word64) (s : State) : Res :=
  runInstr [0x84] s g w fun s h =>
    let vas := linesTouching (h.t.sreg (fX27 w)).toNat (h.t.sreg (fSB w)).toNat
    if vas.any (donated s h.l.slice) then .any s else
    .step (vas.foldl (fun s v => match translate s h.l.slice v 0 with
      | .error _ => s
      | .ok pa => requestLine s h.l.slice (pa / 512)) s) h.t

/-! ### Identity and time (R75, R137) -/

/-- Index of a number among the distinct sorted numbers of a list. -/
def rankIn (x : Nat) (l : List Nat) : Nat := ((l.foldl (fun acc y => addNew y acc) []).filter fun y => y < x).length

/-- The identity value that SEL names (Tables 3.1, 4.17), launch-relative with determinism mask bit [4]. The launch's cores are the 13
columns of each of its rows, a dead core's among them (DESIGN CHOICE, log 104). -/
def identity (s : State) (h : Here) (sel : Nat) : Nat :=
  let rel := (s.getObj (Obj.detMask h.l.slice)).testBit 4
  let c := h.g.core
  let row := c / 13
  match sel with
  | 0 => if rel then rankIn (row / 12) (h.l.rows.map (· / 12)) else row / 12
  | 1 => if rel then rankIn row h.l.rows else row % 12
  | 2 => if rel then rankIn c (coresOf h.l.rows) else c
  | 3 => h.g.idx
  | 4 => h.t.idx
  | 5 => h.t.quad
  | _ => h.t.slot

/-- ID_GET (R137). -/
def execIdGet (g : GroupRef) (w : Word64) (s : State) : Res :=
  runInstr [0x85] s g w fun s h => .step s (h.t.setS (fX21 w) (BitVec.ofNat 64 (identity s h (fSel w))))

/-- TIME_GET (R137): device time, or the start of the release tick with mask bit [5]. -/
def execTimeGet (g : GroupRef) (w : Word64) (s : State) : Res :=
  runInstr [0x86] s g w fun s h =>
    let frozen := (s.getObj (Obj.detMask h.l.slice)).testBit 5
    .step s (h.t.setS (fX21 w) (BitVec.ofNat 64 (if frozen then h.l.relTime else s.now)))

/-- TICK_GET (R137): the tick number in [47:0], or the release tick's with mask bit [5]. -/
def execTickGet (g : GroupRef) (w : Word64) (s : State) : Res :=
  runInstr [0x87] s g w fun s h =>
    let frozen := (s.getObj (Obj.detMask h.l.slice)).testBit 5
    .step s (h.t.setS (fX21 w) (BitVec.ofNat 64 ((if frozen then h.l.relTick else s.tick) % 2 ^ 48)))

end Sys2Proof.Machine
end

