-- ==== Sys2Proof/Machine/Atomic.lean ====
section
/-! DEFINITION. Atomic.lean: atomics (R132, R133, R171) and owner-tagged locks (R107 to R110, R134). -/

namespace Sys2Proof.Machine

/-- The check of a lane that reads and writes a location: that of a store, and its old value must not be poisoned (R252). -/
def atomCheck (s : State) (h : Here) (space addr n : Nat) : Except Stop Unit :=
  match laneCheck s h (askOf h) space addr n true with
  | .error e => .error e
  | .ok () => match locate s h.l.slice space addr 1 with
    | .error e => .error e
    | .ok k => if poisoned s k then .error (.wait s) else .ok ()

/-- One indivisible access at device scope: the core's stores that come before it are performed, the L1 copy of the line drops (R169),
the old value is read at the home, and the new one, where there is one, is written there by the home's own agent (R171, R191). -/
def atomicAt (s : State) (h : Here) (space addr n : Nat) (f : Nat → Option Nat) : State × Nat :=
  match locate s h.l.slice space addr 1 with
  | .error _ => (s, 0)
  | .ok k =>
    let s := dropL1 (landFor s h.g.core k.line).1 h.g.core k.line
    let (s, v) := homeSect s h.l.slice k
    let old := leNat (sectGet v (addr % 64) n)
    match f old with
    | none => (s, old)
    | some x => (writePieceAt (lineDie s k.line) .sectors s (some h.g.core) h.l.slice space addr k (toLe n x), old)

/-- An access at group or gang scope, performed within the core (R171): it drops the L1 copy of the line (R169), reads as a load of the
core does and stores as a store of the core does, so that only the core's own accesses are kept apart from it. -/
def atomicNear (s : State) (h : Here) (space addr n : Nat) (f : Nat → Option Nat) : State × Nat :=
  match locate s h.l.slice space addr 1 with
  | .error _ => (s, 0)
  | .ok k =>
    let (s, vs) := loadSects h.g.core h.l.slice (h.t.quad * 8 + h.t.slot) [k] (dropL1 s h.g.core k.line)
    let old := fromSects vs k addr n
    match f old with
    | none => (s, old)
    | some x => (storeAll s h space false [(addr, toLe n x)], old)

/-- One lane's step of an atomic in its scope. -/
def atomicIn (near : Bool) (s : State) (h : Here) (space addr n : Nat) (f : Nat → Option Nat) : State × Nat :=
  if near then atomicNear s h space addr n f else atomicAt s h space addr n f

/-- The lanes of an atomic in ascending order, each seeing the previous lane's result (R132). -/
def atomicLanes (near : Bool) (h : Here) (space n : Nat) (f : Nat → Nat → Option Nat) :
    List (Nat × Nat) → State → State × List (Nat × Nat)
  | [], s => (s, [])
  | (i, a) :: ls, s =>
    let (s, old) := atomicIn near s h space a n (f i)
    let (s, rest) := atomicLanes near h space n f ls s
    (s, (i, old) :: rest)

/-- Whether an atomic's scope is narrower than device. -/
def nearAtom (w : Word64) : Bool := decide (fAscope w < 2)

/-- The core's stores that accesses at the homes of some addresses must follow, performed; false where one must wait. -/
def homesReady (s : State) (h : Here) (space : Nat) (as : List Nat) : State × Bool :=
  as.foldl (fun (x : State × Bool) a => if !x.2 then x else match locate x.1 h.l.slice space a 1 with
    | .ok k => landFor x.1 h.g.core k.line
    | .error _ => x) (s, true)

/-- Width of an atomic in bits. -/
def atomBits (w : Word64) : Nat := if fAsize w = 1 then 64 else 32

/-- Before an atomic: the core's stores that it must follow are performed, all of them where it releases at device scope (R165, R167).
One within the core follows those that it may not take its bytes from (R172). Answers false where one must wait. -/
def atomReady (s : State) (h : Here) (w : Word64) (space : Nat) (as : List Nat) : State × Bool :=
  if nearAtom w then as.foldl (fun (x : State × Bool) a => if x.2 then loadReady x.1 h space (atomBits w / 8) false [a] else x) (s, true)
  else if (fAorder w).testBit 1 then landAll s h.g.core
  else homesReady s h space as

/-- The acquire side of an atomic's ORDER at device scope applies the queued invalidations (R165, R169). -/
def atomAcquire (s : State) (h : Here) (w : Word64) : State :=
  if (fAorder w).testBit 0 && decide (2 ≤ fAscope w) then applyInv s h.g.core else s

/-- The sectors that an atomic's lanes address. -/
def atomKeys (s : State) (h : Here) (space : Nat) (as : List Nat) : List SectKey :=
  as.filterMap fun a => match locate s h.l.slice space a 1 with
    | .ok k => some k
    | .error _ => none

/-- An atomic whose new value is `f` of the width, old, B and C (none: nothing is written), and whose lanes raise arithmetic conditions
(R53). Only a lane that writes may meet a held lock word (R107). A scope violation is of no address, so ADDRESS is 0 (DESIGN CHOICE, log 104). -/
def atomicTrap (raises : State → Here → Word64 → Raised) (op : Nat) (g : GroupRef) (w : Word64) (s : State)
    (f : Nat → Nat → Nat → Nat → Option Nat) : Res :=
  runInstr [op] s g w fun s h =>
    let n := atomBits w / 8
    let ls := (lanesOf (actMask h.t h.p w)).map fun i => (i, laneAddr h.t w 0 i)
    let b (r i : Nat) : Nat := h.t.vregs' r i (n / 4)
    if ls.isEmpty then .step s h.t
    else if badScope w then .fault s 0x49 (actMask h.t h.p w) 0 w
    else if op = 0x71 ∧ (s.getObj (Obj.detMask h.l.slice)).testBit 0 then .fault s 0x45 (actMask h.t h.p w) 0 w
    else if (fAorder w).testBit 1 && engineOwes s g h.g.core || tileQueued s g h.g.core (fAspace w) n (ls.map (·.2)) then .wait s
    else match checkLanes s ls (fun s a => atomCheck s h (fAspace w) a n) with
    | .act a => a
    | .ok => match atomReady s h w (fAspace w) (ls.map (·.2)) with
      | (s, false) => .wait s
      | (s, true) =>
      let new (i old : Nat) : Option Nat := f (8 * n) old (b (fVB w) i) (b (fVC w) i)
      let s := keepShadow s h.l.ctx h.g.idx h.g.core (atomKeys s h (fAspace w) (ls.map (·.2)))
      match (if h.l.trap then (raises s h w).trap else none) with
      | some (c, lm) => .fault s c lm 0 w
      | none =>
      let (s', olds) := atomicLanes (nearAtom w) h (fAspace w) n new ls s
      if heldLock s h.l.slice (fAspace w) n ((ls.filter fun l => olds.any fun p => p.1 == l.1 && (new p.1 p.2).isSome).map (·.2)) then .any s else
      let s' := atomAcquire s' h w
      let t := olds.foldl (fun t p => t.setVs (fD w) p.1 (n / 4) p.2) h.t
      let t := if op = 0x7A then
          t.setP (fTop3 w) (mergeP (h.t.preg (fTop3 w)) (maskOf fun i => olds.any fun p => p.1 == i && (new i p.2).isNone) (actMask h.t h.p w))
        else t
      .step s' t

/-- An atomic that raises no arithmetic condition. -/
def atomicOp (op : Nat) (g : GroupRef) (w : Word64) (s : State) (f : Nat → Nat → Nat → Nat → Option Nat) : Res :=
  atomicTrap (fun _ _ _ => {}) op g w s f

/-- ATOM_ADD (R132): wrapping. -/
def execAtomAdd (g : GroupRef) (w : Word64) (s : State) : Res := atomicOp 0x70 g w s fun k o b _ => some ((o + b) % 2 ^ k)

/-- The sum of a floating-point atomic: binary32 or binary64 by its size, RNE. -/
def faddAtom (k o b : Nat) : Rounded :=
  let f := if k = 64 then fmtF64 else fmtF32
  addF f 0 (decodeF f o) (decodeF f b)

/-- What the lanes of a floating-point atomic raise, each lane seeing the previous lane's result at its address. -/
def faddRaised (s : State) (h : Here) (w : Word64) : Raised :=
  let n := atomBits w / 8
  let ls := (lanesOf (actMask h.t h.p w)).map fun i => (i, laneAddr h.t w 0 i)
  let b (i : Nat) : Nat := h.t.vregs' (fVB w) i (n / 4)
  let (_, olds) := atomicLanes (nearAtom w) h (fAspace w) n (fun i o => some (faddAtom (8 * n) o (b i)).bits) ls s
  olds.foldl (fun r p => r.add p.1 [faddAtom (8 * n) p.2 (b p.1)]) {}

/-- ATOM_FADD (R133): cause 0x45 with determinism mask bit [0]; else the sum in binary32 or binary64 under RNE, with the trap of
R53 on the lanes' conditions. -/
def execAtomFadd (g : GroupRef) (w : Word64) (s : State) : Res :=
  atomicTrap faddRaised 0x71 g w s fun k o b _ => some (faddAtom k o b).bits

/-- ATOM_MIN_S (R132). -/
def execAtomMinS (g : GroupRef) (w : Word64) (s : State) : Res :=
  atomicOp 0x72 g w s fun k o b _ => some (if signedN k b < signedN k o then b else o)

/-- ATOM_MAX_S (R132). -/
def execAtomMaxS (g : GroupRef) (w : Word64) (s : State) : Res :=
  atomicOp 0x73 g w s fun k o b _ => some (if signedN k o < signedN k b then b else o)

/-- ATOM_MIN_U (R132). -/
def execAtomMinU (g : GroupRef) (w : Word64) (s : State) : Res := atomicOp 0x74 g w s fun _ o b _ => some (min o b)

/-- ATOM_MAX_U (R132). -/
def execAtomMaxU (g : GroupRef) (w : Word64) (s : State) : Res := atomicOp 0x75 g w s fun _ o b _ => some (max o b)

/-- ATOM_AND (R132). -/
def execAtomAnd (g : GroupRef) (w : Word64) (s : State) : Res := atomicOp 0x76 g w s fun _ o b _ => some (o &&& b)

/-- ATOM_OR (R132). -/
def execAtomOr (g : GroupRef) (w : Word64) (s : State) : Res := atomicOp 0x77 g w s fun _ o b _ => some (o ||| b)

/-- ATOM_XOR (R132). -/
def execAtomXor (g : GroupRef) (w : Word64) (s : State) : Res := atomicOp 0x78 g w s fun _ o b _ => some (o ^^^ b)

/-- ATOM_EXCH (R132). -/
def execAtomExch (g : GroupRef) (w : Word64) (s : State) : Res := atomicOp 0x79 g w s fun _ _ b _ => some b

/-- ATOM_CAS (R132): C where old equals B; PD true in the lanes that wrote nothing. -/
def execAtomCas (g : GroupRef) (w : Word64) (s : State) : Res :=
  atomicOp 0x7A g w s fun _ o b c => if o = b then some c else none

/-! ### Locks -/

/-- A lock word (Table 3.11). -/
def lockWord (held abandoned : Bool) (pid ctx : Nat) : Nat :=
  (if held then 1 else 0) + (if abandoned then 2 else 0) + pid % 2 ^ 20 * 2 ^ 8 + ctx % 2 ^ 24 * 2 ^ 28

/-- The lock table of a launch. -/
def lockTable (s : State) (ctx : Nat) : List LockEnt := ((s.launch? ctx).map (·.locks)).getD []

/-- Whether a reserved bit of a lock word is set, which has unpredictable results (R107, R8). -/
def lockReserved (v : Nat) : Bool := bits v 7 2 != 0 || bits v 63 52 != 0

/-- The lanes of a `lock.acq` in ascending order: results, or the lane whose lock would be the 257th (R108, R109). -/
def acqLanes (h : Here) (space pid : Nat) : List (Nat × Nat) → State → State × List (Nat × Nat) × Option (Option (Nat × Nat))
  | [], s => (s, [], none)
  | (i, a) :: ls, s =>
    let (s1, old) := atomicAt s h space a 8 fun _ => none
    if lockReserved old then (s1, [], some none)
    else if old.testBit 0 then
      let (s2, rest, f) := acqLanes h space pid ls s1
      (s2, (i, 0) :: rest, f)
    else if 256 ≤ (lockTable s h.l.ctx).length then (s, [], some (some (i, a)))
    else
      let (s2, _) := atomicAt s h space a 8 fun _ => some (lockWord true false pid h.l.ctx)
      let s2 := updLaunch s2 h.l.ctx fun l => { l with locks := l.locks ++ [⟨space, BitVec.ofNat 64 a⟩] }
      let (s3, rest, f) := acqLanes h space pid ls s2
      (s3, (i, 1 + (if old.testBit 1 then 2 else 0)) :: rest, f)

/-- LOCK_ACQ (R108, R134): never waits for the lock; a success acquires at device scope. Where a lane's lock would be the 257th, that lane
faults, the lanes below it keep the locks they took and the lanes above it do not act (DESIGN CHOICE, log 104). -/
def execLockAcq (g : GroupRef) (w : Word64) (s : State) : Res :=
  runInstr [0x7B] s g w fun s h =>
    let ls := (lanesOf (actMask h.t h.p w)).map fun i => (i, laneAddr h.t w 0 i)
    if badScope w && !ls.isEmpty then .fault s 0x49 (actMask h.t h.p w) 0 w
    else if tileQueued s g h.g.core (fAspace w) 8 (ls.map (·.2)) then .wait s
    else match checkLanes s ls (fun s a => atomCheck s h (fAspace w) a 8) with
    | .act a => a
    | .ok => match homesReady s h (fAspace w) (ls.map (·.2)) with
      | (s, false) => .wait s
      | (s, true) =>
      let (s', rs, f) := acqLanes h (fAspace w) (s.getObj (Obj.sPid h.l.slice)) ls s
      match f with
      | some none => .any s'
      | some (some (i, a)) => .fault s' 0x4C (maskOf fun j => j == i) (BitVec.ofNat 64 a) (BitVec.ofNat 64 a)
      | none =>
        let s' := if rs.any fun p => p.2 != 0 then applyInv s' h.g.core else s'
        .step s' (rs.foldl (fun t p => t.setVs (fD w) p.1 2 p.2) h.t)

/-- The lanes of a `lock.rel` in ascending order (R110). -/
def relLanes (h : Here) (space pid : Nat) : List (Nat × Nat) → State → State × List (Nat × Bool) × Bool
  | [], s => (s, [], false)
  | (i, a) :: ls, s =>
    let (s1, old) := atomicAt s h space a 8 fun _ => none
    if lockReserved old then (s1, [], true) else
    let mine := old.testBit 0 && bits old 27 8 == pid % 2 ^ 20 && bits old 51 28 == h.l.ctx % 2 ^ 24
    if mine then
      let (s2, _) := atomicAt s h space a 8 fun _ => some 0
      let s2 := updLaunch s2 h.l.ctx fun l => { l with locks := l.locks.filter fun e => e != ⟨space, BitVec.ofNat 64 a⟩ }
      let (s3, rest, odd) := relLanes h space pid ls s2
      (s3, (i, true) :: rest, odd)
    else
      let (s3, rest, odd) := relLanes h space pid ls s1
      (s3, (i, false) :: rest, odd)

/-- LOCK_REL (R110, R134): PD by lane; a release at device scope. -/
def execLockRel (g : GroupRef) (w : Word64) (s : State) : Res :=
  runInstr [0x7C] s g w fun s h =>
    let ls := (lanesOf (actMask h.t h.p w)).map fun i => (i, laneAddr h.t w 0 i)
    if badScope w && !ls.isEmpty then .fault s 0x49 (actMask h.t h.p w) 0 w
    else if engineOwes s g h.g.core then .wait s
    else match checkLanes s ls (fun s a => atomCheck s h (fAspace w) a 8) with
    | .act a => a
    | .ok => match landAll s h.g.core with
      | (s, false) => .wait s
      | (s, true) =>
      let (s', rs, odd) := relLanes h (fAspace w) (s.getObj (Obj.sPid h.l.slice)) ls s
      if odd then .any s' else .step s' (h.t.setP (fTop3 w) (mergeP (h.t.preg (fTop3 w)) (maskOf fun i => rs.any fun p => p.1 == i && p.2) (actMask h.t h.p w)))

end Sys2Proof.Machine
end

