-- ==== Sys2Proof/Machine/Block.lean ====
section
/-! DEFINITION. Block.lean: context blocks. Layout words and block storage (R208 to R211), planes encoded and decoded (R46 to
R49), the context map as data (R212, R213), ember pools with their live and quarantined storage (R215, R224), and reads and
writes of block storage by physical address. -/

namespace Sys2Proof.Machine

/-! ### Layout words and block storage (Tables 7.1, 7.2, R210) -/

def loHeads (w : Nat) : Nat := bits w 8 0
def loDim (w : Nat) : Nat := (bits w 12 9 + 1) * 32
def loKfmt (w : Nat) : Nat := bits w 14 13
def loVfmt (w : Nat) : Nat := bits w 16 15

/-- Rounding up to a multiple. -/
def padUp (m v : Nat) : Nat := (v + m - 1) / m * m

/-- Bytes of a plane: elements and group scales. -/
def planeBytes (fmt d : Nat) : Nat := if fmt = 1 then 16 * d + d / 2 else if fmt = 2 then 9 * d else 7 * d

/-- Bytes of the element string of a plane. -/
def elemBytes (fmt d : Nat) : Nat := 2 * d * ebWidth fmt

/-- Bytes of the plane-scale array. -/
def scaleArray (h : Nat) : Nat := 64 * ((2 * h + 63) / 64)

/-- Bytes of the two planes of a head. -/
def headBytes (kf vf d : Nat) : Nat := padUp 64 (planeBytes kf d) + padUp 64 (planeBytes vf d)

/-- BLOCK_BYTES (R210). -/
def blockBytes (kf vf h d : Nat) : Nat := padUp 512 (scaleArray h + h * headBytes kf vf d)

/-- Where the key plane (value false) or the value plane of a head starts. -/
def planeOff (kf vf h d head : Nat) (value : Bool) : Nat :=
  scaleArray h + head * headBytes kf vf d + (if value then padUp 64 (planeBytes kf d) else 0)

/-! ### Element strings (R41) -/

/-- `n` elements of `w` bits out of a little-endian bit string. -/
def unpackElems (w n v : Nat) : List Nat := (List.range n).map fun i => v / 2 ^ (w * i) % 2 ^ w

/-- Elements of `w` bits as bytes; their count times `w` is a multiple of 8. -/
def packBytes (w : Nat) (es : List Nat) : List Byte := toLe (es.length * w / 8) (packElems w es)

/-! ### Planes (R47, R48, R49) -/

/-- The groups of a plane, in order: group scale and elements. `bs` holds the elements and the group scales. -/
def planeGroups (fmt d : Nat) (bs : List Byte) : List (Nat × List Nat) :=
  let g := ebGroup fmt
  let gb := g * ebWidth fmt / 8
  (List.range (16 * d / g)).map fun j =>
    (fieldLe bs (elemBytes fmt d + j) 1, unpackElems (ebWidth fmt) g (fieldLe bs (j * gb) gb))

/-- The exact values of a plane, position-major. -/
def decodePlane (fmt d pscale : Nat) (bs : List Byte) : List FVal :=
  (planeGroups fmt d bs).flatMap fun p => p.2.map fun e => ebValue fmt e p.1 pscale

/-- A plane of values, position-major, encoded: the plane scale and the bytes. -/
def encodePlane (fmt : Nat) (vs : List FVal) : Nat × List Byte :=
  let (es, gs, p) := ebEncode fmt vs
  (p, (chunks (ebGroup fmt) es.length es).flatMap (packBytes (ebWidth fmt)) ++ gs.map (BitVec.ofNat 8))

/-- Infinite and NaN values of a list (R48). -/
def specialCount (vs : List FVal) : Nat × Nat :=
  ((vs.filter fun v => v == .inf false || v == .inf true).length, (vs.filter fun v => v == .nan).length)

/-- A block as its heads' planes: for each head the key values and the value values. -/
abbrev Planes := List (List FVal × List FVal)

/-- A block's storage (R209). -/
def encodeBlock (kf vf d : Nat) (ps : Planes) : List Byte :=
  let h := ps.length
  let enc := ps.map fun p => (encodePlane kf p.1, encodePlane vf p.2)
  let scales := enc.flatMap fun e => [BitVec.ofNat 8 (if kf = 1 then 0 else e.1.1), BitVec.ofNat 8 (if vf = 1 then 0 else e.2.1)]
  padTo (blockBytes kf vf h d)
    (padTo (scaleArray h) scales ++
      enc.flatMap fun e => padTo (padUp 64 (planeBytes kf d)) e.1.2 ++ padTo (padUp 64 (planeBytes vf d)) e.2.2)

/-- The planes of a block from its storage. -/
def decodeBlock (kf vf h d : Nat) (bs : List Byte) : Planes :=
  (List.range h).map fun i =>
    (decodePlane kf d (fieldLe bs (2 * i) 1) (bs.drop (planeOff kf vf h d i false)),
     decodePlane vf d (fieldLe bs (2 * i + 1) 1) (bs.drop (planeOff kf vf h d i true)))

/-- R225: the format of a part after a request; it only narrows. -/
def narrowFmt (old asked : Nat) : Nat := if asked ≠ 0 ∧ old < asked then asked else old

/-- A block's storage re-encoded in other formats, part by part; a part whose format stays keeps its bytes. -/
def recodeBlock (kf vf kf' vf' h d : Nat) (bs : List Byte) : List Byte :=
  let enc := (List.range h).map fun i =>
    let old (f : Nat) (v : Bool) : Nat × List Byte :=
      (fieldLe bs (2 * i + (if v then 1 else 0)) 1, (bs.drop (planeOff kf vf h d i v)).take (planeBytes f d))
    let new (f f' : Nat) (v : Bool) : Nat × List Byte :=
      let o := old f v
      if f = f' then o else encodePlane f' (decodePlane f d o.1 o.2)
    (new kf kf' false, new vf vf' true)
  padTo (blockBytes kf' vf' h d)
    (padTo (scaleArray h) (enc.flatMap fun e => [BitVec.ofNat 8 e.1.1, BitVec.ofNat 8 e.2.1]) ++
      enc.flatMap fun e => padTo (padUp 64 (planeBytes kf' d)) e.1.2 ++ padTo (padUp 64 (planeBytes vf' d)) e.2.2)

/-! ### The context map (R212, R213) -/

/-- An entry that no operation has allocated. -/
def freeEntry (_ : Nat) : CtxEntry := {}

def ctxEntry (s : State) (n h : Nat) : CtxEntry := sget freeEntry (s.slice n).entries h

def layoutWord (s : State) (n l : Nat) : Nat := s.getObj (Obj.layout n l)

/-- Bytes of an entry's storage. -/
def entryBytes (s : State) (n : Nat) (e : CtxEntry) : Nat :=
  let w := layoutWord s n e.layout
  blockBytes e.kfmt e.vfmt (loHeads w) (loDim w)

/-- Storage of a slice that is not reusable: live and quarantined, as (address, bytes, tier). -/
def heldStorage (s : State) (n : Nat) : List (Nat × Nat × Nat) :=
  let x := s.slice n
  ((x.entries.filter fun p => p.2.state == 2).map fun p => (p.2.addr, entryBytes s n p.2, p.2.tier)) ++
    x.quar.map fun q => (q.pa, q.bytes, q.tier)

/-- Whether an enabled lock set that banks has a member channel of the slice. -/
def inBankingSet (s : State) (n : Nat) : Bool :=
  (List.range 8).any fun k => s.getObj (Obj.lsEnable k) == 1 && s.getObj (Obj.rekindle k) == 1 &&
    (List.range 256).any fun c => (lsMembers s k).testBit c && s.getObj (Obj.chSlice c) == n

/-- The objects of Table 7.10 that count entries and storage, written from the map and the pools. -/
def recount (s : State) (n : Nat) : State :=
  let x := s.slice n
  let s := s.putObj (Obj.mapLive n) (x.entries.filter fun p => p.2.state != 0).length
  let s := s.putObj (Obj.quarantined n) (sumNat (x.quar.map (·.bytes)))
  (List.range 3).foldl (fun s t =>
    let s := s.putObj (Obj.poolBytes n t) (2 ^ 21 * (x.pools.filter fun p => p.tier == t).length)
    s.putObj (Obj.poolUsed n t) (sumNat ((heldStorage s n).filterMap fun h => if h.2.2 = t then some h.2.1 else none))) s

/-- Writing a map entry. An explicit change makes the block eligible again for automatic moves (R228). -/
def putEntry (s : State) (n h : Nat) (e : CtxEntry) : State :=
  let x := s.slice n
  recount (s.setSlice { x with entries := sput freeEntry x.entries h e, abandoned := x.abandoned.filter fun a => a != h }) n

/-- R224: storage released by FREE, a switch or a move. Reads are whole within a command, so only the next bank point of a slice
whose lock set banks holds it back. -/
def releaseStorage (s : State) (n : Nat) (pa bytes tier : Nat) : State :=
  if inBankingSet s n then
    let x := s.slice n
    recount (s.setSlice { x with quar := x.quar ++ [{ pa := pa, bytes := bytes, tier := tier, needSeal := true }] }) n
  else recount s n

/-- Storage of a slice that no bank point holds back any more, its channels having left the sets that bank, is free (R224). -/
def freeQuarantine (s : State) (n : Nat) : State :=
  if inBankingSet s n then s
  else
    let x := s.slice n
    recount (s.setSlice { x with quar := x.quar.filter fun q => !q.needSeal }) n

/-- A lookup of the context map through the map cache (R214): which lookups hit is left open (log 28), so the count that rises is
a free choice. -/
def mapLookup (s : State) : State :=
  let c := s.freeVal % 2
  (s.useFree 1).addObj (if c = 0 then Obj.mapCacheHits else Obj.mapCacheMisses) 1

/-! ### Pool storage (R215) -/

/-- The pool page of a physical address. -/
def poolPage? (s : State) (n pa : Nat) : Option PoolPage := (s.slice n).pools.find? fun p => decide (p.pa ≤ pa ∧ pa < p.pa + 2 ^ 21)

/-- Room for a block in a tier's pool: the lowest 512-byte-aligned run of a page that meets nothing live or quarantined
(log 29). -/
def findRoom (s : State) (n tier bytes : Nat) : Option Nat :=
  let held := heldStorage s n
  let cands := ((s.slice n).pools.filter fun p => p.tier == tier).flatMap fun p =>
    (p.pa :: (held.filter fun h => decide (p.pa ≤ h.1 ∧ h.1 < p.pa + 2 ^ 21)).map fun h => h.1 + h.2.1).filter fun a =>
      decide (a + bytes ≤ p.pa + 2 ^ 21) && held.all fun h => decide (h.1 + h.2.1 ≤ a ∨ a + bytes ≤ h.1)
  cands.foldl (fun acc a => match acc with
    | none => some a
    | some b => some (min a b)) none

/-- The high and the low watermark of a tier in force: those of the last tick boundary (after Table 7.10). -/
def marksOf (s : State) (n tier : Nat) : Nat × Nat :=
  (s.slice n).marks.getD tier (s.getObj (Obj.highWm n tier), s.getObj (Obj.lowWm n tier))

/-- The watermarks as they stand come into force at a tick boundary. -/
def takeMarks (s : State) (n : Nat) : State :=
  s.setSlice { s.slice n with marks := (List.range 3).map fun t => (s.getObj (Obj.highWm n t), s.getObj (Obj.lowWm n t)) }

/-- Whether a tier's pool is below its high watermark; a tier with no pool never is (R228). -/
def belowHigh (s : State) (n tier : Nat) : Bool :=
  decide (s.getObj (Obj.poolUsed n tier) * 100 < s.getObj (Obj.poolBytes n tier) * (marksOf s n tier).1)

/-! ### Reads and writes of block storage -/

/-- Reads whole sectors of device memory by physical address at their homes. -/
def readPaGo (n : Nat) : Nat → State → Nat → Except Stop (State × List Byte)
  | 0, s, _ => .ok (s, [])
  | k + 1, s, pa =>
    let key := devSect pa
    match reach s key false .ember with
    | .error e => .error e
    | .ok () =>
      let (s, v) := homeSect s n key
      match readPaGo n k s (pa + 64) with
      | .error e => .error e
      | .ok (s, bs) => .ok (s, sectGet v 0 64 ++ bs)

/-- Reads `len` bytes of block storage from a 64-byte-aligned physical address. -/
def readPa (s : State) (n pa len : Nat) : Except Stop (State × List Byte) :=
  match readPaGo n ((len + 63) / 64) s pa with
  | .ok (s, bs) => .ok (s, bs.take len)
  | .error e => .error e

/-- Whether writes to a run of block storage can go through now. -/
def reachPa (s : State) : Nat → Nat → Except Stop Unit
  | 0, _ => .ok ()
  | k + 1, pa => match reach s (devSect pa) true .ember with
    | .error e => .error e
    | .ok () => reachPa s k (pa + 64)

/-- Writes whole sectors of new block storage (R223), with the page of the pool in the dirty-page log (R361). -/
def writePaGo (n : Nat) : List (List Byte) → State → Nat → State
  | [], s, _ => s
  | b :: bs, s, pa =>
    let s := match poolPage? s n pa with
      | some p => logWrite s n (p.va + (pa - p.pa))
      | none => s
    writePaGo n bs (writeSect s none n (devSect pa) 0 b) (pa + 64)

def writePa (s : State) (n pa : Nat) (bs : List Byte) : State := writePaGo n (chunks 64 bs.length bs) s pa

end Sys2Proof.Machine
end

