-- ==== Sys2Proof/Machine/Sha.lean ====
section
/-! DEFINITION. Sha.lean: SHA-384 (FIPS 180-4) with its chaining state kept between pieces, as R307 feeds it, and HMAC-SHA-384
(RFC 2104, FIPS 198-1), as R481 uses it. Log 12: both standards are named by the manual and read from their own texts. -/

namespace Sys2Proof.Machine

/-- Round constants: fractional parts of the cube roots of the first 80 primes. -/
def shaK : List Word64 :=
  [0x428a2f98d728ae22, 0x7137449123ef65cd, 0xb5c0fbcfec4d3b2f, 0xe9b5dba58189dbbc] ++
  [0x3956c25bf348b538, 0x59f111f1b605d019, 0x923f82a4af194f9b, 0xab1c5ed5da6d8118] ++
  [0xd807aa98a3030242, 0x12835b0145706fbe, 0x243185be4ee4b28c, 0x550c7dc3d5ffb4e2] ++
  [0x72be5d74f27b896f, 0x80deb1fe3b1696b1, 0x9bdc06a725c71235, 0xc19bf174cf692694] ++
  [0xe49b69c19ef14ad2, 0xefbe4786384f25e3, 0x0fc19dc68b8cd5b5, 0x240ca1cc77ac9c65] ++
  [0x2de92c6f592b0275, 0x4a7484aa6ea6e483, 0x5cb0a9dcbd41fbd4, 0x76f988da831153b5] ++
  [0x983e5152ee66dfab, 0xa831c66d2db43210, 0xb00327c898fb213f, 0xbf597fc7beef0ee4] ++
  [0xc6e00bf33da88fc2, 0xd5a79147930aa725, 0x06ca6351e003826f, 0x142929670a0e6e70] ++
  [0x27b70a8546d22ffc, 0x2e1b21385c26c926, 0x4d2c6dfc5ac42aed, 0x53380d139d95b3df] ++
  [0x650a73548baf63de, 0x766a0abb3c77b2a8, 0x81c2c92e47edaee6, 0x92722c851482353b] ++
  [0xa2bfe8a14cf10364, 0xa81a664bbc423001, 0xc24b8b70d0f89791, 0xc76c51a30654be30] ++
  [0xd192e819d6ef5218, 0xd69906245565a910, 0xf40e35855771202a, 0x106aa07032bbd1b8] ++
  [0x19a4c116b8d2d0c8, 0x1e376c085141ab53, 0x2748774cdf8eeb99, 0x34b0bcb5e19b48a8] ++
  [0x391c0cb3c5c95a63, 0x4ed8aa4ae3418acb, 0x5b9cca4f7763e373, 0x682e6ff3d6b2b8a3] ++
  [0x748f82ee5defb2fc, 0x78a5636f43172f60, 0x84c87814a1f0ab72, 0x8cc702081a6439ec] ++
  [0x90befffa23631e28, 0xa4506cebde82bde9, 0xbef9a3f7b2c67915, 0xc67178f2e372532b] ++
  [0xca273eceea26619c, 0xd186b8c721c0c207, 0xeada7dd6cde0eb1e, 0xf57d4f7fee6ed178] ++
  [0x06f067aa72176fba, 0x0a637dc5a2c898a6, 0x113f9804bef90dae, 0x1b710b35131c471b] ++
  [0x28db77f523047d84, 0x32caab7b40c72493, 0x3c9ebe0a15c9bebc, 0x431d67c49c100d4c] ++
  [0x4cc5d4becb3e42b6, 0x597f299cfc657e2a, 0x5fcb6fab3ad6faec, 0x6c44198c4a475817]

/-- Initial hash value of SHA-384. -/
def shaInit : List Word64 :=
  [0xcbbb9d5dc1059ed8, 0x629a292a367cd507, 0x9159015a3070dd17, 0x152fecd8f70e5939] ++
  [0x67332667ffc00b31, 0x8eb44a8768581511, 0xdb0c2e0d64f98fa7, 0x47b5481dbefa4fa4]

def rotr (n : Nat) (x : Word64) : Word64 := x.rotateRight n

/-- The message schedule beyond the block's 16 words: newest first. -/
def shaExpand : Nat → List Word64 → List Word64
  | 0, w => w
  | k + 1, w =>
    let a := w.getD 14 0
    let b := w.getD 1 0
    let s0 := rotr 1 a ^^^ rotr 8 a ^^^ (a >>> 7)
    let s1 := rotr 19 b ^^^ rotr 61 b ^^^ (b >>> 6)
    shaExpand k ((w.getD 15 0 + s0 + w.getD 6 0 + s1) :: w)

/-- The eight working variables. -/
structure ShaVars where
  a : Word64
  b : Word64
  c : Word64
  d : Word64
  e : Word64
  f : Word64
  g : Word64
  h : Word64
  deriving DecidableEq, Repr

def shaRound (v : ShaVars) (kw : Word64) : ShaVars :=
  let s1 := rotr 14 v.e ^^^ rotr 18 v.e ^^^ rotr 41 v.e
  let t1 := v.h + s1 + ((v.e &&& v.f) ^^^ (~~~v.e &&& v.g)) + kw
  let s0 := rotr 28 v.a ^^^ rotr 34 v.a ^^^ rotr 39 v.a
  let t2 := s0 + ((v.a &&& v.b) ^^^ (v.a &&& v.c) ^^^ (v.b &&& v.c))
  ⟨t1 + t2, v.a, v.b, v.c, v.d + t1, v.e, v.f, v.g⟩

/-- A big-endian number. -/
def beNat (bs : List Byte) : Nat := bs.foldl (fun a b => a * 256 + b.toNat) 0

/-- The `n` low bytes of a number, most significant first. -/
def toBe (n v : Nat) : List Byte := (toLe n v).reverse

/-- One 128-byte block into the chaining state. -/
def shaBlock (st : List Word64) (bs : List Byte) : List Word64 :=
  let w := (chunks 8 16 bs).map fun c => BitVec.ofNat 64 (beNat c)
  let ws := (shaExpand 64 w.reverse).reverse
  let v0 : ShaVars := ⟨st.getD 0 0, st.getD 1 0, st.getD 2 0, st.getD 3 0, st.getD 4 0, st.getD 5 0, st.getD 6 0, st.getD 7 0⟩
  let v := (ws.zip shaK).foldl (fun v p => shaRound v (p.1 + p.2)) v0
  [v0.a + v.a, v0.b + v.b, v0.c + v.c, v0.d + v.d, v0.e + v.e, v0.f + v.f, v0.g + v.g, v0.h + v.h]

/-- Whole blocks fed in order. -/
def shaFeed (st : List Word64) (bs : List Byte) : List Word64 := (chunks 128 (bs.length / 128) bs).foldl shaBlock st

/-- The digest once the last bytes (fewer than 128) of a message of `n` bytes are at hand. -/
def shaFinish (st : List Word64) (rest : List Byte) (n : Nat) : List Byte :=
  let pad := (111 + 128 - rest.length % 128) % 128
  let st := shaFeed st (rest ++ 0x80 :: List.replicate pad 0 ++ toBe 16 (8 * n))
  (st.take 6).flatMap fun w => toBe 8 w.toNat

/-- SHA-384 of a message. -/
def sha384 (bs : List Byte) : List Byte :=
  let k := bs.length / 128 * 128
  shaFinish (shaFeed shaInit (bs.take k)) (bs.drop k) bs.length

/-- HMAC-SHA-384. -/
def hmac384 (key msg : List Byte) : List Byte :=
  let k := padTo 128 (if 128 < key.length then sha384 key else key)
  let x (c : Byte) : List Byte := k.map (· ^^^ c)
  sha384 (x 0x5c ++ sha384 (x 0x36 ++ msg))

end Sys2Proof.Machine
end

