-- ==== Sys2Proof/Machine/Cmds.lean ====
section
/-! DEFINITION. Cmds.lean: what every command of a work channel shares. Logical ticks and deadlines (R261, R266, R269), the
command header (Table 10.2), commands fetched and in flight, completion records with status precedence (R287, R296, R301,
Table 10.4), measurement slots (R307) and the journal (R378). -/

namespace Sys2Proof.Machine

/-! ### Lock sets and logical ticks -/

/-- The shift S of a channel (R266). -/
def shiftOf (s : State) (ch : Nat) : Nat := match lsOf s ch with
  | some k => s.getObj (Obj.lsShift k)
  | none => 0

/-- The logical tick of a channel: the device tick less S. -/
def logicalTick (s : State) (ch : Nat) : Nat := s.tick - shiftOf s ch

/-- The tick period in ns. -/
def periodNs (s : State) : Nat := s.getObj Obj.tickPeriod * 1000

/-- T(n) from tick `c` on, which begins at `t` with period `p` (in ns), over the changes of the period that are pending (R261, R265). -/
def timeAhead (c t p : Int) : List (Nat × Nat) → Int → Int
  | [], n => t + (n - c) * p
  | x :: l, n => if n ≤ x.1 then t + (n - c) * p else timeAhead x.1 (t + (x.1 - c) * p) (x.2 * 1000 : Nat) l n

/-- T(n) before tick `c`, which begins at `t` after period `p`, over the changes made. -/
def timeBack (c t p : Int) : List (Nat × Nat × Nat) → Int → Int
  | [], n => t - (c - n) * p
  | x :: l, n => if (x.1 : Int) ≤ n then t - (c - n) * p else timeBack x.1 x.2.1 x.2.2 l n

/-- T(n): the start of tick `n`, which is to come or is past (R261). -/
def tickTime (s : State) (n : Int) : Int :=
  if (s.tick : Int) ≤ n then timeAhead s.tick (s.getObj Obj.tickStart) (periodNs s) s.net.period n
  else timeBack s.tick (s.getObj Obj.tickStart) (periodNs s) s.net.eras n

/-! ### The command header -/

def Cmd.sched0 (c : Cmd) : Nat := fieldLe c.slot 0 8
def Cmd.sched1 (c : Cmd) : Nat := fieldLe c.slot 8 8
def Cmd.notBefore (c : Cmd) : Nat := bits c.sched1 47 0
def Cmd.dclass (c : Cmd) : Nat := bits c.sched1 51 48
def Cmd.atomic (c : Cmd) : Bool := bitN c.sched1 52
/-- A field of the slot by its offset in the command. -/
def Cmd.field (c : Cmd) (off n : Nat) : Nat := fieldLe c.slot off n

/-- Whether the reserved bits of the scheduling words are written (R8). -/
def Cmd.schedReserved (c : Cmd) : Bool := decide (bits c.sched1 63 53 ≠ 0)

/-- The deadline instant in device time (R269): the full tick nearest to the logical tick, mapped through S. -/
def deadlineOf (s : State) (ch : Nat) (c : Cmd) : Option Int :=
  if c.sched0 = 0 then none
  else
    let cur : Int := logicalTick s ch
    let lo := cur - 2 ^ 43
    let dl : Int := (c.sched0 / 2 ^ 20 : Nat)
    let off : Int := (c.sched0 % 2 ^ 20 : Nat)
    let full : Int := lo + (dl - lo) % 2 ^ 44
    some (tickTime s (full + shiftOf s ch) + off * 1000)

/-- Whether a command's deadline has passed. -/
def pastDeadline (s : State) (ch : Nat) (c : Cmd) : Bool := match deadlineOf s ch c with
  | some d => decide (d < s.now)
  | none => false

/-! ### Commands of a channel -/

def findFlight (s : State) (ch seq : Nat) : Option Cmd := (s.chan ch).flight.find? fun c => c.seq == seq

/-- Change a command in flight. -/
def updFlight (s : State) (ch seq : Nat) (f : Cmd → Cmd) : State :=
  let x := s.chan ch
  s.setChan { x with flight := mapIf (fun c => c.seq == seq) f x.flight }

def putFlight (s : State) (ch : Nat) (c : Cmd) : State := updFlight s ch c.seq fun _ => c

/-- The slice of a channel. -/
def chSliceOf (s : State) (ch : Nat) : Nat := s.getObj (Obj.chSlice ch)

/-- Channels of a slice. -/
def channelsOf (s : State) (n : Nat) : List Nat := (List.range 256).filter fun c => s.getObj (Obj.chSlice c) == n

/-! ### Status codes (Table 0.5) and their precedence (Table 9.6a) -/

abbrev stOk : Nat := 0
abbrev stPartial : Nat := 1
abbrev stRemoteLost : Nat := 2
abbrev stKilled : Nat := 3
abbrev stQuiesced : Nat := 4
abbrev stRekindled : Nat := 5
abbrev stMissed : Nat := 6
abbrev stRefused : Nat := 7
abbrev stOverrun : Nat := 9
abbrev stNotQuiet : Nat := 10

/-- Order of a status in Table 9.6a. -/
def statusOrder (st : Nat) : Nat :=
  match st with
  | 3 => 1
  | 9 => 2
  | 2 => 3
  | 4 => 4
  | 1 => 5
  | 7 => 5
  | 6 => 6
  | 5 => 7
  | _ => 8

/-- The first of the statuses that applies. -/
def firstStatus (l : List Nat) : Nat := l.foldl (fun a b => if statusOrder b < statusOrder a then b else a) stOk

/-- The outcome so far of a command with several launches, with one more: the first by Table 9.6a. -/
def worseOf (w : Option Final) (f : Final) : Option Final := match w with
  | none => if f.status = stOk then none else some f
  | some x => if statusOrder f.status < statusOrder x.status then some f else some x

/-- The codes of Table 0.5 that are not reserved: the statuses and the fault causes of Table 3.8. -/
def statusCodes : List Nat := List.range 11 ++ (List.range 15).map fun i => 0x40 + i

/-- Every status that applies to a command that ends. -/
def applying (s : State) (ch : Nat) (c : Cmd) (f : Final) : List Nat :=
  f.status :: (match c.worst with | some w => [w.status] | none => []) ++
    (if c.missed || pastDeadline s ch c then [stMissed] else []) ++ (if c.rerun then [stRekindled] else [])

/-- The status that a record carries (R287). -/
def statusOf (s : State) (ch : Nat) (c : Cmd) (f : Final) : Nat := if f.raw then f.status else firstStatus (applying s ch c f)

/-! ### Measurement slots (R307, Table 10.8) -/

/-- Bytes fed to a measurement slot in walk order (R307). -/
def feedSlot (m : MSlot) (bs : List Byte) : MSlot :=
  let all := m.buf ++ bs
  let k := all.length / 128 * 128
  { m with words := shaFeed m.words (all.take k), buf := all.drop k, count := m.count + bs.length }

/-- The slot of a MEASURED_LOAD. -/
def mslotOf (c : Cmd) : Nat := c.field 37 1 % 64
def mFinal (c : Cmd) : Bool := bitN (c.field 37 1) 6

def findMslot (s : State) (sl k : Nat) : MSlot := ((s.slice sl).mslots.find? fun m => m.slot == k).getD { slot := k, words := shaInit }

/-- Whether SERIAL or a FENCE orders a command after the last one on its slot (R307): one before it in the same ring, with a FENCE or a SERIAL
command after that one and no later than the command itself. -/
def slotOrdered (s : State) (ch : Nat) (c : Cmd) (m : MSlot) : Bool :=
  match m.last with
  | none => true
  | some (h, q) => h == ch && (q == c.seq || (decide ((c.seq + 2 ^ 32 - q) % 2 ^ 32 < 2 ^ 31) && match (s.chan ch).fenceAt with
    | some f => decide ((c.seq + 2 ^ 32 - f) % 2 ^ 32 < (c.seq + 2 ^ 32 - q) % 2 ^ 32)
    | none => false))

/-- A piece of a MEASURED_LOAD enters its slot; a command that is not ordered after the last one on the slot, or a length that
is not whole blocks, makes the digest unpredictable. -/
def measure (s : State) (sl ch : Nat) (c : Cmd) (bs : List Byte) : State :=
  if c.op ≠ 0x0C then s
  else
    let m := findMslot s sl (mslotOf c)
    let bad := m.bad || !(slotOrdered s ch c m) || (!(mFinal c) && decide (c.field 32 4 % 128 ≠ 0))
    let y := s.slice sl
    s.setSlice { y with mslots := upsert MSlot.slot { feedSlot m bs with bad := bad, last := some (ch, c.seq) } y.mslots }

/-- A measurement slot emptied; the last command on it stays known. -/
def emptyMslot (s : State) (sl k : Nat) : State :=
  let y := s.slice sl
  s.setSlice { y with mslots := y.mslots.map fun m => if m.slot = k then { slot := k, words := shaInit, last := m.last } else m }

/-- The end of a MEASURED_LOAD (R307, R399): a digest is recorded when FINAL is set and the command completes OK, whatever else
than OK R287 gives it. One of LENGTH 0 comes to its slot here. -/
def measureEnd (s : State) (sl ch : Nat) (c : Cmd) (f : Final) : State × Final :=
  let k := mslotOf c
  let s := if c.field 32 4 = 0 then measure s sl ch c [] else s
  if statusOf s ch c f ≠ stOk then (emptyMslot s sl k, f)
  else if !(mFinal c) then (s, f)
  else
    let m := findMslot s sl k
    let y := s.slice sl
    if 256 ≤ y.mrecs.length then (emptyMslot s sl k, { f with status := stRefused })
    else
      let d := if m.bad then toLe 48 (s.freeVal % 2 ^ 384) else shaFinish m.words m.buf m.count
      let s := (if m.bad then s.useFree 1 else s).setSlice { y with mrecs := y.mrecs ++ [{ slot := k, label := BitVec.ofNat 64 (c.field 40 8), digest := d }] }
      (emptyMslot s sl k, f)

/-! ### Completion records -/

/-- Whether a completion slot is free for a record, `busy` others being kept for commands in flight (R296). -/
def slotFree (s : State) (ch busy : Nat) : Bool :=
  decide ((s.getObj (Obj.complTail ch) + busy + 2 ^ 32 - s.getObj (Obj.complHead ch)) % 2 ^ 32 < s.getObj (Obj.complSlots ch))

/-- The record's bytes (Table 10.4). -/
def recordBytes (s : State) (ch : Nat) (c : Cmd) (st : Nat) (f : Final) : List Byte :=
  let tail := s.getObj (Obj.complTail ch)
  let phase := if tail / s.getObj (Obj.complSlots ch) % 2 = 0 then 1 else 0
  toLe 4 c.seq ++ toLe 1 st ++ toLe 1 c.op ++ toLe 2 (phase + 2 * min f.locks 0x7FFF) ++ toLe 8 f.bytes ++
    toLe 8 (logicalTick s ch % 2 ^ 48) ++ toLe 4 c.tag ++ toLe 4 (if st = stKilled then f.cause else 0)

/-- The journal entry of a member channel's record (R378). -/
def journalAppend (s : State) (ch : Nat) (c : Cmd) (st : Nat) (f : Final) : State :=
  match lsOf s ch with
  | none => s
  | some k =>
    let x := s.lockSet k
    if 65536 ≤ x.journal.length then s.addObj (Obj.journalLost k) 1
    else
      let e : JEnt := { seq := c.seq, ch := ch, status := st, op := c.op, rolledBack := false, rerun := c.rerun, bytes := f.bytes,
                        tick := logicalTick s ch, tag := c.tag }
      (s.setLockSet { x with journal := x.journal ++ [e] }).putObj (Obj.journalCount k) (x.journal.length + 1)

/-- A command leaves its channel. -/
def removeCmd (s : State) (ch seq : Nat) : State :=
  let x := s.chan ch
  s.setChan { x with flight := x.flight.filter fun c => c.seq != seq, fetched := x.fetched.filter fun c => c.seq != seq }

/-- Whether the last COMPL_TAIL of a channel is still to be written to NOTIFY. -/
def setDue (s : State) (ch : Nat) (due : Bool) : State := s.setChan { s.chan ch with notifyDue := due }

/-- COMPL_TAIL written to NOTIFY (R296), where the address names a reachable module; a write that must wait is due. -/
def notifyTail (s : State) (ch : Nat) : State :=
  let a := s.getObj (Obj.notify ch)
  if a = 0 ∨ !(reachable s (gModule a)) then setDue s ch false
  else
    let r := sysStore s (chSliceOf s ch) .device a (toLe 8 (s.getObj (Obj.complTail ch)))
    setDue r.1 ch !r.2

/-- The NOTIFY writes that are due, tried again. -/
def notifyAgain (s : State) : State := ((s.chans.filter (·.notifyDue)).map (·.no)).foldl notifyTail s

/-! ### Frames of a command -/

def isOf (ch seq : Nat) (w : FrameFor) : Bool := w == .cmd ch seq || w == .flag ch seq

/-- Frames of a command that are not acknowledged. -/
def unackedOf (s : State) (ch seq : Nat) : List Sent := s.net.paths.flatMap fun p => p.unacked.filter fun x => isOf ch seq x.who

/-- The record is written, the counters rise, NOTIFY and the journal follow, the command is gone. A ring page that does not
translate loses the record (log 32); it still counts. -/
def writeRecord (s : State) (ch : Nat) (c : Cmd) (f : Final) : State :=
  let n := chSliceOf s ch
  let all := applying s ch c f
  let st := statusOf s ch c f
  let a := s.getObj (Obj.complBase ch) + 32 * (s.getObj (Obj.complTail ch) % s.getObj (Obj.complSlots ch))
  let s' := (writeRun s n 2 a (recordBytes s ch c st f)).1
  let s' := (s'.addObj (Obj.complTail ch) 1).addObj (Obj.completed ch) 1
  let s' := if all.contains stKilled || all.contains stOverrun then s'.addObj (Obj.killed ch) 1 else s'
  let s' := if pastDeadline s ch c then s'.addObj (Obj.deadlineMissed ch) 1 else s'
  removeCmd (journalAppend (notifyTail s' ch) ch c st f) ch c.seq

/-- A command that is decided but whose record cannot be written yet stays in flight with its outcome. -/
def holdFinal (s : State) (ch : Nat) (c : Cmd) (f : Final) : State :=
  let x := s.chan ch
  s.setChan { x with fetched := x.fetched.filter fun d => d.seq != c.seq, flight := upsert Cmd.seq { c with final := some f } x.flight }

/-- The outcome as its record carries it: of a transfer or a SIGNAL that was stopped BYTES are counted now, every frame of it being
acknowledged or given up (Table 10.4a). -/
def settledFinal (c : Cmd) (f : Final) : Final :=
  if !f.live then f
  else if c.op = 0x06 then { f with bytes := if c.step = 1 ∧ c.lost = none then 8 else 0 }
  else { f with bytes := min c.done (c.lost.getD c.done) }

/-- A command ends (R301): its record is written, or it waits with its outcome for the acknowledgement of its frames (R309), for a
completion slot or for the ring's memory. -/
def endCmd (s : State) (ch : Nat) (c : Cmd) (f : Final) : State :=
  if !(slotFree s ch 0) || !(unackedOf s ch c.seq).isEmpty then holdFinal s ch c f
  else
    let f := settledFinal c f
    let a := s.getObj (Obj.complBase ch) + 32 * (s.getObj (Obj.complTail ch) % s.getObj (Obj.complSlots ch))
    match spanOk s (chSliceOf s ch) 2 a 32 true with
    | .error (.wait s) => holdFinal s ch c f
    | .error .any => writeRecord (unpredictable s (chSliceOf s ch)) ch c f
    | _ =>
      let x := if c.op = 0x0C then measureEnd s (chSliceOf s ch) ch c f else (s, f)
      writeRecord x.1 ch c x.2

/-- Runs an event of a command in flight of one of the opcodes; a command that is only waiting for its record writes it. -/
def withCmd (ops : List Nat) (r : CmdRef) (s : State) (f : Cmd → Res) : Res :=
  withSome s (findFlight s r.ch r.seq) "command in flight" fun c =>
    if !(ops.contains c.op) then .refused .illFormed
    else match c.final with
    | some x => .next (endCmd s r.ch c x)
    | none => f c

/-- A launch context of a slice killed by a fault record with any cause, or none (R15). -/
def anyKill (s : State) (n : Nat) : State :=
  let ls := s.launches.filter fun l => l.slice == n
  let k := s.free
  match ls[Config.freeNat k % (ls.length + 1)]? with
  | some l => raiseFault (s.useFree 2) l.ctx 0 { cause := 0x40 + Config.freeNat (k + 1) % 15 }
  | none => s.useFree 2

/-- Any code of Table 0.5, by a free value. -/
def anyStatus (k : Nat) : Nat := statusCodes.getD (Config.freeNat k % statusCodes.length) 0

/-- Any code of Table 0.5 with any BYTES and CAUSE, by three free values from `k` on (R15). -/
def anyFinal (k : Nat) : Final :=
  { status := anyStatus k, raw := true, bytes := Config.freeNat (k + 1),
    cause := 0x40 + Config.freeNat (k + 2) % 15 }

/-- Unpredictable results of a command (R15): any values the slice may write, any launch context killed, and any outcome. -/
def cmdAny (s : State) (ch : Nat) (c : Cmd) : State :=
  let s := anyKill (unpredictable s (chSliceOf s ch)) (chSliceOf s ch)
  endCmd (s.useFree 3) ch c (anyFinal s.free)

/-- A command that meets a stop of Table 3.8 completes CONTEXT_KILLED with its cause (R305); an access that must wait leaves it
in flight. -/
def cmdStop (s : State) (ch : Nat) (c : Cmd) (bytes : Nat) : Stop → Res
  | .cause k _ => .next (endCmd s ch c { status := stKilled, bytes := bytes, cause := k })
  | .wait s => .next s
  | .any => .next (cmdAny s ch c)
  | .absent => .fault .absentAddress

end Sys2Proof.Machine
end

