-- ==== Sys2Proof/Machine/Commands.lean ====
section
/-! DEFINITION. Commands.lean: the commands of Tables 10.6 to 10.8 (COPY, FILL, INLINE_WRITE, MEASURED_LOAD, WAIT, SIGNAL, FENCE)
with their walks, flags, publish mode and BYTES (R304 to R311, Table 10.4a), and reserved commands (R299). -/

namespace Sys2Proof.Machine

/-! ### Reads and writes of a command -/

/-- The requester that a command is (R247). -/
def cmdAsk (who : FrameFor) : Asker := match who with
  | .cmd ch seq => .cmd ch seq
  | .flag ch seq => .cmd ch seq
  | _ => .device

/-- A write of a command in the space of its address: done, or why not. -/
def cmdStore (s : State) (sl : Nat) (who : FrameFor) (space addr : Nat) (bs : List Byte) : Except Stop State :=
  if space = 3 then
    if 2 ≤ gClass addr then .error (.cause 0x43 (BitVec.ofNat 64 (gClass addr)))
    else if gModule addr = s.ownId then
      match serveWrite s s.ownId addr bs false (.local_ (chanOfFrame s who)) with
      | .done s _ => .ok s
      | .refused _ => .error (.cause 0x43 (BitVec.ofNat 64 (gClass addr)))
      | .wait s => .error (.wait s)
    else if !(reachable s (gModule addr)) then .error (.cause 0x40 0)
    else match sendFrame s (gModule addr) 0 { addr := BitVec.ofNat 64 addr, payload := bs } who with
      | some s => .ok (s.addObj (Obj.sysBytesOut sl) bs.length)
      | none => .error (.wait s)
  else match spanOkBy (cmdAsk who) s sl space addr bs.length true with
    | .error e => .error e
    | .ok () => .ok (served (writeRunAs .sectors none (cmdAsk who) s sl space addr bs).1 (cmdAsk who))

/-- A read of a command in the space of its address. -/
def cmdLoad (s : State) (sl : Nat) (who : FrameFor) (space addr n : Nat) : Except Stop (State × List Byte) :=
  if space = 3 then
    match sysRead s who addr n with
    | .got s bs => .ok (s, bs)
    | .wait s => .error (.wait s)
    | .fault _ c i => .error (.cause c i)
  else match readRunAs .sectors (cmdAsk who) s sl space addr n with
    | .error e => .error e
    | .ok (s, bs) => .ok (served s (cmdAsk who), bs)

/-! ### Transfers (Tables 10.6, 10.8) -/

/-- A transfer as its command states it. `sspace` 0 stands for a pattern or a payload. -/
structure Xfer where
  len : Nat
  dspace : Nat
  dst : Nat
  sspace : Nat
  src : Nat
  flag : Nat := 0
  flagValue : Nat := 0
  fspace : Nat := 0
  publish : Bool := false
  bad : Bool
  deriving DecidableEq, Repr

/-- Whether two ranges of one space meet. -/
def overlap (sa a sb b n : Nat) : Bool := sa == sb && decide (n ≠ 0) && decide (a < b + n ∧ b < a + n)

/-- The fields of a transfer command, with what R8, R299, R304 and R316 leave unpredictable in them. -/
def xferOf (c : Cmd) : Xfer :=
  if c.op = 0x0C then
    let x : Xfer := { len := c.field 32 4, dspace := 2, dst := c.field 24 8, sspace := c.field 36 1 % 4, src := c.field 16 8, bad := false }
    { x with bad := c.res || c.schedReserved || decide (x.sspace < 2) || c.field 36 1 / 4 != 0 || bitN (c.field 37 1) 7 ||
                    c.field 38 2 != 0 || c.field 48 8 != 0 || c.field 56 8 != 0 || c.ext != 0 || overlap x.sspace x.src 2 x.dst x.len }
  else
    let sp := c.field 36 1
    let fl := c.field 56 1
    let x : Xfer := { len := c.field 32 4, dspace := sp % 4, dst := c.field 16 8, sspace := if c.op = 2 then sp / 4 % 4 else 0,
                      src := c.field 24 8, flag := c.field 40 8, flagValue := c.field 48 8, fspace := fl % 4, publish := bitN fl 2,
                      bad := false }
    { x with bad :=
        c.res || c.schedReserved || x.dspace == 0 || sp / 16 != 0 || c.field 37 3 != 0 || fl / 8 != 0 || c.field 57 7 != 0 ||
        (x.flag != 0 && (decide (x.fspace < 2) || x.flag % 8 != 0)) ||
        (if c.op = 2 then !([1, 2].contains x.sspace) || overlap x.sspace x.src x.dspace x.dst x.len else sp / 4 % 4 != 0) ||
        (if c.op = 4 then x.src != 0 || decide (64 * c.ext < x.len) else c.ext != 0) }

/-- Bytes of a piece from an address on: to the end of its sector, or of 4 KiB in system space (log 34), at most `n`. -/
def pieceLen (space a n : Nat) : Nat := min n (if space = 3 then 4096 - a % 4096 else 64 - a % 64)

/-- Bytes that the walk reads next, at `p`: a source sector is read whole, once (R172). -/
def readLen (x : Xfer) (p : Nat) : Nat :=
  if x.sspace = 0 then pieceLen x.dspace (x.dst + p) (x.len - p) else pieceLen x.sspace (x.src + p) (x.len - p)

/-- Bytes [p, p + n) of the source. -/
def sourceBytes (s : State) (sl ch : Nat) (c : Cmd) (x : Xfer) (p n : Nat) : Except Stop (State × List Byte) :=
  if c.op = 3 then .ok (s, (List.range n).map fun i => BitVec.ofNat 8 (x.src / 2 ^ (8 * ((p + i) % 8)) % 256))
  else if c.op = 4 then .ok (s, padTo n ((c.payload.drop p).take n))
  else cmdLoad s sl (.cmd ch c.seq) x.sspace ((x.src + p) % 2 ^ 64) n

/-- Bytes of the longest prefix of the walk performed or acknowledged (Table 10.4a). -/
def ackedPrefix (s : State) (ch : Nat) (c : Cmd) : Nat :=
  let x := xferOf c
  (unackedOf s ch c.seq).foldl (fun m f => match f.who with
    | .cmd _ _ => if f.ty = 0 then min m ((f.f.addr.toNat + 2 ^ 64 - x.dst) % 2 ^ 64) else m
    | _ => m) (min c.done (c.lost.getD c.done))

/-- A write of a command is refused or given up: the first such byte of its walk is kept (Table 10.4a). -/
def noteLost (s : State) (x : Sent) : State :=
  match x.who with
  | .cmd ch seq => match findFlight s ch seq with
    | none => s
    | some c =>
      let off := if x.ty = 0 then (x.f.addr.toNat + 2 ^ 64 - (xferOf c).dst) % 2 ^ 64 else 0
      if x.ty = 0 ∨ x.ty = 5 then putFlight s ch { c with lost := some (min off (c.lost.getD off)) } else s
  | _ => s

/-- A transfer ends; a read that it still waits for is given up. -/
def endXfer (s : State) (ch : Nat) (c : Cmd) (f : Final) : State :=
  endCmd (dropReads s (.cmd ch c.seq)) ch c f

/-- A window of this module counts a refusal of its own command (Table 10.9). -/
def refusedHere (s : State) (space addr cause : Nat) : State :=
  if space = 3 ∧ cause = 0x43 ∧ gModule addr = s.ownId ∧ gClass addr < 2 then refuseAt s (gOffset addr) else s

/-- A transfer's stop at an address: a fault ends it CONTEXT_KILLED after the prefix done; a wait leaves it where it is. -/
def xferStop (s : State) (ch : Nat) (c : Cmd) (space addr : Nat) : Stop → Res
  | .cause k _ => .next (endXfer (refusedHere s space addr k) ch c { status := stKilled, live := true, bytes := ackedPrefix s ch c, cause := k })
  | .wait s => .next s
  | .absent => .fault .absentAddress
  | .any => .next (cmdAny s ch c)

/-- The flag and the end of a transfer whose data have all been issued (R309, R310). -/
def xferTail (s : State) (ch : Nat) (c : Cmd) (x : Xfer) : Res :=
  let waiting := !(unackedOf s ch c.seq).isEmpty
  if x.flag = 0 ∨ c.flagSent then
    if waiting then .next s else .next (endXfer s ch c { status := stOk, bytes := x.len })
  else if x.publish && waiting then .next s
  else match cmdStore s (chSliceOf s ch) (.flag ch c.seq) x.fspace x.flag (toLe 8 x.flagValue) with
    | .error e => xferStop s ch c x.fspace x.flag e
    | .ok s =>
      let c := { c with flagSent := true }
      let s := putFlight s ch c
      if !(unackedOf s ch c.seq).isEmpty then .next s else .next (endXfer s ch c { status := stOk, bytes := x.len })

/-- The walk of a transfer as far as it goes now: a destination sector is written once the bytes for all of it are read (R172), and the
bytes before a source byte that faults are still moved; `fuel` bounds the pieces. -/
def xferGo (ch : Nat) (x : Xfer) : Nat → Cmd → State → Res
  | 0, _, s => .next s
  | fuel + 1, c, s =>
    if x.len ≤ c.done then xferTail s ch c x
    else
      let sl := chSliceOf s ch
      let dst := (x.dst + c.done) % 2 ^ 64
      let at_ := c.done + c.buf.length
      let src := (x.src + at_) % 2 ^ 64
      let write (bs : List Byte) : Res :=
        match cmdStore s sl (.cmd ch c.seq) x.dspace dst bs with
        | .error e => xferStop s ch c x.dspace dst e
        | .ok s =>
          let c' := { c with done := c.done + bs.length, buf := c.buf.drop bs.length }
          xferGo ch x fuel c' (putFlight (measure s sl ch c bs) ch c')
      let n := pieceLen x.dspace dst (x.len - c.done)
      if n ≤ c.buf.length then write (c.buf.take n)
      else match sourceBytes s sl ch c x at_ (readLen x at_), c.buf with
        | .ok (s, bs), _ =>
          let c := { c with buf := c.buf ++ bs }
          xferGo ch x fuel c (putFlight (dropReads s (.cmd ch c.seq)) ch c)
        | .error (.cause k i), [] => xferStop s ch c x.sspace src (.cause k i)
        | .error (.cause _ _), bs => write bs
        | .error e, _ => xferStop s ch c x.sspace src e

/-- A transfer command goes on. -/
def xfer (s : State) (ch : Nat) (c : Cmd) : Res :=
  let x := xferOf c
  if x.bad then .next (cmdAny s ch c) else xferGo ch x (2 * (x.len - c.done) + 1) c s

/-- COPY (R304, R305, R309, R310). -/
def execCopyCmd (r : CmdRef) (s : State) : Res := withCmd [0x02] r s fun c => xfer s r.ch c

/-- FILL (R304). -/
def execFillCmd (r : CmdRef) (s : State) : Res := withCmd [0x03] r s fun c => xfer s r.ch c

/-- INLINE_WRITE (R304). -/
def execInlineWrite (r : CmdRef) (s : State) : Res := withCmd [0x04] r s fun c => xfer s r.ch c

/-- MEASURED_LOAD (R307). -/
def execMeasuredLoad (r : CmdRef) (s : State) : Res := withCmd [0x0C] r s fun c => xfer s r.ch c

/-! ### WAIT, SIGNAL and FENCE (Table 10.7) -/

/-- The condition of a WAIT. -/
def waitCond (cond v word : Nat) : Bool :=
  match cond with
  | 0 => word == v
  | 1 => word != v
  | 2 => decide (v ≤ word)
  | _ => decide (signedN 64 v ≤ signedN 64 word)

/-- R8, R299, R316 for a WAIT. -/
def waitBad (c : Cmd) : Bool :=
  let k := c.field 32 1
  c.res || c.schedReserved || c.ext != 0 || !([1, 2].contains (k / 4 % 4)) || k / 16 != 0 || (c.slot.drop 33).any (· != 0) ||
    c.field 16 8 % 8 != 0

/-- A WAIT evaluates its condition; with the condition met it completes with the value in BYTES. -/
def evalWait (s : State) (ch : Nat) (c : Cmd) : Res :=
  if waitBad c then .next (cmdAny s ch c)
  else
    let k := c.field 32 1
    match readRun s (chSliceOf s ch) (k / 4 % 4) (c.field 16 8) 8 with
    | .error e => cmdStop s ch c 0 e
    | .ok (s, bs) =>
      if waitCond (k % 4) (c.field 24 8) (leNat bs) then .next (endCmd s ch c { status := stOk, bytes := leNat bs })
      else .next (putFlight s ch { c with step := 1 })

/-- WAIT (R306): evaluated when it reaches the head of its channel. -/
def execWaitCmd (r : CmdRef) (s : State) : Res := withCmd [0x05] r s fun c => evalWait s r.ch c

/-- WAIT_REEVALUATE (R306): after a write to the word's line. -/
def execWaitReevaluate (ch : Nat) (s : State) : Res :=
  withSome s ((s.chan ch).flight.find? fun c => c.op == 0x05 && c.step == 1 && c.final.isNone) "waiting WAIT" fun c => evalWait s ch c

/-- An indivisible SIGNAL at its home in this module, from module `src`: refused, waiting or performed (R158, R306, R312). -/
def serveSignal (s : State) (src addr op v : Nat) (from_ : Source) : Served Unit :=
  match windowTarget s (gClass addr) (gOffset addr) 8 true false src with
  | none => .refused (refuseAt s (gOffset addr))
  | some (sl, sp, a) =>
    match spanOk s sl sp a 8 true with
    | .error (.wait s) => .wait s
    | .error _ => .refused (refuseAt s (gOffset addr))
    | .ok () => match (if op % 2 = 1 then readRunAs .nothing .device s sl sp a 8 else .ok (s, [])) with
      | .error (.wait s) => .wait s
      | .error _ => .refused (refuseAt s (gOffset addr))
      | .ok (s, old) =>
        let x := if op % 2 = 1 then (leNat old + v) % 2 ^ 64 else v
        .done (noteExternal ((writeRunAs .nothing none .device s sl sp a (toLe 8 x)).1.addObj (Obj.sysBytesIn sl) 8) from_ sl sp a) ()

/-- SIGNAL (R306): performed at the target's home, here or by a SIGNAL frame; it completes when performed or acknowledged. A
refusal completes REFUSED (R324), an address that names no class 0 or 1 or no reachable module CONTEXT_KILLED (log 35). -/
def execSignalCmd (r : CmdRef) (s : State) : Res :=
  withCmd [0x06] r s fun c =>
    let a := c.field 16 8
    let op := c.field 32 1
    let v := c.field 24 8
    if c.res || c.schedReserved || c.ext != 0 || op / 2 != 0 || (c.slot.drop 33).any (· != 0) || a % 8 != 0 then .next (cmdAny s r.ch c)
    else if c.step = 1 then
      if (unackedOf s r.ch r.seq).isEmpty then .next (endCmd s r.ch c { status := stOk, bytes := 8 }) else .next s
    else if 2 ≤ gClass a then .next (endCmd s r.ch c { status := stKilled, cause := 0x43 })
    else if gModule a = s.ownId then
      match serveSignal s s.ownId a op v (.local_ (some r.ch)) with
      | .done s () => .next (endCmd s r.ch c { status := stOk, bytes := 8 })
      | .refused s => .next (endCmd s r.ch c { status := stRefused })
      | .wait s => .next s
    else if !(reachable s (gModule a)) then .next (endCmd s r.ch c { status := stKilled, cause := 0x40 })
    else match sendFrame s (gModule a) 5 { addr := BitVec.ofNat 64 a, aux := op, payload := toLe 8 v } (.cmd r.ch r.seq) with
      | none => .next s
      | some s => .next (putFlight (s.addObj (Obj.sysBytesOut (chSliceOf s r.ch)) 8) r.ch { c with step := 1 })

/-- FENCE (R308): dispatched only after every earlier command has completed, it completes at once. -/
def execFenceCmd (r : CmdRef) (s : State) : Res :=
  withCmd [0x07] r s fun c =>
    if c.res || c.schedReserved || c.ext != 0 || (c.slot.drop 16).any (· != 0) then .next (cmdAny s r.ch c)
    else .next (endCmd (s.setChan { s.chan r.ch with fenceAt := some c.seq }) r.ch c { status := stOk })

/-- Opcodes of Table 10.3 that are reserved. -/
def reservedOp (op : Nat) : Bool := op == 0 || decide (0x0E ≤ op)

/-- RESERVED_COMMAND (R299): unpredictable results. -/
def execReservedCommand (r : CmdRef) (s : State) : Res :=
  withSome s (findFlight s r.ch r.seq) "command in flight" fun c =>
    if !(reservedOp c.op) then .refused .illFormed
    else match c.final with
    | some x => .next (endCmd s r.ch c x)
    | none => .next (cmdAny s r.ch c)

/-! ### Commands ended from outside -/

/-- BYTES of a command that ends before its end (Table 10.4a). -/
def cmdBytes (s : State) (ch : Nat) (c : Cmd) : Nat :=
  match c.op with
  | 0x02 | 0x03 | 0x04 | 0x0C => ackedPrefix s ch c
  | 0x09 | 0x0A | 0x08 => c.done
  | _ => 0

/-- A command in flight is stopped with a status, BYTES as its work stands; its record waits for the frames that are still out (R309). -/
def stopCmd (s : State) (ch : Nat) (c : Cmd) (st : Nat) : State :=
  match c.final with
  | some _ => s
  | none =>
    let f : Final := { status := st, live := [0x02, 0x03, 0x04, 0x06, 0x0C].contains c.op, bytes := cmdBytes s ch c, locks := c.locks }
    if [0x02, 0x03, 0x04, 0x0C].contains c.op then endXfer s ch c f else endCmd s ch c f

/-- The command goes on after an acknowledgement (R309, R310). -/
def advanceCmd (s : State) (ch seq : Nat) : Res :=
  match findFlight s ch seq with
  | none => .next s
  | some c => match c.final with
    | some f => .next (endCmd s ch c f)
    | none =>
      if [0x02, 0x03, 0x04, 0x0C].contains c.op then xfer s ch c
      else if c.op = 0x06 then execSignalCmd ⟨ch, seq⟩ s
      else .next s

end Sys2Proof.Machine
end

