-- ==== Sys2Proof/Machine/Ember.lean ====
section
/-! DEFINITION. Ember.lean: the ember store. CONTEXT_MAP (R208, R215 to R219), CONTEXT_MOVE with its block transactions
(R220 to R225, R232), and automatic tiering with heat (R226 to R228, R234). -/

namespace Sys2Proof.Machine

/-! ### Fields of the two commands (Tables 7.4, 7.6) -/

def emOp (c : Cmd) : Nat := c.field 16 1
def emCount (c : Cmd) : Nat := c.field 20 4
def emList (c : Cmd) : Nat := c.field 24 8
def emResult (c : Cmd) : Nat := c.field 32 8
def emArg (c : Cmd) : Nat := c.field 40 8
def cmLayout (c : Cmd) : Nat := c.field 17 1 % 16
def mvTier (c : Cmd) : Nat := c.field 17 1 % 4
def mvKfmt (c : Cmd) : Nat := c.field 17 1 / 4 % 4
def mvVfmt (c : Cmd) : Nat := c.field 17 1 / 16 % 4
def mvNpos (c : Cmd) : Nat := c.field 18 1 % 32
def mvF32 (c : Cmd) : Bool := bitN (c.field 19 1) 0
def mvElem (c : Cmd) : Nat := if mvF32 c then 4 else 2
def mvPos (c : Cmd) : Nat := c.field 56 4
def mvHead (c : Cmd) : Nat := c.field 60 4

/-- Address of element `i` of an array. -/
def arrayAt (base size i : Nat) : Nat := (base + size * i) % 2 ^ 64

/-! ### Automatic moves: which may start (R226, R227, R232) -/

/-- The handles that remain of a command's list, as far as it can be read. -/
def restHandles (s : State) (n : Nat) (c : Cmd) : List Nat :=
  (List.range (emCount c - c.done)).filterMap fun i =>
    match translate s n (arrayAt (emList c) 4 (c.done + i)) 0 with
    | .ok pa => some (leNat (physGet s pa 4))
    | .error _ => none

/-- Whether an explicit element on a handle is queued. -/
def explicitQueued (s : State) (n h : Nat) : Bool :=
  (channelsOf s n).any fun ch => ((s.chan ch).flight ++ (s.chan ch).fetched).any fun c =>
    (c.op == 0x0A || (c.op == 0x09 && [3, 4, 5, 6].contains (emOp c))) && (restHandles s n c).contains h

/-- The next lower tier whose pool is below its high watermark. -/
def lowerTier (s : State) (n t : Nat) : Option Nat := ([1, 2].filter fun u => t < u).find? fun u => belowHigh s n u

/-- Whether occupancy of a tier is below its low watermark. -/
def belowLow (s : State) (n t : Nat) : Bool := decide (s.getObj (Obj.poolUsed n t) * 100 < s.getObj (Obj.poolBytes n t) * (marksOf s n t).2)

/-- The target of a listed move as things stand, none where it is no longer made. -/
def moveTarget (s : State) (n : Nat) (m : Move) : Option Nat :=
  let e := ctxEntry s n m.handle
  if e.state ≠ 2 ∨ e.pin ∨ e.tier ≠ m.src ∨ (s.slice n).abandoned.contains m.handle then none
  else if m.demote then (if belowLow s n m.src then none else lowerTier s n m.src)
  else if belowHigh s n 0 then some 0 else none

/-- The first move of a list that may be made, marked as started; moves before it that may not be made are dropped. An explicit
element on the entry holds the list back. -/
def startFirst (s : State) (n : Nat) : List Move → List Move
  | [] => []
  | m :: ms =>
    match moveTarget s n m with
    | none => startFirst s n ms
    | some t => if explicitQueued s n m.handle then m :: ms else { m with tier := t, started := true } :: ms

/-- Whether a lock set that a slice's channels belong to is being rolled back: tiering rests until the first boundary of rekindle (R233). -/
def rollingBack (s : State) (n : Nat) : Bool := (channelsOf s n).any fun ch => match lsOf s ch with
  | some k => (s.lockSet k).rb.isSome
  | none => false

/-- Starts the next move of a slice where none is in flight. -/
def startMoves (s : State) (n : Nat) : State :=
  let x := s.slice n
  if rollingBack s n || x.moves.any (·.started) || s.getObj Obj.engineShare == 0 || s.getObj (Obj.sState n) != 1 then s
  else s.setSlice { x with moves := startFirst s n x.moves }

/-- Whether an automatic move of an entry is in flight. -/
def moving (s : State) (n h : Nat) : Bool := (s.slice n).moves.any fun m => m.started && m.handle == h

/-! ### Elements (R219) -/

/-- The requester that a command of the context engine is. -/
def emAsk (s : State) (c : Cmd) : Asker := match s.chans.find? fun x => x.flight.any fun d => d.seq == c.seq && d.ord == c.ord with
  | some x => .cmd x.no c.seq
  | none => .ember

/-- A range that a command writes is admitted; a range that it reads is read. -/
def emSpan (s : State) (n : Nat) (c : Cmd) (addr len : Nat) : Except Stop Unit := spanOkBy (emAsk s c) s n 2 addr len true
def emRead (s : State) (n : Nat) (c : Cmd) (addr len : Nat) : Except Stop (State × List Byte) := readRunAs .sectors (emAsk s c) s n 2 addr len

/-- Bytes of an admitted range written. -/
def emWrite (s : State) (n : Nat) (c : Cmd) (addr : Nat) (bs : List Byte) : State := (writeRunAs .sectors none (emAsk s c) s n 2 addr bs).1

/-- Whether a command that was dispatched before another has an element on a handle still to be applied: elements on one entry are applied
in the order of arrival (R232). -/
def earlierOn (s : State) (n h : Nat) (c : Cmd) : Bool :=
  (channelsOf s n).any fun ch => (s.chan ch).flight.any fun d =>
    decide (d.ord < c.ord) && d.final.isNone && (d.op == 0x0A || (d.op == 0x09 && [3, 4, 5, 6].contains (emOp d))) && (restHandles s n d).contains h

/-- What an element comes to. -/
inductive Elem where
  | ok (s : State)
  | refused (s : State)
  | stop (e : Stop)

/-- A result array element, written after the effect; the write is admitted before it. -/
def withResult (s : State) (n : Nat) (c : Cmd) (addr size : Nat) (k : Unit → Except Unit (State × List Byte)) : Elem :=
  match (if size = 0 then .ok () else emSpan s n c addr size) with
  | .error e => .stop e
  | .ok () => match k () with
    | .ok (s, bs) => .ok (emWrite s n c addr bs)
    | .error () => .refused (emWrite s n c addr (List.replicate size 255))

/-- The elements of a command from the one it has reached, each whole, with what an element notes in the command kept; refusal stops it
(R218, R219, R287). -/
def elemGo (ch : Nat) (f : Cmd → State → Elem) (total : Nat) : Nat → Cmd → State → Res
  | 0, _, s => .next s
  | fuel + 1, c, s =>
    if total ≤ c.done then .next (startMoves (endCmd s ch c { status := stOk, bytes := c.done }) (chSliceOf s ch))
    else match f c s with
      | .ok s =>
        let s := served s (.cmd ch c.seq)
        let c := { (findFlight s ch c.seq).getD c with done := c.done + 1 }
        elemGo ch f total fuel c (putFlight s ch c)
      | .refused s =>
        .next (startMoves (endCmd s ch c { status := if c.done = 0 then stRefused else stPartial, bytes := c.done }) (chSliceOf s ch))
      | .stop e => cmdStop s ch c c.done e

/-- One element and no more, unless that ends the command. -/
def elemOne (ch : Nat) (f : Cmd → State → Elem) (total : Nat) (c : Cmd) (s : State) : Res :=
  match f c s with
  | .ok s =>
    let s := served s (.cmd ch c.seq)
    let c := { (findFlight s ch c.seq).getD c with done := c.done + 1 }
    let s := putFlight s ch c
    if total ≤ c.done then elemGo ch f total 1 c s else .next s
  | _ => elemGo ch f total 1 c s

/-! ### CONTEXT_MAP -/

/-- R8 and R299 for a CONTEXT_MAP; COUNT is reserved where Table 7.5 says so. -/
def mapBad (c : Cmd) : Bool :=
  c.res || c.schedReserved || c.ext != 0 || c.field 17 1 / 16 != 0 || c.field 18 2 != 0 || c.field 48 8 != 0 || c.field 56 8 != 0 ||
    ([0, 1, 7].contains (emOp c) && emCount c != 0) || decide (8 ≤ emOp c)

/-- Runs a CONTEXT_MAP of an operation; reserved fields and a reserved OP are unpredictable. -/
def mapOp (op : Nat) (r : CmdRef) (s : State) (total : Cmd → Nat) (f : Cmd → State → Elem) : Res :=
  withCmd [0x09] r s fun c =>
    if mapBad c then .next (cmdAny s r.ch c)
    else if emOp c ≠ op then .refused .illFormed
    else elemGo r.ch f (total c) (total c + 1 - c.done) c s

/-- The handle of an element. -/
def handleAt (s : State) (n : Nat) (c : Cmd) : Except Stop (State × Nat) :=
  match emRead s n c (arrayAt (emList c) 4 c.done) 4 with
  | .error e => .error e
  | .ok (s, bs) => .ok (s, leNat bs)

/-- An element that names an entry: its handle read, an automatic move of it awaited, its result of `size` bytes. -/
def onEntry (n : Nat) (size : Nat) (c : Cmd) (s : State) (k : State → Nat → CtxEntry → Except Unit (State × List Byte)) : Elem :=
  match handleAt s n c with
  | .error e => .stop e
  | .ok (s, h) =>
    if moving s n h || earlierOn s n h c then .stop (.wait s)
    else
      let s := mapLookup s
      withResult s n c (arrayAt (emResult c) size c.done) size fun _ =>
        let e := ctxEntry s n h
        if s.getObj (Obj.mapQuota n) ≤ h ∨ e.state = 0 then .error () else k s h e

/-- A 2 MiB page that may be donated: where it stands (R215, R217). -/
def donatable (s : State) (n va : Nat) : Option PoolPage :=
  let sub (j : Nat) : Option Nat := match walk s n (va + 65536 * j), translate s n (va + 65536 * j) 1 with
    | some (p, _, _), .ok pa => if p.banked then none else some pa
    | _, _ => none
  match sub 0 with
  | none => none
  | some pa =>
    if pa % 2 ^ 21 = 0 ∧ (List.range 32).all (fun j => sub j == some (pa + 65536 * j)) = true ∧ tierOf pa = tierOf (pa + 2 ^ 21 - 1) ∧
        (s.slice n).pools.all (fun p => p.pa != pa && p.va != va) = true ∧ (sliceWorld s n = 0 ∨ tierOf pa = 0) then
      some { va := va, pa := pa, tier := tierOf pa }
    else none

/-- The pages of a range that is donated whole, or none. -/
def donateGo (n : Nat) : Nat → Nat → State → Option State
  | 0, _, s => some s
  | k + 1, va, s =>
    match donatable s n va with
    | none => none
    | some p =>
      let x := s.slice n
      donateGo n k (va + 2 ^ 21) (s.setSlice { x with pools := x.pools ++ [p] })

/-- Whether a range is whole 2 MiB pages. -/
def pageRange (c : Cmd) : Bool := emList c % 2 ^ 21 == 0 && emArg c % 2 ^ 21 == 0

/-- DONATE (R215, R217, R219). -/
def execDonate (r : CmdRef) (s : State) : Res :=
  let n := chSliceOf s r.ch
  mapOp 0 r s (fun _ => 1) fun c s => match (if pageRange c then donateGo n (emArg c / 2 ^ 21) (emList c) s else none) with
    | some s' => .ok (recount s' n)
    | none => .refused s

/-- The pages of a range that is reclaimed whole, or none. -/
def reclaimGo (n : Nat) : Nat → Nat → State → Option State
  | 0, _, s => some s
  | k + 1, va, s =>
    let x := s.slice n
    match x.pools.find? fun p => p.va == va with
    | none => none
    | some p =>
      if (heldStorage s n).any fun h => decide (p.pa < h.1 + h.2.1 ∧ h.1 < p.pa + 2 ^ 21) then none
      else reclaimGo n k (va + 2 ^ 21) (s.setSlice { x with pools := x.pools.filter fun q => q.va != va })

/-- RECLAIM (R215, R219). -/
def execReclaim (r : CmdRef) (s : State) : Res :=
  let n := chSliceOf s r.ch
  mapOp 1 r s (fun _ => 1) fun c s => match (if pageRange c then reclaimGo n (emArg c / 2 ^ 21) (emList c) s else none) with
    | some s' => .ok (recount s' n)
    | none => .refused s

/-- The lowest `k` consecutive FREE handles from `base` on, over entries in rising order (log 41). -/
def freeRun (k : Nat) : Nat → List (Nat × CtxEntry) → Nat
  | base, [] => base
  | base, (h, e) :: l =>
    if h < base ∨ e.state = 0 then freeRun k base l
    else if base + k ≤ h then base
    else freeRun k (h + 1) l

/-- `k` consecutive FREE handles within the quota. -/
def findFree (s : State) (n k : Nat) : Option Nat :=
  let b := freeRun k 0 (s.slice n).entries
  if b + k ≤ s.getObj (Obj.mapQuota n) then some b else none

/-- An entry as ALLOC makes it. -/
def allocated1 (layout : Nat) : CtxEntry := { state := 1, layout := layout, refs := 1 }

/-- ALLOC (R218, R219): the lowest FREE handles; with CONTIGUOUS all are taken at the first element. -/
def execAlloc (r : CmdRef) (s : State) : Res :=
  let n := chSliceOf s r.ch
  mapOp 2 r s emCount fun c s =>
    withResult (mapLookup s) n c (arrayAt (emResult c) 4 c.done) 4 fun _ =>
      let s := mapLookup s
      let run := bitN (emArg c) 0
      if loHeads (layoutWord s n (cmLayout c)) = 0 then .error ()
      else if run && c.step != 0 then .ok (s, toLe 4 (c.step - 1 + c.done))
      else match findFree s n (if run then emCount c else 1) with
        | none => .error ()
        | some b =>
          let s := (List.range (if run then emCount c else 1)).foldl (fun s i => putEntry s n (b + i) (allocated1 (cmLayout c))) s
          .ok (if run then updFlight s r.ch c.seq (fun d => { d with step := b + 1 }) else s, toLe 4 b)

/-- REF (R218, R219). -/
def execRefEntry (r : CmdRef) (s : State) : Res :=
  let n := chSliceOf s r.ch
  mapOp 3 r s emCount fun c s => onEntry n 4 c s fun s h e =>
    if 16777215 ≤ e.refs then .error () else .ok (putEntry s n h { e with refs := e.refs + 1 }, toLe 4 (e.refs + 1))

/-- FREE (R218, R219, R224). -/
def execFreeEntry (r : CmdRef) (s : State) : Res :=
  let n := chSliceOf s r.ch
  mapOp 4 r s emCount fun c s => onEntry n 4 c s fun s h e =>
    if 1 < e.refs then .ok (putEntry s n h { e with refs := e.refs - 1 }, toLe 4 (e.refs - 1))
    else
      let bytes := entryBytes s n e
      let s' := putEntry s n h {}
      .ok (if e.state = 2 then releaseStorage s' n e.addr bytes e.tier else s', toLe 4 0)

/-- The bytes of an entry with ADDR zero (Table 7.3, R213). -/
def entryImage (e : CtxEntry) : List Byte :=
  toLe 1 (e.state % 4 + 4 * (e.tier % 4) + 16 * (e.kfmt % 4) + 64 * (e.vfmt % 4)) ++ toLe 1 (e.layout % 16 + (if e.pin then 16 else 0)) ++
    toLe 1 e.valid ++ toLe 1 e.heat ++ toLe 4 (e.refs % 2 ^ 24) ++ toLe 8 0 ++ toLe 8 (e.deadline % 2 ^ 48) ++ toLe 4 e.tag ++ toLe 4 0

/-- QUERY (R213, R218, R219). -/
def execQueryEntry (r : CmdRef) (s : State) : Res :=
  let n := chSliceOf s r.ch
  mapOp 5 r s emCount fun c s => onEntry n 32 c s fun s _ e => .ok (s, entryImage e)

/-- SET (R218, R219). -/
def execSetEntry (r : CmdRef) (s : State) : Res :=
  let n := chSliceOf s r.ch
  mapOp 6 r s emCount fun c s => onEntry n 0 c s fun s h e =>
    let a := emArg c
    .ok (putEntry s n h { e with deadline := bits a 47 0, pin := if bitN a 49 then bitN a 48 else e.pin }, [])

/-- LAYOUT (R208, R219); reserved bits of the word are unpredictable (R8), but of one with HEADS 0, whose other fields are ignored. -/
def execLayoutCmd (r : CmdRef) (s : State) : Res :=
  let n := chSliceOf s r.ch
  withCmd [0x09] r s fun c =>
    let w := emArg c % 2 ^ 32
    if emOp c = 7 ∧ loHeads w ≠ 0 ∧ w / 2 ^ 17 ≠ 0 then .next (cmdAny s r.ch c)
    else mapOp 7 r s (fun _ => 1) fun c s =>
      let live := (s.slice n).entries.any fun p => p.2.state != 0 && p.2.layout == cmLayout c
      if live || decide (256 < loHeads w) || (loHeads w != 0 && (loKfmt w == 0 || loVfmt w == 0)) then .refused s
      else .ok (s.putObj (Obj.layout n (cmLayout c)) (w % 2 ^ 17))

/-! ### Staging (R221) -/

/-- Address of the row of a position and a head in staging. -/
def stageAt (c : Cmd) (base blk p h : Nat) : Nat := (base + (16 * blk + p) * mvPos c + h * mvHead c) % 2 ^ 64

/-- The rows of staging that block `i` of a command reads or writes as the entries stand, as (address, bytes): NPOS positions of an ENCODE,
VALID of a DECODE, of every head, in both buffers; none where the block is refused or EMPTY. -/
def stageRows (s : State) (n : Nat) (c : Cmd) (i : Nat) : List (Nat × Nat) :=
  match translate s n (arrayAt (emList c) 4 i) 0 with
  | .error _ => []
  | .ok pa =>
    let h := leNat (physGet s pa 4)
    let e := ctxEntry s n h
    let w := layoutWord s n e.layout
    let len := loDim w * mvElem c
    let k := if s.getObj (Obj.mapQuota n) ≤ h ∨ e.state = 0 then 0 else if emOp c = 0 then mvNpos c else if e.state = 2 then e.valid else 0
    (List.range k).flatMap fun p => (List.range (loHeads w)).flatMap fun h =>
      [(stageAt c (c.field 40 8) i p h, len), (stageAt c (c.field 48 8) i p h, len)]

/-- Whether two of a list of ranges meet. -/
def anyMeet : List (Nat × Nat) → Bool
  | [] => false
  | a :: l => l.any (fun b => decide (a.1 < b.1 + b.2 ∧ b.1 < a.1 + a.2)) || anyMeet l

/-- Staging that overlaps itself, within a block or between blocks (R221). -/
def stageOverlap (s : State) (n : Nat) (c : Cmd) : Bool := anyMeet ((List.range (emCount c)).flatMap (stageRows s n c))

/-- The rows of one plane of a head, position-major: their values. -/
def readStage (n : Nat) (c : Cmd) (base h d : Nat) : Nat → State → Nat → Except Stop (State × List FVal)
  | 0, s, _ => .ok (s, [])
  | k + 1, s, p =>
    match emRead s n c (stageAt c base c.done p h) (d * mvElem c) with
    | .error e => .error e
    | .ok (s, bs) =>
      let vs := (chunks (mvElem c) d bs).map fun b => decodeF (if mvF32 c then fmtF32 else fmtBf16) (leNat b)
      match readStage n c base h d k s (p + 1) with
      | .error e => .error e
      | .ok (s, rest) => .ok (s, vs ++ rest)

/-- The planes of a block from staging, positions at or above NPOS zero (R211). -/
def readPlanes (n : Nat) (c : Cmd) (d : Nat) : Nat → State → Nat → Except Stop (State × Planes)
  | 0, s, _ => .ok (s, [])
  | k + 1, s, h =>
    let fill (vs : List FVal) : List FVal := vs ++ List.replicate (16 * d - vs.length) (.fin false 0 0)
    match readStage n c (c.field 40 8) h d (mvNpos c) s 0 with
    | .error e => .error e
    | .ok (s, ks) => match readStage n c (c.field 48 8) h d (mvNpos c) s 0 with
      | .error e => .error e
      | .ok (s, vs) => match readPlanes n c d k s (h + 1) with
        | .error e => .error e
        | .ok (s, ps) => .ok (s, (fill ks, fill vs) :: ps)

/-! ### Blocks -/

/-- Storage for a block in the tier that a command names; 3 is the highest tier below its high watermark (Table 7.6). -/
def roomFor (s : State) (n tier bytes : Nat) : Option (Nat × Nat) :=
  let t? := if tier < 3 then some tier else [0, 1, 2].find? fun t => belowHigh s n t
  match t? with
  | none => none
  | some t => (findRoom s n t bytes).map fun a => (t, a)

/-- The entry switches to new storage; one with other references is copied into a FREE entry (R223). The new handle. -/
def switchEntry (s : State) (n h : Nat) (e : CtxEntry) (tier addr kf vf valid : Nat) : Option (State × Nat) :=
  if 1 < e.refs then
    match findFree s n 1 with
    | none => none
    | some h' =>
      let new : CtxEntry := { state := 2, tier := tier, kfmt := kf, vfmt := vf, layout := e.layout, pin := e.pin, valid := valid, refs := 1,
                              addr := addr, deadline := e.deadline, tag := e.tag }
      let s := putEntry (putEntry s n h { e with refs := e.refs - 1 }) n h' new
      some (s.addObj (Obj.cowCopies n) 1, h')
  else
    let bytes := entryBytes s n e
    let s := putEntry s n h { e with state := 2, tier := tier, kfmt := kf, vfmt := vf, valid := valid, addr := addr }
    some (if e.state = 2 then releaseStorage s n e.addr bytes e.tier else s, h)

/-- The infinities and NaNs that an encoding met are counted (R48). -/
def countSpecial (s : State) (n : Nat) (vs : List FVal) : State :=
  let c := specialCount vs
  (s.addObj (Obj.infEncoded n) c.1).addObj (Obj.nanEncoded n) c.2

/-- New storage written and switched to, where a FREE entry is there for a copy. -/
def storeBlock (s : State) (n h : Nat) (e : CtxEntry) (place : Nat × Nat) (kf vf valid : Nat) (bs : List Byte) : Except Unit (State × List Byte) :=
  match switchEntry (writePa s n place.2 bs) n h e place.1 place.2 kf vf valid with
  | none => .error ()
  | some (s, h) => .ok (s, toLe 4 h)

/-- A block of a CONTEXT_MOVE: handle, entry and the admitted result come first, then `k`, which reads what it needs before it
writes anything (R222). -/
def onBlock (n : Nat) (c : Cmd) (s : State) (k : State → Nat → CtxEntry → Except Stop (Except Unit (State × List Byte))) : Elem :=
  match handleAt s n c with
  | .error e => .stop e
  | .ok (s, h) =>
    if moving s n h || earlierOn s n h c then .stop (.wait s)
    else
      let s := mapLookup s
      let e := ctxEntry s n h
      let a := arrayAt (emResult c) 4 c.done
      match emSpan s n c a 4 with
      | .error x => .stop x
      | .ok () =>
        if s.getObj (Obj.mapQuota n) ≤ h ∨ e.state = 0 then .refused (emWrite s n c a (toLe 4 0xFFFFFFFF))
        else match k s h e with
          | .error x => .stop x
          | .ok (.error ()) => .refused (emWrite s n c a (toLe 4 0xFFFFFFFF))
          | .ok (.ok (s, bs)) => .ok (emWrite s n c a bs)

/-- A copy that has no FREE entry for it is refused before it is made (R223). -/
def copyBlocked (s : State) (n : Nat) (e : CtxEntry) : Bool := decide (1 < e.refs) && (findFree s n 1).isNone

/-- ENCODE of one block (R48, R211, R223). -/
def encodeElem (n : Nat) (c : Cmd) (s : State) : Elem :=
  onBlock n c s fun s h e =>
    let w := layoutWord s n e.layout
    let d := loDim w
    let kf := if mvKfmt c = 0 then loKfmt w else mvKfmt c
    let vf := if mvVfmt c = 0 then loVfmt w else mvVfmt c
    let bytes := blockBytes kf vf (loHeads w) d
    if loHeads w = 0 ∨ copyBlocked s n e then .ok (.error ())
    else match roomFor s n (mvTier c) bytes with
      | none => .ok (.error ())
      | some place => match reachPa s (bytes / 64) place.2 with
        | .error x => .error x
        | .ok () => match readPlanes n c d (loHeads w) s 0 with
          | .error x => .error x
          | .ok (s, ps) =>
            let s := countSpecial s n (ps.flatMap fun p => p.1 ++ p.2)
            .ok (storeBlock s n h e place kf vf (mvNpos c) (encodeBlock kf vf d ps))

/-- A value in a staging element, saturated (R49). -/
def stageElem (c : Cmd) (v : FVal) : List Byte :=
  if !(mvF32 c) then toLe 2 (ebToBf16 v)
  else match v with
    | .nan => toLe 4 (fmtNaN fmtF32)
    | .inf s => toLe 4 (fmtSign fmtF32 s + fmtMaxCode fmtF32)
    | .fin s m e =>
      let r := roundFin fmtF32 0 0 s m e
      toLe 4 (if r.overflow then fmtSign fmtF32 s + fmtMaxCode fmtF32 else r.bits)

/-- The rows that a DECODE writes: address and bytes. -/
def decodeRows (c : Cmd) (d valid : Nat) (ps : Planes) : List (Nat × List Byte) :=
  (ps.mapIdx fun h p => (List.range valid).flatMap fun i =>
    [(stageAt c (c.field 40 8) c.done i h, ((p.1.drop (i * d)).take d).flatMap (stageElem c)),
     (stageAt c (c.field 48 8) c.done i h, ((p.2.drop (i * d)).take d).flatMap (stageElem c))]).flatten

/-- Whether every row can be written now. -/
def rowsOk (s : State) (n : Nat) (c : Cmd) : List (Nat × List Byte) → Except Stop Unit
  | [] => .ok ()
  | r :: rs => match emSpan s n c r.1 r.2.length with
    | .error e => .error e
    | .ok () => rowsOk s n c rs

/-- DECODE of one block (R49, R220, R221). -/
def decodeElem1 (n : Nat) (c : Cmd) (s : State) : Elem :=
  onBlock n c s fun s _ e =>
    let w := layoutWord s n e.layout
    if e.state ≠ 2 then .ok (.ok (s, toLe 4 0))
    else match readPa s n e.addr (entryBytes s n e) with
      | .error x => .error x
      | .ok (s, bs) =>
        let rows := decodeRows c (loDim w) e.valid (decodeBlock e.kfmt e.vfmt (loHeads w) (loDim w) bs)
        match rowsOk s n c rows with
        | .error x => .error x
        | .ok () => .ok (.ok (rows.foldl (fun s r => emWrite s n c r.1 r.2) s, toLe 4 e.valid))

/-- The values of the parts of a block that change their format. -/
def changedVals (kf vf kf' vf' h d : Nat) (bs : List Byte) : List FVal :=
  (decodeBlock kf vf h d bs).flatMap fun p => (if kf = kf' then [] else p.1) ++ (if vf = vf' then [] else p.2)

/-- MIGRATE of one block (R222, R223, R225). -/
def migrateElem (n : Nat) (c : Cmd) (s : State) : Elem :=
  onBlock n c s fun s h e =>
    let w := layoutWord s n e.layout
    let d := loDim w
    let kf := narrowFmt e.kfmt (mvKfmt c)
    let vf := narrowFmt e.vfmt (mvVfmt c)
    let bytes := blockBytes kf vf (loHeads w) d
    if e.state ≠ 2 ∨ copyBlocked s n e then .ok (.error ())
    else match roomFor s n (mvTier c) bytes with
      | none => .ok (.error ())
      | some place => match reachPa s (bytes / 64) place.2 with
        | .error x => .error x
        | .ok () => match readPa s n e.addr (entryBytes s n e) with
          | .error x => .error x
          | .ok (s, bs) =>
            let s := countSpecial s n (changedVals e.kfmt e.vfmt kf vf (loHeads w) d bs)
            .ok (storeBlock s n h e place kf vf e.valid (recodeBlock e.kfmt e.vfmt kf vf (loHeads w) d bs))

/-- R8, R221 and R299 for a CONTEXT_MOVE: reserved fields, a reserved OP, NPOS outside 1 to 16, staging that overlaps. -/
def moveBad (s : State) (n : Nat) (c : Cmd) : Bool :=
  c.res || c.schedReserved || c.ext != 0 || c.field 17 1 / 64 != 0 || c.field 18 1 / 32 != 0 || c.field 19 1 / 2 != 0 ||
    decide (3 ≤ emOp c) || (emOp c == 0 && (mvNpos c == 0 || decide (16 < mvNpos c))) || (decide (emOp c < 2) && stageOverlap s n c)

/-- The block transaction of an operation of Table 7.7. -/
def moveElem (n : Nat) (c : Cmd) (s : State) : Elem :=
  if emOp c = 0 then encodeElem n c s else if emOp c = 1 then decodeElem1 n c s else migrateElem n c s

/-- Runs a CONTEXT_MOVE of an operation over its remaining blocks. -/
def moveOp (op : Nat) (r : CmdRef) (s : State) : Res :=
  let n := chSliceOf s r.ch
  withCmd [0x0A] r s fun c =>
    if moveBad s n c then .next (cmdAny s r.ch c)
    else if emOp c ≠ op then .refused .illFormed
    else elemGo r.ch (moveElem n) (emCount c) (emCount c + 1 - c.done) c s

/-- ENCODE (R48, R220 to R223). -/
def execEncode (r : CmdRef) (s : State) : Res := moveOp 0 r s

/-- DECODE (R49, R220 to R222). -/
def execDecode (r : CmdRef) (s : State) : Res := moveOp 1 r s

/-- MIGRATE (R220 to R223, R225). -/
def execMigrate (r : CmdRef) (s : State) : Res := moveOp 2 r s

/-- CONTEXT_BLOCK_TRANSACTION (R222): one block of a CONTEXT_MOVE. -/
def execContextBlockTransaction (r : CmdRef) (s : State) : Res :=
  let n := chSliceOf s r.ch
  withCmd [0x0A] r s fun c =>
    if moveBad s n c then .next (cmdAny s r.ch c)
    else if emCount c ≤ c.done then elemGo r.ch (moveElem n) (emCount c) 1 c s
    else elemOne r.ch (moveElem n) (emCount c) c s

/-! ### Tiering (R227, R228) -/

/-- The map tick of a slice: the smallest shift of its enabled lock sets counts. -/
def mapTick (s : State) (n : Nat) : Nat :=
  let ks := (List.range 8).filter fun k => s.getObj (Obj.lsEnable k) == 1 && (channelsOf s n).any fun c => (lsMembers s k).testBit c
  match ks.map fun k => s.getObj (Obj.lsShift k) with
  | [] => s.tick
  | x :: xs => s.tick - xs.foldl min x

/-- Whether a DEADLINE is near. -/
def near (s : State) (n : Nat) (e : CtxEntry) : Bool := e.deadline != 0 && decide (e.deadline ≤ mapTick s n + s.getObj (Obj.lookahead n))

/-- Order of promotion: earliest non-zero DEADLINE, highest HEAT, lowest handle. -/
def promoteLt (a b : Nat × CtxEntry) : Bool :=
  let da := if a.2.deadline = 0 then 2 ^ 48 else a.2.deadline
  let db := if b.2.deadline = 0 then 2 ^ 48 else b.2.deadline
  decide (da < db ∨ (da = db ∧ (b.2.heat < a.2.heat ∨ (a.2.heat = b.2.heat ∧ a.1 < b.1))))

/-- Order of demotion: lowest HEAT, latest DEADLINE with 0 the latest, highest handle. -/
def demoteLt (a b : Nat × CtxEntry) : Bool :=
  let da := if a.2.deadline = 0 then 2 ^ 48 else a.2.deadline
  let db := if b.2.deadline = 0 then 2 ^ 48 else b.2.deadline
  decide (a.2.heat < b.2.heat ∨ (a.2.heat = b.2.heat ∧ (db < da ∨ (da = db ∧ b.1 < a.1))))

/-- The list of moves from the entries as they stand: promotions, then demotions tier by tier (log 44). -/
def listMoves (s : State) (n : Nat) : List Move :=
  let x := s.slice n
  let es := x.entries.filter fun p => p.2.state == 2 && !p.2.pin && !(x.abandoned.contains p.1)
  let up := sortBy promoteLt (es.filter fun p => p.2.tier != 0 && (near s n p.2 || decide (s.getObj (Obj.promoteHeat n) ≤ p.2.heat)))
  let down (t : Nat) : List (Nat × CtxEntry) :=
    if !(x.demoting.contains t) then []
    else sortBy demoteLt (es.filter fun p => p.2.tier == t && !(near s n p.2))
  (up.map fun p => { handle := p.1, src := p.2.tier, tier := 0, demote := false }) ++
    ([0, 1].flatMap fun t => (down t).map fun p => { handle := p.1, src := t, tier := t + 1, demote := true })

/-- The tiers of a slice that demote: above the high watermark, and from then on until below the low one (R227). -/
def takeDemoting (s : State) (n : Nat) : State :=
  let x := s.slice n
  let on (t : Nat) : Bool :=
    decide (s.getObj (Obj.poolBytes n t) * (marksOf s n t).1 < s.getObj (Obj.poolUsed n t) * 100) || (x.demoting.contains t && !(belowLow s n t))
  s.setSlice { x with demoting := (List.range 3).filter on }

/-- TIERING_EVALUATION: moves in flight run to their end, the rest of the list is formed afresh. -/
def evaluateTiering (s : State) (n : Nat) : State :=
  let s := takeDemoting s n
  let x := s.slice n
  let going := x.moves.filter (·.started)
  let new := if s.getObj (Obj.sState n) = 1 ∧ !(rollingBack s n) then (listMoves s n).filter fun m => going.all fun g => g.handle != m.handle else []
  startMoves (s.setSlice { x with moves := going ++ new }) n

/-- Whether any sector of a run of storage is poisoned, or its CXL port is down (R252, R258). -/
def poisonedRun (s : State) (pa bytes : Nat) : Bool := (List.range ((bytes + 63) / 64)).any fun i => poisoned s (devSect (pa + 64 * i))

/-- The formats of an entry after a move to a tier (R71, R225, R227). -/
def tierFmts (s : State) (n : Nat) (e : CtxEntry) (m : Move) : Nat × Nat :=
  let f := if m.demote && !((s.getObj (Obj.detMask n)).testBit 6) then
      (if m.tier = 1 then s.getObj (Obj.recompress n) % 4 else s.getObj (Obj.recompress n) / 4 % 4) else 0
  (narrowFmt e.kfmt f, narrowFmt e.vfmt f)

/-- A move leaves the list. -/
def dropMove (s : State) (n : Nat) (m : Move) : State :=
  let x := s.slice n
  s.setSlice { x with moves := x.moves.filter fun y => y.handle != m.handle }

/-- TIERING_MOVE_COMPLETE (R227, R228). -/
def execTieringMoveComplete (n : Nat) (s : State) : Res :=
  withSome s ((s.slice n).moves.find? (·.started)) "move in flight" fun m =>
    let e := ctxEntry s n m.handle
    let w := layoutWord s n e.layout
    let old := entryBytes s n e
    let f := tierFmts s n e m
    let bytes := blockBytes f.1 f.2 (loHeads w) (loDim w)
    let gone := startMoves (dropMove s n m) n
    if e.state ≠ 2 then .next gone
    else if poisonedRun s e.addr old then
      let s := dropMove s n m
      let x := s.slice n
      .next (startMoves (s.setSlice { x with abandoned := addNew m.handle x.abandoned }) n)
    else match findRoom s n m.tier bytes with
      | none => .next gone
      | some a => match reachPa s (bytes / 64) a, readPa s n e.addr old with
        | .error (.wait s), _ => .next s
        | _, .error (.wait s) => .next s
        | .ok (), .ok (s, bs) =>
          let parts := (if f.1 = e.kfmt then 0 else 1) + (if f.2 = e.vfmt then 0 else 1)
          let s := countSpecial s n (changedVals e.kfmt e.vfmt f.1 f.2 (loHeads w) (loDim w) bs)
          let s := writePa s n a (recodeBlock e.kfmt e.vfmt f.1 f.2 (loHeads w) (loDim w) bs)
          let s := putEntry s n m.handle { e with tier := m.tier, kfmt := f.1, vfmt := f.2, addr := a }
          let s := releaseStorage s n e.addr old e.tier
          let s := (s.addObj (Obj.migrations n) 1).addObj (Obj.recompressions n) parts
          .next (startMoves (dropMove s n m) n)
        | _, _ => .next gone

/-- The tick boundary is counted toward the next halving; at HEAT_DECAY, as it stands at the boundary, one is due and the count restarts. -/
def countHeatTick (s : State) (n : Nat) : State :=
  let x := s.slice n
  s.setSlice (if s.getObj (Obj.heatDecay n) ≤ x.heatTicks + 1 then { x with heatTicks := 0, heatDue := x.heatDue + 1 }
    else { x with heatTicks := x.heatTicks + 1 })

/-- HEAT_DECAY (R227): every HEAT is halved at the boundary at which that fell due, and the list follows the entries. -/
def execHeatDecay (n : Nat) (s : State) : Res :=
  let x := s.slice n
  onlyIf s (decide (1 ≤ s.getObj (Obj.sState n) ∧ 0 < x.heatDue)) "heat decay due" <|
    .next (evaluateTiering (s.setSlice { x with heatDue := x.heatDue - 1, entries := x.entries.map fun p => (p.1, { p.2 with heat := p.2.heat / 2 }) }) n)

end Sys2Proof.Machine
end

