-- ==== Sys2Proof/Machine/Matrix.lean ====
section
/-! DEFINITION. Matrix.lean: the matrix queue of a core (R84), the matrix instructions (R144 to R149) and the matrix engine's work
on a queue entry with the arithmetic of R54 to R58. -/

namespace Sys2Proof.Machine

/-! ### Issue (R84, R144) -/

/-- A matrix instruction: full active mask, then a place in the four-entry queue with the descriptor registers as they stand. -/
def matrixIssue (op : Nat) (g : GroupRef) (w : Word64) (s : State) : Res :=
  runInstr [op] s g w fun s h =>
    if h.p.mask ≠ BitVec.allOnes 32 then .fault s 0x48 h.p.mask 0 (BitVec.zeroExtend 64 h.p.mask)
    else
      let c := s.core h.g.core
      if 4 ≤ c.mq.length then .wait s
      else
        let e : MatEnt := { g := g, word := w, aLo := h.t.sreg (fX21 w), aHi := h.t.sreg (fX21 w + 1), bLo := h.t.sreg (fX27 w),
                            bHi := h.t.sreg (fX27 w + 1), pc := h.p.pc }
        .step (s.setCore { c with mq := c.mq ++ [e] }) h.t

/-- GMMA (R144, R147). -/
def execGmma (g : GroupRef) (w : Word64) (s : State) : Res := matrixIssue 0xC0 g w s

/-- ACC_ZERO (R144, R149). -/
def execAccZero (g : GroupRef) (w : Word64) (s : State) : Res := matrixIssue 0xC1 g w s

/-- ACC_LD (R144, R149). -/
def execAccLd (g : GroupRef) (w : Word64) (s : State) : Res := matrixIssue 0xC2 g w s

/-- ACC_ST (R144, R149). -/
def execAccSt (g : GroupRef) (w : Word64) (s : State) : Res := matrixIssue 0xC3 g w s

/-! ### Tiles -/

/-- A misaligned BASE or STRIDE, or a reserved bit (R8, R146, R149). -/
def tileBad (d : TileDesc) : Bool := d.base % 64 != 0 || d.stride % 8 != 0 || d.res != 0

/-- Pairings of Table 4.21. -/
def pairOk (a b : Nat) : Bool := (decide (a ≤ 4) && decide (b ≤ 4)) || (a == b && (a == 5 || a == 6 || a == 7))

/-- Element of a tile: what was written, else its free start value (log 9). -/
def tileGet (t : Tile) (i : Nat) : Word32 := sget (fun k => BitVec.ofNat 32 (Config.freeNat (t.base + k))) t.cells i

/-! ### Work of the engine -/

/-- Where a queue entry works. -/
structure MatAt where
  l : Launch
  g : Gang
  e : MatEnt
  deriving DecidableEq, Repr

/-- A fault of the matrix engine (Table 3.10, SOURCE 2): a group-wide instruction, so all its lanes. -/
def matFault (a : MatAt) (cause addr : Nat) (info : Word64) : FaultInfo :=
  let t := findGroup a.g a.e.g.group
  { cause := cause, source := 2, quad := (t.map (·.quad)).getD (a.e.g.group % 4), slot := (t.map (·.slot)).getD 0,
    unit := a.e.g.group, gang := a.g.idx, lanes := BitVec.allOnes 32, pc := a.e.pc, addr := BitVec.ofNat 64 addr, info := info }

/-- Outcome of an entry. -/
inductive MatWork where
  | done (s : State)
  | wait (s : State)
  | fault (cause addr : Nat) (info : Word64)
  | absent
  | any

/-- A tile of the gang, and writing one. -/
def tileOf (a : MatAt) (i : Nat) : Tile := a.g.tiles.getD i { base := 0 }

def putTile (s : State) (a : MatAt) (i : Nat) (t : Tile) : State :=
  updGang s a.l.ctx a.g.idx fun g => { g with tiles := g.tiles.set i t }

/-- A tile with every element written. -/
def tileOfList (base : Nat) (vs : List Nat) : Tile := { base := base, cells := vs.mapIdx fun i v => (i, BitVec.ofNat 32 v) }

/-- Runs of bytes (address, length) that the gang's scratchpad allocation does not hold: the lowest byte outside (R81). -/
def spadFault (a : MatAt) (rs : List (Nat × Nat)) : Option Nat :=
  (rs.find? fun r => decide (a.l.spad < r.1 + r.2)).map fun r => max r.1 a.l.spad

/-- The runs that an operand of `gmma` reads. -/
def operandRuns (d : TileDesc) (kblk : Nat) : List (Nat × Nat) :=
  (List.range 64).flatMap fun r =>
    (rowAt d r, 4 * kblk * tileWidth d.fmt) :: (if isMx d.fmt then [(scaleAt d r, kblk)] else [])

/-- Row `r` of an operand: the 32 element values of each k-block. -/
def operandRow (sp : List Host.Cell) (d : TileDesc) (kblk r : Nat) : List (List FVal) :=
  let w := tileWidth d.fmt
  let es := unpackElems' w (32 * kblk) (cellsGet sp (rowAt d r) (4 * kblk * w))
  (List.range kblk).map fun j =>
    let sc := (cellGet sp (scaleAt d r + j)).toNat
    ((es.drop (32 * j)).take 32).map fun e =>
      if isMx d.fmt then mxValue d.fmt sc e else decodeElem d.fmt e
where
  /-- `n` elements of `w` bits from a byte string. -/
  unpackElems' (w n : Nat) (bs : List Byte) : List Nat :=
    let v := leNat bs
    (List.range n).map fun i => v / 2 ^ (w * i) % 2 ^ w

/-- An accumulator element over the k-blocks of its rows, in increasing k (R55, R147). -/
def gmmaElem (truncate : Bool) (acc : Nat) (ra rb : List (List FVal)) : Nat :=
  (ra.zip rb).foldl (fun v p => kBlock truncate v ((p.1.zip p.2).map fun q => mulProd q.1 q.2)) acc

/-- What the k-blocks of an accumulator element raise. -/
def gmmaRaises (truncate : Bool) (acc : Nat) (ra rb : List (List FVal)) : List Rounded :=
  ((ra.zip rb).foldl (fun (x : Nat × List Rounded) p =>
    let r := kRaises truncate x.1 (p.1.zip p.2)
    (r.bits, r :: x.2)) (acc, [])).2

/-- `gmma` (R146, R147), with the trap of R53 on what its elements raise: one group-wide fault, before the tile is written (log 22). -/
def doGmma (a : MatAt) (s : State) : MatWork :=
  let w := a.e.word
  let da := tileDesc a.e.aLo a.e.aHi
  let db := tileDesc a.e.bLo a.e.bHi
  let k := fKblk w
  if tileBad da || tileBad db || da.space != 0 || db.space != 0 || !(pairOk da.fmt db.fmt) then .any
  else match spadFault a (operandRuns da k ++ operandRuns db k) with
  | some x => .fault 0x40 x 0
  | none =>
    let old := tileOf a (fTop3 w)
    let rowsA := (List.range 64).map (operandRow a.g.spad da k)
    let rowsB := (List.range 64).map (operandRow a.g.spad db k)
    let tr := decide (6 ≤ da.fmt)
    let acc (m n : Nat) : Nat := if fZero w then 0 else (tileGet old (64 * m + n)).toNat
    let raised : Raised := if !a.l.trap then {} else
      (rowsA.zipIdx.flatMap fun ra => rowsB.zipIdx.map fun rb => gmmaRaises tr (acc ra.2 rb.2) ra.1 rb.1).foldl (fun (r : Raised) x => r.add 0 x) {}
    match raised.trap with
    | some (c, _) => .fault c 0 w
    | none =>
    let vs := rowsA.zipIdx.flatMap fun ra => rowsB.zipIdx.map fun rb => gmmaElem tr (acc ra.2 rb.2) ra.1 rb.1
    .done ((putTile s a (fTop3 w) (tileOfList old.base vs)).addObj (Obj.gmmaKblocks a.l.slice) k)

/-- `acc.zero` (R149). -/
def doAccZero (a : MatAt) (s : State) : MatWork :=
  let i := fTop3 a.e.word
  .done (putTile s a i (tileOfList (tileOf a i).base (List.replicate 4096 0)))

/-- A read for the engine drops the core's own L1 copies of the lines, so that no later plain load of the group returns an older value
(R163, R170). -/
def engineRead (by_ : Asker) (s : State) (core n a len : Nat) : Except Stop (State × List Byte) :=
  match readRunAs .sectors by_ s n 2 a len with
  | .error e => .error e
  | .ok (s, bs) => .ok ((List.range ((a + len - 1) / 512 + 1 - a / 512)).foldl (fun s i => match translate s n (a / 512 * 512 + 512 * i) 0 with
    | .ok pa => dropL1 s core (.dev (pa / 512))
    | .error _ => s) s, bs)

/-- The rows of an `acc.ld` read from device memory. -/
def ldRows (by_ : Asker) (core n : Nat) (d : TileDesc) : List Nat → State → Except (Nat × Stop) (State × List Byte)
  | [], s => .ok (s, [])
  | m :: ms, s => match engineRead by_ s core n (rowAt d m) 256 with
    | .error e => .error (rowAt d m, e)
    | .ok (s, bs) => match ldRows by_ core n d ms s with
      | .error e => .error e
      | .ok (s, rest) => .ok (s, bs ++ rest)

/-- `acc.ld` (R149): from a binary32 descriptor. -/
def doAccLd (a : MatAt) (s : State) : MatWork :=
  let i := fTop3 a.e.word
  let d := tileDesc a.e.aLo a.e.aHi
  let load (s : State) (bs : List Byte) : MatWork :=
    .done (putTile s a i (tileOfList (tileOf a i).base ((chunks 4 bs.length bs).map leNat)))
  if tileBad d || d.fmt != 7 then .any
  else if d.space = 0 then
    match spadFault a ((List.range 64).map fun m => (rowAt d m, 256)) with
    | some x => .fault 0x40 x 0
    | none => load s ((List.range 64).flatMap fun m => cellsGet a.g.spad (rowAt d m) 256)
  else match landAll s a.g.core with
  | (s, false) => .wait s
  | (s, true) => match ldRows (.unit a.l.ctx a.g.core) a.g.core a.l.slice d (List.range 64) s with
    | .ok (s, bs) => load s bs
    | .error (ad, .cause c inf) => .fault c ad inf
    | .error (_, .wait s) => .wait s
    | .error (_, .absent) => .absent
    | .error (_, .any) => .any

/-- A row of a tile as `acc.st` writes it: bytes of the row, scales, and what the conversion raises; `h` gives the hash of a
position P, `fr` free numbers. -/
def stRow (fmt rm : Nat) (h : Nat → Nat) (fr : Nat → Nat) (row : Nat) (vs : List Nat) : List Byte × List Byte × List Rounded :=
  if fmt = 7 then (vs.flatMap (toLe 4), [], [])
  else if isMx fmt then
    let w := tileWidth fmt
    let fs := vs.map (decodeF fmtF32)
    let b (j : Nat) : Nat × List Nat :=
      mxBlock (fun i => fr (32 * j + i)) fmt rm (fun i => h (8 * row + w * (32 * j + i))) ((fs.drop (32 * j)).take 32)
    let r (j : Nat) : List Rounded := mxRaises fmt rm (fun i => h (8 * row + w * (32 * j + i))) ((fs.drop (32 * j)).take 32)
    (toLe (8 * w) (packElems w ((b 0).2 ++ (b 1).2)), [BitVec.ofNat 8 (b 0).1, BitVec.ofNat 8 (b 1).1], r 0 ++ r 1)
  else
    let f := if fmt = 6 then fmtBf16 else fmtF16
    let rs := vs.mapIdx fun n v => convF f rm (h (8 * (row + 2 * n))) (decodeF fmtF32 v)
    (rs.flatMap fun r => toLe 2 r.bits, [], rs)

/-- The runs that an `acc.st` writes, with their bytes, row by row. -/
def stRuns (d : TileDesc) (rows : List (List Byte × List Byte × List Rounded)) : List (Nat × List Byte) :=
  rows.zipIdx.flatMap fun r => (rowAt d r.2, r.1.1) :: (if r.1.2.1.isEmpty then [] else [(scaleAt d r.2, r.1.2.1)])

/-- The first run that cannot be written now, with why. -/
def stBlocked (by_ : Asker) (s : State) (n : Nat) : List (Nat × List Byte) → Option (Nat × Stop)
  | [] => none
  | r :: rs => match spanOkBy by_ s n 2 r.1 r.2.length true with
    | .error e => some (r.1, e)
    | .ok () => stBlocked by_ s n rs

/-- A run of bytes cut at sectors. -/
def cutSectors : Nat → Nat → List Byte → List (Nat × List Byte)
  | 0, _, _ => []
  | fuel + 1, a, bs => if bs.isEmpty then [] else (a, bs.take (sectLeft a)) :: cutSectors fuel (a + sectLeft a) (bs.drop (sectLeft a))

/-- The stores of a tile, one for each sector that it writes (R172). -/
def tileEnts (s : State) (a : MatAt) (runs : List (Nat × List Byte)) : List StoreEnt :=
  (runs.flatMap fun r => cutSectors (r.2.length / 64 + 2) r.1 r.2).foldl (fun es d => match locate s a.l.slice 2 d.1 1 with
    | .ok k => addPart { ctx := a.l.ctx, core := a.g.core, slice := a.l.slice, space := 2, va := d.1 / 64 * 64, line := k.line, i := k.i } (d.1 % 64) d.2 es
    | .error _ => es) []

/-- `acc.st` (R149, R131's conversions by Table 2.3 and R45; the trap of R53 on converted elements, log 22). Its stores count as the
group's own in program order: each of its sectors joins the core's stores (R166, R170, R172). -/
def doAccSt (a : MatAt) (s : State) : MatWork :=
  let w := a.e.word
  let i := fTop3 w
  let d := tileDesc a.e.aLo a.e.aHi
  let rm := effRm s a.l.slice (fXrm w)
  if tileBad d || decide (8 < d.fmt) || (fXrm w == 4 && d.space == 0) then .any
  else
    let old := tileOf a i
    let fr := s.free
    let s := s.useFree 4096
    let rows := (List.range 64).map fun m =>
      stRow d.fmt rm (fun p => (rsrHash s a.l p)) (fun k => Config.freeNat (fr + 64 * m + k)) (rowAt d m)
        ((List.range 64).map fun n => (tileGet old (64 * m + n)).toNat)
    let raised := (rows.flatMap (·.2.2)).foldl (fun (r : Raised) x => r.add 0 [x]) {}
    match (if a.l.trap then raised.trap else none) with
    | some (c, _) => .fault c 0 w
    | none =>
      let runs := stRuns d rows
      if d.space = 0 then
        match spadFault a (runs.map fun r => (r.1, r.2.length)) with
        | some x => .fault 0x40 x 0
        | none => .done (updGang s a.l.ctx a.g.idx fun g => { g with spad := runs.foldl (fun sp r => cellsPut sp r.1 r.2) g.spad })
      else match stBlocked (.unit a.l.ctx a.g.core) s a.l.slice runs with
        | some (ad, .cause c inf) => .fault c ad inf
        | some (_, .wait s) => .wait s
        | some (_, .absent) => .absent
        | some (_, .any) => .any
        | none =>
          if runs.any fun r => heldLock s a.l.slice 2 r.2.length [r.1] then .any
          else .done (pushStores s a.l.ctx a.g.idx a.g.core (tileEnts s a runs))

/-- Unpredictable results of a matrix instruction (R15): any values that the slice may write, a kill with any cause, or the tile
with any values. -/
def matrixAny (a : MatAt) (s : State) : State :=
  let s := unpredictable s a.l.slice
  let c := s.freeVal
  let k := Config.freeNat (s.free + 1)
  let s := s.useFree 2
  if c % 2 = 0 then raiseFault s a.l.ctx a.g.core (matFault a (0x40 + k % 15) 0 0)
  else putTile (s.useFree 4096) a (fTop3 a.e.word) { base := s.free }

/-- Remove the first entry of a core's queue. -/
def popMatrix (s : State) (core : Nat) : State :=
  let c := s.core core
  s.setCore { c with mq := c.mq.drop 1 }

/-- MATRIX_QUEUE_EXECUTE (R84, R147 to R149): the engine executes the first entry; a gang whose last work this was ends. -/
def execMatrixQueueExecute (core : Nat) (s : State) : Res :=
  let c := s.core core
  onlyIf s (!c.hung) "core" <| withSome s c.mq.head? "matrix queue entry" fun e =>
    withSome s (s.launch? e.g.ctx) "launch" fun l => onlyIf s (onCores l) "launch" <|
      withSome s (findGang l e.g.gang) "gang" fun g =>
        let a : MatAt := { l := l, g := g, e := e }
        let r := match fOpcode e.word with
          | 0xC0 => doGmma a s
          | 0xC1 => doAccZero a s
          | 0xC2 => doAccLd a s
          | _ => doAccSt a s
        match r with
        | .done s => .next (reapGangs (popMatrix (served s (.unit l.ctx core)) core) l.ctx)
        | .wait s => .next s
        | .fault c ad i => .next (reapGangs (popMatrix (raiseFault s l.ctx core (matFault a c ad i)) core) l.ctx)
        | .absent => .fault .absentAddress
        | .any => .next (reapGangs (popMatrix (matrixAny a s) core) l.ctx)

end Sys2Proof.Machine
end

