-- ==== Sys2Proof/Machine/Slicing.lean ====
section
/-! DEFINITION. Slicing.lean: which launch runs on which rows. Heads and their order (R273, R274), the records of LAUNCH and MIX (R286,
R302, R303), the rows and cores that a launch fits on (R76, R77, R276, R278), and the launches of a slice that may start, in order. -/

namespace Sys2Proof.Machine

/-! ### Rows of a slice -/

/-- The flat rows that a slice holds (S_ROWS: bits [12d + 11 : 12d]). -/
def sliceRows (s : State) (n : Nat) : List Nat := (List.range 48).filter fun r => (s.getObj (Obj.sRows n)).testBit r

/-- A MIX's fields (Table 10.5). -/
def mixTokens (c : Cmd) : Nat := c.field 32 4
def mixChunk (c : Cmd) : Nat := if c.field 36 4 = 0 then c.chunk else c.field 36 4
def mixPrefillRows (c : Cmd) : Nat := c.field 40 1
def mixSteps (c : Cmd) : Nat := c.field 42 2
def mixChunks (c : Cmd) : Nat := if mixChunk c = 0 then 0 else (mixTokens c + mixChunk c - 1) / mixChunk c

/-- The rows of a MIX's prefill and decode launches (R286). -/
def mixSplit (s : State) (n : Nat) (c : Cmd) (prefill : Bool) : List Nat :=
  let rs := sliceRows s n
  if mixTokens c = 0 then (if prefill then [] else rs)
  else if prefill then rs.take (mixPrefillRows c)
  else if mixSteps c = 0 then [] else rs.drop (mixPrefillRows c)

/-- Whether two lists of rows share one. -/
def shareRow (a b : List Nat) : Bool := a.any fun r => b.contains r

/-! ### Making a launch -/

/-- What the fields of a launch record leave unpredictable: reserved bits and fields outside their range (R303). `bs` holds LAUNCH
bytes 16 to 63. -/
def launchBad (bs : List Byte) : Bool :=
  decide (32 ≤ fieldLe bs 28 1) || decide (32 ≤ fieldLe bs 29 1) || decide (128 < fieldLe bs 30 1) || decide (32 ≤ fieldLe bs 31 1) ||
    decide (8 < fieldLe bs 31 1 % 16) || decide (16 < fieldLe bs 32 1) || fieldLe bs 34 2 != 0 || fieldLe bs 36 12 != 0

/-- The scalar registers at start: s0 to s2 as given, s8 to s63 the payload (R303). -/
def startRegs (first : List Nat) (payload : List Byte) : List (Nat × Word64) :=
  let put (l : List (Nat × Word64)) (p : Nat × Nat) : List (Nat × Word64) := sput (fun _ => 0) l p.1 (BitVec.ofNat 64 p.2)
  let a := (first.mapIdx fun i v => (i, v)).foldl put []
  ((List.range 56).map fun i => (8 + i, fieldLe payload (8 * i) 8)).foldl put a

/-- A launch of a command from its record. -/
def launchOf (s : State) (ch : Nat) (c : Cmd) (role : Role) (bs : List Byte) (first : List Nat) : Launch :=
  { ctx := s.nextCtx, slice := chSliceOf s ch, ch := ch, seq := c.seq, role := role, entry := BitVec.ofNat 64 (fieldLe bs 0 8),
    faultRec := BitVec.ofNat 64 (fieldLe bs 8 8), rtick := fieldLe bs 16 6, wdog := fieldLe bs 22 2, gangs := fieldLe bs 24 4,
    groups := fieldLe bs 28 1 % 32 + 1, vregs := 8 * (fieldLe bs 29 1 % 32 + 1), spad := 16384 * fieldLe bs 30 1,
    tiles := fieldLe bs 31 1 % 16, trap := bitN (fieldLe bs 31 1) 4, streams := fieldLe bs 32 1 % 32,
    sinit := startRegs first c.payload, since := s.now, relTick := c.relTick, relTime := c.relTime, atomic := c.atomic }

/-! ### Resources and heads (R273, R274) -/

/-- The resource that runs a command (Table 10.3). -/
def resourceOf (c : Cmd) : Resource :=
  match c.op with
  | 0x01 => .rows
  | 0x0D => .rows
  | 0x02 => .copyEngine
  | 0x03 => .copyEngine
  | 0x04 => .copyEngine
  | 0x0C => .copyEngine
  | 0x08 => .reductionEngine
  | 0x09 => .contextEngine
  | 0x0A => .contextEngine
  | 0x0B => .bankEngine
  | _ => .commandProcessor

/-- Commands in flight on a resource. -/
def flightOn (s : State) (r : Resource) : Nat := sumNat (s.chans.map fun x => (x.flight.filter fun c => resourceOf c == r).length)

/-- Whether the resource can take one more: eight copy engines, sixteen collectives (R299, R351). -/
def resourceFree (s : State) (r : Resource) : Bool :=
  match r with
  | .copyEngine => decide (flightOn s r < 8)
  | .reductionEngine => decide (flightOn s r < 16)
  | _ => true

/-- Whether Table 10.10 lets a command of a channel start. -/
def orderAllows (s : State) (ch : Nat) (c : Cmd) : Bool :=
  let fl := (s.chan ch).flight
  fl.all (fun d => !([0x05, 0x07, 0x0B].contains d.op)) && (fl.isEmpty || !(c.serial || [0x06, 0x07, 0x0B].contains c.op))

/-- The head of a channel where it may be dispatched to a resource now. -/
def headFor (s : State) (r : Resource) (ch : Nat) : Option Cmd :=
  match (s.chan ch).fetched with
  | [] => none
  | c :: _ =>
    if c.released && resourceOf c == r && s.getObj (Obj.chEnable ch) == 1 && s.getObj Obj.moduleState == 5 && orderAllows s ch c &&
        slotFree s ch (s.chan ch).flight.length && (match lsOf s ch with
          | some k => (s.lockSet k).rb.isNone
          | none => true) then some c
    else none

/-- The earlier of two deadlines; none is later than every deadline. -/
def minDl (a b : Option Int) : Option Int :=
  match a, b with
  | some x, some y => some (min x y)
  | some x, none => some x
  | none, y => y

/-- The effective deadline of a channel's head: the earliest among it and the released commands behind it (R274). -/
def effective (s : State) (ch : Nat) (c : Cmd) : Option Int :=
  ((s.chan ch).fetched.filter (·.released)).foldl (fun d x => minDl d (deadlineOf s ch x)) (deadlineOf s ch c)

/-- Order of two deadlines. -/
def dlLt (a b : Option Int) : Bool :=
  match a, b with
  | some x, some y => decide (x < y)
  | some _, none => true
  | none, _ => false

/-- Order of R274: effective deadline, DCLASS, channel. -/
def headLt (a b : Option Int × Nat × Nat) : Bool :=
  dlLt a.1 b.1 || (!(dlLt b.1 a.1) && decide (a.2.1 < b.2.1 ∨ (a.2.1 = b.2.1 ∧ a.2.2 < b.2.2)))

/-! ### The launches of a slice, in order (R277) -/

/-- The command of a launch, in flight or still a head. -/
def cmdOf (s : State) (l : Launch) : Option Cmd :=
  match findFlight s l.ch l.seq with
  | some c => some c
  | none => (s.chan l.ch).fetched.find? fun c => c.seq == l.seq

/-- The deadline of a launch and its ties (R274). -/
def launchKey (s : State) (l : Launch) : Option Int × Nat × Nat :=
  let c? := cmdOf s l
  let d := match l.role, c? with
    | .command, some c => effective s l.ch c
    | _, _ => l.deadline
  (d, (c?.map Cmd.dclass).getD 0, l.ch)

/-- Whether a LAUNCH needs no rows: it completes at once, or its results are unpredictable (R303). -/
def rowless (c : Cmd) : Bool := c.res || c.schedReserved || launchBad (c.slot.drop 16) || fieldLe (c.slot.drop 16) 24 4 == 0

/-- A head LAUNCH of a slice as the launch that it would be: it waits for its rows (R273). Its number is that of no launch. -/
def headLaunch (s : State) (ch : Nat) : Option Launch :=
  match headFor s .rows ch with
  | none => none
  | some c => if c.op = 0x01 ∧ rowless c = false then
      some { launchOf s ch c .command (c.slot.drop 16) [] with ctx := 2 ^ 24 + ch }
    else none

/-- The launches of a slice that hold its cores or wait for them, in the order in which they are admitted: R274, but among equal deadlines
one that has been resident for QUANTUM granules comes after the others (log 45). -/
def sliceOrder (s : State) (n : Nat) : List Launch :=
  let spent (l : Launch) : Nat := if l.phase == .resident && decide (s.getObj (Obj.quantum n) ≤ l.granules) then 1 else 0
  let lt (a b : Launch) : Bool :=
    let ka := launchKey s a
    let kb := launchKey s b
    dlLt ka.1 kb.1 || (!(dlLt kb.1 ka.1) && (decide (spent a < spent b) || (decide (spent a = spent b) &&
      decide (ka.2.1 < kb.2.1 ∨ (ka.2.1 = kb.2.1 ∧ ka.2.2 < kb.2.2)))))
  sortBy lt ((s.launches.filter fun l => l.slice == n && !l.killed && (l.phase == .resident || l.phase == .waiting || l.phase == .saved)) ++
    (channelsOf s n).filterMap (headLaunch s))

/-! ### Where a launch fits (R76, R276, R278) -/

/-- Whether the next gang of a launch fits on the rows it has. -/
def gangFits (s : State) (l : Launch) : Bool :=
  let cs := coresFor s l.rows
  if l.gangs ≤ l.nextGang then true
  else if (s.getObj (Obj.detMask l.slice)).testBit 3 then
    !cs.isEmpty && fits s l (cs.getD (l.nextGang % cs.length) 0)
  else cs.any (fits s l)

/-- A gang's groups on a core where it comes to stand: the lowest free slots of their quadrants (R77). -/
def reslot (s : State) (c : Nat) (ts : List Group) : List Group :=
  ts.foldl (fun (acc : List Group) t =>
    acc ++ [{ t with slot := lowestFree (slotsUsed s c t.quad ++ (acc.filter fun u => u.quad == t.quad).map (·.slot)) }]) []

/-- A launch's gangs laid onto cores, each on the first of its candidates that has room. -/
def layGangs (ok : State → Launch → Nat → Bool) (at_ : Gang → List Nat) (l : Launch) : List Gang → State → Option State
  | [], s => some s
  | g :: gs, s =>
    match (at_ g).find? fun c => ok s l c with
    | none => none
    | some c =>
      let g := { g with core := c, groups := reslot s c g.groups }
      layGangs ok at_ l gs (updLaunch s l.ctx fun x => { x with live := x.live ++ [g] })

/-- A saved launch put back onto cores of some rows in a phase: with determinism mask bit [3] every gang to its position within the
launch's rows, else each onto any core with room (R278). -/
def layLaunch (s : State) (l : Launch) (rows : List Nat) (ph : Phase) (rot : Nat) : Option State :=
  let cs := coresFor s rows
  let r := if cs.isEmpty then 0 else rot % cs.length
  let place (g : Gang) : List Nat := if (s.getObj (Obj.detMask l.slice)).testBit 3 then
      match (coresOf l.rows).findIdx? (· == g.core) with
      | some i => match (coresOf rows)[i]? with
        | some c => [c]
        | none => []
      | none => []
    else cs.drop r ++ cs.take r
  layGangs fits place l l.live (s.setLaunch { l with rows := rows, phase := ph, live := [] })

/-- Whether a launch that waits or is saved fits on some rows now. -/
def fitsOn (s : State) (l : Launch) (rows : List Nat) : Bool :=
  if l.phase == .saved then (layLaunch s l rows .resident 0).isSome else gangFits s { l with rows := rows } && !rows.isEmpty

/-- `k` of the rows of a list, left open by R276: chosen one by one by free values (log 38). -/
def chooseRows : Nat → State → List Nat → State × List Nat
  | 0, s, _ => (s, [])
  | k + 1, s, rs =>
    if rs.isEmpty then (s, [])
    else
      let r := rs.getD (s.freeVal % rs.length) 0
      let (s, rest) := chooseRows k (s.useFree 1) (rs.filter fun x => x != r)
      (s, r :: rest)

/-- How many of a list of gangs find room on some cores, one after another. -/
def layCount (cs : List Nat) (l : Launch) : List Gang → State → Nat
  | [], _ => 0
  | g :: gs, s =>
    match cs.find? fun c => fits s l c with
    | none => 0
    | some c => 1 + layCount cs l gs (updLaunch s l.ctx fun x => { x with live := x.live ++ [{ g with core := c, groups := reslot s c g.groups }] })

/-- What room a row has for a launch: how many of its gangs, or whether its first one. -/
def rowRoom (s : State) (l : Launch) (r : Nat) : Nat :=
  let cs := coresFor s [r]
  if l.phase == .saved then layCount cs l l.live (s.setLaunch { l with phase := .resident, live := [] })
  else if cs.any (fits s l) then 1 else 0

/-- The `k` rows of a list with the most room for a launch, in flat order. -/
def roomiest (s : State) (l : Launch) (k : Nat) (rs : List Nat) : List Nat :=
  let best := ((sortBy (fun (a b : Nat × Nat) => decide (b.2 < a.2)) (rs.map fun r => (r, rowRoom s l r))).take k).map (·.1)
  (List.range 48).filter fun r => best.contains r

/-- Whether the gangs that stood in the `i`-th row of a saved launch fit at their columns of a row. -/
def seatRow (s : State) (l : Launch) (i r : Nat) : Bool :=
  let mine := l.live.filter fun g => match (coresOf l.rows).findIdx? (· == g.core) with
    | some j => j / 13 == i
    | none => false
  (layGangs fits (fun g => [r * 13 + g.core % 13]) l mine (s.setLaunch { l with phase := .resident, live := [] })).isSome

/-- Rows of a list on which a saved launch can return to its positions: for each of its rows in turn the first that seats its gangs. -/
def seatRows (s : State) (l : Launch) : List Nat → Nat → List Nat
  | [], _ => []
  | r :: rs, i => if i < l.rows.length && seatRow s l i r then r :: seatRows s l rs (i + 1) else seatRows s l rs i

/-- Rows on which a launch fits now. A part of a MIX takes its own, where no other launch stands on them; other launches take no row on
which one of a MIX stands (R286). A LAUNCH takes ROWS of its slice's rows: any, where it fits on those, else rows on which it does fit: by
its positions, those with the most room, or rows that follow one another (R276, log 38); those that a granule boundary took it in on, while it
fits there (R277). -/
def placeRows (s : State) (l : Launch) : Option (State × List Nat) :=
  let on := s.launches.filter fun x => onCores x && x.slice == l.slice && x.ctx != l.ctx
  match l.role, cmdOf s l with
  | .command, c? =>
    let all := sliceRows s l.slice
    let asked := if l.phase == .saved then l.rows.length else (c?.map fun c => c.field 49 1).getD 0
    let k := if asked = 0 ∨ all.length < asked then all.length else asked
    let rs := all.filter fun r => !(on.any fun x => x.role != .command && x.rows.contains r)
    let kept := (s.slice l.slice).chosen.find? fun x => x.1 == l.ch && x.2.1 == l.seq && x.2.2.all (rs.contains ·) && fitsOn s l x.2.2
    if k = 0 ∨ rs.length < k then none
    else match kept with
    | some x => some (s, x.2.2)
    | none =>
      let (s', ks) := if rs.length = k then (s, rs) else chooseRows k s rs
      let ks := (List.range 48).filter fun r => ks.contains r
      if fitsOn s l ks then some (s', ks)
      else
        let more := (if l.phase == .saved then [seatRows s l rs 0] else []) ++ [roomiest s l k rs] ++
          (List.range (rs.length - k + 1)).map fun i => (rs.drop i).take k
        (more.find? fun r => r.length == k && fitsOn s l r).map fun r => (s', r)
  | r, some c =>
    let rs := mixSplit s l.slice c (r == .prefill)
    if fitsOn s l rs && !(on.any fun x => shareRow x.rows rs) then some (s, rs) else none
  | _, none => none

/-- Whether a launch stands on rows of a MIX's part, or a part on rows of another launch, of those taken in before it (R286). -/
def splitClash (s : State) (l : Launch) : Bool := s.launches.any fun x =>
  onCores x && x.slice == l.slice && x.ctx != l.ctx && !(x.role == .command && l.role == .command) && shareRow x.rows l.rows

/-- What is left to the other launches of a slice when a launch is taken in, none where it does not fit. One on cores keeps them, but not rows
that a part of a MIX before it in order takes. -/
def takeInto (s : State) (l : Launch) : Option State :=
  if l.phase == .resident && splitClash s l then none else
  let s := { s with launches := s.launches ++ [{ l with live := [] }] }
  if l.phase == .resident then layGangs roomOn (fun g => [g.core]) l l.live s
  else match placeRows s l with
    | none => none
    | some (s, rows) =>
      if l.phase == .saved then layLaunch s l rows .resident 0
      else
        let l := { l with rows := rows, phase := .resident }
        some (placeAll (s.setLaunch l) l.ctx)

/-- The launches that wait or are saved and may start now, each with its rows: in order, each is laid into what the resident ones and those
before it leave once the saves under way are done (`v`), and starts where its rows have room for it now. -/
def planGo : List Launch → State → State → List Launch → State × List Launch
  | [], v, _, got => (v, got)
  | l :: ls, v, s, got =>
    match takeInto v l with
    | none => planGo ls v s got
    | some v' =>
      let rows := ((v'.launch? l.ctx).map (·.rows)).getD []
      let s1 := { s with launches := s.launches ++ [{ l with live := [] }] }
      let s2? := if l.phase == .saved then layLaunch s1 l rows .resident 0
        else if gangFits s1 { l with rows := rows } then some (placeAll (s1.setLaunch { l with rows := rows, phase := .resident }) l.ctx) else none
      match s2? with
      | some s2 => planGo ls v' s2 (got ++ [{ l with rows := rows }])
      | none => planGo ls v' s got

/-- The launches of a slice that may start now, but for one whose rows pay debt until the next granule boundary (R281), with the free values
that choosing their rows has used. -/
def plan (s : State) (n : Nat) : State × List Launch :=
  let order := (sliceOrder s n).filter fun l => l.phase != .resident && !((s.slice n).denied.contains l.ctx)
  let rest := s.launches.filter fun l => !(order.any fun x => x.ctx == l.ctx)
  let (v, got) := planGo order { s with launches := rest.filter fun l => l.phase != .saving } { s with launches := rest } []
  ({ s with free := v.free }, got)

/-- A launch of the plan starts: a waiting one becomes resident and its gangs that fit are placed, a saved one begins its restore on any
cores that have room, or on its own positions. -/
def startLaunch (s : State) (l : Launch) : State :=
  if l.phase == .saved then
    let l' := { l with since := s.now - l.since }
    match layLaunch (s.useFree 1) l' l.rows .restoring s.freeVal with
    | some s' => s'
    | none => (layLaunch s l' l.rows .restoring 0).getD s
  else placeAll (s.setLaunch { l with phase := .resident, since := s.now }) l.ctx

/-- The launches of a slice that may start do; a head LAUNCH does at its dispatch. -/
def startSlice (s : State) (n : Nat) : State :=
  let (s, ls) := plan s n
  (ls.filter fun l => decide (l.ctx < 2 ^ 24)).foldl startLaunch s

end Sys2Proof.Machine
end

