-- ==== Sys2Proof/Machine/Stoker.lean ====
section
/-! DEFINITION. Stoker.lean: streams of a gang (R92 to R100), the stoker instructions (R143), and the two events at which the
stoker works through a slot, from memory (R93), from the context map (R229 to R231) or to memory. A slot is begun and finished in
one event (log 11). -/

namespace Sys2Proof.Machine

/-! ### Stream descriptors (Table 3.6) -/

/-- Sequence-number walk parameters of a KIND 2 stream (Table 7.8). -/
def dFirstHead (d : Desc) : Nat := bits d.rowStride.toNat 15 0
def dPart (d : Desc) : Nat := bits d.rowStride.toNat 17 16
def dVt (d : Desc) : Bool := d.rowStride.toNat.testBit 18
def dGroup (d : Desc) : Nat := 2 ^ bits d.rowStride.toNat 20 19
def dParts (d : Desc) : Nat := if dPart d = 2 then 2 else 1

/-- Whether a stream decodes EB data in a walk of KIND 0 or 1 into something else; EB8 goes into MXFP8 unchanged, elements as elements and
group scales as scales (R49), so its bytes are copied. -/
def dConverts (d : Desc) : Bool := d.kind != 2 && d.srcFmt != 0 && !(d.srcFmt == 1 && d.dstFmt == 1)

/-- What R8, R92, R94, R229 and R230 call unpredictable in a descriptor; it neither faults nor is clamped at stk.start. -/
def descBad (off : Nat) (bs : List Byte) (d : Desc) : Bool :=
  decide (off % 64 ≠ 0) || fieldLe bs 0 1 / 16 != 0 || fieldLe bs 3 1 != 0 || fieldLe bs 4 4 / 2 ^ 21 != 0 ||
    bitN (fieldLe bs 12 1) 7 || bitN (fieldLe bs 13 1) 7 || fieldLe bs 14 2 != 0 || fieldLe bs 56 8 != 0 ||
    d.slots == 0 || d.runAhead == 0 || decide (d.slots < d.runAhead) || decide (64 < d.slots) || d.slotBytes % 64 != 0 || d.ringBase % 256 != 0 ||
    d.kind == 3 ||
    (if d.kind = 2 then
      d.space != 0 || d.rowBytes != 0 || decide (2 ^ 32 ≤ d.base.toNat) || decide (2 ^ 32 ≤ d.planeStride.toNat) ||
        decide (2 ^ 21 ≤ d.rowStride.toNat) || !([1, 2, 3].contains d.srcFmt) || !([1, 2].contains d.dstFmt) || dPart d == 3 ||
        (dVt d && (d.dstFmt != 2 || dGroup d == 1))
    else
      d.space == 3 || d.base.toNat % 64 != 0 ||
        !((d.srcFmt == 0 && d.dstFmt == 0) || ([1, 2, 3].contains d.srcFmt && [1, 2].contains d.dstFmt)))

/-- The 64 bytes of a descriptor as read at scratchpad offset `off`. -/
def readDesc (off : Nat) (bs : List Byte) : Desc :=
  let d : Desc :=
    { kind := bits (fieldLe bs 0 1) 1 0, space := bits (fieldLe bs 0 1) 3 2, srcFmt := fieldLe bs 1 1, dstFmt := fieldLe bs 2 1,
      ringBase := fieldLe bs 4 4 % 2 ^ 21, slotBytes := fieldLe bs 8 4, slots := fieldLe bs 12 1 % 128,
      runAhead := fieldLe bs 13 1 % 128, base := BitVec.ofNat 64 (fieldLe bs 16 8), rowBytes := fieldLe bs 24 4,
      rows := fieldLe bs 28 4, rowStride := BitVec.ofNat 64 (fieldLe bs 32 8), planes := fieldLe bs 40 4,
      totalSlots := fieldLe bs 44 4, planeStride := BitVec.ofNat 64 (fieldLe bs 48 8) }
  { d with bad := descBad off bs d }

/-! ### Walks (R93) -/

/-- Bytes of the walk of KIND 0 and 1. -/
def walkBytes (d : Desc) : Nat := d.planes * d.rows * d.rowBytes

/-- Slots of the walk: none without bound (slots of no bytes over a walk of some), or not known until the walk has ended (a walk
that decodes EB data, whose bytes per slot no rule states). -/
def walkSlots (t : Stream) : Option Nat :=
  let d := t.desc
  if d.kind = 2 then some ((d.planes + dGroup d - 1) / dGroup d * d.rows * dParts d)
  else if dConverts d then (if walkBytes d ≤ t.pos then some t.work else none)
  else if d.slotBytes = 0 then (if walkBytes d = 0 then some 0 else none)
  else some ((walkBytes d + d.slotBytes - 1) / d.slotBytes)

/-- Slots that the stream delivers or accepts, where a number is known: the end of the walk or TOTAL_SLOTS. -/
def slotLimit (t : Stream) : Option Nat :=
  match walkSlots t with
  | none => if t.desc.totalSlots = 0 then none else some t.desc.totalSlots
  | some n => some (if t.desc.totalSlots = 0 then n else min n t.desc.totalSlots)

/-- Whether slot `n` belongs to the stream. -/
def inLimit (t : Stream) (n : Nat) : Bool := match slotLimit t with
  | none => true
  | some m => decide (n < m)

/-- The walk over bytes [pos, pos + n), cut at rows and at 512-byte lines (R98): address, offset from `pos`, length. -/
def walkPieces (d : Desc) : Nat → Nat → Nat → Nat → List (Nat × Nat × Nat)
  | 0, _, _, _ => []
  | fuel + 1, pos, n, off =>
    if n = 0 ∨ d.rowBytes = 0 then []
    else
      let r := pos / d.rowBytes
      let c := pos % d.rowBytes
      let a := (d.base + BitVec.ofNat 64 (r / d.rows) * d.planeStride + BitVec.ofNat 64 (r % d.rows) * d.rowStride + BitVec.ofNat 64 c).toNat
      let k := min (min n (d.rowBytes - c)) (min (512 - a % 512) (2 ^ 64 - a))
      (a, off, k) :: walkPieces d fuel (pos + k) (n - k) (off + k)

/-- The pieces of `n` walk bytes from `pos`, at most to the end of the walk. -/
def pieces (d : Desc) (pos n : Nat) : List (Nat × Nat × Nat) :=
  let n := min n (walkBytes d - pos)
  walkPieces d (2 * n + 2) pos n 0

/-! ### A stream of a gang -/

def findStream (g : Gang) (n : Nat) : Option Stream := g.streams.find? fun t => t.no == n

/-- Writing a stream of a gang. -/
def putStream (s : State) (ctx gang : Nat) (t : Stream) : State :=
  updGang s ctx gang fun g => { g with streams := upsert Stream.no t g.streams }

/-- The stream that the word names, as the gang has it now. -/
def streamOf (s : State) (r : GroupRef) (w : Word64) : Option Stream := (gangNow s r).bind fun g => findStream g (fStream w)

/-- R100: a stream ends at once; reads in flight are discarded. -/
def stopStream (s : State) (ctx gang n core : Nat) : State :=
  dropReads (updGang (served s (.unit ctx core)) ctx gang fun g => { g with streams := g.streams.filter fun t => t.no != n }) (.drain ctx gang n core)

/-- Whether a drain stream's system-space stores are all acknowledged. -/
def drainSettled (s : State) (ctx gang n : Nat) : Bool :=
  !(s.net.paths.any fun p => p.unacked.any fun x => match x.who with
    | .drain c g t _ => c == ctx && g == gang && t == n
    | _ => false)

/-- Whether a stream has ended (R93, Table 3.7): a fill stream when its last slot has been taken, a drain stream when the last
store of its last slot is done. -/
def streamEnded (s : State) (ctx gang : Nat) (t : Stream) : Bool :=
  t.ended || (match slotLimit t with
    | none => false
    | some m => decide (m ≤ t.work) && (if t.desc.kind = 1 then drainSettled s ctx gang t.no else t.avail.isEmpty))

/-- Whether the stream's number is declared by the gang (R143). -/
def streamDeclared (h : Here) (w : Word64) : Bool := decide (fStream w < h.l.streams)

/-- A stoker instruction of the row with opcode `op`; a stream not declared has unpredictable results. -/
def stokerOp (op : Nat) (g : GroupRef) (w : Word64) (s : State) (f : State → Here → Act) : Res :=
  runInstr [op] s g w fun s h => if streamDeclared h w then f s h else .any s

/-- STK_START (R92, R96): full = 0 and empty = SLOTS; a stream already running is first stopped. The group's tile stores, which
come before it in program order, are performed first (R99, R170). -/
def execStkStart (g : GroupRef) (w : Word64) (s : State) : Res :=
  stokerOp 0xB0 g w s fun s h =>
    let off := (h.t.sreg (fX27 w)).toNat
    if tileStores s g h.g.core then .wait s
    else if h.l.spad < off + 64 then .fault s 0x40 h.p.mask (BitVec.ofNat 64 off) 0
    else
      let d := readDesc off (spadGet s g off 64)
      let s := stopStream s h.l.ctx h.g.idx (fStream w) h.g.core
      let t : Stream := { no := fStream w, desc := d, empty := d.slots, avail := if d.kind = 1 then List.range d.slots else [] }
      .step (putStream s h.l.ctx h.g.idx t) h.t

/-- The outcome of a take: slot index in [5:0], sequence number in [63:32], predicate in all lanes. -/
def takeResult (t : Group) (w : Word64) (r : Option (Nat × Nat)) : Group :=
  match r with
  | some (slot, seq) =>
    (t.setS (fX21 w) (BitVec.ofNat 64 (slot % 64 + seq % 2 ^ 32 * 2 ^ 32))).setP (fTop3 w) (BitVec.allOnes 32)
  | none => (t.setS (fX21 w) 0).setP (fTop3 w) 0

/-- Take slot `n` of a stream: the count falls and the gang holds it. -/
def takeSlot (t : Stream) (n : Nat) : Stream :=
  let t := { t with avail := t.avail.filter fun x => x != n, held := t.held ++ [n] }
  if t.desc.kind = 1 then { t with empty := t.empty - 1 } else { t with full := t.full - 1 }

/-- The sequence numbers that a take may hand out (Table 3.7): a drain stream's while it has an empty token, a fill stream's among the
slots of its walk. -/
def takeable (t : Stream) : List Nat :=
  if t.desc.kind = 1 then (if t.empty = 0 then [] else t.avail) else t.avail.filter (inLimit t)

/-- A take of the sequence number that `pick` finds among the takeable ones. -/
def takeWith (op : Nat) (g : GroupRef) (w : Word64) (s : State) (pick : Here → List Nat → Option Nat) : Res :=
  stokerOp op g w s fun s h =>
    match streamOf s g w with
    | none => .step s (takeResult h.t w none)
    | some t =>
      if t.desc.bad then .any s
      else if t.desc.kind = 1 && streamEnded s h.l.ctx h.g.idx t then .step s (takeResult h.t w none)
      else match pick h (takeable t) with
      | some n => .step (putStream s h.l.ctx h.g.idx (takeSlot t n)) (takeResult h.t w (some (n % t.desc.slots, n)))
      | none => if streamEnded s h.l.ctx h.g.idx t then .step s (takeResult h.t w none) else .wait s

/-- STK_TAKE (R96, R97): slots in sequence order. -/
def execStkTake (g : GroupRef) (w : Word64) (s : State) : Res :=
  takeWith 0xB1 g w s fun _ l => match l with
    | [] => none
    | x :: xs => some (xs.foldl min x)

/-- STK_TAKE_AT (R97): exactly the slot that sA[31:0] names. -/
def execStkTakeAt (g : GroupRef) (w : Word64) (s : State) : Res :=
  takeWith 0xB2 g w s fun h l => l.find? fun n => n % 2 ^ 32 == (h.t.sreg (fX27 w)).toNat % 2 ^ 32

/-- STK_GIVE (R97): a slot that the gang took and has not given back; it waits for the operands of the group's earlier gmmas
(R148), on a drain stream for the group's tile stores (R170) and for an empty slot (Table 3.4). Any other give has unpredictable results. -/
def execStkGive (g : GroupRef) (w : Word64) (s : State) : Res :=
  stokerOp 0xB3 g w s fun s h =>
    if gmmaQueued s g h.g.core then .wait s
    else match streamOf s g w with
    | none => .any s
    | some t => if t.desc.bad then .any s
      else if t.desc.kind = 1 && (t.empty == 0 || engineOwes s g h.g.core) then .wait s
      else match t.held.find? fun n => n % t.desc.slots == (h.t.sreg (fX27 w)).toNat % 64 with
      | none => .any s
      | some n =>
        let t := { t with held := t.held.filter fun x => x != n }
        let t := if t.desc.kind = 1 then { t with full := t.full + 1, given := t.given ++ [n] } else { t with empty := t.empty + 1 }
        .step (putStream s h.l.ctx h.g.idx t) h.t

/-- STK_STOP (R100). -/
def execStkStop (g : GroupRef) (w : Word64) (s : State) : Res :=
  stokerOp 0xB4 g w s fun s h => .step (stopStream s h.l.ctx h.g.idx (fStream w) h.g.core) h.t

/-- STK_WAIT (R100): blocks until a drain stream has ended and its stores are done; at once in every other case. -/
def execStkWait (g : GroupRef) (w : Word64) (s : State) : Res :=
  stokerOp 0xB5 g w s fun s h =>
    match streamOf s g w with
    | none => .step s h.t
    | some t =>
      if t.desc.bad then .any s
      else if t.desc.kind = 1 && !(streamEnded s h.l.ctx h.g.idx t) then .wait s
      else .step s h.t

/-! ### Reading and writing along the walk -/

/-- Where a stream works. -/
structure StkAt where
  l : Launch
  g : Gang
  t : Stream
  deriving DecidableEq, Repr

def StkAt.who (a : StkAt) : FrameFor := .drain a.l.ctx a.g.idx a.t.no a.g.core

/-- What a stoker's work on a slot comes to: done, wait, a fault (cause, address, INFO), or unpredictable results. -/
inductive Work (α : Type) where
  | done (s : State) (x : α)
  | wait (s : State)
  | fault (s : State) (cause addr : Nat) (info : Word64)
  | absent
  | any (s : State)

/-- A stop of an access as the outcome of the work. -/
def Work.ofStop {α : Type} (s : State) (addr : Nat) : Stop → Work α
  | .cause c i => .fault s c addr i
  | .wait s => .wait s
  | .absent => .absent
  | .any => .any s

/-- The requester that a core's stoker is for a launch. -/
def StkAt.ask (a : StkAt) : Asker := .unit a.l.ctx a.g.core

/-- Requests of a stream and of a core's stoker that are in flight: reads not answered, frames of stores not acknowledged (R98). -/
def inFlight (s : State) (mine : FrameFor → Bool) : Nat :=
  (s.net.reads.filter fun x => mine x.who && x.data.isNone && x.fail.isNone).length +
    ((s.net.paths.flatMap (·.unacked)).filter fun x => x.ty == 0 && mine x.who).length

/-- R98: at most 32 requests in flight for a stream and 256 for a core. -/
def mayRequest (a : StkAt) (s : State) : Bool :=
  decide (inFlight s (· == a.who) < 32) && decide (inFlight s (fun w => match w with
    | .drain _ _ _ c => c == a.g.core
    | _ => false) < 256)

/-- What a sector held at `stk.start`, where the gang has stored to it since (R99). -/
def shadowed (t : Stream) (k : SectKey) : Option Sector := (t.shadow.find? fun x => x.1 == k.line && x.2.1 == k.i).map (·.2.2)

/-- Bytes read for a stream with what the gang stored later taken back out of them. -/
def unshadow (a : StkAt) (s : State) (space addr : Nat) (bs : List Byte) : List Byte :=
  bs.mapIdx fun i b => match locate s a.l.slice space (addr + i) 0 with
    | .error _ => b
    | .ok k => match shadowed a.t k with
      | some v => (sectGet v ((addr + i) % 64) 1).getD 0 b
      | none => b

/-- What the stream detector makes of a stream's request for a line (R196): a hit in its die's LLM ends a run, a miss counts toward the
bypass mark. -/
def streamFill (a : StkAt) (s : State) (space addr : Nat) : State × Fill :=
  match locate s a.l.slice space addr 0 with
  | .error _ => (s, .whole)
  | .ok k =>
    let req := streamReq a.g.idx a.t.no
    let hit := match k.line with
      | .dev x => llmHit s (a.g.core / 156) x (List.range 8)
      | .shr _ _ => true
    if hit then (detectHit s a.g.core req, .whole)
    else
      let (s, byp) := detectMiss s a.g.core req k.line
      (s, if byp then .bypass else .whole)

/-- One piece read from the stream's space. Reads of memory take whole lines (R179) and are ordered against the gang's own stores like
plain loads issued at the `stk.start` (R99). -/
def readPiece (a : StkAt) (s : State) (addr n : Nat) : Work (List Byte) :=
  if a.t.desc.space = 2 then
    if !(mayRequest a s) && !(s.net.reads.any fun x => x.who == a.who && x.addr.toNat == addr && x.n == n) then .wait s
    else match sysRead s a.who addr n with
    | .got s bs => .done s bs
    | .wait s => .wait s
    | .fault s c i => .fault s c addr i
  else match landAll s a.g.core with
  | (s, false) => .wait s
  | (s, true) =>
    let space := if a.t.desc.space = 1 then 1 else 2
    let (s, fill) := streamFill a s space addr
    match readRunAs fill a.ask s a.l.slice space addr n with
    | .ok (s, bs) => .done s (unshadow a s space addr bs)
    | .error e => Work.ofStop s addr e

/-- The pieces of a slot read in order. -/
def readPieces (a : StkAt) : List (Nat × Nat × Nat) → State → Work (List Byte)
  | [], s => .done s []
  | (addr, _, n) :: ps, s => match readPiece a s addr n with
    | .done s bs => match readPieces a ps s with
      | .done s rest => .done s (bs ++ rest)
      | x => x
    | .wait s => match readPieces a ps s with
      | .done s _ => .wait s
      | x => x
    | x => x

/-- Whether every piece can be written now (R99: whole sectors). The slot is checked whole before its first line is stored, so none of it
is stored where one of its lines faults (DESIGN CHOICE, log 104). -/
def writablePieces (a : StkAt) : List (Nat × Nat × Nat) → State → Work Unit
  | [], s => .done s ()
  | (addr, _, n) :: ps, s =>
    let r : Work Unit :=
      if a.t.desc.space = 2 then
        if 2 ≤ gClass addr then .fault s 0x43 addr (BitVec.ofNat 64 (gClass addr))
        else if reachable s (gModule addr) then .done s () else .fault s 0x40 addr 0
      else match spanOkBy a.ask s a.l.slice (if a.t.desc.space = 1 then 1 else 2) addr n true with
        | .ok () => .done s ()
        | .error e => Work.ofStop s addr e
    match r with
    | .done s () => writablePieces a ps s
    | x => x

/-- The pieces of a slot written in order, with how many were; those of system space go no further while as many requests as R98 allows
are in flight, or where a path could not be opened. -/
def writePieces (a : StkAt) (data : List Byte) : List (Nat × Nat × Nat) → State → State × Nat
  | [], s => (s, 0)
  | (addr, off, n) :: ps, s =>
    let bs := (data.drop off).take n
    if a.t.desc.space = 2 then
      if !(mayRequest a s) then (s, 0)
      else match sysStore s a.l.slice a.who addr bs with
      | (s, true) => let (s, k) := writePieces a data ps s; (s, k + 1)
      | (s, false) => (s, 0)
    else
      let (s, k) := writePieces a data ps (writeRunAs .whole (some a.g.core) a.ask s a.l.slice (if a.t.desc.space = 1 then 1 else 2) addr bs).1
      (s, k + 1)

/-- `n` free bytes (log 3). -/
def freeBytes (s : State) (n : Nat) : State × List Byte :=
  (s.useFree n, (List.range n).map fun i => BitVec.ofNat 8 (Config.freeNat (s.free + i)))

/-! ### Context fills (R229 to R231) -/

/-- Handle of walk index `i`: BASE[31:0] plus i signed steps. -/
def kind2Handle (d : Desc) (i : Nat) : Int := d.base.toNat % 2 ^ 32 + i * signedN 32 d.planeStride.toNat

/-- The values of one head's part of an entry, EB8 groups kept: plane bytes, plane scale, format. -/
def partOf (s : State) (n : Nat) (e : CtxEntry) (head : Nat) (value : Bool) : Except Stop (State × Nat × Nat × List Byte) :=
  let w := layoutWord s n e.layout
  let d := loDim w
  let fmt := if value then e.vfmt else e.kfmt
  match readPa s n (e.addr + (2 * head + (if value then 1 else 0)) / 64 * 64) 64 with
  | .error x => .error x
  | .ok (s, ps) => match readPa s n (e.addr + planeOff e.kfmt e.vfmt (loHeads w) d head value) (planeBytes fmt d) with
    | .error x => .error x
    | .ok (s, bs) => .ok (s, fmt, fieldLe ps ((2 * head + (if value then 1 else 0)) % 64) 1, bs)

/-- One entry's part in a slot: none for zeros, else the MXFP8 groups (scale and elements) or the bfloat16 codes. -/
structure SlotPart where
  mx : List (Nat × List Nat) := []
  bf : List Nat := []
  deriving DecidableEq, Repr

/-- Decoding a part by R49 and R231; a conversion of EB4 or EB3 into MXFP8 is counted. Pool storage is written by the device alone, so the
reserved bit of a group scale is zero there (R8, R215). -/
def decodePart (s : State) (n dst d fmt pscale : Nat) (bs : List Byte) : State × SlotPart :=
  if dst = 1 then
    if fmt = 1 then (s, { mx := planeGroups 1 d bs })
    else
      let vs := decodePlane fmt d pscale bs
      (s.addObj (Obj.requantised n) 1, { mx := (chunks 32 vs.length vs).map (mxBlock (fun _ => 0) 0 0 (fun _ => 0)) })
  else (s, { bf := (decodePlane fmt d pscale bs).map ebToBf16 })

/-- The looked-up entry of a walk index: EMPTY beyond PLANES, none where cause 0x40 applies. -/
def lookupAt (s : State) (n : Nat) (d : Desc) (i : Nat) : State × Option CtxEntry :=
  if d.planes ≤ i then (s, some { state := 1 })
  else
    let s := mapLookup s
    let hd := kind2Handle d i
    if hd < 0 ∨ (s.getObj (Obj.mapQuota n) : Int) ≤ hd then (s, none)
    else
      let e := ctxEntry s n hd.toNat
      (s, if e.state = 0 then none else some e)

/-- Parts of the b entries of a slot in handle order: heat rises at each read of a STORED entry (R227). -/
def slotParts (n : Nat) (t : Stream) (head : Nat) (value : Bool) : List Nat → State → Option Nat → Work (List SlotPart × Option Nat)
  | [], s, dim => .done s ([], dim)
  | i :: is, s, dim =>
    match lookupAt s n t.desc i with
    | (s, none) => .fault s 0x40 0 0
    | (s, some e) =>
      let w := layoutWord s n e.layout
      let known := decide (i < t.desc.planes)
      if known && (decide (loHeads w < dFirstHead t.desc + t.desc.rows) || (dim.isSome && dim != some (loDim w))) then .any s
      else
        let dim := if known then some (loDim w) else dim
        if e.state ≠ 2 then
          match slotParts n t head value is s dim with
          | .done s (ps, dim) => .done s ({} :: ps, dim)
          | x => x
        else match partOf s n e head value with
          | .error x => Work.ofStop s 0 x
          | .ok (s, fmt, pscale, bs) =>
            let hd := (kind2Handle t.desc i).toNat
            let x := s.slice n
            let s := s.setSlice { x with entries := sput freeEntry x.entries hd { e with heat := min 255 (e.heat + 1) } }
            let (s, p) := decodePart s n t.desc.dstFmt (loDim w) fmt pscale bs
            match slotParts n t head value is s dim with
            | .done s (ps, dim) => .done s (p :: ps, dim)
            | x => x

/-- The bytes of a slot (Table 7.9) from the parts of its entries. -/
def slotBytesOf (d : Nat) (vt value : Bool) (dst : Nat) (ps : List SlotPart) : List Byte :=
  if dst = 1 then
    let mx := ps.flatMap fun p => if p.mx.isEmpty then List.replicate (d / 2) (0, List.replicate 32 0) else p.mx
    let els := mx.flatMap fun g => g.2.map (BitVec.ofNat 8)
    padTo (padUp 64 (16 * ps.length * d)) els ++ mx.map fun g => BitVec.ofNat 8 g.1
  else
    let bf := ps.flatMap fun p => if p.bf.isEmpty then List.replicate (16 * d) 0 else p.bf
    let n := 16 * ps.length
    let order := if vt && value then
        (List.range d).flatMap fun k => (List.range n).map fun p => bf.getD (p * d + k) 0
      else bf
    order.flatMap (toLe 2)

/-- Slot `seq` of a context stream: group, head and part of R230's loop, and the bytes with the stream's head dimension. Where an entry must
wait, the heat and the conversions counted for the entries before it count when the slot is read again. -/
def contextSlot (n : Nat) (t : Stream) (seq : Nat) (s : State) : Work (List Byte × Option Nat) :=
  let d := t.desc
  let per := d.rows * dParts d
  let r := seq % per
  let head := dFirstHead d + r / dParts d
  let value := dPart d == 1 || (dPart d == 2 && r % 2 == 1)
  let b := dGroup d
  match slotParts n t head value ((List.range b).map fun j => seq / per * b + j) s t.dim with
  | .done s (ps, dim) =>
    let bs := match dim with
      | some k => slotBytesOf k (dVt d) value d.dstFmt ps
      | none => []
    if d.slotBytes < bs.length then .any s else .done s (padTo d.slotBytes bs, dim)
  | .wait s' => .wait { s' with slices := s.slices, od := s.od }
  | .fault s c a i => .fault s c a i
  | .absent => .absent
  | .any s => .any s

/-! ### The stoker's events (R95 to R99) -/

/-- A fault of the stoker (Table 3.10, SOURCE 1). -/
def stokerFault (a : StkAt) (cause addr : Nat) (info : Word64) : FaultInfo :=
  { cause := cause, source := 1, unit := a.t.no, gang := a.g.idx, addr := BitVec.ofNat 64 addr, info := info }

/-- Unpredictable work on a slot: any values that the slice may write, then a kill with any cause, or the counts moving on. -/
def stokerAny (a : StkAt) (s : State) (next : State → State) : Res :=
  let s := unpredictable s a.l.slice
  let c := s.freeVal
  let s' := s.useFree 2
  if c % 3 = 0 then .next (raiseFault s' a.l.ctx a.g.core (stokerFault a (0x40 + Config.freeNat (s.free + 1) % 15) 0 0))
  else if c % 3 = 1 then .next s' else .next (next s')

/-- Runs an event of a stream of a resident launch that is not killed. -/
def stokerEvent (ctx gang stream : Nat) (s : State) (f : StkAt → Res) : Res :=
  withSome s (s.launch? ctx) "launch" fun l =>
    onlyIf s (l.phase == .resident && !l.killed) "launch" <|
      withSome s (findGang l gang) "gang" fun g =>
        onlyIf s (!(s.core g.core).hung) "core" <|
          withSome s (findStream g stream) "stream" fun t => f { l := l, g := g, t := t }

/-- First scratchpad byte of slot `n`. -/
def slotAt (d : Desc) (n : Nat) : Nat := d.ringBase + n % d.slots * d.slotBytes

/-- The first byte of a slot that lies outside the gang's allocation (R95). -/
def ringFault (a : StkAt) (n : Nat) : Option Nat :=
  let at_ := slotAt a.t.desc n
  if a.t.desc.slotBytes ≠ 0 ∧ a.l.spad < at_ + a.t.desc.slotBytes then some (max at_ a.l.spad) else none

/-- Whether the stoker may begin the next slot of a fill stream (Table 3.7, R97; a full slot that nobody has taken is not begun
again, log 30). -/
def mayFill (t : Stream) : Bool :=
  decide (0 < t.empty) && decide (t.full < t.desc.runAhead) && inLimit t t.work &&
    !(t.held.any fun x => x % t.desc.slots == t.work % t.desc.slots) &&
    !(t.avail.any fun x => x % t.desc.slots == t.work % t.desc.slots)

/-- A fill slot finished with its data: into the scratchpad, one token from empty to full. -/
def finishFill (a : StkAt) (covered : Nat) (dim : Option Nat) (bs : List Byte) (s : State) : State :=
  let t := a.t
  let s := updGang (served s a.ask) a.l.ctx a.g.idx fun g => { g with spad := cellsPut g.spad (slotAt t.desc t.work) bs }
  let s := (dropReads s a.who).addObj (Obj.stokerBytes a.l.slice) bs.length
  putStream s a.l.ctx a.g.idx { t with empty := t.empty - 1, full := t.full + 1, avail := t.avail ++ [t.work], work := t.work + 1,
                                       pos := t.pos + covered, dim := dim }

/-- Bits [i, i + w) of a byte string, `i` taken modulo its length. -/
def bitsAt (v len i w : Nat) : Nat := v / 2 ^ (i % (8 * len)) % 2 ^ w

/-- EB data of a walk, or of a slot that is drained, decoded by R49 into `n` bytes. No rule says where the codes, group scales and plane scales
stand, so each element is decoded from a code and scales at free places of the bytes read (log 31); an operand of MXFP8 is formed as R231
forms it. -/
def decodeWalk (d : Desc) (n : Nat) (src : List Byte) (base : Nat) : List Byte :=
  let v := leNat src
  let value (i : Nat) : FVal := ebValue d.srcFmt (bitsAt v src.length (Config.freeNat (base + 3 * i)) (ebWidth d.srcFmt))
    (bitsAt v src.length (Config.freeNat (base + 3 * i + 1)) 8) (bitsAt v src.length (Config.freeNat (base + 3 * i + 2)) 8)
  if src.isEmpty then []
  else if d.dstFmt = 2 then (List.range (n / 2)).flatMap fun i => toLe 2 (ebToBf16 (value i))
  else
    let gs := (List.range (n / 33)).map fun j =>
      mxBlock (fun _ => 0) 0 0 (fun _ => 0) ((List.range 32).map fun i => value (32 * j + i))
    gs.flatMap (fun g => g.2.map (BitVec.ofNat 8)) ++ gs.map fun g => BitVec.ofNat 8 g.1

/-- Whether a group scale that such a decoding takes, an unsigned E4M3 code, has its reserved bit set (R46, R8). -/
def walkReserved (d : Desc) (n : Nat) (src : List Byte) (base : Nat) : Bool :=
  let count := if d.dstFmt = 2 then n / 2 else n / 33 * 32
  decide (2 ≤ d.srcFmt) && !src.isEmpty && (List.range count).any fun i => decide (128 ≤ bitsAt (leNat src) src.length (Config.freeNat (base + 3 * i + 1)) 8)

/-- The data of the next fill slot: walk bytes covered, head dimension, bytes. How many bytes of EB data a slot takes is a free value
where they are decoded (log 31). -/
def fillData (a : StkAt) (s : State) : Work (Nat × Option Nat × List Byte) :=
  let t := a.t
  let d := t.desc
  let conv {α : Type} (x : Work (List Byte)) (f : State → List Byte → Work α) : Work α := match x with
    | .done s bs => f s bs
    | .wait s => .wait s
    | .fault s c ad i => .fault s c ad i
    | .absent => .absent
    | .any s => .any s
  if d.kind = 2 then match contextSlot a.l.slice t t.work s with
    | .done s (bs, dim) => .done s (0, dim, bs)
    | .wait s => .wait s
    | .fault s c ad i => .fault s c ad i
    | .absent => .absent
    | .any s => .any s
  else if dConverts d then
    let c := s.freeVal % (walkBytes d - t.pos + 1)
    conv (readPieces a (pieces d t.pos c) (s.useFree 1)) fun s bs =>
      if walkReserved d d.slotBytes bs s.free then .any s else .done (s.useFree (3 * d.slotBytes)) (c, none, padTo d.slotBytes (decodeWalk d d.slotBytes bs s.free))
  else conv (readPieces a (pieces d t.pos d.slotBytes) s) fun s bs => .done s (d.slotBytes, none, padTo d.slotBytes bs)

/-- STOKER_SLOT_FILLED (R93, R96 to R99, R229 to R231). -/
def execStokerSlotFilled (ctx gang stream : Nat) (s : State) : Res :=
  stokerEvent ctx gang stream s fun a =>
    onlyIf s (a.t.desc.kind != 1) "fill stream" <|
      if a.t.desc.bad then stokerAny a s fun s => putStream s ctx gang { a.t with full := a.t.full + 1, empty := a.t.empty - 1 }
      else onlyIf s (mayFill a.t) "slot to fill" <|
        match ringFault a a.t.work with
        | some x => .next (raiseFault s ctx a.g.core (stokerFault a 0x40 x 0))
        | none => match fillData a s with
          | .done s (c, dim, bs) => .next (finishFill a c dim bs s)
          | .wait s => .next s
          | .fault s c ad i => .next (raiseFault s ctx a.g.core (stokerFault a c ad i))
          | .absent => .fault .absentAddress
          | .any s => stokerAny a s fun s =>
            let (s, bs) := freeBytes s a.t.desc.slotBytes
            finishFill a 0 a.t.dim bs s

/-- A drain slot finished: one token from full to empty; its place is free for the slot one ring later. -/
def finishDrain (a : StkAt) (covered : Nat) (s : State) : State :=
  let t := a.t
  let t' := { t with full := t.full - 1, empty := t.empty + 1, given := t.given.filter fun x => x != t.work,
                     avail := t.avail ++ [t.work + t.desc.slots], work := t.work + 1, pos := t.pos + covered, sent := 0 }
  putStream (served s a.ask) a.l.ctx a.g.idx t'

/-- STOKER_SLOT_STORED (R93, R96, R97, R99): slots are stored strictly in sequence order, each only once given. -/
def execStokerSlotStored (ctx gang stream : Nat) (s : State) : Res :=
  stokerEvent ctx gang stream s fun a =>
    onlyIf s (a.t.desc.kind == 1) "drain stream" <|
      if a.t.desc.bad then stokerAny a s fun s => putStream s ctx gang { a.t with full := a.t.full - 1, empty := a.t.empty + 1 }
      else onlyIf s (decide (0 < a.t.full) && inLimit a.t a.t.work && a.t.given.contains a.t.work) "slot to store" <|
        match ringFault a a.t.work with
        | some x => .next (raiseFault s ctx a.g.core (stokerFault a 0x40 x 0))
        | none =>
          let d := a.t.desc
          match landAll s a.g.core with
          | (s, false) => .next s
          | (s, true) =>
          let slot := cellsGet a.g.spad (slotAt d a.t.work) d.slotBytes
          let (s, c, data) : State × Nat × List Byte :=
            if dConverts d then
              let c := s.freeVal % (walkBytes d - a.t.pos + 1)
              ((s.useFree 1).useFree (3 * c), c, padTo c (decodeWalk d c slot (s.free + 1)))
            else (s, d.slotBytes, slot)
          if dConverts d && walkReserved d c slot (s.free - 3 * c) then stokerAny a s (finishDrain a c) else
          let ps := (pieces d a.t.pos c).drop a.t.sent
          match writablePieces a ps s with
          | .done s () =>
            let (s, k) := writePieces a data ps s
            if k = ps.length then .next (finishDrain a c s)
            else .next (putStream s ctx gang { a.t with sent := a.t.sent + k })
          | .wait s => .next s
          | .fault s c ad i => .next (raiseFault s ctx a.g.core (stokerFault a c ad i))
          | .absent => .fault .absentAddress
          | .any s => .next s

end Sys2Proof.Machine
end

