-- ==== Sys2Proof/Machine/LaunchOps.lean ====
section
/-! DEFINITION. LaunchOps.lean: launches from their command to their completion. LAUNCH and MIX (R286, R302, R303), the kill sequence with
its fault record and abandoned locks (R101 to R106, R111), watchdogs (R102) and the end of a launch (R170, R314). -/

namespace Sys2Proof.Machine

/-! ### LAUNCH -/

/-- A new launch enters: it starts where the order of its slice gives it room, else it waits. -/
def enterLaunch (s : State) (l : Launch) : State :=
  startSlice { s with launches := s.launches ++ [l], nextCtx := (s.nextCtx + 1) % 2 ^ 24 } l.slice

/-- LAUNCH (R302, R303): with GANGS 0 it completes at once. -/
def execLaunchCmd (r : CmdRef) (s : State) : Res :=
  withCmd [0x01] r s fun c =>
    let bs := c.slot.drop 16
    if s.launches.any fun l => l.ch == r.ch && l.seq == r.seq then .next s
    else if c.res || c.schedReserved || launchBad bs then .next (cmdAny s r.ch c)
    else if fieldLe bs 24 4 = 0 then .next (endCmd s r.ch c { status := stOk })
    else .next (enterLaunch s (launchOf s r.ch c .command bs []))

/-! ### MIX (R286) -/

/-- Whether a launch of a role of a MIX runs. -/
def mixRuns (s : State) (ch seq : Nat) (role : Role) : Bool := s.launches.any fun l => l.ch == ch && l.seq == seq && l.role == role

/-- A launch of a MIX, with the end of the tick as its deadline; with GANGS 0 it runs nothing. -/
def mixLaunch (s : State) (ch : Nat) (c : Cmd) (role : Role) (first : List Nat) : State :=
  let bs := if role = .prefill then c.recs.take 48 else c.recs.drop 48
  let l := launchOf s ch c role bs first
  enterLaunch s { l with relTick := logicalTick s ch, relTime := s.getObj Obj.tickStart - shiftOf s ch * periodNs s,
                         deadline := some (tickTime s (s.tick + 1)), atomic := c.atomic }

/-- A MIX that has run its chunks and its tick's decode steps completes, by R287 over its launches. -/
def mixDone (s : State) (ch : Nat) (c : Cmd) : Bool :=
  decide (mixChunks c ≤ c.done) && decide (mixSteps c ≤ c.step) && !(mixRuns s ch c.seq .prefill) && !(mixRuns s ch c.seq .decode)

/-- The end of a MIX where it is due. -/
def mixEnd (s : State) (ch seq : Nat) : State :=
  match findFlight s ch seq with
  | none => s
  | some c =>
    if !(mixDone s ch c) then s
    else endCmd s ch c { status := stOk, locks := c.locks, cause := ((c.worst.map (·.cause)).getD 0) }

/-- The decode launch of step `c.step`, where one is due. -/
def mixDecode (s : State) (ch seq : Nat) : State :=
  match findFlight s ch seq with
  | none => s
  | some c => if c.step < mixSteps c ∧ !(mixRuns s ch seq .decode) then mixLaunch s ch c .decode [c.step] else s

/-- The next chunk, where no chunk runs: index, first token, token count. -/
def mixPrefill (s : State) (ch seq : Nat) : State :=
  match findFlight s ch seq with
  | none => s
  | some c =>
    if c.done < mixChunks c ∧ !(mixRuns s ch seq .prefill) then
      let first := c.done * mixChunk c
      mixLaunch s ch c .prefill [c.done, first, min (mixChunk c) (mixTokens c - first)]
    else s

/-- What a tick of a started MIX begins: a chunk, and the tick's decode steps where those of the last tick have ended (log 39). -/
def mixTick (s : State) (ch seq : Nat) : State :=
  match findFlight s ch seq with
  | none => s
  | some c =>
    if c.recs.isEmpty || c.final.isSome then s
    else
      let again := decide (mixSteps c ≤ c.step) && decide (c.done < mixChunks c) && !(mixRuns s ch seq .decode)
      let s := if again then putFlight s ch { c with step := 0 } else s
      mixEnd (mixDecode (mixPrefill s ch seq) ch seq) ch seq

/-- What a MIX leaves unpredictable: reserved fields and a split that leaves a part no row. -/
def mixBad (s : State) (ch : Nat) (c : Cmd) : Bool :=
  let rows := (sliceRows s (chSliceOf s ch)).length
  c.res || c.schedReserved || c.field 41 1 != 0 || c.field 44 20 != 0 ||
    (mixTokens c != 0 && (mixPrefillRows c == 0 || decide (rows ≤ mixPrefillRows c)))

/-- The two launch records of a MIX, as far as they are used, read at its start (log 37). -/
def readRecs (s : State) (ch : Nat) (c : Cmd) : Except Stop (State × List Byte) :=
  let n := chSliceOf s ch
  let zero : List Byte := List.replicate 48 0
  let one (s : State) (use : Bool) (a : Nat) : Except Stop (State × List Byte) := if use then readRun s n 2 a 48 else .ok (s, zero)
  match one s (mixTokens c != 0) (c.field 16 8) with
  | .error e => .error e
  | .ok (s, p) => match one s (mixSteps c != 0) (c.field 24 8) with
    | .error e => .error e
    | .ok (s, d) => .ok (s, p ++ d)

/-- MIX (R286). -/
def execMixCmd (r : CmdRef) (s : State) : Res :=
  withCmd [0x0D] r s fun c =>
    if !c.recs.isEmpty then .next s
    else if mixBad s r.ch c then .next (cmdAny s r.ch c)
    else if mixTokens c = 0 ∧ mixSteps c = 0 then .next (endCmd s r.ch c { status := stOk })
    else match readRecs s r.ch c with
      | .error e => cmdStop s r.ch c 0 e
      | .ok (s, bs) =>
        if (mixTokens c != 0 && (c.field 16 8 % 64 != 0 || launchBad (bs.take 48))) ||
            (mixSteps c != 0 && (c.field 24 8 % 64 != 0 || launchBad (bs.drop 48))) then .next (cmdAny s r.ch c)
        else .next (mixTick (putFlight s r.ch { c with recs := bs }) r.ch r.seq)

/-! ### The end of a launch -/

/-- Granules of overrun of a launch up to now, rounded up (R281). -/
def overrunNow (s : State) (l : Launch) : Nat := match l.overAt with
  | some t => (s.now - t + 9999) / 10000
  | none => 0

/-- Debt of a slice on some rows as it becomes (R281); OVERRUN_DEBT reports the sum. -/
def putDebt (s : State) (n m d : Nat) : State :=
  let x := s.slice n
  let ds := x.debts.filter fun p => p.1 != m
  let ds := if d = 0 then ds else ds ++ [(m, d)]
  (s.setSlice { x with debts := ds }).putObj (Obj.overrunDebt n) (sumNat (ds.map (·.2)))

def debtOn (s : State) (n m : Nat) : Nat := (((s.slice n).debts.find? fun p => p.1 == m).map (·.2)).getD 0

/-- The rows of a launch as a mask. -/
def rowMask (rows : List Nat) : Nat := rows.foldl (fun m r => m ||| 2 ^ r) 0

/-- The debt of a launch's overrun on its rows goes from what was counted to `d` granules. -/
def setOverrun (s : State) (l : Launch) (d : Nat) : State :=
  let m := rowMask l.rows
  putDebt s l.slice m (debtOn s l.slice m + d - l.overrun)

/-- The debt of a launch that ends is that of its overrun as it came out. -/
def settleDebt (s : State) (l : Launch) : State := if l.overAt.isNone && l.overrun == 0 then s else setOverrun s l (overrunNow s l)

/-- The launch is gone and its cores are free for others of its slice. -/
def dropLaunch (s : State) (l : Launch) : State :=
  let s := match s.launch? l.ctx with
    | some x => settleDebt s x
    | none => s
  startSlice (placeSlice { s with launches := s.launches.filter fun x => x.ctx != l.ctx } l.slice) l.slice

/-- A launch of a MIX ends: its outcome is kept by precedence, a late chunk counts a miss, and the next step follows. -/
def mixLaunchEnded (s : State) (l : Launch) (f : Final) : State :=
  match findFlight s l.ch l.seq with
  | none => s
  | some c =>
    let late := l.role == .prefill && (match l.deadline with | some d => decide (d < s.now) | none => false)
    let dn := if l.role = .prefill then c.done + 1 else c.done
    let st := if l.role = .decode then c.step + 1 else c.step
    let c := { c with worst := worseOf c.worst f, missed := c.missed || late, locks := c.locks + f.locks, done := dn, step := st }
    let s := putFlight (if late then s.addObj (Obj.deadlineMissed l.ch) 1 else s) l.ch c
    mixEnd (mixDecode s l.ch l.seq) l.ch l.seq

/-- A launch ends with an outcome: its command completes, or its MIX goes on (R301, R286). -/
def endLaunch (s : State) (l : Launch) (f : Final) : State :=
  let s := dropLaunch s l
  match l.role with
  | .command => match findFlight s l.ch l.seq with
    | some c => endCmd s l.ch c f
    | none => s
  | _ => mixLaunchEnded s l f

/-- Locks of a launch's table written HELD 0, ABANDONED 1 with PID and CONTEXT kept (R111), through the slice's translation at this
time; false where a write must wait. -/
def abandonLocks (ctx : Nat) : Nat → State → State × Bool
  | 0, s => (s, true)
  | k + 1, s =>
    match s.launch? ctx with
    | none => (s, true)
    | some l => match l.locks with
      | [] => (s, true)
      | e :: rest =>
        let n := l.slice
        match spanOk s n e.space e.addr.toNat 8 true with
        | .error (.wait s) => (s, false)
        | .error .any => abandonLocks ctx k (unpredictable (s.setLaunch { l with locks := rest }) n)
        | .error _ => abandonLocks ctx k (s.setLaunch { l with locks := rest })
        | .ok () => match readRun s n e.space e.addr.toNat 8 with
          | .error (.wait s) => (s, false)
          | .error _ => abandonLocks ctx k (s.setLaunch { l with locks := rest })
          | .ok (s, old) =>
            let v := bits (leNat old) 51 8 * 2 ^ 8 + 2
            let s := (writeRun s n e.space e.addr.toNat (toLe 8 v)).1
            abandonLocks ctx k (s.setLaunch { l with locks := rest, freed := l.freed + 1 })

/-- The stores of a launch that are on their way performed, with those of the same cores that stand before them; false where one must
wait. -/
def landCtx (s : State) (ctx : Nat) : State × Bool :=
  ((s.stores.filter fun e => e.ctx == ctx).foldl (fun cs e => addNew e.core cs) []).foldl
    (fun p c => let r := landAll p.1 c; (r.1, p.2 && r.2)) (s, true)

/-- Every entry of the write-combining buffers of a launch's cores, sent (R314); false where one must wait. -/
def flushLaunch (s : State) (ctx : Nat) : State × Bool :=
  let mine := ((s.launch? ctx).map fun l => coresOf l.rows).getD []
  s.cores.foldl (fun (p : State × Bool) c =>
    let es := (p.1.core c.no).wc.filter fun e => e.g.ctx == ctx || mine.contains c.no
    let (s, ok) := wcFlush c.no es p.1
    (s, p.2 && ok)) (s, true)

/-- Unissued work of a launch and its reads in flight are discarded. -/
def discardWork (s : State) (ctx : Nat) : State :=
  let s := { s with cores := s.cores.map fun (c : Core) => { c with mq := c.mq.filter fun e => e.g.ctx != ctx } }
  { s with net := { s.net with reads := s.net.reads.filter fun x => match x.who with
      | .load g => g.ctx != ctx
      | .drain c _ _ _ => c != ctx
      | _ => true } }

/-- ADDRESS of a fault: of a store, the lowest address dropped or refused (R315). -/
def faultAddr (l : Launch) (f : FaultInfo) : Nat := if f.store then l.lowStore.getD f.addr.toNat else f.addr.toNat

/-- The fault record (Table 3.10). -/
def faultRecord (l : Launch) (f : FaultInfo) : List Byte :=
  toLe 1 f.cause ++ toLe 1 f.source ++ toLe 2 (min l.faultCount 0xFFFF) ++ toLe 2 f.core ++ toLe 1 (f.quad % 4 + 4 * (f.slot % 8)) ++
    toLe 1 (f.unit % 32) ++ toLe 4 f.gang ++ toLe 4 f.lanes.toNat ++ toLe 8 f.pc.toNat ++ toLe 8 (faultAddr l f) ++
    toLe 8 (f.tick % 2 ^ 48) ++ toLe 8 f.time ++ toLe 8 f.info.toNat ++ toLe 4 l.freed ++ toLe 4 0

/-- The stores of a launch complete: those on their way are performed, the write-combining entries of its cores sent and every frame of
it acknowledged; false where one must wait (R103 step 4, R314). -/
def storesDone (s : State) (ctx : Nat) : State × Bool :=
  let a := landCtx s ctx
  let b := flushLaunch a.1 ctx
  (b.1, a.2 && b.2 && !(storesPending b.1 ctx))

/-- Steps 4 to 7 of Table 3.9 for a launch whose cores have stopped, each once the one before it is done: a launch stopped with a status
writes no fault record. -/
def killLaunch (s : State) (ctx : Nat) : State :=
  match storesDone (discardWork s ctx) ctx with
  | (s, false) => s
  | (s, true) => match abandonLocks ctx 257 s with
    | (s, false) => s
    | (s, true) => match s.launch? ctx with
      | none => s
      | some l => match l.stop, l.fault with
        | some st, _ => endLaunch s l { status := st, locks := l.freed }
        | none, none => s
        | none, some f =>
          let a := l.faultRec.toNat
          match spanOk s l.slice 2 a 64 true with
          | .error (.wait s) => s
          | .error .any => endLaunch (unpredictable s l.slice) l { status := stKilled, locks := l.freed, cause := f.cause }
          | .error _ => endLaunch s l { status := stKilled, locks := l.freed, cause := f.cause }
          | .ok () =>
            endLaunch (writeRun s l.slice 2 a (faultRecord l f)).1 l { status := stKilled, locks := l.freed }

/-- Steps 1 to 3 of Table 3.9 for a launch that is stopped with a status (R282, R375, R384), and the rest as far as it goes. -/
def stopLaunch (s : State) (ctx st : Nat) : State :=
  killLaunch (updLaunch s ctx fun l => if l.killed then l else { l with killed := true, stop := some st }) ctx

/-- FAULT_REPORT (R103, R105): the first report to arrive is described, of those on their way any one (its core is open, R105); the
others detected before the kill are counted. -/
def execFaultReport (ctx : Nat) (s : State) : Res :=
  withSome s (s.launch? ctx) "launch" fun l =>
    onlyIf s (!l.reports.isEmpty) "fault report" <|
      match l.fault with
      | some _ => .next (s.setLaunch { l with reports := l.reports.drop 1, faultCount := min 0xFFFF (l.faultCount + 1) })
      | none =>
        let i := s.freeVal % l.reports.length
        .next ((s.useFree 1).setLaunch { l with fault := l.reports[i]?, reports := l.reports.eraseIdx i, killed := true })

/-- LAUNCH_KILL (R103 to R106, R111): once every report detected before the kill is counted. -/
def execLaunchKill (ctx : Nat) (s : State) : Res :=
  withSome s (s.launch? ctx) "launch" fun l =>
    onlyIf s (l.killed && l.reports.isEmpty) "kill" (.next (killLaunch s ctx))

/-- A watchdog fault (Table 3.10, SOURCE 3): CORE 0. -/
def watchdogFault (s : State) (ctx cause info : Nat) : State :=
  updLaunch s ctx fun l => if l.killed then l else
    { l with reports := l.reports ++ [{ cause := cause, source := 3, tick := s.tick, time := s.now, info := BitVec.ofNat 64 info }] }

/-- Resident time of a launch since an instruction of it retired, in ns: what it waited at frozen channels does not count (R102, R249).
The time of a save and of a restore does (after Table 9.5). -/
def idleTime (s : State) (l : Launch) : Nat :=
  s.now - l.since - l.waited - (match l.frozenAt with
    | some t => s.now - t
    | none => 0)

/-- WATCHDOG_NO_RETIRE (R102): a launch on its cores of which no instruction has retired for one tick period. -/
def execWatchdogNoRetire (ctx : Nat) (s : State) : Res :=
  withSome s (s.launch? ctx) "launch" fun l =>
    onlyIf s (onCores l && !l.killed && decide (periodNs s ≤ idleTime s l)) "expired watchdog"
      (.next (watchdogFault s ctx 0x4D (idleTime s l / periodNs s)))

/-- WATCHDOG_LIMIT (R102): resident for the tick periods that WDOG allows. DESIGN CHOICE (log 106): the tick periods are counted at tick
boundaries that find the launch on its cores, a first one in part as a whole one, and the limit is passed when the count is WDOG. -/
def execWatchdogLimit (ctx : Nat) (s : State) : Res :=
  withSome s (s.launch? ctx) "launch" fun l =>
    onlyIf s (onCores l && !l.killed && l.wdog != 0 && decide (l.wdog ≤ l.resTicks)) "expired watchdog"
      (.next (watchdogFault s ctx 0x4E l.wdog))

/-- LAUNCH_COMPLETE (R104, R111, R170, R314): after the last group, the write-combining entries of the launch are sent and
acknowledged; locks still held are abandoned; the completion record is written. -/
def execLaunchComplete (ctx : Nat) (s : State) : Res :=
  withSome s (s.launch? ctx) "launch" fun l =>
    onlyIf s (l.phase == .resident && !l.killed && l.reports.isEmpty && decide (l.gangs ≤ l.nextGang) && l.live.isEmpty) "ended launch" <|
      match storesDone s ctx with
      | (s, false) => .next s
      | (s, true) => match abandonLocks ctx 257 s with
        | (s, false) => .next s
        | (s, true) => match s.launch? ctx with
          | none => .next s
          | some l => if l.reports.isEmpty then .next (endLaunch s l { status := stOk, locks := l.freed }) else .next s

end Sys2Proof.Machine
end

