-- ==== Sys2Proof/Machine/LockSets.lean ====
section
/-! DEFINITION. LockSets.lean: what lock sets, the bank engine and the draft share. Draft frames leaving (R335, R338), the bank
reserve and its contents (R361 to R365, R368), commands stopped with PARTIAL and lock sets that fail (R375 to R377), the cold state
(R379), rollbacks (R355, R370, R371), votes and outcomes (R283, R284, R366, R386), bank points (R367) and rekindle (R370 step 6). -/

namespace Sys2Proof.Machine

/-! ### Draft frames leaving -/

/-- A draft frame leaves, twice in succession (R335). -/
def sendTwice (s : State) (q : Nat) (x : Nat × DraftFrame) : State := (s.send (.draft q x.1 x.2)).send (.draft q x.1 x.2)

/-- A draft frame leaves by a port that is up, under the VLAN tag (R319); its last 256 frames are kept (R336). -/
def sendDraft (s : State) (q kind : Nat) (f : DraftFrame) : State :=
  let p := s.port q
  if !p.up then s
  else
    let f := { f with vlan := vlanTag s, ether := s.forced Obj.draftEthertype, seq := p.txSeq }
    let sent := p.sent ++ [(kind, f)]
    sendTwice (s.setPort { p with txSeq := (p.txSeq + 1) % 65536, sent := sent.drop (sent.length - 256) }) q (kind, f)

/-- The ports with a neighbour. -/
def livePorts (s : State) : List Nat := (s.net.ports.filter fun p => p.up && p.neighbour.isSome).map (·.q)

/-- A frame leaves by a list of ports. -/
def sendAll (s : State) (kind : Nat) (f : DraftFrame) (qs : List Nat) : State := qs.foldl (fun s q => sendDraft s q kind f) s

/-- The ports of the neighbours in the system tree; several may lead to one neighbour. -/
def treePorts (s : State) : List Nat :=
  (s.net.ports.filter fun p => p.up && p.neighbour.isSome && (p.child || p.neighbour == s.net.parent)).map (·.q)

/-- The lowest port that leads to the neighbour beyond a port. -/
def firstPort (s : State) (q : Nat) : Nat :=
  (s.net.ports.filter fun p => p.up && p.neighbour == (s.port q).neighbour).foldl (fun m p => min m p.q) q

/-- A flood uses the tree (R332): it leaves by every link to a tree neighbour but those to the neighbour that it came from (R336). -/
def floodDraft (s : State) (kind : Nat) (f : DraftFrame) (but : Option Nat) : State :=
  let from_ : Option Nat := but.bind fun q => (s.port q).neighbour
  sendAll s kind f ((treePorts s).filter fun q => from_.isNone || (s.port q).neighbour != from_)

/-- One port for each child in the system tree, and the port of the parent. -/
def childPorts (s : State) : List Nat := ((s.net.ports.filter fun p => p.up && p.child).map (·.q)).filter fun q => firstPort s q == q

def upPort (s : State) : Option Nat :=
  match s.net.parent with
  | none => none
  | some m => (s.net.ports.find? fun p => p.up && p.neighbour == some m).map fun p => firstPort s p.q

def downDraft (s : State) (kind : Nat) (f : DraftFrame) : State := sendAll s kind f (childPorts s)

/-! ### The system tree as known (R332) -/

/-- A module and those above it in the tree, up to the root; at most `n` of them. -/
def upward (t : List (Nat × Nat × Nat)) : Nat → Nat → List Nat
  | 0, _ => []
  | n + 1, m => match t.find? fun r => r.1 == m with
    | none => [m]
    | some r => if r.2.1 = 0 then [m] else m :: upward t n r.2.2

/-- Hops between two modules of the tree. -/
def treeDist (t : List (Nat × Nat × Nat)) (a b : Nat) : Nat :=
  let ua := upward t (t.length + 1) a
  let ub := upward t (t.length + 1) b
  (ua.filter fun m => !(ub.contains m)).length + (ub.filter fun m => !(ua.contains m)).length

/-- The longest way between two modules of the tree. -/
def treeDiameter (t : List (Nat × Nat × Nat)) : Nat := t.foldl (fun d a => t.foldl (fun d b => max d (treeDist t a.1 b.1)) d) 0

/-- The depth of the tree. -/
def depthOf (t : List (Nat × Nat × Nat)) : Nat := t.foldl (fun d r => max d r.2.1) 0

/-- Places from this module on along the system ring. -/
def ringDist (s : State) (m : Nat) : Nat :=
  let t := s.net.tree.map (·.1)
  (t.idxOf m + t.length - t.idxOf s.ownId) % max 1 t.length

/-! ### Barriers on the draft (R336, R338) -/

/-- The number of a group by its member table (log 52): rank 0's entry, and a checksum of all of them above it. -/
def groupNo (members : List (Nat × Nat)) : Nat :=
  let m := members.headD (0, 0)
  (m.1 + 2 ^ 18 * m.2) % 2 ^ 26 + 2 ^ 26 * (members.foldl (fun h e => (h * 1000003 + e.1 + 2 ^ 18 * e.2 + 1) % 2 ^ 38) members.length)

/-- The BARRIER_UP of a barrier for the group and count of a collective. -/
def barrierUpFrame (s : State) (id seq : Nat) : DraftFrame := { seq := 0, origin := s.ownId, arg0 := id, arg1 := seq }

/-- The barriers that have gone up and are not complete go up again at a boundary, in case one was not received (R336). -/
def repeatBarriers (s : State) : State :=
  match upPort s with
  | none => s
  | some q => (s.net.colls.filter fun x => x.op == 6 && x.sent && x.step == 0).foldl (fun s x => sendDraft s q 0x07 (barrierUpFrame s (groupNo x.members) x.cseq)) s

/-! ### Members -/

def memberChans (s : State) (k : Nat) : List Nat := (List.range 256).filter fun c => (lsMembers s k).testBit c

def memberSlices (s : State) (k : Nat) : List Nat := (memberChans s k).foldl (fun l c => addNew (chSliceOf s c) l) []

def enabledSets (s : State) : List Nat := (List.range 8).filter fun k => s.getObj (Obj.lsEnable k) == 1

/-- Change a lock-set slot. -/
def updSet (s : State) (k : Nat) (f : LockSet → LockSet) : State := s.setLockSet (f (s.lockSet k))

/-! ### Banked pages and the reserve -/

/-- Pages of regions given as (base, size) in rising order of base, each page once. -/
def regionPages : Nat → List (Nat × Nat) → List Nat
  | _, [] => []
  | next, (b, z) :: l =>
    let lo := max next (b / 65536)
    let hi := (b + z) / 65536
    (List.range (hi - lo)).map (lo + ·) ++ regionPages (max next hi) l

/-- The banked pages of a slice in ascending virtual address (R360, R363). -/
def bankedPages (s : State) (n : Nat) : List Nat :=
  regionPages 0 (sortBy (fun a b => decide (a.1 < b.1))
    ((List.range 16).map fun j => (s.getObj (Obj.regionBase n j), s.getObj (Obj.regionSize n j))))

/-- Bytes of the reserve in use: parity pages, before-images, replay log, journals (R364, R365). -/
def reserveUsed (s : State) : Nat :=
  sumNat ((enabledSets s).map fun k =>
    let x := s.lockSet k
    let parity := if s.getObj (Obj.rekindle k) = 1 then sumNat ((memberSlices s k).map fun n => ((bankedPages s n).length + 15) / 16) else 0
    65536 * (parity + x.images.length) + sumNat (x.replay.map fun r => 72 + 64 * r.2.2.ext) + 2 ^ 21)

def reserveLeft (s : State) : Nat := s.bank.reserve - reserveUsed s

/-- RESERVE_FREE follows the contents of the reserve. -/
def noteReserve (s : State) : State := s.putObj Obj.reserveFree (reserveLeft s)

/-- The listed bytes of a 64 KiB page of physical memory, by offset. -/
def pageCells (s : State) (pa : Nat) : List Host.Cell :=
  (s.mem.bytes.filter fun c => decide (pa ≤ c.1 ∧ c.1 < pa + 65536)).map fun c => (c.1 - pa, c.2)

/-- The numbers of a page's sectors that are poisoned, or behind a CXL port that is down (R252, R258). -/
def pageMarks (s : State) (pa : Nat) : List Nat := (List.range 1024).filter fun i => poisoned s ⟨.dev (pa / 512 + i / 8), i % 8⟩

/-- Whether a line of a page waits at a frozen channel (R249). -/
def pageFrozen (s : State) (pa : Nat) : Bool := (List.range 128).any fun i => frozen s ⟨.dev (pa / 512 + i), 0⟩ true

/-- A page written whole by the bank engine: its sectors are live, and clean but for those marked; copies in L1s are queued for
invalidation. -/
def putPage (s : State) (pa : Nat) (cells : List Host.Cell) (marks : List Nat) : State :=
  let inPage (sec : Nat) : Bool := decide (pa / 64 ≤ sec ∧ sec < pa / 64 + 1024)
  let rest : List Host.Cell := s.mem.bytes.filter fun (c : Host.Cell) => !(decide (pa ≤ c.1 ∧ c.1 < pa + 65536))
  let s : State := { s with mem := { s.mem with
    bytes := cellsAdd rest (cells.map fun (c : Host.Cell) => (c.1 + pa, c.2)),
    dead := s.mem.dead.filter fun d => !(inPage d.sector),
    poison := (s.mem.poison.filter fun p => !(inPage p)) ++ marks.map fun i => pa / 64 + i } }
  (s.mem.l1.map (·.line)).foldl (fun s l => match l with
    | .dev x => if pa / 512 ≤ x ∧ x < pa / 512 + 128 then invalidateL1 s none l else s
    | .shr _ _ => s) s

/-- The physical base of a virtual page, by the walk. -/
def pageBase (s : State) (n page : Nat) : Option Nat :=
  (walk s n (page * 65536)).map fun p => p.1.addr + page * 65536 % 2 ^ levelShift p.2.1

/-- XOR of the bytes of two pages (R363). -/
def xorCells (a b : List Host.Cell) : List Host.Cell := b.foldl (fun l c => cellPut l c.1 (cellGet l c.1 ^^^ c.2)) a

/-! ### Commands and lock sets stopped (R375 to R377) -/

/-- A collective that is over for its command leaves its group slot. -/
def dropColl (s : State) (ch seq : Nat) : State :=
  let mine := s.net.colls.filter fun x => x.ch == ch && x.seq == seq
  let s := { s with net := { s.net with colls := s.net.colls.filter fun x => !(x.ch == ch && x.seq == seq) } }
  mine.foldl (fun s x => s.putObj (Obj.gBusy x.g) 0) s

/-- A command in flight is stopped with a status, its launches by steps 1 to 5 and 7 of Table 3.9. -/
def stopCommand (s : State) (ch : Nat) (c : Cmd) (st : Nat) : State :=
  if c.final.isSome then s
  else
    let ls := (s.launches.filter fun l => l.ch == ch && l.seq == c.seq).map (·.ctx)
    if c.op = 0x01 ∧ !ls.isEmpty then ls.foldl (fun s ctx => stopLaunch s ctx st) s
    else if c.op = 0x0D then
      let s := putFlight s ch { c with done := max c.done (mixChunks c), step := max c.step (mixSteps c), worst := worseOf c.worst { status := st } }
      mixEnd (ls.foldl (fun s ctx => stopLaunch s ctx st) s) ch c.seq
    else stopCmd (dropColl s ch c.seq) ch c st

/-- Every running command of a channel is stopped. -/
def stopChannel (s : State) (st ch : Nat) : State := (s.chan ch).flight.foldl (fun s c => stopCommand s ch c st) s

/-- A lock word that a stopped launch held becomes abandoned (R111, R375), where its memory can be written. -/
def abandonWord (s : State) (l : Nat × Nat × Nat) : State :=
  match spanOk s l.1 l.2.1 l.2.2 8 true with
  | .error _ => s
  | .ok () => match readRun s l.1 l.2.1 l.2.2 8 with
    | .error _ => s
    | .ok (s, old) => (writeRun s l.1 l.2.1 l.2.2 (toLe 8 (bits (leNat old) 51 8 * 2 ^ 8 + 2))).1

/-- What a rollback under way had stopped, where its lock set ends (R377): the locks are abandoned, the commands complete PARTIAL. -/
def endHalted (s : State) (k : Nat) : State :=
  match (s.lockSet k).rb with
  | none => s
  | some r =>
    let s := r.locks.foldl abandonWord s
    r.halted.foldl (fun s x => match x.2.final with
      | some f => endCmd (s.setChan { (s.chan x.1) with flight := (s.chan x.1).flight ++ [x.2] }) x.1 x.2 f
      | none => s) s

/-- A lock set that does not rekindle (R376, R377): its member channels stop, their running commands complete PARTIAL, nothing is
restored, fetched commands stay. -/
def failLockSet (s : State) (k : Nat) : State :=
  let s := endHalted s k
  let s := (memberChans s k).foldl (fun s ch => (stopChannel s stPartial ch).putObj (Obj.chEnable ch) 0) s
  (updSet s k fun x => { x with rb := none, votes := [], mine := none, outcome := none, waitMember := none }).putObj (Obj.lsFailed k) 1

/-- LOST is flooded (R379, R500). -/
def floodLost (s : State) (m : Nat) : State := floodDraft s 0x0B { seq := 0, origin := s.ownId, arg0 := m } none

/-- The module declares itself cold (R379, R444, R493, Table 12.6); once cold it stays with its first cause. -/
def goCold (s : State) (cause : Nat) : State :=
  if s.getObj Obj.moduleState = 6 then s
  else
    let s := (s.setAlert 7).flushCounters
    let s := floodLost ((s.putObj Obj.coldCause cause).putObj Obj.moduleState 6) s.ownId
    let s := (enabledSets s).foldl failLockSet s
    (s.chans.map (·.no)).foldl (stopChannel · stPartial) s

/-! ### Rollback (R355, R370, R371) -/

/-- Whether a rollback-class event of a lock set leads to a rekindle: REKINDLE, a sealed tick behind it, protected, and not rolled
back to that tick too often (R365, R371; without a sealed tick, log 47). -/
def canRekindle (s : State) (k : Nat) : Bool :=
  let x := s.lockSet k
  s.getObj (Obj.rekindle k) == 1 && s.getObj (Obj.unprotected k) != 1 && !x.seals.isEmpty &&
    !(some x.rbTick == x.seals.getLast? && decide (s.getObj (Obj.rekindleLimit k) < x.rbCount))

/-- A launch of a member channel is stopped without a record or a completion (R370 step 3): its stores on their way complete, as far as they
can (step 4 of Table 3.9), and what it holds is noted. -/
def dropForRollback (s : State) (l : Launch) : State × List (Nat × Nat × Nat) :=
  let s := (landCtx (discardWork s l.ctx) l.ctx).1
  let s := { s with stores := s.stores.filter fun e => e.ctx != l.ctx }
  let s := { s with cores := s.cores.map fun (c : Core) => { c with wc := c.wc.filter fun e => e.g.ctx != l.ctx },
                    launches := s.launches.filter fun x => x.ctx != l.ctx }
  (placeSlice s l.slice, l.locks.map fun e => (l.slice, e.space, e.addr.toNat))

/-- Frames of a command that is no more are nobody's. -/
def forgetFrames (s : State) (ch : Nat) : State :=
  let mine (w : FrameFor) : Bool := match w with
    | .cmd c _ => c == ch
    | .flag c _ => c == ch
    | _ => false
  { s with net := { s.net with
    paths := s.net.paths.map fun p => { p with unacked := p.unacked.map fun f => if mine f.who then { f with who := .device } else f },
    reads := s.net.reads.filter fun r => !(mine r.who) } }

/-- The commands in flight of the member channels as they would complete PARTIAL now (R376): BYTES as their work stands, LOCKS those that
their launches hold. -/
def haltedCmds (s : State) (k : Nat) : List (Nat × Cmd) :=
  (memberChans s k).flatMap fun ch => (s.chan ch).flight.map fun c =>
    let held := sumNat ((s.launches.filter fun l => l.ch == ch && l.seq == c.seq).map fun l => l.locks.length + l.freed)
    let f : Final := { status := stPartial, bytes := cmdBytes s ch c, locks := c.locks + held, cause := (c.worst.map (·.cause)).getD 0 }
    (ch, { c with final := some (c.final.getD f) })

/-- Step 3 of Table 12.3. -/
def haltMembers (s : State) (k : Nat) : State × List (Nat × Nat × Nat) :=
  let chs := memberChans s k
  let (s, locks) := (s.launches.filter fun l => chs.contains l.ch).foldl (fun (p : State × List (Nat × Nat × Nat)) l =>
    let (s, ls) := dropForRollback p.1 l
    (s, p.2 ++ ls)) (s, [])
  let s := chs.foldl (fun s ch =>
    let s := (s.chan ch).flight.foldl (fun s c => dropColl s ch c.seq) s
    let s := forgetFrames s ch
    s.setChan { (s.chan ch) with flight := [] }) s
  let s := (memberSlices s k).foldl (fun s n =>
    let s := s.setSlice { (s.slice n) with moves := [] }
    { s with bank := { s.bank with waiting := s.bank.waiting.filter fun w => w.1 != n } }) s
  (s, locks)

/-- Lines of pages with before-images of a lock set that chiplet dies hold (R457). -/
def heldImages (s : State) (k : Nat) : List (Nat × HeldLine) :=
  s.chips.flatMap fun c => (c.held.filter fun h => (s.lockSet k).images.any fun i => i.slice == h.slice && i.page == h.at_ / 65536 && (match h.line with
    | .dev _ => true
    | .shr _ _ => false)).map fun h => (c.no, h)

/-- A rollback of a lock set begins at this member, or merges into the one under way (R371), or the lock set fails (R376). -/
def beginRollback (s : State) (k cls origin target : Nat) : State :=
  let x := s.lockSet k
  if s.getObj (Obj.lsFailed k) = 1 then s
  else match x.rb with
  | some r => updSet s k fun x => { x with rb := some { r with restored := false }, mine := none, outcome := none }
  | none =>
    let s := s.putObj (Obj.lastClass k) cls
    if !(canRekindle s k) then failLockSet s k
    else
      let b := x.seals.getLast?.getD 0
      let halted := haltedCmds s k
      let (s, locks) := haltMembers s k
      let s := (heldImages s k).foldl (fun s x => snoopChip s x.1 x.2 true) s
      updSet s k fun x => { x with
        rb := some { origin := origin, target := target, locks := locks, halted := halted }, votes := [], mine := none, outcome := none,
        journal := x.journal.map fun e => { e with rolledBack := true },
        rbTick := b, rbCount := if x.rbTick = b then x.rbCount + 1 else 1 }

/-- Steps 1 and 2 of Table 12.3 at the module that detects the event. -/
def originate (s : State) (cls k : Nat) : State :=
  if s.getObj (Obj.lsFailed k) = 1 then s
  else
    let t := (s.lockSet k).seals.headD 0
    let f : DraftFrame := { seq := 0, origin := s.ownId, arg0 := s.getObj (Obj.lsId k), arg1 := t, arg2 := cls, arg3 := s.ownId }
    beginRollback (floodDraft s 0x0A f none) k cls s.ownId t

/-- A rollback-class event that commands met (R355, R375). -/
def workEvent (s : State) (cls : Nat) (work : List (Nat × Nat)) : State :=
  let sets := work.foldl (fun l w => match lsOf s w.1 with
    | some k => addNew k l
    | none => l) []
  let s := sets.foldl (originate · cls) s
  work.foldl (fun s w => match lsOf s w.1 with
    | some _ => s
    | none => match findFlight s w.1 w.2 with
      | some c => stopCommand s w.1 c stPartial
      | none => s) s

/-! ### Votes (R283, R284, R366, R367, R386) -/

/-- The first fetched command of a channel that is not released. -/
def unreleased (s : State) (ch : Nat) : Option Cmd := (s.chan ch).fetched.find? fun c => !c.released

/-- Whether a head may be released at a logical tick; a rerun command keeps its release tick (R267, R370). -/
def headReady (c : Cmd) (b : Nat) : Bool := if c.rerun then decide (c.relTick ≤ b) else decide (c.notBefore ≤ b)

/-- Commands in flight of a channel but a BANK that waits. -/
def busyWith (s : State) (ch : Nat) : List Cmd := (s.chan ch).flight.filter fun c => c.op != 0x0B

/-- Whether a channel has BANK as its head, or one that waits for its bank point. -/
def bankHead (s : State) (ch : Nat) : Bool :=
  (s.chan ch).flight.any (fun c => c.op == 0x0B) || (match unreleased s ch with
    | some c => c.op == 0x0B
    | none => false)

/-- The smallest LS_LEAD in µs (R284). -/
def leadNeeded (s : State) : Nat := (2 * s.getObj Obj.treeDepth * 600 + 5000 + 999) / 1000

/-- Whether no member channel has a command in flight and no member launch an entry in a write-combining buffer. -/
def setIdle (s : State) (k : Nat) : Bool :=
  let chs := memberChans s k
  chs.all (fun ch => (busyWith s ch).isEmpty) &&
    s.cores.all fun c => c.wc.all fun e => match s.launch? e.g.ctx with
      | some l => !(chs.contains l.ch)
      | none => true

/-- Whether low reserve forces a bank (R365). -/
def lowReserve (s : State) : Bool := decide (8 * reserveLeft s < s.bank.reserve)

/-- Whether BANK_INTERVAL has passed at a logical tick since the last banked tick (R366). -/
def intervalDue (s : State) (k b : Nat) : Bool :=
  let x := s.lockSet k
  x.interval != 0 && (match x.seals.head? with
    | none => true
    | some t => decide (t + x.interval ≤ b))

/-- This module's own vote for boundary `B`. -/
def ownVote (s : State) (k B : Nat) : Vote :=
  let x := s.lockSet k
  let b := B - s.getObj (Obj.lsShift k)
  let ready0 := decide (leadNeeded s ≤ s.getObj (Obj.lsLead k)) && s.getObj Obj.alignState != 0 && s.getObj (Obj.lsFailed k) != 1 &&
    x.waitMember.isNone && (memberSlices s k).all fun n => s.getObj (Obj.sState n) == 1
  match x.rb with
  | some r => { port := 0, boundary := B, ready := ready0 && r.restored, bank := false, confirm := false, low := x.seals.getLast?.getD 0 }
  | none =>
    let chs := memberChans s k
    let ready := ready0 && decide (s.getObj (Obj.lsLastRelease k) < b) && chs.all fun ch => (s.chan ch).flight.any (fun c => c.op == 0x0B) ||
      (match unreleased s ch with
        | some c => headReady c b
        | none => false)
    let want := intervalDue s k b || lowReserve s || chs.all (bankHead s)
    { port := 0, boundary := B, ready := ready, confirm := x.unconfirmed,
      bank := ready && want && setIdle s k && x.parityDone }

/-- AND of two votes; the smallest sealed tick reported counts. -/
def andVote (a b : Vote) : Vote :=
  { a with ready := a.ready && b.ready, bank := a.bank && b.bank, confirm := a.confirm && b.confirm, low := min a.low b.low }

/-- A vote's frame (Table 11.8; the tick reported for rekindle in ARG3, log 48). -/
def voteFrame (s : State) (lsid : Nat) (v : Vote) : DraftFrame :=
  { seq := 0, origin := s.ownId, arg0 := lsid, arg1 := v.boundary,
    arg2 := (if v.ready then 1 else 0) + (if v.bank then 2 else 0) + (if v.confirm then 4 else 0), arg3 := v.low }

/-- A frame as a vote. -/
def frameVote (q : Nat) (f : DraftFrame) : Vote :=
  { port := q, boundary := f.arg1, ready := bitN f.arg2 0, bank := bitN f.arg2 1, confirm := bitN f.arg2 2, low := f.arg3 }

/-- The slot of a lock-set identifier that is enabled here. -/
def slotOfId (s : State) (id : Nat) : Option Nat := (enabledSets s).find? fun k => s.getObj (Obj.lsId k) == id

/-- The outcome for a boundary reaches this module and goes down the tree (R283, R367): one that is READY and late starts a rollback
of class 0x03. -/
def takeOutcome (s : State) (id : Nat) (v : Vote) : State :=
  let s := downDraft s 0x06 (voteFrame s id v)
  match slotOfId s id with
  | none => s
  | some k =>
    if s.tick < v.boundary then updSet s k fun x => { x with outcome := some v }
    else if v.ready then originate s 0x03 k else s

/-- The votes of a boundary are combined once every child has voted and the own vote is cast: up the tree, or decided at its root
(R338). -/
def combineVotes (s : State) (id : Nat) (mine : Vote) (votes : List Vote) : Option State :=
  let vs := votes.filter fun v => v.boundary == mine.boundary
  if (childPorts s).all fun q => vs.any fun v => v.port == q then
    let all := vs.foldl andVote mine
    some (match upPort s with
      | some q => sendDraft s q 0x05 (voteFrame s id all)
      | none => takeOutcome s id all)
  else none

/-- A slot's votes are combined where they are complete. -/
def tryVotes (s : State) (k : Nat) : State :=
  let x := s.lockSet k
  match x.mine with
  | none => s
  | some v => (combineVotes s (s.getObj (Obj.lsId k)) v x.votes).getD s

/-- A vote of a lock set that has no slot here is combined with those of the other children and goes up (log 48). -/
def relayVote (s : State) (id : Nat) (v : Vote) : State :=
  let old := ((s.net.relay.find? fun r => r.lsid == id).map (·.votes)).getD []
  let votes := old.filter (fun w => w.port != v.port && w.boundary == v.boundary) ++ [v]
  let s := { s with net := { s.net with relay := s.net.relay.filter (fun r => r.lsid != id) ++ [{ lsid := id, votes := votes }] } }
  (combineVotes s id v votes).getD s

/-! ### Dead cores and failing channels (R243, R244, R358) -/

/-- Bytes of an extent within a range. -/
def within (e : Extent) (lo hi : Nat) : Nat := min hi (e.base + e.size) - max lo e.base

/-- Stacked bytes that are granted, and those that are free below the dies' STACK_TOPs. -/
def grantedStacked (s : State) : Nat := sumNat (s.mem.extents.map fun e => within e 0 (4 * dieWindow))

def freeStacked (s : State) : Nat :=
  sumNat ((List.range 4).map fun d => s.getObj (Obj.stackTop d) - d * dieWindow) - grantedStacked s

/-- Whether the pages granted in the hole that a map-out of die `d` adds find room elsewhere (R244; log 49). -/
def holeRoom (s : State) (d : Nat) : Bool :=
  let top := s.getObj (Obj.stackTop d)
  let inHole := sumNat (s.mem.extents.map fun e => within e (top - 2 ^ 31) top)
  decide (inHole ≤ freeStacked s - (2 ^ 31 - inHole))

/-- Whether a banked page of a lock set has a line that waits at a frozen channel: what the bank engine reads there waits (R249). -/
def setFrozen (s : State) (k : Nat) : Bool :=
  (memberSlices s k).any fun n => (bankedPages s n).any fun p => match pageBase s n p with
    | some pa => pageFrozen s pa
    | none => false

/-- Channels that are failing and not being mapped out (Table 8.7: CH_STATE 1). -/
def failingChannels (s : State) : List (Nat × Nat) :=
  ((List.range 12).flatMap fun st => (List.range 32).map fun c => (st, c)).filter fun c =>
    s.getObj (Obj.chState c.1 c.2) == 1 && !(s.mem.mapping.contains c)

/-- A map-out of a channel is deferred at a bank or maintenance point (R244); at 16 in a row the module goes cold (R379). -/
def deferMapOut (s : State) (c : Nat × Nat) : State :=
  let k := 32 * c.1 + c.2
  let n := sget (fun _ => 0) s.mem.deferrals k + 1
  let s := s.addObj Obj.mapoutDeferrals 1
  let s := { s with mem := { s.mem with deferrals := sput (fun _ => 0) s.mem.deferrals k n } }
  if 16 ≤ n then goCold s 0x06 else s

/-- One failing channel at a bank or maintenance point: its map-out starts with the freeze, or is deferred (R243, R244). A die maps out at
most four channels, those that are being mapped out among them (R240). A freeze that the manager holds already is remembered (R249). -/
def startMapOut (s : State) (c : Nat × Nat) : State :=
  if 4 ≤ s.getObj (Obj.mapouts (c.1 / 3)) + (s.mem.mapping.filter fun x => x.1 / 3 == c.1 / 3).length then s
  else if holeRoom s (c.1 / 3) then
    let held := s.getObj (Obj.chFreeze c.1 c.2) = 1
    let s := if held then s else startDrain (s.putObj (Obj.chFreeze c.1 c.2) 1) (Obj.chDrained c.1 c.2)
    { s with mem := { s.mem with mapping := addNew c s.mem.mapping, heldFreeze := if held then addNew c s.mem.heldFreeze else s.mem.heldFreeze } }
  else deferMapOut s c

/-- Spares start to take the columns of dead cores (R358). -/
def replaceCores (s : State) : State :=
  { s with cores := s.cores.map fun (c : Core) => if c.dead then { c with replacing := true } else c }

/-- Step 4 of Table 12.2: spares start to take dead columns, failing channels start to be mapped out. -/
def maintain (s : State) : State :=
  let s := replaceCores s
  let s := (failingChannels s).foldl startMapOut s
  { s with bank := { s.bank with maintSince := if (failingChannels s).isEmpty then none else s.bank.maintSince } }

/-! ### Bank points (Table 12.2) -/

/-- A BANK that is its channel's head completes with the seal (R367). -/
def finishBanks (s : State) (bytes ch : Nat) : State :=
  let s := match (s.chan ch).fetched with
    | c :: rest => if c.op = 0x0B then
        (s.setChan { (s.chan ch) with fetched := rest, flight := (s.chan ch).flight ++ [c] }).addObj (Obj.started ch) 1 else s
    | [] => s
  (s.chan ch).flight.foldl (fun s c => if c.op = 0x0B ∧ c.final = none then endCmd s ch c { status := stOk, bytes := bytes } else s) s

/-- The replay log after a seal at `b`: commands not yet dispatched follow the new tick; those of the interval just closed are kept
until it is freed (R368, R370). -/
def cutReplay (s : State) (k b : Nat) : List (Nat × Nat × Cmd) :=
  (s.lockSet k).replay.map fun r => if (s.chan r.2.1).fetched.any fun c => c.seq == r.2.2.seq then (b, r.2) else r

/-- Step 2 of Table 12.2 at logical tick `b`: the seal. -/
def sealSet (s : State) (k b : Nat) : State :=
  let x := s.lockSet k
  let bytes := 65536 * (x.images.filter fun i => some i.tick == x.seals.head?).length
  let forced := lowReserve s && !(intervalDue s k b) && !((memberChans s k).all (bankHead s))
  let s := if forced then s.addObj Obj.forcedBanks 1 else s
  let s := (memberSlices s k).foldl (fun s n =>
    let y := s.slice n
    recount ((s.setSlice { y with dirty := [], quar := y.quar.filter fun q => !q.needSeal })) n) s
  let maps := (memberSlices s k).map fun n =>
    { tick := b, slice := n, entries := (s.slice n).entries, layouts := (List.range 16).map fun j => s.getObj (Obj.layout n j),
      gseq := s.net.gseq.filter fun p => s.getObj (Obj.gSlice p.1) == n : MapSeal }
  let s := updSet s k fun x => { x with
    seals := b :: x.seals, journal := [], mapSeals := x.mapSeals ++ maps, parityDone := s.getObj (Obj.rekindle k) != 1, unconfirmed := true, confirmed := false,
    ext := 0, extPrev := x.extPrev + x.ext }
  let s := ((s.addObj (Obj.banks k) 1).putObj (Obj.journalCount k) 0).putObj (Obj.unprotected k) 0
  let s := (memberChans s k).foldl (finishBanks · bytes) s
  let log := cutReplay s k b
  let s := updSet s k fun x => { x with replay := log }
  noteReserve (maintain s)

/-- Step 6 of Table 12.2, once the outcome with bit [2] has come and step 5 has ended. -/
def confirmBank (s : State) (k : Nat) : State :=
  let x := s.lockSet k
  match x.confirmed && x.parityDone, x.seals with
  | true, b :: _ =>
    noteReserve ((updSet s k fun x => { x with
      seals := [b], images := x.images.filter fun i => i.tick == b, replay := x.replay.filter fun r => decide (b ≤ r.1),
      mapSeals := x.mapSeals.filter fun m => m.tick == b, unconfirmed := false, confirmed := false, extPrev := 0 }).putObj (Obj.lastBanked k) b)
  | _, _ => s

end Sys2Proof.Machine
end

