-- ==== Sys2Proof/Machine/Sched.lean ====
section
/-! DEFINITION. Sched.lean: fetching, releasing and dispatching commands (R270 to R276, R293 to R300, R308, R368), the tick boundary
(R261, R265, R272), time slicing with save and restore (R277 to R279), overrun (R280 to R282) and the close of a vote (R283). -/

namespace Sys2Proof.Machine

/-! ### Release (Table 9.3) -/

/-- The device time that `time.get` gives for a release tick (R267): its start in the first run. -/
def relTimeOf (s : State) (ch t : Nat) : Nat :=
  (tickTime s ((t + shiftOf s ch : Nat) : Int) - (shiftOf s ch * periodNs s : Nat)).toNat

/-- A fetched command of a channel is released; the replay log keeps the release tick of its first run (R267). -/
def releaseCmd (s : State) (ch seq t : Nat) : State :=
  let x := s.chan ch
  let rel (c : Cmd) : Cmd :=
    let t := if c.rerun then c.relTick else t
    { c with released := true, relTick := t, relTime := relTimeOf s ch t }
  let log (c : Cmd) : Cmd := if c.released then c else rel c
  let s := s.setChan { x with fetched := mapIf (fun c => c.seq == seq && !c.released) rel x.fetched }
  match lsOf s ch with
  | none => s
  | some k => updSet s k fun y => { y with replay := y.replay.map fun r => if r.2.1 = ch ∧ r.2.2.seq = seq then (r.1, ch, log r.2.2) else r }

/-- Whether a command starts at a tick boundary only (Table 9.3). -/
def tickBound (c : Cmd) : Bool := c.op == 0x08 || c.op == 0x0D

/-- Commands of channels in no lock set that a boundary `B` releases. One fetched in the last microsecond before it may miss it
(R272). -/
def releaseAt (s : State) (ch B : Nat) : State :=
  ((s.chan ch).fetched.filter fun c => !c.released && decide (c.notBefore ≤ B)).foldl (fun s c =>
    if tickBound c && decide (s.getObj Obj.tickStart < c.relTime + 1000) then
      let late := s.freeVal % 2
      let s := s.useFree 1
      if late = 0 then releaseCmd s ch c.seq B else s
    else releaseCmd s ch c.seq B) s

/-- The heads of a lock set are released at boundary `B`, logical tick `b`. -/
def releaseSet (s : State) (k b : Nat) : State :=
  ((memberChans s k).foldl (fun s ch => match unreleased s ch with
    | some c => if headReady c b then releaseCmd s ch c.seq b else s
    | none => s) s).putObj (Obj.lsLastRelease k) b

/-! ### COMMAND_FETCH -/

/-- The three areas of a channel: base and bytes (R292). -/
def channelAreas (s : State) (ch : Nat) : List (Nat × Nat) :=
  let n := s.getObj (Obj.ringSlots ch)
  [(s.getObj (Obj.ringBase ch), 64 * n), (s.getObj (Obj.cwordBase ch), 8 * n), (s.getObj (Obj.complBase ch), 32 * s.getObj (Obj.complSlots ch))]

/-- R292: areas out of alignment, out of range or over each other. -/
def areasBad (s : State) (ch : Nat) : Bool :=
  let span (size : Nat) : Nat := padUp 4096 size
  let as := channelAreas s ch
  as.any (fun a => a.1 % span a.2 != 0) ||
    (List.range 3).any fun i => (List.range 3).any fun j =>
      let a := as.getD i (0, 0)
      let b := as.getD j (0, 0)
      decide (i < j ∧ a.1 < b.1 + b.2 ∧ b.1 < a.1 + a.2)

/-- The extension slots of a command, wrapping in the ring (R300). -/
def readExt (s : State) (n ch first : Nat) : Nat → Except Stop (State × List Byte)
  | 0 => .ok (s, [])
  | k + 1 =>
    match readExt s n ch first k with
    | .error e => .error e
    | .ok (s, bs) => match readRun s n 2 (s.getObj (Obj.ringBase ch) + 64 * ((first + k) % s.getObj (Obj.ringSlots ch))) 64 with
      | .error e => .error e
      | .ok (s, cs) => .ok (s, bs ++ cs)

/-- A command as fetched enters its channel, is counted, logged for replay (R368) and released where its fetch does that (R271). -/
def takeCommand (s : State) (ch : Nat) (c : Cmd) : State :=
  let x := s.chan ch
  let s := (s.setChan { x with fetched := x.fetched ++ [c] }).addObj (Obj.submitted ch) 1
  match lsOf s ch with
  | some k =>
    if decide (reserveLeft s < 72 + 64 * c.ext) && s.getObj (Obj.rekindle k) == 1 then s.putObj (Obj.unprotected k) 1
    else noteReserve (updSet s k fun y => { y with replay := y.replay ++ [(y.seals.headD 0, ch, c)] })
  | none => if !(tickBound c) && decide (c.notBefore ≤ s.tick) then releaseCmd s ch c.seq s.tick else s

/-- Reads the command at FETCH and advances FETCH past it; a ring that cannot be read stalls, one in donated memory
reads as anything (R216). -/
def fetchOne (s : State) (ch : Nat) : Res :=
  let n := chSliceOf s ch
  let f := s.getObj (Obj.fetch ch)
  let slots := s.getObj (Obj.ringSlots ch)
  match readRun s n 2 (s.getObj (Obj.cwordBase ch) + 8 * (f % slots)) 8 with
  | .error (.wait s) => .next s
  | .error .absent => .fault .absentAddress
  | .error (.cause _ _) => .next s
  | .error .any => .next (unpredictable s n)
  | .ok (s, wb) => match readRun s n 2 (s.getObj (Obj.ringBase ch) + 64 * (f % slots)) 64 with
    | .error (.wait s) => .next s
    | .error .absent => .fault .absentAddress
    | .error (.cause _ _) => .next s
    | .error .any => .next (unpredictable s n)
    | .ok (s, slot) =>
      let w := leNat wb
      let ext := bits w 10 8
      match readExt s n ch (f + 1) ext with
      | .error (.wait s) => .next s
      | .error .absent => .fault .absentAddress
      | .error (.cause _ _) => .next s
      | .error .any => .next (unpredictable s n)
      | .ok (s, payload) =>
        let c : Cmd := { seq := f, op := bits w 7 0, ext := ext, serial := bitN w 11, tag := bits w 63 32, res := bits w 31 12 != 0,
                         slot := slot, payload := payload, relTime := s.now, chunk := s.getObj (Obj.chunkTokens n) }
        .next (takeCommand (s.putObj (Obj.fetch ch) ((f + 1 + ext) % 2 ^ 32)) ch c)

/-- Whether a channel fetches (R293, R294, R297, R370, R471). -/
def mayFetch (s : State) (ch : Nat) : Bool :=
  s.getObj Obj.moduleState == 5 && s.getObj (Obj.chEnable ch) == 1 && s.getObj (Obj.sState (chSliceOf s ch)) == 1 &&
    s.getObj (Obj.fetch ch) != (s.chan ch).tail && decide ((s.chan ch).fetched.length < 32) &&
    (match lsOf s ch with
      | some k => (s.lockSet k).rb.isNone
      | none => true)

/-- COMMAND_FETCH (R293 to R295, R300, R301). A TAIL more than RING_SLOTS ahead and bad areas are unpredictable: any values that the
slice may write, with the fetch going on or not (R292, R294). -/
def execCommandFetch (ch : Nat) (s : State) : Res :=
  if 256 ≤ ch then .refused .illFormed
  else onlyIf s (mayFetch s ch) "command to fetch" <|
    let ahead := ((s.chan ch).tail + 2 ^ 32 - s.getObj (Obj.fetch ch)) % 2 ^ 32
    if areasBad s ch || decide (s.getObj (Obj.ringSlots ch) < ahead) then
      let s := unpredictable s (chSliceOf s ch)
      let go := s.freeVal % 2
      let s := s.useFree 1
      if go = 0 then .next s else fetchOne s ch
    else fetchOne s ch

/-! ### DISPATCH -/

/-- Whether a head may leave its queue as things stand: a LAUNCH for rows that its slice's order leaves it now, once an earlier LAUNCH of the
slice has begun (R273, R276); the queues of a launch's rows are those of its slice, which takes its launches in one order. -/
def mayLeave (s : State) (plans : List (Nat × List Launch)) (ch : Nat) (c : Cmd) : Bool :=
  let n := chSliceOf s ch
  c.op != 0x01 || rowless c || !((s.getObj (Obj.sDclasses n)).testBit c.dclass) ||
    ((plans.any fun p => p.1 == n && p.2.any fun l => l.ctx == 2 ^ 24 + ch) &&
      (channelsOf s n).all fun h => (s.chan h).flight.all fun d => d.op != 0x01 || rowless d || s.launches.any fun l => l.ch == h && l.seq == d.seq)

/-- The heads that may be dispatched to a resource, in the order of R274. -/
def headsFor (s : State) (r : Resource) : List (Nat × Cmd) :=
  let hs := (List.range 256).filterMap fun ch => (headFor s r ch).map fun c => ((effective s ch c, c.dclass, ch), c)
  (sortBy (fun a b => headLt a.1 b.1) hs).map fun x => (x.1.2.2, x.2)

/-- The plans of the slices that present a LAUNCH. -/
def plansFor (s : State) (hs : List (Nat × Cmd)) : State × List (Nat × List Launch) :=
  let ns := (hs.filter fun h => h.2.op == 0x01).foldl (fun l h => addNew (chSliceOf s h.1) l) []
  ns.foldl (fun p n => let x := plan p.1 n; (x.1, p.2 ++ [(n, x.2)])) (s, [])

/-- The channel and the head that a queue dispatches next. -/
def nextHead (s : State) (r : Resource) : State × Option (Nat × Cmd) :=
  let hs := headsFor s r
  let p := plansFor s hs
  (p.1, hs.find? fun h => mayLeave s p.2 h.1 h.2)

/-- DISPATCH (R270, R273 to R276, R296, R308): a command whose DCLASS is not granted is refused without being executed. -/
def execDispatch (r : Resource) (s : State) : Res :=
  onlyIf s (resourceFree s r) "free resource" <|
    let p := nextHead s r
    withSome s p.2 "head to dispatch" fun h =>
      let s := p.1
      let ch := h.1
      if !((s.getObj (Obj.sDclasses (chSliceOf s ch))).testBit h.2.dclass) then .next (endCmd s ch h.2 { status := stRefused })
      else
        let x := s.chan ch
        let c := { h.2 with ord := s.nextOrd }
        let s := { s with nextOrd := s.nextOrd + 1 }
        .next ((s.setChan { x with fenceAt := if c.serial then some c.seq else x.fenceAt, fetched := x.fetched.drop 1, flight := x.flight ++ [c] }).addObj (Obj.started ch) 1)

/-! ### TICK_BOUNDARY -/

/-- Rekindle starts at boundary `B` with the banked tick that every member can restore (R267, R370 step 6). -/
def rekindleStart (s : State) (k B low : Nat) : State :=
  let x := s.lockSet k
  let s := (s.putObj (Obj.lsShift k) (max (s.getObj (Obj.lsShift k)) (B - low))).addObj (Obj.rollbacks k) 1
  let s := (memberChans s k).foldl (fun s ch =>
    let again := (x.replay.filter fun r => r.2.1 == ch).map fun r => { r.2.2 with released := false, rerun := r.2.2.rerun || r.2.2.released }
    (s.setChan { (s.chan ch) with fetched := again, flight := [] }).addObj (Obj.chRekindled ch) (again.filter (·.rerun)).length) s
  updSet s k fun y => { y with rb := none }

/-- A lock set at boundary `B` (R283, R366, R367, R370); a module in FREE releases none of its work, whatever the outcome (R264). -/
def boundarySet (s : State) (B k : Nat) : State :=
  let x := s.lockSet k
  let out := x.outcome.filter fun v => v.boundary == B
  let voted := match x.mine with
    | some v => v.boundary == B
    | none => false
  let clear (s : State) : State := updSet s k fun x => { x with mine := none, outcome := none, votes := x.votes.filter fun v => decide (B < v.boundary) }
  match out with
  | some v =>
    if !v.ready then clear (s.addObj (Obj.lsDeferrals k) 1)
    else if s.getObj Obj.alignState = 0 then clear s
    else if (match x.rb with
      | some r => !r.restored
      | none => false) then clear (s.addObj (Obj.lsDeferrals k) 1)
    else
      let s := if x.rb.isSome then rekindleStart s k B v.low else s
      let b := B - s.getObj (Obj.lsShift k)
      let s := if v.confirm && x.unconfirmed then confirmBank (updSet s k fun x => { x with confirmed := true }) k else s
      let s := if v.bank then sealSet s k b else s
      clear (releaseSet s k b)
  | none =>
    if !voted then clear s
    else
      let s := s.addObj (Obj.lsDeferrals k) 1
      clear (match upPort s with
        | some _ => s
        | none => downDraft s 0x06 (voteFrame s (s.getObj (Obj.lsId k)) { port := 0, boundary := B, ready := false, bank := false, confirm := false }))

/-- The change of the period that was flooded for a tick applies at it, with the value that was flooded (R265). -/
def applyPeriod (s : State) (B : Nat) : State :=
  match s.net.period.find? fun x => x.1 == B with
  | some x =>
    { (s.putObj Obj.tickPeriod x.2) with net := { s.net with
      period := s.net.period.filter fun y => y.1 != B, eras := (B, s.getObj Obj.tickStart, periodNs s) :: s.net.eras } }
  | none => s

/-- Slices that exist (Table 13.2: not DESTROYED). -/
def liveSlices (s : State) : List Nat := (List.range 64).filter fun n => s.getObj (Obj.sState n) != 0

/-- A granule has ended for the launches of a slice that are resident (R277): it counts to their QUANTUM. -/
def endGranule (s : State) (n : Nat) : State :=
  { s with launches := mapIf (fun l => l.slice == n && l.phase == .resident) (fun l => { l with granules := l.granules + 1 }) s.launches }

/-- The overrun of a launch that runs on goes into another granule: the slice's debt on its rows grows with it (R281). -/
def accrue (s : State) (l : Launch) : State :=
  match l.overAt with
  | none => s
  | some t =>
    let d := (s.now - t) / 10000 + 1
    setOverrun (updLaunch s l.ctx fun x => { x with overrun := d }) l d

/-- Every overrun of a slice at the end of a granule. -/
def accrueAll (s : State) (n : Nat) : State := (s.launches.filter fun l => l.slice == n && l.overAt.isSome).foldl accrue s

/-- The first end of a granule that finds a BANK in flight begins its wait (R366, R282). -/
def bankWaits (s : State) : State :=
  { s with chans := s.chans.map fun (x : Chan) =>
    { x with flight := mapIf (fun c => c.op == 0x0B && c.overAt.isNone) (fun c => { c with overAt := some s.now }) x.flight } }

/-- What every slice does at a boundary: its last granule ends, ticks of its launches and MIXes, heat and tiering (R102, R227, R277, R281,
R286). -/
def boundarySlice (s : State) (n : Nat) : State :=
  let s := { s with launches := mapIf (fun l => l.slice == n && onCores l) (fun l => { l with resTicks := l.resTicks + 1 }) s.launches }
  let s := accrueAll (endGranule s n) n
  let s := (channelsOf s n).foldl (fun s ch => ((s.chan ch).flight.filter fun c => c.op == 0x0D).foldl (fun s c => mixTick s ch c.seq) s) s
  evaluateTiering (takeMarks (countHeatTick (startSlice (placeSlice s n) n) n) n) n

/-- TICK_BOUNDARY (R261, R265, R272): T(B), the tick number, the pending period, lock sets, releases, then the slices. -/
def execTickBoundary (s : State) : Res :=
  onlyIf s (decide (5 ≤ s.getObj Obj.moduleState)) "tick" <|
    let B := (s.tick + 1) % 2 ^ 48
    let t := s.getObj Obj.tickStart + periodNs s
    let s := ((s.putObj Obj.deviceTime (max s.now t)).putObj Obj.tickStart t).putObj Obj.tickNumber B
    let s := notifyAgain (landEvery (bankWaits (applyPeriod { s with granule := 0 } B)))
    let s := (enabledSets s).foldl (boundarySet · B ·) s
    let s := (List.range 256).foldl (fun s ch => match lsOf s ch with
      | some _ => s
      | none => releaseAt s ch B) s
    let s := repeatBarriers { s with net := { s.net with colls := s.net.colls.map fun x => { x with ticks := x.ticks + 1 } } }
    .next ((liveSlices s).foldl boundarySlice s)

/-! ### Time slicing (R277 to R281) -/

/-- Bytes of a gang's save image (Table 9.5). -/
def imageBytes (l : Launch) : Nat := l.live.length * (128 * l.vregs * l.groups + l.spad + 16384 * l.tiles + 32768)

/-- Bytes of a slice's save area in use. -/
def saveInUse (s : State) (n : Nat) : Nat :=
  sumNat ((s.launches.filter fun l => l.slice == n && (l.phase == .saving || l.phase == .saved || l.phase == .restoring)).map imageBytes)

/-- Whether two lists of rows share one, the second as a mask. -/
def rowsIn (rows : List Nat) (m : Nat) : Bool := rows.any fun r => m.testBit r

/-- A resident set: the launches taken in with their rows, those in whose place a granule of debt is paid with the rows that it was owed on, and
what is left. -/
structure ResSet where
  left : State
  got : List (Nat × List Nat) := []
  paid : List (Nat × Nat) := []
  deriving DecidableEq, Repr

/-- Forming a resident set (R277): each launch in order that fits in what remains; for each debt the first on its rows pays a granule of it
instead (R281), and of several debts on its rows the first that has not been paid at this boundary. -/
def formSet (debts : List (Nat × Nat)) : List Launch → ResSet → ResSet
  | [], r => r
  | l :: ls, r =>
    match takeInto r.left l with
    | none => formSet debts ls r
    | some v =>
      let on := ((v.launch? l.ctx).map (·.rows)).getD []
      match debts.find? fun d => decide (0 < d.2) && rowsIn on d.1 && !(r.paid.any fun p => p.2 == d.1) with
      | some d => formSet debts ls { r with paid := r.paid ++ [(l.ctx, d.1)] }
      | none => formSet debts ls { r with left := v, got := r.got ++ [(l.ctx, on)] }

/-- Why a resident launch outside the set is not pre-empted. -/
inductive Keep where
  | deadline
  | atomic
  | noRoom
  deriving DecidableEq, Repr

/-- Whether R277 or R280 keeps a resident launch that the set leaves out; `used` are the bytes of the save area that are taken. -/
def keepOf (s : State) (order : List Launch) (r : ResSet) (used : Nat) (l : Launch) : Option Keep :=
  let d := (launchKey s l).1
  let news := order.filter fun x => x.phase != .resident && r.got.any fun g => g.1 == x.ctx && shareRow g.2 l.rows
  if decide (l.granules < s.getObj (Obj.quantum l.slice)) && news.all fun x => !(dlLt (launchKey s x).1 d) then some .deadline
  else if l.atomic then some .atomic
  else if s.getObj (Obj.saveArea l.slice) < used + imageBytes l then some .noRoom
  else none

/-- The first launch of a list that is kept, and why. -/
def firstKept (s : State) (order : List Launch) (r : ResSet) : Nat → List Launch → Option (Launch × Keep)
  | _, [] => none
  | used, l :: ls =>
    match keepOf s order r used l with
    | some k => some (l, k)
    | none => firstKept s order r (used + imageBytes l) ls

/-- The resident set of a granule boundary: a launch that is kept holds its cores, and the set is formed again around it, so that no launch
is pre-empted for one that would not fit (R277). Those kept stand first in `kept`. -/
def settleSet (s : State) (n : Nat) (order : List Launch) : Nat → List (Launch × Keep) → ResSet × List (Launch × Keep)
  | 0, kept => ({ left := s }, kept)
  | fuel + 1, kept =>
    let held (l : Launch) : Bool := l.overAt.isSome || kept.any fun k => k.1.ctx == l.ctx
    let rest := s.launches.filter fun l => !(order.any fun x => x.ctx == l.ctx) || held l
    let r := formSet (s.slice n).debts (order.filter fun l => !(held l)) { left := { s with launches := rest } }
    let out := order.filter fun l => l.phase == .resident && !(held l) && !(r.got.any fun g => g.1 == l.ctx)
    match firstKept s order r (saveInUse s n) out with
    | some k => settleSet s n order fuel (kept ++ [k])
    | none => (r, kept)

/-- What keeping a launch leaves: an overrun that begins (R281), or a count (R279). -/
def noteKept (s : State) (k : Launch × Keep) : State :=
  match k.2 with
  | .deadline => s
  | .atomic => updLaunch s k.1.ctx fun l => { l with overAt := some s.now }
  | .noRoom => s.addObj (Obj.preemptDeferred k.1.slice) 1

/-- A launch is pre-empted: its save begins. -/
def preempt (s : State) (l : Launch) : State :=
  (s.setLaunch { l with phase := .saving }).addObj (Obj.preemptions l.slice) 1

/-- A slice at a granule boundary (R277). The launches that it takes in keep the rows on which the set gave them room. -/
def granuleSlice (s : State) (n : Nat) : State :=
  let s := endGranule s n
  let s := s.setSlice { s.slice n with chosen := [] }
  let order := sliceOrder s n
  let (r, kept) := settleSet s n order (order.length + 1) []
  let out := order.filter fun l => l.phase == .resident && l.overAt.isNone && !(kept.any fun k => k.1.ctx == l.ctx) && !(r.got.any fun g => g.1 == l.ctx)
  let s := { s with free := r.left.free }
  let s := r.paid.foldl (fun s p => putDebt s n p.2 (debtOn s n p.2 - 1)) s
  let rows := r.got.filterMap fun g => (order.find? fun l => l.ctx == g.1 && l.phase != .resident).map fun l => (l.ch, l.seq, g.2)
  let s := s.setSlice { s.slice n with denied := r.paid.map (·.1), chosen := rows }
  startSlice (accrueAll (out.foldl preempt (kept.foldl noteKept s)) n) n

/-- GRANULE_BOUNDARY (R277): boundaries fall 10 µs apart within the tick. -/
def execGranuleBoundary (s : State) : Res :=
  let k := s.granule + 1
  onlyIf s (s.getObj Obj.moduleState == 5 && decide (k * 10000 < periodNs s)) "granule" <|
    let s := { (s.putObj Obj.deviceTime (max s.now (s.getObj Obj.tickStart + k * 10000))) with granule := k }
    .next ((liveSlices s).foldl granuleSlice (bankWaits s))

/-- Whether a system load of a launch is still to be answered. -/
def loadsPending (s : State) (ctx : Nat) : Bool :=
  s.net.reads.any fun x => x.data.isNone && x.fail.isNone && (match x.who with
    | .load g => g.ctx == ctx
    | _ => false)

/-- Fill requests of a launch in flight, and requests of it that wait at frozen channels, are discarded; they are made again after the
restore (R278). -/
def dropFills (s : State) (ctx : Nat) : State :=
  settleFrozen { s with
    net := { s.net with reads := s.net.reads.filter fun x => match x.who with
      | .drain c _ _ _ => c != ctx
      | _ => true },
    mem := { s.mem with waitingReq := s.mem.waitingReq.filter fun x => askerCtx x.1 != some ctx } }

/-- A gang whose loads all have their values (R164). -/
def settledGang (g : Gang) : Gang := { g with groups := g.groups.map fun (t : Group) => { t with late := [] } }

/-- SAVE_COMPLETE (R278): its matrix work and its accesses are done and no fault was found (R104); the cores are free, its resident time
stops. -/
def execSaveComplete (ctx : Nat) (s : State) : Res :=
  withSome s (s.launch? ctx) "launch" fun l =>
    onlyIf s (l.phase == .saving && !l.killed && l.reports.isEmpty && !(loadsPending s ctx) && s.cores.all fun c => c.mq.all fun e => e.g.ctx != ctx) "save" <|
      match storesDone s ctx with
      | (s, false) => .next s
      | (s, true) => match (dropFills s ctx).launch? ctx with
        | none => .next s
        | some l =>
          if !l.reports.isEmpty then .next s
          else
            let s := (dropFills s ctx).setLaunch { l with phase := .saved, since := s.now - l.since, live := l.live.map settledGang }
            .next (startSlice (placeSlice s l.slice) l.slice)

/-- RESTORE_COMPLETE (R278). The invalidations queued at the cores that the gangs stand on now are applied, so that a group reads there nothing
older than what it has read or written elsewhere (R162, R163). -/
def execRestoreComplete (ctx : Nat) (s : State) : Res :=
  withSome s (s.launch? ctx) "launch" fun l =>
    onlyIf s (l.phase == .restoring && !l.killed) "restore" <|
      let s := placeAll (s.setLaunch { l with phase := .resident, granules := 0 }) ctx
      .next ((((s.launch? ctx).map (·.live)).getD []).foldl (fun s g => applyInv s g.core) s)

/-! ### Overrun (R280 to R282) -/

/-- The debt of a stopped launch is cleared. -/
def clearDebt (s : State) (l : Launch) : State := setOverrun s l 0

/-- Whether an overrun has reached one tick period (R282). How long a step of a COLLECTIVE, a block transaction or another ATOMIC
command takes is not modelled, so for these the event may come at any time (log 42). -/
def overrunDue (s : State) (ch : Nat) (c : Cmd) : Bool :=
  let past (t : Option Nat) : Bool := match t with
    | some t => decide (periodNs s ≤ s.now - t)
    | none => false
  if c.op = 0x01 ∨ c.op = 0x0D then (s.launches.filter fun l => l.ch == ch && l.seq == c.seq).any fun l => past l.overAt
  else if c.op = 0x0B then past c.overAt
  else c.op == 0x08 || c.op == 0x0A || c.atomic

/-! ### VOTE_CLOSE -/

/-- VOTE_CLOSE (R283, R284, R366): the module casts its vote for the next boundary. -/
def execVoteClose (k : Nat) (s : State) : Res :=
  let B := (s.tick + 1) % 2 ^ 48
  let open_ := match (s.lockSet k).mine with
    | some v => v.boundary != B
    | none => true
  if 8 ≤ k then .refused .illFormed
  else onlyIf s (s.getObj (Obj.lsEnable k) == 1 && s.getObj Obj.moduleState == 5 && open_) "vote" <|
    let v := ownVote s k B
    let late := v.ready && intervalDue s k (B - s.getObj (Obj.lsShift k)) && !(setIdle s k)
    let s := if late then s.addObj (Obj.banksDeferred k) 1 else s
    .next (tryVotes (updSet s k fun x => { x with mine := some v, outcome := none }) k)

end Sys2Proof.Machine
end

