-- ==== Sys2Proof/Machine/Collective.lean ====
section
/-! DEFINITION. Collective.lean: the COLLECTIVE command (R346 to R351, Tables 11.11 and 11.12), its arithmetic (R51, R59 to R65,
R71), barriers over the draft (R338), and OVERRUN_STOP (R282, R349). -/

namespace Sys2Proof.Machine

/-! ### Element types of a collective (Table 11.11) -/

/-- Bytes of an element or block. -/
def collSize (dt : Nat) : Nat := [8, 4, 2, 4, 8, 4, 8, 536, 280].getD dt 1

/-- The float format of a DTYPE. -/
def collFmt (dt : Nat) : Option FFmt := if dt = 0 then some fmtF64 else if dt = 1 then some fmtF32 else if dt = 2 then some fmtBf16 else none

/-- Elements of a list of bytes as numbers. -/
def elemsOf (sz : Nat) (bs : List Byte) : List Nat := (chunks sz bs.length bs).map leNat

/-! ### Reductions (R350) -/

/-- Lists of one element per rank from one list per rank. -/
def acrossRanks (n : Nat) (ls : List (List Nat)) : List (List Nat) := (List.range n).map fun i => ls.map fun l => l.getD i 0

/-- The header of an XR block (Table 2.6): EXP, the count of contributors less one, SPEC. -/
def xrHead (exp : Int) (ccountM1 spec : Nat) : List Byte := toLe 2 (exp % 2 ^ 16).toNat ++ toLe 2 0 ++ toLe 4 (ccountM1 % 2 ^ 18) ++ toLe 16 spec

/-- SPEC of the elements of a block, two bits each. -/
def specOf (vs : List FVal) : Nat := (vs.mapIdx fun i v => xrSpec v * 4 ^ i).foldl (· + ·) 0

/-- A contributor's header of a block for the exponent pass (R61). -/
def ownHead (ccountM1 : Nat) (vs : List FVal) : List Byte := xrHead (xrExp vs) ccountM1 (specOf vs)

/-- Headers of one block combined: EXP by signed maximum, SPEC by OR (R61). -/
def joinHeads (hs : List (List Byte)) : Int × Nat :=
  ((hs.map fun h => signedN 16 (fieldLe h 0 2)).foldl max (-32768), (hs.map fun h => fieldLe h 8 16).foldl (· ||| ·) 0)

/-- A contributor's XR block of up to 64 elements for the integer pass: an element with a mark contributes 0 (R61), under a given exponent
each integer is clamped (R63). -/
def xrBlock (xr64 : Bool) (ccountM1 : Nat) (exp : Int) (spec : Nat) (given : Bool) (vs : List FVal) : List Byte :=
  let w := if xr64 then 8 else 4
  let q (i : Nat) : Int := if spec / 4 ^ i % 4 = 0 then xrInt xr64 ccountM1 exp given (vs.getD i (.fin false 0 0)) else 0
  xrHead exp ccountM1 spec ++ (List.range 64).flatMap fun i => toLe w (q i % 2 ^ (8 * w)).toNat

/-- The results of the first `n` elements of a summed XR block (R62, Table 2.7). -/
def xrOut (f : FFmt) (xr64 : Bool) (ccountM1 n : Nat) (b : List Byte) : List Nat :=
  let w := if xr64 then 8 else 4
  let spec := fieldLe b 8 16
  (List.range n).map fun i =>
    xrResult f xr64 ccountM1 (spec / 4 ^ i % 4) (signedN 16 (fieldLe b 0 2)) (wrapInt (8 * w) (fieldLe b (24 + w * i) w))

/-- Float values of a run of bytes, by blocks of 64 elements from its first one (log 53). -/
def xrRows (f : FFmt) (sz : Nat) (bs : List Byte) : List (List FVal) :=
  let vs := (elemsOf sz bs).map (decodeF f)
  chunks 64 vs.length vs

/-- Two elements combined by ROP, on integers by their signedness, on floats by R51; bitwise operations on encodings. -/
def ropPair (dt rop a b : Nat) : Nat :=
  let w := 8 * collSize dt
  match rop with
  | 3 => a &&& b
  | 4 => a ||| b
  | 5 => a ^^^ b
  | 0 => (a + b) % 2 ^ w
  | _ => match collFmt dt with
    | some f => minMaxF f (rop == 1) a b
    | none =>
      let v (x : Nat) : Int := if dt = 3 ∨ dt = 4 then signedN w x else (x : Int)
      if (if rop = 1 then decide (v a < v b) else decide (v b < v a)) then b else a

/-- XR blocks added: elements modulo 2^64 or 2^32, SPEC by OR, the common header (R350); none where the headers differ, or a reserved
bit of one is set (R59, R8). -/
def xrBlocks (xr64 : Bool) (bs : List (List Byte)) : Option (List Byte) :=
  let head (b : List Byte) : Nat × Nat := (fieldLe b 0 2, fieldLe b 4 4 % 2 ^ 18)
  let h := head (bs.headD [])
  if !(bs.all fun b => head b == h && fieldLe b 2 2 == 0 && decide (fieldLe b 4 4 < 2 ^ 18)) then none
  else
    let w := if xr64 then 8 else 4
    let spec := (bs.map fun b => fieldLe b 8 16).foldl (· ||| ·) 0
    let sums := (List.range 64).flatMap fun i => toLe w ((bs.map fun b => fieldLe b (24 + w * i) w).foldl (· + ·) 0 % 2 ^ (8 * w))
    some (toLe 2 h.1 ++ toLe 2 0 ++ toLe 4 h.2 ++ toLe 16 spec ++ sums)

/-- All-or-none of a list. -/
def allSome {α : Type} : List (Option α) → Option (List α)
  | [] => some []
  | none :: _ => none
  | some x :: l => (allSome l).map (x :: ·)

/-- Whether a collective is a float sum in XR, and if so in XR64 (Table 11.11, determinism mask bit [1]). -/
def xrMode (s : State) (x : Coll) : Option Bool :=
  if x.rop ≠ 0 ∨ (collFmt x.dtype).isNone ∨ !([0, 1, 3].contains x.op) then none
  else if x.xrmode = 1 then some true
  else if x.xrmode = 2 then some false
  else if (s.getObj (Obj.detMask (chSliceOf s x.ch))).testBit 1 then some true else none

/-- Rows of XR blocks added, block by block. -/
def sumBlocks (xr64 : Bool) (rows : List (List (List Byte))) : Option (List (List Byte)) :=
  allSome ((List.range (rows.headD []).length).map fun i => xrBlocks xr64 (rows.map fun r => r.getD i []))

/-- The reduction over ranks of lists of bytes of one length, for `n` elements; none where it is unpredictable. -/
def reduceData (s : State) (x : Coll) (n : Nat) (ds : List (List Byte)) : Option (List Byte) :=
  let sz := collSize x.dtype
  let rowsBy (w : Nat) : List (List (List Byte)) := ds.map fun d => chunks w d.length d
  if 7 ≤ x.dtype then (sumBlocks (x.dtype == 7) (rowsBy sz)).map List.flatten
  else match xrMode s x, collFmt x.dtype with
    | some k, some f => (sumBlocks k (rowsBy (if k then 536 else 280))).map fun bs =>
        (bs.mapIdx fun i b => xrOut f k (x.members.length - 1) (min 64 (n - 64 * i)) b).flatten.flatMap (toLe sz)
    | _, _ =>
      let ls := ds.map (elemsOf sz)
      let out := match x.rop, collFmt x.dtype with
        | 0, some f => (acrossRanks n ls).map fun col => rankTree f 18 col
        | _, _ => (acrossRanks n ls).map fun col => match col with
          | [] => 0
          | a :: rest => rest.foldl (ropPair x.dtype x.rop) a
      some (out.flatMap (toLe sz))

/-! ### Steps (R348) -/

def collSizeOf (x : Coll) : Nat := x.members.length

/-- Elements of DST that the steps walk: of a REDUCE, those of the root. -/
def collTotal (x : Coll) : Nat := if x.op = 4 ∨ x.op = 5 then collSizeOf x * x.count else if x.op = 6 then 0 else x.count

def collSteps (x : Coll) : Nat := (collTotal x + x.stepElems - 1) / x.stepElems

/-- The element range of a step. -/
def stepLo (x : Coll) (i : Nat) : Nat := i * x.stepElems
def stepHi (x : Coll) (i : Nat) : Nat := min (collTotal x) ((i + 1) * x.stepElems)

/-- What rank `j` contributes to step `i` of rank `t`: first element of its SRC and their number. -/
def partOf1 (x : Coll) (j t i : Nat) : Nat × Nat :=
  let lo := stepLo x i
  let hi := stepHi x i
  let a := max lo (j * x.count)
  let b := min hi ((j + 1) * x.count)
  match x.op with
  | 0 => (lo, hi - lo)
  | 1 => (lo, if t = x.root then hi - lo else 0)
  | 2 => (lo, if j = x.root then hi - lo else 0)
  | 3 => (t * x.count + lo, hi - lo)
  | 4 => (a - j * x.count, b - a)
  | _ => (t * x.count + (a - j * x.count), b - a)

/-- Whether this member only sends (R348: a REDUCE's member that is not ROOT). -/
def sendsOnly (x : Coll) : Bool := x.op == 1 && x.rank != x.root

/-- Bytes that `n` elements take as a contribution: XR blocks of a float sum in XR, else the elements (R351). -/
def wireLen (s : State) (x : Coll) (n : Nat) : Nat := match xrMode s x with
  | some k => (n + 63) / 64 * (if k then 536 else 280)
  | none => n * collSize x.dtype

/-- Whether a contribution is the one of rank `j` to a step of a collective here. -/
def isPart (x : Coll) (pass j : Nat) (c : Contribution) : Bool :=
  c.group == groupNo x.members && c.dst == x.rank && c.cseq == x.cseq && c.rank == j && c.step == x.step && c.pass == pass

/-- A block of a contribution reaches this module; one that is there already is not taken again. -/
def addContribution (s : State) (b : CollBlk) (data : List Byte) : State :=
  let same (d : Contribution) : Bool :=
    d.group == b.group && d.dst == b.dst && d.cseq == b.cseq && d.rank == b.rank && d.step == b.step && d.pass == b.pass
  let put (d : Contribution) : Contribution := if d.blocks.any fun x => x.1 == b.block then d else { d with blocks := d.blocks ++ [(b.block, data)] }
  let l := if s.net.contribs.any same then mapIf same put s.net.contribs
    else s.net.contribs ++ [{ group := b.group, cseq := b.cseq, rank := b.rank, dst := b.dst, step := b.step, pass := b.pass, blocks := [(b.block, data)] }]
  { s with net := { s.net with contribs := l } }

/-- The bytes of a contribution, block by block. -/
def partBytes (c : Contribution) : List Byte := (sortBy (fun (a b : Nat × List Byte) => decide (a.1 < b.1)) c.blocks).flatMap (·.2)

/-- A COLL frame's fields as numbers. -/
def blkNums (b : CollBlk) : List Nat := [b.group, b.cseq, b.rank, b.dst, b.pass, b.step, b.block]

/-- Blocks for rank `t` of the step, sent in frames of at most 8,192 bytes, or handed over within the module; none while one cannot go. -/
def sendPieces (s : State) (x : Coll) (pass t m : Nat) : Nat → List (List Byte) → Option State
  | _, [] => some s
  | i, p :: ps =>
    let b : CollBlk := { group := groupNo x.members, cseq := x.cseq, rank := x.rank, dst := t, pass := pass, step := x.step, block := i }
    if m = s.ownId then sendPieces (addContribution s b p) x pass t m (i + 1) ps
    else match sendFrame s m 6 { addr := Config.collAddr (blkNums b), payload := p, blk := some b } (.cmd x.ch x.seq) with
      | none => none
      | some s => sendPieces s x pass t m (i + 1) ps

/-- The elements of SRC that this member contributes to the step of rank `t`. -/
def readPart (s : State) (x : Coll) (t : Nat) : Except Stop (State × List Byte) :=
  let p := partOf1 x x.rank t x.step
  let sz := collSize x.dtype
  if p.2 = 0 then .ok (s, []) else readRunAs .sectors (.cmd x.ch x.seq) s (chSliceOf s x.ch) 2 ((x.src.toNat + p.1 * sz) % 2 ^ 64) (p.2 * sz)

/-- This member's headers of the exponent pass: of the blocks that it contributes to each rank, in rank order. -/
def ownHeads (f : FFmt) (x : Coll) : List Nat → State → Except Stop (State × List Byte)
  | [], s => .ok (s, [])
  | t :: ts, s =>
    match readPart s x t with
    | .error e => .error e
    | .ok (s, bs) => match ownHeads f x ts s with
      | .error e => .error e
      | .ok (s, rest) => .ok (s, (xrRows f (collSize x.dtype) bs).flatMap (ownHead (x.members.length - 1)) ++ rest)

/-- What goes to each rank (rank, module, bytes) leaves, rank by rank; none while one path cannot be opened. -/
def sendParts (x : Coll) (pass : Nat) : List (Nat × Nat × List Byte) → State → Option State
  | [], s => some s
  | (t, m, bs) :: rest, s =>
    match sendPieces s x pass t m 0 (chunks 8192 bs.length bs) with
    | none => none
    | some s => sendParts x pass rest s

/-- The order in which the ranks are served (log 51): along the system ring, or the nearest in the system tree first, by ALGO (R332, R346); a
rank tree's sum ignores it (R350). -/
def algoOrder (s : State) (x : Coll) (l : List (Nat × Nat × List Byte)) : List (Nat × Nat × List Byte) :=
  let far (m : Nat) : Nat := if x.ring then ringDist s m else treeDist s.net.tree s.ownId m
  if x.rop = 0 ∧ (collFmt x.dtype).isSome ∧ xrMode s x = none then l else sortBy (fun a b => decide (far a.2.1 < far b.2.1)) l

/-- What goes to each rank leaves whole or waits whole; a module without a route ends the collective. -/
def sendRanks (s : State) (x : Coll) (pass : Nat) (l : List (Nat × Nat × List Byte)) : Except Stop State :=
  if l.any fun p => !(reachable s p.2.1) then .error (.cause 0x40 0)
  else match sendParts x pass (algoOrder s x l) s with
    | none => .error (.wait s)
    | some s => .ok s

/-- The exponent pass: every member hears this member's headers (R61). -/
def sendHeads (s : State) (x : Coll) (bs : List Byte) : Except Stop State := sendRanks s x 1 (x.members.mapIdx fun t m => (t, m.1, bs))

/-- The headers that each rank has sent for the step, in rank order; none while one is missing. -/
def headsHere (s : State) (x : Coll) : Option (List (List Byte)) :=
  allSome (((List.range (collSizeOf x)).filter fun j => (List.range (collSizeOf x)).any fun t => (partOf1 x j t x.step).2 != 0).map fun j =>
    let need := ((List.range (collSizeOf x)).map fun t => 24 * (((partOf1 x j t x.step).2 + 63) / 64)).foldl (· + ·) 0
    (s.net.contribs.find? fun c => isPart x 1 j c && decide (need ≤ (partBytes c).length)).map partBytes)

/-- A member's contribution to rank `t` as it goes out: elements, or XR blocks under the combined headers `hs` of the blocks that rank `t`
takes (R61), or under the given exponent (R63). -/
def wireOf (s : State) (x : Coll) (hs : List (List (List Byte))) (bs : List Byte) : List Byte :=
  match xrMode s x, collFmt x.dtype with
  | some k, some f =>
    let c := x.members.length - 1
    ((xrRows f (collSize x.dtype) bs).mapIdx fun i vs =>
      if x.expGiven then xrBlock k c x.fixedExp (specOf vs) true vs
      else
        let h := joinHeads (hs.map fun r => r.getD i [])
        xrBlock k c h.1 h.2 false vs).flatten
  | _, _ => bs

/-- The headers of the blocks that rank `t` takes, of every contributor: they follow those of the lower ranks. -/
def rankHeads (x : Coll) (t : Nat) (hs : List (List Byte)) : List (List (List Byte)) :=
  let skip := ((List.range t).map fun u => ((partOf1 x x.rank u x.step).2 + 63) / 64).foldl (· + ·) 0
  hs.map fun h => (chunks 24 h.length h).drop skip

/-- This member's contributions to the step, rank by rank, read from its SRC. -/
def readStep (x : Coll) (hs : List (List Byte)) : List (Nat × Nat) → State → Except Stop (State × List (Nat × Nat × List Byte))
  | [], s => .ok (s, [])
  | (t, m) :: rest, s =>
    if (partOf1 x x.rank t x.step).2 = 0 then readStep x hs rest s
    else match readPart s x t with
      | .error e => .error e
      | .ok (s, bs) => match readStep x hs rest s with
        | .error e => .error e
        | .ok (u, l) => .ok (u, (t, m, wireOf s x (rankHeads x t hs) bs) :: l)

/-- This member's contributions to the step are read, then leave. -/
def sendStep (s : State) (x : Coll) (hs : List (List Byte)) : Except Stop State :=
  match readStep x hs (x.members.mapIdx fun t m => (t, m.1)) s with
  | .error e => .error e
  | .ok (s, l) => sendRanks s x 0 l

/-- The contributions of a step in rank order, with the length each must have; none while one is missing. -/
def gathered (s : State) (x : Coll) : Option (List (Nat × List Byte)) :=
  allSome (((List.range (collSizeOf x)).filter fun j => (partOf1 x j x.rank x.step).2 != 0).map fun j =>
    (s.net.contribs.find? fun c => isPart x 0 j c && decide (wireLen s x (partOf1 x j x.rank x.step).2 ≤ (partBytes c).length)).map fun c =>
      (j, partBytes c))

/-- The final values of the step's range; none where the contributions do not agree (R350). -/
def stepResult (s : State) (x : Coll) (cs : List (Nat × List Byte)) : Option (List Byte) :=
  if !(cs.all fun c => c.2.length == wireLen s x (partOf1 x c.1 x.rank x.step).2) then none
  else if x.op = 0 ∨ x.op = 1 ∨ x.op = 3 then reduceData s x (stepHi x x.step - stepLo x x.step) (cs.map (·.2))
  else some (cs.flatMap (·.2))

/-- A collective is over: the contributions to its rank go, its slot is free, its command completes. -/
def endColl (s : State) (x : Coll) (c : Cmd) (f : Final) : State :=
  let mine (d : Contribution) : Bool := d.group == groupNo x.members && d.dst == x.rank && decide (d.cseq ≤ x.cseq)
  let s := { s with net := { s.net with contribs := s.net.contribs.filter fun d => !(mine d) } }
  let s := if f.status = stRemoteLost then s.addObj Obj.collLost 1 else s
  endCmd (dropColl s x.ch x.seq) x.ch c f

/-- After the last step: the FLAG, then the record once everything sent is acknowledged (R309, R348). -/
def collTail (s : State) (x : Coll) (c : Cmd) : Res :=
  let done (s : State) (c : Cmd) : Res :=
    if (unackedOf s x.ch x.seq).isEmpty then .next (endColl s x c { status := stOk, bytes := c.done }) else .next s
  if x.flag = 0 ∨ c.flagSent then done s c
  else match spanOkBy (.cmd x.ch x.seq) s (chSliceOf s x.ch) 2 x.flag.toNat 8 true with
    | .error (.cause k _) => .next (endColl s x c { status := stKilled, bytes := c.done, cause := k })
    | .error (.wait s) => .next s
    | .error .any => .next (cmdAny (dropColl s x.ch x.seq) x.ch c)
    | .error .absent => .fault .absentAddress
    | .ok () =>
      let s := served (writeRunAs .sectors none (.cmd x.ch x.seq) s (chSliceOf s x.ch) 2 x.flag.toNat (toLe 8 x.flagValue.toNat)).1 (.cmd x.ch x.seq)
      let c := { c with flagSent := true }
      done (putFlight s x.ch c) c

/-- Whether the sum needs an exponent pass (R61): in XR without a given exponent. -/
def twoPass (s : State) (x : Coll) : Bool := (xrMode s x).isSome && !x.expGiven

/-- The next step of a collective; its headers, where it needs none, count as sent. -/
def nextStep (s : State) (x : Coll) : State :=
  (s.setColl { x with step := x.step + 1, heads := !(twoPass s x), sent := false, ticks := 0 }).addObj Obj.collSteps 1

/-- A collective meets a stop in its own memory, or a module that no route reaches. -/
def collStop (s : State) (x : Coll) (c : Cmd) : Stop → Res
  | .cause k _ => .next (endColl s x c { status := stKilled, bytes := c.done, cause := k })
  | .wait s => .next s
  | .any => .next (cmdAny (dropColl s x.ch x.seq) x.ch c)
  | .absent => .fault .absentAddress

/-- A collective goes on as far as it can without the start of a step. -/
def collGo (g : Nat) : Nat → State → Res
  | 0, s => .next s
  | fuel + 1, s =>
    match s.coll? g with
    | none => .next s
    | some x => match findFlight s x.ch x.seq with
      | none => .next s
      | some c =>
        if c.final.isSome || x.op == 6 then .next s
        else if collSteps x ≤ x.step then collTail s x c
        else if !x.heads then
          match (match collFmt x.dtype with
            | some f => ownHeads f x (List.range (collSizeOf x)) s
            | none => .ok (s, [])) with
          | .error e => collStop s x c e
          | .ok (s, bs) => match sendHeads s x bs with
            | .error e => collStop s x c e
            | .ok s => collGo g fuel (served (s.setColl { x with heads := true }) (.cmd x.ch x.seq))
        else if !x.sent then
          match (if twoPass s x then headsHere s x else some []) with
          | none => .next s
          | some hs => match sendStep s x hs with
            | .error e => collStop s x c e
            | .ok s => collGo g fuel (served (s.setColl { x with sent := true }) (.cmd x.ch x.seq))
        else if sendsOnly x && (unackedOf s x.ch x.seq).isEmpty then collGo g fuel (nextStep s x)
        else .next s

def collAdvance (s : State) (g : Nat) : Res :=
  match s.coll? g with
  | none => .next s
  | some x => collGo g (3 * collSteps x + 3) s

/-! ### Barriers (R338, R346) -/

/-- The members (module, channel) of a table as read. -/
def tableMembers (tab : List Byte) : List (Nat × Nat) :=
  (List.range (tab.length / 4)).map fun j => (fieldLe tab (4 * j) 4 % 2 ^ 18, fieldLe tab (4 * j) 4 / 2 ^ 18 % 256)

/-- The group of a barrier on the draft (log 52). -/
def barrierId (x : Coll) : Nat := groupNo x.members

/-- The group slots of this module whose member table is that of the group of a barrier. -/
def barrierSlots (s : State) (id : Nat) : List Nat :=
  (List.range 64).filter fun g => s.getObj (Obj.gSize g) != 0 && decide (s.getObj (Obj.gSlice g) < 64) &&
    match readRun s (s.getObj (Obj.gSlice g)) 2 (s.getObj (Obj.gTable g)) (4 * s.getObj (Obj.gSize g)) with
    | .ok (_, bs) => groupNo (tableMembers bs) == id
    | .error _ => false

/-- The local collectives of a barrier, and whether every local rank has arrived. -/
def barrierHere (s : State) (id seq : Nat) : List Coll := s.net.colls.filter fun x => x.op == 6 && barrierId x == id && x.cseq == seq

def barrierReady (s : State) (id seq : Nat) : Bool :=
  (barrierSlots s id).all fun g => (barrierHere s id seq).any fun x => x.g == g

/-- A barrier completes at this module and down the tree. -/
def barrierDone (s : State) (id seq : Nat) : Res :=
  let s := downDraft s 0x08 { seq := 0, origin := s.ownId, arg0 := id, arg1 := seq }
  let ended (x : Coll) : Coll := if x.op == 6 && barrierId x == id && x.cseq == seq then { x with step := 1 } else x
  let s := { s with net := { s.net with colls := s.net.colls.map ended,
                                        barriers := s.net.barriers.filter fun b => !(b.1 == id && b.2.1 == seq) } }
  (barrierHere s id seq).foldl (fun (r : Res) x => match r with
    | .next s => match findFlight s x.ch x.seq with
      | some c => collTail s x c
      | none => .next s
    | r => r) (.next s)

/-- The barrier goes up once, when it has come from every child and every local rank has arrived; at the root it is complete. -/
def barrierTry (s : State) (id seq : Nat) : Res :=
  let gone := (barrierHere s id seq).any (·.sent)
  if !gone && barrierReady s id seq && (childPorts s).all (fun q => s.net.barriers.contains (id, seq, q)) then
    match upPort s with
    | some q =>
      let up (x : Coll) : Coll := if x.op == 6 && barrierId x == id && x.cseq == seq then { x with sent := true } else x
      let s := { s with net := { s.net with colls := s.net.colls.map up } }
      .next (sendDraft s q 0x07 (barrierUpFrame s id seq))
    | none => barrierDone s id seq
  else .next s

/-! ### The command -/

/-- What R8 and R346 leave unpredictable in a descriptor: reserved codes and bits, and a FLAG that is not aligned. -/
def collBad (bs : List Byte) : Bool :=
  let op := fieldLe bs 0 1 % 16
  let rop := fieldLe bs 0 1 / 16
  let dt := fieldLe bs 1 1 % 16
  decide (7 ≤ op) || decide (6 ≤ rop) || decide (9 ≤ dt) || fieldLe bs 1 1 / 16 % 4 == 3 || fieldLe bs 4 1 / 64 != 0 || fieldLe bs 5 3 != 0 ||
    fieldLe bs 36 4 != 0 || fieldLe bs 56 8 != 0 || fieldLe bs 40 8 % 8 != 0

/-- The cases of R350 in a descriptor, whose results stay within the member's own DST range and FLAG: a ROOT not below G_SIZE, blocks with a
ROP other than sum. -/
def collLoose (bs : List Byte) (size : Nat) : Bool :=
  let op := fieldLe bs 0 1 % 16
  (decide (7 ≤ fieldLe bs 1 1 % 16) && fieldLe bs 0 1 / 16 != 0) || ((op == 1 || op == 2) && decide (size ≤ fieldLe bs 12 4))

/-- Whether a member table has reserved bits set (R347, R8). -/
def tableBad (tab : List Byte) : Bool := (List.range (tab.length / 4)).any fun j => decide (2 ^ 26 ≤ fieldLe tab (4 * j) 4)

/-- The count of collectives of a slot. -/
def gseqOf (s : State) (g : Nat) : Nat := sget (fun _ => 0) s.net.gseq g

/-- A collective from its descriptor and member table. -/
def collOf (s : State) (ch : Nat) (c : Cmd) (bs tab : List Byte) : Coll :=
  let g := fieldLe bs 4 1 % 64
  { g := g, ch := ch, seq := c.seq, cseq := gseqOf s g, op := fieldLe bs 0 1 % 16, rop := fieldLe bs 0 1 / 16, dtype := fieldLe bs 1 1 % 16,
    xrmode := fieldLe bs 1 1 / 16 % 4, expGiven := bitN (fieldLe bs 1 1) 6, fixedExp := signedN 16 (fieldLe bs 2 2), count := fieldLe bs 8 4,
    root := fieldLe bs 12 4, rank := s.getObj (Obj.gRank g), src := BitVec.ofNat 64 (fieldLe bs 16 8), dst := BitVec.ofNat 64 (fieldLe bs 24 8),
    stepElems := if fieldLe bs 32 4 = 0 then 1048576 else fieldLe bs 32 4, flag := BitVec.ofNat 64 (fieldLe bs 40 8),
    flagValue := BitVec.ofNat 64 (fieldLe bs 48 8),
    ring := bitN (fieldLe bs 1 1) 7, heads := true, members := tableMembers tab }

/-- The pieces of a range, cut at sectors: address and length. -/
def rangePieces : Nat → Nat → Nat → List (Nat × Nat)
  | 0, _, _ => []
  | k + 1, a, n => if n = 0 then [] else (a, min n (sectLeft a)) :: rangePieces k (a + min n (sectLeft a)) (n - min n (sectLeft a))

/-- Pieces of the slice's memory that hold anything afterwards: each as it was or free bytes, by a free choice. -/
def scrambleSpan (n : Nat) : List (Nat × Nat) → State → State
  | [], s => s
  | p :: ps, s =>
    let put := s.freeVal % 2
    let s := s.useFree 1
    let s := if put = 0 then s else match spanOk s n 2 p.1 p.2 true with
      | .ok () =>
        let (s, bs) := freeBytes s p.2
        (writeRun s n 2 p.1 bs).1
      | .error _ => s
    scrambleSpan n ps s

/-- The member's own DST range in bytes, as its OP, DTYPE and COUNT give it. -/
def ownRange (x : Coll) : Nat := collTotal x * collSize x.dtype

/-- Unpredictable results of a collective under the bound of R350: its own DST range and FLAG hold anything, and it completes with any
outcome. -/
def collAny (s : State) (x : Coll) (c : Cmd) : State :=
  let n := chSliceOf s x.ch
  let s := scrambleSpan n (rangePieces (ownRange x / 64 + 2) x.dst.toNat (ownRange x)) s
  let s := if x.flag = 0 then s else scrambleSpan n [(x.flag.toNat, 8)] s
  endColl (s.useFree 3) x c (anyFinal s.free)

/-- A COLLECTIVE of an operation: refused by its group slot (R347), unpredictable by its descriptor, or started; a slot with a
collective in flight is waited for. -/
def collective (op : Nat) (r : CmdRef) (s : State) : Res :=
  withCmd [0x08] r s fun c =>
    let n := chSliceOf s r.ch
    match s.net.colls.find? fun x => x.ch == r.ch && x.seq == r.seq with
    | some x => if x.op ≠ op then .refused .illFormed else if op = 6 ∧ x.step = 1 then collTail s x c
      else if op = 6 then barrierTry s (barrierId x) x.cseq else collAdvance s x.g
    | none =>
      if c.res || c.schedReserved || c.ext != 0 || (c.slot.drop 24).any (· != 0) || c.field 16 8 % 64 != 0 then .next (cmdAny s r.ch c)
      else match readRunAs .sectors (.cmd r.ch r.seq) s n 2 (c.field 16 8) 64 with
        | .error e => cmdStop s r.ch c 0 e
        | .ok (s, bs) =>
          let g := fieldLe bs 4 1 % 64
          let size := s.getObj (Obj.gSize g)
          if s.getObj (Obj.gSlice g) ≠ n ∨ size = 0 ∨ size ≤ s.getObj (Obj.gRank g) then .next (endCmd s r.ch c { status := stRefused })
          else if collBad bs then .next (cmdAny s r.ch c)
          else if fieldLe bs 0 1 % 16 ≠ op then .refused .illFormed
          else if collLoose bs size then .next (collAny s { collOf s r.ch c bs [] with members := List.replicate size (0, 0) } c)
          else if s.getObj (Obj.gBusy g) = 1 then .next s
          else match readRunAs .sectors (.cmd r.ch r.seq) s n 2 (s.getObj (Obj.gTable g)) (4 * size) with
            | .error e => cmdStop s r.ch c 0 e
            | .ok (s, tab) =>
              if tableBad tab then .next (cmdAny s r.ch c)
              else
              let x := collOf s r.ch c bs tab
              let x := { x with heads := !(twoPass s x) }
              let s := { s with net := { s.net with gseq := sput (fun _ => 0) s.net.gseq g (x.cseq + 1) } }
              let s := (s.setColl x).putObj (Obj.gBusy g) 1
              if op = 6 then barrierTry s (barrierId x) x.cseq else collAdvance s g

/-- ALL_REDUCE (R346, R348, R350). -/
def execAllReduce (r : CmdRef) (s : State) : Res := collective 0 r s

/-- REDUCE (R346, R348, R350). -/
def execReduceCmd (r : CmdRef) (s : State) : Res := collective 1 r s

/-- BROADCAST (R346, R348). -/
def execBroadcastCmd (r : CmdRef) (s : State) : Res := collective 2 r s

/-- REDUCE_SCATTER (R346, R348, R350). -/
def execReduceScatter (r : CmdRef) (s : State) : Res := collective 3 r s

/-- ALL_GATHER (R346, R348). -/
def execAllGather (r : CmdRef) (s : State) : Res := collective 4 r s

/-- ALL_TO_ALL (R346, R348). -/
def execAllToAll (r : CmdRef) (s : State) : Res := collective 5 r s

/-- BARRIER (R338, R346). -/
def execBarrierCmd (r : CmdRef) (s : State) : Res := collective 6 r s

/-! ### Steps start, waits expire, steps are stopped -/

/-- First byte of DST of the step. -/
def stepAddr (x : Coll) : Nat := (x.dst.toNat + stepLo x x.step * collSize x.dtype) % 2 ^ 64

/-- A step whose contributions `cs` are there: its final values written, its own contributions gone, the next step to follow; none where the
contributions do not agree. -/
def stepWrite (s : State) (x : Coll) (c : Cmd) (cs : List (Nat × List Byte)) : Except Stop (Option State) :=
  let n := chSliceOf s x.ch
  let len := (stepHi x x.step - stepLo x x.step) * collSize x.dtype
  match stepResult s x cs with
  | none => .ok none
  | some bs => match spanOkBy (.cmd x.ch x.seq) s n 2 (stepAddr x) len true with
    | .error e => .error e
    | .ok () =>
      let s := served (writeRunAs .sectors none (.cmd x.ch x.seq) s n 2 (stepAddr x) bs).1 (.cmd x.ch x.seq)
      let s := putFlight s x.ch { c with done := c.done + len }
      let mine (d : Contribution) : Bool := d.group == groupNo x.members && d.dst == x.rank && d.cseq == x.cseq && d.step == x.step
      .ok (some (nextStep { s with net := { s.net with contribs := s.net.contribs.filter fun d => !(mine d) } } x))

/-- Whether the step of a collective has started: every contribution is there, and nothing of it has ended yet (R348). -/
def stepGoing (s : State) (x : Coll) : Option (List (Nat × List Byte)) :=
  if x.op != 6 && x.sent && !(sendsOnly x) && decide (x.step < collSteps x) then gathered s x else none

/-- COLLECTIVE_STEP_START (R348): every contribution is there; the final values are written, the next step follows. Contributions that
do not agree are unpredictable within the bound of R350. -/
def execCollectiveStepStart (g : Nat) (s : State) : Res :=
  withSome s (s.coll? g) "collective" fun x =>
    onlyIf s (x.op != 6 && x.sent && !(sendsOnly x) && decide (x.step < collSteps x)) "step" <|
      withSome s (findFlight s x.ch x.seq) "command" fun c =>
        withSome s (gathered s x) "contributions" fun cs =>
          match stepWrite s x c cs with
          | .error e => collStop s x c e
          | .ok none => .next (collAny s x c)
          | .ok (some s) => collAdvance s g

/-- COLLECTIVE_WAIT_EXPIRY (R348): COLL_WAIT ticks in one step; 0 is unbounded. -/
def execCollectiveWaitExpiry (g : Nat) (s : State) : Res :=
  withSome s (s.coll? g) "collective" fun x =>
    onlyIf s (s.getObj Obj.collWait != 0 && decide (s.getObj Obj.collWait ≤ x.ticks)) "expired wait" <|
      withSome s (findFlight s x.ch x.seq) "command" fun c =>
        if c.final.isSome then .next s else .next (endColl s x c { status := stRemoteLost, bytes := c.done })

/-- The sectors of a run of bytes: address and bytes of each piece. -/
def sectorPieces : Nat → Nat → List Byte → List (Nat × List Byte)
  | 0, _, _ => []
  | k + 1, a, bs => if bs.isEmpty then [] else (a, bs.take (sectLeft a)) :: sectorPieces k (a + sectLeft a) (bs.drop (sectLeft a))

/-- R349: a step that had started is stopped; each sector of its range holds its old or its final value, by a free choice. -/
def settleStep (s : State) (x : Coll) : State :=
  if x.op = 6 ∨ !x.sent ∨ sendsOnly x ∨ collSteps x ≤ x.step then s
  else match gathered s x with
    | none => s
    | some cs => match stepResult s x cs with
      | none => s
      | some bs => (sectorPieces (bs.length + 1) (stepAddr x) bs).foldl (fun s p =>
        let put := s.freeVal % 2
        let s := s.useFree 1
        if put = 0 then s else (writeRun s (chSliceOf s x.ch) 2 p.1 p.2).1) s

/-- A collective is stopped with a status (R282, R311, R349). -/
def stopColl (s : State) (x : Coll) (st : Nat) : State :=
  match findFlight s x.ch x.seq with
  | none => s
  | some c => if c.final.isSome then s else endColl (settleStep s x) x c { status := st, bytes := c.done }

/-- OVERRUN_STOP (R282): the command completes OVERRUN, its debt is cleared. -/
def execOverrunStop (r : CmdRef) (s : State) : Res :=
  withSome s (findFlight s r.ch r.seq) "command in flight" fun c =>
    onlyIf s (c.final.isNone && overrunDue s r.ch c) "overrun" <|
      let n := chSliceOf s r.ch
      let mine (l : Launch) : Bool := l.ch == r.ch && l.seq == r.seq
      let s := (s.launches.filter mine).foldl clearDebt (s.addObj (Obj.overruns n) 1)
      let s := { s with launches := mapIf mine (fun l => { l with overAt := none, overrun := 0 }) s.launches }
      .next (match s.net.colls.find? fun x => x.ch == r.ch && x.seq == r.seq with
        | some x => stopColl s x stOverrun
        | none => stopCommand s r.ch c stOverrun)

end Sys2Proof.Machine
end

