-- ==== Sys2Proof/Machine/Draft.lean ====
section
/-! DEFINITION. Draft.lean: the draft frames (R335 to R338, Tables 11.7 and 11.8): their order on a link and its repair, discovery and
the system tree (R332, R342 to R345), time alignment (R260, R263, R264, R339), votes, barriers, the period, rollbacks and lost
modules (R265, R283, R338, R370, R372, R500), parity after a bank point (R367), BANK (R366), and the ports' going down and coming up
(R333, R334, R470). -/

namespace Sys2Proof.Machine

/-! ### Floods -/

/-- A flooded frame has come in: whether it is new. A copy of one that came by another port before is not (log 54). -/
def newFlood (s : State) (q kind : Nat) (f : DraftFrame) : State × Bool :=
  let args := [f.origin, f.arg0, f.arg1, f.arg2, f.arg3]
  let put (ps : List Nat) : State :=
    { s with net := { s.net with floods := s.net.floods.filter (fun x => !(x.kind == kind && x.args == args)) ++ [{ kind := kind, args := args, ports := ps }] } }
  match s.net.floods.find? fun x => x.kind == kind && x.args == args with
  | some x => if x.ports.contains q then (put [q], true) else (put (x.ports ++ [q]), false)
  | none => (put [q], true)

/-- A frame with one hop more (Table 11.7). -/
def hopped (f : DraftFrame) : DraftFrame := { f with hops := min 255 (f.hops + 1) }

/-! ### Discovery (R332, R342 to R345) -/

/-- Whether the module takes part in discovery (R342). -/
def takesPart (s : State) : Bool := decide (s.ownId < 2 ^ 18)

/-- Order of root candidates: rank, then module ID (R342). -/
def betterRoot (a b : Nat × Nat) : Bool := decide (a.1 < b.1) || (a.1 == b.1 && decide (a.2 < b.2))

/-- HELLO on a port. -/
def sendHello (s : State) (q : Nat) : State :=
  let s := s.setPort { (s.port q) with hello := true }
  sendDraft s q 0x01 { seq := 0, origin := s.ownId, arg0 := s.forced Obj.rootRank, arg1 := s.getObj Obj.myDepth, arg2 := q }

/-- ELECT on every link. -/
def sendElect (s : State) (best : Nat × Nat) (hops : Nat) (but : Option Nat) : State :=
  sendAll s 0x02 { hops := hops, seq := 0, origin := s.ownId, arg0 := best.1, arg1 := best.2 } ((livePorts s).filter fun q => some q != but)

/-- Step 3 begins: the module's best is itself, and it floods it. -/
def startElect (s : State) : State :=
  let best := (s.forced Obj.rootRank, s.ownId)
  let s := { s with net := { s.net with best := some best, below := [], tree := [] } }
  sendElect (s.putObj Obj.discState 3) best 0 none

/-- The NEIGHBOUR object of a logical port. Whether a neighbour that is new is directly attached or beyond a switch no frame tells: it is free,
and one for the port (log 57). -/
def putNeighbour (s : State) (q : Nat) (m : Option Nat) : State :=
  let p := s.port q
  let same := m.isNone || p.neighbour == m
  let s := (if same then s else s.useFree 1).setPort { p with neighbour := m, direct := if same then p.direct else s.freeVal % 2 == 1 }
  s.putObj (Obj.neighbour (q / 4) (q % 4)) (m.getD 0xFFFFFFFF)

/-- Step 2 of discovery begins. -/
def beginHello (s : State) : State := ({ s with net := { s.net with helloAt := s.now } }).putObj Obj.discState 2

/-- Step 2 ends: HELLO has come in on every port that is up, or its 10 ms have passed, since a port may lead to no module (Table 11.10). -/
def helloOver (s : State) : Bool :=
  s.net.ports.all (fun p => !p.up || p.neighbour.isSome) || decide (s.net.helloAt + 10000000 ≤ s.now)

/-- Whether discovery goes on from step 2 with no further frame. -/
def helloExpired (s : State) : Bool :=
  s.getObj Obj.moduleState == 4 && s.getObj Obj.discState == 2 && s.getObj Obj.dupId != 1 && decide (s.ownId < 2 ^ 18) &&
    decide (s.net.helloAt + 10000000 ≤ s.now)

/-- The candidates for parent among the neighbours: (depth, module). Of those no descendant of the module is one (R345). -/
def parentChoices (s : State) : List (Nat × Nat) :=
  (s.net.ports.filter fun p => p.up && !p.child && decide (p.depth < 65535)).filterMap fun p =>
    (p.neighbour.filter fun m => !(s.net.below.contains m)).map fun m => (p.depth, m)

/-- An ASSIGN record shows where a module stands in the tree: below this one where its parent is this one or stands below it. -/
def noteBelow (s : State) (m parent : Nat) : State :=
  let rest := s.net.below.filter fun x => x != m
  { s with net := { s.net with below := if parent = s.ownId ∨ s.net.below.contains parent then rest ++ [m] else rest } }

/-- The neighbour of lowest depth, among equals of lowest ID, becomes parent (R332). -/
def chooseParent (s : State) : State :=
  match sortBy (fun (a b : Nat × Nat) => decide (a.1 < b.1 ∨ (a.1 = b.1 ∧ a.2 < b.2))) (parentChoices s) with
  | [] => ({ s with net := { s.net with parent := none } }).putObj Obj.parentPort 0xFF
  | (_, m) :: _ =>
    let s := { s with net := { s.net with parent := some m } }
    s.putObj Obj.parentPort ((upPort s).getD 0xFF)

/-- An ASSIGN record of the root (Table 11.8). -/
def assignFrame (root m depth parent ring size : Nat) : DraftFrame :=
  { seq := 0, origin := root, arg0 := m, arg1 := depth % 2 ^ 16 + parent * 2 ^ 16, arg2 := ring, arg3 := size }

/-- The depth of a module is known at the ports that lead to it (R345). -/
def noteDepth (s : State) (m depth : Nat) : State :=
  { s with net := { s.net with ports := mapIf (fun p => p.neighbour == some m) (fun p => { p with depth := depth }) s.net.ports } }

/-- The tree as known grows by a module (R332): TREE_DEPTH and DIAMETER follow. -/
def growTree (s : State) (m depth parent : Nat) : State :=
  let t := s.net.tree.filter (fun r => r.1 != m) ++ [(m, depth, parent)]
  let s := noteDepth { s with net := { s.net with tree := t } } m depth
  (s.putObj Obj.treeDepth (depthOf t)).putObj Obj.diameter (treeDiameter t)

/-- A neighbour becomes a child in the system tree. -/
def markChild (s : State) (m : Nat) : State :=
  { s with net := { s.net with ports := s.net.ports.map fun p => if p.neighbour == some m then { p with child := true } else p } }

/-- A member that was waited for is back: with its memory intact where its HELLO names a depth, else its lock sets end (R372, R377;
log 56). -/
def rejoin (s : State) (m : Nat) (intact : Bool) : State :=
  (enabledSets s).foldl (fun s k =>
    if (s.lockSet k).waitMember != some m then s
    else if intact then updSet s k fun x => { x with waitMember := none } else failLockSet s k) { s with net := { s.net with lost := s.net.lost.filter fun x => x != m } }

/-- HELLO reaches the module (R342, R344, R474). A neighbour that names a depth is JOINED, so that the root has finished its stream: the module
is a late joiner and no election follows. -/
def actHello (s : State) (q : Nat) (f : DraftFrame) : State :=
  let st := s.getObj Obj.moduleState
  if st < 4 then { s with boot := { s.boot with heldHello := s.boot.heldHello ++ [(q, f)] } }
  else if st = 6 ∨ !(takesPart s) then s
  else if f.origin = s.ownId then s.putObj Obj.dupId 1
  else
    let s := putNeighbour s q (some f.origin)
    let s := s.setPort { (s.port q) with depth := f.arg1 % 2 ^ 16 }
    let s := rejoin s f.origin (f.arg1 != 0xFFFF)
    let s := if (s.port q).hello then s else sendHello s q
    if st = 5 then
      if s.getObj Obj.rootId = s.ownId ∧ f.arg1 = 0xFFFF ∧ !(s.port q).child then
        let n := s.getObj Obj.systemSize
        let s := growTree ((markChild s f.origin).putObj Obj.systemSize (n + 1)) f.origin 1 s.ownId
        downDraft s 0x03 (assignFrame s.ownId f.origin 1 s.ownId n (n + 1))
      else s
    else if s.getObj Obj.dupId = 1 then s
    else if f.arg1 ≠ 0xFFFF then
      (if 2 ≤ s.getObj Obj.discState ∧ s.getObj Obj.discState ≤ 4 then ({ (chooseParent s) with net := { (chooseParent s).net with best := none } }).putObj Obj.discState 4 else s)
    else if s.getObj Obj.discState = 2 ∧ helloOver s then startElect s
    else s

/-- ELECT reaches the module: an improvement on its best is taken and passed on (R343). -/
def actElect (s : State) (q : Nat) (f : DraftFrame) : State :=
  let d := s.getObj Obj.discState
  if !(takesPart s) ∨ s.getObj Obj.dupId = 1 ∨ !(d = 2 ∨ d = 3) then s
  else
    let s := if d = 2 then startElect s else s
    let mine := s.net.best.getD (s.forced Obj.rootRank, s.ownId)
    let it := (f.arg0, f.arg1)
    if betterRoot it mine then sendElect { s with net := { s.net with best := some it } } it (hopped f).hops (some q) else s

/-- The route entry of a module (Table 11.6). -/
def routeEntry (primary : Nat) (pd : Bool) (alt : Option (Nat × Bool)) (next hops : Nat) : Nat :=
  primary + 64 + (if pd then 128 else 0) + (match alt with
    | some (a, ad) => 256 * a + 2 ^ 14 + (if ad then 2 ^ 15 else 0)
    | none => 0) + 2 ^ 16 * next + 2 ^ 34 * hops

/-- Writing a route entry; UNREACHABLE follows where an entry gains or loses its route. -/
def putRoute (s : State) (m e : Nat) : State :=
  let had := s.net.routes.any fun r => r.1 == m && (bitN r.2 6 || bitN r.2 14)
  let known := s.net.routes.any fun r => r.1 == m
  let has := bitN e 6 || bitN e 14
  let s := if had && !has then s.addObj Obj.unreachable 1 else if known && !had && has then s.subObj Obj.unreachable 1 else s
  { s with net := { s.net with routes := sput (fun _ => 0) s.net.routes m e } }

/-- A port of a list by a free choice, or none where there is none or no further disjoint route. -/
def freePort (s : State) (ps : List Nat) (which : Nat) (may : Bool) : Option (Nat × Bool) :=
  if ps.isEmpty || !may then none
  else
    let a := ps.getD (which % ps.length) 0
    some (a, (s.port a).direct)

/-- A route that discovery fills in (R333). To a neighbour: its lowest links; with one alone the alternate leads over another neighbour, where
a route does. To another module the links beyond the neighbours are not in this module, so ports, hops and whether a disjoint route is there
are free (log 57). -/
def discoverRoute (s : State) (m : Nat) : State :=
  if m = s.ownId then s
  else
    let k := s.free
    let s := s.useFree 4
    let fr (i : Nat) : Nat := Config.freeNat (k + i)
    let to_ (q : Nat) : Bool := (s.port q).neighbour == some m
    let ports := sortBy (fun (a b : Nat) => decide (a < b)) (livePorts s)
    match ports.filter to_ with
    | p :: a :: _ => putRoute s m (routeEntry p (s.port p).direct (some (a, (s.port a).direct)) m 1)
    | [p] => putRoute s m (routeEntry p (s.port p).direct (freePort s (ports.filter fun q => !(to_ q)) (fr 0) (bitN (fr 1) 0)) m 1)
    | [] => match ports with
      | [] => s
      | ps =>
        let p := ps.getD (fr 2 % ps.length) 0
        let alt := freePort s (ps.filter fun a => a != p) (fr 0) (bitN (fr 1) 0)
        putRoute s m (routeEntry p (s.port p).direct alt (((s.port p).neighbour).getD 0) (2 + fr 3 % 2 ^ 14))

/-- The tick numbers, the start of the current tick and the period that the root's stream sets; no frame of Table 11.8 has a field
for them, so they are free within R261 (log 58). -/
def freeTicks (s : State) (late : Bool) : State :=
  let k := s.free
  let s := s.useFree 3
  let s := { s with net := { s.net with period := [], eras := [] } }
  let s := s.putObj Obj.tickNumber (if late then Config.freeNat (k + 2) % 2 ^ 48 else 0)
  (s.putObj Obj.tickStart (Config.freeNat k % 2 ^ 64)).putObj Obj.tickPeriod (50 + Config.freeNat (k + 1) % 999951)

/-- The tree as a late joiner knows it from its own record alone: TREE_DEPTH and DIAMETER are free within what its size and depth allow
(R344, log 58). -/
def lateTree (s : State) (depth size : Nat) : State :=
  let td := depth + s.freeVal % (size + 1)
  let dia := td + (s.useFree 1).freeVal % (td + 1)
  (((s.useFree 2).putObj Obj.treeDepth td).putObj Obj.diameter dia)

/-- The tree grows by an ASSIGN record: a first record of a root begins it with the root; a late joiner's is not known. -/
def assignTree (s : State) (root m depth parent size : Nat) (late : Bool) : State :=
  if late then lateTree s depth size
  else
    let s := if s.net.tree.head? = some (root, 0, root) then s else growTree { s with net := { s.net with tree := [] } } root 0 root
    growTree s m depth parent

/-- ASSIGN reaches the module: its own record gives depth, parent, ring position and system size; every record counts its module and
goes on down (R343, R344). A late joiner that has its place says HELLO to neighbours without one. -/
def actAssign (s : State) (q : Nat) (f : DraftFrame) : State :=
  if s.getObj Obj.dupId = 1 ∨ !(takesPart s) ∨ s.getObj Obj.discState < 2 then s
  else
    let depth := f.arg1 % 2 ^ 16
    let parent := f.arg1 / 2 ^ 16 % 2 ^ 18
    let late := decide (s.getObj Obj.discState = 4) || (s.net.tree.isEmpty && decide (5 ≤ s.getObj Obj.discState))
    let s := assignTree (s.putObj Obj.systemSize f.arg3) f.origin f.arg0 depth parent f.arg3 late
    let s :=
      if f.arg0 = s.ownId then
        let s := (s.putObj Obj.rootId f.origin).putObj Obj.myDepth depth
        let s := { s with net := { s.net with parent := some parent, ringPos := f.arg2 } }
        let s := s.putObj Obj.parentPort (firstPort s q)
        let s := if s.getObj Obj.moduleState = 5 then s else freeTicks s late
        let s := if late then ((s.net.ports.filter fun p => p.up && p.neighbour.isSome && p.depth == 65535).map (·.q)).foldl sendHello s else s
        discoverRoute (s.putObj Obj.discState 5) f.origin
      else discoverRoute (noteBelow (if parent = s.ownId then markChild s f.arg0 else s) f.arg0 parent) f.arg0
    downDraft s 0x03 (hopped f)

/-! ### Time alignment (R260, R263, R264, R339) -/

/-- A LOCKED module that has lost every time neighbour enters HOLDOVER and keeps its last correction (Table 9.1). -/
def noteHoldover (s : State) : State :=
  if s.getObj Obj.alignState = 1 ∧ (livePorts s).isEmpty then
    { (s.putObj Obj.alignState 2) with net := { s.net with holdSince := s.now } }
  else s

/-- ALIGN on a port: the time of sending, of the last reception, and what lies between; both 0 before the first reception. -/
def sendAlign (s : State) (q : Nat) : State :=
  let p := s.port q
  let s := s.setPort { p with alignTx := (s.now :: p.alignTx).take 64 }
  sendDraft s q 0x04 { seq := 0, origin := s.ownId, arg0 := s.now, arg1 := p.alignRx.getD 0, arg2 := (p.alignRx.map fun t => s.now - t).getD 0 }

/-- The sending time of the ALIGN that a neighbour's ALIGN answers: of those that could have come before the neighbour's turnaround began,
the last (log 120); none where the neighbour has received none. -/
def alignAnswered (p : Port) (now turnaround : Nat) : Option Nat := p.alignTx.find? fun t => decide (t + turnaround ≤ now)

/-- Device time is set (R260): times of ALIGN frames taken before do not count any more. -/
def setTime (s : State) (t : Nat) : State :=
  let s := s.putObj Obj.deviceTime (t % 2 ^ 64)
  { s with net := { s.net with timeSet := true, ports := s.net.ports.map fun p => { p with alignTx := [], alignRx := none } } }

/-- ALIGN reaches the module: the offset to the neighbour and the delay of the link by the four times, asymmetry taken as zero. The
parent's offset sets device time once before JOINED, and is slewed away afterwards; the largest offset is reported. -/
def actAlign (s : State) (q : Nat) (f : DraftFrame) : State :=
  let p := s.port q
  let t4 : Int := s.now
  let s := s.setPort { p with alignRx := some s.now }
  let s := match (if f.arg1 = 0 then none else alignAnswered p s.now f.arg2) with
    | none => s
    | some t1 =>
      let off := (((f.arg1 : Int) - t1) + ((f.arg0 : Int) - t4)) / 2
      let delay := (s.now - t1 - f.arg2) / 2
      let s := s.setPort { p with alignRx := some s.now, alignTx := p.alignTx.filter fun t => decide (t1 ≤ t), offset := off, rtt := some (2 * delay) }
      let s := s.putObj (Obj.draftHopNs (q / 4)) (delay % 2 ^ 16)
      let s :=
        if p.neighbour.isNone ∨ p.neighbour != s.net.parent then s
        else if s.getObj Obj.moduleState ≠ 5 ∧ !s.net.timeSet then setTime s (t4 + off).toNat
        else { s with net := { s.net with slew := off } }
      let big := (s.net.ports.filter fun p => p.up && p.neighbour.isSome).foldl (fun (m : Int) p => if m.natAbs < p.offset.natAbs then p.offset else m) 0
      s.putObj Obj.alignOffset ((big % 2 ^ 32).toNat)
  noteHoldover s

/-- Whether the module's best candidate in an election is itself. -/
def candidate (s : State) : Bool := match s.net.best with
  | some b => b.2 == s.ownId
  | none => false

/-- Whether the module has been elected root. -/
def isRoot (s : State) : Bool := s.getObj Obj.rootId == s.ownId

/-- A free subtree in depth-first order below a module: at each try as many levels up from the last module as is free, then a free module, which
joins where no module has its ID and it follows its siblings. `up`: the modules from the last one upward to the neighbour of the root, each with
its depth and the least ID that a further child may have. -/
def freeSubtree : Nat → List (Nat × Nat × Nat) → List (Nat × Nat × Nat) → State → State × List (Nat × Nat × Nat)
  | 0, _, t, s => (s, t)
  | n + 1, up, t, s =>
    let m := (s.useFree 1).freeVal % 2 ^ 18
    match up.drop (s.freeVal % max 1 up.length) with
    | [] => (s, t)
    | (x, d, lo) :: above =>
      if m < lo ∨ t.any fun r => r.1 == m then freeSubtree n up t (s.useFree 2)
      else freeSubtree n ((m, d + 1, 0) :: (x, d, m + 1) :: above) (t ++ [(m, d + 1, x)]) (s.useFree 2)

/-- The tree of a root over its neighbours, in ring order (R332): each of them, in ascending ID, followed by what stands below it. What
lies beyond the neighbours is in no frame, so it is free (log 58). -/
def freeTree (near : List Nat) : List Nat → List (Nat × Nat × Nat) → State → State × List (Nat × Nat × Nat)
  | [], t, s => (s, t)
  | m :: ms, t, s =>
    let n := s.freeVal % 2 ^ 18
    let taken := near.map fun x => (x, 0, 0)
    let (s, sub) := freeSubtree n [(m, 1, 0)] (taken ++ t ++ [(m, 1, s.ownId)]) (s.useFree 1)
    freeTree near ms (sub.drop taken.length) s

/-- The root ends discovery for itself and streams the ASSIGN records of the tree down it, in ring order (R343). The time of tick 0 is free
(log 58). -/
def rootAssign (s : State) : State :=
  let near := sortBy (fun (a b : Nat) => decide (a < b)) ((livePorts s).foldl (fun l q => match (s.port q).neighbour with
    | some m => addNew m l
    | none => l) [])
  let (s, t) := freeTree near near [(s.ownId, 0, s.ownId)] s
  let start := s.freeVal
  let s := s.useFree 1
  let first := s.getObj Obj.moduleState ≠ 5
  let s := ((s.putObj Obj.rootId s.ownId).putObj Obj.myDepth 0).putObj Obj.parentPort 0xFF
  let s := ((s.putObj Obj.systemSize t.length).putObj Obj.treeDepth (depthOf t)).putObj Obj.diameter (treeDiameter t)
  let s := { s with net := { s.net with parent := none, ringPos := 0, tree := t, slew := 0, slewWait := 0, timeSet := true } }
  let s := match s.net.ptp with
    | some off => if first then (setTime s ((s.now : Int) + off).toNat).putObj Obj.ptpOffset 0 else s
    | none => s
  let s := if first then { s with net := { s.net with period := [], eras := [] } } else s
  let s := if first then ((s.putObj Obj.tickNumber 0).putObj Obj.tickStart (s.now + start % 2 ^ 32)).putObj Obj.tickPeriod (s.getObj Obj.periodDefault) else s
  let s := near.foldl markChild s
  let s := (t.drop 1).foldl (fun s r => discoverRoute (noteDepth s r.1 r.2.1) r.1) s
  ((t.zipIdx).drop 1).foldl (fun s r => downDraft s 0x03 (assignFrame s.ownId r.1.1 r.1.2.1 r.1.2.2 r.2 t.length)) s

/-- A late joiner below another module may have come (R344): how the root hears of it is in no frame, so whether, which and where is free
(log 58). It takes the next free ring position. -/
def lateJoin (s : State) : State :=
  let k := s.free
  let t := s.net.tree
  let m := Config.freeNat (k + 1) % 2 ^ 18
  match t[1 + Config.freeNat (k + 2) % (t.length - 1)]? with
  | none => s
  | some p =>
    let s := s.useFree 3
    if Config.freeNat k % 2 = 0 ∨ (t.any fun r => r.1 == m) then s
    else
      let n := s.getObj Obj.systemSize
      let s := discoverRoute (growTree (s.putObj Obj.systemSize (n + 1)) m (p.2.1 + 1) p.1) m
      downDraft s 0x03 (assignFrame s.ownId m (p.2.1 + 1) p.1 n (n + 1))

/-- JOINED_ENTRY (R263, R343, R344): alignment has converged; the module is LOCKED and JOINED. The root ends its election here. -/
def execJoinedEntry (s : State) : Res :=
  let d := s.getObj Obj.discState
  let st := s.getObj Obj.moduleState
  onlyIf s (takesPart s && s.getObj Obj.dupId != 1 && (st == 4 || st == 5) &&
      (d == 5 || (d == 3 && candidate s) || (d == 6 && s.getObj Obj.alignState != 1 && (isRoot s || (upPort s).isSome)))) "converged alignment" <|
    let s := if d = 3 then rootAssign s else s
    let s := ((s.putObj Obj.alignState 1).putObj Obj.discState 6).putObj Obj.moduleState 5
    .next (if isRoot s then s else noteHoldover s)

/-- ALIGN_EXCHANGE (R339): from READY_LOCAL on, to every neighbour. With it the root takes in late joiners. -/
def execAlignExchange (s : State) : Res :=
  let st := s.getObj Obj.moduleState
  onlyIf s (st == 4 || st == 5) "alignment" <|
    let s := (livePorts s).foldl sendAlign s
    .next (if st = 5 ∧ isRoot s then lateJoin s else s)

/-- HOLDOVER_EXPIRY (R264): FREE; the lock sets with a channel here take the module as lost. -/
def execHoldoverExpiry (s : State) : Res :=
  onlyIf s (s.getObj Obj.alignState == 2 && decide (s.net.holdSince + 1000 * s.getObj Obj.holdoverLimit < s.now)) "expired holdover" <|
    let s := (s.putObj Obj.alignState 0).addObj Obj.alignLosses 1
    .next ((enabledSets s).foldl (originate · 0x04 ·) (if (enabledSets s).isEmpty then s else floodLost s s.ownId))

/-! ### Lost modules (R345, R500) -/

/-- What a module's loss does here. Whether it is a member of a lock set is in no object, so that is free (log 46); whether this part
holds more than half of the system is free as well. -/
def moduleLost (s : State) (m : Nat) : State :=
  let s := { s with net := { s.net with lost := addNew m s.net.lost } }
  let s := (enabledSets s).foldl (fun s k =>
    let member := s.freeVal % 2
    let s := s.useFree 1
    if member = 0 then s
    else
      let s := originate s 0x04 k
      if s.getObj (Obj.lsFailed k) = 1 then s else updSet s k fun x => { x with waitMember := some m }) s
  if s.getObj Obj.rootId = m ∧ s.getObj Obj.moduleState = 5 then
    let more := s.freeVal % 2
    let s := s.useFree 1
    if more = 0 then s
    else
      let s := s.addObj Obj.reelections 1
      let locked := s.getObj Obj.alignState = 1
      let s := { (if locked then s.putObj Obj.alignState 2 else s) with net := { s.net with
        holdSince := if locked then s.now else s.net.holdSince, parent := none, ports := s.net.ports.map fun p => { p with child := false } } }
      startElect s
  else s

/-- LOST reaches the module (R500). -/
def actLost (s : State) (q : Nat) (f : DraftFrame) : State :=
  match newFlood s q 0x0B f with
  | (s, false) => s
  | (s, true) => moduleLost (floodDraft s 0x0B (hopped f) (some q)) f.arg0

/-- NEIGHBOUR_LOSS (R345, R500): no draft frame of the neighbour for 300 µs on any link, or every link down. -/
def execNeighbourLoss (q : Nat) (s : State) : Res :=
  withSome s (s.port q).neighbour "neighbour" fun m =>
    let links := (s.net.ports.filter fun p => p.neighbour == some m).map (·.q)
    let parent := s.net.parent == some m
    let s := links.foldl (fun s q => putNeighbour (s.setPort { (s.port q) with child := false, depth := 65535, hello := false }) q none) s
    let s := floodLost s m
    let s := if parent then chooseParent s else s
    let s := match parent, s.net.parent with
      | true, some p => s.putObj Obj.myDepth (1 + ((s.net.ports.filter fun x => x.neighbour == some p).foldl (fun d x => min d x.depth) 65534))
      | _, _ => s
    .next (noteHoldover (moduleLost s m))

/-! ### Votes, barriers, period, rollback -/

/-- VOTE from a child (R283, R338). -/
def actVote (s : State) (q : Nat) (f : DraftFrame) : State :=
  let v := frameVote (firstPort s q) f
  if v.boundary ≤ s.tick then s
  else match slotOfId s f.arg0 with
  | some k => tryVotes (updSet s k fun x => { x with votes := x.votes.filter (fun w => !(w.port == v.port && w.boundary == v.boundary)) ++ [v] }) k
  | none => relayVote s f.arg0 v

/-- OUTCOME from the parent. -/
def actOutcome (s : State) (q : Nat) (f : DraftFrame) : State := takeOutcome s f.arg0 (frameVote q f)

/-- BARRIER_UP from a child. -/
def actBarrierUp (s : State) (q : Nat) (f : DraftFrame) : Res :=
  barrierTry { s with net := { s.net with barriers := addNew (f.arg0, f.arg1, firstPort s q) s.net.barriers } } f.arg0 f.arg1

/-- BARRIER_DOWN from the parent. -/
def actBarrierDown (s : State) (f : DraftFrame) : Res := barrierDone s f.arg0 f.arg1

/-- A change of the period that has been flooded is pending for its tick, with the value that was flooded (R261, R265). -/
def pendPeriod (s : State) (p tick : Nat) : State :=
  if p < 50 ∨ 1000000 < p then s
  else
    let l := (s.net.period.filter fun x => x.1 != tick) ++ [(tick, p)]
    { s with net := { s.net with period := sortBy (fun (a b : Nat × Nat) => decide (a.1 < b.1)) l } }

/-- PERIOD (R265). -/
def actPeriod (s : State) (q : Nat) (f : DraftFrame) : State :=
  match newFlood s q 0x09 f with
  | (s, false) => s
  | (s, true) =>
    floodDraft (pendPeriod s f.arg0 f.arg1) 0x09 (hopped f) (some q)

/-- ROLLBACK (R370, R371). -/
def actRollback (s : State) (q : Nat) (f : DraftFrame) : State :=
  match newFlood s q 0x0A f with
  | (s, false) => s
  | (s, true) =>
    let s := floodDraft s 0x0A (hopped f) (some q)
    match slotOfId s f.arg0 with
    | some k => beginRollback s k f.arg2 f.arg3 f.arg1
    | none => s

/-- DRAFT_NAK: every frame kept from the named SEQ on goes again, twice each (R336). -/
def actNak (s : State) (q : Nat) (f : DraftFrame) : State :=
  (((s.port q).sent).filter fun x => decide ((x.2.seq + 65536 - f.arg0) % 65536 < 32768)).foldl (fun s x => sendTwice s q x) s

/-! ### Order on a link (R335, R336) -/

/-- What a frame of a KIND does once it is its turn. -/
def actDraft (s : State) (q : Nat) (x : Nat × DraftFrame) : Res :=
  let f := x.2
  match x.1 with
  | 0x01 => .next (actHello s q f)
  | 0x02 => .next (actElect s q f)
  | 0x03 => .next (actAssign s q f)
  | 0x04 => .next (actAlign s q f)
  | 0x05 => .next (actVote s q f)
  | 0x06 => .next (actOutcome s q f)
  | 0x07 => actBarrierUp s q f
  | 0x08 => actBarrierDown s f
  | 0x09 => .next (actPeriod s q f)
  | 0x0A => .next (actRollback s q f)
  | 0x0B => .next (actLost s q f)
  | 0x0C => .next (actNak s q f)
  | _ => .next s

/-- How far a SEQ lies ahead. -/
def seqAhead (a b : Nat) : Nat := (a + 65536 - b) % 65536

/-- A vote that is awaited on a port counts as not ready: one for each round in which the others' votes are there and the port's is not. -/
def missedVotes (s : State) (p : Nat) : State :=
  if !((childPorts s).contains p) then s
  else
    let absent (b : Nat) : Vote := { port := p, boundary := b, ready := false, bank := false, confirm := false }
    let has (l : List Vote) (b : Nat) : Bool := l.any fun v => v.port == p && v.boundary == b
    let s := (enabledSets s).foldl (fun s k => match (s.lockSet k).mine with
      | some v => if has (s.lockSet k).votes v.boundary then s else tryVotes (updSet s k fun x => { x with votes := x.votes ++ [absent v.boundary] }) k
      | none => s) s
    s.net.relay.foldl (fun s r => match r.votes.head? with
      | some v => if has r.votes v.boundary then s else relayVote s r.lsid (absent v.boundary)
      | none => s) s

/-- A gap that cannot be filled any more: it is counted, the next SEQ at hand is current. A vote awaited on the link counts as not ready; a
barrier awaited on it has not arrived, and comes again at the next boundary (R336). -/
def resync (s : State) (q seq : Nat) : State :=
  let s := s.addObj (Obj.draftResyncs (q / 4)) 1
  let s := s.setPort { (s.port q) with rxSeq := seq, gap := false }
  missedVotes s (firstPort s q)

/-- Frames of a link whose turn it is, as far as they are there. -/
def drainDraft (q : Nat) : Nat → State → Res
  | 0, s => .next s
  | fuel + 1, s =>
    let p := s.port q
    match p.heldDraft.find? fun x => x.2.seq == p.rxSeq with
    | none => .next s
    | some x =>
      let held := p.heldDraft.filter fun y => y.2.seq != x.2.seq
      let s := s.setPort { p with rxSeq := (p.rxSeq + 1) % 65536, heldDraft := held, gap := !held.isEmpty }
      match actDraft s q x with
      | .next s => drainDraft q fuel s
      | r => r

/-- DRAFT_NAK for the first missing SEQ of a link. -/
def sendDraftNak (s : State) (q : Nat) : State := sendDraft s q 0x0C { seq := 0, origin := s.ownId, arg0 := (s.port q).rxSeq }

/-- The smallest SEQ at hand beyond a gap. -/
def nextHeld (p : Port) : Nat :=
  p.heldDraft.foldl (fun m x => if seqAhead x.2.seq p.rxSeq < seqAhead m p.rxSeq then x.2.seq else m) ((p.rxSeq + 65535) % 65536)

/-- A draft frame arrives on a port. A second copy is discarded by its SEQ. One beyond a gap is held; the missing ones are counted and
asked for; once the frame shows that the sender no longer keeps the first missing one, the gap is skipped. A frame of another EtherType is
none of the draft's (R335). -/
def recvDraft (kind q : Nat) (f : DraftFrame) (s : State) : Res :=
  let p := s.port q
  onlyIf s (decide (q < 64) && p.up && f.ether == s.forced Obj.draftEthertype) "draft frame at a port that is up" <|
    let d := seqAhead f.seq p.rxSeq
    if 32768 ≤ d ∨ p.heldDraft.any (fun x => x.2.seq == f.seq) then .next s
    else if d = 0 ∧ p.heldDraft.isEmpty then actDraft (s.setPort { p with rxSeq := (p.rxSeq + 1) % 65536, gap := false }) q (kind, f)
    else
      let last := p.heldDraft.foldl (fun m x => max m (seqAhead x.2.seq p.rxSeq + 1)) 0
      let fresh := d - last
      let s := s.setPort { p with heldDraft := p.heldDraft ++ [(kind, f)], gap := decide (0 < d) || p.gap }
      if d = 0 then drainDraft q ((s.port q).heldDraft.length + 1) s
      else
        let s := s.addObj (Obj.draftDoubleLoss (q / 4)) fresh
        if 256 ≤ d then
          let s := resync s q (nextHeld (s.port q))
          drainDraft q ((s.port q).heldDraft.length + 1) s
        else .next (if p.gap then s else sendDraftNak s q)

/-- HELLO (R342). -/
def execHello (q : Nat) (f : DraftFrame) (s : State) : Res := recvDraft 0x01 q f s

/-- ELECT (R343). -/
def execElect (q : Nat) (f : DraftFrame) (s : State) : Res := recvDraft 0x02 q f s

/-- ASSIGN (R343). -/
def execAssign (q : Nat) (f : DraftFrame) (s : State) : Res := recvDraft 0x03 q f s

/-- ALIGN (R339). -/
def execAlign (q : Nat) (f : DraftFrame) (s : State) : Res := recvDraft 0x04 q f s

/-- VOTE (R283). -/
def execVote (q : Nat) (f : DraftFrame) (s : State) : Res := recvDraft 0x05 q f s

/-- OUTCOME (R283). -/
def execOutcome (q : Nat) (f : DraftFrame) (s : State) : Res := recvDraft 0x06 q f s

/-- BARRIER_UP (R338). -/
def execBarrierUp (q : Nat) (f : DraftFrame) (s : State) : Res := recvDraft 0x07 q f s

/-- BARRIER_DOWN (R338). -/
def execBarrierDown (q : Nat) (f : DraftFrame) (s : State) : Res := recvDraft 0x08 q f s

/-- PERIOD (R265). -/
def execPeriodFrame (q : Nat) (f : DraftFrame) (s : State) : Res := recvDraft 0x09 q f s

/-- ROLLBACK (R370). -/
def execRollback (q : Nat) (f : DraftFrame) (s : State) : Res := recvDraft 0x0A q f s

/-- LOST (R500). -/
def execLostFrame (q : Nat) (f : DraftFrame) (s : State) : Res := recvDraft 0x0B q f s

/-- DRAFT_NAK (R336). -/
def execDraftNak (q : Nat) (f : DraftFrame) (s : State) : Res := recvDraft 0x0C q f s

/-- DRAFT_NAK_RETRY (R336): again every 20 µs until the gap is filled. -/
def execDraftNakRetry (q : Nat) (s : State) : Res := onlyIf s ((s.port q).up && (s.port q).gap) "gap" <| .next (sendDraftNak s q)

/-! ### Parity and BANK -/

/-- The before-image that holds a page as it stood at sealed tick `b`: the first one taken since. -/
def imageSince (s : State) (k b n page : Nat) : Option Image :=
  ((s.lockSet k).images.filter fun j => j.slice == n && j.page == page && decide (b ≤ j.tick)).foldl (fun o j => match o with
    | some i => if j.tick < i.tick then some j else o
    | none => some j) none

/-- The cells of a banked page of a slice as it stood at sealed tick `b`; an unmapped page has none. -/
def bankedAt (s : State) (k b n page : Nat) : List Host.Cell :=
  match imageSince s k b n page with
  | some j => j.bytes
  | none => match pageBase s n page with
    | some pa => pageCells s pa
    | none => []

/-- The marked sectors of a banked page as it stood at sealed tick `b` (R252). -/
def bankedMarks (s : State) (k b n page : Nat) : List Nat :=
  match imageSince s k b n page with
  | some j => j.marks
  | none => match pageBase s n page with
    | some pa => pageMarks s pa
    | none => []

/-- The parity page of a group as of sealed tick `b`, by its definition (R363). Table 12.2 step 5 reaches it by changes. -/
def parityOf (s : State) (k b n g : Nat) : Parity :=
  let ps := ((bankedPages s n).drop (16 * g)).take 16
  { slice := n, group := g, bytes := ps.foldl (fun l p => xorCells l (bankedAt s k b n p)) [],
    marks := ps.foldl (fun l p => (bankedMarks s k b n p).foldl (fun l i => addNew i l) l) [] }

/-- Every parity page of a lock set as of a sealed tick. -/
def parityAll (s : State) (k b : Nat) : List Parity :=
  (memberSlices s k).flatMap fun n => (List.range (((bankedPages s n).length + 15) / 16)).map (parityOf s k b n)

/-- PARITY_UPDATE_COMPLETE (R363, R367 step 5); its reads wait at a frozen channel. -/
def execParityUpdateComplete (k : Nat) (s : State) : Res :=
  let x := s.lockSet k
  onlyIf s (decide (k < 8) && !x.parityDone && !x.seals.isEmpty && !(setFrozen s k)) "parity update" <|
    let b := x.seals.headD 0
    let ps := parityAll s k b
    .next (confirmBank (updSet s k fun x => { x with parityDone := true, parity := ps }) k)

/-- BANK (R366): refused outside lock sets; else it waits for its bank point. -/
def execBankCmd (r : CmdRef) (s : State) : Res :=
  withCmd [0x0B] r s fun c =>
    if c.res || c.schedReserved || c.ext != 0 || (c.slot.drop 16).any (· != 0) then .next (cmdAny s r.ch c)
    else match lsOf s r.ch with
    | none => .next (endCmd s r.ch c { status := stRefused })
    | some _ => .next s

/-! ### Ports and routes (R333, R334, R470) -/

/-- LINK_UP of a logical port. -/
def putLinkUp (s : State) (q : Nat) (up : Bool) : State :=
  let k := Obj.linkUp (q / 4)
  let v := s.getObj k
  let b := 2 ^ (q % 4)
  s.putObj k (if up then (if bitN v (q % 4) then v else v + b) else if bitN v (q % 4) then v - b else v)

/-- An entry whose primary or alternate uses a port that is down (R334). -/
def rerouteEntry (s : State) (q : Nat) (r : Nat × Nat) : State :=
  let e := r.2
  let alt := bits e 13 8
  let e1 := if bitN e 14 && alt == q then e - 2 ^ 14 else e
  if bitN e 6 && bits e 5 0 == q then
    if bitN e1 14 then
      putRoute (s.addObj Obj.reroutes 1) r.1 (routeEntry alt (bitN e 15) none (((s.port alt).neighbour).getD (bits e 33 16)) (bits e 49 34))
    else putRoute s r.1 (e1 - 64)
  else if e1 = e then s else putRoute s r.1 e1

/-- PORT_DOWN (R334). -/
def execPortDown (q : Nat) (s : State) : Res :=
  onlyIf s (decide (q < 64) && (s.port q).up) "port that is up" <|
    let s := putLinkUp (s.setPort { (s.port q) with up := false, heldDraft := [], gap := false, replay := [], txq := [], rtt := none, alignTx := [], alignRx := none, paused := false, hello := false }) q false
    let s := s.putObj (Obj.neighbour (q / 4) (q % 4)) 0xFFFFFFFF
    .next (noteHoldover (s.net.routes.foldl (fun s r => rerouteEntry s q r) s))

/-- The logical ports that PORT_MODE gives a network port (Table 11.1), as in force since the last start-up. -/
def modePorts (m : Nat) : Nat := if m = 0 then 1 else if m = 1 then 2 else if m = 2 then 4 else 0

/-- PORT_UP (R470): the port exchanges HELLO with what is beyond it, unless the module is COLD or takes no part. -/
def execPortUp (q : Nat) (s : State) : Res :=
  let st := s.getObj Obj.moduleState
  if 64 ≤ q then .refused .illFormed
  else onlyIf s (decide (3 ≤ st) && !(s.port q).up && decide (q % 4 < modePorts (s.forced (Obj.portMode (q / 4))))) "port that trains" <|
    let s := putLinkUp (s.setPort { (s.port q) with up := true }) q true
    let s := if st = 4 ∧ takesPart s ∧ s.getObj Obj.discState ≤ 1 then beginHello s else s
    .next (if (st = 4 ∨ st = 5) ∧ takesPart s then sendHello s q else s)

/-- ROUTE_RECOMPUTE (R333, R334): entries without a valid alternate are formed anew from the routes that the neighbours' tables give:
the shortest, over the lowest port, and the next over another port. -/
def execRouteRecompute (routes : List RouteCand) (s : State) : Res :=
  let dsts := routes.foldl (fun l r => addNew r.dst l) []
  .next (dsts.foldl (fun s m =>
    let e := sget (fun _ => 0) s.net.routes m
    if m = s.ownId ∨ bitN e 14 then s
    else
      let cs := sortBy (fun (a b : RouteCand) => decide (a.hops < b.hops ∨ (a.hops = b.hops ∧ a.port < b.port)))
        (routes.filter fun r => r.dst == m && decide (r.port < 64) && (s.port r.port).up)
      match cs with
      | [] => s
      | c :: rest =>
        let alt := (rest.find? fun r => r.port != c.port).map fun r => (r.port, r.direct)
        putRoute s m (routeEntry c.port c.direct alt (c.nextHop % 2 ^ 18) (c.hops % 2 ^ 16))) s)

end Sys2Proof.Machine
end

