-- ==== Sys2Proof/Machine/Transport.lean ====
section
/-! DEFINITION. Transport.lean: the Proty transport as a receiver and as a sender (R321 to R327): performing frames in PSN order,
acknowledgements, refusals, retransmission, link replay, forwarding, lost paths (R311, R315), and idle write-combining entries (R314). -/

namespace Sys2Proof.Machine

/-! ### Work that waits on frames -/

/-- A command goes on after one of its frames or reads has come through (R309, R310, R348). -/
def advanceWork (s : State) (ch seq : Nat) : Res :=
  match s.net.colls.find? fun x => x.ch == ch && x.seq == seq with
  | none => advanceCmd s ch seq
  | some x =>
    if x.op = 6 then
      match findFlight s ch seq with
      | some c => if x.step = 1 then collTail s x c else .next s
      | none => .next s
    else collAdvance s x.g

/-- Several commands go on, one after another. -/
def advanceAll : List (Nat × Nat) → State → Res
  | [], s => .next s
  | w :: ws, s =>
    match advanceWork s w.1 w.2 with
    | .next s => advanceAll ws s
    | r => r

/-- The commands that frames and reads were made for. -/
def workOf (l : List FrameFor) : List (Nat × Nat) :=
  l.foldl (fun l w => match w with
    | .cmd c n => addNew (c, n) l
    | .flag c n => addNew (c, n) l
    | _ => l) []

/-! ### Acknowledgements -/

/-- How far a PSN lies ahead; 2^31 or more is behind. -/
def psnAhead (a b : Nat) : Nat := (a + 2 ^ 32 - b) % 2 ^ 32

/-- An ACK leaves for a path: nothing is owed any more. -/
def ackNow (s : State) (no : Nat) : State :=
  match s.path? no with
  | none => s
  | some p => (sendAck s p 3 0 p.sawCe).setPath { p with owed := 0, sawCe := false }

/-- The path on which frames of a module arrive, used now. -/
def peerPath (s : State) (src : Nat) : Option (State × PathCtx) :=
  (openPath s src).map fun x => (x.1.setPath { x.2 with used := s.now }, { x.2 with used := s.now })

/-- Whether a frame is one of the transport: it goes to its UDP port (R321). -/
def forTransport (s : State) (f : TFrame) : Bool := f.ip.port == s.forced Obj.transportPort

/-- Whether a transport frame is good: its codewords (Table 11.1), its CRC-32C, VER 1 and a LENGTH that is that of its payload (R321, log 107). -/
def goodFrame (f : TFrame) : Bool := f.fecOk && f.crcOk && f.ver == 1 && f.len == f.payload.length && decide (f.len ≤ 8192)

/-- What a bad frame counts: CRC_DROPS, and FEC_UNCORRECTED of its port where a codeword could not be corrected (R321, Table 11.8). -/
def noteFrame (s : State) (q : Nat) (f : TFrame) : State :=
  if goodFrame f then s else (if f.fecOk then s else s.addObj (Obj.fecUncorrected (q / 4)) 1).addObj Obj.crcDrops 1

/-! ### Performing frames at the target -/

/-- Bytes in pieces of a frame's largest payload. -/
def respond (s : State) (src : Nat) (psn addr : Nat) : Nat → List Byte → State
  | 0, _ => s
  | fuel + 1, bs =>
    let s := (sendFrame s src 2 { addr := BitVec.ofNat 64 addr, aux := psn, payload := bs.take 8192 } .device).getD s
    if bs.length ≤ 8192 then s else respond s src psn (addr + 8192) fuel (bs.drop 8192)

/-- A frame performed at this module: done, refused, or waiting (R158, R306, R312, R351). -/
def perform (s : State) (src : Nat) (x : Sent) : Served (List FrameFor) :=
  let f := x.f
  let a := f.addr.toNat
  match x.ty with
  | 0 => match serveWrite s src a f.payload false .module with
    | .done s () => .done s []
    | .refused s => .refused s
    | .wait s => .wait s
  | 1 => match serveRead s src a f.aux false with
    | .done s bs => .done (respond s src f.psn a (bs.length / 8192 + 1) bs) []
    | .refused s => .refused s
    | .wait s => .wait s
  | 2 => match s.net.reads.find? fun r => r.dst == src && r.addr == f.addr && r.n == f.payload.length && r.data.isNone && r.fail.isNone with
    | none => .done s []
    | some r =>
      let got : ReadWait := { r with data := some f.payload }
      .done { s with net := { s.net with reads := s.net.reads.map fun y => if y == r then got else y } } [r.who]
  | 5 => match serveSignal s src a f.aux (leNat (f.payload.take 8)) .module with
    | .done s () => .done s []
    | .refused s => .refused s
    | .wait s => .wait s
  | 6 => match f.blk with
    | none => .done s []
    | some b => .done (addContribution s b f.payload)
        ((s.net.colls.filter fun x => groupNo x.members == b.group && x.cseq == b.cseq && x.rank == b.dst).map fun x => .cmd x.ch x.seq)
  | _ => .done s []

/-- The frame of a path whose turn it is. -/
def nextSent (s : State) (no : Nat) : Option Sent := (s.path? no).bind fun p => p.held.find? fun x => x.f.psn == p.expect

/-- A frame of a path has been performed: the next PSN is expected, and an acknowledgement is owed. -/
def pathNext (s : State) (no : Nat) (x : Sent) : State :=
  match s.path? no with
  | none => s
  | some p => s.setPath { p with expect := (p.expect + 1) % 2 ^ 32, held := p.held.filter fun y => y.f.psn != x.f.psn, owed := p.owed + 1, nakked := false,
                                 sawCe := p.sawCe || x.f.ece }

/-- Frames of a path performed in PSN order as far as they are there; one that must wait keeps its turn, and so does a TYPE 7 frame, which
`drainAll` performs. -/
def drainPath (no : Nat) : Nat → State → List FrameFor → State × List FrameFor
  | 0, s, ws => (s, ws)
  | fuel + 1, s, ws =>
    match s.path? no, nextSent s no with
    | some p, some x =>
      if x.od.isSome then (s, ws)
      else match perform s p.dst x with
      | .wait s => (s, ws)
      | .refused s => drainPath no fuel (pathNext (sendAck s p 4 0xFFFFFFFF false) no x) ws
      | .done s more => drainPath no fuel (pathNext s no x) (ws ++ more)
    | _, _ => (s, ws)

/-- Link retry of a hop (R325): whether the frame goes on to the transport. An LSEQ beyond the one expected shows that the link has lost
that one: one LINK_NAK names it (log 102). -/
def linkCheck (s : State) (q : Nat) (f : TFrame) : State × Bool :=
  if !f.llr then (s, true)
  else
    let p := s.port q
    if f.lseq ≠ p.rxLseq then
      if 32768 ≤ seqAhead f.lseq p.rxLseq ∨ p.rxNak then (s, false) else (sendLink (s.setPort { p with rxNak := true }) q 9 p.rxLseq, false)
    else if !(goodFrame f) then (sendLink (s.setPort { p with rxNak := true }) q 9 f.lseq, false)
    else (s.setPort { p with rxLseq := (p.rxLseq + 1) % 65536, rxNak := false }, true)

/-! ### The sender -/

/-- A frame without a number arrives: link retry and CRC, then what it says about the path to its sender. -/
def recvControl (q : Nat) (f : TFrame) (s : State) (k : PathCtx → State → Res) : Res :=
  onlyIf s (decide (q < 64) && (s.port q).up && forTransport s f) "transport frame at a port that is up" <|
    let s := noteFrame s q f
    match linkCheck s q f with
    | (s, false) => .next s
    | (s, true) =>
      if !(goodFrame f) then .next s
      else match pathTo s f.src with
      | none => .next s
      | some p => k { p with used := s.now } (s.setPath { p with used := s.now })

/-- Frames of a path below a PSN are acknowledged. -/
def ackBelow (s : State) (p : PathCtx) (psn : Nat) : State × List FrameFor :=
  let done := p.unacked.filter fun x => decide (2 ^ 31 ≤ psnAhead x.f.psn psn)
  (s.setPath { p with unacked := p.unacked.filter fun x => decide (psnAhead x.f.psn psn < 2 ^ 31) }, done.map (·.who))

/-- ECE or a CNP: the rate is halved, to no less than 1/64 (R326). -/
def halveRate (s : State) (p : PathCtx) : State := (s.setPath { p with rate := max 1 (p.rate / 2) }).addObj Obj.ecnMarks 1

/-- ACK (R309, R310, R324, R326). -/
def execAckFrame (q : Nat) (f : TFrame) (s : State) : Res :=
  recvControl q f s fun p s =>
    let (s, ws) := ackBelow s p f.ackPsn
    let s := match s.path? p.no with
      | some p => if f.ece then halveRate s p else s
      | none => s
    advanceAll (workOf ws) s

/-- Frames of a path from a PSN on go again. -/
def resend (s : State) (p : PathCtx) : State :=
  p.unacked.foldl (fun s x => (emit s p.dst x.ty x.f).addObj Obj.retransmits 1) s

/-- A target has refused a frame (R315, R324): a store's launch faults, a load or a read of a command fails with cause 0x43, a command
that wrote is killed, a SIGNAL is REFUSED. -/
def refusedFrame (s : State) (dst : Nat) (x : Sent) : State :=
  let a := x.f.addr.toNat
  let s := noteLost s x
  if x.ty = 1 then
    { s with net := { s.net with reads := s.net.reads.map fun r =>
      if r.dst == dst && r.psn == x.f.psn && r.addr == x.f.addr && r.data.isNone then { r with fail := some 0x43 } else r } }
  else match x.who with
  | .store _ _ _ => storeFailed s x.who true a
  | .drain _ _ _ _ => storeFailed s x.who true a
  | .cmd ch seq => match findFlight s ch seq with
    | none => s
    | some c =>
      if c.final.isSome then s
      else if c.op = 0x06 then endCmd s ch c { status := stRefused }
      else endXfer s ch c { status := stKilled, live := true, bytes := ackedPrefix s ch c, cause := 0x43 }
  | .flag ch seq => match findFlight s ch seq with
    | none => s
    | some c => if c.final.isSome then s else endXfer s ch c { status := stKilled, live := true, bytes := ackedPrefix s ch c, cause := 0x43 }
  | _ => s

/-- NAK (R315, R324): a refusal of the frame at ACK_PSN, or a gap from which the sender retransmits. -/
def execNakFrame (q : Nat) (f : TFrame) (s : State) : Res :=
  recvControl q f s fun p s =>
    if f.aux = 0xFFFFFFFF then
      let (s, ws) := ackBelow s p f.ackPsn
      match p.unacked.find? fun x => x.f.psn == f.ackPsn with
      | none => advanceAll (workOf ws) s
      | some x =>
        let s := refusedFrame s p.dst x
        let s := match s.path? p.no with
          | some p => s.setPath { p with unacked := p.unacked.filter fun y => y.f.psn != x.f.psn }
          | none => s
        advanceAll (workOf (ws ++ [x.who])) s
    else
      let (s, ws) := ackBelow s p f.aux
      match s.path? p.no with
      | some p => advanceAll (workOf ws) (resend s p)
      | none => advanceAll (workOf ws) s

/-- RETRANSMIT_TIMEOUT (R324). -/
def execRetransmitTimeout (path : Nat) (s : State) : Res :=
  withSome s (s.path? path) "path" fun p => onlyIf s (!p.unacked.isEmpty) "frame without acknowledgement" <| .next (resend s p)

/-- The stores of launches among dropped frames: each is counted; the launch faults at its lowest address (R315). -/
def dropStores (s : State) (xs : List Sent) : State :=
  let stores := xs.filter fun x => match x.who with
    | .store _ _ _ => true
    | .drain _ _ _ _ => true
    | _ => false
  let whos := stores.foldl (fun l x => addNew x.who l) []
  let s := whos.foldl (fun s w =>
    let mine := (stores.filter fun x => x.who == w).map fun x => x.f.addr.toNat
    storeFailed s w false (mine.foldl min (mine.headD 0))) s
  s.addObj Obj.storesDropped (stores.length - whos.length)

/-- A command that loses a path completes REMOTE_LOST (R311, R349). -/
def remoteLost (s : State) (w : Nat × Nat) : State :=
  match s.net.colls.find? fun x => x.ch == w.1 && x.seq == w.2 with
  | some x => stopColl s x stRemoteLost
  | none => match findFlight s w.1 w.2 with
    | some c => stopCmd s w.1 c stRemoteLost
    | none => s

/-- TRANSPORT_TIMEOUT (R311, R315, R324, R500): the path is given up and reset. Work of a lock set rolls it back where the lost module
is a member, which is free (log 46); other commands complete REMOTE_LOST, other launches fault. -/
def execTransportTimeout (path : Nat) (s : State) : Res :=
  withSome s (s.path? path) "path" fun p =>
    let reads := s.net.reads.filter fun r => r.dst == p.dst && r.data.isNone && r.fail.isNone
    onlyIf s (!p.unacked.isEmpty || !reads.isEmpty) "frame without acknowledgement" <|
      let whos := p.unacked.map (·.who) ++ reads.map (·.who)
      let sets := whos.foldl (fun l w => match (chanOfFrame s w).bind fun ch => lsOf s ch with
        | some k => addNew k l
        | none => l) []
      let s := sets.foldl (fun s k =>
        let member := s.freeVal % 2
        let s := s.useFree 1
        if member = 0 then s else originate s 0x03 k) s
      let now? := s.path? path
      let left := (now?.map (·.unacked)).getD []
      let s := left.foldl noteLost (dropStores s left)
      let s := { s with net := { s.net with reads := s.net.reads.map fun r =>
        if r.dst == p.dst && r.data.isNone && r.fail.isNone then { r with fail := some 0x40 } else r } }
      let work := workOf (left.map (·.who) ++ (reads.filter fun r => s.net.reads.any fun y => y.who == r.who).map (·.who))
      let s := ((work.foldl remoteLost s).setPath { no := p.no, dst := p.dst, used := s.now }).addObj Obj.pathsLost 1
      advanceAll work s

/-- ECE_RECOVERY (R326). -/
def execEceRecovery (path : Nat) (s : State) : Res :=
  withSome s (s.path? path) "path" fun p => onlyIf s (decide (p.rate < 64)) "halved rate" <| .next (s.setPath { p with rate := p.rate + 1 })

/-- PATH_CONTEXT_FREE (R323): 1 s without traffic, and nothing unacknowledged. -/
def execPathContextFree (path : Nat) (s : State) : Res :=
  withSome s (s.path? path) "path" fun p =>
    onlyIf s (idlePath p && decide (p.used + 10 ^ 9 ≤ s.now)) "idle path" <|
      .next ({ s with net := { s.net with paths := s.net.paths.filter fun x => x.no != path } }.subObj Obj.pathsLive 1)

/-- WC_IDLE_SEND (R314): no store has reached the entry for 1 µs. -/
def execWcIdleSend (core : Nat) (line : Word64) (s : State) : Res :=
  withSome s ((s.core core).wc.find? fun e => e.line == line) "write-combining entry" fun e => .next (wcSend s core e).1

/-! ### Link retry, forwarding, reserved types -/

/-- LINK_ACK (R325): the replay buffer is free up to the LSEQ named; frames that waited for room follow. -/
def execLinkAck (q : Nat) (f : TFrame) (s : State) : Res :=
  onlyIf s (decide (q < 64) && (s.port q).up) "port that is up" <|
    if !(forTransport s f) then .next s
    else if !(goodFrame f) then .next (noteFrame s q f)
    else
      let p := s.port q
      let left := p.replay.filter fun x => decide (seqAhead x.1 f.aux < 32768) && x.1 != f.aux % 65536
      .next (drainTx q p.txq.length (s.setPort { p with replay := left }))

/-- LINK_NAK (R325): replay from the LSEQ named. -/
def execLinkNak (q : Nat) (f : TFrame) (s : State) : Res :=
  onlyIf s (decide (q < 64) && (s.port q).up) "port that is up" <|
    if !(forTransport s f) then .next s
    else if !(goodFrame f) then .next (noteFrame s q f)
    else
      let p := s.port q
      let left := p.replay.filter fun x => decide (seqAhead x.1 f.aux < 32768)
      let s := (s.setPort { p with replay := left }).addObj (Obj.llrReplays (q / 4)) 1
      .next (left.foldl (fun s x => s.send (.trans q x.2.1 x.2.2.1 x.2.2.2)) s)

/-- LINK_ACK_TIMER (R325): a LINK_ACK names the last LSEQ received in order; while one is missing, a LINK_NAK names it (log 102). -/
def execLinkAckTimer (q : Nat) (s : State) : Res :=
  let p := s.port q
  onlyIf s (decide (q < 64) && p.up && (match p.neighbour with
    | some m => linkRetry s q m
    | none => false)) "hop with link retry" <|
    .next (if p.rxNak then sendLink s q 9 p.rxLseq else sendLink s q 8 ((p.rxLseq + 65535) % 65536))

/-- FRAME_FORWARD (R327): by the route table, with one hop less in its limit (log 107); a frame for which there is no route is dropped. Link
frames travel one hop only. -/
def execFrameForward (q dst ty : Nat) (f : TFrame) (s : State) : Res :=
  onlyIf s (decide (q < 64) && (s.port q).up && dst != s.ownId) "frame to forward" <|
    match linkCheck s q f with
    | (s, false) => .next (noteFrame s q f)
    | (s, true) =>
      if ty = 8 ∨ ty = 9 ∨ (routeOf s dst).isNone ∨ f.ip.hops ≤ 1 then .next s
      else .next ((emit s dst ty { f with ip := { f.ip with hops := f.ip.hops - 1 } }).addObj Obj.forwarded 1)

/-- TRANSPORT_RESERVED_TYPE (R321). -/
def execTransportReservedType (ty : Nat) (s : State) : Res :=
  if ty < 10 ∨ 16 ≤ ty then .refused .illFormed else .next (s.addObj Obj.crcDrops 1)

end Sys2Proof.Machine
end

