-- ==== Sys2Proof/Machine/Roce.lean ====
section
/-! DEFINITION. Roce.lean: the RoCEv2 subset (R328 to R330) with its priority flow control (R319), and the other messages of the
ports: IEEE 1588 time (R341) and IPv6 neighbour discovery (R320, R436). -/

namespace Sys2Proof.Machine

/-! ### Packets leaving -/

/-- The envelope of a RoCEv2 packet: the UDP port of RoCEv2, its DSCP, the VLAN tag (R319, R322, log 107). -/
def roceEnvelope (s : State) (qp : Nat) : Envelope :=
  { vlan := vlanTag s, port := 4791, dscp := bits (s.forced Obj.dscp) 21 16, flow := Config.flowHash (2 ^ 18 + qp) (s.getObj (Obj.qpPeerQpn qp)) % 2 ^ 20 }

/-- A packet leaves; the port is free among those that are up, and a paused port keeps it (R319; log 59). -/
def sendRoce (s : State) (qp op psn : Nat) (data : List Byte) : State :=
  let ports := (s.net.ports.filter fun p => p.up)
  if ports.isEmpty then s
  else
    let p := ports.getD (s.freeVal % ports.length) { q := 0 }
    let s := s.useFree 1
    if p.paused then { s with net := { s.net with roceWait := s.net.roceWait ++ [(p.q, qp, op, psn, data)] } }
    else s.send (.roce p.q (roceEnvelope s qp) qp op psn data)

/-- Syndromes of an acknowledge (InfiniBand AETH codes; log 60): acknowledge, receiver not ready, sequence error, invalid request, remote
access error, remote operational error. -/
def synAck : Byte := 0x00
def synRnr : Byte := 0x20
def synSeq : Byte := 0x60
def synInvalid : Byte := 0x61
def synAccess : Byte := 0x62
def synOper : Byte := 0x63

/-- An acknowledge or a NAK. -/
def roceAck (s : State) (qp psn : Nat) (syn : Byte) : State := sendRoce s qp 0x11 psn [syn]

/-- A NAK that moves the QP to error. -/
def roceError (s : State) (qp psn : Nat) (syn : Byte) : State := (roceAck s qp psn syn).putObj (Obj.qpState qp) 2

/-! ### Packets arriving -/

/-- A packet marked CE draws a CNP (R328). -/
def drawCnp (s : State) (p : RocePacket) : State := if p.ce then sendRoce s p.qp 0x81 0 [] else s

/-- A packet of a ready QP in PSN order: a repeated one is acknowledged again, a gap draws a sequence NAK, a packet marked CE a CNP
(R328). -/
def recvRoce (ops : List Nat) (p : RocePacket) (s : State) (k : Qp → State → Res) : Res :=
  if 1024 ≤ p.qp ∨ !(ops.contains p.opcode) then .refused .illFormed
  else if 4096 < p.payload.length then .next s
  else if !p.icrcOk ∨ s.getObj (Obj.qpEnable p.qp) ≠ 1 ∨ s.getObj (Obj.qpState p.qp) ≠ 1 then .next s
  else
    let s := drawCnp s p
    let x := s.qp p.qp
    let want := if x.rxPsn = 2 ^ 24 then p.psn % 2 ^ 24 else x.rxPsn
    let d := (p.psn + 2 ^ 24 - want) % 2 ^ 24
    if d = 0 then k { x with rxPsn := want } s
    else if 2 ^ 23 ≤ d then .next (roceAck s p.qp p.psn synAck)
    else .next (roceAck s p.qp want synSeq)

/-- Whether a QP's slice admits a message: a new one while it is ACTIVE, the rest of an open one also while it is QUIESCING (Table 13.2). -/
def qpAdmits (s : State) (q : Nat) (going : Bool) : Bool :=
  let st := s.getObj (Obj.sState (s.getObj (Obj.qpSlice q)))
  st == 1 || (going && st == 2)

/-- A packet has been performed. -/
def roceDone (s : State) (x : Qp) (psn : Nat) : State := roceAck (s.setQp { x with rxPsn := (x.rxPsn + 1) % 2 ^ 24 }) x.no psn synAck

/-- Slots that a message of `n` bytes occupies. -/
def msgSlots (n : Nat) : Nat := max 1 ((n + 4087) / 4088)

/-- A receive slot's bytes: count, LAST, message bytes (R330). -/
def slotBytes (bs : List Byte) (last : Bool) : List Byte := toLe 4 bs.length ++ toLe 4 (if last then 1 else 0) ++ bs

/-- The slots of the open message written from slot `i` of it on. -/
def putSlots (s : State) (q : Nat) (msg : List Byte) (last : Bool) : Nat → Nat → Except Stop State
  | 0, _ => .ok s
  | n + 1, i =>
    let size := s.getObj (Obj.qpSlots q)
    let a := s.getObj (Obj.qpRqBase q) + 4096 * ((s.getObj (Obj.qpRqTail q) + i) % size)
    let bs := slotBytes ((msg.drop (4088 * i)).take 4088) (last && n == 0)
    match spanOk s (s.getObj (Obj.qpSlice q)) 2 a bs.length true with
    | .error e => .error e
    | .ok () => putSlots (writeRun s (s.getObj (Obj.qpSlice q)) 2 a bs).1 q msg last n (i + 1)

/-- SEND (R330). The first packet with no room draws an RNR NAK, a later one or a message that no ring holds a remote operational error;
so does a slot whose memory cannot be written; a slice that is not ACTIVE refuses a new message (log 60). -/
def execRoceSend (p : RocePacket) (s : State) : Res :=
  recvRoce [0x00, 0x01, 0x02, 0x04] p s fun x s =>
    let q := p.qp
    let first := p.opcode == 0x00 || p.opcode == 0x04
    let last := p.opcode == 0x02 || p.opcode == 0x04
    if first == x.rxOpen then .next (roceError s q p.psn synInvalid)
    else if !(qpAdmits s q (!first)) then .next (roceError s q p.psn synAccess)
    else
      let msg := x.rxBytes ++ p.payload
      let need := msgSlots msg.length
      let size := s.getObj (Obj.qpSlots q)
      let used := (s.getObj (Obj.qpRqTail q) + 2 ^ 32 - s.getObj (Obj.qpRqHead q)) % 2 ^ 32
      if size < need then .next (roceError s q p.psn synOper)
      else if size < used + need then .next (if first then roceAck s q p.psn synRnr else roceError s q p.psn synOper)
      else
        let from_ := x.rxBytes.length / 4088
        match putSlots s q msg last (need - from_) from_ with
        | .error (.wait s) => .next s
        | .error .absent => .fault .absentAddress
        | .error .any => .next (unpredictable s (s.getObj (Obj.qpSlice q)))
        | .error (.cause _ _) => .next (roceError s q p.psn synOper)
        | .ok s =>
          let s := if last then s.putObj (Obj.qpRqTail q) ((s.getObj (Obj.qpRqTail q) + need) % 2 ^ 32) else s
          .next (roceDone s { x with rxOpen := !last, rxBytes := if last then [] else msg } p.psn)

/-- The module ID of a QP's peer where its address is one of R320, else one that the window's range admits (log 60). -/
def rocePeer (s : State) (q win : Nat) : Nat :=
  let a := toLe 16 (s.getObj (Obj.qpPeer q))
  let be (l : List Byte) : Nat := leNat l.reverse
  let iid := be (a.drop 8)
  if be (a.take 8) = s.forced Obj.fabricPrefix ∧ iid < 2 ^ 24 then iid % 2 ^ 18 else s.getObj (Obj.wPeerLo win)

/-- The global address that an RDMA access reaches, where key and slice agree (R329): of class 0, device memory (Table 5.5). -/
def rdmaAddr (s : State) (q : Nat) (rkey : BitVec 32) (va : Nat) : Option (Nat × Nat) :=
  let w := rkey.toNat % 256
  if rkey.toNat / 256 = s.getObj (Obj.qpKey q) % 2 ^ 24 ∧ s.getObj (Obj.wSlice w) = s.getObj (Obj.qpSlice q) ∧ va < 2 ^ 36 then
    some (gAddr s.ownId 0 (w * 2 ^ 36 + va), rocePeer s q w)
  else none

/-- RDMA WRITE (R329): performed at device scope before it is acknowledged. -/
def execRdmaWrite (p : RocePacket) (s : State) : Res :=
  recvRoce [0x06, 0x07, 0x08, 0x0A] p s fun x s =>
    let q := p.qp
    let first := p.opcode == 0x06 || p.opcode == 0x0A
    let last := p.opcode == 0x08 || p.opcode == 0x0A
    let rkey := if first then p.rkey else x.waKey
    let va := if first then p.va else x.waVa
    let left := if first then p.len else x.waLeft
    if decide (2 ^ 31 < left) || (first && x.waLeft != 0) || (!first && x.waLeft == 0) || decide (left < p.payload.length) || (last && left != p.payload.length) then
      .next (roceError s q p.psn synInvalid)
    else match rdmaAddr s q rkey va.toNat with
    | none => .next (roceError s q p.psn synAccess)
    | some (a, src) => match serveWrite s src a p.payload true .host (!first) with
      | .refused s => .next (roceError s q p.psn synAccess)
      | .wait s => .next s
      | .done s () =>
        .next (roceDone s { x with waKey := rkey, waVa := va + BitVec.ofNat 64 p.payload.length, waLeft := left - p.payload.length } p.psn)

/-- READ responses of at most 4,096 bytes: First, Middle, Last or Only. -/
def readResponses (s : State) (q psn : Nat) : Nat → Bool → List Byte → State
  | 0, _, _ => s
  | fuel + 1, first, bs =>
    let more := decide (4096 < bs.length)
    let op := if first then (if more then 0x0D else 0x10) else if more then 0x0E else 0x0F
    let s := sendRoce s q op psn (bs.take 4096)
    if more then readResponses s q ((psn + 1) % 2 ^ 24) fuel false (bs.drop 4096) else s

/-- RDMA READ (R328, R329): a request; the device sends none, so that a response it receives is dropped, but for the CNP that its mark draws. Its responses take as many
PSNs as they have packets. -/
def execRdmaRead (p : RocePacket) (s : State) : Res :=
  if [0x0D, 0x0E, 0x0F, 0x10].contains p.opcode then
    (if 1024 ≤ p.qp then .refused .illFormed
    else .next (if p.icrcOk ∧ s.getObj (Obj.qpEnable p.qp) = 1 ∧ s.getObj (Obj.qpState p.qp) = 1 then drawCnp s p else s))
  else recvRoce [0x0C] p s fun x s =>
    if 2 ^ 31 < p.len then .next (roceError s p.qp p.psn synInvalid)
    else match rdmaAddr s p.qp p.rkey p.va.toNat with
    | none => .next (roceError s p.qp p.psn synAccess)
    | some (a, src) => match serveRead s src a p.len true with
      | .refused s => .next (roceError s p.qp p.psn synAccess)
      | .wait s => .next s
      | .done s bs =>
        let n := max 1 ((p.len + 4095) / 4096)
        .next (readResponses (s.setQp { x with rxPsn := (x.rxPsn + n) % 2 ^ 24 }) p.qp p.psn n true bs)

/-! ### Sending (R330) -/

/-- The message that begins at a send slot, slot by slot up to LAST: its slots and bytes; none where it is not all posted. Reserved bits of a
slot that are set have unpredictable results (R8). -/
def sendMessage (s : State) (q : Nat) : Nat → Nat → Except Stop (Option (State × Nat × List Byte))
  | 0, _ => .ok none
  | fuel + 1, i =>
    let a := s.getObj (Obj.qpSqBase q) + 4096 * (i % s.getObj (Obj.qpSlots q))
    match readRun s (s.getObj (Obj.qpSlice q)) 2 a 4096 with
    | .error e => .error e
    | .ok (s, bs) =>
      let body := (bs.drop 8).take (min 4088 (fieldLe bs 0 4))
      if 2 ≤ fieldLe bs 4 4 then .error .any
      else if fieldLe bs 4 4 % 2 = 1 then .ok (some (s, 1, body))
      else match sendMessage s q fuel (i + 1) with
      | .error e => .error e
      | .ok none => .ok none
      | .ok (some (s, n, rest)) => .ok (some (s, n + 1, body ++ rest))

/-- The packets of a message; the PSN after the last. -/
def sendPackets (s : State) (q psn : Nat) : Nat → Bool → List Byte → State × Nat
  | 0, _, _ => (s, psn)
  | fuel + 1, first, bs =>
    let more := decide (4096 < bs.length)
    let op := if first then (if more then 0x00 else 0x04) else if more then 0x01 else 0x02
    let s := sendRoce s q op psn (bs.take 4096)
    if more then sendPackets s q ((psn + 1) % 2 ^ 24) fuel false (bs.drop 4096) else (s, (psn + 1) % 2 ^ 24)

/-- Messages posted up to a tail are sent, in order. -/
def postGo (q tail : Nat) : Nat → State → Except Stop State
  | 0, s => .ok s
  | fuel + 1, s =>
    let x := s.qp q
    let posted := (2 ^ 32 + tail - x.sqTail) % 2 ^ 32
    if posted = 0 ∨ 2 ^ 31 ≤ posted then .ok s
    else match sendMessage s q (min posted (s.getObj (Obj.qpSlots q))) x.sqTail with
    | .error e => .error e
    | .ok none => .ok s
    | .ok (some (s, n, bs)) =>
      let (s, psn) := sendPackets s q x.txPsn (bs.length / 4096 + 1) true bs
      let x := s.qp q
      postGo q tail fuel (s.setQp { x with txPsn := psn, sqTail := (x.sqTail + n) % 2 ^ 32,
                                           sqSent := x.sqSent ++ [(n, x.txPsn, (psn + 2 ^ 24 - 1) % 2 ^ 24)] })

/-- A send ring that cannot be read now is read again later; where it cannot be read at all the QP moves to error; what R8 or R216 leaves
unpredictable goes either way, and the slice's memory holds anything. -/
def postStop (s : State) (q : Nat) : Stop → State
  | .wait s => s
  | .any =>
    let s := unpredictable s (s.getObj (Obj.qpSlice q))
    (s.useFree 1).putObj (Obj.qpState q) (1 + s.freeVal % 2)
  | _ => s.putObj (Obj.qpState q) 2

/-- QP_SQ_TAIL written (R330): a QP that is not ready, or whose slice is not ACTIVE, sends nothing; a ring that cannot be read moves it to
error. -/
def postSends (s : State) (q v : Nat) : State :=
  if s.getObj (Obj.qpState q) ≠ 1 ∨ qpAdmits s q false = false then s
  else match postGo q (v % 2 ^ 32) (s.getObj (Obj.qpSlots q) + 1) s with
  | .ok s => s
  | .error e => postStop s q e

/-- Messages acknowledged up to a PSN; QP_SQ_DONE passes their slots. -/
def ackSends (s : State) (q psn : Nat) : State :=
  let x := s.qp q
  let done (m : Nat × Nat × Nat) : Bool := decide ((psn + 2 ^ 24 - m.2.2) % 2 ^ 24 < 2 ^ 23)
  let n := sumNat ((x.sqSent.filter done).map (·.1))
  (s.setQp { x with sqSent := x.sqSent.filter fun m => !(done m) }).putObj (Obj.qpSqDone q) ((s.getObj (Obj.qpSqDone q) + n) % 2 ^ 32)

/-- The messages that are not acknowledged go again, while the slice lets admitted ones complete. -/
def resendSends (s : State) (q : Nat) : State :=
  let x := s.qp q
  match (if qpAdmits s q true then x.sqSent else []) with
  | [] => s
  | m :: _ =>
    let slots := sumNat (x.sqSent.map (·.1))
    let from_ := (x.sqTail + 2 ^ 32 - slots) % 2 ^ 32
    let tail := x.sqTail
    let s := s.setQp { x with sqTail := from_, txPsn := m.2.1, sqSent := [] }
    match postGo q tail (s.getObj (Obj.qpSlots q) + 1) s with
    | .ok s => s
    | .error e => postStop s q e

/-- ROCE_ACKNOWLEDGE (R328, R330). An RNR NAK or a sequence NAK has the messages sent again, another NAK moves the QP to error. -/
def execRoceAcknowledge (p : RocePacket) (s : State) : Res :=
  if 1024 ≤ p.qp ∨ p.opcode ≠ 0x11 then .refused .illFormed
  else if !p.icrcOk ∨ s.getObj (Obj.qpState p.qp) ≠ 1 then .next s
  else
    let s := drawCnp s p
    let syn := (p.payload.headD 0).toNat
    if syn < 0x20 then .next (ackSends s p.qp p.psn)
    else if syn < 0x40 ∨ syn = 0x60 then .next (resendSends (ackSends s p.qp ((p.psn + 2 ^ 24 - 1) % 2 ^ 24)) p.qp)
    else .next (s.putObj (Obj.qpState p.qp) 2)

/-- The rate of a QP in 1/64 of its port's: each 10 µs since the last CNP has raised it by one (R326, R328). -/
def qpRate (s : State) (x : Qp) : Nat := min 64 (x.rate + (s.now - x.rateAt) / 10000)

/-- CNP (R326, R328): as ECE for the QP, whose rate is halved, to no less than 1/64. -/
def execCnp (qp : Nat) (s : State) : Res :=
  if 1024 ≤ qp then .refused .illFormed
  else
    let x := s.qp qp
    .next ((s.setQp { x with rate := max 1 (qpRate s x / 2), rateAt := s.now }).addObj Obj.ecnMarks 1)

/-- ROCE_UNSUPPORTED_OPCODE (R328). -/
def execRoceUnsupportedOpcode (p : RocePacket) (s : State) : Res :=
  if 1024 ≤ p.qp ∨ [0x00, 0x01, 0x02, 0x04, 0x06, 0x07, 0x08, 0x0A, 0x0C, 0x0D, 0x0E, 0x0F, 0x10, 0x11].contains p.opcode then .refused .illFormed
  else if !p.icrcOk ∨ s.getObj (Obj.qpState p.qp) ≠ 1 then .next s
  else .next (roceError (drawCnp s p) p.qp p.psn synInvalid)

/-! ### Flow control, time, neighbour discovery -/

/-- PFC_FRAME (R319): the RoCEv2 priority of a port pauses, or resumes with what waited. -/
def execPfcFrame (q : Nat) (pause : Bool) (s : State) : Res :=
  onlyIf s (decide (q < 64) && (s.port q).up) "port that is up" <|
    let s := s.setPort { (s.port q) with paused := pause }
    if pause then .next s
    else
      let mine := s.net.roceWait.filter fun x => x.1 == q
      let s := { s with net := { s.net with roceWait := s.net.roceWait.filter fun x => x.1 != q } }
      .next (mine.foldl (fun s x => s.send (.roce q (roceEnvelope s x.2.1) x.2.1 x.2.2.1 x.2.2.2.1 x.2.2.2.2)) s)

/-- PTP_MESSAGE (R260, R341): a module that may yet become root keeps the time, which the root takes once at discovery (`rootAssign`); afterwards the
root slews toward it. -/
def execPtpMessage (ptpTime : Nat) (s : State) : Res :=
  let st := s.getObj Obj.moduleState
  let ahead : Int := (ptpTime : Int) - s.now
  if s.forced Obj.ptpEnable ≠ 1 ∨ !(st = 4 ∨ st = 5) then .next s
  else if st = 4 ∧ !s.net.timeSet then .next (if candidate s || s.net.best.isNone then { s with net := { s.net with ptp := some ahead } } else s)
  else if !(isRoot s) then .next s
  else
    let off : Int := (s.now : Int) - ptpTime
    .next ({ s with net := { s.net with slew := -off } }.putObj Obj.ptpOffset ((off % 2 ^ 64).toNat))

/-- The management port's interface identifier: its MAC address as a modified EUI-64 (R436; log 60). -/
def mgmtIid : Nat :=
  let m := Config.byTest Obj.mgmtMac % 2 ^ 48
  (m / 2 ^ 24 ^^^ 2 ^ 17) * 2 ^ 40 + 0xFFFE * 2 ^ 24 + m % 2 ^ 24

/-- NEIGHBOUR_DISCOVERY_MESSAGE (R320, R436): answered for the port's own address; port number 64 stands for the management port. -/
def execNeighbourDiscoveryMessage (q : Nat) (pfx iid : Word64) (s : State) : Res :=
  if 64 < q then .refused .illFormed
  else
    let mine := if q = 64 then s.getObj Obj.mgmtLink == 1 && pfx.toNat == 0xFE80 * 2 ^ 48 && iid.toNat == mgmtIid
      else (s.port q).up && pfx.toNat == s.forced Obj.fabricPrefix && iid.toNat == s.ownId + q * 2 ^ 18
    .next (if mine then s.send (.nd q (if q = 64 then none else vlanTag s)) else s)

end Sys2Proof.Machine
end

