-- ==== Sys2Proof/Machine/Coherence.lean ====
section
/-! DEFINITION. Coherence.lean: requests of agents at the home directories and their races (R191 to R194, Tables 6.3 and 6.4),
invalidations at agents and L1s (R188, R193), fills that land at miss registers (R195), and die links that retrain (R25, R203, R354). -/

namespace Sys2Proof.Machine

/-! ### Requests (Table 6.3) -/

/-- The agents that an invalidation for a request of `a` goes to. -/
def toInvalidate (e : DirEnt) (a : Nat) : List Nat := (agentsOf e).filter (· != a)

/-- A copy at an agent is gone; a chiplet port is asked for it, and answers by CP_ACK. -/
def invalidateAgent (s : State) (a : Nat) (l : LineKey) : State :=
  if a < 4 then (if a = lineDie s l then invalidateDie s none a l else dropCopy s none a l)
  else match chipLine s a l with
    | some h => snoopChip s (a - 4) h true
    | none => s

/-- The numbers of the sectors in a mask. -/
def sectorsOf (m : BitVec 8) : List Nat := (List.range 8).filter fun i => m.getLsbD i

/-- The data of a request lands in the LLM of a die's agent (R179, R182, R190): the sectors asked for, or all eight for ownership. -/
def deliver (s : State) (n : Nat) (l : LineKey) (r : DirReq) : State :=
  match l with
  | .shr _ _ => s
  | .dev x =>
    if 4 ≤ r.agent ∨ r.agent = homeDie (x * 512) ∨ !(caches s n r.agent l) then s
    else if r.kind = 2 ∧ (llmOf s r.agent x).isSome then s
    else llmTouch s n r.agent x (sectorsOf r.sectors) false (if r.kind = 0 then .sectors else .whole)

/-- Dirty sectors pass from an owner to the next one; where that one's LLM does not hold the line they return to the home. -/
def passDirty (s : State) (b a : Nat) (l : LineKey) : State :=
  match l with
  | .shr _ _ => s
  | .dev x => match llmOf s b x, llmOf s a x with
    | some y, some _ =>
      if a = homeDie (x * 512) then dirtyHome s b x
      else { s with mem := { s.mem with llm := s.mem.llm.map fun (z : LlmLine) =>
        if z.line = x ∧ z.die = a then { z with under := y.under } else if z.line = x ∧ z.die = b then { z with under := [] } else z } }
    | _, _ => dirtyHome s b x

/-- The home's own LLM or memory supplies a line (R191, R192). -/
def homeSupplies (s : State) (n : Nat) (l : LineKey) (r : DirReq) : State :=
  match l with
  | .shr _ _ => s
  | .dev x => if r.agent = homeDie (x * 512) then s else llmTouch s n (homeDie (x * 512)) x (sectorsOf r.sectors) false .sectors

/-- The entry that a request leaves once its last answer has come: the line is owned, or shared by one more; none where the home itself asked
for ownership. -/
def finishReq (home : Nat) (e : DirEnt) (r : DirReq) : Option DirEnt :=
  let e := { e with req := none, awaited := [], fwd := none, dropped := false, wbk := false }
  if r.kind = 0 then some (if r.agent = home then e else addHolder e r.agent)
  else if r.agent = home then none
  else some { e with state := .owned r.agent, holders := [], broadcast := false }

/-- A request has had its last answer: the entry it leaves, and its data at the requester. -/
def settleReq (s : State) (e : DirEnt) (r : DirReq) : State :=
  let s := match finishReq (lineDie s e.line) e r with
    | some e' => if e'.state = .shared ∧ e'.holders.isEmpty ∧ !e'.broadcast then dropDir s e.line else putDir s e'
    | none => dropDir s e.line
  deliver s e.owner e.line r

/-- A request begins at an entry that is not transient. A shared line that a chiplet port is nearest to is asked of that port (R192). -/
def beginReq (s : State) (e : DirEnt) (r : DirReq) : State :=
  match e.state with
  | .shared =>
    if r.kind = 0 then
      match nearest s e.line r.agent (sectorsOf r.sectors) with
      | some a =>
        if a = lineDie s e.line then settleReq (homeSupplies s e.owner e.line r) e r
        else if a < 4 then settleReq s e r
        else match chipLine s a e.line with
          | some h => snoopChip (putDir s { e with req := some r, fwd := some a }) (a - 4) h false
          | none => settleReq s e r
      | none => settleReq (homeSupplies s e.owner e.line r) e r
    else
      let ts := toInvalidate e r.agent
      let s := if e.broadcast then s.addObj (Obj.broadcasts (lineDie s e.line)) 1 else s
      let s := if r.kind = 2 ∧ (agentsOf e).contains r.agent then s else homeSupplies s e.owner e.line r
      if ts.isEmpty then settleReq s e r else putDir s { e with req := some r, awaited := ts }
  | .owned b => if b = r.agent then putDir s e else putDir s { e with req := some r, fwd := some b }
  | .writeback _ => putDir s { e with queue := e.queue ++ [r] }

/-- A request that can neither begin nor queue at an entry is held at the home, in arrival order. -/
def holdReq (s : State) (l : LineKey) (r : DirReq) : State := { s with mem := { s.mem with heldReqs := s.mem.heldReqs ++ [(l, r)] } }

/-- A line with no entry (state I): the request takes one, unless the home itself asks; it is held at the home while there is no room
(R189). -/
def beginIdle (s : State) (n : Nat) (l : LineKey) (r : DirReq) : State :=
  if r.agent = lineDie s l ∨ dirWays s n (lineDie s l) = 0 then s
  else match dirRoom s n l with
    | .error s => holdReq s l r
    | .ok s => settleReq (homeSupplies s n l r) { line := l, owner := n, state := .shared } r

/-- Requests that waited on a line, in their order, until one must wait for answers. -/
def serveQueue (l : LineKey) : Nat → List DirReq → State → State
  | 0, _, s => s
  | fuel + 1, q, s =>
    match q with
    | [] => s
    | r :: rest => match findDir s l with
      | some e =>
        if transient e then putDir s { e with queue := e.queue ++ q }
        else serveQueue l fuel rest (beginReq s e r)
      | none => match lineOwner s l with
        | some n => serveQueue l fuel rest (beginIdle s n l r)
        | none => s

/-- What follows once a line has left its transient form. -/
def afterReq (s : State) (l : LineKey) (q : List DirReq) : State :=
  let s := match findDir s l with
    | some e => putDir s { e with queue := [] }
    | none => s
  serveQueue l (q.length + 1) q s

/-- A request queues behind one in progress in arrival order. How many of the last ones came in the same cycle is a free choice, and among
those the lower agent number is ordered first (R194, log 109). -/
def enqueue (s : State) (e : DirEnt) (r : DirReq) : State :=
  let early := e.queue.take (e.queue.length - s.freeVal % (e.queue.length + 1))
  let same := e.queue.drop early.length
  putDir (s.useFree 1) { e with queue := early ++ insertBy (fun x y => decide (x.agent < y.agent)) r same }

/-- Whether links join the dies that an agent's request needs (R26). -/
def requestRoads (s : State) (l : LineKey) (r : DirReq) : Bool :=
  (if r.kind = 0 then sectorsOf r.sectors else [0]).all fun i => roadsOpen s ⟨l, i⟩ (r.kind != 0) r.agent

/-- A request for ownership is a write of its page (R361): the wait for the before-image of one that must wait (R362), else the logs with the
page's bit. -/
def ownGate (s : State) (n : Nat) (vas : List Nat) : Except State State :=
  match vas.findSome? fun va => (match imageGate s n va with
    | .error (.wait s) => some s
    | _ => none) with
  | some s => .error s
  | none => .ok (vas.foldl (fun s va => logWrite s n va) s)

/-- A request at the home: behind one in progress it queues (R191, R194); behind one that is held, with no route, or for ownership before its
page's before-image, it is held as well. -/
def takeReq (s : State) (n : Nat) (l : LineKey) (r : DirReq) : State :=
  if s.mem.heldReqs.any (fun x => x.1 == l) || !(requestRoads s l r) then holdReq s l r
  else match (if r.kind = 0 then .ok s else ownGate s n (vasOf s n l)) with
    | .error s => holdReq s l r
    | .ok s => match findDir s l with
      | some e => if transient e then enqueue s e r else beginReq s e r
      | none => beginIdle s n l r

/-- A request of an agent reaches the home. One for ownership of a page is its first write (R361). -/
def dirRequest (a kind : Nat) (l : LineKey) (sectors : BitVec 8) (s : State) : Res :=
  if 6 ≤ a then .refused .illFormed
  else withSome s (lineOwner s l) "line of a slice" fun n =>
    .next (takeReq s n l { agent := a, kind := kind, sectors := sectors })

/-- The requests that are held at their homes, tried again in arrival order. -/
def serveHeld (s : State) : State :=
  if s.mem.heldReqs.isEmpty then s
  else s.mem.heldReqs.foldl (fun s x => match lineOwner s x.1 with
    | some n => takeReq s n x.1 x.2
    | none => s) { s with mem := { s.mem with heldReqs := [] } }

/-- RDS (R24, R191, R192). -/
def execRds (a : Nat) (l : LineKey) (sectors : BitVec 8) (s : State) : Res := dirRequest a 0 l sectors s

/-- RDM (R191). -/
def execRdm (a : Nat) (l : LineKey) (s : State) : Res := dirRequest a 1 l 255 s

/-- UPG (R191): the same as RdM where the agent holds no copy any more; where it does, no data travels. -/
def execUpg (a : Nat) (l : LineKey) (s : State) : Res := dirRequest a 2 l 255 s

/-- Whether an agent's copy of a line has dirty sectors. -/
def dirtyAt (s : State) (a : Nat) (l : LineKey) : Bool := match l with
  | .dev x => match llmOf s a x with
    | some y => !y.under.isEmpty
    | none => false
  | .shr _ _ => false

/-- WBK (R191, R194): the owner's dirty sectors are on their way; a forward already sent to it is answered from its buffer, and the home writes
the data beneath and keeps the state that the forward creates. -/
def execWbk (a : Nat) (l : LineKey) (dirty : BitVec 8) (s : State) : Res :=
  if 6 ≤ a ∨ dirty = 0 then .refused .illFormed
  else withSome s (findDir s l) "directory entry" fun e =>
    .next (if e.state ≠ .owned a then s
      else if e.fwd = none then putDir s { e with state := .writeback a }
      else if e.fwd = some a then putDir s { e with wbk := true } else s)

/-- An owner's line is given up without data; a forward already sent is answered with no data (R194). -/
def dropOwned (s : State) (a : Nat) (l : LineKey) (e : DirEnt) : State :=
  if e.fwd = none then dropDir (dropCopy s none a l) l else if e.fwd = some a then putDir s { e with dropped := true } else s

/-- DROP (R191, R194): an owned line is given up without data, which an agent does only where it has no dirty sector; a forward already sent
is answered with no data. -/
def execDropLine (a : Nat) (l : LineKey) (s : State) : Res :=
  if 6 ≤ a then .refused .illFormed
  else withSome s (findDir s l) "directory entry" fun e =>
    .next (if e.state ≠ .owned a ∨ dirtyAt s a l then s else dropOwned s a l e)

/-- An owner's writeback that met a forward (Table 6.4): its dirty sectors are written beneath, also where the home's LLM holds an older value as
dirty, and it keeps none as dirty. -/
def writeBeneath (s : State) (a x : Nat) : State := match llmOf s a x with
  | none => s
  | some y =>
    let home := homeDie (x * 512)
    let clean (z : LlmLine) : LlmLine := { z with under := z.under.filter fun p => !(y.under.any fun q => q.1 == p.1) }
    let s := { s with mem := { s.mem with llm := mapIf (fun z => z.die == home && z.line == x) clean s.mem.llm } }
    setUnder s a x []

/-- An agent has answered a forward (Table 6.3): an owner sends its data and, for RdS, keeps a shared copy and returns its dirty sectors to
the home; for ownership its copy goes. One that had sent Drop answers with no data. A chiplet port asked for a shared line stays a holder. -/
def forwarded (s : State) (a : Nat) (l : LineKey) (e : DirEnt) (r : DirReq) : State :=
  let home := lineDie s l
  let base : DirEnt := match e.state with
    | .shared => e
    | _ => { e with state := .shared, holders := if r.kind = 0 && !e.dropped && a != home then [a] else [], broadcast := false }
  let s := if e.dropped then homeSupplies s e.owner l r else s
  let s := match l with
    | .dev x => if e.wbk then writeBeneath s a x else s
    | .shr _ _ => s
  let s := settleReq s { base with queue := [] } r
  let s := if e.state = .shared ∨ 4 ≤ a then s
    else if r.kind = 0 ∧ !e.dropped then (match l with
      | .dev x => dirtyHome s a x
      | .shr _ _ => s)
    else dropCopy (passDirty s a r.agent l) none a l
  afterReq s l e.queue

/-- FORWARD (R193): the owner first completes the accesses that wait on the line, then answers; a chiplet's die is asked for the line, and
answers by CP_ACK. -/
def execForwardLine (a : Nat) (l : LineKey) (s : State) : Res :=
  withSome s (findDir s l) "directory entry" fun e =>
    onlyIf s (e.fwd == some a) "forward" <| withSome s e.req "request" fun r =>
      match chipLine s a l with
      | some h => .next (snoopChip s (a - 4) h (r.kind != 0))
      | none => .next (if agentWaits s a l then s else forwarded s a l e r)

/-- An agent has answered an invalidation; the last answer settles the request, or frees an entry that is evicted (R189). -/
def answered (s : State) (a : Nat) (l : LineKey) : State :=
  match findDir s l with
  | none => s
  | some e =>
    if !(e.awaited.contains a) then s
    else
      let left := e.awaited.filter (· != a)
      if !left.isEmpty then putDir s { e with awaited := left }
      else match e.req with
        | none => if e.evict then afterReq (dropDir s l) l e.queue else putDir s { e with awaited := [] }
        | some r => afterReq (settleReq s { e with holders := [], broadcast := false, queue := [] } r) l e.queue

/-- An agent gives a line up, or keeps it shared, while no request is in progress at the home. -/
def dirForget (s : State) (a : Nat) (l : LineKey) (keeps : Bool) : State :=
  match findDir s l with
  | none => s
  | some e =>
    if transient e then s
    else match e.state with
    | .owned b => if b ≠ a then s else if keeps then putDir s { e with state := .shared, holders := [a], broadcast := false } else dropDir s l
    | .shared =>
      let hs := e.holders.filter (· != a)
      if keeps || e.broadcast then s else if hs.isEmpty then dropDir s l else putDir s { e with holders := hs }
    | .writeback _ => s

/-- A chiplet port's die has answered a snoop: the home goes on. -/
def snoopDone (s : State) (p : Nat) (l : LineKey) : State :=
  match findDir s l with
  | none => s
  | some e => match e.fwd, e.req with
    | some a, some r => if a = 4 + p then forwarded s a l e r else answered s (4 + p) l
    | _, _ => answered s (4 + p) l

/-- INVALIDATION (R169, R188, R193): an agent drops its copy, one whose fill is on its way answers at once and will not keep the data; an
L1 queues it. -/
def execInvalidation (t : InvTarget) (l : LineKey) (s : State) : Res :=
  match t with
  | .agent a =>
    if 6 ≤ a then .refused .illFormed
    else
      let onDie (u : MissUnit) : Bool := match u with
        | .l1 c => c / 156 == a
        | .llc d _ => d == a
      let s := { s with mem := { s.mem with miss := mapIf (fun m => m.line == l && onDie m.u) (fun m => { m with invalidated := true }) s.mem.miss } }
      .next (match chipLine s a l with
        | some h => snoopChip s (a - 4) h true
        | none => answered (invalidateAgent s a l) a l)
  | .core c =>
    if 624 ≤ c then .refused .illFormed
    else .next { s with mem := { s.mem with invq := addNew (c, l) s.mem.invq } }

/-- WRITEBACK_LANDS (R194): the dirty sectors are at the home, the agent's copy is gone, and the requests that waited are served. -/
def execWritebackLands (l : LineKey) (s : State) : Res :=
  withSome s (findDir s l) "directory entry" fun e =>
    match e.state with
    | .writeback a => .next (afterReq (dropDir (dropCopy s none a l) l) l e.queue)
    | _ => .next s

/-! ### Fills (R179, R182, R195) -/

/-- The waiters of a register whose data has landed are served in arrival order, before later requests for the line. -/
def queueWaiters (s : State) (m : MissReg) (ws : List Asker) : State :=
  let keys := (sectorsOf m.requested).flatMap fun i => ws.map fun w => ((w, ⟨m.line, i⟩) : Asker × SectKey)
  { s with mem := { s.mem with waitingReq := keys.foldl (fun q k => addNew k q) s.mem.waitingReq } }

/-- A register is freed, and the first access that waits at the cache's input takes one; an L1's is a waiter of the home's. Another access that
waited for the same line joins it. -/
def freeMiss (s : State) (u : MissUnit) (l : LineKey) : State :=
  let rest := s.mem.miss.filter fun x => !(x.u == u && x.line == l)
  match s.mem.missInput.find? fun m => m.u == u with
  | none => { s with mem := { s.mem with miss := rest } }
  | some m =>
    let same := s.mem.missInput.filter fun x => x.u == u && x.line == m.line
    let m : MissReg := { m with waiters := (same.flatMap (·.waiters)).take 16, requested := same.foldl (fun b x => b ||| x.requested) m.requested }
    let s := { s with mem := { s.mem with miss := rest ++ [m], missInput := s.mem.missInput.filter fun x => !(x.u == u && x.line == m.line) } }
    match u, missOf s (homeUnit s m.line) m.line with
    | .l1 c, some h => addWaiter s h (.unit ((m.waiters.findSome? askerCtx).getD 0) c) 0
    | _, _ => s

/-- Sectors that landed at an L1 join its line there (R179, R190); none where one of them cannot be had yet. -/
def l1Fill (s : State) (core : Nat) (m : MissReg) : List Nat → Option State
  | [] => some s
  | i :: is =>
    let k : SectKey := ⟨m.line, i⟩
    match reach s k false (.unit ((m.waiters.findSome? askerCtx).getD 0) core) with
    | .error _ => none
    | .ok () =>
      let s := readVia s m.slice (core / 156) m.line [i] (if m.bypass then .bypass else .sectors)
      let (s, v) := readSect s k
      l1Fill (l1Keep s core m.slice k v m.bypass) core m is

/-- FILL_DATA_ARRIVAL (R179, R182, R193, R195): the sectors asked for are there and the register is freed; the line is kept unless it was
invalidated meanwhile. An L1's data comes after that of the home's LLC slice. -/
def execFillDataArrival (u : MissUnit) (l : LineKey) (s : State) : Res :=
  withSome s (missOf s u l) "miss register" fun r =>
    match u with
    | .llc d _ =>
      let s := queueWaiters (freeMiss s u l) r (r.waiters.filter fun w => match w with
        | .unit _ c => (missOf s (.l1 c) l).isNone
        | _ => true)
      .next (if r.invalidated then s
        else match l with
          | .dev x => llmTouch s r.slice d x (sectorsOf r.requested) false (if r.bypass then .bypass else .sectors)
          | .shr _ _ => s)
    | .l1 c =>
      if (missOf s (homeUnit s l) l).isSome then .next s
      else
        let s' := freeMiss s u l
        if r.invalidated then .next (queueWaiters s' r r.waiters)
        else match l1Fill s' c r (sectorsOf r.requested) with
          | some s' => .next (queueWaiters s' r r.waiters)
          | none => .next s

/-! ### Die links (R25, R26, R203) -/

/-- A link has gone out of service: an event is counted where two or more are (R26). -/
def countOut (before s : State) : State := if linksOut before < linksOut s ∧ 2 ≤ linksOut s then s.addObj Obj.multiLinkOut 1 else s

/-- DIE_LINK_RETRAIN (R25, R203, R354, R379): it begins only once a frozen link has drained; after three failed attempts the link is dead;
two dead links make the module cold. -/
def execDieLinkRetrain (l fails : Nat) (s : State) : Res :=
  if 8 ≤ l then .refused .illFormed
  else onlyIf s (!(bitN (s.getObj Obj.linksDead) l) && decide (3 ≤ s.getObj Obj.moduleState)) "die link in use" <|
    if s.getObj (Obj.linkFreeze l) = 1 ∧ s.getObj (Obj.linkDrained l) = 0 then .next s
    else if fails < 3 then .next (countOut s { s with mem := { s.mem with retrain := addNew l s.mem.retrain } })
    else
      let s' := ({ s with mem := { s.mem with retrain := s.mem.retrain.filter (· != l) } }).putObj Obj.linksDead (s.getObj Obj.linksDead + 2 ^ l)
      let s' := countOut s s'
      .next (if 2 ≤ popN 8 (s'.getObj Obj.linksDead) then goCold s' 0x05 else s')

/-- DIE_LINK_RETURN (R25). -/
def execDieLinkReturn (l : Nat) (s : State) : Res :=
  onlyIf s (s.mem.retrain.contains l) "link that retrains" <| .next { s with mem := { s.mem with retrain := s.mem.retrain.filter (· != l) } }

end Sys2Proof.Machine
end

