-- ==== Sys2Proof/Machine/Pages.lean ====
section
/-! DEFINITION. Pages.lean: physical pages. What is free in each tier and where a page is taken from (R212, R244, R364, R382, R390), the
tables of a slice's translation area (R154, R155), pages moved and zeroed (R244, R401). -/

namespace Sys2Proof.Machine

/-! ### What slices hold (Table 13.1) -/

/-- The resources of a slice that exists, as its staged objects name them. -/
def heldOf (s : State) (n : Nat) : Held :=
  { slice := n, world := s.getObj (Obj.sWorld n), rows := s.getObj (Obj.sRows n), cache := (List.range 4).map fun d => s.getObj (Obj.sCacheWays n d),
    scratch := (List.range 4).map fun d => s.getObj (Obj.sScratchWays n d), stacked := s.getObj (Obj.sStacked n), ddr := s.getObj (Obj.sDdr n),
    cxl := s.getObj (Obj.sCxl n), chans := s.getObj (Obj.sChannels n), share := s.getObj (Obj.sPortShare n), mapBase := (s.slice n).mapBase,
    mapEntries := s.getObj (Obj.sMapEntries n), areas := s.getObj (Obj.sTransArea n) * 2 ^ 20 + s.getObj (Obj.saveArea n) }

/-- Everything that is held: by slices that exist, and by destroyed ones until their scrub ends (R401). -/
def holds (s : State) : List Held := (liveSlices s).map (heldOf s) ++ s.scrubs

/-! ### Free memory -/

/-- Bytes of a device area of stacked memory that holds the context map (R212). -/
def contextMapBytes : Nat := 2 ^ 31

/-- Bytes granted within a range. -/
def grantedIn (s : State) (lo hi : Nat) : Nat := sumNat (s.mem.extents.map fun e => within e lo hi)

/-- The lowest multiple of `size` from which `size` bytes are free in [lo, hi). -/
def lowestRoom (s : State) (lo hi size : Nat) : Option Nat :=
  let cands := (lo :: (s.mem.extents.filter fun e => decide (lo ≤ e.base + e.size ∧ e.base < hi)).map fun e => e.base + e.size).map (padUp size)
  let fits := cands.filter fun a => decide (lo ≤ a ∧ a + size ≤ hi) && s.mem.extents.all fun e => decide (within e a (a + size) = 0)
  match fits with
  | [] => none
  | a :: l => some (l.foldl min a)

/-- A die window's range for pages: up to its reserve, or up to STACK_TOP (R244). -/
def windowHi (s : State) (d : Nat) (reserve : Bool) : Nat := s.getObj (Obj.stackTop d) - (if reserve then 0 else 2 ^ 33)

def roomOnDie (s : State) (size : Nat) (reserve : Bool) (d : Nat) : Option Nat := lowestRoom s (d * dieWindow) (windowHi s d reserve) size

/-- The dies in the order in which a request takes pages from them (R390). -/
def dieOrder (s : State) (pref : Option Nat) (reserve : Bool) : List Nat :=
  match pref with
  | some p =>
    let dist (d : Nat) : Nat := if d = p then 0 else 1 + s.getObj (Obj.dieDistance (5 * p + d))
    sortBy (fun a b => decide (dist a < dist b ∨ (dist a = dist b ∧ a < b))) (List.range 4)
  | none =>
    let lo (d : Nat) : Nat := if reserve then windowHi s d false else d * dieWindow
    let free (d : Nat) : Nat := windowHi s d reserve - lo d - grantedIn s (lo d) (windowHi s d reserve)
    sortBy (fun a b => decide (free b < free a ∨ (free a = free b ∧ a < b))) (List.range 4)

/-- A stacked page of a size: below the reserves first, within them only where no other is free. -/
def pickStacked (s : State) (size : Nat) (pref : Option Nat) : Option Nat :=
  if !(s.mem.zeroed.contains .stacked) then none
  else match (dieOrder s pref false).filterMap (roomOnDie s size false) with
    | a :: _ => some a
    | [] => ((dieOrder s pref true).filterMap (roomOnDie s size true)).head?

/-- Bytes of the bank reserve, the top of the DDR tier (R364). -/
def ddrTop (s : State) : Nat := ddrBase + 2 ^ 40 - s.bank.reserve

/-- A page of a tier. -/
def pickPage (s : State) (tier size : Nat) (pref : Option Nat) : Option Nat :=
  match tier with
  | 0 => pickStacked s size pref
  | 1 => if s.getObj Obj.ddrPresent = 1 ∧ s.mem.zeroed.contains .ddr then lowestRoom s ddrBase (ddrTop s) size else none
  | 2 => if s.mem.zeroed.contains .cxl then (s.mem.cxlRegions.filterMap fun r => lowestRoom s r.1 (r.1 + r.2.1) size).head? else none
  | _ => none

/-- An extent granted to a slice. -/
def grant (s : State) (n : Nat) (u : Use) (base size : Nat) : State :=
  { s with mem := { s.mem with extents := s.mem.extents ++ [{ base := base, size := size, slice := n, use := u }] } }

/-! ### Zeroing -/

/-- Whether a line is not one of a physical range. -/
def outside (lo hi : Nat) : LineKey → Bool
  | .dev l => !(decide (lo ≤ l * 512 ∧ l * 512 < hi))
  | .shr _ _ => true

/-- Every byte of a physical range reads zero; nothing of it is cached, fetched, poisoned or discarded any more. -/
def zeroRange (s : State) (lo size : Nat) : State :=
  let hi := lo + size
  let m := s.mem
  { s with mem := { m with
    bytes := m.bytes.filter fun c => !(decide (lo ≤ c.1 ∧ c.1 < hi)),
    poison := m.poison.filter fun p => !(decide (lo ≤ p * 64 ∧ p * 64 < hi)),
    dead := m.dead.filter fun d => !(decide (lo ≤ d.sector * 64 ∧ d.sector * 64 < hi)),
    llm := m.llm.filter fun x => outside lo hi (.dev x.line),
    l1 := m.l1.filter fun x => outside lo hi x.line,
    dirs := m.dirs.filter fun x => outside lo hi x.line,
    ldirs := m.ldirs.filter fun x => outside lo hi x.line,
    miss := m.miss.filter fun x => outside lo hi x.line,
    missInput := m.missInput.filter fun x => outside lo hi x.line } }

/-! ### Translation tables (R154, R155) -/

/-- A table entry written. -/
def putPte (s : State) (a v : Nat) : State := { s with mem := { s.mem with bytes := cellsPut s.mem.bytes a (toLe 8 v) } }

/-- Bytes of a slice's translation area. -/
def transBytes (s : State) (n : Nat) : Nat := s.getObj (Obj.sTransArea n) * 2 ^ 20

/-- A table taken from the rest of the translation area: the lowest free place (R155). -/
def newTable (s : State) (n l : Nat) : Option (State × Nat) :=
  let x := s.slice n
  let size := tableBytes l
  let lo := 2 ^ 21 + x.transBase
  let hi := x.transBase + transBytes s n
  let hits (a : Nat) (t : Table) : Bool := decide (a < t.base + tableBytes t.level ∧ t.base < a + size)
  let cands := (lo :: x.tables.map fun t => t.base + tableBytes t.level).map (padUp size)
  match cands.filter fun a => decide (lo ≤ a ∧ a + size ≤ hi) && !(x.tables.any (hits a)) with
  | [] => none
  | a :: as =>
    let a := as.foldl min a
    some (s.setSlice { x with tables := x.tables ++ [{ level := l, base := a }] }, a)

/-- A leaf entry written at level `leaf` for a virtual address, with the tables that it needs; none where something is mapped there
already or a table finds no room. -/
def putLeaf (n va leaf v : Nat) : Nat → Nat → State → Option State
  | l, base, s =>
    let a := base + 8 * levelIndex l va
    let p := pteAt s base (levelIndex l va)
    match l with
    | 0 => if p.valid then none else some (putPte s a v)
    | k + 1 =>
      if k + 1 = leaf then (if p.valid then none else some (putPte s a v))
      else if p.valid then (if p.leaf then none else putLeaf n va leaf v k p.addr s)
      else match newTable s n k with
        | none => none
        | some (s, t) =>
          let ptr : Pte := { valid := true, leaf := false, write := false, exec := false, world := 0, banked := false, addr := t }
          putLeaf n va leaf v k t (putPte s a (encodePte ptr))

/-- Whether a table holds no entry. -/
def tableEmpty (s : State) (t : Table) : Bool :=
  !(s.mem.bytes.any fun c => decide (t.base ≤ c.1 ∧ c.1 < t.base + tableBytes t.level))

/-- Tables of levels 0, 1 and 2 that UNMAP has left empty on the walk of a virtual address are freed (R155). -/
def freeTables (n va : Nat) : Nat → Nat → State → State
  | 0, _, s => s
  | k + 1, base, s =>
    let p := pteAt s base (levelIndex (k + 1) va)
    if !p.valid || p.leaf then s
    else
      let s := freeTables n va k p.addr s
      let t : Table := { level := k, base := p.addr }
      if tableEmpty s t then
        let x := s.slice n
        putPte (s.setSlice { x with tables := x.tables.filter fun y => y.base != t.base }) (base + 8 * levelIndex (k + 1) va) 0
      else s

/-! ### Pages that move (R244) -/

/-- An address in a moved range. -/
def moved (old size new a : Nat) : Nat := if old ≤ a ∧ a < old + size then new + (a - old) else a

/-- The entries of a table that point into a moved range are rewritten. -/
def retarget (old size new : Nat) (s : State) (t : Table) : State :=
  let es := (s.mem.bytes.filter fun c => decide (t.base ≤ c.1 ∧ c.1 < t.base + tableBytes t.level)).foldl
    (fun l c => addNew ((c.1 - t.base) / 8) l) []
  es.foldl (fun s i =>
    let p := pteAt s t.base i
    if p.valid && decide (old ≤ p.addr ∧ p.addr < old + size) then putPte s (t.base + 8 * i) (encodePte { p with addr := moved old size new p.addr }) else s) s

/-- A context-map entry whose storage may have moved. -/
def moveEntry (old size new : Nat) (e : Nat × CtxEntry) : Nat × CtxEntry :=
  (e.1, { e.2 with addr := if e.2.state = 2 then moved old size new e.2.addr else e.2.addr })

/-- What a slice holds of a moved range. -/
def moveSlice (old size new : Nat) (x : Slice) : Slice :=
  let mv := moved old size new
  { x with transBase := mv x.transBase, saveBase := mv x.saveBase, tables := x.tables.map fun (t : Table) => { t with base := mv t.base },
           entries := x.entries.map (moveEntry old size new), pools := x.pools.map fun (p : PoolPage) => { p with pa := mv p.pa },
           quar := x.quar.map fun (q : Quar) => { q with pa := mv q.pa } }

def moveMapSeal (old size new : Nat) (m : MapSeal) : MapSeal := { m with entries := m.entries.map (moveEntry old size new) }

def moveImage (old size new : Nat) (i : Image) : Image := { i with pa := moved old size new i.pa }

/-- What a lock set holds of a moved range. -/
def moveLockSet (old size new : Nat) (x : LockSet) : LockSet :=
  { x with images := x.images.map (moveImage old size new), mapSeals := x.mapSeals.map (moveMapSeal old size new) }

/-- A line key in a moved range. -/
def moveKey (old size new : Nat) : LineKey → LineKey
  | .dev l => .dev (moved (old / 512) (size / 512) (new / 512) l)
  | .shr n l => .shr n l

/-- A buffered store to a line of a moved range. -/
def moveStore (old size new : Nat) (e : StoreEnt) : StoreEnt := { e with line := moveKey old size new e.line }

/-- A line that a chiplet die holds, moved. -/
def moveHeld (old size new : Nat) (h : HeldLine) : HeldLine := { h with line := moveKey old size new h.line }

/-! ### The region table (R393) -/

/-- Whether a granted extent holds data of world S. -/
def worldS (s : State) (e : Extent) : Bool :=
  if e.use = .scrub then s.scrubs.any fun h => h.slice == e.slice && h.world == 1 else e.use != .table && decide (e.slice < 64) && sliceWorld s e.slice == 1

/-- Extents in rising order as runs of one slice: base, size, slice. -/
def secureRuns : List Extent → List (Nat × Nat × Nat)
  | [] => []
  | e :: l => match secureRuns l with
    | (b, z, n) :: rest => if e.base + e.size = b ∧ e.slice = n then (e.base, e.size + z, n) :: rest else (e.base, e.size, e.slice) :: (b, z, n) :: rest
    | [] => [(e.base, e.size, e.slice)]

/-- The region table: an entry of world S for each run of a secure-world slice's memory, at most 64 (log 69). -/
def noteRegions (s : State) : State :=
  let rs := secureRuns (sortBy (fun (a b : Extent) => decide (a.base < b.base)) (s.mem.extents.filter (worldS s)))
  (List.range 64).foldl (fun s e =>
    let r := rs.getD e (0, 0, 0xFF)
    (((s.putObj (Obj.rgnBase e) r.1).putObj (Obj.rgnSize e) r.2.1).putObj (Obj.rgnWorld e) (if r.2.1 = 0 then 0 else 1)).putObj (Obj.rgnSlice e) r.2.2) s

/-- A range of physical memory moved to another place: contents, marks, translation entries, and every record of its address. -/
def relocate (s : State) (old size new : Nat) : State :=
  let sec (p : Nat) : Nat := moved (old / 64) (size / 64) (new / 64) p
  let cells : List Host.Cell := (s.mem.bytes.filter fun (c : Host.Cell) => decide (old ≤ c.1 ∧ c.1 < old + size)).map fun (c : Host.Cell) => (moved old size new c.1, c.2)
  let poison := s.mem.poison.map sec
  let dead := s.mem.dead.map fun (d : DeadSector) => { d with sector := sec d.sector }
  let pins := (s.mem.llm.filter fun x => x.pinned && decide (old ≤ x.line * 512 ∧ x.line * 512 < old + size)).map fun (x : LlmLine) =>
    { x with line := moved (old / 512) (size / 512) (new / 512) x.line, die := homeDie (moved old size new (x.line * 512)) }
  let s := zeroRange (zeroRange s old size) new size
  let exts := s.mem.extents.map fun (e : Extent) => { e with base := moved old size new e.base }
  let s : State := { s with mem := { s.mem with bytes := cellsAdd s.mem.bytes cells, poison := poison, dead := dead, llm := pins ++ s.mem.llm, extents := exts } }
  let s : State := { s with slices := s.slices.map (moveSlice old size new), locks := s.locks.map (moveLockSet old size new) }
  let s : State := { s with stores := s.stores.map (moveStore old size new), mem := { s.mem with
    waitingReq := s.mem.waitingReq.map fun (x : Asker × SectKey) => (x.1, { x.2 with line := moveKey old size new x.2.line }),
    heldReqs := s.mem.heldReqs.map fun (x : LineKey × DirReq) => (moveKey old size new x.1, x.2) } }
  let s : State := { s with chips := s.chips.map fun (c : Chiplet) => { c with held := c.held.map (moveHeld old size new) } }
  noteRegions (s.slices.foldl (fun (s : State) (x : Slice) => ({ level := 3, base := x.transBase : Table } :: x.tables).foldl (retarget old size new) s) s)

end Sys2Proof.Machine
end

