-- ==== Sys2Proof/Machine/MemTier.lean ====
section
/-! DEFINITION. MemTier.lean: errors of the memory tiers, of cores and links (R239, R240, R250 to R252, R258, R354, R357), patrol, the end
of a map-out (R241 to R245), core hangs and self-tests (R356, R408), spares (R28, R358) and maintenance points (R359). -/

namespace Sys2Proof.Machine

/-! ### Times of corrected errors -/

def upNow (s : State) : Nat := s.getObj Obj.uptime

/-- Times of the last second, this one with them. -/
def lastSecond (now : Nat) (ts : List Nat) : List Nat := ts.filter (fun t => decide (now < t + 1000000000)) ++ [now]

/-- A failing channel or a dead core waits for a bank point or a maintenance point from now on (R359). -/
def needPoint (s : State) : State :=
  match s.bank.maintSince with
  | some _ => s
  | none => { s with bank := { s.bank with maintSince := some (upNow s) } }

/-- A stack channel becomes failing (R239); on a die with four mapped out the module goes cold (R240). -/
def channelFailing (s : State) (st ch : Nat) : State :=
  if s.getObj (Obj.chState st ch) ≠ 0 then s
  else if 4 ≤ s.getObj (Obj.mapouts (st / 3)) then goCold (s.putObj (Obj.chState st ch) 1) 0x02
  else needPoint (s.putObj (Obj.chState st ch) 1)

/-- A corrected error of a stack channel (R239, R251). -/
def stackCorrected (s : State) (st ch : Nat) : State :=
  let k := 32 * st + ch
  let s := s.addObj (Obj.chCorrected st ch) 1
  let mine := lastSecond (upNow s) ((s.mem.errSecond.filter fun e => e.1 == k).map (·.2))
  let s := { s with mem := { s.mem with errSecond := s.mem.errSecond.filter (fun e => e.1 != k) ++ mine.map fun t => (k, t) } }
  if s.getObj Obj.failLimit ≤ mine.length then channelFailing s st ch else s

/-! ### Cores (R28, R356 to R358) -/

/-- The spare of a row, and the sites found dead in it. -/
def spareKey (row : Nat) : Nat := Obj.spareSite (row / 12) (row % 12)
def deadKey (row : Nat) : Nat := Obj.deadSites (row / 12) (row % 12)

/-- The physical site of a core: ascending over the good sites at test, the spare for a column that it has taken. -/
def siteOf (s : State) (c : Nat) : Nat :=
  let row := c / 13
  let col := c % 13
  if objReset (spareKey row) = 13 then (if bitN (s.getObj (deadKey row)) col then 13 else col)
  else
    let f := ((List.range 14).find? fun i => bitN (objReset (deadKey row)) i).getD 14
    if f ≤ col then col + 1 else col

/-- A core is declared dead (R356, R357): a dead site more; without an unused spare the module goes cold (R379). -/
def coreDead (s : State) (c : Nat) (hung : Bool) : State :=
  let x := s.core c
  if x.dead then s.setCore { x with hung := x.hung || hung }
  else
    let row := c / 13
    let site := siteOf s c
    let used := s.getObj (spareKey row) = 0xFF ∨ s.cores.any fun y => y.dead && y.no / 13 == row
    let d := s.getObj (deadKey row)
    let s := s.putObj (deadKey row) (if bitN d site then d else d + 2 ^ site)
    let s := s.setCore { x with dead := true, hung := hung }
    if used then goCold s 0x01 else needPoint s

/-- The work whose gangs stand on a core. -/
def workOn (s : State) (c : Nat) : List (Nat × Nat) :=
  (s.launches.filter fun l => onCores l && l.live.any fun g => g.core == c).foldl (fun l x => addNew (x.ch, x.seq) l) []

/-- CORE_HANG (R356): the core holds a gang, or has missed the bound of a kill; a class 0x02 event for the work on it. -/
def execCoreHang (core : Nat) (s : State) : Res :=
  if 624 ≤ core then .refused .illFormed
  else
    let work := workOn s core
    onlyIf s (!work.isEmpty && !(s.core core).hung) "core that holds a gang" <|
      let s := coreDead (s.addObj Obj.coreHangs 1) core true
      .next (workEvent s 0x02 work)

/-- Whether a core is tested: it is not dead and holds no gang (R357). -/
def testable (s : State) (c : Nat) : Bool := !(s.core c).dead && (gangsOn s c).isEmpty

/-- ROW_SELF_TEST (R357, R408): the cores of a row that hold no gang: all of one that no slice holds, the idle ones of another (log 117). -/
def execRowSelfTest (die row : Nat) (failed : BitVec 13) (s : State) : Res :=
  if 4 ≤ die ∨ 12 ≤ row then .refused .illFormed
  else
    let r := 12 * die + row
    onlyIf s (decide (3 ≤ s.getObj Obj.moduleState)) "core power" <|
      let bad := (List.range 13).filter fun c => failed.getLsbD c && testable s (13 * r + c)
      let s := s.addObj (Obj.selftestRuns die) ((List.range 13).filter fun c => testable s (13 * r + c)).length
      let s := s.addObj (Obj.selftestFails die) bad.length
      .next (bad.foldl (fun s c => coreDead s (13 * r + c) false) s)

/-- SPARE_REPLACEMENT_COMPLETE (R28, R358): the row's dead column runs on the spare. -/
def execSpareReplacementComplete (die row : Nat) (s : State) : Res :=
  let r := 12 * die + row
  withSome s (s.cores.find? fun c => c.replacing && c.no / 13 == r) "replacement" fun c =>
    let s := s.setCore { c with dead := false, hung := false, replacing := false, errTimes := [] }
    let s := (s.putObj (spareKey r) 0xFF).addObj Obj.coresReplaced 1
    .next ((List.range 64).foldl (fun s n => if (s.getObj (Obj.sRows n)).testBit r ∧ s.getObj (Obj.sState n) ≠ 0 then placeSlice s n else s) s)

/-! ### Corrected errors -/

/-- CORRECTED_ERROR (R239, R240, R250, R354, R357). A chiplet link's is a retry of the UCIe adapter (R445);
the LLM has no counter. -/
def execCorrectedError (p : ErrPlace) (s : State) : Res :=
  match p with
  | .stack st ch repairFailed =>
    if 12 ≤ st ∨ 32 ≤ ch then .refused .illFormed
    else .next (if s.getObj (Obj.chState st ch) = 2 then s
      else
        let s := stackCorrected s st ch
        if repairFailed then channelFailing s st ch else s)
  | .ddr ch => if 8 ≤ ch then .refused .illFormed else .next (s.addObj (Obj.ddrCorrected ch) 1)
  | .core c =>
    if 624 ≤ c then .refused .illFormed
    else
      let x := s.core c
      let ts := lastSecond (upNow s) x.errTimes
      let s := s.setCore { x with errTimes := ts }
      .next (if 16 ≤ ts.length then coreDead s c false else s)
  | .port q => if 16 ≤ q then .refused .illFormed else .next (s.addObj (Obj.fecCorrected q) 1)
  | .cxl x => if 8 ≤ x then .refused .illFormed else .next (s.addObj (Obj.cxlFlitRetries x) 1)
  | .chiplet p => if 2 ≤ p then .refused .illFormed else .next (s.addObj (Obj.cpRetries p) 1)
  | .llm => .next s

/-! ### Uncorrectable errors (R252, Table 12.1) -/

/-- Every sector of a line is marked poisoned. -/
def poisonLine (s : State) (l : Nat) : State :=
  { s with mem := { s.mem with poison := (List.range 8).foldl (fun ps i => addNew (8 * l + i) ps) s.mem.poison } }

/-- The error is counted at its channel or port. -/
def countUncorrected (s : State) (pa : Nat) : State :=
  match tierOf pa with
  | 0 => let c := stackChannel s pa; s.addObj (Obj.chUncorrected c.1 c.2) 1
  | 1 => s.addObj (Obj.ddrUncorrected (ddrChannel pa)) 1
  | _ => match cxlPort s pa with
    | some x => s.addObj (Obj.cxlPoison x) 1
    | none => s

/-- The enabled lock sets whose member slices have a physical address in a banked page. -/
def bankedSets (s : State) (pa : Nat) : List Nat :=
  (enabledSets s).filter fun k => (memberSlices s k).any fun n => (bankedPages s n).any fun p => match pageBase s n p with
    | some b => decide (b ≤ pa ∧ pa < b + 65536)
    | none => false

/-- An uncorrectable error found by a reader: an event of the lock sets that bank the line, and of the reader's own work (R355, R375). -/
def uncorrectable (s : State) (l : Nat) (r : ErrReader) : State :=
  let pa := l * 512
  let s := countUncorrected (poisonLine s l) pa
  let reserve := ddrTop s ≤ pa ∧ pa < ddrBase + 2 ^ 40
  if reserve ∨ r = .bankReserve then goCold s 0x03
  else
    let sets := bankedSets s pa
    let work : List (Nat × Nat) := match r with
      | .launch ctx => ((s.launch? ctx).map fun x => (x.ch, x.seq)).toList
      | .command ch seq => [(ch, seq)]
      | _ => []
    let other (w : Nat × Nat) : Bool := match lsOf s w.1 with
      | some k => !(sets.contains k)
      | none => true
    let s := if sets.isEmpty && work.isEmpty then s else s.addObj Obj.uncorrectedEvents 1
    let s := workEvent (sets.foldl (originate · 0x01 ·) s) 0x01 (work.filter other)
    match r with
      | .emberMove n =>
        let x := s.slice n
        match x.moves.find? fun m => m.started with
        | some m => startMoves (s.setSlice { x with moves := x.moves.filter fun y => !(y.handle == m.handle), abandoned := addNew m.handle x.abandoned }) n
        | none => s
      | _ => s

/-- UNCORRECTABLE_ERROR (R252, R354, R375, Table 12.1). -/
def execUncorrectableError (line : Nat) (reader : ErrReader) (s : State) : Res :=
  onlyIf s (paExists s (line * 512) || (List.range 8).any fun i => s.mem.poison.contains (8 * line + i)) "line" <| .next (uncorrectable s line reader)

/-- Whether a line's stack channel grants nothing, wherever the line is cached (R249). -/
def lineFrozen (s : State) (line : Nat) : Bool :=
  decide (line * 512 < 4 * dieWindow) && (let c := stackChannel s (line * 512); s.getObj (Obj.chFreeze c.1 c.2) == 1)

/-- PATROL_SCRUB (R239, R249, R251, R252): a line of a tier in service, whose channel is not frozen. -/
def execPatrolScrub (line : Nat) (found : PatrolFind) (lastOfPass : Bool) (s : State) : Res :=
  let pa := line * 512
  onlyIf s (paExists s pa && !(lineFrozen s line)) "line" <|
    let t := tierOf pa
    let s := match found with
      | .clean => s
      | .corrected => match t with
        | 0 => let c := stackChannel s pa; stackCorrected s c.1 c.2
        | 1 => s.addObj (Obj.ddrCorrected (ddrChannel pa)) 1
        | _ => match cxlPort s pa with
          | some x => { s with mem := { s.mem with cxlCorrected := sput (fun _ => 0) s.mem.cxlCorrected x (sget (fun _ => 0) s.mem.cxlCorrected x + 1) } }
          | none => s
      | .uncorrectable => uncorrectable s line .patrol
    .next (if lastOfPass then s.addObj (Obj.scrubPasses t) 1 else s)

/-- CXL_LINK_FAIL (R258): every line of the port is as uncorrectable (`poisoned`); the port stays down. -/
def execCxlLinkFail (x : Nat) (s : State) : Res :=
  if 8 ≤ x then .refused .illFormed
  else onlyIf s (s.getObj (Obj.cxlLinkUp x) == 1) "CXL link" <| .next (s.putObj (Obj.cxlLinkUp x) 0)

/-! ### Map-out (R241 to R245) -/

/-- Granted pages of the new hole move to free stacked pages, on their own die where one is free, else on another, in a reserve only where no
other page is free (R244); none where one finds no room. -/
def emptyHole (s : State) (d : Nat) : Option State :=
  let top := s.getObj (Obj.stackTop d)
  let lo := top - 2 ^ 31
  let cut := s.putObj (Obj.stackTop d) lo
  let es := s.mem.extents.filter fun e => decide (within e lo top ≠ 0)
  (es.foldl (fun (o : Option State) e => o.bind fun s =>
    let others := (List.range 4).filter (· != d)
    match ([d].filterMap (roomOnDie s e.size true)) ++ (others.filterMap (roomOnDie s e.size false)) ++ others.filterMap (roomOnDie s e.size true) with
    | a :: _ => some (relocate s e.base e.size a)
    | [] => none) (some cut))

/-- MAP_OUT_COMPLETE (R242, R243, R245): the copies have ended, the lookup is written; requests that waited go to the new placements. Where
the pages of the hole found no place the map-out is deferred (R244), and the channel is as frozen as the manager wants it. A channel of the die that is failing beside the fourth mapped out leaves
it without a spare (R240). -/
def execMapOutComplete (stack ch : Nat) (s : State) : Res :=
  onlyIf s (s.mem.mapping.contains (stack, ch)) "map-out" <|
    let d := stack / 3
    let held := s.mem.heldFreeze.contains (stack, ch)
    let s := endDrain { s with mem := { s.mem with mapping := s.mem.mapping.filter (· != (stack, ch)),
                                                   heldFreeze := s.mem.heldFreeze.filter (· != (stack, ch)) } } (Obj.chDrained stack ch)
    .next (match emptyHole s d with
      | none => settleFrozen (deferMapOut (needPoint (if held then s else s.putObj (Obj.chFreeze stack ch) 0)) (stack, ch))
      | some s =>
        let s := { s with mem := { s.mem with deferrals := sput (fun _ => 0) s.mem.deferrals (32 * stack + ch) 0 } }
        let s := (s.addObj (Obj.mapouts d) 1).putObj (Obj.chState stack ch) 2
        let s := writeLookup (s.putObj (Obj.liveChannels stack) (s.getObj (Obj.liveChannels stack) - 2 ^ ch)) d
        settleFrozen (if 4 ≤ s.getObj (Obj.mapouts d) ∧ (failingChannels s).any fun c => c.1 / 3 == d then goCold s 0x02 else s))

/-- MAINTENANCE_POINT (R359): a second after the event without a bank point, and no lock set between vote and seal. -/
def execMaintenancePoint (s : State) : Res :=
  withSome s s.bank.maintSince "dead core or failing channel" fun t =>
    onlyIf s (decide (t + 1000000000 ≤ upNow s) && (enabledSets s).all fun k => (s.lockSet k).mine.isNone) "maintenance point" <|
      .next (maintain (s.addObj Obj.maintPoints 1))

end Sys2Proof.Machine
end

