-- ==== Sys2Proof/Machine/Banking.lean ====
section
/-! DEFINITION. Banking.lean: before-images (R362, R365), rollback-class events reported by a unit (R354, R355, R370), the restore of a
lock set (R363, R370 step 4, R233) and the end of the wait for a lost member (R372). -/

namespace Sys2Proof.Machine

/-! ### Before-images -/

/-- The before-image of a page, taken for the lock set that banks it; without room it is skipped and the set is unprotected (R365). -/
def takeImage (s : State) (k n page pa : Nat) : State :=
  if 65536 ≤ reserveLeft s then
    let i : Image := { slice := n, page := page, pa := pa, bytes := pageCells s pa, tick := (s.lockSet k).seals.headD 0, marks := pageMarks s pa }
    noteReserve (updSet s k fun x => { x with images := x.images ++ [i] })
  else s.putObj (Obj.unprotected k) 1

/-- Whether a page of an ember pool or an area of a channel lies in a banked region of the slice, which leaves the results open (R360). -/
def regionClash (s : State) (n : Nat) : Bool :=
  (s.slice n).pools.any (fun p => bankedPart s n p.va (2 ^ 21)) ||
  (List.range 256).any fun ch => s.getObj (Obj.chSlice ch) == n && (channelAreas s ch).any fun a => decide (0 < a.2) && bankedPart s n a.1 a.2

/-- Results of banking a slice whose regions are declared wrongly: unpredictable in that slice (R15, R360). -/
def clashResults (s : State) (n : Nat) : State := if regionClash s n then unpredictable s n else s

/-- BEFORE_IMAGE_COPY (R249, R361, R362): the copies end in arrival order, after a wait at a frozen channel; the page's bit is set, and the
write that waits may be performed. -/
def execBeforeImageCopy (n page : Nat) (s : State) : Res :=
  let waits := match pageBase s n page with
    | some pa => pageFrozen s pa
    | none => false
  onlyIf s (s.bank.waiting.head? == some (n, page) && !waits) "before-image" <|
    let s := { s with bank := { s.bank with waiting := s.bank.waiting.drop 1 } }
    let lacks (k : Nat) : Bool := !((s.lockSet k).images.any fun i => i.slice == n && i.page == page && some i.tick == (s.lockSet k).seals.head?)
    let s := match pageBase s n page with
      | some pa => ((bankersOf s n).filter lacks).foldl (fun s k => takeImage s k n page pa) s
      | none => s
    .next (clashResults (logWrite s n (page * 65536)) n)

/-! ### Rollback -/

/-- ROLLBACK_DETECT (R355, R370 steps 1 and 2): a unit reports a rollback-class event of an enabled lock set. -/
def execRollbackDetect (k cls : Nat) (s : State) : Res :=
  if 8 ≤ k ∨ cls < 1 ∨ 4 < cls then .refused .illFormed
  else onlyIf s (s.getObj (Obj.lsEnable k) == 1) "enabled lock set" <| .next (originate s cls k)

/-- The physical lines of the slices' banked pages that hold poisoned data or lie behind a CXL port that is down (R252, R258): slice, page with its
parity group, line within the page, line. -/
def poisonedBanked (s : State) (k : Nat) : List (Nat × (Nat × Nat) × Nat × Nat) :=
  (memberSlices s k).flatMap fun n => (bankedPages s n).zipIdx.flatMap fun p => match pageBase s n p.1 with
    | some pa =>
      let is : List Nat := (pageMarks s pa).foldl (fun l q => addNew (q / 8) l) []
      is.map fun i => (n, (p.1, p.2 / 16), i, pa / 512 + i)
    | none => []

/-- The bytes of a line within a page that parity and the other pages of its group give as of sealed tick `b`. -/
def rebuiltLine (s : State) (k b n g i line : Nat) : List Host.Cell :=
  let others := (((bankedPages s n).drop (16 * g)).take 16).filter fun p => match pageBase s n p with
    | some pa => !(decide (pa / 512 ≤ line ∧ line < pa / 512 + 128))
    | none => false
  let par : List Host.Cell := (((s.lockSet k).parity.find? fun p => p.slice == n && p.group == g).map (·.bytes)).getD []
  (others.foldl (fun l p => xorCells l (bankedAt s k b n p)) par).filter fun c => decide (512 * i ≤ c.1 ∧ c.1 < 512 * i + 512)

/-- Sectors of a line that parity cannot give back: poisoned data went into the parity page there (R252). -/
def unrebuilt (s : State) (k n g i line : Nat) : List Nat :=
  let ms := (((s.lockSet k).parity.find? fun p => p.slice == n && p.group == g).map (·.marks)).getD []
  (ms.filter fun m => m / 8 == i).map fun m => 8 * line + m % 8

/-- A line rebuilt: its bytes written, its sectors clean but for those that parity cannot give back (R363). -/
def putLine (s : State) (line : Nat) (cells : List Host.Cell) (i : Nat) (marks : List Nat) : State :=
  let s := (physPut s (line * 512) (cellsGet cells (512 * i) 512)).addObj Obj.parityRebuilds 1
  { s with mem := { s.mem with poison := marks.foldl (fun l p => addNew p l) s.mem.poison } }

/-- Poisoned lines of banked pages are rebuilt; two at one line index in one group make the module cold (Table 12.6). The parity pages give a
line as of their own sealed tick `b`, from the other pages as they stood then (`old`: the state before the before-images were written back); a
page with an image older than that is restored to a time before `b`, and its poisoned lines stay poisoned. -/
def rebuildLines (old s : State) (k : Nat) : State :=
  let ls := poisonedBanked s k
  if ls.any fun a => ls.any fun b => a.1 == b.1 && a.2.1.2 == b.2.1.2 && a.2.2.1 == b.2.2.1 && a.2.2.2 != b.2.2.2 then goCold s 0x04
  else
    let x := s.lockSet k
    let b := if x.parityDone then x.seals.headD 0 else x.seals.getLast?.getD 0
    let mends := ls.filter fun l => !(x.images.any fun i => i.slice == l.1 && i.page == l.2.1.1 && decide (i.tick < b))
    let fixes := mends.map fun l =>
      (l.2.2.2, l.2.2.1, rebuiltLine old k b l.1 l.2.1.2 l.2.2.1 l.2.2.2, unrebuilt old k l.1 l.2.1.2 l.2.2.1 l.2.2.2)
    fixes.foldl (fun s f => putLine s f.1 f.2.2.1 f.2.1 f.2.2.2) s

/-- Before-images are written back, the newest first, so that the oldest of a page stays. -/
def restoreImages (s : State) (k : Nat) : State :=
  let is := (sortBy (fun (a b : Image) => decide (a.tick < b.tick)) (s.lockSet k).images).reverse
  is.foldl (fun s i => putPage s i.pa i.bytes i.marks) s

/-- The context map, the layouts and the collective counts of a slice return to their values at the banked tick; storage allocated
since is free at once (R233). -/
def restoreMap (s : State) (m : MapSeal) : State :=
  let x := s.slice m.slice
  let s := s.setSlice { x with entries := m.entries, moves := [], abandoned := [], dirty := [], quar := x.quar.filter fun q => !q.needSeal }
  let s := m.layouts.zipIdx.foldl (fun s p => s.putObj (Obj.layout m.slice p.2) p.1) s
  let mine (p : Nat × Nat) : Bool := s.getObj (Obj.gSlice p.1) == m.slice
  let s := { s with net := { s.net with gseq := m.gseq ++ s.net.gseq.filter fun p => !(mine p) } }
  recount s m.slice

/-- A lock word that a stopped launch held is written zero, where it is not in a banked page (R370 step 4). -/
def zeroLock (s : State) (l : Nat × Nat × Nat) : State :=
  if l.2.1 = 2 ∧ inBanked s l.1 l.2.2 then s else (writeRun s l.1 l.2.1 l.2.2 (toLe 8 0)).1

/-- RESTORE_COMPLETE_ROLLBACK (R370 step 4): what the restore leaves; the member may vote from now on (step 5). -/
def execRestoreCompleteRollback (k : Nat) (s : State) : Res :=
  withSome s (s.lockSet k).rb "rollback" fun r => onlyIf s (!r.restored && (heldImages s k).isEmpty && !(setFrozen s k)) "restore" <|
    let b := (s.lockSet k).seals.getLast?.getD 0
    let now := upNow s
    let s := rebuildLines s (restoreImages s k) k
    if s.getObj Obj.moduleState = 6 then .next s
    else
      let s := ((s.lockSet k).mapSeals.filter fun m => m.tick == b).foldl restoreMap s
      let s := replaceCores (r.locks.foldl zeroLock s)
      let s := (memberSlices s k).foldl (fun s n => s.setSlice { (s.slice n) with dirty := [] }) s
      let s := s.addObj (Obj.extWritesRolled k) ((s.lockSet k).ext + (s.lockSet k).extPrev)
      let ps := parityAll (updSet s k fun x => { x with images := [] }) k b
      let s := (memberSlices s k).foldl clashResults s
      .next (noteReserve (updSet s k fun x => { x with
        images := [], seals := [b], parity := ps, parityDone := true, unconfirmed := false, confirmed := false, ext := 0, extPrev := 0,
        mapSeals := x.mapSeals.filter (fun m => m.tick == b), rb := some { r with restored := true, restoredAt := now, locks := [] } }))

/-- Whether the wait for a lost member is over: REJOIN_WAIT ms after the restore (R372). -/
def rejoinOver (s : State) (k : Nat) : Bool :=
  match (s.lockSet k).rb with
  | some r => r.restored && decide (r.restoredAt + 1000000 * s.getObj (Obj.rejoinWait k) ≤ upNow s)
  | none => false

/-- REJOIN_WAIT_EXPIRY (R372, R377): the lost member has not returned in time. -/
def execRejoinWaitExpiry (k : Nat) (s : State) : Res :=
  withSome s (s.lockSet k).waitMember "lost member" fun _ => onlyIf s (rejoinOver s k) "expired REJOIN_WAIT" <| .next (failLockSet s k)

end Sys2Proof.Machine
end

