-- ==== Sys2Proof/Machine/Access.lean ====
section
/-! DEFINITION. Access.lean: who may read and write which object with what value and when. Own indexes and rights (R402, R490, Table
18.7), values that an object takes (R491 with the object tables), and the state rules of writes (R3, R72, R285, R313, R317, R353, R380, R382,
R391, R394, R423, R458). -/

namespace Sys2Proof.Machine

/-! ### Keys and owners -/

def keyIx (k : Nat) : Nat := k / 256
def keySub (k : Nat) : Nat := k % 256

/-- Whether an index lies in `count` indexes from `base` on, and which of them it is. -/
def nth? (ix base count : Nat) : Option Nat := if base ≤ ix ∧ ix < base + count then some (ix - base) else none

/-- Index ranges that name a slice itself. -/
def sliceRanges : List Nat := [0x1040, 0x4040, 0x5040, 0x6840, 0x8040, 0x9080, 0xA040, 0xC040, 0xC080]

/-- The slice that an index names itself. -/
def indexSlice (ix : Nat) : Option Nat := sliceRanges.findSome? fun b => nth? ix b 64

/-- Whether an index is one of a slice's own: the slice's, its channels', QPs', group slots' and lock-set slots' (R402). -/
def ownIndex (s : State) (n k : Nat) : Bool :=
  let ix := keyIx k
  let sets (j : Nat) : Bool := (memberSlices s j).contains n
  indexSlice ix == some n ||
    (match nth? ix 0x6000 256 with | some c => s.getObj (Obj.chSlice c) == n | none => false) ||
    (match nth? ix 0x6900 256 with | some c => s.getObj (Obj.chSlice c) == n | none => false) ||
    (match nth? ix 0x3300 1024 with | some q => s.getObj (Obj.qpSlice q) == n | none => false) ||
    (match nth? ix 0x3810 64 with | some g => s.getObj (Obj.gSlice g) == n | none => false) ||
    (match nth? ix 0x7010 8 with | some j => sets j | none => false) ||
    (match nth? ix 0x8100 8 with | some j => sets j | none => false)

/-- The open areas 0x1000 and 0x7000. -/
def openArea (k : Nat) : Bool := keyIx k / 4096 == 1 || keyIx k / 4096 == 7

/-- Whether a credential may read an object (Table 18.7). -/
def mayRead (s : State) (cr : Cred) (k : Nat) (r : ObjRow) : Bool :=
  if r.writeOnly then false
  else match r.acc with
    | .wo => false
    | .mgr => decide (cr = .manager)
    | _ => openArea k || (match cr with
      | .manager => true
      | .slice n => ownIndex s n k
      | .none => false)

/-- Whether a credential may write an object (Table 18.7). -/
def mayWrite (s : State) (cr : Cred) (k : Nat) (r : ObjRow) : Bool :=
  match r.acc with
  | .ro => false
  | .mgr => decide (cr = .manager)
  | .wo => k == Obj.fwRecovery || (match cr with
    | .manager => true
    | .slice n => ownIndex s n k
    | .none => false)
  | _ => match cr with
    | .manager => true
    | .slice n => ownIndex s n k
    | .none => false

/-! ### Values -/

/-- Bytes of a value of a type; none for a STRING or a BLOB. -/
def typeLen (ty : Nat) : Option Nat :=
  match ty with
  | 1 => some 1
  | 2 => some 1
  | 3 => some 2
  | 4 => some 4
  | 5 => some 8
  | 6 => some 4
  | 7 => some 8
  | 8 => some 4
  | 9 => some 8
  | 10 => some 8
  | _ => none

/-- Whether TYPE and LEN match an object (R491 step 3). -/
def shapeOk (r : ObjRow) (ty : Nat) (val : List Byte) : Bool :=
  ty == r.ty && (match typeLen r.ty with
    | some n => val.length == n
    | none => if r.ty = 11 then decide (val.length ≤ 64) else r.blobLen == 0 || val.length == r.blobLen)

def powerOfTwo (lo hi v : Nat) : Bool := (List.range 32).any fun i => v == 2 ^ i && decide (lo ≤ v ∧ v ≤ hi)

def inRange (lo hi v : Nat) : Bool := decide (lo ≤ v ∧ v ≤ hi)

def sliceNo (v : Nat) : Bool := decide (v < 64) || v == 0xFF

/-- The board-power limit of a cooling class in W (Table 14.3). -/
def classLimit (c : Nat) : Nat := if c = 0 then 2400 else if c = 1 then 2000 else 1100

/-- The class in force: the value that the last start-up read, before any the stored one (R423). -/
def classNow (s : State) : Nat := s.power.classInForce.getD (s.getObj Obj.coolingClass)

/-- Whether a value lies in the range or set that the object's chapter gives (R491 step 4). -/
def valueOk (s : State) (k v : Nat) : Bool :=
  let ix := keyIx k
  let sub := keySub k
  let at_ (b n : Nat) : Bool := decide (b ≤ ix ∧ ix < b + n)
  match objRow? k with
  | none => false
  | some r =>
    if r.ty = 1 then decide (v ≤ 1)
    else if r.ty = 10 then decide (v < 2 ^ 48)
    else if ix = 0x4000 then decide (v ≤ 3)
    else if ix = 0x4003 ∨ (ix = 0x4102 ∧ sub ≤ 3) then decide (v ≤ 15)
    else if ix = 0x4103 then inRange 1 8760 v
    else if ix = 0xC000 then decide (v ≤ 64)
    else if at_ 0xC040 64 then
      if 0x09 ≤ sub ∧ sub ≤ 0x0B then inRange 1 100 v
      else if 0x0C ≤ sub ∧ sub ≤ 0x0E then decide (v ≤ s.getObj (k - 3))
      else if sub = 0x0F then decide (1 ≤ v)
      else if sub = 0x12 then decide (v < 16)
      else true
    else if k = Obj.holdoverLimit then inRange 100 1000000 v
    else if k = Obj.periodDefault then inRange 50 1000000 v
    else if at_ 0x6840 64 then (if sub = 1 then decide (1 ≤ v) else inRange 1 1048576 v)
    else if at_ 0x6000 256 ∧ (sub = 4 ∨ sub = 7) then powerOfTwo 64 65536 v
    else if at_ 0x6A00 256 then
      if sub = 2 then decide (v ≤ 1) else if sub = 3 then decide (v < 64) else if sub = 4 then v % 65536 == 0
      else if sub = 5 then v % 65536 == 0 && decide (v ≤ 2 ^ 36) else if sub = 6 then decide (v < 16) else true
    else if k = Obj.transportTimeout then inRange 1000 100000 v
    else if k = Obj.dscp then v &&& 0xFFC0C0C0 == 0
    else if at_ 0x3010 16 then true
    else if at_ 0x3300 1024 then
      if sub = 1 then sliceNo v else if sub = 3 ∨ sub = 4 then decide (v < 2 ^ 24) else if sub = 9 then powerOfTwo 64 4096 v else true
    else if at_ 0x3810 64 then (if sub = 1 then sliceNo v else if sub = 2 then inRange 1 262144 v else true)
    else if k = Obj.bankReserve then v % 16 == 0 && decide (v ≤ 512)
    else if at_ 0x8040 64 then v % 65536 == 0
    else if at_ 0x8100 8 then (if sub = 3 then decide (1 ≤ v) else if sub = 4 then inRange 100 600000 v else true)
    else if k = Obj.steadyPoint then inRange 1 3 v
    else if at_ 0x5040 64 then
      if sub = 2 then decide (v < 2 ^ 20) else if sub = 3 then decide (v ≤ 1) else if sub = 4 then decide (v < 2 ^ 48)
      else if sub = 0x11 then decide (v ≤ 64) else if sub = 0x15 then v % 2 == 0 && decide (v ≠ 0) else if sub = 0x17 then decide (v < 128) else true
    else if k = Obj.coolingClass then decide (v ≤ 2)
    else if k = Obj.pointTarget then decide (v ≤ 3)
    else if k = Obj.powerCap then v == 0 || inRange 300 (classLimit (classNow s)) v
    else if k = Obj.tjTarget then inRange 85 100 v
    else if k = Obj.stackTarget then inRange 80 95 v
    else if k = Obj.alertCause ∨ k = Obj.alertMask then decide (v < 2 ^ 11)
    else if k = Obj.plcaNodes then inRange 2 8 v
    else if k = Obj.coolMode ∨ k = Obj.leakAction then decide (v ≤ 1)
    else if k = Obj.coolDuty then decide (v ≤ 100)
    else if at_ 0xB000 2 then decide (1 ≤ v)
    else if at_ 0xB100 64 then
      if sub = 2 then sliceNo v else if sub = 3 then v % 65536 == 0 else if sub = 4 then v % 65536 == 0 && decide (v ≤ 2 ^ 43)
      else if sub = 5 then decide (v < 32) else if sub = 6 then decide (v ≤ 1024000) else if sub = 7 then inRange 4096 16777216 v else true
    else if k = Obj.mgrKey then v % 256 == 4
    else true

/-! ### State rules -/

/-- Objects of index 0x5040 + n that are staged (Table 13.13). -/
def staged (sub : Nat) : Bool := decide (2 ≤ sub ∧ sub ≤ 0x15)

/-- Whether the owner of an RWQ object is quiet (R317, R353, R72). -/
def ownerQuiet (s : State) (k : Nat) : Bool :=
  match nth? (keyIx k) 0x6000 256, nth? (keyIx k) 0x3300 1024, nth? (keyIx k) 0x3810 64, indexSlice (keyIx k) with
  | some c, _, _, _ => s.getObj (Obj.chEnable c) == 0 && (s.chan c).flight.isEmpty
  | _, some q, _, _ => s.getObj (Obj.qpEnable q) == 0
  | _, _, some g, _ => s.getObj (Obj.gBusy g) == 0
  | _, _, _, some n => s.getObj (Obj.sState n) == 3
  | _, _, _, _ => true

/-- The world rule of a window (R313): one of world S names a secure-world slice. -/
def windowWorldOk (s : State) (rights slice : Nat) : Bool := !(bitN rights 3) || (slice < 64 && sliceWorld s slice == 1)

/-- Lock-set slots other than `k` that are enabled and name a channel of its own (R285). -/
def sharesChannel (s : State) (k : Nat) : Bool :=
  (enabledSets s).any fun j => j != k && (lsMembers s j &&& lsMembers s k) != 0

/-- Whether a lock set may be enabled (R285, R364, R394, R468): its channels of one slice and of no other set, and for REKINDLE = 1 a bank
reserve in force and zeroed, and no secure-world slice. -/
def mayEnable (s : State) (k : Nat) : Bool :=
  !(sharesChannel s k) && decide ((memberSlices s k).length ≤ 1) &&
    (s.getObj (Obj.rekindle k) != 1 ||
      (s.getObj Obj.ddrPresent == 1 && decide (0 < s.bank.reserve) && s.mem.zeroed.contains .reserve &&
        (memberSlices s k).all fun n => decide (64 ≤ n) || sliceWorld s n == 0))

/-- The state rules of a write of value `v` (R491 step 5). -/
def stateOk (s : State) (k v : Nat) (r : ObjRow) : Bool :=
  let ix := keyIx k
  let sub := keySub k
  (r.acc != .rwq || ownerQuiet s k) &&
    (k != Obj.coolingClass || s.getObj Obj.moduleState == 1) &&
    (k != Obj.routeTable || (liveSlices s).all fun n => s.getObj (Obj.sState n) != 1) &&
    (match nth? ix 0x7010 8 with
      | some j => if sub ≤ 3 then s.getObj (Obj.lsEnable j) != 1 else true
      | none => true) &&
    (match nth? ix 0x8100 8 with
      | some j => s.getObj (Obj.lsEnable j) != 1
      | none => true) &&
    (match nth? ix 0x5040 64 with
      | some n => !(staged sub) || s.getObj (Obj.sState n) == 0
      | none => true) &&
    (match nth? ix 0x8040 64 with
      | some n => sliceWorld s n == 0 || v == 0
      | none => true) &&
    (match nth? ix 0x6A00 256 with
      | some w => if sub = 1 then (v == 0 || windowWorldOk s (s.getObj (Obj.wRights w)) (s.getObj (Obj.wSlice w)))
        else s.getObj (Obj.wEnable w) == 0 && (if sub = 3 then windowWorldOk s (s.getObj (Obj.wRights w)) v
          else if sub = 6 then windowWorldOk s v (s.getObj (Obj.wSlice w)) else true)
      | none => true) &&
    (match nth? ix 0xB100 64 with
      | some w => decide (sub = 1) || (s.getObj (Obj.ssEnable w) == 0 && !(s.chips.any fun c => c.held.any fun h => h.window == w))
      | none => true)

/-- The checks of R491 in their order: the reason of the first that fails, or the value. -/
def checkWrite (s : State) (cr : Cred) (k ty : Nat) (val : List Byte) (bulk : Bool) : Except Nat Nat :=
  match objRow? k with
  | none => .error 0x01
  | some r =>
    if !(mayWrite s cr k r) then .error 0x02
    else if !bulk && (r.bulk || !(shapeOk r ty val) || decide (r.ty = 12 ∧ 1296 < val.length)) then .error 0x05
    else if bulk && !(r.ty == 12 && (r.blobLen == 0 || val.length == r.blobLen)) then .error 0x05
    else if !(valueOk s k (leNat val)) then .error 0x04
    else if !(stateOk s k (leNat val) r) then .error 0x03
    else .ok (leNat val)

/-- A refused access is counted (OD_REFUSED). -/
def refuseAccess (s : State) : State := s.addObj Obj.odRefused 1

/-- The credential of an access is good for a slice that exists (R480). -/
def credOk (s : State) (cr : Cred) : Bool :=
  match cr with
  | .slice n => decide (n < 64) && s.getObj (Obj.sState n) != 0
  | _ => true

end Sys2Proof.Machine
end

