-- ==== Sys2Proof/Machine/SliceOps.lean ====
section
/-! DEFINITION. SliceOps.lean: slices made, changed and taken apart. Pools and grants (R381, R382), slice states (R383 to R387), the queue
of operations and their results (R388, R389), mapping (R154 to R156, R390), quiet (R297, R385), reset and destroy (R387, R401). -/

namespace Sys2Proof.Machine

/-! ### Operations and results -/

abbrev opCreate : Nat := 0x01
abbrev opDestroy : Nat := 0x02
abbrev opMap : Nat := 0x10
abbrev opUnmap : Nat := 0x11
abbrev opProtect : Nat := 0x12
abbrev opQuiesce : Nat := 0x13
abbrev opResume : Nat := 0x14
abbrev opReset : Nat := 0x15

/-- A result enters its ring, newest first; the last eight stay (Table 13.5). -/
def sopResult (s : State) (n : Nat) (w : SopWait) (st done : Nat) : State :=
  let r : SopRes := { seq := w.req.seq, op := w.op, status := st, done := done, tick := s.tick }
  if w.byManager then { s with sopResults := (r :: s.sopResults).take 8 }
  else
    let x := s.slice n
    s.setSlice { x with results := (r :: x.results).take 8 }

/-- The status of work that stops at its first refusal (R219). -/
def doneStatus (done total : Nat) : Nat := if done = total then stOk else if done = 0 then stRefused else stPartial

/-! ### Pools (Table 13.1) -/

def freeStackedQuota (s : State) : Nat :=
  if s.mem.zeroed.contains .stacked then
    sumNat ((List.range 4).map fun d => s.getObj (Obj.stackTop d) - d * dieWindow) - contextMapBytes -
      sumNat ((holds s).map fun h => h.stacked * 2 ^ 21 + h.areas)
  else 0

def freeDdrQuota (s : State) : Nat :=
  if s.getObj Obj.ddrPresent = 1 ∧ s.mem.zeroed.contains .ddr then 2 ^ 40 - s.bank.reserve - sumNat ((holds s).map fun h => h.ddr * 2 ^ 30) else 0

def freeCxlQuota (s : State) : Nat :=
  if s.mem.zeroed.contains .cxl then sumNat (s.mem.cxlRegions.map fun r => r.2.1) - sumNat ((holds s).map fun h => h.cxl * 2 ^ 30) else 0

/-- The lowest base from which a range of map entries is free (R212). -/
def mapRange (s : State) (size : Nat) : Option Nat :=
  let hs := (holds s).filter fun h => decide (0 < h.mapEntries)
  let cands := 0 :: hs.map fun h => h.mapBase + h.mapEntries
  let fits := cands.filter fun b => decide (b + size ≤ 2 ^ 26) && hs.all fun h => decide (b + size ≤ h.mapBase ∨ h.mapBase + h.mapEntries ≤ b)
  match fits with
  | [] => none
  | b :: l => some (l.foldl min b)

/-- Bytes of a save area: two full images for each core of the rows, to 2 MiB (R279). -/
def saveBytes (rows : Nat) : Nat := padUp (2 ^ 21) (2 * 2523136 * 13 * popN 48 rows)

/-- Channels of a mask. -/
def chansOf (m : Nat) : List Nat := (List.range 256).filter fun c => m.testBit c

/-- Whether a slice of a world may be granted channels of a mask: none of a secure-world slice is a member of an enabled lock set whose
REKINDLE is 1 (R394). -/
def chansAllowed (s : State) (world chans : Nat) : Bool :=
  world == 0 || (List.range 8).all fun k => s.getObj (Obj.lsEnable k) != 1 || s.getObj (Obj.rekindle k) != 1 || chans &&& lsMembers s k == 0

/-- Whether every pool can supply what is staged for a slice, the memory for its areas aside. -/
def grantsFree (s : State) (n : Nat) : Bool :=
  let h := heldOf s n
  let pid := s.getObj (Obj.sPid n)
  let areas := s.getObj (Obj.sTransArea n) * 2 ^ 20 + saveBytes h.rows
  pid != 0 && (liveSlices s).all (fun m => s.getObj (Obj.sPid m) != pid) &&
    (holds s).all (fun g => g.rows &&& h.rows == 0 && g.chans &&& h.chans == 0 &&
      (List.range 4).all fun d => (g.cache.getD d 0 ||| g.scratch.getD d 0) &&& (h.cache.getD d 0 ||| h.scratch.getD d 0) == 0) &&
    (List.range 4).all (fun d => h.cache.getD d 0 &&& h.scratch.getD d 0 == 0) &&
    decide (h.share + sumNat ((holds s).map (·.share)) ≤ 64) &&
    decide (s.getObj (Obj.sPinBudget n) ≤ 16384 * sumNat (h.cache.map ways)) &&
    (h.world == 0 || (h.ddr == 0 && h.cxl == 0)) && chansAllowed s h.world h.chans &&
    decide (h.stacked * 2 ^ 21 + areas ≤ freeStackedQuota s) && decide (h.ddr * 2 ^ 30 ≤ freeDdrQuota s) && decide (h.cxl * 2 ^ 30 ≤ freeCxlQuota s)

/-! ### What follows from the grants -/

/-- Objects of an index set back to their reset values. -/
def resetSubs (ix lo hi : Nat) (s : State) : State :=
  (List.range (hi + 1 - lo)).foldl (fun s i => s.putObj (ix * 256 + lo + i) (objReset (ix * 256 + lo + i))) s

/-- SCRATCH_WAYS, FREE_WAYS, ROW_WORLD, MAP_UNASSIGNED, SLICES_LIVE and the region table as the grants make them. -/
def noteGrants (s : State) : State :=
  let hs := holds s
  let s := (List.range 4).foldl (fun s d =>
    let scr := hs.foldl (fun m h => m ||| h.scratch.getD d 0) 0
    let used := hs.foldl (fun m h => m ||| h.cache.getD d 0) scr
    let sec := (hs.filter fun h => h.world == 1).foldl (fun m h => m ||| h.rows) 0
    ((s.putObj (Obj.scratchWays d) scr).putObj (Obj.freeWays d) (65535 - used)).putObj (Obj.rowWorld d) (bits sec (12 * d + 11) (12 * d))) s
  noteRegions ((s.putObj Obj.mapUnassigned (2 ^ 26 - sumNat (hs.map (·.mapEntries)))).putObj Obj.slicesLive (liveSlices s).length)

/-- A channel as its slice's creation or end leaves it; its six counts stay. -/
def freshChannel (owner : Nat) (s : State) (c : Nat) : State :=
  let s := resetSubs (0x6000 + c) 2 0x0C s
  { (s.putObj (Obj.chSlice c) owner) with chans := s.chans.filter fun x => x.no != c }

/-- The objects of a slice at their creation values: all but the staged ones, S_STEADY_CLOCK and OD_SLICE_KEY. -/
def freshObjects (s : State) (n : Nat) : State :=
  let s := s.putBlob (Obj.attestToken n) []
  let s := resetSubs (0x4040 + n) 1 0x0B (resetSubs (0x5040 + n) 0x17 0x1F s)
  let s := resetSubs (0x6840 + n) 1 7 (resetSubs (0x8040 + n) 1 0x22 s)
  resetSubs (0xA040 + n) 1 7 (resetSubs (0xC040 + n) 1 0x19 (resetSubs (0xC080 + n) 1 0x10 s))

/-! ### CREATE -/

/-- CREATE with its memory and its range of map entries at hand; the counts of its channels start from zero (R288). -/
def created (s : State) (n tb sb mb : Nat) : State :=
  let h := heldOf s n
  let save := saveBytes h.rows
  let old := s.slice n
  let s := freshObjects s n
  let s := s.setSlice { no := n, transBase := tb, saveBase := sb, mapBase := mb, waits := old.waits }
  let s := grant s n .trans tb (s.getObj (Obj.sTransArea n) * 2 ^ 20)
  let s := if save = 0 then s else grant s n .save sb save
  let s := (chansOf h.chans).foldl (fun s c => resetSubs (0x6900 + c) 1 6 (freshChannel n s c)) s
  let s := (List.range 4).foldl (fun s d => (s.putObj (Obj.cacheWays n d) (h.cache.getD d 0)).putObj (Obj.sliceScratchWays n d) (h.scratch.getD d 0)) s
  let s := ((s.putObj (Obj.pinBudget n) (s.getObj (Obj.sPinBudget n))).putObj (Obj.mapQuota n) h.mapEntries).putObj (Obj.saveArea n) save
  noteGrants (s.putObj (Obj.sState n) 1)

/-- CREATE (R212, R279, R291, R381, R382, R471): every resource or none. -/
def createSlice (s : State) (n : Nat) : State × Nat :=
  let h := heldOf s n
  if s.getObj Obj.moduleState < 4 ∨ !(grantsFree s n) then (s, stRefused)
  else match mapRange s h.mapEntries, pickStacked s (s.getObj (Obj.sTransArea n) * 2 ^ 20) none with
    | some mb, some tb =>
      let s1 := grant s n .trans tb (s.getObj (Obj.sTransArea n) * 2 ^ 20)
      let save := saveBytes h.rows
      if save = 0 then (created s n tb 0 mb, stOk)
      else match pickStacked s1 save none with
        | some sb => (created s n tb sb mb, stOk)
        | none => (s, stRefused)
    | _, _ => (s, stRefused)

/-! ### MAP, UNMAP, PROTECT (R390) -/

def pageBytes (psize : Nat) : Nat := if psize = 0 then 2 ^ 16 else if psize = 1 then 2 ^ 21 else 2 ^ 30

/-- The quota of a tier in bytes. -/
def quotaOf (s : State) (n tier : Nat) : Nat :=
  if tier = 0 then s.getObj (Obj.sStacked n) * 2 ^ 21 else if tier = 1 then s.getObj (Obj.sDdr n) * 2 ^ 30 else s.getObj (Obj.sCxl n) * 2 ^ 30

/-- The state with a slice's own spare pages counted as free. -/
def withoutSpare (n : Nat) (s : State) : State :=
  { s with mem := { s.mem with extents := s.mem.extents.filter fun e => !(e.use == .spare && e.slice == n) } }

/-- A spare page less a range that is taken from it. -/
def cutSpare (lo size : Nat) (e : Extent) : List Extent :=
  if e.use != .spare || decide (within e lo (lo + size) = 0) then [e]
  else (if e.base < lo then [{ e with size := lo - e.base }] else []) ++
    (if lo + size < e.base + e.size then [{ e with base := lo + size, size := e.base + e.size - (lo + size) }] else [])

/-- A physical page for a slice: free memory or a spare page of its own, with what it holds (R390). -/
def takePage (s : State) (n tier size : Nat) (pref : Option Nat) : Option (State × Nat) :=
  let cut (s : State) (a : Nat) : State := { s with mem := { s.mem with extents := s.mem.extents.flatMap (cutSpare a size) } }
  (pickPage (withoutSpare n s) tier size pref).map fun a => (grant (cut s a) n .page a size, a)

/-- Whether an extent is a spare page of another slice. -/
def otherSpare (n : Nat) (e : Extent) : Bool := e.use == .spare && e.slice != n

/-- The spare pages of other slices return to their pools as zeros; no page of them is one that a MAP takes yet (log 61). -/
def scrubSpares (s : State) (n : Nat) : State :=
  let s := (s.mem.extents.filter (otherSpare n)).foldl (fun s e => zeroRange s e.base e.size) s
  { s with mem := { s.mem with extents := s.mem.extents.filter fun e => !(otherSpare n e) } }

/-- One page of a MAP; none where it is refused. -/
def mapPage (n : Nat) (o : SopReq) (va : Nat) (s : State) : Option State :=
  let size := pageBytes o.psize
  if va % size ≠ 0 ∨ 2 ^ 57 < va + size ∨ quotaOf s n o.tier < s.getObj (Obj.mappedBytes n o.tier) + size ∨
      (o.tier ≠ 0 ∧ sliceWorld s n = 1) then none
  else match takePage s n o.tier size (if o.anyDie then none else some o.die) with
    | none => none
    | some (s, a) =>
      let p : Pte := { valid := true, leaf := true, write := o.write, exec := o.exec, world := sliceWorld s n, banked := bankedPart s n va size, addr := a }
      match putLeaf n va o.psize (encodePte p) 3 (s.slice n).transBase s with
      | none => none
      | some s => some (s.addObj (Obj.mappedBytes n o.tier) size)

/-- The entry of a page that is mapped with exactly this size and lies in no ember pool. -/
def exactLeaf (s : State) (n va psize : Nat) : Option (Pte × Nat) :=
  let size := pageBytes psize
  if va % size ≠ 0 ∨ 2 ^ 57 < va + size ∨ (s.slice n).pools.any (fun p => decide (p.va < va + size ∧ va < p.va + 2 ^ 21)) then none
  else match walk s n va with
    | some (p, l, a) => if l = psize then some (p, a) else none
    | none => none

/-- Before-images and log bits of pages that are mapped no more. -/
def forgetPages (s : State) (n va size : Nat) : State :=
  let gone (p : Nat) : Bool := decide (va / 65536 ≤ p ∧ p * 65536 < va + size)
  let x := s.slice n
  let s := s.setSlice { x with dirty := x.dirty.filter fun p => !(gone p) }
  let locks := s.locks.map fun (k : LockSet) => { k with images := k.images.filter fun i => !(i.slice == n && gone i.page) }
  noteReserve { s with locks := locks, bank := { s.bank with waiting := s.bank.waiting.filter fun w => !(w.1 == n && gone w.2) } }

/-- One page of an UNMAP: its physical page stays with the slice as a spare one. -/
def unmapPage (n : Nat) (o : SopReq) (va : Nat) (s : State) : Option State :=
  let size := pageBytes o.psize
  (exactLeaf s n va o.psize).map fun p =>
    let s := freeTables n va 3 (s.slice n).transBase (putPte s p.2 0)
    let ext := s.mem.extents.map fun (e : Extent) => if e.base = p.1.addr ∧ e.slice = n ∧ e.use = .page then { e with use := .spare } else e
    forgetPages ({ s with mem := { s.mem with extents := ext } }.subObj (Obj.mappedBytes n (tierOf p.1.addr)) size) n va size

/-- One page of a PROTECT. -/
def protectPage (n : Nat) (o : SopReq) (va : Nat) (s : State) : Option State :=
  (exactLeaf s n va o.psize).map fun p => putPte s p.2 (encodePte { p.1 with write := o.write, exec := o.exec })

/-- Pages in ascending virtual address up to the first refused one: the state and the pages done. -/
def pagesGo (size : Nat) (f : Nat → State → Option State) : Nat → Nat → State → Nat → State × Nat
  | 0, _, s, done => (s, done)
  | k + 1, va, s, done => match f va s with
    | none => (s, done)
    | some s => pagesGo size f k (va + size) s (done + 1)

/-- MAP, UNMAP or PROTECT of COUNT pages. A reserved PSIZE, TIER or DIE has unpredictable results (R8). -/
def pagesOp (s : State) (n op : Nat) (o : SopReq) : State × Nat × Nat :=
  if 3 ≤ o.psize ∨ (op = opMap ∧ (3 ≤ o.tier ∨ (4 ≤ o.die ∧ !o.anyDie))) then
    let s := unpredictable s n
    (s.useFree 2, anyStatus s.free, Config.freeNat (s.free + 1))
  else
    let f : Nat → State → Option State := if op = opMap then mapPage n o else if op = opUnmap then unmapPage n o else protectPage n o
    let go (s : State) : State × Nat := pagesGo (pageBytes o.psize) f o.count o.va.toNat s 0
    let r := go s
    let r := if op = opMap ∧ r.2 < o.count ∧ (s.mem.extents.any (otherSpare n)) = true then go (scrubSpares s n) else r
    (noteRegions r.1, doneStatus r.2 o.count, r.2)

/-! ### QUIESCE and quiet (R297, R384, R385) -/

/-- A channel whose slice leaves ACTIVE, or whose CH_ENABLE is cleared: what is fetched and not dispatched completes SLICE_QUIESCED. -/
def quiesceChannel (s : State) (ch : Nat) : State :=
  (s.chan ch).fetched.foldl (fun s c => endCmd s ch c { status := stQuiesced }) s

/-- Lines that chiplet dies hold of a slice, by port. -/
def chipHeld (s : State) (p : HeldLine → Bool) : List (Nat × HeldLine) := s.chips.flatMap fun c => (c.held.filter p).map fun h => (c.no, h)

/-- The dies are asked to give lines up (R453, R457). -/
def recallLines (s : State) (p : HeldLine → Bool) : State := (chipHeld s p).foldl (fun s x => snoopChip s x.1 x.2 true) s

/-- QUIESCE of an ACTIVE slice. -/
def beginQuiesce (s : State) (n limitUs : Nat) (w : SopWait) : State :=
  let s := recallLines ((channelsOf s n).foldl quiesceChannel (s.putObj (Obj.sState n) 2)) fun h => h.slice == n
  let x := s.slice n
  s.setSlice { x with current := some w, limitAt := some (s.now + limitUs * 1000), moves := x.moves.filter (·.started) }

/-- Whether a message that a QP of the slice admitted is still being performed: a SEND or an RDMA WRITE of which packets are to come. -/
def qpBusy (s : State) (n : Nat) : Bool :=
  s.net.qps.any fun x => (x.rxOpen || x.waLeft != 0) && s.getObj (Obj.qpSlice x.no) == n && s.getObj (Obj.qpEnable x.no) == 1 && s.getObj (Obj.qpState x.no) == 1

/-- Whether every condition of R385 holds; lines that chiplet dies hold count as admitted accesses (R457). -/
def isQuiet (s : State) (n : Nat) : Bool :=
  (channelsOf s n).all (fun c => (s.chan c).flight.isEmpty && (s.chan c).fetched.isEmpty) && !(s.launches.any fun l => l.slice == n) &&
    !((s.slice n).moves.any (·.started)) && !(qpBusy s n) && (chipHeld s fun h => h.slice == n).isEmpty && (List.range 64).all fun g => s.getObj (Obj.gSlice g) != n || s.getObj (Obj.gBusy g) == 0

/-! ### RESET and DESTROY (R387, R401) -/

/-- The pins of a slice are released (R198). -/
def unpinAll (s : State) (n : Nat) : State :=
  let s := s.putObj (Obj.pinned n) 0
  { s with mem := { s.mem with llm := s.mem.llm.map fun (x : LlmLine) => if x.slice = n then { x with pinned := false } else x } }

/-- RESET: grants, mappings, banked regions and memory contents stay; everything else of the slice is as at creation (log 62). -/
def resetSlice (s : State) (n : Nat) : State :=
  let x := s.slice n
  let mapped := (List.range 3).map fun t => s.getObj (Obj.mappedBytes n t)
  let keep := ((List.range 0x0B).map fun i => (0x4040 + n) * 256 + 1 + i) ++ ((List.range 0x22).map fun i => (0x8040 + n) * 256 + 1 + i) ++
    [Obj.saveArea n, Obj.mapQuota n]
  let old := keep.map fun k => (k, s.getObj k)
  let s := freshObjects (unpinAll s n) n
  let s := old.foldl (fun s p => s.putObj p.1 p.2) s
  let s := mapped.zipIdx.foldl (fun s p => s.putObj (Obj.mappedBytes n p.2) p.1) s
  let s := ((s.putObj (Obj.pinned n) 0).putObj (Obj.pinRefusals n) 0)
  let s := (channelsOf s n).foldl (fun s c => { (resetSubs (0x6900 + c) 1 6 (resetSubs (0x6000 + c) 0x0A 0x0C (s.putObj (Obj.chEnable c) 0))) with chans := s.chans.filter fun y => y.no != c }) s
  recount (s.setSlice { no := n, transBase := x.transBase, saveBase := x.saveBase, tables := x.tables, scratch := x.scratch, mapBase := x.mapBase,
                        dirty := x.dirty, waits := x.waits }) n

/-- Whether a line is one of a slice's. -/
def lineOf (s : State) (n : Nat) (l : LineKey) : Bool :=
  match l with
  | .dev x => s.mem.extents.any fun e => e.slice == n && decide (e.base ≤ x * 512 ∧ x * 512 < e.base + e.size)
  | .shr m _ => m == n

/-- What caches, directories and dies hold of a destroyed slice (Table 13.11). -/
def dropCached (s : State) (n : Nat) : State :=
  let m := s.mem
  { s with mem := { m with
    l1 := m.l1.filter fun x => x.slice != n, llm := m.llm.filter fun x => x.slice != n, ldirs := m.ldirs.filter fun x => x.slice != n,
    dirs := m.dirs.filter fun x => x.owner != n, miss := m.miss.filter fun x => x.slice != n,
    missInput := m.missInput.filter fun x => x.slice != n, heldReqs := m.heldReqs.filter fun r => !(lineOf s n r.1), invq := m.invq.filter fun q => !(lineOf s n q.2),
    poison := m.poison.filter fun p => p / 2 ^ 45 != n + 1 } }

/-- What the dictionary's protocol holds for a slice's credential (Table 18.9). -/
def dropCred (s : State) (n : Nat) : State :=
  let o := s.odp
  let subs := o.subs.filter fun x => x.cred != .slice n
  let s := { s with odp := { o with windows := o.windows.filter fun (x : Window) => x.cred != Cred.slice n, snaps := o.snaps.filter fun (x : Snapshot) => x.cred != Cred.slice n,
                                    bufs := o.bufs.filter fun (x : BulkBuf) => x.cred != Cred.slice n, subs := subs } }
  (s.putObj Obj.subsLive subs.length).putObj (Obj.odSliceKey n) 0

/-- Export windows and spark-screen windows that name a slice are disabled (R313, R457). -/
def closeWindows (s : State) (n : Nat) : State :=
  let s := ((List.range 64).filter fun w => s.getObj (Obj.ssSlice w) == n && s.getObj (Obj.ssEnable w) == 1).foldl (fun s w => s.putObj (Obj.ssEnable w) 0) s
  ((List.range 256).filter fun w => s.getObj (Obj.wSlice w) == n && s.getObj (Obj.wEnable w) == 1).foldl (fun s w => s.putObj (Obj.wEnable w) 0) s

/-- DESTROY of a QUIET slice: DESTROYED at once; what it held stays held until the scrub ends. -/
def destroySlice (s : State) (n : Nat) : State :=
  let s := closeWindows s n
  let h := heldOf s n
  let x := s.slice n
  let s := dropCred (dropCached s n) n
  let s := (chansOf h.chans).foldl (freshChannel 0xFF) s
  let s := freshObjects s n
  let s := s.setSlice { no := n, waits := x.waits, results := x.results }
  let exts := s.mem.extents.map fun (e : Extent) => if e.slice = n ∧ e.use ≠ .table then { e with use := .scrub } else e
  let locks := s.locks.map fun (k : LockSet) => { k with images := k.images.filter (fun i => i.slice != n), parity := k.parity.filter (fun p => p.slice != n),
                                                         mapSeals := k.mapSeals.filter (fun m => m.slice != n) }
  let s := { s with mem := { s.mem with extents := exts }, scrubs := s.scrubs ++ [h], locks := locks,
                    bank := { s.bank with waiting := s.bank.waiting.filter fun w => w.1 != n } }
  noteGrants ((s.putObj (Obj.sState n) 0).putObj (Obj.scrubPending n) 1)

/-! ### The queue of operations (R388) -/

/-- Whether a store of a slice to a range of its virtual space is still on its way. -/
def storesInto (s : State) (n va size : Nat) : Bool := s.stores.any fun e => e.slice == n && e.space != 1 && decide (va < e.va + 64 ∧ e.va < va + size)

/-- An operation performed: its status and pages done; none while a QUIESCE goes on, or while a store that uses an entry which is taken away
is still on its way (R156). -/
def performOp (s : State) (n : Nat) (w : SopWait) : State × Option (Nat × Nat) :=
  let st := s.getObj (Obj.sState n)
  let o := w.req
  if w.op = opCreate then
    if !w.byManager ∨ st ≠ 0 then (s, some (stRefused, 0))
    else
      let r := createSlice s n
      (r.1, some (r.2, 0))
  else if st = 0 then (s, some (stRefused, 0))
  else if w.op = opDestroy then
    if !w.byManager then (s, some (stRefused, 0))
    else if st ≠ 3 then (s, some (stNotQuiet, 0)) else (destroySlice s n, some (stOk, 0))
  else if w.op = opReset then (if st ≠ 3 then (s, some (stNotQuiet, 0)) else (resetSlice s n, some (stOk, 0)))
  else if w.op = opQuiesce then
    if st ≠ 1 ∨ 10000000 < o.limitUs then (s, some (stRefused, 0)) else (beginQuiesce s n o.limitUs w, none)
  else if w.op = opResume then (if st ≠ 3 then (s, some (stRefused, 0)) else (s.putObj (Obj.sState n) 1, some (stOk, 0)))
  else if w.op = opMap ∨ w.op = opUnmap ∨ w.op = opProtect then
    let s := if w.op = opMap then s else landEvery s
    if w.op ≠ opMap ∧ storesInto s n o.va.toNat (o.count * pageBytes o.psize) then (s, none)
    else
      let r := pagesOp s n w.op o
      (r.1, some r.2)
  else (s, some (stRefused, 0))

/-- Operations that wait are performed in order until one goes on. -/
def runOps (n : Nat) : Nat → State → State
  | 0, s => s
  | k + 1, s =>
    let x := s.slice n
    match x.current, x.waits with
    | none, w :: rest =>
      match performOp (s.setSlice { x with waits := rest }) n w with
      | (s, some r) => runOps n k (sopResult s n w r.1 r.2)
      | (s, none) => if (s.slice n).current.isSome then s else s.setSlice { (s.slice n) with waits := w :: (s.slice n).waits }
    | _, _ => s

/-- Operations that wait for stores are tried again. -/
def runWaiting (s : State) : State :=
  ((s.slices.filter fun x => x.current.isNone && !x.waits.isEmpty).map (·.no)).foldl (fun s n => runOps n 9 s) s

/-- What happens in time with no command waiting (log 2): a nanosecond passes, stores on their way are performed or not (R164, log 5), bursts
on a frozen link or channel end or not (log 110), NOTIFY writes, operations and requests at the homes that waited are tried again. -/
def passTime (s : State) : State :=
  let s := serveHeld (freePlaces (idle s))
  let s := ((s.stores.map (·.core)).foldl (fun cs c => addNew c cs) []).foldl landSome s
  let s := if helloExpired s then startElect s else s
  runWaiting (notifyAgain (drainBursts s))

/-- A request arrives (R388, R389): performed, queued behind the operation in progress, or as the ninth refused. -/
def submitOp (s : State) (n : Nat) (w : SopWait) : State :=
  let x := s.slice n
  if (if x.current.isSome then 8 else 9) ≤ x.waits.length then sopResult s n w stRefused 0
  else runOps n 9 (s.setSlice { x with waits := x.waits ++ [w] })

/-- A request written to SOP_REQUEST by the manager, or to S_OP_REQUEST of a slice. -/
def requestOp (cr : Cred) (op : Nat) (o : SopReq) (s : State) : Res :=
  if !(credOk s cr) then .next (s.addObj Obj.odAuthFails 1)
  else match cr with
  | .none => .next (refuseAccess s)
  | .slice n => .next (submitOp s n { byManager := false, op := op, req := o })
  | .manager => if 64 ≤ o.slice then .refused .illFormed else .next (submitOp s o.slice { byManager := true, op := op, req := o })

/-- CREATE (R181, R212, R279, R291, R381, R382). -/
def execCreateSlice (cr : Cred) (o : SopReq) (s : State) : Res := requestOp cr opCreate o s

/-- DESTROY (R198, R234, R313, R387, R401). -/
def execDestroySlice (cr : Cred) (o : SopReq) (s : State) : Res := requestOp cr opDestroy o s

/-- MAP (R155, R237, R244, R390, R394). -/
def execMapPages (cr : Cred) (o : SopReq) (s : State) : Res := requestOp cr opMap o s

/-- UNMAP (R155, R156, R215, R390). -/
def execUnmap (cr : Cred) (o : SopReq) (s : State) : Res := requestOp cr opUnmap o s

/-- PROTECT (R156, R215, R390). -/
def execProtect (cr : Cred) (o : SopReq) (s : State) : Res := requestOp cr opProtect o s

/-- QUIESCE (R234, R297, R384). -/
def execQuiesceSlice (cr : Cred) (o : SopReq) (s : State) : Res := requestOp cr opQuiesce o s

/-- RESUME (R383). -/
def execResumeSlice (cr : Cred) (o : SopReq) (s : State) : Res := requestOp cr opResume o s

/-- RESET (R111, R198, R387, R399). -/
def execResetSlice (cr : Cred) (o : SopReq) (s : State) : Res := requestOp cr opReset o s

/-- Whether a running command may be stopped (R280): not a BANK, nor one with ATOMIC set; a LAUNCH with ATOMIC from its first gang's start on. -/
def preemptible (s : State) (ch : Nat) (c : Cmd) : Bool :=
  c.op != 0x0B && (!c.atomic || (c.op == 0x01 && (s.launches.filter fun l => l.ch == ch && l.seq == c.seq).all fun l => l.nextGang == 0))

/-- A running command meets the limit of a QUIESCE: a step of a COLLECTIVE that has started runs to its end first (R280); where that must wait
the limit stands. -/
def limitCmd (n ch : Nat) (s : State) (c : Cmd) : Res :=
  let stop (s : State) : Res := .next (stopCommand s ch ((findFlight s ch c.seq).getD c) stQuiesced)
  match s.net.colls.find? fun x => x.ch == ch && x.seq == c.seq with
  | none => stop s
  | some x => match stepGoing s x with
    | none => stop s
    | some cs => match stepWrite s x c cs with
      | .ok (some s) => stop s
      | .ok none => .next (collAny s x c)
      | .error (.wait s) => .next (s.setSlice { (s.slice n) with limitAt := some s.now })
      | .error e => collStop s x c e

/-- QUIESCE_LIMIT_EXPIRY (R297, R384): what still runs is stopped, but non-pre-emptible commands, which run to their end (R280). -/
def execQuiesceLimitExpiry (n : Nat) (s : State) : Res :=
  withSome s (s.slice n).limitAt "QUIESCE limit" fun t =>
    onlyIf s (s.getObj (Obj.sState n) == 2 && decide (t ≤ s.now)) "QUIESCE limit" <|
      let s := s.setSlice { (s.slice n) with limitAt := none }
      let todo := (channelsOf s n).flatMap fun ch => ((s.chan ch).flight.filter (preemptible s ch)).map fun c => (ch, c)
      todo.foldl (fun (r : Res) x => match r with
        | .next s => limitCmd n x.1 s x.2
        | r => r) (.next s)

/-- QUIET_REACHED (R383, R385): the QUIESCE completes, and the operations behind it run. -/
def execQuietReached (n : Nat) (s : State) : Res :=
  onlyIf s (decide (n < 64) && s.getObj (Obj.sState n) == 2 && isQuiet s n) "quiet slice" <|
    let x := s.slice n
    let s := (s.putObj (Obj.sState n) 3).setSlice { x with current := none, limitAt := none }
    let s := match x.current with
      | some w => sopResult s n w stOk 0
      | none => s
    .next (runOps n 8 s)

/-- Whether the scrub of a slice is that of a secure-world slice, which is read back (Table 13.11). -/
def secureScrub (s : State) (n : Nat) : Bool := s.scrubs.any fun h => h.slice == n && h.world == 1

/-- Whether a stacked range has a line of a channel that grants nothing: its scrub waits there (R249). Any 96 lines from a die's line 0 modulo 96
take in a line of every channel. -/
def rangeFrozen (s : State) (base size : Nat) : Bool :=
  decide (base < 4 * dieWindow) && (List.range (min 96 (size / 512))).any fun i =>
    let c := stackChannel s (base + 512 * i)
    s.getObj (Obj.chFreeze c.1 c.2) == 1 && s.getObj (Obj.chState c.1 c.2) != 2

/-- SCRUB_END (R401): what the slice held is zero and returns to its pools. The scrub engine zeroes the shared scratch in either world, the
pages in the non-secure one. A failed check makes the module cold, for a cause that Table
12.6 does not number (log 76). -/
def execScrubEnd (n : Nat) (checkFailed : Bool) (s : State) : Res :=
  onlyIf s (decide (n < 64) && s.getObj (Obj.scrubPending n) == 1 && (!checkFailed || secureScrub s n)) "scrub" <|
    if checkFailed then .next (goCold (s.useFree 1) (s.freeVal % 256))
    else
    let es := s.mem.extents.filter fun e => e.slice == n && e.use == .scrub
    if es.any fun e => rangeFrozen s e.base e.size then .next s else
    let secure := secureScrub s n
    let shared := 2 ^ 24 * sumNat ((s.scrubs.filter fun h => h.slice == n).map fun h => sumNat (h.scratch.map ways))
    let s := es.foldl (fun s e => zeroRange s e.base e.size) s
    let s := { s with mem := { s.mem with extents := s.mem.extents.filter fun (e : Extent) => !(e.slice == n && e.use == Use.scrub) },
                      scrubs := s.scrubs.filter fun (h : Held) => h.slice != n }
    let s := s.addObj Obj.scrubBytes (shared + if secure then 0 else sumNat (es.map fun (e : Extent) => e.size))
    .next (noteGrants (s.putObj (Obj.scrubPending n) 0))

end Sys2Proof.Machine
end

