-- ==== Sys2Proof/Machine/Security.lean ====
section
/-! DEFINITION. Security.lean: attestation tokens (R398, R399), SPDM (R400), anti-rollback counters (R396) and the manager's key (R483). -/

namespace Sys2Proof.Machine

/-! ### Tokens (R398, Table 13.10) -/

/-- Digest of the image of a stage: one of test, or that of an image written by FW_RECOVERY where copy A of it runs (R395, R473). -/
def stageDigest (s : State) (i : Nat) : Nat :=
  match (s.boot.images.find? fun p => p.1 == i), bitN (s.getObj Obj.bootCopies) (i - 2) with
  | some p, false => Config.bootDigest (i + 8 * (p.2 + 1))
  | _, _ => Config.bootDigest i

/-- Claims that both kinds of token hold: stepping, DEBUG_STATE, boot digests, counters. -/
def commonClaims (s : State) : List Nat :=
  [s.getObj Obj.stepping, s.getObj Obj.debugState] ++ (List.range 5).map (fun i => stageDigest s (i + 1)) ++ (List.range 4).map fun i => s.getObj (Obj.arbCounter i)

/-- The configuration of a slice: PID, state, world and the values of Table 13.1. -/
def sliceClaims (s : State) (n : Nat) : List Nat :=
  [n, s.getObj (Obj.sState n)] ++ (List.range 0x14).map fun i => s.getObj (Obj.sPid n + i)

def regionClaims (s : State) (e : Nat) : List Nat := [e, s.getObj (Obj.rgnBase e), s.getObj (Obj.rgnSize e), s.getObj (Obj.rgnWorld e), s.getObj (Obj.rgnSlice e)]

/-- A slice's own world and region entries, its configuration and its recorded measurements in record order. -/
def sliceTokenClaims (s : State) (n : Nat) (nonce : List Byte) : List Nat :=
  [1, leNat nonce] ++ commonClaims s ++ [sliceWorld s n] ++ ((List.range 64).filter fun e => s.getObj (Obj.rgnSlice e) == n).flatMap (regionClaims s) ++
    sliceClaims s n ++ (s.slice n).mrecs.flatMap fun m => [m.slot, m.label.toNat, leNat m.digest]

/-- The manager key's digest, the region table, the unit worlds and every slice. -/
def deviceTokenClaims (s : State) (nonce : List Byte) : List Nat :=
  [0, leNat nonce] ++ commonClaims s ++ [leNat (sha384 (toLe 97 (s.getObj Obj.mgrKey)))] ++ (List.range 64).flatMap (regionClaims s) ++
    (List.range 4).map (fun d => s.getObj (Obj.rowWorld d)) ++ (List.range 64).flatMap (sliceClaims s)

/-- A token is at most 16 KiB. -/
def token (claims : List Nat) : List Byte := (Config.tokenBytes claims).take 16384

/-- A nonce written yields the token of its index. -/
def attestWrite (n : Nat) (nonce : List Byte) (s : State) : State := s.putBlob (Obj.attestToken n) (token (sliceTokenClaims s n nonce))

def devAttestWrite (nonce : List Byte) (s : State) : State := s.putBlob Obj.devAttestToken (token (deviceTokenClaims s nonce))

/-- The outcome of a checked write, counted where it is refused. -/
def settleWrite (s : State) (cr : Cred) (k ty : Nat) (val : List Byte) (f : State → State) : Res :=
  if !(credOk s cr) then .next (s.addObj Obj.odAuthFails 1)
  else match checkWrite s cr k ty val false with
    | .error _ => .next (refuseAccess s)
    | .ok _ => .next (f s)

/-- ATTEST_NONCE (R398). -/
def execAttestNonce (cr : Cred) (n : Nat) (nonce : List Byte) (s : State) : Res :=
  if 64 ≤ n then .refused .illFormed else settleWrite s cr (Obj.attestNonce n) 12 nonce (attestWrite n nonce)

/-- DEV_ATTEST_NONCE (R398). -/
def execDevAttestNonce (cr : Cred) (nonce : List Byte) (s : State) : Res := settleWrite s cr Obj.devAttestNonce 12 nonce (devAttestWrite nonce)

/-! ### SPDM (R400) -/

/-- Codes of the requests that are supported (SPDM 1.3, log 63): GET_DIGESTS, GET_CERTIFICATE, CHALLENGE, GET_VERSION, GET_MEASUREMENTS,
GET_CAPABILITIES, NEGOTIATE_ALGORITHMS. -/
def spdmSupported : List Nat := [0x81, 0x82, 0x83, 0x84, 0xE0, 0xE1, 0xE3]

/-- The certificate slot that a request names: Param1 of GET_CERTIFICATE and CHALLENGE, the SlotIDParam of GET_MEASUREMENTS with a signature
asked for (SPDM 1.3, log 63); 0 where it names none. -/
def spdmSlot (req : List Byte) : Nat :=
  let code := fieldLe req 1 1
  if code = 0x82 then fieldLe req 2 1 % 16 else if code = 0x83 then fieldLe req 2 1
  else if code = 0xE0 ∧ fieldLe req 2 1 % 2 = 1 then fieldLe req 36 1 % 16 else 0

/-- What the root of trust measures: the digests of boot stages 1 to 5, then the four counters. -/
def measurements (s : State) : List Nat := (List.range 5).map (fun i => stageDigest s (i + 1)) ++ (List.range 4).map fun i => s.getObj (Obj.arbCounter i)

/-- The response: an answer of the root of trust, ERROR InvalidRequest for a certificate slot other than 0, or ERROR UnsupportedRequest
(codes of SPDM 1.3, log 63). -/
def spdmWrite (req : List Byte) (s : State) : State :=
  let code := fieldLe req 1 1
  if code ∈ spdmSupported then
    if spdmSlot req ≠ 0 then s.putBlob Obj.spdmResponse [0x13, 0x7F, 0x01, 0x00]
    else (s.useFree 1).putBlob Obj.spdmResponse (Config.spdmAnswer (s.free :: measurements s) req)
  else s.putBlob Obj.spdmResponse [0x13, 0x7F, 0x07, BitVec.ofNat 8 code]

/-- SPDM_REQUEST (R400). -/
def execSpdmRequest (cr : Cred) (req : List Byte) (s : State) : Res := settleWrite s cr Obj.spdmRequest 12 req (spdmWrite req)

/-! ### Counters and the manager's key -/

/-- Whether a counter may take a value: not above the security version of the running image, at most 64, never lower (R396). -/
def arbOk (s : State) (i v : Nat) : Bool := decide (v ≤ s.getObj (Obj.securityVersion i) ∧ v ≤ 64 ∧ s.getObj (Obj.arbCounter i) ≤ v)

/-- ARB_ADVANCE (R396). -/
def execArbAdvance (cr : Cred) (i v : Nat) (s : State) : Res :=
  if 4 ≤ i then .refused .illFormed
  else settleWrite s cr (Obj.arbAdvance i) 2 (toLe 1 v) fun s => if arbOk s i v then s.putObj (Obj.arbCounter i) v else refuseAccess s

/-- Whether a write of MGR_KEY is admitted (R483): while it is all zero, only unsigned on the management port; later, only the manager's. -/
def mgrKeyOk (s : State) (cr : Cred) (mgmt : Bool) : Bool :=
  if s.getObj Obj.mgrKey = 0 then decide (cr = .none) && mgmt else decide (cr = .manager)

/-- MGR_KEY (R483). -/
def execMgrKey (cr : Cred) (mgmt : Bool) (key : List Byte) (s : State) : Res :=
  if !(credOk s cr) then .next (s.addObj Obj.odAuthFails 1)
  else if mgrKeyOk s cr mgmt && key.length == 97 && leNat key % 256 == 4 then .next (s.putObj Obj.mgrKey (leNat key)) else .next (refuseAccess s)

end Sys2Proof.Machine
end

