-- ==== Sys2Proof/Machine/PowerCtl.lean ====
section
/-! DEFINITION. PowerCtl.lean: the way back to STANDBY (R460), the damper (R410 to R416, R420), droop (R417), trims and energy (R413,
R421), and the states of the power domains (R407, R408). -/

namespace Sys2Proof.Machine

/-! ### Back to STANDBY (R460) -/

/-- Whether an object of the management complex or the root of trust keeps its value while domain 87 stays up. -/
def inDomain87 (k : Nat) : Bool :=
  let a := keyIx k
  k == Obj.energy || k == Obj.powerMeasured || decide ((0x1000 ≤ a ∧ a < 0x1080) ∨ (0x2100 ≤ a ∧ a ≤ 0x2105) ∨ (0x9000 ≤ a ∧ a ≤ 0x9006) ∨ (0xA000 ≤ a ∧ a ≤ 0xA002))

/-- Whether an object is stored. LS_ENABLE does not survive a start-up (R468; log 77). -/
def isStored (k : Nat) : Bool := (match objRow? k with
  | some r => r.stored
  | none => false) && !(decide (0x7010 ≤ keyIx k ∧ keyIx k < 0x7018 ∧ keySub k = 4))

/-- The state of everything but domain 87 and the stored objects is lost. -/
def loseState (keep : Nat → Bool) (s : State) : State :=
  { od := s.od.filter fun p => isStored p.1 || keep p.1, inForce := s.inForce, blobs := s.blobs, odp := s.odp, elec := s.elec, boot := s.boot,
    power := { classInForce := s.power.classInForce }, free := s.free, out := s.out, pending := s.pending }

/-- From a state above STANDBY the module returns to STANDBY; a start-up that this ends, or COLD, is not followed by one on its own (R379,
R469, R472). -/
def toStandby (s : State) : State :=
  let m := s.getObj Obj.moduleState
  if m ≤ 1 then s
  else
    let s := (loseState inDomain87 s.flushCounters).putObj Obj.moduleState 1
    let s := { s with boot := { s.boot with epoch := false, heldHello := [], mayStart := s.boot.mayStart && !(m == 2 || m == 3 || m == 6) } }
    if m = 2 ∨ m = 3 then s.putObj Obj.startFail 7 else s

/-! ### Points (R410) -/

/-- Core clock of a class and point in MHz (Table 14.3). -/
def pointClock (c p : Nat) : Nat :=
  ((if c = 0 then [1800, 1600, 1400, 1200] else if c = 1 then [1600, 1400, 1200, 1000] else [1200, 1050, 900, 750]).getD p 0)

/-- The power limit in force in W: the class limit, reduced to POWER_CAP where that is not zero (R414). -/
def powerLimit (s : State) : Nat :=
  let l := classLimit (classNow s)
  if s.getObj Obj.powerCap = 0 then l else min l (s.getObj Obj.powerCap)

/-- Whether steady clock is in force (R404). -/
def steadyClock (s : State) : Bool := (liveSlices s).any fun n => s.getObj (Obj.sSteadyClock n) == 1

/-- The lowest-numbered point that may be held (R411). -/
def floorPoint (s : State) : Nat := if steadyClock s then s.getObj Obj.steadyPoint else s.getObj Obj.pointTarget

/-- A change of point begins (R412). -/
def beginChange (s : State) (target : Nat) (byExcess : Bool := false) : State :=
  { (s.putObj Obj.boostMhz 0) with power := { s.power with change := some { target := target, byExcess := byExcess } } }

/-! ### Power domains (R407, R408) -/

/-- POWER_DOMAIN_STATE of a row domain: on while a slice holds the row, clock-gated while no gang on the cores stands on
it. -/
def rowDomain (s : State) (r : Nat) : Nat :=
  if (holds s).any fun h => h.rows.testBit r then (if s.launches.any fun l => onCores l && l.live.any fun g => g.core / 13 == r then 1 else 2) else 0

/-- POWER_DOMAIN_STATE of a domain (Table 14.1): 0 off, 1 on, 2 clock-gated. -/
def domainState (s : State) (n : Nat) : Nat :=
  let st := s.getObj Obj.moduleState
  let on := decide (3 ≤ st)
  let num (b : Bool) : Nat := if b then 1 else 0
  if n < 72 then (if n % 18 < 12 then (if on then rowDomain s (12 * (n / 18) + n % 18) else 0) else num on)
  else if n < 80 then
    num (on && (decide (s.forced (Obj.portMode (2 * (n - 72))) < 3) || decide (s.forced (Obj.portMode (2 * (n - 72) + 1)) < 3)))
  else if n = 81 then num (on && (st == 3 || s.getObj Obj.ddrPresent == 1))
  else if n = 82 then num (on && (st == 3 || (List.range 8).any fun x => s.getObj (Obj.cxlLinkUp x) == 1))
  else if n = 83 then num (on && (List.range 2).any fun p => s.getObj (Obj.cpState p) == 1 || s.getObj (Obj.cpState p) == 2)
  else if n = 87 then num (decide (1 ≤ st))
  else num on

/-! ### Voltages (R418, R420, R422) -/

/-- A row's voltage in mV at a point of the class in force, with so many steps of boost, from its table: that of the point held once the row is
switched on or a change has completed (R422). -/
def rowVoltage (s : State) (row p steps : Nat) : Nat :=
  s.getObj (Obj.rowVoltage (row / 12) (12 * (row % 12) + 4 * classNow s + p)) + 5 * steps

/-- Voltage of a power domain at a point: of a row its own; of the fabric, LLC and die-link domains of a Gient die the highest of its rows
(R418). Proty's run at one that no point changes, which stands as 1. -/
def domainVoltage (s : State) (n p steps : Nat) : Nat :=
  let d := n / 18
  if 72 ≤ n then 1
  else if n % 18 < 12 then rowVoltage s (12 * d + n % 18) p steps
  else (List.range 12).foldl (fun v r => max v (rowVoltage s (12 * d + r) p steps)) 0

/-! ### Estimates (R413, R414) -/

/-- The number of an activity among its domain's coefficients. -/
def actNo : Activity → Nat
  | .matrixCycles => 0
  | .llcAccesses => 1
  | .bursts => 2
  | .portBytes => 3
  | .issued c => 4 + 2 * c
  | .flits n => 5 + 2 * n

/-- The dynamic part of a domain's estimate: its counters weighted by their coefficients as trimmed. -/
def dynamicPart (s : State) (coef : Nat → Nat → Nat) (m : DamperIn) (n : Nat) : Nat :=
  sumNat ((m.activity.filter fun c => c.domain == n).map fun c => c.n * coef n (actNo c.what)) * (1000 + s.power.trims).toNat / 1000000

/-- Boost now, in steps of 25 MHz. -/
def boostSteps (s : State) : Nat := s.getObj Obj.boostMhz / 25

/-- The die of a power domain: G0 to G3, then Proty. -/
def dieOfDomain (n : Nat) : Nat := if n < 72 then n / 18 else 4

/-- A domain's share of an estimate at a point and boost: the dynamic part scales by clock × voltage², the static part by voltage (R414);
at the point held both are as they are. -/
def shareAt (s : State) (coef : Nat → Nat → Nat) (still : Nat → Nat → Int → Nat) (m : DamperIn) (p steps n : Nat) : Nat :=
  let held := s.getObj Obj.pointHeld
  let v := domainVoltage s n held (boostSteps s)
  let w := domainVoltage s n p steps
  let c := if 72 ≤ n then 1 else pointClock (classNow s) held + s.getObj Obj.boostMhz
  let d := if 72 ≤ n then 1 else pointClock (classNow s) p + 25 * steps
  let dyn := dynamicPart s coef m n
  let stat := if domainState s n = 0 then 0 else still n v (m.dieTemps.getD (dieOfDomain n) 0)
  if c * v = 0 then dyn + stat else dyn * (d * w * w) / (c * v * v) + stat * w / v

/-- The estimate of module power in mW at a point and boost. -/
def powerAt (s : State) (m : DamperIn) (p steps : Nat) : Nat :=
  sumNat ((List.range 88).map (shareAt s Config.powerCoef Config.staticPower m p steps))

/-- The estimate of a die's core-rail current in mA at a point and boost. -/
def currentAt (s : State) (m : DamperIn) (p steps die : Nat) : Nat :=
  sumNat (((List.range 88).filter fun n => dieOfDomain n == die).map (shareAt s Config.currentCoef Config.staticCurrent m p steps))

/-- The estimates of a window. -/
def powerEst (s : State) (m : DamperIn) : Nat := powerAt s m (s.getObj Obj.pointHeld) (boostSteps s)

def currentEst (s : State) (m : DamperIn) (die : Nat) : Nat := currentAt s m (s.getObj Obj.pointHeld) (boostSteps s) die

/-- The next higher point, or the next step of boost at P0, for which the predictions are made. -/
def nextUp (s : State) : Nat × Nat := if s.getObj Obj.pointHeld = 0 then (0, boostSteps s + 1) else (s.getObj Obj.pointHeld - 1, 0)

/-! ### One window (R413 to R415, R420) -/

/-- The estimates and temperatures of a window. -/
def noteWindow (s : State) (m : DamperIn) : State :=
  let mW := powerEst s m
  let cur := (List.range 5).map (currentEst s m)
  let p := s.power
  let s := { s.putObj Obj.powerEst (mW / 1000) with power := { p with estSum := p.estSum + mW, estCount := p.estCount + 1 } }
  let s := (List.range 5).foldl (fun s d => (s.putObj (Obj.dieCurrent d) (min 65535 (cur.getD d 0 / 1000))).putObj (Obj.dieTemp d) (toI32 (m.dieTemps.getD d 0))) s
  (List.range 12).foldl (fun s h => s.putObj (Obj.stackTemp h) (toI32 (m.stackTemps.getD h 0))) s

/-- Dies of which a current in mA is above a share of the limit in percent. -/
def overCurrents (s : State) (cur : Nat → Nat) (pct : Nat) : List Bool :=
  (List.range 5).map fun d => decide (s.getObj (Obj.dieCurrentLimit d) * 1000 * pct < cur d * 100)

/-- The temperature target of a sensor group in m°C: the Gient dies, Proty, then the stacks. -/
def targetOf (s : State) (i : Nat) : Nat := if i < 4 then s.getObj Obj.tjTarget * 1000 else if i = 4 then 100000 else s.getObj Obj.stackTarget * 1000

/-- Whether each die and each stack is above its target less a margin, in m°C. -/
def hotNow (s : State) (m : DamperIn) (margin : Nat) : List Bool :=
  ((List.range 5).map (fun d => m.dieTemps.getD d 0) ++ (List.range 12).map fun h => m.stackTemps.getD h 0).mapIdx fun i t =>
    decide ((targetOf s i : Int) < t + margin)

/-- Counts of consecutive windows. -/
def countUp (cs : List Nat) (bs : List Bool) : List Nat := bs.zipIdx.map fun p => if p.1 then cs.getD p.2 0 + 1 else 0

/-- The windows' counters after a window: 8 windows above a power or current limit, 500 above a temperature (1 ms), 500 with a
prediction below 97%, 50,000 cool ones (100 ms) are what the rules ask for. -/
def countWindow (s : State) (m : DamperIn) : Power :=
  let p := s.power
  let up := nextUp s
  { p with
    overPower := if powerLimit s * 1000 < powerEst s m then p.overPower + 1 else 0,
    overCurrent := countUp p.overCurrent (overCurrents s (currentEst s m) 100),
    hot := countUp p.hot (hotNow s m 0),
    mayPower := if powerAt s m up.1 up.2 * 100 < powerLimit s * 1000 * 97 then p.mayPower + 1 else 0,
    mayCurrent := if (List.range 5).all fun d => decide (currentAt s m up.1 up.2 d * 100 < s.getObj (Obj.dieCurrentLimit d) * 1000 * 97) then p.mayCurrent + 1 else 0,
    cool := if (hotNow s m 3000).any id then 0 else p.cool + 1 }

/-- Whether a window is above a limit of power or current, by a margin in percent. -/
def excess (s : State) (m : DamperIn) (pct : Nat) : Bool :=
  decide (powerLimit s * 1000 * pct < powerEst s m * 100) || (overCurrents s (currentEst s m) pct).any id

/-- Issue gating (R415): it begins at an excess above 5% and lasts until the estimate is within the limit; the fraction is free. -/
def gateWindow (s : State) (m : DamperIn) : State :=
  if excess s m 105 then
    { (s.useFree 1).addObj Obj.issueGated 1 with power := { s.power with gate := 1 + s.freeVal % 7 } }
  else if s.power.gate < 8 ∧ excess s m 100 then s.addObj Obj.issueGated 1
  else { s with power := { s.power with gate := 8 } }

/-- A step down is counted for every cause; one at STEADY_POINT breaks steady clock (R404, R414). -/
def stepDown (s : State) (byPower byCurrent byHeat : Bool) : State :=
  let s := if byPower then s.addObj Obj.throttlePower 1 else s
  let s := if byCurrent then s.addObj Obj.throttleCurrent 1 else s
  let s := if byHeat then s.addObj Obj.throttleThermal 1 else s
  let breaks := steadyClock s && s.getObj Obj.pointHeld == s.getObj Obj.steadyPoint
  let s := if breaks then s.addObj Obj.steadyBreaks 1 else s
  let p := s.power
  beginChange { s with power := { p with overPower := 0, overCurrent := [], hot := [], steadyBroken := p.steadyBroken || breaks } } (s.getObj Obj.pointHeld + 1)
    (byPower || byCurrent)

/-- Boost (R420): 25 MHz more while every step-up condition holds, up to 10% above P0. -/
def boostWindow (s : State) (mayUp : Bool) : State :=
  let top := pointClock (classNow s) 0
  let b := s.getObj Obj.boostMhz + 25
  if mayUp && decide (b * 10 ≤ top) then
    { ((s.putObj Obj.boostMhz b).putObj Obj.coreClock (top + b)) with power := { s.power with mayPower := 0, mayCurrent := 0 } }
  else s

/-- The decision of a window (R411 to R414, R420). -/
def decideWindow (s : State) (m : DamperIn) : State :=
  let p := s.power
  let held := s.getObj Obj.pointHeld
  let low := floorPoint s
  let byPower := decide (8 ≤ p.overPower)
  let byCurrent := p.overCurrent.any fun c => decide (8 ≤ c)
  let byHeat := p.hot.any fun c => decide (500 ≤ c)
  let mayUp := decide (500 ≤ p.mayPower ∧ 500 ≤ p.mayCurrent ∧ 50000 ≤ p.cool)
  let limits := excess s m 100 || (hotNow s m 0).any id
  let boosted := decide (0 < s.getObj Obj.boostMhz)
  if p.change.isSome then s
  else if boosted && (limits || decide (low ≠ 0) || steadyClock s || s.getObj Obj.boostEnable == 0) then beginChange s (max held low) (excess s m 100)
  else if (byPower || byCurrent || byHeat) && decide (held < 3) then stepDown s byPower byCurrent byHeat
  else if held < low then beginChange s low
  else if low < held ∧ mayUp then beginChange { s with power := { p with mayPower := 0, mayCurrent := 0 } } (held - 1)
  else if held = 0 ∧ s.getObj Obj.boostEnable = 1 ∧ !(steadyClock s) ∧ !limits then boostWindow s mayUp
  else s

/-- DAMPER_WINDOW (R411 to R415, R420): while the damper runs; until READY_LOCAL it holds P3 (R464). -/
def execDamperWindow (m : DamperIn) (s : State) : Res :=
  let st := s.getObj Obj.moduleState
  onlyIf s (decide (3 ≤ st)) "damper" <|
    let s := noteWindow s m
    let s := gateWindow { s with power := countWindow s m } m
    .next (if st = 3 then s else decideWindow s m)

/-- The trim of a millisecond in 1/1000: toward the measured power where the mean estimate differs from it, by at most 5; by how much is
open. -/
def trimStep (s : State) (measuredW : Nat) : Int :=
  let p := s.power
  let most : Int := (s.freeVal % 6 : Nat)
  if p.estSum < measuredW * 1000 * p.estCount then most else if measuredW * 1000 * p.estCount < p.estSum then -most else 0

/-- DAMPER_TRIM (R413): the mean estimate of the last millisecond is compared with the measured input power, the coefficients are trimmed. -/
def execDamperTrim (measuredW : Nat) (s : State) : Res :=
  onlyIf s (decide (3 ≤ s.getObj Obj.moduleState)) "damper" <|
    .next { (s.putObj Obj.powerMeasured measuredW).useFree 1 with power := { s.power with trims := s.power.trims + trimStep s measuredW, estSum := 0, estCount := 0 } }

/-- POINT_CHANGE_COMPLETE (R412, R415). -/
def execPointChangeComplete (s : State) : Res :=
  withSome s s.power.change "change of point" fun c =>
    let moves := s.getObj Obj.pointHeld != c.target
    let s := (s.putObj Obj.pointHeld c.target).putObj Obj.coreClock (pointClock (classNow s) c.target)
    let s := if moves then s.addObj Obj.pointChanges 1 else s
    let broken := s.power.steadyBroken && c.target != s.getObj Obj.steadyPoint
    .next { s with power := { s.power with change := none, gate := if c.target = 3 ∨ c.byExcess = false then s.power.gate else 8, steadyBroken := broken } }

/-- THERMAL_TRIP (R416): counted in STANDBY as well, where another event came first (Table 15.3). -/
def execThermalTrip (s : State) : Res :=
  onlyIf s (decide (1 ≤ s.getObj Obj.moduleState)) "sensor" <| .next (toStandby ((s.addObj Obj.thermTrips 1).raiseHeld 8))

/-! ### Droop (R417) -/

/-- DROOP_ONSET: the row's clock is stretched. -/
def execDroopOnset (die row : Nat) (s : State) : Res :=
  if 4 ≤ die ∨ 12 ≤ row then .refused .illFormed
  else onlyIf s (decide (2 ≤ s.getObj Obj.moduleState)) "row supply" <|
    .next { (s.addObj (Obj.droopEvents die) 1) with power := { s.power with stretched := addNew (die, row) s.power.stretched } }

/-- DROOP_RECOVERY: the stretch is released. -/
def execDroopRecovery (die row cycles : Nat) (s : State) : Res :=
  onlyIf s (s.power.stretched.contains (die, row)) "stretched row" <|
    .next { (s.addObj (Obj.stretchedCycles die) cycles) with power := { s.power with stretched := s.power.stretched.filter (· != (die, row)) } }

end Sys2Proof.Machine
end

