-- ==== Sys2Proof/Machine/Electrical.lean ====
section
/-! DEFINITION. Electrical.lean: power input and its protection (R424, R425), hot plug and inrush (R427, R428), power-good (R463), ENABLE
(R431, R460), cooler, leak and plate (R441, R443), the management port's link (R436), alerts and indicators (R437, R444). -/

namespace Sys2Proof.Machine

/-! ### Outputs that follow from the state -/

/-- ALERT_N is low, and ATTN is lit, while a cause is set that the mask lets through (R431, R437). -/
def alertN (s : State) : Bool := (s.getObj Obj.alertCause &&& s.getObj Obj.alertMask) != 0

/-- An indicator: off, steady, or blinking at so many tenths of a hertz. -/
inductive Lamp where
  | off
  | steady
  | blink (tenths : Nat)
  deriving DecidableEq, Repr

def pwrLamp (s : State) : Lamp := if s.getObj Obj.moduleState = 0 then .off else .steady

/-- STATE is green, but amber in COLD (Table 15.8). -/
def stateAmber (s : State) : Bool := s.getObj Obj.moduleState == 6

def stateLamp (s : State) : Lamp :=
  match s.getObj Obj.moduleState with
  | 2 => .blink 10
  | 3 => .blink 40
  | 4 => .blink 5
  | 5 => .steady
  | 6 => .steady
  | _ => .off

/-- LOCATE takes precedence (R437). -/
def attnLamp (s : State) : Lamp := if s.getObj Obj.locate = 1 then .blink 20 else if alertN s then .steady else .off

/-- The duty of COOL_PWM in percent (R443); without running dies its reset value. The linear part is rounded down (log 65). -/
def coolDuty (s : State) : Nat :=
  let t := (((List.range 4).map fun d => signedN 32 (s.getObj (Obj.dieTemp d))).foldl max 0).toNat
  let top := s.getObj Obj.tjTarget * 1000
  if s.getObj Obj.coolMode = 1 then s.getObj Obj.coolDuty
  else if s.getObj Obj.moduleState < 3 then 100
  else if t ≤ 60000 then 30
  else if top ≤ t then 100
  else 30 + 70 * (t - 60000) / (top - 60000)

/-! ### Off -/

/-- No domain runs: what no flash holds is lost, the class in force among it, and stored counters return as flash holds them (R423, R425, R459,
R493). -/
def goOff (s : State) : State :=
  let kept := (s.od.filter fun p => isStored p.1 && !(State.storedCounters.contains p.1)) ++ s.odp.flash
  let t := loseState (fun _ => false) { s with od := [], blobs := s.blobs.filter fun b => isStored b.1, odp := { flash := s.odp.flash }, boot := { images := s.boot.images } }
  { (kept.foldl (fun t p => t.putObj p.1 p.2) t).putObj Obj.moduleState 0 with power := {}, elec := { s.elec with held := 0, energyNj := 0 } }

/-- INPUT_BELOW_18V (R425, R459, R474): OFF; the next boot starts at M1. -/
def execInputBelow18v (s : State) : Res :=
  onlyIf s (decide (1 ≤ s.getObj Obj.moduleState)) "input power" <|
    let e := (goOff s).elec
    .next { (goOff s) with elec := { e with inputOn := false, switchClosed := false, charged := false, inrushDue := e.present, overVolt := false, ocWait := false, aux12 := true } }

/-! ### Hot plug and inrush (R427, R428, R432) -/

/-- PRESENT_N_CLOSE: charging is due 10 ms later. -/
def execPresentNClose (s : State) : Res :=
  onlyIf s (!s.elec.present) "open PRESENT_N" <| .next { s with elec := { s.elec with present := true, inrushDue := true } }

/-- PRESENT_N_OPEN: stages and switch off, also during inrush; counted where the module was powered (Table 15.2, R429). -/
def execPresentNOpen (s : State) : Res :=
  onlyIf s s.elec.present "closed PRESENT_N" <|
    let s1 := if s.elec.switchClosed then s.addObj Obj.hotUnplugs 1 else s
    let e := (goOff s).elec
    .next { (goOff s1.flushCounters) with elec := { e with present := false, switchClosed := false, charged := false, inrushDue := false } }

/-- INRUSH_START: the switch begins to charge the bulk, with the input between its thresholds and domain 87 running. -/
def execInrushStart (s : State) : Res :=
  let e := s.elec
  onlyIf s (decide (1 ≤ s.getObj Obj.moduleState) && e.inputOn && e.present && e.inrushDue && !e.switchClosed && !e.overVolt && !e.ocWait) "inrush that is due" <|
    .next { s with elec := { e with switchClosed := true, inrushDue := false } }

/-- INRUSH_COMPLETE. -/
def execInrushComplete (s : State) : Res :=
  onlyIf s (s.elec.switchClosed && !s.elec.charged) "inrush" <| .next { s with elec := { s.elec with charged := true } }

/-- POWER_GOOD (R463): the conditions that the state shows must hold, and the input lies between 39.5 V and 61 V. -/
def execPowerGood (s : State) : Res :=
  let e := s.elec
  onlyIf s (e.present && e.switchClosed && e.charged && !e.overVolt && s.getObj Obj.enableIn == 1 && decide (1 ≤ s.getObj Obj.moduleState)) "power-good conditions" <|
    .next { s with elec := { e with inputOn := true }, boot := { s.boot with powerGood := true } }

/-! ### Input protection (Table 15.2) -/

/-- A change of the input side that ends power-good. -/
def loseGood (s : State) (e : Elec) : State := { s with elec := e, boot := { s.boot with powerGood := false } }

/-- UNDERVOLTAGE: the stages turn off (R425, R429). -/
def execUndervoltage (s : State) : Res :=
  onlyIf s (decide (1 ≤ s.getObj Obj.moduleState)) "input" <|
    .next (toStandby (loseGood ((s.addObj Obj.uvEvents 1).setAlert 0) { s.elec with inputOn := false }))

/-- OVERVOLTAGE: the switch opens. -/
def execOvervoltage (s : State) : Res :=
  onlyIf s (!s.elec.overVolt && decide (1 ≤ s.getObj Obj.moduleState)) "input" <|
    .next (toStandby (loseGood ((s.addObj Obj.ovEvents 1).setAlert 1)
      { s.elec with overVolt := true, switchClosed := false, charged := false, inrushDue := false }))

/-- OVERVOLTAGE_RECOVERY: the switch closes again through inrush. -/
def execOvervoltageRecovery (s : State) : Res :=
  onlyIf s s.elec.overVolt "overvoltage" <| .next { s with elec := { s.elec with overVolt := false, inputOn := true, inrushDue := s.elec.present } }

/-- INPUT_OVERCURRENT: the switch opens. -/
def execInputOvercurrent (s : State) : Res :=
  onlyIf s (s.elec.switchClosed && decide (1 ≤ s.getObj Obj.moduleState)) "closed input switch" <|
    .next (toStandby (loseGood ((s.addObj Obj.ocEvents 1).setAlert 2) { s.elec with switchClosed := false, charged := false, ocWait := true }))

/-- OVERCURRENT_RECLOSE: the switch closes again, and the bulk charges. -/
def execOvercurrentReclose (s : State) : Res :=
  onlyIf s (s.elec.ocWait && s.elec.present && !s.elec.overVolt) "overcurrent" <|
    .next { s with elec := { s.elec with ocWait := false, switchClosed := true } }

/-- Whether AUX12 could be present: domain 87 runs and the input lies between 39.5 V and 61 V (R431). -/
def aux12May (s : State) : Bool := decide (1 ≤ s.getObj Obj.moduleState) && s.elec.inputOn && !s.elec.overVolt

/-- Whether AUX12 is present: off while a short is waited out (R425, R431). -/
def aux12On (s : State) : Bool := aux12May s && s.elec.aux12

/-- AUX12_SHORT: the module's state does not change (R429). -/
def execAux12Short (s : State) : Res :=
  onlyIf s (aux12On s) "AUX12" <|
    .next { ((s.addObj Obj.aux12Shorts 1).setAlert 3) with elec := { s.elec with aux12 := false } }

/-- AUX12_RETRY: AUX12 is on again unless the short persists. -/
def execAux12Retry (mA : Nat) (s : State) : Res :=
  onlyIf s (!s.elec.aux12 && aux12May s) "AUX12 short" <|
    if 4000 < mA then .next s else .next { (s.putObj Obj.aux12Current mA) with elec := { s.elec with aux12 := true } }

/-- The terminals at 39.5 V or more: the input is no longer below its threshold (Table 15.1). -/
def noteInput (s : State) (terminalmV : Nat) : State := { s with elec := { s.elec with inputOn := s.elec.inputOn || decide (39500 ≤ terminalmV) } }

/-- VSENSE_CHECK: more than 2 V apart, the terminal measurement is used. -/
def execVsenseCheck (sensemV terminalmV : Nat) (s : State) : Res :=
  onlyIf s (decide (1 ≤ s.getObj Obj.moduleState)) "domain 87" <|
    let s := noteInput s terminalmV
    if terminalmV + 2000 < sensemV ∨ sensemV + 2000 < terminalmV then
      .next (((s.putObj Obj.senseOpen 1).putObj Obj.inputVoltage terminalmV).setAlert 4)
    else .next ((s.putObj Obj.senseOpen 0).putObj Obj.inputVoltage sensemV)

/-! ### Sideband (R431, R441, R443, R460, R469) -/

/-- ENABLE_CHANGE: low takes the module to STANDBY; high, after 10 ms or more low, lets a start-up be tried again. -/
def execEnableChange (high : Bool) (lowMs : Nat) (s : State) : Res :=
  onlyIf s (decide (1 ≤ s.getObj Obj.moduleState) && high != (s.getObj Obj.enableIn == 1)) "change of ENABLE" <|
    if high then .next { (s.putObj Obj.enableIn 1) with boot := { s.boot with mayStart := s.boot.mayStart || decide (10 ≤ lowMs) } }
    else .next (toStandby (loseGood (s.putObj Obj.enableIn 0) s.elec))

/-- LEAK_DETECT. -/
def execLeakDetect (s : State) : Res :=
  onlyIf s (decide (1 ≤ s.getObj Obj.moduleState)) "domain 87" <|
    let s := (s.addObj Obj.leakEvents 1).raiseHeld 6
    .next (if s.getObj Obj.leakAction = 1 then toStandby s else s)

/-- COOL_TACH_LOW: for 2 s below COOL_TACH_MIN, which is not zero. -/
def execCoolTachLow (hz : Nat) (s : State) : Res :=
  onlyIf s (decide (1 ≤ s.getObj Obj.moduleState ∧ hz < s.getObj Obj.coolTachMin)) "COOL_TACH_MIN" <| .next ((s.putObj Obj.coolTachHz hz).raiseHeld 9)

/-- The limit of PLATE_TEMP in m°C for a cooling class (Table 15.10). -/
def plateLimit (c : Nat) : Nat := if c = 0 then 60000 else if c = 1 then 65000 else 75000

/-- PLATE_OVER_LIMIT: for 1 s above the limit of the class in force. -/
def execPlateOverLimit (mC : Nat) (s : State) : Res :=
  onlyIf s (decide (1 ≤ s.getObj Obj.moduleState ∧ plateLimit (classNow s) < mC)) "plate limit" <| .next ((s.putObj Obj.plateTemp mC).raiseHeld 10)

/-- MGMT_LINK_DOWN (R436): an open or shorted pair, also one that never was up; the port goes down where it was up. -/
def execMgmtLinkDown (s : State) : Res :=
  onlyIf s (decide (1 ≤ s.getObj Obj.moduleState)) "management pair" <|
    .next ((if s.getObj Obj.mgmtLink = 1 then (s.putObj Obj.mgmtLink 0).addObj Obj.mgmtLinkLosses 1 else s).raiseHeld 5)

/-- MGMT_LINK_UP (R436). -/
def execMgmtLinkUp (s : State) : Res :=
  onlyIf s (decide (1 ≤ s.getObj Obj.moduleState) && s.getObj Obj.mgmtLink == 0) "management pair" <| .next ((s.putObj Obj.mgmtLink 1).endHeld 5)

/-! ### Telemetry and ALERT_CAUSE (R421, R443, R444) -/

/-- Conditions of ALERT_CAUSE that hold. -/
def alertsHeld (s : State) : Nat :=
  let b (p : Bool) (i : Nat) : Nat := if p then 2 ^ i else 0
  (b (!s.elec.inputOn) 0 + b s.elec.overVolt 1 + b s.elec.ocWait 2 + b (!s.elec.aux12) 3 + b (s.getObj Obj.senseOpen == 1) 4 +
    b (s.getObj Obj.moduleState == 6) 7) ||| s.elec.held

/-- The bits of the conditions that hold are set (R444). -/
def setHeld (s : State) : State := s.putObj Obj.alertCause (s.getObj Obj.alertCause ||| alertsHeld s)

/-- Of the causes of which the sensors tell (leak, trip temperature, tachometer, plate) those named are over. -/
def noteEnded (s : State) (ended : Nat) : State := [6, 8, 9, 10].foldl (fun s i => if bitN ended i then s.endHeld i else s) s

/-- Conditions that the sensors show to be over. -/
def noteSensors (s : State) (t : Telemetry) : State :=
  let b (p : Bool) (i : Nat) : Nat := if p then 2 ^ i else 0
  noteEnded s (b (!t.leak) 6 + b (!t.tripping) 8 + b (decide (s.getObj Obj.coolTachMin ≤ t.tachHz)) 9 +
    b (decide (t.platemC ≤ (plateLimit (classNow s) : Int))) 10)

/-- ENERGY_UPDATE (R421, R425, R444): what is measured over 1 ms, at the terminals while SENSE_OPEN. Energy below a millijoule is kept for the
next update. -/
def execEnergyUpdate (sensemV terminalmV : Nat) (t : Telemetry) (s : State) : Res :=
  onlyIf s (decide (1 ≤ s.getObj Obj.moduleState)) "power stages" <|
    let mV := if s.getObj Obj.senseOpen = 1 then terminalmV else sensemV
    let nJ := s.elec.energyNj + mV * t.inputmA
    let s := ((s.addObj Obj.energy (nJ / 1000000)).putObj Obj.inputVoltage mV).putObj Obj.inputCurrent t.inputmA
    let s := ((s.putObj Obj.aux12Current t.aux12mA).putObj Obj.coolTachHz t.tachHz).putObj Obj.plateTemp (toI32 t.platemC)
    let s := { s.putObj Obj.spreaderTemp (toI32 t.spreadermC) with elec := { s.elec with energyNj := nJ % 1000000 } }
    .next (setHeld (noteSensors (noteInput s terminalmV) t))

end Sys2Proof.Machine
end

