-- ==== Sys2Proof/Machine/Startup.lean ====
section
/-! DEFINITION. Startup.lean: the management boot (R461, R462), BOOT (R464 to R466), TRAIN and READY_LOCAL (R467, R470 to R472), zeroing
(R468), retries (R469) and recovery of an image (R473). -/

namespace Sys2Proof.Machine

/-! ### Management boot (Table 17.2) -/

/-- Security version of a copy of a stage's image: copy B's, that of an image that FW_RECOVERY wrote to copy A, else the one that copy A was
made with, which SECURITY_VERSION reads while nothing else runs. -/
def copyVersion (s : State) (stage copy : Nat) : Nat :=
  if copy = 0 then ((s.boot.images.find? fun p => p.1 == stage).map (·.2)).getD (objReset (Obj.securityVersion (stage - 2)))
  else Config.versionB stage % 256

/-- Whether a copy of an image is accepted: its signature verifies and its security version is not below its counter (R395). -/
def copyOk (s : State) (stage : Nat) (sigs : BitVec 2) (copy : Nat) : Bool :=
  let arb := s.getObj (Obj.arbCounter (stage - 2))
  sigs.getLsbD copy && (arb == 0 || decide (arb ≤ copyVersion s stage copy))

/-- The copy from which a stage runs, the one of letter `first` before the other (R461); none where both are refused. -/
def copyOf (s : State) (stage : Nat) (sigs : BitVec 2) (first : Nat) : Option Nat :=
  if copyOk s stage sigs first then some first else if copyOk s stage sigs (1 - first) then some (1 - first) else none

/-- The letter that stage 2 was taken from. -/
def letter (s : State) : Nat := if bitN (s.getObj Obj.bootCopies) 0 then 1 else 0

/-- SECURITY_VERSION of the image that runs as a stage: at its reset value where copy A runs as it was made. -/
def noteVersion (s : State) (stage : Nat) : State :=
  let k := Obj.securityVersion (stage - 2)
  match bitN (s.getObj Obj.bootCopies) (stage - 2), (s.boot.images.find? fun p => p.1 == stage) with
  | false, none => { s with od := s.od.filter fun p => p.1 != k }
  | false, some p => s.putObj k p.2
  | true, _ => s.putObj k (Config.versionB stage % 256)

/-- BOOT_COPIES: bit i − 2 is set when stage i ran from copy B. -/
def noteCopy (s : State) (stage : Nat) (copy : Option Nat) : State :=
  let v := s.getObj Obj.bootCopies
  let b := 2 ^ (stage - 2)
  let v := if bitN v (stage - 2) then v - b else v
  noteVersion (s.putObj Obj.bootCopies (if copy = some 1 then v + b else v)) stage

/-- The protocol state of a new epoch: no window, snapshot, buffer or subscription (R481, R493). -/
def newEpoch (s : State) : State := { (s.addObj Obj.bootEpoch 1) with odp := { flash := s.odp.flash } }

/-- A start-up that fails ends in STANDBY, and is not retried on its own account (R469, R472). -/
def startFails (s : State) (code stage : Nat) : State :=
  let s := ((loseState inDomain87 s.flushCounters).putObj Obj.startFail code).putObj Obj.moduleState 1
  { s with boot := { s.boot with mayStart := false, epoch := false, heldHello := [], refusedStage := stage } }

/-- DOMAIN_87_UP (R395, R425, R461, R462, R469): the management boot from step M1, after OFF or after a recovery of an image. -/
def execDomain87Up (b : MgmtBoot) (s : State) : Res :=
  let off := s.getObj Obj.moduleState == 0
  onlyIf s (off || !s.boot.ran) "management boot to come" <|
    let s := { (s.putObj Obj.moduleState 1) with boot := { s.boot with ran := true, m3 := false, mayStart := s.boot.mayStart || off },
                                                        elec := { s.elec with inputOn := if off then b.inputOk else s.elec.inputOn } }
    .next (if !b.otpOk then startFails s 5 0
      else match copyOf s 2 b.stage2 0 with
      | none => startFails s 1 2
      | some c =>
        let s := noteCopy s 2 (some c)
        match copyOf s 3 b.stage3 c with
        | none => startFails s 2 3
        | some c =>
          let s := noteCopy s 3 (some c)
          newEpoch { s with boot := { s.boot with m3 := true, epoch := true } })

/-! ### BOOT (Table 17.3) -/

/-- Volatile objects that outlive a start-up with domain 87 up: what it measures and what the management boot and the last failure left. -/
def keptAtBoot (k : Nat) : Bool :=
  [Obj.uptime, Obj.moduleState, Obj.startFail, Obj.bootCopies, Obj.inputVoltage, Obj.inputCurrent, Obj.senseOpen, Obj.enableIn, Obj.aux12Current,
   Obj.mgmtLink, Obj.coolTachHz, Obj.plateTemp, Obj.spreaderTemp].contains k

/-- Step B1: the stored configuration is read, and everything volatile starts from its reset value (R462, R464, R468, R493); conditions that
hold set their bits of ALERT_CAUSE again (R444). -/
def beginBoot (s : State) : State :=
  let s := loseState keptAtBoot s
  let s := setHeld (if s.boot.epoch then s else newEpoch s)
  { (s.putObj Obj.moduleState 2) with
    inForce := s.od.filter fun p => isStored p.1,
    power := { classInForce := some (s.getObj Obj.coolingClass) },
    bank := { reserve := s.getObj Obj.bankReserve * 2 ^ 30 },
    boot := { s.boot with epoch := true } }

/-- Good sites of a row. -/
def goodSites (s : State) (row : Nat) : Nat := 14 - popN 14 (s.getObj (deadKey row))

/-- A site of a row that fails its self-test (R465). -/
def siteFails (s : State) (x : Nat × Nat × Nat) : State :=
  let row := 12 * x.1 + x.2.1
  let d := s.getObj (deadKey row)
  if bitN d x.2.2 then s
  else (((s.putObj (deadKey row) (d + 2 ^ x.2.2)).putObj (spareKey row) 0xFF).addObj (Obj.selftestFails x.1) 1)

/-- Step B6 for the core sites: tests are counted, failing sites are dead, and a spare takes the column of a dead site (R28, R465; a site
that died before and was not replaced likewise, log 66). -/
def testSites (s : State) (bad : List (Nat × Nat × Nat)) : State :=
  let s := (List.range 48).foldl (fun s r => s.addObj (Obj.selftestRuns (r / 12)) (goodSites s r)) s
  let s := bad.foldl siteFails s
  (List.range 48).foldl (fun s r => if goodSites s r < 14 ∧ s.getObj (spareKey r) ≠ 0xFF then s.putObj (spareKey r) 0xFF else s) s

/-- Step B7 and entry to TRAIN: ports and enabled chiplet ports train (R446, R467). -/
def enterTrain (s : State) : State :=
  let s := (s.putObj Obj.moduleState 3).putObj Obj.discState 1
  (List.range 2).foldl (fun s p => if s.getObj (Obj.cpEnable p) = 1 then s.putObj (Obj.cpState p) 1 else s) s

/-- Steps B2 to B7. -/
def runBoot (b : BootIn) (s : State) : State :=
  if !b.railsOk then startFails s 4 0
  else
    let c4 := copyOf s 4 b.stage4 (letter s)
    let c5 := copyOf s 5 b.stage5 (letter s)
    let s := noteCopy (noteCopy (noteVersion (noteVersion s 2) 3) 4 c4) 5 c5
    if c4.isNone then startFails s 3 4
    else if c5.isNone then startFails s 3 5
    else if !b.otpOk then startFails s 5 0
    else
      let s := (s.putObj Obj.pointHeld 3).putObj Obj.coreClock (pointClock (classNow s) 3)
      let s := s.putObj Obj.linksDead b.deadLinks.toNat
      let s := testSites s b.badSites
      if !b.llmOk then startFails s 6 0
      else if 2 ≤ popN 8 b.deadLinks.toNat then goCold s 0x05
      else if (List.range 48).any fun r => decide (goodSites s r < 13) then goCold s 0x01
      else enterTrain s

/-- BOOT (R245, R318, R423, R464 to R469, R472). -/
def execBoot (b : BootIn) (s : State) : Res :=
  if b.badSites.any fun x => decide (4 ≤ x.1 ∨ 12 ≤ x.2.1 ∨ 14 ≤ x.2.2) then .refused .illFormed
  else onlyIf s (s.getObj Obj.moduleState == 1 && s.boot.powerGood && s.boot.m3 && s.boot.mayStart) "power-good with stage 3 running" <|
    .next (runBoot b (beginBoot s))

/-! ### TRAIN and READY_LOCAL (Table 17.4) -/

/-- A stack channel that fails training is mapped out with nothing copied; a fifth of its die makes the module cold (R239, R240, R241). -/
def trainFails (s : State) (c : Nat × Nat) : State :=
  let d := c.1 / 3
  if s.getObj (Obj.chState c.1 c.2) = 2 then s
  else if 4 ≤ s.getObj (Obj.mapouts d) then goCold s 0x02
  else
    let s := ((s.addObj (Obj.mapouts d) 1).subObj (Obj.stackTop d) (2 ^ 31)).putObj (Obj.chState c.1 c.2) 2
    s.putObj (Obj.liveChannels c.1) (s.getObj (Obj.liveChannels c.1) - 2 ^ c.2)

/-- Mapped-out channels keep their freeze bit set, and the lookups hold their placements (R242, R243, R245). -/
def freezeOut (s : State) : State :=
  (List.range 4).foldl writeLookup <|
  ((List.range 12).flatMap fun st => (List.range 32).map fun c => (st, c)).foldl (fun s c =>
    if s.getObj (Obj.chState c.1 c.2) = 2 then s.putObj (Obj.chFreeze c.1 c.2) 1 else s) s

/-- Capacity that enumeration found on a CXL port that is up. -/
def cxlCap (ps : List CxlPort) (x : Nat) : Nat := ((ps.find? fun p => p.port == x).map (·.capacity)).getD 0

/-- The ports of an interleave set as in force. -/
def setMembers (s : State) (i : Nat) : List Nat := (List.range 8).filter fun x => bitN (s.forced (Obj.setPorts i)) x

/-- Regions in the order in which they are placed: number of the set (8 where a port stands alone), bytes, ports (R257). The region of a
set of other than 2, 4 or 8 ports is unpredictable: it is formed or not. -/
def cxlWanted (s : State) (ps : List CxlPort) : List (Nat × Nat × List Nat) :=
  let sets := ((List.range 8).map fun i => (i, setMembers s i)).filter fun p => !p.2.isEmpty
  let formed := sets.filterMap fun p =>
    let w := p.2.length
    let least := p.2.foldl (fun m x => min m (cxlCap ps x)) (cxlCap ps (p.2.headD 0))
    if w = 2 ∨ w = 4 ∨ w = 8 ∨ Config.freeNat (s.free + p.1) % 2 = 1 then some (p.1, w * (least / 2 ^ 28 * 2 ^ 28), p.2) else none
  let alone := (List.range 8).filter fun x => sets.all fun p => !(p.2.contains x)
  formed ++ alone.map fun x => (8, cxlCap ps x, [x])

/-- A region is placed at the next multiple of 256 GiB; what lies above the range is not mapped. -/
def placeRegion (s : State) (r : Nat × Nat × List Nat) : State :=
  let used := s.mem.cxlRegions.foldl (fun m x => max m (x.1 + x.2.1)) cxlBase
  let base := padUp (2 ^ 38) used
  let size := min r.2.1 (0x500000000000 - base)
  let s := s.addObj Obj.cxlUnmapped (r.2.1 - size)
  if size = 0 then s
  else
    let s := { s with mem := { s.mem with cxlRegions := s.mem.cxlRegions ++ [(base, size, r.2.2)] } }
    if r.1 < 8 then (s.putObj (Obj.setBase r.1) base).putObj (Obj.setSize r.1) size else s

/-- What a CXL port supports (R256, Table 8.6): x8 or x4, 64, 32, 16 or 8 GT/s, up to 16 devices. -/
def cxlOk (p : CxlPort) : Bool := [4, 8].contains p.width && [8, 16, 32, 64].contains p.rate && decide (p.devices ≤ 16)

/-- A CXL port that is up (R256, R257). -/
def cxlUp (s : State) (p : CxlPort) : State :=
  ((((s.putObj (Obj.cxlLinkUp p.port) 1).putObj (Obj.cxlRate p.port) p.rate).putObj (Obj.cxlWidth p.port) p.width).putObj (Obj.cxlDevices p.port) p.devices).putObj (Obj.cxlCapacity p.port) p.capacity

/-- The CXL tier comes up with the ports that a supported link trained on; others stay down. -/
def bringCxl (s : State) (all : List CxlPort) : State :=
  let ps := all.filter cxlOk
  ((cxlWanted s ps).foldl placeRegion (ps.foldl cxlUp s)).useFree 8

/-- A logical port that a port's mode uses has trained (R318). -/
def portTrained (s : State) (q : Nat) : State :=
  if q % 4 < modePorts (s.forced (Obj.portMode (q / 4))) then putLinkUp (s.setPort { (s.port q) with up := true }) q true else s

/-- Step 2 of Table 11.10 on every port that has trained; HELLO frames that were held are answered (R470, R474). -/
def beginDiscovery (s : State) : State :=
  let ups := (s.net.ports.filter (·.up)).map (·.q)
  if !(takesPart s) then s.putObj Obj.discState 0
  else if ups.isEmpty then s
  else
    let s := ups.foldl sendHello (beginHello s)
    let held := s.boot.heldHello
    held.foldl (fun s x => actHello s x.1 x.2) { s with boot := { s.boot with heldHello := [] } }

/-- READY_LOCAL is entered: no cold cause remains, and no start failure. -/
def enterReady (s : State) : State :=
  let s := ((s.putObj Obj.startFail 0).putObj Obj.coldCause 0).putObj Obj.moduleState 4
  let s := if (failingChannels s).isEmpty then s else needPoint s
  beginDiscovery s

/-- READY_LOCAL (R239, R255, R257, R467, R470 to R472). -/
def execReadyLocal (t : TrainIn) (s : State) : Res :=
  if (t.badChannels.any fun c => decide (12 ≤ c.1 ∨ 32 ≤ c.2)) || !([0, 6400, 8800].contains t.ddrRate) ||
      (t.cxl.any fun p => decide (8 ≤ p.port)) || (t.ports.any fun q => decide (64 ≤ q)) then .refused .illFormed
  else onlyIf s (s.getObj Obj.moduleState == 3) "TRAIN" <|
    let s := freezeOut (t.badChannels.foldl trainFails s)
    let s := (s.putObj Obj.ddrPresent (if t.ddrRate = 0 then 0 else 1)).putObj Obj.ddrRate t.ddrRate
    let s := t.ports.foldl portTrained (bringCxl s t.cxl)
    .next (if s.getObj Obj.moduleState = 6 then s else enterReady s)

/-- TIER_ZEROING_COMPLETE (R212, R468): the capacity joins its pool; the bank reserve comes before the tier that holds it. The context map
takes its area of the stacked tier. -/
def execTierZeroingComplete (tier : ZeroTarget) (s : State) : Res :=
  let ready : Bool := match tier with
    | .stacked => true
    | .reserve => s.getObj Obj.ddrPresent == 1
    | .ddr => s.getObj Obj.ddrPresent == 1 && (s.mem.zeroed.contains .reserve || s.bank.reserve == 0)
    | .cxl => !s.mem.cxlRegions.isEmpty
  onlyIf s (decide (4 ≤ s.getObj Obj.moduleState) && ready && !(s.mem.zeroed.contains tier)) "tier to be zeroed" <|
    let s := { s with mem := { s.mem with zeroed := s.mem.zeroed ++ [tier] } }
    let s := if tier = .stacked then
        match pickStacked s contextMapBytes none with
        | some a => grant s 64 .table a contextMapBytes
        | none => s
      else s
    .next (noteReserve s)

/-! ### Retry and recovery (R460, R469, R473) -/

/-- RESTART written with 1: STANDBY, and a start-up may follow; a management boot that has not reached stage 3 is run again. -/
def restart (s : State) : State :=
  let s := toStandby s
  { s with boot := { s.boot with mayStart := true, ran := s.boot.ran && s.boot.m3 } }

/-- FW_RECOVERY: while an image is refused in both copies, one of it that verifies is written to copy A, and the boot starts at M1. -/
def recoverImage (img : FwImage) (s : State) : Option State :=
  if 2 ≤ img.stage ∧ img.stage = s.boot.refusedStage ∧ 1 ≤ s.getObj Obj.startFail ∧ s.getObj Obj.startFail ≤ 3 ∧ img.sigOk ∧
      s.getObj (Obj.arbCounter (img.stage - 2)) ≤ img.secVersion then
    some { s with boot := { s.boot with ran := false, m3 := false, mayStart := true, refusedStage := 0,
                                        images := (img.stage, img.secVersion) :: s.boot.images.filter (fun p => p.1 != img.stage) } }
  else none

end Sys2Proof.Machine
end

