-- ==== Sys2Proof/Machine/Chiplet.lean ====
section
/-! DEFINITION. Chiplet.lean: the chiplet ports and the spark screen. Negotiation (R446 to R448), windows, screen and tokens (R453, R454),
requests and held lines (R450, R451), snoops (R449, R452), violations and the fence (R455, R456). -/

namespace Sys2Proof.Machine

/-! ### Negotiation (R446 to R448) -/

/-- Whether a die's capability word has version 1 and no reserved code or bit. A SNOOP_NS above 100 counts as reserved (log 67). -/
def dieWordOk (w : Nat) : Bool :=
  bits w 7 0 == 1 && bits w 9 8 != 2 && bits w 11 10 != 3 && bits w 15 14 == 0 && decide (bits w 23 16 ≤ 100) && bits w 31 24 == 0

/-- Modules that a code of MODULES offers. -/
def dieModules (w : Nat) : Nat := 2 ^ (if bits w 9 8 = 3 then 2 else bits w 9 8)

/-- The largest count of 1, 2 or 4 modules that trained and that the die offers; the device offers four. -/
def modulesOf (trained w : Nat) : Nat :=
  let m := min trained (dieModules w)
  if 4 ≤ m then 4 else if 2 ≤ m then 2 else m

/-- GT/s of a code of RATE; the device offers 32. -/
def gigaTransfers (w : Nat) : Nat := 16 + 8 * bits w 11 10

/-- CP_STATE becomes NEGOTIATING: on CP_ENABLE = 1 while it is DOWN, FENCED or REFUSED, with the dies powered (R446). -/
def startNegotiation (s : State) (p : Nat) : State :=
  let st := s.getObj (Obj.cpState p)
  if 3 ≤ s.getObj Obj.moduleState ∧ st ≠ 1 ∧ st ≠ 2 then s.putObj (Obj.cpState p) 1 else s

/-- What a write of CP_ENABLE does beside the object's value. -/
def cpEnableWrite (p v : Nat) (s : State) : State :=
  let s := s.putObj (Obj.cpEnable p) v
  if v = 1 then startNegotiation s p else s

/-- CP_ENABLE (R446, R458). -/
def execCpEnable (cr : Cred) (p v : Nat) (s : State) : Res :=
  if 2 ≤ p then .refused .illFormed else settleWrite s cr (Obj.cpEnable p) 1 (toLe 1 v) (cpEnableWrite p v)

/-- CP_NEGOTIATION_COMPLETE (R446, R448). -/
def execCpNegotiationComplete (p : Nat) (n : CpNegotiation) (s : State) : Res :=
  if 2 ≤ p then .refused .illFormed
  else onlyIf s (s.getObj (Obj.cpState p) == 1) "negotiation" <|
    let w := n.dieWord.toNat
    let m := modulesOf n.trained w
    if n.failed then .next (s.putObj (Obj.cpState p) 4)
    else
      let s := s.putObj (Obj.cpCapsDie p) w
      if !(dieWordOk w) ∨ m = 0 then .next (s.putObj (Obj.cpState p) 4)
      else
        let s := (s.putObj (Obj.cpState p) 2).putObj (Obj.cpRate p) (m * 64 * gigaTransfers w / 8)
        .next (s.setChip { no := p, coherent := bitN w 12 && bits w 23 16 != 0, atomics := bitN w 13 })

/-! ### Held lines -/

/-- The held lines of a port, with CP_HELD_LINES. -/
def putHeld (s : State) (p : Nat) (hs : List HeldLine) : State :=
  (s.setChip { (s.chip p) with held := hs }).putObj (Obj.cpHeldLines p) hs.length

/-! ### Violations and the fence (R455 to R457) -/

/-- An owned line whose data is gone: poisoned; for a lock set that banks it, event class 0x01 (R457, Table 12.1). -/
def poisonOwned (s : State) (h : HeldLine) : State :=
  let s := { s with mem := { s.mem with poison := (List.range 8).foldl (fun ps i => addNew (sectNum ⟨h.line, i⟩) ps) s.mem.poison } }
  match h.line with
  | .dev l =>
    let sets := bankedSets s (l * 512)
    if sets.isEmpty then s else sets.foldl (originate · 0x01 ·) (s.addObj Obj.uncorrectedEvents 1)
  | .shr _ _ => s

/-- The port is fenced: its traffic stops, held lines return, owned ones poisoned, and a home that waited goes on with what lies beneath. -/
def fencePort (s : State) (p : Nat) : State :=
  let c := s.chip p
  let s := (s.putObj (Obj.cpState p) 3).addObj (Obj.cpFences p) 1
  let s := (putHeld s p []).setChip { no := p, coherent := c.coherent, atomics := c.atomics }
  let s := (c.held.filter (·.owned)).foldl poisonOwned s
  c.held.foldl (fun s h => dirForget (snoopDone s p h.line) (4 + p) h.line false) s

/-- CP_LAST_VIOLATION (R456) as a little-endian number. -/
def violationRecord (kind : Nat) (addr : BitVec 48) : Nat := kind + 2 ^ 8 * (addr.toNat / 2 ^ 43) + 2 ^ 64 * addr.toNat

/-- CP_LAST_VIOLATION after a violation. Of two in one cycle the lower kind stands (R457): whether two at one time fall into one cycle is open
(log 122). -/
def recordViolation (s : State) (p kind : Nat) (addr : BitVec 48) : State :=
  if (s.chip p).violMs.contains (upNow s) ∧ s.getObj (Obj.cpLastViolation p) % 256 < kind ∧ s.freeVal % 2 = 1 then s.useFree 1
  else (s.useFree 1).putObj (Obj.cpLastViolation p) (violationRecord kind addr)

/-- A violation is counted and recorded; enough of them within a millisecond, or one of kinds 5 to 7, fence the port. -/
def violation (s : State) (p kind : Nat) (addr : BitVec 48) : State :=
  let now := upNow s
  let s := recordViolation s p kind addr
  let c := s.chip p
  let recent := c.violMs.filter (fun t => decide (now < t + 1000000)) ++ [now]
  let s := s.setChip { c with violMs := recent }
  let s := s.addObj (Obj.cpViolations p) 1
  if 5 ≤ kind ∨ s.getObj (Obj.cpFenceLimit p) ≤ recent.length then fencePort s p else s

/-! ### Windows and the screen (R453, R454) -/

/-- The window that a chiplet address names, among the 64 of both ports, and the offset in it. -/
def windowOf (p : Nat) (addr : BitVec 48) : Nat := 32 * p + addr.toNat / 2 ^ 43

def offsetOf (addr : BitVec 48) : Nat := addr.toNat % 2 ^ 43

/-- A request that is not performed. -/
def refuseReq (s : State) (p : Nat) (addr : BitVec 48) : State :=
  (s.addObj (Obj.ssRefused (windowOf p addr)) 1).send (.chip p 5 addr [])

def violateReq (s : State) (p kind : Nat) (addr : BitVec 48) : State := violation (refuseReq s p addr) p kind addr

/-- What a request asks for: its kinds of access (bits of SS_RIGHTS), its bytes from its offset on, whether it writes, whether it needs
COHERENT or ATOMICS or a line that the die holds, the bytes that the tokens meter, whether a slice that is not ACTIVE serves it (a line
given back, R457). -/
structure Ask where
  rights : List Nat
  len : Nat
  write : Bool
  coherent : Bool := false
  atomics : Bool := false
  holds : Bool := false
  metered : Nat
  gives : Bool := false

/-- Tokens of a window at this time, in 1/1000 byte. -/
def tokensNow (s : State) (p w : Nat) : Nat :=
  let top := s.getObj (Obj.ssBurst w) * 1000
  match (s.chip p).tokens.find? fun t => t.1 == w with
  | none => top
  | some t => min top (t.2.1 + s.getObj (Obj.ssRate w) * (upNow s - t.2.2))

/-- Tokens taken; none where they do not suffice. -/
def takeTokens (s : State) (p w n : Nat) : Option State :=
  if s.getObj (Obj.ssRate w) = 0 then some s
  else
    let have_ := tokensNow s p w
    if have_ < n * 1000 then none
    else
      let c := s.chip p
      some (s.setChip { c with tokens := (w, have_ - n * 1000, upNow s) :: c.tokens.filter fun t => t.1 != w })

/-- Where a request that passes the screen lands: slice, space, address, and the line of its first byte. -/
structure Target where
  slice : Nat
  space : Nat
  addr : Nat
  key : SectKey

/-- Why a request does not go on: it waits, an access of it meets a fault of Table 3.8, R216 leaves it open, or a byte of it does not exist. -/
inductive Halt where
  | wait (s : State)
  | refused
  | open_
  | absent

/-- The first violation that a request makes, or where it lands; none where a byte of it does not exist (R453, Table 16.5). A port belongs to the
non-secure world, so that no data of a secure slice crosses it (R445). -/
def screen (s : State) (p : Nat) (m : CpMsg) (a : Ask) : Except (Option Nat) Target :=
  let w := windowOf p m.addr
  let off := offsetOf m.addr
  let r := s.getObj (Obj.ssRights w)
  let n := s.getObj (Obj.ssSlice w)
  let space := if bitN r 4 then 1 else 2
  let at_ := s.getObj (Obj.ssBase w) + off
  let c := s.chip p
  let owns := c.held.any fun h => h.addr == m.addr && h.owned
  if s.getObj (Obj.ssEnable w) ≠ 1 ∨ s.getObj (Obj.ssSize w) < off + a.len then .error (some 1)
  else if a.rights.any fun b => !(bitN r b) then .error (some 2)
  else if sliceWorld s n ≠ 0 then .error (some 3)
  else match locate s n space at_ (if a.write then 1 else 0) with
    | .error .absent => .error none
    | .error _ => .error (some 3)
    | .ok k =>
      if (a.coherent && !c.coherent) || (a.atomics && !c.atomics) || (a.holds && !owns) then .error (some 4)
      else .ok { slice := n, space := space, addr := at_, key := k }

/-- Bytes performed, and the response. -/
def answerReq (s : State) (p : Nat) (addr : BitVec 48) (bytes code : Nat) (data : List Byte) : State :=
  (s.addObj (Obj.ssBytes (windowOf p addr)) bytes).send (.chip p code addr data)

/-- A request that R216 leaves open is refused or answered, by a free choice. -/
def openReq (s : State) (p : Nat) (addr : BitVec 48) : State :=
  if s.freeVal % 2 = 0 then refuseReq (s.useFree 1) p addr else answerReq (s.useFree 1) p addr 0 4 []

/-- A request of a port that is admitted: screened, metered and performed; it waits while tokens or a line are awaited. -/
def request (p : Nat) (m : CpMsg) (wellFormed : Bool) (a : Ask) (s : State) (f : Target → State → Except Halt State) : Res :=
  if 2 ≤ p then .refused .illFormed
  else onlyIf s (s.getObj (Obj.cpState p) == 2) "admitted chiplet port" <|
    if m.malformed || !wellFormed then .next (violateReq s p 5 m.addr)
    else match screen s p m a with
      | .error none => .fault .absentAddress
      | .error (some k) => .next (violateReq s p k m.addr)
      | .ok t =>
        if s.getObj (Obj.sState t.slice) ≠ 1 ∧ !a.gives then .next (refuseReq s p m.addr)
        else match takeTokens s p (windowOf p m.addr) a.metered with
          | none => .next s
          | some _ => match f t s with
            | .error .absent => .fault .absentAddress
            | .error .refused => .next (violateReq s p 3 m.addr)
            | .error .open_ => .next (openReq (unpredictable s t.slice) p m.addr)
            | .error (.wait s) => .next s
            | .ok s => .next ((takeTokens s p (windowOf p m.addr) a.metered).getD s)

/-- What an access that does not go through comes to: one that fails translation is a violation of kind 3 (Table 16.5), and one of a donated
page leaves the slice with any values it may write (R216). -/
def stopped (e : Stop) : Except Halt State := match e with
  | .wait s => .error (.wait s)
  | .cause _ _ => .error .refused
  | .any => .error .open_
  | .absent => .error .absent

/-! ### Reads and grants (R450, R451) -/

/-- Whether a line may be granted to a die under this address. -/
def mayHold (s : State) (p : Nat) (addr : BitVec 48) (t : Target) : Bool :=
  let c := s.chip p
  let under := c.held.filter fun h => h.line == t.key.line
  bitN (s.getObj (Obj.ssRights (windowOf p addr))) 3 && decide (0 < dirWays s t.slice (lineDie s t.key.line)) &&
    (if under.isEmpty then decide (c.held.length < 65536) else under.all fun h => h.addr == addr)

/-- Whether a line can be granted now: its home directory has an entry for it, or room for one; it waits where the slice's entries are all in
use (R189, R450). -/
def roomToHold (s : State) (p : Nat) (addr : BitVec 48) (t : Target) : Except State Unit :=
  if !(s.chip p).coherent || !(mayHold s p addr t) || (findDir s t.key.line).isSome then .ok ()
  else match dirRoom s t.slice t.key.line with
    | .ok _ => .ok ()
    | .error s => .error s

/-- The line granted, shared or owned, and its home directory with it (Table 6.3); a coherent die that is not granted it is counted
(CP_UNCACHED). -/
def grantLine (s : State) (p : Nat) (addr : BitVec 48) (t : Target) (own : Bool) : State :=
  let c := s.chip p
  if !c.coherent then s
  else if mayHold s p addr t then
    let was := c.held.any fun h => h.addr == addr && h.owned
    let s := if own then dirWrite s none t.slice (4 + p) t.key.line true else dirRead s t.slice (4 + p) t.key.line
    putHeld s p ({ addr := addr, line := t.key.line, slice := t.slice, window := windowOf p addr, at_ := t.addr, owned := own || was } ::
      c.held.filter fun h => h.addr != addr)
  else s.addObj (Obj.cpUncached p) 1

/-- A sector as the agent of a port reads it shared: from the nearest holder (R192), which is the home's LLM or memory, or a die. -/
def agentRead (s : State) (p n : Nat) (k : SectKey) : State × Sector :=
  let s := match k.line with
    | .dev x => if homeServes s k.line (4 + p) [k.i] then llmTouch s n (homeDie (x * 512)) x [k.i] false .sectors else s
    | .shr _ _ => s
  readSect s k

/-- The other chiplet port where it is the nearest holder of a shared line: it is asked for its data (R192), and the request waits. -/
def chipSupplies (s : State) (p : Nat) (l : LineKey) (sectors : List Nat) : Option State := match findDir s l with
  | none => none
  | some e =>
    if e.state != .shared || (agentsOf e).contains (4 + p) then none
    else (nearest s l (4 + p) sectors).bind fun a => (chipLine s a l).map fun h =>
      snoopChip (putDir s { e with req := some { agent := 4 + p, kind := 0 }, fwd := some a }) (a - 4) h false

/-- Sectors of the target's line read in ascending order, at the home or, where the line is granted, from the nearest holder; it waits where
one must. -/
def readSectors (p : Nat) (granted : Bool) (t : Target) : List Nat → State → Except Stop (State × List Byte)
  | [], s => .ok (s, [])
  | i :: is, s => match reach s ⟨t.key.line, i⟩ false (.port p) with
    | .error e => .error e
    | .ok () =>
      let (s, v) := if granted then agentRead s p t.slice ⟨t.key.line, i⟩ else homeSect s t.slice ⟨t.key.line, i⟩
      match readSectors p granted t is s with
      | .error e => .error e
      | .ok (s, bs) => .ok (s, sectGet v 0 64 ++ bs)

/-- Bytes of a line up to the last sector of a mask. -/
def maskLen (m : BitVec 8) : Nat := ((sectorsOf m).map fun i => 64 * (i + 1)).foldl max 0

def aligned (addr : BitVec 48) (n : Nat) : Bool := addr.toNat % n == 0

/-- CP_RD: where the line is granted, a read of agent 4 or 5 by Table 6.3; else performed at the home. -/
def execCpRd (p : Nat) (m : CpMsg) (s : State) : Res :=
  let n := 64 * (sectorsOf m.sectors).length
  request p m (aligned m.addr 512 && m.sectors != 0) { rights := [0], len := maskLen m.sectors, write := false, metered := n } s fun t s =>
    let granted := (s.chip p).coherent && mayHold s p m.addr t
    match roomToHold s p m.addr t, (if granted then chipSupplies s p t.key.line (sectorsOf m.sectors) else none),
      readSectors p granted t (sectorsOf m.sectors) s with
    | .error s, _, _ => .error (.wait s)
    | .ok (), some s, _ => .error (.wait s)
    | .ok (), none, .error e => stopped e
    | .ok (), none, .ok (s, bs) => .ok (answerReq (grantLine (served s (.port p)) p m.addr t false) p m.addr n 3 bs)

/-- CP_RDO: for ownership every other copy goes, and the line's page counts as written (R361, R362); without a grant the data alone is given. It needs read and write rights (log 68). -/
def execCpRdo (p : Nat) (m : CpMsg) (s : State) : Res :=
  request p m (aligned m.addr 512) { rights := [0, 1], len := 512, write := true, coherent := true, metered := 512 } s fun t s =>
    let owns := mayHold s p m.addr t
    match roomToHold s p m.addr t, (if owns then writeOk s t.slice t.space t.addr (.port p) else .ok t.key) with
    | .error s, _ => .error (.wait s)
    | .ok (), .error e => stopped e
    | .ok (), .ok _ => match readSectors p false t (List.range 8) (if owns && t.space != 1 then logWrite s t.slice t.addr else s) with
      | .error e => stopped e
      | .ok (s, bs) => .ok (answerReq (grantLine (served s (.port p)) p m.addr t true) p m.addr 512 3 bs)

/-! ### Writes -/

/-- Runs of consecutive bytes that a mask lets through: offset and bytes. -/
def maskRuns : Nat → List Bool → List Byte → List (Nat × List Byte)
  | o, k :: ks, b :: bs =>
    let rest := maskRuns (o + 1) ks bs
    if !k then rest
    else match rest with
      | (o', r) :: l => if o' = o + 1 then (o, b :: r) :: l else (o, [b]) :: (o', r) :: l
      | [] => [(o, [b])]
  | _, _, _ => []

/-- Runs written by a die; a write into a banked region comes from outside every lock set (Table 12.4). -/
def writeRuns (s : State) (p : Nat) (t : Target) (runs : List (Nat × List Byte)) : State :=
  let s := runs.foldl (fun s r => (writeRunAs .sectors none (.port p) s t.slice t.space (t.addr + r.1) r.2).1) s
  noteExternal (served s (.port p)) .host t.slice t.space t.addr

/-- CP_WR: its bytes are within one line, so they go through together (R172, R450). Every access of the port before it is performed, so
REL holds. -/
def execCpWr (p : Nat) (m : CpMsg) (s : State) : Res :=
  let n := (m.byteMask.filter id).length
  let formed := decide (1 ≤ m.len ∧ m.addr.toNat % 512 + m.len ≤ 512) && m.byteMask.length == m.len && m.data.length == m.len
  request p m formed { rights := [1], len := m.len, write := true, metered := m.len } s fun t s =>
    match writeOk s t.slice t.space t.addr (.port p) with
    | .error e => stopped e
    | .ok _ => .ok (answerReq (writeRuns s p t (maskRuns 0 m.byteMask m.data)) p m.addr n 4 [])

/-- The new value of an atomic of Table 4.15, in the order of its rows (1, the floating-point add, is not offered). -/
def chipAtom (op k o b c : Nat) : Nat :=
  match op with
  | 0 => (o + b) % 2 ^ k
  | 2 => if signedN k b < signedN k o then b else o
  | 3 => if signedN k o < signedN k b then b else o
  | 4 => min o b
  | 5 => max o b
  | 6 => o &&& b
  | 7 => o ||| b
  | 8 => o ^^^ b
  | 9 => b
  | _ => if o = b then c else o

/-- CP_ATOM: the old value is the response. -/
def execCpAtom (p : Nat) (m : CpMsg) (s : State) : Res :=
  let n := if m.size8 then 8 else 4
  request p m (aligned m.addr n && decide (m.op ≤ 10 ∧ m.op ≠ 1)) { rights := [2], len := n, write := true, atomics := true, metered := n } s fun t s =>
    match writeOk s t.slice t.space t.addr (.port p), reach s t.key false (.port p) with
    | .error e, _ => stopped e
    | .ok _, .error e => stopped e
    | .ok k, .ok () =>
      let (s, v) := homeSect s t.slice k
      let old := leNat (sectGet v (t.addr % 64) n)
      let new := chipAtom m.op (8 * n) old (m.b.toNat % 2 ^ (8 * n)) (m.c.toNat % 2 ^ (8 * n))
      let s := if m.op = 10 ∧ old ≠ m.b.toNat % 2 ^ (8 * n) then served s (.port p) else writeRuns s p t [(0, toLe n new)]
      .ok (answerReq s p m.addr n 3 (toLe n old))

/-- Whole sectors of a line, one after another in a message, written at their places. -/
def sectorRuns (m : BitVec 8) (data : List Byte) : List (Nat × List Byte) :=
  (sectorsOf m).zipIdx.map fun x => (64 * x.1, (data.drop (64 * x.2)).take 64)

/-- CP_WBK: the owner's dirty sectors return, and the line with them. -/
def execCpWbk (p : Nat) (m : CpMsg) (s : State) : Res :=
  let n := 64 * (sectorsOf m.sectors).length
  request p m (aligned m.addr 512 && m.sectors != 0 && m.data.length == n)
      { rights := [1], len := 512, write := true, coherent := true, holds := true, metered := n, gives := true } s fun t s =>
    match writeOk s t.slice t.space t.addr (.port p) with
    | .error e => stopped e
    | .ok _ =>
      let s := dirForget (writeRuns s p t (sectorRuns m.sectors m.data)) (4 + p) t.key.line false
      .ok (answerReq (putHeld s p ((s.chip p).held.filter fun h => h.addr != m.addr)) p m.addr n 4 [])

/-- CP_DROP: an owned line is given up without data. -/
def execCpDrop (p : Nat) (m : CpMsg) (s : State) : Res :=
  request p m (aligned m.addr 512) { rights := [], len := 512, write := false, coherent := true, holds := true, metered := 0, gives := true } s fun t s =>
    let s := match findDir s t.key.line with
      | some e => if e.state = .owned (4 + p) then dropOwned s (4 + p) t.key.line e else s
      | none => s
    .ok (answerReq (putHeld s p ((s.chip p).held.filter fun h => h.addr != m.addr)) p m.addr 0 4 [])

/-! ### Snoop answers (R449, R452) -/

/-- Whether a line lies in a page that a rollback under way restores: what its owner holds is discarded (R457). -/
def restoring (s : State) (h : HeldLine) : Option Nat :=
  (List.range 8).find? fun k => (match (s.lockSet k).rb with
    | some r => !r.restored
    | none => false) && (s.lockSet k).images.any fun i => i.slice == h.slice && i.page == h.at_ / 65536

/-- The data of an answer, written at the home; it waits for a before-image. -/
def answerData (s : State) (h : HeldLine) (runs : List (Nat × List Byte)) : Except State State :=
  match h.line, restoring s h with
  | .dev _, some k => .ok (s.addObj (Obj.extWritesRolled k) 1)
  | .dev l, none => match imageGate s h.slice h.at_ with
    | .error (.wait s) => .error s
    | .error _ => .ok s
    | .ok () =>
      let s := runs.foldl (fun s r => noteCode (writeSect s none h.slice ⟨.dev l, r.1 / 64⟩ 0 r.2) h.slice (h.at_ + r.1) r.2.length)
        (logWrite s h.slice h.at_)
      .ok (noteExternal s .host h.slice 2 h.at_)
  | l, _ => .ok (runs.foldl (fun s r => writeSect s none h.slice ⟨l, r.1 / 64⟩ 0 r.2) s)

/-- The line that a chiplet address names. -/
def lineAt (s : State) (p : Nat) (addr : BitVec 48) : Option LineKey :=
  let w := windowOf p addr
  match locate s (s.getObj (Obj.ssSlice w)) (if bitN (s.getObj (Obj.ssRights w)) 4 then 1 else 2) (s.getObj (Obj.ssBase w) + offsetOf addr) 0 with
  | .ok k => some k.line
  | .error _ => none

/-- An answer to a snoop: data first, then the line is given up or, after FWD_S, kept shared. -/
def snoopAnswer (p : Nat) (m : CpMsg) (runs : List (Nat × List Byte)) (s : State) : Res :=
  if 2 ≤ p then .refused .illFormed
  else onlyIf s (s.getObj (Obj.cpState p) == 2) "admitted chiplet port" <|
    if m.malformed then .next (violation s p 5 m.addr)
    else match (s.chip p).snoops.find? fun q => q.1 == m.addr, (s.chip p).held.find? fun h => h.addr == m.addr with
      | none, _ => .next (violation s p 6 m.addr)
      | some q, h? =>
        match (match h? with
          | some h => if h.owned then answerData s h runs else .ok s
          | none => .ok s) with
        | .error s => .next s
        | .ok s =>
          let c := s.chip p
          let s := s.setChip { c with snoops := c.snoops.erase q }
          let s := if m.late then s.addObj (Obj.cpSnoopLate p) 1 else s
          let s := putHeld s p (if q.2 then c.held.filter fun h => h.addr != m.addr
            else c.held.map fun (h : HeldLine) => if h.addr = m.addr then { h with owned := false } else h)
          .next (match h?, lineAt s p m.addr with
            | some h, _ => snoopDone (dirForget s (4 + p) h.line (!q.2)) p h.line
            | none, some l => snoopDone s p l
            | none, none => s)

/-- CP_ACK. -/
def execCpAck (p : Nat) (m : CpMsg) (s : State) : Res := snoopAnswer p m [] s

/-- CP_ACK_DATA. -/
def execCpAckData (p : Nat) (m : CpMsg) (s : State) : Res :=
  let formed := m.data.length == 64 * (sectorsOf m.sectors).length
  snoopAnswer p { m with malformed := m.malformed || !formed } (sectorRuns m.sectors m.data) s

/-- SNOOP_TIMEOUT (R452, R455, R457): kind 0x07, the port is fenced. -/
def execSnoopTimeout (p : Nat) (addr : BitVec 48) (s : State) : Res :=
  onlyIf s (decide (p < 2) && (s.chip p).snoops.any fun q => q.1 == addr) "snoop" <| .next (violation s p 7 addr)

/-! ### SS_ENABLE (R453, R457) -/

/-- Whether a window may be enabled: it names a non-secure slice. -/
def ssEnableOk (s : State) (w : Nat) : Bool :=
  let n := s.getObj (Obj.ssSlice w)
  decide (n < 64) && sliceWorld s n == 0

/-- Disabling recalls what is held through the window. -/
def ssEnableWrite (w v : Nat) (s : State) : State :=
  let s := s.putObj (Obj.ssEnable w) v
  if v = 0 then recallLines s fun h => h.window == w else s

/-- SS_ENABLE. -/
def execSsEnable (cr : Cred) (p win v : Nat) (s : State) : Res :=
  if 2 ≤ p ∨ 32 ≤ win then .refused .illFormed
  else if v = 1 ∧ !(ssEnableOk s (32 * p + win)) ∧ cr = .manager then .next (refuseAccess s)
  else settleWrite s cr (Obj.ssEnable (32 * p + win)) 1 (toLe 1 v) (ssEnableWrite (32 * p + win) v)

end Sys2Proof.Machine
end

