-- ==== Sys2Proof/Machine/Control.lean ====
section
/-! DEFINITION. Control.lean: control flow (Table 4.18, R86 to R88, R138 to R140). -/

namespace Sys2Proof.Machine

/-- An address `k` words from the instruction's own (R119). -/
def wordOff (pc : Word64) (k : Int) : Word64 := pc + BitVec.ofInt 64 (8 * k)

/-- NOP (R138). -/
def execNop (g : GroupRef) (w : Word64) (s : State) : Res := runInstr [0x90] s g w fun s h => .step s h.t

/-- BR (R138). -/
def execBr (g : GroupRef) (w : Word64) (s : State) : Res :=
  runInstr [0x91] s g w fun s h => .jump s h.t (wordOff h.p.pc (fTarget w))

/-- A split by R86: the not-taken lanes go on as the current path under a new join, the taken lanes queue at the target. -/
def splitPath (t : Group) (p : Path) (taken : LaneMask) (target rpc : Word64) : Group :=
  let id := t.nextJoin
  settled { t with
    cur := some { pc := p.pc + 8, mask := p.mask &&& ~~~taken, join := some id },
    queue := t.queue ++ [{ pc := target, mask := taken, join := some id }],
    joins := t.joins ++ [{ id := id, rpc := rpc, expected := p.mask, parent := p.join }],
    nextJoin := id + 1 }

/-- BR_P (R86): splits unless every active lane takes the branch, or none; a backward one that does not split yields when other paths
are queued, whether it is taken or not (R87, R88). -/
def execBrP (g : GroupRef) (w : Word64) (s : State) : Res :=
  runInstr [0x92] s g w fun s h =>
    let c := h.t.preg (fTop3 w)
    let taken := h.p.mask &&& (if fCneg w then ~~~c else c)
    let target := wordOff h.p.pc (fTarget w)
    if taken = h.p.mask then .jump s h.t target
    else if taken = 0 then
      if target ≤ h.p.pc ∧ !h.t.queue.isEmpty then .paths s (yieldPath h.t { h.p with pc := h.p.pc + 8 }) else .step s h.t
    else .paths s (splitPath h.t h.p taken target (wordOff h.p.pc (fRpc w)))

/-- CALL (R138): the return address goes to vLINK, vLINK+1 of every active lane. -/
def execCall (g : GroupRef) (w : Word64) (s : State) : Res :=
  runInstr [0x93] s g w fun s h =>
    .jump s ((lanesOf h.p.mask).foldl (fun t i => t.setVs (fLink w) i 2 (h.p.pc + 8).toNat) h.t) (wordOff h.p.pc (fTarget w))

/-- Bits [2:0] of a target ignored. -/
def alignPc (v : Nat) : Word64 := BitVec.ofNat 64 (v / 8 * 8)

/-- RET (R139): active lanes that hold different addresses have unpredictable results. -/
def execRet (g : GroupRef) (w : Word64) (s : State) : Res :=
  runInstr [0x94] s g w fun s h =>
    match (lanesOf h.p.mask).map fun i => h.t.vregs' (fLink w) i 2 with
    | [] => .step s h.t
    | a :: as => if as.all (· == a) then .jump s h.t (alignPc a) else .any s

/-- JMP_S (R138). -/
def execJmpS (g : GroupRef) (w : Word64) (s : State) : Res :=
  runInstr [0x95] s g w fun s h => .jump s h.t (alignPc (h.t.sreg (fJmpSA w)).toNat)

/-- EXIT (R87): the lanes of the path leave; a barrier or the gang's end may follow (R100, R140). -/
def execExitLanes (g : GroupRef) (w : Word64) (s : State) : Res := runInstr [0x96] s g w fun s h => .paths s (exitPath h.t)

/-- PAUSE (R88): the path yields and is not runnable for 32 cycles; with no other runnable path it stays current. -/
def execPause (g : GroupRef) (w : Word64) (s : State) : Res :=
  runInstr [0x97] s g w fun s h =>
    let p := { h.p with pc := h.p.pc + 8, paused := true }
    if (takeRunnable h.t.queue).isSome then .paths s (yieldPath h.t p)
    else .paths s { h.t with cur := some p }

/-- The first paused path of the queue runs again. -/
def unpauseFirst : List Path → Option (List Path)
  | [] => none
  | p :: l => if p.paused then some ({ p with paused := false } :: l) else (unpauseFirst l).map (p :: ·)

/-- PAUSE_EXPIRY (R88): the path that paused first is runnable again. -/
def execPauseExpiry (g : GroupRef) (s : State) : Res :=
  match s.launch? g.ctx with
  | none => .next s
  | some l => match (findGang l g.gang).bind fun x => findGroup x g.group with
    | none => .next s
    | some t => match unpauseFirst t.queue with
      | some q => .next (setGroup s g (wakeGroup { t with queue := q }))
      | none => match t.cur with
        | some p =>
          if p.paused then .next (setGroup s g (settled { t with cur := some { p with paused := false } }))
          else .next s
        | none => .next s

/-- BAR_GANG (R140): the path parks. Its release waits for the group's work in the matrix queue (R148, R170); the groups of the gang see
each other's stores as they issue, since they share the core. -/
def execBarGang (g : GroupRef) (w : Word64) (s : State) : Res :=
  runInstr [0x98] s g w fun s h =>
    if engineOwes s g h.g.core then .wait s
    else .paths s (yieldPath h.t { h.p with pc := h.p.pc + 8, parked := true })

end Sys2Proof.Machine
end

