-- ==== Sys2Proof/Machine/Ecdsa.lean ====
section
/-! DEFINITION. Ecdsa.lean: verification of an ECDSA signature on the curve P-384 over SHA-384 (FIPS 186-5, SEC 1), as R479 uses it for
the manager's frames. Log 12: the standard is named by the manual and read from its own text. -/

namespace Sys2Proof.Machine

/-- The field's prime. -/
def ecP : Nat := 2 ^ 384 - 2 ^ 128 - 2 ^ 96 + 2 ^ 32 - 1

/-- The curve's constant b; a is −3. -/
def ecB : Nat := 0xB3312FA7E23EE7E4988E056BE3F82D19181D9C6EFE8141120314088F5013875AC656398D8A2ED19D2A85C8EDD3EC2AEF

/-- Order of the base point. -/
def ecN : Nat := 0xFFFFFFFFFFFFFFFFFFFFFFFFFFFFFFFFFFFFFFFFFFFFFFFFC7634D81F4372DDF581A0DB248B0A77AECEC196ACCC52973

/-- A point in Jacobian coordinates: x / z², y / z³; z = 0 is the point at infinity. -/
structure EcPoint where
  x : Nat
  y : Nat
  z : Nat
  deriving DecidableEq, Repr

/-- The base point. -/
def ecG : EcPoint :=
  { x := 0xAA87CA22BE8B05378EB1C71EF320AD746E1D3B628BA79B9859F741E082542A385502F25DBF55296C3A545E3872760AB7,
    y := 0x3617DE4A96262C6F5D9E98BF9292DC29F8F41DBD289A147CE9DA3113B5F0B8C00A60B1CE1D7E819D7A431D7C90EA0E5F, z := 1 }

def ecInfinity : EcPoint := { x := 1, y := 1, z := 0 }

/-- a − b modulo the prime, of reduced operands. -/
def ecSub (a b : Nat) : Nat := (a + ecP - b) % ecP

/-- Twice a point, with a = −3. -/
def ecDouble (p : EcPoint) : EcPoint :=
  let d := p.z * p.z % ecP
  let g := p.y * p.y % ecP
  let b := p.x * g % ecP
  let a := 3 * (ecSub p.x d * ((p.x + d) % ecP) % ecP) % ecP
  let x := ecSub (a * a % ecP) (8 * b % ecP)
  { x := x, y := ecSub (a * ecSub (4 * b % ecP) x % ecP) (8 * (g * g % ecP) % ecP), z := 2 * (p.y * p.z % ecP) % ecP }

/-- The sum of two points. -/
def ecAdd (p q : EcPoint) : EcPoint :=
  if p.z = 0 then q
  else if q.z = 0 then p
  else
    let pz := p.z * p.z % ecP
    let qz := q.z * q.z % ecP
    let u := p.x * qz % ecP
    let h := ecSub (q.x * pz % ecP) u
    let v := p.y * (qz * q.z % ecP) % ecP
    let r := ecSub (q.y * (pz * p.z % ecP) % ecP) v
    if h = 0 then (if r = 0 then ecDouble p else ecInfinity)
    else
      let hh := h * h % ecP
      let hhh := h * hh % ecP
      let w := u * hh % ecP
      let x := ecSub (ecSub (r * r % ecP) hhh) (2 * w % ecP)
      { x := x, y := ecSub (r * ecSub w x % ecP) (v * hhh % ecP), z := h * (p.z * q.z % ecP) % ecP }

/-- The low `n` bits of `k` times a point, added behind what the higher bits gave. -/
def ecMulGo (k : Nat) (p : EcPoint) : Nat → EcPoint → EcPoint
  | 0, acc => acc
  | n + 1, acc =>
    let acc := ecDouble acc
    ecMulGo k p n (if k.testBit n then ecAdd acc p else acc)

/-- `k` times a point, `k` below 2^384. -/
def ecMul (k : Nat) (p : EcPoint) : EcPoint := ecMulGo k p 384 ecInfinity

/-- `b` to the low `n` bits of `e` modulo `m`, behind what the higher bits gave. -/
def powModGo (b e m : Nat) : Nat → Nat → Nat
  | 0, acc => acc
  | n + 1, acc =>
    let acc := acc * acc % m
    powModGo b e m n (if e.testBit n then acc * b % m else acc)

/-- The inverse modulo a prime below 2^384. -/
def invMod (a m : Nat) : Nat := powModGo a (m - 2) m 384 1

/-- The affine x coordinate. -/
def ecAffineX (p : EcPoint) : Nat := p.x * invMod (p.z * p.z % ecP) ecP % ecP

/-- An uncompressed public key: 0x04, X, Y, each 48 bytes and big-endian, a point of the curve. -/
def ecKey (key : List Byte) : Option EcPoint :=
  let x := beNat ((key.drop 1).take 48)
  let y := beNat ((key.drop 49).take 48)
  if key.length = 97 ∧ key.head? = some 4 ∧ x < ecP ∧ y < ecP ∧ y * y % ecP = (x * x * x + (ecP - 3) * x + ecB) % ecP then
    some { x := x, y := y, z := 1 }
  else none

/-- Whether a signature, r and s of 48 big-endian bytes each, of a message verifies with a public key. -/
def ecdsaOk (key msg sig : List Byte) : Bool :=
  let r := beNat (sig.take 48)
  let s := beNat (sig.drop 48)
  match ecKey key with
  | none => false
  | some q =>
    if sig.length ≠ 96 ∨ r = 0 ∨ ecN ≤ r ∨ s = 0 ∨ ecN ≤ s then false
    else
      let w := invMod s ecN
      let e := beNat (sha384 msg)
      let p := ecAdd (ecMul (e * w % ecN) ecG) (ecMul (r * w % ecN) q)
      p.z != 0 && ecAffineX p % ecN == r

end Sys2Proof.Machine
end

