-- ==== Sys2Proof/Machine/ObjWrite.lean ====
section
/-! DEFINITION. ObjWrite.lean: writes of objects. State rules beyond those of Access.lean (R265, R285, R396, R453, R483), what a write
does (one function for every object), values that are computed when read, and the rows that write one object each. -/

namespace Sys2Proof.Machine

/-! ### Values as bytes -/

/-- Bytes of a number without leading zero bytes (a STRING). -/
def strBytes (v : Nat) : List Byte := toLe (((List.range 64).filter fun i => v / 256 ^ i != 0).length) v

/-- An entry of a result ring (Table 13.5). -/
def resultBytes (r : SopRes) : List Byte := toLe 2 r.seq ++ toLe 1 r.op ++ toLe 1 r.status ++ toLe 4 r.done ++ toLe 8 (r.tick % 2 ^ 48)

/-- A journal entry (Table 12.5). -/
def journalBytes (e : JEnt) : List Byte :=
  toLe 4 e.seq ++ toLe 1 e.ch ++ toLe 1 e.status ++ toLe 1 e.op ++ toLe 1 ((if e.rolledBack then 1 else 0) + (if e.rerun then 2 else 0)) ++
    toLe 8 e.bytes ++ toLe 8 (e.tick % 2 ^ 48) ++ toLe 4 e.tag ++ toLe 4 0

/-- The value of an object as it reads; volatile objects of units without power read their reset values (R462). -/
def objNat (s : State) (k : Nat) : Nat :=
  let st := s.getObj Obj.moduleState
  if k = Obj.powerLimit then powerLimit s
  else if keyIx k = 0x2020 then domainState s (keySub k - 1)
  else if k = Obj.coolDutyOut then coolDuty s
  else match nth? (keyIx k) 0x8040 64 with
    | some n =>
      if keySub k = 0x21 then 65536 * (bankedPages s n).length else if keySub k = 0x22 then (s.slice n).dirty.length
      else if st ≤ 1 then objReset k else s.getObj k
    | none => if st ≤ 1 ∧ !(isStored k) ∧ !(inDomain87 k) then objReset k else s.getObj k

/-- The bytes of an object's value (R489). MIG_LOG reads by harvest only. -/
def objBytes (s : State) (k : Nat) (r : ObjRow) : List Byte :=
  if k = Obj.sopResult then padTo 128 (s.sopResults.flatMap resultBytes)
  else if k = Obj.bootDigests then (List.range 5).flatMap fun i => toBe 48 (stageDigest s (i + 1))
  else if k = Obj.deviceCerts then Config.deviceCerts
  else if k = Obj.routeTable then (List.range (2 ^ 18)).flatMap fun m => toLe 8 (sget (fun _ => 0) s.net.routes m)
  else match nth? (keyIx k) 0x5040 64, nth? (keyIx k) 0x8100 8 with
    | some n, _ => if keySub k = 0x1A then padTo 128 ((s.slice n).results.flatMap resultBytes) else toLe ((typeLen r.ty).getD r.blobLen) (objNat s k)
    | _, some j => if keySub k = 0x0C then (s.lockSet j).journal.flatMap journalBytes else toLe ((typeLen r.ty).getD r.blobLen) (objNat s k)
    | _, _ => if r.ty = 11 then strBytes (objNat s k) else if r.ty = 12 ∧ r.blobLen = 0 then s.getBlob k else toLe ((typeLen r.ty).getD r.blobLen) (objNat s k)

/-! ### The migration log (R391) -/

/-- A record of a harvest (Table 13.6): of the GiB `g` of virtual space. -/
def migRecord (pages : List Nat) (hseq g : Nat) : List Byte :=
  let mine := pages.filter fun p => p / 16384 == g
  toLe 8 (g * 2 ^ 30) ++ toLe 4 hseq ++ toLe 2 mine.length ++ toLe 2 0 ++ toLe 2048 (mine.foldl (fun m p => m ||| 2 ^ (p % 16384)) 0)

/-- A harvest: a record for every GiB with a set bit, in ascending address, and the bits cleared. -/
def harvest (s : State) (n : Nat) : State × List Byte :=
  let x := s.slice n
  let gs := sortBy (fun a b => decide (a < b)) (x.migDirty.foldl (fun l p => addNew (p / 16384) l) [])
  (s.setSlice { x with migDirty := [], hseq := x.hseq + 1 }, gs.flatMap (migRecord x.migDirty (x.hseq + 1)))

/-! ### Banked regions and page entries (R360) -/

/-- Indexes of a table's entries that are not zero. -/
def usedEntries (s : State) (base size : Nat) : List Nat :=
  (s.mem.bytes.filter fun (c : Host.Cell) => decide (base ≤ c.1 ∧ c.1 < base + size)).foldl (fun l c => addNew ((c.1 - base) / 8) l) []

/-- BANKED of every page of a slice follows its declared regions; `va`: the first address that the table covers. -/
def rebankGo (n : Nat) : Nat → Nat → Nat → State → State
  | 0, base, va, s => (usedEntries s base (tableBytes 0)).foldl (rebankLeaf n 0 base va) s
  | l + 1, base, va, s => (usedEntries s base (tableBytes (l + 1))).foldl (fun s i =>
      let p := pteAt s base i
      if p.valid && !p.leaf then rebankGo n l p.addr (va + i * 2 ^ levelShift (l + 1)) s else rebankLeaf n (l + 1) base va s i) s
where
  /-- One leaf entry. -/
  rebankLeaf (n l base va : Nat) (s : State) (i : Nat) : State :=
    let p := pteAt s base i
    let b := bankedPart s n (va + i * 2 ^ levelShift l) (2 ^ levelShift l)
    if p.valid && p.leaf && p.banked != b then putPte s (base + 8 * i) (encodePte { p with banked := b }) else s

def rebank (s : State) (n : Nat) : State := noteReserve (rebankGo n 3 (s.slice n).transBase 0 s)

/-! ### What a write does -/

/-- Whether the module is the root of the system tree that it has joined. -/
def joinedRoot (s : State) : Bool := s.getObj Obj.moduleState == 5 && s.getObj Obj.rootId == s.ownId

/-- Whether the root may schedule a period change (R265); whether a lock set elsewhere is enabled, the root's state does not show: a
free choice (log 70). -/
def periodOk (s : State) (v : Nat) : Bool :=
  let p := s.getObj Obj.periodNext
  let flood := (s.getObj Obj.treeDepth * 600 + periodNs s - 1) / periodNs s
  joinedRoot s && decide (50 ≤ p ∧ p ≤ 1000000 ∧ s.tick + 2 + flood ≤ v) && (enabledSets s).isEmpty &&
    (decide (s.getObj Obj.systemSize ≤ 1) || s.freeVal % 2 == 0)

/-- State and value rules that are not in Access.lean: the reason for which a write is refused. -/
def refusedFor (s : State) (k v : Nat) : Option Nat :=
  let ix := keyIx k
  if k = Obj.periodAt then (if periodOk s v then none else some 0x03)
  else if k = Obj.periodNext then (if joinedRoot s then none else some 0x03)
  else match nth? ix 0x7010 8, nth? ix 0xB100 64, nth? ix 0x9003 1 with
    | some j, _, _ => if keySub k = 4 ∧ v = 1 ∧ s.getObj (Obj.lsEnable j) = 0 ∧ !(mayEnable s j) then some 0x03 else none
    | _, some w, _ => if keySub k = 1 ∧ v = 1 ∧ !(ssEnableOk s w) then some 0x03 else none
    | _, _, some _ => if 5 ≤ keySub k ∧ !(arbOk s (keySub k - 5) v) then some 0x04 else none
    | _, _, _ => none

/-- LS_ENABLE: a set that is enabled starts with shift 0, no seal, and BANK_INTERVAL as it stands (R266, R285); one that is disabled keeps
its journal, and no bank point holds back what its slices released any more (R224). -/
def lsEnableWrite (k v : Nat) (s : State) : State :=
  if s.getObj (Obj.lsEnable k) = v ∧ (s.getObj (Obj.lsFailed k) ≠ 1 ∨ v = 0) then s
  else if v = 1 then
    let s := s.setLockSet { k := k, interval := s.getObj (Obj.bankInterval k) }
    let s := ((s.putObj (Obj.lsShift k) 0).putObj (Obj.lsFailed k) 0).putObj (Obj.unprotected k) 0
    noteReserve ((((s.putObj (Obj.lastBanked k) 0).putObj (Obj.lsLastRelease k) 0).putObj (Obj.journalCount k) 0).putObj (Obj.lsEnable k) 1)
  else
    let x := s.lockSet k
    let ns := memberSlices s k
    let keep := s.getObj (Obj.lsFailed k) ≠ 1
    let s := (s.setLockSet { k := k, journal := if keep then x.journal else [] }).putObj (Obj.lsEnable k) 0
    let s := if keep then s else s.putObj (Obj.journalCount k) 0
    noteReserve (ns.foldl freeQuarantine s)

/-- LINK_FREEZE (R203): the link drains, and traffic takes other ways; with the bit clear the link is in use again. -/
def linkFreezeWrite (l v : Nat) (s : State) : State :=
  if s.getObj (Obj.linkFreeze l) = v then s
  else
    let s' := s.putObj (Obj.linkFreeze l) v
    countOut s (if v = 1 then startDrain s' (Obj.linkDrained l) else endDrain s' (Obj.linkDrained l))

/-- CH_FREEZE (R243, R249): ignored at a channel that is mapped out; at one that is being so it counts where the map-out is deferred; a channel
that is released serves what waited. -/
def chFreezeWrite (st ch v : Nat) (s : State) : State :=
  if s.getObj (Obj.chState st ch) = 2 then s
  else if s.mem.mapping.contains (st, ch) then
    { s with mem := { s.mem with heldFreeze := if v = 1 then addNew (st, ch) s.mem.heldFreeze else s.mem.heldFreeze.filter (· != (st, ch)) } }
  else if s.getObj (Obj.chFreeze st ch) = v then s
  else
    let s := s.putObj (Obj.chFreeze st ch) v
    settleFrozen (if v = 1 then startDrain s (Obj.chDrained st ch) else endDrain s (Obj.chDrained st ch))

/-- MIG_ENABLE (R391): setting it clears the log. -/
def migEnableWrite (n v : Nat) (s : State) : State :=
  let s := s.putObj (Obj.migEnable n) v
  if v = 1 then s.setSlice { (s.slice n) with migDirty := [] } else s

/-- DOORBELL (R293, R294). -/
def doorbellWrite (ch v : Nat) (s : State) : State := s.setChan { (s.chan ch) with tail := v }

/-- CH_ENABLE (R297). -/
def chEnableWrite (ch v : Nat) (s : State) : State :=
  let s := s.putObj (Obj.chEnable ch) v
  if v = 0 then quiesceChannel s ch else s

/-- PERIOD_AT (R265): pending with the period as it stands now, and flooded over the draft. -/
def periodAtWrite (v : Nat) (s : State) : State :=
  let s := (s.putObj Obj.periodAt v).useFree 1
  let f : DraftFrame := { seq := 0, origin := s.ownId, arg0 := s.getObj Obj.periodNext, arg1 := v }
  floodDraft (pendPeriod s (s.getObj Obj.periodNext) v) 0x09 f none

/-- QP_ENABLE (Table 11.13): ready, or reset with its counts (log 71). -/
def qpEnableWrite (q v : Nat) (s : State) : State :=
  if s.getObj (Obj.qpEnable q) = v then s
  else
    let s := ((s.setQp { no := q }).putObj (Obj.qpEnable q) v).putObj (Obj.qpState q) v
    ((s.putObj (Obj.qpSqDone q) 0).putObj (Obj.qpRqTail q) 0).putObj (Obj.qpRqHead q) 0

/-- ALERT_CAUSE (R444): bits written 1 are cleared, but those whose condition still holds. -/
def alertCauseWrite (v : Nat) (s : State) : State :=
  let old := s.getObj Obj.alertCause
  s.putObj Obj.alertCause (old &&& ((0xFFFF ^^^ (v &&& 0xFFFF)) ||| alertsHeld s))

/-- An operation request of 64 bytes (Table 13.3); with a reserved bit set its results are unpredictable (R8). -/
def parseSop (bs : List Byte) : SopReq :=
  let f (o n : Nat) : Nat := fieldLe bs o n
  { slice := f 1 1 % 64, seq := f 2 2, psize := f 4 1 % 4, tier := bits (f 4 1) 3 2, write := bitN (f 4 1) 4, exec := bitN (f 4 1) 5, die := f 5 1 % 8,
    anyDie := bitN (f 5 1) 3, va := BitVec.ofNat 64 (f 8 8), count := f 16 4, limitUs := f 20 4 }

def sopReserved (bs : List Byte) : Bool :=
  fieldLe bs 4 1 / 64 != 0 || fieldLe bs 5 1 / 16 != 0 || fieldLe bs 6 2 != 0 || (bs.drop 24).any (· != 0)

def sopWrite (byManager : Bool) (n : Nat) (bs : List Byte) (s : State) : State :=
  let w : SopWait := { byManager := byManager, op := fieldLe bs 0 1, req := parseSop bs }
  if sopReserved bs ∨ (byManager ∧ fieldLe bs 1 1 / 64 ≠ 0) then
    let s := unpredictable s n
    sopResult (s.useFree 2) n w (anyStatus s.free) (Config.freeNat (s.free + 1))
  else submitOp s n w

/-- The route table written whole (R333): the module's own entry stays zero; one with a reserved bit set comes out as any entry (R8). -/
def routeWrite (bs : List Byte) (s : State) : State :=
  (List.range (2 ^ 18)).foldl (fun s m =>
    let e := if m = s.ownId then 0 else fieldLe bs (8 * m) 8
    if e = sget (fun _ => 0) s.net.routes m then s
    else if 2 ^ 50 ≤ e then putRoute (s.useFree 1) m (s.freeVal % 2 ^ 50) else putRoute s m e) s

/-- What the write of a value does to the state: for every object (R491). -/
def applyWrite (k v : Nat) (bs : List Byte) (s : State) : State :=
  let ix := keyIx k
  let sub := keySub k
  if k = Obj.periodAt then periodAtWrite v s
  else if k = Obj.alertCause then alertCauseWrite v s
  else if k = Obj.restart then (if v = 1 then restart s else s)
  else if k = Obj.sopRequest then sopWrite true (fieldLe bs 1 1 % 64) bs s
  else if k = Obj.sopResult ∨ k = Obj.devAttestToken then s
  else if k = Obj.devAttestNonce then devAttestWrite bs s
  else if k = Obj.spdmRequest then spdmWrite bs s
  else if k = Obj.routeTable then routeWrite bs s
  else match nth? ix 0x6000 256, nth? ix 0x3300 1024, nth? ix 0x7010 8 with
    | some c, _, _ => if sub = 9 then doorbellWrite c v s else if sub = 2 then chEnableWrite c v s else s.putObj k v
    | _, some q, _ => if sub = 0x0A then postSends s q v else if sub = 5 then qpEnableWrite q v s else s.putObj k v
    | _, _, some j => if sub = 4 then lsEnableWrite j v s else s.putObj k v
    | none, none, none => match nth? ix 0x4002 1, nth? ix 0x4110 12, nth? ix 0x5040 64, nth? ix 0x8040 64 with
      | some _, _, _, _ => linkFreezeWrite (sub - 1) v s
      | _, some st, _, _ => if sub ≤ 0x20 then chFreezeWrite st (sub - 1) v s else s.putObj k v
      | _, _, some n, _ => if sub = 0x19 then sopWrite false n bs s else if sub = 0x1B then migEnableWrite n v s else s.putObj k v
      | _, _, _, some n => rebank (s.putObj k v) n
      | none, none, none, none => match nth? ix 0x9003 1, nth? ix 0x9080 64, nth? ix 0xB000 2, nth? ix 0xB100 64 with
        | some _, _, _, _ => s.putObj (Obj.arbCounter (sub - 5)) v
        | _, some n, _, _ => attestWrite n bs s
        | _, _, some p, _ => if sub = 1 then cpEnableWrite p v s else s.putObj k v
        | _, _, _, some w => if sub = 1 then ssEnableWrite w v s else s.putObj k v
        | none, none, none, none => s.putObj k v

/-- A write of an object under a credential: the state and, where it is refused, the reason (R491). `alone`: it is the only entry of an
unsigned frame on the management port (R483). -/
def writeEntry (s : State) (cr : Cred) (alone : Bool) (k ty : Nat) (bs : List Byte) (bulk : Bool) : State × Option Nat :=
  if k = Obj.mgrKey ∧ cr = .none ∧ alone ∧ s.getObj Obj.mgrKey = 0 then
    if ty ≠ 12 ∨ bs.length ≠ 97 then (s, some 0x05) else if leNat bs % 256 ≠ 4 then (s, some 0x04) else (s.putObj k (leNat bs), none)
  else match checkWrite s cr k ty bs bulk with
    | .error r => (s, some r)
    | .ok v => match refusedFor s k v with
      | some r => (if k = Obj.periodAt then s.useFree 1 else s, some r)
      | none => (applyWrite k v bs s, none)

/-! ### Rows that write one object -/

/-- The write of an object by a row of its own. -/
def writeRow (cr : Cred) (k ty : Nat) (bs : List Byte) (s : State) : Res :=
  if !(credOk s cr) then .next (s.addObj Obj.odAuthFails 1)
  else match writeEntry s cr false k ty bs false with
    | (s, none) => .next s
    | (s, some _) => .next (refuseAccess s)

/-- LINK_FREEZE (R25, R26, R203). -/
def execLinkFreeze (cr : Cred) (l v : Nat) (s : State) : Res := if 8 ≤ l then .refused .illFormed else writeRow cr (Obj.linkFreeze l) 1 (toLe 1 v) s

/-- CH_FREEZE (R243, R249). -/
def execChFreeze (cr : Cred) (st ch v : Nat) (s : State) : Res :=
  if 12 ≤ st ∨ 32 ≤ ch then .refused .illFormed else writeRow cr (Obj.chFreeze st ch) 1 (toLe 1 v) s

/-- MIG_LOG_HARVEST (R391, R486): the records are what the reader is sent. -/
def execMigLogHarvest (cr : Cred) (n : Nat) (s : State) : Res :=
  if 64 ≤ n then .refused .illFormed
  else if !(credOk s cr) then .next (s.addObj Obj.odAuthFails 1)
  else match objRow? (Obj.migLog n) with
    | none => .refused .illFormed
    | some r =>
      if !(mayRead s cr (Obj.migLog n) r) then .next (refuseAccess s)
      else
        let x := harvest s n
        .next (x.1.send (.od { op := 0x83, reqId := 0, epoch := 0, counter := 0, status := stOk, reason := 0, count := 1, body := x.2, inBand := false, dst := 0 }))

/-- MIG_ENABLE (R391). -/
def execMigEnable (cr : Cred) (n v : Nat) (s : State) : Res := if 64 ≤ n then .refused .illFormed else writeRow cr (Obj.migEnable n) 1 (toLe 1 v) s

/-- DOORBELL (R293, R294, R317, R494). -/
def execDoorbell (cr : Cred) (ch v : Nat) (s : State) : Res := if 256 ≤ ch then .refused .illFormed else writeRow cr (Obj.doorbell ch) 4 (toLe 4 v) s

/-- COMPL_HEAD (R296, R317, R494). -/
def execComplHead (cr : Cred) (ch v : Nat) (s : State) : Res := if 256 ≤ ch then .refused .illFormed else writeRow cr (Obj.complHead ch) 4 (toLe 4 v) s

/-- CH_ENABLE (R297, R317). -/
def execChEnable (cr : Cred) (ch v : Nat) (s : State) : Res := if 256 ≤ ch then .refused .illFormed else writeRow cr (Obj.chEnable ch) 1 (toLe 1 v) s

/-- PERIOD_AT (R265). -/
def execPeriodAt (cr : Cred) (v : Nat) (s : State) : Res := writeRow cr Obj.periodAt 10 (toLe 8 v) s

/-- LS_ENABLE (R285, R364, R394, R468). -/
def execLsEnable (cr : Cred) (k v : Nat) (s : State) : Res := if 8 ≤ k then .refused .illFormed else writeRow cr (Obj.lsEnable k) 1 (toLe 1 v) s

/-- W_ENABLE (R313): accesses are admitted and performed in one step, so none is outstanding. -/
def execWEnable (cr : Cred) (w v : Nat) (s : State) : Res := if 256 ≤ w then .refused .illFormed else writeRow cr (Obj.wEnable w) 1 (toLe 1 v) s

/-- QP_SQ_TAIL (R330, R494). -/
def execQpSqTail (cr : Cred) (q v : Nat) (s : State) : Res := if 1024 ≤ q then .refused .illFormed else writeRow cr (Obj.qpSqTail q) 4 (toLe 4 v) s

/-- QP_RQ_HEAD (R330, R494). -/
def execQpRqHead (cr : Cred) (q v : Nat) (s : State) : Res := if 1024 ≤ q then .refused .illFormed else writeRow cr (Obj.qpRqHead q) 4 (toLe 4 v) s

/-- ALERT_CAUSE (R444): the causes of which the sensors tell (leak, trip temperature, tachometer, plate) may be over by then. -/
def execAlertCause (cr : Cred) (v ended : Nat) (s : State) : Res :=
  settleWrite (noteEnded s ended) cr Obj.alertCause 3 (toLe 2 v) (alertCauseWrite v)

/-- RESTART (R460, R469, R474). -/
def execRestart (cr : Cred) (v : Nat) (s : State) : Res := writeRow cr Obj.restart 1 (toLe 1 v) s

/-- FW_RECOVERY (R473, R487). -/
def execFwRecovery (img : FwImage) (s : State) : Res :=
  match recoverImage img s with
  | some s => .next s
  | none => .next (refuseAccess s)

/-- OBJECT_WRITE (R491): any object, after the checks. -/
def execObjectWrite (cr : Cred) (index sub ty : Nat) (val : List Byte) (s : State) : Res :=
  if 2 ^ 16 ≤ index ∨ 256 ≤ sub then .refused .illFormed else writeRow cr (256 * index + sub) ty val s

end Sys2Proof.Machine
end

