-- ==== Sys2Proof/Machine/ObjDict.lean ====
section
/-! DEFINITION. ObjDict.lean: the object-dictionary protocol. Frames and their authentication (R476 to R483), reads and writes (R484, R485,
R491), bulk transfer (R486, R487), subscriptions (R488), stored counters (R493). -/

namespace Sys2Proof.Machine

/-! ### Frames (R476 to R478) -/

def bodyLimit (f : OdFrame) : Nat := if f.inBand then 8064 else 1312

/-- The credential that a frame names. -/
def credOf (f : OdFrame) : Cred := if f.cred = 1 then .slice f.slice else if f.cred = 2 then .manager else .none

/-- A header that Table 18.2 allows: version, operation, lengths, no reserved code; offset 0 of target class 2 in band (R477). -/
def wellFormed (f : OdFrame) : Bool :=
  f.ver == 1 && decide (1 ≤ f.op ∧ f.op ≤ 6) && f.bodyLen % 8 == 0 && decide (f.bodyLen ≤ bodyLimit f) && f.body.length == f.bodyLen && decide (f.cred < 3) &&
    decide (f.slice < 64) && (f.cred != 0 || (f.epoch == 0 && f.counter == 0)) && (!f.inBand || (gClass f.tr.addr.toNat == 2 && gOffset f.tr.addr.toNat == 0))

/-- Whether a reserved field of a request's header is not zero (R8): the reserved bits of bytes 24 and 25, STATUS, REASON, COUNT, and SLICE
but with CRED 1. -/
def reservedHeader (f : OdFrame) : Bool :=
  f.resBits != 0 || f.status != 0 || f.reason != 0 || f.count != 0 || (f.cred != 1 && f.slice != 0)

/-- A header as bytes; `res`: its reserved bits, five of byte 24, then two of byte 25. -/
def headerBytes (op bodyLen reqId epoch counter cred noResp slice res status reason count : Nat) : List Byte :=
  toLe 1 1 ++ toLe 1 op ++ toLe 2 bodyLen ++ toLe 4 reqId ++ toLe 8 epoch ++ toLe 8 counter ++ toLe 1 (cred + 4 * noResp + 8 * (res % 32)) ++
    toLe 1 (slice + 64 * (res / 32)) ++ toLe 1 status ++ toLe 1 reason ++ toLe 4 count

/-- The bytes that a request's authenticator covers (R479). -/
def signedPart (f : OdFrame) : List Byte :=
  headerBytes f.op f.bodyLen f.reqId f.epoch f.counter f.cred (if f.noResp then 1 else 0) f.slice f.resBits f.status f.reason f.count ++ f.body

def sliceKey (s : State) (n : Nat) : List Byte := toLe 48 (s.getObj (Obj.odSliceKey n))

/-- Whether a frame's authenticator is right (R479, R480). -/
def authOk (s : State) (f : OdFrame) : Bool :=
  match credOf f with
  | .none => f.auth.isEmpty
  | .slice n => s.getObj (Obj.sState n) != 0 && s.getObj (Obj.odSliceKey n) != 0 && f.auth == (hmac384 (sliceKey s n) (signedPart f)).take 32
  | .manager => s.getObj Obj.mgrKey != 0 && f.auth.length == 96 && ecdsaOk (toLe 97 (s.getObj Obj.mgrKey)) (signedPart f) f.auth

/-! ### The counter window (R481) -/

def window (s : State) (cr : Cred) : Window := (s.odp.windows.find? fun w => w.cred == cr).getD { cred := cr }

def setWindow (s : State) (w : Window) : State :=
  let s := { s with odp := { s.odp with windows := w :: s.odp.windows.filter fun x => x.cred != w.cred } }
  if w.cred = .manager then s.putObj Obj.mgrCounter w.high else s

/-- Whether a counter is above the window, or within it and not accepted before. -/
def counterOk (w : Window) (c : Nat) : Bool := decide (w.high < c) || (decide (w.high < c + 64 ∧ c ≤ w.high) && !(w.seen.contains c))

/-- An accepted counter is recorded. -/
def acceptCounter (w : Window) (c : Nat) : Window :=
  let h := max w.high c
  { w with high := h, seen := (c :: w.seen).filter fun x => decide (h < x + 64) }

/-! ### Responses -/

/-- The authenticator of what the module sends under a credential: the tag of a slice, else none (R479). -/
def tagFor (s : State) (cr : Cred) (signed : List Byte) : List Byte :=
  match cr with
  | .slice n => (hmac384 (sliceKey s n) signed).take 32
  | _ => []

/-- Where answers to a frame go (R477, R488): in band the module ID of its source, on the management port its source's IPv6 address and UDP
port as one number. -/
def replyTo (f : OdFrame) : Nat := if f.inBand then f.tr.src else f.peer

/-- A response to a frame (R478, R479). -/
def response (s : State) (f : OdFrame) (status reason count : Nat) (body : List Byte) : OdResp :=
  let signed := headerBytes (f.op + 0x80) body.length f.reqId f.epoch f.counter f.cred 0 (if f.cred = 1 then f.slice else 0) 0 status reason count ++ body
  let auth := tagFor s (credOf f) signed
  { op := f.op + 0x80, reqId := f.reqId, epoch := f.epoch, counter := f.counter, status := status, reason := reason, count := count, body := body,
    inBand := f.inBand, dst := replyTo f, auth := auth, frame := signed ++ auth }

/-- Bytes to a module in band: a TYPE 7 frame on the path to it (R477). -/
def sendBand (s : State) (dst : Nat) (bytes : List Byte) : State :=
  (sendFrame s dst 7 { addr := BitVec.ofNat 64 (gAddr dst 2 0), payload := bytes } .device).getD s

/-- A response leaves on the route of its request: a datagram of the management port, or a frame in band (R476, R477). -/
def sendOd (s : State) (r : OdResp) : State := if r.inBand then sendBand s r.dst r.frame else s.send (.od r)

/-- A frame that fails authentication (R482): counted, answered at most 100 times a second. -/
def authFails (s : State) (f : OdFrame) : State :=
  let now := upNow s
  let s := s.addObj Obj.odAuthFails 1
  let recent := s.odp.failsSent.filter fun t => decide (now < t + 1000000000)
  let s := { s with odp := { s.odp with failsSent := recent } }
  if 100 ≤ recent.length then s
  else sendOd { s with odp := { s.odp with failsSent := recent ++ [now] } } (response s f stRefused 0x06 0 [])

/-- What performing a frame gives: the state, STATUS, REASON, COUNT and the body of the response. -/
structure Performed where
  s : State
  status : Nat
  reason : Nat
  count : Nat
  body : List Byte

/-- A frame is answered, unless NORESP and it was performed whole; the last 8 of a credential are kept (R478, R481). -/
def finishFrame (f : OdFrame) (p : Performed) : State :=
  let r := response p.s f p.status p.reason p.count p.body
  let cr := credOf f
  let s := if cr = .none then p.s
    else
      let w := window p.s cr
      setWindow p.s { w with recent := ((f.counter, f.reqId, r) :: w.recent).take 8 }
  if f.noResp ∧ p.status = stOk then s else sendOd s r

def refuseAll (s : State) (reason : Nat) : Performed := { s := refuseAccess s, status := stRefused, reason := reason, count := 0, body := [] }

/-- Unpredictable results of a frame with a reserved field that is not zero (R8, R15): it is performed or not, with any values where a slice's
credential may write, and answered in any way. -/
def anyPerformed (s : State) (cr : Cred) (p : Performed) : Performed :=
  let k := p.s.free
  let did := Config.freeNat k % 2 = 1
  let s := ({ (if did then p.s else s) with free := k }).useFree 4
  { s := match cr with
      | .slice n => unpredictable s n
      | _ => s,
    status := anyStatus (k + 1), reason := Config.freeNat (k + 2) % 256, count := Config.freeNat (k + 3) % 2 ^ 32, body := if did then p.body else [] }

/-- A malformed frame's refusal (R477, R478). -/
def refuseFrame (s : State) (f : OdFrame) : State := sendOd (refuseAccess s) (response s f stRefused 0x08 0 [])

/-- Whether the dictionary is served on a frame's route (Table 18.1, R471), and whether only area 0x1000 is (Table 17.5): in band, or over the
management port while its link is up, to its UDP port (R436). -/
def odServed (s : State) (f : OdFrame) : Bool :=
  if f.inBand then s.getObj Obj.moduleState == 5
  else decide (1 ≤ s.getObj Obj.moduleState) && s.getObj Obj.mgmtLink == 1 && f.udp == s.forced Obj.mgmtUdpPort && (s.boot.m3 || (decide (f.op = 1 ∨ f.op = 4) && (s.getObj Obj.startFail == 1 || s.getObj Obj.startFail == 2)))

/-- Whether hardware performs a frame: in band, CRED 1, a WRITE of DOORBELL, COMPL_HEAD, QP_SQ_TAIL and QP_RQ_HEAD alone (R494). Each such
value entry takes 16 bytes. -/
def byHardware (f : OdFrame) : Bool :=
  f.inBand && f.cred == 1 && f.op == 2 && (chunks 16 (f.bodyLen / 16) f.body).all fun e =>
    let k := fieldLe e 0 2 * 256 + fieldLe e 2 1
    (List.range 256).any fun c => k == Obj.doorbell c || k == Obj.complHead c || k == Obj.qpSqTail c || k == Obj.qpRqHead c

/-- The longest time that firmware may take over a frame with 255 others before it, in ns: 256 signatures at 4,000 a second, 150 µs for its own,
50 ms and 10 µs (Table 18.8). -/
def firmwareBound : Nat := 114160000

/-- Frames that firmware may still hold. -/
def firmwareHeld (s : State) : List Nat := s.odp.firmware.filter fun t => decide (upNow s < t + firmwareBound)

/-- A frame enters firmware's queue of 256. With as many arrived within the longest time whether the queue is full is free; a frame that
finds it full is dropped and counted (R494, log 85). -/
def firmwareTakes (s : State) (f : OdFrame) : State × Bool :=
  if byHardware f then (s, true)
  else
    let held := firmwareHeld s
    let full := decide (256 ≤ held.length)
    if full && s.freeVal % 2 == 1 then ((s.useFree 1).addObj Obj.odDropped 1, false)
    else ({ (if full then s.useFree 1 else s) with odp := { s.odp with firmware := held ++ [upNow s] } }, true)

/-- A frame comes to the dictionary (R476, R477, R494): whether it is performed, and the state before that. -/
def odArrives (s : State) (f : OdFrame) : State × Bool := if !(odServed s f) then (s, false) else firmwareTakes (s.addObj Obj.odFrames 1) f

/-- A frame that has arrived: refused malformed, refused by authentication, answered again, or performed (R478 to R482). -/
def answerFrame (s : State) (f : OdFrame) (k : State → Performed) : State :=
  let cr := credOf f
  if !(wellFormed f) then refuseFrame s f
  else if !(authOk s f) then authFails s f
  else if cr = .none then finishFrame f (k s)
  else if f.epoch ≠ s.getObj Obj.bootEpoch then authFails s f
  else
    let w := window s cr
    match w.recent.find? fun x => x.1 == f.counter && x.2.1 == f.reqId with
    | some x => sendOd s x.2.2
    | none => if !(counterOk w f.counter) then authFails s f else finishFrame f (k (setWindow s (acceptCounter w f.counter)))

/-- A frame that the dictionary takes. `odd`: its body has a reserved field that is not zero. -/
def takeFrame (f : OdFrame) (odd : Bool) (s : State) (k : State → Performed) : State :=
  match odArrives s f with
  | (s, false) => s
  | (s, true) => answerFrame s f fun s => if odd || reservedHeader f then anyPerformed s (credOf f) (k s) else k s

/-- A malformed frame is taken (R477, R478). -/
def takeMalformed (f : OdFrame) (s : State) : State :=
  match odArrives s f with
  | (s, false) => s
  | (s, true) => refuseFrame s f

/-! ### READ (R484, R485) -/

/-- Key of an entry: INDEX and SUB. -/
def entryKey (bs : List Byte) : Nat := fieldLe bs 0 2 * 256 + fieldLe bs 2 1

/-- Whether an object is read and written in bulk only. -/
def bulkOnly (s : State) (k : Nat) (r : ObjRow) : Bool := r.bulk || (decide (r.ty = 12 ∧ r.blobLen = 0) && decide (1296 < (s.getBlob k).length))

/-- A read of an object: its type and bytes, or the reason of the refusal. Before stage 3 only area 0x1000 is served (Table 17.5). -/
def readEntry (s : State) (cr : Cred) (k : Nat) : Except Nat (Nat × List Byte) :=
  match objRow? k with
  | none => .error 0x01
  | some r =>
    if !(mayRead s cr k r) then .error 0x02
    else if bulkOnly s k r then .error 0x05
    else if !s.boot.m3 && keyIx k / 4096 != 1 then .error 0x03
    else .ok (r.ty, objBytes s k r)

/-- A value entry of a response (Table 18.4). -/
def valueEntry (ref : List Byte) (ty status reason : Nat) (v : List Byte) : List Byte :=
  ref.take 3 ++ toLe 1 ty ++ toLe 1 status ++ toLe 1 reason ++ toLe 2 v.length ++ padTo (padUp 8 v.length) v

/-- Reads of REVOCATIONS count what the model does not follow: how many bursts were revoked since (R202) is a free value (log 111). -/
def noteRevocations (s : State) (ks : List Nat) : State :=
  (ks.filter fun k => (List.range 8).any fun l => k == Obj.revocations l).foldl (fun s k => (s.useFree 1).addObj k s.freeVal) s

/-- One reference entry: its value entry and, where it is refused, the reason. -/
def readOne (s : State) (cr : Cred) (e : List Byte) : List Byte × Option Nat :=
  match readEntry s cr (entryKey e) with
  | .ok v => (valueEntry e v.1 stOk 0 v.2, none)
  | .error r => (valueEntry e 0 stRefused r [], some r)

/-- STATUS of a frame by the entries done (R219, R484). -/
def frameStatus (done total : Nat) : Nat := if done = total then stOk else if done = 0 then stRefused else stPartial

/-- A manager's read of a stored counter writes the counters to flash (R493). -/
def flushOnRead (s : State) (cr : Cred) (ks : List Nat) : State :=
  if cr = .manager ∧ ks.any fun k => State.storedCounters.contains k then s.flushCounters else s

/-- A READ (R402, R484, R490). -/
def odRead (f : OdFrame) (s : State) : State :=
  let es := chunks 8 (f.bodyLen / 8) f.body
  takeFrame f (es.any fun e => (e.drop 3).any (· != 0)) s fun s =>
    let s := noteRevocations s (es.map entryKey)
    let rs := es.map (readOne s (credOf f))
    let bad := rs.filterMap (·.2)
    let s := (flushOnRead s (credOf f) (es.map entryKey)).addObj Obj.odRefused bad.length
    { s := s, status := frameStatus (rs.length - bad.length) rs.length, reason := bad.headD 0, count := rs.length - bad.length, body := rs.flatMap (·.1) }

/-! ### WRITE (R484) -/

/-- The value entries of a body, as far as they are whole: reference and type bytes with the value; `ok`: the body is used up. -/
def parseValues : Nat → List Byte → List (List Byte × List Byte) × Bool
  | 0, bs => ([], bs.isEmpty)
  | k + 1, bs =>
    if bs.isEmpty then ([], true)
    else
      let n := fieldLe bs 6 2
      let size := 8 + padUp 8 n
      if bs.length < size then ([], false)
      else
        let r := parseValues k (bs.drop size)
        ((bs.take 8, (bs.drop 8).take n) :: r.1, r.2)

/-- Entries performed in order up to the first that is refused: the state, response entries, count, reason. -/
def writeAll (cr : Cred) (alone : Bool) : List (List Byte × List Byte) → State → Nat → State × List Byte × Nat × Nat
  | [], s, done => (s, [], done, 0)
  | e :: es, s, done =>
    let ty := fieldLe e.1 3 1
    match writeEntry s cr alone (entryKey e.1) ty e.2 false with
    | (s, some reason) => (refuseAccess s, valueEntry e.1 ty stRefused reason [], done, reason)
    | (s, none) =>
      let x := writeAll cr alone es s (done + 1)
      (x.1, valueEntry e.1 ty stOk 0 [] ++ x.2.1, x.2.2.1, x.2.2.2)

/-- A WRITE (R483, R484, R491, R493 to R495). -/
def odWrite (f : OdFrame) (s : State) : State :=
  let p := parseValues (f.bodyLen / 8) f.body
  takeFrame f (p.1.any fun e => fieldLe e.1 4 2 != 0) s fun s =>
    if !p.2 then refuseAll s 0x08
    else
      let x := writeAll (credOf f) (!f.inBand && p.1.length == 1) p.1 s 0
      { s := x.1, status := frameStatus x.2.2.1 p.1.length, reason := x.2.2.2, count := x.2.2.1, body := x.2.1 }

/-! ### Bulk transfer (R486, R487) -/

/-- A bulk header (Table 18.4). -/
def bulkHeader (ref : List Byte) (final : Bool) (len off : Nat) : List Byte := ref.take 3 ++ toLe 1 (if final then 1 else 0) ++ toLe 4 len ++ toLe 8 off

/-- The bytes of a snapshot and the state after it was taken: MIG_LOG is harvested. -/
def takeSnapshot (s : State) (k : Nat) (r : ObjRow) : State × List Byte :=
  match nth? (keyIx k) 0x5040 64 with
  | some n => if keySub k = 0x1C then harvest s n else (s, objBytes s k r)
  | none => (s, objBytes s k r)

/-- Part of a snapshot is read; with its last byte it is released. -/
def readSnapshot (s : State) (cr : Cred) (k : Nat) (e : List Byte) (data : List Byte) (len off : Nat) : Performed :=
  let part := (data.drop off).take len
  let final := decide (data.length ≤ off + len)
  let others := s.odp.snaps.filter fun x => !(x.cred == cr && x.key == k)
  let snaps := if final then others else { cred := cr, key := k, data := data, read := upNow s } :: others
  { s := { s with odp := { s.odp with snaps := snaps } }, status := stOk, reason := 0, count := 1, body := bulkHeader e final part.length off ++ padTo (padUp 8 part.length) part }

/-- A BULK_READ (R391, R486). -/
def odBulkRead (f : OdFrame) (s : State) : State :=
  takeFrame f (fieldLe f.body 3 1 != 0) s fun s =>
    let cr := credOf f
    let e := f.body.take 3
    let k := entryKey e
    let len := fieldLe f.body 4 4
    let off := fieldLe f.body 8 8
    if f.bodyLen ≠ 16 ∨ bodyLimit f < len + 16 then refuseAll s 0x08
    else match objRow? k with
      | none => refuseAll s 0x01
      | some r =>
        let held := s.odp.snaps.find? fun x => x.cred == cr && x.key == k
        if !(mayRead s cr k r) then refuseAll s 0x02
        else if off ≠ 0 then (match held with
          | some x => readSnapshot s cr k e x.data len off
          | none => refuseAll s 0x03)
        else
          let others := s.odp.snaps.filter fun x => !(x.cred == cr && x.key == k)
          if 8 ≤ others.length then refuseAll s 0x07
          else
            let t := takeSnapshot (flushOnRead s cr [k]) k r
            readSnapshot t.1 cr k e t.2 len 0

/-- The bytes of a staging buffer up to a length; none where one is missing. -/
def assemble (chunks : List (Nat × List Byte)) (n : Nat) : Option (List Byte) :=
  let have_ (i : Nat) : Option Byte := chunks.findSome? fun c => if c.1 ≤ i then c.2[i - c.1]? else none
  (List.range n).mapM have_

/-- The staging buffer of a credential without, or with, a chunk. -/
def putBuffer (s : State) (cr : Cred) (b : Option BulkBuf) : State :=
  { s with odp := { s.odp with bufs := b.toList ++ s.odp.bufs.filter fun x => x.cred != cr } }

/-- The final chunk: the whole value is checked and written. -/
def finishBulk (s : State) (cr : Cred) (k ty : Nat) (data : List Byte) (img : FwImage) : State × Option Nat :=
  if k = Obj.fwRecovery then
    match recoverImage img s with
    | some s => (s, none)
    | none => (s, some 0x03)
  else if k = Obj.routeTable ∧ data.length ≠ 2 ^ 21 then (s, some 0x08)
  else writeEntry s cr false k ty data true

/-- A BULK_WRITE (R487): a chunk joins the credential's buffer; FINAL writes the object, or refuses and empties the buffer. Before stage 3
only FW_RECOVERY is served. -/
def odBulkWrite (f : OdFrame) (img : FwImage) (s : State) : State :=
  takeFrame f (2 ≤ fieldLe f.body 3 1) s fun s =>
    let cr := credOf f
    let e := f.body.take 3
    let k := entryKey e
    let fl := fieldLe f.body 3 1 % 2
    let len := fieldLe f.body 4 4
    let off := fieldLe f.body 8 8
    if f.bodyLen < 16 ∨ f.bodyLen < len + 16 then refuseAll s 0x08
    else match objRow? k with
      | none => refuseAll s 0x01
      | some r =>
        if !(mayWrite s cr k r) then refuseAll s 0x02
        else if !s.boot.m3 ∧ k ≠ Obj.fwRecovery then refuseAll s 0x03
        else if 2 ^ 24 < off + len then refuseAll (putBuffer s cr none) 0x08
        else
          let old : List (Nat × List Byte) := ((s.odp.bufs.find? fun b => b.cred == cr && b.key == k).map (·.chunks)).getD []
          let cs := (off, (f.body.drop 16).take len) :: old
          let head := bulkHeader e (fl == 1) len off
          if fl = 0 then { s := putBuffer s cr (some { cred := cr, key := k, chunks := cs, wrote := upNow s }), status := stOk, reason := 0, count := 1, body := head }
          else
            let s := putBuffer s cr none
            match assemble cs (off + len) with
            | none => refuseAll s 0x08
            | some data => match finishBulk s cr k r.ty data img with
              | (s, none) => { s := s, status := stOk, reason := 0, count := 1, body := head }
              | (s, some reason) => refuseAll s reason

/-- The 10 s, in ns of UPTIME, after which an unread snapshot and an idle staging buffer go (R486, R487). -/
def bulkIdleNs : Nat := 10000000000

/-- SNAPSHOT_EXPIRY (R486): 10 s without a read. -/
def execSnapshotExpiry (cr : Cred) (key : Nat) (s : State) : Res :=
  onlyIf s (s.odp.snaps.any fun x => x.cred == cr && x.key == key && decide (x.read + bulkIdleNs ≤ upNow s)) "expired snapshot" <|
    .next { s with odp := { s.odp with snaps := s.odp.snaps.filter fun x => !(x.cred == cr && x.key == key) } }

/-- BULK_BUFFER_EXPIRY (R487): 10 s without a chunk. -/
def execBulkBufferExpiry (cr : Cred) (s : State) : Res :=
  onlyIf s (s.odp.bufs.any fun x => x.cred == cr && decide (x.wrote + bulkIdleNs ≤ upNow s)) "idle staging buffer" <| .next (putBuffer s cr none)

/-! ### Subscriptions (R488) -/

/-- Subscriptions held, with SUBS_LIVE. -/
def putSubs (s : State) (subs : List Subscription) : State := ({ s with odp := { s.odp with subs := subs } }).putObj Obj.subsLive subs.length

/-- A SUBSCRIBE. -/
def odSubscribe (f : OdFrame) (s : State) : State :=
  let mode := fieldLe f.body 8 4 % 2
  let ms := fieldLe f.body 12 4
  takeFrame f (fieldLe f.body 3 5 != 0 || 2 ≤ fieldLe f.body 8 4 || (mode == 0 && ms != 0)) s fun s =>
    let cr := credOf f
    let k := entryKey f.body
    if f.bodyLen ≠ 16 then refuseAll s 0x08
    else match readEntry s cr k with
      | .error r => refuseAll s r
      | .ok _ =>
        let subs := s.odp.subs
        let mine := subs.filter fun x => x.cred == cr
        if mode = 1 ∧ (ms = 0 ∨ 3600000 < ms) then refuseAll s 0x04
        else if 64 ≤ subs.length ∨ (cr ≠ .none ∧ cr ≠ .manager ∧ 8 ≤ mine.length) then refuseAll s 0x07
        else
          let no := ((List.range 64).find? fun i => !(subs.any fun x => x.no == i)).getD 0
          let x : Subscription := { no := no, cred := cr, key := k, periodic := mode == 1, periodMs := ms, inBand := f.inBand, dst := replyTo f, sentAt := upNow s }
          { s := putSubs s (subs ++ [x]), status := stOk, reason := 0, count := 1, body := toLe 8 no }

/-- An UNSUBSCRIBE: of a subscription of the same credential. -/
def odUnsubscribe (f : OdFrame) (s : State) : State :=
  takeFrame f ((f.body.drop 1).any (· != 0)) s fun s =>
    let no := fieldLe f.body 0 1
    if f.bodyLen ≠ 8 then refuseAll s 0x08
    else match s.odp.subs.find? fun x => x.no == no with
      | none => refuseAll s 0x03
      | some x => if x.cred ≠ credOf f then refuseAll s 0x02
        else { s := putSubs s (s.odp.subs.filter fun y => y.no != no), status := stOk, reason := 0, count := 1, body := [] }

/-- Time, in ns of UPTIME, that must have passed since the last notification: the period, or the millisecond of a sample (R488). -/
def notifyGap (x : Subscription) : Nat := if x.periodic then x.periodMs * 1000000 else 1000000

/-- The bytes of a NOTIFY (Table 18.4), under its subscriber's credential (log 116). -/
def notifyBytes (s : State) (x : Subscription) (ty : Nat) (value : List Byte) : List Byte :=
  let body := toLe 1 x.no ++ toLe 3 0 ++ toLe 4 (x.seq + 1) ++ toLe 8 s.now ++ valueEntry (toLe 2 (keyIx x.key) ++ toLe 1 (x.key % 256)) ty stOk 0 value
  let cred := match x.cred with
    | .none => (0, 0)
    | .slice n => (1, n)
    | .manager => (2, 0)
  let signed := headerBytes 7 body.length 0 (if cred.1 = 0 then 0 else s.getObj Obj.bootEpoch) 0 cred.1 0 cred.2 0 0 0 0 ++ body
  signed ++ tagFor s x.cred signed

/-- A NOTIFY leaves on the route of the SUBSCRIBE (R477, R488). -/
def sendNotify (s : State) (x : Subscription) (ty : Nat) (value : List Byte) : State :=
  if x.inBand then sendBand s x.dst (notifyBytes s x ty value) else s.send (.notify false x.dst x.no (x.seq + 1) s.now x.key (leNat value))

/-- OD_NOTIFY: the millisecond sample of a subscription on change, or the period of a periodic one; nothing leaves on a management port that is
down (R436). How many changes a millisecond
coalesced is open (log 72). -/
def execOdNotify (sub : Nat) (s : State) : Res :=
  withSome s (s.odp.subs.find? fun x => x.no == sub) "subscription" fun x =>
    match objRow? x.key with
    | none => .refused .illFormed
    | some r =>
      let s := noteRevocations s [x.key]
      let bs := objBytes s x.key r
      let v := leNat bs
      if upNow s < x.sentAt + notifyGap x ∨ (!x.inBand ∧ s.getObj Obj.mgmtLink = 0) then .next s
      else if !x.periodic ∧ x.last = some v then .next s
      else
        let coalesced := if x.periodic then 0 else s.freeVal % 2 ^ 32
        let s := if x.periodic then s else s.useFree 1
        let s := putSubs s (s.odp.subs.map fun (y : Subscription) => if y.no = sub then { y with seq := y.seq + 1, last := some v, sentAt := upNow s } else y)
        let s := (s.addObj Obj.notifySent 1).addObj Obj.notifyCoalesced coalesced
        .next (sendNotify s x r.ty bs)

/-! ### Stored counters (R493) -/

/-- Whether the stored counters may be written: 60 s after the last such write. -/
def flushDue (s : State) : Bool :=
  match s.odp.flushedAt with
  | some t => decide (t + 60000000000 ≤ upNow s)
  | none => true

/-- STORED_COUNTER_FLUSH. -/
def execStoredCounterFlush (s : State) : Res :=
  onlyIf s (decide (1 ≤ s.getObj Obj.moduleState) && flushDue s) "write of the counters that is due" <|
    let s := s.flushCounters
    .next { s with odp := { s.odp with flushedAt := some (upNow s) } }

end Sys2Proof.Machine
end

