-- ==== Sys2Proof/Machine/Frames.lean ====
section
/-! DEFINITION. Frames.lean: numbered frames of the transport as they arrive (R321, R323 to R325), those of the object dictionary among
them (TYPE 7, R477), performed in PSN order; the dictionary's frames of the management port; acknowledgements that are due (R324). -/

namespace Sys2Proof.Machine

/-! ### Frames in order -/

/-- The numbers of the rows of object-dictionary frames: 0 for a malformed one, else its operation. -/
def odPerform (s : State) : Nat × OdFrame × FwImage → State
  | (1, f, _) => odRead f s
  | (2, f, _) => odWrite f s
  | (3, f, _) => odBulkRead f s
  | (4, f, img) => odBulkWrite f img s
  | (5, f, _) => odSubscribe f s
  | (6, f, _) => odUnsubscribe f s
  | (_, f, _) => takeMalformed f s

/-- Frames of a path performed in PSN order as far as they are there, those of the dictionary in their turn (R323, R477). -/
def drainAll (no : Nat) : Nat → State → List FrameFor → State × List FrameFor
  | 0, s, ws => (s, ws)
  | fuel + 1, s, ws =>
    let held := ((s.path? no).map fun p => p.held.length).getD 0
    let (s, ws) := drainPath no (held + 1) s ws
    match nextSent s no with
    | some x => match x.od with
      | some o => drainAll no fuel (pathNext (odPerform s o) no x) ws
      | none => (s, ws)
    | none => (s, ws)

/-- A numbered frame arrives (R321, R323 to R325). -/
def recvSent (q : Nat) (x : Sent) (s : State) : Res :=
  let f := x.f
  onlyIf s (decide (q < 64) && (s.port q).up && forTransport s f) "transport frame at a port that is up" <|
    let s := noteFrame s q f
    match linkCheck s q f with
    | (s, false) => .next s
    | (s, true) =>
      if !(goodFrame f) then .next s
      else match peerPath s f.src with
      | none => .next s
      | some (s, p) =>
        let d := psnAhead f.psn p.expect
        if 2 ^ 31 ≤ d then
          let s := s.setPath { p with owed := p.owed + 1 }
          .next (if f.ackReq || decide (16 ≤ p.owed + 1) then ackNow s p.no else s)
        else if d ≠ 0 ∧ 64 ≤ p.held.length then .next s
        else
          let held := if p.held.any fun x => x.f.psn == f.psn then p.held else p.held ++ [x]
          let s := s.setPath { p with held := held }
          if d ≠ 0 then
            let s := if p.nakked then s else sendAck (s.setPath { p with held := held, nakked := true }) p 4 p.expect false
            .next (if f.ackReq then ackNow s p.no else s)
          else
            let (s, ws) := drainAll p.no (held.length + 1) s []
            let due := match s.path? p.no with
              | some p => f.ackReq || decide (16 ≤ p.owed)
              | none => false
            advanceAll (workOf ws) (if due then ackNow s p.no else s)

/-- A numbered frame but TYPE 7 arrives. -/
def recvFrame (ty q : Nat) (f : TFrame) (s : State) : Res := recvSent q { ty := ty, f := f } s

/-- WRITE (R158, R160, R312, R321). -/
def execWriteFrame (q : Nat) (f : TFrame) (s : State) : Res := recvFrame 0 q f s

/-- READ_REQ (R158, R160, R312, R321). -/
def execReadReq (q : Nat) (f : TFrame) (s : State) : Res := recvFrame 1 q f s

/-- READ_RESP (R321). -/
def execReadResp (q : Nat) (f : TFrame) (s : State) : Res := recvFrame 2 q f s

/-- SIGNAL (R158, R306). -/
def execSignalFrame (q : Nat) (f : TFrame) (s : State) : Res := recvFrame 5 q f s

/-- COLL (R351). -/
def execCollFrame (q : Nat) (f : TFrame) (s : State) : Res := recvFrame 6 q f s

/-! ### Object-dictionary frames -/

/-- The bytes of an object-dictionary frame. -/
def odBytes (f : OdFrame) : List Byte := signedPart f ++ f.auth

/-- No image: that of every frame but a BULK_WRITE. -/
def noImage : FwImage := { stage := 0, secVersion := 0, sigOk := false }

/-- A frame of the dictionary arrives: over the management port it is performed at once, in band in its turn on its path (R477). -/
def recvOd (n : Nat) (f : OdFrame) (img : FwImage) (s : State) : Res :=
  if !f.inBand then .next (odPerform s (n, f, img))
  else recvSent f.q { ty := 7, f := { f.tr with payload := odBytes f }, od := some (n, f, img) } s

/-- A frame of a row: its header names the row's operation. -/
def recvOp (op : Nat) (f : OdFrame) (img : FwImage) (s : State) : Res := if f.op ≠ op then .refused .illFormed else recvOd op f img s

/-- OD_READ (R402, R484, R490). -/
def execOdRead (f : OdFrame) (s : State) : Res := recvOp 1 f noImage s

/-- OD_WRITE (R483, R484, R491, R493 to R495). -/
def execOdWrite (f : OdFrame) (s : State) : Res := recvOp 2 f noImage s

/-- OD_BULK_READ (R391, R486). -/
def execOdBulkRead (f : OdFrame) (s : State) : Res := recvOp 3 f noImage s

/-- OD_BULK_WRITE (R487). -/
def execOdBulkWrite (f : OdFrame) (img : FwImage) (s : State) : Res := recvOp 4 f img s

/-- OD_SUBSCRIBE (R488). -/
def execOdSubscribe (f : OdFrame) (s : State) : Res := recvOp 5 f noImage s

/-- OD_UNSUBSCRIBE (R488). -/
def execOdUnsubscribe (f : OdFrame) (s : State) : Res := recvOp 6 f noImage s

/-- OD_MALFORMED_FRAME (R477, R478): a reserved operation or a malformed header. -/
def execOdMalformedFrame (f : OdFrame) (s : State) : Res := if wellFormed f then .refused .illFormed else recvOd 0 f noImage s

/-! ### Acknowledgements that are due -/

/-- ACK_TIMER (R324): an acknowledgement that is owed is sent; a frame that waited for memory is tried again. -/
def execAckTimer (path : Nat) (s : State) : Res :=
  withSome s (s.path? path) "path" fun p =>
    let (s, ws) := drainAll path (p.held.length + 1) s []
    let owed := match s.path? path with
      | some p => decide (0 < p.owed)
      | none => false
    onlyIf s (owed || !p.held.isEmpty) "acknowledgement owed" <| advanceAll (workOf ws) (if owed then ackNow s path else s)

end Sys2Proof.Machine
end

