-- ==== Sys2Proof/Machine/Lane.lean ====
section
/-! DEFINITION. Lane.lean: shuffles, votes and predicate operations (R90, R91, R142). -/

namespace Sys2Proof.Machine

/-- Lane index, delta or mask of a shuffle for a lane. -/
def shflB (t : Group) (w : Word64) (i : Nat) : Nat :=
  if fBS w then (t.sreg (fB w)).toNat % 2 ^ 32 else (t.vreg (fB w) i).toNat

/-- A shuffle: lane i reads operand A of the lane that `src` names, active or not (R91); with AS = 1 every lane's is that of the scalar register
(Table 4.3). -/
def shuffle (op : Nat) (g : GroupRef) (w : Word64) (s : State) (src : Nat → Nat → Nat) : Res :=
  runInstr [op] s g w fun s h =>
    .step s (writeLanes h.t (fD w) 1 (lanesOf (actMask h.t h.p w)) fun i => srcOperand h.t (fA w) (fAS w) (src i (shflB h.t w i)) 1)

/-- SHFL_IDX (R90). -/
def execShflIdx (g : GroupRef) (w : Word64) (s : State) : Res := shuffle 0xA0 g w s fun _ b => b % 32

/-- SHFL_UP (R90): below lane 0, lane i itself. -/
def execShflUp (g : GroupRef) (w : Word64) (s : State) : Res := shuffle 0xA1 g w s fun i b => if i < b then i else i - b

/-- SHFL_DOWN (R90): above lane 31, lane i itself. -/
def execShflDown (g : GroupRef) (w : Word64) (s : State) : Res := shuffle 0xA2 g w s fun i b => if 31 < i + b then i else i + b

/-- SHFL_XOR (R90). -/
def execShflXor (g : GroupRef) (w : Word64) (s : State) : Res := shuffle 0xA3 g w s fun i b => i ^^^ (b % 32)

/-- A vote whose outcome goes to predicate D in every acting lane. -/
def vote (op : Nat) (g : GroupRef) (w : Word64) (s : State) (f : Group → LaneMask → Bool) : Res :=
  runInstr [op] s g w fun s h =>
    let m := actMask h.t h.p w
    .step s (h.t.setP (fD w) (mergeP (h.t.preg (fD w)) (if f h.t m then BitVec.allOnes 32 else 0) m))

/-- VOTE_ANY (R90). -/
def execVoteAny (g : GroupRef) (w : Word64) (s : State) : Res := vote 0xA4 g w s fun t m => (t.preg (fA w) &&& m) != 0

/-- VOTE_ALL (R90). -/
def execVoteAll (g : GroupRef) (w : Word64) (s : State) : Res := vote 0xA5 g w s fun t m => (t.preg (fA w) &&& m) == m

/-- VOTE_UNI (R90): the operand is equal in all acting lanes. -/
def execVoteUni (g : GroupRef) (w : Word64) (s : State) : Res :=
  vote 0xA6 g w s fun t m => match (lanesOf m).map fun i => t.vreg (fA w) i with
    | [] => true
    | a :: as => as.all (· == a)

/-- VOTE_BALLOT (R90): the mask of acting lanes whose predicate is true. -/
def execVoteBallot (g : GroupRef) (w : Word64) (s : State) : Res :=
  runInstr [0xA7] s g w fun s h =>
    .step s (h.t.setS (fD w) (BitVec.zeroExtend 64 (h.t.preg (fA w) &&& actMask h.t h.p w)))

/-- A predicate operation per acting lane. -/
def predOp (op : Nat) (g : GroupRef) (w : Word64) (s : State) (f : LaneMask → LaneMask → LaneMask) : Res :=
  runInstr [op] s g w fun s h =>
    .step s (h.t.setP (fD w) (mergeP (h.t.preg (fD w)) (f (h.t.preg (fA w)) (h.t.preg (fB w))) (actMask h.t h.p w)))

/-- P_AND (R142). -/
def execPAnd (g : GroupRef) (w : Word64) (s : State) : Res := predOp 0xA8 g w s fun a b => a &&& b

/-- P_OR (R142). -/
def execPOr (g : GroupRef) (w : Word64) (s : State) : Res := predOp 0xA9 g w s fun a b => a ||| b

/-- P_XOR (R142). -/
def execPXor (g : GroupRef) (w : Word64) (s : State) : Res := predOp 0xAA g w s fun a b => a ^^^ b

/-- P_NOT (R142). -/
def execPNot (g : GroupRef) (w : Word64) (s : State) : Res := predOp 0xAB g w s fun a _ => ~~~a

end Sys2Proof.Machine
end

