-- ==== Sys2Proof/Machine/Scalar.lean ====
section
/-! DEFINITION. Scalar.lean: the scalar class, 64-bit two's-complement values in s registers (R122, R123). -/

namespace Sys2Proof.Machine

/-- Source B of a scalar instruction: sB, or IMM sign-extended in an immediate form (R122). -/
def sclB (t : Group) (w : Word64) : Word64 := if isScalarI (fOpcode w) then immS w else t.sreg (fB w)

/-- A scalar instruction that writes f(sA, B) to sD. -/
def scalarOp (ops : List Nat) (s : State) (g : GroupRef) (w : Word64) (f : Word64 → Word64 → Word64) : Res :=
  runInstr ops s g w fun s h => .step s (h.t.setS (fD w) (f (h.t.sreg (fA w)) (sclB h.t w)))

/-- SCL_ADD (R122): wraps modulo 2^64. -/
def execSclAdd (g : GroupRef) (w : Word64) (s : State) : Res := scalarOp [0x00, 0x10] s g w fun a b => a + b

/-- SCL_SUB (R122). -/
def execSclSub (g : GroupRef) (w : Word64) (s : State) : Res := scalarOp [0x01, 0x11] s g w fun a b => a - b

/-- SCL_MUL (R122). -/
def execSclMul (g : GroupRef) (w : Word64) (s : State) : Res := scalarOp [0x02, 0x12] s g w fun a b => a * b

/-- SCL_AND (R122). -/
def execSclAnd (g : GroupRef) (w : Word64) (s : State) : Res := scalarOp [0x03, 0x13] s g w fun a b => a &&& b

/-- SCL_OR (R122). -/
def execSclOr (g : GroupRef) (w : Word64) (s : State) : Res := scalarOp [0x04, 0x14] s g w fun a b => a ||| b

/-- SCL_XOR (R122). -/
def execSclXor (g : GroupRef) (w : Word64) (s : State) : Res := scalarOp [0x05, 0x15] s g w fun a b => a ^^^ b

/-- SCL_SHL (R122): the amount modulo 64. -/
def execSclShl (g : GroupRef) (w : Word64) (s : State) : Res := scalarOp [0x06, 0x16] s g w fun a b => a <<< (b.toNat % 64)

/-- SCL_SHR (R122): shifts in zeros. -/
def execSclShr (g : GroupRef) (w : Word64) (s : State) : Res := scalarOp [0x07, 0x17] s g w fun a b => a >>> (b.toNat % 64)

/-- SCL_SRA (R122): copies the sign bit. -/
def execSclSra (g : GroupRef) (w : Word64) (s : State) : Res :=
  scalarOp [0x08, 0x18] s g w fun a b => a.sshiftRight (b.toNat % 64)

/-- SCL_MIN (R122): signed. -/
def execSclMin (g : GroupRef) (w : Word64) (s : State) : Res :=
  scalarOp [0x09, 0x19] s g w fun a b => if b.slt a then b else a

/-- SCL_MAX (R122): signed. -/
def execSclMax (g : GroupRef) (w : Word64) (s : State) : Res :=
  scalarOp [0x0A, 0x1A] s g w fun a b => if a.slt b then b else a

/-- SCL_MINU (R122): unsigned. -/
def execSclMinu (g : GroupRef) (w : Word64) (s : State) : Res :=
  scalarOp [0x0B, 0x1B] s g w fun a b => if b.ult a then b else a

/-- SCL_MAXU (R122): unsigned. -/
def execSclMaxu (g : GroupRef) (w : Word64) (s : State) : Res :=
  scalarOp [0x0C, 0x1C] s g w fun a b => if a.ult b then b else a

/-- SCL_MOV (R122). -/
def execSclMov (g : GroupRef) (w : Word64) (s : State) : Res := scalarOp [0x0D] s g w fun a _ => a

/-- SCL_CMP (R123): the outcome goes to predicate D in all 32 lanes; C[4] makes codes 2 to 5 unsigned. -/
def execSclCmp (g : GroupRef) (w : Word64) (s : State) : Res :=
  runInstr [0x0E] s g w fun s h =>
    let a := h.t.sreg (fA w)
    let b := h.t.sreg (fB w)
    let r := if (fC w).testBit 4 then condInt (fC w % 16) (a.toNat : Int) (b.toNat : Int) else condInt (fC w % 16) a.toInt b.toInt
    .step s (h.t.setP (fD w) (if r then BitVec.allOnes 32 else 0))

/-- SCL_MOVI (R122): IMM sign-extended to 64 bits. -/
def execSclMovi (g : GroupRef) (w : Word64) (s : State) : Res :=
  runInstr [0x1D] s g w fun s h => .step s (h.t.setS (fD w) (immS w))

/-- SCL_MOVHI (R122): IMM to bits [63:32], keeping bits [31:0]. -/
def execSclMovhi (g : GroupRef) (w : Word64) (s : State) : Res :=
  runInstr [0x1E] s g w fun s h =>
    let old := h.t.sreg (fD w)
    .step s (h.t.setS (fD w) (BitVec.ofNat 64 (fImm32 w * 2 ^ 32 + old.toNat % 2 ^ 32)))

end Sys2Proof.Machine
end

