-- ==== Sys2Proof/Machine/Dispatch.lean ====
section
/-! DEFINITION. Dispatch.lean: one arm for each command, a direct call of its meaning. -/

namespace Sys2Proof.Machine

/-- The effect of a command on everything but the queue. -/
def exec (i : Instr) (s : State) : Host.Outcome State Fault Refusal :=
  match i with
  | .sclAdd g w => Sys2Proof.Machine.execSclAdd g w s
  | .sclSub g w => Sys2Proof.Machine.execSclSub g w s
  | .sclMul g w => Sys2Proof.Machine.execSclMul g w s
  | .sclAnd g w => Sys2Proof.Machine.execSclAnd g w s
  | .sclOr g w => Sys2Proof.Machine.execSclOr g w s
  | .sclXor g w => Sys2Proof.Machine.execSclXor g w s
  | .sclShl g w => Sys2Proof.Machine.execSclShl g w s
  | .sclShr g w => Sys2Proof.Machine.execSclShr g w s
  | .sclSra g w => Sys2Proof.Machine.execSclSra g w s
  | .sclMin g w => Sys2Proof.Machine.execSclMin g w s
  | .sclMax g w => Sys2Proof.Machine.execSclMax g w s
  | .sclMinu g w => Sys2Proof.Machine.execSclMinu g w s
  | .sclMaxu g w => Sys2Proof.Machine.execSclMaxu g w s
  | .sclMov g w => Sys2Proof.Machine.execSclMov g w s
  | .sclCmp g w => Sys2Proof.Machine.execSclCmp g w s
  | .sclMovi g w => Sys2Proof.Machine.execSclMovi g w s
  | .sclMovhi g w => Sys2Proof.Machine.execSclMovhi g w s
  | .add g w => Sys2Proof.Machine.execAdd g w s
  | .sub g w => Sys2Proof.Machine.execSub g w s
  | .mul g w => Sys2Proof.Machine.execMul g w s
  | .fma g w => Sys2Proof.Machine.execFma g w s
  | .div g w => Sys2Proof.Machine.execDiv g w s
  | .sqrt g w => Sys2Proof.Machine.execSqrt g w s
  | .min g w => Sys2Proof.Machine.execMin g w s
  | .max g w => Sys2Proof.Machine.execMax g w s
  | .abs g w => Sys2Proof.Machine.execAbs g w s
  | .neg g w => Sys2Proof.Machine.execNeg g w s
  | .cvt g w => Sys2Proof.Machine.execCvt g w s
  | .vAnd g w => Sys2Proof.Machine.execVAnd g w s
  | .vOr g w => Sys2Proof.Machine.execVOr g w s
  | .vXor g w => Sys2Proof.Machine.execVXor g w s
  | .vNot g w => Sys2Proof.Machine.execVNot g w s
  | .shl g w => Sys2Proof.Machine.execShl g w s
  | .shr g w => Sys2Proof.Machine.execShr g w s
  | .mulhi g w => Sys2Proof.Machine.execMulhi g w s
  | .popc g w => Sys2Proof.Machine.execPopc g w s
  | .clz g w => Sys2Proof.Machine.execClz g w s
  | .sel g w => Sys2Proof.Machine.execSel g w s
  | .cmp g w => Sys2Proof.Machine.execCmp g w s
  | .red g w => Sys2Proof.Machine.execRed g w s
  | .vMov g w => Sys2Proof.Machine.execVMov g w s
  | .movSv g w => Sys2Proof.Machine.execMovSv g w s
  | .movVs g w => Sys2Proof.Machine.execMovVs g w s
  | .laneid g w => Sys2Proof.Machine.execLaneid g w s
  | .illegalInstruction g w => Sys2Proof.Machine.execIllegalInstruction g w s
  | .ld g w => Sys2Proof.Machine.execLd g w s
  | .st g w => Sys2Proof.Machine.execSt g w s
  | .stCvtBf16 g w => Sys2Proof.Machine.execStCvtBf16 g w s
  | .stCvtF16 g w => Sys2Proof.Machine.execStCvtF16 g w s
  | .stCvtE4m3 g w => Sys2Proof.Machine.execStCvtE4m3 g w s
  | .stCvtE5m2 g w => Sys2Proof.Machine.execStCvtE5m2 g w s
  | .atomAdd g w => Sys2Proof.Machine.execAtomAdd g w s
  | .atomFadd g w => Sys2Proof.Machine.execAtomFadd g w s
  | .atomMinS g w => Sys2Proof.Machine.execAtomMinS g w s
  | .atomMaxS g w => Sys2Proof.Machine.execAtomMaxS g w s
  | .atomMinU g w => Sys2Proof.Machine.execAtomMinU g w s
  | .atomMaxU g w => Sys2Proof.Machine.execAtomMaxU g w s
  | .atomAnd g w => Sys2Proof.Machine.execAtomAnd g w s
  | .atomOr g w => Sys2Proof.Machine.execAtomOr g w s
  | .atomXor g w => Sys2Proof.Machine.execAtomXor g w s
  | .atomExch g w => Sys2Proof.Machine.execAtomExch g w s
  | .atomCas g w => Sys2Proof.Machine.execAtomCas g w s
  | .lockAcq g w => Sys2Proof.Machine.execLockAcq g w s
  | .lockRel g w => Sys2Proof.Machine.execLockRel g w s
  | .fence g w => Sys2Proof.Machine.execFence g w s
  | .discard g w => Sys2Proof.Machine.execDiscard g w s
  | .pinLlc g w => Sys2Proof.Machine.execPinLlc g w s
  | .unpinLlc g w => Sys2Proof.Machine.execUnpinLlc g w s
  | .pfDev g w => Sys2Proof.Machine.execPfDev g w s
  | .idGet g w => Sys2Proof.Machine.execIdGet g w s
  | .timeGet g w => Sys2Proof.Machine.execTimeGet g w s
  | .tickGet g w => Sys2Proof.Machine.execTickGet g w s
  | .nop g w => Sys2Proof.Machine.execNop g w s
  | .br g w => Sys2Proof.Machine.execBr g w s
  | .brP g w => Sys2Proof.Machine.execBrP g w s
  | .call g w => Sys2Proof.Machine.execCall g w s
  | .ret g w => Sys2Proof.Machine.execRet g w s
  | .jmpS g w => Sys2Proof.Machine.execJmpS g w s
  | .exitLanes g w => Sys2Proof.Machine.execExitLanes g w s
  | .pause g w => Sys2Proof.Machine.execPause g w s
  | .pauseExpiry g => Sys2Proof.Machine.execPauseExpiry g s
  | .barGang g w => Sys2Proof.Machine.execBarGang g w s
  | .shflIdx g w => Sys2Proof.Machine.execShflIdx g w s
  | .shflUp g w => Sys2Proof.Machine.execShflUp g w s
  | .shflDown g w => Sys2Proof.Machine.execShflDown g w s
  | .shflXor g w => Sys2Proof.Machine.execShflXor g w s
  | .voteAny g w => Sys2Proof.Machine.execVoteAny g w s
  | .voteAll g w => Sys2Proof.Machine.execVoteAll g w s
  | .voteUni g w => Sys2Proof.Machine.execVoteUni g w s
  | .voteBallot g w => Sys2Proof.Machine.execVoteBallot g w s
  | .pAnd g w => Sys2Proof.Machine.execPAnd g w s
  | .pOr g w => Sys2Proof.Machine.execPOr g w s
  | .pXor g w => Sys2Proof.Machine.execPXor g w s
  | .pNot g w => Sys2Proof.Machine.execPNot g w s
  | .stkStart g w => Sys2Proof.Machine.execStkStart g w s
  | .stkTake g w => Sys2Proof.Machine.execStkTake g w s
  | .stkTakeAt g w => Sys2Proof.Machine.execStkTakeAt g w s
  | .stkGive g w => Sys2Proof.Machine.execStkGive g w s
  | .stkStop g w => Sys2Proof.Machine.execStkStop g w s
  | .stkWait g w => Sys2Proof.Machine.execStkWait g w s
  | .stokerSlotFilled ctx gang stream => Sys2Proof.Machine.execStokerSlotFilled ctx gang stream s
  | .stokerSlotStored ctx gang stream => Sys2Proof.Machine.execStokerSlotStored ctx gang stream s
  | .gmma g w => Sys2Proof.Machine.execGmma g w s
  | .accZero g w => Sys2Proof.Machine.execAccZero g w s
  | .accLd g w => Sys2Proof.Machine.execAccLd g w s
  | .accSt g w => Sys2Proof.Machine.execAccSt g w s
  | .matrixQueueExecute core => Sys2Proof.Machine.execMatrixQueueExecute core s
  | .faultReport ctx => Sys2Proof.Machine.execFaultReport ctx s
  | .launchKill ctx => Sys2Proof.Machine.execLaunchKill ctx s
  | .watchdogNoRetire ctx => Sys2Proof.Machine.execWatchdogNoRetire ctx s
  | .watchdogLimit ctx => Sys2Proof.Machine.execWatchdogLimit ctx s
  | .coreHang core => Sys2Proof.Machine.execCoreHang core s
  | .rowSelfTest die row failed => Sys2Proof.Machine.execRowSelfTest die row failed s
  | .launchComplete ctx => Sys2Proof.Machine.execLaunchComplete ctx s
  | .launchCmd r => Sys2Proof.Machine.execLaunchCmd r s
  | .copyCmd r => Sys2Proof.Machine.execCopyCmd r s
  | .fillCmd r => Sys2Proof.Machine.execFillCmd r s
  | .inlineWrite r => Sys2Proof.Machine.execInlineWrite r s
  | .waitCmd r => Sys2Proof.Machine.execWaitCmd r s
  | .waitReevaluate ch => Sys2Proof.Machine.execWaitReevaluate ch s
  | .signalCmd r => Sys2Proof.Machine.execSignalCmd r s
  | .fenceCmd r => Sys2Proof.Machine.execFenceCmd r s
  | .bankCmd r => Sys2Proof.Machine.execBankCmd r s
  | .measuredLoad r => Sys2Proof.Machine.execMeasuredLoad r s
  | .mixCmd r => Sys2Proof.Machine.execMixCmd r s
  | .reservedCommand r => Sys2Proof.Machine.execReservedCommand r s
  | .donate r => Sys2Proof.Machine.execDonate r s
  | .reclaim r => Sys2Proof.Machine.execReclaim r s
  | .alloc r => Sys2Proof.Machine.execAlloc r s
  | .refEntry r => Sys2Proof.Machine.execRefEntry r s
  | .freeEntry r => Sys2Proof.Machine.execFreeEntry r s
  | .queryEntry r => Sys2Proof.Machine.execQueryEntry r s
  | .setEntry r => Sys2Proof.Machine.execSetEntry r s
  | .layoutCmd r => Sys2Proof.Machine.execLayoutCmd r s
  | .encode r => Sys2Proof.Machine.execEncode r s
  | .decode r => Sys2Proof.Machine.execDecode r s
  | .migrate r => Sys2Proof.Machine.execMigrate r s
  | .contextBlockTransaction r => Sys2Proof.Machine.execContextBlockTransaction r s
  | .allReduce r => Sys2Proof.Machine.execAllReduce r s
  | .reduceCmd r => Sys2Proof.Machine.execReduceCmd r s
  | .broadcastCmd r => Sys2Proof.Machine.execBroadcastCmd r s
  | .reduceScatter r => Sys2Proof.Machine.execReduceScatter r s
  | .allGather r => Sys2Proof.Machine.execAllGather r s
  | .allToAll r => Sys2Proof.Machine.execAllToAll r s
  | .barrierCmd r => Sys2Proof.Machine.execBarrierCmd r s
  | .collectiveStepStart g => Sys2Proof.Machine.execCollectiveStepStart g s
  | .collectiveWaitExpiry g => Sys2Proof.Machine.execCollectiveWaitExpiry g s
  | .commandFetch ch => Sys2Proof.Machine.execCommandFetch ch s
  | .dispatch res => Sys2Proof.Machine.execDispatch res s
  | .tickBoundary => Sys2Proof.Machine.execTickBoundary s
  | .granuleBoundary => Sys2Proof.Machine.execGranuleBoundary s
  | .saveComplete ctx => Sys2Proof.Machine.execSaveComplete ctx s
  | .restoreComplete ctx => Sys2Proof.Machine.execRestoreComplete ctx s
  | .overrunStop r => Sys2Proof.Machine.execOverrunStop r s
  | .voteClose k => Sys2Proof.Machine.execVoteClose k s
  | .hello q f => Sys2Proof.Machine.execHello q f s
  | .elect q f => Sys2Proof.Machine.execElect q f s
  | .assign q f => Sys2Proof.Machine.execAssign q f s
  | .align q f => Sys2Proof.Machine.execAlign q f s
  | .alignExchange => Sys2Proof.Machine.execAlignExchange s
  | .vote q f => Sys2Proof.Machine.execVote q f s
  | .outcome q f => Sys2Proof.Machine.execOutcome q f s
  | .parityUpdateComplete k => Sys2Proof.Machine.execParityUpdateComplete k s
  | .barrierUp q f => Sys2Proof.Machine.execBarrierUp q f s
  | .barrierDown q f => Sys2Proof.Machine.execBarrierDown q f s
  | .periodFrame q f => Sys2Proof.Machine.execPeriodFrame q f s
  | .rollback q f => Sys2Proof.Machine.execRollback q f s
  | .lostFrame q f => Sys2Proof.Machine.execLostFrame q f s
  | .draftNak q f => Sys2Proof.Machine.execDraftNak q f s
  | .draftNakRetry q => Sys2Proof.Machine.execDraftNakRetry q s
  | .neighbourLoss q => Sys2Proof.Machine.execNeighbourLoss q s
  | .holdoverExpiry => Sys2Proof.Machine.execHoldoverExpiry s
  | .writeFrame q f => Sys2Proof.Machine.execWriteFrame q f s
  | .readReq q f => Sys2Proof.Machine.execReadReq q f s
  | .readResp q f => Sys2Proof.Machine.execReadResp q f s
  | .ackFrame q f => Sys2Proof.Machine.execAckFrame q f s
  | .nakFrame q f => Sys2Proof.Machine.execNakFrame q f s
  | .signalFrame q f => Sys2Proof.Machine.execSignalFrame q f s
  | .collFrame q f => Sys2Proof.Machine.execCollFrame q f s
  | .linkAck q f => Sys2Proof.Machine.execLinkAck q f s
  | .linkNak q f => Sys2Proof.Machine.execLinkNak q f s
  | .linkAckTimer q => Sys2Proof.Machine.execLinkAckTimer q s
  | .frameForward q dst ty f => Sys2Proof.Machine.execFrameForward q dst ty f s
  | .ackTimer path => Sys2Proof.Machine.execAckTimer path s
  | .retransmitTimeout path => Sys2Proof.Machine.execRetransmitTimeout path s
  | .transportTimeout path => Sys2Proof.Machine.execTransportTimeout path s
  | .eceRecovery path => Sys2Proof.Machine.execEceRecovery path s
  | .pathContextFree path => Sys2Proof.Machine.execPathContextFree path s
  | .wcIdleSend core line => Sys2Proof.Machine.execWcIdleSend core line s
  | .roceSend p => Sys2Proof.Machine.execRoceSend p s
  | .rdmaWrite p => Sys2Proof.Machine.execRdmaWrite p s
  | .rdmaRead p => Sys2Proof.Machine.execRdmaRead p s
  | .roceAcknowledge p => Sys2Proof.Machine.execRoceAcknowledge p s
  | .cnp qp => Sys2Proof.Machine.execCnp qp s
  | .roceUnsupportedOpcode p => Sys2Proof.Machine.execRoceUnsupportedOpcode p s
  | .portDown q => Sys2Proof.Machine.execPortDown q s
  | .routeRecompute routes => Sys2Proof.Machine.execRouteRecompute routes s
  | .portUp q => Sys2Proof.Machine.execPortUp q s
  | .joinedEntry => Sys2Proof.Machine.execJoinedEntry s
  | .rds a l sectors => Sys2Proof.Machine.execRds a l sectors s
  | .rdm a l => Sys2Proof.Machine.execRdm a l s
  | .upg a l => Sys2Proof.Machine.execUpg a l s
  | .wbk a l dirty => Sys2Proof.Machine.execWbk a l dirty s
  | .dropLine a l => Sys2Proof.Machine.execDropLine a l s
  | .forwardLine a l => Sys2Proof.Machine.execForwardLine a l s
  | .invalidation t l => Sys2Proof.Machine.execInvalidation t l s
  | .fillDataArrival m l => Sys2Proof.Machine.execFillDataArrival m l s
  | .writebackLands l => Sys2Proof.Machine.execWritebackLands l s
  | .linkFreeze cr l v => Sys2Proof.Machine.execLinkFreeze cr l v s
  | .dieLinkRetrain l fails => Sys2Proof.Machine.execDieLinkRetrain l fails s
  | .chFreeze cr stack ch v => Sys2Proof.Machine.execChFreeze cr stack ch v s
  | .correctedError p => Sys2Proof.Machine.execCorrectedError p s
  | .uncorrectableError line reader => Sys2Proof.Machine.execUncorrectableError line reader s
  | .patrolScrub line found lastOfPass => Sys2Proof.Machine.execPatrolScrub line found lastOfPass s
  | .cxlLinkFail x => Sys2Proof.Machine.execCxlLinkFail x s
  | .tieringMoveComplete slice => Sys2Proof.Machine.execTieringMoveComplete slice s
  | .heatDecay slice => Sys2Proof.Machine.execHeatDecay slice s
  | .beforeImageCopy slice page => Sys2Proof.Machine.execBeforeImageCopy slice page s
  | .rollbackDetect k cls => Sys2Proof.Machine.execRollbackDetect k cls s
  | .restoreCompleteRollback k => Sys2Proof.Machine.execRestoreCompleteRollback k s
  | .rejoinWaitExpiry k => Sys2Proof.Machine.execRejoinWaitExpiry k s
  | .maintenancePoint => Sys2Proof.Machine.execMaintenancePoint s
  | .createSlice cr o => Sys2Proof.Machine.execCreateSlice cr o s
  | .destroySlice cr o => Sys2Proof.Machine.execDestroySlice cr o s
  | .mapPages cr o => Sys2Proof.Machine.execMapPages cr o s
  | .unmap cr o => Sys2Proof.Machine.execUnmap cr o s
  | .protect cr o => Sys2Proof.Machine.execProtect cr o s
  | .quiesceSlice cr o => Sys2Proof.Machine.execQuiesceSlice cr o s
  | .quiesceLimitExpiry slice => Sys2Proof.Machine.execQuiesceLimitExpiry slice s
  | .quietReached slice => Sys2Proof.Machine.execQuietReached slice s
  | .resumeSlice cr o => Sys2Proof.Machine.execResumeSlice cr o s
  | .resetSlice cr o => Sys2Proof.Machine.execResetSlice cr o s
  | .scrubEnd slice checkFailed => Sys2Proof.Machine.execScrubEnd slice checkFailed s
  | .migLogHarvest cr slice => Sys2Proof.Machine.execMigLogHarvest cr slice s
  | .migEnable cr slice v => Sys2Proof.Machine.execMigEnable cr slice v s
  | .attestNonce cr slice nonce => Sys2Proof.Machine.execAttestNonce cr slice nonce s
  | .devAttestNonce cr nonce => Sys2Proof.Machine.execDevAttestNonce cr nonce s
  | .spdmRequest cr req => Sys2Proof.Machine.execSpdmRequest cr req s
  | .arbAdvance cr c v => Sys2Proof.Machine.execArbAdvance cr c v s
  | .mgrKey cr mgmt key => Sys2Proof.Machine.execMgrKey cr mgmt key s
  | .doorbell cr ch v => Sys2Proof.Machine.execDoorbell cr ch v s
  | .complHead cr ch v => Sys2Proof.Machine.execComplHead cr ch v s
  | .chEnable cr ch v => Sys2Proof.Machine.execChEnable cr ch v s
  | .periodAt cr v => Sys2Proof.Machine.execPeriodAt cr v s
  | .lsEnable cr k v => Sys2Proof.Machine.execLsEnable cr k v s
  | .wEnable cr win v => Sys2Proof.Machine.execWEnable cr win v s
  | .qpSqTail cr qp v => Sys2Proof.Machine.execQpSqTail cr qp v s
  | .qpRqHead cr qp v => Sys2Proof.Machine.execQpRqHead cr qp v s
  | .alertCause cr v ended => Sys2Proof.Machine.execAlertCause cr v ended s
  | .restart cr v => Sys2Proof.Machine.execRestart cr v s
  | .fwRecovery img => Sys2Proof.Machine.execFwRecovery img s
  | .objectWrite cr index sub ty val => Sys2Proof.Machine.execObjectWrite cr index sub ty val s
  | .odRead f => Sys2Proof.Machine.execOdRead f s
  | .odWrite f => Sys2Proof.Machine.execOdWrite f s
  | .odBulkRead f => Sys2Proof.Machine.execOdBulkRead f s
  | .odBulkWrite f img => Sys2Proof.Machine.execOdBulkWrite f img s
  | .odSubscribe f => Sys2Proof.Machine.execOdSubscribe f s
  | .odUnsubscribe f => Sys2Proof.Machine.execOdUnsubscribe f s
  | .odNotify sub => Sys2Proof.Machine.execOdNotify sub s
  | .odMalformedFrame f => Sys2Proof.Machine.execOdMalformedFrame f s
  | .snapshotExpiry cr key => Sys2Proof.Machine.execSnapshotExpiry cr key s
  | .bulkBufferExpiry cr => Sys2Proof.Machine.execBulkBufferExpiry cr s
  | .storedCounterFlush => Sys2Proof.Machine.execStoredCounterFlush s
  | .cpEnable cr p v => Sys2Proof.Machine.execCpEnable cr p v s
  | .cpNegotiationComplete p n => Sys2Proof.Machine.execCpNegotiationComplete p n s
  | .ssEnable cr p win v => Sys2Proof.Machine.execSsEnable cr p win v s
  | .cpRd p m => Sys2Proof.Machine.execCpRd p m s
  | .cpRdo p m => Sys2Proof.Machine.execCpRdo p m s
  | .cpWr p m => Sys2Proof.Machine.execCpWr p m s
  | .cpAtom p m => Sys2Proof.Machine.execCpAtom p m s
  | .cpWbk p m => Sys2Proof.Machine.execCpWbk p m s
  | .cpDrop p m => Sys2Proof.Machine.execCpDrop p m s
  | .cpAck p m => Sys2Proof.Machine.execCpAck p m s
  | .cpAckData p m => Sys2Proof.Machine.execCpAckData p m s
  | .snoopTimeout p addr => Sys2Proof.Machine.execSnoopTimeout p addr s
  | .damperWindow m => Sys2Proof.Machine.execDamperWindow m s
  | .damperTrim measuredW => Sys2Proof.Machine.execDamperTrim measuredW s
  | .energyUpdate sensemV terminalmV t => Sys2Proof.Machine.execEnergyUpdate sensemV terminalmV t s
  | .pointChangeComplete => Sys2Proof.Machine.execPointChangeComplete s
  | .thermalTrip => Sys2Proof.Machine.execThermalTrip s
  | .droopOnset die row => Sys2Proof.Machine.execDroopOnset die row s
  | .droopRecovery die row cycles => Sys2Proof.Machine.execDroopRecovery die row cycles s
  | .domain87Up b => Sys2Proof.Machine.execDomain87Up b s
  | .inputBelow18v => Sys2Proof.Machine.execInputBelow18v s
  | .presentNClose => Sys2Proof.Machine.execPresentNClose s
  | .presentNOpen => Sys2Proof.Machine.execPresentNOpen s
  | .inrushStart => Sys2Proof.Machine.execInrushStart s
  | .inrushComplete => Sys2Proof.Machine.execInrushComplete s
  | .powerGood => Sys2Proof.Machine.execPowerGood s
  | .undervoltage => Sys2Proof.Machine.execUndervoltage s
  | .overvoltage => Sys2Proof.Machine.execOvervoltage s
  | .overvoltageRecovery => Sys2Proof.Machine.execOvervoltageRecovery s
  | .inputOvercurrent => Sys2Proof.Machine.execInputOvercurrent s
  | .overcurrentReclose => Sys2Proof.Machine.execOvercurrentReclose s
  | .aux12Short => Sys2Proof.Machine.execAux12Short s
  | .aux12Retry mA => Sys2Proof.Machine.execAux12Retry mA s
  | .enableChange high lowMs => Sys2Proof.Machine.execEnableChange high lowMs s
  | .vsenseCheck sensemV terminalmV => Sys2Proof.Machine.execVsenseCheck sensemV terminalmV s
  | .leakDetect => Sys2Proof.Machine.execLeakDetect s
  | .coolTachLow hz => Sys2Proof.Machine.execCoolTachLow hz s
  | .plateOverLimit mC => Sys2Proof.Machine.execPlateOverLimit mC s
  | .mgmtLinkDown => Sys2Proof.Machine.execMgmtLinkDown s
  | .boot b => Sys2Proof.Machine.execBoot b s
  | .readyLocal t => Sys2Proof.Machine.execReadyLocal t s
  | .dieLinkReturn l => Sys2Proof.Machine.execDieLinkReturn l s
  | .mapOutComplete stack ch => Sys2Proof.Machine.execMapOutComplete stack ch s
  | .spareReplacementComplete die row => Sys2Proof.Machine.execSpareReplacementComplete die row s
  | .tierZeroingComplete tier => Sys2Proof.Machine.execTierZeroingComplete tier s
  | .mgmtLinkUp => Sys2Proof.Machine.execMgmtLinkUp s
  | .ptpMessage ptpTime => Sys2Proof.Machine.execPtpMessage ptpTime s
  | .neighbourDiscoveryMessage q pfx iid => Sys2Proof.Machine.execNeighbourDiscoveryMessage q pfx iid s
  | .pfcFrame q pause => Sys2Proof.Machine.execPfcFrame q pause s
  | .transportReservedType ty => Sys2Proof.Machine.execTransportReservedType ty s

end Sys2Proof.Machine
end

