-- ==== Sys2Proof/Safety.lean ====
section
/-! DEFINITION. Safety.lean: what a safe step is and the words that the statements use: a group that may run a word, what an
instruction leaves behind, what a state keeps. -/

namespace Sys2Proof.Machine

/-! ### Invariants -/

/-- A step that goes on. -/
def Goes (s : State) : Prop := ∃ t, step s = .next t

/-- Every byte memory of the module has its canonical form. -/
def MemoryWf (s : State) : Prop :=
  Memory.wf s.mem.bytes ∧ (∀ x ∈ s.slices, Memory.wf x.scratch) ∧
    ∀ l ∈ s.launches, ∀ g ∈ l.live, Memory.wf g.spad

/-- The dictionary has its canonical form: no key twice, no object listed at its reset value. -/
abbrev OdWf (s : State) : Prop := swf objReset s.od = true

/-- The invariant of the model: the dictionary and device memory have their canonical forms. -/
def Canonical (s : State) : Prop := OdWf s ∧ Memory.wf s.mem.bytes

/-! ### Groups -/

/-- The group that a command names. -/
def groupAt (s : State) (g : GroupRef) : Option Group :=
  (s.launch? g.ctx).bind fun l => (findGang l g.gang).bind fun x => findGroup x g.group

/-- Group `g`, found at `h`, may run the word `w`: it can issue, no other group of its quadrant that may issue stands before it (R83), the fetch
passes the checks of R115, the decoder accepts the word (R80, R118) with no reserved bit set, and no load of it waits for its value (R164). -/
def Runs (s : State) (g : GroupRef) (w : Word64) (h : Here) : Prop :=
  here? s g = some h ∧ mayIssue s h = true ∧ ahead s h = [] ∧ fetchCheck s h = none ∧ decodeFault s h w = none ∧ h.t.late = []

/-- The state after an instruction that leaves its group as `t` and goes to the next instruction: ISSUED counts it, and the path
goes on at pc + 8, arriving at joins on its way (R87). -/
def retire (s : State) (g : GroupRef) (h : Here) (t : Group) : State :=
  putBack (issued s h) g h (settled { t with cur := some { h.p with pc := h.p.pc + 8 } })

/-- The state after a fault of the instruction that the group at `h` was to issue: the turn passes, and the report is on its way (R103). -/
def faulted (s : State) (h : Here) (f : FaultInfo) : State := raiseFault (passTurn s h) h.l.ctx h.g.core f

/-- The state after a transfer of every active lane to a target (R87, R88). -/
def transfer (s : State) (g : GroupRef) (h : Here) (t : Group) (target : Word64) : State :=
  putBack (issued s h) g h (jumpGroup t h.p target)

/-- The state after an instruction that has moved the paths of its group itself. -/
def repath (s : State) (g : GroupRef) (h : Here) (t : Group) : State := putBack (issued s h) g h t

/-- With one of a row's opcodes, the command retires and leaves its group as `t`. -/
def Retires (s : State) (g : GroupRef) (w : Word64) (h : Here) (i : Instr) (ops : List Nat) (t : Group) : Prop :=
  fOpcode w ∈ ops → exec i s = .next (retire s g h t)

/-- Whether two scalars meet the condition in field C (Table 4.12): signed for codes 2 to 5 with C[4] = 0, unsigned with C[4] = 1.
Codes 6 and 7 ask for a NaN operand, which no integer is. -/
def scalarHolds (c : Nat) (a b : Word64) : Bool :=
  let lt := if c.testBit 4 then a.ult b else a.slt b
  match c % 16 with
  | 0 => a == b
  | 1 => a != b
  | 2 => lt
  | 3 => lt || a == b
  | 4 => !lt && a != b
  | 5 => !lt
  | 6 => false
  | _ => true

/-- The lanes that act, ascending. -/
def acting (h : Here) (w : Word64) : List Nat := lanesOf (actMask h.t h.p w)

/-- The registers of a type at D written with one value in every acting lane. -/
def laneWrite (h : Here) (w : Word64) (f : Nat → Nat) : Group := writeLanes h.t (fD w) (typeRegs (vecType w)) (acting h w) f

/-- A lane's elements combined one by one and packed (R124). -/
def elementwise (w : Word64) (t : Group) (f : Nat → Nat → Nat) (i : Nat) : Nat :=
  let k := elemWidth (vecType w)
  packElems k ((List.range (elemCount (vecType w))).map fun j => f (elemOf k j (vecA t w i)) (elemOf k j (vecB t w i)))

/-- The three kinds of registers of a group. -/
def registersOf (t : Group) : List (Nat × Word64) × List (Nat × Word32) × List (Nat × LaneMask) := (t.sregs, t.vregs, t.preds)

/-- The acting lanes of an access with their addresses (R126). -/
def laneAddrs (h : Here) (w : Word64) (imm : Int) : List (Nat × Nat) := (acting h w).map fun i => (i, laneAddr h.t w imm i)

/-- Every lane of an access of `n` bytes passes the checks of R81 and R127. -/
def LanesPass (s : State) (h : Here) (space n : Nat) (write : Bool) (ls : List (Nat × Nat)) : Prop :=
  ∀ p ∈ ls, laneCheck s h (askOf h) space p.2 n write = .ok ()

/-- Every lane of an atomic or a lock instruction passes those checks, and its old value may be read (R252). -/
def AtomsPass (s : State) (h : Here) (space n : Nat) (ls : List (Nat × Nat)) : Prop :=
  ∀ p ∈ ls, atomCheck s h space p.2 n = .ok ()

/-- Nothing of the group that waits in the matrix queue touches the bytes of an access (R162). -/
def TilesClear (s : State) (g : GroupRef) (h : Here) (space n : Nat) (ls : List (Nat × Nat)) : Prop :=
  tileQueued s g h.g.core space n (ls.map (·.2)) = false

/-- None of the bytes of a write belongs to a lock word that a launch holds (R107). -/
def LocksClear (s : State) (h : Here) (space n : Nat) (ls : List (Nat × Nat)) : Prop :=
  heldLock s h.l.slice space n (ls.map (·.2)) = false

/-- What a store writes: its acting lanes with addresses and bytes, ascending. -/
def storeData (h : Here) (w : Word64) (n : Nat) (v : Nat → Nat) : List (Nat × Nat × List Byte) :=
  (acting h w).map fun i => (i, laneAddr h.t w (fMimm w) i, toLe n (v i))

/-- The bytes of device memory that stores on their way write: first address and length. -/
def storeRanges (es : List StoreEnt) : List (Nat × Nat) :=
  es.flatMap fun e => match e.line with
    | .dev _ => e.parts.map fun p => (sectBase ⟨e.line, e.i⟩ + p.1 % 64, p.2.length)
    | .shr _ _ => []

/-- The bytes of device memory that a store may change as it issues: those of the stores of its core that are still on their way, and its own,
each found as the store finds it. -/
def storedAt (s : State) (h : Here) (space : Nat) (rel : Bool) (data : List (Nat × List Byte)) : List (Nat × Nat) :=
  storeRanges (storesOf s h.g.core ++ storeEnts s h space rel data)

/-- An address outside a list of ranges. -/
def Outside (a : Nat) (rs : List (Nat × Nat)) : Prop := ∀ r ∈ rs, a < r.1 ∨ r.1 + r.2 ≤ a

/-- A byte of memory is as before; in a discarded sector it may have become the one beneath (R174). -/
def SameByte (s t : State) (a : Nat) : Prop :=
  cellGet t.mem.bytes a = cellGet s.mem.bytes a ∨
    ∃ d ∈ s.mem.dead, d.sector = a / 64 ∧ cellGet t.mem.bytes a = BitVec.ofNat 8 (d.under.toNat / 2 ^ (8 * (a % 64)))

/-- The scalar, vector, lane and identity commands that write registers and nothing else. -/
def registerOnly : List (GroupRef → Word64 → Instr) :=
  [Instr.sclAdd, Instr.sclSub, Instr.sclMul, Instr.sclAnd, Instr.sclOr, Instr.sclXor, Instr.sclShl, Instr.sclShr,
   Instr.sclSra, Instr.sclMin, Instr.sclMax, Instr.sclMinu, Instr.sclMaxu, Instr.sclMov, Instr.sclCmp, Instr.sclMovi,
   Instr.sclMovhi, Instr.add, Instr.sub, Instr.mul, Instr.fma, Instr.div, Instr.sqrt, Instr.min, Instr.max, Instr.abs,
   Instr.neg, Instr.cvt, Instr.vAnd, Instr.vOr, Instr.vXor] ++
  [Instr.vNot, Instr.shl, Instr.shr, Instr.mulhi, Instr.popc, Instr.clz, Instr.sel, Instr.cmp, Instr.red, Instr.vMov,
   Instr.movSv, Instr.movVs, Instr.laneid, Instr.idGet, Instr.timeGet, Instr.tickGet, Instr.nop, Instr.shflIdx,
   Instr.shflUp, Instr.shflDown, Instr.shflXor, Instr.voteAny, Instr.voteAll, Instr.voteUni, Instr.voteBallot,
   Instr.pAnd, Instr.pOr, Instr.pXor, Instr.pNot]

/-! ### Commands of work channels -/

/-- A command in flight with one of the opcodes, its outcome not yet decided. -/
def Running (s : State) (r : CmdRef) (ops : List Nat) (c : Cmd) : Prop :=
  findFlight s r.ch r.seq = some c ∧ c.op ∈ ops ∧ c.final = none

/-- A command ends: its completion record carries the outcome (R301), or waits for a completion slot. -/
def Ends (i : Instr) (s t : State) (ch : Nat) (c : Cmd) (f : Final) : Prop := exec i s = .next (endCmd t ch c f)

end Sys2Proof.Machine
end

