-- ==== Sys2Proof/Certificates/Slice0/Obligations.lean ====
section
/-! DEFINITION. Obligations.lean: the statements for the provers. -/

open Sys2Proof Sys2Proof.Machine

/-! ### The machine -/

/-- A command at the front of the queue runs on the state with the queue's rest. -/
def Obligations.FrontCommandRuns : Prop :=
  ∀ (s : State) (c : Instr) (rest : List Instr), step { s with pending := c :: rest } = exec c { s with pending := rest }

/-- On an empty queue a nanosecond passes: UPTIME counts in every state but OFF, device time from BOOT up unless a correction
withholds or adds one (R12, R260, R459; the idle step is the model's choice, log 2). -/
def Obligations.IdleStepCountsTime : Prop :=
  ∀ s : State, s.pending = [] → s.net.slew = 0 → s.getObj Obj.uptime + 1 < 2 ^ 64 → s.getObj Obj.deviceTime + 1 < 2 ^ 64 →
    s.stores = [] → s.mem.draining = [] → s.mem.heldReqs = [] → s.mem.waitingReq = [] → s.getObj Obj.discState ≠ 2 →
    (∀ x ∈ s.chans, x.notifyDue = false) → (∀ x ∈ s.slices, x.waits = []) →
    ∃ t, step s = .next t ∧ t.mem = s.mem ∧ t.pending = [] ∧
      (s.getObj Obj.moduleState ≠ 0 → t.getObj Obj.uptime = s.getObj Obj.uptime + 1) ∧
      (s.getObj Obj.moduleState = 0 → t = s) ∧
      (2 ≤ s.getObj Obj.moduleState → t.now = s.now + 1) ∧ (s.getObj Obj.moduleState < 2 → t.now = s.now) ∧
      ∀ k, k ≠ Obj.uptime → k ≠ Obj.deviceTime → t.getObj k = s.getObj k

/-! ### Scalar and vector instructions -/

/-- R122: what the scalar instructions write. Source B is sB, or IMM sign-extended in an immediate form. -/
def Obligations.ScalarResults : Prop :=
  ∀ (s : State) (g : GroupRef) (w : Word64) (h : Here), Runs s g w h →
    let a := h.t.sreg (fA w)
    let b := if isScalarI (fOpcode w) then immS w else h.t.sreg (fB w)
    let gives (i : Instr) (ops : List Nat) (v : Word64) : Prop := Retires s g w h i ops (h.t.setS (fD w) v)
    gives (.sclAdd g w) [0x00, 0x10] (a + b) ∧ gives (.sclSub g w) [0x01, 0x11] (a - b) ∧
    gives (.sclMul g w) [0x02, 0x12] (a * b) ∧ gives (.sclAnd g w) [0x03, 0x13] (a &&& b) ∧
    gives (.sclOr g w) [0x04, 0x14] (a ||| b) ∧ gives (.sclXor g w) [0x05, 0x15] (a ^^^ b) ∧
    gives (.sclShl g w) [0x06, 0x16] (a <<< (b.toNat % 64)) ∧ gives (.sclShr g w) [0x07, 0x17] (a >>> (b.toNat % 64)) ∧
    gives (.sclSra g w) [0x08, 0x18] (a.sshiftRight (b.toNat % 64)) ∧
    gives (.sclMin g w) [0x09, 0x19] (if b.slt a then b else a) ∧ gives (.sclMax g w) [0x0A, 0x1A] (if a.slt b then b else a) ∧
    gives (.sclMinu g w) [0x0B, 0x1B] (if b.ult a then b else a) ∧ gives (.sclMaxu g w) [0x0C, 0x1C] (if a.ult b then b else a) ∧
    gives (.sclMov g w) [0x0D] a ∧ gives (.sclMovi g w) [0x1D] (immS w) ∧
    gives (.sclMovhi g w) [0x1E] (BitVec.ofNat 32 (fImm32 w) ++ (h.t.sreg (fD w)).extractLsb' 0 32)

/-- R123: the compare, signed for codes 2 to 5 with C[4] = 0 and unsigned with C[4] = 1; its outcome goes to predicate D in all
32 lanes. Codes 6 and 7 ask for a NaN operand, which no integer is. -/
def Obligations.ScalarCompare : Prop :=
  ∀ (s : State) (g : GroupRef) (w : Word64) (h : Here), Runs s g w h → fOpcode w = 0x0E →
    let a := h.t.sreg (fA w)
    let b := h.t.sreg (fB w)
    exec (.sclCmp g w) s = .next (retire s g h (h.t.setP (fD w) (if scalarHolds (fC w) a b then BitVec.allOnes 32 else 0)))

/-- R124: the integer results of the vector class, per acting lane, wrapping at the width. -/
def Obligations.VectorIntegerResults : Prop :=
  ∀ (s : State) (g : GroupRef) (w : Word64) (h : Here), Runs s g w h → typeFmt (vecType w) = none →
    let v := intVal (vecType w)
    let x := wrapElem (vecType w)
    let k := elemWidth (vecType w)
    let gives (i : Instr) (ops : List Nat) (f : Nat → Nat → Nat) : Prop :=
      Retires s g w h i ops (laneWrite h w (elementwise w h.t f))
    gives (.add g w) [0x20, 0x40] (fun a b => x (v a + v b)) ∧ gives (.sub g w) [0x21, 0x41] (fun a b => x (v a - v b)) ∧
    gives (.mul g w) [0x22, 0x42] (fun a b => x (v a * v b)) ∧
    gives (.min g w) [0x26, 0x46] (fun a b => if v b < v a then b else a) ∧
    gives (.max g w) [0x27, 0x47] (fun a b => if v a < v b then b else a) ∧
    (isIntT (vecType w) = true → gives (.abs g w) [0x28] (fun a _ => x (v a).natAbs) ∧ gives (.neg g w) [0x29] (fun a _ => x (-(v a)))) ∧
    gives (.vAnd g w) [0x2B, 0x4B] (fun a b => a &&& b) ∧ gives (.vOr g w) [0x2C, 0x4C] (fun a b => a ||| b) ∧
    gives (.vXor g w) [0x2D, 0x4D] (fun a b => a ^^^ b) ∧ gives (.vNot g w) [0x2E] (fun a _ => 2 ^ k - 1 - a) ∧
    gives (.shl g w) [0x2F, 0x4F] (fun a b => a * 2 ^ (b % k)) ∧ gives (.shr g w) [0x30, 0x50] (fun a b => x (v a / 2 ^ (b % k))) ∧
    gives (.mulhi g w) [0x31] (fun a b => x (v a * v b / 2 ^ k)) ∧
    gives (.popc g w) [0x32] (fun a _ => popN k a) ∧ gives (.clz g w) [0x33] (fun a _ => clzN k a)

/-- Tables 4.10 and 4.13: moves, selects, compares and the lane number, on every type. -/
def Obligations.VectorMovesAndCompares : Prop :=
  ∀ (s : State) (g : GroupRef) (w : Word64) (h : Here), Runs s g w h →
    let m := actMask h.t h.p w
    let gives (i : Instr) (ops : List Nat) (f : Nat → Nat) : Prop := Retires s g w h i ops (laneWrite h w f)
    gives (.sel g w) [0x34] (fun i => if (h.t.preg (fC w % 8)).getLsbD i then vecA h.t w i else vecB h.t w i) ∧
    gives (.vMov g w) [0x37, 0x57] (fun i => if isVectorI (fOpcode w) then fImm32 w else vecA h.t w i) ∧
    gives (.movSv g w) [0x38] (fun _ => (h.t.sreg (fA w)).toNat % 2 ^ (32 * typeRegs (fType w))) ∧
    gives (.laneid g w) [0x3A] (fun i => i) ∧
    Retires s g w h (.cmp g w) [0x35] (h.t.setP (fD w) (mergeP (h.t.preg (fD w)) (maskOf fun i => cmpLane h.t w i) m)) ∧
    Retires s g w h (.movVs g w) [0x39] (match acting h w with
      | [] => h.t
      | low :: _ =>
        h.t.setS (fD w) (BitVec.ofNat 64 (srcOperand h.t (fA w) (fAS w)
          (if fBS w then (h.t.sreg (fB w)).toNat % 32 else (h.t.vreg (fB w) low).toNat % 32) (typeRegs (fType w)))))

/-- R50 to R52, R125: the floating-point results, conversions and reductions where the launch's arithmetic trap is off. -/
def Obligations.VectorFloatResults : Prop :=
  ∀ (s : State) (g : GroupRef) (w : Word64) (h : Here), Runs s g w h → h.l.trap = false →
    (∀ f : FFmt, typeFmt (vecType w) = some f → isFloatT (vecType w) = true →
      let d := decodeF f
      let k := elemWidth (vecType w)
      let rm := vecRm w
      let gives (i : Instr) (ops : List Nat) (r : Nat → Nat → Nat) : Prop :=
        Retires s g w h i ops (laneWrite h w (elementwise w h.t r))
      gives (.add g w) [0x20, 0x40] (fun a b => (addF f rm (d a) (d b)).bits) ∧
      gives (.sub g w) [0x21, 0x41] (fun a b => (addF f rm (d a) (negF (d b))).bits) ∧
      gives (.mul g w) [0x22, 0x42] (fun a b => (mulF f rm (d a) (d b)).bits) ∧
      gives (.div g w) [0x24] (fun a b => (divF f rm (d a) (d b)).bits) ∧
      gives (.sqrt g w) [0x25] (fun a _ => (sqrtF f rm (d a)).bits) ∧
      gives (.min g w) [0x26, 0x46] (minMaxF f false) ∧ gives (.max g w) [0x27, 0x47] (minMaxF f true) ∧
      gives (.abs g w) [0x28] (fun a _ => if d a = .nan then fmtNaN f else a % 2 ^ (k - 1)) ∧
      gives (.neg g w) [0x29] (fun a _ => if d a = .nan then fmtNaN f else a ^^^ 2 ^ (k - 1)) ∧
      Retires s g w h (.fma g w) [0x23] (laneWrite h w fun i => packElems k ((List.range (elemCount (vecType w))).map fun j =>
        (fmaF f rm (d (elemOf k j (vecA h.t w i))) (d (elemOf k j (vecB h.t w i))) (d (elemOf k j (vecC h.t w i)))).bits))) ∧
    Retires s g w h (.red g w) [0x36] (laneWrite h w fun i => ((reduce h.t w (actMask h.t h.p w)).getD i (0, [])).1) ∧
    Retires s g w h (.cvt g w) [0x2A]
      (writeLanes h.t (fD w) (cvtRegs (fC w % 16) (fType w)) (acting h w) fun i => (cvtLane s h w i).1)

/-- R53: with the arithmetic trap on, an instruction in which a lane raises invalid operation or overflow faults once: the cause
is that of the lowest such lane, and LANES holds every one of them. -/
def Obligations.ArithmeticTrapFaults : Prop :=
  ∀ (s : State) (g : GroupRef) (w : Word64) (h : Here), Runs s g w h → h.l.trap = true →
    let gives (i : Instr) (ops : List Nat) (r : Nat → List Rounded) : Prop :=
      let bad (i : Nat) : Bool := (acting h w).contains i && (r i).any fun x => x.invalid || x.overflow
      ∀ low, (List.range 32).find? bad = some low → fOpcode w ∈ ops →
        exec i s = .next (faulted s h (groupFault h (if (r low).any (·.invalid) then 0x4A else 0x4B) (maskOf bad) 0 w))
    gives (.add g w) [0x20, 0x40] (fun i => (binElem w (· + ·) addF h.t i).2) ∧
    gives (.sub g w) [0x21, 0x41] (fun i => (binElem w (· - ·) (fun f rm a b => addF f rm a (negF b)) h.t i).2) ∧
    gives (.mul g w) [0x22, 0x42] (fun i => (binElem w (· * ·) mulF h.t i).2) ∧
    gives (.cvt g w) [0x2A] (fun i => (cvtLane s h w i).2)

/-- R90, R91, R142: shuffles, votes and predicate operations. -/
def Obligations.LaneResults : Prop :=
  ∀ (s : State) (g : GroupRef) (w : Word64) (h : Here), Runs s g w h →
    let m := actMask h.t h.p w
    let p := h.t.preg (fA w)
    let q := h.t.preg (fB w)
    let b := shflB h.t w
    let moves (i : Instr) (op : Nat) (f : Nat → Nat) : Prop :=
      Retires s g w h i [op] (writeLanes h.t (fD w) 1 (acting h w) fun i => srcOperand h.t (fA w) (fAS w) (f i) 1)
    let gives (i : Instr) (op : Nat) (v : LaneMask) : Prop :=
      Retires s g w h i [op] (h.t.setP (fD w) (mergeP (h.t.preg (fD w)) v m))
    let all (c : Prop) [Decidable c] : LaneMask := if c then BitVec.allOnes 32 else 0
    moves (.shflIdx g w) 0xA0 (fun i => b i % 32) ∧ moves (.shflUp g w) 0xA1 (fun i => if i < b i then i else i - b i) ∧
    moves (.shflDown g w) 0xA2 (fun i => if 31 < i + b i then i else i + b i) ∧
    moves (.shflXor g w) 0xA3 (fun i => i ^^^ (b i % 32)) ∧
    gives (.voteAny g w) 0xA4 (all (p &&& m ≠ 0)) ∧ gives (.voteAll g w) 0xA5 (all (p &&& m = m)) ∧
    gives (.voteUni g w) 0xA6 (all (∀ i ∈ acting h w, ∀ j ∈ acting h w, h.t.vreg (fA w) i = h.t.vreg (fA w) j)) ∧
    Retires s g w h (.voteBallot g w) [0xA7] (h.t.setS (fD w) (BitVec.zeroExtend 64 (p &&& m))) ∧
    gives (.pAnd g w) 0xA8 (p &&& q) ∧ gives (.pOr g w) 0xA9 (p ||| q) ∧ gives (.pXor g w) 0xAA (p ^^^ q) ∧
    gives (.pNot g w) 0xAB (~~~p)

/-- R75, R137: identity and time reads. -/
def Obligations.IdentityAndTimeReads : Prop :=
  ∀ (s : State) (g : GroupRef) (w : Word64) (h : Here), Runs s g w h →
    let frozen := (s.getObj (Obj.detMask h.l.slice)).testBit 5
    let gives (i : Instr) (op v : Nat) : Prop := Retires s g w h i [op] (h.t.setS (fX21 w) (BitVec.ofNat 64 v))
    gives (.timeGet g w) 0x86 (if frozen then h.l.relTime else s.now) ∧
    gives (.tickGet g w) 0x87 ((if frozen then h.l.relTick else s.tick) % 2 ^ 48) ∧
    gives (.idGet g w) 0x85 (identity s h (fSel w)) ∧
    ((s.getObj (Obj.detMask h.l.slice)).testBit 4 = false →
      identity s h (fSel w) = match fSel w with
        | 0 => h.g.core / 156
        | 1 => h.g.core / 13 % 12
        | 2 => h.g.core
        | 3 => h.g.idx
        | 4 => h.t.idx
        | 5 => h.t.quad
        | _ => h.t.slot)

/-- The frame of the instructions that write registers of their group and nothing else: memory, every object but ISSUED of the
slice, and the registers of every other group are as before, and the group itself is still there. Of the tables of memory only the lists of
requests that wait may change: a request of the group in them is taken off. -/
def Obligations.RegisterInstructionsFrame : Prop :=
  ∀ (s t : State) (g : GroupRef) (w : Word64) (h : Here), ∀ i ∈ registerOnly, Runs s g w h → h.p.mask ≠ 0 →
    exec (i g w) s = .next t →
      t.mem = { s.mem with waitingReq := t.mem.waitingReq, missInput := t.mem.missInput } ∧ (∀ x ∈ t.mem.waitingReq, x ∈ s.mem.waitingReq) ∧
      (∀ x ∈ t.mem.missInput, x ∈ s.mem.missInput) ∧
      t.stores = s.stores ∧ t.slices = s.slices ∧ t.net = s.net ∧ t.chans = s.chans ∧ t.cores = s.cores ∧ t.locks = s.locks ∧
      (∀ k, k ≠ Obj.issued h.l.slice → t.getObj k = s.getObj k) ∧
      (∀ r, r ≠ g → (groupAt t r).map registersOf = (groupAt s r).map registersOf) ∧
      ∃ u, groupAt t g = some u ∧
        (fOpcode w ≤ 0x1E → fOpcode w ≠ 0x0E → u.vregs = h.t.vregs ∧ u.preds = h.t.preds ∧
          ∀ r, r < 64 → r ≠ fD w % 64 → u.sreg r = h.t.sreg r) ∧
        (0x20 ≤ fOpcode w → fOpcode w ≤ 0x57 → fOpcode w ≠ 0x35 → fOpcode w ≠ 0x39 →
          u.sregs = h.t.sregs ∧ u.preds = h.t.preds ∧
          ∀ r j, j < 32 → (j ∉ acting h w ∨ r < fD w ∨
              fD w + (if fOpcode w = 0x2A then cvtRegs (fC w % 16) (fType w) else typeRegs (vecType w)) ≤ r) →
            u.vreg r j = h.t.vreg r j) ∧
        (fOpcode w = 0x0E → u.vregs = h.t.vregs ∧ u.sregs = h.t.sregs ∧ ∀ r, r < 8 → r ≠ fD w % 8 → u.preg r = h.t.preg r)

/-! ### Control flow -/

/-- R138, R86, R88: transfers of control. -/
def Obligations.ControlTransfers : Prop :=
  ∀ (s : State) (g : GroupRef) (w : Word64) (h : Here), Runs s g w h →
    let goes (i : Instr) (op : Nat) (t : Group) (target : Word64) : Prop := fOpcode w = op → exec i s = .next (transfer s g h t target)
    let target := h.p.pc + BitVec.ofInt 64 (8 * fTarget w)
    let taken := h.p.mask &&& (if fCneg w then ~~~(h.t.preg (fTop3 w)) else h.t.preg (fTop3 w))
    Retires s g w h (.nop g w) [0x90] h.t ∧
    goes (.br g w) 0x91 h.t target ∧
    (taken = h.p.mask → goes (.brP g w) 0x92 h.t target) ∧
    (taken = 0 → taken ≠ h.p.mask → ¬ (target ≤ h.p.pc ∧ h.t.queue ≠ []) → Retires s g w h (.brP g w) [0x92] h.t) ∧
    (taken = 0 → taken ≠ h.p.mask → target ≤ h.p.pc → h.t.queue ≠ [] → fOpcode w = 0x92 →
      exec (.brP g w) s = .next (repath s g h (yieldPath h.t { h.p with pc := h.p.pc + 8 }))) ∧
    (taken ≠ 0 → taken ≠ h.p.mask → fOpcode w = 0x92 → exec (.brP g w) s = .next (repath s g h (settled { h.t with
      joins := h.t.joins ++ [{ id := h.t.nextJoin, rpc := h.p.pc + BitVec.ofInt 64 (8 * fRpc w), expected := h.p.mask, arrived := 0, parent := h.p.join }],
      cur := some { pc := h.p.pc + 8, mask := h.p.mask &&& ~~~taken, join := some h.t.nextJoin },
      queue := h.t.queue ++ [{ pc := target, mask := taken, join := some h.t.nextJoin }],
      nextJoin := h.t.nextJoin + 1 }))) ∧
    goes (.call g w) 0x93 (writeLanes h.t (fLink w) 2 (lanesOf h.p.mask) fun _ => (h.p.pc + 8).toNat) target ∧
    (∀ a, lanesOf h.p.mask ≠ [] → (∀ i ∈ lanesOf h.p.mask, h.t.vregs' (fLink w) i 2 = a) →
      goes (.ret g w) 0x94 h.t (BitVec.ofNat 64 (a / 8 * 8))) ∧
    goes (.jmpS g w) 0x95 h.t (BitVec.ofNat 64 ((h.t.sreg (fJmpSA w)).toNat / 8 * 8))

/-- R87, R88, R140: a path that pauses, parks or exits; after an exit no join expects a lane of the path. -/
def Obligations.PathsPauseParkAndExit : Prop :=
  ∀ (s : State) (g : GroupRef) (w : Word64) (h : Here), Runs s g w h →
    let p := { h.p with pc := h.p.pc + 8 }
    (fOpcode w = 0x96 → exec (.exitLanes g w) s = .next (repath s g h (exitPath h.t)) ∧
      ∀ j ∈ (exitPath h.t).joins, j.expected &&& h.p.mask = 0) ∧
    (fOpcode w = 0x97 → exec (.pause g w) s = .next (repath s g h
      (if (takeRunnable h.t.queue).isSome then yieldPath h.t { p with paused := true } else { h.t with cur := some { p with paused := true } }))) ∧
    (fOpcode w = 0x98 → engineOwes s g h.g.core = false →
      exec (.barGang g w) s = .next (repath s g h (yieldPath h.t { p with parked := true })))

/-- R88: 32 cycles after its pause a path is runnable again. -/
def Obligations.PauseEnds : Prop :=
  ∀ (s : State) (g : GroupRef) (t : Group), groupAt s g = some t →
    (∀ q, unpauseFirst t.queue = some q → exec (.pauseExpiry g) s = .next (setGroup s g (wakeGroup { t with queue := q }))) ∧
    ∀ p, unpauseFirst t.queue = none → t.cur = some p → p.paused = true →
      exec (.pauseExpiry g) s = .next (setGroup s g (settled { t with cur := some { p with paused := false } }))

/-! ### Loads, stores and atomics -/

/-- R126: loads of each space whose lanes pass their checks. A scratchpad load reads the gang's bytes. A plain load of memory may still take a later
value (R164): it leaves an entry for each sector, and the group's next instruction, here a scalar addition, runs with the values then in the
registers: those the load wrote, or those that the sector holds meanwhile (log 123, the model's choice of a free value). -/
def Obligations.LoadsComplete : Prop :=
  (∀ (s : State) (g : GroupRef) (w : Word64) (h : Here), Runs s g w h → fOpcode w = 0x60 → badScope w = false →
    let n := 2 ^ fMsize w
    let ls := laneAddrs h w (fMimm w)
    let gets (v : Nat → Nat) : Group := writeLanes h.t (fD w) (sizeRegs n) (acting h w) fun i => v (laneAddr h.t w (fMimm w) i)
    (∀ p ∈ ls, laneCheck (if fMorder w = 1 then dropAt s h (fMspace w) p.2 else s) h (askOf h) (fMspace w) p.2 n false = .ok ()) →
    TilesClear s g h (fMspace w) n ls →
      (fMspace w = 0 → exec (.ld g w) s = .next (retire s g h (gets fun a => leNat (cellsGet h.g.spad a n)))) ∧
      (fMspace w = 1 ∨ fMspace w = 2 →
        ∀ s', loadReady s h (fMspace w) n (h.t.fenced || (fMorder w == 1 && decide (2 ≤ fMscope w))) (ls.map (·.2)) = (s', true) →
        let r := cachedLoad s' h (fMspace w) n (fMscope w) (fMorder w == 1) ls
        exec (.ld g w) s = .next (retire r.1 g h
          (if fMorder w = 1 then gets r.2 else { gets r.2 with late := lateLoads s' h (fMspace w) n (fD w) ls }))) ∧
      (fMspace w = 3 →
        let x := sysLoads g h n ((ls.map (·.2)).foldl (fun acc a => addNew a acc) []) s
        let s' := dropReads x.s (.load g)
        x.waits = false → x.faults = [] →
          exec (.ld g w) s = .next (retire (if fMorder w = 1 then applyInv s' h.g.core else s') g h (gets (loadedAt x))))) ∧
  ∀ (s : State) (g : GroupRef) (w : Word64) (h : Here) (e : LateLoad) (p : Nat × Nat) (ls : List (Nat × Nat)),
    here? s g = some h → mayIssue s h = true → ahead s h = [] → fetchCheck s h = none → decodeFault s h w = none →
    h.t.late = [e] → e.lanes = p :: ls →
    ∃ (u : State) (t : Group),
      (fOpcode w ∈ [0x00, 0x10] → exec (.sclAdd g w) s = .next (retire u g h
        (t.setS (fD w) (h.t.sreg (fA w) + (if isScalarI (fOpcode w) then immS w else h.t.sreg (fB w)))))) ∧
      t.late = [] ∧ t.sregs = h.t.sregs ∧ t.preds = h.t.preds ∧
      (t.vregs = h.t.vregs ∨ ∃ k, readOk s h.l.slice e.space p.2 (askOf h) = .ok k ∧
        t.vregs = (e.lanes.foldl (fun (t : Group) l => t.setVs e.reg l.1 (sizeRegs e.n)
          (leNat (sectGet (readSect (s.useFree 1) k).2 (l.2 % 64) e.n))) h.t).vregs)

/-- R165, R169, R174: an acquire load at device scope of device memory or shared scratch reads the latest bytes, wherever no
addressed sector is discarded and its core has no store on its way (of its own stores a core sees the last, R162). -/
def Obligations.AcquireLoadReadsLatest : Prop :=
  ∀ (s : State) (h : Here) (space n : Nat) (ls : List (Nat × Nat)), 0 < n → n ≤ 16 → storesOf s h.g.core = [] →
    (∀ p ∈ ls, p.2 % n = 0 ∧ ∃ k, locate s h.l.slice space p.2 0 = .ok k ∧ deadOf s k = none) → 64 % n = 0 →
      ∀ p ∈ ls, ∀ k, locate s h.l.slice space p.2 0 = .ok k →
        (cachedLoad s h space n 2 true ls).2 p.2 = leNat (cellsGet (memOf s k.line) (sectBase k + p.2 % 64) n)

/-- R126, R128, R131: stores to the scratchpad, to shared scratch and to device memory. -/
def Obligations.StoresComplete : Prop :=
  ∀ (s : State) (g : GroupRef) (w : Word64) (h : Here), Runs s g w h → badScope w = false →
    (fMorder w = 2 → engineOwes s g h.g.core = false) →
    let ls := laneAddrs h w (fMimm w)
    let stores (i : Instr) (op n : Nat) (v : Nat → Nat) : Prop :=
      let data := storeData h w n v
      let put (u : State) (rel : Bool) : State := storeAll u h (fMspace w) rel (data.map (·.2))
      fOpcode w = op → LanesPass s h (fMspace w) n true ls → TilesClear s g h (fMspace w) n ls → LocksClear s h (fMspace w) n ls →
        (fMspace w = 0 → gmmaQueued s g h.g.core = false →
          exec i s = .next (retire (data.foldl (fun s d => spadPut s g d.2.1 d.2.2) s) g h h.t)) ∧
        ((fMspace w = 1 ∨ fMspace w = 2) → ¬ (fMorder w = 2 ∧ fMscope w = 3) →
          exec i s = .next (retire (put s (fMorder w == 2 && decide (2 ≤ fMscope w))) g h h.t)) ∧
        (fMspace w = 3 → ¬ (fMorder w = 2 ∧ fMscope w = 3) → ∀ s', sysStores g h.g.core h.t.slot (data.map (·.2)) s = (s', true) →
          exec i s = .next (retire s' g h h.t)) ∧
        (fMspace w ≠ 0 → fMorder w = 2 ∧ fMscope w = 3 → ∀ s', sysRelease s h = (s', true) →
          (fMspace w = 3 → ∀ s'', sysStores g h.g.core h.t.slot (data.map (·.2)) s' = (s'', true) → exec i s = .next (retire s'' g h h.t)) ∧
          (fMspace w ≠ 3 → exec i s = .next (retire (put s' true) g h h.t)))
    let converts (i : Instr) (op : Nat) (f : FFmt) (n : Nat) : Prop :=
      stores i op n fun l => (convF f (effRm s h.l.slice (fTop3 w)) (rsrHash s h.l (laneAddr h.t w (fMimm w) l * 8))
        (decodeF fmtF32 (h.t.vreg (fD w) l).toNat)).bits
    stores (.st g w) 0x61 (2 ^ fMsize w) (fun l => h.t.vregs' (fD w) l (sizeRegs (2 ^ fMsize w))) ∧
    (h.l.trap = false → converts (.stCvtBf16 g w) 0x62 fmtBf16 2 ∧ converts (.stCvtF16 g w) 0x63 fmtF16 2 ∧
      converts (.stCvtE4m3 g w) 0x64 fmtE4M3 1 ∧ converts (.stCvtE5m2 g w) 0x65 fmtE5M2 1)

/-- The frame of the stores to device memory: every byte outside the stored ones reads as before (in a discarded sector, it may read
as the byte beneath), and so does every byte of shared scratch where no store to it is on its way. The stored bytes are those of the store and of the
core's stores that were on their way, of which each may be performed now (R164). -/
def Obligations.StoreChangesOnlyStoredBytes : Prop :=
  ∀ (s t : State) (g : GroupRef) (w : Word64) (h : Here), Runs s g w h → badScope w = false → fMspace w = 2 → fMorder w = 0 →
    fOpcode w = 0x61 → LanesPass s h 2 (2 ^ fMsize w) true (laneAddrs h w (fMimm w)) →
    LocksClear s h 2 (2 ^ fMsize w) (laneAddrs h w (fMimm w)) → exec (.st g w) s = .next t →
      let data := storeData h w (2 ^ fMsize w) fun l => h.t.vregs' (fD w) l (sizeRegs (2 ^ fMsize w))
      (∀ a, Outside a (storedAt s h 2 false (data.map (·.2))) → SameByte s t a) ∧
      ((∀ e ∈ storesOf s h.g.core, ∃ l, e.line = .dev l) → ∀ n, (t.slice n).scratch = (s.slice n).scratch) ∧
      t.locks = s.locks ∧ t.net = s.net ∧ t.chans = s.chans

/-- R132, R171: one lane's atomic step at device scope, at a live location and with no store of its core on its way, reads the old value and
leaves the new one there, or nothing changes where there is no new value; the other bytes of memory are as before. -/
def Obligations.AtomicReadsThenWrites : Prop :=
  ∀ (s : State) (h : Here) (a n : Nat) (f : Nat → Option Nat) (k : SectKey), locate s h.l.slice 2 a 1 = .ok k → deadOf s k = none →
    storesOf s h.g.core = [] → 0 < n → a % 64 + n ≤ 64 →
      let at_ := sectBase k + a % 64
      let r := atomicAt s h 2 a n f
      r.2 = leNat (cellsGet s.mem.bytes at_ n) ∧
      (∀ x, f r.2 = some x → cellsGet r.1.mem.bytes at_ n = toLe n x) ∧
      (f r.2 = none → r.1.mem.bytes = s.mem.bytes) ∧
      ∀ b, b < at_ ∨ at_ + n ≤ b → cellGet r.1.mem.bytes b = cellGet s.mem.bytes b

/-- R132, R133, R165, R171: the atomics, lanes in ascending order, each seeing the previous lane's result, at group and gang scope within
the core; with no lane that acts nothing happens. -/
def Obligations.AtomicsComplete : Prop :=
  ∀ (s : State) (g : GroupRef) (w : Word64) (h : Here), Runs s g w h → badScope w = false →
    ((fAorder w).testBit 1 = true → engineOwes s g h.g.core = false) →
    let n := atomBits w / 8
    let ls := laneAddrs h w 0
    let as := ls.map (·.2)
    (acting h w = [] → Retires s g w h (.atomAdd g w) [0x70] h.t ∧ Retires s g w h (.atomCas g w) [0x7A] h.t) ∧
    ∀ s', acting h w ≠ [] → AtomsPass s h (fAspace w) n ls → TilesClear s g h (fAspace w) n ls → LocksClear s h (fAspace w) n ls →
      atomReady s h w (fAspace w) as = (s', true) →
    let b (i : Nat) : Nat := h.t.vregs' (fVB w) i (n / 4)
    let c (i : Nat) : Nat := h.t.vregs' (fVC w) i (n / 4)
    let lanes (f : Nat → Nat → Option Nat) := atomicLanes (nearAtom w) h (fAspace w) n f ls
      (keepShadow s' h.l.ctx h.g.idx h.g.core (atomKeys s' h (fAspace w) as))
    let gets (r : List (Nat × Nat)) : Group := r.foldl (fun t p => t.setVs (fD w) p.1 (n / 4) p.2) h.t
    let does (i : Instr) (op : Nat) (f : Nat → Nat → Nat) : Prop :=
      let r := lanes fun l o => some (f o (b l))
      fOpcode w = op → exec i s = .next (retire (atomAcquire r.1 h w) g h (gets r.2))
    does (.atomAdd g w) 0x70 (fun o b => (o + b) % 2 ^ (8 * n)) ∧
    (h.l.trap = false → (s.getObj (Obj.detMask h.l.slice)).testBit 0 = false →
      does (.atomFadd g w) 0x71 (fun o b => (faddAtom (8 * n) o b).bits)) ∧
    does (.atomMinS g w) 0x72 (fun o b => if signedN (8 * n) b < signedN (8 * n) o then b else o) ∧
    does (.atomMaxS g w) 0x73 (fun o b => if signedN (8 * n) o < signedN (8 * n) b then b else o) ∧
    does (.atomMinU g w) 0x74 min ∧ does (.atomMaxU g w) 0x75 max ∧ does (.atomAnd g w) 0x76 (fun o b => o &&& b) ∧
    does (.atomOr g w) 0x77 (fun o b => o ||| b) ∧ does (.atomXor g w) 0x78 (fun o b => o ^^^ b) ∧
    does (.atomExch g w) 0x79 (fun _ b => b) ∧
    (let r := lanes fun l o => if o = b l then some (c l) else none
     fOpcode w = 0x7A → exec (.atomCas g w) s = .next (retire (atomAcquire r.1 h w) g h ((gets r.2).setP (fTop3 w)
       (mergeP (h.t.preg (fTop3 w)) (maskOf fun i => r.2.any fun p => p.1 == i && decide (p.2 ≠ b i)) (actMask h.t h.p w)))))

/-- R133: the atomics that fault, for the lanes that act. One on scratchpad or system space, or at system scope, raises cause 0x49; else
`atom.fadd` under determinism mask bit [0] raises cause 0x45; else an address that is not a multiple of the size raises cause 0x47, the fault
naming the lowest such lane and all of them. -/
def Obligations.AtomicsThatFault : Prop :=
  ∀ (s : State) (g : GroupRef) (w : Word64) (h : Here), Runs s g w h → acting h w ≠ [] →
    let rows : List (Instr × Nat) := [(.atomAdd g w, 0x70), (.atomFadd g w, 0x71), (.atomMinS g w, 0x72), (.atomMaxS g w, 0x73), (.atomMinU g w, 0x74),
      (.atomMaxU g w, 0x75), (.atomAnd g w, 0x76), (.atomOr g w, 0x77), (.atomXor g w, 0x78), (.atomExch g w, 0x79), (.atomCas g w, 0x7A)]
    let m := actMask h.t h.p w
    let n := atomBits w / 8
    let ls := laneAddrs h w 0
    let away : Prop := fAspace w = 0 ∨ fAspace w = 3 ∨ fAscope w = 3
    let fixed : Prop := fOpcode w = 0x71 ∧ (s.getObj (Obj.detMask h.l.slice)).testBit 0 = true
    ∀ p ∈ rows, fOpcode w = p.2 →
      (away → exec p.1 s = .next (faulted s h (groupFault h 0x49 m 0 w))) ∧
      (¬ away → fixed → exec p.1 s = .next (faulted s h (groupFault h 0x45 m 0 w))) ∧
      (¬ away → ¬ fixed → ((fAorder w).testBit 1 = true → engineOwes s g h.g.core = false) → TilesClear s g h (fAspace w) n ls →
        (∀ x ∈ ls, x.2 % n = 0 → atomCheck s h (fAspace w) x.2 n = .ok ()) → ∀ low, ls.find? (fun x => decide (x.2 % n ≠ 0)) = some low →
          exec p.1 s = .next (faulted s h (groupFault h 0x47 (maskOf fun j => ls.any fun x => x.1 == j && decide (x.2 % n ≠ 0))
            (BitVec.ofNat 64 low.2) (BitVec.ofNat 64 n))))

/-- R108, R110, R134: owner-tagged locks, one lane at a time. An acquisition of a free lock writes HELD with the caller's PID and
CONTEXT and enters the word in the launch's lock table; a held lock changes nothing. A release by the holding launch writes zero and
takes the word out. -/
def Obligations.LocksComplete : Prop :=
  ∀ (s : State) (g : GroupRef) (w : Word64) (h : Here), Runs s g w h → badScope w = false →
    let ls := laneAddrs h w 0
    let pid := s.getObj (Obj.sPid h.l.slice)
    AtomsPass s h (fAspace w) 8 ls →
      (fOpcode w = 0x7B → TilesClear s g h (fAspace w) 8 ls → ∀ s0 s' rs, homesReady s h (fAspace w) (ls.map (·.2)) = (s0, true) →
        acqLanes h (fAspace w) (s0.getObj (Obj.sPid h.l.slice)) ls s0 = (s', rs, none) →
        exec (.lockAcq g w) s = .next (retire (if rs.any fun p => p.2 != 0 then applyInv s' h.g.core else s') g h
          (rs.foldl (fun t p => t.setVs (fD w) p.1 2 p.2) h.t))) ∧
      (fOpcode w = 0x7C → engineOwes s g h.g.core = false → ∀ s0 s' rs, landAll s h.g.core = (s0, true) →
        relLanes h (fAspace w) (s0.getObj (Obj.sPid h.l.slice)) ls s0 = (s', rs, false) →
        exec (.lockRel g w) s = .next (retire s' g h (h.t.setP (fTop3 w) (mergeP (h.t.preg (fTop3 w))
          (maskOf fun i => rs.any fun p => p.1 == i && p.2) (actMask h.t h.p w))))) ∧
      ∀ i a k, locate s h.l.slice 2 a 1 = .ok k → deadOf s k = none → a % 8 = 0 → storesOf s h.g.core = [] →
        let at_ := sectBase k + a % 64
        let old := leNat (cellsGet s.mem.bytes at_ 8)
        (∀ s' rs, acqLanes h 2 pid [(i, a)] s = (s', rs, none) →
          (old.testBit 0 = true → rs = [(i, 0)] ∧ s'.mem.bytes = s.mem.bytes ∧ lockTable s' h.l.ctx = lockTable s h.l.ctx) ∧
          (old.testBit 0 = false → rs = [(i, if old.testBit 1 then 3 else 1)] ∧
            cellsGet s'.mem.bytes at_ 8 = toLe 8 (lockWord true false pid h.l.ctx))) ∧
        (old = lockWord true false pid h.l.ctx → (relLanes h 2 pid [(i, a)] s).2 = ([(i, true)], false) ∧
          cellsGet (relLanes h 2 pid [(i, a)] s).1.mem.bytes at_ 8 = List.replicate 8 0)

/-- R135, R136, R197 to R199: fences and cache hints; none of them changes a byte of memory, a fence apart from the core's stores that it
has performed. A `pin.llc` of no bytes pins nothing and answers true (DESIGN CHOICE, log 104). -/
def Obligations.FencesAndHints : Prop :=
  ∀ (s : State) (g : GroupRef) (w : Word64) (h : Here), Runs s g w h →
    let n := h.l.slice
    let a := (h.t.sreg (fX27 w)).toNat
    let len := (h.t.sreg (fSB w)).toNat
    let touching := linesTouching a len
    let done (i : Instr) (op : Nat) (t : State) (u : Group) : Prop :=
      fOpcode w = op → exec i s = .next (retire t g h u) ∧ (retire t g h u).mem.bytes = s.mem.bytes
    (((fSorder w).testBit 1 = true → engineOwes s g h.g.core = false) → ((fSorder w).testBit 0 = true → tileLoads s g h.g.core = false) →
      ∀ s', (if fSscope w < 2 then (s, true) else if fSscope w = 2 then fenceStores s h.g.core (fSorder w)
          else if (fSorder w).testBit 1 then sysRelease s h else wcFlush h.g.core (s.core h.g.core).wc s) = (s', true) →
        s'.mem.bytes = s.mem.bytes → done (.fence g w) 0x80 (if 2 ≤ fSscope w ∧ (fSorder w).testBit 0 then applyInv s' h.g.core else s')
        (if 2 ≤ fSscope w ∧ (fSorder w).testBit 0 then { h.t with fenced := true } else h.t)) ∧
    (storesOf s h.g.core = [] → tileQueued s g h.g.core 2 512 (linesInside a len) = false → (∀ v ∈ linesInside a len, (discardOk s n v (askOf h)).toBool = true) →
      heldLock s n 2 512 (linesInside a len) = false → done (.discard g w) 0x81 ((linesInside a len).foldl (fun s v => match translate s n v 1 with
        | .ok pa => discardLine (logWrite s n v) (some h.g.core) (pa / 512)
        | .error _ => s) s) h.t) ∧
    (touching = [] → done (.pinLlc g w) 0x82 s (h.t.setP (fTop3 w) (BitVec.allOnes 32))) ∧
    (∀ ls, rangeLines s n touching = some ls → touching ≠ [] → touching.any (donated s n) = false →
      let news := (ls.foldl (fun acc l => addNew l acc) []).filter fun l => !(s.mem.llm.any fun x => x.line == l && x.pinned)
      (pinOk s n news = true → ∀ t, pinLines n news s = some t →
        done (.pinLlc g w) 0x82 (t.addObj (Obj.pinned n) news.length) (h.t.setP (fTop3 w) (BitVec.allOnes 32))) ∧
      (pinOk s n news = false → done (.pinLlc g w) 0x82 (s.addObj (Obj.pinRefusals n) 1) (h.t.setP (fTop3 w) 0))) ∧
    (rangeLines s n touching = none → touching.any (donated s n) = false → done (.pinLlc g w) 0x82 (s.addObj (Obj.pinRefusals n) 1) (h.t.setP (fTop3 w) 0)) ∧
    done (.unpinLlc g w) 0x83 (touching.foldl (fun s v => match translate s n v 0 with
      | .ok pa => unpinLine n s (pa / 512)
      | .error _ => s) s) h.t ∧
    (fOpcode w = 0x84 → touching.any (donated s n) = false → ∃ t, exec (.pfDev g w) s = .next (retire t g h h.t) ∧ t.od = s.od ∧ t.mem.bytes = s.mem.bytes ∧
      ∀ m ∈ t.mem.miss, m ∈ s.mem.miss ∨ (m.slice = n ∧ ∃ v ∈ touching, ∃ pa, translate s n v 0 = .ok pa ∧ m.line = .dev (pa / 512)))

/-! ### The stoker -/

/-- R92, R96, R97, R100: the stoker instructions on a declared stream. -/
def Obligations.StokerInstructions : Prop :=
  ∀ (s : State) (g : GroupRef) (w : Word64) (h : Here), Runs s g w h → fStream w < h.l.streams →
    let n := fStream w
    let put (t : Stream) : State := putStream s h.l.ctx h.g.idx t
    let some? (r : Option (Nat × Nat)) : Group := takeResult h.t w r
    (∀ d, readDesc (h.t.sreg (fX27 w)).toNat (cellsGet h.g.spad (h.t.sreg (fX27 w)).toNat 64) = d →
      (h.t.sreg (fX27 w)).toNat + 64 ≤ h.l.spad → tileStores s g h.g.core = false → fOpcode w = 0xB0 →
        exec (.stkStart g w) s = .next (retire (putStream (stopStream s h.l.ctx h.g.idx n h.g.core) h.l.ctx h.g.idx
          { no := n, desc := d, full := 0, empty := d.slots, avail := if d.kind = 1 then List.range d.slots else [] }) g h h.t)) ∧
    (streamOf s g w = none → Retires s g w h (.stkTake g w) [0xB1] (some? none) ∧ Retires s g w h (.stkTakeAt g w) [0xB2] (some? none) ∧
      Retires s g w h (.stkWait g w) [0xB5] h.t) ∧
    (∀ t, streamOf s g w = some t → t.desc.bad = false →
      let open_ := takeable t
      let ended := streamEnded s h.l.ctx h.g.idx t
      (∀ k ∈ open_, (∀ j ∈ open_, k ≤ j) → (t.desc.kind = 1 → ended = false) → fOpcode w = 0xB1 →
        exec (.stkTake g w) s = .next (retire (put (takeSlot t k)) g h (some? (some (k % t.desc.slots, k))))) ∧
      (∀ k, open_.find? (fun j => j % 2 ^ 32 == (h.t.sreg (fX27 w)).toNat % 2 ^ 32) = some k → (t.desc.kind = 1 → ended = false) → fOpcode w = 0xB2 →
        exec (.stkTakeAt g w) s = .next (retire (put (takeSlot t k)) g h (some? (some (k % t.desc.slots, k))))) ∧
      ((open_ = [] ∨ t.desc.kind = 1) → ended = true →
        Retires s g w h (.stkTake g w) [0xB1] (some? none) ∧ Retires s g w h (.stkTakeAt g w) [0xB2] (some? none)) ∧
      (∀ k, t.held.find? (fun j => j % t.desc.slots == (h.t.sreg (fX27 w)).toNat % 64) = some k → gmmaQueued s g h.g.core = false →
        (t.desc.kind = 1 → t.empty ≠ 0 ∧ engineOwes s g h.g.core = false) → fOpcode w = 0xB3 → exec (.stkGive g w) s = .next (retire (put (if t.desc.kind = 1
          then { t with held := t.held.filter (fun j => j != k), full := t.full + 1, given := t.given ++ [k] }
          else { t with held := t.held.filter (fun j => j != k), empty := t.empty + 1 })) g h h.t)) ∧
      (t.desc.kind ≠ 1 ∨ ended = true → Retires s g w h (.stkWait g w) [0xB5] h.t)) ∧
    (fOpcode w = 0xB4 → exec (.stkStop g w) s = .next (retire (stopStream s h.l.ctx h.g.idx n h.g.core) g h h.t))

/-- R93, R96, R97, R99: the stoker finishes the next slot of a stream. A fill slot puts its bytes into the ring and turns an empty
token into a full one; a drain slot, after the core's stores and with all its pieces that were left written, does the reverse. -/
def Obligations.StokerSlotEvents : Prop :=
  ∀ (s : State) (ctx gang stream : Nat) (l : Launch) (g : Gang) (t : Stream), s.launch? ctx = some l → l.phase = .resident →
    l.killed = false → findGang l gang = some g → (s.core g.core).hung = false → findStream g stream = some t → t.desc.bad = false →
    let a : StkAt := { l := l, g := g, t := t }
    ringFault a t.work = none →
      (t.desc.kind ≠ 1 → mayFill t = true → ∀ s' n dim bs, fillData a s = .done s' (n, dim, bs) →
        exec (.stokerSlotFilled ctx gang stream) s = .next (finishFill a n dim bs s')) ∧
      (t.desc.kind = 0 → t.desc.srcFmt = 0 → mayFill t = true → ∀ s' bs,
        readPieces a (pieces t.desc t.pos t.desc.slotBytes) s = .done s' bs →
        exec (.stokerSlotFilled ctx gang stream) s = .next (finishFill a t.desc.slotBytes none (padTo t.desc.slotBytes bs) s')) ∧
      (t.desc.kind = 1 → t.desc.srcFmt = 0 → 0 < t.full → inLimit t t.work = true → t.work ∈ t.given →
        let data := cellsGet g.spad (slotAt t.desc t.work) t.desc.slotBytes
        let ps := (pieces t.desc t.pos t.desc.slotBytes).drop t.sent
        ∀ s0 s' s'', landAll s g.core = (s0, true) → writablePieces a ps s0 = .done s' () → writePieces a data ps s' = (s'', ps.length) →
          exec (.stokerSlotStored ctx gang stream) s = .next (finishDrain a t.desc.slotBytes s''))

/-! ### Matrix instructions -/

/-- R84, R144: a matrix instruction of a full group takes a place at the end of its core's queue of four, with the descriptor registers
as they stand. -/
def Obligations.MatrixInstructionsEnqueue : Prop :=
  ∀ (s : State) (g : GroupRef) (w : Word64) (h : Here), Runs s g w h → h.p.mask = BitVec.allOnes 32 →
    (s.core h.g.core).mq.length < 4 →
    let e : MatEnt := { g := g, word := w, aLo := h.t.sreg (fX21 w), aHi := h.t.sreg (fX21 w + 1), bLo := h.t.sreg (fX27 w),
                        bHi := h.t.sreg (fX27 w + 1), pc := h.p.pc }
    let queues (i : Instr) (op : Nat) : Prop := fOpcode w = op →
      exec i s = .next (retire (s.setCore { s.core h.g.core with mq := (s.core h.g.core).mq ++ [e] }) g h h.t)
    queues (.gmma g w) 0xC0 ∧ queues (.accZero g w) 0xC1 ∧ queues (.accLd g w) 0xC2 ∧ queues (.accSt g w) 0xC3

/-- R144: a matrix instruction whose active mask is not full raises cause 0x48 with INFO = active mask. -/
def Obligations.MatrixNeedsFullMask : Prop :=
  ∀ (s : State) (g : GroupRef) (w : Word64) (h : Here), Runs s g w h → h.p.mask ≠ BitVec.allOnes 32 →
    let faults (i : Instr) (op : Nat) : Prop := fOpcode w = op →
      exec i s = .next (faulted s h (groupFault h 0x48 h.p.mask 0 (BitVec.zeroExtend 64 h.p.mask)))
    faults (.gmma g w) 0xC0 ∧ faults (.accZero g w) 0xC1 ∧ faults (.accLd g w) 0xC2 ∧ faults (.accSt g w) 0xC3

/-- R84, R147, R149: the engine executes the first entry of a core's queue and takes it out. `acc.zero` writes zero to every element;
`gmma` writes to each element the k-blocks of its row of A and its row of B over the old value, or over zero; with the arithmetic trap on, an element
that raises invalid operation or overflow faults the instruction instead (R53, DEDUCED, log 22). -/
def Obligations.MatrixQueueExecutes : Prop :=
  ∀ (s : State) (core : Nat) (e : MatEnt) (rest : List MatEnt) (l : Launch) (g : Gang), (s.core core).hung = false →
    (s.core core).mq = e :: rest → s.launch? e.g.ctx = some l → onCores l = true → findGang l e.g.gang = some g →
    let a : MatAt := { l := l, g := g, e := e }
    let i := fTop3 e.word
    let done (t : State) : Prop := exec (.matrixQueueExecute core) s = .next (reapGangs (popMatrix (served t (.unit l.ctx core)) core) l.ctx)
    let da := tileDesc e.aLo e.aHi
    let db := tileDesc e.bLo e.bHi
    (fOpcode e.word = 0xC1 → done (putTile s a i (tileOfList (tileOf a i).base (List.replicate 4096 0)))) ∧
    (fOpcode e.word = 0xC0 → tileBad da = false → tileBad db = false → da.space = 0 → db.space = 0 → pairOk da.fmt db.fmt = true →
      spadFault a (operandRuns da (fKblk e.word) ++ operandRuns db (fKblk e.word)) = none →
      let old (m n : Nat) : Nat := if fZero e.word then 0 else (tileGet (tileOf a i) (64 * m + n)).toNat
      let rowA (m : Nat) := operandRow g.spad da (fKblk e.word) m
      let rowB (n : Nat) := operandRow g.spad db (fKblk e.word) n
      let raises (m n : Nat) : Prop := ∃ r ∈ gmmaRaises (decide (6 ≤ da.fmt)) (old m n) (rowA m) (rowB n), r.invalid = true ∨ r.overflow = true
      ((l.trap = true → ∀ m n, m < 64 → n < 64 → ¬ raises m n) → ∃ vs : List Nat, vs.length = 4096 ∧
        (∀ m n, m < 64 → n < 64 → vs.getD (64 * m + n) 0 = gmmaElem (decide (6 ≤ da.fmt)) (old m n) (rowA m) (rowB n)) ∧
        done ((putTile s a i (tileOfList (tileOf a i).base vs)).addObj (Obj.gmmaKblocks l.slice) (fKblk e.word))) ∧
      (l.trap = true → (∃ m n, m < 64 ∧ n < 64 ∧ raises m n) → ∃ c, (c = 0x4A ∨ c = 0x4B) ∧ exec (.matrixQueueExecute core) s =
        .next (reapGangs (popMatrix (raiseFault s l.ctx core (matFault a c 0 e.word)) core) l.ctx))) ∧
    (∀ t, fOpcode e.word = 0xC2 → doAccLd a s = .done t → done t) ∧ (∀ t, fOpcode e.word = 0xC3 → doAccSt a s = .done t → done t)

/-! ### Faults and the end of launches -/

/-- R80, R114, R118: a word of an unallocated opcode, or with a bad guard, raises cause 0x44. One with a code that its instruction does not accept
raises it for the lanes that act, and one that names a register or tile beyond the gang's allocation cause 0x46. -/
def Obligations.IllegalWordsFault : Prop :=
  ∀ (s : State) (g : GroupRef) (w : Word64) (h : Here), here? s g = some h → mayIssue s h = true → ahead s h = [] → fetchCheck s h = none →
    let m := actMask h.t h.p w
    let faults (cause : Nat) (lanes : LaneMask) : Prop := exec (.illegalInstruction g w) s = .next (faulted s h (groupFault h cause lanes 0 w))
    ((allocated (fOpcode w) = false ∨ badGuard w = true) → faults 0x44 h.p.mask) ∧
    (allocated (fOpcode w) = true → badGuard w = false → (badCode w = true ∨ misaligned w = true) → m ≠ 0 → faults 0x44 m) ∧
    (illegalWord w = false → beyond h.l.vregs h.l.tiles w = true → m ≠ 0 → faults 0x46 m)

/-- R102, R103, R105: the watchdogs of a launch report causes 0x4D and 0x4E; a report that arrives first is the one described and starts the
kill; a later one is counted. -/
def Obligations.FaultReportsKillTheLaunch : Prop :=
  (∀ (s : State) (ctx : Nat) (l : Launch), s.launch? ctx = some l → l.ctx = ctx → l.killed = false →
    let f (cause info : Nat) : FaultInfo := { cause := cause, source := 3, tick := s.tick, time := s.now, info := BitVec.ofNat 64 info }
    let reports (i : Instr) (x : FaultInfo) : Prop := ∃ (t : State) (m : Launch), exec i s = .next t ∧ t.launch? ctx = some m ∧
      m = { l with reports := l.reports ++ [x] } ∧ t.mem = s.mem ∧ t.od = s.od
    (onCores l = true → periodNs s ≤ idleTime s l → reports (.watchdogNoRetire ctx) (f 0x4D (idleTime s l / periodNs s))) ∧
    (l.frozenAt = none → l.waited = 0 → idleTime s l = s.now - l.since) ∧
    (onCores l = true → l.wdog ≠ 0 → l.wdog ≤ l.resTicks → reports (.watchdogLimit ctx) (f 0x4E l.wdog))) ∧
  ∀ (s : State) (ctx : Nat) (l : Launch), s.launch? ctx = some l → l.reports ≠ [] →
    (l.fault = none → ∃ (t : State) (m : Launch) (f : FaultInfo), exec (.faultReport ctx) s = .next t ∧ t.launch? ctx = some m ∧
      m.killed = true ∧ f ∈ l.reports ∧ m.fault = some f ∧ m.reports.length + 1 = l.reports.length ∧ m.faultCount = l.faultCount) ∧
    ∀ f, l.fault = some f → ∃ (t : State) (m : Launch), exec (.faultReport ctx) s = .next t ∧ t.launch? ctx = some m ∧
      m.fault = some f ∧ m.reports = l.reports.tail ∧ m.faultCount = min 0xFFFF (l.faultCount + 1)

/-- R103 to R106, R111: the kill of a launch of a LAUNCH command, and its ordinary end. With no store of the launch on its way, none in a
write-combining buffer of its cores or unacknowledged, no lock held and a fault record that can be written, the record is written and the command ends
CONTEXT_KILLED; a launch whose gangs have all ended ends OK. -/
def Obligations.LaunchesEnd : Prop :=
  ∀ (s : State) (ctx : Nat) (l : Launch) (c : Cmd), s.launch? ctx = some l → l.ctx = ctx → l.role = .command → l.reports = [] →
    l.locks = [] → (∀ x ∈ s.cores, ∀ e ∈ (s.core x.no).wc, e.g.ctx ≠ ctx ∧ x.no ∉ coresOf l.rows) →
    (∀ e ∈ s.stores, e.ctx ≠ ctx) → storesPending s ctx = false → s.launches.filter (fun x => x.ctx == ctx) = [l] →
    (∀ f, l.killed = true → l.stop = none → l.fault = some f → spanOk (discardWork s ctx) l.slice 2 l.faultRec.toNat 64 true = .ok () →
      exec (.launchKill ctx) s = .next (endLaunch (writeRun (discardWork s ctx) l.slice 2 l.faultRec.toNat (faultRecord l f)).1 l
        { status := stKilled, locks := l.freed })) ∧
    (l.phase = .resident → l.killed = false → l.gangs ≤ l.nextGang → l.live = [] →
      exec (.launchComplete ctx) s = .next (endLaunch s l { status := stOk, locks := l.freed })) ∧
    ∀ t f, findFlight (dropLaunch t l) l.ch l.seq = some c → endLaunch t l f = endCmd (dropLaunch t l) l.ch c f

/-! ### Launches and transfer commands -/

/-- R287, R296, R301: of the statuses that apply the first of Table 9.6a counts; where a completion slot is free, no frame of the command is
unacknowledged and the slot's page can be written, the end of a command writes its record with that status, raises COMPL_TAIL and COMPLETED
by one and takes the command out of its channel. -/
def Obligations.CompletionRecordWritten : Prop :=
  (∀ l : List Nat, firstStatus l = (([stKilled, stOverrun, stRemoteLost, stQuiesced].find? fun x => decide (x ∈ l)).getD
    (match l.find? fun x => x == stPartial || x == stRefused with
      | some x => x
      | none => ([stMissed, stRekindled].find? fun x => decide (x ∈ l)).getD stOk))) ∧
  ∀ (s : State) (ch pa : Nat) (c : Cmd) (f : Final), slotFree s ch 0 = true → unackedOf s ch c.seq = [] → s.getObj (Obj.notify ch) = 0 →
    let at_ := s.getObj (Obj.complBase ch) + 32 * (s.getObj (Obj.complTail ch) % s.getObj (Obj.complSlots ch))
    at_ % 32 = 0 → ch < 256 → spanOk s (chSliceOf s ch) 2 at_ 32 true = .ok () → translate s (chSliceOf s ch) at_ 1 = .ok pa → pa % 32 = 0 →
      let t := endCmd s ch c f
      let x := if c.op = 0x0C then measureEnd s (chSliceOf s ch) ch c (settledFinal c f) else (s, settledFinal c f)
      cellsGet t.mem.bytes pa 32 = recordBytes x.1 ch c (if x.2.raw then x.2.status else firstStatus (applying x.1 ch c x.2)) x.2 ∧
      (∀ a, a < pa ∨ pa + 32 ≤ a → SameByte s t a) ∧
      t.getObj (Obj.complTail ch) = (s.getObj (Obj.complTail ch) + 1) % 2 ^ 32 ∧
      t.getObj (Obj.completed ch) = (s.getObj (Obj.completed ch) + 1) % 2 ^ 64 ∧
      (∀ d ∈ (t.chan ch).flight, d.seq ≠ c.seq) ∧ (∀ d ∈ (t.chan ch).fetched, d.seq ≠ c.seq)

/-- R302, R303: a LAUNCH of no gangs completes at once; any other makes a launch with the resources that its record declares, whose
scalar registers s8 to s63 hold the payload. -/
def Obligations.LaunchCommandStarts : Prop :=
  ∀ (s : State) (r : CmdRef) (c : Cmd), Running s r [0x01] c → c.res = false → c.schedReserved = false →
    launchBad (c.slot.drop 16) = false → (∀ l ∈ s.launches, ¬ (l.ch = r.ch ∧ l.seq = r.seq)) →
    (c.field 40 4 = 0 → Ends (.launchCmd r) s s r.ch c { status := stOk }) ∧
    (c.field 40 4 ≠ 0 → exec (.launchCmd r) s = .next (enterLaunch s (launchOf s r.ch c .command (c.slot.drop 16) []))) ∧
    let l := launchOf s r.ch c .command (c.slot.drop 16) []
    l.gangs = c.field 40 4 ∧ l.groups = c.field 44 1 % 32 + 1 ∧ l.vregs = 8 * (c.field 45 1 % 32 + 1) ∧ l.spad = 16384 * c.field 46 1 ∧
      l.tiles = c.field 47 1 % 16 ∧ l.slice = chSliceOf s r.ch ∧
      ∀ k, k < 56 → sget (fun _ => 0) l.sinit (8 + k) = BitVec.ofNat 64 (fieldLe c.payload (8 * k) 8)

/-- R286: a MIX that asks for nothing completes at once; one whose records are sound keeps them and begins its tick's work. -/
def Obligations.MixStarts : Prop :=
  ∀ (s : State) (r : CmdRef) (c : Cmd), Running s r [0x0D] c → c.recs = [] → mixBad s r.ch c = false →
    (mixTokens c = 0 → mixSteps c = 0 → Ends (.mixCmd r) s s r.ch c { status := stOk }) ∧
    (¬ (mixTokens c = 0 ∧ mixSteps c = 0) → ∀ s' bs, readRecs s r.ch c = .ok (s', bs) →
      (mixTokens c ≠ 0 → c.field 16 8 % 64 = 0 ∧ launchBad (bs.take 48) = false) →
      (mixSteps c ≠ 0 → c.field 24 8 % 64 = 0 ∧ launchBad (bs.drop 48) = false) →
        exec (.mixCmd r) s = .next (mixTick (putFlight s' r.ch { c with recs := bs }) r.ch r.seq))

/-- R304, R307, R309: a transfer to device memory that lies in one sector, from one source sector, moves its bytes: byte i of the source goes to
byte i of the destination, the pattern repeats every eight bytes, the payload is written as it stands; with no flag it then ends OK. -/
def Obligations.TransfersMoveBytes : Prop :=
  ∀ (s : State) (r : CmdRef) (c : Cmd) (pa : Nat), Running s r [0x02, 0x03, 0x04, 0x0C] c → c.done = 0 → c.buf = [] →
    let x := xferOf c
    x.bad = false → x.flag = 0 → 0 < x.len → pieceLen x.dspace x.dst x.len = x.len → readLen x 0 = x.len → x.dspace = 2 → x.dst < 2 ^ 64 → unackedOf s r.ch r.seq = [] →
    let n := chSliceOf s r.ch
    let ask : Asker := .cmd r.ch c.seq
    let go (i : Instr) (op : Nat) (u : State) (bs : List Byte) : Prop := c.op = op →
      let src := putFlight (dropReads u (.cmd r.ch c.seq)) r.ch { c with buf := bs }
      translate src n x.dst 1 = .ok pa → spanOkBy ask src n 2 x.dst x.len true = .ok () →
        ∃ t d, exec i s = .next (endXfer t r.ch d { status := stOk, bytes := x.len }) ∧ d.seq = c.seq ∧ d.done = x.len ∧
          cellsGet t.mem.bytes pa x.len = bs ∧ ∀ a, a < pa ∨ pa + x.len ≤ a → SameByte src t a
    go (.fillCmd r) 0x03 s ((List.range x.len).map fun i => BitVec.ofNat 8 (x.src / 2 ^ (8 * (i % 8)) % 256)) ∧
    go (.inlineWrite r) 0x04 s (padTo x.len (c.payload.take x.len)) ∧
    ∀ src bs, x.sspace = 2 → readRunAs .sectors ask s n 2 (x.src % 2 ^ 64) x.len = .ok (src, bs) →
      go (.copyCmd r) 0x02 (served src ask) bs ∧ go (.measuredLoad r) 0x0C (served src ask) bs

/-- R304, R310: a transfer of no bytes without a flag ends OK, and a transfer never stops the machine but at an address that no tier
populates. -/
def Obligations.TransfersGoOn : Prop :=
  ∀ (s : State) (r : CmdRef) (c : Cmd), Running s r [0x02, 0x03, 0x04, 0x0C] c →
    let x := xferOf c
    (x.bad = false → x.len = 0 → c.done = 0 → x.flag = 0 → unackedOf s r.ch r.seq = [] →
      xfer s r.ch c = .next (endXfer s r.ch c { status := stOk, bytes := 0 })) ∧
    ((∃ t, xfer s r.ch c = .next t) ∨ xfer s r.ch c = .fault .absentAddress)

/-- R306, R308: WAIT completes with the word where its condition holds and else waits on; SIGNAL writes or adds to a word of a window of
this module; FENCE completes once it is dispatched. -/
def Obligations.WaitSignalFence : Prop :=
  ∀ (s : State) (r : CmdRef) (c : Cmd),
    (Running s r [0x05] c → waitBad c = false → ∀ s' bs, readRun s (chSliceOf s r.ch) (c.field 32 1 / 4 % 4) (c.field 16 8) 8 = .ok (s', bs) →
      let word := leNat bs
      let v := c.field 24 8
      let holds : Prop := (c.field 32 1 % 4 = 0 ∧ word = v) ∨ (c.field 32 1 % 4 = 1 ∧ word ≠ v) ∨ (c.field 32 1 % 4 = 2 ∧ v ≤ word) ∨
        (c.field 32 1 % 4 = 3 ∧ signedN 64 v ≤ signedN 64 word)
      (holds → Ends (.waitCmd r) s s' r.ch c { status := stOk, bytes := word }) ∧
      (¬ holds → exec (.waitCmd r) s = .next (putFlight s' r.ch { c with step := 1 })) ∧
      ((s.chan r.ch).flight.find? (fun d => d.op == 0x05 && d.step == 1 && d.final.isNone) = some c → holds →
        Ends (.waitReevaluate r.ch) s s' r.ch c { status := stOk, bytes := word })) ∧
    (Running s r [0x06] c → c.res = false → c.schedReserved = false → c.ext = 0 → c.field 32 1 / 2 = 0 → (c.slot.drop 33).any (· != 0) = false →
      c.field 16 8 % 8 = 0 → c.step = 0 → gClass (c.field 16 8) < 2 → gModule (c.field 16 8) = s.ownId →
      ∀ s', serveSignal s s.ownId (c.field 16 8) (c.field 32 1) (c.field 24 8) (.local_ (some r.ch)) = .done s' () →
        Ends (.signalCmd r) s s' r.ch c { status := stOk, bytes := 8 }) ∧
    (Running s r [0x07] c → c.res = false → c.schedReserved = false → c.ext = 0 → (c.slot.drop 16).any (· != 0) = false →
      Ends (.fenceCmd r) s (s.setChan { s.chan r.ch with fenceAt := some c.seq }) r.ch c { status := stOk })

/-- R299: a command with a reserved opcode goes on with unpredictable results: any status with any values that its slice may write. -/
def Obligations.ReservedCommandsGoOn : Prop :=
  ∀ (s : State) (r : CmdRef) (c : Cmd), findFlight s r.ch r.seq = some c → c.final = none → c.op = 0 ∨ 0x0E ≤ c.op →
    ∃ (t : State) (f : Final), exec (.reservedCommand r) s = .next (endCmd t r.ch c f) ∧ s.free < t.free ∧ f.status ∈ statusCodes


/-! ### The ember store -/

/-- R218, R219, R213, R224: the elements of a CONTEXT_MAP one after another. Each reads its handle, has its effect whole and writes its
result; after the last the command ends OK with the count, an element that is refused ends it with all ones as its result. -/
def Obligations.ContextMapElements : Prop :=
  ∀ (s : State) (r : CmdRef) (c : Cmd), Running s r [0x09] c → mapBad c = false →
    let n := chSliceOf s r.ch
    let ends (t : State) (c : Cmd) (st : Nat) : State := startMoves (endCmd t r.ch c { status := st, bytes := c.done }) (chSliceOf t r.ch)
    let elem (i : Instr) (op : Nat) (t : State) (d : Cmd) : Prop := emOp c = op →
      let v := putFlight (served t (.cmd r.ch c.seq)) r.ch d
      (d.done = emCount c → exec i s = .next (ends v d stOk)) ∧ (d.done < emCount c → exec i s = exec i v)
    let refuses (i : Instr) (op : Nat) (t : State) : Prop := emOp c = op → exec i s = .next (ends t c (if c.done = 0 then stRefused else stPartial))
    let next : Cmd := { c with done := c.done + 1 }
    let at_ (size : Nat) : Nat := arrayAt (emResult c) size c.done
    let put (t : State) (size : Nat) (bs : List Byte) : State := emWrite t n c (at_ size) bs
    (c.done = emCount c → ∀ p ∈ [(Instr.alloc r, 2), (Instr.refEntry r, 3), (Instr.freeEntry r, 4), (Instr.queryEntry r, 5), (Instr.setEntry r, 6)],
      emOp c = p.2 → exec p.1 s = .next (ends s c stOk)) ∧
    (c.done < emCount c → ∀ s' h, handleAt s n c = .ok (s', h) → moving s' n h = false → earlierOn s' n h c = false →
      let u := mapLookup s'
      let e := ctxEntry u n h
      let used : Prop := h < u.getObj (Obj.mapQuota n) ∧ e.state ≠ 0
      let able (size : Nat) : Prop := emSpan u n c (at_ size) size = .ok ()
      (used → able 4 → e.refs < 16777215 →
        elem (.refEntry r) 3 (put (putEntry u n h { e with refs := e.refs + 1 }) 4 (toLe 4 (e.refs + 1))) next) ∧
      (used → able 4 → 1 < e.refs → elem (.freeEntry r) 4 (put (putEntry u n h { e with refs := e.refs - 1 }) 4 (toLe 4 (e.refs - 1))) next) ∧
      (used → able 4 → e.refs ≤ 1 → e.state = 2 →
        elem (.freeEntry r) 4 (put (releaseStorage (putEntry u n h {}) n e.addr (entryBytes u n e) e.tier) 4 (toLe 4 0)) next) ∧
      (used → able 4 → e.refs ≤ 1 → e.state ≠ 2 → elem (.freeEntry r) 4 (put (putEntry u n h {}) 4 (toLe 4 0)) next) ∧
      (used → able 32 → elem (.queryEntry r) 5 (put u 32 (entryImage e)) next) ∧
      (used → elem (.setEntry r) 6 (put (putEntry u n h { e with
        deadline := bits (emArg c) 47 0, pin := if bitN (emArg c) 49 then bitN (emArg c) 48 else e.pin }) 0 []) next) ∧
      (¬ used → able 4 → refuses (.refEntry r) 3 (put u 4 (List.replicate 4 255)) ∧ refuses (.freeEntry r) 4 (put u 4 (List.replicate 4 255))) ∧
      (¬ used → able 32 → refuses (.queryEntry r) 5 (put u 32 (List.replicate 32 255))) ∧
      (¬ used → refuses (.setEntry r) 6 (put u 0 []))) ∧
    (c.done < emCount c → emSpan (mapLookup s) n c (at_ 4) 4 = .ok () →
      let u := mapLookup s
      let new := allocated1 (cmLayout c)
      (loHeads (layoutWord u n (cmLayout c)) = 0 → refuses (.alloc r) 2 (put u 4 (List.replicate 4 255))) ∧
      (loHeads (layoutWord u n (cmLayout c)) ≠ 0 → bitN (emArg c) 0 = false →
        (findFree u n 1 = none → refuses (.alloc r) 2 (put u 4 (List.replicate 4 255))) ∧
        ∀ b, findFree u n 1 = some b → elem (.alloc r) 2 (put (putEntry u n b new) 4 (toLe 4 b)) next) ∧
      (loHeads (layoutWord u n (cmLayout c)) ≠ 0 → bitN (emArg c) 0 = true → c.step = 0 → ∀ b, findFree u n (emCount c) = some b →
        elem (.alloc r) 2 (put (updFlight ((List.range (emCount c)).foldl (fun t i => putEntry t n (b + i) new) u) r.ch c.seq
          fun d => { d with step := b + 1 }) 4 (toLe 4 b)) { next with step := b + 1 }) ∧
      (loHeads (layoutWord u n (cmLayout c)) ≠ 0 → bitN (emArg c) 0 = true → c.step ≠ 0 →
        elem (.alloc r) 2 (put u 4 (toLe 4 (c.step - 1 + c.done))) next))

/-- R208, R215, R217, R219: DONATE and RECLAIM take a range whole or refuse it; LAYOUT writes the layout that no entry uses. -/
def Obligations.ContextMapWholeRanges : Prop :=
  ∀ (s : State) (r : CmdRef) (c : Cmd), Running s r [0x09] c → mapBad c = false → c.done = 0 →
    let n := chSliceOf s r.ch
    let ends (t : State) (c : Cmd) (st : Nat) : State := startMoves (endCmd t r.ch c { status := st, bytes := c.done }) (chSliceOf t r.ch)
    let one : Cmd := { c with done := 1 }
    let does (i : Instr) (op : Nat) (t : State) : Prop := emOp c = op → exec i s = .next (ends (putFlight (served t (.cmd r.ch c.seq)) r.ch one) one stOk)
    let refuses (i : Instr) (op : Nat) : Prop := emOp c = op → exec i s = .next (ends s c stRefused)
    let w := emArg c % 2 ^ 32
    let live : Bool := (s.slice n).entries.any fun p => p.2.state != 0 && p.2.layout == cmLayout c
    (pageRange c = false → refuses (.donate r) 0 ∧ refuses (.reclaim r) 1) ∧
    (pageRange c = true → donateGo n (emArg c / 2 ^ 21) (emList c) s = none → refuses (.donate r) 0) ∧
    (pageRange c = true → ∀ t, donateGo n (emArg c / 2 ^ 21) (emList c) s = some t → does (.donate r) 0 (recount t n)) ∧
    (pageRange c = true → reclaimGo n (emArg c / 2 ^ 21) (emList c) s = none → refuses (.reclaim r) 1) ∧
    (pageRange c = true → ∀ t, reclaimGo n (emArg c / 2 ^ 21) (emList c) s = some t → does (.reclaim r) 1 (recount t n)) ∧
    (loHeads w = 0 ∨ w < 2 ^ 17 → live = true ∨ 256 < loHeads w ∨ (loHeads w ≠ 0 ∧ (loKfmt w = 0 ∨ loVfmt w = 0)) → refuses (.layoutCmd r) 7) ∧
    (loHeads w = 0 ∨ w < 2 ^ 17 → live = false → loHeads w ≤ 256 → loHeads w = 0 ∨ (loKfmt w ≠ 0 ∧ loVfmt w ≠ 0) →
      does (.layoutCmd r) 7 (s.putObj (Obj.layout n (cmLayout c)) (w % 2 ^ 17)))

/-- R211, R220 to R223, R225: the block transactions of a CONTEXT_MOVE, each whole. ENCODE makes its entry STORED with the block that
its staging encodes to, DECODE writes the staged rows of a STORED entry and nothing for an EMPTY one, MIGRATE refuses an EMPTY one. -/
def Obligations.ContextMoves : Prop :=
  ∀ (s : State) (r : CmdRef) (c : Cmd), Running s r [0x0A] c →
    let n := chSliceOf s r.ch
    let ends (t : State) (c : Cmd) (st : Nat) : State := startMoves (endCmd t r.ch c { status := st, bytes := c.done }) (chSliceOf t r.ch)
    let rows : List (Instr × Nat) := [(.encode r, 0), (.decode r, 1), (.migrate r, 2), (.contextBlockTransaction r, emOp c)]
    let all (t : State) : Prop := ∀ p ∈ rows, emOp c = p.2 → exec p.1 s = .next t
    moveBad s n c = false →
    (c.done = emCount c → all (ends s c stOk)) ∧
    (c.done < emCount c →
      (∀ t, moveElem n c s = .ok t →
        let v := served t (.cmd r.ch c.seq)
        let d : Cmd := { (findFlight v r.ch c.seq).getD c with done := c.done + 1 }
        (c.done + 1 = emCount c → all (ends (putFlight v r.ch d) d stOk)) ∧
        (c.done + 1 < emCount c → exec (.contextBlockTransaction r) s = .next (putFlight v r.ch d))) ∧
      (∀ t, moveElem n c s = .refused t → all (ends t c (if c.done = 0 then stRefused else stPartial))) ∧
      (∀ k x, moveElem n c s = .stop (.cause k x) → all (endCmd s r.ch c { status := stKilled, bytes := c.done, cause := k })) ∧
      ∀ s' h, handleAt s n c = .ok (s', h) → moving s' n h = false → earlierOn s' n h c = false →
        let u := mapLookup s'
        let e := ctxEntry u n h
        let w := layoutWord u n e.layout
        let a := arrayAt (emResult c) 4 c.done
        let put (t : State) (v : Nat) : Elem := .ok (emWrite t n c a (toLe 4 v))
        let no : Elem := .refused (emWrite u n c a (toLe 4 0xFFFFFFFF))
        emSpan u n c a 4 = .ok () →
        (u.getObj (Obj.mapQuota n) ≤ h ∨ e.state = 0 → moveElem n c s = no) ∧
        (h < u.getObj (Obj.mapQuota n) → e.state = 1 → (emOp c = 1 → moveElem n c s = put u 0) ∧ (emOp c = 2 → moveElem n c s = no)) ∧
        (h < u.getObj (Obj.mapQuota n) → e.state = 2 → emOp c = 1 → ∀ u' bs, readPa u n e.addr (entryBytes u n e) = .ok (u', bs) →
          let ls := decodeRows c (loDim w) e.valid (decodeBlock e.kfmt e.vfmt (loHeads w) (loDim w) bs)
          rowsOk u' n c ls = .ok () → moveElem n c s = put (ls.foldl (fun t x => emWrite t n c x.1 x.2) u') e.valid) ∧
        (h < u.getObj (Obj.mapQuota n) → e.state ≠ 0 → e.refs ≤ 1 → loHeads w ≠ 0 → emOp c = 0 →
          let kf := if mvKfmt c = 0 then loKfmt w else mvKfmt c
          let vf := if mvVfmt c = 0 then loVfmt w else mvVfmt c
          let bytes := blockBytes kf vf (loHeads w) (loDim w)
          (roomFor u n (mvTier c) bytes = none → moveElem n c s = no) ∧
          ∀ place u' ps, roomFor u n (mvTier c) bytes = some place → reachPa u (bytes / 64) place.2 = .ok () →
            readPlanes n c (loDim w) (loHeads w) u 0 = .ok (u', ps) →
            let v := writePa (countSpecial u' n (ps.flatMap fun p => p.1 ++ p.2)) n place.2 (encodeBlock kf vf (loDim w) ps)
            let v' := putEntry v n h { e with state := 2, tier := place.1, kfmt := kf, vfmt := vf, valid := mvNpos c, addr := place.2 }
            moveElem n c s = put (if e.state = 2 then releaseStorage v' n e.addr (entryBytes v n e) e.tier else v') h))

/-- R227, R228: the boundary that completes HEAT_DECAY ticks makes a halving due, a halving that is due halves every heat, and an automatic
move that ends puts the block into its target tier, or gives up its storage's place where the entry is no longer STORED. -/
def Obligations.TieringFollowsHeat : Prop :=
  ∀ (s : State) (n : Nat),
    (s.getObj (Obj.heatDecay n) ≤ (s.slice n).heatTicks + 1 →
      ((countHeatTick s n).slice n).heatTicks = 0 ∧ ((countHeatTick s n).slice n).heatDue = (s.slice n).heatDue + 1) ∧
    ((s.slice n).heatTicks + 1 < s.getObj (Obj.heatDecay n) →
      ((countHeatTick s n).slice n).heatTicks = (s.slice n).heatTicks + 1 ∧ ((countHeatTick s n).slice n).heatDue = (s.slice n).heatDue) ∧
    (1 ≤ s.getObj (Obj.sState n) → 0 < (s.slice n).heatDue →
      ∃ t, exec (.heatDecay n) s = .next t ∧ (t.slice n).heatDue + 1 = (s.slice n).heatDue ∧ t.mem = s.mem ∧
        ∀ h, ctxEntry t n h = { ctxEntry s n h with heat := (ctxEntry s n h).heat / 2 }) ∧
    ∀ m, (s.slice n).moves.find? (·.started) = some m →
      let e := ctxEntry s n m.handle
      let w := layoutWord s n e.layout
      let old := entryBytes s n e
      let f := tierFmts s n e m
      let bytes := blockBytes f.1 f.2 (loHeads w) (loDim w)
      (e.state ≠ 2 → exec (.tieringMoveComplete n) s = .next (startMoves (dropMove s n m) n)) ∧
      (e.state = 2 → poisonedRun s e.addr old = false → ∀ a u bs, findRoom s n m.tier bytes = some a → reachPa s (bytes / 64) a = .ok () →
        readPa s n e.addr old = .ok (u, bs) →
        let v := countSpecial u n (changedVals e.kfmt e.vfmt f.1 f.2 (loHeads w) (loDim w) bs)
        let v := writePa v n a (recodeBlock e.kfmt e.vfmt f.1 f.2 (loHeads w) (loDim w) bs)
        let v := putEntry v n m.handle { e with tier := m.tier, kfmt := f.1, vfmt := f.2, addr := a }
        let v := (releaseStorage v n e.addr old e.tier).addObj (Obj.migrations n) 1
        let v := v.addObj (Obj.recompressions n) ((if f.1 = e.kfmt then 0 else 1) + (if f.2 = e.vfmt then 0 else 1))
        exec (.tieringMoveComplete n) s = .next (startMoves (dropMove v n m) n))

/-! ### Collectives -/

/-- R61, R346 to R349: a COLLECTIVE takes its group slot and hands over its contributions, or first the headers of its exponent pass; a
step whose contributions are all there writes its range of DST, and the command ends after its last step; a member waits for COLL_WAIT
ticks at most. A BARRIER goes up the tree once everything below has arrived. -/
def Obligations.CollectivesRunStepByStep : Prop :=
  (∀ (s s1 s2 : State) (r : CmdRef) (c : Cmd) (bs tab : List Byte), Running s r [0x08] c →
    s.net.colls.find? (fun x => x.ch == r.ch && x.seq == r.seq) = none → c.res = false → c.schedReserved = false → c.ext = 0 →
    (c.slot.drop 24).any (· != 0) = false → c.field 16 8 % 64 = 0 →
    let n := chSliceOf s r.ch
    let ask : Asker := .cmd r.ch r.seq
    readRunAs .sectors ask s n 2 (c.field 16 8) 64 = .ok (s1, bs) →
    let g := fieldLe bs 4 1 % 64
    let size := s1.getObj (Obj.gSize g)
    let rows : List (Instr × Nat) := [(.allReduce r, 0), (.reduceCmd r, 1), (.broadcastCmd r, 2), (.reduceScatter r, 3), (.allGather r, 4),
      (.allToAll r, 5)]
    (s1.getObj (Obj.gSlice g) ≠ n ∨ size = 0 ∨ size ≤ s1.getObj (Obj.gRank g) →
      ∀ p ∈ (Instr.barrierCmd r, 6) :: rows, exec p.1 s = .next (endCmd s1 r.ch c { status := stRefused })) ∧
    (s1.getObj (Obj.gSlice g) = n → size ≠ 0 → s1.getObj (Obj.gRank g) < size → collBad bs = false → collLoose bs size = false →
      s1.getObj (Obj.gBusy g) = 0 → readRunAs .sectors ask s1 n 2 (s1.getObj (Obj.gTable g)) (4 * size) = .ok (s2, tab) →
      tableBad tab = false → s2.coll? g = none →
      let x0 := collOf s2 r.ch c bs tab
      let x := { x0 with heads := !(twoPass s2 x0) }
      let gseq := sput (fun _ => 0) s2.net.gseq g (x.cseq + 1)
      let u := (({ s2 with net := { s2.net with gseq := gseq } }).setColl x).putObj (Obj.gBusy g) 1
      (∀ p ∈ rows, fieldLe bs 0 1 % 16 = p.2 →
        (collSteps x = 0 → x.flag = 0 → unackedOf u r.ch r.seq = [] →
          exec p.1 s = .next (endColl u x c { status := stOk, bytes := c.done })) ∧
        (0 < collSteps x → sendsOnly x = false → x.heads = true → ∀ v, sendStep u x [] = .ok v →
          exec p.1 s = .next (served (v.setColl { x with sent := true }) ask)) ∧
        (0 < collSteps x → x.heads = false → ∀ f v0 v hb, collFmt x.dtype = some f → ownHeads f x (List.range (collSizeOf x)) u = .ok (v0, hb) →
          sendHeads v0 x hb = .ok v →
          let v' := served (v.setColl { x with heads := true }) ask
          twoPass v' { x with heads := true } = true → headsHere v' { x with heads := true } = none → exec p.1 s = .next v')) ∧
      (fieldLe bs 0 1 % 16 = 6 → (∀ y ∈ barrierHere u (barrierId x) x.cseq, y.flag = 0) →
        ∃ t, exec (.barrierCmd r) s = .next t ∧ exec (.barrierCmd r) s = barrierTry u (barrierId x) x.cseq))) ∧
  (∀ (s : State) (id seq q : Nat), (barrierHere s id seq).any (·.sent) = false → barrierReady s id seq = true →
    (childPorts s).all (fun p => s.net.barriers.contains (id, seq, p)) = true → upPort s = some q → ∃ t,
      barrierTry s id seq = .next (sendDraft t q 0x07 { seq := 0, origin := t.ownId, arg0 := id, arg1 := seq })) ∧
  ∀ (s : State) (g : Nat) (x : Coll) (c : Cmd), s.coll? g = some x → findFlight s x.ch x.seq = some c → c.final = none →
    let n := chSliceOf s x.ch
    let len := (stepHi x x.step - stepLo x x.step) * collSize x.dtype
    (s.getObj Obj.collWait ≠ 0 → s.getObj Obj.collWait ≤ x.ticks →
      exec (.collectiveWaitExpiry g) s = .next (endColl s x c { status := stRemoteLost, bytes := c.done })) ∧
    (x.op ≠ 6 → x.sent = true → sendsOnly x = false → x.step + 1 = collSteps x → x.flag = 0 → unackedOf s x.ch x.seq = [] →
      ∀ cs bs, gathered s x = some cs → stepResult s x cs = some bs → spanOkBy (.cmd x.ch x.seq) s n 2 (stepAddr x) len true = .ok () →
        ∃ t d y, exec (.collectiveStepStart g) s = .next (endColl t y d { status := stOk, bytes := c.done + len }) ∧
          t.mem.bytes = (writeRunAs .sectors none (.cmd x.ch x.seq) s n 2 (stepAddr x) bs).1.mem.bytes ∧ d = { c with done := c.done + len } ∧
          y = { x with step := x.step + 1, heads := y.heads, sent := false, ticks := 0 })

/-! ### Fetching, dispatch and ticks -/

/-- R293 to R295, R300: COMMAND_FETCH takes the command word and the slots at FETCH and moves FETCH past them. R274, R299: DISPATCH starts
the first head of a queue, or refuses one whose DCLASS is not granted. -/
def Obligations.CommandsFetchedAndDispatched : Prop :=
  (∀ (s s1 s2 s3 : State) (ch : Nat) (wb slot payload : List Byte), ch < 256 → mayFetch s ch = true → areasBad s ch = false →
    let n := chSliceOf s ch
    let f := s.getObj (Obj.fetch ch)
    let slots := s.getObj (Obj.ringSlots ch)
    ((s.chan ch).tail + 2 ^ 32 - f) % 2 ^ 32 ≤ slots →
    readRun s n 2 (s.getObj (Obj.cwordBase ch) + 8 * (f % slots)) 8 = .ok (s1, wb) →
    readRun s1 n 2 (s.getObj (Obj.ringBase ch) + 64 * (f % slots)) 64 = .ok (s2, slot) →
    let w := leNat wb
    readExt s2 n ch (f + 1) (bits w 10 8) = .ok (s3, payload) →
    let c : Cmd := { seq := f, op := bits w 7 0, ext := bits w 10 8, serial := bitN w 11, tag := bits w 63 32, res := bits w 31 12 != 0,
                     slot := slot, payload := payload, relTime := s3.now, chunk := s3.getObj (Obj.chunkTokens n) }
    exec (.commandFetch ch) s = .next (takeCommand (s3.putObj (Obj.fetch ch) ((f + 1 + bits w 10 8) % 2 ^ 32)) ch c)) ∧
  ∀ (s : State) (r : Resource) (ch : Nat) (c : Cmd), resourceFree s r = true → (nextHead s r).2 = some (ch, c) →
    let u := (nextHead s r).1
    let x := u.chan ch
    ((u.getObj (Obj.sDclasses (chSliceOf u ch))).testBit c.dclass = false →
      exec (.dispatch r) s = .next (endCmd u ch c { status := stRefused })) ∧
    ((u.getObj (Obj.sDclasses (chSliceOf u ch))).testBit c.dclass = true →
      exec (.dispatch r) s = .next ((({ u with nextOrd := u.nextOrd + 1 }).setChan
        { x with fenceAt := if c.serial then some c.seq else x.fenceAt, fetched := x.fetched.drop 1, flight := x.flight ++ [{ c with ord := u.nextOrd }] }).addObj (Obj.started ch) 1))

/-- R261, R277, R278, R282: the boundary of a tick and of a granule, the end of a save and of a restore, and the stop of a command that
overruns by a tick period. -/
def Obligations.TicksGranulesAndSlicing : Prop :=
  ∀ (s : State),
    (5 ≤ s.getObj Obj.moduleState → ∃ t, exec .tickBoundary s = .next t ∧
      (enabledSets s = [] → liveSlices s = [] → s.net.period = [] → s.stores = [] → (∀ x ∈ s.chans, x.notifyDue = false) →
        t.tick = (s.tick + 1) % 2 ^ 48 ∧ t.getObj Obj.tickStart = s.getObj Obj.tickStart + periodNs s ∧
          t.now = max s.now (s.getObj Obj.tickStart + periodNs s) ∧ t.granule = 0 ∧ t.mem = s.mem)) ∧
    (s.getObj Obj.moduleState = 5 → (s.granule + 1) * 10000 < periodNs s → ∃ t, exec .granuleBoundary s = .next t ∧
      (liveSlices s = [] → t.granule = s.granule + 1 ∧ t.now = max s.now (s.getObj Obj.tickStart + (s.granule + 1) * 10000) ∧ t.mem = s.mem)) ∧
    (∀ ctx l, s.launch? ctx = some l → l.killed = false →
      (l.phase = .saving → l.reports = [] → loadsPending s ctx = false → (∀ c ∈ s.cores, ∀ e ∈ c.mq, e.g.ctx ≠ ctx) →
        ∀ u k, storesDone s ctx = (u, true) → (dropFills u ctx).launch? ctx = some k → k.reports = [] →
        let v := (dropFills u ctx).setLaunch { k with phase := .saved, since := u.now - k.since, live := k.live.map settledGang }
        exec (.saveComplete ctx) s = .next (startSlice (placeSlice v k.slice) k.slice)) ∧
      (l.phase = .restoring →
        let v := placeAll (s.setLaunch { l with phase := .resident, granules := 0 }) ctx
        exec (.restoreComplete ctx) s = .next ((((v.launch? ctx).map (·.live)).getD []).foldl (fun v g => applyInv v g.core) v))) ∧
    ∀ r c, findFlight s r.ch r.seq = some c → c.final = none → overrunDue s r.ch c = true →
      s.net.colls.find? (fun x => x.ch == r.ch && x.seq == r.seq) = none →
      let n := chSliceOf s r.ch
      let mine (l : Launch) : Bool := l.ch == r.ch && l.seq == r.seq
      let u := (s.launches.filter mine).foldl clearDebt (s.addObj (Obj.overruns n) 1)
      exec (.overrunStop r) s = .next (stopCommand { u with
        launches := mapIf mine (fun l => { l with overAt := none, overrun := 0 }) u.launches } r.ch c stOverrun)

/-! ### Lock sets, banking and rekindle -/

/-- R283, R359, R362, R363, R366, R367, R370, R372: a member's vote, BANK, the parity after a seal, the before-image that a first write
waits for, a rollback with its restore, the end of the wait for a lost member, and the maintenance point. -/
def Obligations.LockSetsBankAndRollBack : Prop :=
  ∀ (s : State) (k : Nat), k < 8 →
    (s.getObj (Obj.lsEnable k) = 1 → s.getObj Obj.moduleState = 5 → (s.lockSet k).mine = none →
      let B := (s.tick + 1) % 2 ^ 48
      let v := ownVote s k B
      let late := v.ready && intervalDue s k (B - s.getObj (Obj.lsShift k)) && !(setIdle s k)
      let u := if late then s.addObj (Obj.banksDeferred k) 1 else s
      exec (.voteClose k) s = .next (tryVotes (updSet u k fun x => { x with mine := some v, outcome := none }) k)) ∧
    (∀ r c, Running s r [0x0B] c → c.res = false → c.schedReserved = false → c.ext = 0 → (c.slot.drop 16).any (· != 0) = false →
      (lsOf s r.ch = none → Ends (.bankCmd r) s s r.ch c { status := stRefused }) ∧
      (lsOf s r.ch ≠ none → exec (.bankCmd r) s = .next s) ∧
      ∀ b : Nat, (s.chan r.ch).fetched = [] → (s.chan r.ch).flight = [c] →
        finishBanks s b r.ch = endCmd s r.ch c { status := stOk, bytes := b }) ∧
    ((s.lockSet k).parityDone = false → setFrozen s k = false → ∀ b bs, (s.lockSet k).seals = b :: bs →
      exec (.parityUpdateComplete k) s = .next (confirmBank (updSet s k fun x => { x with parityDone := true, parity := parityAll s k b }) k)) ∧
    (∀ n page rest pa, s.bank.waiting = (n, page) :: rest →
      let u : State := { s with bank := { s.bank with waiting := rest } }
      pageBase u n page = some pa → pageFrozen u pa = false →
        let lacks (j : Nat) : Bool := !((u.lockSet j).images.any fun i => i.slice == n && i.page == page && some i.tick == (u.lockSet j).seals.head?)
        let v := logWrite (((bankersOf u n).filter lacks).foldl (fun s j => takeImage s j n page pa) u) n (page * 65536)
        (regionClash v n = false → exec (.beforeImageCopy n page) s = .next v) ∧
        (regionClash v n = true → exec (.beforeImageCopy n page) s = .next (unpredictable v n)) ∧
        (65536 ≤ reserveLeft u → ∃ i, (takeImage u k n page pa).lockSet k = { u.lockSet k with images := (u.lockSet k).images ++ [i] } ∧
          i.page = page ∧ i.slice = n ∧ i.bytes = pageCells u pa ∧ i.marks = pageMarks u pa) ∧
        (reserveLeft u < 65536 → takeImage u k n page pa = u.putObj (Obj.unprotected k) 1)) ∧
    (s.getObj (Obj.lsEnable k) = 1 → ∀ cls, 1 ≤ cls → cls ≤ 4 → s.getObj (Obj.lsFailed k) ≠ 1 →
      let f : DraftFrame := { seq := 0, origin := s.ownId, arg0 := s.getObj (Obj.lsId k), arg1 := (s.lockSet k).seals.headD 0, arg2 := cls,
                              arg3 := s.ownId }
      exec (.rollbackDetect k cls) s = .next (beginRollback (floodDraft s 0x0A f none) k cls s.ownId f.arg1)) ∧
    (∀ rb, (s.lockSet k).rb = some rb → rb.restored = false → heldImages s k = [] → setFrozen s k = false →
      (rebuildLines s (restoreImages s k) k).getObj Obj.moduleState ≠ 6 →
      ∃ t, exec (.restoreCompleteRollback k) s = .next t ∧ (t.lockSet k).images = [] ∧ (t.lockSet k).parityDone = true ∧
        (t.lockSet k).seals = [(s.lockSet k).seals.getLast?.getD 0] ∧ (t.lockSet k).rb = some { rb with restored := true, restoredAt := upNow s, locks := [] }) ∧
    ((s.lockSet k).waitMember ≠ none →
      (rejoinOver s k = true → exec (.rejoinWaitExpiry k) s = .next (failLockSet s k)) ∧
      ((s.lockSet k).rb = none → exec (.rejoinWaitExpiry k) s = .next s) ∧
      ∀ rb, (s.lockSet k).rb = some rb → upNow s < rb.restoredAt + 1000000 * s.getObj (Obj.rejoinWait k) → exec (.rejoinWaitExpiry k) s = .next s) ∧
    (∀ t, s.bank.maintSince = some t → t + 1000000000 ≤ upNow s → (∀ j ∈ enabledSets s, (s.lockSet j).mine = none) →
      exec .maintenancePoint s = .next (maintain (s.addObj Obj.maintPoints 1)))

/-! ### The network -/

/-- R335, R336: a frame of another EtherType is none of the draft's; a draft frame acts in its turn on its link; a copy is discarded, one
beyond a gap is held, counted and asked for, again every 20 µs. -/
def Obligations.DraftFramesInOrder : Prop :=
  ∀ (s : State) (q : Nat) (f : DraftFrame), q < 64 → (s.port q).up = true →
    (s.forced Obj.draftEthertype ≠ f.ether → exec (.hello q f) s = .next s ∧ exec (.elect q f) s = .next s ∧ exec (.assign q f) s = .next s ∧
      exec (.align q f) s = .next s ∧ exec (.vote q f) s = .next s ∧ exec (.outcome q f) s = .next s ∧ exec (.barrierUp q f) s = .next s ∧
      exec (.barrierDown q f) s = .next s ∧ exec (.periodFrame q f) s = .next s ∧ exec (.rollback q f) s = .next s ∧
      exec (.lostFrame q f) s = .next s ∧ exec (.draftNak q f) s = .next s) ∧
    (s.forced Obj.draftEthertype = f.ether →
    let p := s.port q
    let u := s.setPort { p with rxSeq := (p.rxSeq + 1) % 65536, gap := false }
    let acts (i : Instr) (t : State) : Prop := f.seq = p.rxSeq → p.rxSeq < 65536 → p.heldDraft = [] → exec i s = .next t
    let rows : List (Instr × Nat) := [(.hello q f, 1), (.elect q f, 2), (.assign q f, 3), (.align q f, 4), (.vote q f, 5), (.outcome q f, 6),
      (.barrierUp q f, 7), (.barrierDown q f, 8), (.periodFrame q f, 9), (.rollback q f, 10), (.lostFrame q f, 11), (.draftNak q f, 12)]
    acts (.hello q f) (actHello u q f) ∧ acts (.elect q f) (actElect u q f) ∧ acts (.assign q f) (actAssign u q f) ∧
    acts (.align q f) (actAlign u q f) ∧ acts (.vote q f) (actVote u q f) ∧ acts (.outcome q f) (actOutcome u q f) ∧
    acts (.periodFrame q f) (actPeriod u q f) ∧ acts (.rollback q f) (actRollback u q f) ∧ acts (.lostFrame q f) (actLost u q f) ∧
    acts (.draftNak q f) (actNak u q f) ∧
    (f.seq = p.rxSeq → p.rxSeq < 65536 → p.heldDraft = [] → (∀ x ∈ barrierHere s f.arg0 f.arg1, x.flag = 0) →
      (∃ t, exec (.barrierUp q f) s = .next t) ∧ ∃ t, exec (.barrierDown q f) s = .next t) ∧
    (∀ x ∈ rows, 32768 ≤ seqAhead f.seq p.rxSeq → exec x.1 s = .next s) ∧
    (∀ x ∈ rows, 0 < seqAhead f.seq p.rxSeq → seqAhead f.seq p.rxSeq < 256 → p.heldDraft = [] →
      let v := (s.setPort { p with heldDraft := [(x.2, f)], gap := true }).addObj (Obj.draftDoubleLoss (q / 4)) (seqAhead f.seq p.rxSeq)
      exec x.1 s = .next (if p.gap then v else sendDraftNak v q)) ∧
    (p.gap = true → exec (.draftNakRetry q) s = .next (sendDraftNak s q)))

/-- R260, R263, R264, R319, R320, R333, R334, R339, R341, R345, R470: discovery and time as the ports' events drive them. A neighbour that is
lost leaves its port, a port comes up and goes down, alignment makes the module LOCKED and JOINED, holdover ends FREE, routes with a
valid alternate stay. -/
def Obligations.PortsTimeAndRoutes : Prop :=
  ∀ (s : State),
    (takesPart s = true → s.getObj Obj.dupId ≠ 1 → s.getObj Obj.moduleState = 4 ∨ s.getObj Obj.moduleState = 5 →
      (s.getObj Obj.discState = 5 → isRoot s = false → livePorts s ≠ [] → exec .joinedEntry s = .next
        (((s.putObj Obj.alignState 1).putObj Obj.discState 6).putObj Obj.moduleState 5)) ∧
      (s.getObj Obj.discState = 3 → candidate s = true → ∃ t, exec .joinedEntry s = .next t ∧ t.getObj Obj.moduleState = 5 ∧
        t.getObj Obj.discState = 6 ∧ t.getObj Obj.alignState = 1)) ∧
    (s.getObj Obj.moduleState = 4 ∨ s.getObj Obj.moduleState = 5 →
      let u := (livePorts s).foldl sendAlign s
      exec .alignExchange s = .next (if s.getObj Obj.moduleState = 5 ∧ isRoot u = true then lateJoin u else u)) ∧
    (s.getObj Obj.alignState = 2 → s.net.holdSince + 1000 * s.getObj Obj.holdoverLimit < s.now → ∃ t, exec .holdoverExpiry s = .next t ∧
      (enabledSets s = [] → t = (s.putObj Obj.alignState 0).addObj Obj.alignLosses 1)) ∧
    (∀ q m, (s.port q).neighbour = some m → ∃ t, exec (.neighbourLoss q) s = .next t ∧
      (enabledSets s = [] → s.getObj Obj.rootId ≠ m → (t.port q).neighbour = none ∧ m ∈ t.net.lost)) ∧
    (∀ q, q < 64 → (s.port q).up = true → ∃ t, exec (.portDown q) s = .next t ∧ (t.port q).up = false) ∧
    (∀ q, q < 64 → 3 ≤ s.getObj Obj.moduleState → (s.port q).up = false → q % 4 < modePorts (s.forced (Obj.portMode (q / 4))) →
      ∃ t, exec (.portUp q) s = .next t ∧ (t.port q).up = true) ∧
    (∀ rs, ∃ t, exec (.routeRecompute rs) s = .next t ∧ ∀ m, m = s.ownId ∨ bitN (sget (fun _ => 0) s.net.routes m) 14 = true →
      sget (fun _ => 0) t.net.routes m = sget (fun _ => 0) s.net.routes m) ∧
    (∀ q (pfx iid : Word64), q ≤ 64 → ∃ t, exec (.neighbourDiscoveryMessage q pfx iid) s = .next t ∧
      (q < 64 → (s.port q).up = true → pfx.toNat = s.forced Obj.fabricPrefix → iid.toNat = s.ownId + q * 2 ^ 18 → t = s.send (.nd q (vlanTag s))) ∧
      (q < 64 → (s.port q).up = false → t = s)) ∧
    (∀ time, s.forced Obj.ptpEnable ≠ 1 → exec (.ptpMessage time) s = .next s) ∧
    (∀ time, s.forced Obj.ptpEnable = 1 → s.getObj Obj.moduleState = 4 → s.net.timeSet = false → candidate s = true →
      exec (.ptpMessage time) s = .next { s with net := { s.net with ptp := some ((time : Int) - s.now) } }) ∧
    (∀ time, s.getObj Obj.moduleState = 5 ∨ (s.getObj Obj.moduleState = 4 ∧ s.net.timeSet = true) →
      (isRoot s = false → exec (.ptpMessage time) s = .next s) ∧
      (s.forced Obj.ptpEnable = 1 → isRoot s = true → ∃ t, exec (.ptpMessage time) s = .next t ∧ t.now = s.now ∧
        t.net = { s.net with slew := (time : Int) - s.now } ∧ t.getObj Obj.ptpOffset = (((s.now : Int) - time) % 2 ^ 64).toNat)) ∧
    ∀ q, q < 64 → (s.port q).up = true → ∀ pause, ∃ t, exec (.pfcFrame q pause) s = .next t ∧ (t.port q).paused = pause

/-- R314, R321, R323 to R327: transport frames are performed in PSN order and acknowledged, a gap draws one NAK, a frame that comes again
is acknowledged again; acknowledgements free what was sent, a NAK and a timeout send it again, a path given up is reset. -/
def Obligations.TransportFrames : Prop :=
  (∀ (s u : State) (q : Nat) (f : TFrame) (p : PathCtx) (s' : State), q < 64 → (s.port q).up = true → forTransport s f = true →
    goodFrame f = true → linkCheck s q f = (s', true) →
    let rows : List (Instr × Nat) := [(.writeFrame q f, 0), (.readReq q f, 1), (.readResp q f, 2), (.signalFrame q f, 5), (.collFrame q f, 6)]
    (peerPath s' f.src = some (u, p) →
      (2 ^ 31 ≤ psnAhead f.psn p.expect → ∀ x ∈ rows, exec x.1 s = .next
        (if f.ackReq || decide (16 ≤ p.owed + 1) then ackNow (u.setPath { p with owed := p.owed + 1 }) p.no else u.setPath { p with owed := p.owed + 1 })) ∧
      (0 < psnAhead f.psn p.expect → psnAhead f.psn p.expect < 2 ^ 31 → p.held = [] → p.nakked = false → ∀ x ∈ rows,
        let w := sendAck (u.setPath { p with held := [{ ty := x.2, f := f }], nakked := true }) p 4 p.expect false
        exec x.1 s = .next (if f.ackReq then ackNow w p.no else w)) ∧
      (f.psn = p.expect → p.expect < 2 ^ 32 → p.held = [] → ∀ x ∈ rows, ∀ v ws p',
        perform (u.setPath { p with held := [{ ty := x.2, f := f }] }) p.dst { ty := x.2, f := f } = .done v ws → workOf ws = [] →
        v.path? p.no = some p' → p'.held = [{ ty := x.2, f := f }] →
        let w := v.setPath { p' with expect := (p'.expect + 1) % 2 ^ 32, held := [], owed := p'.owed + 1, nakked := false, sawCe := p'.sawCe || f.ece }
        exec x.1 s = .next (if f.ackReq || decide (16 ≤ p'.owed + 1) then ackNow w p.no else w))) ∧
    (pathTo s' f.src = some p → s'.path? p.no = some p →
      let v := s'.setPath { p with used := s'.now }
      let kept (psn : Nat) : PathCtx :=
        { p with used := s'.now, unacked := p.unacked.filter fun x => decide (psnAhead x.f.psn psn < 2 ^ 31) }
      let freed (psn : Nat) : List FrameFor := (p.unacked.filter fun x => decide (2 ^ 31 ≤ psnAhead x.f.psn psn)).map (·.who)
      (workOf (freed f.ackPsn) = [] → exec (.ackFrame q f) s = .next
        (if f.ece then halveRate (v.setPath (kept f.ackPsn)) (kept f.ackPsn) else v.setPath (kept f.ackPsn))) ∧
      (f.aux ≠ 0xFFFFFFFF → workOf (freed f.aux) = [] → exec (.nakFrame q f) s = .next (resend (v.setPath (kept f.aux)) (kept f.aux))))) ∧
  (∀ (s : State) (n : Nat) (p : PathCtx), s.path? n = some p →
    (p.held = [] → 0 < p.owed → exec (.ackTimer n) s = .next (ackNow s n)) ∧
    (p.unacked ≠ [] → exec (.retransmitTimeout n) s = .next (resend s p)) ∧
    (p.unacked ≠ [] → workOf (p.unacked.map (·.who)) = [] → s.net.reads = [] →
      (∀ x ∈ p.unacked, ∀ ch, chanOfFrame s x.who = some ch → lsOf s ch = none) →
      ∃ t, exec (.transportTimeout n) s = .next t ∧ t.path? n = some { no := n, dst := p.dst, used := s.now }) ∧
    (p.rate < 64 → exec (.eceRecovery n) s = .next (s.setPath { p with rate := p.rate + 1 })) ∧
    (p.unacked = [] → p.held = [] → p.owed = 0 → p.used + 1000000000 ≤ s.now → ∃ t, exec (.pathContextFree n) s = .next t ∧ t.path? n = none)) ∧
  (∀ (s : State) (core : Nat) (e : WcEnt), e ∈ (s.core core).wc → (∀ d ∈ (s.core core).wc, d.line = e.line → d = e) →
    exec (.wcIdleSend core e.line) s = .next (wcSend s core e).1) ∧
  ∀ (s : State) (q : Nat) (f : TFrame), q < 64 → (s.port q).up = true →
    let p := s.port q
    (forTransport s f = true → goodFrame f = true → exec (.linkAck q f) s = .next (drainTx q p.txq.length (s.setPort { p with
      replay := p.replay.filter fun x => decide (seqAhead x.1 f.aux < 32768) && x.1 != f.aux % 65536 }))) ∧
    (forTransport s f = true → goodFrame f = true → let left := p.replay.filter fun x => decide (seqAhead x.1 f.aux < 32768)
      exec (.linkNak q f) s = .next (left.foldl (fun s x => s.send (.trans q x.2.1 x.2.2.1 x.2.2.2))
        ((s.setPort { p with replay := left }).addObj (Obj.llrReplays (q / 4)) 1))) ∧
    (∀ m, p.neighbour = some m →
      (linkRetry s q m = true → exec (.linkAckTimer q) s = .next
        (if p.rxNak then sendLink s q 9 p.rxLseq else sendLink s q 8 ((p.rxLseq + 65535) % 65536))) ∧
      (linkRetry s q m = false → exec (.linkAckTimer q) s = .next s)) ∧
    (∀ dst ty s', dst ≠ s.ownId → linkCheck s q f = (s', true) → ty ≠ 8 → ty ≠ 9 →
      (routeOf s' dst = none ∨ f.ip.hops ≤ 1 → exec (.frameForward q dst ty f) s = .next s') ∧
      (routeOf s' dst ≠ none → 1 < f.ip.hops → exec (.frameForward q dst ty f) s = .next
        ((emit s' dst ty { f with ip := { f.ip with hops := f.ip.hops - 1 } }).addObj Obj.forwarded 1))) ∧
    (∀ ty, 10 ≤ ty → ty < 16 → exec (.transportReservedType ty) s = .next (s.addObj Obj.crcDrops 1))

/-- R326, R328 to R330, R383: a ready queue pair takes the packet that is next and acknowledges it once it is performed; a repeated packet
is acknowledged again, a gap draws a sequence NAK, an access that key or window does not admit, a message to a slice that is not ACTIVE and
an opcode that is not supported move the queue pair to error; a packet marked CE draws a CNP first. -/
def Obligations.RocePackets : Prop :=
  ∀ (s : State) (p : RocePacket), p.qp < 1024 → p.payload.length ≤ 4096 → p.icrcOk = true → s.getObj (Obj.qpState p.qp) = 1 →
    let u := if p.ce then sendRoce s p.qp 0x81 0 [] else s
    let x := u.qp p.qp
    let want := if x.rxPsn = 2 ^ 24 then p.psn % 2 ^ 24 else x.rxPsn
    let y : Qp := { x with rxPsn := want }
    let d := (p.psn + 2 ^ 24 - want) % 2 ^ 24
    let active := u.getObj (Obj.sState (u.getObj (Obj.qpSlice p.qp))) = 1
    let rows : List (Instr × List Nat) := [(.roceSend p, [0x00, 0x01, 0x02, 0x04]), (.rdmaWrite p, [0x06, 0x07, 0x08, 0x0A]), (.rdmaRead p, [0x0C])]
    (s.getObj (Obj.qpEnable p.qp) = 1 →
      (∀ r ∈ rows, p.opcode ∈ r.2 → 2 ^ 23 ≤ d → exec r.1 s = .next (roceAck u p.qp p.psn synAck)) ∧
      (∀ r ∈ rows, p.opcode ∈ r.2 → 0 < d → d < 2 ^ 23 → exec r.1 s = .next (roceAck u p.qp want synSeq)) ∧
      (d = 0 → p.opcode = 0x04 → x.rxOpen = false → ¬ active → exec (.roceSend p) s = .next (roceError u p.qp p.psn synAccess)) ∧
      (d = 0 → p.opcode = 0x04 → x.rxOpen = false → x.rxBytes = [] → active →
        let need := msgSlots p.payload.length
        let size := u.getObj (Obj.qpSlots p.qp)
        let used := (u.getObj (Obj.qpRqTail p.qp) + 2 ^ 32 - u.getObj (Obj.qpRqHead p.qp)) % 2 ^ 32
        (need ≤ size → size < used + need → exec (.roceSend p) s = .next (roceAck u p.qp p.psn synRnr)) ∧
        (used + need ≤ size → ∀ t, putSlots u p.qp p.payload true need 0 = .ok t → exec (.roceSend p) s = .next (roceDone
          (t.putObj (Obj.qpRqTail p.qp) ((t.getObj (Obj.qpRqTail p.qp) + need) % 2 ^ 32)) { y with rxOpen := false, rxBytes := [] } p.psn))) ∧
      (d = 0 → p.opcode = 0x0A → x.waLeft = 0 → p.len = p.payload.length →
        (rdmaAddr u p.qp p.rkey p.va.toNat = none → exec (.rdmaWrite p) s = .next (roceError u p.qp p.psn synAccess)) ∧
        (∀ a src t, rdmaAddr u p.qp p.rkey p.va.toNat = some (a, src) →
          (serveWrite u src a p.payload true .host = .refused t → exec (.rdmaWrite p) s = .next (roceError t p.qp p.psn synAccess)) ∧
          (serveWrite u src a p.payload true .host = .done t () →
            exec (.rdmaWrite p) s = .next (roceDone t { y with waKey := p.rkey, waVa := p.va + BitVec.ofNat 64 p.payload.length, waLeft := 0 } p.psn)))) ∧
      (d = 0 → p.opcode = 0x0C → p.len ≤ 2 ^ 31 →
        (rdmaAddr u p.qp p.rkey p.va.toNat = none → exec (.rdmaRead p) s = .next (roceError u p.qp p.psn synAccess)) ∧
        (∀ a src t, rdmaAddr u p.qp p.rkey p.va.toNat = some (a, src) →
          (serveRead u src a p.len true = .refused t → exec (.rdmaRead p) s = .next (roceError t p.qp p.psn synAccess)) ∧
          (∀ bs, serveRead u src a p.len true = .done t bs →
            let n := max 1 ((p.len + 4095) / 4096)
            exec (.rdmaRead p) s = .next (readResponses (t.setQp { y with rxPsn := (want + n) % 2 ^ 24 }) p.qp p.psn n true bs))))) ∧
    (p.opcode = 0x11 → (p.payload.headD 0).toNat < 0x20 → exec (.roceAcknowledge p) s = .next (ackSends u p.qp p.psn)) ∧
    (p.opcode = 0x11 → 0x61 ≤ (p.payload.headD 0).toNat → exec (.roceAcknowledge p) s = .next (u.putObj (Obj.qpState p.qp) 2)) ∧
    (p.opcode ∉ [0x00, 0x01, 0x02, 0x04, 0x06, 0x07, 0x08, 0x0A, 0x0C, 0x0D, 0x0E, 0x0F, 0x10, 0x11] →
      exec (.roceUnsupportedOpcode p) s = .next (roceError u p.qp p.psn synInvalid)) ∧
    ∃ t, exec (.cnp p.qp) s = .next t ∧ (t.qp p.qp).rate = max 1 (qpRate s (s.qp p.qp) / 2) ∧ t.mem = s.mem

/-! ### Coherence -/

/-- R186 to R195, R25, R361: requests, answers and writebacks at a home directory; a line's request waits behind one in progress, and one
for ownership first counts as a write of its page. -/
def Obligations.HomeDirectories : Prop :=
  ∀ (s : State) (a : Nat) (l : LineKey), a < 6 →
    let home := lineDie s l
    let leaves (i : Instr) (e : DirEnt) : Prop := ∃ t, exec i s = .next t ∧ findDir t l = some e
    (∀ n, lineOwner s l = some n → (∀ x ∈ s.mem.heldReqs, x.1 ≠ l) → ∀ sectors,
      let rd : DirReq := { agent := a, kind := 0, sectors := sectors }
      let own : DirReq := { agent := a, kind := 1, sectors := 255 }
      (requestRoads s l rd = false → exec (.rds a l sectors) s = .next (holdReq s l rd)) ∧
      (requestRoads s l own = false → exec (.rdm a l) s = .next (holdReq s l own)) ∧
      (∀ u, ownGate s n (vasOf s n l) = .error u → requestRoads s l own = true → exec (.rdm a l) s = .next (holdReq u l own)) ∧
      (requestRoads s l rd = true →
        (findDir s l = none → a ≠ home → dirWays s n home ≠ 0 → ∀ t, dirRoom s n l = .ok t →
          leaves (.rds a l sectors) { line := l, owner := n, state := .shared, holders := [a] }) ∧
        ∀ e, findDir s l = some e →
          let base : DirEnt := { e with req := none, awaited := [], fwd := none, dropped := false, wbk := false }
          (transient e = true → exec (.rds a l sectors) s = .next (enqueue s e rd)) ∧
          (transient e = false → e.state = .shared →
            (a ≠ home → (∀ c, nearest s l a (sectorsOf sectors) = some c → c < 4) → leaves (.rds a l sectors) (addHolder base a)) ∧
            (∀ c h, nearest s l a (sectorsOf sectors) = some c → 4 ≤ c → c ≠ home → chipLine s c l = some h →
              exec (.rds a l sectors) s = .next (snoopChip (putDir s { e with req := some rd, fwd := some c }) (c - 4) h false))) ∧
          (∀ b, transient e = false → e.state = .owned b → b ≠ a →
            exec (.rds a l sectors) s = .next (putDir s { e with req := some rd, fwd := some b }))) ∧
      (requestRoads s l own = true → ∀ u, ownGate s n (vasOf s n l) = .ok u →
        (findDir u l = none → a ≠ lineDie u l → dirWays u n (lineDie u l) ≠ 0 → ∀ t, dirRoom u n l = .ok t →
          leaves (.rdm a l) { line := l, owner := n, state := .owned a } ∧ leaves (.upg a l) { line := l, owner := n, state := .owned a }) ∧
        ∀ e, findDir u l = some e →
          let base : DirEnt := { e with req := none, awaited := [], fwd := none, dropped := false, wbk := false }
          (transient e = true → exec (.rdm a l) s = .next (enqueue u e own) ∧ exec (.upg a l) s = .next (enqueue u e { own with kind := 2 })) ∧
          (transient e = false → e.state = .shared → e.broadcast = false →
            (a ≠ lineDie u l → e.holders.filter (· != a) = [] →
              leaves (.rdm a l) { base with state := .owned a, holders := [], broadcast := false }) ∧
            (e.holders.filter (· != a) ≠ [] → exec (.rdm a l) s = .next (putDir (homeSupplies u e.owner l own)
              { e with req := some own, awaited := e.holders.filter (· != a) }))) ∧
          ∀ b, transient e = false → e.state = .owned b → b ≠ a →
            exec (.rdm a l) s = .next (putDir u { e with req := some own, fwd := some b }))) ∧
    (∀ e, findDir s l = some e →
      (∀ dirty, dirty ≠ 0 → e.state = .owned a →
        (e.fwd = none → exec (.wbk a l dirty) s = .next (putDir s { e with state := .writeback a })) ∧
        (e.fwd = some a → exec (.wbk a l dirty) s = .next (putDir s { e with wbk := true }))) ∧
      (e.state = .owned a → e.fwd = none → dirtyAt s a l = false → exec (.dropLine a l) s = .next (dropDir (dropCopy s none a l) l)) ∧
      (∀ r, e.fwd = some a → e.req = some r → chipLine s a l = none → agentWaits s a l = false →
        exec (.forwardLine a l) s = .next (forwarded s a l e r)) ∧
      (∀ b, e.state = .writeback b → exec (.writebackLands l) s = .next (afterReq (dropDir (dropCopy s none b l) l) l e.queue))) ∧
    (∃ t, exec (.invalidation (.agent a) l) s = .next t ∧ ∀ m ∈ t.mem.miss, m.line = l →
      (∃ i, m.u = .llc a i) ∨ (∃ c, m.u = .l1 c ∧ c / 156 = a) → m.invalidated = true) ∧
    (∀ c, c < 624 → exec (.invalidation (.core c) l) s = .next { s with mem := { s.mem with invq := addNew (c, l) s.mem.invq } }) ∧
    (∀ c r, missOf s (.l1 c) l = some r →
      (missOf s (homeUnit s l) l ≠ none → exec (.fillDataArrival (.l1 c) l) s = .next s) ∧
      (missOf s (homeUnit s l) l = none → r.invalidated = true →
        exec (.fillDataArrival (.l1 c) l) s = .next (queueWaiters (freeMiss s (.l1 c) l) r r.waiters))) ∧
    (∀ d i r, missOf s (.llc d i) l = some r → r.invalidated = true → r.waiters = [] →
      exec (.fillDataArrival (.llc d i) l) s = .next (queueWaiters (freeMiss s (.llc d i) l) r [])) ∧
    (∀ k fails, k < 8 → bitN (s.getObj Obj.linksDead) k = false → 3 ≤ s.getObj Obj.moduleState → fails < 3 →
      (s.getObj (Obj.linkFreeze k) = 1 → s.getObj (Obj.linkDrained k) = 0 → exec (.dieLinkRetrain k fails) s = .next s) ∧
      (s.getObj (Obj.linkFreeze k) ≠ 1 ∨ s.getObj (Obj.linkDrained k) ≠ 0 →
        exec (.dieLinkRetrain k fails) s = .next (countOut s { s with mem := { s.mem with retrain := addNew k s.mem.retrain } }))) ∧
    ∀ k, k ∈ s.mem.retrain → exec (.dieLinkReturn k) s = .next { s with mem := { s.mem with retrain := s.mem.retrain.filter (· != k) } }

/-! ### Errors of memory and cores -/

/-- R239, R241 to R244, R250 to R252, R258, R356 to R358, R445: a core that hangs is dead, a row's self-test counts its sites, errors are
counted where they are found, an uncorrectable one poisons its line, and a map-out and a spare's replacement end. -/
def Obligations.ErrorsCountAndMapOut : Prop :=
  ∀ (s : State),
    (∀ c, c < 624 → workOn s c ≠ [] → (s.core c).hung = false →
      exec (.coreHang c) s = .next (workEvent (coreDead (s.addObj Obj.coreHangs 1) c true) 0x02 (workOn s c))) ∧
    (∀ c hung, (s.core c).dead = false → s.getObj (spareKey (c / 13)) ≠ 0xFF → (∀ x ∈ s.cores, x.dead = true → x.no / 13 ≠ c / 13) →
      ((coreDead s c hung).core c).dead = true ∧ bitN ((coreDead s c hung).getObj (deadKey (c / 13))) (siteOf s c) = true ∧
        (coreDead s c hung).mem = s.mem) ∧
    (∀ die row failed, die < 4 → row < 12 → 3 ≤ s.getObj Obj.moduleState →
      let r := 12 * die + row
      let good := (List.range 13).filter fun c => !(s.core (13 * r + c)).dead && (gangsOn s (13 * r + c)).isEmpty
      let bad := (List.range 13).filter fun c => failed.getLsbD c && (!(s.core (13 * r + c)).dead && (gangsOn s (13 * r + c)).isEmpty)
      exec (.rowSelfTest die row failed) s = .next (bad.foldl (fun s c => coreDead s (13 * r + c) false)
        ((s.addObj (Obj.selftestRuns die) good.length).addObj (Obj.selftestFails die) bad.length))) ∧
    (∀ st ch, st < 12 → ch < 32 → 
      (∀ b, s.getObj (Obj.chState st ch) = 2 → exec (.correctedError (.stack st ch b)) s = .next s) ∧
      (s.getObj (Obj.chState st ch) ≠ 2 → exec (.correctedError (.stack st ch false)) s = .next (stackCorrected s st ch) ∧
        exec (.correctedError (.stack st ch true)) s = .next (channelFailing (stackCorrected s st ch) st ch)) ∧
      (s.mem.errSecond = [] → 1 < s.getObj Obj.failLimit → (stackCorrected s st ch).od = (s.addObj (Obj.chCorrected st ch) 1).od)) ∧
    (∀ ch, ch < 8 → exec (.correctedError (.ddr ch)) s = .next (s.addObj (Obj.ddrCorrected ch) 1) ∧
      exec (.correctedError (.cxl ch)) s = .next (s.addObj (Obj.cxlFlitRetries ch) 1)) ∧
    (∀ p, p < 2 → exec (.correctedError (.chiplet p)) s = .next (s.addObj (Obj.cpRetries p) 1)) ∧
    (∀ q, q < 16 → exec (.correctedError (.port q)) s = .next (s.addObj (Obj.fecCorrected q) 1)) ∧
    (∀ line r, paExists s (line * 512) = true → exec (.uncorrectableError line r) s = .next (uncorrectable s line r)) ∧
    (∀ line, (∀ pa, ddrTop s ≤ pa → pa < ddrBase + 2 ^ 40 → pa ≠ line * 512) →
      bankedSets (countUncorrected (poisonLine s line) (line * 512)) (line * 512) = [] →
      uncorrectable s line .patrol = countUncorrected (poisonLine s line) (line * 512) ∧
        ∀ i, i < 8 → 8 * line + i ∈ (uncorrectable s line .patrol).mem.poison) ∧
    (∀ line, paExists s (line * 512) = true → lineFrozen s line = false → exec (.patrolScrub line .clean false) s = .next s ∧
      exec (.patrolScrub line .clean true) s = .next (s.addObj (Obj.scrubPasses (tierOf (line * 512))) 1)) ∧
    (∀ x, x < 8 → s.getObj (Obj.cxlLinkUp x) = 1 → exec (.cxlLinkFail x) s = .next (s.putObj (Obj.cxlLinkUp x) 0)) ∧
    (∀ stack ch, (stack, ch) ∈ s.mem.mapping →
      let d := stack / 3
      let u := endDrain { s with mem := { s.mem with mapping := s.mem.mapping.filter (· != (stack, ch)), heldFreeze := s.mem.heldFreeze.filter (· != (stack, ch)) } }
        (Obj.chDrained stack ch)
      (emptyHole u d = none → exec (.mapOutComplete stack ch) s = .next (settleFrozen (deferMapOut
        (needPoint (if (stack, ch) ∈ s.mem.heldFreeze then u else u.putObj (Obj.chFreeze stack ch) 0)) (stack, ch)))) ∧
      (∀ v, emptyHole u d = some v →
        let v' := { v with mem := { v.mem with deferrals := sput (fun _ => 0) v.mem.deferrals (32 * stack + ch) 0 } }
        let w := (v'.addObj (Obj.mapouts d) 1).putObj (Obj.chState stack ch) 2
        let w' := writeLookup (w.putObj (Obj.liveChannels stack) (w.getObj (Obj.liveChannels stack) - 2 ^ ch)) d
        w'.getObj (Obj.mapouts d) < 4 → exec (.mapOutComplete stack ch) s = .next (settleFrozen w'))) ∧
    ∀ die row c, s.cores.find? (fun c => c.replacing && c.no / 13 == 12 * die + row) = some c →
      (∀ n, (s.getObj (Obj.sRows n)).testBit (12 * die + row) = false) →
      let u := s.setCore { c with dead := false, hung := false, replacing := false, errTimes := [] }
      exec (.spareReplacementComplete die row) s = .next ((u.putObj (spareKey (12 * die + row)) 0xFF).addObj Obj.coresReplaced 1)

/-! ### Slices -/

/-- R383 to R390, R401: an operation on a slice is performed at once, in its turn behind the one in progress, or refused; QUIESCE goes on
until the slice is quiet, RESET and DESTROY ask for a QUIET slice, a scrub ends with nothing of the slice left. -/
def Obligations.SliceOperations : Prop :=
  ∀ (s : State) (cr : Cred) (o : SopReq) (n : Nat) (mgr : Bool), credOk s cr = true →
    (cr = .manager ∧ mgr = true ∧ n = o.slice ∧ n < 64) ∨ (cr = .slice n ∧ mgr = false) →
    let rows : List (Instr × Nat) := [(.createSlice cr o, 0x01), (.destroySlice cr o, 0x02), (.mapPages cr o, 0x10), (.unmap cr o, 0x11),
      (.protect cr o, 0x12), (.quiesceSlice cr o, 0x13), (.resumeSlice cr o, 0x14), (.resetSlice cr o, 0x15)]
    let x := s.slice n
    let w (op : Nat) : SopWait := { byManager := mgr, op := op, req := o }
    let u := s.setSlice { x with waits := [] }
    let st := s.getObj (Obj.sState n)
    (∀ p ∈ rows, x.current ≠ none → x.waits.length < 8 → exec p.1 s = .next (s.setSlice { x with waits := x.waits ++ [w p.2] })) ∧
    (∀ p ∈ rows, x.current ≠ none → 8 ≤ x.waits.length → exec p.1 s = .next (sopResult s n (w p.2) stRefused 0)) ∧
    (x.current = none → x.waits = [] →
      (∀ p ∈ rows, ∀ t, performOp u n (w p.2) = (t, none) → exec p.1 s = .next
        (if (t.slice n).current.isSome then t else t.setSlice { t.slice n with waits := w p.2 :: (t.slice n).waits })) ∧
      (∀ p ∈ rows, ∀ t r, performOp u n (w p.2) = (t, some r) → (t.slice n).waits = [] →
        exec p.1 s = .next (sopResult t n (w p.2) r.1 r.2)) ∧
      (st = 0 → ∀ p ∈ rows, p.2 ≠ 0x01 → exec p.1 s = .next (sopResult u n (w p.2) stRefused 0)) ∧
      (mgr = true → st = 0 → createSlice u n = (u, stRefused) → exec (.createSlice cr o) s = .next (sopResult u n (w 0x01) stRefused 0)) ∧
      (mgr = true → st = 3 → exec (.destroySlice cr o) s = .next (sopResult (destroySlice u n) n (w 0x02) stOk 0)) ∧
      (st = 3 → exec (.resetSlice cr o) s = .next (sopResult (resetSlice u n) n (w 0x15) stOk 0)) ∧
      (st = 1 ∨ st = 2 → exec (.resetSlice cr o) s = .next (sopResult u n (w 0x15) stNotQuiet 0) ∧
        (mgr = true → exec (.destroySlice cr o) s = .next (sopResult u n (w 0x02) stNotQuiet 0))) ∧
      (st = 1 → o.limitUs ≤ 10000000 → exec (.quiesceSlice cr o) s = .next (beginQuiesce u n o.limitUs (w 0x13))) ∧
      (st = 3 → exec (.resumeSlice cr o) s = .next (sopResult (u.putObj (Obj.sState n) 1) n (w 0x14) stOk 0)) ∧
      (st ≠ 0 → o.psize < 3 → o.count = 1 → ∀ t,
        (o.tier < 3 → (o.die < 4 ∨ o.anyDie = true) →
          (mapPage n o o.va.toNat u = some t → performOp u n (w 0x10) = (noteRegions t, some (stOk, 1))) ∧
          (mapPage n o o.va.toNat u = none → s.mem.extents.any (otherSpare n) = false → performOp u n (w 0x10) = (noteRegions u, some (stRefused, 0))) ∧
          (mapPage n o o.va.toNat u = none → s.mem.extents.any (otherSpare n) = true →
            (mapPage n o o.va.toNat (scrubSpares u n) = some t → performOp u n (w 0x10) = (noteRegions t, some (stOk, 1))) ∧
            (mapPage n o o.va.toNat (scrubSpares u n) = none → performOp u n (w 0x10) = (noteRegions (scrubSpares u n), some (stRefused, 0))))) ∧
        (s.stores = [] → unmapPage n o o.va.toNat u = some t → performOp u n (w 0x11) = (noteRegions t, some (stOk, 1))) ∧
        (s.stores = [] → protectPage n o o.va.toNat u = some t → performOp u n (w 0x12) = (noteRegions t, some (stOk, 1))))) ∧
    (∀ t, x.limitAt = some t → st = 2 → t ≤ s.now → (∀ ch ∈ channelsOf s n, (s.chan ch).flight = []) →
      exec (.quiesceLimitExpiry n) s = .next (s.setSlice { x with limitAt := none })) ∧
    (n < 64 → st = 2 → isQuiet s n = true → x.waits = [] →
      let v := (s.putObj (Obj.sState n) 3).setSlice { x with current := none, limitAt := none }
      (x.current = none → exec (.quietReached n) s = .next v) ∧
      (∀ q, x.current = some q → exec (.quietReached n) s = .next (sopResult v n q stOk 0))) ∧
    ((∃ e ∈ s.mem.extents, e.slice = n ∧ e.use = .scrub ∧ rangeFrozen s e.base e.size = true) → exec (.scrubEnd n false) s = .next s) ∧
    (n < 64 → s.getObj (Obj.scrubPending n) = 1 → (∀ e ∈ s.mem.extents, e.slice = n → e.use = .scrub → rangeFrozen s e.base e.size = false) →
      ∃ t, exec (.scrubEnd n false) s = .next t ∧ t.getObj (Obj.scrubPending n) = 0 ∧
      (∀ e ∈ t.mem.extents, ¬ (e.slice = n ∧ e.use = .scrub)) ∧
      ∀ e ∈ s.mem.extents, e.slice = n → e.use = .scrub → ∀ a, e.base ≤ a → a < e.base + e.size → cellGet t.mem.bytes a = 0) ∧
    (n < 64 → s.getObj (Obj.scrubPending n) = 1 → secureScrub s n = true → ∃ t, exec (.scrubEnd n true) s = .next t ∧ t.getObj Obj.moduleState = 6)

/-! ### Writes of objects -/

/-- R491: a write of an object is checked and then performed, or counted as refused; what the objects with an effect of their own do. -/
def Obligations.ObjectWrites : Prop :=
  (∀ (s : State) (cr : Cred) (i : Instr) (k ty : Nat) (bs : List Byte),
    (∃ ix sub, ix < 2 ^ 16 ∧ sub < 256 ∧ i = .objectWrite cr ix sub ty bs ∧ k = 256 * ix + sub) ∨
    (∃ c v, c < 256 ∧ ((i = .doorbell cr c v ∧ k = Obj.doorbell c ∧ ty = 4 ∧ bs = toLe 4 v) ∨
      (i = .complHead cr c v ∧ k = Obj.complHead c ∧ ty = 4 ∧ bs = toLe 4 v) ∨ (i = .chEnable cr c v ∧ k = Obj.chEnable c ∧ ty = 1 ∧ bs = toLe 1 v) ∨
      (i = .wEnable cr c v ∧ k = Obj.wEnable c ∧ ty = 1 ∧ bs = toLe 1 v))) ∨
    (∃ c v, c < 64 ∧ i = .migEnable cr c v ∧ k = Obj.migEnable c ∧ ty = 1 ∧ bs = toLe 1 v) ∨
    (∃ c v, c < 8 ∧ ((i = .lsEnable cr c v ∧ k = Obj.lsEnable c ∧ ty = 1 ∧ bs = toLe 1 v) ∨
      (i = .linkFreeze cr c v ∧ k = Obj.linkFreeze c ∧ ty = 1 ∧ bs = toLe 1 v))) ∨
    (∃ st ch v, st < 12 ∧ ch < 32 ∧ i = .chFreeze cr st ch v ∧ k = Obj.chFreeze st ch ∧ ty = 1 ∧ bs = toLe 1 v) ∨
    (∃ q v, q < 1024 ∧ ((i = .qpSqTail cr q v ∧ k = Obj.qpSqTail q ∧ ty = 4 ∧ bs = toLe 4 v) ∨
      (i = .qpRqHead cr q v ∧ k = Obj.qpRqHead q ∧ ty = 4 ∧ bs = toLe 4 v))) ∨
    (∃ v, (i = .periodAt cr v ∧ k = Obj.periodAt ∧ ty = 10 ∧ bs = toLe 8 v) ∨ (i = .restart cr v ∧ k = Obj.restart ∧ ty = 1 ∧ bs = toLe 1 v)) →
    (credOk s cr = false → exec i s = .next (s.addObj Obj.odAuthFails 1)) ∧
    (credOk s cr = true → ∀ v, checkWrite s cr k ty bs false = .ok v → refusedFor s k v = none → exec i s = .next (applyWrite k v bs s)) ∧
    (credOk s cr = true → ∀ r, checkWrite s cr k ty bs false = .error r → exec i s = .next (refuseAccess s))) ∧
  (∀ (s : State) (v : Nat) (bs : List Byte),
    (∀ c, c < 256 → applyWrite (Obj.doorbell c) v bs s = s.setChan { s.chan c with tail := v } ∧
      applyWrite (Obj.complHead c) v bs s = s.putObj (Obj.complHead c) v ∧ applyWrite (Obj.wEnable c) v bs s = s.putObj (Obj.wEnable c) v ∧
      applyWrite (Obj.chEnable c) 1 bs s = s.putObj (Obj.chEnable c) 1 ∧
      applyWrite (Obj.chEnable c) 0 bs s = quiesceChannel (s.putObj (Obj.chEnable c) 0) c) ∧
    (∀ k, k < 8 → applyWrite (Obj.lsEnable k) v bs s = lsEnableWrite k v s ∧ applyWrite (Obj.linkFreeze k) v bs s = linkFreezeWrite k v s) ∧
    (∀ st ch, st < 12 → ch < 32 → applyWrite (Obj.chFreeze st ch) v bs s = chFreezeWrite st ch v s) ∧
    (∀ n, n < 64 → applyWrite (Obj.migEnable n) v bs s = migEnableWrite n v s) ∧
    (∀ q, q < 1024 → applyWrite (Obj.qpSqTail q) v bs s = postSends s q v ∧ applyWrite (Obj.qpRqHead q) v bs s = s.putObj (Obj.qpRqHead q) v) ∧
    applyWrite Obj.periodAt v bs s = periodAtWrite v s ∧ applyWrite Obj.restart 1 bs s = restart s ∧ applyWrite Obj.restart 0 bs s = s) ∧
  ∀ (s : State) (cr : Cred), credOk s cr = true →
    let sets (i : Instr) (k ty : Nat) (bs : List Byte) (t : State) : Prop := ∀ v, checkWrite s cr k ty bs false = .ok v → exec i s = .next t
    (∀ n nonce, n < 64 → sets (.attestNonce cr n nonce) (Obj.attestNonce n) 12 nonce (s.putBlob (Obj.attestToken n) (token (sliceTokenClaims s n nonce)))) ∧
    (∀ nonce, sets (.devAttestNonce cr nonce) Obj.devAttestNonce 12 nonce (s.putBlob Obj.devAttestToken (token (deviceTokenClaims s nonce)))) ∧
    (∀ req, sets (.spdmRequest cr req) Obj.spdmRequest 12 req (spdmWrite req s)) ∧
    (∀ c v, c < 4 → arbOk s c v = true → sets (.arbAdvance cr c v) (Obj.arbAdvance c) 2 (toLe 1 v) (s.putObj (Obj.arbCounter c) v)) ∧
    (∀ c v, c < 4 → arbOk s c v = false → exec (.arbAdvance cr c v) s = .next (refuseAccess s)) ∧
    (∀ p v, p < 2 → sets (.cpEnable cr p v) (Obj.cpEnable p) 1 (toLe 1 v) (cpEnableWrite p v s)) ∧
    (∀ p win v, p < 2 → win < 32 → v = 1 → ssEnableOk s (32 * p + win) = true →
      sets (.ssEnable cr p win v) (Obj.ssEnable (32 * p + win)) 1 (toLe 1 v) (s.putObj (Obj.ssEnable (32 * p + win)) 1)) ∧
    (∀ v ended w, checkWrite (noteEnded s ended) cr Obj.alertCause 3 (toLe 2 v) false = .ok w →
      exec (.alertCause cr v ended) s = .next (alertCauseWrite v (noteEnded s ended))) ∧
    (∀ mgmt key, key.length = 97 → leNat key % 256 = 4 → mgrKeyOk s cr mgmt = true → exec (.mgrKey cr mgmt key) s = .next (s.putObj Obj.mgrKey (leNat key))) ∧
    (∀ mgmt key, mgrKeyOk s cr mgmt = false → exec (.mgrKey cr mgmt key) s = .next (refuseAccess s)) ∧
    (∀ img t, recoverImage img s = some t → exec (.fwRecovery img) s = .next t) ∧ (∀ img, recoverImage img s = none → exec (.fwRecovery img) s = .next (refuseAccess s)) ∧
    ∀ n, n < 64 → cr = .manager → ∃ t, exec (.migLogHarvest cr n) s = .next t ∧ (t.slice n).migDirty = [] ∧ (t.slice n).hseq = (s.slice n).hseq + 1

/-! ### The object-dictionary protocol -/

/-- R436, R476 to R488, R493, R494: a frame of the management port is taken at once, one in band in its turn on its path; it is dropped where
its route does not serve it, else answered as malformed, fails authentication, is answered again, or is performed and answered; what is held
for a credential expires, a subscription's sample that has changed is sent on the route of its SUBSCRIBE, and the stored counters go to flash
at most once a minute. -/
def Obligations.DictionaryFrames : Prop :=
  (∀ (s : State) (f : OdFrame),
    let u := s.addObj Obj.odFrames 1
    (odServed s f = false → odArrives s f = (s, false)) ∧
    (f.inBand = true → (odServed s f = true ↔ s.getObj Obj.moduleState = 5)) ∧
    (f.inBand = false → s.getObj Obj.mgmtLink ≠ 1 ∨ f.udp ≠ s.forced Obj.mgmtUdpPort → odServed s f = false) ∧
    (odServed s f = true → byHardware f = true → odArrives s f = (u, true)) ∧
    (odServed s f = true → byHardware f = false → (firmwareHeld u).length < 256 →
      odArrives s f = ({ u with odp := { u.odp with firmware := firmwareHeld u ++ [upNow u] } }, true)) ∧
    (odServed s f = true → byHardware f = false → 256 ≤ (firmwareHeld u).length → (odArrives s f).2 = true ∨
      odArrives s f = ((u.useFree 1).addObj Obj.odDropped 1, false))) ∧
  (∀ (s : State) (f : OdFrame) (img : FwImage),
    let rows : List (Instr × Nat × FwImage) := [(.odRead f, 1, noImage), (.odWrite f, 2, noImage), (.odBulkRead f, 3, noImage),
      (.odBulkWrite f img, 4, img), (.odSubscribe f, 5, noImage), (.odUnsubscribe f, 6, noImage)]
    let g : TFrame := { f.tr with payload := odBytes f }
    let comes (i : Instr) (o : Nat × OdFrame × FwImage) : Prop :=
      (f.inBand = false → exec i s = .next (odPerform s o)) ∧
      (f.inBand = true → f.q < 64 → (s.port f.q).up = true → forTransport s g = true →
        (goodFrame g = false → g.llr = false → exec i s = .next (noteFrame s f.q g)) ∧
        ∀ s' u p, goodFrame g = true → linkCheck s f.q g = (s', true) → peerPath s' g.src = some (u, p) →
          let x : Sent := { ty := 7, f := g, od := some o }
          (2 ^ 31 ≤ psnAhead g.psn p.expect → exec i s = .next
            (if g.ackReq || decide (16 ≤ p.owed + 1) then ackNow (u.setPath { p with owed := p.owed + 1 }) p.no else u.setPath { p with owed := p.owed + 1 })) ∧
          (0 < psnAhead g.psn p.expect → psnAhead g.psn p.expect < 2 ^ 31 → p.held = [] → p.nakked = false →
            let w := sendAck (u.setPath { p with held := [x], nakked := true }) p 4 p.expect false
            exec i s = .next (if g.ackReq then ackNow w p.no else w)) ∧
          (g.psn = p.expect → p.expect < 2 ^ 32 → p.held = [] → ∀ p',
            let t := odPerform (u.setPath { p with held := [x] }) o
            let w := t.setPath { p' with expect := (p'.expect + 1) % 2 ^ 32, held := [], owed := p'.owed + 1, nakked := false, sawCe := p'.sawCe || g.ece }
            t.path? p.no = some p' → p'.held = [x] → exec i s = .next (if g.ackReq || decide (16 ≤ p'.owed + 1) then ackNow w p.no else w)))
    (∀ r ∈ rows, f.op = r.2.1 → comes r.1 (r.2.1, f, r.2.2)) ∧ (wellFormed f = false → comes (.odMalformedFrame f) (0, f, noImage))) ∧
  (∀ (s u : State) (f : OdFrame) (img : FwImage),
    let cr := credOf f
    (odArrives s f = (u, false) → ∀ n, odPerform s (n, f, img) = u) ∧
    (odArrives s f = (u, true) →
      odPerform s (0, f, img) = refuseFrame u f ∧
      (f.inBand = false → refuseFrame u f = (refuseAccess u).send (.od (response u f stRefused 0x08 0 []))) ∧
      (∀ n, 1 ≤ n → n ≤ 6 →
        (wellFormed f = false → odPerform s (n, f, img) = refuseFrame u f) ∧
        (wellFormed f = true → authOk u f = false → odPerform s (n, f, img) = authFails u f) ∧
        (wellFormed f = true → authOk u f = true →
          (cr = .none → ∃ r : Performed, odPerform s (n, f, img) = finishFrame f r) ∧
          (cr ≠ .none → f.epoch ≠ u.getObj Obj.bootEpoch → odPerform s (n, f, img) = authFails u f) ∧
          (cr ≠ .none → f.epoch = u.getObj Obj.bootEpoch →
            (∀ x, (window u cr).recent.find? (fun x => x.1 == f.counter && x.2.1 == f.reqId) = some x → odPerform s (n, f, img) = sendOd u x.2.2) ∧
            ((window u cr).recent.find? (fun x => x.1 == f.counter && x.2.1 == f.reqId) = none →
              (counterOk (window u cr) f.counter = false → odPerform s (n, f, img) = authFails u f) ∧
              (counterOk (window u cr) f.counter = true → ∃ r : Performed, odPerform s (n, f, img) = finishFrame f r))))) ∧
      (wellFormed f = true → reservedHeader f = false → cr = .none → authOk u f = true → f.bodyLen = 8 → (f.body.drop 3).any (· != 0) = false →
        let x := noteRevocations u [entryKey f.body]
        ∀ v, readEntry x .none (entryKey f.body) = .ok v → odPerform s (1, f, img) = finishFrame f
          { s := x.addObj Obj.odRefused 0, status := stOk, reason := 0, count := 1, body := valueEntry f.body v.1 stOk 0 v.2 })) ∧
    ∀ r : OdResp, (r.inBand = false → sendOd u r = u.send (.od r)) ∧
      ∀ t, sendFrame u r.dst 7 { addr := BitVec.ofNat 64 (gAddr r.dst 2 0), payload := r.frame } .device = some t → r.inBand = true → sendOd u r = t) ∧
  (∀ (s : State) (cr : Cred) (k : Nat),
    (∀ x ∈ s.odp.snaps, x.cred = cr → x.key = k → x.read + bulkIdleNs ≤ upNow s → exec (.snapshotExpiry cr k) s = .next
      { s with odp := { s.odp with snaps := s.odp.snaps.filter fun x => !(x.cred == cr && x.key == k) } }) ∧
    (∀ x ∈ s.odp.bufs, x.cred = cr → x.wrote + bulkIdleNs ≤ upNow s → exec (.bulkBufferExpiry cr) s = .next
      { s with odp := { s.odp with bufs := s.odp.bufs.filter fun x => x.cred != cr } })) ∧
  ∀ (s : State), (1 ≤ s.getObj Obj.moduleState → (∀ t, s.odp.flushedAt = some t → t + 60000000000 ≤ upNow s) → ∃ t, exec .storedCounterFlush s = .next t ∧
      t.odp = { s.flushCounters.odp with flushedAt := some (upNow s) } ∧ t.od = s.od ∧ t.mem = s.mem) ∧
    (∀ t, s.odp.flushedAt = some t → upNow s < t + 60000000000 → exec .storedCounterFlush s = .next s) ∧
    ∀ sub x r, s.odp.subs.find? (fun x => x.no == sub) = some x → objRow? x.key = some r →
      let u := noteRevocations s [x.key]
      let bs := objBytes u x.key r
      (x.inBand = false → u.getObj Obj.mgmtLink = 0 → exec (.odNotify sub) s = .next u) ∧
      (x.sentAt + notifyGap x ≤ upNow u → x.inBand = true ∨ u.getObj Obj.mgmtLink ≠ 0 →
      (x.periodic = false → x.last = some (leNat bs) → exec (.odNotify sub) s = .next u) ∧
      (x.periodic = true ∨ x.last ≠ some (leNat bs) → ∃ t, exec (.odNotify sub) s = .next (sendNotify t x r.ty bs) ∧
        t.out = u.out ∧ t.now = u.now ∧ t.mem = u.mem ∧ t.getObj Obj.notifySent = (u.addObj Obj.notifySent 1).getObj Obj.notifySent ∧
        (x.inBand = false → sendNotify t x r.ty bs = t.send (.notify false x.dst sub (x.seq + 1) u.now x.key (leNat bs)))))

/-! ### Chiplet ports -/

/-- R446 to R457: a port negotiates; its requests are screened, metered and performed, a violation is refused and recorded; an answer to a
snoop gives the line up or keeps it shared, one that nobody asked for is a violation, and one that does not come fences the port. -/
def Obligations.ChipletRequestsAreScreened : Prop :=
  ∀ (s : State) (p : Nat) (m : CpMsg), p < 2 →
    let w := windowOf p m.addr
    let n := 64 * (sectorsOf m.sectors).length
    let z := if m.size8 then 8 else 4
    let requests : List Instr := [.cpRd p m, .cpRdo p m, .cpWr p m, .cpAtom p m, .cpWbk p m, .cpDrop p m]
    (∀ g : CpNegotiation, s.getObj (Obj.cpState p) = 1 → g.failed = true → exec (.cpNegotiationComplete p g) s = .next (s.putObj (Obj.cpState p) 4)) ∧
    (∀ g : CpNegotiation, s.getObj (Obj.cpState p) = 1 → g.failed = false → dieWordOk g.dieWord.toNat = true → modulesOf g.trained g.dieWord.toNat ≠ 0 →
      let d := g.dieWord.toNat
      exec (.cpNegotiationComplete p g) s = .next ((((s.putObj (Obj.cpCapsDie p) d).putObj (Obj.cpState p) 2).putObj (Obj.cpRate p)
        (modulesOf g.trained d * 64 * gigaTransfers d / 8)).setChip { no := p, coherent := bitN d 12 && bits d 23 16 != 0, atomics := bitN d 13 })) ∧
    (s.getObj (Obj.cpState p) = 2 →
      (m.malformed = true → ∀ i ∈ requests, exec i s = .next (violateReq s p 5 m.addr)) ∧
      (m.malformed = false →
        (∀ t : Target,
          let done (v : State) (k : Nat) : Res := .next ((takeTokens v p w k).getD v)
          let ready (k : Nat) : Prop := s.getObj (Obj.sState t.slice) = 1 ∧ takeTokens s p w k ≠ none
          (screen s p m { rights := [0], len := maskLen m.sectors, write := false, metered := n } = .ok t → aligned m.addr 512 = true → m.sectors ≠ 0 →
            ready n → roomToHold s p m.addr t = .ok () →
              let granted := (s.chip p).coherent && mayHold s p m.addr t
              (∀ u, granted = true → chipSupplies s p t.key.line (sectorsOf m.sectors) = some u → exec (.cpRd p m) s = .next u) ∧
              (granted = false ∨ chipSupplies s p t.key.line (sectorsOf m.sectors) = none → ∀ u bs,
                readSectors p granted t (sectorsOf m.sectors) s = .ok (u, bs) →
                exec (.cpRd p m) s = done (answerReq (grantLine (served u (.port p)) p m.addr t false) p m.addr n 3 bs) n)) ∧
          (screen s p m { rights := [0, 1], len := 512, write := true, coherent := true, metered := 512 } = .ok t → aligned m.addr 512 = true → ready 512 →
            roomToHold s p m.addr t = .ok () → (mayHold s p m.addr t = true → ∃ k, writeOk s t.slice t.space t.addr (.port p) = .ok k) → ∀ u bs,
            readSectors p false t (List.range 8) (if mayHold s p m.addr t && t.space != 1 then logWrite s t.slice t.addr else s) = .ok (u, bs) →
              exec (.cpRdo p m) s = done (answerReq (grantLine (served u (.port p)) p m.addr t true) p m.addr 512 3 bs) 512) ∧
          (screen s p m { rights := [1], len := m.len, write := true, metered := m.len } = .ok t → 1 ≤ m.len → m.addr.toNat % 512 + m.len ≤ 512 →
            m.byteMask.length = m.len → m.data.length = m.len → ready m.len → ∀ k, writeOk s t.slice t.space t.addr (.port p) = .ok k →
              exec (.cpWr p m) s = done (answerReq (writeRuns s p t (maskRuns 0 m.byteMask m.data)) p m.addr (m.byteMask.filter id).length 4 []) m.len) ∧
          (screen s p m { rights := [2], len := z, write := true, atomics := true, metered := z } = .ok t → aligned m.addr z = true → m.op ≤ 10 → m.op ≠ 1 →
            ready z → ∀ k, writeOk s t.slice t.space t.addr (.port p) = .ok k → reach s t.key false (.port p) = .ok () →
              let h := homeSect s t.slice k
              let old := leNat (sectGet h.2 (t.addr % 64) z)
              let new := chipAtom m.op (8 * z) old (m.b.toNat % 2 ^ (8 * z)) (m.c.toNat % 2 ^ (8 * z))
              let v := if m.op = 10 ∧ old ≠ m.b.toNat % 2 ^ (8 * z) then served h.1 (.port p) else writeRuns h.1 p t [(0, toLe z new)]
              exec (.cpAtom p m) s = done (answerReq v p m.addr z 3 (toLe z old)) z) ∧
          (screen s p m { rights := [1], len := 512, write := true, coherent := true, holds := true, metered := n, gives := true } = .ok t →
            aligned m.addr 512 = true → m.sectors ≠ 0 → m.data.length = n → takeTokens s p w n ≠ none →
            ∀ k, writeOk s t.slice t.space t.addr (.port p) = .ok k →
              let v := dirForget (writeRuns s p t (sectorRuns m.sectors m.data)) (4 + p) t.key.line false
              exec (.cpWbk p m) s = done (answerReq (putHeld v p ((v.chip p).held.filter fun h => h.addr != m.addr)) p m.addr n 4 []) n) ∧
          (screen s p m { rights := [], len := 512, write := false, coherent := true, holds := true, metered := 0, gives := true } = .ok t →
            aligned m.addr 512 = true → takeTokens s p w 0 ≠ none →
              let v := match findDir s t.key.line with
                | some e => if e.state = .owned (4 + p) then dropOwned s (4 + p) t.key.line e else s
                | none => s
              exec (.cpDrop p m) s = done (answerReq (putHeld v p ((v.chip p).held.filter fun h => h.addr != m.addr)) p m.addr 0 4 []) 0)) ∧
        (∀ k, screen s p m { rights := [0], len := maskLen m.sectors, write := false, metered := n } = .error (some k) → aligned m.addr 512 = true →
          m.sectors ≠ 0 → exec (.cpRd p m) s = .next (violateReq s p k m.addr)) ∧
        ((s.chip p).snoops.find? (fun q => q.1 == m.addr) = none → exec (.cpAck p m) s = .next (violation s p 6 m.addr)) ∧
        (∀ q h, (s.chip p).snoops.find? (fun q => q.1 == m.addr) = some q → (s.chip p).held.find? (fun h => h.addr == m.addr) = some h → m.late = false →
          let c := s.chip p
          let rest := if q.2 then c.held.filter fun h => h.addr != m.addr
            else c.held.map fun (h : HeldLine) => if h.addr = m.addr then { h with owned := false } else h
          let u := putHeld (s.setChip { c with snoops := c.snoops.erase q }) p rest
          (h.owned = false → exec (.cpAck p m) s = .next (snoopDone (dirForget u (4 + p) h.line (!q.2)) p h.line)) ∧
          (h.owned = true → m.data.length = 64 * (sectorsOf m.sectors).length → ∀ u, answerData s h (sectorRuns m.sectors m.data) = .ok u →
            ∃ t, exec (.cpAckData p m) s = .next t)) ∧
        (∀ q l, (s.chip p).snoops.find? (fun q => q.1 == m.addr) = some q → (∀ h ∈ (s.chip p).held, h.addr ≠ m.addr) → m.late = false →
          let u := putHeld (s.setChip { s.chip p with snoops := (s.chip p).snoops.erase q }) p (s.chip p).held
          lineAt u p m.addr = some l → exec (.cpAck p m) s = .next (snoopDone u p l)))) ∧
    ∀ q ∈ (s.chip p).snoops, exec (.snoopTimeout p q.1) s = .next (violation s p 7 q.1)

/-! ### Power, protection and start-up -/

/-- R410 to R417, R421, R424 to R444, R460, R463: the damper's windows and points, droop and energy, and what the power input, the pins and
the sensors do to the module. -/
def Obligations.PowerAndProtection : Prop :=
  ∀ (s : State),
    let st := s.getObj Obj.moduleState
    let e := s.elec
    (∀ m, 3 ≤ st →
      let u := gateWindow { noteWindow s m with power := countWindow (noteWindow s m) m } m
      exec (.damperWindow m) s = .next (if st = 3 then u else decideWindow u m)) ∧
    (∀ m, s.power.change ≠ none → (decideWindow s m) = s) ∧
    (∀ x, s.power.change = some x → x.target ≠ s.getObj Obj.pointHeld → s.power.steadyBroken = false → exec .pointChangeComplete s = .next
      { ((s.putObj Obj.pointHeld x.target).putObj Obj.coreClock (pointClock (classNow s) x.target)).addObj Obj.pointChanges 1 with
        power := { s.power with change := none, gate := if x.target = 3 ∨ x.byExcess = false then s.power.gate else 8 } }) ∧
    (∀ v, 3 ≤ st → ∃ t, exec (.damperTrim v) s = .next t ∧ t.getObj Obj.powerMeasured = v ∧ t.power.estSum = 0 ∧ t.power.estCount = 0 ∧
      s.power.trims - 5 ≤ t.power.trims ∧ t.power.trims ≤ s.power.trims + 5 ∧
      (s.power.estSum = v * 1000 * s.power.estCount → t.power.trims = s.power.trims) ∧
      (s.power.estSum < v * 1000 * s.power.estCount → s.power.trims ≤ t.power.trims) ∧
      (v * 1000 * s.power.estCount < s.power.estSum → t.power.trims ≤ s.power.trims)) ∧
    (∀ (sense terminal : Nat) (x : Telemetry), 1 ≤ st →
      let mV := if s.getObj Obj.senseOpen = 1 then terminal else sense
      let nJ := e.energyNj + mV * x.inputmA
      ∃ t, exec (.energyUpdate sense terminal x) s = .next t ∧ t.getObj Obj.energy = (s.addObj Obj.energy (nJ / 1000000)).getObj Obj.energy ∧
        t.elec.energyNj = nJ % 1000000 ∧ t.getObj Obj.inputVoltage = mV ∧ t.getObj Obj.inputCurrent = x.inputmA ∧
        t.getObj Obj.aux12Current = x.aux12mA ∧ t.getObj Obj.coolTachHz = x.tachHz ∧ t.getObj Obj.plateTemp = toI32 x.platemC ∧
        t.getObj Obj.spreaderTemp = toI32 x.spreadermC ∧ t.elec.inputOn = (e.inputOn || decide (39500 ≤ terminal)) ∧
        t.getObj Obj.alertCause = s.getObj Obj.alertCause ||| alertsHeld t ∧ t.mem = s.mem) ∧
    (1 ≤ st → exec .thermalTrip s = .next (toStandby ((s.addObj Obj.thermTrips 1).raiseHeld 8))) ∧
    (∀ die row, die < 4 → row < 12 → 2 ≤ st → exec (.droopOnset die row) s = .next
      { s.addObj (Obj.droopEvents die) 1 with power := { s.power with stretched := addNew (die, row) s.power.stretched } }) ∧
    (∀ die row n, (die, row) ∈ s.power.stretched → exec (.droopRecovery die row n) s = .next
      { s.addObj (Obj.stretchedCycles die) n with power := { s.power with stretched := s.power.stretched.filter (· != (die, row)) } }) ∧
    (1 ≤ st →
      (∃ t, exec .inputBelow18v s = .next t ∧ t.getObj Obj.moduleState = 0 ∧ t.mem = {} ∧ t.elec.switchClosed = false) ∧
      (∃ t, exec .undervoltage s = .next t ∧ t.getObj Obj.moduleState ≤ 1 ∧ t.elec.inputOn = false) ∧
      (e.overVolt = false → ∃ t, exec .overvoltage s = .next t ∧ t.getObj Obj.moduleState ≤ 1 ∧ t.elec.switchClosed = false) ∧
      (e.switchClosed = true → ∃ t, exec .inputOvercurrent s = .next t ∧ t.getObj Obj.moduleState ≤ 1 ∧ t.elec.ocWait = true) ∧
      (aux12On s = true → exec .aux12Short s = .next { ((s.addObj Obj.aux12Shorts 1).setAlert 3) with elec := { e with aux12 := false } }) ∧
      (e.aux12 = false → aux12May s = true → ∀ mA, mA ≤ 4000 →
        exec (.aux12Retry mA) s = .next { (s.putObj Obj.aux12Current mA) with elec := { e with aux12 := true } }) ∧
      (∀ a b, a ≤ b + 2000 → b ≤ a + 2000 → exec (.vsenseCheck a b) s = .next (((noteInput s b).putObj Obj.senseOpen 0).putObj Obj.inputVoltage a)) ∧
      (∀ a b, b + 2000 < a ∨ a + 2000 < b →
        exec (.vsenseCheck a b) s = .next ((((noteInput s b).putObj Obj.senseOpen 1).putObj Obj.inputVoltage b).setAlert 4)) ∧
      (s.getObj Obj.enableIn ≠ 1 → ∀ ms, exec (.enableChange true ms) s = .next
        { (s.putObj Obj.enableIn 1) with boot := { s.boot with mayStart := s.boot.mayStart || decide (10 ≤ ms) } }) ∧
      (s.getObj Obj.enableIn = 1 → ∀ ms, ∃ t, exec (.enableChange false ms) s = .next t ∧ t.getObj Obj.moduleState ≤ 1 ∧ t.getObj Obj.enableIn = 0) ∧
      (s.getObj Obj.leakAction ≠ 1 → exec .leakDetect s = .next ((s.addObj Obj.leakEvents 1).raiseHeld 6)) ∧
      (s.getObj Obj.leakAction = 1 → exec .leakDetect s = .next (toStandby ((s.addObj Obj.leakEvents 1).raiseHeld 6))) ∧
      (∀ hz, hz < s.getObj Obj.coolTachMin → exec (.coolTachLow hz) s = .next ((s.putObj Obj.coolTachHz hz).raiseHeld 9)) ∧
      (∀ mC, plateLimit (classNow s) < mC → exec (.plateOverLimit mC) s = .next ((s.putObj Obj.plateTemp mC).raiseHeld 10)) ∧
      (e.present = true → e.switchClosed = true → e.charged = true → e.overVolt = false → s.getObj Obj.enableIn = 1 →
        exec .powerGood s = .next { s with elec := { e with inputOn := true }, boot := { s.boot with powerGood := true } }) ∧
      (s.getObj Obj.mgmtLink = 0 → exec .mgmtLinkUp s = .next ((s.putObj Obj.mgmtLink 1).endHeld 5)) ∧
      (s.getObj Obj.mgmtLink = 1 → exec .mgmtLinkDown s = .next (((s.putObj Obj.mgmtLink 0).addObj Obj.mgmtLinkLosses 1).raiseHeld 5)) ∧
      (s.getObj Obj.mgmtLink = 0 → exec .mgmtLinkDown s = .next (s.raiseHeld 5)) ∧
      (e.present = true → e.inrushDue = true → e.switchClosed = false → e.overVolt = false → e.ocWait = false → e.inputOn = true →
        exec .inrushStart s = .next { s with elec := { e with switchClosed := true, inrushDue := false } })) ∧
    (e.overVolt = true → exec .overvoltageRecovery s = .next { s with elec := { e with overVolt := false, inputOn := true, inrushDue := e.present } }) ∧
    (e.ocWait = true → e.present = true → e.overVolt = false → exec .overcurrentReclose s = .next { s with elec := { e with ocWait := false, switchClosed := true } }) ∧
    (e.present = false → exec .presentNClose s = .next { s with elec := { e with present := true, inrushDue := true } }) ∧
    (e.present = true → ∃ t, exec .presentNOpen s = .next t ∧ t.getObj Obj.moduleState = 0 ∧ t.elec.present = false ∧ t.mem = {}) ∧
    (e.switchClosed = true → e.charged = false → exec .inrushComplete s = .next { s with elec := { e with charged := true } })

/-- R461 to R473: the management boot, BOOT and its failures, READY_LOCAL, and the zeroing of a tier. -/
def Obligations.StartUp : Prop :=
  ∀ (s : State),
    (∀ b, s.getObj Obj.moduleState = 0 ∨ s.boot.ran = false → ∃ t, exec (.domain87Up b) s = .next t ∧ t.getObj Obj.moduleState = 1 ∧
      (b.otpOk = false → t.getObj Obj.startFail = 5 ∧ t.boot.m3 = false) ∧
      (b.otpOk = true → copyOf s 2 b.stage2 0 = none → t.getObj Obj.startFail = 1 ∧ t.boot.m3 = false) ∧
      (b.otpOk = true → ∀ c, copyOf s 2 b.stage2 0 = some c →
        (copyOf s 3 b.stage3 c = none → t.getObj Obj.startFail = 2 ∧ t.boot.m3 = false) ∧
        (copyOf s 3 b.stage3 c ≠ none → t.boot.m3 = true ∧ t.boot.epoch = true))) ∧
    (∀ stage sigs first, 2 ≤ stage → stage ≤ 5 → first ≤ 1 →
      (copyOk s stage sigs first = true → copyOf s stage sigs first = some first) ∧
      (copyOk s stage sigs 0 = false → copyOk s stage sigs 1 = false → copyOf s stage sigs first = none) ∧
      (∀ c, sigs.getLsbD c = false → copyOk s stage sigs c = false) ∧
      ∀ c, s.getObj (Obj.arbCounter (stage - 2)) ≠ 0 → copyVersion s stage c < s.getObj (Obj.arbCounter (stage - 2)) → copyOk s stage sigs c = false) ∧
    (∀ b, s.getObj Obj.moduleState = 1 → s.boot.powerGood = true → s.boot.m3 = true → s.boot.mayStart = true →
      (∀ x ∈ b.badSites, x.1 < 4 ∧ x.2.1 < 12 ∧ x.2.2 < 14) → ∃ t, exec (.boot b) s = .next t ∧
        (b.railsOk = false → t.getObj Obj.moduleState = 1 ∧ t.getObj Obj.startFail = 4 ∧ t.boot.mayStart = false ∧ t.mem = {}) ∧
        (b.railsOk = true → copyOf (beginBoot s) 4 b.stage4 (letter (beginBoot s)) ≠ none → copyOf (beginBoot s) 5 b.stage5 (letter (beginBoot s)) ≠ none → b.otpOk = true → b.llmOk = true → b.deadLinks = 0 → b.badSites = [] →
          (∀ r, r < 48 → 13 ≤ goodSites (beginBoot s) r) → t.getObj Obj.moduleState = 3 ∧ t.getObj Obj.discState = 1 ∧ t.mem = {} ∧ t.launches = [])) ∧
    (∀ r, s.getObj Obj.moduleState = 3 → (∀ c ∈ r.badChannels, c.1 < 12 ∧ c.2 < 32) → r.ddrRate ∈ [0, 6400, 8800] → (∀ p ∈ r.cxl, p.port < 8) →
      (∀ q ∈ r.ports, q < 64) → ∃ t, exec (.readyLocal r) s = .next t ∧
        (r.badChannels = [] → r.cxl = [] → r.ports = [] → s.net.ports = [] → takesPart s = true →
          t.getObj Obj.moduleState = 4 ∧ t.getObj Obj.ddrRate = r.ddrRate ∧ t.getObj Obj.startFail = 0 ∧ t.mem.bytes = s.mem.bytes)) ∧
    (4 ≤ s.getObj Obj.moduleState → ZeroTarget.stacked ∉ s.mem.zeroed → ∃ t, exec (.tierZeroingComplete .stacked) s = .next t ∧
      ZeroTarget.stacked ∈ t.mem.zeroed ∧ t.mem.bytes = s.mem.bytes)

/-! ### Reset and the invariant -/

/-- The reset column of the object tables and Table 17.7: right after reset every object reads its reset value, the module is in STANDBY, no
command waits and nothing is held. What an unlisted address of memory reads as is the scrub value of R468 (log 4, the model's choice). -/
def Obligations.ResetState : Prop :=
  (∀ k, State.reset.getObj k = objReset k) ∧ State.reset.getObj Obj.moduleState = 1 ∧ State.reset.getObj Obj.tickPeriod = 1000 ∧
    State.reset.getObj Obj.periodDefault = 1000 ∧ State.reset.getObj Obj.failLimit = 64 ∧ State.reset.getObj Obj.tjTarget = 100 ∧
    State.reset.getObj Obj.stackTarget = 95 ∧ State.reset.getObj Obj.transportTimeout = 10000 ∧ State.reset.getObj Obj.holdoverLimit = 10000 ∧
    State.reset.getObj Obj.pointHeld = 3 ∧ State.reset.getObj Obj.moduleId = 0xFFFFFFFF ∧
    (∀ c, c < 256 → State.reset.getObj (Obj.chSlice c) = 0xFF ∧ State.reset.getObj (Obj.chEnable c) = 0 ∧ State.reset.getObj (Obj.ringSlots c) = 64 ∧
      State.reset.getObj (Obj.fetch c) = 0) ∧
    (∀ n, n < 64 → State.reset.getObj (Obj.sState n) = 0) ∧ (∀ k, k < 8 → State.reset.getObj (Obj.lsEnable k) = 0) ∧
    (∀ p, p < 2 → State.reset.getObj (Obj.cpState p) = 0 ∧ State.reset.getObj (Obj.cpFenceLimit p) = 16) ∧
    State.reset.pending = [] ∧ (∀ a, cellGet State.reset.mem.bytes a = 0) ∧ State.reset.launches = [] ∧ State.reset.chans = [] ∧
    State.reset.locks = [] ∧ State.reset.net.ports = [] ∧ Canonical State.reset

/-- Logs 1 and 4 (the model's own forms): every step that goes on keeps the canonical forms of the dictionary and of device memory: no key
twice, keys rising, nothing listed that equals what an unlisted key reads as. -/
def Obligations.StepsKeepCanonicalForm : Prop :=
  ∀ (s t : State), Canonical s → step s = .next t → Canonical t
end

