-- ==== Sys2Proof/Laws/Sparse.lean ====
section
/-! SUPPORT. Laws of the canonical sparse maps and of the cells of bytes: a read after a write, and that every write keeps the
canonical form. -/

namespace Sys2Proof.Machine

variable {α : Type} {d : Nat → α}

theorem sget_sinsert_same (a : Nat) (v : α) (l : List (Nat × α)) (h : ∀ p ∈ l, p.1 ≠ a) : sget d (sinsert a v l) a = v := by
  induction l with
  | nil => simp [sinsert, sget]
  | cons p l ih =>
    obtain ⟨k, w⟩ := p
    simp only [List.mem_cons, forall_eq_or_imp] at h
    simp only [sinsert]
    split
    · simp [sget]
    · simp [sget, Ne.symm h.1, ih h.2]

theorem sget_sinsert_ne {a b : Nat} (v : α) (l : List (Nat × α)) (h : a ≠ b) : sget d (sinsert a v l) b = sget d l b := by
  induction l with
  | nil => simp [sinsert, sget, Ne.symm h]
  | cons p l ih =>
    obtain ⟨k, w⟩ := p
    simp only [sinsert]
    split
    · simp [sget, Ne.symm h]
    · simp only [sget, ih]

theorem sget_filter_same (a : Nat) (l : List (Nat × α)) : sget d (l.filter fun p => p.1 != a) a = d a := by
  induction l with
  | nil => rfl
  | cons p l ih =>
    obtain ⟨k, w⟩ := p
    by_cases hk : k = a
    · simpa [hk] using ih
    · simp [hk, sget, Ne.symm hk, ih]

theorem sget_filter_ne {a b : Nat} (l : List (Nat × α)) (h : a ≠ b) : sget d (l.filter fun p => p.1 != a) b = sget d l b := by
  induction l with
  | nil => rfl
  | cons p l ih =>
    obtain ⟨k, w⟩ := p
    by_cases hk : k = a
    · subst hk; simpa [sget, Ne.symm h] using ih
    · simp [hk, sget, ih]

variable [DecidableEq α]

/-- A read gives the value written. -/
@[simp] theorem sget_sput_same (l : List (Nat × α)) (a : Nat) (v : α) : sget d (sput d l a v) a = v := by
  simp only [sput]
  split
  · next h => rw [sget_filter_same, h]
  · exact sget_sinsert_same a v _ (by simp)

/-- A read of another key is as before. -/
theorem sget_sput_ne {a b : Nat} (l : List (Nat × α)) (v : α) (h : a ≠ b) : sget d (sput d l a v) b = sget d l b := by
  simp only [sput]
  split
  · exact sget_filter_ne l h
  · rw [sget_sinsert_ne v _ h, sget_filter_ne l h]

theorem sget_sput (l : List (Nat × α)) (a b : Nat) (v : α) : sget d (sput d l a v) b = if b = a then v else sget d l b := by
  split
  · next h => subst h; exact sget_sput_same l b v
  · next h => exact sget_sput_ne l v (Ne.symm h)

omit [DecidableEq α] in
/-- An entry written over a list that keeps every entry (predicates). -/
theorem sget_lput (l : List (Nat × α)) (a b : Nat) (v : α) : sget d (lput l a v) b = if b = a then v else sget d l b := by
  induction l with
  | nil => simp [lput, sget]
  | cons p l ih =>
    obtain ⟨k, w⟩ := p
    simp only [lput]
    repeat' split
    all_goals simp_all [sget]

/-! ### The canonical form -/

/-- Keys of a list are all above a bound. -/
def keysAbove (b : Nat) (l : List (Nat × α)) : Prop := ∀ p ∈ l, b < p.1

theorem swf_cons {k : Nat} {v : α} {l : List (Nat × α)} :
    swf d ((k, v) :: l) = true ↔ v ≠ d k ∧ swf d l = true ∧ keysAbove k l := by
  induction l generalizing k v with
  | nil => simp [swf, keysAbove]
  | cons p l ih =>
    obtain ⟨k', v'⟩ := p
    simp only [swf, Bool.and_eq_true, decide_eq_true_eq, ih, keysAbove, List.mem_cons, forall_eq_or_imp]
    constructor
    · rintro ⟨⟨h1, h2⟩, h3, h4, h5⟩
      exact ⟨h1, ⟨h3, h4, h5⟩, h2, fun p hp => lt_trans h2 (h5 p hp)⟩
    · rintro ⟨h1, ⟨h3, h4, h5⟩, h2, -⟩
      exact ⟨⟨h1, h2⟩, h3, h4, h5⟩

theorem swf_filter {l : List (Nat × α)} (h : swf d l = true) (p : Nat × α → Bool) : swf d (l.filter p) = true := by
  induction l with
  | nil => rfl
  | cons x l ih =>
    obtain ⟨k, w⟩ := x
    rw [swf_cons] at h
    simp only [List.filter_cons]
    split
    · exact swf_cons.2 ⟨h.1, ih h.2.1, fun q hq => h.2.2 q (List.mem_of_mem_filter hq)⟩
    · exact ih h.2.1

omit [DecidableEq α] in
theorem keysAbove_sinsert {b a : Nat} {v : α} {l : List (Nat × α)} (h : keysAbove b l) (hb : b < a) :
    keysAbove b (sinsert a v l) := by
  induction l with
  | nil => simp [sinsert, keysAbove, hb]
  | cons p l ih =>
    obtain ⟨k, w⟩ := p
    simp only [keysAbove, List.mem_cons, forall_eq_or_imp] at h
    have := ih h.2
    simp only [sinsert]
    intro q hq
    split at hq
    · rcases List.mem_cons.1 hq with rfl | hq
      · exact hb
      · rcases List.mem_cons.1 hq with rfl | hq
        · exact h.1
        · exact h.2 q hq
    · rcases List.mem_cons.1 hq with rfl | hq
      · exact h.1
      · exact this q hq

theorem swf_sinsert {l : List (Nat × α)} {a : Nat} {v : α} (h : swf d l = true) (hv : v ≠ d a) (ha : ∀ p ∈ l, p.1 ≠ a) :
    swf d (sinsert a v l) = true := by
  induction l with
  | nil => simp [sinsert, swf, hv]
  | cons p l ih =>
    obtain ⟨k, w⟩ := p
    have h' := swf_cons.1 h
    simp only [List.mem_cons, forall_eq_or_imp] at ha
    simp only [sinsert]
    split
    · next hk =>
      refine swf_cons.2 ⟨hv, h, fun q hq => ?_⟩
      rcases List.mem_cons.1 hq with rfl | hq
      · exact hk
      · exact lt_trans hk (h'.2.2 q hq)
    · next hk => exact swf_cons.2 ⟨h'.1, ih h'.2.1 ha.2, keysAbove_sinsert h'.2.2 (lt_of_le_of_ne (Nat.le_of_not_lt hk) ha.1)⟩

/-- A write keeps the canonical form. -/
theorem swf_sput {l : List (Nat × α)} (h : swf d l = true) (a : Nat) (v : α) : swf d (sput d l a v) = true := by
  simp only [sput]
  split
  · exact swf_filter h _
  · next hv => exact swf_sinsert (swf_filter h _) hv (by simp)

/-! ### Cells of bytes -/

/-- A write of a byte keeps the canonical form of a memory. -/
theorem wf_cellPut {l : List Host.Cell} (h : Memory.wf l) (a : Nat) (b : Byte) : Memory.wf (cellPut l a b) := swf_sput h a b

/-- A write of bytes keeps the canonical form of a memory. -/
theorem wf_cellsPut {l : List Host.Cell} (bs : List Byte) (h : Memory.wf l) (a : Nat) : Memory.wf (cellsPut l a bs) := by
  induction bs generalizing l a with
  | nil => exact h
  | cons b bs ih => exact ih (wf_cellPut h a b) (a + 1)

theorem cellGet_cellPut (l : List Host.Cell) (a c : Nat) (b : Byte) :
    cellGet (cellPut l a b) c = if c = a then b else cellGet l c := sget_sput l a c b

/-- A byte outside the written bytes reads as before. -/
theorem cellGet_cellsPut_outside (bs : List Byte) (l : List Host.Cell) {a c : Nat} (hc : c < a ∨ a + bs.length ≤ c) :
    cellGet (cellsPut l a bs) c = cellGet l c := by
  induction bs generalizing l a with
  | nil => rfl
  | cons b bs ih =>
    simp only [List.length_cons] at hc
    rw [cellsPut, ih (cellPut l a b) (by omega), cellGet_cellPut, if_neg (by omega)]

/-- A written byte reads as the byte written. -/
theorem cellGet_cellsPut_inside (bs : List Byte) (l : List Host.Cell) {a i : Nat} (hi : i < bs.length) :
    cellGet (cellsPut l a bs) (a + i) = bs.getD i 0 := by
  induction bs generalizing l a i with
  | nil => simp at hi
  | cons b bs ih =>
    cases i with
    | zero => rw [cellsPut, cellGet_cellsPut_outside bs (cellPut l a b) (by omega)]; simp [cellGet_cellPut]
    | succ i =>
      rw [cellsPut, show a + (i + 1) = a + 1 + i by omega, ih (cellPut l a b) (by simpa using hi)]
      rfl

end Sys2Proof.Machine
end

