-- ==== Sys2Proof/Laws/State.lean ====
section
/-! SUPPORT. Laws of State: what each update leaves of every field, and what each accessor reads after an update of another
place. All hold by rfl, so no later proof unfolds a record update. -/

namespace Sys2Proof.Machine.State

variable (s : State)

/-! ### Fields after an update -/

@[simp] theorem putObj_inForce (k v : Nat) : (s.putObj k v).inForce = s.inForce := rfl
@[simp] theorem putObj_scrubs (k v : Nat) : (s.putObj k v).scrubs = s.scrubs := rfl
@[simp] theorem putObj_blobs (k v : Nat) : (s.putObj k v).blobs = s.blobs := rfl
@[simp] theorem putObj_mem (k v : Nat) : (s.putObj k v).mem = s.mem := rfl
@[simp] theorem putObj_cores (k v : Nat) : (s.putObj k v).cores = s.cores := rfl
@[simp] theorem putObj_launches (k v : Nat) : (s.putObj k v).launches = s.launches := rfl
@[simp] theorem putObj_nextCtx (k v : Nat) : (s.putObj k v).nextCtx = s.nextCtx := rfl
@[simp] theorem putObj_nextOrd (k v : Nat) : (s.putObj k v).nextOrd = s.nextOrd := rfl
@[simp] theorem putObj_turns (k v : Nat) : (s.putObj k v).turns = s.turns := rfl
@[simp] theorem putObj_stores (k v : Nat) : (s.putObj k v).stores = s.stores := rfl
@[simp] theorem putObj_chans (k v : Nat) : (s.putObj k v).chans = s.chans := rfl
@[simp] theorem putObj_slices (k v : Nat) : (s.putObj k v).slices = s.slices := rfl
@[simp] theorem putObj_sopResults (k v : Nat) : (s.putObj k v).sopResults = s.sopResults := rfl
@[simp] theorem putObj_locks (k v : Nat) : (s.putObj k v).locks = s.locks := rfl
@[simp] theorem putObj_bank (k v : Nat) : (s.putObj k v).bank = s.bank := rfl
@[simp] theorem putObj_granule (k v : Nat) : (s.putObj k v).granule = s.granule := rfl
@[simp] theorem putObj_net (k v : Nat) : (s.putObj k v).net = s.net := rfl
@[simp] theorem putObj_odp (k v : Nat) : (s.putObj k v).odp = s.odp := rfl
@[simp] theorem putObj_power (k v : Nat) : (s.putObj k v).power = s.power := rfl
@[simp] theorem putObj_elec (k v : Nat) : (s.putObj k v).elec = s.elec := rfl
@[simp] theorem putObj_chips (k v : Nat) : (s.putObj k v).chips = s.chips := rfl
@[simp] theorem putObj_boot (k v : Nat) : (s.putObj k v).boot = s.boot := rfl
@[simp] theorem putObj_free (k v : Nat) : (s.putObj k v).free = s.free := rfl
@[simp] theorem putObj_out (k v : Nat) : (s.putObj k v).out = s.out := rfl
@[simp] theorem putObj_pending (k v : Nat) : (s.putObj k v).pending = s.pending := rfl

@[simp] theorem addObj_inForce (k n : Nat) : (s.addObj k n).inForce = s.inForce := rfl
@[simp] theorem addObj_scrubs (k n : Nat) : (s.addObj k n).scrubs = s.scrubs := rfl
@[simp] theorem addObj_blobs (k n : Nat) : (s.addObj k n).blobs = s.blobs := rfl
@[simp] theorem addObj_mem (k n : Nat) : (s.addObj k n).mem = s.mem := rfl
@[simp] theorem addObj_cores (k n : Nat) : (s.addObj k n).cores = s.cores := rfl
@[simp] theorem addObj_launches (k n : Nat) : (s.addObj k n).launches = s.launches := rfl
@[simp] theorem addObj_nextCtx (k n : Nat) : (s.addObj k n).nextCtx = s.nextCtx := rfl
@[simp] theorem addObj_nextOrd (k n : Nat) : (s.addObj k n).nextOrd = s.nextOrd := rfl
@[simp] theorem addObj_turns (k n : Nat) : (s.addObj k n).turns = s.turns := rfl
@[simp] theorem addObj_stores (k n : Nat) : (s.addObj k n).stores = s.stores := rfl
@[simp] theorem addObj_chans (k n : Nat) : (s.addObj k n).chans = s.chans := rfl
@[simp] theorem addObj_slices (k n : Nat) : (s.addObj k n).slices = s.slices := rfl
@[simp] theorem addObj_sopResults (k n : Nat) : (s.addObj k n).sopResults = s.sopResults := rfl
@[simp] theorem addObj_locks (k n : Nat) : (s.addObj k n).locks = s.locks := rfl
@[simp] theorem addObj_bank (k n : Nat) : (s.addObj k n).bank = s.bank := rfl
@[simp] theorem addObj_granule (k n : Nat) : (s.addObj k n).granule = s.granule := rfl
@[simp] theorem addObj_net (k n : Nat) : (s.addObj k n).net = s.net := rfl
@[simp] theorem addObj_odp (k n : Nat) : (s.addObj k n).odp = s.odp := rfl
@[simp] theorem addObj_power (k n : Nat) : (s.addObj k n).power = s.power := rfl
@[simp] theorem addObj_elec (k n : Nat) : (s.addObj k n).elec = s.elec := rfl
@[simp] theorem addObj_chips (k n : Nat) : (s.addObj k n).chips = s.chips := rfl
@[simp] theorem addObj_boot (k n : Nat) : (s.addObj k n).boot = s.boot := rfl
@[simp] theorem addObj_free (k n : Nat) : (s.addObj k n).free = s.free := rfl
@[simp] theorem addObj_out (k n : Nat) : (s.addObj k n).out = s.out := rfl
@[simp] theorem addObj_pending (k n : Nat) : (s.addObj k n).pending = s.pending := rfl

@[simp] theorem subObj_inForce (k n : Nat) : (s.subObj k n).inForce = s.inForce := rfl
@[simp] theorem subObj_scrubs (k n : Nat) : (s.subObj k n).scrubs = s.scrubs := rfl
@[simp] theorem subObj_blobs (k n : Nat) : (s.subObj k n).blobs = s.blobs := rfl
@[simp] theorem subObj_mem (k n : Nat) : (s.subObj k n).mem = s.mem := rfl
@[simp] theorem subObj_cores (k n : Nat) : (s.subObj k n).cores = s.cores := rfl
@[simp] theorem subObj_launches (k n : Nat) : (s.subObj k n).launches = s.launches := rfl
@[simp] theorem subObj_nextCtx (k n : Nat) : (s.subObj k n).nextCtx = s.nextCtx := rfl
@[simp] theorem subObj_nextOrd (k n : Nat) : (s.subObj k n).nextOrd = s.nextOrd := rfl
@[simp] theorem subObj_turns (k n : Nat) : (s.subObj k n).turns = s.turns := rfl
@[simp] theorem subObj_stores (k n : Nat) : (s.subObj k n).stores = s.stores := rfl
@[simp] theorem subObj_chans (k n : Nat) : (s.subObj k n).chans = s.chans := rfl
@[simp] theorem subObj_slices (k n : Nat) : (s.subObj k n).slices = s.slices := rfl
@[simp] theorem subObj_sopResults (k n : Nat) : (s.subObj k n).sopResults = s.sopResults := rfl
@[simp] theorem subObj_locks (k n : Nat) : (s.subObj k n).locks = s.locks := rfl
@[simp] theorem subObj_bank (k n : Nat) : (s.subObj k n).bank = s.bank := rfl
@[simp] theorem subObj_granule (k n : Nat) : (s.subObj k n).granule = s.granule := rfl
@[simp] theorem subObj_net (k n : Nat) : (s.subObj k n).net = s.net := rfl
@[simp] theorem subObj_odp (k n : Nat) : (s.subObj k n).odp = s.odp := rfl
@[simp] theorem subObj_power (k n : Nat) : (s.subObj k n).power = s.power := rfl
@[simp] theorem subObj_elec (k n : Nat) : (s.subObj k n).elec = s.elec := rfl
@[simp] theorem subObj_chips (k n : Nat) : (s.subObj k n).chips = s.chips := rfl
@[simp] theorem subObj_boot (k n : Nat) : (s.subObj k n).boot = s.boot := rfl
@[simp] theorem subObj_free (k n : Nat) : (s.subObj k n).free = s.free := rfl
@[simp] theorem subObj_out (k n : Nat) : (s.subObj k n).out = s.out := rfl
@[simp] theorem subObj_pending (k n : Nat) : (s.subObj k n).pending = s.pending := rfl

@[simp] theorem setAlert_inForce (i : Nat) : (s.setAlert i).inForce = s.inForce := rfl
@[simp] theorem setAlert_scrubs (i : Nat) : (s.setAlert i).scrubs = s.scrubs := rfl
@[simp] theorem setAlert_blobs (i : Nat) : (s.setAlert i).blobs = s.blobs := rfl
@[simp] theorem setAlert_mem (i : Nat) : (s.setAlert i).mem = s.mem := rfl
@[simp] theorem setAlert_cores (i : Nat) : (s.setAlert i).cores = s.cores := rfl
@[simp] theorem setAlert_launches (i : Nat) : (s.setAlert i).launches = s.launches := rfl
@[simp] theorem setAlert_nextCtx (i : Nat) : (s.setAlert i).nextCtx = s.nextCtx := rfl
@[simp] theorem setAlert_nextOrd (i : Nat) : (s.setAlert i).nextOrd = s.nextOrd := rfl
@[simp] theorem setAlert_turns (i : Nat) : (s.setAlert i).turns = s.turns := rfl
@[simp] theorem setAlert_stores (i : Nat) : (s.setAlert i).stores = s.stores := rfl
@[simp] theorem setAlert_chans (i : Nat) : (s.setAlert i).chans = s.chans := rfl
@[simp] theorem setAlert_slices (i : Nat) : (s.setAlert i).slices = s.slices := rfl
@[simp] theorem setAlert_sopResults (i : Nat) : (s.setAlert i).sopResults = s.sopResults := rfl
@[simp] theorem setAlert_locks (i : Nat) : (s.setAlert i).locks = s.locks := rfl
@[simp] theorem setAlert_bank (i : Nat) : (s.setAlert i).bank = s.bank := rfl
@[simp] theorem setAlert_granule (i : Nat) : (s.setAlert i).granule = s.granule := rfl
@[simp] theorem setAlert_net (i : Nat) : (s.setAlert i).net = s.net := rfl
@[simp] theorem setAlert_odp (i : Nat) : (s.setAlert i).odp = s.odp := rfl
@[simp] theorem setAlert_power (i : Nat) : (s.setAlert i).power = s.power := rfl
@[simp] theorem setAlert_elec (i : Nat) : (s.setAlert i).elec = s.elec := rfl
@[simp] theorem setAlert_chips (i : Nat) : (s.setAlert i).chips = s.chips := rfl
@[simp] theorem setAlert_boot (i : Nat) : (s.setAlert i).boot = s.boot := rfl
@[simp] theorem setAlert_free (i : Nat) : (s.setAlert i).free = s.free := rfl
@[simp] theorem setAlert_out (i : Nat) : (s.setAlert i).out = s.out := rfl
@[simp] theorem setAlert_pending (i : Nat) : (s.setAlert i).pending = s.pending := rfl

@[simp] theorem putBlob_od (k : Nat) (v : List Byte) : (s.putBlob k v).od = s.od := rfl
@[simp] theorem raiseHeld_inForce (i : Nat) : (s.raiseHeld i).inForce = s.inForce := rfl
@[simp] theorem raiseHeld_scrubs (i : Nat) : (s.raiseHeld i).scrubs = s.scrubs := rfl
@[simp] theorem raiseHeld_blobs (i : Nat) : (s.raiseHeld i).blobs = s.blobs := rfl
@[simp] theorem raiseHeld_mem (i : Nat) : (s.raiseHeld i).mem = s.mem := rfl
@[simp] theorem raiseHeld_cores (i : Nat) : (s.raiseHeld i).cores = s.cores := rfl
@[simp] theorem raiseHeld_launches (i : Nat) : (s.raiseHeld i).launches = s.launches := rfl
@[simp] theorem raiseHeld_nextCtx (i : Nat) : (s.raiseHeld i).nextCtx = s.nextCtx := rfl
@[simp] theorem raiseHeld_nextOrd (i : Nat) : (s.raiseHeld i).nextOrd = s.nextOrd := rfl
@[simp] theorem raiseHeld_turns (i : Nat) : (s.raiseHeld i).turns = s.turns := rfl
@[simp] theorem raiseHeld_stores (i : Nat) : (s.raiseHeld i).stores = s.stores := rfl
@[simp] theorem raiseHeld_chans (i : Nat) : (s.raiseHeld i).chans = s.chans := rfl
@[simp] theorem raiseHeld_slices (i : Nat) : (s.raiseHeld i).slices = s.slices := rfl
@[simp] theorem raiseHeld_sopResults (i : Nat) : (s.raiseHeld i).sopResults = s.sopResults := rfl
@[simp] theorem raiseHeld_locks (i : Nat) : (s.raiseHeld i).locks = s.locks := rfl
@[simp] theorem raiseHeld_bank (i : Nat) : (s.raiseHeld i).bank = s.bank := rfl
@[simp] theorem raiseHeld_granule (i : Nat) : (s.raiseHeld i).granule = s.granule := rfl
@[simp] theorem raiseHeld_net (i : Nat) : (s.raiseHeld i).net = s.net := rfl
@[simp] theorem raiseHeld_odp (i : Nat) : (s.raiseHeld i).odp = s.odp := rfl
@[simp] theorem raiseHeld_power (i : Nat) : (s.raiseHeld i).power = s.power := rfl
@[simp] theorem raiseHeld_chips (i : Nat) : (s.raiseHeld i).chips = s.chips := rfl
@[simp] theorem raiseHeld_boot (i : Nat) : (s.raiseHeld i).boot = s.boot := rfl
@[simp] theorem raiseHeld_free (i : Nat) : (s.raiseHeld i).free = s.free := rfl
@[simp] theorem raiseHeld_out (i : Nat) : (s.raiseHeld i).out = s.out := rfl
@[simp] theorem raiseHeld_pending (i : Nat) : (s.raiseHeld i).pending = s.pending := rfl
@[simp] theorem raiseHeld_freeVal (i : Nat) : (s.raiseHeld i).freeVal = s.freeVal := rfl

@[simp] theorem endHeld_od (i : Nat) : (s.endHeld i).od = s.od := rfl
@[simp] theorem endHeld_inForce (i : Nat) : (s.endHeld i).inForce = s.inForce := rfl
@[simp] theorem endHeld_scrubs (i : Nat) : (s.endHeld i).scrubs = s.scrubs := rfl
@[simp] theorem endHeld_blobs (i : Nat) : (s.endHeld i).blobs = s.blobs := rfl
@[simp] theorem endHeld_mem (i : Nat) : (s.endHeld i).mem = s.mem := rfl
@[simp] theorem endHeld_cores (i : Nat) : (s.endHeld i).cores = s.cores := rfl
@[simp] theorem endHeld_launches (i : Nat) : (s.endHeld i).launches = s.launches := rfl
@[simp] theorem endHeld_nextCtx (i : Nat) : (s.endHeld i).nextCtx = s.nextCtx := rfl
@[simp] theorem endHeld_nextOrd (i : Nat) : (s.endHeld i).nextOrd = s.nextOrd := rfl
@[simp] theorem endHeld_turns (i : Nat) : (s.endHeld i).turns = s.turns := rfl
@[simp] theorem endHeld_stores (i : Nat) : (s.endHeld i).stores = s.stores := rfl
@[simp] theorem endHeld_chans (i : Nat) : (s.endHeld i).chans = s.chans := rfl
@[simp] theorem endHeld_slices (i : Nat) : (s.endHeld i).slices = s.slices := rfl
@[simp] theorem endHeld_sopResults (i : Nat) : (s.endHeld i).sopResults = s.sopResults := rfl
@[simp] theorem endHeld_locks (i : Nat) : (s.endHeld i).locks = s.locks := rfl
@[simp] theorem endHeld_bank (i : Nat) : (s.endHeld i).bank = s.bank := rfl
@[simp] theorem endHeld_granule (i : Nat) : (s.endHeld i).granule = s.granule := rfl
@[simp] theorem endHeld_net (i : Nat) : (s.endHeld i).net = s.net := rfl
@[simp] theorem endHeld_odp (i : Nat) : (s.endHeld i).odp = s.odp := rfl
@[simp] theorem endHeld_power (i : Nat) : (s.endHeld i).power = s.power := rfl
@[simp] theorem endHeld_chips (i : Nat) : (s.endHeld i).chips = s.chips := rfl
@[simp] theorem endHeld_boot (i : Nat) : (s.endHeld i).boot = s.boot := rfl
@[simp] theorem endHeld_free (i : Nat) : (s.endHeld i).free = s.free := rfl
@[simp] theorem endHeld_out (i : Nat) : (s.endHeld i).out = s.out := rfl
@[simp] theorem endHeld_pending (i : Nat) : (s.endHeld i).pending = s.pending := rfl
@[simp] theorem endHeld_freeVal (i : Nat) : (s.endHeld i).freeVal = s.freeVal := rfl

@[simp] theorem putBlob_inForce (k : Nat) (v : List Byte) : (s.putBlob k v).inForce = s.inForce := rfl
@[simp] theorem putBlob_scrubs (k : Nat) (v : List Byte) : (s.putBlob k v).scrubs = s.scrubs := rfl
@[simp] theorem putBlob_mem (k : Nat) (v : List Byte) : (s.putBlob k v).mem = s.mem := rfl
@[simp] theorem putBlob_cores (k : Nat) (v : List Byte) : (s.putBlob k v).cores = s.cores := rfl
@[simp] theorem putBlob_launches (k : Nat) (v : List Byte) : (s.putBlob k v).launches = s.launches := rfl
@[simp] theorem putBlob_nextCtx (k : Nat) (v : List Byte) : (s.putBlob k v).nextCtx = s.nextCtx := rfl
@[simp] theorem putBlob_nextOrd (k : Nat) (v : List Byte) : (s.putBlob k v).nextOrd = s.nextOrd := rfl
@[simp] theorem putBlob_turns (k : Nat) (v : List Byte) : (s.putBlob k v).turns = s.turns := rfl
@[simp] theorem putBlob_stores (k : Nat) (v : List Byte) : (s.putBlob k v).stores = s.stores := rfl
@[simp] theorem putBlob_chans (k : Nat) (v : List Byte) : (s.putBlob k v).chans = s.chans := rfl
@[simp] theorem putBlob_slices (k : Nat) (v : List Byte) : (s.putBlob k v).slices = s.slices := rfl
@[simp] theorem putBlob_sopResults (k : Nat) (v : List Byte) : (s.putBlob k v).sopResults = s.sopResults := rfl
@[simp] theorem putBlob_locks (k : Nat) (v : List Byte) : (s.putBlob k v).locks = s.locks := rfl
@[simp] theorem putBlob_bank (k : Nat) (v : List Byte) : (s.putBlob k v).bank = s.bank := rfl
@[simp] theorem putBlob_granule (k : Nat) (v : List Byte) : (s.putBlob k v).granule = s.granule := rfl
@[simp] theorem putBlob_net (k : Nat) (v : List Byte) : (s.putBlob k v).net = s.net := rfl
@[simp] theorem putBlob_odp (k : Nat) (v : List Byte) : (s.putBlob k v).odp = s.odp := rfl
@[simp] theorem putBlob_power (k : Nat) (v : List Byte) : (s.putBlob k v).power = s.power := rfl
@[simp] theorem putBlob_elec (k : Nat) (v : List Byte) : (s.putBlob k v).elec = s.elec := rfl
@[simp] theorem putBlob_chips (k : Nat) (v : List Byte) : (s.putBlob k v).chips = s.chips := rfl
@[simp] theorem putBlob_boot (k : Nat) (v : List Byte) : (s.putBlob k v).boot = s.boot := rfl
@[simp] theorem putBlob_free (k : Nat) (v : List Byte) : (s.putBlob k v).free = s.free := rfl
@[simp] theorem putBlob_out (k : Nat) (v : List Byte) : (s.putBlob k v).out = s.out := rfl
@[simp] theorem putBlob_pending (k : Nat) (v : List Byte) : (s.putBlob k v).pending = s.pending := rfl

@[simp] theorem useFree_od (n : Nat) : (s.useFree n).od = s.od := rfl
@[simp] theorem useFree_inForce (n : Nat) : (s.useFree n).inForce = s.inForce := rfl
@[simp] theorem useFree_scrubs (n : Nat) : (s.useFree n).scrubs = s.scrubs := rfl
@[simp] theorem useFree_blobs (n : Nat) : (s.useFree n).blobs = s.blobs := rfl
@[simp] theorem useFree_mem (n : Nat) : (s.useFree n).mem = s.mem := rfl
@[simp] theorem useFree_cores (n : Nat) : (s.useFree n).cores = s.cores := rfl
@[simp] theorem useFree_launches (n : Nat) : (s.useFree n).launches = s.launches := rfl
@[simp] theorem useFree_nextCtx (n : Nat) : (s.useFree n).nextCtx = s.nextCtx := rfl
@[simp] theorem useFree_nextOrd (n : Nat) : (s.useFree n).nextOrd = s.nextOrd := rfl
@[simp] theorem useFree_turns (n : Nat) : (s.useFree n).turns = s.turns := rfl
@[simp] theorem useFree_stores (n : Nat) : (s.useFree n).stores = s.stores := rfl
@[simp] theorem useFree_chans (n : Nat) : (s.useFree n).chans = s.chans := rfl
@[simp] theorem useFree_slices (n : Nat) : (s.useFree n).slices = s.slices := rfl
@[simp] theorem useFree_sopResults (n : Nat) : (s.useFree n).sopResults = s.sopResults := rfl
@[simp] theorem useFree_locks (n : Nat) : (s.useFree n).locks = s.locks := rfl
@[simp] theorem useFree_bank (n : Nat) : (s.useFree n).bank = s.bank := rfl
@[simp] theorem useFree_granule (n : Nat) : (s.useFree n).granule = s.granule := rfl
@[simp] theorem useFree_net (n : Nat) : (s.useFree n).net = s.net := rfl
@[simp] theorem useFree_odp (n : Nat) : (s.useFree n).odp = s.odp := rfl
@[simp] theorem useFree_power (n : Nat) : (s.useFree n).power = s.power := rfl
@[simp] theorem useFree_elec (n : Nat) : (s.useFree n).elec = s.elec := rfl
@[simp] theorem useFree_chips (n : Nat) : (s.useFree n).chips = s.chips := rfl
@[simp] theorem useFree_boot (n : Nat) : (s.useFree n).boot = s.boot := rfl
@[simp] theorem useFree_out (n : Nat) : (s.useFree n).out = s.out := rfl
@[simp] theorem useFree_pending (n : Nat) : (s.useFree n).pending = s.pending := rfl

@[simp] theorem setSlice_od (x : Slice) : (s.setSlice x).od = s.od := rfl
@[simp] theorem setSlice_inForce (x : Slice) : (s.setSlice x).inForce = s.inForce := rfl
@[simp] theorem setSlice_scrubs (x : Slice) : (s.setSlice x).scrubs = s.scrubs := rfl
@[simp] theorem setSlice_blobs (x : Slice) : (s.setSlice x).blobs = s.blobs := rfl
@[simp] theorem setSlice_mem (x : Slice) : (s.setSlice x).mem = s.mem := rfl
@[simp] theorem setSlice_cores (x : Slice) : (s.setSlice x).cores = s.cores := rfl
@[simp] theorem setSlice_launches (x : Slice) : (s.setSlice x).launches = s.launches := rfl
@[simp] theorem setSlice_nextCtx (x : Slice) : (s.setSlice x).nextCtx = s.nextCtx := rfl
@[simp] theorem setSlice_nextOrd (x : Slice) : (s.setSlice x).nextOrd = s.nextOrd := rfl
@[simp] theorem setSlice_turns (x : Slice) : (s.setSlice x).turns = s.turns := rfl
@[simp] theorem setSlice_stores (x : Slice) : (s.setSlice x).stores = s.stores := rfl
@[simp] theorem setSlice_chans (x : Slice) : (s.setSlice x).chans = s.chans := rfl
@[simp] theorem setSlice_sopResults (x : Slice) : (s.setSlice x).sopResults = s.sopResults := rfl
@[simp] theorem setSlice_locks (x : Slice) : (s.setSlice x).locks = s.locks := rfl
@[simp] theorem setSlice_bank (x : Slice) : (s.setSlice x).bank = s.bank := rfl
@[simp] theorem setSlice_granule (x : Slice) : (s.setSlice x).granule = s.granule := rfl
@[simp] theorem setSlice_net (x : Slice) : (s.setSlice x).net = s.net := rfl
@[simp] theorem setSlice_odp (x : Slice) : (s.setSlice x).odp = s.odp := rfl
@[simp] theorem setSlice_power (x : Slice) : (s.setSlice x).power = s.power := rfl
@[simp] theorem setSlice_elec (x : Slice) : (s.setSlice x).elec = s.elec := rfl
@[simp] theorem setSlice_chips (x : Slice) : (s.setSlice x).chips = s.chips := rfl
@[simp] theorem setSlice_boot (x : Slice) : (s.setSlice x).boot = s.boot := rfl
@[simp] theorem setSlice_free (x : Slice) : (s.setSlice x).free = s.free := rfl
@[simp] theorem setSlice_out (x : Slice) : (s.setSlice x).out = s.out := rfl
@[simp] theorem setSlice_pending (x : Slice) : (s.setSlice x).pending = s.pending := rfl

@[simp] theorem setChan_od (x : Chan) : (s.setChan x).od = s.od := rfl
@[simp] theorem setChan_inForce (x : Chan) : (s.setChan x).inForce = s.inForce := rfl
@[simp] theorem setChan_scrubs (x : Chan) : (s.setChan x).scrubs = s.scrubs := rfl
@[simp] theorem setChan_blobs (x : Chan) : (s.setChan x).blobs = s.blobs := rfl
@[simp] theorem setChan_mem (x : Chan) : (s.setChan x).mem = s.mem := rfl
@[simp] theorem setChan_cores (x : Chan) : (s.setChan x).cores = s.cores := rfl
@[simp] theorem setChan_launches (x : Chan) : (s.setChan x).launches = s.launches := rfl
@[simp] theorem setChan_nextCtx (x : Chan) : (s.setChan x).nextCtx = s.nextCtx := rfl
@[simp] theorem setChan_nextOrd (x : Chan) : (s.setChan x).nextOrd = s.nextOrd := rfl
@[simp] theorem setChan_turns (x : Chan) : (s.setChan x).turns = s.turns := rfl
@[simp] theorem setChan_stores (x : Chan) : (s.setChan x).stores = s.stores := rfl
@[simp] theorem setChan_slices (x : Chan) : (s.setChan x).slices = s.slices := rfl
@[simp] theorem setChan_sopResults (x : Chan) : (s.setChan x).sopResults = s.sopResults := rfl
@[simp] theorem setChan_locks (x : Chan) : (s.setChan x).locks = s.locks := rfl
@[simp] theorem setChan_bank (x : Chan) : (s.setChan x).bank = s.bank := rfl
@[simp] theorem setChan_granule (x : Chan) : (s.setChan x).granule = s.granule := rfl
@[simp] theorem setChan_net (x : Chan) : (s.setChan x).net = s.net := rfl
@[simp] theorem setChan_odp (x : Chan) : (s.setChan x).odp = s.odp := rfl
@[simp] theorem setChan_power (x : Chan) : (s.setChan x).power = s.power := rfl
@[simp] theorem setChan_elec (x : Chan) : (s.setChan x).elec = s.elec := rfl
@[simp] theorem setChan_chips (x : Chan) : (s.setChan x).chips = s.chips := rfl
@[simp] theorem setChan_boot (x : Chan) : (s.setChan x).boot = s.boot := rfl
@[simp] theorem setChan_free (x : Chan) : (s.setChan x).free = s.free := rfl
@[simp] theorem setChan_out (x : Chan) : (s.setChan x).out = s.out := rfl
@[simp] theorem setChan_pending (x : Chan) : (s.setChan x).pending = s.pending := rfl

@[simp] theorem setCore_od (x : Core) : (s.setCore x).od = s.od := rfl
@[simp] theorem setCore_inForce (x : Core) : (s.setCore x).inForce = s.inForce := rfl
@[simp] theorem setCore_scrubs (x : Core) : (s.setCore x).scrubs = s.scrubs := rfl
@[simp] theorem setCore_blobs (x : Core) : (s.setCore x).blobs = s.blobs := rfl
@[simp] theorem setCore_mem (x : Core) : (s.setCore x).mem = s.mem := rfl
@[simp] theorem setCore_launches (x : Core) : (s.setCore x).launches = s.launches := rfl
@[simp] theorem setCore_nextCtx (x : Core) : (s.setCore x).nextCtx = s.nextCtx := rfl
@[simp] theorem setCore_nextOrd (x : Core) : (s.setCore x).nextOrd = s.nextOrd := rfl
@[simp] theorem setCore_turns (x : Core) : (s.setCore x).turns = s.turns := rfl
@[simp] theorem setCore_stores (x : Core) : (s.setCore x).stores = s.stores := rfl
@[simp] theorem setCore_chans (x : Core) : (s.setCore x).chans = s.chans := rfl
@[simp] theorem setCore_slices (x : Core) : (s.setCore x).slices = s.slices := rfl
@[simp] theorem setCore_sopResults (x : Core) : (s.setCore x).sopResults = s.sopResults := rfl
@[simp] theorem setCore_locks (x : Core) : (s.setCore x).locks = s.locks := rfl
@[simp] theorem setCore_bank (x : Core) : (s.setCore x).bank = s.bank := rfl
@[simp] theorem setCore_granule (x : Core) : (s.setCore x).granule = s.granule := rfl
@[simp] theorem setCore_net (x : Core) : (s.setCore x).net = s.net := rfl
@[simp] theorem setCore_odp (x : Core) : (s.setCore x).odp = s.odp := rfl
@[simp] theorem setCore_power (x : Core) : (s.setCore x).power = s.power := rfl
@[simp] theorem setCore_elec (x : Core) : (s.setCore x).elec = s.elec := rfl
@[simp] theorem setCore_chips (x : Core) : (s.setCore x).chips = s.chips := rfl
@[simp] theorem setCore_boot (x : Core) : (s.setCore x).boot = s.boot := rfl
@[simp] theorem setCore_free (x : Core) : (s.setCore x).free = s.free := rfl
@[simp] theorem setCore_out (x : Core) : (s.setCore x).out = s.out := rfl
@[simp] theorem setCore_pending (x : Core) : (s.setCore x).pending = s.pending := rfl

@[simp] theorem setLaunch_od (x : Launch) : (s.setLaunch x).od = s.od := rfl
@[simp] theorem setLaunch_inForce (x : Launch) : (s.setLaunch x).inForce = s.inForce := rfl
@[simp] theorem setLaunch_scrubs (x : Launch) : (s.setLaunch x).scrubs = s.scrubs := rfl
@[simp] theorem setLaunch_blobs (x : Launch) : (s.setLaunch x).blobs = s.blobs := rfl
@[simp] theorem setLaunch_mem (x : Launch) : (s.setLaunch x).mem = s.mem := rfl
@[simp] theorem setLaunch_cores (x : Launch) : (s.setLaunch x).cores = s.cores := rfl
@[simp] theorem setLaunch_nextCtx (x : Launch) : (s.setLaunch x).nextCtx = s.nextCtx := rfl
@[simp] theorem setLaunch_nextOrd (x : Launch) : (s.setLaunch x).nextOrd = s.nextOrd := rfl
@[simp] theorem setLaunch_turns (x : Launch) : (s.setLaunch x).turns = s.turns := rfl
@[simp] theorem setLaunch_stores (x : Launch) : (s.setLaunch x).stores = s.stores := rfl
@[simp] theorem setLaunch_chans (x : Launch) : (s.setLaunch x).chans = s.chans := rfl
@[simp] theorem setLaunch_slices (x : Launch) : (s.setLaunch x).slices = s.slices := rfl
@[simp] theorem setLaunch_sopResults (x : Launch) : (s.setLaunch x).sopResults = s.sopResults := rfl
@[simp] theorem setLaunch_locks (x : Launch) : (s.setLaunch x).locks = s.locks := rfl
@[simp] theorem setLaunch_bank (x : Launch) : (s.setLaunch x).bank = s.bank := rfl
@[simp] theorem setLaunch_granule (x : Launch) : (s.setLaunch x).granule = s.granule := rfl
@[simp] theorem setLaunch_net (x : Launch) : (s.setLaunch x).net = s.net := rfl
@[simp] theorem setLaunch_odp (x : Launch) : (s.setLaunch x).odp = s.odp := rfl
@[simp] theorem setLaunch_power (x : Launch) : (s.setLaunch x).power = s.power := rfl
@[simp] theorem setLaunch_elec (x : Launch) : (s.setLaunch x).elec = s.elec := rfl
@[simp] theorem setLaunch_chips (x : Launch) : (s.setLaunch x).chips = s.chips := rfl
@[simp] theorem setLaunch_boot (x : Launch) : (s.setLaunch x).boot = s.boot := rfl
@[simp] theorem setLaunch_free (x : Launch) : (s.setLaunch x).free = s.free := rfl
@[simp] theorem setLaunch_out (x : Launch) : (s.setLaunch x).out = s.out := rfl
@[simp] theorem setLaunch_pending (x : Launch) : (s.setLaunch x).pending = s.pending := rfl

@[simp] theorem setLockSet_od (x : LockSet) : (s.setLockSet x).od = s.od := rfl
@[simp] theorem setLockSet_inForce (x : LockSet) : (s.setLockSet x).inForce = s.inForce := rfl
@[simp] theorem setLockSet_scrubs (x : LockSet) : (s.setLockSet x).scrubs = s.scrubs := rfl
@[simp] theorem setLockSet_blobs (x : LockSet) : (s.setLockSet x).blobs = s.blobs := rfl
@[simp] theorem setLockSet_mem (x : LockSet) : (s.setLockSet x).mem = s.mem := rfl
@[simp] theorem setLockSet_cores (x : LockSet) : (s.setLockSet x).cores = s.cores := rfl
@[simp] theorem setLockSet_launches (x : LockSet) : (s.setLockSet x).launches = s.launches := rfl
@[simp] theorem setLockSet_nextCtx (x : LockSet) : (s.setLockSet x).nextCtx = s.nextCtx := rfl
@[simp] theorem setLockSet_nextOrd (x : LockSet) : (s.setLockSet x).nextOrd = s.nextOrd := rfl
@[simp] theorem setLockSet_turns (x : LockSet) : (s.setLockSet x).turns = s.turns := rfl
@[simp] theorem setLockSet_stores (x : LockSet) : (s.setLockSet x).stores = s.stores := rfl
@[simp] theorem setLockSet_chans (x : LockSet) : (s.setLockSet x).chans = s.chans := rfl
@[simp] theorem setLockSet_slices (x : LockSet) : (s.setLockSet x).slices = s.slices := rfl
@[simp] theorem setLockSet_sopResults (x : LockSet) : (s.setLockSet x).sopResults = s.sopResults := rfl
@[simp] theorem setLockSet_bank (x : LockSet) : (s.setLockSet x).bank = s.bank := rfl
@[simp] theorem setLockSet_granule (x : LockSet) : (s.setLockSet x).granule = s.granule := rfl
@[simp] theorem setLockSet_net (x : LockSet) : (s.setLockSet x).net = s.net := rfl
@[simp] theorem setLockSet_odp (x : LockSet) : (s.setLockSet x).odp = s.odp := rfl
@[simp] theorem setLockSet_power (x : LockSet) : (s.setLockSet x).power = s.power := rfl
@[simp] theorem setLockSet_elec (x : LockSet) : (s.setLockSet x).elec = s.elec := rfl
@[simp] theorem setLockSet_chips (x : LockSet) : (s.setLockSet x).chips = s.chips := rfl
@[simp] theorem setLockSet_boot (x : LockSet) : (s.setLockSet x).boot = s.boot := rfl
@[simp] theorem setLockSet_free (x : LockSet) : (s.setLockSet x).free = s.free := rfl
@[simp] theorem setLockSet_out (x : LockSet) : (s.setLockSet x).out = s.out := rfl
@[simp] theorem setLockSet_pending (x : LockSet) : (s.setLockSet x).pending = s.pending := rfl

@[simp] theorem setPort_od (x : Port) : (s.setPort x).od = s.od := rfl
@[simp] theorem setPort_inForce (x : Port) : (s.setPort x).inForce = s.inForce := rfl
@[simp] theorem setPort_scrubs (x : Port) : (s.setPort x).scrubs = s.scrubs := rfl
@[simp] theorem setPort_blobs (x : Port) : (s.setPort x).blobs = s.blobs := rfl
@[simp] theorem setPort_mem (x : Port) : (s.setPort x).mem = s.mem := rfl
@[simp] theorem setPort_cores (x : Port) : (s.setPort x).cores = s.cores := rfl
@[simp] theorem setPort_launches (x : Port) : (s.setPort x).launches = s.launches := rfl
@[simp] theorem setPort_nextCtx (x : Port) : (s.setPort x).nextCtx = s.nextCtx := rfl
@[simp] theorem setPort_nextOrd (x : Port) : (s.setPort x).nextOrd = s.nextOrd := rfl
@[simp] theorem setPort_turns (x : Port) : (s.setPort x).turns = s.turns := rfl
@[simp] theorem setPort_stores (x : Port) : (s.setPort x).stores = s.stores := rfl
@[simp] theorem setPort_chans (x : Port) : (s.setPort x).chans = s.chans := rfl
@[simp] theorem setPort_slices (x : Port) : (s.setPort x).slices = s.slices := rfl
@[simp] theorem setPort_sopResults (x : Port) : (s.setPort x).sopResults = s.sopResults := rfl
@[simp] theorem setPort_locks (x : Port) : (s.setPort x).locks = s.locks := rfl
@[simp] theorem setPort_bank (x : Port) : (s.setPort x).bank = s.bank := rfl
@[simp] theorem setPort_granule (x : Port) : (s.setPort x).granule = s.granule := rfl
@[simp] theorem setPort_odp (x : Port) : (s.setPort x).odp = s.odp := rfl
@[simp] theorem setPort_power (x : Port) : (s.setPort x).power = s.power := rfl
@[simp] theorem setPort_elec (x : Port) : (s.setPort x).elec = s.elec := rfl
@[simp] theorem setPort_chips (x : Port) : (s.setPort x).chips = s.chips := rfl
@[simp] theorem setPort_boot (x : Port) : (s.setPort x).boot = s.boot := rfl
@[simp] theorem setPort_free (x : Port) : (s.setPort x).free = s.free := rfl
@[simp] theorem setPort_out (x : Port) : (s.setPort x).out = s.out := rfl
@[simp] theorem setPort_pending (x : Port) : (s.setPort x).pending = s.pending := rfl

@[simp] theorem setPath_od (x : PathCtx) : (s.setPath x).od = s.od := rfl
@[simp] theorem setPath_inForce (x : PathCtx) : (s.setPath x).inForce = s.inForce := rfl
@[simp] theorem setPath_scrubs (x : PathCtx) : (s.setPath x).scrubs = s.scrubs := rfl
@[simp] theorem setPath_blobs (x : PathCtx) : (s.setPath x).blobs = s.blobs := rfl
@[simp] theorem setPath_mem (x : PathCtx) : (s.setPath x).mem = s.mem := rfl
@[simp] theorem setPath_cores (x : PathCtx) : (s.setPath x).cores = s.cores := rfl
@[simp] theorem setPath_launches (x : PathCtx) : (s.setPath x).launches = s.launches := rfl
@[simp] theorem setPath_nextCtx (x : PathCtx) : (s.setPath x).nextCtx = s.nextCtx := rfl
@[simp] theorem setPath_nextOrd (x : PathCtx) : (s.setPath x).nextOrd = s.nextOrd := rfl
@[simp] theorem setPath_turns (x : PathCtx) : (s.setPath x).turns = s.turns := rfl
@[simp] theorem setPath_stores (x : PathCtx) : (s.setPath x).stores = s.stores := rfl
@[simp] theorem setPath_chans (x : PathCtx) : (s.setPath x).chans = s.chans := rfl
@[simp] theorem setPath_slices (x : PathCtx) : (s.setPath x).slices = s.slices := rfl
@[simp] theorem setPath_sopResults (x : PathCtx) : (s.setPath x).sopResults = s.sopResults := rfl
@[simp] theorem setPath_locks (x : PathCtx) : (s.setPath x).locks = s.locks := rfl
@[simp] theorem setPath_bank (x : PathCtx) : (s.setPath x).bank = s.bank := rfl
@[simp] theorem setPath_granule (x : PathCtx) : (s.setPath x).granule = s.granule := rfl
@[simp] theorem setPath_odp (x : PathCtx) : (s.setPath x).odp = s.odp := rfl
@[simp] theorem setPath_power (x : PathCtx) : (s.setPath x).power = s.power := rfl
@[simp] theorem setPath_elec (x : PathCtx) : (s.setPath x).elec = s.elec := rfl
@[simp] theorem setPath_chips (x : PathCtx) : (s.setPath x).chips = s.chips := rfl
@[simp] theorem setPath_boot (x : PathCtx) : (s.setPath x).boot = s.boot := rfl
@[simp] theorem setPath_free (x : PathCtx) : (s.setPath x).free = s.free := rfl
@[simp] theorem setPath_out (x : PathCtx) : (s.setPath x).out = s.out := rfl
@[simp] theorem setPath_pending (x : PathCtx) : (s.setPath x).pending = s.pending := rfl

@[simp] theorem setQp_od (x : Qp) : (s.setQp x).od = s.od := rfl
@[simp] theorem setQp_inForce (x : Qp) : (s.setQp x).inForce = s.inForce := rfl
@[simp] theorem setQp_scrubs (x : Qp) : (s.setQp x).scrubs = s.scrubs := rfl
@[simp] theorem setQp_blobs (x : Qp) : (s.setQp x).blobs = s.blobs := rfl
@[simp] theorem setQp_mem (x : Qp) : (s.setQp x).mem = s.mem := rfl
@[simp] theorem setQp_cores (x : Qp) : (s.setQp x).cores = s.cores := rfl
@[simp] theorem setQp_launches (x : Qp) : (s.setQp x).launches = s.launches := rfl
@[simp] theorem setQp_nextCtx (x : Qp) : (s.setQp x).nextCtx = s.nextCtx := rfl
@[simp] theorem setQp_nextOrd (x : Qp) : (s.setQp x).nextOrd = s.nextOrd := rfl
@[simp] theorem setQp_turns (x : Qp) : (s.setQp x).turns = s.turns := rfl
@[simp] theorem setQp_stores (x : Qp) : (s.setQp x).stores = s.stores := rfl
@[simp] theorem setQp_chans (x : Qp) : (s.setQp x).chans = s.chans := rfl
@[simp] theorem setQp_slices (x : Qp) : (s.setQp x).slices = s.slices := rfl
@[simp] theorem setQp_sopResults (x : Qp) : (s.setQp x).sopResults = s.sopResults := rfl
@[simp] theorem setQp_locks (x : Qp) : (s.setQp x).locks = s.locks := rfl
@[simp] theorem setQp_bank (x : Qp) : (s.setQp x).bank = s.bank := rfl
@[simp] theorem setQp_granule (x : Qp) : (s.setQp x).granule = s.granule := rfl
@[simp] theorem setQp_odp (x : Qp) : (s.setQp x).odp = s.odp := rfl
@[simp] theorem setQp_power (x : Qp) : (s.setQp x).power = s.power := rfl
@[simp] theorem setQp_elec (x : Qp) : (s.setQp x).elec = s.elec := rfl
@[simp] theorem setQp_chips (x : Qp) : (s.setQp x).chips = s.chips := rfl
@[simp] theorem setQp_boot (x : Qp) : (s.setQp x).boot = s.boot := rfl
@[simp] theorem setQp_free (x : Qp) : (s.setQp x).free = s.free := rfl
@[simp] theorem setQp_out (x : Qp) : (s.setQp x).out = s.out := rfl
@[simp] theorem setQp_pending (x : Qp) : (s.setQp x).pending = s.pending := rfl

@[simp] theorem setColl_od (x : Coll) : (s.setColl x).od = s.od := rfl
@[simp] theorem setColl_inForce (x : Coll) : (s.setColl x).inForce = s.inForce := rfl
@[simp] theorem setColl_scrubs (x : Coll) : (s.setColl x).scrubs = s.scrubs := rfl
@[simp] theorem setColl_blobs (x : Coll) : (s.setColl x).blobs = s.blobs := rfl
@[simp] theorem setColl_mem (x : Coll) : (s.setColl x).mem = s.mem := rfl
@[simp] theorem setColl_cores (x : Coll) : (s.setColl x).cores = s.cores := rfl
@[simp] theorem setColl_launches (x : Coll) : (s.setColl x).launches = s.launches := rfl
@[simp] theorem setColl_nextCtx (x : Coll) : (s.setColl x).nextCtx = s.nextCtx := rfl
@[simp] theorem setColl_nextOrd (x : Coll) : (s.setColl x).nextOrd = s.nextOrd := rfl
@[simp] theorem setColl_turns (x : Coll) : (s.setColl x).turns = s.turns := rfl
@[simp] theorem setColl_stores (x : Coll) : (s.setColl x).stores = s.stores := rfl
@[simp] theorem setColl_chans (x : Coll) : (s.setColl x).chans = s.chans := rfl
@[simp] theorem setColl_slices (x : Coll) : (s.setColl x).slices = s.slices := rfl
@[simp] theorem setColl_sopResults (x : Coll) : (s.setColl x).sopResults = s.sopResults := rfl
@[simp] theorem setColl_locks (x : Coll) : (s.setColl x).locks = s.locks := rfl
@[simp] theorem setColl_bank (x : Coll) : (s.setColl x).bank = s.bank := rfl
@[simp] theorem setColl_granule (x : Coll) : (s.setColl x).granule = s.granule := rfl
@[simp] theorem setColl_odp (x : Coll) : (s.setColl x).odp = s.odp := rfl
@[simp] theorem setColl_power (x : Coll) : (s.setColl x).power = s.power := rfl
@[simp] theorem setColl_elec (x : Coll) : (s.setColl x).elec = s.elec := rfl
@[simp] theorem setColl_chips (x : Coll) : (s.setColl x).chips = s.chips := rfl
@[simp] theorem setColl_boot (x : Coll) : (s.setColl x).boot = s.boot := rfl
@[simp] theorem setColl_free (x : Coll) : (s.setColl x).free = s.free := rfl
@[simp] theorem setColl_out (x : Coll) : (s.setColl x).out = s.out := rfl
@[simp] theorem setColl_pending (x : Coll) : (s.setColl x).pending = s.pending := rfl

@[simp] theorem setChip_od (x : Chiplet) : (s.setChip x).od = s.od := rfl
@[simp] theorem setChip_inForce (x : Chiplet) : (s.setChip x).inForce = s.inForce := rfl
@[simp] theorem setChip_scrubs (x : Chiplet) : (s.setChip x).scrubs = s.scrubs := rfl
@[simp] theorem setChip_blobs (x : Chiplet) : (s.setChip x).blobs = s.blobs := rfl
@[simp] theorem setChip_mem (x : Chiplet) : (s.setChip x).mem = s.mem := rfl
@[simp] theorem setChip_cores (x : Chiplet) : (s.setChip x).cores = s.cores := rfl
@[simp] theorem setChip_launches (x : Chiplet) : (s.setChip x).launches = s.launches := rfl
@[simp] theorem setChip_nextCtx (x : Chiplet) : (s.setChip x).nextCtx = s.nextCtx := rfl
@[simp] theorem setChip_nextOrd (x : Chiplet) : (s.setChip x).nextOrd = s.nextOrd := rfl
@[simp] theorem setChip_turns (x : Chiplet) : (s.setChip x).turns = s.turns := rfl
@[simp] theorem setChip_stores (x : Chiplet) : (s.setChip x).stores = s.stores := rfl
@[simp] theorem setChip_chans (x : Chiplet) : (s.setChip x).chans = s.chans := rfl
@[simp] theorem setChip_slices (x : Chiplet) : (s.setChip x).slices = s.slices := rfl
@[simp] theorem setChip_sopResults (x : Chiplet) : (s.setChip x).sopResults = s.sopResults := rfl
@[simp] theorem setChip_locks (x : Chiplet) : (s.setChip x).locks = s.locks := rfl
@[simp] theorem setChip_bank (x : Chiplet) : (s.setChip x).bank = s.bank := rfl
@[simp] theorem setChip_granule (x : Chiplet) : (s.setChip x).granule = s.granule := rfl
@[simp] theorem setChip_net (x : Chiplet) : (s.setChip x).net = s.net := rfl
@[simp] theorem setChip_odp (x : Chiplet) : (s.setChip x).odp = s.odp := rfl
@[simp] theorem setChip_power (x : Chiplet) : (s.setChip x).power = s.power := rfl
@[simp] theorem setChip_elec (x : Chiplet) : (s.setChip x).elec = s.elec := rfl
@[simp] theorem setChip_boot (x : Chiplet) : (s.setChip x).boot = s.boot := rfl
@[simp] theorem setChip_free (x : Chiplet) : (s.setChip x).free = s.free := rfl
@[simp] theorem setChip_out (x : Chiplet) : (s.setChip x).out = s.out := rfl
@[simp] theorem setChip_pending (x : Chiplet) : (s.setChip x).pending = s.pending := rfl

@[simp] theorem send_od (o : Out) : (s.send o).od = s.od := rfl
@[simp] theorem send_inForce (o : Out) : (s.send o).inForce = s.inForce := rfl
@[simp] theorem send_scrubs (o : Out) : (s.send o).scrubs = s.scrubs := rfl
@[simp] theorem send_blobs (o : Out) : (s.send o).blobs = s.blobs := rfl
@[simp] theorem send_mem (o : Out) : (s.send o).mem = s.mem := rfl
@[simp] theorem send_cores (o : Out) : (s.send o).cores = s.cores := rfl
@[simp] theorem send_launches (o : Out) : (s.send o).launches = s.launches := rfl
@[simp] theorem send_nextCtx (o : Out) : (s.send o).nextCtx = s.nextCtx := rfl
@[simp] theorem send_nextOrd (o : Out) : (s.send o).nextOrd = s.nextOrd := rfl
@[simp] theorem send_turns (o : Out) : (s.send o).turns = s.turns := rfl
@[simp] theorem send_stores (o : Out) : (s.send o).stores = s.stores := rfl
@[simp] theorem send_chans (o : Out) : (s.send o).chans = s.chans := rfl
@[simp] theorem send_slices (o : Out) : (s.send o).slices = s.slices := rfl
@[simp] theorem send_sopResults (o : Out) : (s.send o).sopResults = s.sopResults := rfl
@[simp] theorem send_locks (o : Out) : (s.send o).locks = s.locks := rfl
@[simp] theorem send_bank (o : Out) : (s.send o).bank = s.bank := rfl
@[simp] theorem send_granule (o : Out) : (s.send o).granule = s.granule := rfl
@[simp] theorem send_net (o : Out) : (s.send o).net = s.net := rfl
@[simp] theorem send_odp (o : Out) : (s.send o).odp = s.odp := rfl
@[simp] theorem send_power (o : Out) : (s.send o).power = s.power := rfl
@[simp] theorem send_elec (o : Out) : (s.send o).elec = s.elec := rfl
@[simp] theorem send_chips (o : Out) : (s.send o).chips = s.chips := rfl
@[simp] theorem send_boot (o : Out) : (s.send o).boot = s.boot := rfl
@[simp] theorem send_free (o : Out) : (s.send o).free = s.free := rfl
@[simp] theorem send_pending (o : Out) : (s.send o).pending = s.pending := rfl

@[simp] theorem flushCounters_od : (s.flushCounters).od = s.od := rfl
@[simp] theorem flushCounters_inForce : (s.flushCounters).inForce = s.inForce := rfl
@[simp] theorem flushCounters_scrubs : (s.flushCounters).scrubs = s.scrubs := rfl
@[simp] theorem flushCounters_blobs : (s.flushCounters).blobs = s.blobs := rfl
@[simp] theorem flushCounters_mem : (s.flushCounters).mem = s.mem := rfl
@[simp] theorem flushCounters_cores : (s.flushCounters).cores = s.cores := rfl
@[simp] theorem flushCounters_launches : (s.flushCounters).launches = s.launches := rfl
@[simp] theorem flushCounters_nextCtx : (s.flushCounters).nextCtx = s.nextCtx := rfl
@[simp] theorem flushCounters_nextOrd : (s.flushCounters).nextOrd = s.nextOrd := rfl
@[simp] theorem flushCounters_turns : (s.flushCounters).turns = s.turns := rfl
@[simp] theorem flushCounters_stores : (s.flushCounters).stores = s.stores := rfl
@[simp] theorem flushCounters_chans : (s.flushCounters).chans = s.chans := rfl
@[simp] theorem flushCounters_slices : (s.flushCounters).slices = s.slices := rfl
@[simp] theorem flushCounters_sopResults : (s.flushCounters).sopResults = s.sopResults := rfl
@[simp] theorem flushCounters_locks : (s.flushCounters).locks = s.locks := rfl
@[simp] theorem flushCounters_bank : (s.flushCounters).bank = s.bank := rfl
@[simp] theorem flushCounters_granule : (s.flushCounters).granule = s.granule := rfl
@[simp] theorem flushCounters_net : (s.flushCounters).net = s.net := rfl
@[simp] theorem flushCounters_power : (s.flushCounters).power = s.power := rfl
@[simp] theorem flushCounters_elec : (s.flushCounters).elec = s.elec := rfl
@[simp] theorem flushCounters_chips : (s.flushCounters).chips = s.chips := rfl
@[simp] theorem flushCounters_boot : (s.flushCounters).boot = s.boot := rfl
@[simp] theorem flushCounters_free : (s.flushCounters).free = s.free := rfl
@[simp] theorem flushCounters_out : (s.flushCounters).out = s.out := rfl
@[simp] theorem flushCounters_pending : (s.flushCounters).pending = s.pending := rfl

/-! ### Accessors after an update of another place -/

@[simp] theorem putObj_getBlob (k v : Nat) (a : Nat) : (s.putObj k v).getBlob a = s.getBlob a := rfl
@[simp] theorem putObj_forced (k v : Nat) (a : Nat) : (s.putObj k v).forced a = s.forced a := rfl
@[simp] theorem putObj_freeVal (k v : Nat) : (s.putObj k v).freeVal = s.freeVal := rfl
@[simp] theorem putObj_slice (k v : Nat) (a : Nat) : (s.putObj k v).slice a = s.slice a := rfl
@[simp] theorem putObj_chan (k v : Nat) (a : Nat) : (s.putObj k v).chan a = s.chan a := rfl
@[simp] theorem putObj_core (k v : Nat) (a : Nat) : (s.putObj k v).core a = s.core a := rfl
@[simp] theorem putObj_launch (k v : Nat) (a : Nat) : (s.putObj k v).launch? a = s.launch? a := rfl
@[simp] theorem putObj_lockSet (k v : Nat) (a : Nat) : (s.putObj k v).lockSet a = s.lockSet a := rfl
@[simp] theorem putObj_port (k v : Nat) (a : Nat) : (s.putObj k v).port a = s.port a := rfl
@[simp] theorem putObj_path (k v : Nat) (a : Nat) : (s.putObj k v).path? a = s.path? a := rfl
@[simp] theorem putObj_qp (k v : Nat) (a : Nat) : (s.putObj k v).qp a = s.qp a := rfl
@[simp] theorem putObj_coll (k v : Nat) (a : Nat) : (s.putObj k v).coll? a = s.coll? a := rfl
@[simp] theorem putObj_chip (k v : Nat) (a : Nat) : (s.putObj k v).chip a = s.chip a := rfl

@[simp] theorem addObj_getBlob (k n : Nat) (a : Nat) : (s.addObj k n).getBlob a = s.getBlob a := rfl
@[simp] theorem addObj_forced (k n : Nat) (a : Nat) : (s.addObj k n).forced a = s.forced a := rfl
@[simp] theorem addObj_freeVal (k n : Nat) : (s.addObj k n).freeVal = s.freeVal := rfl
@[simp] theorem addObj_slice (k n : Nat) (a : Nat) : (s.addObj k n).slice a = s.slice a := rfl
@[simp] theorem addObj_chan (k n : Nat) (a : Nat) : (s.addObj k n).chan a = s.chan a := rfl
@[simp] theorem addObj_core (k n : Nat) (a : Nat) : (s.addObj k n).core a = s.core a := rfl
@[simp] theorem addObj_launch (k n : Nat) (a : Nat) : (s.addObj k n).launch? a = s.launch? a := rfl
@[simp] theorem addObj_lockSet (k n : Nat) (a : Nat) : (s.addObj k n).lockSet a = s.lockSet a := rfl
@[simp] theorem addObj_port (k n : Nat) (a : Nat) : (s.addObj k n).port a = s.port a := rfl
@[simp] theorem addObj_path (k n : Nat) (a : Nat) : (s.addObj k n).path? a = s.path? a := rfl
@[simp] theorem addObj_qp (k n : Nat) (a : Nat) : (s.addObj k n).qp a = s.qp a := rfl
@[simp] theorem addObj_coll (k n : Nat) (a : Nat) : (s.addObj k n).coll? a = s.coll? a := rfl
@[simp] theorem addObj_chip (k n : Nat) (a : Nat) : (s.addObj k n).chip a = s.chip a := rfl

@[simp] theorem subObj_getBlob (k n : Nat) (a : Nat) : (s.subObj k n).getBlob a = s.getBlob a := rfl
@[simp] theorem subObj_forced (k n : Nat) (a : Nat) : (s.subObj k n).forced a = s.forced a := rfl
@[simp] theorem subObj_freeVal (k n : Nat) : (s.subObj k n).freeVal = s.freeVal := rfl
@[simp] theorem subObj_slice (k n : Nat) (a : Nat) : (s.subObj k n).slice a = s.slice a := rfl
@[simp] theorem subObj_chan (k n : Nat) (a : Nat) : (s.subObj k n).chan a = s.chan a := rfl
@[simp] theorem subObj_core (k n : Nat) (a : Nat) : (s.subObj k n).core a = s.core a := rfl
@[simp] theorem subObj_launch (k n : Nat) (a : Nat) : (s.subObj k n).launch? a = s.launch? a := rfl
@[simp] theorem subObj_lockSet (k n : Nat) (a : Nat) : (s.subObj k n).lockSet a = s.lockSet a := rfl
@[simp] theorem subObj_port (k n : Nat) (a : Nat) : (s.subObj k n).port a = s.port a := rfl
@[simp] theorem subObj_path (k n : Nat) (a : Nat) : (s.subObj k n).path? a = s.path? a := rfl
@[simp] theorem subObj_qp (k n : Nat) (a : Nat) : (s.subObj k n).qp a = s.qp a := rfl
@[simp] theorem subObj_coll (k n : Nat) (a : Nat) : (s.subObj k n).coll? a = s.coll? a := rfl
@[simp] theorem subObj_chip (k n : Nat) (a : Nat) : (s.subObj k n).chip a = s.chip a := rfl

@[simp] theorem setAlert_getBlob (i : Nat) (a : Nat) : (s.setAlert i).getBlob a = s.getBlob a := rfl
@[simp] theorem setAlert_forced (i : Nat) (a : Nat) : (s.setAlert i).forced a = s.forced a := rfl
@[simp] theorem setAlert_freeVal (i : Nat) : (s.setAlert i).freeVal = s.freeVal := rfl
@[simp] theorem setAlert_slice (i : Nat) (a : Nat) : (s.setAlert i).slice a = s.slice a := rfl
@[simp] theorem setAlert_chan (i : Nat) (a : Nat) : (s.setAlert i).chan a = s.chan a := rfl
@[simp] theorem setAlert_core (i : Nat) (a : Nat) : (s.setAlert i).core a = s.core a := rfl
@[simp] theorem setAlert_launch (i : Nat) (a : Nat) : (s.setAlert i).launch? a = s.launch? a := rfl
@[simp] theorem setAlert_lockSet (i : Nat) (a : Nat) : (s.setAlert i).lockSet a = s.lockSet a := rfl
@[simp] theorem setAlert_port (i : Nat) (a : Nat) : (s.setAlert i).port a = s.port a := rfl
@[simp] theorem setAlert_path (i : Nat) (a : Nat) : (s.setAlert i).path? a = s.path? a := rfl
@[simp] theorem setAlert_qp (i : Nat) (a : Nat) : (s.setAlert i).qp a = s.qp a := rfl
@[simp] theorem setAlert_coll (i : Nat) (a : Nat) : (s.setAlert i).coll? a = s.coll? a := rfl
@[simp] theorem setAlert_chip (i : Nat) (a : Nat) : (s.setAlert i).chip a = s.chip a := rfl

@[simp] theorem putBlob_getObj (k : Nat) (v : List Byte) (a : Nat) : (s.putBlob k v).getObj a = s.getObj a := rfl
@[simp] theorem putBlob_forced (k : Nat) (v : List Byte) (a : Nat) : (s.putBlob k v).forced a = s.forced a := rfl
@[simp] theorem putBlob_freeVal (k : Nat) (v : List Byte) : (s.putBlob k v).freeVal = s.freeVal := rfl
@[simp] theorem putBlob_slice (k : Nat) (v : List Byte) (a : Nat) : (s.putBlob k v).slice a = s.slice a := rfl
@[simp] theorem putBlob_chan (k : Nat) (v : List Byte) (a : Nat) : (s.putBlob k v).chan a = s.chan a := rfl
@[simp] theorem putBlob_core (k : Nat) (v : List Byte) (a : Nat) : (s.putBlob k v).core a = s.core a := rfl
@[simp] theorem putBlob_launch (k : Nat) (v : List Byte) (a : Nat) : (s.putBlob k v).launch? a = s.launch? a := rfl
@[simp] theorem putBlob_lockSet (k : Nat) (v : List Byte) (a : Nat) : (s.putBlob k v).lockSet a = s.lockSet a := rfl
@[simp] theorem putBlob_port (k : Nat) (v : List Byte) (a : Nat) : (s.putBlob k v).port a = s.port a := rfl
@[simp] theorem putBlob_path (k : Nat) (v : List Byte) (a : Nat) : (s.putBlob k v).path? a = s.path? a := rfl
@[simp] theorem putBlob_qp (k : Nat) (v : List Byte) (a : Nat) : (s.putBlob k v).qp a = s.qp a := rfl
@[simp] theorem putBlob_coll (k : Nat) (v : List Byte) (a : Nat) : (s.putBlob k v).coll? a = s.coll? a := rfl
@[simp] theorem putBlob_chip (k : Nat) (v : List Byte) (a : Nat) : (s.putBlob k v).chip a = s.chip a := rfl

@[simp] theorem useFree_getObj (n : Nat) (a : Nat) : (s.useFree n).getObj a = s.getObj a := rfl
@[simp] theorem useFree_getBlob (n : Nat) (a : Nat) : (s.useFree n).getBlob a = s.getBlob a := rfl
@[simp] theorem useFree_forced (n : Nat) (a : Nat) : (s.useFree n).forced a = s.forced a := rfl
@[simp] theorem useFree_slice (n : Nat) (a : Nat) : (s.useFree n).slice a = s.slice a := rfl
@[simp] theorem useFree_chan (n : Nat) (a : Nat) : (s.useFree n).chan a = s.chan a := rfl
@[simp] theorem useFree_core (n : Nat) (a : Nat) : (s.useFree n).core a = s.core a := rfl
@[simp] theorem useFree_launch (n : Nat) (a : Nat) : (s.useFree n).launch? a = s.launch? a := rfl
@[simp] theorem useFree_lockSet (n : Nat) (a : Nat) : (s.useFree n).lockSet a = s.lockSet a := rfl
@[simp] theorem useFree_port (n : Nat) (a : Nat) : (s.useFree n).port a = s.port a := rfl
@[simp] theorem useFree_path (n : Nat) (a : Nat) : (s.useFree n).path? a = s.path? a := rfl
@[simp] theorem useFree_qp (n : Nat) (a : Nat) : (s.useFree n).qp a = s.qp a := rfl
@[simp] theorem useFree_coll (n : Nat) (a : Nat) : (s.useFree n).coll? a = s.coll? a := rfl
@[simp] theorem useFree_chip (n : Nat) (a : Nat) : (s.useFree n).chip a = s.chip a := rfl

@[simp] theorem setSlice_getObj (x : Slice) (a : Nat) : (s.setSlice x).getObj a = s.getObj a := rfl
@[simp] theorem setSlice_getBlob (x : Slice) (a : Nat) : (s.setSlice x).getBlob a = s.getBlob a := rfl
@[simp] theorem setSlice_forced (x : Slice) (a : Nat) : (s.setSlice x).forced a = s.forced a := rfl
@[simp] theorem setSlice_freeVal (x : Slice) : (s.setSlice x).freeVal = s.freeVal := rfl
@[simp] theorem setSlice_chan (x : Slice) (a : Nat) : (s.setSlice x).chan a = s.chan a := rfl
@[simp] theorem setSlice_core (x : Slice) (a : Nat) : (s.setSlice x).core a = s.core a := rfl
@[simp] theorem setSlice_launch (x : Slice) (a : Nat) : (s.setSlice x).launch? a = s.launch? a := rfl
@[simp] theorem setSlice_lockSet (x : Slice) (a : Nat) : (s.setSlice x).lockSet a = s.lockSet a := rfl
@[simp] theorem setSlice_port (x : Slice) (a : Nat) : (s.setSlice x).port a = s.port a := rfl
@[simp] theorem setSlice_path (x : Slice) (a : Nat) : (s.setSlice x).path? a = s.path? a := rfl
@[simp] theorem setSlice_qp (x : Slice) (a : Nat) : (s.setSlice x).qp a = s.qp a := rfl
@[simp] theorem setSlice_coll (x : Slice) (a : Nat) : (s.setSlice x).coll? a = s.coll? a := rfl
@[simp] theorem setSlice_chip (x : Slice) (a : Nat) : (s.setSlice x).chip a = s.chip a := rfl

@[simp] theorem setChan_getObj (x : Chan) (a : Nat) : (s.setChan x).getObj a = s.getObj a := rfl
@[simp] theorem setChan_getBlob (x : Chan) (a : Nat) : (s.setChan x).getBlob a = s.getBlob a := rfl
@[simp] theorem setChan_forced (x : Chan) (a : Nat) : (s.setChan x).forced a = s.forced a := rfl
@[simp] theorem setChan_freeVal (x : Chan) : (s.setChan x).freeVal = s.freeVal := rfl
@[simp] theorem setChan_slice (x : Chan) (a : Nat) : (s.setChan x).slice a = s.slice a := rfl
@[simp] theorem setChan_core (x : Chan) (a : Nat) : (s.setChan x).core a = s.core a := rfl
@[simp] theorem setChan_launch (x : Chan) (a : Nat) : (s.setChan x).launch? a = s.launch? a := rfl
@[simp] theorem setChan_lockSet (x : Chan) (a : Nat) : (s.setChan x).lockSet a = s.lockSet a := rfl
@[simp] theorem setChan_port (x : Chan) (a : Nat) : (s.setChan x).port a = s.port a := rfl
@[simp] theorem setChan_path (x : Chan) (a : Nat) : (s.setChan x).path? a = s.path? a := rfl
@[simp] theorem setChan_qp (x : Chan) (a : Nat) : (s.setChan x).qp a = s.qp a := rfl
@[simp] theorem setChan_coll (x : Chan) (a : Nat) : (s.setChan x).coll? a = s.coll? a := rfl
@[simp] theorem setChan_chip (x : Chan) (a : Nat) : (s.setChan x).chip a = s.chip a := rfl

@[simp] theorem setCore_getObj (x : Core) (a : Nat) : (s.setCore x).getObj a = s.getObj a := rfl
@[simp] theorem setCore_getBlob (x : Core) (a : Nat) : (s.setCore x).getBlob a = s.getBlob a := rfl
@[simp] theorem setCore_forced (x : Core) (a : Nat) : (s.setCore x).forced a = s.forced a := rfl
@[simp] theorem setCore_freeVal (x : Core) : (s.setCore x).freeVal = s.freeVal := rfl
@[simp] theorem setCore_slice (x : Core) (a : Nat) : (s.setCore x).slice a = s.slice a := rfl
@[simp] theorem setCore_chan (x : Core) (a : Nat) : (s.setCore x).chan a = s.chan a := rfl
@[simp] theorem setCore_launch (x : Core) (a : Nat) : (s.setCore x).launch? a = s.launch? a := rfl
@[simp] theorem setCore_lockSet (x : Core) (a : Nat) : (s.setCore x).lockSet a = s.lockSet a := rfl
@[simp] theorem setCore_port (x : Core) (a : Nat) : (s.setCore x).port a = s.port a := rfl
@[simp] theorem setCore_path (x : Core) (a : Nat) : (s.setCore x).path? a = s.path? a := rfl
@[simp] theorem setCore_qp (x : Core) (a : Nat) : (s.setCore x).qp a = s.qp a := rfl
@[simp] theorem setCore_coll (x : Core) (a : Nat) : (s.setCore x).coll? a = s.coll? a := rfl
@[simp] theorem setCore_chip (x : Core) (a : Nat) : (s.setCore x).chip a = s.chip a := rfl

@[simp] theorem setLaunch_getObj (x : Launch) (a : Nat) : (s.setLaunch x).getObj a = s.getObj a := rfl
@[simp] theorem setLaunch_getBlob (x : Launch) (a : Nat) : (s.setLaunch x).getBlob a = s.getBlob a := rfl
@[simp] theorem setLaunch_forced (x : Launch) (a : Nat) : (s.setLaunch x).forced a = s.forced a := rfl
@[simp] theorem setLaunch_freeVal (x : Launch) : (s.setLaunch x).freeVal = s.freeVal := rfl
@[simp] theorem setLaunch_slice (x : Launch) (a : Nat) : (s.setLaunch x).slice a = s.slice a := rfl
@[simp] theorem setLaunch_chan (x : Launch) (a : Nat) : (s.setLaunch x).chan a = s.chan a := rfl
@[simp] theorem setLaunch_core (x : Launch) (a : Nat) : (s.setLaunch x).core a = s.core a := rfl
@[simp] theorem setLaunch_lockSet (x : Launch) (a : Nat) : (s.setLaunch x).lockSet a = s.lockSet a := rfl
@[simp] theorem setLaunch_port (x : Launch) (a : Nat) : (s.setLaunch x).port a = s.port a := rfl
@[simp] theorem setLaunch_path (x : Launch) (a : Nat) : (s.setLaunch x).path? a = s.path? a := rfl
@[simp] theorem setLaunch_qp (x : Launch) (a : Nat) : (s.setLaunch x).qp a = s.qp a := rfl
@[simp] theorem setLaunch_coll (x : Launch) (a : Nat) : (s.setLaunch x).coll? a = s.coll? a := rfl
@[simp] theorem setLaunch_chip (x : Launch) (a : Nat) : (s.setLaunch x).chip a = s.chip a := rfl

@[simp] theorem setLockSet_getObj (x : LockSet) (a : Nat) : (s.setLockSet x).getObj a = s.getObj a := rfl
@[simp] theorem setLockSet_getBlob (x : LockSet) (a : Nat) : (s.setLockSet x).getBlob a = s.getBlob a := rfl
@[simp] theorem setLockSet_forced (x : LockSet) (a : Nat) : (s.setLockSet x).forced a = s.forced a := rfl
@[simp] theorem setLockSet_freeVal (x : LockSet) : (s.setLockSet x).freeVal = s.freeVal := rfl
@[simp] theorem setLockSet_slice (x : LockSet) (a : Nat) : (s.setLockSet x).slice a = s.slice a := rfl
@[simp] theorem setLockSet_chan (x : LockSet) (a : Nat) : (s.setLockSet x).chan a = s.chan a := rfl
@[simp] theorem setLockSet_core (x : LockSet) (a : Nat) : (s.setLockSet x).core a = s.core a := rfl
@[simp] theorem setLockSet_launch (x : LockSet) (a : Nat) : (s.setLockSet x).launch? a = s.launch? a := rfl
@[simp] theorem setLockSet_port (x : LockSet) (a : Nat) : (s.setLockSet x).port a = s.port a := rfl
@[simp] theorem setLockSet_path (x : LockSet) (a : Nat) : (s.setLockSet x).path? a = s.path? a := rfl
@[simp] theorem setLockSet_qp (x : LockSet) (a : Nat) : (s.setLockSet x).qp a = s.qp a := rfl
@[simp] theorem setLockSet_coll (x : LockSet) (a : Nat) : (s.setLockSet x).coll? a = s.coll? a := rfl
@[simp] theorem setLockSet_chip (x : LockSet) (a : Nat) : (s.setLockSet x).chip a = s.chip a := rfl

@[simp] theorem setPort_getObj (x : Port) (a : Nat) : (s.setPort x).getObj a = s.getObj a := rfl
@[simp] theorem setPort_getBlob (x : Port) (a : Nat) : (s.setPort x).getBlob a = s.getBlob a := rfl
@[simp] theorem setPort_forced (x : Port) (a : Nat) : (s.setPort x).forced a = s.forced a := rfl
@[simp] theorem setPort_freeVal (x : Port) : (s.setPort x).freeVal = s.freeVal := rfl
@[simp] theorem setPort_slice (x : Port) (a : Nat) : (s.setPort x).slice a = s.slice a := rfl
@[simp] theorem setPort_chan (x : Port) (a : Nat) : (s.setPort x).chan a = s.chan a := rfl
@[simp] theorem setPort_core (x : Port) (a : Nat) : (s.setPort x).core a = s.core a := rfl
@[simp] theorem setPort_launch (x : Port) (a : Nat) : (s.setPort x).launch? a = s.launch? a := rfl
@[simp] theorem setPort_lockSet (x : Port) (a : Nat) : (s.setPort x).lockSet a = s.lockSet a := rfl
@[simp] theorem setPort_path (x : Port) (a : Nat) : (s.setPort x).path? a = s.path? a := rfl
@[simp] theorem setPort_qp (x : Port) (a : Nat) : (s.setPort x).qp a = s.qp a := rfl
@[simp] theorem setPort_coll (x : Port) (a : Nat) : (s.setPort x).coll? a = s.coll? a := rfl
@[simp] theorem setPort_chip (x : Port) (a : Nat) : (s.setPort x).chip a = s.chip a := rfl

@[simp] theorem setPath_getObj (x : PathCtx) (a : Nat) : (s.setPath x).getObj a = s.getObj a := rfl
@[simp] theorem setPath_getBlob (x : PathCtx) (a : Nat) : (s.setPath x).getBlob a = s.getBlob a := rfl
@[simp] theorem setPath_forced (x : PathCtx) (a : Nat) : (s.setPath x).forced a = s.forced a := rfl
@[simp] theorem setPath_freeVal (x : PathCtx) : (s.setPath x).freeVal = s.freeVal := rfl
@[simp] theorem setPath_slice (x : PathCtx) (a : Nat) : (s.setPath x).slice a = s.slice a := rfl
@[simp] theorem setPath_chan (x : PathCtx) (a : Nat) : (s.setPath x).chan a = s.chan a := rfl
@[simp] theorem setPath_core (x : PathCtx) (a : Nat) : (s.setPath x).core a = s.core a := rfl
@[simp] theorem setPath_launch (x : PathCtx) (a : Nat) : (s.setPath x).launch? a = s.launch? a := rfl
@[simp] theorem setPath_lockSet (x : PathCtx) (a : Nat) : (s.setPath x).lockSet a = s.lockSet a := rfl
@[simp] theorem setPath_port (x : PathCtx) (a : Nat) : (s.setPath x).port a = s.port a := rfl
@[simp] theorem setPath_qp (x : PathCtx) (a : Nat) : (s.setPath x).qp a = s.qp a := rfl
@[simp] theorem setPath_coll (x : PathCtx) (a : Nat) : (s.setPath x).coll? a = s.coll? a := rfl
@[simp] theorem setPath_chip (x : PathCtx) (a : Nat) : (s.setPath x).chip a = s.chip a := rfl

@[simp] theorem setQp_getObj (x : Qp) (a : Nat) : (s.setQp x).getObj a = s.getObj a := rfl
@[simp] theorem setQp_getBlob (x : Qp) (a : Nat) : (s.setQp x).getBlob a = s.getBlob a := rfl
@[simp] theorem setQp_forced (x : Qp) (a : Nat) : (s.setQp x).forced a = s.forced a := rfl
@[simp] theorem setQp_freeVal (x : Qp) : (s.setQp x).freeVal = s.freeVal := rfl
@[simp] theorem setQp_slice (x : Qp) (a : Nat) : (s.setQp x).slice a = s.slice a := rfl
@[simp] theorem setQp_chan (x : Qp) (a : Nat) : (s.setQp x).chan a = s.chan a := rfl
@[simp] theorem setQp_core (x : Qp) (a : Nat) : (s.setQp x).core a = s.core a := rfl
@[simp] theorem setQp_launch (x : Qp) (a : Nat) : (s.setQp x).launch? a = s.launch? a := rfl
@[simp] theorem setQp_lockSet (x : Qp) (a : Nat) : (s.setQp x).lockSet a = s.lockSet a := rfl
@[simp] theorem setQp_port (x : Qp) (a : Nat) : (s.setQp x).port a = s.port a := rfl
@[simp] theorem setQp_path (x : Qp) (a : Nat) : (s.setQp x).path? a = s.path? a := rfl
@[simp] theorem setQp_coll (x : Qp) (a : Nat) : (s.setQp x).coll? a = s.coll? a := rfl
@[simp] theorem setQp_chip (x : Qp) (a : Nat) : (s.setQp x).chip a = s.chip a := rfl

@[simp] theorem setColl_getObj (x : Coll) (a : Nat) : (s.setColl x).getObj a = s.getObj a := rfl
@[simp] theorem setColl_getBlob (x : Coll) (a : Nat) : (s.setColl x).getBlob a = s.getBlob a := rfl
@[simp] theorem setColl_forced (x : Coll) (a : Nat) : (s.setColl x).forced a = s.forced a := rfl
@[simp] theorem setColl_freeVal (x : Coll) : (s.setColl x).freeVal = s.freeVal := rfl
@[simp] theorem setColl_slice (x : Coll) (a : Nat) : (s.setColl x).slice a = s.slice a := rfl
@[simp] theorem setColl_chan (x : Coll) (a : Nat) : (s.setColl x).chan a = s.chan a := rfl
@[simp] theorem setColl_core (x : Coll) (a : Nat) : (s.setColl x).core a = s.core a := rfl
@[simp] theorem setColl_launch (x : Coll) (a : Nat) : (s.setColl x).launch? a = s.launch? a := rfl
@[simp] theorem setColl_lockSet (x : Coll) (a : Nat) : (s.setColl x).lockSet a = s.lockSet a := rfl
@[simp] theorem setColl_port (x : Coll) (a : Nat) : (s.setColl x).port a = s.port a := rfl
@[simp] theorem setColl_path (x : Coll) (a : Nat) : (s.setColl x).path? a = s.path? a := rfl
@[simp] theorem setColl_qp (x : Coll) (a : Nat) : (s.setColl x).qp a = s.qp a := rfl
@[simp] theorem setColl_chip (x : Coll) (a : Nat) : (s.setColl x).chip a = s.chip a := rfl

@[simp] theorem setChip_getObj (x : Chiplet) (a : Nat) : (s.setChip x).getObj a = s.getObj a := rfl
@[simp] theorem setChip_getBlob (x : Chiplet) (a : Nat) : (s.setChip x).getBlob a = s.getBlob a := rfl
@[simp] theorem setChip_forced (x : Chiplet) (a : Nat) : (s.setChip x).forced a = s.forced a := rfl
@[simp] theorem setChip_freeVal (x : Chiplet) : (s.setChip x).freeVal = s.freeVal := rfl
@[simp] theorem setChip_slice (x : Chiplet) (a : Nat) : (s.setChip x).slice a = s.slice a := rfl
@[simp] theorem setChip_chan (x : Chiplet) (a : Nat) : (s.setChip x).chan a = s.chan a := rfl
@[simp] theorem setChip_core (x : Chiplet) (a : Nat) : (s.setChip x).core a = s.core a := rfl
@[simp] theorem setChip_launch (x : Chiplet) (a : Nat) : (s.setChip x).launch? a = s.launch? a := rfl
@[simp] theorem setChip_lockSet (x : Chiplet) (a : Nat) : (s.setChip x).lockSet a = s.lockSet a := rfl
@[simp] theorem setChip_port (x : Chiplet) (a : Nat) : (s.setChip x).port a = s.port a := rfl
@[simp] theorem setChip_path (x : Chiplet) (a : Nat) : (s.setChip x).path? a = s.path? a := rfl
@[simp] theorem setChip_qp (x : Chiplet) (a : Nat) : (s.setChip x).qp a = s.qp a := rfl
@[simp] theorem setChip_coll (x : Chiplet) (a : Nat) : (s.setChip x).coll? a = s.coll? a := rfl

@[simp] theorem send_getObj (o : Out) (a : Nat) : (s.send o).getObj a = s.getObj a := rfl
@[simp] theorem send_getBlob (o : Out) (a : Nat) : (s.send o).getBlob a = s.getBlob a := rfl
@[simp] theorem send_forced (o : Out) (a : Nat) : (s.send o).forced a = s.forced a := rfl
@[simp] theorem send_freeVal (o : Out) : (s.send o).freeVal = s.freeVal := rfl
@[simp] theorem send_slice (o : Out) (a : Nat) : (s.send o).slice a = s.slice a := rfl
@[simp] theorem send_chan (o : Out) (a : Nat) : (s.send o).chan a = s.chan a := rfl
@[simp] theorem send_core (o : Out) (a : Nat) : (s.send o).core a = s.core a := rfl
@[simp] theorem send_launch (o : Out) (a : Nat) : (s.send o).launch? a = s.launch? a := rfl
@[simp] theorem send_lockSet (o : Out) (a : Nat) : (s.send o).lockSet a = s.lockSet a := rfl
@[simp] theorem send_port (o : Out) (a : Nat) : (s.send o).port a = s.port a := rfl
@[simp] theorem send_path (o : Out) (a : Nat) : (s.send o).path? a = s.path? a := rfl
@[simp] theorem send_qp (o : Out) (a : Nat) : (s.send o).qp a = s.qp a := rfl
@[simp] theorem send_coll (o : Out) (a : Nat) : (s.send o).coll? a = s.coll? a := rfl
@[simp] theorem send_chip (o : Out) (a : Nat) : (s.send o).chip a = s.chip a := rfl

@[simp] theorem flushCounters_getObj (a : Nat) : (s.flushCounters).getObj a = s.getObj a := rfl
@[simp] theorem flushCounters_getBlob (a : Nat) : (s.flushCounters).getBlob a = s.getBlob a := rfl
@[simp] theorem flushCounters_forced (a : Nat) : (s.flushCounters).forced a = s.forced a := rfl
@[simp] theorem flushCounters_freeVal : (s.flushCounters).freeVal = s.freeVal := rfl
@[simp] theorem flushCounters_slice (a : Nat) : (s.flushCounters).slice a = s.slice a := rfl
@[simp] theorem flushCounters_chan (a : Nat) : (s.flushCounters).chan a = s.chan a := rfl
@[simp] theorem flushCounters_core (a : Nat) : (s.flushCounters).core a = s.core a := rfl
@[simp] theorem flushCounters_launch (a : Nat) : (s.flushCounters).launch? a = s.launch? a := rfl
@[simp] theorem flushCounters_lockSet (a : Nat) : (s.flushCounters).lockSet a = s.lockSet a := rfl
@[simp] theorem flushCounters_port (a : Nat) : (s.flushCounters).port a = s.port a := rfl
@[simp] theorem flushCounters_path (a : Nat) : (s.flushCounters).path? a = s.path? a := rfl
@[simp] theorem flushCounters_qp (a : Nat) : (s.flushCounters).qp a = s.qp a := rfl
@[simp] theorem flushCounters_coll (a : Nat) : (s.flushCounters).coll? a = s.coll? a := rfl
@[simp] theorem flushCounters_chip (a : Nat) : (s.flushCounters).chip a = s.chip a := rfl

/-! ### Objects -/

@[simp] theorem getObj_putObj_same (k v : Nat) : (s.putObj k v).getObj k = v := sget_sput_same s.od k v

theorem getObj_putObj_ne {k a : Nat} (v : Nat) (hk : k ≠ a) : (s.putObj k v).getObj a = s.getObj a := sget_sput_ne s.od v hk

theorem getObj_putObj (k a v : Nat) : (s.putObj k v).getObj a = if a = k then v else s.getObj a := sget_sput s.od k a v

/-- The dictionary keeps its canonical form: no key twice, no object listed at its reset value. -/
theorem od_putObj {s : State} (h : swf objReset s.od = true) (k v : Nat) : swf objReset (s.putObj k v).od = true :=
  swf_sput h k v

end Sys2Proof.Machine.State
end

