-- ==== Sys2Proof/Laws/Memory.lean ====
section
/-! SUPPORT. Laws of memory: every operation over device memory, its caches and its tables keeps the canonical forms of the dictionary and
of memory, and what a store to a sector leaves at every other address. -/

namespace Sys2Proof.Machine

variable {s t : State}

/-! ### States that agree on what is canonical -/

theorem canonical_of_eq (h : Canonical s) (ho : t.od = s.od) (hm : t.mem.bytes = s.mem.bytes) : Canonical t := by
  simpa only [Canonical, OdWf, ho, hm] using h

/-- A change of memory's bytes alone. -/
theorem canonical_of_bytes (h : Canonical s) (ho : t.od = s.od) (hm : Memory.wf t.mem.bytes) : Canonical t :=
  ⟨by simpa only [OdWf, ho] using h.1, hm⟩

theorem canonical_putObj (h : Canonical s) (k v : Nat) : Canonical (s.putObj k v) := ⟨swf_sput h.1 k v, h.2⟩
theorem canonical_addObj (h : Canonical s) (k n : Nat) : Canonical (s.addObj k n) := canonical_putObj h _ _
theorem canonical_subObj (h : Canonical s) (k n : Nat) : Canonical (s.subObj k n) := canonical_putObj h _ _
theorem canonical_setAlert (h : Canonical s) (i : Nat) : Canonical (s.setAlert i) := canonical_putObj h _ _
theorem canonical_setSlice (h : Canonical s) (x : Slice) : Canonical (s.setSlice x) := canonical_of_eq h rfl rfl
theorem canonical_useFree (h : Canonical s) (n : Nat) : Canonical (s.useFree n) := canonical_of_eq h rfl rfl
theorem canonical_send (h : Canonical s) (o : Out) : Canonical (s.send o) := canonical_of_eq h rfl rfl

/-- A fold of a function that keeps the forms keeps them. -/
theorem canonical_foldl {α : Type} {f : State → α → State} (hf : ∀ s a, Canonical s → Canonical (f s a)) (l : List α) (h : Canonical s) :
    Canonical (l.foldl f s) := by
  induction l generalizing s with
  | nil => exact h
  | cons a l ih => exact ih (hf s a h)

/-- Cells written one after another keep the canonical form of a memory. -/
theorem wf_cellsAdd {l : List Host.Cell} (cs : List Host.Cell) (h : Memory.wf l) : Memory.wf (cellsAdd l cs) := by
  induction cs generalizing l with
  | nil => exact h
  | cons c cs ih => exact ih (wf_cellPut h c.1 c.2)

/-! ### What caches and directories keep -/

/-- A change that keeps the dictionary's canonical form and leaves the bytes of memory as they are. -/
def Keeps (s t : State) : Prop := (OdWf s → OdWf t) ∧ t.mem.bytes = s.mem.bytes

theorem Keeps.rfl : Keeps s s := ⟨id, Eq.refl _⟩

theorem Keeps.trans {u : State} (h : Keeps s t) (h' : Keeps t u) : Keeps s u := ⟨h'.1 ∘ h.1, h'.2.trans h.2⟩

theorem keeps_of_eq (ho : t.od = s.od) (hm : t.mem.bytes = s.mem.bytes) : Keeps s t := ⟨fun h => by simpa only [OdWf, ho] using h, hm⟩

theorem Keeps.then (h : Keeps s t) {u : State} (ho : u.od = t.od) (hm : u.mem.bytes = t.mem.bytes) : Keeps s u := h.trans (keeps_of_eq ho hm)

theorem keeps_putObj (s : State) (k v : Nat) : Keeps s (s.putObj k v) := ⟨fun h => swf_sput h k v, Eq.refl _⟩

theorem keeps_addObj (s : State) (k n : Nat) : Keeps s (s.addObj k n) := keeps_putObj s _ _

theorem keeps_foldl {α : Type} {f : State → α → State} (hf : ∀ s a, Keeps s (f s a)) (l : List α) (s : State) : Keeps s (l.foldl f s) := by
  induction l generalizing s with
  | nil => exact .rfl
  | cons a l ih => exact (hf s a).trans (ih _)

theorem canonical_of_keeps (h : Canonical s) (hk : Keeps s t) : Canonical t := ⟨hk.1 h.1, by rw [hk.2]; exact h.2⟩

theorem keeps_invalidateDie (s : State) (wr : Option Nat) (d : Nat) (l : LineKey) : Keeps s (invalidateDie s wr d l) := by
  simp only [invalidateDie]
  split
  · exact .rfl
  · split
    · exact (keeps_addObj s _ _).then (Eq.refl _) (Eq.refl _)
    · exact keeps_of_eq (Eq.refl _) (Eq.refl _)

theorem keeps_invalidateL1 (s : State) (wr : Option Nat) (l : LineKey) : Keeps s (invalidateL1 s wr l) :=
  keeps_foldl (fun s d => keeps_invalidateDie s wr d l) _ s

theorem keeps_dirtyHome (s : State) (d line : Nat) : Keeps s (dirtyHome s d line) := by
  simp only [dirtyHome]
  split
  · exact .rfl
  · split
    · exact .rfl
    · exact keeps_of_eq (Eq.refl _) (Eq.refl _)

theorem keeps_dropCopy (s : State) (wr : Option Nat) (a : Nat) (l : LineKey) : Keeps s (dropCopy s wr a l) := by
  simp only [dropCopy]
  split
  · exact .rfl
  · refine Keeps.trans ?_ (keeps_invalidateDie _ _ _ _)
    split
    · exact (keeps_dirtyHome s a _).then (Eq.refl _) (Eq.refl _)
    · exact .rfl

theorem keeps_putDir (s : State) (e : DirEnt) : Keeps s (putDir s e) := keeps_of_eq (Eq.refl _) (Eq.refl _)

theorem keeps_dropDir (s : State) (l : LineKey) : Keeps s (dropDir s l) := keeps_of_eq (Eq.refl _) (Eq.refl _)

theorem keeps_snoopChip (s : State) (p : Nat) (h : HeldLine) (w : Bool) : Keeps s (snoopChip s p h w) := by
  simp only [snoopChip]
  split
  · exact .rfl
  · exact keeps_of_eq (Eq.refl _) (Eq.refl _)

theorem keeps_llmRoom {n d line : Nat} (ht : llmRoom s n d line = some t) : Keeps s t := by
  simp only [llmRoom] at ht
  split at ht
  · cases ht
  · split at ht
    · cases ht; exact .rfl
    · split at ht
      · cases ht
      · split at ht
        · cases ht; exact keeps_of_eq (Eq.refl _) (Eq.refl _)
        · split at ht
          · split at ht
            · cases ht; exact (keeps_dropCopy _ _ _ _).trans (keeps_dropDir _ _)
            · cases ht; exact keeps_of_eq (Eq.refl _) (Eq.refl _)
          · cases ht; exact keeps_of_eq (Eq.refl _) (Eq.refl _)

theorem keeps_llmTouch (s : State) (n d line : Nat) (is : List Nat) (w : Bool) (f : Fill) : Keeps s (llmTouch s n d line is w f) := by
  simp only [llmTouch]
  have hc : Keeps s (if llmHit s d line is = true then s.addObj (Obj.llmHits n) 1 else s.addObj (Obj.llmMisses n) 1) := by
    split <;> exact keeps_addObj s _ _
  generalize (if llmHit s d line is = true then s.addObj (Obj.llmHits n) 1 else s.addObj (Obj.llmMisses n) 1) = u at hc ⊢
  refine hc.trans ?_
  · split
    · exact keeps_of_eq (Eq.refl _) (Eq.refl _)
    · split
      · exact .rfl
      · split
        · exact .rfl
        · next hr => exact (keeps_llmRoom hr).then (Eq.refl _) (Eq.refl _)

theorem keeps_evictDir (s : State) (e : DirEnt) : Keeps s (evictDir s e) := by
  simp only [evictDir]
  generalize hu : (if e.broadcast = true then (s.addObj (Obj.dirEvictions (lineDie s e.line)) 1).addObj
      (Obj.broadcasts (lineDie (s.addObj (Obj.dirEvictions (lineDie s e.line)) 1) e.line)) 1 else s.addObj (Obj.dirEvictions (lineDie s e.line)) 1) = u
  have h1 : Keeps s u := by
    subst hu
    split
    · exact (keeps_addObj s _ _).trans (keeps_addObj _ _ _)
    · exact keeps_addObj s _ _
  refine (h1.trans (keeps_foldl (fun s a => keeps_dropCopy s none a e.line) (agentsOf e) _)).trans ?_
  split
  · exact keeps_dropDir _ _
  · refine Keeps.trans ?_ (keeps_putDir _ _)
    exact keeps_foldl (fun s p => keeps_snoopChip s _ _ _) _ _

/-- Room in a home directory is made with memory as it was and the dictionary but for counts. -/
theorem keeps_dirRoom {n : Nat} {l : LineKey} (hr : dirRoom s n l = .ok t) : Keeps s t := by
  simp only [dirRoom] at hr
  split at hr
  · cases hr; exact .rfl
  · split at hr
    · cases hr
    · split at hr <;> cases hr; exact keeps_evictDir _ _

/-- So with a request that waits for the room. -/
theorem keeps_dirRoom_waits {n : Nat} {l : LineKey} (hr : dirRoom s n l = .error t) : Keeps s t := by
  simp only [dirRoom] at hr
  split at hr
  · cases hr
  · split at hr
    · cases hr; exact .rfl
    · split at hr <;> cases hr; exact keeps_evictDir _ _

theorem keeps_dirHomeRead (s : State) (l : LineKey) : Keeps s (dirHomeRead s l) := by
  simp only [dirHomeRead]
  split
  · split
    · refine Keeps.trans ?_ (keeps_putDir _ _)
      split
      · exact keeps_dirtyHome _ _ _
      · exact .rfl
    · exact .rfl
  · exact .rfl

theorem keeps_dirRead (s : State) (n d : Nat) (l : LineKey) : Keeps s (dirRead s n d l) := by
  simp only [dirRead]
  split
  · split
    · next hr => exact (keeps_dirRoom hr).trans (keeps_putDir _ _)
    · next hr => exact keeps_dirRoom_waits hr
  · split
    · exact keeps_putDir _ _
    · split
      · exact (keeps_dirHomeRead s l).trans (keeps_putDir _ _)
      · exact keeps_dirHomeRead s l

theorem keeps_dropOthers (s : State) (wr : Option Nat) (d : Nat) (l : LineKey) : Keeps s (dropOthers s wr d l) := by
  simp only [dropOthers]
  refine Keeps.trans ?_ (keeps_invalidateL1 _ wr l)
  split
  · exact .rfl
  · refine Keeps.trans ?_ (keeps_foldl (fun s a => keeps_dropCopy s wr a l) _ _)
    split
    · exact keeps_addObj _ _ _
    · exact .rfl

theorem keeps_dirWrite (s : State) (wr : Option Nat) (n d : Nat) (l : LineKey) (own : Bool) : Keeps s (dirWrite s wr n d l own) := by
  simp only [dirWrite]
  refine (keeps_dropOthers s wr d l).trans ?_
  split
  · split
    · split
      · next hr => exact (keeps_dirRoom hr).trans (keeps_putDir _ _)
      · next hr => exact keeps_dirRoom_waits hr
    · exact .rfl
  · split
    · exact keeps_putDir _ _
    · split
      · exact (keeps_dirHomeRead _ l).trans (keeps_putDir _ _)
      · exact (keeps_dropCopy _ _ _ _).trans (keeps_dropDir _ _)

/-- An access moves tags, directories and counts, and neither memory nor the dictionary's form. -/
theorem keeps_readVia (s : State) (n d : Nat) (l : LineKey) (is : List Nat) (f : Fill) : Keeps s (readVia s n d l is f) := by
  simp only [readVia]
  split
  · split
    · exact (keeps_dirHomeRead s _).trans (keeps_llmTouch _ _ _ _ _ _ _)
    · exact keeps_dirHomeRead s _
  · split
    · split
      · exact .rfl
      · exact keeps_dirRead _ _ _ _
    · split
      · exact (keeps_dirHomeRead s _).trans (keeps_llmTouch _ _ _ _ _ _ _)
      · split
        · exact keeps_llmTouch _ _ _ _ _ _ _
        · refine Keeps.trans ?_ ((keeps_dirRead _ _ _ _).trans (keeps_llmTouch _ _ _ _ _ _ _))
          split
          · exact keeps_llmTouch _ _ _ _ _ _ _
          · exact .rfl

theorem keeps_setUnder (s : State) (d x : Nat) (ds : List (Nat × Sector)) : Keeps s (setUnder s d x ds) := keeps_of_eq (Eq.refl _) (Eq.refl _)

/-- Ownership of a line for a write, with what its last owner had changed of it. -/
theorem keeps_ownWrite (s : State) (wr : Option Nat) (n d x i : Nat) (f : Fill) : Keeps s (ownWrite s wr n d x i f) := by
  have ht (u : State) : Keeps u (llmTouch (dirWrite u wr n d (.dev x) (d != homeDie (x * 512))) n d x [i] true f) :=
    (keeps_dirWrite _ _ _ _ _ _).trans (keeps_llmTouch _ _ _ _ _ _ _)
  simp only [ownWrite]
  split
  · exact ht s
  · split
    · exact ((keeps_setUnder _ _ _ _).trans (ht _)).trans (keeps_setUnder _ _ _ _)
    · exact ht s

theorem keeps_writeVia (s : State) (wr : Option Nat) (n d : Nat) (l : LineKey) (i : Nat) (f : Fill) : Keeps s (writeVia s wr n d l i f) := by
  simp only [writeVia]
  split
  · exact keeps_dirWrite _ _ _ _ _ _
  · split
    · exact (keeps_dirWrite _ _ _ _ _ _).trans (keeps_llmTouch _ _ _ _ _ _ _)
    · exact keeps_ownWrite _ _ _ _ _ _ _

/-! ### Sectors -/

theorem canonical_invalidateL1 (h : Canonical s) (wr : Option Nat) (l : LineKey) : Canonical (invalidateL1 s wr l) :=
  canonical_of_keeps h (keeps_invalidateL1 s wr l)

theorem keeps_updateL1 (s : State) (wr : Option Nat) (k : SectKey) (off : Nat) (bs : List Byte) : Keeps s (updateL1 s wr k off bs) := by
  unfold updateL1
  split <;> exact keeps_of_eq (Eq.refl _) (Eq.refl _)

theorem keeps_freshL1 (s : State) (wr : Option Nat) (k : SectKey) : Keeps s (freshL1 s wr k) := by
  unfold freshL1
  split <;> exact keeps_of_eq (Eq.refl _) (Eq.refl _)

theorem canonical_readSect (h : Canonical s) (k : SectKey) : Canonical (readSect s k).1 := by
  unfold readSect
  split
  · exact h
  · exact canonical_useFree h 1

theorem canonical_mergeDead (h : Canonical s) (wr : Option Nat) (k : SectKey) (len : Nat) : Canonical (mergeDead s wr k len) := by
  simp only [mergeDead]
  split
  · exact h
  · split
    · exact h
    · have h1 := canonical_readSect h k
      cases wr with
      | none => exact canonical_of_bytes h1 rfl (wf_cellsPut _ h1.2 _)
      | some c => exact canonical_of_bytes h1 rfl (wf_cellsPut _ h1.2 _)

theorem canonical_putSect (h : Canonical s) (k : SectKey) (off : Nat) (bs : List Byte) : Canonical (putSect s k off bs) := by
  simp only [putSect]
  split
  · exact canonical_of_bytes h rfl (wf_cellsPut _ h.2 _)
  · exact canonical_setSlice h _

/-- A store to one sector, by any die, keeps the canonical forms. -/
theorem canonical_writeSectAt (h : Canonical s) (die : Nat) (f : Fill) (wr : Option Nat) (n : Nat) (k : SectKey) (off : Nat) (bs : List Byte) :
    Canonical (writeSectAt die f s wr n k off bs) := by
  simp only [writeSectAt]
  refine canonical_of_keeps ?_ (keeps_updateL1 _ _ _ _ _)
  have h1 := canonical_putSect (canonical_of_keeps (canonical_mergeDead h wr k bs.length)
    ((keeps_freshL1 _ wr k).trans (keeps_writeVia _ wr n die k.line k.i f))) k off bs
  split
  · exact canonical_of_eq h1 (Eq.refl _) (Eq.refl _)
  · exact h1

theorem canonical_writeSectAs (h : Canonical s) (f : Fill) (wr : Option Nat) (n : Nat) (k : SectKey) (off : Nat) (bs : List Byte) :
    Canonical (writeSectAs f s wr n k off bs) := canonical_writeSectAt h _ f wr n k off bs

theorem canonical_writeSect (h : Canonical s) (wr : Option Nat) (n : Nat) (k : SectKey) (off : Nat) (bs : List Byte) :
    Canonical (writeSect s wr n k off bs) := canonical_writeSectAs h .sectors wr n k off bs

theorem canonical_homeSectAs (h : Canonical s) (f : Fill) (n : Nat) (k : SectKey) : Canonical (homeSectAs f s n k).1 :=
  canonical_readSect (canonical_of_keeps h (keeps_readVia _ _ _ _ _ _)) k

theorem canonical_agentSect (h : Canonical s) (f : Fill) (a : Asker) (n : Nat) (k : SectKey) : Canonical (agentSect f a s n k).1 := by
  simp only [agentSect]
  split
  · exact canonical_readSect (canonical_of_keeps h (keeps_readVia _ _ _ _ _ _)) k
  · exact canonical_homeSectAs h f n k

/-! ### Runs of bytes -/

theorem canonical_logWrite (h : Canonical s) (n va : Nat) : Canonical (logWrite s n va) := canonical_setSlice h _

theorem canonical_noteCode (h : Canonical s) (m addr n : Nat) : Canonical (noteCode s m addr n) := by
  simp only [noteCode]
  split
  · exact h
  · exact canonical_of_eq h rfl rfl

theorem canonical_writePieceAt (h : Canonical s) (die : Nat) (f : Fill) (wr : Option Nat) (m space addr : Nat) (k : SectKey) (bs : List Byte) :
    Canonical (writePieceAt die f s wr m space addr k bs) := by
  simp only [writePieceAt]
  refine canonical_writeSectAt ?_ _ _ _ _ _ _ _
  split
  · exact h
  · exact canonical_noteCode (canonical_logWrite h _ _) _ _ _

theorem canonical_writePieceAs (h : Canonical s) (f : Fill) (wr : Option Nat) (m space addr : Nat) (k : SectKey) (bs : List Byte) :
    Canonical (writePieceAs f s wr m space addr k bs) := canonical_writePieceAt h _ f wr m space addr k bs

theorem canonical_writeRunGo (f : Fill) (wr : Option Nat) (a : Asker) (m space fuel : Nat) (h : Canonical s) (addr : Nat) (bs : List Byte) (done : Nat) :
    Canonical (writeRunGo f wr a m space fuel s addr bs done).1 := by
  induction fuel generalizing s addr bs done with
  | zero => exact h
  | succ fuel ih =>
    simp only [writeRunGo]
    split
    · exact h
    · split
      · exact h
      · exact ih (canonical_writePieceAs h _ _ _ _ _ _ _) _ _ _

/-- A write of a run of bytes keeps the canonical forms, as far as it goes. -/
theorem canonical_writeRunAs (h : Canonical s) (f : Fill) (wr : Option Nat) (a : Asker) (m space addr : Nat) (bs : List Byte) :
    Canonical (writeRunAs f wr a s m space addr bs).1 := canonical_writeRunGo f wr a m space _ h addr bs 0

theorem canonical_writeRun (h : Canonical s) (m space addr : Nat) (bs : List Byte) : Canonical (writeRun s m space addr bs).1 :=
  canonical_writeRunAs h .sectors none .device m space addr bs

theorem canonical_readRunGo (f : Fill) (a : Asker) (m space fuel : Nat) (h : Canonical s) {addr n : Nat} {r : State × List Byte}
    (hr : readRunGo f a m space fuel s addr n = .ok r) : Canonical r.1 := by
  induction fuel generalizing s addr n r with
  | zero => cases hr; exact h
  | succ fuel ih =>
    simp only [readRunGo] at hr
    split at hr
    · cases hr; exact h
    · split at hr
      · cases hr
      · split at hr
        · cases hr
        · next heq =>
          cases hr
          have h2 := ih (canonical_agentSect h f a m _) heq
          exact h2

theorem canonical_readRunAs (h : Canonical s) {f : Fill} {a : Asker} {m space addr n : Nat} {r : State × List Byte}
    (hr : readRunAs f a s m space addr n = .ok r) : Canonical r.1 := canonical_readRunGo f a m space _ h hr

theorem canonical_physPut (h : Canonical s) (pa : Nat) (bs : List Byte) : Canonical (physPut s pa bs) := by
  simp only [physPut]
  refine canonical_foldl (fun s l hs => ?_) _ (canonical_of_bytes h rfl (wf_cellsPut _ h.2 _))
  split
  · split
    · exact canonical_invalidateL1 hs _ _
    · exact hs
  · exact hs

theorem keeps_takeChip (s : State) (p : Nat) (h : HeldLine) : Keeps s (takeChip s p h) :=
  (keeps_putObj (s.setChip _) _ _).then (Eq.refl _) (Eq.refl _)

theorem keeps_takeCopies (s : State) (wr : Option Nat) (line : Nat) : Keeps s (takeCopies s wr line) := by
  simp only [takeCopies]
  refine Keeps.trans ?_ (keeps_foldl (fun s p => keeps_takeChip s _ _) _ _)
  have h1 : ∀ u : State, Keeps u (match wr with
      | some c => dropL1 u c (.dev line)
      | none => u) := fun u => by cases wr <;> exact keeps_of_eq (Eq.refl _) (Eq.refl _)
  refine Keeps.trans ?_ (h1 _)
  refine Keeps.trans ?_ (keeps_invalidateL1 _ _ _)
  split
  · split
    · exact keeps_putObj _ _ _
    · exact .rfl
  · exact .rfl

/-- A discard moves tags, directories and marks, and leaves every byte of memory. -/
theorem keeps_discardLine (s : State) (wr : Option Nat) (line : Nat) : Keeps s (discardLine s wr line) :=
  (keeps_takeCopies s wr line).then (Eq.refl _) (Eq.refl _)

/-! ### Stores on their way -/

theorem canonical_served (h : Canonical s) (a : Asker) : Canonical (served s a) := by
  simp only [served]
  split
  · exact h
  · exact canonical_of_eq h rfl rfl

theorem canonical_servedAt (h : Canonical s) (a : Asker) (k : SectKey) : Canonical (servedAt s a k) := by
  simp only [servedAt]
  split
  · exact h
  · exact canonical_of_eq h rfl rfl

theorem keeps_waitPlace (s : State) (k : SectKey) (a : Asker) : Keeps s (waitPlace s k a) := keeps_of_eq (Eq.refl _) (Eq.refl _)

theorem keeps_waitFrozen (s : State) (k : SectKey) (a : Asker) : Keeps s (waitFrozen s k a) := by
  simp only [waitFrozen]
  split
  · exact (keeps_waitPlace s k a).then (Eq.refl _) (Eq.refl _)
  · exact keeps_waitPlace s k a

theorem keeps_addWaiter (s : State) (m : MissReg) (a : Asker) (i : Nat) : Keeps s (addWaiter s m a i) := keeps_of_eq (Eq.refl _) (Eq.refl _)

theorem keeps_waitInput (s : State) (m : MissReg) : Keeps s (waitInput s m) := by
  unfold waitInput
  first
  | exact keeps_of_eq (Eq.refl _) (Eq.refl _)
  | (split <;> exact keeps_of_eq (Eq.refl _) (Eq.refl _))

theorem keeps_missWait {k : SectKey} {w : Bool} {a : Asker} (h : missWait s k w a = some t) : Keeps s t := by
  simp only [missWait] at h
  split at h
  · cases h; exact keeps_addWaiter _ _ _ _
  · cases h; exact keeps_addWaiter _ _ _ _
  · cases h; exact (keeps_addWaiter _ _ _ _).trans (keeps_addWaiter _ _ _ _)
  · split at h
    · cases h; exact keeps_waitInput _ _
    · cases h; exact keeps_of_eq (Eq.refl _) (Eq.refl _)
  · cases h

theorem keeps_dirWait {k : SectKey} {w : Bool} {a : Asker} (h : dirWait s k w a = some t) : Keeps s t := by
  simp only [dirWait] at h
  split at h
  · cases h
  · split at h
    · cases h
    · split at h
      · split at h
        · cases h
        · next hr => cases h; exact keeps_dirRoom_waits hr
      · split at h
        · cases h
        · split at h
          · split at h
            · cases h; exact (keeps_putDir _ _).trans (keeps_snoopChip _ _ _ _)
            · cases h
          · cases h

/-- What a wait of an access starts leaves memory and the dictionary's form. -/
theorem keeps_reach {k : SectKey} {w : Bool} {a : Asker} (h : reach s k w a = .error (.wait t)) : Keeps s t := by
  simp only [reach] at h
  repeat' split at h
  all_goals first
    | (cases h; exact .rfl)
    | (cases h; exact keeps_foldl (fun s p => keeps_snoopChip s _ _ _) _ s)
    | (cases h; exact keeps_waitFrozen _ _ _)
    | (next hw => cases h; exact keeps_dirWait hw)
    | (next hw => cases h; exact keeps_missWait hw)
    | cases h

/-! ### Pages and tables -/

theorem canonical_zeroRange (h : Canonical s) (lo size : Nat) : Canonical (zeroRange s lo size) := canonical_of_bytes h rfl (swf_filter h.2 _)

theorem canonical_putPte (h : Canonical s) (a v : Nat) : Canonical (putPte s a v) := canonical_of_bytes h rfl (wf_cellsPut _ h.2 _)

theorem canonical_grant (h : Canonical s) (n : Nat) (u : Use) (base size : Nat) : Canonical (grant s n u base size) := canonical_of_eq h rfl rfl

theorem canonical_newTable (h : Canonical s) {n l : Nat} {r : State × Nat} (hr : newTable s n l = some r) : Canonical r.1 := by
  simp only [newTable] at hr
  split at hr
  · cases hr
  · cases hr; exact canonical_setSlice h _

theorem canonical_putLeaf {n va leaf v l base : Nat} (h : Canonical s) (ht : putLeaf n va leaf v l base s = some t) : Canonical t := by
  induction l generalizing s base with
  | zero =>
    simp only [putLeaf] at ht
    split at ht
    · cases ht
    · cases ht; exact canonical_putPte h _ _
  | succ k ih =>
    simp only [putLeaf] at ht
    split at ht
    · split at ht
      · cases ht
      · cases ht; exact canonical_putPte h _ _
    · split at ht
      · split at ht
        · cases ht
        · exact ih h ht
      · split at ht
        · cases ht
        · next hn => exact ih (canonical_putPte (canonical_newTable h hn) _ _) ht

theorem canonical_freeTables (n va k base : Nat) (h : Canonical s) : Canonical (freeTables n va k base s) := by
  induction k generalizing base with
  | zero => exact h
  | succ k ih =>
    simp only [freeTables]
    split
    · exact h
    · split
      · exact canonical_putPte (canonical_setSlice (ih _) _) _ _
      · exact ih _

theorem canonical_retarget (old size new : Nat) (h : Canonical s) (x : Table) : Canonical (retarget old size new s x) := by
  simp only [retarget]
  refine canonical_foldl (fun s i hs => ?_) _ h
  split
  · exact canonical_putPte hs _ _
  · exact hs

theorem canonical_noteRegions (h : Canonical s) : Canonical (noteRegions s) :=
  canonical_foldl (fun _ _ hs => canonical_putObj (canonical_putObj (canonical_putObj (canonical_putObj hs _ _) _ _) _ _) _ _) _ h

/-- A page that moves keeps the canonical forms. -/
theorem canonical_relocate (h : Canonical s) (old size new : Nat) : Canonical (relocate s old size new) := by
  simp only [relocate]
  refine canonical_noteRegions (canonical_foldl (fun s x hs => canonical_foldl (fun s x hs => canonical_retarget _ _ _ hs x) _ hs) _ ?_)
  have h1 := canonical_zeroRange (canonical_zeroRange h old size) new size
  exact canonical_of_bytes h1 rfl (wf_cellsAdd _ h1.2)

theorem canonical_putPage (h : Canonical s) (pa : Nat) (cells : List Host.Cell) (marks : List Nat) : Canonical (putPage s pa cells marks) := by
  simp only [putPage]
  refine canonical_foldl (fun s l hs => ?_) _ (canonical_of_bytes h rfl (wf_cellsAdd _ (swf_filter h.2 _)))
  split
  · split
    · exact canonical_invalidateL1 hs _ _
    · exact hs
  · exact hs

/-- Memory right after reset has its canonical form. -/
theorem wf_reset : Memory.wf State.reset.mem.bytes := rfl

/-! ### What a store leaves -/

/-- Outside the bytes that a store to a live sector of device memory writes, memory reads as before. -/
theorem writeSect_outside (f : Fill) (wr : Option Nat) (n l i off : Nat) (bs : List Byte) (hd : deadOf s ⟨.dev l, i⟩ = none) {a : Nat}
    (ha : a < l * 512 + i * 64 + off ∨ l * 512 + i * 64 + off + bs.length ≤ a) :
    cellGet (writeSectAs f s wr n ⟨.dev l, i⟩ off bs).mem.bytes a = cellGet s.mem.bytes a := by
  have hm : mergeDead s wr ⟨.dev l, i⟩ bs.length = s := by simp only [mergeDead, hd]
  simp only [writeSectAs, writeSectAt, (keeps_updateL1 _ _ _ _ _).2, hm]
  split <;> exact (cellGet_cellsPut_outside bs _ ha).trans (by rw [(keeps_writeVia _ _ _ _ _ _ _).2, (keeps_freshL1 _ _ _).2])

end Sys2Proof.Machine
end

