-- ==== Sys2Proof/Laws/Ops.lean ====
section
/-! SUPPORT. What the shared wrappers of the meanings can do: each law takes apart the answer of one wrapper into its cases, guards
included, so that a proof about a meaning cites the law and never unfolds the wrapper. -/

namespace Sys2Proof.Machine

variable {s t : State}

/-- A command about something the state may lack: nothing happens without it. -/
theorem withSome_next {α : Type} {o : Option α} {what : String} {f : α → Res} (h : withSome s o what f = .next t) :
    (o = none ∧ t = s) ∨ ∃ x, o = some x ∧ f x = .next t := by
  cases o with
  | none => cases h; exact .inl ⟨rfl, rfl⟩
  | some x => exact .inr ⟨x, rfl, h⟩

theorem onlyIf_next {ok : Bool} {what : String} {r : Res} (h : onlyIf s ok what r = .next t) :
    (ok = false ∧ t = s) ∨ (ok = true ∧ r = .next t) := by
  cases ok with
  | false => cases h; exact .inl ⟨rfl, rfl⟩
  | true => exact .inr ⟨rfl, h⟩

@[simp] theorem withSome_some {α : Type} (s : State) (x : α) (what : String) (f : α → Res) : withSome s (some x) what f = f x := rfl

@[simp] theorem withSome_none {α : Type} (s : State) (what : String) (f : α → Res) : withSome s none what f = .next s := rfl

@[simp] theorem onlyIf_true (s : State) (what : String) (r : Res) : onlyIf s true what r = r := rfl

@[simp] theorem onlyIf_false (s : State) (what : String) (r : Res) : onlyIf s false what r = .next s := rfl

/-- A command of a ring: none is in flight, or it is of the row's opcode, and either its own final status ends it or its effect runs. -/
theorem withCmd_next {ops : List Nat} {r : CmdRef} {f : Cmd → Res} (h : withCmd ops r s f = .next t) :
    (findFlight s r.ch r.seq = none ∧ t = s) ∨
    ∃ c, findFlight s r.ch r.seq = some c ∧ ops.contains c.op = true ∧
      ((∃ x, c.final = some x ∧ t = endCmd s r.ch c x) ∨ (c.final = none ∧ f c = .next t)) := by
  rcases withSome_next h with h | ⟨c, hc, h⟩
  · exact .inl h
  · refine .inr ⟨c, hc, ?_⟩
    split at h
    · cases h
    · next hop =>
      refine ⟨by simpa using hop, ?_⟩
      split at h
      · next x hx => cases h; exact .inl ⟨x, hx, rfl⟩
      · next hx => exact .inr ⟨hx, h⟩

/-- A write with an effect of its own: the credential fails, the write is refused, or it takes effect. -/
theorem settleWrite_next {cr : Cred} {k ty : Nat} {val : List Byte} {f : State → State} (h : settleWrite s cr k ty val f = .next t) :
    (credOk s cr = false ∧ t = s.addObj Obj.odAuthFails 1) ∨
    (credOk s cr = true ∧ (∃ e, checkWrite s cr k ty val false = .error e) ∧ t = refuseAccess s) ∨
    (credOk s cr = true ∧ (∃ x, checkWrite s cr k ty val false = .ok x) ∧ t = f s) := by
  unfold settleWrite at h
  split at h
  · next hc => cases h; exact .inl ⟨by simpa using hc, rfl⟩
  · next hc =>
    have hc : credOk s cr = true := by simpa using hc
    split at h
    · next e he => cases h; exact .inr (.inl ⟨hc, ⟨e, he⟩, rfl⟩)
    · next x hx => cases h; exact .inr (.inr ⟨hc, ⟨x, hx⟩, rfl⟩)

/-- A write never stops. -/
theorem settleWrite_total (s : State) (cr : Cred) (k ty : Nat) (val : List Byte) (f : State → State) :
    ∃ t, settleWrite s cr k ty val f = .next t := by
  unfold settleWrite
  split
  · exact ⟨_, rfl⟩
  · split <;> exact ⟨_, rfl⟩

/-- The write of a row: the credential fails, or the entry is written or refused. -/
theorem writeRow_next {cr : Cred} {k ty : Nat} {bs : List Byte} (h : writeRow cr k ty bs s = .next t) :
    (credOk s cr = false ∧ t = s.addObj Obj.odAuthFails 1) ∨
    (credOk s cr = true ∧ ∃ u, (writeEntry s cr false k ty bs false = (u, none) ∧ t = u) ∨
      ∃ e, writeEntry s cr false k ty bs false = (u, some e) ∧ t = refuseAccess u) := by
  unfold writeRow at h
  split at h
  · next hc => cases h; exact .inl ⟨by simpa using hc, rfl⟩
  · next hc =>
    refine .inr ⟨by simpa using hc, ?_⟩
    split at h
    · next hu => cases h; exact ⟨_, .inl ⟨hu, rfl⟩⟩
    · next hu => cases h; exact ⟨_, .inr ⟨_, hu, rfl⟩⟩

theorem writeRow_total (cr : Cred) (k ty : Nat) (bs : List Byte) (s : State) : ∃ t, writeRow cr k ty bs s = .next t := by
  unfold writeRow
  split
  · exact ⟨_, rfl⟩
  · split <;> exact ⟨_, rfl⟩

/-- A request for a slice operation: refused, or taken in for a slice by that slice or by the manager. -/
theorem requestOp_next {cr : Cred} {op : Nat} {o : SopReq} (h : requestOp cr op o s = .next t) :
    t = s.addObj Obj.odAuthFails 1 ∨ t = refuseAccess s ∨
    (∃ n, cr = .slice n ∧ t = submitOp s n { byManager := false, op := op, req := o }) ∨
    (cr = .manager ∧ o.slice < 64 ∧ t = submitOp s o.slice { byManager := true, op := op, req := o }) := by
  unfold requestOp at h
  split at h
  · cases h; exact .inl rfl
  · split at h
    · cases h; exact .inr (.inl rfl)
    · next n _ => cases h; exact .inr (.inr (.inl ⟨n, rfl, rfl⟩))
    · split at h
      · cases h
      · next hn => cases h; exact .inr (.inr (.inr ⟨rfl, by omega, rfl⟩))

/-- A request of an agent: the line belongs to no slice, or the home takes the request. -/
theorem dirRequest_next {a kind : Nat} {l : LineKey} {sectors : BitVec 8} (h : dirRequest a kind l sectors s = .next t) :
    a < 6 ∧ ((lineOwner s l = none ∧ t = s) ∨
      ∃ n, lineOwner s l = some n ∧ t = takeReq s n l { agent := a, kind := kind, sectors := sectors }) := by
  unfold dirRequest at h
  split at h
  · cases h
  · next ha =>
    refine ⟨by omega, ?_⟩
    rcases withSome_next h with h | ⟨n, hn, h⟩
    · exact .inl h
    · cases h; exact .inr ⟨n, hn, rfl⟩

/-- Whose turn it is: nobody stands ahead and the state is as it was, or a free value decides. -/
theorem myTurn_cases (s : State) (x : Here) : (ahead s x = [] ∧ myTurn s x = (s, true)) ∨ ∃ b, ahead s x ≠ [] ∧ myTurn s x = (s.useFree 1, b) := by
  unfold myTurn
  cases h : ahead s x with
  | nil => exact .inl ⟨rfl, rfl⟩
  | cons y l => exact .inr ⟨_, by simp, rfl⟩

/-- An instruction of a row: the group is blocked and nothing changes, or another group has the turn, or the group carries out what the fetch,
the decoder or the body asks for. -/
theorem runInstr_next {ops : List Nat} {r : GroupRef} {w : Word64} {body : State → Here → Act} (h : runInstr ops s r w body = .next t) :
    ops.contains (fOpcode w) = true ∧
    ((here? s r = none ∧ t = s) ∨
     ∃ x, here? s r = some x ∧
      ((mayIssue s x = false ∧ t = s) ∨
       (mayIssue s x = true ∧ (myTurn s x = (t, false) ∨
        ∃ u a, myTurn s x = (u, true) ∧ finish r x a = .next t ∧
        (fetchCheck u x = some a ∨
         (fetchCheck u x = none ∧ (decodeFault u x w = some a ∨ (decodeFault u x w = none ∧ a = body (settleLate u r x w).1 (settleLate u r x w).2)))))))) := by
  unfold runInstr at h
  split at h
  · cases h
  · next hop =>
    refine ⟨by simpa using hop, ?_⟩
    unfold atGroup at h
    split at h
    · next hx => cases h; exact .inl ⟨hx, rfl⟩
    · next x hx =>
      refine .inr ⟨x, hx, ?_⟩
      split at h
      · next hm => cases h; exact .inl ⟨by simpa using hm, rfl⟩
      · next hm =>
        refine .inr ⟨by simpa using hm, ?_⟩
        split at h
        · next ht => cases h; exact .inl ht
        · next u ht =>
          refine .inr ⟨u, _, ht, h, ?_⟩
          cases hf : fetchCheck u x with
          | some a => exact .inl rfl
          | none =>
            refine .inr ⟨rfl, ?_⟩
            cases hd : decodeFault u x w with
            | some a => exact .inl (by simp [hd])
            | none => exact .inr ⟨rfl, by simp [hd]⟩

/-- A group that may run the word carries out what the body asks for. -/
theorem runInstr_of_runs {ops : List Nat} {r : GroupRef} {w : Word64} {x : Here} {body : State → Here → Act} (h : Runs s r w x)
    (hop : fOpcode w ∈ ops) : runInstr ops s r w body = finish r x (body s x) := by
  obtain ⟨h1, h2, h3, h4, h5, h6⟩ := h
  simp [runInstr, atGroup, myTurn, settleLate, h1, h2, h3, h4, h5, h6, hop]

/-- Carrying out an act answers a next state, but for an address outside the memory invariant. -/
theorem finish_total (r : GroupRef) (x : Here) (a : Act) (h : a ≠ .absent) : ∃ t, finish r x a = .next t := by
  cases a <;> first | exact absurd rfl h | exact ⟨_, rfl⟩ | skip
  unfold finish
  simp only
  split <;> exact ⟨_, rfl⟩

/-- A frame that has arrived: refused, a repeat answered from the window, or performed. -/
theorem answerFrame_cases (s : State) (f : OdFrame) (k : State → Performed) :
    (wellFormed f = false ∧ answerFrame s f k = refuseFrame s f) ∨
    (wellFormed f = true ∧
      (answerFrame s f k = authFails s f ∨ (∃ x, x ∈ (window s (credOf f)).recent ∧ answerFrame s f k = sendOd s x.2.2) ∨
       ∃ v, (v = s ∨ v = setWindow s (acceptCounter (window s (credOf f)) f.counter)) ∧ answerFrame s f k = finishFrame f (k v))) := by
  unfold answerFrame
  simp only
  split
  · next hw => exact .inl ⟨by simpa using hw, rfl⟩
  · next hw =>
    refine .inr ⟨by simpa using hw, ?_⟩
    split
    · exact .inl rfl
    · split
      · exact .inr (.inr ⟨_, .inl rfl, rfl⟩)
      · split
        · exact .inl rfl
        · split
          · next x hx => exact .inr (.inl ⟨x, List.mem_of_find?_eq_some hx, rfl⟩)
          · split
            · exact .inl rfl
            · exact .inr (.inr ⟨_, .inr rfl, rfl⟩)

/-- A frame of the object dictionary: not performed, or answered, with any result where a reserved field is set. -/
theorem takeFrame_cases (f : OdFrame) (odd : Bool) (s : State) (k : State → Performed) :
    ((odArrives s f).2 = false ∧ takeFrame f odd s k = (odArrives s f).1) ∨
    ((odArrives s f).2 = true ∧
      takeFrame f odd s k = answerFrame (odArrives s f).1 f fun s => if odd || reservedHeader f then anyPerformed s (credOf f) (k s) else k s) := by
  unfold takeFrame
  split
  · next u hs => exact .inl ⟨by rw [hs], by rw [hs]⟩
  · next u hs => exact .inr ⟨by rw [hs], by rw [hs]⟩

/-- A control frame: no transport frame of this port, lost or dropped on the way, or its effect runs on the path to its sender. -/
theorem recvControl_next {q : Nat} {f : TFrame} {k : PathCtx → State → Res} (h : recvControl q f s k = .next t) :
    t = s ∨
    (q < 64 ∧ (s.port q).up = true ∧ forTransport s f = true ∧
      ∃ u, u = (linkCheck (noteFrame s q f) q f).1 ∧
      (t = u ∨ (goodFrame f = true ∧ ∃ p, pathTo u f.src = some p ∧ k { p with used := u.now } (u.setPath { p with used := u.now }) = .next t))) := by
  rcases onlyIf_next h with h | ⟨hp, h⟩
  · exact .inl h.2
  simp only [Bool.and_eq_true, decide_eq_true_eq] at hp
  refine .inr ⟨hp.1.1, hp.1.2, hp.2, _, rfl, ?_⟩
  simp only at h
  split at h
  · next heq => rw [heq]; cases h; exact .inl rfl
  · next heq =>
    rw [heq]
    split at h
    · cases h; exact .inl rfl
    · next hg =>
      split at h
      · cases h; exact .inl rfl
      · next p hp => exact .inr ⟨by simpa using hg, p, hp, h⟩

/-- A packet of a ready queue pair: dropped, answered without effect, or performed in order. -/
theorem recvRoce_next {ops : List Nat} {p : RocePacket} {k : Qp → State → Res} (h : recvRoce ops p s k = .next t) :
    p.qp < 1024 ∧ ops.contains p.opcode = true ∧
    (t = s ∨ ∃ u, u = drawCnp s p ∧
      ((∃ n, k { u.qp p.qp with rxPsn := n } u = .next t) ∨ (∃ n syn, t = roceAck u p.qp n syn))) := by
  unfold recvRoce at h
  split at h
  · cases h
  · next hq =>
    simp only [not_or, Nat.not_le, Bool.not_eq_true, Bool.not_eq_false'] at hq
    refine ⟨hq.1, by simpa using hq.2, ?_⟩
    split at h
    · cases h; exact .inl rfl
    split at h
    · cases h; exact .inl rfl
    · refine .inr ⟨_, rfl, ?_⟩
      simp only at h
      generalize drawCnp s p = u at h ⊢
      generalize (if (u.qp p.qp).rxPsn = 2 ^ 24 then p.psn % 2 ^ 24 else (u.qp p.qp).rxPsn) = n at h
      split at h
      · exact .inl ⟨_, h⟩
      · split at h <;> (cases h; exact .inr ⟨_, _, rfl⟩)

/-- A request of a chiplet port: the port is not admitted, or the request is violating, refused, without tokens, or performed by its effect. -/
theorem request_next {p : Nat} {m : CpMsg} {wf : Bool} {a : Ask} {f : Target → State → Except Halt State}
    (h : request p m wf a s f = .next t) :
    p < 2 ∧ ((s.getObj (Obj.cpState p) ≠ 2 ∧ t = s) ∨ (s.getObj (Obj.cpState p) = 2 ∧
    (t = s ∨ (∃ k, t = violateReq s p k m.addr) ∨ t = refuseReq s p m.addr ∨
      ∃ x u, screen s p m a = .ok x ∧ takeTokens s p (windowOf p m.addr) a.metered = some u ∧
        (f x s = .error (.wait t) ∨ (f x s = .error .open_ ∧ t = openReq (unpredictable s x.slice) p m.addr) ∨
          ∃ v, f x s = .ok v ∧ t = (takeTokens v p (windowOf p m.addr) a.metered).getD v)))) := by
  unfold request at h
  split at h
  · cases h
  · next hp =>
    refine ⟨by omega, ?_⟩
    rcases onlyIf_next h with h | ⟨hs, h⟩
    · exact .inl ⟨by simpa using h.1, h.2⟩
    refine .inr ⟨by simpa using hs, ?_⟩
    split at h
    · cases h; exact .inr (.inl ⟨_, rfl⟩)
    · split at h
      · cases h
      · cases h; exact .inr (.inl ⟨_, rfl⟩)
      · next x hx =>
        split at h
        · cases h; exact .inr (.inr (.inl rfl))
        · split at h
          · cases h; exact .inl rfl
          · next u hu =>
            split at h
            · cases h
            · cases h; exact .inr (.inl ⟨_, rfl⟩)
            · next hv => cases h; exact .inr (.inr (.inr ⟨x, u, hx, hu, .inr (.inl ⟨hv, rfl⟩)⟩))
            · next v hv => cases h; exact .inr (.inr (.inr ⟨x, u, hx, hu, .inl hv⟩))
            · next v hv => cases h; exact .inr (.inr (.inr ⟨x, u, hx, hu, .inr (.inr ⟨v, hv, rfl⟩)⟩))

end Sys2Proof.Machine
end

