-- ==== Sys2Proof/WellFormed.lean ====
section
/-! DEFINITION. WellFormed.lean: which commands are well formed: every number within the range that the manual gives it, every
field within its width, and the delivered word one of its row. The machine does not need it: a meaning that meets an operand
outside these ranges refuses it by name or takes the number as it is. -/

namespace Sys2Proof

/-! ### Operands -/

/-- Launch contexts are numbered modulo 2^24; a gang has at most 32 groups (R76, R77). -/
def GroupRef.wf (g : GroupRef) : Bool := decide (g.ctx < 2 ^ 24 ∧ g.gang < 2 ^ 32 ∧ g.group < 32)

/-- 256 work channels (R290); SEQ is a FETCH count of 32 bits (R301). -/
def CmdRef.wf (r : CmdRef) : Bool := decide (r.ch < 256 ∧ r.seq < 2 ^ 32)

/-- Slices are numbered 0 to 63 (R381). -/
def Cred.wf : Cred → Bool
  | .slice n => decide (n < 64)
  | .none => true
  | .manager => true

/-- A line lies in 48 bits of physical address, or in a slice's shared scratch. -/
def LineKey.wf : LineKey → Bool
  | .dev line => decide (line < 2 ^ 39)
  | .shr slice line => decide (slice < 64 ∧ line < 2 ^ 39)

/-- Whether a word carries an opcode of its row (bits [7:0], Table 4.2). -/
def ofRow (ops : List Nat) (w : Word64) : Bool := ops.contains (w.toNat % 256)

/-- Field widths of Table 11.7. -/
def DraftFrame.wf (f : DraftFrame) : Bool :=
  decide ((f.vlan.getD 0) < 4096 ∧ f.hops < 256 ∧ f.ether < 2 ^ 16 ∧ f.seq < 2 ^ 16 ∧ f.origin < 2 ^ 18 ∧ f.arg0 < 2 ^ 64 ∧ f.arg1 < 2 ^ 64 ∧ f.arg2 < 2 ^ 64 ∧ f.arg3 < 2 ^ 64)

/-- Field widths of Table 11.3; a payload of at most 8,192 bytes. -/
def TFrame.wf (f : TFrame) : Bool :=
  decide (f.psn < 2 ^ 32 ∧ f.ackPsn < 2 ^ 32 ∧ f.src < 2 ^ 18 ∧ f.path < 2 ^ 16 ∧ f.lseq < 2 ^ 16 ∧ f.aux < 2 ^ 32 ∧
    f.payload.length ≤ 8192 ∧ f.ver < 16 ∧ f.len < 2 ^ 16 ∧ f.ip.port < 2 ^ 16 ∧ f.ip.dscp < 64 ∧ f.ip.hops < 256 ∧ f.ip.flow < 2 ^ 20 ∧
    (f.ip.vlan.getD 0) < 4096)

/-- QP numbers 0 to 1,023 (R353), an opcode byte, a 24-bit sequence number. -/
def RocePacket.wf (p : RocePacket) : Bool := decide (p.qp < 1024 ∧ p.opcode < 256 ∧ p.psn < 2 ^ 24 ∧ p.len < 2 ^ 32)

/-- Field widths of Table 13.3. -/
def SopReq.wf (o : SopReq) : Bool :=
  decide (o.slice < 64 ∧ o.seq < 2 ^ 16 ∧ o.psize < 4 ∧ o.tier < 4 ∧ o.die < 8 ∧ o.count < 2 ^ 32 ∧ o.limitUs < 2 ^ 32)

/-- Field widths of Table 18.2. -/
def OdFrame.wf (f : OdFrame) : Bool :=
  decide (f.udp < 2 ^ 16 ∧ f.q < 64 ∧ f.ver < 256 ∧ f.op < 256 ∧ f.bodyLen < 2 ^ 16 ∧ f.reqId < 2 ^ 32 ∧ f.epoch < 2 ^ 64 ∧
    f.counter < 2 ^ 64 ∧ f.cred < 4 ∧ f.slice < 64 ∧ f.resBits < 2 ^ 7 ∧ f.status < 256 ∧ f.reason < 256 ∧ f.count < 2 ^ 32) &&
    f.tr.wf && f.tr.payload.isEmpty

/-- Stages 1 to 5 of the firmware (Table 17.1). -/
def FwImage.wf (i : FwImage) : Bool := decide (1 ≤ i.stage ∧ i.stage ≤ 5 ∧ i.secVersion < 2 ^ 32)

/-- Fields of Table 16.4: a length within a line, a code of an atomic operation. -/
def CpMsg.wf (m : CpMsg) : Bool := decide (m.len ≤ 512 ∧ m.op < 16 ∧ m.byteMask.length ≤ 512 ∧ m.data.length ≤ 512)

/-- At most four modules train (Table 16.3). -/
def CpNegotiation.wf (n : CpNegotiation) : Bool := decide (n.trained ≤ 4)

/-- Six agents, 624 core positions. -/
def InvTarget.wf : InvTarget → Bool
  | .agent a => decide (a < 6)
  | .core c => decide (c < 624)

def MissUnit.wf : MissUnit → Bool
  | .l1 c => decide (c < 624)
  | .llc die n => decide (die < 4 ∧ n < 16)

def ErrPlace.wf : ErrPlace → Bool
  | .stack st ch _ => decide (st < 12 ∧ ch < 32)
  | .ddr ch => decide (ch < 8)
  | .core c => decide (c < 624)
  | .port p => decide (p < 16)
  | .cxl p => decide (p < 8)
  | .chiplet p => decide (p < 2)
  | .llm => true

def ErrReader.wf : ErrReader → Bool
  | .launch ctx => decide (ctx < 2 ^ 24)
  | .command ch seq => decide (ch < 256 ∧ seq < 2 ^ 32)
  | .emberMove slice => decide (slice < 64)
  | .patrol => true
  | .bankReserve => true

/-- A route goes over one of the 64 logical ports (R318). -/
def RouteCand.wf (c : RouteCand) : Bool := decide (c.dst < 2 ^ 18 ∧ c.port < 64 ∧ c.hops < 2 ^ 16 ∧ c.nextHop < 2 ^ 18)

/-- Four dies and Proty; twelve stacks. -/
def DamperIn.wf (m : DamperIn) : Bool :=
  decide (m.dieTemps.length ≤ 5 ∧ m.stackTemps.length ≤ 12) && m.activity.all fun c => decide (c.domain < 88)

/-- A failing site is one of the 14 of a row. -/
def BootIn.wf (b : BootIn) : Bool :=
  b.badSites.all fun x => decide (x.1 < 4 ∧ x.2.1 < 12 ∧ x.2.2 < 14)

def CxlPort.wf (c : CxlPort) : Bool := decide (c.port < 8)

/-- Channels, CXL ports and logical ports that exist. -/
def TrainIn.wf (t : TrainIn) : Bool :=
  (t.badChannels.all fun x => decide (x.1 < 12 ∧ x.2 < 32)) && t.cxl.all CxlPort.wf && t.ports.all fun q => decide (q < 64)

/-! ### Commands -/

/-- Whether a command is well formed. -/
def wellFormed (i : Instr) : Bool :=
  match i with
  | .sclAdd g w => g.wf && ofRow [0x00, 0x10] w
  | .sclSub g w => g.wf && ofRow [0x01, 0x11] w
  | .sclMul g w => g.wf && ofRow [0x02, 0x12] w
  | .sclAnd g w => g.wf && ofRow [0x03, 0x13] w
  | .sclOr g w => g.wf && ofRow [0x04, 0x14] w
  | .sclXor g w => g.wf && ofRow [0x05, 0x15] w
  | .sclShl g w => g.wf && ofRow [0x06, 0x16] w
  | .sclShr g w => g.wf && ofRow [0x07, 0x17] w
  | .sclSra g w => g.wf && ofRow [0x08, 0x18] w
  | .sclMin g w => g.wf && ofRow [0x09, 0x19] w
  | .sclMax g w => g.wf && ofRow [0x0A, 0x1A] w
  | .sclMinu g w => g.wf && ofRow [0x0B, 0x1B] w
  | .sclMaxu g w => g.wf && ofRow [0x0C, 0x1C] w
  | .sclMov g w => g.wf && ofRow [0x0D] w
  | .sclCmp g w => g.wf && ofRow [0x0E] w
  | .sclMovi g w => g.wf && ofRow [0x1D] w
  | .sclMovhi g w => g.wf && ofRow [0x1E] w
  | .add g w => g.wf && ofRow [0x20, 0x40] w
  | .sub g w => g.wf && ofRow [0x21, 0x41] w
  | .mul g w => g.wf && ofRow [0x22, 0x42] w
  | .fma g w => g.wf && ofRow [0x23] w
  | .div g w => g.wf && ofRow [0x24] w
  | .sqrt g w => g.wf && ofRow [0x25] w
  | .min g w => g.wf && ofRow [0x26, 0x46] w
  | .max g w => g.wf && ofRow [0x27, 0x47] w
  | .abs g w => g.wf && ofRow [0x28] w
  | .neg g w => g.wf && ofRow [0x29] w
  | .cvt g w => g.wf && ofRow [0x2A] w
  | .vAnd g w => g.wf && ofRow [0x2B, 0x4B] w
  | .vOr g w => g.wf && ofRow [0x2C, 0x4C] w
  | .vXor g w => g.wf && ofRow [0x2D, 0x4D] w
  | .vNot g w => g.wf && ofRow [0x2E] w
  | .shl g w => g.wf && ofRow [0x2F, 0x4F] w
  | .shr g w => g.wf && ofRow [0x30, 0x50] w
  | .mulhi g w => g.wf && ofRow [0x31] w
  | .popc g w => g.wf && ofRow [0x32] w
  | .clz g w => g.wf && ofRow [0x33] w
  | .sel g w => g.wf && ofRow [0x34] w
  | .cmp g w => g.wf && ofRow [0x35] w
  | .red g w => g.wf && ofRow [0x36] w
  | .vMov g w => g.wf && ofRow [0x37, 0x57] w
  | .movSv g w => g.wf && ofRow [0x38] w
  | .movVs g w => g.wf && ofRow [0x39] w
  | .laneid g w => g.wf && ofRow [0x3A] w
  | .illegalInstruction g _ => g.wf
  | .ld g w => g.wf && ofRow [0x60] w
  | .st g w => g.wf && ofRow [0x61] w
  | .stCvtBf16 g w => g.wf && ofRow [0x62] w
  | .stCvtF16 g w => g.wf && ofRow [0x63] w
  | .stCvtE4m3 g w => g.wf && ofRow [0x64] w
  | .stCvtE5m2 g w => g.wf && ofRow [0x65] w
  | .atomAdd g w => g.wf && ofRow [0x70] w
  | .atomFadd g w => g.wf && ofRow [0x71] w
  | .atomMinS g w => g.wf && ofRow [0x72] w
  | .atomMaxS g w => g.wf && ofRow [0x73] w
  | .atomMinU g w => g.wf && ofRow [0x74] w
  | .atomMaxU g w => g.wf && ofRow [0x75] w
  | .atomAnd g w => g.wf && ofRow [0x76] w
  | .atomOr g w => g.wf && ofRow [0x77] w
  | .atomXor g w => g.wf && ofRow [0x78] w
  | .atomExch g w => g.wf && ofRow [0x79] w
  | .atomCas g w => g.wf && ofRow [0x7A] w
  | .lockAcq g w => g.wf && ofRow [0x7B] w
  | .lockRel g w => g.wf && ofRow [0x7C] w
  | .fence g w => g.wf && ofRow [0x80] w
  | .discard g w => g.wf && ofRow [0x81] w
  | .pinLlc g w => g.wf && ofRow [0x82] w
  | .unpinLlc g w => g.wf && ofRow [0x83] w
  | .pfDev g w => g.wf && ofRow [0x84] w
  | .idGet g w => g.wf && ofRow [0x85] w
  | .timeGet g w => g.wf && ofRow [0x86] w
  | .tickGet g w => g.wf && ofRow [0x87] w
  | .nop g w => g.wf && ofRow [0x90] w
  | .br g w => g.wf && ofRow [0x91] w
  | .brP g w => g.wf && ofRow [0x92] w
  | .call g w => g.wf && ofRow [0x93] w
  | .ret g w => g.wf && ofRow [0x94] w
  | .jmpS g w => g.wf && ofRow [0x95] w
  | .exitLanes g w => g.wf && ofRow [0x96] w
  | .pause g w => g.wf && ofRow [0x97] w
  | .pauseExpiry g => g.wf
  | .barGang g w => g.wf && ofRow [0x98] w
  | .shflIdx g w => g.wf && ofRow [0xA0] w
  | .shflUp g w => g.wf && ofRow [0xA1] w
  | .shflDown g w => g.wf && ofRow [0xA2] w
  | .shflXor g w => g.wf && ofRow [0xA3] w
  | .voteAny g w => g.wf && ofRow [0xA4] w
  | .voteAll g w => g.wf && ofRow [0xA5] w
  | .voteUni g w => g.wf && ofRow [0xA6] w
  | .voteBallot g w => g.wf && ofRow [0xA7] w
  | .pAnd g w => g.wf && ofRow [0xA8] w
  | .pOr g w => g.wf && ofRow [0xA9] w
  | .pXor g w => g.wf && ofRow [0xAA] w
  | .pNot g w => g.wf && ofRow [0xAB] w
  | .stkStart g w => g.wf && ofRow [0xB0] w
  | .stkTake g w => g.wf && ofRow [0xB1] w
  | .stkTakeAt g w => g.wf && ofRow [0xB2] w
  | .stkGive g w => g.wf && ofRow [0xB3] w
  | .stkStop g w => g.wf && ofRow [0xB4] w
  | .stkWait g w => g.wf && ofRow [0xB5] w
  | .stokerSlotFilled ctx gang stream => decide (ctx < 16777216 ∧ gang < 4294967296 ∧ stream < 16)
  | .stokerSlotStored ctx gang stream => decide (ctx < 16777216 ∧ gang < 4294967296 ∧ stream < 16)
  | .gmma g w => g.wf && ofRow [0xC0] w
  | .accZero g w => g.wf && ofRow [0xC1] w
  | .accLd g w => g.wf && ofRow [0xC2] w
  | .accSt g w => g.wf && ofRow [0xC3] w
  | .matrixQueueExecute core => decide (core < 624)
  | .faultReport ctx => decide (ctx < 16777216)
  | .launchKill ctx => decide (ctx < 16777216)
  | .watchdogNoRetire ctx => decide (ctx < 16777216)
  | .watchdogLimit ctx => decide (ctx < 16777216)
  | .coreHang core => decide (core < 624)
  | .rowSelfTest die row _ => decide (die < 4 ∧ row < 12)
  | .launchComplete ctx => decide (ctx < 16777216)
  | .launchCmd r => r.wf
  | .copyCmd r => r.wf
  | .fillCmd r => r.wf
  | .inlineWrite r => r.wf
  | .waitCmd r => r.wf
  | .waitReevaluate ch => decide (ch < 256)
  | .signalCmd r => r.wf
  | .fenceCmd r => r.wf
  | .bankCmd r => r.wf
  | .measuredLoad r => r.wf
  | .mixCmd r => r.wf
  | .reservedCommand r => r.wf
  | .donate r => r.wf
  | .reclaim r => r.wf
  | .alloc r => r.wf
  | .refEntry r => r.wf
  | .freeEntry r => r.wf
  | .queryEntry r => r.wf
  | .setEntry r => r.wf
  | .layoutCmd r => r.wf
  | .encode r => r.wf
  | .decode r => r.wf
  | .migrate r => r.wf
  | .contextBlockTransaction r => r.wf
  | .allReduce r => r.wf
  | .reduceCmd r => r.wf
  | .broadcastCmd r => r.wf
  | .reduceScatter r => r.wf
  | .allGather r => r.wf
  | .allToAll r => r.wf
  | .barrierCmd r => r.wf
  | .collectiveStepStart g => decide (g < 64)
  | .collectiveWaitExpiry g => decide (g < 64)
  | .commandFetch ch => decide (ch < 256)
  | .dispatch _ => true
  | .tickBoundary => true
  | .granuleBoundary => true
  | .saveComplete ctx => decide (ctx < 16777216)
  | .restoreComplete ctx => decide (ctx < 16777216)
  | .overrunStop r => r.wf
  | .voteClose k => decide (k < 8)
  | .hello q f => f.wf && decide (q < 64)
  | .elect q f => f.wf && decide (q < 64)
  | .assign q f => f.wf && decide (q < 64)
  | .align q f => f.wf && decide (q < 64)
  | .alignExchange => true
  | .vote q f => f.wf && decide (q < 64)
  | .outcome q f => f.wf && decide (q < 64)
  | .parityUpdateComplete k => decide (k < 8)
  | .barrierUp q f => f.wf && decide (q < 64)
  | .barrierDown q f => f.wf && decide (q < 64)
  | .periodFrame q f => f.wf && decide (q < 64)
  | .rollback q f => f.wf && decide (q < 64)
  | .lostFrame q f => f.wf && decide (q < 64)
  | .draftNak q f => f.wf && decide (q < 64)
  | .draftNakRetry q => decide (q < 64)
  | .neighbourLoss q => decide (q < 64)
  | .holdoverExpiry => true
  | .writeFrame q f => f.wf && decide (q < 64)
  | .readReq q f => f.wf && decide (q < 64)
  | .readResp q f => f.wf && decide (q < 64)
  | .ackFrame q f => f.wf && decide (q < 64)
  | .nakFrame q f => f.wf && decide (q < 64)
  | .signalFrame q f => f.wf && decide (q < 64)
  | .collFrame q f => f.wf && decide (q < 64)
  | .linkAck q f => f.wf && decide (q < 64)
  | .linkNak q f => f.wf && decide (q < 64)
  | .linkAckTimer q => decide (q < 64)
  | .frameForward q dst ty f => f.wf && decide (q < 64 ∧ dst < 262144 ∧ ty < 16)
  | .ackTimer path => decide (path < 16384)
  | .retransmitTimeout path => decide (path < 16384)
  | .transportTimeout path => decide (path < 16384)
  | .eceRecovery path => decide (path < 16384)
  | .pathContextFree path => decide (path < 16384)
  | .wcIdleSend core _ => decide (core < 624)
  | .roceSend p => p.wf
  | .rdmaWrite p => p.wf
  | .rdmaRead p => p.wf
  | .roceAcknowledge p => p.wf
  | .cnp qp => decide (qp < 1024)
  | .roceUnsupportedOpcode p => p.wf
  | .portDown q => decide (q < 64)
  | .routeRecompute routes => routes.all RouteCand.wf
  | .portUp q => decide (q < 64)
  | .joinedEntry => true
  | .rds a l _ => l.wf && decide (a < 6)
  | .rdm a l => l.wf && decide (a < 6)
  | .upg a l => l.wf && decide (a < 6)
  | .wbk a l _ => l.wf && decide (a < 6)
  | .dropLine a l => l.wf && decide (a < 6)
  | .forwardLine a l => l.wf && decide (a < 6)
  | .invalidation t l => t.wf && l.wf
  | .fillDataArrival m l => m.wf && l.wf
  | .writebackLands l => l.wf
  | .linkFreeze cr l v => cr.wf && decide (l < 8 ∧ v < 256)
  | .dieLinkRetrain l _ => decide (l < 8)
  | .chFreeze cr stack ch v => cr.wf && decide (stack < 12 ∧ ch < 32 ∧ v < 256)
  | .correctedError p => p.wf
  | .uncorrectableError line reader => reader.wf && decide (line < 281474976710656)
  | .patrolScrub line _ _ => decide (line < 281474976710656)
  | .cxlLinkFail x => decide (x < 8)
  | .tieringMoveComplete slice => decide (slice < 64)
  | .heatDecay slice => decide (slice < 64)
  | .beforeImageCopy slice page => decide (slice < 64 ∧ page < 2251799813685248)
  | .rollbackDetect k cls => decide (k < 8 ∧ 1 ≤ cls ∧ cls ≤ 4)
  | .restoreCompleteRollback k => decide (k < 8)
  | .rejoinWaitExpiry k => decide (k < 8)
  | .maintenancePoint => true
  | .createSlice cr o => cr.wf && o.wf
  | .destroySlice cr o => cr.wf && o.wf
  | .mapPages cr o => cr.wf && o.wf
  | .unmap cr o => cr.wf && o.wf
  | .protect cr o => cr.wf && o.wf
  | .quiesceSlice cr o => cr.wf && o.wf
  | .quiesceLimitExpiry slice => decide (slice < 64)
  | .quietReached slice => decide (slice < 64)
  | .resumeSlice cr o => cr.wf && o.wf
  | .resetSlice cr o => cr.wf && o.wf
  | .scrubEnd slice _ => decide (slice < 64)
  | .migLogHarvest cr slice => cr.wf && decide (slice < 64)
  | .migEnable cr slice v => cr.wf && decide (slice < 64 ∧ v < 256)
  | .attestNonce cr slice nonce => cr.wf && decide (slice < 64 ∧ nonce.length = 32)
  | .devAttestNonce cr nonce => cr.wf && decide (nonce.length = 32)
  | .spdmRequest cr _ => cr.wf
  | .arbAdvance cr c v => cr.wf && decide (c < 4 ∧ v < 4294967296)
  | .mgrKey cr _ key => cr.wf && decide (key.length = 97)
  | .doorbell cr ch v => cr.wf && decide (ch < 256 ∧ v < 4294967296)
  | .complHead cr ch v => cr.wf && decide (ch < 256 ∧ v < 4294967296)
  | .chEnable cr ch v => cr.wf && decide (ch < 256 ∧ v < 256)
  | .periodAt cr v => cr.wf && decide (v < 18446744073709551616)
  | .lsEnable cr k v => cr.wf && decide (k < 8 ∧ v < 256)
  | .wEnable cr win v => cr.wf && decide (win < 256 ∧ v < 256)
  | .qpSqTail cr qp v => cr.wf && decide (qp < 1024 ∧ v < 4294967296)
  | .qpRqHead cr qp v => cr.wf && decide (qp < 1024 ∧ v < 4294967296)
  | .alertCause cr v ended => cr.wf && decide (v < 65536 ∧ ended < 65536)
  | .restart cr v => cr.wf && decide (v < 256)
  | .fwRecovery img => img.wf
  | .objectWrite cr index sub ty _ => cr.wf && decide (index < 65536 ∧ sub < 256 ∧ ty < 256)
  | .odRead f => f.wf
  | .odWrite f => f.wf
  | .odBulkRead f => f.wf
  | .odBulkWrite f img => f.wf && img.wf
  | .odSubscribe f => f.wf
  | .odUnsubscribe f => f.wf
  | .odNotify sub => decide (sub < 256)
  | .odMalformedFrame f => f.wf
  | .snapshotExpiry cr key => cr.wf && decide (key < 16777216)
  | .bulkBufferExpiry cr => cr.wf
  | .storedCounterFlush => true
  | .cpEnable cr p v => cr.wf && decide (p < 2 ∧ v < 256)
  | .cpNegotiationComplete p n => n.wf && decide (p < 2)
  | .ssEnable cr p win v => cr.wf && decide (p < 2 ∧ win < 32 ∧ v < 256)
  | .cpRd p m => m.wf && decide (p < 2)
  | .cpRdo p m => m.wf && decide (p < 2)
  | .cpWr p m => m.wf && decide (p < 2)
  | .cpAtom p m => m.wf && decide (p < 2)
  | .cpWbk p m => m.wf && decide (p < 2)
  | .cpDrop p m => m.wf && decide (p < 2)
  | .cpAck p m => m.wf && decide (p < 2)
  | .cpAckData p m => m.wf && decide (p < 2)
  | .snoopTimeout p _ => decide (p < 2)
  | .damperWindow m => m.wf
  | .damperTrim _ => true
  | .energyUpdate _ _ _ => true
  | .pointChangeComplete => true
  | .thermalTrip => true
  | .droopOnset die row => decide (die < 4 ∧ row < 12)
  | .droopRecovery die row _ => decide (die < 4 ∧ row < 12)
  | .domain87Up _ => true
  | .inputBelow18v => true
  | .presentNClose => true
  | .presentNOpen => true
  | .inrushStart => true
  | .inrushComplete => true
  | .powerGood => true
  | .undervoltage => true
  | .overvoltage => true
  | .overvoltageRecovery => true
  | .inputOvercurrent => true
  | .overcurrentReclose => true
  | .aux12Short => true
  | .aux12Retry _ => true
  | .enableChange _ _ => true
  | .vsenseCheck _ _ => true
  | .leakDetect => true
  | .coolTachLow _ => true
  | .plateOverLimit _ => true
  | .mgmtLinkDown => true
  | .boot b => b.wf
  | .readyLocal t => t.wf
  | .dieLinkReturn l => decide (l < 8)
  | .mapOutComplete stack ch => decide (stack < 12 ∧ ch < 32)
  | .spareReplacementComplete die row => decide (die < 4 ∧ row < 12)
  | .tierZeroingComplete _ => true
  | .mgmtLinkUp => true
  | .ptpMessage _ => true
  | .neighbourDiscoveryMessage q _ _ => decide (q < 64)
  | .pfcFrame q _ => decide (q < 64)
  | .transportReservedType ty => decide (10 ≤ ty ∧ ty < 16)

end Sys2Proof
end

