-- ==== Sys2Proof/Tests/Slice0.lean ====
section
/-! SUPPORT. Slice0.lean: the model's own tests. For each statement with hypotheses a concrete state and operands that meet them;
single steps whose results are worked out by hand from the manual's rules; and for each check of WellFormed.lean a term that it
refuses. -/

namespace Sys2Proof.Tests

open Sys2Proof Sys2Proof.Machine

set_option maxRecDepth 200000
set_option exponentiation.threshold 1000

/-! ### Small states -/

/-- A translation entry that leads to a table or, as a leaf, to a page. -/
def pte (pa : Nat) (leaf w x banked : Bool) : Nat :=
  encodePte { valid := true, leaf := leaf, write := w, exec := x, world := 0, banked := banked, addr := pa }

/-- One table walk: virtual addresses below 1 GiB stand at the same physical addresses, readable, writable, executable. -/
def tables : List Host.Cell :=
  cellsPut (cellsPut [] 0x10000 (toLe 8 (pte 0x20000 false false false false))) 0x20000 (toLe 8 (pte 0 true true true false))

/-- The objects that an access of slice 0 reads. -/
def objs : List (Nat × Nat) :=
  [(Obj.stackTop 0, dieWindow), (Obj.rgnBase 0, 0), (Obj.rgnSize 0, dieWindow), (Obj.rgnWorld 0, 0), (Obj.sWorld 0, 0),
   (Obj.sState 0, 1), (Obj.detMask 0, 0), (Obj.moduleState, 5), (Obj.cacheWays 0 0, 1), (Obj.cacheWays 0 1, 0), (Obj.cacheWays 0 2, 0),
   (Obj.cacheWays 0 3, 0), (Obj.sliceScratchWays 0 0, 1), (Obj.sliceScratchWays 0 1, 0), (Obj.sliceScratchWays 0 2, 0), (Obj.sliceScratchWays 0 3, 0),
   (Obj.llmHits 0, 0), (Obj.llmMisses 0, 0), (Obj.migEnable 0, 0), (Obj.issued 0, 0), (Obj.sPid 0, 9), (Obj.deviceTime, 0), (Obj.tickNumber, 0),
   (Obj.pinBudget 0, 1), (Obj.pinned 0, 0)]

/-- The LLM holds the lines from 0x40000 to 0x43FFF. -/
def warm : List LlmLine := (List.range 32).map fun i => { die := 0, line := 0x200 + i, slice := 0, valid := 255 }

/-- A module with an active slice 0, and more objects. -/
def withObjs (os : List (Nat × Nat)) : State :=
  { State.reset with od := os ++ objs, inForce := [(Obj.moduleId, 3)], mem := { bytes := tables, llm := warm }, slices := [{ no := 0, transBase := 0x10000, dirty := [4, 5] }] }

/-- A launch of one gang. -/
def launchOf (g : Gang) : Launch :=
  { ctx := 0, slice := 0, ch := 0, seq := 0, entry := 0, faultRec := 0, rtick := 0, wdog := 0, gangs := 1, groups := 1, vregs := 64,
    spad := 16384, tiles := 1, trap := false, streams := 1, rows := [0], phase := .resident, nextGang := 1, live := [g] }

/-- A gang of one group. -/
def gangOf (t : Group) : Gang := { idx := 0, core := 0, groups := [t], tiles := [{ base := 0 }] }

/-- A state in which that group runs. -/
def run (t : Group) : State := { withObjs [] with launches := [launchOf (gangOf t)] }

/-- The group where it runs. -/
def here (t : Group) : Here :=
  { l := launchOf (gangOf t), g := gangOf t, t := t, p := t.cur.getD { pc := 0, mask := 0 } }

def g0 : GroupRef := { ctx := 0, gang := 0, group := 0 }

/-- A group with s0 = 5, s1 = -7, v0 = 6 and v1 = 0xFFFFFFFF in lane 0, v0 = 9 in lane 31, p0 of lanes 0 to 15. -/
def grp : Group :=
  { idx := 0, quad := 0, slot := 0, sregs := [(0, 5), (1, 0xFFFFFFFFFFFFFFF9)], preds := [(0, 0xFFFF), (3, 0)],
    vregs := [(0, 6), (31, 9), (32, 0xFFFFFFFF)], cur := some { pc := 0x100, mask := BitVec.allOnes 32 } }

/-- A word from its fields: position of the lowest bit, value. -/
def enc (fs : List (Nat × Nat)) : Word64 := BitVec.ofNat 64 ((fs.map fun p => p.2 * 2 ^ p.1).foldl (· + ·) 0)

/-- Opcode, D, A and B of the R format. -/
def encR (op d a b : Nat) : Word64 := enc [(0, op), (16, d), (24, a), (32, b)]

/-- The group after a command that goes on. -/
def left (r : Res) : Group :=
  match r with
  | .next s => (groupAt s g0).getD { grp with idx := 99 }
  | _ => { grp with idx := 99 }

/-- The state after a command that goes on. -/
def at_ (r : Res) : State :=
  match r with
  | .next s => s
  | _ => { State.reset with free := 99 }

/-- The cause of the fault that a command's launch reports first. -/
def cause (r : Res) : Nat :=
  match (at_ r).launches.head? with
  | some l => (l.reports.head?.map (·.cause)).getD 0
  | none => 0

/-! ### Scalar and vector instructions -/

/-- `Runs` holds of a scalar, a vector and a control word: the hypothesis of the statements about program instructions. -/
theorem test_runs_scalar : Runs (run grp) g0 (encR 0x00 2 0 1) (here grp) := ⟨rfl, rfl, rfl, rfl, rfl, rfl⟩
theorem test_runs_compare : Runs (run grp) g0 (enc [(0, 0x0E), (16, 1), (32, 1), (40, 0x12)]) (here grp) := ⟨rfl, rfl, rfl, rfl, rfl, rfl⟩
theorem test_runs_vector : Runs (run grp) g0 (enc [(0, 0x20), (16, 2), (32, 1), (48, 2)]) (here grp) ∧
    typeFmt (vecType (enc [(0, 0x20), (16, 2), (32, 1), (48, 2)])) = none :=
  ⟨⟨rfl, rfl, rfl, rfl, rfl, rfl⟩, rfl⟩
theorem test_runs_float : Runs (run grp) g0 (enc [(0, 0x20), (16, 2), (32, 1), (48, 3)]) (here grp) ∧
    typeFmt (vecType (enc [(0, 0x20), (16, 2), (32, 1), (48, 3)])) = some fmtF32 ∧ (here grp).l.trap = false := ⟨⟨rfl, rfl, rfl, rfl, rfl, rfl⟩, rfl, rfl⟩
theorem test_runs_lane : Runs (run grp) g0 (encR 0xA0 2 0 1) (here grp) := ⟨rfl, rfl, rfl, rfl, rfl, rfl⟩
theorem test_runs_identity : Runs (run grp) g0 (encR 0x86 3 0 0) (here grp) := ⟨rfl, rfl, rfl, rfl, rfl, rfl⟩

/-- 5 + (-7) = -2 and the path goes to pc + 8. -/
theorem test_s_add : (left (exec (.sclAdd g0 (encR 0x00 2 0 1)) (run grp))).sreg 2 = 0xFFFFFFFFFFFFFFFE ∧
    (left (exec (.sclAdd g0 (encR 0x00 2 0 1)) (run grp))).cur.map (·.pc) = some 0x108 := by decide
/-- IMM = -1 sign-extended (R122): 5 × -1. -/
theorem test_s_muli : (left (exec (.sclMul g0 (enc [(0, 0x12), (16, 0), (32, 0xFFFFFFFF)])) (run grp))).sreg 0 = 0xFFFFFFFFFFFFFFFB := by decide
/-- Shift by 64 + 1 uses the low six bits (R122): arithmetic right shift of -7 by 1 is -4. -/
theorem test_s_srai : (left (exec (.sclSra g0 (enc [(0, 0x18), (16, 2), (24, 1), (32, 65)])) (run grp))).sreg 2 = 0xFFFFFFFFFFFFFFFC := by decide
/-- MOVHI keeps the low half. -/
theorem test_s_movhi : (left (exec (.sclMovhi g0 (enc [(0, 0x1E), (32, 1)])) (run grp))).sreg 0 = 0x100000005 := by decide
/-- R123: 5 < -7 unsigned holds in all 32 lanes; signed it does not. -/
theorem test_s_cmp_unsigned : (left (exec (.sclCmp g0 (enc [(0, 0x0E), (16, 1), (32, 1), (40, 0x12)])) (run grp))).preg 1 = BitVec.allOnes 32 := by decide
theorem test_s_cmp_signed : (left (exec (.sclCmp g0 (enc [(0, 0x0E), (16, 1), (32, 1), (40, 0x02)])) (run grp))).preg 1 = 0 := by decide
/-- u32: 6 + 0xFFFFFFFF wraps to 5 in lane 0; guarded by p0, lane 31 keeps its old value (guard field 8 + 0). -/
theorem test_v_add_wraps : (left (exec (.add g0 (enc [(0, 0x20), (8, 8), (16, 2), (32, 1), (48, 1)])) (run grp))).vreg 2 0 = 5 ∧
    (left (exec (.add g0 (enc [(0, 0x20), (8, 8), (16, 0), (32, 1), (48, 1)])) (run grp))).vreg 0 31 = 9 := by decide
/-- s32 minimum of 6 and -1. -/
theorem test_v_min_signed : (left (exec (.min g0 (enc [(0, 0x26), (16, 2), (32, 1), (48, 2)])) (run grp))).vreg 2 0 = 0xFFFFFFFF := by decide
/-- f32: 1.0 + 1.0 = 2.0. -/
theorem test_v_add_f32 : (left (exec (.add g0 (enc [(0, 0x20), (16, 2), (48,
    3)])) (run { grp with vregs := [(0, 0x3F800000)] }))).vreg 2 0 = 0x40000000 := by decide
/-- shfl.up of 2 from lane 2 reads lane 0; lane 1 reads itself. -/
theorem test_shfl_up : (left (exec (.shflUp g0 (enc [(0, 0xA1), (16, 3), (32, 0), (53, 1)])) (run { grp with sregs := [(0, 2)] }))).vreg 3 2 = 6 := by decide
/-- vote.ballot zero-extends the mask. -/
theorem test_vote_ballot : (left (exec (.voteBallot g0 (encR 0xA7 4 0 0)) (run grp))).sreg 4 = 0xFFFF := by decide

/-- The hypotheses of the trap statement: a launch with the trap on, 0 × infinity in lane 0. -/
def trapped : Group := { grp with vregs := [(0, 0x7F800000), (32, 0)] }
def trapState : State := { withObjs [] with launches := [{ launchOf (gangOf trapped) with trap := true }] }
def trapHere : Here := { here trapped with l := { launchOf (gangOf trapped) with trap := true } }
def mulF32 : Word64 := enc [(0, 0x22), (16, 2), (32, 1), (48, 3)]
theorem test_trap_hypotheses : Runs trapState g0 mulF32 trapHere ∧ trapHere.l.trap = true ∧ fOpcode mulF32 ∈ [0x22, 0x42] ∧
    ((List.range 32).find? fun i => (acting trapHere mulF32).contains i && ((binElem mulF32 (· * ·) mulF trapHere.t i).2).any
      fun x => x.invalid || x.overflow) = some 0 := ⟨⟨rfl, rfl, rfl, rfl, rfl, rfl⟩, rfl, by decide, by decide⟩
theorem test_trap_cause : cause (exec (.mul g0 mulF32) trapState) = 0x4A := by decide

/-! ### Control flow -/

def brWord : Word64 := enc [(0, 0x92), (17, 4), (40, 2)]
theorem test_runs_branch : Runs (run grp) g0 brWord (here grp) := ⟨rfl, rfl, rfl, rfl, rfl, rfl⟩
/-- R138: br.p on p0 splits the path: lanes 16 to 31 stay, lanes 0 to 15 go to pc + 32. -/
theorem test_branch_splits :
    let t := left (exec (.brP g0 brWord) (run grp))
    t.cur.map (fun p => (p.pc, p.mask)) = some (0x108, 0xFFFF0000) ∧ t.queue.map (fun p => (p.pc, p.mask)) = [(0x120, 0xFFFF)] ∧
      t.joins.map (fun j => (j.rpc, j.expected, j.arrived)) = [(0x110, BitVec.allOnes 32, 0)] := by decide
/-- A predicate that holds in every lane of the path takes the whole path; one that holds in none goes on, or at a backward target yields
to a queued path. -/
def allTaken : Group := { grp with preds := [(0, BitVec.allOnes 32)] }
def noneTaken : Group := { grp with preds := [(0, 0)] }
def noneTakenQueue : Group := { noneTaken with queue := [{ pc := 0x300, mask := 0 }] }
def backWord : Word64 := enc [(0, 0x92), (17, 2 ^ 23 - 4), (40, 2)]
theorem test_branch_uniform : Runs (run allTaken) g0 brWord (here allTaken) ∧ (here allTaken).p.mask &&& allTaken.preg 0 = (here allTaken).p.mask ∧
    Runs (run noneTaken) g0 brWord (here noneTaken) ∧ (here noneTaken).p.mask &&& noneTaken.preg 0 = 0 ∧
    Runs (run noneTakenQueue) g0 backWord (here noneTakenQueue) ∧
    (here noneTakenQueue).p.pc + BitVec.ofInt 64 (8 * fTarget backWord) ≤ (here noneTakenQueue).p.pc :=
  ⟨⟨rfl, rfl, rfl, rfl, rfl, rfl⟩, by decide, ⟨rfl, rfl, rfl, rfl, rfl, rfl⟩, by decide, ⟨rfl, rfl, rfl, rfl, rfl, rfl⟩, by decide⟩
theorem test_call_links : (left (exec (.call g0 (enc [(0, 0x93), (17, 4), (40, 4)])) (run grp))).vregs' 4 31 2 = 0x108 := by decide
/-- The hypotheses of ret: every lane holds the same address in the link pair. -/
theorem test_ret_hypotheses : lanesOf (here grp).p.mask ≠ [] ∧ ∀ i ∈ lanesOf (here grp).p.mask, (here grp).t.vregs' 4 i 2 = 0 := by decide
theorem test_jmp_clears_low_bits : (left (exec (.jmpS g0 (enc [(0, 0x95), (40,
    0)])) (run { grp with sregs := [(0, 0x207)] }))).cur.map (·.pc) = some 0x200 := by decide
theorem test_runs_exit : Runs (run grp) g0 (enc [(0, 0x96)]) (here grp) ∧ Runs (run grp) g0 (enc [(0, 0x97)]) (here grp) ∧
    Runs (run grp) g0 (enc [(0, 0x98)]) (here grp) ∧ engineOwes (run grp) g0 0 = false := ⟨⟨rfl, rfl, rfl, rfl, rfl, rfl⟩, ⟨rfl, rfl, rfl, rfl, rfl, rfl⟩,
        ⟨rfl, rfl, rfl, rfl, rfl, rfl⟩, rfl⟩
/-- R87: a join whose other lanes have exited completes when they exit. -/
def joined : Group := { grp with cur := some { pc := 0x100, mask := 0xFFFF0000, join := some 0 }, joins := [{ id := 0, rpc := 0x200, expected := BitVec.allOnes 32, arrived := 0xFFFF }], nextJoin := 1 }
theorem test_exit_completes_join : (left (exec (.exitLanes g0 (enc [(0, 0x96)])) (run joined))).cur.map (fun p => (p.pc, p.mask)) = some (0x200,
    0xFFFF) := by decide
def pausedQueue : Group := { grp with cur := some { pc := 0x100, mask := 1 }, queue := [{ pc := 0x200, mask := 2, paused := true }] }
def pausedAlone : Group := { grp with cur := some { pc := 0x100, mask := 1, paused := true } }
theorem test_pause_ends_hypotheses : groupAt (run pausedQueue) g0 = some pausedQueue ∧ (unpauseFirst pausedQueue.queue).isSome = true ∧
    groupAt (run pausedAlone) g0 = some pausedAlone ∧ unpauseFirst pausedAlone.queue = none ∧
        pausedAlone.cur.map (·.paused) = some true := ⟨rfl, rfl, rfl, rfl, rfl⟩
theorem test_frame_hypotheses : Instr.sclAdd ∈ registerOnly ∧ Runs (run grp) g0 (encR 0x00 2 0 1) (here grp) ∧ (here grp).p.mask ≠ 0 ∧
    ∃ t, exec (.sclAdd g0 (encR 0x00 2 0 1)) (run grp) = .next t := ⟨List.mem_cons_self, test_runs_scalar, by decide, _, rfl⟩

/-! ### Loads, stores and atomics -/

/-- One lane at work; s4 holds an address of device memory, s5 one of the scratchpad, s6 one of another module. -/
def lane1 : Group :=
  { grp with sregs := [(4, 0x40000), (5, 16), (6, 0x1000000000000)], vregs := [(0, 0x3F800000), (32, 7)], cur := some { pc := 0x100, mask := 1 } }
/-- M format: opcode, D, SBASE, SPACE, SIZE. -/
def encM (op d sb space size : Nat) : Word64 := enc [(0, op), (16, d), (24, sb), (40, space), (46, size)]

/-- A load of each space, its address register and the check of every lane. -/
theorem test_load_hypotheses : ∀ x ∈ [(2, 4), (0, 5), (1, 5)],
    let w := encM 0x60 2 x.2 x.1 2
    Runs (run lane1) g0 w (here lane1) ∧ badScope w = false ∧ fMorder w ≠ 1 ∧ LanesPass (run lane1) (here lane1) x.1 4 false (laneAddrs (here lane1) w 0) ∧
      TilesClear (run lane1) g0 (here lane1) x.1 4 (laneAddrs (here lane1) w 0) := by
  intro x hx; fin_cases hx <;>
    (refine ⟨⟨rfl, rfl, rfl, rfl, rfl, rfl⟩, rfl, by decide, ?_, rfl⟩; intro p hp; rw [List.mem_singleton.mp hp]; decide)
theorem test_load_ready : ∃ s', loadReady (run lane1) (here lane1) 2 4 false [0x40000] = (s', true) ∧
    lateLoads s' (here lane1) 2 4 2 [(0, 0x40000)] = [{ space := 2, n := 4, reg := 2, lanes := [(0, 0x40000)] }] := ⟨_, rfl, rfl⟩
/-- A load of lane 0 that may still take a later value, before a scalar addition. -/
def lateOne : Group := { lane1 with late := [{ space := 2, n := 4, reg := 2, lanes := [(0, 0x40000)] }] }
theorem test_late_hypotheses : here? (run lateOne) g0 = some (here lateOne) ∧ mayIssue (run lateOne) (here lateOne) = true ∧
    ahead (run lateOne) (here lateOne) = [] ∧ fetchCheck (run lateOne) (here lateOne) = none ∧
    decodeFault (run lateOne) (here lateOne) (encR 0x00 2 0 1) = none ∧ lateOne.late.length = 1 ∧ fOpcode (encR 0x00 2 0 1) = 0x00 := ⟨rfl, rfl, rfl, rfl, rfl, rfl, rfl⟩
/-- A load from module 4 whose answer is there. -/
def replied : State := { run lane1 with net := { routes := [(4, 0x40)], reads := [{ who := .load g0, dst := 4, psn := 0, addr := 0x1000000000000, n := 4, data := some [1, 2, 0, 0] }] } }
theorem test_system_load_hypotheses : Runs replied g0 (encM 0x60 2 6 3 2) (here lane1) ∧
    LanesPass replied (here lane1) 3 4 false (laneAddrs (here lane1) (encM 0x60 2 6 3 2) 0) ∧
    (let x := sysLoads g0 (here lane1) 4 [0x1000000000000] replied
     x.waits = false ∧ x.faults = [] ∧ loadedAt x 0x1000000000000 = 0x201) := by
  refine ⟨⟨rfl, rfl, rfl, rfl, rfl, rfl⟩, ?_, rfl, rfl, by decide⟩; intro p hp; rw [List.mem_singleton.mp hp]; decide
theorem test_acquire_hypotheses : locate (run lane1) 0 2 0x40000 0 = .ok (devSect 0x40000) ∧ deadOf (run lane1) (devSect 0x40000) = none ∧
    storesOf (run lane1) 0 = [] := ⟨rfl, rfl, rfl⟩
theorem test_load_reads_bytes : (left (exec (.ld g0 (encM 0x60 2 4 2 2)) { run lane1 with mem := { (withObjs []).mem with bytes := cellsPut tables 0x40000 [1, 2, 3, 4] } })).vreg 2 0 = 0x04030201 := by decide
/-- R127: an address that is no multiple of the size raises cause 0x47. -/
theorem test_load_misaligned : cause (exec (.ld g0 (encM 0x60 4 5 0 4)) (run { lane1 with sregs := [(5, 8)] })) = 0x47 := by decide

theorem test_store_hypotheses : Runs (run lane1) g0 (encM 0x61 1 4 2 2) (here lane1) ∧ badScope (encM 0x61 1 4 2 2) = false ∧
    LanesPass (run lane1) (here lane1) 2 4 true (laneAddrs (here lane1) (encM 0x61 1 4 2 2) 0) ∧
    (∃ t, exec (.st g0 (encM 0x61 1 4 2 2)) (run lane1) = .next t) ∧
    Runs (run lane1) g0 (encM 0x61 1 5 0 2) (here lane1) ∧ LanesPass (run lane1) (here lane1) 0 4 true (laneAddrs (here lane1) (encM 0x61 1 5 0 2) 0) ∧
    gmmaQueued (run lane1) g0 0 = false ∧ engineOwes (run lane1) g0 0 = false ∧
    TilesClear (run lane1) g0 (here lane1) 2 4 (laneAddrs (here lane1) (encM 0x61 1 4 2 2) 0) ∧
    LocksClear (run lane1) (here lane1) 2 4 (laneAddrs (here lane1) (encM 0x61 1 4 2 2) 0) ∧
    Runs (run lane1) g0 (enc [(0, 0x63), (16, 0), (24, 4), (40, 2), (46, 1)]) (here lane1) ∧ (here lane1).l.trap = false := by
  refine ⟨⟨rfl, rfl, rfl, rfl, rfl, rfl⟩, rfl, ?_, ⟨_, rfl⟩, ⟨rfl, rfl, rfl, rfl, rfl, rfl⟩, ?_, rfl, rfl, rfl, rfl, ⟨rfl, rfl, rfl, rfl, rfl, rfl⟩, rfl⟩ <;>
    (intro p hp; rw [List.mem_singleton.mp hp]; decide)
/-- A store at release to system space of module 4, with nothing in the buffer: it enters it. -/
def sysRel : Word64 := enc [(0, 0x61), (16, 1), (24, 6), (40, 3), (42, 3), (44, 2), (46, 2)]
theorem test_system_store_hypotheses : Runs replied g0 sysRel (here lane1) ∧ badScope sysRel = false ∧
    ∃ s' s'', sysRelease replied (here lane1) = (s', true) ∧
    sysStores g0 0 0 [(0x1000000000000, [7, 0, 0, 0])] s' = (s'', true) ∧ (s''.core 0).wc.length = 1 := ⟨⟨rfl, rfl, rfl, rfl, rfl, rfl⟩, rfl, _, _, rfl, rfl, rfl⟩
/-- The store of lane 0 on its way from its core, and performed at its home. -/
def storing : State := { run lane1 with stores := storeEnts (run lane1) (here lane1) 2 false [(0x40000, [7, 0, 0, 0])] }
theorem test_store_lands : (landAll storing 0).2 = true ∧ (landAll storing 0).1.stores = [] ∧
    cellsGet (landAll storing 0).1.mem.bytes 0x40000 5 = [7, 0, 0, 0, 0] := by decide
/-- R162, R167: a store on its way is seen by its own core and by no other. -/
theorem test_store_forwards : (cachedLoad storing (here lane1) 2 4 0 false [(0, 0x40000)]).2 0x40000 = 7 ∧
    (cachedLoad { storing with stores := storing.stores.map fun e => { e with core := 1 } } (here lane1) 2 4 0 false [(0,
        0x40000)]).2 0x40000 = 0 := by decide
/-- 1.0 in f16 is 0x3C00 (R131). -/
theorem test_store_converts : toLe 2 (convF fmtF16 0 0 (decodeF fmtF32 0x3F800000)).bits = [0, 0x3C] := by decide

/-- A format: opcode, D, SBASE, B, C, SPACE, SIZE, PD. -/
def encA (op d sb b c size pd : Nat) : Word64 := enc [(0, op), (13, pd), (16, d), (24, sb), (40, b), (48, c), (56, 2), (60, 2), (62, size)]
def hold (v : Nat) : State := { run lane1 with mem := { (withObjs []).mem with bytes := cellsPut tables 0x40000 (toLe 8 v) } }
theorem test_atomic_hypotheses : Runs (run lane1) g0 (encA 0x70 2 4 1 0 0 0) (here lane1) ∧ badScope (encA 0x70 2 4 1 0 0 0) = false ∧
    AtomsPass (run lane1) (here lane1) 2 4 (laneAddrs (here lane1) (encA 0x70 2 4 1 0 0 0) 0) ∧
    (locate (run lane1) 0 2 0x40000 1 = .ok (devSect 0x40000) ∧ deadOf (run lane1) (devSect 0x40000) = none) ∧
    Runs (run lane1) g0 (encA 0x71 2 4 1 0 0 0) (here lane1) ∧
    LocksClear (run lane1) (here lane1) 2 4 (laneAddrs (here lane1) (encA 0x70 2 4 1 0 0 0) 0) ∧
    (∃ s', atomReady (run lane1) (here lane1) (encA 0x70 2 4 1 0 0 0) 2 [0x40000] = (s', true)) ∧ nearAtom (encA 0x70 2 4 1 0 0 0) = false := by
  refine ⟨⟨rfl, rfl, rfl, rfl, rfl, rfl⟩, rfl, ?_, ⟨rfl, rfl⟩, ⟨rfl, rfl, rfl, rfl, rfl, rfl⟩, rfl, ⟨_, rfl⟩, rfl⟩; intro p hp; rw [List.mem_singleton.mp hp]; decide
/-- With no lane that acts (its guard false in every lane) an atomic does nothing. -/
theorem test_atomic_idle_hypotheses : Runs (run { lane1 with preds := [(0, 0)] }) g0 (enc [(0, 0x70), (8, 8), (16, 2), (24, 4), (40, 1), (56, 2), (60, 2)])
    (here { lane1 with preds := [(0, 0)] }) ∧ acting (here { lane1 with preds := [(0, 0)] }) (enc [(0, 0x70), (8, 8), (16, 2), (24, 4), (40, 1),
        (56, 2), (60, 2)]) = [] :=
  ⟨⟨rfl, rfl, rfl, rfl, rfl, rfl⟩, by decide⟩
/-- 0xFFFFFFFF + 7 wraps to 6 and the lane gets the old value. -/
theorem test_atomic_add : cellsGet (at_ (exec (.atomAdd g0 (encA 0x70 2 4 1 0 0 0)) (hold 0xFFFFFFFF))).mem.bytes 0x40000 5 = [6, 0, 0, 0, 0] ∧
    (left (exec (.atomAdd g0 (encA 0x70 2 4 1 0 0 0)) (hold 0xFFFFFFFF))).vreg 2 0 = 0xFFFFFFFF := by decide
/-- A compare that fails stores nothing and sets PD in its lane. -/
theorem test_cas_fails : cellsGet (at_ (exec (.atomCas g0 (encA 0x7A 2 4 1 0 0 3)) (hold 8))).mem.bytes 0x40000 1 = [8] ∧
    ((left (exec (.atomCas g0 (encA 0x7A 2 4 1 0 0 3)) (hold 8))).preg 3).getLsbD 0 = true := by decide
/-- Determinism mask bit [0] (R133). -/
def noFadd : State := { withObjs [(Obj.detMask 0, 1)] with launches := [launchOf (gangOf lane1)] }
theorem test_fadd_forbidden_hypotheses : Runs noFadd g0 (encA 0x71 2 4 1 0 0 0) (here lane1) ∧ fOpcode (encA 0x71 2 4 1 0 0 0) = 0x71 ∧
    badScope (encA 0x71 2 4 1 0 0 0) = false ∧ (noFadd.getObj (Obj.detMask 0)).testBit 0 = true ∧
        acting (here lane1) (encA 0x71 2 4 1 0 0 0) = [0] := ⟨⟨rfl, rfl, rfl, rfl, rfl, rfl⟩, rfl, rfl, rfl, by decide⟩
/-- An atomic on the scratchpad, and one whose 8-byte operand stands at an address that is no multiple of 8 (R133). -/
def astray : Group := { lane1 with sregs := [(4, 0x40004)] }
theorem test_atomic_fault_hypotheses : Runs (run lane1) g0 (enc [(0, 0x70), (16, 2), (24, 4), (40, 1), (56, 2)]) (here lane1) ∧
    fAspace (enc [(0, 0x70), (16, 2), (24, 4), (40, 1), (56, 2)]) = 0 ∧ acting (here lane1) (enc [(0, 0x70), (16, 2), (24, 4), (40, 1), (56, 2)]) = [0] ∧
    Runs (run astray) g0 (encA 0x70 2 4 6 0 1 0) (here astray) ∧ TilesClear (run astray) g0 (here astray) 2 8 (laneAddrs (here astray) (encA 0x70 2 4 6 0 1 0) 0) ∧
    laneAddrs (here astray) (encA 0x70 2 4 6 0 1 0) 0 = [(0, 0x40004)] :=
  ⟨⟨rfl, rfl, rfl, rfl, rfl, rfl⟩, rfl, by decide, ⟨rfl, rfl, rfl, rfl, rfl, rfl⟩, rfl, by decide⟩

/-- A free lock word, one held by this launch, and one held by another. -/
def acqWord : Word64 := enc [(0, 0x7B), (16, 2), (24, 4), (60, 2), (62, 1)]
def relWord : Word64 := enc [(0, 0x7C), (13, 5), (24, 4), (60, 2), (62, 1)]
def held : State := { hold (lockWord true false 9 0) with launches := [{ launchOf (gangOf lane1) with locks := [{ space := 2, addr := 0x40000 }] }] }
theorem test_lock_hypotheses : Runs (hold 0) g0 acqWord (here lane1) ∧ badScope acqWord = false ∧
    AtomsPass (hold 0) (here lane1) 2 8 (laneAddrs (here lane1) acqWord 0) ∧ (hold 0).getObj (Obj.sPid 0) = 9 ∧
    (∃ s' rs, acqLanes (here lane1) 2 9 [(0, 0x40000)] (hold 0) = (s', rs, none) ∧ rs = [(0, 1)]) ∧
    (∃ s' rs, acqLanes (here lane1) 2 9 [(0, 0x40000)] (hold (lockWord true false 8 0)) = (s', rs, none) ∧ rs = [(0, 0)]) ∧
    leNat (cellsGet held.mem.bytes 0x40000 8) = lockWord true false 9 0 ∧
    (∃ s', homesReady (hold 0) (here lane1) 2 [0x40000] = (s', true)) ∧ engineOwes held g0 0 = false ∧
    (∃ s0 s', landAll held 0 = (s0, true) ∧ relLanes (here lane1) 2 9 [(0, 0x40000)] s0 = (s', [(0, true)], false)) := by
  refine ⟨⟨rfl, rfl, rfl, rfl, rfl, rfl⟩, rfl, ?_, rfl, ⟨_, _, rfl, rfl⟩, ⟨_, _, rfl, rfl⟩, rfl, ⟨_, rfl⟩, rfl, ⟨_, _, rfl,
      rfl⟩⟩; intro p hp; rw [List.mem_singleton.mp hp]; decide
theorem test_lock_taken : cellsGet (at_ (exec (.lockAcq g0 acqWord) (hold 0))).mem.bytes 0x40000 8 = toLe 8 (lockWord true false 9 0) := by decide

/-- A fence at system scope, DISCARD, PIN_LLC, UNPIN_LLC and PF_DEV of the line at s4, 512 bytes long (s7). -/
def hinted : Group := { lane1 with sregs := [(4, 0x40000), (7, 512)] }
def encS (op : Nat) : Word64 := enc [(0, op), (22, 4), (28, 7)]
theorem test_hint_hypotheses : Runs (run hinted) g0 (enc [(0, 0x80), (34, 3), (36, 3)]) (here hinted) ∧
    fSscope (enc [(0, 0x80), (34, 3), (36, 3)]) = 3 ∧ (fSorder (enc [(0, 0x80), (34, 3), (36, 3)])).testBit 1 = true ∧
    (∃ s', sysRelease (run hinted) (here hinted) = (s', true) ∧ s'.mem.bytes = (run hinted).mem.bytes) ∧
    Runs (run hinted) g0 (encS 0x81) (here hinted) ∧ linesInside 0x40000 512 = [0x40000] ∧
    (discardOk (run hinted) 0 0x40000 (askOf (here hinted))).toBool = true ∧ heldLock (run hinted) 0 2 512 [0x40000] = false ∧
    linesTouching 0x40000 512 = [0x40000] ∧ rangeLines (run hinted) 0 [0x40000] = some [0x200] ∧ pinOk (run hinted) 0 [0x200] = false ∧
    pinOk { withObjs [(Obj.pinBudget 0, 4), (Obj.cacheWays 0 0, 3)] with launches := [launchOf (gangOf hinted)] } 0 [0x200] = true :=
  ⟨⟨rfl, rfl, rfl, rfl, rfl, rfl⟩, rfl, by decide, ⟨_, rfl, rfl⟩, ⟨rfl, rfl, rfl, rfl, rfl, rfl⟩, rfl, rfl, rfl, rfl, rfl, rfl, rfl⟩

/-! ### Stoker and matrix -/

/-- A fill descriptor: one row of 64 bytes of device memory at 0x40000, ring of one slot of 64 bytes at 0x100. -/
def desc0 : Desc :=
  { kind := 0, space := 0, srcFmt := 0, dstFmt := 0, ringBase := 0x100, slotBytes := 64, slots := 1, runAhead := 1, base := 0x40000, rowBytes := 64,
    rows := 1, rowStride := 0, planes := 1, totalSlots := 0, planeStride := 0 }
def streamed (t : Stream) : State :=
  { withObjs [(Obj.stokerBytes 0, 0)] with launches := [launchOf { gangOf lane1 with streams := [t] }] }
def streamHere (t : Stream) : Here := { here lane1 with l := launchOf { gangOf lane1 with streams := [t] }, g := { gangOf lane1 with streams := [t] } }
def full0 : Stream := { no := 0, desc := desc0, full := 1, work := 1, avail := [0], pos := 64 }
def held0 : Stream := { no := 0, desc := desc0, work := 1, held := [0], pos := 64 }
def drain0 : Stream := { no := 0, desc := { desc0 with kind := 1 }, full := 1, given := [0] }
def taken0 : Stream := { no := 0, desc := { desc0 with kind := 1, slots := 2 }, empty := 1, held := [0], avail := [1] }
def open0 : Stream := { no := 0, desc := { desc0 with kind := 1 }, empty := 1, avail := [0] }
def fresh0 : Stream := { no := 0, desc := desc0, empty := 1 }
/-- Opcode, sD or sA at [21:16] and [27:22], stream 0. -/
def encK (op : Nat) : Word64 := enc [(0, op), (16, 2), (22, 5)]
theorem test_stoker_hypotheses : Runs (streamed full0) g0 (encK 0xB1) (streamHere full0) ∧ fStream (encK 0xB1) < (streamHere full0).l.streams ∧
    streamOf (streamed full0) g0 (encK 0xB1) = some full0 ∧ full0.desc.bad = false ∧ takeable full0 = [0] ∧
    ((takeable full0).find? fun j => j % 2 ^ 32 == ((streamHere full0).t.sreg 7).toNat % 2 ^ 32) = some 0 ∧
    streamOf (run lane1) g0 (encK 0xB1) = none ∧ Runs (run lane1) g0 (encK 0xB0) (here lane1) ∧ ((here lane1).t.sreg 5).toNat + 64 ≤ (here lane1).l.spad :=
  ⟨⟨rfl, rfl, rfl, rfl, rfl, rfl⟩, by decide, rfl, rfl, by decide, by decide, rfl, ⟨rfl, rfl, rfl, rfl, rfl, rfl⟩, by decide⟩
theorem test_stoker_give_hypotheses : streamOf (streamed held0) g0 (encK 0xB3) = some held0 ∧ Runs (streamed held0) g0 (encK 0xB3) (streamHere held0) ∧
    (held0.held.find? fun j => j % held0.desc.slots == ((streamHere held0).t.sreg 7).toNat % 64) = some 0 ∧ gmmaQueued (streamed held0) g0 0 = false ∧
    takeable held0 = [] ∧ streamEnded (streamed held0) 0 0 held0 = true := ⟨rfl, ⟨rfl, rfl, rfl, rfl, rfl, rfl⟩, by decide, rfl, by decide, by decide⟩
/-- A drain stream: a take of a slot, and a give of one with another slot empty. -/
theorem test_stoker_drain_hypotheses : streamOf (streamed open0) g0 (encK 0xB1) = some open0 ∧ takeable open0 = [0] ∧
    streamEnded (streamed open0) 0 0 open0 = false ∧ streamOf (streamed taken0) g0 (encK 0xB3) = some taken0 ∧
    Runs (streamed taken0) g0 (encK 0xB3) (streamHere taken0) ∧ taken0.empty ≠ 0 ∧ engineOwes (streamed taken0) g0 0 = false ∧
    (taken0.held.find? fun j => j % taken0.desc.slots == ((streamHere taken0).t.sreg 7).toNat % 64) = some 0 :=
  ⟨rfl, by decide, by decide, rfl, ⟨rfl, rfl, rfl, rfl, rfl, rfl⟩, by decide, rfl, by decide⟩
/-- The take of the only slot gives sD = 0 with the predicate set; the gang holds slot 0. -/
theorem test_take : (left (exec (.stkTake g0 (encK 0xB1)) (streamed full0))).sreg 2 = 0 ∧
    (left (exec (.stkTake g0 (encK 0xB1)) (streamed full0))).preg 0 = BitVec.allOnes 32 := by decide

theorem test_slot_events_hypotheses : (streamed fresh0).launch? 0 = some (streamHere fresh0).l ∧ findStream (streamHere fresh0).g 0 = some fresh0 ∧
    ringFault { l := (streamHere fresh0).l, g := (streamHere fresh0).g, t := fresh0 } 0 = none ∧ mayFill fresh0 = true ∧
    (streamHere fresh0).l.phase = .resident ∧ ((streamed fresh0).core 0).hung = false ∧
    (∃ s' bs, readPieces { l := (streamHere fresh0).l, g := (streamHere fresh0).g, t := fresh0 } (pieces desc0 0 64) (streamed fresh0) = .done s' bs) ∧
    (∃ s' r, fillData { l := (streamHere fresh0).l, g := (streamHere fresh0).g, t := fresh0 } (streamed fresh0) = .done s' r) := ⟨rfl, rfl, rfl,
        by decide, rfl, rfl, ⟨_, _, rfl⟩, ⟨_, _, rfl⟩⟩
theorem test_drain_hypotheses : ringFault { l := (streamHere drain0).l, g := (streamHere drain0).g, t := drain0 } 0 = none ∧ inLimit drain0 0 = true ∧
    landAll (streamed drain0) 0 = (streamed drain0, true) ∧
    (∃ s', writablePieces { l := (streamHere drain0).l, g := (streamHere drain0).g, t := drain0 } (pieces drain0.desc 0 64) (streamed drain0) = .done s' () ∧
      ∃ s'', writePieces { l := (streamHere drain0).l, g := (streamHere drain0).g, t := drain0 } (List.replicate 64 0) (pieces drain0.desc 0 64) s' = (s'', 1)) :=
  ⟨rfl, by decide, rfl, _, rfl, _, rfl⟩
/-- The slot of 64 bytes at 0x40000 comes to 0x100 of the scratchpad. -/
theorem test_slot_filled : (at_ (exec (.stokerSlotFilled 0 0 0) { streamed fresh0 with mem := { (streamed fresh0).mem with bytes := cellsPut tables 0x40000 [1, 2] } })).launches.flatMap
    (fun l => l.live.flatMap fun g => cellsGet g.spad 0xFF 4) = [0, 1, 2, 0] := by decide

def accZero : Word64 := enc [(0, 0xC1)]
theorem test_matrix_hypotheses : Runs (run grp) g0 accZero (here grp) ∧ (here grp).p.mask = BitVec.allOnes 32 ∧ ((run grp).core 0).mq.length < 4 ∧
    Runs (run lane1) g0 accZero (here lane1) ∧ (here lane1).p.mask ≠ BitVec.allOnes 32 := ⟨⟨rfl, rfl, rfl, rfl, rfl, rfl⟩, rfl, by decide, ⟨rfl, rfl,
        rfl, rfl, rfl, rfl⟩, by decide⟩
theorem test_matrix_mask_fault : cause (exec (.gmma g0 (enc [(0, 0xC0), (29, 1)])) (run lane1)) = 0x48 := by decide
/-- A gmma of one k-block of binary32 tiles at the scratchpad's start. -/
def gmmaEnt : MatEnt := { g := g0, word := enc [(0, 0xC0), (29, 1)], aLo := 0, aHi := 0x70000, bLo := 0, bHi := 0x70000 }
def queued (e : MatEnt) : State := { withObjs [] with launches := [launchOf (gangOf grp)], cores := [{ no := 0, mq := [e] }] }
theorem test_engine_hypotheses : ((queued gmmaEnt).core 0).hung = false ∧ ((queued gmmaEnt).core 0).mq = gmmaEnt :: [] ∧
    (queued gmmaEnt).launch? 0 = some (here grp).l ∧ onCores (here grp).l = true ∧ findGang (here grp).l 0 = some (here grp).g ∧
    tileBad (tileDesc 0 0x70000) = false ∧ (tileDesc 0 0x70000).space = 0 ∧ pairOk 7 7 = true ∧ (tileDesc 0 0x70000).fmt = 7 ∧
    spadFault { l := (here grp).l, g := (here grp).g, e := gmmaEnt } (operandRuns (tileDesc 0 0x70000) 1) = none :=
  ⟨rfl, rfl, rfl, rfl, rfl, by decide, by decide, by decide, by decide, by decide⟩
theorem test_acc_ld_hypotheses : ∃ t, doAccLd { l := (here grp).l, g := (here grp).g, e := { gmmaEnt with word := enc [(0, 0xC2)] } } (queued gmmaEnt) = .done t := ⟨_, rfl⟩
theorem test_acc_st_hypotheses : ∃ t, doAccSt { l := (here grp).l, g := (here grp).g, e := { gmmaEnt with word := enc [(0, 0xC3)] } } (queued gmmaEnt) = .done t := ⟨_, rfl⟩

/-! ### Faults and the end of launches -/

theorem test_illegal_hypotheses : here? (run grp) g0 = some (here grp) ∧ mayIssue (run grp) (here grp) = true ∧ ahead (run grp) (here grp) = [] ∧
    fetchCheck (run grp) (here grp) = none ∧ allocated (fOpcode (enc [(0, 0xFF)])) = false ∧
    (let w := enc [(0, 0x24), (16, 2), (32, 1), (48, 1)]
     allocated (fOpcode w) = true ∧ badGuard w = false ∧ badCode w = true ∧ actMask (here grp).t (here grp).p w ≠ 0) ∧
         illegalWord (enc [(0, 0x20), (16, 64), (48, 1)]) = false ∧
    beyond (here grp).l.vregs (here grp).l.tiles (enc [(0, 0x20), (16, 64), (48, 1)]) = true ∧
    actMask (here grp).t (here grp).p (enc [(0, 0x20), (16, 64), (48, 1)]) ≠ 0 :=
  ⟨rfl, rfl, rfl, rfl, by decide, by decide, by decide, by decide, by decide⟩
theorem test_beyond_cause : cause (exec (.illegalInstruction g0 (enc [(0, 0x20), (16, 64), (48, 1)])) (run grp)) = 0x46 ∧
    cause (exec (.illegalInstruction g0 (enc [(0, 0xFF)])) (run grp)) = 0x44 := by decide

/-- A resident launch a whole period of 2 ms without a retirement, its tick limit of one reached. -/
def slow : Launch := { launchOf (gangOf grp) with wdog := 1, resTicks := 1 }
def slowState : State := { withObjs [(Obj.deviceTime, 2000000), (Obj.tickPeriod, 1000)] with launches := [slow] }
theorem test_watchdog_hypotheses : slowState.launch? 0 = some slow ∧ slow.killed = false ∧ slow.ctx = 0 ∧ slow.frozenAt = none ∧ slow.waited = 0 ∧
    periodNs slowState ≤ idleTime slowState slow ∧ onCores slow = true ∧ slow.wdog ≠ 0 ∧
        slow.wdog ≤ slow.resTicks := ⟨rfl, rfl, rfl, rfl, rfl, by decide, rfl, by decide, by decide⟩
theorem test_watchdog_causes : cause (exec (.watchdogNoRetire 0) slowState) = 0x4D ∧ cause (exec (.watchdogLimit 0) slowState) = 0x4E := by decide
def failing : Launch := { launchOf (gangOf grp) with reports := [{ cause := 0x44 }] }
theorem test_report_hypotheses : ({ withObjs [] with launches := [failing] } : State).launch? 0 = some failing ∧ failing.reports ≠ [] ∧ failing.fault = none ∧
    ({ failing with fault := some { cause := 0x45 } } : Launch).fault = some { cause := 0x45 } := ⟨rfl, by decide, rfl, rfl⟩
theorem test_second_report_counts : (at_ (exec (.faultReport 0) { withObjs [] with launches := [{ failing with fault := some { cause := 0x45 }, killed := true }] })).launches.map
    (fun l => (l.faultCount, l.fault.map (·.cause))) = [(1, some 0x45)] := by decide
/-- A killed launch whose fault record (64 bytes at 0x40000) can be written, and one whose gangs have ended. -/
def killedL : Launch := { launchOf (gangOf grp) with killed := true, fault := some { cause := 0x44 }, faultRec := 0x40000 }
def endedL : Launch := { launchOf (gangOf grp) with live := [] }
theorem test_launch_ends_hypotheses :
    let s : State := { withObjs [] with launches := [killedL] }
    let u : State := { withObjs [] with launches := [endedL] }
    s.launch? 0 = some killedL ∧ killedL.role = .command ∧ killedL.locks = [] ∧ killedL.reports = [] ∧ killedL.stop = none ∧
      (spanOk (discardWork s 0) 0 2 0x40000 64 true).toBool = true ∧ u.launch? 0 = some endedL ∧ endedL.gangs ≤ endedL.nextGang ∧ endedL.live = [] ∧
      storesPending u 0 = false ∧ s.cores = [] ∧ s.stores = [] ∧ u.launches.filter (fun x => x.ctx == 0) = [endedL] := ⟨rfl, rfl, rfl, rfl, rfl,
          by decide, rfl, by decide, rfl, rfl, rfl, rfl, rfl⟩

/-! ### Commands of work channels -/

/-- 64 bytes from fields: offset, value. -/
def slot (fs : List (Nat × Nat)) : List Byte := toLe 64 ((fs.map fun p => p.2 * 2 ^ (8 * p.1)).foldl (· + ·) 0)
def mkCmd (op : Nat) (fs : List (Nat × Nat)) : Cmd := { seq := 0, op := op, ext := 0, serial := false, tag := 0, slot := slot fs, released := true }
def r0 : CmdRef := { ch := 0, seq := 0 }
/-- The objects of channel 0 of slice 0: a completion ring of four slots at 0x41000. -/
def chObjs : List (Nat × Nat) :=
  [(Obj.chSlice 0, 0), (Obj.complBase 0, 0x41000), (Obj.complSlots 0, 4), (Obj.complTail 0, 0), (Obj.complHead 0, 0), (Obj.notify 0, 0),
   (Obj.completed 0, 0), (Obj.tickPeriod, 1000), (Obj.tickStart, 0), (Obj.sDclasses 0, 1), (Obj.chEnable 0, 1), (Obj.fetch 0, 0)] ++
  (List.range 8).map fun k => (Obj.lsEnable k, 0)
/-- A command in flight on channel 0. -/
def flying (c : Cmd) : State := { withObjs chObjs with chans := [{ no := 0, flight := [c] }] }
/-- `Running` of a command in flight. -/
theorem running (c : Cmd) (ops : List Nat) (h1 : c.seq = 0) (h2 : c.op ∈ ops) (h3 : c.final = none) : Running (flying c) r0 ops c :=
  ⟨by simp [findFlight, flying, State.chan, r0, h1], h2, h3⟩

theorem test_completion_hypotheses :
    let s := flying (mkCmd 0x07 [])
    slotFree s 0 0 = true ∧ s.getObj (Obj.notify 0) = 0 ∧ spanOk s 0 2 0x41000 32 true = .ok () ∧ translate s 0 0x41000 1 = .ok 0x41000 ∧ chSliceOf s 0 = 0 :=
  ⟨by decide, by decide, by decide, by decide, by decide⟩
/-- A FENCE completes OK: SEQ 0, STATUS 0, opcode 7, phase 1 (Table 10.4). -/
theorem test_fence_record : cellsGet (at_ (exec (.fenceCmd r0) (flying (mkCmd 0x07 [])))).mem.bytes 0x41000 8 = [0, 0, 0, 0, 0, 7, 1, 0] := by decide
/-- Table 9.6a: CONTEXT_KILLED before PARTIAL before DEADLINE_MISSED. -/
theorem test_first_status : firstStatus [stMissed, stPartial, stKilled] = stKilled ∧ firstStatus [stMissed, stPartial] = stPartial ∧
    firstStatus [stMissed, stRekindled] = stMissed := by decide

theorem test_launch_hypotheses : Running (flying (mkCmd 0x01 [])) r0 [0x01] (mkCmd 0x01 []) ∧ launchBad ((mkCmd 0x01 []).slot.drop 16) = false ∧
    (mkCmd 0x01 []).field 40 4 = 0 ∧ (mkCmd 0x01 []).schedReserved = false ∧ launchBad ((mkCmd 0x01 [(40, 1)]).slot.drop 16) = false ∧
    (mkCmd 0x01 [(40, 1)]).field 40 4 = 1 := ⟨running _ _ rfl (by decide) rfl, by decide, by decide, by decide, by decide, by decide⟩
theorem test_mix_hypotheses : Running (flying (mkCmd 0x0D [])) r0 [0x0D] (mkCmd 0x0D []) ∧ (mkCmd 0x0D []).recs = [] ∧
    mixBad { withObjs ((Obj.sRows 0, 3) :: chObjs) with chans := [{ no := 0, flight := [mkCmd 0x0D []] }] } 0 (mkCmd 0x0D []) = false ∧
    mixTokens (mkCmd 0x0D []) = 0 ∧ mixSteps (mkCmd 0x0D []) = 0 ∧
    (let c := mkCmd 0x0D [(24, 0x40000), (42, 1)]
     let s : State := { withObjs ((Obj.sRows 0, 3) :: chObjs) with chans := [{ no := 0, flight := [c] }] }
     mixBad s 0 c = false ∧ mixSteps c = 1 ∧ ∃ s' bs, readRecs s 0 c = .ok (s', bs) ∧ launchBad (bs.drop 48) = false) :=
  ⟨running _ _ rfl (by decide) rfl, rfl, by decide, by decide, by decide, by decide, by decide, _, _, rfl, by decide⟩

/-- FILL of 4 bytes, INLINE_WRITE of 2, COPY of 4 and MEASURED_LOAD of 4, all to device memory. -/
def fill : Cmd := mkCmd 0x03 [(16, 0x40000), (24, 0x1122334455667788), (32, 4), (36, 2)]
def inl : Cmd := { mkCmd 0x04 [(16, 0x40000), (32, 2), (36, 2)] with ext := 1, payload := 7 :: 8 :: List.replicate 62 9 }
def copy : Cmd := mkCmd 0x02 [(16, 0x40000), (24, 0x40100), (32, 4), (36, 10)]
def mload : Cmd := mkCmd 0x0C [(16, 0x40100), (24, 0x40000), (32, 4), (36, 2)]
theorem test_transfer_hypotheses : ∀ c ∈ [fill, inl, copy, mload],
    let x := xferOf c
    Running (flying c) r0 [0x02, 0x03, 0x04, 0x0C] c ∧ c.done = 0 ∧ x.bad = false ∧ x.flag = 0 ∧ c.buf = [] ∧ 0 < x.len ∧
        pieceLen x.dspace x.dst x.len = x.len ∧ readLen x 0 = x.len ∧ x.dspace = 2 ∧
      x.dst = 0x40000 ∧ unackedOf (flying c) 0 0 = [] ∧ translate (flying c) 0 x.dst 1 = .ok 0x40000 ∧
          spanOkBy (.cmd 0 c.seq) (flying c) 0 2 x.dst x.len true = .ok () := by
  intro c hc
  simp only [List.mem_cons, List.not_mem_nil, or_false] at hc
  rcases hc with rfl | rfl | rfl | rfl <;>
    exact ⟨running _ _ rfl (by decide) rfl, rfl, by decide, by decide, rfl, by decide, by decide, by decide, by decide, by decide, rfl, by decide, by decide⟩
theorem test_copy_source_hypotheses : (∃ src bs, readRunAs .sectors (.cmd 0 0) (flying copy) 0 2 0x40100 4 = .ok (src, bs)) ∧
    (xferOf copy).sspace = 2 := ⟨⟨_, _, rfl⟩, by decide⟩
/-- FILL: the pattern's bytes from its lowest. INLINE_WRITE: the payload. -/
theorem test_fill_bytes : cellsGet (at_ (exec (.fillCmd r0) (flying fill))).mem.bytes 0x40000 5 = [0x88, 0x77, 0x66, 0x55, 0] := by decide
theorem test_inline_bytes : cellsGet (at_ (exec (.inlineWrite r0) (flying inl))).mem.bytes 0x40000 3 = [7, 8, 0] := by decide
theorem test_empty_transfer_hypotheses : (xferOf (mkCmd 0x03 [(36, 2)])).bad = false ∧ (xferOf (mkCmd 0x03 [(36, 2)])).len = 0 ∧
    (xferOf (mkCmd 0x03 [(36, 2)])).flag = 0 := by decide

/-- WAIT for the word at 0x40000 to equal 0 (it holds) or 1 (it does not); one that has been evaluated. -/
def waits (v : Nat) : Cmd := mkCmd 0x05 [(16, 0x40000), (24, v), (32, 8)]
def armed : Cmd := { waits 0 with step := 1 }
theorem test_wait_hypotheses : Running (flying (waits 0)) r0 [0x05] (waits 0) ∧ waitBad (waits 0) = false ∧
    (∃ s' bs, readRun (flying (waits 0)) 0 2 0x40000 8 = .ok (s', bs) ∧ leNat bs = 0) ∧ (waits 1).field 24 8 = 1 ∧
    ((flying armed).chan 0).flight.find? (fun d => d.op == 0x05 && d.step == 1 && d.final.isNone) = some armed :=
  ⟨running _ _ rfl (by decide) rfl, by decide, ⟨_, _, rfl, by decide⟩, by decide, rfl⟩
/-- SIGNAL to the first byte of window 0 of this module, which exports slice 0's memory at 0x40000. -/
def sig : Cmd := mkCmd 0x06 [(16, 3 * 2 ^ 46), (24, 5)]
def exports : List (Nat × Nat) := [(Obj.wEnable 0, 1), (Obj.wKind 0, 0), (Obj.wSlice 0, 0), (Obj.wBase 0, 0x40000), (Obj.wSize 0, 4096),
    (Obj.wRights 0, 3), (Obj.wPeerLo 0, 0), (Obj.wPeerHi 0, 9)]
theorem test_signal_hypotheses : Running (flying sig) r0 [0x06] sig ∧ sig.schedReserved = false ∧ (sig.slot.drop 33).any (· != 0) = false ∧
    gClass (sig.field 16 8) < 2 ∧ gModule (sig.field 16 8) = (flying sig).ownId ∧
    ∃ s', serveSignal (withObjs exports) 3 (3 * 2 ^ 46) 0 5 (.local_ (some 0)) = .done s' () := ⟨running _ _ rfl (by decide) rfl, by decide, by decide, by decide,
        by decide, _, rfl⟩
theorem test_fence_hypotheses : Running (flying (mkCmd 0x07 [])) r0 [0x07] (mkCmd 0x07 []) ∧ ((mkCmd 0x07 []).slot.drop 16).any (· != 0) = false :=
  ⟨running _ _ rfl (by decide) rfl, by decide⟩
theorem test_reserved_hypotheses : findFlight (flying (mkCmd 0x00 [])) 0 0 = some (mkCmd 0x00 []) ∧
    findFlight (flying (mkCmd 0x0E [])) 0 0 = some (mkCmd 0x0E []) := ⟨rfl, rfl⟩

/-! ### The ember store -/

/-- A CONTEXT_MAP of an operation: COUNT elements, handles at 0x40000, results at 0x40100. -/
def mapCmd (op n arg : Nat) : Cmd := mkCmd 0x09 [(16, op), (20, n), (24, 0x40000), (32, 0x40100), (40, arg)]
/-- Slice 0 with entry 0 STORED, entry 1 EMPTY with two references, layout 0 of one EB4 head of 64. -/
def ember (c : Cmd) : State :=
  { withObjs ([(Obj.mapQuota 0, 4), (Obj.layout 0 0, 1 + 2 ^ 10 + 2 ^ 12), (Obj.mapCacheHits, 0), (Obj.mapCacheMisses, 0)] ++ chObjs) with
    chans := [{ no := 0, flight := [c] }],
    slices := [{ no := 0, transBase := 0x10000, dirty := [4, 5], entries := [(0, { state := 2, tier := 0, kfmt := 2, vfmt := 2, refs := 1, addr := 0x50000 }), (1, { state := 1, refs := 2 })] }] }
theorem test_map_hypotheses : mapBad (mapCmd 3 1 0) = false ∧ findFlight (ember (mapCmd 3 1 0)) 0 0 = some (mapCmd 3 1 0) ∧
    (mapCmd 3 1 0).done < emCount (mapCmd 3 1 0) ∧
    (∃ s', handleAt (ember (mapCmd 3 1 0)) 0 (mapCmd 3 1 0) = .ok (s', 0) ∧ moving s' 0 0 = false ∧ earlierOn s' 0 0 (mapCmd 3 1 0) = false) ∧
    emCount (mapCmd 3 0 0) = 0 :=
  ⟨by decide, rfl, by decide, ⟨_, rfl, rfl, by decide⟩, by decide⟩
/-- What holds of the state after a look-up holds whether it hits or misses (log 28). -/
theorem lookup_cases (P : State → Prop) (s : State) (h1 : P ((s.useFree 1).addObj Obj.mapCacheHits 1)) (h2 : P ((s.useFree 1).addObj Obj.mapCacheMisses 1)) :
    P (mapLookup s) := by
  simp only [mapLookup]; split <;> assumption
/-- Entry 0 is used and STORED with one reference, entry 1 used with two, entry 2 is not used; the results can be written. -/
def entriesOk (u : State) : Prop :=
  0 < u.getObj (Obj.mapQuota 0) ∧ (ctxEntry u 0 0).state = 2 ∧ (ctxEntry u 0 1).refs = 2 ∧ (ctxEntry u 0 2).state = 0 ∧
    emSpan u 0 (mapCmd 3 1 0) 0x40100 4 = .ok () ∧ emSpan u 0 (mapCmd 3 1 0) 0x40100 32 = .ok () ∧
    loHeads (layoutWord u 0 0) ≠ 0 ∧ findFree u 0 1 = some 2 ∧ findFree u 0 2 = some 2 ∧ findFree u 0 3 = none
theorem test_map_entry_hypotheses : entriesOk (mapLookup (ember (mapCmd 3 1 0))) := by apply lookup_cases <;> (unfold entriesOk; decide)
theorem test_alloc_contiguous_bit : bitN (emArg (mapCmd 2 2 1)) 0 = true ∧ emCount (mapCmd 2 2 1) = 2 ∧ bitN (emArg (mapCmd 2 1 0)) 0 = false := by decide
/-- DONATE of no page, RECLAIM of no page, and one whose range is not whole pages; LAYOUT of an unused layout. -/
def rangeCmd (op va n : Nat) : Cmd := mkCmd 0x09 [(16, op), (24, va), (40, n)]
theorem test_ranges_hypotheses : mapBad (rangeCmd 0 0 0) = false ∧ (rangeCmd 0 0 0).done = 0 ∧ pageRange (rangeCmd 0 0 0) = true ∧
    pageRange (rangeCmd 0 64 0) = false ∧
    (∃ t, donateGo 0 0 0 (ember (rangeCmd 0 0 0)) = some t) ∧ donateGo 0 1 0x80000000 (ember (rangeCmd 0 0 0)) = none ∧
        (∃ t, reclaimGo 0 0 0 (ember (rangeCmd 1 0 0)) = some t) ∧
    reclaimGo 0 1 0 (ember (rangeCmd 1 0 0)) = none ∧
    ((ember (rangeCmd 7 0 0)).slice 0).entries.any (fun p => p.2.state != 0 && p.2.layout == 1) = false ∧
    ((ember (rangeCmd 7 0 0)).slice 0).entries.any (fun p => p.2.state != 0 && p.2.layout == 0) = true :=
  ⟨by decide, rfl, by decide, by decide, ⟨_, rfl⟩, by decide, ⟨_, rfl⟩, by decide, by decide, by decide⟩

/-- A CONTEXT_MOVE of no blocks, and one MIGRATE of entry 1 (EMPTY), which is refused. -/
def moveCmd (op n npos : Nat) : Cmd := mkCmd 0x0A [(16, op), (18, npos), (20, n), (24, 0x40000), (32, 0x40100), (56, 128), (60, 2048)]
theorem test_move_hypotheses : moveBad (ember (moveCmd 2 0 0)) 0 (moveCmd 2 0 0) = false ∧ emCount (moveCmd 2 0 0) = 0 ∧
    moveBad (ember (moveCmd 2 1 0)) 0 (moveCmd 2 1 0) = false ∧
    (∃ s', handleAt (ember (moveCmd 2 1 0)) 0 (moveCmd 2 1 0) = .ok (s', 0) ∧ moving s' 0 0 = false ∧ earlierOn s' 0 0 (moveCmd 2 1 0) = false) ∧
    emSpan (mapLookup (ember (moveCmd 2 1 0))) 0 (moveCmd 2 1 0) 0x40100 4 = .ok () := by
  refine ⟨by decide, by decide, by decide, ⟨_, rfl, rfl, by decide⟩,
      ?_⟩; apply lookup_cases (fun u => emSpan u 0 (moveCmd 2 1 0) 0x40100 4 = .ok ()) <;> decide
/-- ENCODE of entry 1 into a pool of a page: there is room, and its sectors can be reached. DECODE of entry 0: the sectors of its block can
be read. -/
def pooled (c : Cmd) : State :=
  { ember c with slices := [{ (ember c).slice 0 with pools := [{ va := 0x200000, pa := 0x200000, tier := 0 }] }] }
theorem test_blocks_hypotheses : roomFor (pooled (moveCmd 0 1 0)) 0 0 (blockBytes 2 2 1 64) = some (0, 0x200000) ∧
    (reachPa (pooled (moveCmd 0 1 0)) 1 0x200000).toBool = true ∧ (readPa (ember (moveCmd 1 1 0)) 0 0x50000 64).toBool = true := by decide

/-- Heat 7 halves to 3; a move that has started, of an entry that is EMPTY and of one that is STORED. -/
def hot : State := { withObjs [(Obj.heatDecay 0, 5)] with slices := [{ no := 0, heatTicks := 5, heatDue := 1, entries := [(0, { state := 2, heat := 7 })], moves := [{ handle := 0, src := 0, tier := 1, demote := true, started := true }] }] }
theorem test_heat_hypotheses : 1 ≤ hot.getObj (Obj.sState 0) ∧ 0 < (hot.slice 0).heatDue ∧
    hot.getObj (Obj.heatDecay 0) ≤ (hot.slice 0).heatTicks + 1 ∧
    ({ hot with slices := [] }.slice 0).heatTicks + 1 < { hot with slices := [] }.getObj (Obj.heatDecay 0) ∧
    (hot.slice 0).moves.find? (·.started) =
    some { handle := 0, src := 0, tier := 1, demote := true, started := true } := ⟨by decide, by decide, by decide, by decide, rfl⟩
theorem test_heat_halves : (ctxEntry (at_ (exec (.heatDecay 0) hot)) 0 0).heat = 3 := by decide

/-! ### Collectives -/

/-- ALL_REDUCE of one u32 (DTYPE 5) over one member, this module's channel 0: SRC 0x40100, DST 0x40180; the member table at 0x40200. -/
def collCmd : Cmd := mkCmd 0x08 [(16, 0x40000)]
def collDesc (op count : Nat) : List Byte := slot [(0, op), (1, 5), (8, count), (16, 0x40100), (24, 0x40180), (40, 0)]
def collObjs : List (Nat × Nat) := [(Obj.gSize 0, 1), (Obj.gRank 0, 0), (Obj.gSlice 0, 0), (Obj.gBusy 0, 0), (Obj.gTable 0, 0x40200),
    (Obj.collWait, 10)] ++ chObjs
def collAt (op count : Nat) (extra : List (Nat × Nat)) : State :=
  { withObjs (extra ++ collObjs) with
    chans := [{ no := 0, flight := [collCmd] }],
    mem := { (withObjs []).mem with bytes := cellsPut (cellsPut (cellsPut tables 0x40000 (collDesc op count)) 0x40100 [5]) 0x40200 (toLe 4 3) } }
theorem test_collective_hypotheses : Running (collAt 0 1 []) r0 [0x08] collCmd ∧ collCmd.schedReserved = false ∧ (collCmd.slot.drop 24).any (· != 0) = false ∧
    (∃ s1, readRunAs .sectors (.cmd 0 0) (collAt 0 1 []) 0 2 0x40000 64 = .ok (s1, collDesc 0 1) ∧ s1.getObj (Obj.gSlice 0) = 0 ∧
      s1.getObj (Obj.gSize 0) = 1 ∧ s1.getObj (Obj.gBusy 0) = 0 ∧
      ∃ s2, readRunAs .sectors (.cmd 0 0) s1 0 2 0x40200 4 = .ok (s2, toLe 4 3) ∧ tableBad (toLe 4 3) = false ∧ s2.coll? 0 = none) ∧
    collBad (collDesc 0 1) = false ∧ collLoose (collDesc 0 1) 1 = false ∧ collBad (collDesc 6 0) = false ∧ collLoose (collDesc 6 0) 1 = false ∧
    (∃ s1, readRunAs .sectors (.cmd 0 0) (collAt 0 1 [(Obj.gSlice 0, 1)]) 0 2 0x40000 64 = .ok (s1, collDesc 0 1) ∧ s1.getObj (Obj.gSlice 0) ≠ 0) := by
  refine ⟨⟨rfl, by decide, rfl⟩, by decide, by decide, ⟨_, rfl, by decide, by decide, by decide, _, rfl, by decide, rfl⟩, by decide, by decide, by decide,
    by decide, ⟨_, rfl, by decide⟩⟩
/-- The collective after its start: no step with COUNT 0, one step with COUNT 1; its contribution can be sent. -/
def coll1 (op count : Nat) : Coll :=
  { g := 0, ch := 0, seq := 0, cseq := 0, op := op, rop := 0, dtype := 5, xrmode := 0, expGiven := false, fixedExp := 0, count := count, root := 0, rank := 0,
    src := 0x40100, dst := 0x40180, stepElems := 1048576, flag := 0, flagValue := 0, members := [(3, 0)] }
/-- A binary32 sum in XR over this module and module 4: its exponent pass comes first. -/
def collXr : Coll := { coll1 0 1 with dtype := 1, xrmode := 1, members := [(3, 0), (4, 0)] }
def twoState : State := { collAt 0 1 [] with net := { routes := [(4, 0x40)] } }
theorem test_collective_start_hypotheses : collSteps (coll1 0 0) = 0 ∧ 0 < collSteps (coll1 0 1) ∧ sendsOnly (coll1 0 1) = false ∧
    twoPass (collAt 0 1 []) (coll1 0 1) = false ∧ (∃ v, sendStep (collAt 0 1 []) (coll1 0 1) [] = .ok v) ∧
    twoPass twoState collXr = true ∧ collFmt collXr.dtype = some fmtF32 ∧ ∃ v0 hb v, ownHeads fmtF32 collXr [0, 1] twoState = .ok (v0, hb) ∧
      sendHeads v0 collXr hb = .ok v ∧ headsHere v collXr = none :=
  ⟨by decide, by decide, by decide, by decide, ⟨_, rfl⟩, by decide, rfl, _, _, _, rfl, rfl, by decide⟩
/-- A step whose only contribution is there, and a member that has waited COLL_WAIT ticks. -/
def stepState : State :=
  { collAt 0 1 [] with net := { colls := [{ coll1 0 1 with sent := true, ticks := 10 }], contribs := [{ group := groupNo [(3, 0)], cseq := 0, rank := 0, dst := 0, step := 0, blocks := [(0, [5, 0, 0, 0])] }] } }
theorem test_collective_step_hypotheses : stepState.coll? 0 = some { coll1 0 1 with sent := true, ticks := 10 } ∧ findFlight stepState 0 0 = some collCmd ∧
    stepState.getObj Obj.collWait ≠ 0 ∧ stepState.getObj Obj.collWait ≤ 10 ∧ unackedOf stepState 0 0 = [] ∧
    gathered stepState { coll1 0 1 with sent := true, ticks := 10 } = some [(0, [5, 0, 0, 0])] ∧
    stepResult stepState { coll1 0 1 with sent := true, ticks := 10 } [(0, [5, 0, 0, 0])] = some [5, 0, 0, 0] ∧
        spanOkBy (.cmd 0 0) stepState 0 2 0x40180 4 true = .ok () :=
  ⟨rfl, rfl, by decide, by decide, rfl, by decide, by decide, by decide⟩
/-- A barrier below which nothing is awaited: no group slot names it, no child, a parent at port 0. -/
def treeState : State :=
  { withObjs ((List.range 64).map fun g => (Obj.gSize g, 0)) with net := { ports := [{ q := 0, up := true, neighbour := some 1 }], parent := some 1 } }
theorem test_barrier_hypotheses : (barrierHere treeState 0 0).any (·.sent) = false ∧ barrierReady treeState 0 0 = true ∧
    (childPorts treeState).all (fun p => treeState.net.barriers.contains (0, 0, p)) = true ∧
        upPort treeState = some 0 := ⟨rfl, by decide, by decide, by decide⟩

/-! ### Fetching, dispatch and ticks -/

/-- A ring of 64 slots at 0x40000 and command words at 0x42000 holding a FENCE at slot 0; TAIL is 1. -/
def ringState (tail : Nat) : State :=
  { withObjs ([(Obj.ringSlots 0, 64), (Obj.ringBase 0, 0x40000), (Obj.cwordBase 0, 0x42000), (Obj.complBase 0, 0x43000), (Obj.chunkTokens 0, 0)] ++ chObjs) with
    chans := [{ no := 0, tail := tail }], mem := { (withObjs []).mem with bytes := cellsPut tables 0x42000 [7] } }
theorem test_fetch_hypotheses : mayFetch (ringState 1) 0 = true ∧ areasBad (ringState 1) 0 = false ∧
    ∃ s1 s2 s3, readRun (ringState 1) 0 2 0x42000 8 = .ok (s1, [7, 0, 0, 0, 0, 0, 0, 0]) ∧ readRun s1 0 2 0x40000 64 = .ok (s2, List.replicate 64 0) ∧
      readExt s2 0 0 1 0 = .ok (s3, []) := ⟨by decide, by decide, _, _, _, rfl, rfl, rfl⟩
/-- The word 0x...07 is taken as a FENCE with SEQ 0, and FETCH is 1. -/
theorem test_fetch_takes : ((at_ (exec (.commandFetch 0) (ringState 1))).chan 0).fetched.map (fun c => (c.op, c.seq)) = [(7, 0)] ∧
    (at_ (exec (.commandFetch 0) (ringState 1))).getObj (Obj.fetch 0) = 1 := by decide
/-- A released head of channel 0, with DCLASS 0 granted and with DCLASS 1 not granted. -/
def waiting (c : Cmd) : State := { withObjs chObjs with chans := [{ no := 0, fetched := [c] }] }
theorem test_dispatch_hypotheses : ∀ c ∈ [mkCmd 0x07 [], mkCmd 0x07 [(14, 8)]], resourceFree (waiting c) (resourceOf c) = true ∧
    (nextHead (waiting c) (resourceOf c)).2 = some (0, c) := by
  intro c hc
  simp only [List.mem_cons, List.not_mem_nil, or_false] at hc
  rcases hc with rfl | rfl <;> exact ⟨by decide, by decide⟩
theorem test_dispatch_classes : (mkCmd 0x07 []).dclass = 0 ∧ (mkCmd 0x07 [(14, 8)]).dclass = 8 ∧
    ((waiting (mkCmd 0x07 [])).getObj (Obj.sDclasses 0)).testBit 0 = true ∧
    ((waiting (mkCmd 0x07 [])).getObj (Obj.sDclasses 0)).testBit 8 = false := by decide
/-- No enabled lock set and no live slice. -/
def idle : State :=
  { State.reset with od := [(Obj.moduleState, 5), (Obj.tickPeriod, 1000), (Obj.tickStart, 0), (Obj.deviceTime, 7), (Obj.tickNumber, 2 ^ 48 - 1)] ++ ((List.range 8).map fun k => (Obj.lsEnable k, 0)) ++
      (List.range 64).map fun n => (Obj.sState n, 0) }
theorem test_tick_hypotheses : 5 ≤ idle.getObj Obj.moduleState ∧ enabledSets idle = [] ∧ liveSlices idle = [] ∧ idle.net.period = [] ∧
    idle.stores = [] ∧ idle.chans = [] ∧ (idle.granule + 1) * 10000 < periodNs idle := ⟨by decide, by decide, by decide, rfl, rfl, rfl, by decide⟩
/-- The tick number wraps at 2^48 and device time moves to T(B) = 1 ms (R261). -/
theorem test_tick_wraps : (at_ (exec .tickBoundary idle)).tick = 0 ∧ (at_ (exec .tickBoundary idle)).now = 1000000 := by decide
def saving : Launch := { launchOf (gangOf grp) with phase := .saving }
def restoring : Launch := { launchOf (gangOf grp) with phase := .restoring }
theorem test_save_hypotheses : ({ withObjs [] with launches := [saving] } : State).launch? 0 = some saving ∧ saving.killed = false ∧
    saving.phase = .saving ∧ saving.reports = [] ∧
    ({ withObjs [] with launches := [restoring] } : State).launch? 0 = some restoring ∧ restoring.phase = .restoring ∧
        (let s : State := { withObjs [] with launches := [saving] }
      loadsPending s 0 = false ∧ s.cores = [] ∧ storesDone s 0 = (s, true) ∧ (dropFills s 0).launch? 0 = some saving) :=
  ⟨rfl, rfl, rfl, rfl, rfl, rfl, rfl, rfl, rfl, rfl⟩
theorem test_overrun_hypotheses : overrunDue (flying (mkCmd 0x0A [])) 0 (mkCmd 0x0A []) = true ∧
    (flying (mkCmd 0x0A [])).net.colls.find? (fun x => x.ch == 0 && x.seq == 0) = none := ⟨by decide, rfl⟩

/-! ### Lock sets, banking and rekindle -/

/-- Lock set 0 with channel 0 as its member, and a seal at tick 4. -/
def banked (x : LockSet) : State :=
  { withObjs ([(Obj.lsEnable 0, 1), (Obj.lsChannels 0, 1), (Obj.rekindle 0, 1), (Obj.lsShift 0, 0), (Obj.lsFailed 0, 0), (Obj.lsId 0, 77)] ++ (List.range 256).map (fun c => (Obj.chSlice c, if c = 0 then 0 else 255)) ++ chObjs) with
    locks := [x] }
theorem test_lockset_hypotheses : (banked { k := 0 }).getObj (Obj.lsEnable 0) = 1 ∧ (banked { k := 0 }).getObj Obj.moduleState = 5 ∧
    ((banked { k := 0 }).lockSet 0).mine = none ∧
    (banked { k := 0 }).getObj (Obj.lsFailed 0) ≠ 1 ∧ ((banked { k := 0, parityDone := false, seals := [4] }).lockSet 0).seals = 4 :: [] ∧
    ((banked { k := 0, parityDone := false, seals := [4] }).lockSet 0).parityDone = false ∧
    setFrozen (banked { k := 0, parityDone := false, seals := [4] }) 0 = false ∧ ((banked { k := 0, waitMember := some 5 }).lockSet 0).waitMember ≠ none :=
  ⟨by decide, by decide, rfl, by decide, rfl, rfl, by decide, by decide⟩
def bankFlying : State := { banked { k := 0 } with chans := [{ no := 0, flight := [mkCmd 0x0B []] }] }
theorem test_bank_hypotheses : Running bankFlying r0 [0x0B] (mkCmd 0x0B []) ∧ ((mkCmd 0x0B []).slot.drop 16).any (· != 0) = false ∧
    lsOf bankFlying 0 = some 0 ∧
    lsOf (flying (mkCmd 0x0B [])) 0 = none ∧ (bankFlying.chan 0).fetched = [] ∧
        (bankFlying.chan 0).flight = [mkCmd 0x0B []] := ⟨⟨rfl, by decide, rfl⟩, by decide, by decide, by decide, rfl, rfl⟩
/-- A page of slice 0 whose first write waits, with room in the reserve and without; the LLM holds its lines. -/
def imageWaits (reserve : Nat) : State :=
  { banked { k := 0, seals := [4] } with
    bank := { waiting := [(0, 5)], reserve := reserve },
    mem := { bytes := tables, llm := (List.range 128).map fun i => { die := 0, line := 0x280 + i, slice := 0, valid := 255 } } }
theorem test_image_hypotheses : (imageWaits 4194304).bank.waiting = (0, 5) :: [] ∧ bankersOf (imageWaits 4194304) 0 = [0] ∧
    pageBase (imageWaits 4194304) 0 5 = some 0x50000 ∧
    pageFrozen (imageWaits 4194304) 0x50000 = false ∧
    65536 ≤ reserveLeft (imageWaits 4194304) ∧ reserveLeft (imageWaits 0) < 65536 := ⟨rfl, by decide, by decide, by decide +kernel, by decide, by decide⟩
theorem test_restore_hypotheses : ((banked { k := 0, rb := some { origin := 3, target := 4 } }).lockSet 0).rb = some { origin := 3, target := 4 } ∧
    heldImages (banked { k := 0, rb := some { origin := 3, target := 4 } }) 0 = [] ∧
    setFrozen (banked { k := 0, rb := some { origin := 3, target := 4 } }) 0 = false ∧
    (rebuildLines (banked { k := 0, rb := some { origin := 3, target := 4 } }) (restoreImages (banked { k := 0, rb := some { origin := 3, target := 4 } }) 0) 0).getObj Obj.moduleState ≠ 6 := ⟨rfl, rfl,
        by decide, by decide⟩
/-- A lost member is waited for REJOIN_WAIT ms after the restore. -/
def lostWait (up : Nat) : State :=
  let s := banked { k := 0, waitMember := some 5, rb := some { origin := 3, target := 4, restored := true, restoredAt := 5 } }
  { s with od := (Obj.uptime, up) :: (Obj.rejoinWait 0, 2) :: s.od }
theorem test_rejoin_hypotheses : rejoinOver (lostWait 2000005) 0 = true ∧ rejoinOver (lostWait 2000004) 0 = false ∧
    ((lostWait 2000004).lockSet 0).rb = some { origin := 3, target := 4, restored := true, restoredAt := 5 } ∧ ((lostWait 2000004).lockSet 0).waitMember ≠ none ∧
    upNow (lostWait 2000004) < 5 + 1000000 * (lostWait 2000004).getObj (Obj.rejoinWait 0) ∧ ((banked { k := 0, waitMember := some 5 }).lockSet 0).rb = none := by
  refine ⟨by decide, by decide, rfl, by decide, by decide, rfl⟩
/-- R360: a page of an ember pool in a banked region. -/
def clashing (va : Nat) : State :=
  { withObjs [(Obj.regionBase 0 0, 0x50000), (Obj.regionSize 0 0, 0x10000)] with slices := [{ no := 0, pools := [{ va := va, pa := 0, tier := 0 }] }] }
theorem test_clash_hypotheses : regionClash (clashing 0) 0 = true ∧ regionClash (clashing 0x200000) 0 = false := by decide
def maintDue : State := { withObjs ((Obj.uptime, 1000000000) :: (List.range 8).map fun k => (Obj.lsEnable k, 0)) with bank := { maintSince := some 0 } }
theorem test_maintenance_hypotheses : maintDue.bank.maintSince = some 0 ∧ 0 + 1000000000 ≤ upNow maintDue ∧
    enabledSets maintDue = [] := ⟨rfl, by decide, by decide⟩

/-! ### The network -/

def portState (p : Port) : State := { withObjs [] with net := { ports := [p] } }
def frame (seq : Nat) : DraftFrame := { seq := seq, origin := 9 }
/-- A frame in its turn at the last SEQ, a copy (32,768 ahead) and the two ends of a gap (1 and 255 ahead). -/
theorem test_draft_hypotheses : ((portState { q := 0, up := true, rxSeq := 65535 }).port 0).up = true ∧
    (frame 65535).seq = ((portState { q := 0, up := true, rxSeq := 65535 }).port 0).rxSeq ∧
    ((portState { q := 0, up := true, rxSeq := 65535 }).port 0).heldDraft = [] ∧ 32768 ≤ seqAhead 32767 65535 ∧ seqAhead 0 65535 = 1 ∧
        seqAhead 254 65535 = 255 ∧
    barrierHere (portState { q := 0, up := true, rxSeq := 65535 }) 0 0 = [] ∧ ((portState { q := 0, up := true, gap := true }).port 0).gap = true := by
  refine ⟨rfl, rfl, rfl, by decide, by decide, by decide, rfl, rfl⟩
theorem test_draft_ethertype_hypotheses : (portState { q := 0, up := true }).forced Obj.draftEthertype = (frame 0).ether ∧
    (portState { q := 0, up := true }).forced Obj.draftEthertype ≠ ({ frame 0 with ether := 0x88B6 } : DraftFrame).ether := by decide
/-- R335: what leaves goes twice. -/
theorem test_draft_sent_twice : (sendDraft (portState { q := 0, up := true }) 0 1 (frame 7)).out.length = 2 := by decide
/-- R345: a module that an ASSIGN record shows below this one is no parent. -/
theorem test_parent_not_below : parentChoices { portState { q := 0, up := true, depth := 1, neighbour := some 9 } with
    net := { ports := [{ q := 0, up := true, depth := 1, neighbour := some 9 }], below := [9] } } = [] ∧
    parentChoices (portState { q := 0, up := true, depth := 1, neighbour := some 9 }) = [(1, 9)] := by decide
/-- R351: a collective stream to a neighbour on two ports leaves by both. -/
def block (n : Nat) : TFrame := { blk := some { group := 0, cseq := 0, rank := 0, dst := 0, pass := 0, step := 0, block := n } }
theorem test_striped : (fun s => (egress s 9 6 (block 4), egress s 9 6 (block 5), egress s 9 0 (block 5))) { portState { q := 0 } with
    net := { ports := [{ q := 1, up := true, neighbour := some 9 }, { q := 2, up := true, neighbour := some 9 }] } } = (some 1, some 2, none) := by decide
/-- A frame in its turn moves the expected SEQ on, wrapping at 2^16. -/
theorem test_draft_seq_wraps :
    ((at_ (exec (.draftNak 0 (frame 65535)) (portState { q := 0, up := true, rxSeq := 65535 }))).port 0).rxSeq = 0 := by decide

def ported (p : Port) (os : List (Nat × Nat)) (f : Net → Net) : State :=
  { withObjs (os ++ (List.range 8).map fun k => (Obj.lsEnable k, 0)) with net := f { ports := [p] } }
/-- A member that is synchronised, the root, a module in holdover past its limit, a neighbour that is lost. -/
theorem test_joined_hypotheses :
    let s := ported { q := 0, up := true, neighbour := some 1 } [(Obj.discState, 5), (Obj.dupId, 0)] id
    let u := ported { q := 0 } [(Obj.discState, 3), (Obj.dupId, 0)] fun n => { n with best := some (0, 3) }
    takesPart s = true ∧ s.getObj Obj.dupId ≠ 1 ∧ s.getObj Obj.moduleState = 5 ∧ s.getObj Obj.discState = 5 ∧ isRoot s = false ∧ livePorts s ≠ [] ∧
      u.getObj Obj.discState = 3 ∧ candidate u = true ∧ takesPart u = true ∧
          u.getObj Obj.dupId ≠ 1 := ⟨by decide, by decide, by decide, by decide, rfl, by decide, by decide, rfl, by decide, by decide⟩
theorem test_holdover_hypotheses :
    let s := ported { q := 0 } [(Obj.alignState, 2), (Obj.holdoverLimit, 1), (Obj.deviceTime, 1001)] id
    s.getObj Obj.alignState = 2 ∧ s.net.holdSince + 1000 * s.getObj Obj.holdoverLimit < s.now ∧ enabledSets s = [] := ⟨by decide, by decide, by decide⟩
theorem test_neighbour_hypotheses :
    let s := ported { q := 63, up := true, neighbour := some 1 } [(Obj.rootId, 7)] id
    (s.port 63).neighbour = some 1 ∧ (s.port 63).up = true ∧ enabledSets s = [] ∧ s.getObj Obj.rootId ≠ 1 := ⟨rfl, rfl, by decide, by decide⟩
theorem test_port_up_hypotheses : 3 ≤ (portState { q := 0 }).getObj Obj.moduleState ∧ ((portState { q := 0 }).port 0).up = false ∧
    0 % 4 < modePorts ((portState { q := 0 }).forced (Obj.portMode 0)) := ⟨by decide, rfl, by decide⟩
theorem test_discovery_hypotheses : (BitVec.ofNat 64 ((portState { q := 0, up := true }).forced Obj.fabricPrefix)).toNat = (portState { q := 0, up := true }).forced Obj.fabricPrefix := by decide
theorem test_ptp_hypotheses :
    let s : State := { withObjs [(Obj.moduleState, 4)] with net := { best := some (0, 3) }, inForce := [(Obj.moduleId, 3), (Obj.ptpEnable, 1)] }
    s.forced Obj.ptpEnable = 1 ∧ candidate s = true ∧ s.getObj Obj.moduleState = 4 ∧ s.net.timeSet = false ∧ isRoot (portState { q := 0 }) = false ∧
    (portState { q := 0 }).getObj Obj.moduleState = 5 ∧ isRoot { s with od := [(Obj.rootId, 3), (Obj.moduleState, 5)] } = true :=
  ⟨by decide, rfl, by decide, rfl, rfl, by decide, by decide⟩
/-- A hop with link retry, one without, and a frame at the end of its hops. -/
theorem test_link_hypotheses : linkRetry (portState { q := 0, up := true, neighbour := some 9, direct := true, rtt := some 5000 }) 0 9 = true ∧
    linkRetry (portState { q := 0, up := true, neighbour := some 9, direct := true, rtt := some 5001 }) 0 9 = false ∧ ({ hops := 1 } : Envelope).hops ≤ 1 := by decide

/-- Module 4 sends on path 0; PSN 8 is expected. -/
def pathState (p : PathCtx) : State := { withObjs exports with net := { ports := [{ q := 0, up := true }], paths := [p], routes := [(4, 0x40)] } }
def path8 : PathCtx := { no := 0, dst := 4, expect := 8 }
def tframe (psn : Nat) : TFrame := { psn := psn, src := 4, addr := BitVec.ofNat 64 (3 * 2 ^ 46), payload := [1, 2, 3, 4] }
theorem test_transport_hypotheses : ((pathState path8).port 0).up = true ∧ forTransport (pathState path8) (tframe 8) = true ∧
    goodFrame (tframe 8) = true ∧ linkCheck (pathState path8) 0 (tframe 8) = (pathState path8, true) ∧
    peerPath (pathState path8) 4 = some (pathState path8, path8) ∧ 2 ^ 31 ≤ psnAhead 7 8 ∧ 0 < psnAhead 9 8 ∧ psnAhead 9 8 < 2 ^ 31 ∧
        path8.held = [] ∧ path8.nakked = false ∧ 1 < (tframe 8).ip.hops :=
  ⟨rfl, rfl, rfl, rfl, rfl, by decide, by decide, by decide, rfl, rfl, by decide⟩
/-- A WRITE in its turn is performed. -/
theorem test_transport_perform_hypotheses : ∃ v p', perform ((pathState path8).setPath { path8 with held := [{ ty := 0, f := tframe 8 }] }) 4 { ty := 0, f := tframe 8 } = .done v [] ∧
    v.path? 0 = some p' ∧ p'.held = [{ ty := 0, f := tframe 8 }] := ⟨_, _, rfl, rfl, rfl⟩
theorem test_write_performed : cellsGet (at_ (exec (.writeFrame 0 (tframe 8)) (pathState path8))).mem.bytes 0x40000 5 = [1, 2, 3, 4, 0] := by decide
def sent1 : PathCtx := { no := 0, dst := 4, nextPsn := 2, unacked := [{ ty := 0, f := { psn := 0 } }, { ty := 0, f := { psn := 1 } }] }
/-- ACK of PSN 1 frees PSN 0 and keeps PSN 1; no command waits for either. -/
theorem test_ack_hypotheses : pathTo (pathState sent1) 4 = some sent1 ∧ (pathState sent1).path? 0 = some sent1 ∧ sent1.unacked ≠ [] ∧ sent1.rate = 64 ∧
    ((sent1.unacked.filter fun x => decide (psnAhead x.f.psn 1 < 2 ^ 31)).map (·.f.psn)) = [1] := ⟨rfl, rfl, by decide, rfl, by decide⟩
/-- A path whose peer has not answered for 1 s, and one that nothing has used for 1 s. -/
def lateState (p : PathCtx) : State := { withObjs ((Obj.deviceTime, 1000000000) :: chObjs) with net := { paths := [p] } }
theorem test_path_timeout_hypotheses : workOf (sent1.unacked.map (·.who)) = [] ∧ (lateState sent1).net.reads = [] ∧
    (∀ x ∈ sent1.unacked, chanOfFrame (lateState sent1) x.who = none) ∧ path8.used + 1000000000 ≤ (lateState path8).now := by
  refine ⟨by decide, rfl, ?_, by decide⟩; decide
theorem test_path_events_hypotheses : (pathState { path8 with owed := 1 }).path? 0 = some { path8 with owed := 1 } ∧
    (pathState { path8 with rate := 32 }).path? 0 = some { path8 with rate := 32 } ∧
    (pathState path8).path? 0 = some path8 ∧ path8.unacked = [] ∧ path8.owed = 0 := ⟨rfl, rfl, rfl, rfl, rfl⟩
def buffered : State := { withObjs [] with cores := [{ no := 0, wc := [{ line := 512, bytes := [], g := g0, slot := 0 }] }] }
def ent0 : WcEnt := { line := 512, bytes := [], g := g0, slot := 0 }
theorem test_wc_hypotheses : ent0 ∈ (buffered.core 0).wc ∧ ∀ d ∈ (buffered.core 0).wc, d.line = ent0.line → d = ent0 := by
  simp [buffered, State.core, ent0]
theorem test_forward_hypotheses : routeOf (pathState path8) 4 = some 0 ∧ routeOf (pathState path8) 5 = none ∧ 4 ≠ (pathState path8).ownId ∧
    5 ≠ (pathState path8).ownId := by decide

/-- Queue pair 0 in RTS for slice 0 with a ring of one slot at 0x40000. -/
def qpState (head : Nat) : State :=
  { withObjs ([(Obj.qpState 0, 1), (Obj.qpEnable 0, 1), (Obj.qpSlots 0, 1), (Obj.qpRqTail 0, 1), (Obj.qpRqHead 0, head), (Obj.qpRqBase 0, 0x40000), (Obj.qpSlice 0, 0), (Obj.qpKey 0, 5)] ++ exports) with
    net := { qps := [{ no := 0, rxPsn := 8 }] } }
def send (psn : Nat) : RocePacket := { qp := 0, opcode := 4, psn := psn, payload := [1] }
theorem test_roce_hypotheses : (qpState 1).getObj (Obj.qpState 0) = 1 ∧ (qpState 1).getObj (Obj.qpEnable 0) = 1 ∧ ((qpState 1).qp 0).rxPsn = 8 ∧
    2 ^ 23 ≤ (7 + 2 ^ 24 - 8) % 2 ^ 24 ∧
    (9 + 2 ^ 24 - 8) % 2 ^ 24 = 1 ∧ msgSlots 1 = 1 ∧ ((qpState 1).getObj (Obj.qpRqTail 0) + 2 ^ 32 - (qpState 1).getObj (Obj.qpRqHead 0)) % 2 ^ 32 + 1 ≤ (qpState 1).getObj (Obj.qpSlots 0) ∧
    (qpState 1).getObj (Obj.qpSlots 0) < ((qpState 0).getObj (Obj.qpRqTail 0) + 2 ^ 32 - (qpState 0).getObj (Obj.qpRqHead 0)) % 2 ^ 32 + 1 ∧
    (∃ t, putSlots (qpState 1) 0 [1] true 1 0 = .ok t) := ⟨by decide, by decide, rfl, by decide, by decide, by decide, by decide, by decide, _, rfl⟩
/-- The slice of the queue pair is ACTIVE; another is not. -/
theorem test_roce_active : (qpState 1).getObj (Obj.sState ((qpState 1).getObj (Obj.qpSlice 0))) = 1 ∧ (qpState 1).getObj (Obj.sState 1) ≠ 1 := by decide
theorem test_roce_first_packet : ((qpState 1).qp 1).rxPsn = 2 ^ 24 := rfl
/-- An RKEY of another queue pair's key is not admitted. -/
theorem test_rdma_hypotheses : rdmaAddr (qpState 1) 0 0x600 0 = none ∧ (rdmaAddr (qpState 1) 0 0x500 0).isSome = true := by decide
theorem test_rdma_served : (∃ t, serveWrite (withObjs ((Obj.wRights 0, 7) :: exports)) 3 (3 * 2 ^ 46) [1] true .host = .done t ()) ∧
    (∃ t, serveWrite (withObjs exports) 3 (3 * 2 ^ 46) [1] true .host = .refused t) ∧
    (∃ t bs, serveRead (withObjs ((Obj.wRights 0, 7) :: exports)) 3 (3 * 2 ^ 46) 1 true = .done t bs) ∧
    ∃ t, serveRead (withObjs exports) 3 (3 * 2 ^ 46) 1 true = .refused t := ⟨⟨_, rfl⟩, ⟨_, rfl⟩, ⟨_, _, rfl⟩, ⟨_, rfl⟩⟩
theorem test_roce_answers : ({ qp := 0, opcode := 0x11, payload := [0] } : RocePacket).payload.headD 0 < 0x20 ∧
    (0x61 : Nat) ≤ (({ qp := 0, opcode := 0x11, payload := [0x61] } : RocePacket).payload.headD 0).toNat := by decide

/-! ### Coherence -/

/-- A line of slice 0 at home die 0, without an entry and with one that agents 1 and 2 share, one that agent 1 owns, and one awaited. -/
def line0 : LineKey := .dev 0x200
def dirState (ds : List DirEnt) : State := { withObjs [] with mem := { (withObjs []).mem with dirs := ds, extents := [{ base := 0, size := 0x100000, slice := 0, use := .page }] } }
def shared12 : DirEnt := { line := line0, owner := 0, state := .shared, holders := [1, 2] }
def owned1 : DirEnt := { line := line0, owner := 0, state := .owned 1 }
def awaits : DirEnt := { shared12 with awaited := [2], req := some { agent := 1, kind := 1 } }
theorem test_directory_hypotheses : lineOwner (dirState []) line0 = some 0 ∧ findDir (dirState []) line0 = none ∧ lineDie (dirState []) line0 = 0 ∧
    dirWays (dirState []) 0 0 ≠ 0 ∧
    (∃ u, dirRoom (dirState []) 0 line0 = .ok u) ∧ findDir (dirState [shared12]) line0 = some shared12 ∧ transient shared12 = false ∧
        shared12.holders.filter (· != 1) ≠ [] ∧
    transient awaits = true ∧ transient owned1 = false ∧ findDir (dirState [owned1]) line0 = some owned1 ∧
        ({ shared12 with holders := [1] } : DirEnt).holders.filter (· != 1) = [] :=
  ⟨rfl, rfl, by decide, by decide, ⟨_, rfl⟩, rfl, rfl, by decide, rfl, rfl, rfl, rfl⟩
/-- No request is held, the dies are joined or not, and a page's first write waits for its before-image or not. -/
def rdm1 : DirReq := { agent := 1, kind := 1, sectors := 255 }
def cutOff : State := { withObjs [(Obj.linksDead, 255)] with mem := (dirState []).mem }
def gated : State :=
  let s := banked { k := 0, seals := [4] }
  { s with od := [(Obj.regionBase 0 0, 0x40000), (Obj.regionSize 0 0, 0x10000)] ++ s.od, mem := (dirState []).mem, slices := [{ no := 0, transBase := 0x10000 }] }
theorem test_request_hypotheses : (dirState []).mem.heldReqs = [] ∧ requestRoads (dirState []) line0 rdm1 = true ∧ requestRoads cutOff line0 rdm1 = false ∧
    (∃ u, ownGate (dirState []) 0 (vasOf (dirState []) 0 line0) = .ok u ∧ findDir u line0 = none) ∧
    requestRoads gated line0 rdm1 = true ∧ ∃ u, ownGate gated 0 (vasOf gated 0 line0) = .error u :=
  ⟨rfl, by decide, by decide, ⟨_, rfl, rfl⟩, by decide, ⟨_, rfl⟩⟩
def forwarded1 : DirEnt := { owned1 with fwd := some 1, req := some { agent := 2, kind := 0 } }
theorem test_owner_hypotheses : findDir (dirState [forwarded1]) line0 = some forwarded1 ∧ forwarded1.fwd = some 1 ∧
    chipLine (dirState [forwarded1]) 1 line0 = none ∧
    agentWaits (dirState [forwarded1]) 1 line0 = false ∧ dirtyAt (dirState [owned1]) 1 line0 = false ∧ owned1.fwd = none ∧
        findDir (dirState [{ owned1 with state := .writeback 1 }]) line0 = some { owned1 with state := .writeback 1 } := ⟨rfl, rfl, rfl, rfl, rfl, rfl, rfl⟩
/-- For die 3 the home and die 2 are as near, and the lower number supplies the line (R192); a chiplet port is nearer to agent 5 than the home. -/
def chipShared : DirEnt := { line := line0, owner := 0, state := .shared, holders := [4] }
def held4 : HeldLine := { addr := 0x40000, line := line0, slice := 0, window := 0, at_ := 0, owned := false }
def sharedByChip : State := { dirState [chipShared] with chips := [{ no := 0, held := [held4] }] }
theorem test_supplier_hypotheses : nearest (dirState [shared12]) line0 3 [0] = some 0 ∧ nearest sharedByChip line0 5 [0] = some 4 ∧
    chipLine sharedByChip 4 line0 = some held4 :=
  ⟨by decide, by decide, rfl⟩
def missing : State := { withObjs [] with mem := { miss := [{ u := .l1 0, line := line0, slice := 0, requested := 1, invalidated := true }], retrain := [7] } }
theorem test_miss_hypotheses : missing.mem.miss.find? (fun x => x.u == .l1 0 && x.line == line0) = some { u := .l1 0, line := line0, slice := 0, requested := 1, invalidated := true } ∧
    missOf missing (.l1 0) line0 ≠ none ∧ missOf missing (homeUnit missing line0) line0 = none ∧ 7 ∈ missing.mem.retrain ∧
        bitN (missing.getObj Obj.linksDead) 7 = false ∧ 3 ≤ missing.getObj Obj.moduleState := ⟨rfl, by decide, by decide, by decide, by decide, by decide⟩

/-! ### Errors, slices, objects and the dictionary -/

theorem test_core_hang_hypotheses : workOn (run grp) 0 ≠ [] ∧ ((run grp).core 0).hung = false ∧ ((run grp).core 0).dead = false ∧
    ({ withObjs [(spareKey 0, 13)] with launches := [] } : State).getObj (spareKey (0 / 13)) ≠ 0xFF ∧ (withObjs [(spareKey 0, 13)]).cores = [] :=
  ⟨by decide, rfl, rfl, by decide, rfl⟩
/-- A row that nothing holds; stack 11, channel 31, in use and mapped out; a line that exists; a channel that is being mapped out. -/
def errState : State :=
  { withObjs [(Obj.chState 11 31, 2), (Obj.chState 11 30, 0), (Obj.failLimit, 64), (Obj.cxlLinkUp 7, 1)] with mem := { (withObjs []).mem with mapping := [(0, 0)] } }
theorem test_error_hypotheses : errState.getObj (Obj.chState 11 31) = 2 ∧ errState.getObj (Obj.chState 11 30) ≠ 2 ∧ errState.mem.errSecond = [] ∧
    1 < errState.getObj Obj.failLimit ∧
    paExists errState (0x200 * 512) = true ∧ errState.getObj (Obj.cxlLinkUp 7) = 1 ∧
        (0, 0) ∈ errState.mem.mapping ∧ lineFrozen errState 0x200 = false ∧
    bankedSets (countUncorrected (poisonLine errState 0x200) (0x200 * 512)) (0x200 * 512) = [] :=
  ⟨by decide, by decide, rfl, by decide, by decide, by decide, by decide, by decide, rfl⟩
/-- No address of the DDR tier is the line's: it is one of stacked memory. -/
theorem test_patrol_hypotheses : ∀ pa, ddrTop errState ≤ pa → pa < ddrBase + 2 ^ 40 → pa ≠ 0x200 * 512 := by
  intro pa h; have : ddrTop errState ≥ 0x10000000000 := by decide
  omega
/-- The drain of channel 0 of stack 0 ends with a hole that takes it, and the die's count of map-outs stays below four. -/
theorem test_hole_hypotheses :
    (let u := endDrain { errState with mem := { errState.mem with mapping := [] } } (Obj.chDrained 0 0)
     (emptyHole u 0).isSome = true ∧ u.getObj (Obj.mapouts 0) = 0) := by decide
/-- No die has a page left for the hole, and the manager holds the channel's freeze or does not. -/
def fullState : State := { errState with mem := { errState.mem with extents := (List.range 4).map fun d => { slice := 0, use := .page, base := d * dieWindow, size := dieWindow } } }
theorem test_no_hole_hypotheses :
    emptyHole (endDrain { fullState with mem := { fullState.mem with mapping := [] } } (Obj.chDrained 0 0)) 0 = none ∧
    (0, 0) ∈ fullState.mem.mapping ∧ (0, 0) ∉ fullState.mem.heldFreeze ∧
    (0, 0) ∈ ({ fullState with mem := { fullState.mem with heldFreeze := [(0, 0)] } } : State).mem.heldFreeze :=
  ⟨by decide, by decide, by decide, by decide⟩
def replacing : State := { withObjs ((List.range 64).map fun n => (Obj.sRows n, 0)) with cores := [{ no := 623, dead := true, replacing := true }] }
theorem test_replace_hypotheses : replacing.cores.find? (fun c => c.replacing && c.no / 13 == 12 * 3 + 11) = some { no := 623, dead := true, replacing := true } := rfl

/-- Slice 3 (of the manager, and of its own credential) in each state, with nothing waiting, one operation in progress and eight waiting. -/
def sop (n : Nat) : SopReq := { slice := n, count := 1, limitUs := 10000000 }
def sliceState (st : Nat) (x : Slice) : State := { withObjs [(Obj.sState 3, st)] with slices := [x] }
theorem test_slice_hypotheses : credOk (sliceState 0 { no := 3 }) .manager = true ∧ credOk (sliceState 1 { no := 3 }) (.slice 3) = true ∧
    ((sliceState 0 { no := 3 }).slice 3).current = none ∧
    ((sliceState 0 { no := 3 }).slice 3).waits = [] ∧ (sliceState 3 { no := 3 }).getObj (Obj.sState 3) = 3 ∧ (sop 3).limitUs ≤ 10000000 ∧
        (sop 3).psize < 3 ∧ (sop 3).tier < 3 ∧ (sop 3).die < 4 ∧ (sliceState 1 { no := 3 }).stores = [] := by
  refine ⟨rfl, by decide, rfl, rfl, by decide, by decide, by decide, by decide, by decide, rfl⟩
theorem test_slice_waits_hypotheses :
    let w : SopWait := { byManager := true, op := 1, req := sop 3 }
    ((sliceState 1 { no := 3, current := some w }).slice 3).current ≠ none ∧
        ((sliceState 1 { no := 3, current := some w, waits := List.replicate 7 w }).slice 3).waits.length < 8 ∧
    8 ≤ ((sliceState 1 { no := 3, current := some w, waits := List.replicate 8 w }).slice 3).waits.length := by decide
/-- QUIESCE of an ACTIVE slice goes on until it is quiet. -/
theorem test_quiesce : (at_ (exec (.quiesceSlice .manager (sop 3)) (sliceState 1 { no := 3 }))).getObj (Obj.sState 3) = 2 := by decide
theorem test_limit_hypotheses : ((sliceState 2 { no := 3, limitAt := some 0 }).slice 3).limitAt = some 0 ∧
    (0 : Nat) ≤ (sliceState 2 { no := 3, limitAt := some 0 }).now := ⟨rfl, by decide⟩
def scrubHeld : Held :=
  { slice := 63, world := 1, rows := 0, cache := [], scratch := [], stacked := 0, ddr := 0, cxl := 0, chans := 0, share := 0, mapBase := 0, mapEntries := 0, areas := 0 }
theorem test_scrub_hypotheses : (withObjs [(Obj.scrubPending 63, 1)]).getObj (Obj.scrubPending 63) = 1 ∧
    secureScrub { withObjs [(Obj.scrubPending 63, 1)] with scrubs := [scrubHeld] } 63 = true := by decide
/-- Memory that is scrubbed, with a channel of it frozen, and a line with none. -/
def scrubState (frozen size : Nat) : State :=
  let s := withObjs [(Obj.scrubPending 63, 1), (Obj.chFreeze 0 0, frozen), (Obj.chState 0 0, 0)]
  { s with mem := { s.mem with extents := [{ base := 0, size := size, slice := 63, use := .scrub }] } }
theorem test_scrub_frozen_hypotheses : rangeFrozen (scrubState 1 65536) 0 65536 = true ∧ rangeFrozen (scrubState 0 512) 0 512 = false := by decide +kernel
/-- Of slice 3 nothing runs: QUIET is reached; a CREATE finds no granted row or channel it could not take; a MAP has no quota, and another
slice's spare page waits or not; UNMAP and PROTECT find no page. -/
theorem test_slice_clauses_hypotheses :
    let s := sliceState 2 { no := 3 }
    let spare : Extent := { base := 0, size := 65536, slice := 4, use := .spare }
    isQuiet s 3 = true ∧ s.mem.extents.any (otherSpare 3) = false ∧ otherSpare 3 spare = true ∧
      (∃ t, (performOp s 3 { byManager := true, op := 0x13, req := sop 3 }) = (t, some (stRefused, 0)) ∧ (t.slice 3).waits = []) ∧
      mapPage 3 { sop 3 with va := 1 } 1 s = none := by
  refine ⟨by decide, by decide, by decide, ⟨_, rfl, by decide⟩, rfl⟩

/-- A write of DOORBELL of channel 255, which slice 0 owns, by its credential; one by another credential; one of a value out of range. -/
def objState : State := withObjs ((Obj.chSlice 255, 0) :: (Obj.odAuthFails, 0) :: chObjs)
theorem test_object_write_hypotheses : credOk objState (.slice 0) = true ∧ checkWrite objState (.slice 0) (Obj.doorbell 255) 4 (toLe 4 7) false = .ok 7 ∧
    refusedFor objState (Obj.doorbell 255) 7 = none ∧ (checkWrite objState (.slice 0) (Obj.chEnable 255) 1 (toLe 1 2) false).toBool = false ∧
        credOk objState (.slice 9) = false := by
  refine ⟨by decide, by decide, by decide, by decide, by decide⟩
theorem test_doorbell : ((at_ (exec (.doorbell (.slice 0) 255 7) objState)).chan 255).tail = 7 := by decide
theorem test_alert_hypotheses : credOk objState .manager = true ∧ checkWrite (noteEnded objState 0x40) .manager Obj.alertCause 3 (toLe 2 1) false = .ok 1 := by decide
/-- R396: a counter does not go back, and not beyond the image's version. -/
theorem test_arb_hypotheses : arbOk (withObjs [(Obj.securityVersion 3, 5), (Obj.arbCounter 3, 4)]) 3 5 = true ∧
    arbOk (withObjs [(Obj.securityVersion 3, 5), (Obj.arbCounter 3, 4)]) 3 3 = false ∧
    arbOk (withObjs [(Obj.securityVersion 3, 5), (Obj.arbCounter 3, 4)]) 3 6 = false := by decide
/-- R483: the first MGR_KEY comes unsigned over the management port only. -/
theorem test_mgr_key_hypotheses : mgrKeyOk (withObjs [(Obj.mgrKey, 0)]) .none true = true ∧ mgrKeyOk (withObjs [(Obj.mgrKey, 0)]) .none false = false ∧
    (4 :: List.replicate 96 (1 : Byte)).length = 97 ∧ leNat (4 :: List.replicate 96 (1 : Byte)) % 256 = 4 := by decide
theorem test_recovery_hypotheses :
    let s : State := { withObjs [(Obj.startFail, 1), (Obj.arbCounter 0, 2)] with boot := { refusedStage := 2 } }
    (recoverImage { stage := 2, secVersion := 2, sigOk := true } s).isSome = true ∧
        recoverImage { stage := 2, secVersion := 1, sigOk := true } s = none := by decide

/-- An unauthenticated read over the management port of object 0x1000 subindex 1, and frames that are malformed or of another version. -/
def readFrame : OdFrame := { inBand := false, op := 1, bodyLen := 8, body := [0, 0x10, 1, 0, 0, 0, 0, 0] }
def dictState : State := { withObjs [(Obj.odFrames, 0), (Obj.odRefused, 0), (Obj.bootEpoch, 6), (Obj.odSliceKey 0, 77), (Obj.mgmtLink, 1)] with boot := { m3 := true } }
def arrived : State := (odArrives dictState readFrame).1
theorem test_frame_read_hypotheses : odServed dictState readFrame = true ∧ (firmwareHeld dictState).length < 256 ∧
    odArrives dictState readFrame = (arrived, true) ∧ reservedHeader readFrame = false ∧
    Sys2Proof.Machine.wellFormed readFrame = true ∧ credOf readFrame = .none ∧ authOk arrived readFrame = true ∧
    (readFrame.body.drop 3).any (· != 0) = false ∧ (∃ v, readEntry (noteRevocations arrived [entryKey readFrame.body]) .none (entryKey readFrame.body) = .ok v) :=
  ⟨by decide, by decide, rfl, by decide, by decide, by decide, by decide, by decide, _, rfl⟩
theorem test_frame_refusal_hypotheses : Sys2Proof.Machine.wellFormed { readFrame with ver := 2 } = false ∧
    odServed { dictState with boot := {} } readFrame = false ∧
    odServed { dictState with inForce := [(Obj.mgmtUdpPort, 9)] } readFrame = false ∧
    odServed { dictState with od := (Obj.mgmtLink, 0) :: dictState.od } readFrame = false ∧
    authOk arrived { readFrame with auth := [1] } = false := by decide
/-- In band: a doorbell of slice 0 in its turn, one that comes again, one beyond a gap; the firmware queue that may be full. -/
def bandState (path : PathCtx) : State := { dictState with od := (Obj.moduleState, 5) :: dictState.od, net := { paths := [path], ports := [{ q := 0, up := true }] } }
def bandFrame (n : Nat) : OdFrame := { readFrame with inBand := true, tr := { addr := BitVec.ofNat 64 (2 ^ 45), src := 9, psn := n, len := 48 }, op := 2, cred := 1, bodyLen := 16, body := toLe 2 (Obj.doorbell 0 / 256) ++ toLe 1 (Obj.doorbell 0 % 256) ++ [4, 0, 0, 4, 0, 7, 0, 0, 0, 0, 0, 0, 0] }
theorem test_band_hypotheses :
    let p : PathCtx := { no := 0, dst := 9, expect := 5 }
    let g (n : Nat) : TFrame := { (bandFrame n).tr with payload := odBytes (bandFrame n) }
    odServed (bandState p) (bandFrame 5) = true ∧ byHardware (bandFrame 5) = true ∧ byHardware { bandFrame 5 with cred := 2 } = false ∧
      (odArrives (bandState p) (bandFrame 5)).2 = true ∧
      ((bandState p).port 0).up = true ∧ forTransport (bandState p) (g 5) = true ∧
      goodFrame { g 5 with len := 1 } = false ∧ goodFrame (g 5) = true ∧ (linkCheck (bandState p) 0 (g 5)).2 = true ∧
      (∃ u, peerPath (bandState p) (g 5).src = some (u, p)) ∧ 2 ^ 31 ≤ psnAhead (g 4).psn p.expect ∧ psnAhead (g 6).psn p.expect = 1 ∧
      (g 5).psn = p.expect ∧ p.held = [] ∧ p.nakked = false := by
  refine ⟨by decide, by decide, by decide, by decide, by decide, by decide, by decide, by decide, by decide, ⟨_, rfl⟩, by decide, by decide, rfl, rfl, rfl⟩
/-- A request performed in its turn leaves its path with it. -/
theorem test_turn_hypotheses :
    let f : OdFrame := { bandFrame 5 with ver := 2 }
    let g : TFrame := { f.tr with payload := odBytes f }
    let x : Sent := { ty := 7, f := g, od := some (0, f, noImage) }
    let p : PathCtx := { no := 0, dst := 9, expect := 5, held := [x] }
    Sys2Proof.Machine.wellFormed f = false ∧ ∃ p', (odPerform (bandState p) (0, f, noImage)).path? 0 = some p' ∧ p'.held = [x] := by
  refine ⟨by decide, _, rfl, rfl⟩
/-- In band a response leaves as a TYPE 7 frame on its path. -/
theorem test_answer_hypotheses : ∃ t, sendFrame (bandState { no := 0, dst := 9 }) 9 7 { payload := [1] } .device = some t := ⟨_, rfl⟩
def busyState : State := { dictState with odp := { firmware := List.replicate 256 0 } }
theorem test_firmware_hypotheses : odServed busyState readFrame = true ∧ 256 ≤ (firmwareHeld busyState).length := by decide
/-- A frame of slice 0 with its tag, of this boot's epoch and of another, its counter new and used up. -/
def slicePart : OdFrame := { readFrame with cred := 1, epoch := 6, counter := 9 }
def sliceFrame : OdFrame := { slicePart with auth := (hmac384 (sliceKey arrived 0) (signedPart slicePart)).take 32 }
theorem test_frame_auth_hypotheses : authOk arrived sliceFrame = true ∧ credOf sliceFrame ≠ .none ∧
    sliceFrame.epoch = arrived.getObj Obj.bootEpoch := by
  refine ⟨?_, by decide, by decide⟩
  have h1 : arrived.getObj (Obj.sState 0) = 1 := by decide
  have h2 : arrived.getObj (Obj.odSliceKey 0) = 77 := by decide
  have h3 : credOf sliceFrame = .slice 0 := by decide
  have h4 : signedPart sliceFrame = signedPart slicePart := rfl
  have h5 : sliceFrame.auth = (hmac384 (sliceKey arrived 0) (signedPart slicePart)).take 32 := rfl
  unfold authOk
  rw [h3]
  simp [h1, h2, h4, h5]
theorem test_counter_hypotheses : counterOk { cred := .slice 0, high := 9, seen := [9] } 9 = false ∧
    counterOk { cred := .slice 0, high := 9, seen := [9] } 10 = true ∧
    counterOk { cred := .slice 0, high := 73, seen := [73] } 10 = true ∧ counterOk { cred := .slice 0, high := 74, seen := [74] } 10 = false := by decide
def protoOdp : OdProto :=
  { snaps := [{ cred := .manager, key := 256, data := [] }]
    bufs := [{ cred := .manager, key := 256 }]
    subs := [{ no := 1, cred := .none, key := Obj.uptime, periodic := true, periodMs := 10, inBand := false, dst := 0 }] }
def protoState : State := { withObjs [(Obj.uptime, 20000000000), (Obj.mgmtLink, 1)] with odp := protoOdp }
/-- R493: the stored counters go to flash at most once in 60 s. -/
theorem test_flush_hypotheses : let s := { dictState with odp := { flushedAt := some 5 } }
    (1 ≤ dictState.getObj Obj.moduleState ∧ dictState.odp.flushedAt = none) ∧ upNow { s with od := (Obj.uptime, 60000000004) :: s.od } < 5 + 60000000000 ∧
      5 + 60000000000 ≤ upNow { s with od := (Obj.uptime, 60000000005) :: s.od } := by decide
theorem test_expiry_hypotheses : (∃ x ∈ protoState.odp.snaps, x.cred = .manager ∧ x.key = 256 ∧ x.read + bulkIdleNs ≤ upNow protoState) ∧
    (∃ x ∈ protoState.odp.bufs, x.cred = .manager ∧ x.wrote + bulkIdleNs ≤ upNow protoState) ∧
    (∃ x, protoState.odp.subs.find? (fun x => x.no == 1) = some x ∧ x.sentAt + notifyGap x ≤ upNow protoState ∧ x.periodic = true) ∧
    (objRow? Obj.uptime).isSome = true ∧ protoState.getObj Obj.mgmtLink ≠ 0 ∧ (withObjs [(Obj.mgmtLink, 0)]).getObj Obj.mgmtLink = 0 := by decide

/-! ### Chiplet ports, power and start-up -/

/-- Port 0 admitted with window 0 on slice 0's memory at 0x40000, all rights, no metering. -/
def chipObjs : List (Nat × Nat) :=
  [(Obj.cpState 0, 2), (Obj.ssEnable 0, 1), (Obj.ssSlice 0, 0), (Obj.ssBase 0, 0x40000), (Obj.ssSize 0, 4096), (Obj.ssRights 0, 15), (Obj.ssRate 0, 0)]
def chipState (x : Chiplet) : State := { withObjs chipObjs with chips := [x] }
def heldOwned : HeldLine := { addr := 0, line := line0, slice := 0, window := 0, at_ := 0x40000, owned := true }
def cpMsg : CpMsg := { addr := 0, sectors := 1, len := 4, byteMask := [true, true, true, true], data := [1, 2, 3, 4] }
theorem test_chip_hypotheses : (chipState { no := 0, coherent := true, atomics := true }).getObj (Obj.cpState 0) = 2 ∧
    (screen (chipState { no := 0 }) 0 cpMsg { rights := [0], len := maskLen 1, write := false, metered := 64 }).toBool = true ∧
    (screen (chipState { no := 0, coherent := true }) 0 cpMsg { rights := [0, 1], len := 512, write := true, coherent := true, metered := 512 }).toBool = true ∧
    (screen (chipState { no := 0 }) 0 cpMsg { rights := [1], len := 4, write := true, metered := 4 }).toBool = true ∧
    (screen (chipState { no := 0, atomics := true }) 0 cpMsg { rights := [2], len := 4, write := true, atomics := true, metered := 4 }).toBool = true ∧
    (screen (chipState { no := 0, coherent := true, held := [heldOwned] }) 0 cpMsg { rights := [1], len := 512, write := true, coherent := true, holds := true, metered := 64, gives := true }).toBool = true ∧
    (screen (chipState { no := 0, coherent := true, held := [heldOwned] }) 0 cpMsg { rights := [], len := 512, write := false, coherent := true, holds := true, metered := 0, gives := true }).toBool = true ∧
    takeTokens (chipState { no := 0 }) 0 0 64 ≠ none ∧ (writeOk (chipState { no := 0 }) 0 2 0x40000 (.port 0)).toBool = true ∧
    (roomToHold (chipState { no := 0, coherent := true }) 0 0 { slice := 0, space := 2, addr := 0x40000, key := devSect 0x40000 }).toBool = true ∧
    (reach (chipState { no := 0, coherent := true }) (devSect 0x40000) true (.port 0)).toBool = true ∧
    mayHold { (chipState { no := 0 }) with od := (Obj.ssRights 0, 7) :: (chipState { no := 0 }).od } 0 0 { slice := 0, space := 2, addr := 0x40000, key := devSect 0x40000 } = false ∧
    mayHold (chipState { no := 0, coherent := true }) 0 0 { slice := 0, space := 2, addr := 0x40000, key := devSect 0x40000 } = true := by
  refine ⟨by decide, by decide, by decide, by decide, by decide, by decide, by decide, by decide, by decide, by decide, by decide, by decide, by decide⟩
/-- A read past the window's end is a violation of kind 1. -/
theorem test_chip_violation_hypotheses : screen (chipState { no := 0 }) 0 { cpMsg with addr := 4096 } { rights := [0], len := maskLen 1, write := false, metered := 64 } = .error (some 1) ∧
    aligned 4096 512 = true := ⟨rfl, by decide⟩
theorem test_chip_read_hypotheses :
    let t : Target := { slice := 0, space := 2, addr := 0x40000, key := devSect 0x40000 }
    (∃ u bs, readSectors 0 false t [0] (chipState { no := 0 }) = .ok (u, bs)) ∧
    (∃ u bs, readSectors 0 true t [0] (chipState { no := 0, coherent := true }) = .ok (u, bs)) ∧
    chipSupplies (chipState { no := 0, coherent := true }) 0 t.key.line [0] = none := ⟨⟨_, _, rfl⟩, ⟨_, _, rfl⟩, rfl⟩
/-- Chiplet port 0 shares the line and is nearer to agent 5 than the home: it supplies the read of port 1. -/
theorem test_chip_supply_hypotheses :
    let s := { sharedByChip with od := [(Obj.cpState 1, 2), (Obj.ssEnable 32, 1), (Obj.ssSlice 32, 0), (Obj.ssBase 32, 0x40000), (Obj.ssSize 32, 4096), (Obj.ssRights 32, 15), (Obj.ssRate 32, 0)] ++ sharedByChip.od, chips := { no := 1, coherent := true } :: sharedByChip.chips }
    let t : Target := { slice := 0, space := 2, addr := 0x40000, key := devSect 0x40000 }
    screen s 1 cpMsg { rights := [0], len := 64, write := false, metered := 64 } = .ok t ∧ ((s.chip 1).coherent && mayHold s 1 0 t) = true ∧
      ∃ u, chipSupplies s 1 t.key.line [0] = some u := ⟨rfl, by decide, _, rfl⟩
theorem test_chip_write : cellsGet (at_ (exec (.cpWr 0 cpMsg) (chipState { no := 0 }))).mem.bytes 0x40000 5 = [1, 2, 3, 4, 0] := by decide
theorem test_snoop_hypotheses :
    let s := chipState { no := 0, coherent := true, held := [heldOwned], snoops := [(0, true)] }
    (s.chip 0).snoops.find? (fun q => q.1 == cpMsg.addr) = some (0, true) ∧ (s.chip 0).held.find? (fun h => h.addr == cpMsg.addr) = some heldOwned ∧
        cpMsg.late = false ∧
      ((chipState { no := 0 }).chip 0).snoops.find? (fun q => q.1 == cpMsg.addr) = none ∧ (0, true) ∈ (s.chip 0).snoops ∧
      lineAt (chipState { no := 0, coherent := true, snoops := [(0, true)] }) 0 cpMsg.addr = some line0 := ⟨rfl, rfl, rfl, rfl, by decide, rfl⟩
theorem test_snoop_data_hypotheses : ∃ u, answerData (chipState { no := 0, coherent := true, held := [heldOwned], snoops := [(0, true)] }) heldOwned (sectorRuns 1 (List.replicate 64 0)) = .ok u := ⟨_, rfl⟩
/-- A capability word of version 1, one module at 16 GT/s; a word of version 2. -/
theorem test_negotiation_hypotheses : dieWordOk 1 = true ∧ modulesOf 1 1 = 1 ∧ modulesOf 4 1 = 1 ∧ dieWordOk 2 = false ∧ modulesOf 0 1 = 0 := by decide

/-- A change of point that no limit broke; the module in READY_LOCAL, OFF and STANDBY. -/
theorem test_power_hypotheses :
    let s : State := { withObjs [(Obj.pointHeld, 3)] with power := { change := some { target := 2 }, stretched := [(3, 11)] } }
    3 ≤ s.getObj Obj.moduleState ∧ s.power.change = some { target := 2 } ∧ (2 : Nat) ≠ s.getObj Obj.pointHeld ∧ s.power.steadyBroken = false ∧
        (3, 11) ∈ s.power.stretched := by
  refine ⟨by decide, rfl, by decide, rfl, by decide⟩
def elecState (e : Elec) : State := { withObjs [(Obj.enableIn, 1), (Obj.leakAction, 1), (Obj.mgmtLink, 0), (Obj.coolTachMin, 50), (Obj.coolingClass, 0), (Obj.senseOpen, 0)] with elec := e }
theorem test_electrical_hypotheses : (elecState {}).elec.present = true ∧ (elecState {}).elec.inrushDue = true ∧
    (elecState {}).elec.switchClosed = false ∧ (elecState {}).elec.overVolt = false ∧
    aux12On (elecState {}) = true ∧ aux12May (elecState {}) = true ∧ (elecState {}).elec.ocWait = false ∧ (elecState {}).elec.inputOn = true ∧
        (elecState { switchClosed := true, charged := true }).elec.charged = true ∧ (elecState {}).getObj Obj.enableIn = 1 ∧
    (elecState {}).getObj Obj.leakAction = 1 ∧ (elecState {}).getObj Obj.mgmtLink = 0 ∧ 49 < (elecState {}).getObj Obj.coolTachMin ∧
        plateLimit (classNow (elecState {})) < 60001 ∧
    (elecState { ocWait := true }).elec.ocWait = true ∧ (elecState { overVolt := true }).elec.overVolt = true ∧
        (elecState { present := false }).elec.present = false := by
  refine ⟨rfl, rfl, rfl, rfl, by decide, by decide, rfl, rfl, rfl, by decide, by decide, by decide, by decide, by decide, rfl, rfl, rfl⟩
/-- Table 15.2: readings 2,000 mV apart agree; more than 2 V apart, the terminal measurement counts. -/
theorem test_vsense_boundary : (at_ (exec (.vsenseCheck 52000 50000) (elecState {}))).getObj Obj.inputVoltage = 52000 ∧
    (at_ (exec (.vsenseCheck 52001 50000) (elecState {}))).getObj Obj.inputVoltage = 50000 := by decide
theorem test_domain_hypotheses : State.reset.boot.ran = false ∧ (withObjs [(Obj.moduleState, 0)]).getObj Obj.moduleState = 0 := by decide
/-- Copies whose signatures verify, and that do not. -/
theorem test_copy_hypotheses : copyOf State.reset 2 0 0 = none ∧ copyOf State.reset 2 3 0 = some 0 ∧ copyOf State.reset 3 0 0 = none ∧
    copyOf State.reset 3 3 0 ≠ none ∧ copyOk State.reset 2 3 0 = true ∧ copyOk State.reset 2 0 0 = false ∧ copyOk State.reset 2 0 1 = false ∧
    (0 : BitVec 2).getLsbD 1 = false ∧ copyVersion { State.reset with boot := { images := [(2, 5)] } } 2 0 = 5 :=
  ⟨rfl, rfl, rfl, by decide, rfl, rfl, rfl, rfl, rfl⟩
def standby : State := { State.reset with od := [(Obj.moduleState, 1)], boot := { ran := true, m3 := true, powerGood := true, mayStart := true } }
theorem test_boot_hypotheses : standby.getObj Obj.moduleState = 1 ∧ standby.boot.powerGood = true ∧ standby.boot.m3 = true ∧
    standby.boot.mayStart = true ∧ copyOf (beginBoot standby) 4 3 (letter (beginBoot standby)) ≠ none ∧
    copyOf (beginBoot standby) 5 3 (letter (beginBoot standby)) ≠ none ∧ (∀ r, r < 48 → 13 ≤ goodSites (beginBoot { standby with od := standby.od ++ (List.range 48).map fun r => (deadKey r, 0) }) r) := by
  refine ⟨by decide, by decide, by decide, by decide, by decide, by decide, by decide⟩
/-- Rails that do not come up: STANDBY with START_FAIL 4. -/
theorem test_boot_rails : (at_ (exec (.boot { railsOk := false }) standby)).getObj Obj.startFail = 4 ∧
    (at_ (exec (.boot { railsOk := false }) standby)).getObj Obj.moduleState = 1 := by decide
def trained : State := { withObjs [(Obj.moduleState, 3)] with net := {} }
theorem test_train_hypotheses : trained.getObj Obj.moduleState = 3 ∧ takesPart trained = true ∧ trained.net.ports = [] ∧ (8800 : Nat) ∈ [0, 6400, 8800] ∧
    4 ≤ (withObjs []).getObj Obj.moduleState ∧ ZeroTarget.stacked ∉ (withObjs []).mem.zeroed := ⟨by decide, by decide, rfl, by decide, by decide, by decide⟩
theorem test_idle_hypotheses : idle.pending = [] ∧ idle.net.slew = 0 ∧ idle.getObj Obj.uptime + 1 < 2 ^ 64 ∧ idle.getObj Obj.deviceTime + 1 < 2 ^ 64 ∧
    idle.stores = [] ∧ idle.mem.draining = [] ∧ idle.chans = [] ∧ idle.slices = [] := by decide
theorem test_idle_counts : (at_ (step idle)).now = 8 ∧ (at_ (step idle)).getObj Obj.uptime = 1 := by decide
theorem test_canonical_hypotheses : Canonical State.reset ∧ ∃ t, step State.reset = .next t := ⟨⟨by decide, by decide⟩, _, rfl⟩

/-! ### WellFormed.lean: a term that each check refuses -/

def badCmd : CmdRef := { ch := 256, seq := 0 }
def badFrame : DraftFrame := { seq := 0, origin := 2 ^ 18 }
def badT : TFrame := { path := 2 ^ 16 }
def okT : TFrame := {}
/-- Every program instruction refuses a word of another row and a group beyond 31. -/
theorem test_wf_words : (registerOnly ++ [Instr.ld, Instr.st, Instr.stCvtBf16, Instr.stCvtF16, Instr.stCvtE4m3, Instr.stCvtE5m2, Instr.atomAdd,
    Instr.atomFadd, Instr.atomMinS,
    Instr.atomMaxS, Instr.atomMinU, Instr.atomMaxU, Instr.atomAnd, Instr.atomOr, Instr.atomXor, Instr.atomExch, Instr.atomCas, Instr.lockAcq, Instr.lockRel, Instr.fence,
    Instr.discard, Instr.pinLlc, Instr.unpinLlc, Instr.pfDev, Instr.br, Instr.brP] ++ [Instr.call, Instr.ret, Instr.jmpS, Instr.exitLanes,
        Instr.pause, Instr.barGang,
    Instr.stkStart, Instr.stkTake, Instr.stkTakeAt, Instr.stkGive, Instr.stkStop, Instr.stkWait, Instr.gmma, Instr.accZero, Instr.accLd, Instr.accSt]).all
    (fun f => !(Sys2Proof.wellFormed (f g0 0xFF)) && !(Sys2Proof.wellFormed (f { ctx := 0, gang := 0, group := 32 } 0xFF))) = true := by decide
theorem test_wf_numbers : ([.illegalInstruction { ctx := 2 ^ 24, gang := 0, group := 0 } 0, .pauseExpiry { ctx := 0, gang := 2 ^ 32, group := 0 },
    .stokerSlotFilled 0 0 16,
    .stokerSlotStored (2 ^ 24) 0 0, .matrixQueueExecute 624, .faultReport (2 ^ 24), .launchKill (2 ^ 24), .watchdogNoRetire (2 ^ 24), .watchdogLimit (2 ^ 24), .coreHang 624,
    .rowSelfTest 4 0 0, .rowSelfTest 0 12 0, .launchComplete (2 ^ 24), .waitReevaluate 256, .collectiveStepStart 64, .collectiveWaitExpiry 64, .commandFetch 256, .saveComplete (2 ^ 24),
    .restoreComplete (2 ^ 24), .voteClose 8, .parityUpdateComplete 8, .draftNakRetry 64, .neighbourLoss 64] : List Instr).all (fun i => !(Sys2Proof.wellFormed i)) = true := by decide
theorem test_wf_commands : ([Instr.launchCmd, Instr.copyCmd, Instr.fillCmd, Instr.inlineWrite, Instr.waitCmd, Instr.signalCmd, Instr.fenceCmd,
    Instr.bankCmd, Instr.measuredLoad, Instr.mixCmd,
    Instr.reservedCommand, Instr.donate, Instr.reclaim, Instr.alloc, Instr.refEntry, Instr.freeEntry, Instr.queryEntry, Instr.setEntry, Instr.layoutCmd, Instr.encode, Instr.decode,
    Instr.migrate, Instr.contextBlockTransaction, Instr.allReduce, Instr.reduceCmd, Instr.broadcastCmd, Instr.reduceScatter, Instr.allGather, Instr.allToAll, Instr.barrierCmd,
    Instr.overrunStop]).all (fun f => !(Sys2Proof.wellFormed (f badCmd))) = true := by decide
theorem test_wf_draft : ([Instr.hello, Instr.elect, Instr.assign, Instr.align, Instr.vote, Instr.outcome, Instr.barrierUp, Instr.barrierDown,
    Instr.periodFrame, Instr.rollback,
    Instr.lostFrame, Instr.draftNak]).all (fun f => !(Sys2Proof.wellFormed (f 0 badFrame)) && !(Sys2Proof.wellFormed (f 0 { frame 0 with ether := 2 ^ 16 })) && !(Sys2Proof.wellFormed (f 64 (frame 0)))) = true := by decide
theorem test_wf_transport : ([Instr.writeFrame, Instr.readReq, Instr.readResp, Instr.ackFrame, Instr.nakFrame, Instr.signalFrame, Instr.collFrame,
    Instr.linkAck, Instr.linkNak]).all
    (fun f => !(Sys2Proof.wellFormed (f 0 badT)) && !(Sys2Proof.wellFormed (f 64 okT))) = true ∧
    ([.linkAckTimer 64, .frameForward 0 (2 ^ 18) 0 okT, .frameForward 0 0 16 okT, .ackTimer 16384, .retransmitTimeout 16384,
        .transportTimeout 16384, .eceRecovery 16384, .pathContextFree 16384,
      .wcIdleSend 624 0, .portDown 64, .portUp 64, .routeRecompute [{ dst := 0, port := 64, hops := 0, nextHop := 0, direct := true }], .neighbourDiscoveryMessage 64 0 0, .pfcFrame 64 true,
      .transportReservedType 9, .transportReservedType 16, .cnp 1024] : List Instr).all (fun i => !(Sys2Proof.wellFormed i)) = true ∧
    ([Instr.roceSend, Instr.rdmaWrite, Instr.rdmaRead, Instr.roceAcknowledge,
        Instr.roceUnsupportedOpcode]).all (fun f => !(Sys2Proof.wellFormed (f { qp := 1024, opcode := 0 }))) = true := by decide
theorem test_wf_memory : ([.rds 6 line0 0, .rdm 0 (.dev (2 ^ 39)), .upg 0 (.shr 64 0), .wbk 6 line0 0, .dropLine 6 line0, .forwardLine 6 line0,
    .invalidation (.agent 6) line0,
    .invalidation (.core 624) line0, .fillDataArrival (.l1 624) line0, .fillDataArrival (.llc 4 0) line0, .writebackLands (.shr 64 0), .dieLinkRetrain 8 0, .dieLinkReturn 8, .correctedError (.stack 12 0 false),
    .correctedError (.ddr 8), .correctedError (.core 624), .correctedError (.port 16), .correctedError (.cxl 8), .correctedError (.chiplet 2), .uncorrectableError (2 ^ 48) .patrol,
    .uncorrectableError 0 (.emberMove 64), .patrolScrub (2 ^ 48) .clean false, .cxlLinkFail 8, .mapOutComplete 12 0, .spareReplacementComplete 4 0] : List Instr).all
    (fun i => !(Sys2Proof.wellFormed i)) = true := by decide
theorem test_wf_slices : ([.tieringMoveComplete 64, .heatDecay 64, .beforeImageCopy 64 0, .beforeImageCopy 0 (2 ^ 51), .rollbackDetect 0 0,
    .rollbackDetect 0 5, .rollbackDetect 8 1,
    .restoreCompleteRollback 8, .rejoinWaitExpiry 8, .quiesceLimitExpiry 64, .quietReached 64, .scrubEnd 64 false, .migLogHarvest .manager 64] : List Instr).all (fun i => !(Sys2Proof.wellFormed i)) = true ∧
    ([Instr.createSlice, Instr.destroySlice, Instr.mapPages, Instr.unmap, Instr.protect, Instr.quiesceSlice, Instr.resumeSlice, Instr.resetSlice]).all
      (fun f => !(Sys2Proof.wellFormed (f .manager { slice := 64 })) && !(Sys2Proof.wellFormed (f (.slice 64) { slice := 0 }))) = true := by decide
theorem test_wf_objects : ([.linkFreeze .manager 8 0, .chFreeze .manager 0 32 0, .migEnable .manager 64 0, .attestNonce .manager 0 [],
    .devAttestNonce .manager [], .spdmRequest (.slice 64) [],
    .arbAdvance .manager 4 0, .mgrKey .manager true [], .doorbell .manager 256 0, .complHead .manager 0 (2 ^ 32), .chEnable .manager 0 256, .periodAt .manager (2 ^ 64), .lsEnable .manager 8 0,
    .wEnable .manager 256 0, .qpSqTail .manager 1024 0, .qpRqHead .manager 1024 0, .alertCause .manager (2 ^ 16) 0, .restart .manager 256, .fwRecovery { stage := 6, secVersion := 0, sigOk := true },
    .objectWrite .manager (2 ^ 16) 0 1 [], .odNotify 256, .snapshotExpiry .manager (2 ^ 24), .bulkBufferExpiry (.slice 64), .cpEnable .manager 2 0, .ssEnable .manager 0 32 0] : List Instr).all
    (fun i => !(Sys2Proof.wellFormed i)) = true ∧
    ([Instr.odRead, Instr.odWrite, Instr.odBulkRead, Instr.odSubscribe, Instr.odUnsubscribe, Instr.odMalformedFrame,
        fun f => Instr.odBulkWrite f { stage := 2, secVersion := 0, sigOk := true }]).all
      (fun f => !(Sys2Proof.wellFormed (f { readFrame with cred := 4 }))) = true := by decide
theorem test_wf_headers : ([{ ver := 16 }, { len := 2 ^ 16 }, { ip := { port := 2 ^ 16 } }, { ip := { dscp := 64 } }, { ip := { hops := 256 } },
    { ip := { flow := 2 ^ 20 } },
    { ip := { vlan := some 4096 } }] : List TFrame).all (fun f => !(Sys2Proof.wellFormed (.writeFrame 0 f))) = true ∧
    ([{ readFrame with resBits := 128 }, { readFrame with status := 256 }, { readFrame with reason := 256 },
        { readFrame with count := 2 ^ 32 }, { readFrame with udp := 2 ^ 16 }, { readFrame with tr := { psn := 2 ^ 32 } }, { readFrame with tr := { payload := [0] } }] : List OdFrame).all
      (fun f => !(Sys2Proof.wellFormed (.odRead f))) = true := by decide
theorem test_wf_board : ([Instr.cpRd, Instr.cpRdo, Instr.cpWr, Instr.cpAtom, Instr.cpWbk, Instr.cpDrop, Instr.cpAck, Instr.cpAckData]).all
    (fun f => !(Sys2Proof.wellFormed (f 2 cpMsg)) && !(Sys2Proof.wellFormed (f 0 { cpMsg with len := 513 }))) = true ∧
    ([.snoopTimeout 2 0, .damperWindow { stackTemps := List.replicate 13 0 }, .damperWindow { dieTemps := List.replicate 6 0 },
      .damperWindow { activity := [{ domain := 88, what := .matrixCycles, n := 1 }] }, .droopOnset 4 0, .droopRecovery 0 12 0,
        .boot { badSites := [(0, 0, 14)] }, .readyLocal { ports := [64] }, .readyLocal { badChannels := [(12, 0)] }] : List Instr).all (fun i => !(Sys2Proof.wellFormed i)) = true := by decide
/-- The same terms with their numbers in range are well formed. -/
theorem test_wf_accepts : ([.sclAdd g0 (encR 0x00 2 0 1), .launchCmd r0, .hello 63 (frame 65535), .frameForward 0 (2 ^ 18 - 1) 15 okT,
    .correctedError (.stack 11 31 true), .mapOutComplete 11 31,
    .rollbackDetect 7 4, .migLogHarvest (.slice 63) 63, .odRead readFrame, .cpRd 1 cpMsg, .boot {}, .readyLocal {}] : List Instr).all Sys2Proof.wellFormed = true := by decide

end Sys2Proof.Tests
end

section
/-! SUPPORT. Proofs of the scope chapter: what the step on an empty queue does (R12, R260, R459; log 2). -/

namespace Sys2Proof.Machine

variable {s : State}

/-! ### Counters of the dictionary -/

namespace State

theorem getObj_addObj_same (s : State) (k n : Nat) : (s.addObj k n).getObj k = (s.getObj k + n) % 2 ^ objWidth k :=
  getObj_putObj_same s k _

theorem getObj_addObj_ne {k a : Nat} (n : Nat) (hk : k ≠ a) : (s.addObj k n).getObj a = s.getObj a :=
  getObj_putObj_ne s _ hk

/-- A counter short of the end of its width counts without wrapping. -/
theorem getObj_addObj_of_lt {k n : Nat} (h : s.getObj k + n < 2 ^ objWidth k) : (s.addObj k n).getObj k = s.getObj k + n := by
  rw [getObj_addObj_same, Nat.mod_eq_of_lt h]

end State

theorem objWidth_uptime : State.objWidth Obj.uptime = 64 := by decide

theorem objWidth_deviceTime : State.objWidth Obj.deviceTime = 64 := by decide

/-! ### Device time -/

theorem countTime_of_slew_zero (h : s.net.slew = 0) : countTime s = s.addObj Obj.deviceTime 1 := if_pos h

/-- Counting device time changes the dictionary and the correction in the network's record, with or without a correction. -/
theorem countTime_eq (s : State) : countTime s = { s with od := (countTime s).od, net := (countTime s).net } := by
  simp only [countTime]
  split_ifs <;> rfl

theorem countTime_getObj_ne {k : Nat} (hk : k ≠ Obj.deviceTime) : (countTime s).getObj k = s.getObj k := by
  simp only [countTime]
  split_ifs
  · exact State.getObj_addObj_ne 1 hk.symm
  · exact State.getObj_addObj_ne 1 hk.symm
  · exact State.getObj_addObj_ne 2 hk.symm
  · rfl

/-! ### The nanosecond that passes: one equation per range of MODULE_STATE, and what it leaves -/

theorem idle_of_off (h : s.getObj Obj.moduleState = 0) : idle s = s := by simp [idle, h]

theorem idle_of_standby (h0 : s.getObj Obj.moduleState ≠ 0) (h2 : s.getObj Obj.moduleState < 2) :
    idle s = s.addObj Obj.uptime 1 := by
  simp [idle, h0, Nat.not_le.2 h2]

theorem idle_of_booted (h : 2 ≤ s.getObj Obj.moduleState) : idle s = countTime (s.addObj Obj.uptime 1) := by
  simp [idle, h, show s.getObj Obj.moduleState ≠ 0 by omega]

/-- OFF, STANDBY (1), or BOOT and up: what the nanosecond is in each. -/
theorem idle_cases (s : State) :
    (s.getObj Obj.moduleState = 0 ∧ idle s = s) ∨
    (s.getObj Obj.moduleState = 1 ∧ idle s = s.addObj Obj.uptime 1) ∨
    (2 ≤ s.getObj Obj.moduleState ∧ idle s = countTime (s.addObj Obj.uptime 1)) := by
  rcases Nat.lt_or_ge (s.getObj Obj.moduleState) 2 with h2 | h2
  · by_cases h0 : s.getObj Obj.moduleState = 0
    · exact .inl ⟨h0, idle_of_off h0⟩
    · exact .inr (.inl ⟨by omega, idle_of_standby h0 h2⟩)
  · exact .inr (.inr ⟨h2, idle_of_booted h2⟩)

theorem idle_eq (s : State) : idle s = { s with od := (idle s).od, net := (idle s).net } := by
  obtain ⟨-, h⟩ | ⟨-, h⟩ | ⟨-, h⟩ := idle_cases s
  · rw [h]
  · rw [h]; rfl
  · rw [h]; exact countTime_eq (s.addObj Obj.uptime 1)

@[simp] theorem idle_mem (s : State) : (idle s).mem = s.mem := by rw [idle_eq]
@[simp] theorem idle_stores (s : State) : (idle s).stores = s.stores := by rw [idle_eq]
@[simp] theorem idle_chans (s : State) : (idle s).chans = s.chans := by rw [idle_eq]
@[simp] theorem idle_slices (s : State) : (idle s).slices = s.slices := by rw [idle_eq]
@[simp] theorem idle_pending (s : State) : (idle s).pending = s.pending := by rw [idle_eq]

theorem idle_getObj_ne {k : Nat} (hu : k ≠ Obj.uptime) (hd : k ≠ Obj.deviceTime) : (idle s).getObj k = s.getObj k := by
  obtain ⟨-, h⟩ | ⟨-, h⟩ | ⟨-, h⟩ := idle_cases s
  · rw [h]
  · rw [h, State.getObj_addObj_ne 1 hu.symm]
  · rw [h, countTime_getObj_ne hd, State.getObj_addObj_ne 1 hu.symm]

/-- UPTIME counts in every state but OFF, whatever correction goes on (R459). -/
theorem idle_uptime (hm : s.getObj Obj.moduleState ≠ 0) (h : s.getObj Obj.uptime + 1 < 2 ^ 64) :
    (idle s).getObj Obj.uptime = s.getObj Obj.uptime + 1 := by
  have counts : (s.addObj Obj.uptime 1).getObj Obj.uptime = s.getObj Obj.uptime + 1 :=
    State.getObj_addObj_of_lt (by rwa [objWidth_uptime])
  obtain ⟨h0, -⟩ | ⟨-, h⟩ | ⟨-, h⟩ := idle_cases s
  · exact absurd h0 hm
  · rw [h, counts]
  · rw [h, countTime_getObj_ne (by decide), counts]

/-- With no correction due, device time counts one from BOOT up (R12, R260). -/
theorem idle_now_of_booted (hm : 2 ≤ s.getObj Obj.moduleState) (hs : s.net.slew = 0)
    (h : s.getObj Obj.deviceTime + 1 < 2 ^ 64) : (idle s).now = s.now + 1 := by
  have same : (s.addObj Obj.uptime 1).getObj Obj.deviceTime = s.getObj Obj.deviceTime :=
    State.getObj_addObj_ne 1 (by decide)
  rw [idle_of_booted hm, countTime_of_slew_zero (by simpa using hs)]
  simp only [State.now]
  rw [State.getObj_addObj_of_lt (by rwa [objWidth_deviceTime, same]), same]

theorem idle_now_of_not_booted (hm : s.getObj Obj.moduleState < 2) : (idle s).now = s.now := by
  obtain ⟨-, h⟩ | ⟨-, h⟩ | ⟨h2, -⟩ := idle_cases s
  · rw [h]
  · rw [h]; exact State.getObj_addObj_ne 1 (by decide)
  · omega

/-! ### The rest of the idle step does nothing where nothing waits -/

/-- Nothing in the state goes on in time by itself: no store is on its way, no request, burst, NOTIFY write or operation waits, and
discovery is not in step 2, which its 10 ms may end. -/
structure NothingWaits (s : State) : Prop where
  stores : s.stores = []
  draining : s.mem.draining = []
  heldReqs : s.mem.heldReqs = []
  waitingReq : s.mem.waitingReq = []
  discState : s.getObj Obj.discState ≠ 2
  notify : ∀ x ∈ s.chans, x.notifyDue = false
  operations : ∀ x ∈ s.slices, x.waits = []

theorem NothingWaits.idle (h : NothingWaits s) : NothingWaits (idle s) where
  stores := by simp [h.stores]
  draining := by simp [h.draining]
  heldReqs := by simp [h.heldReqs]
  waitingReq := by simp [h.waitingReq]
  discState := by rw [idle_getObj_ne (by decide) (by decide)]; exact h.discState
  notify := by simpa using h.notify
  operations := by simpa using h.operations

theorem serveHeld_of_nil (h : s.mem.heldReqs = []) : serveHeld s = s := by simp [serveHeld, h]

theorem freePlaces_of_nil (h : s.mem.waitingReq = []) : freePlaces s = s := by simp [freePlaces, h]

theorem drainBursts_of_nil (h : s.mem.draining = []) : drainBursts s = s := by simp [drainBursts, h]

theorem helloExpired_of_discState_ne (h : s.getObj Obj.discState ≠ 2) : helloExpired s = false := by simp [helloExpired, h]

theorem notifyAgain_of_none_due (h : ∀ x ∈ s.chans, x.notifyDue = false) : notifyAgain s = s := by
  have none_due : s.chans.filter (·.notifyDue) = [] := List.filter_eq_nil_iff.2 (by simpa using h)
  simp [notifyAgain, none_due]

theorem runWaiting_of_none_waits (h : ∀ x ∈ s.slices, x.waits = []) : runWaiting s = s := by
  have none_waits : s.slices.filter (fun x => x.current.isNone && !x.waits.isEmpty) = [] :=
    List.filter_eq_nil_iff.2 fun x hx => by simp [h x hx]
  simp [runWaiting, none_waits]

/-- Where nothing waits, only the clocks go on. -/
theorem passTime_eq_idle (h : NothingWaits s) : passTime s = idle s := by
  have hi := h.idle
  simp only [passTime, freePlaces_of_nil hi.waitingReq, serveHeld_of_nil hi.heldReqs, hi.stores, List.map_nil, List.foldl_nil,
    helloExpired_of_discState_ne hi.discState, Bool.false_eq_true, if_false, drainBursts_of_nil hi.draining,
    notifyAgain_of_none_due hi.notify, runWaiting_of_none_waits hi.operations]

theorem step_of_pending_nil (h : s.pending = []) : step s = .next (passTime s) := by simp only [step, h]

/-- The state after reset is one in which nothing waits, and the queue is empty. -/
example : step State.reset = .next (idle State.reset) := by
  have resting : NothingWaits State.reset :=
    ⟨rfl, rfl, rfl, rfl, by decide, by simp [State.reset], by simp [State.reset]⟩
  rw [step_of_pending_nil rfl, passTime_eq_idle resting]

/-- Settles O2: where nothing waits the step is the nanosecond alone, and each range of MODULE_STATE says what it counts. -/
theorem idleStepCountsTime : Obligations.IdleStepCountsTime := by
  unfold Obligations.IdleStepCountsTime
  intro s queue slew up time stores draining held waiting disc notify ops
  have resting : NothingWaits s := ⟨stores, draining, held, waiting, disc, notify, ops⟩
  refine ⟨idle s, ?_, idle_mem s, ?_, ?_⟩
  · rw [step_of_pending_nil queue, passTime_eq_idle resting]
  · rw [idle_pending, queue]
  · exact ⟨fun hm => idle_uptime hm up, idle_of_off, fun hm => idle_now_of_booted hm slew time, idle_now_of_not_booted,
      fun k => idle_getObj_ne⟩

end Sys2Proof.Machine
end

section
/-! SUPPORT. Proofs of the architecture chapter: requests, answers, writebacks and fills at a home directory (R186 to R195, R25, R361). -/

namespace Sys2Proof.Machine

variable {s t u : State} {l : LineKey} {e e' : DirEnt} {r : DirReq} {n a : Nat}

/-! ### Entries found and written back -/

theorem findDir_line (h : findDir s l = some e) : e.line = l := by simpa using List.find?_some h

theorem findDir_putDir (s : State) (e : DirEnt) : findDir (putDir s e) e.line = some e := by simp [findDir, putDir]

theorem findDir_congr (h : t.mem.dirs = s.mem.dirs) : findDir t l = findDir s l := by simp only [findDir, h]

theorem findDir_dropDir_ne {k : LineKey} (h : k ≠ l) : findDir (dropDir s k) l = findDir s l := by
  simp only [findDir, dropDir, List.find?_filter]
  congr 1
  funext x
  by_cases hx : x.line = l
  · simp [hx, Ne.symm h]
  · simp [hx]

@[simp] theorem putDir_miss (s : State) (e : DirEnt) : (putDir s e).mem.miss = s.mem.miss := rfl
@[simp] theorem dropDir_miss (s : State) (l : LineKey) : (dropDir s l).mem.miss = s.mem.miss := rfl

/-! ### What the loss of a copy leaves: the home directories and the miss registers -/

/-- An invalidation on a die moves its local directory, the queues of its L1s and the counts of broadcasts. -/
theorem invalidateDie_eq (s : State) (wr : Option Nat) (d : Nat) (l : LineKey) :
    invalidateDie s wr d l = { s with
      od := (invalidateDie s wr d l).od,
      mem := { s.mem with invq := (invalidateDie s wr d l).mem.invq, ldirs := (invalidateDie s wr d l).mem.ldirs } } := by
  simp only [invalidateDie]
  split
  · rfl
  · split_ifs <;> rfl

/-- Dirty sectors that return to the home move LLM lines. -/
theorem dirtyHome_eq (s : State) (d x : Nat) :
    dirtyHome s d x = { s with mem := { s.mem with llm := (dirtyHome s d x).mem.llm } } := by
  simp only [dirtyHome]
  split
  · rfl
  · split_ifs <;> rfl

@[simp] theorem invalidateDie_dirs (s : State) (wr : Option Nat) (d : Nat) (l : LineKey) :
    (invalidateDie s wr d l).mem.dirs = s.mem.dirs := by rw [invalidateDie_eq]

@[simp] theorem invalidateDie_miss (s : State) (wr : Option Nat) (d : Nat) (l : LineKey) :
    (invalidateDie s wr d l).mem.miss = s.mem.miss := by rw [invalidateDie_eq]

@[simp] theorem dirtyHome_dirs (s : State) (d x : Nat) : (dirtyHome s d x).mem.dirs = s.mem.dirs := by rw [dirtyHome_eq]
@[simp] theorem dirtyHome_miss (s : State) (d x : Nat) : (dirtyHome s d x).mem.miss = s.mem.miss := by rw [dirtyHome_eq]
@[simp] theorem dirtyHome_od (s : State) (d x : Nat) : (dirtyHome s d x).od = s.od := by rw [dirtyHome_eq]

/-- A copy that goes: nothing of it at the home or beyond the compute dies, else it leaves the die's LLM and its L1s. -/
theorem dropCopy_cases (s : State) (wr : Option Nat) (a : Nat) (l : LineKey) :
    dropCopy s wr a l = s ∨
    (a < 4 ∧ ∃ u, dropCopy s wr a l = invalidateDie u wr a l ∧ u.mem.dirs = s.mem.dirs ∧ u.mem.miss = s.mem.miss ∧ u.od = s.od) := by
  simp only [dropCopy]
  split_ifs with h
  · exact .inl rfl
  · refine .inr ⟨by omega, _, rfl, ?_⟩
    cases l with
    | dev x => exact ⟨dirtyHome_dirs s a x, dirtyHome_miss s a x, dirtyHome_od s a x⟩
    | shr m x => exact ⟨rfl, rfl, rfl⟩

@[simp] theorem dropCopy_dirs (s : State) (wr : Option Nat) (a : Nat) (l : LineKey) :
    (dropCopy s wr a l).mem.dirs = s.mem.dirs := by
  obtain h | ⟨-, u, h, dirs, -, -⟩ := dropCopy_cases s wr a l
  · rw [h]
  · rw [h, invalidateDie_dirs, dirs]

@[simp] theorem dropCopy_miss (s : State) (wr : Option Nat) (a : Nat) (l : LineKey) :
    (dropCopy s wr a l).mem.miss = s.mem.miss := by
  obtain h | ⟨-, u, h, -, miss, -⟩ := dropCopy_cases s wr a l
  · rw [h]
  · rw [h, invalidateDie_miss, miss]

@[simp] theorem snoopChip_miss (s : State) (p : Nat) (h : HeldLine) (w : Bool) : (snoopChip s p h w).mem.miss = s.mem.miss := by
  simp only [snoopChip]
  split_ifs <;> rfl

@[simp] theorem snoopChip_getObj (s : State) (p : Nat) (h : HeldLine) (w : Bool) (k : Nat) :
    (snoopChip s p h w).getObj k = s.getObj k := by
  simp only [snoopChip]
  split_ifs <;> rfl

/-- A fold of a function that leaves what is observed of a state leaves it. -/
theorem foldl_leaves {α β : Type} {f : State → α → State} (obs : State → β) (hf : ∀ s x, obs (f s x) = obs s) (xs : List α) (s : State) :
    obs (xs.foldl f s) = obs s := by
  induction xs generalizing s with
  | nil => rfl
  | cons x xs ih => exact (ih (f s x)).trans (hf s x)

/-! ### Room in an LLM and an access to it -/

/-- Room for a line is made at no cost to the home directories, or by the loss of the entry of another line in that LLM. -/
theorem llmRoom_some {d x : Nat} (h : llmRoom s n d x = some t) :
    t.mem.miss = s.mem.miss ∧
    (t.mem.dirs = s.mem.dirs ∨ ∃ y ∈ s.mem.llm, y.die = d ∧ t.mem.dirs = (dropDir s (.dev y.line)).mem.dirs) := by
  simp only [llmRoom] at h
  split at h
  · cases h
  · split at h
    · cases h; exact ⟨rfl, .inl rfl⟩
    · split at h
      · cases h
      · next y hy =>
        have victim := List.mem_of_getLast? hy
        simp only [List.mem_filter, sameSet, Bool.and_eq_true, beq_iff_eq] at victim
        obtain ⟨⟨mem, ⟨⟨-, die⟩, -⟩, -⟩, -⟩ := victim
        split at h
        · cases h; exact ⟨rfl, .inl rfl⟩
        · split at h
          · split at h
            · cases h
              exact ⟨by simp, .inr ⟨y, mem, die, by simp [dropDir]⟩⟩
            · cases h; exact ⟨rfl, .inl rfl⟩
          · cases h; exact ⟨rfl, .inl rfl⟩

theorem findDir_llmRoom {d x : Nat} (absent : llmOf s d x = none) (h : llmRoom s n d x = some t) :
    findDir t (.dev x) = findDir s (.dev x) := by
  obtain ⟨-, dirs | ⟨y, mem, die, dirs⟩⟩ := llmRoom_some h
  · exact findDir_congr dirs
  · have other : y.line ≠ x := by
      have := List.find?_eq_none.1 absent y mem
      simpa [die] using this
    rw [findDir_congr dirs, findDir_dropDir_ne (by simpa using other)]

/-- An access to an LLM only counts and moves the line, or counts and brings in a line that was absent. -/
theorem llmTouch_cases (s : State) (n d x : Nat) (is : List Nat) (w : Bool) (f : Fill) :
    ((llmTouch s n d x is w f).mem.miss = s.mem.miss ∧ (llmTouch s n d x is w f).mem.dirs = s.mem.dirs) ∨
    ∃ c v, c.mem = s.mem ∧ llmOf c d x = none ∧ llmRoom c n d x = some v ∧
      (llmTouch s n d x is w f).mem.miss = v.mem.miss ∧ (llmTouch s n d x is w f).mem.dirs = v.mem.dirs := by
  simp only [llmTouch]
  have counted : (if llmHit s d x is = true then s.addObj (Obj.llmHits n) 1 else s.addObj (Obj.llmMisses n) 1).mem = s.mem := by
    split_ifs <;> rfl
  generalize (if llmHit s d x is = true then s.addObj (Obj.llmHits n) 1 else s.addObj (Obj.llmMisses n) 1) = c at counted ⊢
  split
  · exact .inl ⟨by rw [counted], by rw [counted]⟩
  · next absent =>
    split
    · exact .inl ⟨by rw [counted], by rw [counted]⟩
    · split
      · exact .inl ⟨by rw [counted], by rw [counted]⟩
      · next v room => exact .inr ⟨c, v, counted, absent, room, rfl, rfl⟩

@[simp] theorem llmTouch_miss (s : State) (n d x : Nat) (is : List Nat) (w : Bool) (f : Fill) :
    (llmTouch s n d x is w f).mem.miss = s.mem.miss := by
  obtain ⟨miss, -⟩ | ⟨c, v, counted, -, room, miss, -⟩ := llmTouch_cases s n d x is w f
  · exact miss
  · rw [miss, (llmRoom_some room).1, counted]

/-- The entry of the line itself stays: what an access drives out is another line. -/
theorem findDir_llmTouch (s : State) (n d x : Nat) (is : List Nat) (w : Bool) (f : Fill) :
    findDir (llmTouch s n d x is w f) (.dev x) = findDir s (.dev x) := by
  obtain ⟨-, dirs⟩ | ⟨c, v, counted, absent, room, -, dirs⟩ := llmTouch_cases s n d x is w f
  · exact findDir_congr dirs
  · rw [findDir_congr dirs, findDir_llmRoom absent room, findDir_congr (congrArg Mem.dirs counted)]

/-! ### Data of a request -/

@[simp] theorem homeSupplies_miss (s : State) (n : Nat) (l : LineKey) (r : DirReq) : (homeSupplies s n l r).mem.miss = s.mem.miss := by
  cases l with
  | shr m x => rfl
  | dev x => simp only [homeSupplies]; split_ifs <;> simp

@[simp] theorem lineDie_homeSupplies (s : State) (n : Nat) (l : LineKey) (r : DirReq) : lineDie (homeSupplies s n l r) l = lineDie s l := by
  cases l <;> rfl

/-- The data of a request comes by an access of the requester's die, or there is nothing to bring. -/
theorem deliver_cases (s : State) (n : Nat) (l : LineKey) (r : DirReq) :
    deliver s n l r = s ∨ ∃ x f, l = .dev x ∧ deliver s n l r = llmTouch s n r.agent x (sectorsOf r.sectors) false f := by
  cases l with
  | shr m x => exact .inl rfl
  | dev x =>
    simp only [deliver]
    split_ifs
    · exact .inl rfl
    · exact .inl rfl
    · exact .inr ⟨x, _, rfl, rfl⟩
    · exact .inr ⟨x, _, rfl, rfl⟩

@[simp] theorem deliver_miss (s : State) (n : Nat) (l : LineKey) (r : DirReq) : (deliver s n l r).mem.miss = s.mem.miss := by
  obtain h | ⟨x, f, -, h⟩ := deliver_cases s n l r
  · rw [h]
  · rw [h, llmTouch_miss]

@[simp] theorem findDir_deliver (s : State) (n : Nat) (l : LineKey) (r : DirReq) : findDir (deliver s n l r) l = findDir s l := by
  obtain h | ⟨x, f, rfl, h⟩ := deliver_cases s n l r
  · rw [h]
  · rw [h, findDir_llmTouch]

/-! ### Home dies: no directory's count is a grant of scratch ways -/

/-- The grants of shared scratch, by which its lines have their homes (R152), stand as they were. -/
def KeepsGrants (s t : State) : Prop := ∀ n d, t.getObj (Obj.sliceScratchWays n d) = s.getObj (Obj.sliceScratchWays n d)

theorem KeepsGrants.trans (h : KeepsGrants s t) (h' : KeepsGrants t u) : KeepsGrants s u := fun n d => (h' n d).trans (h n d)

theorem KeepsGrants.of_od (h : t.od = s.od) : KeepsGrants s t := fun n d => by simp only [State.getObj, h]

theorem keepsGrants_foldl {α : Type} {f : State → α → State} (hf : ∀ s x, KeepsGrants s (f s x)) (xs : List α) (s : State) :
    KeepsGrants s (xs.foldl f s) := fun n d => foldl_leaves (·.getObj (Obj.sliceScratchWays n d)) (fun s x => hf s x n d) xs s

theorem lineDie_of_keepsGrants (h : KeepsGrants s t) (l : LineKey) : lineDie t l = lineDie s l := by
  unfold KeepsGrants at h
  cases l with
  | dev x => rfl
  | shr n x => simp only [lineDie, shrDie, h]

theorem xorPieces_lt (w k v : Nat) : xorPieces w k v < 2 ^ w := by
  induction k generalizing v with
  | zero => exact Nat.two_pow_pos w
  | succ k ih => exact Nat.xor_lt_two_pow (Nat.mod_lt v (Nat.two_pow_pos w)) (ih _)

theorem homeDie_lt (pa : Nat) : homeDie pa < 4 := by
  simp only [homeDie]
  split_ifs with h
  · exact Nat.div_lt_of_lt_mul (by rwa [Nat.mul_comm])
  · exact xorPieces_lt 2 19 _

theorem shrDie_lt (s : State) (n x : Nat) : shrDie s n x < 4 := by
  simp only [shrDie]
  generalize hd : List.find? _ (List.range 4) = found
  cases found with
  | none => decide
  | some d => exact List.mem_range.1 (List.mem_of_find?_eq_some hd)

/-- The home of a line is a compute die. -/
theorem lineDie_lt (s : State) (l : LineKey) : lineDie s l < 4 := by
  cases l with
  | dev x => exact homeDie_lt _
  | shr n x => exact shrDie_lt s n x

theorem keepsGrants_broadcasts {d : Nat} (hd : d < 4) (s : State) : KeepsGrants s (s.addObj (Obj.broadcasts d) 1) := fun n j =>
  State.getObj_addObj_ne 1 (by simp only [Obj.broadcasts, Obj.sliceScratchWays]; omega)

theorem keepsGrants_dirEvictions {d : Nat} (hd : d < 4) (s : State) : KeepsGrants s (s.addObj (Obj.dirEvictions d) 1) := fun n j =>
  State.getObj_addObj_ne 1 (by simp only [Obj.dirEvictions, Obj.sliceScratchWays]; omega)

theorem keepsGrants_invalidateDie {d : Nat} (hd : d < 4) (s : State) (wr : Option Nat) (l : LineKey) :
    KeepsGrants s (invalidateDie s wr d l) := by
  simp only [invalidateDie]
  split
  · exact .of_od rfl
  · split_ifs
    · exact (keepsGrants_broadcasts hd s).trans (.of_od rfl)
    · exact (keepsGrants_broadcasts hd s).trans (.of_od rfl)
    · exact .of_od rfl
    · exact .of_od rfl

theorem keepsGrants_dropCopy (s : State) (wr : Option Nat) (a : Nat) (l : LineKey) : KeepsGrants s (dropCopy s wr a l) := by
  obtain h | ⟨ha, u, h, -, -, od⟩ := dropCopy_cases s wr a l
  · rw [h]; exact .of_od rfl
  · rw [h]; exact (KeepsGrants.of_od od).trans (keepsGrants_invalidateDie ha u wr l)

/-! ### Room in a home directory -/

/-- An entry that is driven out is counted, its copies at the dies go, and it is freed or asks the chiplet ports that hold its line. -/
theorem evictDir_leaves (s : State) (e : DirEnt) : KeepsGrants s (evictDir s e) ∧ (evictDir s e).mem.miss = s.mem.miss := by
  simp only [evictDir]
  generalize hc : (if e.broadcast = true then (s.addObj (Obj.dirEvictions (lineDie s e.line)) 1).addObj
      (Obj.broadcasts (lineDie (s.addObj (Obj.dirEvictions (lineDie s e.line)) 1) e.line)) 1
    else s.addObj (Obj.dirEvictions (lineDie s e.line)) 1) = c
  have counted : KeepsGrants s c ∧ c.mem = s.mem := by
    subst hc
    have evictions := keepsGrants_dirEvictions (lineDie_lt s e.line) s
    split_ifs
    · exact ⟨evictions.trans (keepsGrants_broadcasts (lineDie_lt _ _) _), rfl⟩
    · exact ⟨evictions, rfl⟩
  have copies : KeepsGrants s ((agentsOf e).foldl (fun s a => dropCopy s none a e.line) c) ∧
      ((agentsOf e).foldl (fun s a => dropCopy s none a e.line) c).mem.miss = s.mem.miss :=
    ⟨counted.1.trans (keepsGrants_foldl (fun s a => keepsGrants_dropCopy s none a e.line) _ c),
      (foldl_leaves (·.mem.miss) (fun s a => dropCopy_miss s none a e.line) _ c).trans (by rw [counted.2])⟩
  generalize (agentsOf e).foldl (fun s a => dropCopy s none a e.line) c = v at copies ⊢
  obtain ⟨grants, miss⟩ := copies
  split
  · exact ⟨grants.trans (.of_od rfl), miss⟩
  · have snoops := keepsGrants_foldl (fun s (p : Nat × HeldLine) n d => snoopChip_getObj s p.1 p.2 true _) (chipHolders v e.line true none) v
    have asked := foldl_leaves (·.mem.miss) (fun s (p : Nat × HeldLine) => snoopChip_miss s p.1 p.2 true) (chipHolders v e.line true none) v
    exact ⟨grants.trans (snoops.trans (.of_od rfl)), asked.trans miss⟩

/-- Room is there, or is made or awaited by driving out one entry. -/
theorem dirRoom_cases (s : State) (n : Nat) (l : LineKey) :
    dirRoom s n l = .ok s ∨ dirRoom s n l = .error s ∨
    ∃ e, dirRoom s n l = .ok (evictDir s e) ∨ dirRoom s n l = .error (evictDir s e) := by
  simp only [dirRoom]
  split
  · exact .inl rfl
  · split
    · exact .inr (.inl rfl)
    · next e _ =>
      refine .inr (.inr ⟨e, ?_⟩)
      split_ifs
      · exact .inr rfl
      · exact .inl rfl

theorem dirRoom_ok (h : dirRoom s n l = .ok t) : KeepsGrants s t ∧ t.mem.miss = s.mem.miss := by
  obtain h' | h' | ⟨e, h' | h'⟩ := dirRoom_cases s n l <;> cases h.symm.trans h'
  · exact ⟨.of_od rfl, rfl⟩
  · exact evictDir_leaves s e

theorem dirRoom_error_miss (h : dirRoom s n l = .error t) : t.mem.miss = s.mem.miss := by
  obtain h' | h' | ⟨e, h' | h'⟩ := dirRoom_cases s n l <;> cases h.symm.trans h'
  · rfl
  · exact (evictDir_leaves s e).2

/-! ### The end of a request: the entry that it leaves -/

/-- An entry that no request is in progress at. -/
def DirEnt.resting (e : DirEnt) : DirEnt := { e with req := none, awaited := [], fwd := none, dropped := false, wbk := false }

@[simp] theorem addHolder_line (e : DirEnt) (a : Nat) : (addHolder e a).line = e.line := by
  simp only [addHolder]
  split_ifs <;> rfl

/-- An entry that records an agent tracks some copy: by a pointer, or by the broadcast bit (R187). -/
theorem addHolder_tracks (e : DirEnt) (a : Nat) : (addHolder e a).holders ≠ [] ∨ (addHolder e a).broadcast = true := by
  simp only [addHolder]
  split_ifs with known room
  · simp only [Bool.or_eq_true, List.contains_iff_mem] at known
    exact known.symm.imp_left List.ne_nil_of_mem
  · exact .inl (by simp)
  · exact .inr rfl

theorem finishReq_read {home : Nat} (kind : r.kind = 0) (away : r.agent ≠ home) :
    finishReq home e r = some (addHolder e.resting r.agent) := by
  simp [finishReq, DirEnt.resting, kind, away]

theorem finishReq_own {home : Nat} (kind : r.kind ≠ 0) (away : r.agent ≠ home) :
    finishReq home e r = some { e.resting with state := .owned r.agent, holders := [], broadcast := false } := by
  simp [finishReq, DirEnt.resting, kind, away]

/-- What the home directory holds after a request that has had its last answer. -/
theorem findDir_settleReq (finish : finishReq (lineDie s e.line) e r = some e') (line : e'.line = e.line)
    (tracks : e'.state = .shared → e'.holders ≠ [] ∨ e'.broadcast = true) : findDir (settleReq s e r) e.line = some e' := by
  have kept : ¬ (e'.state = .shared ∧ e'.holders.isEmpty ∧ !e'.broadcast) := by
    rintro ⟨shared, noHolder, noBroadcast⟩
    rcases tracks shared with h | h
    · exact h (List.isEmpty_iff.1 noHolder)
    · simp [h] at noBroadcast
  simp only [settleReq, finish, findDir_deliver, if_neg kept]
  rw [← line, findDir_putDir]

theorem findDir_settleReq_read (kind : r.kind = 0) (away : r.agent ≠ lineDie s e.line) :
    findDir (settleReq s e r) e.line = some (addHolder e.resting r.agent) :=
  findDir_settleReq (finishReq_read kind away) (addHolder_line _ _) fun _ => addHolder_tracks _ _

theorem findDir_settleReq_own (kind : r.kind ≠ 0) (away : r.agent ≠ lineDie s e.line) :
    findDir (settleReq s e r) e.line = some { e.resting with state := .owned r.agent, holders := [], broadcast := false } :=
  findDir_settleReq (finishReq_own kind away) rfl fun shared => by cases shared

@[simp] theorem settleReq_miss (s : State) (e : DirEnt) (r : DirReq) : (settleReq s e r).mem.miss = s.mem.miss := by
  simp only [settleReq, deliver_miss]
  split
  · split_ifs <;> rfl
  · rfl

/-! ### A request begins (Table 6.3) -/

/-- A read of a shared line that no chiplet port is nearest to ends at once, with data of the home or of a die (R192). -/
theorem beginReq_read_ends (shared : e.state = .shared) (kind : r.kind = 0)
    (near : ∀ c, nearest s e.line r.agent (sectorsOf r.sectors) = some c → c < 4) :
    ∃ u, lineDie u e.line = lineDie s e.line ∧ beginReq s e r = settleReq u e r := by
  simp only [beginReq, shared, kind, if_true]
  cases supplier : nearest s e.line r.agent (sectorsOf r.sectors) with
  | none => exact ⟨_, lineDie_homeSupplies s _ _ _, rfl⟩
  | some c =>
    by_cases home : c = lineDie s e.line
    · exact ⟨_, lineDie_homeSupplies s e.owner e.line r, if_pos home⟩
    · exact ⟨s, rfl, by simp only [if_neg home, if_pos (near c supplier)]⟩

/-- A chiplet port that is nearest to a shared line is asked for it (R192). -/
theorem beginReq_read_asks_port {c : Nat} {h : HeldLine} (shared : e.state = .shared) (kind : r.kind = 0)
    (supplier : nearest s e.line r.agent (sectorsOf r.sectors) = some c) (port : 4 ≤ c) (away : c ≠ lineDie s e.line)
    (held : chipLine s c e.line = some h) :
    beginReq s e r = snoopChip (putDir s { e with req := some r, fwd := some c }) (c - 4) h false := by
  simp [beginReq, shared, kind, supplier, away, Nat.not_lt.2 port, held]

/-- A line that another agent owns is asked of its owner (R191, R193). -/
theorem beginReq_owned {b : Nat} (owned : e.state = .owned b) (other : b ≠ r.agent) :
    beginReq s e r = putDir s { e with req := some r, fwd := some b } := by
  simp [beginReq, owned, other]

theorem toInvalidate_shared (shared : e.state = .shared) (pointers : e.broadcast = false) (a : Nat) :
    toInvalidate e a = e.holders.filter (· != a) := by
  simp [toInvalidate, agentsOf, shared, pointers]

/-- For ownership of a line that nobody else holds there is nothing to wait for. -/
theorem beginReq_own_ends (shared : e.state = .shared) (pointers : e.broadcast = false) (kind : r.kind = 1)
    (alone : e.holders.filter (· != r.agent) = []) : beginReq s e r = settleReq (homeSupplies s e.owner e.line r) e r := by
  simp [beginReq, shared, kind, toInvalidate_shared shared pointers, pointers, alone]

/-- Ownership of a shared line waits for the answer of every other holder. -/
theorem beginReq_own_awaits (shared : e.state = .shared) (pointers : e.broadcast = false) (kind : r.kind = 1)
    (others : e.holders.filter (· != r.agent) ≠ []) : beginReq s e r =
      putDir (homeSupplies s e.owner e.line r) { e with req := some r, awaited := e.holders.filter (· != r.agent) } := by
  simp only [beginReq, shared, kind, toInvalidate_shared shared pointers, pointers]
  simp [others]

/-- A line with no entry takes one where there is room, or where room can be made (R189). -/
theorem beginIdle_ends (away : r.agent ≠ lineDie s l) (has : dirWays s n (lineDie s l) ≠ 0) (room : dirRoom s n l = .ok t) :
    beginIdle s n l r = settleReq (homeSupplies t n l r) { line := l, owner := n, state := .shared } r := by
  simp [beginIdle, away, has, room]

/-- Room that is made for an entry leaves the line's home where it was. -/
theorem lineDie_homeSupplies_of_room (room : dirRoom s n l = .ok t) (r : DirReq) : lineDie (homeSupplies t n l r) l = lineDie s l := by
  rw [lineDie_homeSupplies, lineDie_of_keepsGrants (dirRoom_ok room).1]

theorem findDir_beginIdle_read (kind : r.kind = 0) (away : r.agent ≠ lineDie s l) (has : dirWays s n (lineDie s l) ≠ 0)
    (room : dirRoom s n l = .ok t) :
    findDir (beginIdle s n l r) l = some { line := l, owner := n, state := .shared, holders := [r.agent] } := by
  rw [beginIdle_ends away has room]
  exact findDir_settleReq_read (e := { line := l, owner := n, state := .shared }) kind (by rwa [lineDie_homeSupplies_of_room room])

theorem findDir_beginIdle_own (kind : r.kind ≠ 0) (away : r.agent ≠ lineDie s l) (has : dirWays s n (lineDie s l) ≠ 0)
    (room : dirRoom s n l = .ok t) :
    findDir (beginIdle s n l r) l = some { line := l, owner := n, state := .owned r.agent } := by
  rw [beginIdle_ends away has room]
  exact findDir_settleReq_own (e := { line := l, owner := n, state := .shared }) kind (by rwa [lineDie_homeSupplies_of_room room])

/-! ### A request reaches its home -/

theorem exec_rds (ha : a < 6) (owner : lineOwner s l = some n) (sectors : BitVec 8) :
    exec (.rds a l sectors) s = .next (takeReq s n l { agent := a, kind := 0, sectors := sectors }) := by
  simp [exec, execRds, dirRequest, Nat.not_le.2 ha, owner]

theorem exec_rdm (ha : a < 6) (owner : lineOwner s l = some n) :
    exec (.rdm a l) s = .next (takeReq s n l { agent := a, kind := 1, sectors := 255 }) := by
  simp [exec, execRdm, dirRequest, Nat.not_le.2 ha, owner]

theorem exec_upg (ha : a < 6) (owner : lineOwner s l = some n) :
    exec (.upg a l) s = .next (takeReq s n l { agent := a, kind := 2, sectors := 255 }) := by
  simp [exec, execUpg, dirRequest, Nat.not_le.2 ha, owner]

/-- A request that links do not carry is held (R26). -/
theorem takeReq_of_no_road (road : requestRoads s l r = false) : takeReq s n l r = holdReq s l r := by
  simp [takeReq, road]

/-- No request for the line is held at the home, so none is in front of another one. -/
def NoneHeld (s : State) (l : LineKey) : Prop := ∀ x ∈ s.mem.heldReqs, x.1 ≠ l

theorem NoneHeld.any_eq_false (h : NoneHeld s l) : (s.mem.heldReqs.any fun x => x.1 == l) = false := by
  simpa [NoneHeld] using h

/-- A request for ownership that must wait for its page's before-image is held (R361, R362). -/
theorem takeReq_of_image_wait (held : NoneHeld s l) (road : requestRoads s l r = true) (kind : r.kind ≠ 0)
    (gate : ownGate s n (vasOf s n l) = .error u) : takeReq s n l r = holdReq u l r := by
  simp [takeReq, held.any_eq_false, road, kind, gate]

/-- A request comes to the directory in the state `u`: nothing holds it back at the home, and where it is for ownership the write of its page
stands in the logs (R361). -/
structure Admitted (s : State) (n : Nat) (l : LineKey) (r : DirReq) (u : State) : Prop where
  held : NoneHeld s l
  road : requestRoads s l r = true
  gate : (if r.kind = 0 then .ok s else ownGate s n (vasOf s n l)) = .ok u

theorem takeReq_of_idle (h : Admitted s n l r u) (entry : findDir u l = none) : takeReq s n l r = beginIdle u n l r := by
  simp [takeReq, h.held.any_eq_false, h.road, h.gate, entry]

theorem takeReq_of_transient (h : Admitted s n l r u) (entry : findDir u l = some e) (busy : transient e = true) :
    takeReq s n l r = enqueue u e r := by
  simp [takeReq, h.held.any_eq_false, h.road, h.gate, entry, busy]

theorem takeReq_of_resting (h : Admitted s n l r u) (entry : findDir u l = some e) (rests : transient e = false) :
    takeReq s n l r = beginReq u e r := by
  simp [takeReq, h.held.any_eq_false, h.road, h.gate, entry, rests]

theorem admitted_read (held : NoneHeld s l) {sectors : BitVec 8}
    (road : requestRoads s l { agent := a, kind := 0, sectors := sectors } = true) :
    Admitted s n l { agent := a, kind := 0, sectors := sectors } s := ⟨held, road, rfl⟩

/-- Both requests for ownership, RdM and Upg, need the same roads and count as the same write. -/
theorem admitted_own (held : NoneHeld s l) (road : requestRoads s l { agent := a, kind := 1, sectors := 255 } = true)
    (gate : ownGate s n (vasOf s n l) = .ok u) {k : Nat} (kind : k = 1 ∨ k = 2) :
    Admitted s n l { agent := a, kind := k, sectors := 255 } u := by
  obtain rfl | rfl := kind
  · exact ⟨held, road, gate⟩
  · exact ⟨held, road, gate⟩

/-! ### Answers and invalidations leave the miss registers -/

@[simp] theorem beginReq_miss (s : State) (e : DirEnt) (r : DirReq) : (beginReq s e r).mem.miss = s.mem.miss := by
  cases state : e.state with
  | shared =>
    by_cases kind : r.kind = 0
    · simp only [beginReq, state, kind, if_true]
      split
      · split_ifs
        · simp
        · simp
        · split <;> simp
      · simp
    · simp only [beginReq, state, if_neg kind]
      split_ifs <;> simp
  | owned b => simp only [beginReq, state]; split_ifs <;> rfl
  | writeback b => simp [beginReq, state]

@[simp] theorem beginIdle_miss (s : State) (n : Nat) (l : LineKey) (r : DirReq) : (beginIdle s n l r).mem.miss = s.mem.miss := by
  simp only [beginIdle]
  split_ifs
  · rfl
  · split
    · next v room => exact (dirRoom_error_miss room : v.mem.miss = s.mem.miss)
    · next v room => simp [(dirRoom_ok room).2]

@[simp] theorem serveQueue_miss (l : LineKey) (fuel : Nat) (q : List DirReq) (s : State) : (serveQueue l fuel q s).mem.miss = s.mem.miss := by
  induction fuel generalizing q s with
  | zero => rfl
  | succ fuel ih =>
    cases q with
    | nil => rfl
    | cons r rest =>
      simp only [serveQueue]
      split
      · split_ifs
        · rfl
        · rw [ih, beginReq_miss]
      · split
        · rw [ih, beginIdle_miss]
        · rfl

@[simp] theorem afterReq_miss (s : State) (l : LineKey) (q : List DirReq) : (afterReq s l q).mem.miss = s.mem.miss := by
  simp only [afterReq, serveQueue_miss]
  split <;> rfl

@[simp] theorem answered_miss (s : State) (a : Nat) (l : LineKey) : (answered s a l).mem.miss = s.mem.miss := by
  simp only [answered]
  split
  · rfl
  · next e _ =>
    cases asked : e.req with
    | none => simp only; split_ifs <;> simp
    | some r => simp only; split_ifs <;> simp

@[simp] theorem invalidateAgent_miss (s : State) (a : Nat) (l : LineKey) : (invalidateAgent s a l).mem.miss = s.mem.miss := by
  simp only [invalidateAgent]
  split_ifs
  · simp
  · simp
  · split
    · simp
    · rfl

/-- A record that still satisfies the test after a change of those that do has been changed. -/
theorem changed_of_mem_mapIf {α : Type} {p : α → Bool} {f : α → α} {xs : List α} {y : α} (h : y ∈ mapIf p f xs) (hy : p y = true) :
    ∃ x ∈ xs, y = f x := by
  obtain ⟨x, hx, rfl⟩ := List.mem_map.1 h
  by_cases hp : p x = true
  · exact ⟨x, hx, if_pos hp⟩
  · simp [hp] at hy

/-- The units of an agent's die whose fills an invalidation at the agent meets. -/
def unitOnDie (a : Nat) : MissUnit → Bool
  | .l1 c => c / 156 == a
  | .llc d _ => d == a

/-- A fill that is on its way to an agent's die will not be kept after an invalidation (R193). -/
theorem invalidation_marks_fills (ha : a < 6) (s : State) (l : LineKey) :
    ∃ t, exec (.invalidation (.agent a) l) s = .next t ∧ ∀ m ∈ t.mem.miss, m.line = l →
      (∃ i, m.u = .llc a i) ∨ (∃ c, m.u = .l1 c ∧ c / 156 = a) → m.invalidated = true := by
  simp only [exec, execInvalidation, if_neg (Nat.not_le.2 ha)]
  refine ⟨_, rfl, fun m hm line place => ?_⟩
  have marked : m ∈ mapIf (fun m => m.line == l && unitOnDie a m.u) (fun m => { m with invalidated := true }) s.mem.miss := by
    split at hm
    · rwa [snoopChip_miss] at hm
    · rwa [answered_miss, invalidateAgent_miss] at hm
  have met : unitOnDie a m.u = true := by
    obtain ⟨i, unit⟩ | ⟨c, unit, die⟩ := place
    · simp [unit, unitOnDie]
    · simp [unit, unitOnDie, die]
  obtain ⟨x, -, rfl⟩ := changed_of_mem_mapIf marked (by simp [line, met])
  rfl

/-! ### What a request does at its home, and the entry that it leaves -/

/-- The command leaves an entry for the line. -/
def Leaves (i : Instr) (s : State) (l : LineKey) (e : DirEnt) : Prop := ∃ t, exec i s = .next t ∧ findDir t l = some e

section
variable (ha : a < 6) (owner : lineOwner s l = some n)
include ha owner

/-- RdS of a line that nobody holds makes the agent its one holder. -/
theorem rds_of_idle {sectors : BitVec 8} (h : Admitted s n l { agent := a, kind := 0, sectors := sectors } u)
    (entry : findDir u l = none) (away : a ≠ lineDie u l) (has : dirWays u n (lineDie u l) ≠ 0) (room : dirRoom u n l = .ok t) :
    Leaves (.rds a l sectors) s l { line := l, owner := n, state := .shared, holders := [a] } := by
  refine ⟨_, exec_rds ha owner sectors, ?_⟩
  rw [takeReq_of_idle h entry, findDir_beginIdle_read rfl away has room]

/-- RdS of a shared line adds the agent to its holders. -/
theorem rds_of_shared {sectors : BitVec 8} (h : Admitted s n l { agent := a, kind := 0, sectors := sectors } u)
    (entry : findDir u l = some e) (rests : transient e = false) (shared : e.state = .shared) (away : a ≠ lineDie u l)
    (near : ∀ c, nearest u l a (sectorsOf sectors) = some c → c < 4) :
    Leaves (.rds a l sectors) s l (addHolder e.resting a) := by
  refine ⟨_, exec_rds ha owner sectors, ?_⟩
  obtain rfl := findDir_line entry
  obtain ⟨v, home, ends⟩ := beginReq_read_ends (r := { agent := a, kind := 0, sectors := sectors }) shared rfl near
  rw [takeReq_of_resting h entry rests, ends]
  exact findDir_settleReq_read rfl (by rwa [home])

theorem rds_asks_port {sectors : BitVec 8} (h : Admitted s n l { agent := a, kind := 0, sectors := sectors } u)
    (entry : findDir u l = some e) (rests : transient e = false) (shared : e.state = .shared) {c : Nat} {x : HeldLine}
    (supplier : nearest u l a (sectorsOf sectors) = some c) (port : 4 ≤ c) (away : c ≠ lineDie u l) (held : chipLine u c l = some x) :
    exec (.rds a l sectors) s = .next (snoopChip
      (putDir u { e with req := some { agent := a, kind := 0, sectors := sectors }, fwd := some c }) (c - 4) x false) := by
  obtain rfl := findDir_line entry
  have asks := beginReq_read_asks_port (r := { agent := a, kind := 0, sectors := sectors }) shared rfl supplier port away held
  rw [exec_rds ha owner, takeReq_of_resting h entry rests, asks]

theorem rds_of_owned {sectors : BitVec 8} (h : Admitted s n l { agent := a, kind := 0, sectors := sectors } u)
    (entry : findDir u l = some e) (rests : transient e = false) {b : Nat} (owned : e.state = .owned b) (other : b ≠ a) :
    exec (.rds a l sectors) s = .next (putDir u { e with req := some { agent := a, kind := 0, sectors := sectors }, fwd := some b }) := by
  rw [exec_rds ha owner, takeReq_of_resting h entry rests, beginReq_owned owned other]

/-- RdM of a line that nobody holds makes the agent its owner. -/
theorem rdm_of_idle (h : Admitted s n l { agent := a, kind := 1, sectors := 255 } u)
    (entry : findDir u l = none) (away : a ≠ lineDie u l) (has : dirWays u n (lineDie u l) ≠ 0) (room : dirRoom u n l = .ok t) :
    Leaves (.rdm a l) s l { line := l, owner := n, state := .owned a } := by
  refine ⟨_, exec_rdm ha owner, ?_⟩
  rw [takeReq_of_idle h entry, findDir_beginIdle_own Nat.one_ne_zero away has room]

/-- Upg of a line that nobody holds any more acts as RdM (Table 6.3). -/
theorem upg_of_idle (h : Admitted s n l { agent := a, kind := 2, sectors := 255 } u)
    (entry : findDir u l = none) (away : a ≠ lineDie u l) (has : dirWays u n (lineDie u l) ≠ 0) (room : dirRoom u n l = .ok t) :
    Leaves (.upg a l) s l { line := l, owner := n, state := .owned a } := by
  refine ⟨_, exec_upg ha owner, ?_⟩
  rw [takeReq_of_idle h entry, findDir_beginIdle_own (Nat.succ_ne_zero 1) away has room]

/-- RdM of a line that nobody else holds makes the agent its owner at once. -/
theorem rdm_of_alone (h : Admitted s n l { agent := a, kind := 1, sectors := 255 } u) (entry : findDir u l = some e)
    (rests : transient e = false) (shared : e.state = .shared) (pointers : e.broadcast = false) (away : a ≠ lineDie u l)
    (alone : e.holders.filter (· != a) = []) :
    Leaves (.rdm a l) s l { e.resting with state := .owned a, holders := [], broadcast := false } := by
  refine ⟨_, exec_rdm ha owner, ?_⟩
  obtain rfl := findDir_line entry
  rw [takeReq_of_resting h entry rests, beginReq_own_ends shared pointers rfl alone,
    findDir_settleReq_own Nat.one_ne_zero (by rwa [lineDie_homeSupplies])]

/-- RdM of a shared line awaits the answers of the other holders. -/
theorem rdm_awaits (h : Admitted s n l { agent := a, kind := 1, sectors := 255 } u) (entry : findDir u l = some e)
    (rests : transient e = false) (shared : e.state = .shared) (pointers : e.broadcast = false) (others : e.holders.filter (· != a) ≠ []) :
    exec (.rdm a l) s = .next (putDir (homeSupplies u e.owner l { agent := a, kind := 1, sectors := 255 })
      { e with req := some { agent := a, kind := 1, sectors := 255 }, awaited := e.holders.filter (· != a) }) := by
  obtain rfl := findDir_line entry
  rw [exec_rdm ha owner, takeReq_of_resting h entry rests, beginReq_own_awaits shared pointers rfl others]

theorem rdm_of_owned (h : Admitted s n l { agent := a, kind := 1, sectors := 255 } u) (entry : findDir u l = some e)
    (rests : transient e = false) {b : Nat} (owned : e.state = .owned b) (other : b ≠ a) :
    exec (.rdm a l) s = .next (putDir u { e with req := some { agent := a, kind := 1, sectors := 255 }, fwd := some b }) := by
  rw [exec_rdm ha owner, takeReq_of_resting h entry rests, beginReq_owned owned other]

end

/-! ### Writebacks, drops, forwards -/

section
variable (entry : findDir s l = some e)
include entry

theorem exec_wbk (ha : a < 6) {dirty : BitVec 8} (writes : dirty ≠ 0) (owned : e.state = .owned a) :
    exec (.wbk a l dirty) s = .next (if e.fwd = none then putDir s { e with state := .writeback a }
      else if e.fwd = some a then putDir s { e with wbk := true } else s) := by
  have fit : ¬ (6 ≤ a ∨ dirty = 0) := not_or.2 ⟨Nat.not_le.2 ha, writes⟩
  simp only [exec, execWbk, if_neg fit, entry, withSome_some, owned, ne_eq, not_true_eq_false, if_false]

theorem exec_dropLine (ha : a < 6) (owned : e.state = .owned a) (clean : dirtyAt s a l = false) :
    exec (.dropLine a l) s = .next (dropOwned s a l e) := by
  simp [exec, execDropLine, Nat.not_le.2 ha, entry, owned, clean]

theorem exec_forwardLine (sent : e.fwd = some a) (asked : e.req = some r) (die : chipLine s a l = none) (calm : agentWaits s a l = false) :
    exec (.forwardLine a l) s = .next (forwarded s a l e r) := by
  simp [exec, execForwardLine, entry, sent, asked, die, calm]

theorem exec_writebackLands {b : Nat} (written : e.state = .writeback b) :
    exec (.writebackLands l) s = .next (afterReq (dropDir (dropCopy s none b l) l) l e.queue) := by
  simp [exec, execWritebackLands, entry, written]

end

/-! ### Invalidations at L1s, fills and die links -/

theorem exec_invalidation_core {c : Nat} (hc : c < 624) (s : State) (l : LineKey) :
    exec (.invalidation (.core c) l) s = .next { s with mem := { s.mem with invq := addNew (c, l) s.mem.invq } } := by
  simp [exec, execInvalidation, Nat.not_le.2 hc]

/-- An L1's fill comes after that of the home's LLC slice. -/
theorem fill_l1_waits {c : Nat} {m : MissReg} (reg : missOf s (.l1 c) l = some m) (home : missOf s (homeUnit s l) l ≠ none) :
    exec (.fillDataArrival (.l1 c) l) s = .next s := by
  simp [exec, execFillDataArrival, reg, Option.isSome_iff_ne_none.2 home]

theorem fill_l1_invalidated {c : Nat} {m : MissReg} (reg : missOf s (.l1 c) l = some m) (home : missOf s (homeUnit s l) l = none)
    (gone : m.invalidated = true) :
    exec (.fillDataArrival (.l1 c) l) s = .next (queueWaiters (freeMiss s (.l1 c) l) m m.waiters) := by
  simp [exec, execFillDataArrival, reg, home, gone]

theorem fill_llc_invalidated {d i : Nat} {m : MissReg} (reg : missOf s (.llc d i) l = some m) (gone : m.invalidated = true)
    (alone : m.waiters = []) : exec (.fillDataArrival (.llc d i) l) s = .next (queueWaiters (freeMiss s (.llc d i) l) m []) := by
  simp [exec, execFillDataArrival, reg, gone, alone]

/-- A link in use that fails to train fewer than three times is out of service, once a frozen one has drained (R25, R203). -/
theorem exec_dieLinkRetrain {k fails : Nat} (hk : k < 8) (alive : bitN (s.getObj Obj.linksDead) k = false)
    (up : 3 ≤ s.getObj Obj.moduleState) (few : fails < 3) :
    exec (.dieLinkRetrain k fails) s = .next (if s.getObj (Obj.linkFreeze k) = 1 ∧ s.getObj (Obj.linkDrained k) = 0 then s
      else countOut s { s with mem := { s.mem with retrain := addNew k s.mem.retrain } }) := by
  simp only [exec, execDieLinkRetrain, if_neg (Nat.not_le.2 hk), alive, up, few, if_true, decide_true, Bool.not_false, Bool.and_true, onlyIf_true]
  split_ifs <;> rfl

theorem exec_dieLinkReturn {k : Nat} (out : k ∈ s.mem.retrain) :
    exec (.dieLinkReturn k) s = .next { s with mem := { s.mem with retrain := s.mem.retrain.filter (· != k) } } := by
  simp [exec, execDieLinkReturn, out]

/-- Settles O51: a request is held, queues, or begins by the state of the line's entry; answers, invalidations, fills and die links each have
their equation. -/
theorem homeDirectories : Obligations.HomeDirectories := by
  unfold Obligations.HomeDirectories
  intro s a l ha home leaves
  refine ⟨fun n owner held sectors => ?requests, fun e entry => ?answers, invalidation_marks_fills ha s l,
    fun c hc => exec_invalidation_core hc s l, fun c m reg => ⟨fill_l1_waits reg, fill_l1_invalidated reg⟩,
    fun d i m reg => fill_llc_invalidated reg, fun k fails hk alive up few => ?retrain, fun k => exec_dieLinkReturn⟩
  case requests =>
    intro rd own
    refine ⟨fun road => ?_, fun road => ?_, fun u gate road => ?_, fun road => ?read, fun road u gate => ?ownership⟩
    · rw [exec_rds ha owner, takeReq_of_no_road road]
    · rw [exec_rdm ha owner, takeReq_of_no_road road]
    · rw [exec_rdm ha owner, takeReq_of_image_wait held road Nat.one_ne_zero gate]
    case read =>
      have adm := admitted_read (n := n) held road
      refine ⟨fun entry away has t room => rds_of_idle ha owner adm entry away has room, fun e entry => ⟨fun busy => ?_,
        fun rests shared => ⟨rds_of_shared ha owner adm entry rests shared, fun c h => rds_asks_port ha owner adm entry rests shared⟩,
        fun b rests owned other => rds_of_owned ha owner adm entry rests owned other⟩⟩
      rw [exec_rds ha owner, takeReq_of_transient adm entry busy]
    case ownership =>
      have adm := admitted_own held road gate (.inl rfl)
      have upg := admitted_own held road gate (.inr rfl)
      refine ⟨fun entry away has t room => ⟨rdm_of_idle ha owner adm entry away has room, upg_of_idle ha owner upg entry away has room⟩,
        fun e entry => ⟨fun busy => ⟨?_, ?_⟩,
          fun rests shared pointers => ⟨rdm_of_alone ha owner adm entry rests shared pointers, rdm_awaits ha owner adm entry rests shared pointers⟩,
          fun b rests owned other => rdm_of_owned ha owner adm entry rests owned other⟩⟩
      · rw [exec_rdm ha owner, takeReq_of_transient adm entry busy]
      · rw [exec_upg ha owner, takeReq_of_transient upg entry busy]
  case answers =>
    refine ⟨fun dirty writes owned => ⟨fun free => ?_, fun sent => ?_⟩, fun owned free clean => ?_,
      fun r sent asked die calm => exec_forwardLine entry sent asked die calm, fun b => exec_writebackLands entry⟩
    · rw [exec_wbk entry ha writes owned, if_pos free]
    · rw [exec_wbk entry ha writes owned, if_neg (by simp [sent]), if_pos sent]
    · rw [exec_dropLine entry ha owned clean, dropOwned, if_pos free]
  case retrain =>
    rw [exec_dieLinkRetrain hk alive up few]
    exact ⟨fun frozen undrained => by rw [if_pos ⟨frozen, undrained⟩], fun idle => by rw [if_neg (not_and_or.2 idle)]⟩

end Sys2Proof.Machine
end

section
/-! SUPPORT. Proofs of the number-format chapter: results and arithmetic traps of the vector class (R50 to R53, R125). -/

namespace Sys2Proof.Machine

variable {s : State} {g : GroupRef} {w : Word64} {h : Here} {ops : List Nat}

/-! ### Masks and their lanes -/

/-- The sum that a mask of the first `n` lanes is made of: it stays below 2^n, and its bits are the test. -/
theorem maskSum_spec (p : Nat → Bool) (n : Nat) :
    (List.range n).foldl (fun a i => if p i then a + 2 ^ i else a) 0 < 2 ^ n ∧
      ∀ j < n, ((List.range n).foldl (fun a i => if p i then a + 2 ^ i else a) 0).testBit j = p j := by
  induction n with
  | zero => simp
  | succ n ih =>
    obtain ⟨below, bits⟩ := ih
    rw [List.range_succ, List.foldl_append]
    generalize (List.range n).foldl (fun a i => if p i then a + 2 ^ i else a) 0 = a at below bits ⊢
    simp only [List.foldl_cons, List.foldl_nil]
    have fits : a < 2 ^ (n + 1) := below.trans (Nat.pow_lt_pow_succ Nat.one_lt_two)
    split
    · next set =>
      refine ⟨by omega, fun j hj => ?_⟩
      rw [Nat.add_comm]
      obtain rfl | lower := Nat.eq_or_lt_of_le (Nat.le_of_lt_succ hj)
      · rw [Nat.testBit_two_pow_add_eq, Nat.testBit_lt_two_pow below, set]; rfl
      · rw [Nat.testBit_two_pow_add_gt lower, bits j lower]
    · next clear =>
      refine ⟨fits, fun j hj => ?_⟩
      obtain rfl | lower := Nat.eq_or_lt_of_le (Nat.le_of_lt_succ hj)
      · simpa [Nat.testBit_lt_two_pow below] using clear
      · exact bits j lower

/-- The lanes of a mask made from a test are those that pass it. -/
theorem lanesOf_maskOf (p : Nat → Bool) : lanesOf (maskOf p) = (List.range 32).filter p := by
  obtain ⟨below, bits⟩ := maskSum_spec p 32
  refine List.filter_congr fun j hj => ?_
  rw [maskOf, BitVec.toNat_ofNat, Nat.mod_eq_of_lt below, bits j (List.mem_range.1 hj)]

/-! ### The arithmetic trap (R53) -/

/-- The lanes gathered by a test, in their order and without a repeat. -/
def gatherLanes (p : Nat → Bool) (ls l : List Nat) : List Nat := ls.foldl (fun l i => if p i then addNew i l else l) l

theorem mem_gatherLanes {p : Nat → Bool} {ls l : List Nat} {j : Nat} : j ∈ gatherLanes p ls l ↔ j ∈ l ∨ (j ∈ ls ∧ p j = true) := by
  induction ls generalizing l with
  | nil => simp [gatherLanes]
  | cons i ls ih =>
    have first : j ∈ (if p i then addNew i l else l) ↔ j ∈ l ∨ (j = i ∧ p i = true) := by
      unfold addNew
      split_ifs <;> grind
    rw [show gatherLanes p (i :: ls) l = gatherLanes p ls (if p i then addNew i l else l) from rfl, ih, first, List.mem_cons]
    grind

/-- What the results `q` of some lanes raise in all. -/
def raisedBy (q : Nat → List Rounded) (ls : List Nat) : Raised := ls.foldl (fun r i => r.add i (q i)) {}

theorem raisedBy_invalid (q : Nat → List Rounded) (ls : List Nat) :
    (raisedBy q ls).invalid = gatherLanes (fun i => (q i).any (·.invalid)) ls [] := (List.foldl_hom Raised.invalid fun _ _ => rfl).symm

theorem raisedBy_overflow (q : Nat → List Rounded) (ls : List Nat) :
    (raisedBy q ls).overflow = gatherLanes (fun i => (q i).any (·.overflow)) ls [] := (List.foldl_hom Raised.overflow fun _ _ => rfl).symm

/-- Whether a lane that acts raises either condition. -/
def trapsAt (q : Nat → List Rounded) (ls : List Nat) (i : Nat) : Bool := ls.contains i && (q i).any fun x => x.invalid || x.overflow

theorem raisedBy_contains (q : Nat → List Rounded) (ls : List Nat) (i : Nat) :
    ((raisedBy q ls).invalid.contains i || (raisedBy q ls).overflow.contains i) = trapsAt q ls i := by
  rw [Bool.eq_iff_iff]
  simp only [trapsAt, Bool.or_eq_true, Bool.and_eq_true, List.contains_iff_mem, raisedBy_invalid, raisedBy_overflow, mem_gatherLanes,
    List.any_eq_true, List.not_mem_nil, false_or]
  grind

/-- The trap is that of the lowest lane that raises a condition, with the mask of all that do. -/
theorem trap_raisedBy {q : Nat → List Rounded} {ls : List Nat} {low : Nat} (first : (List.range 32).find? (trapsAt q ls) = some low) :
    (raisedBy q ls).trap = some (if (q low).any (·.invalid) then 0x4A else 0x4B, maskOf (trapsAt q ls)) := by
  have acts : low ∈ ls := by
    have := List.find?_some first
    simp only [trapsAt, Bool.and_eq_true, List.contains_iff_mem] at this
    exact this.1
  have lowest : ∃ rest, lanesOf (maskOf (trapsAt q ls)) = low :: rest := by
    rw [lanesOf_maskOf]
    exact List.head?_eq_some_iff.1 (List.head?_filter.trans first)
  obtain ⟨rest, lanes⟩ := lowest
  have cause : (raisedBy q ls).invalid.contains low = (q low).any (·.invalid) := by
    rw [Bool.eq_iff_iff, List.contains_iff_mem, raisedBy_invalid, mem_gatherLanes]
    simp [acts]
  simp only [Raised.trap, raisedBy_contains, lanes, cause]

/-! ### Instructions that write a result per lane -/

theorem cur_of_here (found : here? s g = some h) : h.t.cur = some h.p := by
  unfold here? at found
  split at found
  · cases found
  · split at found
    · cases found
    · split at found
      · cases found
      · obtain ⟨p, cur, rfl⟩ := Option.map_eq_some_iff.1 found
        exact cur

/-- What an instruction asks for whose lanes have the results `f`: `n` registers from D on in every acting lane, or the arithmetic trap. -/
def lanesAct (s : State) (h : Here) (w : Word64) (n : Nat) (f : Nat → Nat × List Rounded) : Act :=
  match (if h.l.trap then (raisedBy (fun i => (f i).2) (acting h w)).trap else none) with
  | some (c, lm) => .fault s c lm 0 w
  | none => .step s (writeLanes h.t (fD w) n (acting h w) fun i => (f i).1)

theorem vectorOp_eq (ops : List Nat) (s : State) (g : GroupRef) (w : Word64) (f : Group → Nat → Nat × List Rounded) :
    vectorOp ops s g w f = runInstr ops s g w fun s h => lanesAct s h w (typeRegs (vecType w)) (f h.t) := by
  simp only [vectorOp, List.foldl_map]
  rfl

theorem lanesAct_of_trap_off (off : h.l.trap = false) (n : Nat) (f : Nat → Nat × List Rounded) :
    lanesAct s h w n f = .step s (writeLanes h.t (fD w) n (acting h w) fun i => (f i).1) := by
  simp [lanesAct, off]

theorem lanesAct_of_trap_on (on : h.l.trap = true) {n low : Nat} {f : Nat → Nat × List Rounded}
    (first : (List.range 32).find? (trapsAt (fun i => (f i).2) (acting h w)) = some low) :
    lanesAct s h w n f =
      .fault s (if (f low).2.any (·.invalid) then 0x4A else 0x4B) (maskOf (trapsAt (fun i => (f i).2) (acting h w))) 0 w := by
  simp only [lanesAct, on, if_true, trap_raisedBy first]

theorem retires_of_vectorOp {i : Instr} {f : Group → Nat → Nat × List Rounded} {v : Nat → Nat} (run : Runs s g w h) (off : h.l.trap = false)
    (means : exec i s = vectorOp ops s g w f) (value : ∀ i, (f h.t i).1 = v i) : Retires s g w h i ops (laneWrite h w v) := by
  intro op
  rw [means, vectorOp_eq, runInstr_of_runs run op, lanesAct_of_trap_off off, funext value]
  rfl

theorem faults_of_vectorOp {i : Instr} {f : Group → Nat → Nat × List Rounded} {low : Nat} (run : Runs s g w h) (on : h.l.trap = true)
    (means : exec i s = vectorOp ops s g w f) (first : (List.range 32).find? (trapsAt (fun i => (f h.t i).2) (acting h w)) = some low)
    (op : fOpcode w ∈ ops) :
    exec i s = .next (faulted s h (groupFault h (if (f h.t low).2.any (·.invalid) then 0x4A else 0x4B)
      (maskOf (trapsAt (fun i => (f h.t i).2) (acting h w))) 0 w)) := by
  rw [means, vectorOp_eq, runInstr_of_runs run op, lanesAct_of_trap_on on first]
  rfl

/-! ### Elements of a lane's result -/

theorem packElems_map_mod (k : Nat) (f : Nat → Nat) (js : List Nat) :
    packElems k (js.map fun j => f j % 2 ^ k) = packElems k (js.map f) := by
  induction js with
  | nil => rfl
  | cons j js ih => simp only [List.map_cons, packElems, ih, Nat.mod_mod]

theorem perElem_fst (ty : Nat) (f : Nat → Rounded) :
    (perElem ty f).1 = packElems (elemWidth ty) ((List.range (elemCount ty)).map fun j => (f j).bits) := by
  simp [perElem, Function.comp_def]

theorem binElem_fst_of_float {f : FFmt} (fmt : typeFmt (vecType w) = some f) (fi : Int → Int → Int) (ff : FFmt → Nat → FVal → FVal → Rounded)
    (t : Group) (i : Nat) :
    (binElem w fi ff t i).1 = elementwise w t (fun a b => (ff f (vecRm w) (decodeF f a) (decodeF f b)).bits) i := by
  simp only [binElem, perElem_fst, elementwise, fmt]

theorem rawElem_fst (w : Word64) (f : Nat → Nat → Nat) (t : Group) (i : Nat) : (rawElem w f t i).1 = elementwise w t f i := by
  simp only [rawElem, perElem_fst, packElems_map_mod, elementwise]

/-- An exact operation whose meaning on elements is `v` where the type is that of the word. -/
theorem retires_of_rawElem {i : Instr} {f v : Nat → Nat → Nat} (run : Runs s g w h) (off : h.l.trap = false)
    (means : exec i s = vectorOp ops s g w (rawElem w f)) (value : ∀ a b, f a b = v a b) :
    Retires s g w h i ops (laneWrite h w (elementwise w h.t v)) :=
  retires_of_vectorOp run off means fun i => by rw [rawElem_fst, funext₂ value]

theorem minMaxElem_of_float {ty : Nat} {f : FFmt} (fmt : typeFmt ty = some f) (isMax : Bool) (a b : Nat) :
    minMaxElem ty isMax a b = minMaxF f isMax a b := by simp only [minMaxElem, fmt]

theorem absElem_of_float {ty : Nat} {f : FFmt} (fmt : typeFmt ty = some f) (a : Nat) :
    absElem ty a = if decodeF f a = .nan then fmtNaN f else a % 2 ^ (elemWidth ty - 1) := by simp only [absElem, fmt]

theorem negElem_of_float {ty : Nat} {f : FFmt} (fmt : typeFmt ty = some f) (a : Nat) :
    negElem ty a = if decodeF f a = .nan then fmtNaN f else a ^^^ 2 ^ (elemWidth ty - 1) := by simp only [negElem, fmt]

/-! ### What the instructions are: the operation on each lane -/

theorem exec_add (g : GroupRef) (w : Word64) (s : State) : exec (.add g w) s = vectorOp [0x20, 0x40] s g w (binElem w (· + ·) addF) := rfl

theorem exec_sub (g : GroupRef) (w : Word64) (s : State) :
    exec (.sub g w) s = vectorOp [0x21, 0x41] s g w (binElem w (· - ·) fun f rm a b => addF f rm a (negF b)) := rfl

theorem exec_mul (g : GroupRef) (w : Word64) (s : State) : exec (.mul g w) s = vectorOp [0x22, 0x42] s g w (binElem w (· * ·) mulF) := rfl

theorem exec_div (g : GroupRef) (w : Word64) (s : State) : exec (.div g w) s = vectorOp [0x24] s g w (binElem w (fun a _ => a) divF) := rfl

theorem exec_min (g : GroupRef) (w : Word64) (s : State) :
    exec (.min g w) s = vectorOp [0x26, 0x46] s g w (rawElem w (minMaxElem (vecType w) false)) := rfl

theorem exec_max (g : GroupRef) (w : Word64) (s : State) :
    exec (.max g w) s = vectorOp [0x27, 0x47] s g w (rawElem w (minMaxElem (vecType w) true)) := rfl

theorem exec_abs (g : GroupRef) (w : Word64) (s : State) :
    exec (.abs g w) s = vectorOp [0x28] s g w (rawElem w fun a _ => absElem (vecType w) a) := rfl

theorem exec_neg (g : GroupRef) (w : Word64) (s : State) :
    exec (.neg g w) s = vectorOp [0x29] s g w (rawElem w fun a _ => negElem (vecType w) a) := rfl

/-- The lane result of SQRT on a floating-point type. -/
def sqrtLane (w : Word64) (t : Group) (i : Nat) : Nat × List Rounded :=
  perElem (vecType w) fun j =>
    let f := (typeFmt (vecType w)).getD fmtF32
    sqrtF f (vecRm w) (decodeF f (elemOf (elemWidth (vecType w)) j (vecA t w i)))

/-- The lane result of FMA on a floating-point type. -/
def fmaLane (w : Word64) (t : Group) (i : Nat) : Nat × List Rounded :=
  let f := (typeFmt (vecType w)).getD fmtF32
  let e (j v : Nat) : FVal := decodeF f (elemOf (elemWidth (vecType w)) j v)
  perElem (vecType w) fun j => fmaF f (vecRm w) (e j (vecA t w i)) (e j (vecB t w i)) (e j (vecC t w i))

theorem exec_sqrt (g : GroupRef) (w : Word64) (s : State) : exec (.sqrt g w) s = vectorOp [0x25] s g w (sqrtLane w) := rfl

theorem exec_fma (g : GroupRef) (w : Word64) (s : State) : exec (.fma g w) s = vectorOp [0x23] s g w (fmaLane w) := rfl

theorem exec_cvt (g : GroupRef) (w : Word64) (s : State) :
    exec (.cvt g w) s = runInstr [0x2A] s g w fun s h => lanesAct s h w (cvtRegs (fC w % 16) (fType w)) (cvtLane s h w) := by
  simp only [show exec (.cvt g w) s = execCvt g w s from rfl, execCvt, List.foldl_map]
  rfl

theorem sqrtLane_fst {f : FFmt} (fmt : typeFmt (vecType w) = some f) (t : Group) (i : Nat) :
    (sqrtLane w t i).1 = elementwise w t (fun a _ => (sqrtF f (vecRm w) (decodeF f a)).bits) i := by
  simp only [sqrtLane, perElem_fst, fmt, Option.getD_some, elementwise]

/-- The lane result of RED: over the lanes that act on the group's current path. -/
def redLane (w : Word64) (t : Group) (i : Nat) : Nat × List Rounded :=
  (reduce t w (match t.cur with
    | some p => actMask t p w
    | none => 0)).getD i (0, [])

theorem exec_red (g : GroupRef) (w : Word64) (s : State) : exec (.red g w) s = vectorOp [0x36] s g w (redLane w) := rfl

theorem redLane_of_cur {t : Group} {p : Path} (cur : t.cur = some p) (i : Nat) :
    redLane w t i = (reduce t w (actMask t p w)).getD i (0, []) := by simp only [redLane, cur]

/-! ### The statements of R50 to R53 and R125 -/

theorem retires_red (run : Runs s g w h) (off : h.l.trap = false) :
    Retires s g w h (.red g w) [0x36] (laneWrite h w fun i => ((reduce h.t w (actMask h.t h.p w)).getD i (0, [])).1) :=
  retires_of_vectorOp run off (exec_red g w s) fun i => by rw [redLane_of_cur (cur_of_here run.1)]

theorem retires_cvt (run : Runs s g w h) (off : h.l.trap = false) :
    Retires s g w h (.cvt g w) [0x2A] (writeLanes h.t (fD w) (cvtRegs (fC w % 16) (fType w)) (acting h w) fun i => (cvtLane s h w i).1) := by
  intro op
  rw [exec_cvt, runInstr_of_runs run op, lanesAct_of_trap_off off]
  rfl

/-- Settles O7: each instruction writes the result of its lanes, packed element by element. -/
theorem vectorFloatResults : Obligations.VectorFloatResults := by
  unfold Obligations.VectorFloatResults
  intro s g w h run off
  refine ⟨fun f fmt _ => ?_, retires_red run off, retires_cvt run off⟩
  have binary {i : Instr} {ops : List Nat} {fi : Int → Int → Int} {ff : FFmt → Nat → FVal → FVal → Rounded}
      (means : exec i s = vectorOp ops s g w (binElem w fi ff)) :
      Retires s g w h i ops (laneWrite h w (elementwise w h.t fun a b => (ff f (vecRm w) (decodeF f a) (decodeF f b)).bits)) :=
    retires_of_vectorOp run off means (binElem_fst_of_float fmt fi ff h.t)
  refine ⟨?add, ?sub, ?mul, ?div, ?sqrt, ?min, ?max, ?abs, ?neg, ?fma⟩
  case add => exact (binary (exec_add g w s) :)
  case sub => exact (binary (exec_sub g w s) :)
  case mul => exact (binary (exec_mul g w s) :)
  case div => exact (binary (exec_div g w s) :)
  case sqrt => exact retires_of_vectorOp run off (exec_sqrt g w s) (sqrtLane_fst fmt h.t)
  case min => exact retires_of_rawElem run off (exec_min g w s) (minMaxElem_of_float fmt false)
  case max => exact retires_of_rawElem run off (exec_max g w s) (minMaxElem_of_float fmt true)
  case abs => exact retires_of_rawElem run off (exec_abs g w s) fun a _ => absElem_of_float fmt a
  case neg => exact retires_of_rawElem run off (exec_neg g w s) fun a _ => negElem_of_float fmt a
  case fma => exact retires_of_vectorOp run off (exec_fma g w s) fun i => by simp only [fmaLane, perElem_fst, fmt, Option.getD_some]

/-- Settles O8: what the lanes raise is gathered in lane order, so the trap takes the lowest lane's cause and every lane's bit. -/
theorem arithmeticTrapFaults : Obligations.ArithmeticTrapFaults := by
  unfold Obligations.ArithmeticTrapFaults
  intro s g w h run on
  refine ⟨fun low first op => ?add, fun low first op => ?sub, fun low first op => ?mul, fun low first op => ?cvt⟩
  case add => exact faults_of_vectorOp run on (exec_add g w s) first op
  case sub => exact faults_of_vectorOp run on (exec_sub g w s) first op
  case mul => exact faults_of_vectorOp run on (exec_mul g w s) first op
  case cvt =>
    rw [exec_cvt, runInstr_of_runs run op, lanesAct_of_trap_on on first]
    rfl

end Sys2Proof.Machine
end

section
/-! SUPPORT. Proofs of collectives (R61, R338, R346 to R349): what a read or a write of a run of bytes leaves of channels and network, how a
collective goes on, and the statement. -/

namespace Sys2Proof.Machine

variable {s t v : State} {g : Nat} {x : Coll} {c : Cmd}

/-! ### Accesses to memory leave channels and network -/

/-- The channels, with the commands in flight, and the network, with its collectives and frames. -/
def chansNet (s : State) : List Chan × Net := (s.chans, s.net)

theorem chans_of_chansNet (h : chansNet t = chansNet s) : t.chans = s.chans := congrArg Prod.fst h

theorem net_of_chansNet (h : chansNet t = chansNet s) : t.net = s.net := congrArg Prod.snd h

@[simp] theorem chansNet_addObj (s : State) (k n : Nat) : chansNet (s.addObj k n) = chansNet s := rfl
@[simp] theorem chansNet_useFree (s : State) (n : Nat) : chansNet (s.useFree n) = chansNet s := rfl
@[simp] theorem chansNet_putDir (s : State) (e : DirEnt) : chansNet (putDir s e) = chansNet s := rfl
@[simp] theorem chansNet_dropDir (s : State) (l : LineKey) : chansNet (dropDir s l) = chansNet s := rfl
@[simp] theorem chansNet_setUnder (s : State) (d x : Nat) (u : List (Nat × Sector)) : chansNet (setUnder s d x u) = chansNet s := rfl

@[simp] theorem chansNet_invalidateDie (s : State) (wr : Option Nat) (d : Nat) (l : LineKey) :
    chansNet (invalidateDie s wr d l) = chansNet s := by rw [invalidateDie_eq]; rfl

@[simp] theorem chansNet_dirtyHome (s : State) (d x : Nat) : chansNet (dirtyHome s d x) = chansNet s := by rw [dirtyHome_eq]; rfl

@[simp] theorem chansNet_invalidateL1 (s : State) (wr : Option Nat) (l : LineKey) : chansNet (invalidateL1 s wr l) = chansNet s :=
  foldl_leaves chansNet (fun s d => chansNet_invalidateDie s wr d l) _ s

@[simp] theorem chansNet_snoopChip (s : State) (p : Nat) (h : HeldLine) (w : Bool) : chansNet (snoopChip s p h w) = chansNet s := by
  simp only [snoopChip]
  split_ifs <;> rfl

@[simp] theorem chansNet_dropCopy (s : State) (wr : Option Nat) (a : Nat) (l : LineKey) : chansNet (dropCopy s wr a l) = chansNet s := by
  simp only [dropCopy]
  split_ifs
  · rfl
  · rw [chansNet_invalidateDie]
    cases l with
    | dev x => exact chansNet_dirtyHome s a x
    | shr m x => rfl

theorem chansNet_llmRoom {n d x : Nat} (room : llmRoom s n d x = some t) : chansNet t = chansNet s := by
  simp only [llmRoom] at room
  split at room
  · cases room
  · split at room
    · cases room; rfl
    · split at room
      · cases room
      · split at room
        · cases room; rfl
        · split at room
          · split at room
            · cases room; simp
            · cases room; rfl
          · cases room; rfl

@[simp] theorem chansNet_llmTouch (s : State) (n d x : Nat) (is : List Nat) (w : Bool) (f : Fill) :
    chansNet (llmTouch s n d x is w f) = chansNet s := by
  simp only [llmTouch]
  have counted : chansNet (if llmHit s d x is = true then s.addObj (Obj.llmHits n) 1 else s.addObj (Obj.llmMisses n) 1) = chansNet s := by
    split_ifs <;> rfl
  generalize (if llmHit s d x is = true then s.addObj (Obj.llmHits n) 1 else s.addObj (Obj.llmMisses n) 1) = u at counted ⊢
  split
  · exact counted
  · split
    · exact counted
    · split
      · exact counted
      · next room => exact (chansNet_llmRoom room).trans counted

@[simp] theorem chansNet_evictDir (s : State) (e : DirEnt) : chansNet (evictDir s e) = chansNet s := by
  have copies (s : State) : chansNet ((agentsOf e).foldl (fun s a => dropCopy s none a e.line) s) = chansNet s :=
    foldl_leaves chansNet (fun s a => chansNet_dropCopy s none a e.line) _ s
  have snoops (hs : List (Nat × HeldLine)) (s : State) : chansNet (hs.foldl (fun s p => snoopChip s p.1 p.2 true) s) = chansNet s :=
    foldl_leaves chansNet (fun s p => chansNet_snoopChip s p.1 p.2 true) hs s
  simp only [evictDir]
  split <;> split_ifs <;> simp [copies, snoops]

/-- Room in a home directory, made or waited for. -/
def roomState : Except State State → State
  | .ok s => s
  | .error s => s

@[simp] theorem chansNet_dirRoom (s : State) (n : Nat) (l : LineKey) : chansNet (roomState (dirRoom s n l)) = chansNet s := by
  simp only [dirRoom]
  split_ifs
  · rfl
  · split
    · rfl
    · split_ifs <;> exact chansNet_evictDir s _

theorem chansNet_of_dirRoom {n : Nat} {l : LineKey} {r : Except State State} (room : dirRoom s n l = r) : chansNet (roomState r) = chansNet s :=
  room ▸ chansNet_dirRoom s n l

@[simp] theorem chansNet_dirHomeRead (s : State) (l : LineKey) : chansNet (dirHomeRead s l) = chansNet s := by
  simp only [dirHomeRead]
  split
  · split
    · cases l <;> simp
    · rfl
  · rfl

@[simp] theorem chansNet_dirRead (s : State) (n d : Nat) (l : LineKey) : chansNet (dirRead s n d l) = chansNet s := by
  simp only [dirRead]
  split
  · split <;> exact chansNet_of_dirRoom ‹_›
  · split
    · rfl
    · split <;> exact chansNet_dirHomeRead s l

@[simp] theorem chansNet_dropOthers (s : State) (wr : Option Nat) (d : Nat) (l : LineKey) : chansNet (dropOthers s wr d l) = chansNet s := by
  have copies (as : List Nat) (s : State) : chansNet (as.foldl (fun s a => dropCopy s wr a l) s) = chansNet s :=
    foldl_leaves chansNet (fun s a => chansNet_dropCopy s wr a l) as s
  simp only [dropOthers, chansNet_invalidateL1]
  split
  · rfl
  · rw [copies]
    split_ifs <;> rfl

@[simp] theorem chansNet_dirWrite (s : State) (wr : Option Nat) (n d : Nat) (l : LineKey) (own : Bool) :
    chansNet (dirWrite s wr n d l own) = chansNet s := by
  have others := chansNet_dropOthers s wr d l
  simp only [dirWrite]
  split
  · split
    · split <;> exact (chansNet_of_dirRoom ‹_›).trans others
    · exact others
  · split_ifs <;> simp

@[simp] theorem chansNet_readVia (s : State) (n d : Nat) (l : LineKey) (is : List Nat) (f : Fill) :
    chansNet (readVia s n d l is f) = chansNet s := by
  cases l with
  | dev x => simp only [readVia]; split_ifs <;> simp
  | shr m x => simp only [readVia]; split_ifs <;> simp

@[simp] theorem chansNet_ownWrite (s : State) (wr : Option Nat) (n d x i : Nat) (f : Fill) : chansNet (ownWrite s wr n d x i f) = chansNet s := by
  simp only [ownWrite]
  split
  · simp
  · split <;> simp

@[simp] theorem chansNet_writeVia (s : State) (wr : Option Nat) (n d : Nat) (l : LineKey) (i : Nat) (f : Fill) :
    chansNet (writeVia s wr n d l i f) = chansNet s := by
  cases l with
  | dev x => simp only [writeVia]; split_ifs <;> simp
  | shr m x => simp [writeVia]

@[simp] theorem chansNet_readSect (s : State) (k : SectKey) : chansNet (readSect s k).1 = chansNet s := by
  simp only [readSect]
  split <;> rfl

@[simp] theorem chansNet_agentSect (f : Fill) (a : Asker) (s : State) (n : Nat) (k : SectKey) : chansNet (agentSect f a s n k).1 = chansNet s := by
  simp only [agentSect]
  split <;> simp [homeSectAs]

@[simp] theorem chansNet_mergeDead (s : State) (wr : Option Nat) (k : SectKey) (len : Nat) : chansNet (mergeDead s wr k len) = chansNet s := by
  simp only [mergeDead]
  split
  · rfl
  · split_ifs
    · rfl
    · cases wr <;> exact chansNet_readSect s k

@[simp] theorem chansNet_freshL1 (s : State) (wr : Option Nat) (k : SectKey) : chansNet (freshL1 s wr k) = chansNet s := by cases wr <;> rfl

@[simp] theorem chansNet_updateL1 (s : State) (wr : Option Nat) (k : SectKey) (off : Nat) (bs : List Byte) :
    chansNet (updateL1 s wr k off bs) = chansNet s := by cases wr <;> rfl

@[simp] theorem chansNet_putSect (s : State) (k : SectKey) (off : Nat) (bs : List Byte) : chansNet (putSect s k off bs) = chansNet s := by
  simp only [putSect]
  split <;> rfl

@[simp] theorem chansNet_writeSectAt (die : Nat) (f : Fill) (s : State) (wr : Option Nat) (n : Nat) (k : SectKey) (off : Nat) (bs : List Byte) :
    chansNet (writeSectAt die f s wr n k off bs) = chansNet s := by
  have landed : chansNet (putSect (writeVia (freshL1 (mergeDead s wr k bs.length) wr k) wr n die k.line k.i f) k off bs) = chansNet s := by simp
  simp only [writeSectAt, chansNet_updateL1]
  split_ifs <;> exact landed

@[simp] theorem chansNet_noteCode (s : State) (m addr n : Nat) : chansNet (noteCode s m addr n) = chansNet s := by
  simp only [noteCode]
  split <;> rfl

@[simp] theorem chansNet_writePieceAs (f : Fill) (s : State) (wr : Option Nat) (m space addr : Nat) (k : SectKey) (bs : List Byte) :
    chansNet (writePieceAs f s wr m space addr k bs) = chansNet s := by
  simp only [writePieceAs, writePieceAt, chansNet_writeSectAt]
  split_ifs
  · rfl
  · exact chansNet_noteCode (logWrite s m addr) m addr bs.length

theorem chansNet_writeRunGo (f : Fill) (wr : Option Nat) (a : Asker) (m space fuel : Nat) (s : State) (addr : Nat) (bs : List Byte) (done : Nat) :
    chansNet (writeRunGo f wr a m space fuel s addr bs done).1 = chansNet s := by
  induction fuel generalizing s addr bs done with
  | zero => rfl
  | succ fuel ih =>
    simp only [writeRunGo]
    split
    · rfl
    · split
      · rfl
      · rw [ih, chansNet_writePieceAs]

@[simp] theorem chansNet_writeRunAs (f : Fill) (wr : Option Nat) (a : Asker) (s : State) (m space addr : Nat) (bs : List Byte) :
    chansNet (writeRunAs f wr a s m space addr bs).1 = chansNet s := chansNet_writeRunGo f wr a m space _ s addr bs 0

theorem chansNet_readRunGo (f : Fill) (a : Asker) (m space fuel : Nat) {addr n : Nat} {bs : List Byte}
    (read : readRunGo f a m space fuel s addr n = .ok (t, bs)) : chansNet t = chansNet s := by
  induction fuel generalizing s t addr n bs with
  | zero => cases read; rfl
  | succ fuel ih =>
    simp only [readRunGo] at read
    split at read
    · cases read; rfl
    · split at read
      · cases read
      · split at read
        · cases read
        · next rest => cases read; rw [ih rest, chansNet_agentSect]

theorem chansNet_readRunAs {f : Fill} {a : Asker} {m space addr n : Nat} {bs : List Byte}
    (read : readRunAs f a s m space addr n = .ok (t, bs)) : chansNet t = chansNet s := chansNet_readRunGo f a m space _ read

/-! ### Keyed records, commands in flight, the table of collectives -/

theorem find?_upsert {α : Type} (key : α → Nat) (x : α) (l : List α) : (upsert key x l).find? (fun y => key y == key x) = some x := by
  induction l with
  | nil => simp [upsert]
  | cons y l ih =>
    simp only [upsert]
    split_ifs with e
    · simp
    · simp [e, ih]

@[simp] theorem coll?_setColl (s : State) (x : Coll) : (s.setColl x).coll? x.g = some x := find?_upsert Coll.g x s.net.colls

theorem coll?_g (found : s.coll? g = some x) : x.g = g := by simpa using List.find?_some found

theorem findFlight_seq {ch seq : Nat} (found : findFlight s ch seq = some c) : c.seq = seq := by simpa using List.find?_some found

theorem findFlight_of_chans (same : t.chans = s.chans) (ch seq : Nat) : findFlight t ch seq = findFlight s ch seq := by
  simp only [findFlight, State.chan, same]

theorem chan_no (s : State) (ch : Nat) : (s.chan ch).no = ch := by
  unfold State.chan
  cases found : s.chans.find? fun x => x.no == ch with
  | none => rfl
  | some y => simpa using List.find?_some found

theorem chan_setChan {y : Chan} {ch : Nat} (no : y.no = ch) : (s.setChan y).chan ch = y := by
  subst no
  simp only [State.chan, State.setChan, find?_upsert, Option.getD_some]

theorem chan_updFlight (s : State) (ch seq : Nat) (f : Cmd → Cmd) :
    (updFlight s ch seq f).chan ch = { s.chan ch with flight := mapIf (fun c => c.seq == seq) f (s.chan ch).flight } :=
  chan_setChan (chan_no s ch)

/-- The record that is put in place of all those with its number is the first of them. -/
theorem find?_mapIf_const {α : Type} {key : α → Nat} {k : Nat} {y d : α} {l : List α} (found : l.find? (fun z => key z == k) = some y)
    (num : key d = k) : (mapIf (fun z => key z == k) (fun _ => d) l).find? (fun z => key z == k) = some d := by
  induction l with
  | nil => cases found
  | cons z l ih =>
    by_cases e : key z = k
    · simp [mapIf, e, num]
    · simp only [List.find?_cons, beq_eq_false_iff_ne.2 e] at found
      simpa [mapIf, e] using ih found

theorem findFlight_putFlight {ch : Nat} {d : Cmd} (found : findFlight s ch c.seq = some c) (num : d.seq = c.seq) :
    findFlight (putFlight s ch d) ch c.seq = some d := by
  simp only [findFlight, putFlight, chan_updFlight, num]
  exact find?_mapIf_const found num

/-! ### Requests served -/

theorem served_eq (s : State) (a : Asker) : ∃ ls ws ms, served s a =
    { s with launches := ls, mem := { s.mem with waitingReq := ws, missInput := ms } } := by
  unfold served
  split
  · exact ⟨_, _, _, rfl⟩
  · exact ⟨_, _, _, rfl⟩

@[simp] theorem served_net (s : State) (a : Asker) : (served s a).net = s.net := by
  obtain ⟨_, _, _, h⟩ := served_eq s a
  rw [h]

@[simp] theorem served_chans (s : State) (a : Asker) : (served s a).chans = s.chans := by
  obtain ⟨_, _, _, h⟩ := served_eq s a
  rw [h]

@[simp] theorem served_bytes (s : State) (a : Asker) : (served s a).mem.bytes = s.mem.bytes := by
  obtain ⟨_, _, _, h⟩ := served_eq s a
  rw [h]

@[simp] theorem coll?_served (s : State) (a : Asker) (g : Nat) : (served s a).coll? g = s.coll? g := by
  simp only [State.coll?, served_net]

/-! ### A collective that goes on, by what it has to do next -/

theorem collTail_of_no_flag (flag : x.flag = 0) (acked : unackedOf s x.ch x.seq = []) :
    collTail s x c = .next (endColl s x c { status := stOk, bytes := c.done }) := by
  simp [collTail, flag, acked]

/-- After the last step the collective ends. -/
theorem collGo_ends (fuel : Nat) (slot : s.coll? g = some x) (cmd : findFlight s x.ch x.seq = some c) (open_ : c.final = none) (op : x.op ≠ 6)
    (last : collSteps x ≤ x.step) : collGo g (fuel + 1) s = collTail s x c := by
  simp [collGo, slot, cmd, open_, op, last]

/-- A collective whose step is sent waits for the contributions to it. -/
theorem collGo_sent (fuel : Nat) (slot : s.coll? g = some x) (more : x.step < collSteps x) (heads : x.heads = true) (sent : x.sent = true)
    (takes : sendsOnly x = false) : collGo g fuel s = .next s := by
  cases fuel with
  | zero => rfl
  | succ fuel =>
    simp only [collGo, slot]
    split
    · rfl
    · simp [heads, sent, takes, more]

/-- A collective whose headers are sent waits for those of the others (R61). -/
theorem collGo_heads_sent (fuel : Nat) (slot : s.coll? g = some x) (more : x.step < collSteps x) (heads : x.heads = true) (sent : x.sent = false)
    (two : twoPass s x = true) (missing : headsHere s x = none) : collGo g fuel s = .next s := by
  cases fuel with
  | zero => rfl
  | succ fuel =>
    simp only [collGo, slot]
    split
    · rfl
    · simp [heads, sent, two, missing, more]

/-- A step without an exponent pass hands over its contributions, then goes on. -/
theorem collGo_sends (fuel : Nat) (slot : s.coll? g = some x) (cmd : findFlight s x.ch x.seq = some c) (open_ : c.final = none) (op : x.op ≠ 6)
    (more : x.step < collSteps x) (heads : x.heads = true) (sent : x.sent = false) (one : twoPass s x = false) (sends : sendStep s x [] = .ok v) :
    collGo g (fuel + 1) s = collGo g fuel (served (v.setColl { x with sent := true }) (.cmd x.ch x.seq)) := by
  simp [collGo, slot, cmd, open_, op, more, heads, sent, one, sends]

/-- A step with an exponent pass hands over its headers first, then goes on (R61). -/
theorem collGo_sends_heads (fuel : Nat) {f : FFmt} {hb : List Byte} (slot : s.coll? g = some x) (cmd : findFlight s x.ch x.seq = some c)
    (open_ : c.final = none) (op : x.op ≠ 6) (more : x.step < collSteps x) (heads : x.heads = false) (fmt : collFmt x.dtype = some f)
    (own : ownHeads f x (List.range (collSizeOf x)) s = .ok (t, hb)) (sends : sendHeads t x hb = .ok v) :
    collGo g (fuel + 1) s = collGo g fuel (served (v.setColl { x with heads := true }) (.cmd x.ch x.seq)) := by
  simp [collGo, slot, cmd, open_, op, more, heads, fmt, own, sends]

theorem collAdvance_eq (slot : s.coll? g = some x) : collAdvance s g = collGo g (3 * collSteps x + 3) s := by
  simp only [collAdvance, slot]

theorem collAdvance_ends (slot : s.coll? g = some x) (cmd : findFlight s x.ch x.seq = some c) (open_ : c.final = none) (op : x.op ≠ 6)
    (last : collSteps x ≤ x.step) (flag : x.flag = 0) (acked : unackedOf s x.ch x.seq = []) :
    collAdvance s g = .next (endColl s x c { status := stOk, bytes := c.done }) := by
  rw [collAdvance_eq slot, collGo_ends _ slot cmd open_ op last, collTail_of_no_flag flag acked]

theorem collAdvance_sends (slot : s.coll? g = some x) (cmd : findFlight s x.ch x.seq = some c) (open_ : c.final = none) (op : x.op ≠ 6)
    (more : x.step < collSteps x) (takes : sendsOnly x = false) (heads : x.heads = true) (sent : x.sent = false) (one : twoPass s x = false)
    (sends : sendStep s x [] = .ok v) :
    collAdvance s g = .next (served (v.setColl { x with sent := true }) (.cmd x.ch x.seq)) := by
  have kept : (served (v.setColl { x with sent := true }) (.cmd x.ch x.seq)).coll? g = some { x with sent := true } := by
    rw [coll?_served, ← coll?_g slot]
    exact coll?_setColl v { x with sent := true }
  rw [collAdvance_eq slot, collGo_sends _ slot cmd open_ op more heads sent one sends]
  exact collGo_sent _ kept more heads rfl takes

theorem collAdvance_sends_heads {f : FFmt} {hb : List Byte} (slot : s.coll? g = some x) (cmd : findFlight s x.ch x.seq = some c)
    (open_ : c.final = none) (op : x.op ≠ 6) (more : x.step < collSteps x) (heads : x.heads = false) (sent : x.sent = false)
    (fmt : collFmt x.dtype = some f) (own : ownHeads f x (List.range (collSizeOf x)) s = .ok (t, hb)) (sends : sendHeads t x hb = .ok v)
    (two : twoPass (served (v.setColl { x with heads := true }) (.cmd x.ch x.seq)) { x with heads := true } = true)
    (missing : headsHere (served (v.setColl { x with heads := true }) (.cmd x.ch x.seq)) { x with heads := true } = none) :
    collAdvance s g = .next (served (v.setColl { x with heads := true }) (.cmd x.ch x.seq)) := by
  have kept : (served (v.setColl { x with heads := true }) (.cmd x.ch x.seq)).coll? g = some { x with heads := true } := by
    rw [coll?_served, ← coll?_g slot]
    exact coll?_setColl v { x with heads := true }
  rw [collAdvance_eq slot, collGo_sends_heads _ slot cmd open_ op more heads fmt own sends]
  exact collGo_heads_sent _ kept more rfl sent two missing

/-! ### Barriers -/

@[simp] theorem sendDraft_colls (s : State) (q kind : Nat) (f : DraftFrame) : (sendDraft s q kind f).net.colls = s.net.colls := by
  simp only [sendDraft]
  split_ifs <;> rfl

@[simp] theorem downDraft_colls (s : State) (kind : Nat) (f : DraftFrame) : (downDraft s kind f).net.colls = s.net.colls :=
  foldl_leaves (·.net.colls) (fun s q => sendDraft_colls s q kind f) _ s

/-- A fold of steps that each answer a next state answers one. -/
theorem foldl_next {α : Type} {f : Res → α → Res} {xs : List α} (next : ∀ y ∈ xs, ∀ s, ∃ t, f (.next s) y = .next t) (s : State) :
    ∃ t, xs.foldl f (.next s) = .next t := by
  induction xs generalizing s with
  | nil => exact ⟨s, rfl⟩
  | cons y ys ih =>
    obtain ⟨u, first⟩ := next y (List.mem_cons_self ..) s
    rw [List.foldl_cons, first]
    exact ih (fun z hz => next z (List.mem_cons_of_mem _ hz)) u

theorem collTail_next (flag : x.flag = 0) (s : State) (c : Cmd) : ∃ t, collTail s x c = .next t := by
  simp only [collTail, flag, true_or, if_true]
  split_ifs <;> exact ⟨_, rfl⟩

/-- Barriers without a FLAG end one after another, and none meets a stop. -/
theorem barrierDone_next {id seq : Nat} (flags : ∀ y ∈ barrierHere s id seq, y.flag = 0) : ∃ t, barrierDone s id seq = .next t := by
  refine foldl_next (fun y hy s => ?_) _
  have flag : y.flag = 0 := by
    simp only [barrierHere, downDraft_colls, List.mem_filter, List.mem_map] at hy flags
    obtain ⟨⟨z, hz, rfl⟩, of_barrier⟩ := hy
    split_ifs at of_barrier ⊢ with e
    · exact flags z ⟨hz, e⟩
    · exact absurd of_barrier e
  simp only
  split
  · exact collTail_next flag s _
  · exact ⟨s, rfl⟩

theorem barrierTry_next {id seq : Nat} (flags : ∀ y ∈ barrierHere s id seq, y.flag = 0) : ∃ t, barrierTry s id seq = .next t := by
  simp only [barrierTry]
  split_ifs
  · split
    · exact ⟨_, rfl⟩
    · exact barrierDone_next flags
  · exact ⟨s, rfl⟩

/-! ### A command that starts its collective (R346, R347) -/

/-- The group slot that a descriptor names. -/
def descGroup (bs : List Byte) : Nat := fieldLe bs 4 1 % 64

/-- A COLLECTIVE that has not started, well formed, whose descriptor `bs` has been read. -/
structure Submitted (s s1 : State) (r : CmdRef) (c : Cmd) (bs : List Byte) : Prop where
  running : Running s r [0x08] c
  fresh : s.net.colls.find? (fun x => x.ch == r.ch && x.seq == r.seq) = none
  res : c.res = false
  sched : c.schedReserved = false
  ext : c.ext = 0
  slot : (c.slot.drop 24).any (· != 0) = false
  aligned : c.field 16 8 % 64 = 0
  read : readRunAs .sectors (.cmd r.ch r.seq) s (chSliceOf s r.ch) 2 (c.field 16 8) 64 = .ok (s1, bs)

/-- A descriptor of slice `n` that its idle group slot admits, whose member table `tab` has been read. -/
structure SlotAdmits (s1 s2 : State) (n : Nat) (r : CmdRef) (bs tab : List Byte) : Prop where
  mine : s1.getObj (Obj.gSlice (descGroup bs)) = n
  members : s1.getObj (Obj.gSize (descGroup bs)) ≠ 0
  member : s1.getObj (Obj.gRank (descGroup bs)) < s1.getObj (Obj.gSize (descGroup bs))
  good : collBad bs = false
  tight : collLoose bs (s1.getObj (Obj.gSize (descGroup bs))) = false
  idle : s1.getObj (Obj.gBusy (descGroup bs)) = 0
  table : readRunAs .sectors (.cmd r.ch r.seq) s1 n 2 (s1.getObj (Obj.gTable (descGroup bs))) (4 * s1.getObj (Obj.gSize (descGroup bs))) =
    .ok (s2, tab)
  entries : tableBad tab = false

/-- The collective as it starts: the headers of an exponent pass are still to be sent (R61). -/
def collNew (s : State) (ch : Nat) (c : Cmd) (bs tab : List Byte) : Coll :=
  { collOf s ch c bs tab with heads := !(twoPass s (collOf s ch c bs tab)) }

/-- The state once a collective has taken its group slot (R347). -/
def slotTaken (s : State) (x : Coll) : State :=
  (({ s with net := { s.net with gseq := sput (fun _ => 0) s.net.gseq x.g (x.cseq + 1) } }).setColl x).putObj (Obj.gBusy x.g) 1

@[simp] theorem coll?_slotTaken (s : State) (x : Coll) : (slotTaken s x).coll? x.g = some x := coll?_setColl _ x

/-- The objects that decide on an exponent pass are none of a group slot. -/
@[simp] theorem twoPass_slotTaken (s : State) (x y : Coll) : twoPass (slotTaken s x) y = twoPass s y := by
  have slice (ch : Nat) : (slotTaken s x).getObj (Obj.chSlice ch) = s.getObj (Obj.chSlice ch) :=
    State.getObj_putObj_ne _ 1 (by unfold Obj.gBusy Obj.chSlice; omega)
  have mask (n : Nat) : (slotTaken s x).getObj (Obj.detMask n) = s.getObj (Obj.detMask n) :=
    State.getObj_putObj_ne _ 1 (by unfold Obj.gBusy Obj.detMask; omega)
  have mode : xrMode (slotTaken s x) y = xrMode s y := by
    unfold xrMode chSliceOf
    rw [slice, mask]
  simp only [twoPass, mode]

theorem Submitted.wellFormed {s1 : State} {r : CmdRef} {bs : List Byte} (sub : Submitted s s1 r c bs) :
    (c.res || c.schedReserved || c.ext != 0 || (c.slot.drop 24).any (· != 0) || c.field 16 8 % 64 != 0) = false := by
  rw [sub.res, sub.sched, sub.ext, sub.slot, sub.aligned]
  rfl

section Start

variable {s1 s2 : State} {r : CmdRef} {bs tab : List Byte} (sub : Submitted s s1 r c bs)

include sub

theorem collective_refused (foreign : s1.getObj (Obj.gSlice (descGroup bs)) ≠ chSliceOf s r.ch ∨ s1.getObj (Obj.gSize (descGroup bs)) = 0 ∨
    s1.getObj (Obj.gSize (descGroup bs)) ≤ s1.getObj (Obj.gRank (descGroup bs))) (op : Nat) :
    collective op r s = .next (endCmd s1 r.ch c { status := stRefused }) := by
  obtain ⟨flight, kind, open_⟩ := sub.running
  unfold descGroup at foreign
  simp only [collective, withCmd, flight, withSome_some, List.mem_singleton.1 kind, open_, sub.fresh, sub.wellFormed, sub.read, if_pos foreign]
  rfl

theorem collective_starts (adm : SlotAdmits s1 s2 (chSliceOf s r.ch) r bs tab) :
    collective (fieldLe bs 0 1 % 16) r s = if fieldLe bs 0 1 % 16 = 6
      then barrierTry (slotTaken s2 (collNew s2 r.ch c bs tab)) (barrierId (collNew s2 r.ch c bs tab)) (collNew s2 r.ch c bs tab).cseq
      else collAdvance (slotTaken s2 (collNew s2 r.ch c bs tab)) (descGroup bs) := by
  obtain ⟨flight, kind, open_⟩ := sub.running
  obtain ⟨mine, members, member, good, tight, idle, table, entries⟩ := adm
  have here : ¬ (s1.getObj (Obj.gSlice (descGroup bs)) ≠ chSliceOf s r.ch ∨ s1.getObj (Obj.gSize (descGroup bs)) = 0 ∨
      s1.getObj (Obj.gSize (descGroup bs)) ≤ s1.getObj (Obj.gRank (descGroup bs))) := by
    simp [mine, members, member]
  unfold descGroup at *
  simp only [collective, withCmd, flight, withSome_some, List.mem_singleton.1 kind, open_, sub.fresh, sub.wellFormed, sub.read, if_neg here, good,
    tight, idle, table, entries, ne_eq, not_true_eq_false, Bool.false_eq_true, if_false]
  rfl

/-- The command is still in flight when its collective has taken the slot. -/
theorem findFlight_slotTaken (adm : SlotAdmits s1 s2 (chSliceOf s r.ch) r bs tab) (x : Coll) :
    findFlight (slotTaken s2 x) r.ch c.seq = some c := by
  have chans : (slotTaken s2 x).chans = s.chans :=
    (chans_of_chansNet (chansNet_readRunAs adm.table)).trans (chans_of_chansNet (chansNet_readRunAs sub.read))
  obtain ⟨flight, -, -⟩ := sub.running
  rw [findFlight_of_chans chans, findFlight_seq flight, flight]

end Start

/-- The instructions of a COLLECTIVE with their operations. -/
theorem exec_collective {r : CmdRef} {p : Instr × Nat} (row : p ∈ [(.barrierCmd r, 6), (.allReduce r, 0), (.reduceCmd r, 1), (.broadcastCmd r, 2),
    (.reduceScatter r, 3), (.allGather r, 4), (.allToAll r, 5)]) (s : State) : exec p.1 s = collective p.2 r s := by
  simp only [List.mem_cons, List.not_mem_nil, or_false] at row
  obtain rfl | rfl | rfl | rfl | rfl | rfl | rfl := row <;> rfl

/-- A row of the operations that have steps. -/
theorem op_of_row {r : CmdRef} {p : Instr × Nat} (row : p ∈ [(.allReduce r, 0), (.reduceCmd r, 1), (.broadcastCmd r, 2),
    (.reduceScatter r, 3), (.allGather r, 4), (.allToAll r, 5)]) : p.2 ≠ 6 := by
  simp only [List.mem_cons, List.not_mem_nil, or_false] at row
  obtain rfl | rfl | rfl | rfl | rfl | rfl := row <;> simp

/-! ### A step that is written (R348) -/

/-- Bytes of DST that the step writes. -/
abbrev stepBytes (x : Coll) : Nat := (stepHi x x.step - stepLo x x.step) * collSize x.dtype

theorem coll?_nextStep (s : State) (x : Coll) :
    (nextStep s x).coll? x.g = some { x with step := x.step + 1, heads := !(twoPass s x), sent := false, ticks := 0 } :=
  coll?_setColl s { x with step := x.step + 1, heads := !(twoPass s x), sent := false, ticks := 0 }

/-- A step whose contributions agree and whose range may be written: its bytes land, BYTES of the command rises, and the next step follows. -/
theorem stepWrite_ok {cs : List (Nat × List Byte)} {bs : List Byte} (cmd : findFlight s x.ch x.seq = some c)
    (result : stepResult s x cs = some bs)
    (span : spanOkBy (.cmd x.ch x.seq) s (chSliceOf s x.ch) 2 (stepAddr x) (stepBytes x) true = .ok ()) :
    ∃ t d y, stepWrite s x c cs = .ok (some t) ∧ t.coll? x.g = some y ∧ findFlight t x.ch x.seq = some d ∧
      t.mem.bytes = (writeRunAs .sectors none (.cmd x.ch x.seq) s (chSliceOf s x.ch) 2 (stepAddr x) bs).1.mem.bytes ∧
      unackedOf t x.ch x.seq = unackedOf s x.ch x.seq ∧
      d = { c with done := c.done + stepBytes x } ∧
      y = { x with step := x.step + 1, heads := y.heads, sent := false, ticks := 0 } := by
  have kept := chansNet_writeRunAs .sectors none (.cmd x.ch x.seq) s (chSliceOf s x.ch) 2 (stepAddr x) bs
  simp only [stepWrite, result, span]
  generalize (writeRunAs .sectors none (.cmd x.ch x.seq) s (chSliceOf s x.ch) 2 (stepAddr x) bs).1 = u at kept ⊢
  refine ⟨_, _, _, rfl, coll?_nextStep _ x, ?_, ?_, ?_, rfl, rfl⟩
  · have seq := findFlight_seq cmd
    rw [← seq] at cmd ⊢
    refine findFlight_putFlight (c := c) ?_ rfl
    rw [findFlight_of_chans ((served_chans u _).trans (chans_of_chansNet kept)), cmd]
  · exact served_bytes u _
  · have net : (served u (.cmd x.ch x.seq)).net = s.net := (served_net u _).trans (net_of_chansNet kept)
    simp only [unackedOf]
    exact congrArg (fun n : Net => n.paths.flatMap fun p => p.unacked.filter fun f => isOf x.ch x.seq f.who) net

/-- The last step, written, ends its collective. -/
theorem exec_collectiveStepStart_last {cs : List (Nat × List Byte)} {bs : List Byte} (slot : s.coll? g = some x)
    (cmd : findFlight s x.ch x.seq = some c) (open_ : c.final = none) (op : x.op ≠ 6) (sent : x.sent = true) (takes : sendsOnly x = false)
    (last : x.step + 1 = collSteps x) (flag : x.flag = 0) (acked : unackedOf s x.ch x.seq = []) (all : gathered s x = some cs)
    (result : stepResult s x cs = some bs)
    (span : spanOkBy (.cmd x.ch x.seq) s (chSliceOf s x.ch) 2 (stepAddr x) (stepBytes x) true = .ok ()) :
    ∃ t d y, exec (.collectiveStepStart g) s = .next (endColl t y d { status := stOk, bytes := c.done + stepBytes x }) ∧
      t.mem.bytes = (writeRunAs .sectors none (.cmd x.ch x.seq) s (chSliceOf s x.ch) 2 (stepAddr x) bs).1.mem.bytes ∧
      d = { c with done := c.done + stepBytes x } ∧
      y = { x with step := x.step + 1, heads := y.heads, sent := false, ticks := 0 } := by
  obtain ⟨t, d, y, written, slot', cmd', bytes, acked', hd, hy⟩ := stepWrite_ok cmd result span
  refine ⟨t, d, y, ?_, bytes, hd, hy⟩
  have more : x.step < collSteps x := by omega
  have start : exec (.collectiveStepStart g) s = collAdvance t g := by
    simp [exec, execCollectiveStepStart, slot, cmd, bne_iff_ne.2 op, sent, takes, more, all, written]
  rw [coll?_g slot] at slot'
  have hch : y.ch = x.ch := by rw [hy]
  have hseq : y.seq = x.seq := by rw [hy]
  rw [start, collAdvance_ends slot' (c := d) (by rw [hch, hseq, cmd']) (by rw [hd]; exact open_) (by rw [hy]; exact op)
    (by rw [hy]; exact last.ge) (by rw [hy]; exact flag) (by rw [hch, hseq, acked', acked]), hd]

/-! ### Waits that expire, barriers that go up, and the statement -/

theorem exec_collectiveWaitExpiry (slot : s.coll? g = some x) (cmd : findFlight s x.ch x.seq = some c) (open_ : c.final = none)
    (bounded : s.getObj Obj.collWait ≠ 0) (long : s.getObj Obj.collWait ≤ x.ticks) :
    exec (.collectiveWaitExpiry g) s = .next (endColl s x c { status := stRemoteLost, bytes := c.done }) := by
  simp [exec, execCollectiveWaitExpiry, slot, cmd, open_, bne_iff_ne.2 bounded, long]

/-- A barrier for which everything below and here has arrived goes up once. -/
theorem barrierTry_goes_up {id seq q : Nat} (once : (barrierHere s id seq).any (·.sent) = false) (ready : barrierReady s id seq = true)
    (below : (childPorts s).all (fun p => s.net.barriers.contains (id, seq, p)) = true) (up : upPort s = some q) :
    ∃ t, barrierTry s id seq = .next (sendDraft t q 0x07 { seq := 0, origin := t.ownId, arg0 := id, arg1 := seq }) := by
  simp only [barrierTry, once, ready, below, up]
  exact ⟨_, rfl⟩

/-- Settles O43: a command that its slot admits starts a collective, whose next act `collGo` decides; steps, waits and barriers have their
equations. -/
theorem collectivesRunStepByStep : Obligations.CollectivesRunStepByStep := by
  unfold Obligations.CollectivesRunStepByStep
  refine ⟨?start, fun s id seq q once ready below up => barrierTry_goes_up once ready below up,
    fun s g x c slot cmd open_ => ⟨?expiry, ?step⟩⟩
  case expiry => exact fun bounded long => exec_collectiveWaitExpiry slot cmd open_ bounded long
  case step =>
    exact fun op sent takes last flag acked cs bs all result span =>
      exec_collectiveStepStart_last slot cmd open_ op sent takes last flag acked all result span
  case start =>
    intro s s1 s2 r c bs tab running fresh res sched ext slot aligned n ask read g size rows
    have sub : Submitted s s1 r c bs := ⟨running, fresh, res, sched, ext, slot, aligned, read⟩
    obtain ⟨flight, -, open_⟩ := running
    have seq : c.seq = r.seq := findFlight_seq flight
    refine ⟨fun foreign p row => (exec_collective row s).trans (collective_refused sub foreign p.2), ?_⟩
    intro mine members member good tight idle table entries free x0 x gseq u
    have adm : SlotAdmits s1 s2 n r bs tab := ⟨mine, members, member, good, tight, idle, table, entries⟩
    have taken : u.coll? g = some x := coll?_slotTaken s2 x
    have cmd : findFlight u x.ch x.seq = some c := findFlight_slotTaken sub adm x
    refine ⟨fun p row op => ?_, fun op flags => ?barrier⟩
    case barrier =>
      have start : exec (.barrierCmd r) s = barrierTry u (barrierId x) x.cseq := by
        refine (exec_collective (p := (.barrierCmd r, 6)) (List.mem_cons_self ..) s).trans ?_
        rw [← op, collective_starts sub adm, if_pos op]
        rfl
      obtain ⟨t, next⟩ := barrierTry_next flags
      exact ⟨t, start.trans next, start⟩
    have steps : x.op ≠ 6 := (show x.op = p.2 from op) ▸ op_of_row row
    have start : exec p.1 s = collAdvance u g := by
      rw [exec_collective (List.mem_cons_of_mem _ row), ← op, collective_starts sub adm, if_neg (show fieldLe bs 0 1 % 16 ≠ 6 from steps)]
      rfl
    have asker : Asker.cmd x.ch x.seq = ask := congrArg (Asker.cmd r.ch) seq
    rw [start]
    refine ⟨fun none_ flag acked => ?nothing, fun more takes heads v sends => ?contributes,
      fun more heads f v0 v hb fmt own sends two missing => ?headers⟩
    case nothing => exact collAdvance_ends taken cmd open_ steps none_.le flag ((congrArg (unackedOf u r.ch) seq).trans acked)
    case contributes =>
      have one : twoPass u x = false := (twoPass_slotTaken s2 x x).trans (Bool.not_inj (y := false) heads)
      rw [collAdvance_sends taken cmd open_ steps more takes heads rfl one sends, asker]
    case headers =>
      rw [← asker] at two missing ⊢
      exact collAdvance_sends_heads taken cmd open_ steps more heads rfl fmt own sends two missing

end Sys2Proof.Machine
end

section
/-! SUPPORT. Proofs of control flow and lanes (R75, R86 to R91, R137 to R142): transfers, paths that pause, park or exit, identity and time
reads, shuffles, votes and predicate operations. -/

namespace Sys2Proof.Machine

variable {s : State} {g : GroupRef} {w : Word64} {h : Here}

/-- The path that a running group's instruction belongs to is its current one. -/
theorem Runs.cur (run : Runs s g w h) : h.t.cur = some h.p := cur_of_here run.1

/-! ### Identity and time (R75, R137) -/

/-- Settles O10: the three reads write the value that the determinism mask leaves them. -/
theorem identityAndTimeReads : Obligations.IdentityAndTimeReads := by
  unfold Obligations.IdentityAndTimeReads
  intro s g w h run
  refine ⟨?time, ?tick, ?id, fun absolute => ?values⟩
  case time => exact fun op => show execTimeGet g w s = _ from runInstr_of_runs run op
  case tick => exact fun op => show execTickGet g w s = _ from runInstr_of_runs run op
  case id => exact fun op => show execIdGet g w s = _ from runInstr_of_runs run op
  case values =>
    have inModule : h.g.core / 13 / 12 = h.g.core / 156 := Nat.div_div_eq_div_mul ..
    unfold identity
    rw [absolute, ← inModule]
    rfl

/-! ### Shuffles, votes and predicate operations (R90, R91, R142) -/

theorem retires_of_shuffle {i : Instr} {op : Nat} {src : Nat → Nat → Nat} (run : Runs s g w h) (means : exec i s = shuffle op g w s src) :
    Retires s g w h i [op] (writeLanes h.t (fD w) 1 (acting h w) fun i => srcOperand h.t (fA w) (fAS w) (src i (shflB h.t w i)) 1) :=
  fun is => means.trans (runInstr_of_runs run is)

theorem exec_shflIdx (g : GroupRef) (w : Word64) (s : State) : exec (.shflIdx g w) s = shuffle 0xA0 g w s fun _ b => b % 32 := rfl

theorem exec_shflUp (g : GroupRef) (w : Word64) (s : State) :
    exec (.shflUp g w) s = shuffle 0xA1 g w s fun i b => if i < b then i else i - b := rfl

theorem exec_shflDown (g : GroupRef) (w : Word64) (s : State) :
    exec (.shflDown g w) s = shuffle 0xA2 g w s fun i b => if 31 < i + b then i else i + b := rfl

theorem exec_shflXor (g : GroupRef) (w : Word64) (s : State) : exec (.shflXor g w) s = shuffle 0xA3 g w s fun i b => i ^^^ (b % 32) := rfl

/-- A vote writes its outcome, the truth of `c`, to predicate D in the acting lanes. -/
theorem retires_of_vote {i : Instr} {op : Nat} {f : Group → LaneMask → Bool} {c : Prop} [Decidable c] (run : Runs s g w h)
    (means : exec i s = vote op g w s f) (outcome : f h.t (actMask h.t h.p w) = true ↔ c) :
    Retires s g w h i [op] (h.t.setP (fD w) (mergeP (h.t.preg (fD w)) (if c then BitVec.allOnes 32 else 0) (actMask h.t h.p w))) := by
  simp only [← outcome]
  exact fun is => means.trans (runInstr_of_runs run is)

theorem retires_of_predOp {i : Instr} {op : Nat} {f : LaneMask → LaneMask → LaneMask} (run : Runs s g w h) (means : exec i s = predOp op g w s f) :
    Retires s g w h i [op] (h.t.setP (fD w) (mergeP (h.t.preg (fD w)) (f (h.t.preg (fA w)) (h.t.preg (fB w))) (actMask h.t h.p w))) :=
  fun is => means.trans (runInstr_of_runs run is)

/-- The test of VOTE_UNI: vector register A, whatever AS says (log 104), equal in all lanes of a mask. -/
def uniform (w : Word64) (t : Group) (m : LaneMask) : Bool := match (lanesOf m).map fun i => t.vreg (fA w) i with
  | [] => true
  | a :: as => as.all (· == a)

theorem uniform_iff (w : Word64) (t : Group) (m : LaneMask) :
    uniform w t m = true ↔ ∀ i ∈ lanesOf m, ∀ j ∈ lanesOf m, t.vreg (fA w) i = t.vreg (fA w) j := by
  unfold uniform
  cases lanesOf m with
  | nil => simp
  | cons l ls =>
    simp only [List.map_cons, List.all_map, List.all_eq_true, Function.comp_apply, beq_iff_eq]
    constructor
    · intro same i hi j hj
      have first : ∀ k ∈ l :: ls, t.vreg (fA w) k = t.vreg (fA w) l := List.forall_mem_cons.2 ⟨rfl, same⟩
      rw [first i hi, first j hj]
    · exact fun same k hk => same k (List.mem_cons_of_mem _ hk) l List.mem_cons_self

theorem exec_voteUni (g : GroupRef) (w : Word64) (s : State) : exec (.voteUni g w) s = vote 0xA6 g w s (uniform w) := rfl

/-- Settles O9: each lane of a shuffle reads the lane named, and votes and predicate operations write the acting lanes. -/
theorem laneResults : Obligations.LaneResults := by
  unfold Obligations.LaneResults
  intro s g w h run
  refine ⟨?idx, ?up, ?down, ?xor, ?any, ?all, ?uni, ?ballot, ?pAnd, ?pOr, ?pXor, ?pNot⟩
  case idx => exact (retires_of_shuffle run (exec_shflIdx g w s) :)
  case up => exact (retires_of_shuffle run (exec_shflUp g w s) :)
  case down => exact (retires_of_shuffle run (exec_shflDown g w s) :)
  case xor => exact (retires_of_shuffle run (exec_shflXor g w s) :)
  case any => exact retires_of_vote run (show exec (.voteAny g w) s = execVoteAny g w s from rfl) bne_iff_ne
  case all => exact retires_of_vote run (show exec (.voteAll g w) s = execVoteAll g w s from rfl) beq_iff_eq
  case uni => exact retires_of_vote run (exec_voteUni g w s) (uniform_iff w h.t _)
  case ballot => exact fun op => show execVoteBallot g w s = _ from runInstr_of_runs run op
  case pAnd => exact (retires_of_predOp run (show exec (.pAnd g w) s = execPAnd g w s from rfl) :)
  case pOr => exact (retires_of_predOp run (show exec (.pOr g w) s = execPOr g w s from rfl) :)
  case pXor => exact (retires_of_predOp run (show exec (.pXor g w) s = execPXor g w s from rfl) :)
  case pNot => exact (retires_of_predOp run (show exec (.pNot g w) s = execPNot g w s from rfl) :)

/-! ### Transfers of control (R86, R88, R138, R139) -/

/-- The lanes of the path that take a conditional branch. -/
def takenLanes (h : Here) (w : Word64) : LaneMask := h.p.mask &&& (if fCneg w then ~~~(h.t.preg (fTop3 w)) else h.t.preg (fTop3 w))

/-- What a conditional branch asks for: a transfer where every lane takes it, the next instruction or a yield where none does, else a split. -/
def branchAct (s : State) (h : Here) (w : Word64) : Act :=
  if takenLanes h w = h.p.mask then .jump s h.t (wordOff h.p.pc (fTarget w))
  else if takenLanes h w = 0 then
    if wordOff h.p.pc (fTarget w) ≤ h.p.pc ∧ !h.t.queue.isEmpty then .paths s (yieldPath h.t { h.p with pc := h.p.pc + 8 }) else .step s h.t
  else .paths s (splitPath h.t h.p (takenLanes h w) (wordOff h.p.pc (fTarget w)) (wordOff h.p.pc (fRpc w)))

theorem exec_brP (run : Runs s g w h) (op : fOpcode w = 0x92) : exec (.brP g w) s = finish g h (branchAct s h w) :=
  show execBrP g w s = _ from runInstr_of_runs run (List.mem_singleton.2 op)

theorem branchAct_of_none (none_ : takenLanes h w = 0) (part : takenLanes h w ≠ h.p.mask) :
    branchAct s h w = if wordOff h.p.pc (fTarget w) ≤ h.p.pc ∧ h.t.queue ≠ []
      then .paths s (yieldPath h.t { h.p with pc := h.p.pc + 8 }) else .step s h.t := by
  simp only [branchAct, if_neg part, if_pos none_, Bool.not_eq_true', List.isEmpty_eq_false_iff]

theorem exec_ret {a : Nat} (run : Runs s g w h) (op : fOpcode w = 0x94) (act : lanesOf h.p.mask ≠ [])
    (same : ∀ i ∈ lanesOf h.p.mask, h.t.vregs' (fLink w) i 2 = a) :
    exec (.ret g w) s = .next (transfer s g h h.t (alignPc a)) := by
  obtain ⟨l, ls, lanes⟩ := List.exists_cons_of_ne_nil act
  rw [lanes, List.forall_mem_cons] at same
  obtain ⟨first, rest⟩ := same
  have agree : (ls.map fun i => h.t.vregs' (fLink w) i 2).all (· == a) = true := by simpa using rest
  show execRet g w s = _
  rw [execRet, runInstr_of_runs run (List.mem_singleton.2 op)]
  simp only [lanes, List.map_cons, first, agree, if_true]
  rfl

/-- Settles O12: a transfer of every active lane is a jump; a branch that parts the lanes splits the path under a new join. -/
theorem controlTransfers : Obligations.ControlTransfers := by
  unfold Obligations.ControlTransfers
  intro s g w h run
  refine ⟨?nop, fun op => ?br, fun all op => ?taken, fun none_ part stays => ?passed, fun none_ part back others op => ?yields,
    fun some_ part op => ?split, fun op => ?call, fun a act same op => exec_ret run op act same, fun op => ?jmp⟩
  case nop => exact fun op => show execNop g w s = _ from runInstr_of_runs run op
  case br => exact show execBr g w s = _ from runInstr_of_runs run (List.mem_singleton.2 op)
  case taken =>
    rw [exec_brP run op, branchAct, if_pos (show takenLanes h w = h.p.mask from all)]
    rfl
  case passed =>
    intro op
    rw [exec_brP run (List.mem_singleton.1 op), branchAct_of_none none_ part, if_neg (by exact stays)]
    rfl
  case yields =>
    rw [exec_brP run op, branchAct_of_none none_ part, if_pos (by exact ⟨back, others⟩)]
    rfl
  case split =>
    rw [exec_brP run op, branchAct, if_neg (show takenLanes h w ≠ h.p.mask from part), if_neg (show takenLanes h w ≠ 0 from some_)]
    rfl
  case call => exact show execCall g w s = _ from runInstr_of_runs run (List.mem_singleton.2 op)
  case jmp => exact show execJmpS g w s = _ from runInstr_of_runs run (List.mem_singleton.2 op)

/-! ### Paths that pause, park or exit (R87, R88, R140) -/

/-- No join of a group expects a lane of a mask. -/
def NoneExpected (m : LaneMask) (t : Group) : Prop := ∀ j ∈ t.joins, j.expected &&& m = 0

theorem NoneExpected.of_subset {m : LaneMask} {t u : Group} (none_ : NoneExpected m t) (sub : ∀ j ∈ u.joins, j ∈ t.joins) : NoneExpected m u :=
  fun j hj => none_ j (sub j hj)

theorem switchPath_joins (t : Group) : (switchPath t).joins = t.joins := by
  unfold switchPath
  split <;> rfl

/-- A join that completes is taken out, and no other changes. -/
theorem mem_joins_of_completeJoin {t u : Group} (completes : completeJoin t = some u) : ∀ j ∈ u.joins, j ∈ t.joins := by
  unfold completeJoin at completes
  split at completes
  · cases completes
  · dsimp only at completes
    split at completes <;> cases completes <;> exact fun j hj => List.mem_of_mem_filter hj

theorem mem_joins_of_afterRemoval (k : Nat) (t : Group) : ∀ j ∈ (afterRemoval k t).joins, j ∈ t.joins := by
  induction k generalizing t with
  | zero => exact fun j hj => hj
  | succ k ih =>
    simp only [afterRemoval]
    split
    · next u completes =>
      have first := mem_joins_of_completeJoin completes
      split
      · exact first
      · exact fun j hj => first j (ih u j hj)
    · exact fun j hj => switchPath_joins t ▸ hj

/-- Arrivals leave the expected lanes of every join as they are. -/
theorem NoneExpected.settle {m : LaneMask} (k : Nat) {t : Group} (none_ : NoneExpected m t) : NoneExpected m (settle k t) := by
  induction k generalizing t with
  | zero => exact none_
  | succ k ih =>
    simp only [Machine.settle]
    split
    · refine ih (NoneExpected.of_subset ?_ (mem_joins_of_afterRemoval _ _))
      intro x hx
      obtain ⟨y, hy, rfl⟩ := List.mem_map.1 hx
      split
      · exact none_ y hy
      · exact none_ y hy
    · exact none_

/-- After an exit no join expects a lane of the path that was current. -/
theorem noneExpected_exitPath {t : Group} {p : Path} (cur : t.cur = some p) : NoneExpected p.mask (exitPath t) := by
  simp only [exitPath, cur]
  refine NoneExpected.settle _ (NoneExpected.of_subset ?_ (mem_joins_of_afterRemoval _ _))
  intro x hx
  obtain ⟨y, -, rfl⟩ := List.mem_map.1 hx
  simp [BitVec.and_assoc]

/-- Settles O13: the three instructions move the paths of their group; an exit takes its lanes out of every join before any join completes. -/
theorem pathsPauseParkAndExit : Obligations.PathsPauseParkAndExit := by
  unfold Obligations.PathsPauseParkAndExit
  intro s g w h run
  refine ⟨fun op => ⟨?exit, noneExpected_exitPath run.cur⟩, fun op => ?pause, fun op clear => ?park⟩
  case exit => exact show execExitLanes g w s = _ from runInstr_of_runs run (List.mem_singleton.2 op)
  case pause =>
    show execPause g w s = _
    rw [execPause, runInstr_of_runs run (List.mem_singleton.2 op)]
    dsimp only
    split <;> rfl
  case park =>
    show execBarGang g w s = _
    rw [execBarGang, runInstr_of_runs run (List.mem_singleton.2 op)]
    simp only [clear, Bool.false_eq_true, if_false]
    rfl

/-! ### The end of a pause (R88) -/

/-- Settles O14: the first paused path of the queue runs again, or else the paused current path does. -/
theorem pauseEnds : Obligations.PauseEnds := by
  unfold Obligations.PauseEnds
  intro s g t found
  obtain ⟨l, launch, group⟩ := Option.bind_eq_some_iff.1 found
  refine ⟨fun q queued => ?queue, fun p none_ cur paused => ?current⟩
  case queue => simp only [exec, execPauseExpiry, launch, group, queued]
  case current => simp only [exec, execPauseExpiry, launch, group, none_, cur, paused, if_true]

end Sys2Proof.Machine
end

section
/-! SUPPORT. Bytes as numbers, bytes of memory and of its sectors: what is read back of a number, of a run of bytes and of a sector (R6). -/

namespace Sys2Proof.Machine

/-! ### Bytes as numbers -/

theorem toLe_length (n v : Nat) : (toLe n v).length = n := by
  induction n generalizing v with
  | zero => rfl
  | succ n ih => simp [toLe, ih]

theorem leNat_lt (bs : List Byte) : leNat bs < 2 ^ (8 * bs.length) := by
  induction bs with
  | nil => simp [leNat]
  | cons b bs ih =>
    have byte := b.isLt
    rw [List.length_cons, Nat.mul_succ, Nat.pow_add, leNat]
    omega

theorem toNat_ofNat_leNat {n : Nat} {bs : List Byte} (width : n = 8 * bs.length) : (BitVec.ofNat n (leNat bs)).toNat = leNat bs := by
  subst width
  rw [BitVec.toNat_ofNat, Nat.mod_eq_of_lt (leNat_lt bs)]

theorem leNat_div (n : Nat) (bs : List Byte) : leNat bs / 256 ^ n = leNat (bs.drop n) := by
  induction n generalizing bs with
  | zero => simp
  | succ n ih =>
    cases bs with
    | nil => simp [leNat]
    | cons b bs =>
      have byte := b.isLt
      have first : leNat (b :: bs) / 256 = leNat bs := by simp only [leNat]; omega
      rw [Nat.pow_succ', ← Nat.div_div_eq_div_mul, first, ih, List.drop_succ_cons]

theorem toLe_leNat {n : Nat} {bs : List Byte} (fits : n ≤ bs.length) : toLe n (leNat bs) = bs.take n := by
  induction n generalizing bs with
  | zero => rfl
  | succ n ih =>
    cases bs with
    | nil => simp at fits
    | cons b bs =>
      have byte := b.isLt
      have rest : leNat (b :: bs) / 256 = leNat bs := by simp only [leNat]; omega
      have low : BitVec.ofNat 8 (leNat (b :: bs)) = b := BitVec.eq_of_toNat_eq (by simp only [leNat, BitVec.toNat_ofNat]; omega)
      rw [toLe, rest, low, ih (by simpa using fits), List.take_succ_cons]

/-! ### Runs of bytes -/

theorem cellsGet_length (l : List Host.Cell) (a n : Nat) : (cellsGet l a n).length = n := by
  induction n generalizing a with
  | zero => rfl
  | succ n ih => simp [cellsGet, ih]

theorem getElem_cellsGet (l : List Host.Cell) (a n i : Nat) (hi : i < (cellsGet l a n).length) : (cellsGet l a n)[i] = cellGet l (a + i) := by
  induction n generalizing a i with
  | zero => simp [cellsGet] at hi
  | succ n ih =>
    cases i with
    | zero => rfl
    | succ i => simp only [cellsGet, List.getElem_cons_succ, ih, Nat.add_assoc, Nat.add_comm 1 i]

/-- A part of a run of bytes. -/
theorem cellsGet_drop_take (l : List Host.Cell) (a : Nat) {n off k : Nat} (fits : off + k ≤ n) :
    ((cellsGet l a n).drop off).take k = cellsGet l (a + off) k := by
  apply List.ext_getElem
  · simp only [List.length_take, List.length_drop, cellsGet_length]
    omega
  · intro i _ _
    simp only [List.getElem_take, List.getElem_drop, getElem_cellsGet, Nat.add_assoc]

/-- A run of bytes that has been written reads as written. -/
theorem cellsGet_cellsPut (l : List Host.Cell) (a : Nat) (bs : List Byte) : cellsGet (cellsPut l a bs) a bs.length = bs := by
  apply List.ext_getElem
  · exact cellsGet_length _ _ _
  · intro i _ hi
    rw [getElem_cellsGet, cellGet_cellsPut_inside bs l hi, List.getD_eq_getElem _ _ hi]

/-! ### Sectors -/

/-- Bytes of the latest value of a sector are those of the memory that holds it. -/
theorem sectGet_latest (s : State) (k : SectKey) {off n : Nat} (within : off + n ≤ 64) :
    sectGet (latest s k) off n = cellsGet (memOf s k.line) (sectBase k + off) n := by
  have len := cellsGet_length (memOf s k.line) (sectBase k) 64
  rw [sectGet, latest, toNat_ofNat_leNat (by rw [len]), Nat.pow_mul, leNat_div, toLe_leNat (by simp only [List.length_drop, len]; omega),
    cellsGet_drop_take _ _ within]

theorem readSect_of_alive {s : State} {k : SectKey} (alive : deadOf s k = none) : readSect s k = (s, latest s k) := by
  simp only [readSect, alive]

/-- A store to a live sector of device memory writes its bytes and no other byte. -/
theorem writeSectAt_bytes {s : State} {l i : Nat} (alive : deadOf s ⟨.dev l, i⟩ = none) (die : Nat) (f : Fill) (wr : Option Nat) (n off : Nat)
    (bs : List Byte) :
    (writeSectAt die f s wr n ⟨.dev l, i⟩ off bs).mem.bytes = cellsPut s.mem.bytes (sectBase ⟨.dev l, i⟩ + off) bs := by
  have live : mergeDead s wr ⟨.dev l, i⟩ bs.length = s := by simp only [mergeDead, alive]
  have reached : (writeVia (freshL1 s wr ⟨.dev l, i⟩) wr n die (.dev l) i f).mem.bytes = s.mem.bytes :=
    (keeps_writeVia _ _ _ _ _ _ _).2.trans (keeps_freshL1 _ _ _).2
  simp only [writeSectAt, (keeps_updateL1 _ _ _ _ _).2, live]
  split <;> simp only [putSect, reached]

end Sys2Proof.Machine
end

section
/-! SUPPORT. Proofs of owner-tagged locks (R107 to R110, R134): an access at the home of a line leaves launches and discarded sectors, and what
a lane's acquisition or release reads and writes. -/

namespace Sys2Proof.Machine

variable {s t : State} {g : GroupRef} {w : Word64} {h : Here}

/-! ### An access at a line's home leaves launches and discarded sectors -/

/-- The launches and the discarded sectors. -/
def launchesDead (s : State) : List Launch × List DeadSector := (s.launches, s.mem.dead)

theorem launches_of_launchesDead (same : launchesDead t = launchesDead s) : t.launches = s.launches := congrArg Prod.fst same

theorem deadOf_of_launchesDead (same : launchesDead t = launchesDead s) (k : SectKey) : deadOf t k = deadOf s k := by
  simp only [deadOf, show t.mem.dead = s.mem.dead from congrArg Prod.snd same]

theorem launchesDead_invalidateDie (s : State) (wr : Option Nat) (d : Nat) (l : LineKey) : launchesDead (invalidateDie s wr d l) = launchesDead s := by
  rw [invalidateDie_eq]; rfl

theorem launchesDead_dirtyHome (s : State) (d x : Nat) : launchesDead (dirtyHome s d x) = launchesDead s := by rw [dirtyHome_eq]; rfl

theorem launchesDead_dropCopy (s : State) (wr : Option Nat) (a : Nat) (l : LineKey) : launchesDead (dropCopy s wr a l) = launchesDead s := by
  simp only [dropCopy]
  split_ifs
  · rfl
  · rw [launchesDead_invalidateDie]
    cases l with
    | dev x => exact launchesDead_dirtyHome s a x
    | shr m x => rfl

theorem launchesDead_llmRoom {n d x : Nat} (room : llmRoom s n d x = some t) : launchesDead t = launchesDead s := by
  simp only [llmRoom] at room
  split at room
  · cases room
  · split at room
    · cases room; rfl
    · split at room
      · cases room
      · split at room
        · cases room; rfl
        · split at room
          · split at room
            · cases room; exact launchesDead_dropCopy s none d _
            · cases room; rfl
          · cases room; rfl

theorem launchesDead_llmTouch (s : State) (n d x : Nat) (is : List Nat) (w : Bool) (f : Fill) :
    launchesDead (llmTouch s n d x is w f) = launchesDead s := by
  simp only [llmTouch]
  have counted : launchesDead (if llmHit s d x is = true then s.addObj (Obj.llmHits n) 1 else s.addObj (Obj.llmMisses n) 1) = launchesDead s := by
    split_ifs <;> rfl
  generalize (if llmHit s d x is = true then s.addObj (Obj.llmHits n) 1 else s.addObj (Obj.llmMisses n) 1) = u at counted ⊢
  split
  · exact counted
  · split
    · exact counted
    · split
      · exact counted
      · next room => exact (launchesDead_llmRoom room).trans counted

theorem launchesDead_dirHomeRead (s : State) (l : LineKey) : launchesDead (dirHomeRead s l) = launchesDead s := by
  simp only [dirHomeRead]
  split
  · split
    · cases l with
      | dev x => exact launchesDead_dirtyHome s _ x
      | shr m x => rfl
    · rfl
  · rfl

theorem launchesDead_readVia_home (s : State) (n x : Nat) (is : List Nat) (f : Fill) :
    launchesDead (readVia s n (lineDie s (.dev x)) (.dev x) is f) = launchesDead s := by
  simp only [readVia, if_true]
  split <;> exact (launchesDead_llmTouch _ _ _ _ _ _ _).trans (launchesDead_dirHomeRead s _)

theorem noteCode_logWrite_mem (s : State) (m a n : Nat) : (noteCode (logWrite s m a) m a n).mem = s.mem := by
  simp only [noteCode]
  split <;> rfl

/-! ### One access of a lane to an aligned lock word of a live sector, with no store of its core on its way -/

/-- The state in which a lane's access to device memory has been read at its home. -/
def homeRead (s : State) (h : Here) (k : SectKey) : State :=
  readVia (dropL1 s h.g.core k.line) h.l.slice (lineDie (dropL1 s h.g.core k.line) k.line) k.line [k.i] .sectors

theorem homeRead_dev (s : State) (h : Here) (x i : Nat) :
    launchesDead (homeRead s h ⟨.dev x, i⟩) = launchesDead s ∧ (homeRead s h ⟨.dev x, i⟩).mem.bytes = s.mem.bytes :=
  ⟨launchesDead_readVia_home (dropL1 s h.g.core (.dev x)) h.l.slice x [i] .sectors, (keeps_readVia _ _ _ _ _ _).2⟩

theorem locate_dev {n a kind : Nat} {k : SectKey} (found : locate s n 2 a kind = .ok k) : ∃ pa, k = devSect pa := by
  simp only [locate, OfNat.ofNat_ne_one, if_false] at found
  split at found
  · next pa _ => exact ⟨pa, (Except.ok.inj found).symm⟩
  · cases found

theorem landFor_of_none {core : Nat} (none_ : storesOf s core = []) (l : LineKey) : landFor s core l = (s, true) := by
  simp [landFor, none_]

/-- The lock word at an address of a sector, as it stands in device memory. -/
def lockAt (s : State) (k : SectKey) (a : Nat) : Nat := leNat (cellsGet s.mem.bytes (sectBase k + a % 64) 8)

section Lane

variable {a : Nat} {k : SectKey} (found : locate s h.l.slice 2 a 1 = .ok k) (alive : deadOf s k = none) (aligned : a % 8 = 0)
  (none_ : storesOf s h.g.core = [])

include found alive aligned none_

/-- An access of eight bytes reads the word at its home and writes there what `f` makes of it, if anything. -/
theorem atomicAt_eq (f : Nat → Option Nat) :
    atomicAt s h 2 a 8 f = (match f (lockAt s k a) with
      | none => homeRead s h k
      | some x => writePieceAt (lineDie (homeRead s h k) k.line) .sectors (homeRead s h k) (some h.g.core) h.l.slice 2 a k (toLe 8 x), lockAt s k a) := by
  obtain ⟨pa, rfl⟩ := locate_dev found
  obtain ⟨same, bytes⟩ := homeRead_dev s h (pa / 512) (pa / 64 % 8)
  have sect : homeSect (dropL1 s h.g.core (devSect pa).line) h.l.slice (devSect pa) = (homeRead s h (devSect pa), latest (homeRead s h (devSect pa)) (devSect pa)) :=
    readSect_of_alive ((deadOf_of_launchesDead same _).trans alive)
  have word : leNat (sectGet (latest (homeRead s h (devSect pa)) (devSect pa)) (a % 64) 8) = lockAt s (devSect pa) a := by
    rw [sectGet_latest _ _ (by omega)]
    exact congrArg (fun m => leNat (cellsGet m _ 8)) bytes
  simp only [atomicAt, found, landFor_of_none none_, sect, word]
  cases f (lockAt s (devSect pa) a) <;> rfl

theorem atomicAt_read_bytes : (atomicAt s h 2 a 8 fun _ => none).1.mem.bytes = s.mem.bytes := by
  obtain ⟨pa, rfl⟩ := locate_dev found
  rw [atomicAt_eq found alive aligned none_]
  exact (homeRead_dev s h _ _).2

theorem atomicAt_read_launches : (atomicAt s h 2 a 8 fun _ => none).1.launches = s.launches := by
  obtain ⟨pa, rfl⟩ := locate_dev found
  rw [atomicAt_eq found alive aligned none_]
  exact launches_of_launchesDead (homeRead_dev s h _ _).1

theorem atomicAt_write_bytes (x : Nat) : cellsGet (atomicAt s h 2 a 8 fun _ => some x).1.mem.bytes (sectBase k + a % 64) 8 = toLe 8 x := by
  obtain ⟨pa, rfl⟩ := locate_dev found
  obtain ⟨same, -⟩ := homeRead_dev s h (pa / 512) (pa / 64 % 8)
  rw [atomicAt_eq found alive aligned none_]
  simp only [writePieceAt, OfNat.ofNat_ne_one, if_false]
  have noted := noteCode_logWrite_mem (homeRead s h (devSect pa)) h.l.slice a (toLe 8 x).length
  have live : deadOf (noteCode (logWrite (homeRead s h (devSect pa)) h.l.slice a) h.l.slice a (toLe 8 x).length) (devSect pa) = none := by
    rw [← alive, ← deadOf_of_launchesDead same]
    simp only [deadOf, noted]
    rfl
  have read := cellsGet_cellsPut (noteCode (logWrite (homeRead s h (devSect pa)) h.l.slice a) h.l.slice a (toLe 8 x).length).mem.bytes
    (sectBase (devSect pa) + a % 64) (toLe 8 x)
  rw [toLe_length] at read
  exact (congrArg (fun m => cellsGet m _ 8) (writeSectAt_bytes live _ _ _ _ _ _)).trans read

/-- What an acquisition of one lane comes to, where it is no fault and the word has no reserved bit. -/
theorem acqLanes_single {i pid : Nat} {s' : State} {rs : List (Nat × Nat)} (got : acqLanes h 2 pid [(i, a)] s = (s', rs, none)) :
    ((lockAt s k a).testBit 0 = true → rs = [(i, 0)] ∧ s'.mem.bytes = s.mem.bytes ∧ lockTable s' h.l.ctx = lockTable s h.l.ctx) ∧
    ((lockAt s k a).testBit 0 = false → rs = [(i, if (lockAt s k a).testBit 1 then 3 else 1)] ∧
      cellsGet s'.mem.bytes (sectBase k + a % 64) 8 = toLe 8 (lockWord true false pid h.l.ctx)) := by
  have old : (atomicAt s h 2 a 8 fun _ => none).2 = lockAt s k a := congrArg Prod.snd (atomicAt_eq found alive aligned none_ _)
  simp only [acqLanes, old] at got
  split at got
  · cases got
  · split at got
    · next held =>
      cases got
      refine ⟨fun _ => ⟨rfl, atomicAt_read_bytes found alive aligned none_, ?_⟩, fun free => absurd held (by simp [free])⟩
      simp only [lockTable, State.launch?, atomicAt_read_launches found alive aligned none_]
    · next free =>
      split at got
      · cases got
      · cases got
        refine ⟨fun held => absurd held free, fun _ => ⟨?_, atomicAt_write_bytes found alive aligned none_ _⟩⟩
        split <;> rfl

/-- A release of one lane by the launch that holds the word. -/
theorem relLanes_single (i : Nat) {pid : Nat} (mine : lockAt s k a = lockWord true false pid h.l.ctx) :
    (relLanes h 2 pid [(i, a)] s).2 = ([(i, true)], false) ∧
      cellsGet (relLanes h 2 pid [(i, a)] s).1.mem.bytes (sectBase k + a % 64) 8 = List.replicate 8 0 := by
  have old : (atomicAt s h 2 a 8 fun _ => none).2 = lockWord true false pid h.l.ctx :=
    (congrArg Prod.snd (atomicAt_eq found alive aligned none_ _)).trans mine
  have clean : lockReserved (lockWord true false pid h.l.ctx) = false := by
    simp [lockReserved, lockWord, bits]
    omega
  have held : (lockWord true false pid h.l.ctx).testBit 0 = true := by
    simp [lockWord, Nat.testBit_zero]
    omega
  have process : bits (lockWord true false pid h.l.ctx) 27 8 = pid % 2 ^ 20 := by
    simp [lockWord, bits]
    omega
  have context : bits (lockWord true false pid h.l.ctx) 51 28 = h.l.ctx % 2 ^ 24 := by
    simp [lockWord, bits]
    omega
  simp only [relLanes, old, clean, held, process, context, beq_self_eq_true, Bool.and_self, if_true, Bool.false_eq_true, if_false]
  exact ⟨trivial, atomicAt_write_bytes found alive aligned none_ 0⟩

end Lane

/-! ### The two instructions and the statement -/

theorem checkLanes_ok {ls : List (Nat × Nat)} {f : State → Nat → Except Stop Unit} (pass : ∀ p ∈ ls, f s p.2 = .ok ()) :
    checkLanes s ls f = .ok := by
  have results : ls.map (fun p => (p.1, p.2, f s p.2)) = ls.map fun p => (p.1, p.2, .ok ()) :=
    List.map_congr_left fun p hp => by rw [pass p hp]
  simp [checkLanes, results, List.filter_map, Function.comp_def]

/-- Acquisitions: the lanes whose checks pass act one after another, once the core's stores to their lines have been performed (R108, R134). -/
theorem exec_lockAcq (run : Runs s g w h) (scope : badScope w = false) (op : fOpcode w = 0x7B)
    (pass : AtomsPass s h (fAspace w) 8 (laneAddrs h w 0)) (clear : TilesClear s g h (fAspace w) 8 (laneAddrs h w 0)) {s0 s' : State}
    {rs : List (Nat × Nat)} (ready : homesReady s h (fAspace w) ((laneAddrs h w 0).map (·.2)) = (s0, true))
    (got : acqLanes h (fAspace w) (s0.getObj (Obj.sPid h.l.slice)) (laneAddrs h w 0) s0 = (s', rs, none)) :
    exec (.lockAcq g w) s = .next (retire (if rs.any fun p => p.2 != 0 then applyInv s' h.g.core else s') g h
      (rs.foldl (fun t p => t.setVs (fD w) p.1 2 p.2) h.t)) := by
  have passed := checkLanes_ok (s := s) (f := fun s a => atomCheck s h (fAspace w) a 8) pass
  simp only [TilesClear, laneAddrs, acting] at passed clear ready got
  show execLockAcq g w s = _
  rw [execLockAcq, runInstr_of_runs run (List.mem_singleton.2 op)]
  simp only [scope, clear, passed, ready, got, Bool.false_and, Bool.false_eq_true, if_false]
  rfl

/-- Releases: the lanes whose checks pass act one after another, once every store of the core has been performed (R110, R134). -/
theorem exec_lockRel (run : Runs s g w h) (scope : badScope w = false) (op : fOpcode w = 0x7C)
    (pass : AtomsPass s h (fAspace w) 8 (laneAddrs h w 0)) (clear : engineOwes s g h.g.core = false) {s0 s' : State} {rs : List (Nat × Bool)}
    (landed : landAll s h.g.core = (s0, true))
    (got : relLanes h (fAspace w) (s0.getObj (Obj.sPid h.l.slice)) (laneAddrs h w 0) s0 = (s', rs, false)) :
    exec (.lockRel g w) s = .next (retire s' g h (h.t.setP (fTop3 w) (mergeP (h.t.preg (fTop3 w))
      (maskOf fun i => rs.any fun p => p.1 == i && p.2) (actMask h.t h.p w)))) := by
  have passed := checkLanes_ok (s := s) (f := fun s a => atomCheck s h (fAspace w) a 8) pass
  simp only [laneAddrs, acting] at passed got
  show execLockRel g w s = _
  rw [execLockRel, runInstr_of_runs run (List.mem_singleton.2 op)]
  simp only [scope, clear, passed, landed, got, Bool.false_and, Bool.false_eq_true, if_false]
  rfl

/-- Settles O22: the lanes of an instruction act one after another, each reading and writing its word at the home. -/
theorem locksComplete : Obligations.LocksComplete := by
  unfold Obligations.LocksComplete
  intro s g w h run scope ls pid pass
  refine ⟨fun op clear s0 s' rs ready got => exec_lockAcq run scope op pass clear ready got,
    fun op clear s0 s' rs landed got => exec_lockRel run scope op pass clear landed got, fun i a k found alive aligned none_ => ⟨?acquired, ?released⟩⟩
  case acquired => exact fun s' rs got => acqLanes_single found alive aligned none_ got
  case released => exact fun mine => relLanes_single found alive aligned none_ i mine

end Sys2Proof.Machine
end

section
/-! SUPPORT. Proofs of the stoker (R92 to R100, R143): its instructions on a declared stream, and the next slot of a stream. -/

namespace Sys2Proof.Machine

variable {s : State} {g : GroupRef} {w : Word64} {h : Here}

/-! ### The instructions -/

theorem runInstr_of_declared {op : Nat} {f : State → Here → Act} (run : Runs s g w h) (declared : fStream w < h.l.streams) (is : fOpcode w = op) :
    stokerOp op g w s f = finish g h (f s h) := by
  rw [stokerOp, runInstr_of_runs run (List.mem_singleton.2 is)]
  simp only [streamDeclared, declared, decide_true, if_true]

theorem gangNow_eq_bind (s : State) (g : GroupRef) : gangNow s g = (s.launch? g.ctx).bind fun l => findGang l g.gang := by
  unfold gangNow
  cases s.launch? g.ctx <;> rfl

/-- The gang of a group, found where the group runs. -/
theorem gangNow_of_here (found : here? s g = some h) : gangNow s g = some h.g := by
  rw [gangNow_eq_bind]
  unfold here? at found
  split at found
  · cases found
  · next launch =>
    split at found
    · cases found
    · next gang =>
      split at found
      · cases found
      · obtain ⟨p, -, rfl⟩ := Option.map_eq_some_iff.1 found
        rw [launch]
        exact gang

theorem spadGet_of_here (found : here? s g = some h) (a n : Nat) : spadGet s g a n = cellsGet h.g.spad a n := by
  simp only [spadGet, gangNow_of_here found]

/-- The least of some numbers, as `stk.take` finds it. -/
theorem foldl_min_of_least {x k : Nat} {xs : List Nat} (mem : k ∈ x :: xs) (least : ∀ j ∈ x :: xs, k ≤ j) : xs.foldl min x = k := by
  induction xs generalizing x with
  | nil => simpa using (List.mem_singleton.1 mem).symm
  | cons y ys ih =>
    refine ih ?_ ?_
    · have hx := least x List.mem_cons_self
      have hy := least y (by simp)
      simp only [List.mem_cons] at mem ⊢
      rcases mem with rfl | rfl | mem
      · exact .inl (by omega)
      · exact .inl (by omega)
      · exact .inr mem
    · intro j hj
      rcases List.mem_cons.1 hj with rfl | hj
      · exact le_min (least x List.mem_cons_self) (least y (by simp))
      · exact least j (by simp [hj])

/-- The choice of `stk.take` among the takeable sequence numbers. -/
def pickLeast : List Nat → Option Nat
  | [] => none
  | x :: xs => some (xs.foldl min x)

theorem pickLeast_of_least {k : Nat} {l : List Nat} (mem : k ∈ l) (least : ∀ j ∈ l, k ≤ j) : pickLeast l = some k := by
  cases l with
  | nil => cases mem
  | cons x xs => exact congrArg some (foldl_min_of_least mem least)

theorem exec_stkTake (g : GroupRef) (w : Word64) (s : State) : exec (.stkTake g w) s = takeWith 0xB1 g w s fun _ l => pickLeast l := by
  show execStkTake g w s = _
  unfold execStkTake
  congr

/-- The choice of `stk.take.at`: the sequence number that sA[31:0] names. -/
def pickNamed (w : Word64) (h : Here) (l : List Nat) : Option Nat := l.find? fun n => n % 2 ^ 32 == (h.t.sreg (fX27 w)).toNat % 2 ^ 32

theorem exec_stkTakeAt (g : GroupRef) (w : Word64) (s : State) : exec (.stkTakeAt g w) s = takeWith 0xB2 g w s (pickNamed w) := rfl

section Declared

variable {op : Nat} {i : Instr} {pick : Here → List Nat → Option Nat} {t : Stream} (run : Runs s g w h) (declared : fStream w < h.l.streams)

include run declared

theorem retires_takeWith_of_no_stream (means : exec i s = takeWith op g w s pick) (none_ : streamOf s g w = none) :
    Retires s g w h i [op] (takeResult h.t w none) := by
  intro is
  rw [means, takeWith, runInstr_of_declared run declared (List.mem_singleton.1 is)]
  simp only [none_]
  rfl

/-- A take that finds its slot among the takeable ones; of a drain stream, only while it goes on. -/
theorem exec_takeWith_some (means : exec i s = takeWith op g w s pick) (is : fOpcode w = op) (stream : streamOf s g w = some t)
    (good : t.desc.bad = false) (goes : t.desc.kind = 1 → streamEnded s h.l.ctx h.g.idx t = false) {k : Nat} (picked : pick h (takeable t) = some k) :
    exec i s = .next (retire (putStream s h.l.ctx h.g.idx (takeSlot t k)) g h (takeResult h.t w (some (k % t.desc.slots, k)))) := by
  have on : (decide (t.desc.kind = 1) && streamEnded s h.l.ctx h.g.idx t) = false := by
    by_cases drain : t.desc.kind = 1
    · simp [goes drain]
    · simp [drain]
  rw [means, takeWith, runInstr_of_declared run declared is]
  simp only [stream, good, on, picked, Bool.false_eq_true, if_false]
  rfl

/-- A take from a stream that has ended gives no slot: at once from a drain stream, else where none is takeable. -/
theorem retires_takeWith_of_ended (means : exec i s = takeWith op g w s pick) (stream : streamOf s g w = some t) (good : t.desc.bad = false)
    (empty : pick h [] = none) (left : takeable t = [] ∨ t.desc.kind = 1) (ended : streamEnded s h.l.ctx h.g.idx t = true) :
    Retires s g w h i [op] (takeResult h.t w none) := by
  intro is
  rw [means, takeWith, runInstr_of_declared run declared (List.mem_singleton.1 is)]
  rcases left with left | drain
  · simp only [stream, good, ended, left, empty, Bool.and_true, Bool.false_eq_true, if_false, if_true, ite_self]
    rfl
  · simp only [stream, good, ended, drain, decide_true, Bool.and_self, Bool.false_eq_true, if_false, if_true]
    rfl

theorem exec_stkStart (is : fOpcode w = 0xB0) (clear : tileStores s g h.g.core = false) (room : (h.t.sreg (fX27 w)).toNat + 64 ≤ h.l.spad)
    {d : Desc} (read : readDesc (h.t.sreg (fX27 w)).toNat (cellsGet h.g.spad (h.t.sreg (fX27 w)).toNat 64) = d) :
    exec (.stkStart g w) s = .next (retire (putStream (stopStream s h.l.ctx h.g.idx (fStream w) h.g.core) h.l.ctx h.g.idx
      { no := fStream w, desc := d, full := 0, empty := d.slots, avail := if d.kind = 1 then List.range d.slots else [] }) g h h.t) := by
  subst read
  show execStkStart g w s = _
  rw [execStkStart, runInstr_of_declared run declared is]
  simp only [clear, Nat.not_lt.2 room, spadGet_of_here run.1, Bool.false_eq_true, if_false]
  rfl

theorem exec_stkGive (is : fOpcode w = 0xB3) (stream : streamOf s g w = some t) (good : t.desc.bad = false) {k : Nat}
    (held : t.held.find? (fun j => j % t.desc.slots == (h.t.sreg (fX27 w)).toNat % 64) = some k) (clear : gmmaQueued s g h.g.core = false)
    (may : t.desc.kind = 1 → t.empty ≠ 0 ∧ engineOwes s g h.g.core = false) :
    exec (.stkGive g w) s = .next (retire (putStream s h.l.ctx h.g.idx (if t.desc.kind = 1
      then { t with held := t.held.filter (fun j => j != k), full := t.full + 1, given := t.given ++ [k] }
      else { t with held := t.held.filter (fun j => j != k), empty := t.empty + 1 })) g h h.t) := by
  have goes : (decide (t.desc.kind = 1) && (t.empty == 0 || engineOwes s g h.g.core)) = false := by
    by_cases drain : t.desc.kind = 1
    · simp [may drain]
    · simp [drain]
  show execStkGive g w s = _
  rw [execStkGive, runInstr_of_declared run declared is]
  simp only [clear, stream, good, goes, held, Bool.false_eq_true, if_false]
  rfl

theorem retires_stkWait_of_no_stream (none_ : streamOf s g w = none) : Retires s g w h (.stkWait g w) [0xB5] h.t := by
  intro is
  show execStkWait g w s = _
  rw [execStkWait, runInstr_of_declared run declared (List.mem_singleton.1 is)]
  simp only [none_]
  rfl

theorem retires_stkWait_of_goes (stream : streamOf s g w = some t) (good : t.desc.bad = false)
    (goes : t.desc.kind ≠ 1 ∨ streamEnded s h.l.ctx h.g.idx t = true) : Retires s g w h (.stkWait g w) [0xB5] h.t := by
  intro is
  have done_ : (decide (t.desc.kind = 1) && !(streamEnded s h.l.ctx h.g.idx t)) = false := by
    rcases goes with fill | ended
    · simp [fill]
    · simp [ended]
  show execStkWait g w s = _
  rw [execStkWait, runInstr_of_declared run declared (List.mem_singleton.1 is)]
  simp only [stream, good, done_, Bool.false_eq_true, if_false]
  rfl

end Declared

/-- Settles O24: each stoker instruction on a declared stream, by whether the stream runs and what it may hand out. -/
theorem stokerInstructions : Obligations.StokerInstructions := by
  unfold Obligations.StokerInstructions
  intro s g w h run declared
  refine ⟨fun d read room clear is => exec_stkStart run declared is clear room read, fun none_ => ⟨?_, ?_, ?_⟩, fun t stream good => ?running,
    fun is => ?stop⟩
  · exact retires_takeWith_of_no_stream run declared (exec_stkTake g w s) none_
  · exact retires_takeWith_of_no_stream run declared (exec_stkTakeAt g w s) none_
  · exact retires_stkWait_of_no_stream run declared none_
  case stop => exact show execStkStop g w s = _ from runInstr_of_declared run declared is
  case running =>
    refine ⟨fun k mem least goes is => ?take, fun k named goes is => ?takeAt, fun left ended => ⟨?taken, ?takenAt⟩, fun k held clear may is => ?give,
      fun goes => retires_stkWait_of_goes run declared stream good goes⟩
    case take => exact exec_takeWith_some run declared (exec_stkTake g w s) is stream good goes (pickLeast_of_least mem least)
    case takeAt => exact exec_takeWith_some run declared (exec_stkTakeAt g w s) is stream good goes named
    case taken => exact retires_takeWith_of_ended run declared (exec_stkTake g w s) stream good rfl left ended
    case takenAt => exact retires_takeWith_of_ended run declared (exec_stkTakeAt g w s) stream good rfl left ended
    case give => exact exec_stkGive run declared is stream good held clear may

/-! ### The stoker's events (R93, R95 to R99) -/

/-- A walk in no format is copied: its slots convert nothing. -/
theorem dConverts_of_copied {d : Desc} (plain : d.srcFmt = 0) : dConverts d = false := by simp [dConverts, plain]

theorem fillData_of_copied {a : StkAt} {s' : State} {bs : List Byte} (walk : a.t.desc.kind = 0) (plain : a.t.desc.srcFmt = 0)
    (read : readPieces a (pieces a.t.desc a.t.pos a.t.desc.slotBytes) s = .done s' bs) :
    fillData a s = .done s' (a.t.desc.slotBytes, none, padTo a.t.desc.slotBytes bs) := by
  simp [fillData, walk, dConverts_of_copied plain, read]

section Event

variable {ctx gang stream : Nat} {l : Launch} {x : Gang} {t : Stream} (launch : s.launch? ctx = some l) (resident : l.phase = .resident)
  (alive : l.killed = false) (found : findGang l gang = some x) (runs : (s.core x.core).hung = false) (has : findStream x stream = some t)

include launch resident alive found runs has

/-- An event finds its stream in a resident launch that is not killed, on a core that runs. -/
theorem stokerEvent_eq (f : StkAt → Res) : stokerEvent ctx gang stream s f = f { l := l, g := x, t := t } := by
  simp [stokerEvent, launch, resident, alive, found, runs, has]

variable (good : t.desc.bad = false) (inRing : ringFault { l := l, g := x, t := t } t.work = none)

include good inRing

theorem exec_stokerSlotFilled (fill : t.desc.kind ≠ 1) (may : mayFill t = true) {s' : State} {n : Nat} {dim : Option Nat} {bs : List Byte}
    (data : fillData { l := l, g := x, t := t } s = .done s' (n, dim, bs)) :
    exec (.stokerSlotFilled ctx gang stream) s = .next (finishFill { l := l, g := x, t := t } n dim bs s') := by
  show execStokerSlotFilled ctx gang stream s = _
  simp only [execStokerSlotFilled, stokerEvent_eq launch resident alive found runs has, bne_iff_ne.2 fill, may, good, inRing, data, onlyIf_true,
    Bool.false_eq_true, if_false]

/-- A drain slot without a conversion, after the core's stores: the pieces left of it can all be written, and are. -/
theorem exec_stokerSlotStored (drain : t.desc.kind = 1) (plain : t.desc.srcFmt = 0) (some_ : 0 < t.full) (within : inLimit t t.work = true)
    (given : t.work ∈ t.given) {s0 s' s'' : State} (landed : landAll s x.core = (s0, true))
    (writable : writablePieces { l := l, g := x, t := t } ((pieces t.desc t.pos t.desc.slotBytes).drop t.sent) s0 = .done s' ())
    (written : writePieces { l := l, g := x, t := t } (cellsGet x.spad (slotAt t.desc t.work) t.desc.slotBytes)
      ((pieces t.desc t.pos t.desc.slotBytes).drop t.sent) s' = (s'', ((pieces t.desc t.pos t.desc.slotBytes).drop t.sent).length)) :
    exec (.stokerSlotStored ctx gang stream) s = .next (finishDrain { l := l, g := x, t := t } t.desc.slotBytes s'') := by
  have due : (decide (0 < t.full) && inLimit t t.work && t.given.contains t.work) = true := by
    simp only [some_, within, List.contains_iff_mem.2 given, decide_true, Bool.and_self]
  show execStokerSlotStored ctx gang stream s = _
  simp only [execStokerSlotStored, stokerEvent_eq launch resident alive found runs has, beq_iff_eq.2 drain, due, good, inRing, dConverts_of_copied plain,
    landed, writable, written, onlyIf_true, Bool.false_and, Bool.false_eq_true, if_false, if_true]

end Event

/-- Settles O25: the event of a fill slot ends with its data in the ring, that of a drain slot with every piece left written. -/
theorem stokerSlotEvents : Obligations.StokerSlotEvents := by
  unfold Obligations.StokerSlotEvents
  intro s ctx gang stream l x t launch resident alive found runs has good a inRing
  refine ⟨fun fill may s' n dim bs data => ?filled, fun walk plain may s' bs read => ?copied, fun drain plain some_ within given => ?drained⟩
  case filled => exact exec_stokerSlotFilled launch resident alive found runs has good inRing fill may data
  case copied =>
    have fill : t.desc.kind ≠ 1 := by omega
    exact exec_stokerSlotFilled launch resident alive found runs has good inRing fill may (fillData_of_copied walk plain read)
  case drained =>
    intro data ps s0 s' s'' landed writable written
    exact exec_stokerSlotStored launch resident alive found runs has good inRing drain plain some_ within given landed writable written

end Sys2Proof.Machine
end

section
/-! SUPPORT. Proofs of faults and of the end of launches (R80, R101 to R106, R111, R114, R118): refused words, reports and watchdogs, the kill of a
launch and its ordinary end. -/

namespace Sys2Proof.Machine

variable {s : State} {g : GroupRef} {w : Word64} {h : Here} {ctx : Nat} {l : Launch}

/-! ### Refused words (R80, R114, R118) -/

/-- A word that the decoder refuses, of a group whose turn it is and whose fetch succeeds. -/
theorem exec_illegalInstruction {cause : Nat} {lanes : LaneMask} (found : here? s g = some h) (may : mayIssue s h = true) (first : ahead s h = [])
    (fetched : fetchCheck s h = none) (bad : illegalWord w = true ∨ beyond h.l.vregs h.l.tiles w = true)
    (finds : decodeFault s h w = some (.fault s cause lanes 0 w)) :
    exec (.illegalInstruction g w) s = .next (faulted s h (groupFault h cause lanes 0 w)) := by
  have refuses : (illegalWord w || beyond h.l.vregs h.l.tiles w) = true := by simpa using bad
  show execIllegalInstruction g w s = _
  simp only [execIllegalInstruction, found, refuses, atGroup, may, myTurn, first, fetched, finds, Option.getD_some, Bool.not_true, Bool.false_eq_true,
    if_false]
  rfl

/-- Settles O29: what the decoder finds first decides. That a refused code or a register beyond the allocation faults the acting lanes, and a refused
opcode or guard the whole path, is log 19's reading. -/
theorem illegalWordsFault : Obligations.IllegalWordsFault := by
  unfold Obligations.IllegalWordsFault
  intro s g w h found may first fetched
  refine ⟨fun refused => ?opcode, fun known guard refused acts => ?code, fun legal outside acts => ?register⟩
  case opcode =>
    have bad : (!(allocated (fOpcode w)) || badGuard w) = true := by simpa using refused
    exact exec_illegalInstruction found may first fetched (.inl (by simp [illegalWord, bad])) (by simp only [decodeFault, bad, if_true])
  case code =>
    have bad : (badCode w || misaligned w) = true := by simpa using refused
    refine exec_illegalInstruction found may first fetched (.inl ?_) ?_
    · simp [illegalWord, Bool.or_assoc, bad]
    · simp only [decodeFault, known, guard, bad, bne_iff_ne.2 acts, Bool.not_true, Bool.or_self, Bool.and_self, Bool.false_eq_true, if_false, if_true]
  case register =>
    simp only [illegalWord, Bool.or_eq_false_iff, Bool.not_eq_false'] at legal
    obtain ⟨⟨⟨known, guard⟩, code⟩, aligned⟩ := legal
    refine exec_illegalInstruction found may first fetched (.inr outside) ?_
    simp only [decodeFault, known, guard, code, aligned, outside, bne_iff_ne.2 acts, Bool.not_true, Bool.or_self, Bool.and_self, Bool.false_and,
      Bool.false_eq_true, if_false, if_true]

/-! ### Launches found after they have changed -/

theorem launch_ctx (found : s.launch? ctx = some l) : l.ctx = ctx := by simpa using List.find?_some found

theorem find?_mapIf {α : Type} {key : α → Nat} {k : Nat} {f : α → α} {y : α} {xs : List α} (found : xs.find? (fun z => key z == k) = some y)
    (num : key (f y) = k) : (mapIf (fun z => key z == k) f xs).find? (fun z => key z == k) = some (f y) := by
  induction xs with
  | nil => cases found
  | cons z xs ih =>
    by_cases e : key z = k
    · obtain rfl : z = y := by simpa [e] using found
      simp [mapIf, e, num]
    · simp only [List.find?_cons, beq_eq_false_iff_ne.2 e] at found
      simpa [mapIf, e] using ih found

theorem launch?_updLaunch (found : s.launch? ctx = some l) {f : Launch → Launch} (same : (f l).ctx = ctx) :
    (updLaunch s ctx f).launch? ctx = some (f l) := find?_mapIf found same

theorem launch?_setLaunch (found : s.launch? ctx = some l) {m : Launch} (same : m.ctx = ctx) : (s.setLaunch m).launch? ctx = some m := by
  have replaced : (s.setLaunch m).launches = mapIf (fun z => z.ctx == ctx) (fun _ => m) s.launches := by simp [State.setLaunch, mapIf, same]
  rw [State.launch?, replaced]
  exact find?_mapIf found same

/-! ### Watchdogs and reports (R102, R103, R105) -/

/-- The report of a watchdog. -/
def watchdogInfo (s : State) (cause info : Nat) : FaultInfo :=
  { cause := cause, source := 3, tick := s.tick, time := s.now, info := BitVec.ofNat 64 info }

theorem launch?_watchdogFault (found : s.launch? ctx = some l) (alive : l.killed = false) (cause info : Nat) :
    (watchdogFault s ctx cause info).launch? ctx = some { l with reports := l.reports ++ [watchdogInfo s cause info] } := by
  refine (launch?_updLaunch found (by simp [alive, launch_ctx found])).trans ?_
  simp only [alive, Bool.false_eq_true, if_false]
  rfl

theorem exec_watchdogNoRetire (found : s.launch? ctx = some l) (alive : l.killed = false) (on : onCores l = true) (expired : periodNs s ≤ idleTime s l) :
    exec (.watchdogNoRetire ctx) s = .next (watchdogFault s ctx 0x4D (idleTime s l / periodNs s)) := by
  show execWatchdogNoRetire ctx s = _
  simp only [execWatchdogNoRetire, found, withSome_some, on, alive, expired, Bool.not_false, Bool.and_self, decide_true, onlyIf_true]

/-- The limit is passed when the count of tick periods is WDOG (log 106). -/
theorem exec_watchdogLimit (found : s.launch? ctx = some l) (alive : l.killed = false) (on : onCores l = true) (limited : l.wdog ≠ 0)
    (expired : l.wdog ≤ l.resTicks) : exec (.watchdogLimit ctx) s = .next (watchdogFault s ctx 0x4E l.wdog) := by
  show execWatchdogLimit ctx s = _
  simp only [execWatchdogLimit, found, withSome_some, on, alive, bne_iff_ne.2 limited, expired, Bool.not_false, Bool.and_self, decide_true, onlyIf_true]

theorem idleTime_of_no_freeze (frozen : l.frozenAt = none) (waited : l.waited = 0) : idleTime s l = s.now - l.since := by
  simp [idleTime, frozen, waited]

/-- The report that arrives first is any of those on their way. -/
theorem exec_faultReport_first (found : s.launch? ctx = some l) (some_ : l.reports ≠ []) (none_ : l.fault = none) :
    ∃ i, ∃ h : i < l.reports.length, exec (.faultReport ctx) s =
      .next ((s.useFree 1).setLaunch { l with fault := some l.reports[i], reports := l.reports.eraseIdx i, killed := true }) := by
  have within : s.freeVal % l.reports.length < l.reports.length := Nat.mod_lt _ (List.length_pos_iff.2 some_)
  refine ⟨_, within, ?_⟩
  show execFaultReport ctx s = _
  have waits : (!l.reports.isEmpty) = true := by simpa using some_
  simp only [execFaultReport, found, withSome_some, waits, onlyIf_true, none_, List.getElem?_eq_getElem within]

theorem exec_faultReport_later {f : FaultInfo} (found : s.launch? ctx = some l) (some_ : l.reports ≠ []) (described : l.fault = some f) :
    exec (.faultReport ctx) s = .next (s.setLaunch { l with reports := l.reports.drop 1, faultCount := min 0xFFFF (l.faultCount + 1) }) := by
  have waits : (!l.reports.isEmpty) = true := by simpa using some_
  show execFaultReport ctx s = _
  simp only [execFaultReport, found, withSome_some, waits, onlyIf_true, described]

/-- Settles O30: a watchdog appends its report to those on their way; the first to arrive is described and kills, a later one is counted. -/
theorem faultReportsKillTheLaunch : Obligations.FaultReportsKillTheLaunch := by
  unfold Obligations.FaultReportsKillTheLaunch
  refine ⟨fun s ctx l found ctxs alive => ⟨fun on expired => ?noRetire, idleTime_of_no_freeze, fun on limited expired => ?limit⟩,
    fun s ctx l found some_ => ⟨fun none_ => ?first, fun f described => ?later⟩⟩
  case noRetire =>
    exact ⟨_, _, exec_watchdogNoRetire found alive on expired, launch?_watchdogFault found alive _ _, rfl, rfl, rfl⟩
  case limit =>
    exact ⟨_, _, exec_watchdogLimit found alive on limited expired, launch?_watchdogFault found alive _ _, rfl, rfl, rfl⟩
  case first =>
    obtain ⟨i, within, next⟩ := exec_faultReport_first found some_ none_
    have found' : (s.useFree 1).launch? ctx = some l := found
    refine ⟨_, _, l.reports[i], next, launch?_setLaunch found' (launch_ctx found :), rfl, List.getElem_mem within, rfl, ?_, rfl⟩
    have shorter := List.length_eraseIdx_of_lt within
    show (l.reports.eraseIdx i).length + 1 = l.reports.length
    omega
  case later =>
    refine ⟨_, _, exec_faultReport_later found some_ described, launch?_setLaunch found (launch_ctx found :), described, ?_, rfl⟩
    exact List.drop_one

/-! ### The end of a launch (R103 to R106, R111) -/

@[simp] theorem launch?_discardWork (s : State) (ctx a : Nat) : (discardWork s ctx).launch? a = s.launch? a := rfl

/-- A launch none of whose stores is on its way has none to perform. -/
theorem landCtx_of_none (none_ : ∀ e ∈ s.stores, e.ctx ≠ ctx) : landCtx s ctx = (s, true) := by
  have left : s.stores.filter (fun e => e.ctx == ctx) = [] := List.filter_eq_nil_iff.2 (by simpa using none_)
  simp [landCtx, left]

/-- No core's write-combining buffer holds an entry of a launch, and the launch's own cores hold none. -/
def BuffersEmpty (s : State) (l : Launch) : Prop := ∀ x ∈ s.cores, ∀ e ∈ (s.core x.no).wc, e.g.ctx ≠ l.ctx ∧ x.no ∉ coresOf l.rows

theorem foldl_fixed {α β : Type} {f : β → α → β} {b : β} {xs : List α} (fixed : ∀ x ∈ xs, f b x = b) : xs.foldl f b = b := by
  induction xs with
  | nil => rfl
  | cons x xs ih =>
    rw [List.foldl_cons, fixed x List.mem_cons_self]
    exact ih fun y hy => fixed y (List.mem_cons_of_mem _ hy)

theorem flushLaunch_of_empty (found : s.launch? ctx = some l) (empty : BuffersEmpty s l) : flushLaunch s ctx = (s, true) := by
  refine foldl_fixed fun x hx => ?_
  have left : (s.core x.no).wc.filter (fun e => e.g.ctx == ctx || (((s.launch? ctx).map fun l => coresOf l.rows).getD []).contains x.no) = [] := by
    refine List.filter_eq_nil_iff.2 fun e he => ?_
    obtain ⟨other, away⟩ := empty x hx e he
    rw [launch_ctx found] at other
    simp [found, other, away]
  simp only [left, wcFlush, Bool.and_self]

theorem core_discardWork (s : State) (ctx n : Nat) :
    (discardWork s ctx).core n = { s.core n with mq := (s.core n).mq.filter fun e => e.g.ctx != ctx } := by
  have same : (fun x : Core => x.no == n) ∘ (fun c : Core => { c with mq := c.mq.filter fun e => e.g.ctx != ctx }) = fun x : Core => x.no == n := rfl
  simp only [State.core, discardWork, List.find?_map, same]
  cases s.cores.find? fun x => x.no == n <;> rfl

theorem BuffersEmpty.discardWork (empty : BuffersEmpty s l) (ctx : Nat) : BuffersEmpty (discardWork s ctx) l := by
  intro x hx e he
  obtain ⟨y, hy, rfl⟩ := List.mem_map.1 hx
  rw [core_discardWork] at he
  exact empty y hy e he

theorem storesDone_of_none (found : s.launch? ctx = some l) (none_ : ∀ e ∈ s.stores, e.ctx ≠ ctx) (empty : BuffersEmpty s l)
    (acked : storesPending s ctx = false) : storesDone s ctx = (s, true) := by
  simp only [storesDone, landCtx_of_none none_, flushLaunch_of_empty found empty, acked, Bool.not_false, Bool.and_self]

theorem abandonLocks_of_none (found : s.launch? ctx = some l) (free : l.locks = []) (k : Nat) : abandonLocks ctx (k + 1) s = (s, true) := by
  simp only [abandonLocks, found, free]

theorem exec_launchKill {f : FaultInfo} (found : s.launch? ctx = some l) (counted : l.reports = []) (free : l.locks = [])
    (empty : BuffersEmpty s l) (none_ : ∀ e ∈ s.stores, e.ctx ≠ ctx) (acked : storesPending s ctx = false) (killed : l.killed = true)
    (fault : l.stop = none) (described : l.fault = some f) (writable : spanOk (discardWork s ctx) l.slice 2 l.faultRec.toNat 64 true = .ok ()) :
    exec (.launchKill ctx) s = .next (endLaunch (writeRun (discardWork s ctx) l.slice 2 l.faultRec.toNat (faultRecord l f)).1 l
      { status := stKilled, locks := l.freed }) := by
  have found' : (discardWork s ctx).launch? ctx = some l := found
  have stores : storesDone (discardWork s ctx) ctx = (discardWork s ctx, true) := storesDone_of_none found' none_ (empty.discardWork ctx) acked
  show execLaunchKill ctx s = _
  simp only [execLaunchKill, found, withSome_some, killed, counted, List.isEmpty_nil, Bool.and_self, onlyIf_true, killLaunch, stores,
    abandonLocks_of_none found' free 256, found', fault, described, writable]

theorem exec_launchComplete (found : s.launch? ctx = some l) (none_reported : l.reports = []) (free : l.locks = [])
    (empty : BuffersEmpty s l) (none_ : ∀ e ∈ s.stores, e.ctx ≠ ctx) (acked : storesPending s ctx = false) (resident : l.phase = .resident)
    (alive : l.killed = false) (all : l.gangs ≤ l.nextGang) (ended : l.live = []) :
    exec (.launchComplete ctx) s = .next (endLaunch s l { status := stOk, locks := l.freed }) := by
  show execLaunchComplete ctx s = _
  simp only [execLaunchComplete, found, withSome_some, resident, beq_self_eq_true, alive, Bool.not_false, none_reported, List.isEmpty_nil, all, decide_true,
    ended, Bool.and_self, onlyIf_true, storesDone_of_none found none_ empty acked, abandonLocks_of_none found free 256, if_true]

/-- Settles O31: with nothing left to perform, send or free, the kill writes its record and the end is the command's. -/
theorem launchesEnd : Obligations.LaunchesEnd := by
  unfold Obligations.LaunchesEnd
  intro s ctx l c found ctxs role counted free buffers none_ acked _
  subst ctxs
  have empty : BuffersEmpty s l := buffers
  refine ⟨fun f killed fault described writable => ?kill, fun resident alive all ended => ?complete, fun t f flight => ?command⟩
  case kill => exact exec_launchKill found counted free empty none_ acked killed fault described writable
  case complete => exact exec_launchComplete found counted free empty none_ acked resident alive all ended
  case command => simp only [endLaunch, role, flight]

end Sys2Proof.Machine
end

section
/-! SUPPORT. Proofs of the matrix queue and its engine (R53, R84, R144, R147, R149). -/

namespace Sys2Proof.Machine

variable {s t : State} {g : GroupRef} {w : Word64} {h : Here}

/-! ### A place in the queue (R84, R144) -/

/-- The entry that a matrix instruction takes into the queue: its word with the descriptor registers as they stand. -/
def entryOf (g : GroupRef) (h : Here) (w : Word64) : MatEnt :=
  { g := g, word := w, aLo := h.t.sreg (fX21 w), aHi := h.t.sreg (fX21 w + 1), bLo := h.t.sreg (fX27 w), bHi := h.t.sreg (fX27 w + 1), pc := h.p.pc }

theorem matrixIssue_of_room {op : Nat} (run : Runs s g w h) (is : fOpcode w = op) (full : h.p.mask = BitVec.allOnes 32)
    (room : (s.core h.g.core).mq.length < 4) :
    matrixIssue op g w s = .next (retire (s.setCore { s.core h.g.core with mq := (s.core h.g.core).mq ++ [entryOf g h w] }) g h h.t) := by
  rw [matrixIssue, runInstr_of_runs run (List.mem_singleton.2 is)]
  simp only [full, ne_eq, not_true_eq_false, if_false, Nat.not_le.2 room]
  rfl

/-- Settles O26: the four matrix instructions issue alike. -/
theorem matrixInstructionsEnqueue : Obligations.MatrixInstructionsEnqueue := by
  unfold Obligations.MatrixInstructionsEnqueue
  intro s g w h run full room
  refine ⟨fun is => ?gmma, fun is => ?zero, fun is => ?ld, fun is => ?st⟩
  case gmma => exact show matrixIssue 0xC0 g w s = _ from matrixIssue_of_room run is full room
  case zero => exact show matrixIssue 0xC1 g w s = _ from matrixIssue_of_room run is full room
  case ld => exact show matrixIssue 0xC2 g w s = _ from matrixIssue_of_room run is full room
  case st => exact show matrixIssue 0xC3 g w s = _ from matrixIssue_of_room run is full room

/-! ### The elements of a tile, row by row -/

/-- The 64 by 64 values of a function, row by row. -/
def grid {α : Type} (f : Nat → Nat → α) : List α := (List.range 64).flatMap fun m => (List.range 64).map (f m)

theorem mem_grid {α : Type} {f : Nat → Nat → α} {x : α} : x ∈ grid f ↔ ∃ m n, m < 64 ∧ n < 64 ∧ f m n = x := by
  simp only [grid, List.mem_flatMap, List.mem_map, List.mem_range]
  constructor
  · rintro ⟨m, hm, n, hn, e⟩; exact ⟨m, n, hm, hn, e⟩
  · rintro ⟨m, n, hm, hn, e⟩; exact ⟨m, hm, n, hn, e⟩

theorem length_grid {α : Type} (f : Nat → Nat → α) : (grid f).length = 4096 := by simp [grid, List.length_flatMap]

/-- Row `m` of the first `k` rows starts at `64 * m`. -/
theorem getElem?_rows {α : Type} (f : Nat → Nat → α) {k m n : Nat} (hm : m < k) (hn : n < 64) :
    ((List.range k).flatMap fun m => (List.range 64).map (f m))[64 * m + n]? = some (f m n) := by
  induction k with
  | zero => omega
  | succ k ih =>
    have len : ((List.range k).flatMap fun m => (List.range 64).map (f m)).length = 64 * k := by
      simp [List.length_flatMap, Nat.mul_comm]
    rw [List.range_succ (n := k), List.flatMap_append]
    obtain rfl | lower := Nat.eq_or_lt_of_le (Nat.le_of_lt_succ hm)
    · rw [List.getElem?_append_right (by omega), len, Nat.add_sub_cancel_left]
      simp [hn]
    · rw [List.getElem?_append_left (by omega), ih lower]

theorem getD_grid {α : Type} (f : Nat → Nat → α) (d : α) {m n : Nat} (hm : m < 64) (hn : n < 64) : (grid f).getD (64 * m + n) d = f m n := by
  rw [List.getD_eq_getElem?_getD, grid, getElem?_rows f hm hn, Option.getD_some]

theorem zipIdx_map_range {α : Type} (f : Nat → α) (k : Nat) : ((List.range k).map f).zipIdx = (List.range k).map fun i => (f i, i) := by
  apply List.ext_getElem
  · simp
  · intro i _ _
    simp

/-- Rows of A against rows of B, each with its number. -/
theorem flatMap_zipIdx_eq_grid {α β : Type} (ra rb : Nat → β) (f : β × Nat → β × Nat → α) :
    (((List.range 64).map ra).zipIdx.flatMap fun x => ((List.range 64).map rb).zipIdx.map fun y => f x y) = grid fun m n => f (ra m, m) (rb n, n) := by
  simp only [zipIdx_map_range, List.flatMap_map, List.map_map, Function.comp_def, grid]

/-! ### The trap of a group-wide instruction: every condition is of lane 0 (R53, log 22) -/

/-- What results of an instruction raise in all, counted as of its lane 0. -/
def raisedAll (xs : List (List Rounded)) : Raised := xs.foldl (fun r x => r.add 0 x) {}

theorem mem_gathered {α : Type} (p : α → Bool) (xs : List α) {l : List Nat} {j : Nat} :
    j ∈ xs.foldl (fun l x => if p x then addNew 0 l else l) l ↔ j ∈ l ∨ (j = 0 ∧ ∃ x ∈ xs, p x = true) := by
  induction xs generalizing l with
  | nil => simp
  | cons x xs ih =>
    have first : j ∈ (if p x then addNew 0 l else l) ↔ j ∈ l ∨ (j = 0 ∧ p x = true) := by
      unfold addNew
      split_ifs <;> grind
    rw [List.foldl_cons, ih, first, List.exists_mem_cons_iff]
    tauto

theorem raisedAll_contains (xs : List (List Rounded)) (j : Nat) :
    ((raisedAll xs).invalid.contains j || (raisedAll xs).overflow.contains j) = true ↔ j = 0 ∧ ∃ x ∈ xs, ∃ r ∈ x, r.invalid = true ∨ r.overflow = true := by
  have invalid : (raisedAll xs).invalid = xs.foldl (fun l x => if x.any (·.invalid) then addNew 0 l else l) [] := (List.foldl_hom Raised.invalid fun _ _ => rfl).symm
  have overflow : (raisedAll xs).overflow = xs.foldl (fun l x => if x.any (·.overflow) then addNew 0 l else l) [] := (List.foldl_hom Raised.overflow fun _ _ => rfl).symm
  rw [Bool.or_eq_true, List.contains_iff_mem, List.contains_iff_mem, invalid, overflow, mem_gathered, mem_gathered]
  simp only [List.any_eq_true, List.not_mem_nil, false_or]
  grind

theorem trap_of_none_raised {r : Raised} (none_ : ∀ j, (r.invalid.contains j || r.overflow.contains j) = false) : r.trap = none := by
  have lanes : lanesOf (maskOf fun i => r.invalid.contains i || r.overflow.contains i) = [] := by
    rw [lanesOf_maskOf, List.filter_eq_nil_iff]
    exact fun j _ => by simp only [none_ j]; exact Bool.false_ne_true
  simp only [Raised.trap, lanes]

theorem trap_of_raised {r : Raised} {j : Nat} (lane : j < 32) (raised : (r.invalid.contains j || r.overflow.contains j) = true) :
    ∃ c m, (c = 0x4A ∨ c = 0x4B) ∧ r.trap = some (c, m) := by
  have acts : j ∈ lanesOf (maskOf fun i => r.invalid.contains i || r.overflow.contains i) := by
    rw [lanesOf_maskOf, List.mem_filter]
    exact ⟨List.mem_range.2 lane, raised⟩
  obtain ⟨i, is, lanes⟩ := List.exists_cons_of_ne_nil (List.ne_nil_of_mem acts)
  refine ⟨if r.invalid.contains i then 0x4A else 0x4B, maskOf fun i => r.invalid.contains i || r.overflow.contains i, by split <;> simp, ?_⟩
  simp only [Raised.trap, lanes]

/-! ### The elements that `gmma` writes (R147) -/

/-- An element before the instruction: its value, or zero. -/
def oldElem (a : MatAt) (m n : Nat) : Nat := if fZero a.e.word then 0 else (tileGet (tileOf a (fTop3 a.e.word)) (64 * m + n)).toNat

/-- The rows of the two operands. -/
def rowA (a : MatAt) (m : Nat) : List (List FVal) := operandRow a.g.spad (tileDesc a.e.aLo a.e.aHi) (fKblk a.e.word) m
def rowB (a : MatAt) (n : Nat) : List (List FVal) := operandRow a.g.spad (tileDesc a.e.bLo a.e.bHi) (fKblk a.e.word) n

/-- An element after it, and what its k-blocks raise. -/
def newElem (a : MatAt) (m n : Nat) : Nat := gmmaElem (decide (6 ≤ (tileDesc a.e.aLo a.e.aHi).fmt)) (oldElem a m n) (rowA a m) (rowB a n)
def elemRaises (a : MatAt) (m n : Nat) : List Rounded :=
  gmmaRaises (decide (6 ≤ (tileDesc a.e.aLo a.e.aHi).fmt)) (oldElem a m n) (rowA a m) (rowB a n)

/-- Operands that the engine accepts: two aligned descriptors of scratchpad tiles of a pairing, within the gang's allocation. -/
structure OperandsOk (a : MatAt) : Prop where
  goodA : tileBad (tileDesc a.e.aLo a.e.aHi) = false
  goodB : tileBad (tileDesc a.e.bLo a.e.bHi) = false
  spaceA : (tileDesc a.e.aLo a.e.aHi).space = 0
  spaceB : (tileDesc a.e.bLo a.e.bHi).space = 0
  pairing : pairOk (tileDesc a.e.aLo a.e.aHi).fmt (tileDesc a.e.bLo a.e.bHi).fmt = true
  within : spadFault a (operandRuns (tileDesc a.e.aLo a.e.aHi) (fKblk a.e.word) ++ operandRuns (tileDesc a.e.bLo a.e.bHi) (fKblk a.e.word)) = none

/-- The state after a `gmma` that faults on no element. -/
def gmmaDone (a : MatAt) (s : State) : State :=
  (putTile s a (fTop3 a.e.word) (tileOfList (tileOf a (fTop3 a.e.word)).base (grid (newElem a)))).addObj (Obj.gmmaKblocks a.l.slice) (fKblk a.e.word)

theorem doGmma_eq {a : MatAt} (ok : OperandsOk a) (s : State) :
    doGmma a s = match (if !a.l.trap then ({} : Raised) else raisedAll (grid (elemRaises a))).trap with
      | some (c, _) => .fault c 0 a.e.word
      | none => .done (gmmaDone a s) := by
  obtain ⟨goodA, goodB, spaceA, spaceB, pairing, within⟩ := ok
  simp only [doGmma, goodA, goodB, spaceA, spaceB, pairing, within, bne_self_eq_false, Bool.not_true, Bool.or_self, Bool.false_eq_true, if_false,
    flatMap_zipIdx_eq_grid]
  rfl

theorem doGmma_done {a : MatAt} (ok : OperandsOk a)
    (quiet : a.l.trap = true → ∀ m n, m < 64 → n < 64 → ¬ ∃ r ∈ elemRaises a m n, r.invalid = true ∨ r.overflow = true) (s : State) :
    doGmma a s = .done (gmmaDone a s) := by
  have none_ : (if !a.l.trap then ({} : Raised) else raisedAll (grid (elemRaises a))).trap = none := by
    refine trap_of_none_raised fun j => ?_
    split
    · rfl
    · next on =>
      refine Bool.eq_false_iff.2 fun raised => ?_
      obtain ⟨-, x, mem, bad⟩ := (raisedAll_contains _ j).1 raised
      obtain ⟨m, n, hm, hn, rfl⟩ := mem_grid.1 mem
      exact quiet (by simpa using on) m n hm hn bad
  rw [doGmma_eq ok, none_]

theorem doGmma_fault {a : MatAt} (ok : OperandsOk a) (on : a.l.trap = true) {m n : Nat} (hm : m < 64) (hn : n < 64)
    (bad : ∃ r ∈ elemRaises a m n, r.invalid = true ∨ r.overflow = true) (s : State) :
    ∃ c, (c = 0x4A ∨ c = 0x4B) ∧ doGmma a s = .fault c 0 a.e.word := by
  have raised := (raisedAll_contains (grid (elemRaises a)) 0).2 ⟨rfl, _, mem_grid.2 ⟨m, n, hm, hn, rfl⟩, bad⟩
  obtain ⟨c, lanes, cause, trap⟩ := trap_of_raised (by decide) raised
  refine ⟨c, cause, ?_⟩
  simp only [doGmma_eq ok, on, Bool.not_true, Bool.false_eq_true, if_false, trap]

/-! ### The first entry of a queue (R84) -/

/-- What the engine does with an entry. -/
def matrixWork (a : MatAt) (s : State) : MatWork :=
  match fOpcode a.e.word with
  | 0xC0 => doGmma a s
  | 0xC1 => doAccZero a s
  | 0xC2 => doAccLd a s
  | _ => doAccSt a s

section Engine

variable {core : Nat} {e : MatEnt} {rest : List MatEnt} {l : Launch} {x : Gang} (runs : (s.core core).hung = false)
  (queue : (s.core core).mq = e :: rest) (launch : s.launch? e.g.ctx = some l) (on : onCores l = true) (found : findGang l e.g.gang = some x)

include runs queue launch on found

theorem exec_matrixQueueExecute :
    exec (.matrixQueueExecute core) s = match matrixWork { l := l, g := x, e := e } s with
      | .done s => .next (reapGangs (popMatrix (served s (.unit l.ctx core)) core) l.ctx)
      | .wait s => .next s
      | .fault c ad i => .next (reapGangs (popMatrix (raiseFault s l.ctx core (matFault { l := l, g := x, e := e } c ad i)) core) l.ctx)
      | .absent => .fault .absentAddress
      | .any => .next (reapGangs (popMatrix (matrixAny { l := l, g := x, e := e } s) core) l.ctx) := by
  show execMatrixQueueExecute core s = _
  simp only [execMatrixQueueExecute, runs, queue, launch, on, found, List.head?_cons, withSome_some, Bool.not_false, onlyIf_true]
  rfl

theorem exec_matrixQueueExecute_done (work : matrixWork { l := l, g := x, e := e } s = .done t) :
    exec (.matrixQueueExecute core) s = .next (reapGangs (popMatrix (served t (.unit l.ctx core)) core) l.ctx) := by
  rw [exec_matrixQueueExecute runs queue launch on found, work]

theorem exec_matrixQueueExecute_fault {c ad : Nat} {i : Word64} (work : matrixWork { l := l, g := x, e := e } s = .fault c ad i) :
    exec (.matrixQueueExecute core) s =
      .next (reapGangs (popMatrix (raiseFault s l.ctx core (matFault { l := l, g := x, e := e } c ad i)) core) l.ctx) := by
  rw [exec_matrixQueueExecute runs queue launch on found, work]

end Engine

/-- Settles O28: what each entry writes, over the elements of a tile in their rows. -/
theorem matrixQueueExecutes : Obligations.MatrixQueueExecutes := by
  unfold Obligations.MatrixQueueExecutes
  intro s core e rest l x runs queue launch on found a
  have finishes {t : State} (work : matrixWork a s = .done t) := exec_matrixQueueExecute_done runs queue launch on found work
  refine ⟨fun is => ?zero, fun is goodA goodB spaceA spaceB pairing within => ?gmma, fun t is work => ?ld, fun t is work => ?st⟩
  case zero =>
    have zero : matrixWork a s = doAccZero a s := by simp only [matrixWork, show fOpcode a.e.word = 0xC1 from is]
    exact finishes zero
  case ld =>
    have ld : matrixWork a s = doAccLd a s := by simp only [matrixWork, show fOpcode a.e.word = 0xC2 from is]
    exact finishes (ld.trans work)
  case st =>
    have st : matrixWork a s = doAccSt a s := by simp only [matrixWork, show fOpcode a.e.word = 0xC3 from is]
    exact finishes (st.trans work)
  case gmma =>
    have ok : OperandsOk a := ⟨goodA, goodB, spaceA, spaceB, pairing, within⟩
    have gmma : matrixWork a s = doGmma a s := by simp only [matrixWork, show fOpcode a.e.word = 0xC0 from is]
    refine ⟨fun quiet => ⟨grid (newElem a), length_grid _, fun m n hm hn => getD_grid (newElem a) 0 hm hn, ?_⟩, fun traps bad => ?_⟩
    · exact finishes (gmma.trans (doGmma_done ok quiet s))
    · obtain ⟨m, n, hm, hn, bad⟩ := bad
      obtain ⟨c, cause, work⟩ := doGmma_fault ok traps hm hn bad s
      exact ⟨c, cause, exec_matrixQueueExecute_fault runs queue launch on found (gmma.trans work)⟩

end Sys2Proof.Machine
end

section
/-! SUPPORT. Proofs of the scalar class (R122, R123) and of the mask that a matrix instruction needs (R144). -/

namespace Sys2Proof.Machine

variable {s : State} {g : GroupRef} {w : Word64} {h : Here} {ops : List Nat}

/-! ### Results of the scalar class (R122) -/

/-- A scalar instruction writes its function of sA and B to sD. -/
theorem retires_of_scalarOp {i : Instr} {f : Word64 → Word64 → Word64} (run : Runs s g w h) (means : exec i s = scalarOp ops s g w f) :
    Retires s g w h i ops (h.t.setS (fD w) (f (h.t.sreg (fA w)) (sclB h.t w))) := by
  intro op
  rw [means, scalarOp, runInstr_of_runs run op]
  rfl

theorem fImm32_lt (w : Word64) : fImm32 w < 2 ^ 32 := Nat.mod_lt _ (by decide)

/-- `scl.movhi`: IMM beside the low half of sD. -/
theorem movhi_eq_append (w v : Word64) :
    BitVec.ofNat 64 (fImm32 w * 2 ^ 32 + v.toNat % 2 ^ 32) = BitVec.ofNat 32 (fImm32 w) ++ v.extractLsb' 0 32 := by
  have imm := fImm32_lt w
  apply BitVec.eq_of_toNat_eq
  rw [BitVec.toNat_append, BitVec.extractLsb'_toNat, BitVec.toNat_ofNat, BitVec.toNat_ofNat, Nat.mod_eq_of_lt imm, Nat.shiftRight_zero,
    ← Nat.shiftLeft_add_eq_or_of_lt (Nat.mod_lt _ (by decide)), Nat.shiftLeft_eq, Nat.mod_eq_of_lt (by omega)]

/-- Settles O3: each scalar instruction is the write of its function of the two sources. -/
theorem scalarResults : Obligations.ScalarResults := by
  unfold Obligations.ScalarResults
  intro s g w h run
  have gives {i : Instr} {ops : List Nat} (f : Word64 → Word64 → Word64) (means : exec i s = scalarOp ops s g w f) := retires_of_scalarOp run means
  refine ⟨?add, ?sub, ?mul, ?and, ?or, ?xor, ?shl, ?shr, ?sra, ?min, ?max, ?minu, ?maxu, ?mov, ?movi, ?movhi⟩
  case add => exact gives (fun a b => a + b) rfl
  case sub => exact gives (fun a b => a - b) rfl
  case mul => exact gives (fun a b => a * b) rfl
  case and => exact gives (fun a b => a &&& b) rfl
  case or => exact gives (fun a b => a ||| b) rfl
  case xor => exact gives (fun a b => a ^^^ b) rfl
  case shl => exact gives (fun a b => a <<< (b.toNat % 64)) rfl
  case shr => exact gives (fun a b => a >>> (b.toNat % 64)) rfl
  case sra => exact gives (fun a b => a.sshiftRight (b.toNat % 64)) rfl
  case min => exact gives (fun a b => if b.slt a then b else a) rfl
  case max => exact gives (fun a b => if a.slt b then b else a) rfl
  case minu => exact gives (fun a b => if b.ult a then b else a) rfl
  case maxu => exact gives (fun a b => if a.ult b then b else a) rfl
  case mov => exact gives (fun a _ => a) rfl
  case movi => exact fun op => show execSclMovi g w s = _ from runInstr_of_runs run op
  case movhi =>
    intro op
    rw [← movhi_eq_append]
    exact show execSclMovhi g w s = _ from runInstr_of_runs run op

/-! ### The scalar compare (R123) -/

/-- A condition on two numbers is the condition on two scalars where they are ordered and told apart alike. -/
theorem condInt_eq_of_order {a b : Int} {eq lt : Bool} (same : eq = decide (a = b)) (less : lt = decide (a < b)) (c : Nat) :
    condInt c a b = match c with
      | 0 => eq
      | 1 => !eq
      | 2 => lt
      | 3 => lt || eq
      | 4 => !lt && !eq
      | 5 => !lt
      | 6 => false
      | _ => true := by
  subst same less
  unfold condInt
  split
  case h_4 => rw [Bool.eq_iff_iff]; simp; omega
  case h_5 => rw [Bool.eq_iff_iff]; simp; omega
  case h_6 => rw [Bool.eq_iff_iff]; simp
  all_goals simp

theorem scalarHolds_eq_condInt (c : Nat) (a b : Word64) :
    scalarHolds c a b = if c.testBit 4 then condInt (c % 16) a.toNat b.toNat else condInt (c % 16) a.toInt b.toInt := by
  have signed := condInt_eq_of_order (a := a.toInt) (b := b.toInt) (eq := a == b) (lt := a.slt b) (by rw [Bool.eq_iff_iff]; simp [BitVec.toInt_inj]) rfl (c % 16)
  have unsigned := condInt_eq_of_order (a := a.toNat) (b := b.toNat) (eq := a == b) (lt := a.ult b)
    (by rw [Bool.eq_iff_iff]; simp [BitVec.toNat_inj]) (by rw [Bool.eq_iff_iff]; simp [BitVec.ult]) (c % 16)
  rw [signed, unsigned]
  unfold scalarHolds
  split <;> rfl

/-- Settles O4: the condition on the scalars is that of Table 4.12 on their signed or unsigned values. -/
theorem scalarCompare : Obligations.ScalarCompare := by
  unfold Obligations.ScalarCompare
  intro s g w h run op a b
  rw [scalarHolds_eq_condInt]
  exact show execSclCmp g w s = _ from runInstr_of_runs run (List.mem_singleton.2 op)

/-! ### Matrix instructions without all lanes (R144) -/

theorem matrixIssue_of_not_full {op : Nat} (run : Runs s g w h) (part : h.p.mask ≠ BitVec.allOnes 32) (is : fOpcode w = op) :
    matrixIssue op g w s = .next (faulted s h (groupFault h 0x48 h.p.mask 0 (BitVec.zeroExtend 64 h.p.mask))) := by
  rw [matrixIssue, runInstr_of_runs run (List.mem_singleton.2 is)]
  simp only [part, ne_eq, not_false_eq_true, if_true]
  rfl

/-- Settles O27: the four matrix instructions issue alike, and each asks for the whole mask first. -/
theorem matrixNeedsFullMask : Obligations.MatrixNeedsFullMask := by
  unfold Obligations.MatrixNeedsFullMask
  intro s g w h run part
  exact ⟨matrixIssue_of_not_full run part, matrixIssue_of_not_full run part, matrixIssue_of_not_full run part, matrixIssue_of_not_full run part⟩

end Sys2Proof.Machine
end

section
/-! SUPPORT. Proofs of the vector class on integers, and of its moves, selects and compares (R124, Tables 4.10 and 4.13). -/

namespace Sys2Proof.Machine

variable {s : State} {g : GroupRef} {w : Word64} {h : Here} {ops : List Nat}

/-! ### Instructions whose lanes raise nothing retire with the arithmetic trap on, too -/

/-- No result of a lane raises a condition of R53. -/
def Quiet (rs : List Rounded) : Prop := ∀ r ∈ rs, r.invalid = false ∧ r.overflow = false

theorem quiet_nil : Quiet [] := fun _ hr => absurd hr List.not_mem_nil

theorem lanesAct_of_quiet {n : Nat} {f : Nat → Nat × List Rounded} (quiet : ∀ i, Quiet (f i).2) :
    lanesAct s h w n f = .step s (writeLanes h.t (fD w) n (acting h w) fun i => (f i).1) := by
  have none_ : (raisedBy (fun i => (f i).2) (acting h w)).trap = none := by
    refine trap_of_none_raised fun j => ?_
    have calm : ((f j).2.any fun x => x.invalid || x.overflow) = false := List.any_eq_false.2 fun r hr => by simp [quiet j r hr]
    rw [raisedBy_contains, trapsAt, calm, Bool.and_false]
  simp only [lanesAct, none_, ite_self]

theorem retires_of_quiet {i : Instr} {f : Group → Nat → Nat × List Rounded} {v : Nat → Nat} (run : Runs s g w h)
    (means : exec i s = vectorOp ops s g w f) (quiet : ∀ i, Quiet (f h.t i).2) (value : ∀ i, (f h.t i).1 = v i) :
    Retires s g w h i ops (laneWrite h w v) := by
  intro op
  rw [means, vectorOp_eq, runInstr_of_runs run op, lanesAct_of_quiet quiet, funext value]
  rfl

theorem quiet_perElem {ty : Nat} {f : Nat → Rounded} (quiet : ∀ j, (f j).invalid = false ∧ (f j).overflow = false) : Quiet (perElem ty f).2 := by
  intro r hr
  obtain ⟨j, -, rfl⟩ := List.mem_map.1 hr
  exact quiet j

theorem quiet_rawElem (w : Word64) (f : Nat → Nat → Nat) (t : Group) (i : Nat) : Quiet (rawElem w f t i).2 :=
  quiet_perElem fun _ => ⟨rfl, rfl⟩

/-- An exact operation on whole elements whose meaning is `v` where the type is that of the word. -/
theorem retires_rawElem {i : Instr} {f v : Nat → Nat → Nat} (run : Runs s g w h) (means : exec i s = vectorOp ops s g w (rawElem w f))
    (value : ∀ a b, f a b = v a b) : Retires s g w h i ops (laneWrite h w (elementwise w h.t v)) :=
  retires_of_quiet run means (quiet_rawElem w f h.t) fun i => by rw [rawElem_fst, funext₂ value]

/-! ### Integer types (R124) -/

/-- A binary operation on an integer type is exact: it is that of the numbers, wrapped to the width. -/
theorem binElem_of_int (int : typeFmt (vecType w) = none) (fi : Int → Int → Int) (ff : FFmt → Nat → FVal → FVal → Rounded) (t : Group) (i : Nat) :
    (binElem w fi ff t i).1 = elementwise w t (fun a b => wrapElem (vecType w) (fi (intVal (vecType w) a) (intVal (vecType w) b))) i ∧
      Quiet (binElem w fi ff t i).2 := by
  simp only [binElem, int, perElem_fst, elementwise]
  exact ⟨trivial, quiet_perElem fun _ => ⟨rfl, rfl⟩⟩

theorem retires_binElem_of_int {i : Instr} {ff : FFmt → Nat → FVal → FVal → Rounded} (run : Runs s g w h) (int : typeFmt (vecType w) = none)
    (fi : Int → Int → Int) (means : exec i s = vectorOp ops s g w (binElem w fi ff)) :
    Retires s g w h i ops (laneWrite h w (elementwise w h.t fun a b =>
      wrapElem (vecType w) (fi (intVal (vecType w) a) (intVal (vecType w) b)))) :=
  retires_of_quiet run means (fun i => (binElem_of_int int fi ff h.t i).2) fun i => (binElem_of_int int fi ff h.t i).1

theorem minMaxElem_of_int {ty : Nat} (int : typeFmt ty = none) (isMax : Bool) (a b : Nat) :
    minMaxElem ty isMax a b = if (if isMax then intVal ty a < intVal ty b else intVal ty b < intVal ty a) then b else a := by
  simp only [minMaxElem, int]

theorem absElem_of_int {ty : Nat} (int : typeFmt ty = none) (a : Nat) : absElem ty a = wrapElem ty (intVal ty a).natAbs := by
  simp only [absElem, int]

theorem negElem_of_int {ty : Nat} (int : typeFmt ty = none) (a : Nat) : negElem ty a = wrapElem ty (-(intVal ty a)) := by
  simp only [negElem, int]

/-- Settles O5: on an integer type every instruction is exact, element by element, so that it writes its lanes whatever the trap. -/
theorem vectorIntegerResults : Obligations.VectorIntegerResults := by
  unfold Obligations.VectorIntegerResults
  intro s g w h run int
  refine ⟨?add, ?sub, ?mul, ?min, ?max, fun _ => ⟨?abs, ?neg⟩, ?and, ?or, ?xor, ?not, ?shl, ?shr, ?mulhi, ?popc, ?clz⟩
  case add => exact retires_binElem_of_int run int (fun a b => a + b) (exec_add g w s)
  case sub => exact retires_binElem_of_int run int (fun a b => a - b) (exec_sub g w s)
  case mul => exact retires_binElem_of_int run int (fun a b => a * b) (exec_mul g w s)
  case min => exact retires_rawElem run (exec_min g w s) (minMaxElem_of_int int false)
  case max => exact retires_rawElem run (exec_max g w s) (minMaxElem_of_int int true)
  case abs => exact retires_rawElem run (exec_abs g w s) fun a _ => absElem_of_int int a
  case neg => exact retires_rawElem run (exec_neg g w s) fun a _ => negElem_of_int int a
  case and => exact retires_rawElem run (show exec (.vAnd g w) s = execVAnd g w s from rfl) fun _ _ => rfl
  case or => exact retires_rawElem run (show exec (.vOr g w) s = execVOr g w s from rfl) fun _ _ => rfl
  case xor => exact retires_rawElem run (show exec (.vXor g w) s = execVXor g w s from rfl) fun _ _ => rfl
  case not => exact retires_rawElem run (show exec (.vNot g w) s = execVNot g w s from rfl) fun _ _ => rfl
  case shl => exact retires_rawElem run (show exec (.shl g w) s = execShl g w s from rfl) fun _ _ => rfl
  case shr => exact retires_rawElem run (show exec (.shr g w) s = execShr g w s from rfl) fun _ _ => rfl
  case mulhi => exact retires_rawElem run (show exec (.mulhi g w) s = execMulhi g w s from rfl) fun _ _ => rfl
  case popc => exact retires_rawElem run (show exec (.popc g w) s = execPopc g w s from rfl) fun _ _ => rfl
  case clz => exact retires_rawElem run (show exec (.clz g w) s = execClz g w s from rfl) fun _ _ => rfl

/-! ### Moves, selects, compares and the lane number (Tables 4.10 and 4.13) -/

/-- An instruction whose lanes have a value and raise nothing. -/
theorem retires_of_value {i : Instr} (run : Runs s g w h) (f : Group → Nat → Nat) (means : exec i s = vectorOp ops s g w fun t i => (f t i, [])) :
    Retires s g w h i ops (laneWrite h w (f h.t)) :=
  retires_of_quiet run means (fun _ => quiet_nil) fun _ => rfl

/-- The lane whose element `mov.vs` moves: that which s(B) names, or the lowest acting lane's v(B). -/
def movedLane (h : Here) (w : Word64) (low : Nat) : Nat :=
  if fBS w then (h.t.sreg (fB w)).toNat % 32 else (h.t.vreg (fB w) low).toNat % 32

theorem retires_movVs (run : Runs s g w h) :
    Retires s g w h (.movVs g w) [0x39] (match acting h w with
      | [] => h.t
      | low :: _ => h.t.setS (fD w) (BitVec.ofNat 64 (srcOperand h.t (fA w) (fAS w) (movedLane h w low) (typeRegs (fType w))))) := by
  intro op
  show execMovVs g w s = _
  rw [execMovVs, runInstr_of_runs run op, acting]
  cases lanesOf (actMask h.t h.p w) <;> rfl

/-- Settles O6: each move writes its value per lane, a compare its predicate (a NaN operand raises nothing, log 16), `mov.vs` its scalar. -/
theorem vectorMovesAndCompares : Obligations.VectorMovesAndCompares := by
  unfold Obligations.VectorMovesAndCompares
  intro s g w h run
  refine ⟨?sel, ?mov, ?movSv, ?laneid, ?cmp, ?movVs⟩
  case sel => exact retires_of_value run (fun t i => if (t.preg (fC w % 8)).getLsbD i then vecA t w i else vecB t w i) rfl
  case mov => exact retires_of_value run (fun t i => if isVectorI (fOpcode w) then fImm32 w else vecA t w i) rfl
  case movSv => exact retires_of_value run (fun t _ => (t.sreg (fA w)).toNat % 2 ^ (32 * typeRegs (fType w))) rfl
  case laneid => exact retires_of_value run (fun _ i => i) rfl
  case cmp => exact fun op => show execCmp g w s = _ from runInstr_of_runs run op
  case movVs => exact retires_movVs run

end Sys2Proof.Machine
end

section
/-! SUPPORT. Proofs of loads and stores (R126 to R131, R164): what they do once their lanes have passed their checks. -/

namespace Sys2Proof.Machine

variable {s : State} {g : GroupRef} {w : Word64} {h : Here}

/-! ### Stores (R126, R128, R131) -/

/-- What a store comes to whose lanes have passed every check and whose bytes no tile and no held lock touches. -/
def passedStore (s : State) (g : GroupRef) (h : Here) (w : Word64) (data : List (Nat × List Byte)) : Act :=
  if fMspace w = 0 then
    if gmmaQueued s g h.g.core then .wait s else .step (data.foldl (fun s d => spadPut s g d.1 d.2) s) h.t
  else match (if fMorder w = 2 ∧ fMscope w = 3 then sysRelease s h else (s, true)) with
    | (u, false) => .wait u
    | (u, true) =>
      if fMspace w = 3 then
        match sysStores g h.g.core h.t.slot data u with
        | (v, true) => .step v h.t
        | (v, false) => .wait v
      else .step (storeAll u h (fMspace w) (fMorder w == 2 && decide (2 ≤ fMscope w)) data) h.t

theorem storeData_lanes (h : Here) (w : Word64) (n : Nat) (v : Nat → Nat) :
    (storeData h w n v).map (fun d => (d.1, d.2.1)) = laneAddrs h w (fMimm w) := by
  simp only [storeData, laneAddrs, List.map_map, Function.comp_def]

theorem storeData_addrs (h : Here) (w : Word64) (n : Nat) (v : Nat → Nat) :
    (storeData h w n v).map (fun d => d.2.1) = (laneAddrs h w (fMimm w)).map (·.2) := by
  simp only [storeData, laneAddrs, List.map_map, Function.comp_def]

theorem checkLanes_of_lanesPass {space n : Nat} {write : Bool} {ls : List (Nat × Nat)} (pass : LanesPass s h space n write ls) :
    checkLanes s ls (fun s a => laneCheck s h (askOf h) space a n write) = .ok :=
  checkLanes_ok pass

/-- A store whose lanes pass: its own tile work holds it back, or it is made. -/
theorem storeLanes_of_pass {n : Nat} {v : Nat → Nat} (scope : badScope w = false) (owes : fMorder w = 2 → engineOwes s g h.g.core = false)
    (pass : LanesPass s h (fMspace w) n true (laneAddrs h w (fMimm w))) (locks : LocksClear s h (fMspace w) n (laneAddrs h w (fMimm w))) :
    storeLanes s g h w n (storeData h w n v) =
      if tileQueued s g h.g.core (fMspace w) n ((laneAddrs h w (fMimm w)).map (·.2)) then .wait s
      else passedStore s g h w ((storeData h w n v).map (·.2)) := by
  have owed : (decide (fMorder w = 2) && engineOwes s g h.g.core) = false := by
    by_cases rel : fMorder w = 2
    · simp [owes rel]
    · simp [rel]
  have unlocked : heldLock s h.l.slice (fMspace w) n ((laneAddrs h w (fMimm w)).map (·.2)) = false := locks
  simp only [storeLanes, scope, owed, storeData_lanes, storeData_addrs, checkLanes_of_lanesPass pass, unlocked, Bool.false_and, Bool.false_eq_true,
    if_false, passedStore, List.foldl_map]
  rcases (if fMorder w = 2 ∧ fMscope w = 3 then sysRelease s h else (s, true)) with ⟨u, _ | _⟩ <;> rfl

theorem exec_st (g : GroupRef) (w : Word64) (s : State) : exec (.st g w) s = runInstr [0x61] s g w fun s h =>
    storeLanes s g h w (2 ^ fMsize w) (storeData h w (2 ^ fMsize w) fun l => h.t.vregs' (fD w) l (sizeRegs (2 ^ fMsize w))) := rfl

/-- What a lane of a converting store makes of its f32 (R131). -/
def storeConv (s : State) (h : Here) (w : Word64) (f : FFmt) (l : Nat) : Rounded :=
  convF f (effRm s h.l.slice (fTop3 w)) (rsrHash s h.l (laneAddr h.t w (fMimm w) l * 8)) (decodeF fmtF32 (h.t.vreg (fD w) l).toNat)

/-- With the arithmetic trap off, a converting store is the store of its conversions. -/
theorem storeConverted_of_trap_off {op : Nat} {f : FFmt} (run : Runs s g w h) (off : h.l.trap = false) (is : fOpcode w = op) :
    storeConverted op f g w s = finish g h (storeLanes s g h w (fmtWidth f / 8) (storeData h w (fmtWidth f / 8) fun l => (storeConv s h w f l).bits)) := by
  rw [storeConverted, runInstr_of_runs run (List.mem_singleton.2 is)]
  simp only [off, Bool.false_eq_true, if_false, List.map_map]
  split
  · next raised => cases raised
  · rfl

section Passed

variable {n : Nat} {v : Nat → Nat} {i : Instr}
  (means : exec i s = finish g h (storeLanes s g h w n (storeData h w n v)))
  (scope : badScope w = false) (owes : fMorder w = 2 → engineOwes s g h.g.core = false)
  (pass : LanesPass s h (fMspace w) n true (laneAddrs h w (fMimm w)))
  (tiles : TilesClear s g h (fMspace w) n (laneAddrs h w (fMimm w)))
  (locks : LocksClear s h (fMspace w) n (laneAddrs h w (fMimm w)))

include means scope owes pass tiles locks

theorem exec_store : exec i s = finish g h (passedStore s g h w ((storeData h w n v).map (·.2))) := by
  have clear : tileQueued s g h.g.core (fMspace w) n ((laneAddrs h w (fMimm w)).map (·.2)) = false := tiles
  rw [means, storeLanes_of_pass scope owes pass locks, clear]
  simp only [Bool.false_eq_true, if_false]

/-- The stores of each space, order and scope whose lanes have passed. -/
theorem exec_store_completes :
    (fMspace w = 0 → gmmaQueued s g h.g.core = false →
      exec i s = .next (retire ((storeData h w n v).foldl (fun s d => spadPut s g d.2.1 d.2.2) s) g h h.t)) ∧
    ((fMspace w = 1 ∨ fMspace w = 2) → ¬ (fMorder w = 2 ∧ fMscope w = 3) →
      exec i s = .next (retire (storeAll s h (fMspace w) (fMorder w == 2 && decide (2 ≤ fMscope w)) ((storeData h w n v).map (·.2))) g h h.t)) ∧
    (fMspace w = 3 → ¬ (fMorder w = 2 ∧ fMscope w = 3) → ∀ s', sysStores g h.g.core h.t.slot ((storeData h w n v).map (·.2)) s = (s', true) →
      exec i s = .next (retire s' g h h.t)) ∧
    (fMspace w ≠ 0 → fMorder w = 2 ∧ fMscope w = 3 → ∀ s', sysRelease s h = (s', true) →
      (fMspace w = 3 → ∀ s'', sysStores g h.g.core h.t.slot ((storeData h w n v).map (·.2)) s' = (s'', true) →
        exec i s = .next (retire s'' g h h.t)) ∧
      (fMspace w ≠ 3 → exec i s = .next (retire (storeAll s' h (fMspace w) true ((storeData h w n v).map (·.2))) g h h.t))) := by
  rw [exec_store means scope owes pass tiles locks]
  refine ⟨fun space idle => ?scratchpad, fun space order => ?memory, fun space order s' sent => ?system,
    fun space order s' released => ⟨fun system s'' sent => ?systemRelease, fun memory => ?memoryRelease⟩⟩
  case scratchpad =>
    simp only [passedStore, space, idle, if_true, Bool.false_eq_true, if_false, List.foldl_map]
    rfl
  case memory =>
    simp only [passedStore, if_neg order, show fMspace w ≠ 0 by omega, show fMspace w ≠ 3 by omega, if_false]
    rfl
  case system =>
    simp only [passedStore, if_neg order, space, OfNat.ofNat_ne_zero, if_false, if_true, sent]
    rfl
  case systemRelease =>
    simp only [passedStore, if_pos order, system, OfNat.ofNat_ne_zero, if_false, released, if_true, sent]
    rfl
  case memoryRelease =>
    obtain ⟨rel, sys⟩ := order
    simp only [passedStore, rel, sys, and_self, space, memory, if_false, released, if_true]
    rfl

end Passed

theorem exec_st_of_runs (run : Runs s g w h) (is : fOpcode w = 0x61) : exec (.st g w) s =
    finish g h (storeLanes s g h w (2 ^ fMsize w) (storeData h w (2 ^ fMsize w) fun l => h.t.vregs' (fD w) l (sizeRegs (2 ^ fMsize w)))) := by
  rw [exec_st, runInstr_of_runs run (List.mem_singleton.2 is)]

/-- Settles O17: once the lanes have passed, a store is made by its space, its order and its scope. -/
theorem storesComplete : Obligations.StoresComplete := by
  unfold Obligations.StoresComplete
  intro s g w h run scope owes
  refine ⟨fun is pass tiles locks => ?st, fun off => ⟨fun is pass tiles locks => ?bf16, fun is pass tiles locks => ?f16,
    fun is pass tiles locks => ?e4m3, fun is pass tiles locks => ?e5m2⟩⟩
  case st => exact exec_store_completes (exec_st_of_runs run is) scope owes pass tiles locks
  case bf16 => exact exec_store_completes (show execStCvtBf16 g w s = _ from storeConverted_of_trap_off run off is) scope owes pass tiles locks
  case f16 => exact exec_store_completes (show execStCvtF16 g w s = _ from storeConverted_of_trap_off run off is) scope owes pass tiles locks
  case e4m3 => exact exec_store_completes (show execStCvtE4m3 g w s = _ from storeConverted_of_trap_off run off is) scope owes pass tiles locks
  case e5m2 => exact exec_store_completes (show execStCvtE5m2 g w s = _ from storeConverted_of_trap_off run off is) scope owes pass tiles locks

end Sys2Proof.Machine
end

section
/-! SUPPORT. Registers of a group (R79, R112): what a write of registers leaves of the other registers and of the rest of the group. -/

namespace Sys2Proof.Machine

namespace Group

variable {t u : Group}

/-! ### Scalar registers and predicates -/

theorem sreg_setS_ne (t : Group) {r d : Nat} (v : Word64) (other : r % 64 ≠ d % 64) : (t.setS d v).sreg r = t.sreg r :=
  sget_sput_ne _ v other.symm

theorem preg_setP_ne (t : Group) {r d : Nat} (v : LaneMask) (other : r % 8 ≠ d % 8) : (t.setP d v).preg r = t.preg r := by
  simp only [preg, setP, sget_lput, if_neg other]

theorem sreg_of_sregs (same : t.sregs = u.sregs) (r : Nat) : t.sreg r = u.sreg r := by simp only [sreg, same]

/-! ### Vector registers -/

/-- A write of vector registers of a lane leaves the rest of the group. -/
theorem setVs_eq (t : Group) (r i n v : Nat) : t.setVs r i n v = { t with vregs := (t.setVs r i n v).vregs } := by
  induction n generalizing t r v with
  | zero => rfl
  | succ n ih =>
    rw [setVs, ih]
    rfl

theorem setVs_vregs_congr (same : t.vregs = u.vregs) (r i n v : Nat) : (t.setVs r i n v).vregs = (u.setVs r i n v).vregs := by
  induction n generalizing t u r v with
  | zero => exact same
  | succ n ih => exact ih (by simp only [setV, same]) _ _

theorem vreg_setV_ne (t : Group) {r i d j : Nat} (v : Word32) (lane : i < 32) (lane' : j < 32) (other : j ≠ i ∨ d ≠ r) :
    (t.setV r i v).vreg d j = t.vreg d j :=
  sget_sput_ne _ v (by omega)

theorem vreg_setVs_outside (t : Group) {r i n d j : Nat} (v : Nat) (lane : i < 32) (lane' : j < 32) (outside : j ≠ i ∨ d < r ∨ r + n ≤ d) :
    (t.setVs r i n v).vreg d j = t.vreg d j := by
  induction n generalizing t r v with
  | zero => rfl
  | succ n ih => rw [setVs, ih _ _ (by omega), vreg_setV_ne t _ lane lane' (by omega)]

end Group

theorem mem_lanesOf_lt {m : LaneMask} {i : Nat} (mem : i ∈ lanesOf m) : i < 32 := List.mem_range.1 (List.mem_filter.1 mem).1

/-- Values written to lanes, as a late load writes them, depend on the group's vector registers alone. -/
theorem foldl_setVs_vregs_congr {α : Type} {t u : Group} (same : t.vregs = u.vregs) (r n : Nat) (lane value : α → Nat) (ls : List α) :
    (ls.foldl (fun t l => t.setVs r (lane l) n (value l)) t).vregs = (ls.foldl (fun t l => t.setVs r (lane l) n (value l)) u).vregs := by
  induction ls generalizing t u with
  | nil => exact same
  | cons l ls ih => exact ih (Group.setVs_vregs_congr same _ _ _ _)

theorem foldl_setVs_eq {α : Type} (t : Group) (r n : Nat) (lane value : α → Nat) (ls : List α) :
    ls.foldl (fun t l => t.setVs r (lane l) n (value l)) t =
      { t with vregs := (ls.foldl (fun t l => t.setVs r (lane l) n (value l)) t).vregs } := by
  induction ls generalizing t with
  | nil => rfl
  | cons l ls ih => rw [List.foldl_cons, ih, Group.setVs_eq]

/-- A write of one value per lane leaves the rest of the group. -/
theorem writeLanes_eq (t : Group) (r n : Nat) (ls : List Nat) (f : Nat → Nat) :
    writeLanes t r n ls f = { t with vregs := (writeLanes t r n ls f).vregs } := foldl_setVs_eq t r n (fun i => i) f ls

/-- A register that is none of those written, or of a lane that is not written, is as before. -/
theorem vreg_writeLanes_outside (t : Group) {r n d j : Nat} {ls : List Nat} (f : Nat → Nat) (lanes : ∀ i ∈ ls, i < 32) (lane : j < 32)
    (outside : j ∉ ls ∨ d < r ∨ r + n ≤ d) : (writeLanes t r n ls f).vreg d j = t.vreg d j := by
  unfold writeLanes
  induction ls generalizing t with
  | nil => rfl
  | cons i ls ih =>
    have first : j ≠ i ∨ d < r ∨ r + n ≤ d := outside.imp_left fun away => by rintro rfl; exact away List.mem_cons_self
    rw [List.foldl_cons, ih _ (fun k hk => lanes k (List.mem_cons_of_mem _ hk)) (outside.imp_left fun away mem => away (List.mem_cons_of_mem _ mem)),
      Group.vreg_setVs_outside t _ (lanes i List.mem_cons_self) lane first]

end Sys2Proof.Machine
end

section
/-! SUPPORT. Proofs of loads (R126, R127, R164, R169): loads of each space, and the value that a plain load takes late. -/

namespace Sys2Proof.Machine

variable {s : State} {g : GroupRef} {w : Word64} {h : Here}

/-! ### Loads whose lanes pass (R126, R127) -/

/-- The group with what a load read in its acting lanes: `v` of each lane's address. -/
def loaded (h : Here) (w : Word64) (v : Nat → Nat) : Group :=
  writeLanes h.t (fD w) (sizeRegs (2 ^ fMsize w)) (acting h w) fun i => v (laneAddr h.t w (fMimm w) i)

/-- A load of memory through the L1. -/
def memoryLoad (s : State) (h : Here) (w : Word64) : State × (Nat → Nat) :=
  cachedLoad s h (fMspace w) (2 ^ fMsize w) (fMscope w) (fMorder w == 1) (laneAddrs h w (fMimm w))

/-- What the addresses of a load of system space come to. -/
def systemLoad (s : State) (g : GroupRef) (h : Here) (w : Word64) : SysLoaded :=
  sysLoads g h (2 ^ fMsize w) (((laneAddrs h w (fMimm w)).map (·.2)).foldl (fun acc a => addNew a acc) []) s

theorem loaded_eq (h : Here) (w : Word64) (v : Nat → Nat) : loaded h w v = { h.t with vregs := (loaded h w v).vregs } := writeLanes_eq ..

theorem Runs.late (run : Runs s g w h) : h.t.late = [] := run.2.2.2.2.2

/-- The lanes' values written one after another, as the instruction does it. -/
theorem foldl_lanes_eq_loaded (h : Here) (w : Word64) (v : Nat → Nat) :
    ((laneAddrs h w (fMimm w)).map fun p => (p.1, v p.2)).foldl (fun t p => t.setVs (fD w) p.1 (sizeRegs (2 ^ fMsize w)) p.2) h.t = loaded h w v := by
  simp only [laneAddrs, List.foldl_map]
  rfl

/-- What a load comes to whose lanes have passed their checks and whose bytes no tile of the group touches. -/
def passedLoad (s : State) (g : GroupRef) (h : Here) (w : Word64) : Act :=
  match fMspace w with
  | 0 => .step s (loaded h w fun a => leNat (spadGet s g a (2 ^ fMsize w)))
  | 3 =>
    if (systemLoad s g h w).waits then .wait (systemLoad s g h w).s
    else match (laneAddrs h w (fMimm w)).filter fun p => (systemLoad s g h w).faults.any fun f => f.1 == p.2 with
    | p :: ps =>
      let f := ((systemLoad s g h w).faults.find? fun f => f.1 == p.2).getD (0, 0x40, 0)
      .fault (dropReads (systemLoad s g h w).s (.load g)) f.2.1 (maskOf fun j => (p :: ps).any fun q => q.1 == j) (BitVec.ofNat 64 p.2) f.2.2
    | [] =>
      let u := dropReads (systemLoad s g h w).s (.load g)
      .step (if fMorder w = 1 then applyInv u h.g.core else u) (loaded h w (loadedAt (systemLoad s g h w)))
  | _ =>
    match loadReady s h (fMspace w) (2 ^ fMsize w) (h.t.fenced || (fMorder w == 1 && decide (2 ≤ fMscope w))) ((laneAddrs h w (fMimm w)).map (·.2)) with
    | (u, false) => .wait u
    | (u, true) =>
      let t := loaded h w (memoryLoad u h w).2
      .step (memoryLoad u h w).1
        (if fMorder w = 1 then t else { t with late := t.late ++ lateLoads u h (fMspace w) (2 ^ fMsize w) (fD w) (laneAddrs h w (fMimm w)) })

section Load

variable (run : Runs s g w h) (is : fOpcode w = 0x60) (scope : badScope w = false)
  (pass : ∀ p ∈ laneAddrs h w (fMimm w),
    laneCheck (if fMorder w = 1 then dropAt s h (fMspace w) p.2 else s) h (askOf h) (fMspace w) p.2 (2 ^ fMsize w) false = .ok ())
  (tiles : TilesClear s g h (fMspace w) (2 ^ fMsize w) (laneAddrs h w (fMimm w)))

include run is scope pass tiles

theorem exec_ld_of_pass : exec (.ld g w) s = finish g h (passedLoad s g h w) := by
  have passed := checkLanes_ok (s := s)
    (f := fun s a => laneCheck (if fMorder w = 1 then dropAt s h (fMspace w) a else s) h (askOf h) (fMspace w) a (2 ^ fMsize w) false) pass
  have clear : tileQueued s g h.g.core (fMspace w) (2 ^ fMsize w) ((laneAddrs h w (fMimm w)).map (·.2)) = false := tiles
  have lanes : ((lanesOf (actMask h.t h.p w)).map fun i => (i, laneAddr h.t w (fMimm w) i)) = laneAddrs h w (fMimm w) := rfl
  show execLd g w s = _
  rw [execLd, runInstr_of_runs run (List.mem_singleton.2 is)]
  simp only [mBytes, lanes, scope, passed, clear, Bool.false_and, Bool.false_eq_true, if_false, foldl_lanes_eq_loaded,
    foldl_lanes_eq_loaded h w fun a => leNat (spadGet s g a (2 ^ fMsize w)), passedLoad]
  rfl

theorem exec_ld_scratchpad (space : fMspace w = 0) :
    exec (.ld g w) s = .next (retire s g h (loaded h w fun a => leNat (cellsGet h.g.spad a (2 ^ fMsize w)))) := by
  rw [exec_ld_of_pass run is scope pass tiles]
  simp only [passedLoad, space, spadGet_of_here run.1]
  rfl

/-- A load of shared scratch or device memory, once the core's stores that it must follow have been performed. -/
theorem exec_ld_memory (space : fMspace w = 1 ∨ fMspace w = 2) {s' : State}
    (ready : loadReady s h (fMspace w) (2 ^ fMsize w) (h.t.fenced || (fMorder w == 1 && decide (2 ≤ fMscope w)))
      ((laneAddrs h w (fMimm w)).map (·.2)) = (s', true)) :
    exec (.ld g w) s = .next (retire (memoryLoad s' h w).1 g h (if fMorder w = 1 then loaded h w (memoryLoad s' h w).2
      else { loaded h w (memoryLoad s' h w).2 with
        late := lateLoads s' h (fMspace w) (2 ^ fMsize w) (fD w) (laneAddrs h w (fMimm w)) })) := by
  have none_ : (loaded h w (memoryLoad s' h w).2).late = [] := by rw [loaded_eq]; exact run.late
  rw [exec_ld_of_pass run is scope pass tiles, passedLoad]
  split
  · omega
  · omega
  · simp only [ready, none_, List.nil_append]
    rfl

theorem exec_ld_system (space : fMspace w = 3) (answered : (systemLoad s g h w).waits = false) (good : (systemLoad s g h w).faults = []) :
    exec (.ld g w) s = .next (retire (if fMorder w = 1 then applyInv (dropReads (systemLoad s g h w).s (.load g)) h.g.core
      else dropReads (systemLoad s g h w).s (.load g)) g h (loaded h w (loadedAt (systemLoad s g h w)))) := by
  have unfaulted : ((laneAddrs h w (fMimm w)).filter fun p => (systemLoad s g h w).faults.any fun f => f.1 == p.2) = [] := by simp [good]
  rw [exec_ld_of_pass run is scope pass tiles]
  simp only [passedLoad, space, answered, unfaulted, Bool.false_eq_true, if_false]
  rfl

end Load

/-! ### The value that a plain load takes late (R164) -/

theorem leavesLate_of_not_access (other : fOpcode w ≠ 0x60 ∧ fOpcode w ≠ 0x61) : leavesLate s h w = false := by
  simp [leavesLate, other]

/-- The group with no late load, as the first of them is settled from it. -/
def unlate (t : Group) : Group := { t with late := [] }

/-- A late load takes its value of the sector now, or had it before: nothing but vector registers changes. -/
theorem settleOne_cases {e : LateLoad} {p : Nat × Nat} {ls : List (Nat × Nat)} (lanes : e.lanes = p :: ls) (s : State) (t : Group) :
    (settleOne h (s, t) e).2 = { t with vregs := (settleOne h (s, t) e).2.vregs } ∧
    ((settleOne h (s, t) e).2.vregs = t.vregs ∨ ∃ k, readOk s h.l.slice e.space p.2 (askOf h) = .ok k ∧
      (settleOne h (s, t) e).2.vregs = (e.lanes.foldl (fun (t : Group) l => t.setVs e.reg l.1 (sizeRegs e.n)
        (leNat (sectGet (readSect (s.useFree 1) k).2 (l.2 % 64) e.n))) t).vregs) := by
  unfold settleOne
  rw [lanes]
  dsimp only
  split
  · exact ⟨rfl, .inl rfl⟩
  · next k ok =>
    split
    · exact ⟨rfl, .inl rfl⟩
    · exact ⟨foldl_setVs_eq .., .inr ⟨k, ok, rfl⟩⟩

/-- A scalar addition of a group that has one late load runs with the registers as that leaves them. -/
theorem exec_sclAdd_of_late {e : LateLoad} (found : here? s g = some h) (may : mayIssue s h = true) (first : ahead s h = [])
    (fetched : fetchCheck s h = none) (decoded : decodeFault s h w = none) (late : h.t.late = [e]) (op : fOpcode w ∈ [0x00, 0x10]) :
    exec (.sclAdd g w) s = .next (retire (setGroup (settleOne h (s, unlate h.t) e).1 g (settleOne h (s, unlate h.t) e).2) g h
      ((settleOne h (s, unlate h.t) e).2.setS (fD w)
        ((settleOne h (s, unlate h.t) e).2.sreg (fA w) + sclB (settleOne h (s, unlate h.t) e).2 w))) := by
  have settles : leavesLate s h w = false := leavesLate_of_not_access (by constructor <;> rintro is <;> simp [is] at op)
  show execSclAdd g w s = _
  have listed : [0x00, 0x10].contains (fOpcode w) = true := by simpa using op
  simp only [execSclAdd, scalarOp, runInstr, atGroup, listed, found, may, myTurn, first, fetched, decoded, Bool.not_true, Bool.false_eq_true, if_false]
  simp only [settleLate, late, settles, List.isEmpty_cons, Bool.or_self, Bool.false_eq_true, if_false, List.foldl_cons, List.foldl_nil]
  rfl

/-- Settles O15: a load reads by its space; the next instruction finds in its registers what a late load wrote, then or now. -/
theorem loadsComplete : Obligations.LoadsComplete := by
  unfold Obligations.LoadsComplete
  refine ⟨fun s g w h run is scope => ?loads, fun s g w h e p ls found may first fetched decoded late lanes => ?late⟩
  case loads =>
    intro n ls gets pass tiles
    refine ⟨fun space => ?_, fun space s' ready => ?_, fun space answered good => ?_⟩
    · exact exec_ld_scratchpad run is scope pass tiles space
    · exact exec_ld_memory run is scope pass tiles space ready
    · exact exec_ld_system run is scope pass tiles space answered good
  case late =>
    obtain ⟨rest, value⟩ := settleOne_cases (h := h) lanes s (unlate h.t)
    have sregs : (settleOne h (s, unlate h.t) e).2.sregs = h.t.sregs := by rw [rest]; rfl
    refine ⟨setGroup (settleOne h (s, unlate h.t) e).1 g (settleOne h (s, unlate h.t) e).2,
      (settleOne h (s, unlate h.t) e).2, fun op => ?_, by rw [rest]; rfl, sregs, by rw [rest]; rfl, ?_⟩
    · rw [exec_sclAdd_of_late found may first fetched decoded late op, sclB, Group.sreg_of_sregs sregs, Group.sreg_of_sregs sregs]
    · refine value.imp_right fun ⟨k, ok, new⟩ => ⟨k, ok, new.trans ?_⟩
      exact foldl_setVs_vregs_congr (t := unlate h.t) (u := h.t) rfl e.reg (sizeRegs e.n) (·.1) _ e.lanes

end Sys2Proof.Machine
end

section
/-! SUPPORT. Proofs of the faults of atomics (R133, Table 3.10): scopes and spaces, `atom.fadd` in a fixed order, misaligned lanes. -/

namespace Sys2Proof.Machine

variable {s : State} {g : GroupRef} {w : Word64} {h : Here}

/-! ### Lanes that fail their check for one cause -/

/-- What a lane's check may come to, other than its success. -/
def isAbsent : Except Stop Unit → Bool
  | .error .absent => true
  | _ => false

def isOpen : Except Stop Unit → Bool
  | .error .any => true
  | _ => false

def isCause : Except Stop Unit → Bool
  | .error (.cause _ _) => true
  | _ => false

def isWait : Except Stop Unit → Bool
  | .error (.wait _) => true
  | _ => false

/-- The lanes of an access with what their checks come to. -/
def verdicts (s : State) (ls : List (Nat × Nat)) (f : State → Nat → Except Stop Unit) : List (Nat × Nat × Except Stop Unit) :=
  ls.map fun p => (p.1, p.2, f s p.2)

theorem checkLanes_eq (s : State) (ls : List (Nat × Nat)) (f : State → Nat → Except Stop Unit) :
    checkLanes s ls f =
      if (verdicts s ls f).any fun r => isAbsent r.2.2 then .act .absent
      else if (verdicts s ls f).any fun r => isOpen r.2.2 then .act (.any s)
      else match (verdicts s ls f).filter fun r => isCause r.2.2 with
      | (_, a, .error (.cause c i)) :: _ =>
        .act (.fault s c (maskOf fun j => ((verdicts s ls f).filter fun r => isCause r.2.2).any fun r => r.1 == j) (BitVec.ofNat 64 a) i)
      | _ =>
        if (verdicts s ls f).any fun r => isWait r.2.2 then
          .act (.wait (ls.foldl (fun s p => match f s p.2 with
            | .error (.wait s) => s
            | _ => s) s))
        else .ok := rfl

/-- Where the lanes that fail all fail alike, the fault names the first of them and lists them all (log 18). -/
theorem checkLanes_of_faults {ls : List (Nat × Nat)} {f : State → Nat → Except Stop Unit} {bad : Nat × Nat → Bool} {low : Nat × Nat} {c : Nat}
    {i : Word64} (good : ∀ x ∈ ls, bad x = false → f s x.2 = .ok ()) (fails : ∀ x ∈ ls, bad x = true → f s x.2 = .error (.cause c i))
    (first : ls.find? bad = some low) :
    checkLanes s ls f = .act (.fault s c (maskOf fun j => ls.any fun x => x.1 == j && bad x) (BitVec.ofNat 64 low.2) i) := by
  have verdict (p : Nat × Nat) (mem : p ∈ ls) : isAbsent (f s p.2) = false ∧ isOpen (f s p.2) = false ∧ isCause (f s p.2) = bad p := by
    cases fault : bad p with
    | false => rw [good p mem fault]; exact ⟨rfl, rfl, rfl⟩
    | true => rw [fails p mem fault]; exact ⟨rfl, rfl, rfl⟩
  have none_absent : ((verdicts s ls f).any fun r => isAbsent r.2.2) = false := by
    simp only [verdicts, List.any_map, List.any_eq_false]
    exact fun p mem => Bool.eq_false_iff.1 (verdict p mem).1
  have none_open : ((verdicts s ls f).any fun r => isOpen r.2.2) = false := by
    simp only [verdicts, List.any_map, List.any_eq_false]
    exact fun p mem => Bool.eq_false_iff.1 (verdict p mem).2.1
  have faulty : ((verdicts s ls f).filter fun r => isCause r.2.2) = (ls.filter bad).map fun p => (p.1, p.2, .error (.cause c i)) := by
    simp only [verdicts, List.filter_map, Function.comp_def]
    rw [List.filter_congr (q := bad) fun p mem => (verdict p mem).2.2]
    exact List.map_congr_left fun p mem => by rw [fails p (List.mem_filter.1 mem).1 (List.mem_filter.1 mem).2]
  have lanes (j : Nat) : ((ls.filter bad).map fun p => (p.1, p.2, (.error (.cause c i) : Except Stop Unit))).any (fun r => r.1 == j) =
      ls.any fun x => x.1 == j && bad x := by
    simp only [List.any_map, List.any_filter, Function.comp_def, Bool.and_comm]
  obtain ⟨rest, lowest⟩ := List.head?_eq_some_iff.1 (List.head?_filter.trans first)
  simp only [checkLanes_eq, none_absent, none_open, faulty, lanes, Bool.false_eq_true, if_false]
  rw [lowest]
  rfl

/-! ### Atomics (R133) -/

theorem exec_atomAdd (g : GroupRef) (w : Word64) (s : State) :
    exec (.atomAdd g w) s = atomicOp 0x70 g w s fun k o b _ => some ((o + b) % 2 ^ k) := rfl

theorem exec_atomMinS (g : GroupRef) (w : Word64) (s : State) :
    exec (.atomMinS g w) s = atomicOp 0x72 g w s fun k o b _ => some (if signedN k b < signedN k o then b else o) := rfl

theorem exec_atomMaxS (g : GroupRef) (w : Word64) (s : State) :
    exec (.atomMaxS g w) s = atomicOp 0x73 g w s fun k o b _ => some (if signedN k o < signedN k b then b else o) := rfl

theorem exec_atomMinU (g : GroupRef) (w : Word64) (s : State) :
    exec (.atomMinU g w) s = atomicOp 0x74 g w s fun _ o b _ => some (min o b) := rfl

theorem exec_atomMaxU (g : GroupRef) (w : Word64) (s : State) :
    exec (.atomMaxU g w) s = atomicOp 0x75 g w s fun _ o b _ => some (max o b) := rfl

theorem exec_atomAnd (g : GroupRef) (w : Word64) (s : State) :
    exec (.atomAnd g w) s = atomicOp 0x76 g w s fun _ o b _ => some (o &&& b) := rfl

theorem exec_atomOr (g : GroupRef) (w : Word64) (s : State) :
    exec (.atomOr g w) s = atomicOp 0x77 g w s fun _ o b _ => some (o ||| b) := rfl

theorem exec_atomXor (g : GroupRef) (w : Word64) (s : State) :
    exec (.atomXor g w) s = atomicOp 0x78 g w s fun _ o b _ => some (o ^^^ b) := rfl

theorem exec_atomExch (g : GroupRef) (w : Word64) (s : State) :
    exec (.atomExch g w) s = atomicOp 0x79 g w s fun _ _ b _ => some b := rfl

theorem exec_atomCas (g : GroupRef) (w : Word64) (s : State) :
    exec (.atomCas g w) s = atomicOp 0x7A g w s fun _ o b c => if o = b then some c else none := rfl

theorem exec_atomFadd (g : GroupRef) (w : Word64) (s : State) :
    exec (.atomFadd g w) s = atomicTrap faddRaised 0x71 g w s fun k o b _ => some (faddAtom k o b).bits := rfl

/-- The eleven atomics with their opcodes. -/
def atomics (g : GroupRef) (w : Word64) : List (Instr × Nat) :=
  [(.atomAdd g w, 0x70), (.atomFadd g w, 0x71), (.atomMinS g w, 0x72), (.atomMaxS g w, 0x73), (.atomMinU g w, 0x74), (.atomMaxU g w, 0x75),
    (.atomAnd g w, 0x76), (.atomOr g w, 0x77), (.atomXor g w, 0x78), (.atomExch g w, 0x79), (.atomCas g w, 0x7A)]

/-- Each is an atomic of the shared form. -/
theorem atomics_form (g : GroupRef) (w : Word64) (s : State) : ∀ p ∈ atomics g w,
    isAtomic p.2 = true ∧ ∃ raises f, exec p.1 s = atomicTrap raises p.2 g w s f := by
  simp only [atomics, List.forall_mem_cons, List.not_mem_nil, false_implies, implies_true, and_true]
  exact ⟨⟨rfl, _, _, exec_atomAdd g w s⟩, ⟨rfl, _, _, exec_atomFadd g w s⟩, ⟨rfl, _, _, exec_atomMinS g w s⟩, ⟨rfl, _, _, exec_atomMaxS g w s⟩,
    ⟨rfl, _, _, exec_atomMinU g w s⟩, ⟨rfl, _, _, exec_atomMaxU g w s⟩, ⟨rfl, _, _, exec_atomAnd g w s⟩, ⟨rfl, _, _, exec_atomOr g w s⟩,
    ⟨rfl, _, _, exec_atomXor g w s⟩, ⟨rfl, _, _, exec_atomExch g w s⟩, ⟨rfl, _, _, exec_atomCas g w s⟩⟩

theorem isMem_of_isAtomic {o : Nat} (atomic : isAtomic o = true) : isMem o = false := by
  simp only [isAtomic, isMem, decide_eq_true_eq, decide_eq_false_iff_not] at atomic ⊢
  omega

/-- The spaces and the scope that no atomic has (log 104). -/
theorem badScope_of_isAtomic (atomic : isAtomic (fOpcode w) = true) :
    badScope w = true ↔ fAspace w = 0 ∨ fAspace w = 3 ∨ fAscope w = 3 := by
  simp [badScope, atomic, isMem_of_isAtomic atomic, or_assoc]

/-- The next step of an instruction whose lanes pass their checks. -/
def Lanes.andThen : Lanes → Act → Act
  | .ok, a => a
  | .act a, _ => a

/-- The new value of a lane of an atomic, from the old one. -/
def atomNew (h : Here) (w : Word64) (f : Nat → Nat → Nat → Nat → Option Nat) (i old : Nat) : Option Nat :=
  f (8 * (atomBits w / 8)) old (h.t.vregs' (fVB w) i (atomBits w / 8 / 4)) (h.t.vregs' (fVC w) i (atomBits w / 8 / 4))

/-- The lanes of an atomic, one after another, once the streams of its gang have kept what they read (R99). -/
def atomRun (s : State) (h : Here) (w : Word64) (f : Nat → Nat → Option Nat) : State × List (Nat × Nat) :=
  atomicLanes (nearAtom w) h (fAspace w) (atomBits w / 8) f (laneAddrs h w 0)
    (keepShadow s h.l.ctx h.g.idx h.g.core (atomKeys s h (fAspace w) ((laneAddrs h w 0).map (·.2))))

/-- The group after an atomic: the old value in every lane. -/
def atomLoaded (h : Here) (w : Word64) (olds : List (Nat × Nat)) : Group :=
  olds.foldl (fun t p => t.setVs (fD w) p.1 (atomBits w / 8 / 4) p.2) h.t

/-- The group after an atomic: the old values, and with `atom.cas` the lanes that found another value (R132). -/
def atomGroup (op : Nat) (h : Here) (w : Word64) (f : Nat → Nat → Nat → Nat → Option Nat) (olds : List (Nat × Nat)) : Group :=
  if op = 0x7A then (atomLoaded h w olds).setP (fTop3 w) (mergeP (h.t.preg (fTop3 w))
    (maskOf fun i => olds.any fun p => p.1 == i && (atomNew h w f i p.2).isNone) (actMask h.t h.p w))
  else atomLoaded h w olds

/-- What an atomic comes to whose lanes have passed their checks. -/
def passedAtomic (raises : State → Here → Word64 → Raised) (op : Nat) (s : State) (h : Here) (w : Word64)
    (f : Nat → Nat → Nat → Nat → Option Nat) : Act :=
  match atomReady s h w (fAspace w) ((laneAddrs h w 0).map (·.2)) with
  | (u, false) => .wait u
  | (u, true) =>
    let v := keepShadow u h.l.ctx h.g.idx h.g.core (atomKeys u h (fAspace w) ((laneAddrs h w 0).map (·.2)))
    match (if h.l.trap then (raises v h w).trap else none) with
    | some (c, lm) => .fault v c lm 0 w
    | none =>
      let r := atomRun u h w (atomNew h w f)
      if heldLock v h.l.slice (fAspace w) (atomBits w / 8) (((laneAddrs h w 0).filter fun l =>
          r.2.any fun p => p.1 == l.1 && (atomNew h w f p.1 p.2).isSome).map (·.2)) then .any v
      else .step (atomAcquire r.1 h w) (atomGroup op h w f r.2)

/-- Neither an engine's debt nor a tile holds an atomic back. -/
theorem atomic_unqueued (clear : (fAorder w).testBit 1 = true → engineOwes s g h.g.core = false) {space n : Nat} {ls : List (Nat × Nat)}
    (tiles : TilesClear s g h space n ls) : ((fAorder w).testBit 1 && engineOwes s g h.g.core || tileQueued s g h.g.core space n (ls.map (·.2))) = false := by
  have free : tileQueued s g h.g.core space n (ls.map (·.2)) = false := tiles
  cases order : (fAorder w).testBit 1 with
  | false => simp [free]
  | true => simp [free, clear order]

section Atomic

variable {op : Nat} {raises : State → Here → Word64 → Raised} {f : Nat → Nat → Nat → Nat → Option Nat} (run : Runs s g w h) (is : fOpcode w = op)

include run is

theorem atomicTrap_of_no_lane (none_ : acting h w = []) : atomicTrap raises op g w s f = .next (retire s g h h.t) := by
  rw [atomicTrap, runInstr_of_runs run (List.mem_singleton.2 is)]
  simp only [show lanesOf (actMask h.t h.p w) = [] from none_, List.map_nil, List.isEmpty_nil, if_true]
  rfl

/-- What an atomic comes to that has lanes to act in: its faults and waits in their order, or its checks. -/
theorem atomicTrap_of_lanes (some_ : acting h w ≠ []) :
    atomicTrap raises op g w s f = finish g h (
      if badScope w then .fault s 0x49 (actMask h.t h.p w) 0 w
      else if op = 0x71 ∧ (s.getObj (Obj.detMask h.l.slice)).testBit 0 then .fault s 0x45 (actMask h.t h.p w) 0 w
      else if (fAorder w).testBit 1 && engineOwes s g h.g.core ||
        tileQueued s g h.g.core (fAspace w) (atomBits w / 8) ((laneAddrs h w 0).map (·.2)) then .wait s
      else (checkLanes s (laneAddrs h w 0) fun s a => atomCheck s h (fAspace w) a (atomBits w / 8)).andThen (passedAtomic raises op s h w f)) := by
  have folded : (lanesOf (actMask h.t h.p w)).map (fun i => (i, laneAddr h.t w 0 i)) = laneAddrs h w 0 := rfl
  have lanes : (laneAddrs h w 0).isEmpty = false :=
    List.isEmpty_eq_false_iff.2 fun none_ => some_ (List.map_eq_nil_iff.1 none_)
  rw [atomicTrap, runInstr_of_runs run (List.mem_singleton.2 is)]
  simp only [folded, lanes, Bool.false_eq_true, if_false]
  congr 4
  cases checkLanes s (laneAddrs h w 0) fun s a => atomCheck s h (fAspace w) a (atomBits w / 8) with
  | act a => rfl
  | ok =>
    simp only [Lanes.andThen, passedAtomic]
    rcases atomReady s h w (fAspace w) ((laneAddrs h w 0).map (·.2)) with ⟨u, _ | _⟩
    · rfl
    · rfl

/-- The faults of an atomic that has lanes to act in (R133). -/
theorem atomicTrap_faults (atomic : isAtomic op = true) (some_ : acting h w ≠ []) :
    ((fAspace w = 0 ∨ fAspace w = 3 ∨ fAscope w = 3) →
      atomicTrap raises op g w s f = .next (faulted s h (groupFault h 0x49 (actMask h.t h.p w) 0 w))) ∧
    (¬ (fAspace w = 0 ∨ fAspace w = 3 ∨ fAscope w = 3) → (fOpcode w = 0x71 ∧ (s.getObj (Obj.detMask h.l.slice)).testBit 0 = true) →
      atomicTrap raises op g w s f = .next (faulted s h (groupFault h 0x45 (actMask h.t h.p w) 0 w))) ∧
    (¬ (fAspace w = 0 ∨ fAspace w = 3 ∨ fAscope w = 3) → ¬ (fOpcode w = 0x71 ∧ (s.getObj (Obj.detMask h.l.slice)).testBit 0 = true) →
      ((fAorder w).testBit 1 = true → engineOwes s g h.g.core = false) → TilesClear s g h (fAspace w) (atomBits w / 8) (laneAddrs h w 0) →
      (∀ x ∈ laneAddrs h w 0, x.2 % (atomBits w / 8) = 0 → atomCheck s h (fAspace w) x.2 (atomBits w / 8) = .ok ()) →
      ∀ low, (laneAddrs h w 0).find? (fun x => decide (x.2 % (atomBits w / 8) ≠ 0)) = some low →
        atomicTrap raises op g w s f = .next (faulted s h (groupFault h 0x47
          (maskOf fun j => (laneAddrs h w 0).any fun x => x.1 == j && decide (x.2 % (atomBits w / 8) ≠ 0))
          (BitVec.ofNat 64 low.2) (BitVec.ofNat 64 (atomBits w / 8))))) := by
  have away := badScope_of_isAtomic (w := w) (is ▸ atomic)
  rw [atomicTrap_of_lanes run is some_, ← away, is]
  refine ⟨fun bad => ?_, fun good fixed => ?_, fun good free clear tiles aligned low first => ?_⟩
  · rw [if_pos bad]
    rfl
  · rw [if_neg good, if_pos fixed]
    rfl
  · have misaligned (x : Nat × Nat) (odd : decide (x.2 % (atomBits w / 8) ≠ 0) = true) :
        atomCheck s h (fAspace w) x.2 (atomBits w / 8) = .error (.cause 0x47 (BitVec.ofNat 64 (atomBits w / 8))) := by
      simp only [atomCheck, laneCheck, if_pos (of_decide_eq_true odd)]
    have queued := atomic_unqueued clear tiles
    have fault := checkLanes_of_faults (s := s) (f := fun s a => atomCheck s h (fAspace w) a (atomBits w / 8))
      (fun x mem even => aligned x mem (by simpa using even)) (fun x _ odd => misaligned x odd) first
    rw [if_neg good, if_neg free, queued, fault]
    rfl

end Atomic

/-- Settles O21: the eleven atomics share their checks, and a misaligned lane's is the first of its own. -/
theorem atomicsThatFault : Obligations.AtomicsThatFault := by
  unfold Obligations.AtomicsThatFault
  intro s g w h run some_ rows m n ls away fixed p row is
  obtain ⟨atomic, raises, f, means⟩ := atomics_form g w s p row
  rw [means]
  exact atomicTrap_faults run is atomic some_

end Sys2Proof.Machine
end

section
/-! SUPPORT. Proofs of one lane's atomic step at device scope (R132, R171), on as many bytes as a sector holds. -/

namespace Sys2Proof.Machine

section Access

variable {s : State} {h : Here} {a n : Nat} {k : SectKey} (found : locate s h.l.slice 2 a 1 = .ok k) (alive : deadOf s k = none)
  (none_ : storesOf s h.g.core = []) (within : a % 64 + n ≤ 64)

/-- The bytes of an access within a sector, as they stand in device memory. -/
def wordAt (s : State) (k : SectKey) (a n : Nat) : Nat := leNat (cellsGet s.mem.bytes (sectBase k + a % 64) n)

include found alive none_ within

/-- The access reads the word at its home and writes there what `f` makes of it, if anything. -/
theorem atomicAt_of_within (f : Nat → Option Nat) :
    atomicAt s h 2 a n f = (match f (wordAt s k a n) with
      | none => homeRead s h k
      | some x => writePieceAt (lineDie (homeRead s h k) k.line) .sectors (homeRead s h k) (some h.g.core) h.l.slice 2 a k (toLe n x),
      wordAt s k a n) := by
  obtain ⟨pa, rfl⟩ := locate_dev found
  obtain ⟨same, bytes⟩ := homeRead_dev s h (pa / 512) (pa / 64 % 8)
  have sect : homeSect (dropL1 s h.g.core (devSect pa).line) h.l.slice (devSect pa) = (homeRead s h (devSect pa), latest (homeRead s h (devSect pa)) (devSect pa)) :=
    readSect_of_alive ((deadOf_of_launchesDead same _).trans alive)
  have word : leNat (sectGet (latest (homeRead s h (devSect pa)) (devSect pa)) (a % 64) n) = wordAt s (devSect pa) a n := by
    rw [sectGet_latest _ _ within]
    exact congrArg (fun m => leNat (cellsGet m _ n)) bytes
  simp only [atomicAt, found, landFor_of_none none_, sect, word]
  cases f (wordAt s (devSect pa) a n) <;> rfl

/-- Where the access writes, the bytes of memory are as before but for its own. -/
theorem atomicAt_bytes_of_some {f : Nat → Option Nat} {x : Nat} (new : f (wordAt s k a n) = some x) :
    (atomicAt s h 2 a n f).1.mem.bytes = cellsPut s.mem.bytes (sectBase k + a % 64) (toLe n x) := by
  obtain ⟨pa, rfl⟩ := locate_dev found
  obtain ⟨same, bytes⟩ := homeRead_dev s h (pa / 512) (pa / 64 % 8)
  rw [atomicAt_of_within found alive none_ within, new]
  simp only [writePieceAt, OfNat.ofNat_ne_one, if_false]
  have noted := noteCode_logWrite_mem (homeRead s h (devSect pa)) h.l.slice a (toLe n x).length
  have live : deadOf (noteCode (logWrite (homeRead s h (devSect pa)) h.l.slice a) h.l.slice a (toLe n x).length) (devSect pa) = none := by
    rw [← alive, ← deadOf_of_launchesDead same]
    simp only [deadOf, noted]
    rfl
  exact (writeSectAt_bytes live _ _ _ _ _ _).trans (congrArg (fun m => cellsPut m _ _) ((congrArg Mem.bytes noted).trans bytes))

theorem atomicAt_bytes_of_none {f : Nat → Option Nat} (new : f (wordAt s k a n) = none) : (atomicAt s h 2 a n f).1.mem.bytes = s.mem.bytes := by
  obtain ⟨pa, rfl⟩ := locate_dev found
  rw [atomicAt_of_within found alive none_ within, new]
  exact (homeRead_dev s h _ _).2

end Access

/-- Settles O19: the access is one read and one write of the bytes at its home. -/
theorem atomicReadsThenWrites : Obligations.AtomicReadsThenWrites := by
  unfold Obligations.AtomicReadsThenWrites
  intro s h a n f k found alive none_ pos within at_ r
  have old : r.2 = wordAt s k a n := congrArg Prod.snd (atomicAt_of_within found alive none_ within f)
  refine ⟨old, fun x new => ?_, fun new => ?_, fun b outside => ?_⟩
  · have read := cellsGet_cellsPut s.mem.bytes at_ (toLe n x)
    rw [toLe_length] at read
    exact (congrArg (fun m => cellsGet m _ n) (atomicAt_bytes_of_some found alive none_ within (old ▸ new))).trans read
  · exact atomicAt_bytes_of_none found alive none_ within (old ▸ new)
  · cases new : f (wordAt s k a n) with
    | none => exact congrArg (cellGet · b) (atomicAt_bytes_of_none found alive none_ within new)
    | some x =>
      rw [← toLe_length n x] at outside
      exact (congrArg (cellGet · b) (atomicAt_bytes_of_some found alive none_ within new)).trans (cellGet_cellsPut_outside _ _ outside)

end Sys2Proof.Machine
end

section
/-! SUPPORT. What the caches' bookkeeping leaves: an access is counted, copies move between the caches and the directories, requests wait; the
bytes, the stores on their way, the slices and the launches' locks are as before. -/

namespace Sys2Proof.Machine

variable {s t : State}

/-- A launch without its clock of frozen channels, its noted code and its gangs. -/
def bareLaunch (l : Launch) : Launch := { l with frozenAt := none, waited := 0, codeStored := [], live := [] }

/-- The state without its caches, directories, requests, counters and free values, and without what they leave in launches. -/
def offCache (s : State) : State :=
  { s with
    od := [], free := 0, chips := [], out := [], bank := { s.bank with waiting := [] }, launches := s.launches.map bareLaunch,
    mem := { s.mem with l1 := [], invq := [], llm := [], dirs := [], ldirs := [], det := [], miss := [], missInput := [],
                        waitingReq := [], heldReqs := [] } }

@[simp] theorem offCache_addObj (s : State) (k n : Nat) : offCache (s.addObj k n) = offCache s := rfl
@[simp] theorem offCache_putDir (s : State) (e : DirEnt) : offCache (putDir s e) = offCache s := rfl
@[simp] theorem offCache_dropDir (s : State) (l : LineKey) : offCache (dropDir s l) = offCache s := rfl
@[simp] theorem offCache_setUnder (s : State) (d x : Nat) (u : List (Nat × Sector)) : offCache (setUnder s d x u) = offCache s := rfl

@[simp] theorem offCache_invalidateDie (s : State) (wr : Option Nat) (d : Nat) (l : LineKey) :
    offCache (invalidateDie s wr d l) = offCache s := by rw [invalidateDie_eq]; rfl

@[simp] theorem offCache_dirtyHome (s : State) (d x : Nat) : offCache (dirtyHome s d x) = offCache s := by rw [dirtyHome_eq]; rfl

@[simp] theorem offCache_invalidateL1 (s : State) (wr : Option Nat) (l : LineKey) : offCache (invalidateL1 s wr l) = offCache s :=
  foldl_leaves offCache (fun s d => offCache_invalidateDie s wr d l) _ s

@[simp] theorem offCache_snoopChip (s : State) (p : Nat) (h : HeldLine) (w : Bool) : offCache (snoopChip s p h w) = offCache s := by
  simp only [snoopChip]
  split_ifs <;> rfl

@[simp] theorem offCache_dropCopy (s : State) (wr : Option Nat) (a : Nat) (l : LineKey) : offCache (dropCopy s wr a l) = offCache s := by
  simp only [dropCopy]
  split_ifs
  · rfl
  · rw [offCache_invalidateDie]
    cases l with
    | dev x => exact offCache_dirtyHome s a x
    | shr m x => rfl

theorem offCache_of_llmRoom {n d x : Nat} (room : llmRoom s n d x = some t) : offCache t = offCache s := by
  simp only [llmRoom] at room
  split at room
  · cases room
  · split at room
    · cases room; rfl
    · split at room
      · cases room
      · split at room
        · cases room; rfl
        · split at room
          · split at room
            · cases room; exact offCache_dropCopy s none d _
            · cases room; rfl
          · cases room; rfl

@[simp] theorem offCache_llmTouch (s : State) (n d x : Nat) (is : List Nat) (w : Bool) (f : Fill) :
    offCache (llmTouch s n d x is w f) = offCache s := by
  simp only [llmTouch]
  have counted : offCache (if llmHit s d x is = true then s.addObj (Obj.llmHits n) 1 else s.addObj (Obj.llmMisses n) 1) = offCache s := by
    split_ifs <;> rfl
  generalize (if llmHit s d x is = true then s.addObj (Obj.llmHits n) 1 else s.addObj (Obj.llmMisses n) 1) = u at counted ⊢
  split
  · exact counted
  · split
    · exact counted
    · split
      · exact counted
      · next room => exact (offCache_of_llmRoom room).trans counted

@[simp] theorem offCache_evictDir (s : State) (e : DirEnt) : offCache (evictDir s e) = offCache s := by
  have copies (s : State) : offCache ((agentsOf e).foldl (fun s a => dropCopy s none a e.line) s) = offCache s :=
    foldl_leaves offCache (fun s a => offCache_dropCopy s none a e.line) _ s
  have snoops (hs : List (Nat × HeldLine)) (s : State) : offCache (hs.foldl (fun s p => snoopChip s p.1 p.2 true) s) = offCache s :=
    foldl_leaves offCache (fun s p => offCache_snoopChip s p.1 p.2 true) hs s
  simp only [evictDir]
  split <;> split_ifs <;> simp [copies, snoops]

theorem offCache_of_dirRoom {n : Nat} {l : LineKey} {r : Except State State} (room : dirRoom s n l = r) : offCache (roomState r) = offCache s := by
  subst room
  simp only [dirRoom]
  split_ifs
  · rfl
  · split
    · rfl
    · split_ifs <;> exact offCache_evictDir s _

@[simp] theorem offCache_dirHomeRead (s : State) (l : LineKey) : offCache (dirHomeRead s l) = offCache s := by
  simp only [dirHomeRead]
  split
  · split
    · cases l <;> simp
    · rfl
  · rfl

@[simp] theorem offCache_dirRead (s : State) (n d : Nat) (l : LineKey) : offCache (dirRead s n d l) = offCache s := by
  simp only [dirRead]
  split
  · split <;> exact offCache_of_dirRoom ‹_›
  · split
    · rfl
    · split <;> exact offCache_dirHomeRead s l

@[simp] theorem offCache_dropOthers (s : State) (wr : Option Nat) (d : Nat) (l : LineKey) : offCache (dropOthers s wr d l) = offCache s := by
  have copies (as : List Nat) (s : State) : offCache (as.foldl (fun s a => dropCopy s wr a l) s) = offCache s :=
    foldl_leaves offCache (fun s a => offCache_dropCopy s wr a l) as s
  simp only [dropOthers, offCache_invalidateL1]
  split
  · rfl
  · rw [copies]
    split_ifs <;> rfl

@[simp] theorem offCache_dirWrite (s : State) (wr : Option Nat) (n d : Nat) (l : LineKey) (own : Bool) :
    offCache (dirWrite s wr n d l own) = offCache s := by
  have others := offCache_dropOthers s wr d l
  simp only [dirWrite]
  split
  · split
    · split <;> exact (offCache_of_dirRoom ‹_›).trans others
    · exact others
  · split_ifs <;> simp

@[simp] theorem offCache_readVia (s : State) (n d : Nat) (l : LineKey) (is : List Nat) (f : Fill) :
    offCache (readVia s n d l is f) = offCache s := by
  cases l with
  | dev x => simp only [readVia]; split_ifs <;> simp
  | shr m x => simp only [readVia]; split_ifs <;> simp

@[simp] theorem offCache_ownWrite (s : State) (wr : Option Nat) (n d x i : Nat) (f : Fill) : offCache (ownWrite s wr n d x i f) = offCache s := by
  simp only [ownWrite]
  split
  · simp
  · split <;> simp

@[simp] theorem offCache_writeVia (s : State) (wr : Option Nat) (n d : Nat) (l : LineKey) (i : Nat) (f : Fill) :
    offCache (writeVia s wr n d l i f) = offCache s := by
  cases l with
  | dev x => simp only [writeVia]; split_ifs <;> simp
  | shr m x => simp [writeVia]

@[simp] theorem offCache_freshL1 (s : State) (wr : Option Nat) (k : SectKey) : offCache (freshL1 s wr k) = offCache s := by cases wr <;> rfl

@[simp] theorem offCache_updateL1 (s : State) (wr : Option Nat) (k : SectKey) (off : Nat) (bs : List Byte) :
    offCache (updateL1 s wr k off bs) = offCache s := by cases wr <;> rfl

/-! ### Launches -/

/-- A launch whose gangs, noted code and clock alone change. -/
theorem offCache_launches {f : List Launch → List Launch} (bare : (f s.launches).map bareLaunch = s.launches.map bareLaunch) :
    offCache { s with launches := f s.launches } = offCache s := by
  simp only [offCache, bare]

theorem map_bare_mapIf {p : Launch → Bool} {f : Launch → Launch} (bare : ∀ l, bareLaunch (f l) = bareLaunch l) (ls : List Launch) :
    (mapIf p f ls).map bareLaunch = ls.map bareLaunch := by
  simp only [mapIf, List.map_map]
  refine List.map_congr_left fun l _ => ?_
  simp only [Function.comp_apply]
  split_ifs
  · exact bare l
  · rfl

@[simp] theorem offCache_settleFrozen (s : State) : offCache (settleFrozen s) = offCache s := by
  refine offCache_launches (f := fun _ => _) ?_
  rw [List.map_map]
  refine List.map_congr_left fun l _ => ?_
  simp only [Function.comp_apply]
  split
  · split_ifs <;> rfl
  · rfl

@[simp] theorem offCache_servedAt (s : State) (a : Asker) (k : SectKey) : offCache (servedAt s a k) = offCache s := by
  simp only [servedAt]
  split_ifs
  · rfl
  · exact offCache_settleFrozen _

@[simp] theorem offCache_waitFrozen (s : State) (k : SectKey) (a : Asker) : offCache (waitFrozen s k a) = offCache s := by
  simp only [waitFrozen]
  split
  · exact offCache_launches (s := waitPlace s k a) (map_bare_mapIf (by intro; rfl) _)
  · rfl

@[simp] theorem offCache_noteCode (s : State) (m addr n : Nat) : offCache (noteCode s m addr n) = offCache s := by
  simp only [noteCode]
  split
  · rfl
  · exact offCache_launches (map_bare_mapIf (by intro; rfl) _)

/-- A change of a gang of a launch. -/
@[simp] theorem offCache_updGang (s : State) (c n : Nat) (f : Gang → Gang) : offCache (updGang s c n f) = offCache s :=
  offCache_launches (map_bare_mapIf (by intro; rfl) _)

@[simp] theorem offCache_keepShadow (s : State) (c n core : Nat) (ks : List SectKey) : offCache (keepShadow s c n core ks) = offCache s :=
  offCache_updGang s c n _

/-- The launches' slices with the lock words that they hold. -/
def lockTables (s : State) : List (Nat × List LockEnt) := s.launches.map fun l => (l.slice, l.locks)

theorem lockTables_of_offCache (same : offCache t = offCache s) : lockTables t = lockTables s := by
  have bare (s : State) : lockTables (offCache s) = lockTables s := by
    simp only [lockTables, offCache, List.map_map]
    rfl
  rw [← bare t, same, bare s]

/-- A held lock among some addresses, by the launches' lock tables (R107). -/
theorem heldLock_eq (s : State) (m space n : Nat) (as : List Nat) :
    heldLock s m space n as = (lockTables s).any fun l => l.1 == m && l.2.any fun k =>
      k.space == space && as.any fun a => decide (a < k.addr.toNat + 8 ∧ k.addr.toNat < a + n) := by
  simp only [heldLock, lockTables, List.any_filter, List.any_map, Function.comp_def]

/-- No lock word is held among fewer addresses, with the same lock tables. -/
theorem heldLock_of_subset {m space n : Nat} {as bs : List Nat} (same : lockTables t = lockTables s) (fewer : bs ⊆ as)
    (free : heldLock s m space n as = false) : heldLock t m space n bs = false := by
  rw [heldLock_eq] at free ⊢
  rw [same]
  refine Bool.eq_false_iff.2 fun held => Bool.eq_false_iff.1 free ?_
  simp only [List.any_eq_true, Bool.and_eq_true] at held ⊢
  obtain ⟨l, mem, slice, k, locks, space_, a, addr, at_⟩ := held
  exact ⟨l, mem, slice, k, locks, space_, a, fewer addr, at_⟩

/-! ### Requests that wait -/

theorem offCache_of_missWait {k : SectKey} {w : Bool} {a : Asker} (waits : missWait s k w a = some t) : offCache t = offCache s := by
  simp only [missWait] at waits
  split at waits
  · cases waits; rfl
  · cases waits; rfl
  · cases waits; rfl
  · split at waits
    · cases waits
      simp only [waitInput]
      split <;> rfl
    · cases waits; rfl
  · cases waits

theorem offCache_of_dirWait {k : SectKey} {w : Bool} {a : Asker} (waits : dirWait s k w a = some t) : offCache t = offCache s := by
  simp only [dirWait] at waits
  split at waits
  · cases waits
  · split at waits
    · cases waits
    · split at waits
      · split at waits
        · cases waits
        · next room => cases waits; exact offCache_of_dirRoom room
      · split at waits
        · cases waits
        · split at waits
          · split at waits
            · cases waits; exact (offCache_snoopChip _ _ _ _).trans (offCache_putDir _ _)
            · cases waits
          · cases waits

theorem offCache_of_reach {k : SectKey} {w : Bool} {a : Asker} (waits : reach s k w a = .error (.wait t)) : offCache t = offCache s := by
  simp only [reach] at waits
  split at waits
  · cases waits
  split at waits
  · cases waits; rfl
  split at waits
  · cases waits; exact foldl_leaves offCache (fun s p => offCache_snoopChip s _ _ _) _ s
  split at waits
  · cases waits; rfl
  split at waits
  · next dir => cases waits; exact offCache_of_dirWait dir
  split at waits
  · next miss => cases waits; exact offCache_of_missWait miss
  split at waits
  · cases waits; exact offCache_waitFrozen s k a
  split at waits
  · cases waits; rfl
  split at waits
  · cases waits; rfl
  · cases waits

theorem offCache_of_imageGate {n va : Nat} (waits : imageGate s n va = .error (.wait t)) : offCache t = offCache s := by
  simp only [imageGate] at waits
  split_ifs at waits
  cases waits
  rfl

end Sys2Proof.Machine
end

section
/-! SUPPORT. Proofs of the frame of stores to device memory (R126, R128, R164, R172): what the group's next place leaves, what one store of a core
changes where it lands, and how many of them do. -/

namespace Sys2Proof.Machine

variable {s t u : State}

/-! ### What an instruction leaves as it retires -/

/-- The bytes of memory with the discarded sectors, the slices, the lock sets, the network and the channels. -/
def stock (s : State) : List Host.Cell × List DeadSector × List Slice × List LockSet × Net × List Chan :=
  (s.mem.bytes, s.mem.dead, s.slices, s.locks, s.net, s.chans)

theorem stock_of_offCache (same : offCache t = offCache s) : stock t = stock s :=
  show stock (offCache t) = stock (offCache s) from congrArg stock same

theorem stock_startGang (s : State) (l : Launch) (c : Nat) : stock (startGang s l c) = stock s := rfl

theorem stock_placeGangs (c n : Nat) (s : State) : stock (placeGangs c n s) = stock s := by
  induction n generalizing s with
  | zero => rfl
  | succ n ih =>
    simp only [placeGangs]
    split
    · rfl
    split_ifs
    · rfl
    · rw [ih, stock_startGang]
    · rfl
    · rfl
    · rw [ih, stock_startGang]
      rfl

theorem stock_placeAll (s : State) (c : Nat) : stock (placeAll s c) = stock s := by
  simp only [placeAll]
  split
  · rfl
  · exact stock_placeGangs _ _ _

theorem stock_reapGangs (s : State) (c : Nat) : stock (reapGangs s c) = stock s := by
  simp only [reapGangs, placeSlice]
  split
  · rfl
  · exact (foldl_leaves stock stock_placeAll _ _).trans (stock_placeAll _ _)

theorem stock_putBack (s : State) (g : GroupRef) (h : Here) (t : Group) : stock (putBack s g h t) = stock s := by
  simp only [putBack]
  split_ifs
  · exact stock_reapGangs _ _
  · rfl

theorem stock_issued (s : State) (h : Here) : stock (issued s h) = stock s := by
  obtain ⟨_, _, _, same⟩ := served_eq (passTurn s h) (askOf h)
  simp only [issued, same]
  rfl

theorem stock_retire (s : State) (g : GroupRef) (h : Here) (t : Group) : stock (retire s g h t) = stock s :=
  (stock_putBack _ g h _).trans (stock_issued s h)

theorem bytes_of_stock (same : stock t = stock s) : t.mem.bytes = s.mem.bytes := congrArg Prod.fst same

theorem scratch_of_stock (same : stock t = stock s) (n : Nat) : (t.slice n).scratch = (s.slice n).scratch := by
  simp only [State.slice, show t.slices = s.slices from congrArg (·.2.2.1) same]

/-! ### Stores that land -/

/-- What stores among `es` may change as they are performed. -/
structure Stored (es : List StoreEnt) (s t : State) : Prop where
  bytes : ∀ a, Outside a (storeRanges es) → SameByte s t a
  dead : ∀ d ∈ t.mem.dead, d ∈ s.mem.dead
  scratch : (∀ e ∈ es, ∃ l, e.line = .dev l) → ∀ n, (t.slice n).scratch = (s.slice n).scratch
  stores : ∀ e ∈ t.stores, e ∈ s.stores
  rest : (t.locks, t.net, t.chans) = (s.locks, s.net, s.chans)
  held : lockTables t = lockTables s

namespace Stored

variable {es : List StoreEnt}

theorem of_stock (same : stock t = stock s) (held : lockTables t = lockTables s) (stores : ∀ e ∈ t.stores, e ∈ s.stores) : Stored es s t where
  bytes a _ := .inl (congrArg (cellGet · a) (bytes_of_stock same))
  dead _ mem := (show t.mem.dead = s.mem.dead from congrArg (·.2.1) same) ▸ mem
  scratch _ := scratch_of_stock same
  stores := stores
  rest := congrArg (·.2.2.2) same
  held := held

theorem of_offCache (same : offCache t = offCache s) : Stored es s t :=
  of_stock (stock_of_offCache same) (lockTables_of_offCache same) fun _ mem =>
    (show (offCache t).stores = (offCache s).stores from congrArg State.stores same) ▸ mem

theorem refl : Stored es s s := of_offCache rfl

theorem trans (first : Stored es s t) (second : Stored es t u) : Stored es s u where
  bytes a out := by
    rcases second.bytes a out with same | ⟨d, mem, at_, under⟩
    · rcases first.bytes a out with before | ⟨d, mem, at_, under⟩
      · exact .inl (same.trans before)
      · exact .inr ⟨d, mem, at_, same.trans under⟩
    · exact .inr ⟨d, first.dead d mem, at_, under⟩
  dead d mem := first.dead d (second.dead d mem)
  scratch dev n := (second.scratch dev n).trans (first.scratch dev n)
  stores e mem := first.stores e (second.stores e mem)
  rest := second.rest.trans first.rest
  held := second.held.trans first.held

end Stored

/-! ### Slices -/

theorem find?_upsert_ne {α : Type} (key : α → Nat) (x : α) {n : Nat} (other : key x ≠ n) (l : List α) :
    (upsert key x l).find? (fun y => key y == n) = l.find? (fun y => key y == n) := by
  induction l with
  | nil => simp [upsert, other]
  | cons y l ih =>
    simp only [upsert]
    split_ifs with same
    · simp [other, show key y ≠ n from same ▸ other]
    · simp only [List.find?_cons, ih]

theorem slice_no (s : State) (n : Nat) : (s.slice n).no = n := by
  simp only [State.slice]
  cases found : s.slices.find? fun x => x.no == n with
  | none => rfl
  | some x => simpa using List.find?_some found

theorem slice_setSlice (s : State) (x : Slice) : (s.setSlice x).slice x.no = x := by
  simp only [State.slice, State.setSlice, find?_upsert, Option.getD_some]

theorem slice_setSlice_ne (s : State) {x : Slice} {n : Nat} (other : x.no ≠ n) : (s.setSlice x).slice n = s.slice n := by
  simp only [State.slice, State.setSlice, find?_upsert_ne Slice.no x other]

/-- A slice's record written with its shared scratch as it stood. -/
theorem scratch_setSlice (s : State) {x : Slice} (same : x.scratch = (s.slice x.no).scratch) (n : Nat) :
    ((s.setSlice x).slice n).scratch = (s.slice n).scratch := by
  by_cases own : x.no = n
  · rw [← own, slice_setSlice, same]
  · rw [slice_setSlice_ne s own]

theorem scratch_logWrite (s : State) (m a n : Nat) : ((logWrite s m a).slice n).scratch = (s.slice n).scratch := by
  simp only [logWrite]
  have own : (s.slice m).scratch = (s.slice (s.slice m).no).scratch := congrArg (fun n => (s.slice n).scratch) (slice_no s m).symm
  split_ifs
  · exact scratch_setSlice s (x := { s.slice m with dirty := addNew (a / 65536) (s.slice m).dirty, migDirty := addNew (a / 65536) (s.slice m).migDirty }) own n
  · exact scratch_setSlice s (x := { s.slice m with dirty := addNew (a / 65536) (s.slice m).dirty }) own n

/-! ### A partly written sector that had been discarded -/

theorem getD_toLe {n i : Nat} (v : Nat) (within : i < n) : (toLe n v).getD i 0 = BitVec.ofNat 8 (v / 2 ^ (8 * i)) := by
  induction n generalizing i v with
  | zero => omega
  | succ n ih =>
    cases i with
    | zero => simp [toLe]
    | succ i =>
      rw [toLe, List.getD_cons_succ, ih _ (by omega), Nat.div_div_eq_div_mul, show 256 * 2 ^ (8 * i) = 2 ^ (8 * (i + 1)) by
        rw [Nat.mul_succ, Nat.pow_add, Nat.mul_comm]]

/-- The bytes of a sector as it stands, written back, are as they stood. -/
theorem getD_latest {s : State} {l i : Nat} {j : Nat} (within : j < 64) :
    (toLe 64 (latest s ⟨.dev l, i⟩).toNat).getD j 0 = cellGet s.mem.bytes (l * 512 + i * 64 + j) := by
  have len := cellsGet_length s.mem.bytes (l * 512 + i * 64) 64
  have same : toLe 64 (latest s ⟨.dev l, i⟩).toNat = cellsGet s.mem.bytes (l * 512 + i * 64) 64 := by
    simp only [latest, memOf, sectBase]
    rw [toNat_ofNat_leNat (by rw [len]), toLe_leNat (by rw [len]), List.take_of_length_le (by rw [len])]
  rw [same, List.getD_eq_getElem _ _ (by rw [len]; exact within), getElem_cellsGet]

namespace Stored

variable {es : List StoreEnt}

/-- A part of a discarded sector lands over one of the sector's two values (R174). -/
theorem mergeDead (s : State) (wr : Option Nat) (k : SectKey) (len : Nat) : Stored es s (mergeDead s wr k len) := by
  obtain ⟨line, i⟩ := k
  cases line with
  | shr m x => exact refl
  | dev x =>
    rw [Machine.mergeDead]
    cases found : deadOf s ⟨.dev x, i⟩ with
    | none => exact refl
    | some d =>
      split_ifs
      · exact refl
      simp only [readSect, found]
      have sector : d.sector = x * 8 + i := by simpa using List.find?_some found
      have listed : d ∈ s.mem.dead := List.mem_of_find?_eq_some found
      have byte (a : Nat) : let v := if s.freeVal % 2 = 0 then latest s ⟨.dev x, i⟩ else d.under
          let b := cellGet (cellsPut s.mem.bytes (x * 512 + i * 64) (toLe 64 v.toNat)) a
          b = cellGet s.mem.bytes a ∨ ∃ d ∈ s.mem.dead, d.sector = a / 64 ∧ b = BitVec.ofNat 8 (d.under.toNat / 2 ^ (8 * (a % 64))) := by
        intro v b
        by_cases out : a < x * 512 + i * 64 ∨ x * 512 + i * 64 + 64 ≤ a
        · exact .inl (cellGet_cellsPut_outside _ _ (by rwa [toLe_length]))
        · obtain ⟨j, rfl⟩ : ∃ j, a = x * 512 + i * 64 + j := ⟨a - (x * 512 + i * 64), by omega⟩
          have inside : j < 64 := by omega
          have written : b = (toLe 64 v.toNat).getD j 0 := cellGet_cellsPut_inside _ _ (by rwa [toLe_length])
          by_cases latest_ : s.freeVal % 2 = 0
          · left
            rw [written, show v = latest s ⟨.dev x, i⟩ from if_pos latest_, getD_latest inside]
          · right
            refine ⟨d, listed, by omega, ?_⟩
            rw [written, show v = d.under from if_neg latest_, getD_toLe _ inside, show (x * 512 + i * 64 + j) % 64 = j by omega]
      cases wr with
      | none => exact ⟨fun a _ => byte a, fun _ mem => mem, fun _ _ => rfl, fun _ mem => mem, rfl, rfl⟩
      | some c => exact ⟨fun a _ => byte a, fun _ mem => mem, fun _ _ => rfl, fun _ mem => mem, rfl, rfl⟩

/-- A part of a store among `es` lands at its own bytes. -/
theorem putSect (s : State) {e : StoreEnt} {p : Nat × List Byte} (mem : e ∈ es) (part : p ∈ e.parts) {off : Nat} (at_ : off = p.1 % 64) :
    Stored es s (putSect s ⟨e.line, e.i⟩ off p.2) := by
  cases line : e.line with
  | dev x =>
    have range : (x * 512 + e.i * 64 + off, p.2.length) ∈ storeRanges es := by
      refine List.mem_flatMap.2 ⟨e, mem, ?_⟩
      rw [line]
      exact List.mem_map.2 ⟨p, part, by rw [at_]; rfl⟩
    exact {
      bytes := fun a out => .inl (cellGet_cellsPut_outside _ _ (out _ range))
      dead := fun d mem => (List.mem_filter.1 mem).1
      scratch := fun _ _ => rfl
      stores := fun _ mem => mem
      rest := rfl
      held := rfl }
  | shr m x =>
    exact {
      bytes := fun _ _ => .inl rfl
      dead := fun _ mem => mem
      scratch := fun dev => by
        obtain ⟨x, dev⟩ := dev e mem
        rw [line] at dev
        cases dev
      stores := fun _ mem => mem
      rest := rfl
      held := rfl }

/-- The dirty-page log is the slice's own (R361). -/
theorem logWrite (s : State) (m a : Nat) : Stored es s (logWrite s m a) where
  bytes _ _ := .inl rfl
  dead _ mem := mem
  scratch _ := scratch_logWrite s m a
  stores _ mem := mem
  rest := rfl
  held := rfl

/-- One part of a store among `es`, written in its sector. -/
theorem writeSectAt (s : State) {e : StoreEnt} {p : Nat × List Byte} (mem : e ∈ es) (part : p ∈ e.parts) (die : Nat) (f : Fill) (wr : Option Nat) (n : Nat)
    {off : Nat} (at_ : off = p.1 % 64) : Stored es s (writeSectAt die f s wr n ⟨e.line, e.i⟩ off p.2) := by
  have reached (s : State) (k : SectKey) : Stored es s (writeVia (freshL1 s wr k) wr n die k.line k.i f) :=
    of_offCache ((offCache_writeVia _ _ _ _ _ _ _).trans (offCache_freshL1 _ _ _))
  have put (s : State) := putSect s mem part at_
  have clean (s : State) : Stored es s (if p.2.length = 64 then
      { s with mem := { s.mem with poison := s.mem.poison.filter fun x => x != sectNum ⟨e.line, e.i⟩ } } else s) := by
    split_ifs
    · exact of_stock rfl rfl fun _ mem => mem
    · exact refl
  exact ((mergeDead s wr _ _).trans (reached _ _)).trans ((put _).trans ((clean _).trans (of_offCache (offCache_updateL1 _ _ _ _ _))))

/-- One part of a store among `es`, performed at its home with the dirty-page log. -/
theorem writePiece (s : State) {e : StoreEnt} {p : Nat × List Byte} (mem : e ∈ es) (part : p ∈ e.parts) (wr : Option Nat) :
    Stored es s (writePiece s wr e.slice e.space (e.va / 64 * 64 + p.1) ⟨e.line, e.i⟩ p.2) := by
  have logged : Stored es s (if e.space = 1 then s else noteCode (Machine.logWrite s e.slice (e.va / 64 * 64 + p.1)) e.slice (e.va / 64 * 64 + p.1) p.2.length) := by
    split_ifs
    · exact refl
    · exact (logWrite s _ _).trans (of_offCache (offCache_noteCode _ _ _ _))
  exact logged.trans (writeSectAt _ mem part _ _ _ _ (by omega))

theorem writePieces (s : State) {e : StoreEnt} (mem : e ∈ es) (wr : Option Nat) {ps : List (Nat × List Byte)} (parts : ∀ p ∈ ps, p ∈ e.parts) :
    Stored es s (ps.foldl (fun s p => Machine.writePiece s wr e.slice e.space (e.va / 64 * 64 + p.1) ⟨e.line, e.i⟩ p.2) s) := by
  induction ps generalizing s with
  | nil => exact refl
  | cons p ps ih =>
    exact (writePiece s mem (parts p List.mem_cons_self) wr).trans (ih _ fun q later => parts q (List.mem_cons_of_mem _ later))

end Stored

/-- Every store of the core is one of `es`. -/
def Among (es : List StoreEnt) (core : Nat) (s : State) : Prop := ∀ e ∈ storesOf s core, e ∈ es

namespace Stored

variable {es : List StoreEnt} {core : Nat}

theorem among (among : Among es core s) (stored : Stored es s t) : Among es core t := fun e mem =>
  among e (List.mem_filter.2 ⟨stored.stores e (List.mem_filter.1 mem).1, (List.mem_filter.1 mem).2⟩)

/-- One store of the core, performed or not. -/
theorem landOne (among : Among es core s) (i : Nat) : Stored es s (landOne s core i).1 := by
  simp only [Machine.landOne]
  cases found : (storesOf s core)[i]? with
  | none => exact refl
  | some e =>
    have mem : e ∈ es := among e (List.mem_of_getElem? found)
    have erased : Stored es s { s with stores := s.stores.erase e } := of_stock rfl rfl fun _ mem => List.mem_of_mem_erase mem
    simp only
    split
    · exact refl
    split
    · exact erased
    split
    · next waits => exact of_offCache (offCache_of_reach waits)
    · exact refl
    split
    · next waits =>
      split_ifs at waits
      exact of_offCache (offCache_of_imageGate waits)
    · exact refl
    · exact erased.trans ((writePieces _ mem (some core) fun p part => part).trans (of_offCache (offCache_servedAt _ _ _)))

/-- The stores of the core in their order, up to the first that waits. -/
theorem landFirst (n : Nat) (among : Among es core s) : Stored es s (landFirst core n s).1 := by
  induction n generalizing s with
  | zero => exact refl
  | succ n ih =>
    have one := landOne among 0
    rw [Machine.landFirst]
    generalize Machine.landOne s core 0 = r at one ⊢
    obtain ⟨u, _ | _⟩ := r
    · exact one
    · exact one.trans (ih (one.among among))

theorem landFor (among : Among es core s) (l : LineKey) : Stored es s (landFor s core l).1 := by
  simp only [Machine.landFor]
  split
  · exact refl
  · exact landFirst _ among

theorem landAll (among : Among es core s) : Stored es s (landAll s core).1 := landFirst _ among

theorem useFree (s : State) (n : Nat) : Stored es s (s.useFree n) := of_offCache rfl

theorem landPick (n : Nat) (among : Among es core s) : Stored es s (landPick core n s) := by
  induction n generalizing s with
  | zero => exact refl
  | succ n ih =>
    simp only [Machine.landPick]
    split_ifs
    · exact refl
    · have landed := (useFree s 1).trans (landOne ((useFree s 1).among among) (s.freeVal % (storesOf s core).length))
      exact landed.trans (ih (landed.among among))

theorem landSome (among : Among es core s) : Stored es s (landSome s core) := by
  simp only [Machine.landSome]
  split_ifs
  · exact refl
  · exact (useFree s 1).trans (landPick _ ((useFree s 1).among among))

end Stored


/-! ### The stores of an instruction -/

theorem addPart_forall {P : StoreEnt → Prop} (parts : ∀ e ps, P e → P { e with parts := ps }) {e : StoreEnt} (new : P e) (off : Nat) (bs : List Byte)
    {xs : List StoreEnt} (old : ∀ x ∈ xs, P x) : ∀ x ∈ addPart e off bs xs, P x := by
  induction xs with
  | nil => simpa [addPart] using parts e _ new
  | cons y ys ih =>
    obtain ⟨first, rest⟩ := List.forall_mem_cons.1 old
    simp only [addPart]
    split_ifs
    · exact List.forall_mem_cons.2 ⟨parts y _ first, rest⟩
    · exact List.forall_mem_cons.2 ⟨first, ih rest⟩

/-- A store of device memory writes lines of device memory. -/
theorem storeEnts_dev (s : State) (h : Here) (rel : Bool) (data : List (Nat × List Byte)) : ∀ e ∈ storeEnts s h 2 rel data, ∃ l, e.line = .dev l := by
  refine List.foldlRecOn data _ (motive := fun es => ∀ e ∈ es, ∃ l, StoreEnt.line e = .dev l) (by simp) fun es old d _ => ?_
  split
  · next k found =>
    obtain ⟨pa, rfl⟩ := locate_dev found
    exact addPart_forall (P := fun e => ∃ l, e.line = .dev l) (fun _ _ same => same) ⟨_, rfl⟩ _ _ old
  · exact old

/-- The state in which an instruction's stores have joined those of their core. -/
def joined (s : State) (h : Here) (es : List StoreEnt) : State :=
  es.foldl (fun s e => if e.space = 1 then s else e.parts.foldl (fun s p => noteCode s e.slice (e.va + p.1) p.2.length) s)
    (keepShadow s h.l.ctx h.g.idx h.g.core (es.map fun e => ⟨e.line, e.i⟩))

theorem offCache_joined (s : State) (h : Here) (es : List StoreEnt) : offCache (joined s h es) = offCache s := by
  refine (foldl_leaves offCache (fun s e => ?_) es _).trans (offCache_keepShadow _ _ _ _ _)
  split_ifs
  · rfl
  · exact foldl_leaves offCache (fun s p => offCache_noteCode s _ _ _) _ s

theorem storeAll_eq (s : State) (h : Here) (space : Nat) (rel : Bool) (data : List (Nat × List Byte)) :
    storeAll s h space rel data = landSome { joined s h (storeEnts s h space rel data) with
      stores := (joined s h (storeEnts s h space rel data)).stores ++ storeEnts s h space rel data } h.g.core := rfl

theorem sameByte_congr {s' t' : State} {a : Nat} (before : stock s' = stock s) (after : stock t' = stock t) (same : SameByte s t a) : SameByte s' t' a := by
  simp only [stock, Prod.mk.injEq] at before after
  simpa only [SameByte, before, after] using same

/-- Stores that join their core's leave all but the queue of stores. -/
theorem stored_joined (s : State) (h : Here) (rel : Bool) (data : List (Nat × List Byte)) :
    ∃ u, stock u = stock s ∧ Stored (storesOf s h.g.core ++ storeEnts s h 2 rel data) u (storeAll s h 2 rel data) := by
  have off := offCache_joined s h (storeEnts s h 2 rel data)
  have queue : (joined s h (storeEnts s h 2 rel data)).stores = s.stores :=
    show (offCache (joined s h (storeEnts s h 2 rel data))).stores = (offCache s).stores from congrArg State.stores off
  rw [storeAll_eq]
  have kept := stock_of_offCache off
  refine ⟨_, ?_, Stored.landSome fun e mem => ?_⟩
  · exact kept
  simp only [storesOf, List.filter_append, queue, List.mem_append] at mem ⊢
  exact mem.imp_right fun own => (List.mem_filter.1 own).1

/-- Settles O18: each store that lands writes its own bytes, and a discarded sector lives again with one of its two values. -/
theorem storeChangesOnlyStoredBytes : Obligations.StoreChangesOnlyStoredBytes := by
  unfold Obligations.StoreChangesOnlyStoredBytes
  intro s t g w h run scope space order is pass locks done data
  rw [exec_st_of_runs run is, storeLanes_of_pass scope (by simp [order]) (space ▸ pass) (space ▸ locks), space] at done
  split_ifs at done
  · cases done
    exact ⟨fun a _ => .inl rfl, fun _ _ => rfl, rfl, rfl, rfl⟩
  · have made : passedStore s g h w (data.map (·.2)) = .step (storeAll s h 2 false (data.map (·.2))) h.t := by
      simp [passedStore, space, order]
    rw [made] at done
    cases done
    obtain ⟨u, joined, stored⟩ := stored_joined s h false (data.map (·.2))
    have left := stock_retire (storeAll s h 2 false (data.map (·.2))) g h h.t
    have kept := (congrArg (·.2.2.2) left).trans (stored.rest.trans (congrArg (·.2.2.2) joined))
    refine ⟨fun a out => sameByte_congr joined.symm left (stored.bytes a out), fun dev n => ?_,
      congrArg (·.1) kept, congrArg (·.2.1) kept, congrArg (·.2.2) kept⟩
    calc (State.slice _ n).scratch = ((storeAll s h 2 false (data.map (·.2))).slice n).scratch := scratch_of_stock left n
      _ = (u.slice n).scratch := stored.scratch (fun e mem => (List.mem_append.1 mem).elim (dev e) (storeEnts_dev s h false _ e)) n
      _ = (s.slice n).scratch := scratch_of_stock joined n

end Sys2Proof.Machine
end

section
/-! SUPPORT. Proofs of atomics whose lanes pass (R132, R133, R165, R171): what their core's stores leave of the locks, and what they come to. -/

namespace Sys2Proof.Machine

variable {s t : State} {g : GroupRef} {w : Word64} {h : Here}

/-! ### Performing the stores that an atomic follows takes no lock -/

theorem among_refl (s : State) (core : Nat) : Among (storesOf s core) core s := fun _ mem => mem

theorem lockTables_loadReady (s : State) (h : Here) (space n : Nat) (whole : Bool) (as : List Nat) :
    lockTables (loadReady s h space n whole as).1 = lockTables s := by
  refine List.foldlRecOn _ _ (motive := fun x : State × Bool => lockTables x.1 = lockTables s) rfl fun x kept k _ => ?_
  simp only
  split_ifs
  · exact (Stored.landFor (among_refl x.1 h.g.core) k.line).held.trans kept
  · exact kept

theorem lockTables_homesReady (s : State) (h : Here) (space : Nat) (as : List Nat) : lockTables (homesReady s h space as).1 = lockTables s := by
  refine List.foldlRecOn _ _ (motive := fun x : State × Bool => lockTables x.1 = lockTables s) rfl fun x kept a _ => ?_
  split_ifs
  · exact kept
  split
  · exact (Stored.landFor (among_refl x.1 h.g.core) _).held.trans kept
  · exact kept

theorem lockTables_atomReady (s : State) (h : Here) (w : Word64) (space : Nat) (as : List Nat) :
    lockTables (atomReady s h w space as).1 = lockTables s := by
  simp only [atomReady]
  split_ifs
  · refine List.foldlRecOn _ _ (motive := fun x : State × Bool => lockTables x.1 = lockTables s) rfl fun x kept a _ => ?_
    split_ifs
    · exact (lockTables_loadReady _ _ _ _ _ _).trans kept
    · exact kept
  · exact (Stored.landAll (among_refl s h.g.core)).held
  · exact lockTables_homesReady s h space as

/-! ### Atomics whose lanes pass -/

/-- No arithmetic condition of the instruction traps (R53). -/
def Calm (raises : State → Here → Word64 → Raised) (h : Here) (w : Word64) : Prop :=
  ∀ u, (if h.l.trap then (raises u h w).trap else none) = none

section Passed

variable {s' : State} {op : Nat} {raises : State → Here → Word64 → Raised} {f : Nat → Nat → Nat → Nat → Option Nat}
  (locks : LocksClear s h (fAspace w) (atomBits w / 8) (laneAddrs h w 0))
  (ready : atomReady s h w (fAspace w) ((laneAddrs h w 0).map (·.2)) = (s', true))
  (calm : Calm raises h w)

include locks ready calm

theorem passedAtomic_eq : passedAtomic raises op s h w f =
    .step (atomAcquire (atomRun s' h w (atomNew h w f)).1 h w) (atomGroup op h w f (atomRun s' h w (atomNew h w f)).2) := by
  have kept : lockTables (keepShadow s' h.l.ctx h.g.idx h.g.core (atomKeys s' h (fAspace w) ((laneAddrs h w 0).map (·.2)))) = lockTables s :=
    (lockTables_of_offCache (offCache_keepShadow _ _ _ _ _)).trans
      ((congrArg (fun x => lockTables x.1) ready).symm.trans (lockTables_atomReady s h w _ _))
  have free : heldLock (keepShadow s' h.l.ctx h.g.idx h.g.core (atomKeys s' h (fAspace w) ((laneAddrs h w 0).map (·.2)))) h.l.slice (fAspace w)
      (atomBits w / 8) (((laneAddrs h w 0).filter fun l => (atomRun s' h w (atomNew h w f)).2.any fun p =>
        p.1 == l.1 && (atomNew h w f p.1 p.2).isSome).map (·.2)) = false :=
    heldLock_of_subset kept (List.map_subset _ (List.filter_subset_self _)) locks
  simp only [passedAtomic, ready, calm _, free, Bool.false_eq_true, if_false]

/-- What an atomic does whose lanes pass. -/
theorem exec_atomic_completes {i : Instr} (means : exec i s = atomicTrap raises op g w s f) (run : Runs s g w h) (is : fOpcode w = op)
    (some_ : acting h w ≠ []) (scope : badScope w = false) (free : ¬ (op = 0x71 ∧ (s.getObj (Obj.detMask h.l.slice)).testBit 0 = true))
    (owes : (fAorder w).testBit 1 = true → engineOwes s g h.g.core = false) (pass : AtomsPass s h (fAspace w) (atomBits w / 8) (laneAddrs h w 0))
    (tiles : TilesClear s g h (fAspace w) (atomBits w / 8) (laneAddrs h w 0)) :
    exec i s = .next (retire (atomAcquire (atomRun s' h w (atomNew h w f)).1 h w) g h (atomGroup op h w f (atomRun s' h w (atomNew h w f)).2)) := by
  have checked : checkLanes s (laneAddrs h w 0) (fun s a => atomCheck s h (fAspace w) a (atomBits w / 8)) = .ok := checkLanes_ok pass
  rw [means, atomicTrap_of_lanes run is some_, scope, if_neg Bool.false_ne_true, if_neg free, atomic_unqueued owes tiles,
    if_neg Bool.false_ne_true, checked]
  exact congrArg (finish g h) (passedAtomic_eq locks ready calm)

/-- An atomic that always writes. -/
theorem exec_writing_atomic {i : Instr} {new : Nat → Nat → Nat} (means : exec i s = atomicTrap raises op g w s f)
    (writes : atomNew h w f = fun l o => some (new l o)) (other : op ≠ 0x7A) (run : Runs s g w h) (is : fOpcode w = op)
    (some_ : acting h w ≠ []) (scope : badScope w = false) (free : ¬ (op = 0x71 ∧ (s.getObj (Obj.detMask h.l.slice)).testBit 0 = true))
    (owes : (fAorder w).testBit 1 = true → engineOwes s g h.g.core = false) (pass : AtomsPass s h (fAspace w) (atomBits w / 8) (laneAddrs h w 0))
    (tiles : TilesClear s g h (fAspace w) (atomBits w / 8) (laneAddrs h w 0)) :
    exec i s = .next (retire (atomAcquire (atomRun s' h w fun l o => some (new l o)).1 h w) g h
      (atomLoaded h w (atomRun s' h w fun l o => some (new l o)).2)) := by
  rw [exec_atomic_completes locks ready calm means run is some_ scope free owes pass tiles, writes, atomGroup, if_neg other]

end Passed

theorem calm_of_no_condition (h : Here) (w : Word64) : Calm (fun _ _ _ => {}) h w := by
  have none_ : ({} : Raised).trap = none := by decide
  intro u
  split_ifs
  · exact none_
  · rfl

theorem calm_of_trap_off {h : Here} (off : h.l.trap = false) (raises : State → Here → Word64 → Raised) (w : Word64) : Calm raises h w := by
  intro u
  rw [off]
  rfl

/-- A lane of `atom.cas` writes nothing where it finds another value than B (R132). -/
theorem isNone_atomNew_cas (h : Here) (w : Word64) (i old : Nat) :
    (atomNew h w (fun _ o b c => if o = b then some c else none) i old).isNone = decide (old ≠ h.t.vregs' (fVB w) i (atomBits w / 8 / 4)) := by
  simp only [atomNew]
  split_ifs with same <;> simp [same]

/-- Settles O20: once the lanes have passed, an atomic steps through them in order. -/
theorem atomicsComplete : Obligations.AtomicsComplete := by
  unfold Obligations.AtomicsComplete
  intro s g w h run scope owes n ls as
  refine ⟨fun none_ => ⟨fun is => ?_, fun is => ?_⟩, ?_⟩
  · rw [exec_atomAdd]
    exact atomicTrap_of_no_lane run (List.mem_singleton.1 is) none_
  · rw [exec_atomCas]
    exact atomicTrap_of_no_lane run (List.mem_singleton.1 is) none_
  intro s' some_ pass tiles locks ready
  have calm := calm_of_no_condition h w
  refine ⟨fun is => ?add, fun off fixed is => ?fadd, fun is => ?minS, fun is => ?maxS, fun is => ?minU, fun is => ?maxU, fun is => ?and, fun is => ?or,
    fun is => ?xor, fun is => ?exch, fun is => ?cas⟩
  case add => exact exec_writing_atomic locks ready calm (exec_atomAdd g w s) rfl (by decide) run is some_ scope (by simp) owes pass tiles
  case fadd =>
    exact exec_writing_atomic locks ready (calm_of_trap_off off _ w) (exec_atomFadd g w s) rfl (by decide) run is some_ scope
      (by simp [fixed]) owes pass tiles
  case minS => exact exec_writing_atomic locks ready calm (exec_atomMinS g w s) rfl (by decide) run is some_ scope (by simp) owes pass tiles
  case maxS => exact exec_writing_atomic locks ready calm (exec_atomMaxS g w s) rfl (by decide) run is some_ scope (by simp) owes pass tiles
  case minU => exact exec_writing_atomic locks ready calm (exec_atomMinU g w s) rfl (by decide) run is some_ scope (by simp) owes pass tiles
  case maxU => exact exec_writing_atomic locks ready calm (exec_atomMaxU g w s) rfl (by decide) run is some_ scope (by simp) owes pass tiles
  case and => exact exec_writing_atomic locks ready calm (exec_atomAnd g w s) rfl (by decide) run is some_ scope (by simp) owes pass tiles
  case or => exact exec_writing_atomic locks ready calm (exec_atomOr g w s) rfl (by decide) run is some_ scope (by simp) owes pass tiles
  case xor => exact exec_writing_atomic locks ready calm (exec_atomXor g w s) rfl (by decide) run is some_ scope (by simp) owes pass tiles
  case exch => exact exec_writing_atomic locks ready calm (exec_atomExch g w s) rfl (by decide) run is some_ scope (by simp) owes pass tiles
  case cas =>
    have done := exec_atomic_completes locks ready calm (exec_atomCas g w s) run is some_ scope (by simp) owes pass tiles
    rw [atomGroup, if_pos rfl] at done
    simp only [isNone_atomNew_cas] at done
    exact done

end Sys2Proof.Machine
end

section
/-! SUPPORT. Proofs of fences and cache hints (R135, R136, R195, R197 to R199): what each does, and that none of them changes a byte of memory. -/

namespace Sys2Proof.Machine

variable {s t : State} {g : GroupRef} {w : Word64} {h : Here} {n : Nat}

theorem bytes_retire (t : State) (g : GroupRef) (h : Here) (u : Group) : (retire t g h u).mem.bytes = t.mem.bytes := bytes_of_stock (stock_retire t g h u)

/-- The bytes of memory after steps that each leave them. -/
theorem bytes_foldl {α : Type} {f : State → α → State} (step : ∀ s x, (f s x).mem.bytes = s.mem.bytes) (xs : List α) (s : State) :
    (xs.foldl f s).mem.bytes = s.mem.bytes := foldl_leaves (fun s => s.mem.bytes) step xs s

/-! ### Fences (R135) -/

theorem exec_fence (run : Runs s g w h) (is : fOpcode w = 0x80) (owes : (fSorder w).testBit 1 = true → engineOwes s g h.g.core = false)
    (tiles : (fSorder w).testBit 0 = true → tileLoads s g h.g.core = false) {s' : State}
    (ready : (if fSscope w < 2 then (s, true) else if fSscope w = 2 then fenceStores s h.g.core (fSorder w)
      else if (fSorder w).testBit 1 then sysRelease s h else wcFlush h.g.core (s.core h.g.core).wc s) = (s', true)) :
    exec (.fence g w) s = .next (retire (if 2 ≤ fSscope w ∧ (fSorder w).testBit 0 then applyInv s' h.g.core else s') g h
      (if 2 ≤ fSscope w ∧ (fSorder w).testBit 0 then { h.t with fenced := true } else h.t)) := by
  have free : (((fSorder w).testBit 1 && engineOwes s g h.g.core) || ((fSorder w).testBit 0 && tileLoads s g h.g.core)) = false := by
    simp only [Bool.or_eq_false_iff, Bool.and_eq_false_imp]
    exact ⟨owes, tiles⟩
  show execFence g w s = _
  rw [execFence, runInstr_of_runs run (List.mem_singleton.2 is)]
  simp only [free, ready, Bool.false_eq_true, if_false, Bool.not_true]
  split_ifs <;> rfl

/-! ### Discards (R199) -/

theorem landAll_of_none {core : Nat} (none_ : storesOf s core = []) : landAll s core = (s, true) := by
  simp only [landAll, none_]
  rfl

/-- What the discard of a line at an address does. -/
def discardAt (h : Here) (s : State) (v : Nat) : State := match translate s h.l.slice v 1 with
  | .ok pa => discardLine (logWrite s h.l.slice v) (some h.g.core) (pa / 512)
  | .error _ => s

theorem bytes_discardAt (h : Here) (s : State) (v : Nat) : (discardAt h s v).mem.bytes = s.mem.bytes := by
  simp only [discardAt]
  split
  · exact (keeps_discardLine _ _ _).2
  · rfl

theorem exec_discard {vas : List Nat} (run : Runs s g w h) (is : fOpcode w = 0x81) (range : linesInside (h.t.sreg (fX27 w)).toNat (h.t.sreg (fSB w)).toNat = vas)
    (none_ : storesOf s h.g.core = []) (tiles : tileQueued s g h.g.core 2 512 vas = false)
    (pass : ∀ v ∈ vas, (discardOk s h.l.slice v (askOf h)).toBool = true) (locks : heldLock s h.l.slice 2 512 vas = false) :
    exec (.discard g w) s = .next (retire (vas.foldl (discardAt h) s) g h h.t) := by
  have checked : checkLanes s (vas.map fun v => (0, v)) (fun s v => match discardOk s h.l.slice v (askOf h) with
      | .ok _ => .ok ()
      | .error e => .error e) = .ok := by
    refine checkLanes_ok fun p mem => ?_
    obtain ⟨v, in_, rfl⟩ := List.mem_map.1 mem
    have good := pass v in_
    revert good
    simp only
    cases discardOk s h.l.slice v (askOf h) with
    | ok k => exact fun _ => rfl
    | error e => exact fun bad => nomatch bad
  show execDiscard g w s = _
  rw [execDiscard, runInstr_of_runs run (List.mem_singleton.2 is)]
  simp only [range, tiles, landAll_of_none none_, locks, Bool.false_eq_true, if_false]
  split
  · next bad => cases bad.symm.trans checked
  · next bad => cases bad.symm.trans checked
  · rfl

/-! ### Pins (R197, R198) -/

theorem bytes_pinLine (n : Nat) (s : State) (l : Nat) : (pinLine n s l).mem.bytes = s.mem.bytes := by
  simp only [pinLine]
  split_ifs
  · rfl
  · exact (keeps_llmTouch _ _ _ _ _ _ _).2

theorem bytes_of_pinLines {ls : List Nat} (pinned : pinLines n ls s = some t) : t.mem.bytes = s.mem.bytes := by
  induction ls generalizing s with
  | nil => cases pinned; rfl
  | cons l ls ih =>
    simp only [pinLines] at pinned
    split_ifs at pinned
    exact (ih pinned).trans (bytes_pinLine n s l)

/-- What the release of the pin of a line at an address does. -/
def unpinAt (n : Nat) (s : State) (v : Nat) : State := match translate s n v 0 with
  | .ok pa => unpinLine n s (pa / 512)
  | .error _ => s

theorem bytes_unpinAt (n : Nat) (s : State) (v : Nat) : (unpinAt n s v).mem.bytes = s.mem.bytes := by
  simp only [unpinAt]
  split
  · simp only [unpinLine]
    split_ifs <;> rfl
  · rfl

section Pin

variable {vas : List Nat} (run : Runs s g w h) (is : fOpcode w = 0x82)
  (range : linesTouching (h.t.sreg (fX27 w)).toNat (h.t.sreg (fSB w)).toNat = vas)

include run is range

theorem exec_pinLlc : exec (.pinLlc g w) s = finish g h (
    if vas.any (donated s h.l.slice) then .any s
    else match (rangeLines s h.l.slice vas).map fun ls =>
      (ls.foldl (fun acc l => addNew l acc) []).filter fun l => !(s.mem.llm.any fun x => x.line == l && x.pinned) with
    | some news =>
      if vas.isEmpty then .step s (h.t.setP (fTop3 w) (BitVec.allOnes 32))
      else if pinOk s h.l.slice news then match pinLines h.l.slice news s with
        | some t => .step (t.addObj (Obj.pinned h.l.slice) news.length) (h.t.setP (fTop3 w) (BitVec.allOnes 32))
        | none => .wait s
      else .step (s.addObj (Obj.pinRefusals h.l.slice) 1) (h.t.setP (fTop3 w) 0)
    | none => .step (s.addObj (Obj.pinRefusals h.l.slice) 1) (h.t.setP (fTop3 w) 0)) := by
  show execPinLlc g w s = _
  rw [execPinLlc, runInstr_of_runs run (List.mem_singleton.2 is)]
  simp only [range, if_true, Bool.false_eq_true, if_false] <;> rfl

end Pin

/-! ### Prefetches (R195) -/

/-- What the prefetch of a line at an address does. -/
def prefetchAt (n : Nat) (s : State) (v : Nat) : State := match translate s n v 0 with
  | .error _ => s
  | .ok pa => requestLine s n (pa / 512)

theorem translate_missFree (s : State) (ms is : List MissReg) (n v kind : Nat) :
    translate { s with mem := { s.mem with miss := ms, missInput := is } } n v kind = translate s n v kind := rfl

/-- Prefetches add requests for the lines of their addresses, and nothing else. -/
structure Requested (n : Nat) (vas : List Nat) (s t : State) : Prop where
  rest : ∃ ms is, t = { s with mem := { s.mem with miss := ms, missInput := is } }
  news : ∀ m ∈ t.mem.miss, m ∈ s.mem.miss ∨ (m.slice = n ∧ ∃ v ∈ vas, ∃ pa, translate s n v 0 = .ok pa ∧ m.line = .dev (pa / 512))

theorem Requested.refl (n : Nat) (vas : List Nat) (s : State) : Requested n vas s s := ⟨⟨_, _, rfl⟩, fun _ => .inl⟩

theorem Requested.prefetchAt {vas : List Nat} (asked : Requested n vas s t) {v : Nat} (mem : v ∈ vas) : Requested n vas s (prefetchAt n t v) := by
  obtain ⟨⟨ms, is, rfl⟩, news⟩ := asked
  simp only [Machine.prefetchAt, translate_missFree]
  cases at_ : translate s n v 0 with
  | error _ => exact ⟨⟨ms, is, rfl⟩, news⟩
  | ok pa =>
    simp only [requestLine]
    split_ifs
    · exact ⟨⟨ms, is, rfl⟩, news⟩
    · refine ⟨⟨_, _, rfl⟩, fun m listed => ?_⟩
      rcases List.mem_append.1 listed with old | new
      · exact news m old
      · cases List.mem_singleton.1 new
        exact .inr ⟨rfl, v, mem, pa, at_, rfl⟩
    · exact ⟨⟨_, _, rfl⟩, news⟩

theorem Requested.foldl {vas vs : List Nat} (sub : ∀ v ∈ vs, v ∈ vas) (asked : Requested n vas s t) :
    Requested n vas s (vs.foldl (Machine.prefetchAt n) t) := by
  induction vs generalizing t with
  | nil => exact asked
  | cons v vs ih =>
    obtain ⟨first, rest⟩ := List.forall_mem_cons.1 sub
    exact ih rest (asked.prefetchAt first)

/-- Settles O23: fences order, hints move tags, pins and requests; the bytes stand. -/
theorem fencesAndHints : Obligations.FencesAndHints := by
  unfold Obligations.FencesAndHints
  intro s g w h run
  refine ⟨fun owes tiles s' ready bytes is => ?fence, fun none_ tiles pass locks is => ?discard, fun empty is => ?pinNone,
    fun ls found some_ own => ⟨fun ok t pinned is => ?pinAll, fun refused is => ?pinRefused⟩,
    fun lost own is => ?pinLost, fun is => ?unpin, fun is own => ?prefetch⟩
  case fence =>
    refine ⟨exec_fence run is owes tiles ready, (bytes_retire _ _ _ _).trans ?_⟩
    split_ifs <;> exact bytes
  case discard =>
    exact ⟨exec_discard run is rfl none_ tiles pass locks, (bytes_retire _ _ _ _).trans (bytes_foldl (bytes_discardAt h) _ s)⟩
  case pinNone =>
    refine ⟨?_, bytes_retire _ _ _ _⟩
    rw [exec_pinLlc run is empty]
    rfl
  case pinAll =>
    have bytes : t.mem.bytes = s.mem.bytes := bytes_of_pinLines pinned
    refine ⟨?_, (bytes_retire _ _ _ _).trans bytes⟩
    rw [exec_pinLlc run is rfl]
    simp only [own, found, Option.map_some, List.isEmpty_eq_false_iff.2 some_, ok, pinned, Bool.false_eq_true, if_false, if_true]
    rfl
  case pinRefused =>
    refine ⟨?_, bytes_retire _ _ _ _⟩
    rw [exec_pinLlc run is rfl]
    simp only [own, found, Option.map_some, List.isEmpty_eq_false_iff.2 some_, refused, Bool.false_eq_true, if_false]
    rfl
  case pinLost =>
    refine ⟨?_, bytes_retire _ _ _ _⟩
    rw [exec_pinLlc run is rfl]
    simp only [own, lost, Option.map_none, Bool.false_eq_true, if_false]
    rfl
  case unpin =>
    refine ⟨?_, (bytes_retire _ _ _ _).trans (bytes_foldl (bytes_unpinAt h.l.slice) _ s)⟩
    show execUnpinLlc g w s = _
    rw [execUnpinLlc, runInstr_of_runs run (List.mem_singleton.2 is)]
    rfl
  case prefetch =>
    have asked := (Requested.refl h.l.slice (linesTouching (h.t.sreg (fX27 w)).toNat (h.t.sreg (fSB w)).toNat) s).foldl fun v mem => mem
    obtain ⟨⟨ms, is', rest⟩, news⟩ := asked
    refine ⟨_, ?_, by rw [rest], by rw [rest], news⟩
    show execPfDev g w s = _
    rw [execPfDev, runInstr_of_runs run (List.mem_singleton.2 is)]
    simp only [own, Bool.false_eq_true, if_false]
    rfl

end Sys2Proof.Machine
end

section
/-! SUPPORT. Paths and groups (R85 to R89, R140): what joins, wakes and barriers leave of a group's registers, when a group still has lanes, and
the groups of a gang after one of them is written back. -/

namespace Sys2Proof.Machine

variable {s t : State} {g r : GroupRef} {w : Word64} {h : Here}

/-! ### Registers stand while paths move -/

/-- What a group keeps while its paths move: its number and its registers. -/
def kept (t : Group) : Nat × Nat × List (Nat × Word64) × List (Nat × Word32) × List (Nat × LaneMask) :=
  (t.idx, t.predBase, t.sregs, t.vregs, t.preds)

theorem kept_switchPath (t : Group) : kept (switchPath t) = kept t := by
  simp only [switchPath]
  split <;> rfl

theorem kept_of_completeJoin {t u : Group} (done : completeJoin t = some u) : kept u = kept t := by
  simp only [completeJoin] at done
  split at done
  · cases done
  · split_ifs at done <;> cases done <;> rfl

theorem kept_afterRemoval (n : Nat) (t : Group) : kept (afterRemoval n t) = kept t := by
  induction n generalizing t with
  | zero => rfl
  | succ n ih =>
    simp only [afterRemoval]
    split
    · next u done =>
      split_ifs
      · exact kept_of_completeJoin done
      · exact (ih u).trans (kept_of_completeJoin done)
    · exact kept_switchPath t

theorem kept_settle (n : Nat) (t : Group) : kept (settle n t) = kept t := by
  induction n generalizing t with
  | zero => rfl
  | succ n ih =>
    simp only [settle]
    split
    · exact (ih _).trans (kept_afterRemoval _ _)
    · rfl

theorem kept_settled (t : Group) : kept (settled t) = kept t := kept_settle _ t

theorem kept_wakeGroup (t : Group) : kept (wakeGroup t) = kept t := by
  simp only [wakeGroup]
  split
  · exact (kept_settled _).trans (kept_switchPath t)
  · split_ifs
    · rfl
    · split
      · exact kept_settled _
      · rfl

/-! ### A group whose current path has lanes does not end by moving on -/

/-- The group has lanes: on its current path, or waiting at a join. -/
def HasLanes (t : Group) : Prop :=
  (∃ p, t.cur = some p ∧ p.mask ≠ 0) ∨ ∃ id, (∃ x ∈ t.joins, x.id = id) ∧ ∀ x ∈ t.joins, x.id = id → x.arrived ≠ 0

theorem groupExited_of_hasLanes {t : Group} (lanes : HasLanes t) : groupExited t = false := by
  rcases lanes with ⟨p, cur, -⟩ | ⟨id, ⟨x, mem, -⟩, -⟩
  · simp [groupExited, cur]
  · simp [groupExited, List.ne_nil_of_mem mem]

/-- Lanes that wait at a join form a path, or wait on. -/
theorem hasLanes_afterRemoval (n : Nat) {t : Group} {id : Nat} (some_ : ∃ x ∈ t.joins, x.id = id) (all : ∀ x ∈ t.joins, x.id = id → x.arrived ≠ 0) :
    HasLanes (afterRemoval n t) := by
  induction n generalizing t with
  | zero => exact .inr ⟨id, some_, all⟩
  | succ n ih =>
    rw [afterRemoval]
    cases done : completeJoin t with
    | none =>
      have joins : (switchPath t).joins = t.joins := by
        simp only [switchPath]
        split <;> rfl
      exact .inr ⟨id, joins ▸ some_, joins ▸ all⟩
    | some u =>
      simp only [completeJoin] at done
      split at done
      · cases done
      next j found =>
        split_ifs at done with empty
        · cases done
          have away : j.id ≠ id := fun same => all j (List.mem_of_find?_eq_some found) same empty
          obtain ⟨x, mem, same⟩ := some_
          have left : ∃ x ∈ t.joins.filter (fun x => x.id != j.id), x.id = id :=
            ⟨x, List.mem_filter.2 ⟨mem, by simpa [same] using away.symm⟩, same⟩
          have rest : ∀ x ∈ t.joins.filter (fun x => x.id != j.id), x.id = id → x.arrived ≠ 0 := fun x mem => all x (List.mem_filter.1 mem).1
          simp only
          split_ifs
          · exact .inr ⟨id, left, rest⟩
          · exact ih left rest
        · cases done
          simp only [Option.isSome_some, if_true]
          exact .inl ⟨_, rfl, empty⟩

/-- A join after a path has arrived at one. -/
def arrive (j : Join) (p : Path) (x : Join) : Join := if x.id = j.id then { x with arrived := x.arrived ||| p.mask } else x

theorem arrive_id (j : Join) (p : Path) (x : Join) : (arrive j p x).id = x.id := by
  simp only [arrive]
  split_ifs <;> rfl

theorem arrived_of_arrived {x : Join} (j : Join) (p : Path) (old : x.arrived ≠ 0) : (arrive j p x).arrived ≠ 0 := by
  simp only [arrive]
  split_ifs
  · exact fun none_ => old (BitVec.or_eq_zero_iff.1 none_).1
  · exact old

theorem arrived_of_id {j x : Join} (p : Path) (mask : p.mask ≠ 0) (same : x.id = j.id) : (arrive j p x).arrived ≠ 0 := by
  rw [arrive, if_pos same]
  exact fun none_ => mask (BitVec.or_eq_zero_iff.1 none_).2

theorem hasLanes_settle (n : Nat) {t : Group} (lanes : HasLanes t) : HasLanes (settle n t) := by
  induction n generalizing t with
  | zero => exact lanes
  | succ n ih =>
    rw [settle]
    split
    · next p j cur rpc =>
      have found : j ∈ t.joins := by
        simp only [atRpc, cur] at rpc
        split at rpc
        · cases rpc
        · exact List.mem_of_find?_eq_some rpc
      rcases lanes with ⟨q, cur', mask⟩ | ⟨id, ⟨x, mem, same⟩, all⟩
      · cases cur.symm.trans cur'
        refine ih (hasLanes_afterRemoval _ (id := j.id) ⟨arrive j p j, List.mem_map.2 ⟨j, found, rfl⟩, arrive_id j p j⟩ fun y mem same => ?_)
        obtain ⟨x, -, rfl⟩ := List.mem_map.1 mem
        exact arrived_of_id p mask ((arrive_id j p x).symm.trans same)
      · refine ih (hasLanes_afterRemoval _ (id := id) ⟨arrive j p x, List.mem_map.2 ⟨x, mem, rfl⟩, (arrive_id j p x).trans same⟩ fun y mem same => ?_)
        obtain ⟨x, old, rfl⟩ := List.mem_map.1 mem
        exact arrived_of_arrived j p (all x old ((arrive_id j p x).symm.trans same))
    · exact lanes

theorem hasLanes_settled {t : Group} (lanes : HasLanes t) : HasLanes (settled t) := hasLanes_settle _ lanes

/-! ### Groups found after their gangs have changed -/

/-- A record found by its number among records that have changed without their numbers. -/
theorem find?_map_key {α : Type} {key : α → Nat} {f : α → α} (num : ∀ x, key (f x) = key x) (k : Nat) (xs : List α) :
    (xs.map f).find? (fun x => key x == k) = (xs.find? fun x => key x == k).map f := by
  rw [List.find?_map]
  simp only [Function.comp_def, num]

/-- The launches' numbers with their gangs. -/
def gangsOf (s : State) : List (Nat × List Gang) := s.launches.map fun l => (l.ctx, l.live)

theorem groupAt_eq (s : State) (r : GroupRef) : groupAt s r = (gangNow s r).bind fun x => findGroup x r.group := by
  rw [gangNow_eq_bind, Option.bind_assoc]
  rfl

theorem gangNow_eq_find (s : State) (r : GroupRef) :
    gangNow s r = ((gangsOf s).find? fun x => x.1 == r.ctx).bind fun x => x.2.find? fun g => g.idx == r.gang := by
  rw [gangNow_eq_bind, gangsOf, List.find?_map, Option.bind_map]
  rfl

theorem gangNow_congr (same : gangsOf t = gangsOf s) (r : GroupRef) : gangNow t r = gangNow s r := by
  simp only [gangNow_eq_find, same]

/-- A gang of a launch after it has changed. -/
theorem gangNow_updGang {c n : Nat} {f : Gang → Gang} (num : ∀ x, (f x).idx = x.idx) (s : State) (r : GroupRef) :
    gangNow (updGang s c n f) r = (gangNow s r).map fun x => if r.ctx = c ∧ r.gang = n then f x else x := by
  have launch : (updGang s c n f).launch? r.ctx = (s.launch? r.ctx).map fun l => if l.ctx == c then { l with live := mapIf (fun g => g.idx == n) f l.live } else l :=
    find?_map_key (key := Launch.ctx) (fun l => by split_ifs <;> rfl) r.ctx s.launches
  rw [gangNow_eq_bind, gangNow_eq_bind, launch]
  cases found : s.launch? r.ctx with
  | none => rfl
  | some l =>
    have ctx : l.ctx = r.ctx := launch_ctx found
    simp only [Option.map_some, Option.bind_some, ctx, beq_iff_eq]
    by_cases own : r.ctx = c
    · have gang : (mapIf (fun g => g.idx == n) f l.live).find? (fun g => g.idx == r.gang) =
          (l.live.find? fun g => g.idx == r.gang).map fun x => if x.idx == n then f x else x :=
        find?_map_key (key := Gang.idx) (fun x => by split_ifs <;> simp [num]) r.gang l.live
      rw [if_pos own, findGang, findGang, gang]
      refine Option.map_congr fun x here => ?_
      have idx : x.idx = r.gang := by simpa using List.find?_some here
      simp only [idx, own, true_and, beq_iff_eq]
    · simp only [own, if_false, false_and, Option.map_id_fun', id_eq]

/-- A group of a gang after the barrier: its registers stand. -/
theorem findGroup_barrier (x : Gang) (k : Nat) : (findGroup (barrier x) k).map kept = (findGroup x k).map kept := by
  simp only [barrier]
  split_ifs
  · have woken (t : Group) : kept (if groupExited t then t else wakeGroup { t with queue := t.queue.map fun p => { p with parked := false } }) = kept t := by
      split_ifs
      · rfl
      · exact kept_wakeGroup _
    rw [findGroup, find?_map_key (key := Group.idx) (fun t => congrArg Prod.fst (woken t)), Option.map_map]
    exact Option.map_congr fun t _ => woken t
  · rfl

theorem barrier_idx (x : Gang) : (barrier x).idx = x.idx := by
  simp only [barrier]
  split_ifs <;> rfl

/-- A group that still has lanes, written back. -/
theorem putBack_of_hasLanes {u : Group} (lanes : HasLanes u) : putBack s g h u = updGang (setGroup s g u) g.ctx g.gang barrier := by
  simp only [putBack, groupExited_of_hasLanes lanes, Bool.false_eq_true, if_false]

/-- A group of a gang after one of them is replaced. -/
theorem findGroup_replace (x : Gang) {u : Group} {n : Nat} (idx : u.idx = n) (k : Nat) :
    findGroup { x with groups := x.groups.map fun v => if v.idx = n then u else v } k = (findGroup x k).map fun v => if k = n then u else v := by
  rw [findGroup, find?_map_key (key := Group.idx) (fun v => by split_ifs with same; exacts [idx.trans same.symm, rfl])]
  refine Option.map_congr fun v here => ?_
  have num : v.idx = k := by simpa using List.find?_some here
  rw [num]

/-- The registers of the groups after one of them is written back: its own are those written, the others' stand. -/
theorem groupAt_putBack {u : Group} (lanes : HasLanes u) (idx : u.idx = g.group) (t : State) (h : Here) (r : GroupRef) :
    (groupAt (putBack t g h u) r).map kept = (groupAt t r).map fun v => if r = g then kept u else kept v := by
  rw [putBack_of_hasLanes lanes, groupAt_eq, groupAt_eq, setGroup, gangNow_updGang barrier_idx, gangNow_updGang (by intro; rfl), Option.map_map]
  cases gangNow t r with
  | none => rfl
  | some x =>
    simp only [Option.map_some, Option.bind_some, Function.comp_apply]
    by_cases own : r.ctx = g.ctx ∧ r.gang = g.gang
    · have same : r.group = g.group ↔ r = g := by
        obtain ⟨ctx, gang, group⟩ := r
        obtain ⟨rfl, rfl⟩ := own
        exact ⟨fun same => by subst same; rfl, fun same => same ▸ rfl⟩
      rw [if_pos own, if_pos own, findGroup_barrier, findGroup_replace x idx, Option.map_map]
      refine Option.map_congr fun v _ => ?_
      simp only [Function.comp_apply, same]
      split_ifs <;> rfl
    · have other : r ≠ g := fun same => own (same ▸ ⟨rfl, rfl⟩)
      simp only [if_neg own, if_neg other]

end Sys2Proof.Machine
end

section
/-! SUPPORT. Proofs of the frame of the instructions that write registers only (R122, R124, R142): what each of them asks for, what it leaves of its
group, and what its retirement or its fault leaves of the state. -/

namespace Sys2Proof.Machine

variable {s t : State} {g r : GroupRef} {w : Word64} {h : Here}

/-! ### What such an instruction asks for -/

/-- The vector registers of a lane that an instruction of the vector class writes. -/
def vectorRegs (w : Word64) : Nat := if fOpcode w = 0x2A then cvtRegs (fC w % 16) (fType w) else typeRegs (vecType w)

/-- The group as the instruction leaves it, by its opcode: one register or the registers at D of the acting lanes are written. -/
structure WritesD (h : Here) (w : Word64) (u : Group) : Prop where
  idx : u.idx = h.t.idx
  scalar : fOpcode w ≤ 0x1E → fOpcode w ≠ 0x0E → u.vregs = h.t.vregs ∧ u.preds = h.t.preds ∧ ∀ r, r < 64 → r ≠ fD w % 64 → u.sreg r = h.t.sreg r
  vector : 0x20 ≤ fOpcode w → fOpcode w ≤ 0x57 → fOpcode w ≠ 0x35 → fOpcode w ≠ 0x39 → u.sregs = h.t.sregs ∧ u.preds = h.t.preds ∧
    ∀ r j, j < 32 → (j ∉ acting h w ∨ r < fD w ∨ fD w + vectorRegs w ≤ r) → u.vreg r j = h.t.vreg r j
  pred : fOpcode w = 0x0E → u.vregs = h.t.vregs ∧ u.sregs = h.t.sregs ∧ ∀ r, r < 8 → r ≠ fD w % 8 → u.preg r = h.t.preg r

theorem writesD_nothing (h : Here) (w : Word64) : WritesD h w h.t :=
  ⟨rfl, fun _ _ => ⟨rfl, rfl, fun _ _ _ => rfl⟩, fun _ _ _ _ => ⟨rfl, rfl, fun _ _ _ _ => rfl⟩, fun _ => ⟨rfl, rfl, fun _ _ _ => rfl⟩⟩

/-- Opcodes that write a scalar register. -/
abbrev WritesS (o : Nat) : Prop := o ≠ 0x0E ∧ (o ≤ 0x1E ∨ o = 0x39)

theorem writesD_setS (op : WritesS (fOpcode w)) (v : Word64) : WritesD h w (h.t.setS (fD w) v) where
  idx := rfl
  scalar _ _ := ⟨rfl, rfl, fun r small other => Group.sreg_setS_ne h.t v (by omega)⟩
  vector low high _ movVs := by
    obtain ⟨-, a | a⟩ := op <;> omega
  pred is := absurd is op.1

/-- Opcodes that write a predicate. -/
abbrev WritesP (o : Nat) : Prop := o = 0x0E ∨ o = 0x35

theorem writesD_setP (op : WritesP (fOpcode w)) (v : LaneMask) : WritesD h w (h.t.setP (fD w) v) where
  idx := rfl
  scalar low _ := by
    obtain a | a := op <;> omega
  vector _ high cmp _ := by
    obtain a | a := op <;> omega
  pred _ := ⟨rfl, rfl, fun r small other => Group.preg_setP_ne h.t v (by omega)⟩

theorem writesD_writeLanes {n : Nat} (op : 0x1E < fOpcode w) (regs : n = vectorRegs w) (f : Nat → Nat) : WritesD h w (writeLanes h.t (fD w) n (acting h w) f) where
  idx := by rw [writeLanes_eq]
  scalar low _ := by omega
  vector _ _ _ _ := by
    rw [writeLanes_eq]
    refine ⟨rfl, rfl, fun r j lane outside => ?_⟩
    rw [← writeLanes_eq]
    exact vreg_writeLanes_outside h.t f (fun i mem => mem_lanesOf_lt mem) lane (regs ▸ outside)
  pred is := by omega

/-- Beyond the scalar and the vector class. -/
theorem writesD_of_beyond {u : Group} (op : 0x57 < fOpcode w) (idx : u.idx = h.t.idx) : WritesD h w u where
  idx := idx
  scalar low _ := by omega
  vector _ high _ _ := by omega
  pred is := by omega

/-- What an instruction asks for that writes registers only: a fault, or the step to the group that it leaves. -/
inductive RegisterAct (s : State) (h : Here) (w : Word64) : Act → Prop
  | fault (c : Nat) (lanes : LaneMask) (addr info : Word64) : RegisterAct s h w (.fault s c lanes addr info)
  | step {u : Group} (writes : WritesD h w u) : RegisterAct s h w (.step s u)

/-- Where it runs, the instruction asks for no more than that. -/
def RegistersOnly (e : GroupRef → Word64 → State → Res) : Prop :=
  ∀ (s t : State) (g : GroupRef) (w : Word64) (h : Here), Runs s g w h → e g w s = .next t → ∃ a, RegisterAct s h w a ∧ finish g h a = .next t

variable {e : GroupRef → Word64 → State → Res}

theorem registersOnly_of_act {ops : List Nat} {body : GroupRef → Word64 → State → Here → Act}
    (means : ∀ g w s, e g w s = runInstr ops s g w (body g w)) (act : ∀ {s g w h}, fOpcode w ∈ ops → RegisterAct s h w (body g w s h)) :
    RegistersOnly e := by
  intro s t g w h run done
  rw [means] at done
  by_cases op : fOpcode w ∈ ops
  · rw [runInstr_of_runs run op] at done
    exact ⟨_, act op, done⟩
  · simp [runInstr, op] at done

theorem registersOnly_of_scalarOp {ops : List Nat} {f : Word64 → Word64 → Word64}
    (means : ∀ g w s, e g w s = scalarOp ops s g w f) (codes : ∀ o ∈ ops, WritesS o) : RegistersOnly e :=
  registersOnly_of_act means fun op => .step (writesD_setS (codes _ op) _)

theorem registerAct_lanesAct {n : Nat} (op : 0x1E < fOpcode w) (regs : n = vectorRegs w) (f : Nat → Nat × List Rounded) :
    RegisterAct s h w (lanesAct s h w n f) := by
  simp only [lanesAct]
  split
  · exact .fault _ _ _ _
  · exact .step (writesD_writeLanes op regs _)

theorem registersOnly_of_vectorOp {ops : List Nat} {f : Word64 → Group → Nat → Nat × List Rounded}
    (means : ∀ g w s, e g w s = vectorOp ops s g w (f w)) (codes : ∀ o ∈ ops, 0x1E < o ∧ o ≠ 0x2A) : RegistersOnly e := by
  refine registersOnly_of_act (fun g w s => (means g w s).trans (vectorOp_eq _ _ _ _ _)) fun op => registerAct_lanesAct (codes _ op).1 ?_ _
  rw [vectorRegs, if_neg (codes _ op).2]

theorem registersOnly_of_beyond {op : Nat} {u : Word64 → State → Here → Group}
    (means : ∀ g w s, e g w s = runInstr [op] s g w fun s h => .step s (u w s h)) (code : 0x57 < op)
    (idx : ∀ w s h, (u w s h).idx = h.t.idx) : RegistersOnly e :=
  registersOnly_of_act means fun is => .step (writesD_of_beyond (List.mem_singleton.1 is ▸ code) (idx _ _ _))

/-! ### Those with a meaning of their own -/

theorem registersOnly_sclCmp : RegistersOnly execSclCmp :=
  registersOnly_of_act (fun _ _ _ => rfl) fun is => .step (writesD_setP (.inl (List.mem_singleton.1 is)) _)

theorem registersOnly_sclMovi : RegistersOnly execSclMovi :=
  registersOnly_of_act (fun _ _ _ => rfl) fun is =>
    .step (writesD_setS (List.mem_singleton.1 is ▸ by decide) _)

theorem registersOnly_sclMovhi : RegistersOnly execSclMovhi :=
  registersOnly_of_act (fun _ _ _ => rfl) fun is =>
    .step (writesD_setS (List.mem_singleton.1 is ▸ by decide) _)

theorem registersOnly_cmp : RegistersOnly execCmp :=
  registersOnly_of_act (fun _ _ _ => rfl) fun is => .step (writesD_setP (.inr (List.mem_singleton.1 is)) _)

theorem registersOnly_movVs : RegistersOnly execMovVs := by
  refine registersOnly_of_act (fun _ _ _ => rfl) fun is => ?_
  split
  · exact .step (writesD_nothing _ _)
  · exact .step (writesD_setS (List.mem_singleton.1 is ▸ by decide) _)

theorem registersOnly_cvt : RegistersOnly execCvt := by
  refine registersOnly_of_act exec_cvt fun is => ?_
  have code : fOpcode _ = 0x2A := List.mem_singleton.1 is
  exact registerAct_lanesAct (by omega) (by rw [vectorRegs, if_pos code]) _

theorem registersOnly_shuffle {op : Nat} {src : Nat → Nat → Nat} (means : ∀ g w s, e g w s = shuffle op g w s src)
    (code : 0x57 < op) : RegistersOnly e :=
  registersOnly_of_beyond means code fun _ _ _ => by rw [writeLanes_eq]

theorem registersOnly_vote {op : Nat} {f : Word64 → Group → LaneMask → Bool}
    (means : ∀ g w s, e g w s = vote op g w s (f w)) (code : 0x57 < op) : RegistersOnly e :=
  registersOnly_of_beyond means code fun _ _ _ => rfl

theorem registersOnly_predOp {op : Nat} {f : LaneMask → LaneMask → LaneMask}
    (means : ∀ g w s, e g w s = predOp op g w s f) (code : 0x57 < op) : RegistersOnly e :=
  registersOnly_of_beyond means code fun _ _ _ => rfl

/-- The instructions of the frame. -/
theorem registersOnly_of_mem : ∀ i ∈ registerOnly, RegistersOnly fun g w s => exec (i g w) s := by
  simp only [registerOnly, List.forall_mem_append, List.forall_mem_cons, List.not_mem_nil, false_implies, implies_true, and_true]
  refine ⟨⟨?sclAdd, ?sclSub, ?sclMul, ?sclAnd, ?sclOr, ?sclXor, ?sclShl, ?sclShr,
      ?sclSra, ?sclMin, ?sclMax, ?sclMinu, ?sclMaxu, ?sclMov, ?sclCmp, ?sclMovi, ?sclMovhi,
      ?add, ?sub, ?mul, ?fma, ?div, ?sqrt, ?min, ?max, ?abs, ?neg, ?cvt, ?vAnd, ?vOr, ?vXor⟩,
    ?vNot, ?shl, ?shr, ?mulhi, ?popc, ?clz, ?sel, ?cmp, ?red, ?vMov, ?movSv, ?movVs, ?laneid, ?idGet, ?timeGet, ?tickGet, ?nop,
    ?shflIdx, ?shflUp, ?shflDown, ?shflXor, ?voteAny, ?voteAll, ?voteUni, ?voteBallot, ?pAnd, ?pOr, ?pXor, ?pNot⟩
  case sclAdd => exact show RegistersOnly execSclAdd from registersOnly_of_scalarOp (fun _ _ _ => rfl) (by decide)
  case sclSub => exact show RegistersOnly execSclSub from registersOnly_of_scalarOp (fun _ _ _ => rfl) (by decide)
  case sclMul => exact show RegistersOnly execSclMul from registersOnly_of_scalarOp (fun _ _ _ => rfl) (by decide)
  case sclAnd => exact show RegistersOnly execSclAnd from registersOnly_of_scalarOp (fun _ _ _ => rfl) (by decide)
  case sclOr => exact show RegistersOnly execSclOr from registersOnly_of_scalarOp (fun _ _ _ => rfl) (by decide)
  case sclXor => exact show RegistersOnly execSclXor from registersOnly_of_scalarOp (fun _ _ _ => rfl) (by decide)
  case sclShl => exact show RegistersOnly execSclShl from registersOnly_of_scalarOp (fun _ _ _ => rfl) (by decide)
  case sclShr => exact show RegistersOnly execSclShr from registersOnly_of_scalarOp (fun _ _ _ => rfl) (by decide)
  case sclSra => exact show RegistersOnly execSclSra from registersOnly_of_scalarOp (fun _ _ _ => rfl) (by decide)
  case sclMin => exact show RegistersOnly execSclMin from registersOnly_of_scalarOp (fun _ _ _ => rfl) (by decide)
  case sclMax => exact show RegistersOnly execSclMax from registersOnly_of_scalarOp (fun _ _ _ => rfl) (by decide)
  case sclMinu => exact show RegistersOnly execSclMinu from registersOnly_of_scalarOp (fun _ _ _ => rfl) (by decide)
  case sclMaxu => exact show RegistersOnly execSclMaxu from registersOnly_of_scalarOp (fun _ _ _ => rfl) (by decide)
  case sclMov => exact show RegistersOnly execSclMov from registersOnly_of_scalarOp (fun _ _ _ => rfl) (by decide)
  case sclCmp => exact show RegistersOnly execSclCmp from registersOnly_sclCmp
  case sclMovi => exact show RegistersOnly execSclMovi from registersOnly_sclMovi
  case sclMovhi => exact show RegistersOnly execSclMovhi from registersOnly_sclMovhi
  case add => exact show RegistersOnly execAdd from registersOnly_of_vectorOp (fun _ _ _ => rfl) (by decide)
  case sub => exact show RegistersOnly execSub from registersOnly_of_vectorOp (fun _ _ _ => rfl) (by decide)
  case mul => exact show RegistersOnly execMul from registersOnly_of_vectorOp (fun _ _ _ => rfl) (by decide)
  case fma => exact show RegistersOnly execFma from registersOnly_of_vectorOp (fun _ _ _ => rfl) (by decide)
  case div => exact show RegistersOnly execDiv from registersOnly_of_vectorOp (fun _ _ _ => rfl) (by decide)
  case sqrt => exact show RegistersOnly execSqrt from registersOnly_of_vectorOp (fun _ _ _ => rfl) (by decide)
  case min => exact show RegistersOnly execMin from registersOnly_of_vectorOp (fun _ _ _ => rfl) (by decide)
  case max => exact show RegistersOnly execMax from registersOnly_of_vectorOp (fun _ _ _ => rfl) (by decide)
  case abs => exact show RegistersOnly execAbs from registersOnly_of_vectorOp (fun _ _ _ => rfl) (by decide)
  case neg => exact show RegistersOnly execNeg from registersOnly_of_vectorOp (fun _ _ _ => rfl) (by decide)
  case cvt => exact show RegistersOnly execCvt from registersOnly_cvt
  case vAnd => exact show RegistersOnly execVAnd from registersOnly_of_vectorOp (fun _ _ _ => rfl) (by decide)
  case vOr => exact show RegistersOnly execVOr from registersOnly_of_vectorOp (fun _ _ _ => rfl) (by decide)
  case vXor => exact show RegistersOnly execVXor from registersOnly_of_vectorOp (fun _ _ _ => rfl) (by decide)
  case vNot => exact show RegistersOnly execVNot from registersOnly_of_vectorOp (fun _ _ _ => rfl) (by decide)
  case shl => exact show RegistersOnly execShl from registersOnly_of_vectorOp (fun _ _ _ => rfl) (by decide)
  case shr => exact show RegistersOnly execShr from registersOnly_of_vectorOp (fun _ _ _ => rfl) (by decide)
  case mulhi => exact show RegistersOnly execMulhi from registersOnly_of_vectorOp (fun _ _ _ => rfl) (by decide)
  case popc => exact show RegistersOnly execPopc from registersOnly_of_vectorOp (fun _ _ _ => rfl) (by decide)
  case clz => exact show RegistersOnly execClz from registersOnly_of_vectorOp (fun _ _ _ => rfl) (by decide)
  case sel => exact show RegistersOnly execSel from registersOnly_of_vectorOp (fun _ _ _ => rfl) (by decide)
  case cmp => exact show RegistersOnly execCmp from registersOnly_cmp
  case red => exact show RegistersOnly execRed from registersOnly_of_vectorOp (fun _ _ _ => rfl) (by decide)
  case vMov => exact show RegistersOnly execVMov from registersOnly_of_vectorOp (fun _ _ _ => rfl) (by decide)
  case movSv => exact show RegistersOnly execMovSv from registersOnly_of_vectorOp (fun _ _ _ => rfl) (by decide)
  case movVs => exact show RegistersOnly execMovVs from registersOnly_movVs
  case laneid => exact show RegistersOnly execLaneid from registersOnly_of_vectorOp (fun _ _ _ => rfl) (by decide)
  case idGet => exact show RegistersOnly execIdGet from registersOnly_of_beyond (fun _ _ _ => rfl) (by decide) fun _ _ _ => rfl
  case timeGet => exact show RegistersOnly execTimeGet from registersOnly_of_beyond (fun _ _ _ => rfl) (by decide) fun _ _ _ => rfl
  case tickGet => exact show RegistersOnly execTickGet from registersOnly_of_beyond (fun _ _ _ => rfl) (by decide) fun _ _ _ => rfl
  case nop => exact show RegistersOnly execNop from registersOnly_of_beyond (fun _ _ _ => rfl) (by decide) fun _ _ _ => rfl
  case shflIdx => exact show RegistersOnly execShflIdx from registersOnly_shuffle (fun _ _ _ => rfl) (by decide)
  case shflUp => exact show RegistersOnly execShflUp from registersOnly_shuffle (fun _ _ _ => rfl) (by decide)
  case shflDown => exact show RegistersOnly execShflDown from registersOnly_shuffle (fun _ _ _ => rfl) (by decide)
  case shflXor => exact show RegistersOnly execShflXor from registersOnly_shuffle (fun _ _ _ => rfl) (by decide)
  case voteAny => exact show RegistersOnly execVoteAny from registersOnly_vote (fun _ _ _ => rfl) (by decide)
  case voteAll => exact show RegistersOnly execVoteAll from registersOnly_vote (fun _ _ _ => rfl) (by decide)
  case voteUni => exact show RegistersOnly execVoteUni from registersOnly_vote (fun _ _ _ => rfl) (by decide)
  case voteBallot => exact show RegistersOnly execVoteBallot from registersOnly_of_beyond (fun _ _ _ => rfl) (by decide) fun _ _ _ => rfl
  case pAnd => exact show RegistersOnly execPAnd from registersOnly_predOp (fun _ _ _ => rfl) (by decide)
  case pOr => exact show RegistersOnly execPOr from registersOnly_predOp (fun _ _ _ => rfl) (by decide)
  case pXor => exact show RegistersOnly execPXor from registersOnly_predOp (fun _ _ _ => rfl) (by decide)
  case pNot => exact show RegistersOnly execPNot from registersOnly_predOp (fun _ _ _ => rfl) (by decide)

/-! ### What is left of the state -/

/-- All that such an instruction leaves of the state, but launches and turns. -/
structure RegisterFrame (s t : State) (h : Here) : Prop where
  mem : t.mem = { s.mem with waitingReq := t.mem.waitingReq, missInput := t.mem.missInput }
  waiting : ∀ x ∈ t.mem.waitingReq, x ∈ s.mem.waitingReq
  missing : ∀ x ∈ t.mem.missInput, x ∈ s.mem.missInput
  stores : t.stores = s.stores
  slices : t.slices = s.slices
  net : t.net = s.net
  chans : t.chans = s.chans
  cores : t.cores = s.cores
  locks : t.locks = s.locks
  objects : ∀ k, k ≠ Obj.issued h.l.slice → t.getObj k = s.getObj k

theorem registerFrame_served (s : State) (h : Here) (a : Asker) : RegisterFrame s (served s a) h := by
  simp only [served]
  split_ifs
  · exact ⟨rfl, fun _ mem => mem, fun _ mem => mem, rfl, rfl, rfl, rfl, rfl, rfl, fun _ _ => rfl⟩
  · exact ⟨rfl, fun _ mem => (List.mem_filter.1 mem).1, fun _ mem => (List.mem_filter.1 mem).1, rfl, rfl, rfl, rfl, rfl, rfl, fun _ _ => rfl⟩

theorem registerFrame_issued (s : State) (h : Here) : RegisterFrame s (issued s h) h := by
  have left := registerFrame_served (passTurn s h) h (askOf h)
  exact { left with objects := fun k other => (State.getObj_addObj_ne 1 other.symm).trans (left.objects k other) }

theorem gangsOf_served (s : State) (a : Asker) : gangsOf (served s a) = gangsOf s := by
  simp only [served]
  split_ifs
  · rfl
  · simp only [gangsOf, settleFrozen, List.map_map]
    refine List.map_congr_left fun l _ => ?_
    simp only [Function.comp_apply]
    split
    · split_ifs <;> rfl
    · rfl

/-- A change of a launch that keeps its number and its gangs. -/
theorem gangsOf_updLaunch {f : Launch → Launch} (same : ∀ l, ((f l).ctx, (f l).live) = (l.ctx, l.live)) (s : State) (c : Nat) :
    gangsOf (updLaunch s c f) = gangsOf s := by
  simp only [gangsOf, updLaunch, mapIf, List.map_map]
  refine List.map_congr_left fun l _ => ?_
  simp only [Function.comp_apply]
  split_ifs
  · exact same l
  · rfl

theorem gangsOf_issued (s : State) (h : Here) : gangsOf (issued s h) = gangsOf s :=
  (gangsOf_updLaunch (by intro; rfl) _ _).trans (gangsOf_served (passTurn s h) _)

theorem groupAt_congr (same : gangsOf t = gangsOf s) (r : GroupRef) : groupAt t r = groupAt s r := by
  rw [groupAt_eq, groupAt_eq, gangNow_congr same]

theorem findGroup_of_here (found : here? s g = some h) : findGroup h.g g.group = some h.t := by
  unfold here? at found
  split at found
  · cases found
  · split at found
    · cases found
    · split at found
      · cases found
      · next group =>
        obtain ⟨p, -, rfl⟩ := Option.map_eq_some_iff.1 found
        exact group

theorem groupAt_of_here (found : here? s g = some h) : groupAt s g = some h.t := by
  rw [groupAt_eq, gangNow_of_here found, Option.bind_some, findGroup_of_here found]

theorem idx_of_here (found : here? s g = some h) : h.t.idx = g.group := by simpa using List.find?_some (findGroup_of_here found)

theorem registersOf_of_kept {t u : Option Group} (same : t.map kept = u.map kept) : t.map registersOf = u.map registersOf := by
  have part : registersOf = (fun k => (k.2.2.1, k.2.2.2.1, k.2.2.2.2)) ∘ kept := rfl
  rw [part, ← Option.map_map, ← Option.map_map, same]

/-- The frame of a retirement to a group whose registers are `u`'s. -/
theorem retire_frame {u : Group} (found : here? s g = some h) (mask : h.p.mask ≠ 0) (idx : u.idx = h.t.idx) :
    RegisterFrame s (retire s g h u) h ∧ ∀ r, (groupAt (retire s g h u) r).map kept = if r = g then some (kept u) else (groupAt s r).map kept := by
  have lanes : HasLanes (settled { u with cur := some { h.p with pc := h.p.pc + 8 } }) := hasLanes_settled (.inl ⟨_, rfl, mask⟩)
  have regs : kept (settled { u with cur := some { h.p with pc := h.p.pc + 8 } }) = kept u := kept_settled _
  refine ⟨?_, fun r => ?_⟩
  · have left := registerFrame_issued s h
    rw [retire, putBack_of_hasLanes lanes]
    exact ⟨left.mem, left.waiting, left.missing, left.stores, left.slices, left.net, left.chans, left.cores, left.locks, left.objects⟩
  · rw [retire, groupAt_putBack lanes ((congrArg Prod.fst regs).trans (idx.trans (idx_of_here found))), groupAt_congr (gangsOf_issued s h), regs]
    split_ifs with own
    · rw [own, groupAt_of_here found]
      rfl
    · rfl

theorem fault_frame (c : Nat) (lanes : LaneMask) (addr info : Word64) :
    RegisterFrame s (faulted s h (groupFault h c lanes addr info)) h ∧ ∀ r, groupAt (faulted s h (groupFault h c lanes addr info)) r = groupAt s r := by
  refine ⟨⟨rfl, fun _ mem => mem, fun _ mem => mem, rfl, rfl, rfl, rfl, rfl, rfl, fun _ _ => rfl⟩, groupAt_congr ?_⟩
  refine (gangsOf_updLaunch (fun l => ?_) _ _).trans rfl
  split_ifs <;> rfl

/-- The group whose registers are those that the instruction leaves. -/
theorem writesD_of_kept {u v : Group} (same : kept v = kept u) (writes : WritesD h w u) :
    (fOpcode w ≤ 0x1E → fOpcode w ≠ 0x0E → v.vregs = h.t.vregs ∧ v.preds = h.t.preds ∧ ∀ r, r < 64 → r ≠ fD w % 64 → v.sreg r = h.t.sreg r) ∧
    (0x20 ≤ fOpcode w → fOpcode w ≤ 0x57 → fOpcode w ≠ 0x35 → fOpcode w ≠ 0x39 → v.sregs = h.t.sregs ∧ v.preds = h.t.preds ∧
      ∀ r j, j < 32 → (j ∉ acting h w ∨ r < fD w ∨ fD w + vectorRegs w ≤ r) → v.vreg r j = h.t.vreg r j) ∧
    (fOpcode w = 0x0E → v.vregs = h.t.vregs ∧ v.sregs = h.t.sregs ∧ ∀ r, r < 8 → r ≠ fD w % 8 → v.preg r = h.t.preg r) := by
  obtain ⟨-, scalar, vector, pred⟩ := writes
  simp only [kept, Prod.mk.injEq] at same
  simpa only [Group.sreg, Group.vreg, Group.preg, same] using ⟨scalar, vector, pred⟩

/-- Settles O11: such an instruction retires with a write of its registers, or faults. -/
theorem registerInstructionsFrame : Obligations.RegisterInstructionsFrame := by
  unfold Obligations.RegisterInstructionsFrame
  intro s t g w h i mem run mask done
  have found := run.1
  obtain ⟨a, act, ends⟩ := registersOnly_of_mem i mem s t g w h run done
  cases act with
  | fault c lanes addr info =>
    cases ends
    obtain ⟨⟨mem, waiting, missing, stores, slices, net, chans, cores, locks, objects⟩, groups⟩ := fault_frame (s := s) (h := h) c lanes addr info
    refine ⟨mem, waiting, missing, stores, slices, net, chans, cores, locks, objects, fun r _ => congrArg _ (groups r), h.t,
      (groups g).trans (groupAt_of_here found), writesD_of_kept rfl (writesD_nothing h w)⟩
  | @step u writes =>
    cases ends
    obtain ⟨⟨mem, waiting, missing, stores, slices, net, chans, cores, locks, objects⟩, groups⟩ :=
      retire_frame found mask writes.idx
    obtain ⟨v, at_, same⟩ := Option.map_eq_some_iff.1 ((groups g).trans (if_pos rfl))
    exact ⟨mem, waiting, missing, stores, slices, net, chans, cores, locks, objects,
      fun r other => registersOf_of_kept ((groups r).trans (if_neg other)), v, at_, writesD_of_kept same writes⟩

end Sys2Proof.Machine
end

section
/-! SUPPORT. Proofs of acquire loads (R162, R165, R169, R174): an access by way of an agent leaves every L1, and a load whose core's L1 has just
dropped the addressed lines reads each sector as it stands. -/

namespace Sys2Proof.Machine

variable {s t : State}

/-! ### An access by way of an agent leaves every L1 -/

@[simp] theorem l1_invalidateDie (s : State) (wr : Option Nat) (d : Nat) (l : LineKey) : (invalidateDie s wr d l).mem.l1 = s.mem.l1 := by
  rw [invalidateDie_eq]

@[simp] theorem l1_dirtyHome (s : State) (d x : Nat) : (dirtyHome s d x).mem.l1 = s.mem.l1 := by rw [dirtyHome_eq]

@[simp] theorem l1_snoopChip (s : State) (p : Nat) (h : HeldLine) (w : Bool) : (snoopChip s p h w).mem.l1 = s.mem.l1 := by
  simp only [snoopChip]
  split_ifs <;> rfl

@[simp] theorem l1_dropCopy (s : State) (wr : Option Nat) (a : Nat) (l : LineKey) : (dropCopy s wr a l).mem.l1 = s.mem.l1 := by
  simp only [dropCopy]
  split_ifs
  · rfl
  · rw [l1_invalidateDie]
    cases l with
    | dev x => exact l1_dirtyHome s a x
    | shr m x => rfl

theorem l1_of_llmRoom {n d x : Nat} (room : llmRoom s n d x = some t) : t.mem.l1 = s.mem.l1 := by
  simp only [llmRoom] at room
  split at room
  · cases room
  split at room
  · cases room; rfl
  split at room
  · cases room
  split at room
  · cases room; rfl
  split at room
  · split at room
    · cases room; exact l1_dropCopy s none d _
    · cases room; rfl
  · cases room; rfl

@[simp] theorem l1_llmTouch (s : State) (n d x : Nat) (is : List Nat) (w : Bool) (f : Fill) : (llmTouch s n d x is w f).mem.l1 = s.mem.l1 := by
  simp only [llmTouch]
  have counted : (if llmHit s d x is = true then s.addObj (Obj.llmHits n) 1 else s.addObj (Obj.llmMisses n) 1).mem = s.mem := by
    split_ifs <;> rfl
  generalize (if llmHit s d x is = true then s.addObj (Obj.llmHits n) 1 else s.addObj (Obj.llmMisses n) 1) = u at counted ⊢
  rw [← counted]
  split
  · rfl
  split
  · rfl
  split
  · rfl
  · next room =>
    have kept := l1_of_llmRoom room
    exact kept

@[simp] theorem l1_evictDir (s : State) (e : DirEnt) : (evictDir s e).mem.l1 = s.mem.l1 := by
  have copies (s : State) : ((agentsOf e).foldl (fun s a => dropCopy s none a e.line) s).mem.l1 = s.mem.l1 :=
    foldl_leaves (·.mem.l1) (fun s a => l1_dropCopy s none a e.line) _ s
  have snoops (hs : List (Nat × HeldLine)) (s : State) : (hs.foldl (fun s p => snoopChip s p.1 p.2 true) s).mem.l1 = s.mem.l1 :=
    foldl_leaves (·.mem.l1) (fun s p => l1_snoopChip s p.1 p.2 true) hs s
  have counted (b : Bool) (s : State) (k : Nat) : (if b = true then s.addObj k 1 else s).mem.l1 = s.mem.l1 := by cases b <;> rfl
  simp only [evictDir]
  split
  · exact (copies _).trans (counted _ _ _)
  · exact (snoops _ _).trans ((copies _).trans (counted _ _ _))

theorem l1_of_dirRoom {n : Nat} {l : LineKey} {r : Except State State} (room : dirRoom s n l = r) : (roomState r).mem.l1 = s.mem.l1 := by
  subst room
  simp only [dirRoom]
  split
  · rfl
  split
  · rfl
  · split <;> exact l1_evictDir s _

@[simp] theorem l1_dirHomeRead (s : State) (l : LineKey) : (dirHomeRead s l).mem.l1 = s.mem.l1 := by
  simp only [dirHomeRead]
  split
  · split
    · cases l with
      | dev x => exact l1_dirtyHome s _ x
      | shr m x => rfl
    · rfl
  · rfl

@[simp] theorem l1_dirRead (s : State) (n d : Nat) (l : LineKey) : (dirRead s n d l).mem.l1 = s.mem.l1 := by
  simp only [dirRead]
  split
  · split <;> exact l1_of_dirRoom ‹_›
  · split
    · rfl
    · split <;> exact l1_dirHomeRead s l

@[simp] theorem l1_readVia (s : State) (n d : Nat) (l : LineKey) (is : List Nat) (f : Fill) : (readVia s n d l is f).mem.l1 = s.mem.l1 := by
  cases l with
  | dev x => simp only [readVia]; split_ifs <;> simp
  | shr m x => simp only [readVia]; split_ifs <;> simp

/-! ### What a load of sectors leaves, and what it reads -/

/-- What the value of a sector, and a core's view of it, depend on: the bytes of memory and of shared scratch, the discarded sectors and the
stores on their way. -/
def sectStock (s : State) : List Host.Cell × List DeadSector × List Slice × List StoreEnt := (s.mem.bytes, s.mem.dead, s.slices, s.stores)

theorem sectStock_of_offCache (same : offCache t = offCache s) : sectStock t = sectStock s :=
  show sectStock (offCache t) = sectStock (offCache s) from congrArg sectStock same

theorem latest_of_sectStock (same : sectStock t = sectStock s) (k : SectKey) : latest t k = latest s k := by
  have bytes : t.mem.bytes = s.mem.bytes := congrArg Prod.fst same
  have slices : t.slices = s.slices := congrArg (·.2.2.1) same
  simp only [latest, memOf, bytes, State.slice, slices]

theorem deadOf_of_sectStock (same : sectStock t = sectStock s) (k : SectKey) : deadOf t k = deadOf s k := by
  simp only [deadOf, show t.mem.dead = s.mem.dead from congrArg (·.2.1) same]

theorem storesOf_of_sectStock (same : sectStock t = sectStock s) (c : Nat) : storesOf t c = storesOf s c := by
  simp only [storesOf, show t.stores = s.stores from congrArg (·.2.2.2) same]

/-- Every copy that a core's L1 holds of one of some sectors is of the sector as it stands. -/
def FreshL1 (s : State) (core : Nat) (ks : List SectKey) : Prop :=
  ∀ x ∈ s.mem.l1, x.core = core → ∀ p ∈ x.sectors, (⟨x.line, p.1⟩ : SectKey) ∈ ks → p.2 = latest s ⟨x.line, p.1⟩

section Load

variable {core n : Nat} {ks : List SectKey} {k : SectKey}

theorem FreshL1.mono (fresh : FreshL1 s core ks) (fewer : ∀ x ∈ t.mem.l1, x ∈ s.mem.l1) (same : sectStock t = sectStock s) :
    FreshL1 t core ks := fun x mem own p part listed =>
  (fresh x (fewer x mem) own p part listed).trans (latest_of_sectStock same _).symm

theorem FreshL1.l1Has (fresh : FreshL1 s core ks) (listed : k ∈ ks) {v : Sector} (held : l1Has s core k = some v) : v = latest s k := by
  obtain ⟨line, i⟩ := k
  simp only [Machine.l1Has, Option.map_eq_some_iff, Option.bind_eq_some_iff] at held
  obtain ⟨⟨j, w⟩, ⟨x, line_, sector⟩, rfl⟩ := held
  have at_ := List.find?_some line_
  simp only [Bool.and_eq_true, beq_iff_eq] at at_
  obtain ⟨own, rfl⟩ := at_
  obtain rfl : j = i := by simpa using List.find?_some sector
  exact fresh x (List.mem_of_find?_eq_some line_) own _ (List.mem_of_find?_eq_some sector) listed

theorem mem_of_mem_dropLast {α : Type} {p : α → Bool} {l : List α} {x : α} (mem : x ∈ dropLast p l) : x ∈ l := by
  simp only [dropLast] at mem
  split at mem
  · exact mem
  · exact List.mem_of_mem_eraseIdx mem

theorem ldirAdd_leaves (s : State) (core n : Nat) (l : LineKey) :
    (ldirAdd s core n l).mem.l1 = s.mem.l1 ∧ sectStock (ldirAdd s core n l) = sectStock s := by
  simp only [ldirAdd]
  split
  · exact ⟨rfl, rfl⟩
  split
  · exact ⟨rfl, rfl⟩
  split
  · exact ⟨l1_invalidateDie _ _ _ _, sectStock_of_offCache (offCache_invalidateDie _ _ _ _)⟩
  · exact ⟨rfl, rfl⟩

theorem sectStock_l1Insert (s : State) (x : L1Line) (b : Bool) : sectStock (l1Insert s x b) = sectStock s :=
  (ldirAdd_leaves s x.core x.slice x.line).2

/-- An L1 that a line enters holds that line and what it held before. -/
theorem mem_l1Insert {x y : L1Line} {b : Bool} (mem : y ∈ (l1Insert s x b).mem.l1) : y = x ∨ y ∈ s.mem.l1 := by
  have rest {l : List L1Line} (mem : y ∈ if 8 ≤ (l.filter fun z => z.core == x.core && l1Set z.line == l1Set x.line).length
      then dropLast (fun z => z.core == x.core && l1Set z.line == l1Set x.line) l else l) : y ∈ l := by
    split at mem
    · exact mem_of_mem_dropLast mem
    · exact mem
  simp only [l1Insert] at mem
  split at mem
  · rcases List.mem_append.1 mem with mem | mem
    · exact .inr (List.mem_of_mem_filter (rest mem))
    · exact .inl (List.mem_singleton.1 mem)
  · rcases List.mem_cons.1 mem with rfl | mem
    · exact .inl rfl
    · exact .inr (List.mem_of_mem_filter (rest mem))

theorem sectStock_l1Keep (s : State) (core n : Nat) (k : SectKey) (v : Sector) (b : Bool) : sectStock (l1Keep s core n k v b) = sectStock s := by
  simp only [l1Keep]
  split
  · rfl
  · exact sectStock_l1Insert _ _ _

/-- A sector kept as it stands leaves the L1's copies fresh. -/
theorem FreshL1.l1Keep (fresh : FreshL1 s core ks) (b : Bool) : FreshL1 (l1Keep s core n k (latest s k) b) core ks := by
  intro x mem own p part listed
  rw [latest_of_sectStock (sectStock_l1Keep s core n k _ b)]
  simp only [Machine.l1Keep] at mem
  split at mem
  · exact fresh x mem own p part listed
  rcases mem_l1Insert mem with rfl | mem
  · rcases List.mem_cons.1 part with rfl | part
    · rfl
    · have part := List.mem_of_mem_filter part
      cases held : s.mem.l1.find? fun x => x.core == core && x.line == k.line with
      | none => simp [held] at part
      | some y =>
        have at_ := List.find?_some held
        simp only [Bool.and_eq_true, beq_iff_eq] at at_
        simp only [held, Option.map_some, Option.getD_some] at part
        have same := fresh y (List.mem_of_find?_eq_some held) at_.1 p part
        rw [at_.2] at same
        exact same listed
  · exact fresh x mem own p part listed

/-- One sector by way of a fresh L1: the sector as it stands; nothing that a sector depends on changes, and the L1 stays fresh. -/
theorem l1Sect_of_fresh (fresh : FreshL1 s core ks) (listed : k ∈ ks) (alive : deadOf s k = none) (byp : Bool) :
    (l1Sect s core n byp k).2 = latest s k ∧ sectStock (l1Sect s core n byp k).1 = sectStock s ∧ FreshL1 (l1Sect s core n byp k).1 core ks := by
  simp only [l1Sect]
  split
  · next v held =>
    refine ⟨fresh.l1Has listed held, rfl, fresh.mono (fun x mem => ?_) rfl⟩
    rcases List.mem_append.1 mem with mem | mem <;> exact List.mem_of_mem_filter mem
  · generalize reached : readVia s n (core / 156) k.line [k.i] _ = u
    have same : sectStock u = sectStock s := by rw [← reached]; exact sectStock_of_offCache (offCache_readVia _ _ _ _ _ _)
    have l1 : u.mem.l1 = s.mem.l1 := by rw [← reached]; exact l1_readVia _ _ _ _ _ _
    have still : FreshL1 u core ks := fresh.mono (fun x mem => l1 ▸ mem) same
    simp only [readSect_of_alive ((deadOf_of_sectStock same k).trans alive)]
    exact ⟨latest_of_sectStock same k, (sectStock_l1Keep _ _ _ _ _ _).trans same, still.l1Keep byp⟩

theorem overlay_of_none (none_ : storesOf s core = []) (k : SectKey) (v : Sector) : overlay s core k v = v := by
  simp only [overlay, none_, List.filter_nil, List.foldl_nil]

/-- A load of sectors by way of a fresh L1, with no store of the core on its way: each sector as it stands. -/
theorem loadSectsGo_of_fresh (fresh : FreshL1 s core ks) (alive : ∀ k ∈ ks, deadOf s k = none) (none_ : storesOf s core = [])
    (marks : List (LineKey × Bool)) {js : List SectKey} (part : ∀ k ∈ js, k ∈ ks) :
    (loadSectsGo core n marks js s).2 = js.map fun k => (k, latest s k) := by
  induction js generalizing s with
  | nil => rfl
  | cons k js ih =>
    obtain ⟨value, same, still⟩ := l1Sect_of_fresh (n := n) fresh (part k List.mem_cons_self) (alive k (part k List.mem_cons_self))
      (marks.any fun m => m == (k.line, true))
    have rest := ih still (fun k mem => (deadOf_of_sectStock same k).trans (alive k mem)) ((storesOf_of_sectStock same core).trans none_)
      fun k mem => part k (List.mem_cons_of_mem _ mem)
    simp only [loadSectsGo, rest, overlay_of_none ((storesOf_of_sectStock same core).trans none_), value, latest_of_sectStock same, List.map_cons]

theorem detectMiss_leaves (s : State) (core req : Nat) (l : LineKey) :
    (detectMiss s core req l).1.mem.l1 = s.mem.l1 ∧ sectStock (detectMiss s core req l).1 = sectStock s := by
  unfold detectMiss
  exact ⟨rfl, rfl⟩

/-- The detection of streams leaves what the L1s hold and what the sectors depend on. -/
theorem detectLines_leaves (core req : Nat) (ks : List SectKey) (s : State) :
    ((detectLines core req ks s).1.mem.l1, sectStock (detectLines core req ks s).1) = (s.mem.l1, sectStock s) := by
  have line (l : LineKey) (ks : List SectKey) (s : State) :
      ((detectLine core req l ks s).1.mem.l1, sectStock (detectLine core req l ks s).1) = (s.mem.l1, sectStock s) := by
    simp only [detectLine]
    split
    · rfl
    · exact Prod.ext (detectMiss_leaves s core req l).1 (detectMiss_leaves s core req l).2
  simp only [detectLines]
  generalize (ks.map (·.line)).foldl (fun ls l => addNew l ls) [] = ls
  generalize ([] : List (LineKey × Bool)) = marks
  induction ls generalizing s marks with
  | nil => rfl
  | cons l ls ih => exact (ih _ _).trans (line l _ s)

/-- The L1 copies of the lines of some sectors dropped: no copy of one of the sectors is left, and nothing that a sector depends on has changed. -/
theorem freshL1_dropL1 (core : Nat) (ks : List SectKey) (s : State) :
    FreshL1 (ks.foldl (fun s k => dropL1 s core k.line) s) core ks ∧
      sectStock (ks.foldl (fun s k => dropL1 s core k.line) s) = sectStock s := by
  have dropped : ∀ (ks : List SectKey) (s : State), ∀ x ∈ (ks.foldl (fun s k => dropL1 s core k.line) s).mem.l1,
      x ∈ s.mem.l1 ∧ (x.core = core → ∀ k ∈ ks, x.line ≠ k.line) := by
    intro ks
    induction ks with
    | nil => exact fun s x mem => ⟨mem, fun _ k none_ => nomatch none_⟩
    | cons k ks ih =>
      intro s x mem
      obtain ⟨before, others⟩ := ih (dropL1 s core k.line) x mem
      simp only [dropL1, List.mem_filter, Bool.not_eq_true', Bool.and_eq_false_imp, beq_iff_eq, beq_eq_false_iff_ne] at before
      refine ⟨before.1, fun own j listed => ?_⟩
      rcases List.mem_cons.1 listed with rfl | listed
      · exact before.2 own
      · exact others own j listed
  exact ⟨fun x mem own p _ listed => absurd rfl ((dropped ks s x mem).2 own _ listed), foldl_leaves sectStock (f := fun s k => dropL1 s core k.line) (fun _ _ => rfl) ks s⟩

end Load

/-! ### The statement -/

theorem mem_foldl_addNew {α : Type} [DecidableEq α] {x : α} (xs acc : List α) :
    x ∈ xs.foldl (fun acc y => addNew y acc) acc ↔ x ∈ acc ∨ x ∈ xs := by
  have one (y : α) (l : List α) : x ∈ addNew y l ↔ x ∈ l ∨ x = y := by
    simp only [addNew]
    split
    · next mem => exact ⟨.inl, fun h => h.elim id fun same => same ▸ mem⟩
    · simp
  induction xs generalizing acc with
  | nil => simp
  | cons y xs ih => exact (ih (addNew y acc)).trans (by rw [one, List.mem_cons, or_assoc])

/-- Bytes out of sectors that were each read as it stands. -/
theorem fromSects_latest {ks : List SectKey} {k : SectKey} (listed : k ∈ ks) {a n : Nat} (within : a % 64 + n ≤ 64) :
    fromSects (ks.map fun k => (k, latest s k)) k a n = leNat (cellsGet (memOf s k.line) (sectBase k + a % 64) n) := by
  have found : (ks.map fun k => (k, latest s k)).find? (fun p => p.1 == k) = some (k, latest s k) := by
    induction ks with
    | nil => cases listed
    | cons j ks ih =>
      by_cases same : j = k
      · simp [same]
      · simpa [same] using ih ((List.mem_cons.1 listed).resolve_left (Ne.symm same))
  simp only [fromSects, found, sectGet_latest s k within]

/-- An access aligned to its size, which divides a sector's, stands within one sector. -/
theorem within_sector_of_aligned {a n : Nat} (aligned : a % n = 0) (divides : 64 % n = 0) : a % 64 + n ≤ 64 := by
  obtain ⟨q, hq⟩ := Nat.dvd_of_mod_eq_zero divides
  obtain ⟨r, hr⟩ : n ∣ a % 64 := (Nat.dvd_mod_iff (Nat.dvd_of_mod_eq_zero divides)).2 (Nat.dvd_of_mod_eq_zero aligned)
  have below : n * r < n * q := by omega
  have step := Nat.mul_le_mul_left n (Nat.succ_le_of_lt (Nat.lt_of_mul_lt_mul_left below))
  rw [Nat.mul_succ] at step
  omega

/-- Settles O16: once its L1 has dropped the addressed lines, a core with no store on its way reads each live sector as it stands. -/
theorem acquireLoadReadsLatest : Obligations.AcquireLoadReadsLatest := by
  unfold Obligations.AcquireLoadReadsLatest
  intro s h space n ls _ _ none_ located divides p lane k found
  simp only [cachedLoad, Bool.true_and, le_refl, decide_true, if_true, loadSects]
  generalize keys : (ls.map fun p => (match locate s h.l.slice space p.2 0 with
    | .ok k => k
    | .error _ => shrSect h.l.slice p.2 : SectKey)).foldl (fun acc k => addNew k acc) [] = ks
  have alive : ∀ k ∈ ks, deadOf s k = none := by
    intro j listed
    rw [← keys, mem_foldl_addNew] at listed
    obtain ⟨q, mem, rfl⟩ := List.mem_map.1 (listed.resolve_left List.not_mem_nil)
    obtain ⟨-, j, at_, live⟩ := located q mem
    simp only [at_, live]
  have listed : k ∈ ks := by
    rw [← keys, mem_foldl_addNew]
    exact .inr (List.mem_map.2 ⟨p, lane, by simp only [found]⟩)
  obtain ⟨fresh, dropped⟩ := freshL1_dropL1 h.g.core ks (applyInv s h.g.core)
  generalize ks.foldl (fun s k => dropL1 s h.g.core k.line) (applyInv s h.g.core) = u at fresh dropped ⊢
  have counted := detectLines_leaves h.g.core (h.t.quad * 8 + h.t.slot) ks u
  generalize detectLines h.g.core (h.t.quad * 8 + h.t.slot) ks u = v at counted ⊢
  have same : sectStock v.1 = sectStock s := (congrArg Prod.snd counted).trans dropped
  have l1 : v.1.mem.l1 = u.mem.l1 := congrArg Prod.fst counted
  have still : FreshL1 v.1 h.g.core ks := fresh.mono (fun x mem => l1 ▸ mem) (congrArg Prod.snd counted)
  simp only [found, loadSectsGo_of_fresh still (fun k mem => (deadOf_of_sectStock same k).trans (alive k mem))
    ((storesOf_of_sectStock same _).trans none_) v.2 fun _ mem => mem, latest_of_sectStock same]
  exact fromSects_latest listed (within_sector_of_aligned (located p lane).1 divides)

end Sys2Proof.Machine
end

section
/-! SUPPORT. Answers whose states are canonical (logs 1 and 4): for every kind of answer that an operation of the model may give, what it means that
each state in it has the canonical forms of dictionary and memory, and what follows for a state that has been taken out of one. -/

namespace Sys2Proof.Machine

variable {s t : State} {α β : Type}

/-! ### What a stop, an answer or an act keeps -/

/-- Why an access does not go through: the state of one that waits is canonical. -/
inductive CanonicalStop : Stop → Prop
  | cause {c : Nat} {i : Word64} : CanonicalStop (.cause c i)
  | wait {t : State} : Canonical t → CanonicalStop (.wait t)
  | absent : CanonicalStop .absent
  | any : CanonicalStop .any

theorem CanonicalStop.of_wait {e : Stop} (h : CanonicalStop e) (is : e = .wait t) : Canonical t := by
  cases h <;> cases is
  assumption

/-- A check of an access, which changes nothing where the access may go on. -/
inductive CanonicalCheck : Except Stop α → Prop
  | ok {a : α} : CanonicalCheck (.ok a)
  | error {e : Stop} : CanonicalStop e → CanonicalCheck (.error e)

theorem CanonicalCheck.of_error {r : Except Stop α} {e : Stop} (h : CanonicalCheck r) (is : r = .error e) : CanonicalStop e := by
  cases h <;> cases is
  assumption

theorem CanonicalCheck.of_wait {r : Except Stop α} (h : CanonicalCheck r) (is : r = .error (.wait t)) : Canonical t :=
  (h.of_error is).of_wait rfl

/-- A write that may stop. -/
inductive CanonicalWrite : Except Stop State → Prop
  | ok {t : State} : Canonical t → CanonicalWrite (.ok t)
  | error {e : Stop} : CanonicalStop e → CanonicalWrite (.error e)

theorem CanonicalWrite.of_ok {r : Except Stop State} (h : CanonicalWrite r) (is : r = .ok t) : Canonical t := by
  cases h <;> cases is
  assumption

theorem CanonicalWrite.of_error {r : Except Stop State} {e : Stop} (h : CanonicalWrite r) (is : r = .error e) : CanonicalStop e := by
  cases h <;> cases is
  assumption

theorem CanonicalWrite.of_wait {r : Except Stop State} (h : CanonicalWrite r) (is : r = .error (.wait t)) : Canonical t :=
  (h.of_error is).of_wait rfl

/-- A read, or a write that answers something, which may stop. -/
inductive CanonicalRead : Except Stop (State × β) → Prop
  | ok {t : State} {x : β} : Canonical t → CanonicalRead (.ok (t, x))
  | error {e : Stop} : CanonicalStop e → CanonicalRead (.error e)

theorem CanonicalRead.of_ok {r : Except Stop (State × β)} {x : β} (h : CanonicalRead r) (is : r = .ok (t, x)) : Canonical t := by
  cases h <;> cases is
  assumption

theorem CanonicalRead.of_error {r : Except Stop (State × β)} {e : Stop} (h : CanonicalRead r) (is : r = .error e) : CanonicalStop e := by
  cases h <;> cases is
  assumption

theorem CanonicalRead.of_wait {r : Except Stop (State × β)} (h : CanonicalRead r) (is : r = .error (.wait t)) : Canonical t :=
  (h.of_error is).of_wait rfl

/-- A state that there may be. -/
inductive CanonicalOpt : Option State → Prop
  | none : CanonicalOpt none
  | some {t : State} : Canonical t → CanonicalOpt (some t)

theorem CanonicalOpt.of_some {o : Option State} (h : CanonicalOpt o) (is : o = Option.some t) : Canonical t := by
  cases h <;> cases is
  assumption

/-- The same with something beside it. -/
inductive CanonicalOptPair : Option (State × β) → Prop
  | none : CanonicalOptPair none
  | some {t : State} {x : β} : Canonical t → CanonicalOptPair (some (t, x))

theorem CanonicalOptPair.of_some {o : Option (State × β)} {x : β} (h : CanonicalOptPair o) (is : o = Option.some (t, x)) : Canonical t := by
  cases h <;> cases is
  assumption

theorem CanonicalOptPair.of_some_pair {o : Option (State × β)} {p : State × β} (h : CanonicalOptPair o) (is : o = Option.some p) :
    Canonical p.1 := h.of_some is

/-- The outcome of a command. -/
inductive CanonicalRes : Res → Prop
  | next {t : State} : Canonical t → CanonicalRes (.next t)
  | fault {f : Fault} : CanonicalRes (.fault f)
  | refused {r : Refusal} : CanonicalRes (.refused r)

theorem CanonicalRes.of_next {r : Res} (h : CanonicalRes r) (is : r = .next t) : Canonical t := by
  cases h <;> cases is
  assumption

/-- What the body of an instruction asks for. -/
inductive CanonicalAct : Act → Prop
  | step {s : State} {g : Group} : Canonical s → CanonicalAct (.step s g)
  | jump {s : State} {g : Group} {a : Word64} : Canonical s → CanonicalAct (.jump s g a)
  | paths {s : State} {g : Group} : Canonical s → CanonicalAct (.paths s g)
  | wait {s : State} : Canonical s → CanonicalAct (.wait s)
  | fault {s : State} {c : Nat} {m : LaneMask} {a i : Word64} : Canonical s → CanonicalAct (.fault s c m a i)
  | absent : CanonicalAct .absent
  | any {s : State} : Canonical s → CanonicalAct (.any s)

/-- What the lanes' checks come to. -/
inductive CanonicalLanes : Lanes → Prop
  | ok : CanonicalLanes .ok
  | act {a : Act} : CanonicalAct a → CanonicalLanes (.act a)

theorem CanonicalLanes.of_act {x : Lanes} {a : Act} (h : CanonicalLanes x) (is : x = .act a) : CanonicalAct a := by
  cases h <;> cases is
  assumption

/-- An access at a window of a target. -/
inductive CanonicalServed : Served α → Prop
  | done {t : State} {x : α} : Canonical t → CanonicalServed (.done t x)
  | refused {t : State} : Canonical t → CanonicalServed (.refused t)
  | wait {t : State} : Canonical t → CanonicalServed (.wait t)

theorem CanonicalServed.of_done {r : Served α} {x : α} (h : CanonicalServed r) (is : r = .done t x) : Canonical t := by
  cases h <;> cases is
  assumption

theorem CanonicalServed.of_refused {r : Served α} (h : CanonicalServed r) (is : r = .refused t) : Canonical t := by
  cases h <;> cases is
  assumption

theorem CanonicalServed.of_wait {r : Served α} (h : CanonicalServed r) (is : r = .wait t) : Canonical t := by
  cases h <;> cases is
  assumption

/-- A read of system space. -/
inductive CanonicalGot : SysGot → Prop
  | got {t : State} {bs : List Byte} : Canonical t → CanonicalGot (.got t bs)
  | wait {t : State} : Canonical t → CanonicalGot (.wait t)
  | fault {t : State} {c : Nat} {i : Word64} : Canonical t → CanonicalGot (.fault t c i)

theorem CanonicalGot.of_got {r : SysGot} {bs : List Byte} (h : CanonicalGot r) (is : r = .got t bs) : Canonical t := by
  cases h <;> cases is
  assumption

theorem CanonicalGot.of_wait {r : SysGot} (h : CanonicalGot r) (is : r = .wait t) : Canonical t := by
  cases h <;> cases is
  assumption

theorem CanonicalGot.of_fault {r : SysGot} {c : Nat} {i : Word64} (h : CanonicalGot r) (is : r = .fault t c i) : Canonical t := by
  cases h <;> cases is
  assumption

/-- A piece of the stoker's work. -/
inductive CanonicalWork : Work α → Prop
  | done {t : State} {x : α} : Canonical t → CanonicalWork (.done t x)
  | wait {t : State} : Canonical t → CanonicalWork (.wait t)
  | fault {t : State} {c a : Nat} {i : Word64} : Canonical t → CanonicalWork (.fault t c a i)
  | absent : CanonicalWork .absent
  | any {t : State} : Canonical t → CanonicalWork (.any t)

theorem CanonicalWork.of_done {r : Work α} {x : α} (h : CanonicalWork r) (is : r = .done t x) : Canonical t := by
  cases h <;> cases is
  assumption

theorem CanonicalWork.of_wait {r : Work α} (h : CanonicalWork r) (is : r = .wait t) : Canonical t := by
  cases h <;> cases is
  assumption

theorem CanonicalWork.of_fault {r : Work α} {c a : Nat} {i : Word64} (h : CanonicalWork r) (is : r = .fault t c a i) : Canonical t := by
  cases h <;> cases is
  assumption

theorem CanonicalWork.of_any {r : Work α} (h : CanonicalWork r) (is : r = .any t) : Canonical t := by
  cases h <;> cases is
  assumption

/-- An entry of a matrix queue. -/
inductive CanonicalMat : MatWork → Prop
  | done {t : State} : Canonical t → CanonicalMat (.done t)
  | wait {t : State} : Canonical t → CanonicalMat (.wait t)
  | fault {c a : Nat} {i : Word64} : CanonicalMat (.fault c a i)
  | absent : CanonicalMat .absent
  | any : CanonicalMat .any

theorem CanonicalMat.of_done {r : MatWork} (h : CanonicalMat r) (is : r = .done t) : Canonical t := by
  cases h <;> cases is
  assumption

theorem CanonicalMat.of_wait {r : MatWork} (h : CanonicalMat r) (is : r = .wait t) : Canonical t := by
  cases h <;> cases is
  assumption

/-- An element of a command of the ember store. -/
inductive CanonicalElem : Elem → Prop
  | ok {t : State} : Canonical t → CanonicalElem (.ok t)
  | refused {t : State} : Canonical t → CanonicalElem (.refused t)
  | stop {e : Stop} : CanonicalStop e → CanonicalElem (.stop e)

theorem CanonicalElem.of_ok {r : Elem} (h : CanonicalElem r) (is : r = .ok t) : Canonical t := by
  cases h <;> cases is
  assumption

theorem CanonicalElem.of_refused {r : Elem} (h : CanonicalElem r) (is : r = .refused t) : Canonical t := by
  cases h <;> cases is
  assumption

theorem CanonicalElem.of_stop {r : Elem} {e : Stop} (h : CanonicalElem r) (is : r = .stop e) : CanonicalStop e := by
  cases h <;> cases is
  assumption

/-- An effect on an entry of a context map, which may be refused. -/
inductive CanonicalTry : Except Unit (State × β) → Prop
  | ok {t : State} {x : β} : Canonical t → CanonicalTry (.ok (t, x))
  | error {u : Unit} : CanonicalTry (.error u)

theorem CanonicalTry.of_ok {r : Except Unit (State × β)} {x : β} (h : CanonicalTry r) (is : r = .ok (t, x)) : Canonical t := by
  cases h <;> cases is
  assumption

/-- A request of a chiplet port. -/
inductive CanonicalPort : Except Halt State → Prop
  | ok {t : State} : Canonical t → CanonicalPort (.ok t)
  | wait {t : State} : Canonical t → CanonicalPort (.error (.wait t))
  | refused : CanonicalPort (.error .refused)
  | open_ : CanonicalPort (.error .open_)
  | absent : CanonicalPort (.error .absent)

theorem CanonicalPort.of_ok {r : Except Halt State} (h : CanonicalPort r) (is : r = .ok t) : Canonical t := by
  cases h <;> cases is
  assumption

theorem CanonicalPort.of_wait {r : Except Halt State} (h : CanonicalPort r) (is : r = .error (.wait t)) : Canonical t := by
  cases h <;> cases is
  assumption

/-! ### States taken out of an answer, chosen, or folded over a list -/

theorem Canonical.of_pair {p : State × β} {x : β} (h : Canonical p.1) (is : p = (t, x)) : Canonical t := by
  rw [is] at h
  exact h

theorem canonical_with_blobs {x : List (Nat × List Byte)} (hs : Canonical s) : Canonical { s with blobs := x } := canonical_of_eq hs rfl rfl
theorem canonical_with_cores {x : List Core} (hs : Canonical s) : Canonical { s with cores := x } := canonical_of_eq hs rfl rfl
theorem canonical_with_launches {x : List Launch} (hs : Canonical s) : Canonical { s with launches := x } := canonical_of_eq hs rfl rfl
theorem canonical_with_nextOrd {x : Nat} (hs : Canonical s) : Canonical { s with nextOrd := x } := canonical_of_eq hs rfl rfl
theorem canonical_with_turns {x : List (Nat × Nat)} (hs : Canonical s) : Canonical { s with turns := x } := canonical_of_eq hs rfl rfl
theorem canonical_with_stores {x : List StoreEnt} (hs : Canonical s) : Canonical { s with stores := x } := canonical_of_eq hs rfl rfl
theorem canonical_with_chans {x : List Chan} (hs : Canonical s) : Canonical { s with chans := x } := canonical_of_eq hs rfl rfl
theorem canonical_with_sopResults {x : List SopRes} (hs : Canonical s) : Canonical { s with sopResults := x } := canonical_of_eq hs rfl rfl
theorem canonical_with_locks {x : List LockSet} (hs : Canonical s) : Canonical { s with locks := x } := canonical_of_eq hs rfl rfl
theorem canonical_with_bank {x : Bank} (hs : Canonical s) : Canonical { s with bank := x } := canonical_of_eq hs rfl rfl
theorem canonical_with_granule {x : Nat} (hs : Canonical s) : Canonical { s with granule := x } := canonical_of_eq hs rfl rfl
theorem canonical_with_net {x : Net} (hs : Canonical s) : Canonical { s with net := x } := canonical_of_eq hs rfl rfl
theorem canonical_with_odp {x : OdProto} (hs : Canonical s) : Canonical { s with odp := x } := canonical_of_eq hs rfl rfl
theorem canonical_with_power {x : Power} (hs : Canonical s) : Canonical { s with power := x } := canonical_of_eq hs rfl rfl
theorem canonical_with_elec {x : Elec} (hs : Canonical s) : Canonical { s with elec := x } := canonical_of_eq hs rfl rfl
theorem canonical_with_chips {x : List Chiplet} (hs : Canonical s) : Canonical { s with chips := x } := canonical_of_eq hs rfl rfl
theorem canonical_with_boot {x : Boot} (hs : Canonical s) : Canonical { s with boot := x } := canonical_of_eq hs rfl rfl
theorem canonical_with_free {x : Nat} (hs : Canonical s) : Canonical { s with free := x } := canonical_of_eq hs rfl rfl
theorem canonical_with_pending {x : List Instr} (hs : Canonical s) : Canonical { s with pending := x } := canonical_of_eq hs rfl rfl
theorem canonical_with_mem {m : Mem} (hs : Canonical s) (hm : m.bytes = s.mem.bytes) : Canonical { s with mem := m } := canonical_of_eq hs rfl hm

theorem Keeps.canonical (hk : Keeps s t) (hs : Canonical s) : Canonical t := canonical_of_keeps hs hk

theorem canonical_ite {c : Prop} [Decidable c] (hs : Canonical s) (ht : Canonical t) : Canonical (if c then s else t) := by
  split
  · exact hs
  · exact ht

theorem canonicalCheck_ite {c : Prop} [Decidable c] {p q : Except Stop α} (hp : CanonicalCheck p) (hq : CanonicalCheck q) :
    CanonicalCheck (if c then p else q) := by
  split
  · exact hp
  · exact hq

theorem canonical_ite_fst {c : Prop} [Decidable c] {p q : State × β} (hp : Canonical p.1) (hq : Canonical q.1) :
    Canonical (if c then p else q).1 := by
  split
  · exact hp
  · exact hq

/-- A fold whose accumulator holds a state beside something else. -/
theorem canonical_foldl_fst {f : State × β → α → State × β} (hf : ∀ x a, Canonical x.1 → Canonical (f x a).1) (l : List α) {x : State × β}
    (hx : Canonical x.1) : Canonical (l.foldl f x).1 := by
  induction l generalizing x with
  | nil => exact hx
  | cons a l ih => exact ih (hf x a hx)

theorem canonical_foldl_pair {f : State × β → α → State × β} (hf : ∀ x a, Canonical x.1 → Canonical (f x a).1) (l : List α) {b : β}
    (hs : Canonical s) : Canonical (l.foldl f (s, b)).1 := canonical_foldl_fst hf l hs

theorem canonicalRes_foldl {f : Res → α → Res} (hf : ∀ r a, CanonicalRes r → CanonicalRes (f r a)) (l : List α) {r : Res} (hr : CanonicalRes r) :
    CanonicalRes (l.foldl f r) := by
  induction l generalizing r with
  | nil => exact hr
  | cons a l ih => exact ih (hf r a hr)

theorem canonical_getD {o : Option State} (ho : CanonicalOpt o) (hs : Canonical s) : Canonical (o.getD s) := by
  cases ho with
  | none => exact hs
  | some ht => exact ht

theorem canonicalOpt_map {f : α → State} (hf : ∀ a, Canonical (f a)) (o : Option α) : CanonicalOpt (o.map f) := by
  cases o with
  | none => exact .none
  | some a => exact .some (hf a)

theorem canonicalOpt_bind {f : α → Option State} (hf : ∀ a, CanonicalOpt (f a)) (o : Option α) : CanonicalOpt (o.bind f) := by
  cases o with
  | none => exact .none
  | some a => exact hf a

theorem canonicalOptPair_map {f : α → State × β} (hf : ∀ a, Canonical (f a).1) (o : Option α) : CanonicalOptPair (o.map f) := by
  cases o with
  | none => exact .none
  | some a => exact .some (hf a)

end Sys2Proof.Machine
end

section
/-! SUPPORT. Canonical forms kept by memory, caches and runs of bytes (R174, R185 to R199): one fact for each operation, in the order of the model. -/

namespace Sys2Proof.Machine

variable {s t : State}

/-! ### Named operations of the state (Ops) -/

theorem canonical_putBlob {k : Nat} {v : List Byte} (hs : Canonical s) : Canonical (s.putBlob k v) := canonical_with_blobs hs
theorem canonical_flushCounters (hs : Canonical s) : Canonical s.flushCounters := canonical_with_odp hs
theorem canonical_raiseHeld {i : Nat} (hs : Canonical s) : Canonical (s.raiseHeld i) := canonical_with_elec (canonical_setAlert hs _)
theorem canonical_endHeld {i : Nat} (hs : Canonical s) : Canonical (s.endHeld i) := canonical_with_elec hs
theorem canonical_setChan {x : Chan} (hs : Canonical s) : Canonical (s.setChan x) := canonical_with_chans hs
theorem canonical_setCore {x : Core} (hs : Canonical s) : Canonical (s.setCore x) := canonical_with_cores hs
theorem canonical_setLaunch {x : Launch} (hs : Canonical s) : Canonical (s.setLaunch x) := canonical_with_launches hs
theorem canonical_setLockSet {x : LockSet} (hs : Canonical s) : Canonical (s.setLockSet x) := canonical_with_locks hs
theorem canonical_setPort {x : Port} (hs : Canonical s) : Canonical (s.setPort x) := canonical_with_net hs
theorem canonical_setPath {x : PathCtx} (hs : Canonical s) : Canonical (s.setPath x) := canonical_with_net hs
theorem canonical_setQp {x : Qp} (hs : Canonical s) : Canonical (s.setQp x) := canonical_with_net hs
theorem canonical_setColl {x : Coll} (hs : Canonical s) : Canonical (s.setColl x) := canonical_with_net hs
theorem canonical_setChip {x : Chiplet} (hs : Canonical s) : Canonical (s.setChip x) := canonical_with_chips hs

theorem canonical_countTime (hs : Canonical s) : Canonical (countTime s) :=
  canonical_ite (canonical_addObj hs ..) (canonical_ite (canonical_with_net (canonical_addObj hs ..))
    (canonical_ite (canonical_with_net (canonical_addObj hs ..)) (canonical_with_net hs)))

theorem canonical_idle (hs : Canonical s) : Canonical (idle s) :=
  canonical_ite (canonical_countTime (canonical_ite hs (canonical_addObj hs ..))) (canonical_ite hs (canonical_addObj hs ..))

theorem canonicalRes_withSome {α : Type} {o : Option α} {what : String} {f : α → Res} (hs : Canonical s)
    (hf : ∀ x, CanonicalRes (f x)) : CanonicalRes (withSome s o what f) := by
  cases o with
  | none => exact .next hs
  | some x => exact hf x

theorem canonicalRes_onlyIf {ok : Bool} {x : String} {r : Res} (hs : Canonical s) (hr : CanonicalRes r) : CanonicalRes (onlyIf s ok x r) := by
  simp only [onlyIf]
  split
  · exact hr
  · exact .next hs

/-! ### Memory and translation (Mem) -/

theorem canonical_writeLookup {d : Nat} (hs : Canonical s) : Canonical (writeLookup s d) := by
  unfold writeLookup
  refine canonical_with_mem hs ?_
  simp only

theorem canonical_startDrain {key : Nat} (hs : Canonical s) : Canonical (startDrain s key) :=
  canonical_ite (canonical_putObj (canonical_useFree hs _) ..) (canonical_with_mem (canonical_putObj (canonical_useFree hs _) ..) rfl)

theorem canonical_endDrain {key : Nat} (hs : Canonical s) : Canonical (endDrain s key) := canonical_with_mem (canonical_putObj hs ..) rfl

theorem canonical_drainBursts (hs : Canonical s) : Canonical (drainBursts s) :=
  canonical_foldl (fun _ _ hs' => canonical_ite (canonical_endDrain (canonical_useFree hs' _)) (canonical_useFree hs' _)) _ hs

theorem canonicalCheck_translate {n va kind : Nat} : CanonicalCheck (translate s n va kind) := by
  simp only [translate]
  split
  · exact .error .cause
  split
  · exact .error .cause
  split
  · exact .error .cause
  · split <;> exact canonicalCheck_ite (canonicalCheck_ite .ok (.error .absent)) (.error .cause)

theorem canonicalCheck_imageGate {n va : Nat} (hs : Canonical s) : CanonicalCheck (imageGate s n va) :=
  canonicalCheck_ite .ok (canonicalCheck_ite .ok (canonicalCheck_ite .ok (.error (.wait (canonical_with_bank hs)))))

/-! ### Caches and directories (Cache) -/

theorem canonical_ldirAdd {core n : Nat} {l : LineKey} (hs : Canonical s) : Canonical (ldirAdd s core n l) := by
  simp only [ldirAdd]
  split
  · exact canonical_with_mem hs rfl
  refine canonical_with_mem (canonical_ite hs ?_) rfl
  split
  · exact (keeps_invalidateDie ..).canonical (canonical_addObj hs ..)
  · exact hs

theorem canonical_dropL1 {core : Nat} {l : LineKey} (hs : Canonical s) : Canonical (dropL1 s core l) := canonical_with_mem hs rfl
theorem canonical_applyInv {core : Nat} (hs : Canonical s) : Canonical (applyInv s core) := canonical_with_mem hs rfl

theorem canonical_l1Insert {x : L1Line} {bypass : Bool} (hs : Canonical s) : Canonical (l1Insert s x bypass) :=
  canonical_with_mem (canonical_ldirAdd hs) rfl

theorem canonical_detectHit {core req : Nat} (hs : Canonical s) : Canonical (detectHit s core req) := canonical_with_mem hs rfl
theorem canonical_detectMiss {core req : Nat} {l : LineKey} (hs : Canonical s) : Canonical (detectMiss s core req l).1 := canonical_with_mem hs rfl

theorem canonical_l1Keep {core n : Nat} {k : SectKey} {v : Sector} {bypass : Bool} (hs : Canonical s) : Canonical (l1Keep s core n k v bypass) :=
  canonical_ite hs (canonical_l1Insert hs)

theorem canonical_l1Front {core : Nat} {l : LineKey} (hs : Canonical s) : Canonical (l1Front s core l) := canonical_with_mem hs rfl

theorem canonical_detectLine {core req : Nat} {l : LineKey} {ks : List SectKey} (hs : Canonical s) : Canonical (detectLine core req l ks s).1 :=
  canonical_ite_fst (canonical_detectHit hs) (canonical_detectMiss hs)

theorem canonical_detectLines {core req : Nat} {ks : List SectKey} (hs : Canonical s) :
    Canonical (detectLines core req ks s).1 := by
  refine canonical_foldl_pair (fun _ _ hx => ?_) _ hs
  exact canonical_detectLine hx

theorem canonical_l1Sect {core n : Nat} {byp : Bool} {k : SectKey} (hs : Canonical s) : Canonical (l1Sect s core n byp k).1 := by
  simp only [l1Sect]
  split
  · exact canonical_l1Front hs
  · exact canonical_l1Keep (canonical_readSect ((keeps_readVia ..).canonical hs) _)

theorem canonical_homeSect {n : Nat} {k : SectKey} (hs : Canonical s) : Canonical (homeSect s n k).1 := canonical_homeSectAs hs ..
theorem canonical_settleFrozen (hs : Canonical s) : Canonical (settleFrozen s) := canonical_with_launches hs

theorem canonicalCheck_reach {k : SectKey} {write : Bool} {by_ : Asker} (hs : Canonical s) :
    CanonicalCheck (reach s k write by_) := by
  cases reached : reach s k write by_ with
  | ok _ => exact .ok
  | error e => cases e with
    | wait t => exact .error (.wait ((keeps_reach reached).canonical hs))
    | cause => exact .error .cause
    | absent => exact .error .absent
    | any => exact .error .any

theorem canonical_freePlaces (hs : Canonical s) : Canonical (freePlaces s) := canonical_ite hs (canonical_with_mem hs rfl)

/-! ### Runs of bytes, faults of launches and records (Store) -/

theorem canonicalCheck_locate {n space addr kind : Nat} : CanonicalCheck (locate s n space addr kind) := by
  simp only [locate]
  split
  · exact canonicalCheck_ite .ok (.error .cause)
  split
  · exact .ok
  · exact .error (canonicalCheck_translate.of_error ‹_›)

theorem canonicalCheck_readOk {m space addr : Nat} {by_ : Asker} (hs : Canonical s) : CanonicalCheck (readOk s m space addr by_) := by
  simp only [readOk]
  split
  · exact .error (canonicalCheck_locate.of_error ‹_›)
  split
  · exact .error .any
  split
  · exact .error ((canonicalCheck_reach hs).of_error ‹_›)
  · exact .ok

theorem canonicalRead_readRunGo {fill : Fill} {by_ : Asker} {m space n : Nat} {n1 n2 : Nat} (hs : Canonical s) :
    CanonicalRead (readRunGo fill by_ m space n s n1 n2) := by
  induction n generalizing s n1 n2 with
  | zero =>
    simp only [readRunGo]
    exact .ok hs
  | succ n ih =>
    simp only [readRunGo]
    split
    · exact .ok hs
    split
    · exact .error ((canonicalCheck_readOk hs).of_error ‹_›)
    split
    · exact .error ((ih (canonical_agentSect hs ..)).of_error ‹_›)
    · exact .ok ((ih (canonical_agentSect hs ..)).of_ok ‹_›)

theorem canonicalRead_readRunAs {fill : Fill} {by_ : Asker} {m space addr n : Nat} (hs : Canonical s) :
    CanonicalRead (readRunAs fill by_ s m space addr n) :=
  canonicalRead_readRunGo hs

theorem canonicalRead_readRun {m space addr n : Nat} (hs : Canonical s) : CanonicalRead (readRun s m space addr n) := canonicalRead_readRunAs hs

theorem canonicalCheck_writeOk {m space addr : Nat} {by_ : Asker} (hs : Canonical s) : CanonicalCheck (writeOk s m space addr by_) := by
  simp only [writeOk]
  split
  · exact .error (canonicalCheck_locate.of_error ‹_›)
  split
  · exact .error .any
  split
  · exact .error ((canonicalCheck_reach hs).of_error ‹_›)
  split
  · exact .ok
  split
  · exact .error ((canonicalCheck_imageGate hs).of_error ‹_›)
  · exact .ok

theorem canonical_writePiece {wr : Option Nat} {m space addr : Nat} {k : SectKey} {bs : List Byte} (hs : Canonical s) :
    Canonical (writePiece s wr m space addr k bs) :=
  canonical_writePieceAs hs ..

theorem canonical_loadSectsGo {core n : Nat} {marks : List (LineKey × Bool)} {l : List SectKey} (hs : Canonical s) :
    Canonical (loadSectsGo core n marks l s).1 := by
  induction l generalizing s with
  | nil =>
    simp only [loadSectsGo]
    exact hs
  | cons x l ih =>
    simp only [loadSectsGo]
    exact ih (canonical_l1Sect hs)

theorem canonical_loadSects {core n req : Nat} {ks : List SectKey} (hs : Canonical s) : Canonical (loadSects core n req ks s).1 :=
  canonical_loadSectsGo (canonical_detectLines hs)

theorem canonical_landOne {core i : Nat} (hs : Canonical s) : Canonical (landOne s core i).1 := by
  simp only [landOne]
  split
  · exact hs
  split
  · exact hs
  split
  · exact canonical_with_stores hs
  split
  · exact (canonicalCheck_reach hs).of_wait ‹_›
  · exact hs
  split
  · exact (canonicalCheck_ite .ok (canonicalCheck_imageGate hs)).of_wait ‹_›
  · exact hs
  · exact canonical_servedAt (canonical_foldl (fun _ _ hs' => canonical_writePiece hs') _ (canonical_with_stores hs)) ..

theorem canonical_landFirst {core n : Nat} (hs : Canonical s) : Canonical (landFirst core n s).1 := by
  induction n generalizing s with
  | zero =>
    simp only [landFirst]
    exact hs
  | succ n ih =>
    simp only [landFirst]
    split
    · exact ih ((canonical_landOne hs).of_pair ‹_›)
    · exact (canonical_landOne hs).of_pair ‹_›

theorem canonical_landAll {core : Nat} (hs : Canonical s) : Canonical (landAll s core).1 := canonical_landFirst hs

theorem canonical_landFor {core : Nat} {l : LineKey} (hs : Canonical s) : Canonical (landFor s core l).1 := by
  simp only [landFor]
  split
  · exact hs
  · exact canonical_landFirst hs

theorem canonical_landPick {core n : Nat} (hs : Canonical s) : Canonical (landPick core n s) := by
  induction n generalizing s with
  | zero =>
    simp only [landPick]
    exact hs
  | succ n ih =>
    simp only [landPick]
    exact canonical_ite hs (ih (canonical_landOne (canonical_useFree hs _)))

theorem canonical_landSome {core : Nat} (hs : Canonical s) : Canonical (landSome s core) :=
  canonical_ite hs (canonical_landPick (canonical_useFree hs _))

theorem canonical_landEvery (hs : Canonical s) : Canonical (landEvery s) := canonical_foldl (fun _ _ hs' => canonical_landAll hs') _ hs

theorem canonicalCheck_discardOk {m va : Nat} {by_ : Asker} (hs : Canonical s) : CanonicalCheck (discardOk s m va by_) := by
  simp only [discardOk]
  split
  · exact .error (canonicalCheck_locate.of_error ‹_›)
  split
  · exact .error .any
  split
  · split
    · exact .error (.wait hs)
    split
    · exact .error (.wait ((keeps_waitPlace ..).canonical hs))
    split
    · exact .error (.wait hs)
    split
    · exact .error ((canonicalCheck_imageGate hs).of_error ‹_›)
    · exact .ok
  split
  · exact .error (.wait hs)
  split
  · exact .error (.wait ((keeps_waitPlace ..).canonical hs))
  split
  · exact .error (.wait hs)
  split
  · exact .error ((canonicalCheck_imageGate hs).of_error ‹_›)
  · exact .ok

end Sys2Proof.Machine
end

section
/-! SUPPORT. Canonical forms kept by issue, other modules and the frame of an instruction (R76 to R89, R115, R118, R157, R312): one fact for each
operation, in the order of the model. -/

namespace Sys2Proof.Machine

variable {s t : State}

/-! ### Groups, paths and turns (Issue) -/

theorem canonical_startGang {l : Launch} {c : Nat} (hs : Canonical s) : Canonical (startGang s l c) :=
  canonical_applyInv (canonical_setLaunch (canonical_useFree (canonical_useFree hs _) _))

theorem canonical_placeGangs {ctx n : Nat} (hs : Canonical s) : Canonical (placeGangs ctx n s) := by
  induction n generalizing s with
  | zero =>
    simp only [placeGangs]
    exact hs
  | succ n ih =>
    simp only [placeGangs]
    split
    · exact hs
    · exact canonical_ite hs (canonical_ite (canonical_ite (ih (canonical_startGang hs)) hs)
        (canonical_ite hs (ih (canonical_startGang (canonical_useFree hs _)))))

theorem canonical_placeAll {ctx : Nat} (hs : Canonical s) : Canonical (placeAll s ctx) := by
  simp only [placeAll]
  split
  · exact hs
  · exact canonical_placeGangs hs

theorem canonical_placeSlice {n : Nat} (hs : Canonical s) : Canonical (placeSlice s n) := canonical_foldl (fun _ _ hs' => canonical_placeAll hs') _ hs
theorem canonical_updGang {ctx gang : Nat} {f : Gang → Gang} (hs : Canonical s) : Canonical (updGang s ctx gang f) := canonical_with_launches hs
theorem canonical_setGroup {r : GroupRef} {t : Group} (hs : Canonical s) : Canonical (setGroup s r t) := canonical_updGang hs
theorem canonical_updLaunch {ctx : Nat} {f : Launch → Launch} (hs : Canonical s) : Canonical (updLaunch s ctx f) := canonical_with_launches hs

theorem canonical_reapGangs {ctx : Nat} (hs : Canonical s) : Canonical (reapGangs s ctx) := by
  simp only [reapGangs]
  split
  · exact hs
  · exact canonical_placeSlice (canonical_placeAll (canonical_setLaunch hs))

theorem canonical_raiseFault {ctx core : Nat} {f : FaultInfo} (hs : Canonical s) : Canonical (raiseFault s ctx core f) := canonical_updLaunch hs

/-! ### Other modules and windows (Net) -/

theorem canonical_drainTx {q n : Nat} (hs : Canonical s) : Canonical (drainTx q n s) := by
  induction n generalizing s with
  | zero =>
    simp only [drainTx]
    exact hs
  | succ n ih =>
    simp only [drainTx]
    split
    · exact hs
    · exact canonical_ite hs (ih (canonical_send (canonical_setPort hs) _))

theorem canonical_sendLink {q ty lseq : Nat} (hs : Canonical s) : Canonical (sendLink s q ty lseq) := by
  simp only [sendLink]
  split
  · exact hs
  · exact canonical_send hs _

theorem canonical_emit {dst ty : Nat} {f : TFrame} (hs : Canonical s) : Canonical (emit s dst ty f) := by
  simp only [emit]
  split
  · exact hs
  · exact canonical_ite (canonical_drainTx (canonical_setPort hs)) (canonical_send hs _)

theorem canonicalOptPair_openPath {dst : Nat} (hs : Canonical s) : CanonicalOptPair (openPath s dst) := by
  simp only [openPath]
  split
  · exact .some hs
  split
  · exact .some (canonical_addObj (canonical_setPath hs) ..)
  split
  · exact .none
  · exact .some (canonical_setPath hs)

theorem canonicalOpt_sendFrame {dst ty : Nat} {f : TFrame} {who : FrameFor} (hs : Canonical s) : CanonicalOpt (sendFrame s dst ty f who) := by
  simp only [sendFrame]
  split
  · exact .none
  · exact .some (canonical_emit (canonical_setPath ((canonicalOptPair_openPath hs).of_some ‹_›)))

theorem canonical_sendAck {p : PathCtx} {ty aux : Nat} {ece : Bool} (hs : Canonical s) : Canonical (sendAck s p ty aux ece) := canonical_emit hs
theorem canonical_refuseAt {off : Nat} (hs : Canonical s) : Canonical (refuseAt s off) := canonical_addObj hs ..

theorem canonicalCheck_spanOkGo {m space : Nat} {write : Bool} {by_ : Asker} {n n1 n2 : Nat} (hs : Canonical s) :
    CanonicalCheck (spanOkGo s m space write by_ n n1 n2) := by
  induction n generalizing n1 n2 with
  | zero =>
    simp only [spanOkGo]
    exact .ok
  | succ n ih =>
    simp only [spanOkGo]
    split
    · exact .ok
    split
    · exact .error ((canonicalCheck_ite (canonicalCheck_writeOk hs) (canonicalCheck_readOk hs)).of_error ‹_›)
    · exact ih

theorem canonicalCheck_spanOkBy {by_ : Asker} {m space addr n : Nat} {write : Bool} (hs : Canonical s) :
    CanonicalCheck (spanOkBy by_ s m space addr n write) :=
  canonicalCheck_spanOkGo hs

theorem canonicalCheck_spanOk {m space addr n : Nat} {write : Bool} (hs : Canonical s) : CanonicalCheck (spanOk s m space addr n write) :=
  canonicalCheck_spanOkBy hs

theorem canonical_noteExternal {src : Source} {sl sp a : Nat} (hs : Canonical s) : Canonical (noteExternal s src sl sp a) := by
  simp only [noteExternal]
  split
  · exact hs
  refine canonical_foldl (fun _ _ hs' => ?_) _ hs
  split
  · exact canonical_setLockSet hs'
  · exact canonical_setLockSet (canonical_useFree hs' _)
  · exact hs'
  · exact canonical_ite hs' (canonical_setLockSet hs')

theorem canonicalServed_serveWrite {src addr : Nat} {bs : List Byte} {roce : Bool} {from_ : Source} {going : Bool} (hs : Canonical s) :
    CanonicalServed (serveWrite s src addr bs roce from_ going) := by
  simp only [serveWrite]
  split
  · exact .refused (canonical_refuseAt hs)
  split
  · exact .wait ((canonicalCheck_spanOk hs).of_wait ‹_›)
  · exact .refused (canonical_refuseAt hs)
  · exact .done (canonical_noteExternal (canonical_addObj (canonical_writeRunAs hs ..) ..))

theorem canonicalServed_serveRead {src addr n : Nat} {roce : Bool} (hs : Canonical s) : CanonicalServed (serveRead s src addr n roce) := by
  simp only [serveRead]
  split
  · exact .refused (canonical_refuseAt hs)
  split
  · exact .wait ((canonicalRead_readRunAs hs).of_wait ‹_›)
  · exact .refused (canonical_refuseAt hs)
  · exact .done (canonical_addObj ((canonicalRead_readRunAs hs).of_ok ‹_›) ..)

theorem canonical_noteLow {ctx addr : Nat} (hs : Canonical s) : Canonical (noteLow s ctx addr) := canonical_updLaunch hs

theorem canonical_storeFailed {who : FrameFor} {refused : Bool} {addr : Nat} (hs : Canonical s) : Canonical (storeFailed s who refused addr) := by
  simp only [storeFailed]
  split
  · exact canonical_raiseFault (canonical_noteLow (canonical_addObj hs ..))
  · exact canonical_raiseFault (canonical_noteLow (canonical_addObj hs ..))
  · exact hs

theorem canonical_sysStore {sl : Nat} {who : FrameFor} {addr : Nat} {bs : List Byte} (hs : Canonical s) :
    Canonical (sysStore s sl who addr bs).1 := by
  simp only [sysStore]
  split
  · split
    · exact (canonicalServed_serveWrite hs).of_done ‹_›
    · exact canonical_storeFailed ((canonicalServed_serveWrite hs).of_refused ‹_›)
    · exact (canonicalServed_serveWrite hs).of_wait ‹_›
  split
  · exact canonical_addObj ((canonicalOpt_sendFrame hs).of_some ‹_›) ..
  · exact hs

theorem canonicalGot_sysReadOver {own : List Host.Cell} {who : FrameFor} {addr n : Nat} (hs : Canonical s) :
    CanonicalGot (sysReadOver own s who addr n) := by
  simp only [sysReadOver]
  split
  · exact .fault hs
  split
  · split
    · exact .got ((canonicalServed_serveRead hs).of_done ‹_›)
    · exact .fault ((canonicalServed_serveRead hs).of_refused ‹_›)
    · exact .wait ((canonicalServed_serveRead hs).of_wait ‹_›)
  split
  · split
    · exact .fault hs
    · exact .got hs
    · exact .wait hs
  split
  · exact .fault hs
  split
  · exact .wait hs
  · exact .wait (canonical_with_net ((canonicalOpt_sendFrame hs).of_some ‹_›))

theorem canonicalGot_sysRead {who : FrameFor} {addr n : Nat} (hs : Canonical s) : CanonicalGot (sysRead s who addr n) := canonicalGot_sysReadOver hs
theorem canonical_dropReads {who : FrameFor} (hs : Canonical s) : Canonical (dropReads s who) := canonical_with_net hs

theorem canonical_sendRuns {sl : Nat} {who : FrameFor} {line : Nat} {l : List (Nat × List Byte)} (hs : Canonical s) :
    Canonical (sendRuns sl who line l s).1 := by
  induction l generalizing s with
  | nil =>
    simp only [sendRuns]
    exact hs
  | cons x l ih =>
    simp only [sendRuns]
    split
    · exact ih ((canonical_sysStore hs).of_pair ‹_›)
    · exact (canonical_sysStore hs).of_pair ‹_›

theorem canonical_wcSend {core : Nat} {e : WcEnt} (hs : Canonical s) : Canonical (wcSend s core e).1 := by
  simp only [wcSend]
  split <;> exact canonical_setCore (canonical_sendRuns hs)

theorem canonical_wcFlush {core : Nat} {l : List WcEnt} (hs : Canonical s) : Canonical (wcFlush core l s).1 := by
  induction l generalizing s with
  | nil =>
    simp only [wcFlush]
    exact hs
  | cons x l ih =>
    simp only [wcFlush]
    split
    · exact ih ((canonical_wcSend hs).of_pair ‹_›)
    · exact (canonical_wcSend hs).of_pair ‹_›

theorem canonical_wcStore {core : Nat} {g : GroupRef} {slot addr : Nat} {bs : List Byte} (hs : Canonical s) :
    Canonical (wcStore s core g slot addr bs).1 := by
  unfold wcStore
  extract_lets line key c room
  have hroom : Canonical room.1 := by
    simp only [room]
    split
    · exact hs
    · split
      · exact canonical_ite_fst (canonical_wcSend hs) hs
      · exact hs
  obtain ⟨t, sent⟩ := room
  cases sent with
  | false => exact hroom
  | true => exact canonical_ite_fst (canonical_wcSend (canonical_setCore hroom)) (canonical_setCore hroom)

/-! ### Unpredictable results and the frame of an instruction (Frame) -/

theorem canonical_scrambleOne {n base : Nat} (hs : Canonical s) : Canonical (scrambleOne n base s) := by
  simp only [scrambleOne]
  split
  · exact canonical_writeRun hs ..
  · exact canonical_writeRun hs ..
  · exact canonical_sysStore hs
  · split
    · exact canonical_updGang hs
    · exact hs
  · split
    · exact canonical_updGang hs
    · exact hs
  split
  · exact canonical_updGang hs
  · exact hs

theorem canonical_scrambleAll {n base n1 : Nat} (hs : Canonical s) : Canonical (scrambleAll n base n1 s) := by
  induction n1 generalizing s with
  | zero =>
    simp only [scrambleAll]
    exact hs
  | succ n ih =>
    simp only [scrambleAll]
    exact ih (canonical_scrambleOne hs)

theorem canonical_unpredictable {n : Nat} (hs : Canonical s) : Canonical (unpredictable s n) := canonical_scrambleAll (canonical_useFree hs _)

theorem canonical_myTurn {h : Here} (hs : Canonical s) : Canonical (myTurn s h).1 := by
  simp only [myTurn]
  split
  · exact hs
  · exact canonical_useFree hs _

theorem canonical_passTurn {h : Here} (hs : Canonical s) : Canonical (passTurn s h) := canonical_with_turns hs

theorem canonical_settleOne {h : Here} {x : State × Group} {e : LateLoad} (hx : Canonical x.1) : Canonical (settleOne h x e).1 := by
  simp only [settleOne]
  split
  · exact hx
  split
  · exact hx
  · exact canonical_ite_fst (canonical_useFree hx _) (canonical_with_mem (canonical_readSect (canonical_useFree hx _) _) rfl)

theorem canonical_settleLate {r : GroupRef} {h : Here} {w : Word64} (hs : Canonical s) : Canonical (settleLate s r h w).1 :=
  canonical_ite_fst hs (canonical_setGroup (canonical_foldl_pair (fun _ _ hx => canonical_settleOne hx) _ hs))

theorem canonical_issued {h : Here} (hs : Canonical s) : Canonical (issued s h) :=
  canonical_addObj (canonical_updLaunch (canonical_served (canonical_passTurn hs) _)) ..

theorem canonical_putBack {r : GroupRef} {h : Here} {t : Group} (hs : Canonical s) : Canonical (putBack s r h t) :=
  canonical_ite (canonical_reapGangs (canonical_updGang (canonical_setGroup hs))) (canonical_updGang (canonical_setGroup hs))

theorem canonicalRes_finish {r : GroupRef} {h : Here} {a : Act} (ha : CanonicalAct a) : CanonicalRes (finish r h a) := by
  cases ha with
  | step hs => exact .next (canonical_putBack (canonical_issued hs))
  | jump hs => exact .next (canonical_putBack (canonical_issued hs))
  | paths hs => exact .next (canonical_putBack (canonical_issued hs))
  | wait hs => exact .next hs
  | fault hs => exact .next (canonical_raiseFault (canonical_passTurn hs))
  | absent => exact .fault
  | any hs =>
    simp only [finish]
    split
    · exact .next (canonical_raiseFault (canonical_passTurn (canonical_useFree (canonical_unpredictable hs) _)))
    · exact .next (canonical_putBack (canonical_issued (canonical_useFree (canonical_unpredictable hs) _)))

theorem canonicalAct_fetchCheck {h : Here} {a : Act} (hs : Canonical s) (is : fetchCheck s h = some a) : CanonicalAct a := by
  simp only [fetchCheck] at is
  split at is
  · cases is; exact .fault hs
  · split at is
    · split at is
      · cases is; exact .any hs
      · cases is
    · cases is; exact .fault hs
    · next waits => cases is; exact .wait (canonicalCheck_translate.of_wait waits)
    · cases is; exact .absent
    · cases is; exact .any hs

theorem canonicalAct_decodeFault {h : Here} {w : Word64} {a : Act} (hs : Canonical s) (is : decodeFault s h w = some a) :
    CanonicalAct a := by
  simp only [decodeFault] at is
  split at is
  · cases is; exact .fault hs
  · split at is
    · cases is; exact .fault hs
    · split at is
      · cases is; exact .fault hs
      · split at is
        · cases is; exact .any hs
        · cases is

theorem canonicalRes_atGroup {r : GroupRef} {f : State → Here → Act} (hs : Canonical s)
    (hf : ∀ s x, Canonical s → CanonicalAct (f s x)) : CanonicalRes (atGroup s r f) := by
  simp only [atGroup]
  split
  · exact .next hs
  · split
    · exact .next hs
    · split
      · next turn => exact .next ((canonical_myTurn hs).of_pair turn)
      · next turn =>
        have ht := (canonical_myTurn hs).of_pair turn
        refine canonicalRes_finish ?_
        split
        · next fetched => exact canonicalAct_fetchCheck ht fetched
        · exact hf _ _ ht

theorem canonicalRes_runInstr {ops : List Nat} {r : GroupRef} {w : Word64} {body : State → Here → Act} (hs : Canonical s)
    (hbody : ∀ s x, Canonical s → CanonicalAct (body s x)) : CanonicalRes (runInstr ops s r w body) := by
  simp only [runInstr]
  split
  · exact .refused
  · refine canonicalRes_atGroup hs fun s h hs => ?_
    split
    · next found => exact canonicalAct_decodeFault hs found
    · exact hbody _ _ (canonical_settleLate hs)

end Sys2Proof.Machine
end

section
/-! SUPPORT. Canonical forms kept by vector, memory and atomic instructions (R124 to R136, R171, R197 to R199): one fact for each operation, in the
order of the model. -/

namespace Sys2Proof.Machine

variable {s t : State}

/-! ### The vector class (Vector) -/

theorem canonicalRes_vectorOp {ops : List Nat} {g : GroupRef} {w : Word64} {f : Group → Nat → Nat × List Rounded} (hs : Canonical s) :
    CanonicalRes (vectorOp ops s g w f) := by
  simp only [vectorOp]
  refine canonicalRes_runInstr hs (fun _ _ hs' => ?_)
  split
  · exact .fault hs'
  · exact .step hs'

theorem canonicalRes_execCvt {g : GroupRef} {w : Word64} (hs : Canonical s) : CanonicalRes (execCvt g w s) := by
  simp only [execCvt]
  refine canonicalRes_runInstr hs (fun _ _ hs' => ?_)
  split
  · exact .fault hs'
  · exact .step hs'

theorem canonicalRes_execCmp {g : GroupRef} {w : Word64} (hs : Canonical s) : CanonicalRes (execCmp g w s) :=
  canonicalRes_runInstr hs (fun _ _ hs' => .step hs')

theorem canonicalRes_execMovVs {g : GroupRef} {w : Word64} (hs : Canonical s) : CanonicalRes (execMovVs g w s) := by
  simp only [execMovVs]
  refine canonicalRes_runInstr hs (fun _ _ hs' => ?_)
  split <;> exact .step hs'

theorem canonicalRes_execIllegalInstruction {g : GroupRef} {w : Word64} (hs : Canonical s) :
    CanonicalRes (execIllegalInstruction g w s) := by
  unfold execIllegalInstruction
  extract_lets bad
  split
  · exact .refused
  · refine canonicalRes_atGroup hs fun s h hs => ?_
    cases found : decodeFault s h w with
    | none => exact .step hs
    | some a => exact canonicalAct_decodeFault hs found

/-! ### Loads, stores, fences and hints (Memory) -/

theorem canonicalCheck_laneCheck {h : Here} {by_ : Asker} {space addr n : Nat} {write : Bool} (hs : Canonical s) :
    CanonicalCheck (laneCheck s h by_ space addr n write) := by
  simp only [laneCheck]
  split
  · exact .error .cause
  split
  · exact canonicalCheck_ite .ok (.error .cause)
  · exact canonicalCheck_ite (.error .cause) (canonicalCheck_ite .ok (.error .cause))
  split
  · exact .ok
  · exact .error ((canonicalCheck_ite (canonicalCheck_writeOk hs) (canonicalCheck_readOk hs)).of_error ‹_›)

theorem canonicalLanes_checkLanes {ls : List (Nat × Nat)} {f : State → Nat → Except Stop Unit} (hs : Canonical s)
    (hf : ∀ s' x1, Canonical s' → CanonicalCheck (f s' x1)) : CanonicalLanes (checkLanes s ls f) := by
  simp only [checkLanes]
  split
  · exact .act .absent
  split
  · exact .act (.any hs)
  split
  · exact .act (.fault hs)
  split
  · refine .act (.wait (canonical_foldl (fun _ _ hs' => ?_) _ hs))
    split
    · exact (hf _ _ hs').of_wait ‹_›
    · exact hs'
  · exact .ok

theorem canonical_spadPut {r : GroupRef} {a : Nat} {bs : List Byte} (hs : Canonical s) : Canonical (spadPut s r a bs) := canonical_updGang hs

theorem canonical_cachedLoad {h : Here} {space n scope : Nat} {acq : Bool} {ls : List (Nat × Nat)} (hs : Canonical s) :
    Canonical (cachedLoad s h space n scope acq ls).1 :=
  canonical_loadSects (canonical_ite (canonical_foldl (fun _ _ hs' => canonical_dropL1 hs') _ (canonical_ite (canonical_applyInv hs) hs))
    (canonical_ite (canonical_applyInv hs) hs))

theorem canonical_loadReady {h : Here} {space n : Nat} {whole : Bool} {as : List Nat} (hs : Canonical s) :
    Canonical (loadReady s h space n whole as).1 :=
  canonical_foldl_pair (fun _ _ hx => canonical_ite_fst (canonical_landFor hx) hx) _ hs

theorem canonicalGot_sysLoad {r : GroupRef} {h : Here} {addr n : Nat} (hs : Canonical s) : CanonicalGot (sysLoad s r h addr n) := by
  simp only [sysLoad]
  split
  · exact .got ((canonicalGot_sysReadOver hs).of_got ‹_›)
  · exact canonicalGot_sysReadOver hs

theorem canonical_sysLoads {r : GroupRef} {h : Here} {n : Nat} {as : List Nat} (hs : Canonical s) :
    Canonical (sysLoads r h n as s).s := by
  refine List.foldlRecOn (motive := fun x : SysLoaded => Canonical x.s) as _ hs fun x hx a _ => ?_
  split
  · next is => exact (canonicalGot_sysLoad hx).of_fault is
  · next is => exact (canonicalGot_sysLoad hx).of_wait is
  · next is => exact (canonicalGot_sysLoad hx).of_got is

theorem canonical_dropAt {h : Here} {space addr : Nat} (hs : Canonical s) : Canonical (dropAt s h space addr) := by
  simp only [dropAt]
  split
  · split
    · exact canonical_dropL1 hs
    · exact hs
  · exact hs

theorem canonicalRes_execLd {g : GroupRef} {w : Word64} (hs : Canonical s) : CanonicalRes (execLd g w s) := by
  simp only [execLd]
  refine canonicalRes_runInstr hs (fun _ _ hs' => ?_)
  split
  · exact .fault hs'
  split
  · exact (canonicalLanes_checkLanes hs' (fun _ _ hs'' => canonicalCheck_laneCheck (canonical_ite (canonical_dropAt hs'') hs''))).of_act ‹_›
  split
  · exact .wait hs'
  split
  · exact .step hs'
  · split
    · exact .wait (canonical_sysLoads hs')
    split
    · exact .fault (canonical_dropReads (canonical_sysLoads hs'))
    · exact .step (canonical_ite (canonical_applyInv (canonical_dropReads (canonical_sysLoads hs'))) (canonical_dropReads (canonical_sysLoads hs')))
  split
  · exact .wait ((canonical_loadReady hs').of_pair ‹_›)
  · exact .step (canonical_cachedLoad ((canonical_loadReady hs').of_pair ‹_›))

theorem canonical_keepShadow {ctx gang core : Nat} {ks : List SectKey} (hs : Canonical s) : Canonical (keepShadow s ctx gang core ks) :=
  canonical_updGang hs

theorem canonical_pushStores {ctx gang core : Nat} {es : List StoreEnt} (hs : Canonical s) : Canonical (pushStores s ctx gang core es) :=
  canonical_landSome (canonical_with_stores (canonical_foldl (fun _ _ hs' => canonical_ite hs'
    (canonical_foldl (fun _ _ hs'' => canonical_noteCode hs'' ..) _ hs')) _ (canonical_keepShadow hs)))

theorem canonical_storeAll {h : Here} {space : Nat} {rel : Bool} {data : List (Nat × List Byte)} (hs : Canonical s) :
    Canonical (storeAll s h space rel data) :=
  canonical_pushStores hs

theorem canonical_sysStores {r : GroupRef} {core slot : Nat} {l : List (Nat × List Byte)} (hs : Canonical s) :
    Canonical (sysStores r core slot l s).1 := by
  induction l generalizing s with
  | nil =>
    simp only [sysStores]
    exact hs
  | cons x l ih =>
    simp only [sysStores]
    split
    · exact ih ((canonical_wcStore hs).of_pair ‹_›)
    · exact (canonical_wcStore hs).of_pair ‹_›

theorem canonical_sysRelease {h : Here} (hs : Canonical s) : Canonical (sysRelease s h).1 := by
  simp only [sysRelease]
  split
  · exact (canonical_landAll hs).of_pair ‹_›
  · split <;> exact (canonical_wcFlush ((canonical_landAll hs).of_pair ‹_›)).of_pair ‹_›

theorem canonicalAct_storeLanes {r : GroupRef} {h : Here} {w : Word64} {n : Nat} {data : List (Nat × Nat × List Byte)} (hs : Canonical s) :
    CanonicalAct (storeLanes s r h w n data) := by
  simp only [storeLanes]
  split
  · exact .fault hs
  split
  · exact .wait hs
  split
  · exact (canonicalLanes_checkLanes hs (fun _ _ hs' => canonicalCheck_laneCheck hs')).of_act ‹_›
  split
  · exact .wait hs
  split
  · exact .any hs
  split
  · split
    · exact .wait hs
    · exact .step (canonical_foldl (fun _ _ hs' => canonical_spadPut hs') _ hs)
  split
  · split
    · exact .wait (canonical_sysRelease hs)
    split
    · split
      · exact .step ((canonical_sysStores (canonical_sysRelease hs)).of_pair ‹_›)
      · exact .wait ((canonical_sysStores (canonical_sysRelease hs)).of_pair ‹_›)
    · exact .step (canonical_storeAll (canonical_sysRelease hs))
  split
  · exact .wait hs
  split
  · split
    · exact .step ((canonical_sysStores hs).of_pair ‹_›)
    · exact .wait ((canonical_sysStores hs).of_pair ‹_›)
  · exact .step (canonical_storeAll hs)

theorem canonicalRes_execSt {g : GroupRef} {w : Word64} (hs : Canonical s) : CanonicalRes (execSt g w s) :=
  canonicalRes_runInstr hs (fun _ _ hs' => canonicalAct_storeLanes hs')

theorem canonicalRes_storeConverted {op : Nat} {f : FFmt} {g : GroupRef} {w : Word64} (hs : Canonical s) :
    CanonicalRes (storeConverted op f g w s) := by
  simp only [storeConverted]
  refine canonicalRes_runInstr hs (fun _ _ hs' => ?_)
  split
  · exact .fault hs'
  · exact canonicalAct_storeLanes hs'

theorem canonical_fenceStores {core order : Nat} (hs : Canonical s) : Canonical (fenceStores s core order).1 :=
  canonical_ite_fst (canonical_landAll hs) (canonical_ite_fst (canonical_with_stores hs) hs)

theorem canonicalRes_execFence {g : GroupRef} {w : Word64} (hs : Canonical s) : CanonicalRes (execFence g w s) := by
  simp only [execFence]
  refine canonicalRes_runInstr hs (fun _ _ hs' => ?_)
  split
  · exact .wait hs'
  split
  · split
    · exact .wait hs'
    split
    · exact .step (canonical_applyInv hs')
    · exact .step hs'
  split
  · split
    · exact .wait (canonical_fenceStores hs')
    split
    · exact .step (canonical_applyInv (canonical_fenceStores hs'))
    · exact .step (canonical_fenceStores hs')
  split
  · split
    · exact .wait (canonical_sysRelease hs')
    split
    · exact .step (canonical_applyInv (canonical_sysRelease hs'))
    · exact .step (canonical_sysRelease hs')
  split
  · exact .wait (canonical_wcFlush hs')
  split
  · exact .step (canonical_applyInv (canonical_wcFlush hs'))
  · exact .step (canonical_wcFlush hs')

theorem canonicalRes_execDiscard {g : GroupRef} {w : Word64} (hs : Canonical s) : CanonicalRes (execDiscard g w s) := by
  refine canonicalRes_runInstr hs fun s h hs => ?_
  simp only
  split
  · exact .wait hs
  · split
    · next landed => exact .wait ((canonical_landAll hs).of_pair landed)
    · next t landed =>
      have ht := (canonical_landAll hs).of_pair landed
      have checked : ∀ (s : State) (v : Nat), Canonical s → CanonicalCheck (match discardOk s h.l.slice v (askOf h) with
          | .ok _ => .ok ()
          | .error e => .error e) := fun s v hs => by
        split
        · exact .ok
        · next is => exact .error ((canonicalCheck_discardOk hs).of_error is)
      split
      · exact .fault (by cases (canonicalLanes_checkLanes ht checked).of_act ‹_›; assumption)
      · next is => exact (canonicalLanes_checkLanes ht checked).of_act is
      · split
        · exact .any ht
        · refine .step (canonical_foldl (fun s v hs => ?_) _ ht)
          split
          · exact (keeps_discardLine _ _ _).canonical (canonical_logWrite hs _ _)
          · exact hs

theorem canonical_pinLine {n : Nat} {l : Nat} (hs : Canonical s) : Canonical (pinLine n s l) :=
  canonical_with_mem (canonical_ite hs ((keeps_llmTouch ..).canonical hs)) rfl

theorem canonicalOpt_pinLines {n : Nat} {l : List Nat} (hs : Canonical s) : CanonicalOpt (pinLines n l s) := by
  induction l generalizing s with
  | nil =>
    simp only [pinLines]
    exact .some hs
  | cons x l ih =>
    simp only [pinLines]
    split
    · exact .none
    · exact ih (canonical_pinLine hs)

theorem canonicalRes_execPinLlc {g : GroupRef} {w : Word64} (hs : Canonical s) : CanonicalRes (execPinLlc g w s) := by
  simp only [execPinLlc]
  refine canonicalRes_runInstr hs (fun _ _ hs' => ?_)
  split
  · exact .any hs'
  split
  · split
    · exact .step hs'
    split
    · split
      · exact .step (canonical_addObj ((canonicalOpt_pinLines hs').of_some ‹_›) ..)
      · exact .wait hs'
    · exact .step (canonical_addObj hs' ..)
  · exact .step (canonical_addObj hs' ..)

theorem canonical_unpinLine {n : Nat} {l : Nat} (hs : Canonical s) : Canonical (unpinLine n s l) :=
  canonical_ite (canonical_with_mem (canonical_subObj hs ..) rfl) hs

theorem canonicalRes_execUnpinLlc {g : GroupRef} {w : Word64} (hs : Canonical s) : CanonicalRes (execUnpinLlc g w s) := by
  simp only [execUnpinLlc]
  refine canonicalRes_runInstr hs (fun _ _ hs' => .step (canonical_foldl (fun _ _ hs'' => ?_) _ hs'))
  split
  · exact canonical_unpinLine hs''
  · exact hs''

theorem canonical_requestLine {n l : Nat} (hs : Canonical s) : Canonical (requestLine s n l) :=
  canonical_ite hs (canonical_ite (canonical_with_mem hs rfl) (canonical_with_mem hs rfl))

theorem canonicalRes_execPfDev {g : GroupRef} {w : Word64} (hs : Canonical s) : CanonicalRes (execPfDev g w s) := by
  simp only [execPfDev]
  refine canonicalRes_runInstr hs (fun _ _ hs' => ?_)
  split
  · exact .any hs'
  refine .step (canonical_foldl (fun _ _ hs'' => ?_) _ hs')
  split
  · exact hs''
  · exact canonical_requestLine hs''

theorem canonicalRes_execIdGet {g : GroupRef} {w : Word64} (hs : Canonical s) : CanonicalRes (execIdGet g w s) :=
  canonicalRes_runInstr hs (fun _ _ hs' => .step hs')

theorem canonicalRes_execTimeGet {g : GroupRef} {w : Word64} (hs : Canonical s) : CanonicalRes (execTimeGet g w s) :=
  canonicalRes_runInstr hs (fun _ _ hs' => .step hs')

theorem canonicalRes_execTickGet {g : GroupRef} {w : Word64} (hs : Canonical s) : CanonicalRes (execTickGet g w s) :=
  canonicalRes_runInstr hs (fun _ _ hs' => .step hs')

/-! ### Atomics and locks (Atomic) -/

theorem canonicalCheck_atomCheck {h : Here} {space addr n : Nat} (hs : Canonical s) : CanonicalCheck (atomCheck s h space addr n) := by
  simp only [atomCheck]
  split
  · exact .error ((canonicalCheck_laneCheck hs).of_error ‹_›)
  split
  · exact .error (canonicalCheck_locate.of_error ‹_›)
  · exact canonicalCheck_ite (.error (.wait hs)) .ok

theorem canonical_atomicAt {h : Here} {space addr n : Nat} {f : Nat → Option Nat} (hs : Canonical s) : Canonical (atomicAt s h space addr n f).1 := by
  simp only [atomicAt]
  split
  · exact hs
  split
  · exact canonical_homeSect (canonical_dropL1 (canonical_landFor hs))
  · exact canonical_writePieceAt (canonical_homeSect (canonical_dropL1 (canonical_landFor hs))) ..

theorem canonical_atomicNear {h : Here} {space addr n : Nat} {f : Nat → Option Nat} (hs : Canonical s) :
    Canonical (atomicNear s h space addr n f).1 := by
  simp only [atomicNear]
  split
  · exact hs
  split
  · exact canonical_loadSects (canonical_dropL1 hs)
  · exact canonical_storeAll (canonical_loadSects (canonical_dropL1 hs))

theorem canonical_atomicIn {near : Bool} {h : Here} {space addr n : Nat} {f : Nat → Option Nat} (hs : Canonical s) :
    Canonical (atomicIn near s h space addr n f).1 :=
  canonical_ite_fst (canonical_atomicNear hs) (canonical_atomicAt hs)

theorem canonical_atomicLanes {near : Bool} {h : Here} {space n : Nat} {f : Nat → Nat → Option Nat} {l : List (Nat × Nat)} (hs : Canonical s) :
    Canonical (atomicLanes near h space n f l s).1 := by
  induction l generalizing s with
  | nil =>
    simp only [atomicLanes]
    exact hs
  | cons x l ih =>
    simp only [atomicLanes]
    exact ih (canonical_atomicIn hs)

theorem canonical_homesReady {h : Here} {space : Nat} {as : List Nat} (hs : Canonical s) : Canonical (homesReady s h space as).1 := by
  simp only [homesReady]
  refine canonical_foldl_pair (fun _ _ hx => ?_) _ hs
  split
  · exact hx
  split
  · exact canonical_landFor hx
  · exact hx

theorem canonical_atomReady {h : Here} {w : Word64} {space : Nat} {as : List Nat} (hs : Canonical s) : Canonical (atomReady s h w space as).1 :=
  canonical_ite_fst (canonical_foldl_pair (fun _ _ hx => canonical_ite_fst (canonical_loadReady hx) hx) _ hs)
    (canonical_ite_fst (canonical_landAll hs) (canonical_homesReady hs))

theorem canonical_atomAcquire {h : Here} {w : Word64} (hs : Canonical s) : Canonical (atomAcquire s h w) := canonical_ite (canonical_applyInv hs) hs

theorem canonicalRes_atomicTrap {raises : State → Here → Word64 → Raised} {op : Nat} {g : GroupRef} {w : Word64}
    {f : Nat → Nat → Nat → Nat → Option Nat} (hs : Canonical s) : CanonicalRes (atomicTrap raises op g w s f) := by
  simp only [atomicTrap]
  refine canonicalRes_runInstr hs (fun _ _ hs' => ?_)
  split
  · exact .step hs'
  split
  · exact .fault hs'
  split
  · exact .fault hs'
  split
  · exact .wait hs'
  split
  · exact (canonicalLanes_checkLanes hs' (fun _ _ hs'' => canonicalCheck_atomCheck hs'')).of_act ‹_›
  split
  · exact .wait ((canonical_atomReady hs').of_pair ‹_›)
  split
  · exact .fault (canonical_keepShadow ((canonical_atomReady hs').of_pair ‹_›))
  split
  · exact .any (canonical_keepShadow ((canonical_atomReady hs').of_pair ‹_›))
  · exact .step (canonical_atomAcquire (canonical_atomicLanes (canonical_keepShadow ((canonical_atomReady hs').of_pair ‹_›))))

theorem canonicalRes_atomicOp {op : Nat} {g : GroupRef} {w : Word64} {f : Nat → Nat → Nat → Nat → Option Nat} (hs : Canonical s) :
    CanonicalRes (atomicOp op g w s f) :=
  canonicalRes_atomicTrap hs

theorem canonical_acqLanes {h : Here} {space pid : Nat} {l : List (Nat × Nat)} (hs : Canonical s) : Canonical (acqLanes h space pid l s).1 := by
  induction l generalizing s with
  | nil =>
    simp only [acqLanes]
    exact hs
  | cons x l ih =>
    simp only [acqLanes]
    exact canonical_ite_fst (canonical_atomicAt hs) (canonical_ite_fst (ih (canonical_atomicAt hs))
      (canonical_ite_fst hs (ih (canonical_updLaunch (canonical_atomicAt hs)))))

theorem canonicalRes_execLockAcq {g : GroupRef} {w : Word64} (hs : Canonical s) : CanonicalRes (execLockAcq g w s) := by
  simp only [execLockAcq]
  refine canonicalRes_runInstr hs (fun _ _ hs' => ?_)
  split
  · exact .fault hs'
  split
  · exact .wait hs'
  split
  · exact (canonicalLanes_checkLanes hs' (fun _ _ hs'' => canonicalCheck_atomCheck hs'')).of_act ‹_›
  split
  · exact .wait ((canonical_homesReady hs').of_pair ‹_›)
  split
  · exact .any (canonical_acqLanes ((canonical_homesReady hs').of_pair ‹_›))
  · exact .fault (canonical_acqLanes ((canonical_homesReady hs').of_pair ‹_›))
  · exact .step (canonical_ite (canonical_applyInv (canonical_acqLanes ((canonical_homesReady hs').of_pair ‹_›)))
      (canonical_acqLanes ((canonical_homesReady hs').of_pair ‹_›)))

theorem canonical_relLanes {h : Here} {space pid : Nat} {l : List (Nat × Nat)} (hs : Canonical s) : Canonical (relLanes h space pid l s).1 := by
  induction l generalizing s with
  | nil =>
    simp only [relLanes]
    exact hs
  | cons x l ih =>
    simp only [relLanes]
    exact canonical_ite_fst (canonical_atomicAt hs) (canonical_ite_fst (ih (canonical_updLaunch (canonical_atomicAt hs)))
      (ih (canonical_atomicAt hs)))

theorem canonicalRes_execLockRel {g : GroupRef} {w : Word64} (hs : Canonical s) : CanonicalRes (execLockRel g w s) := by
  simp only [execLockRel]
  refine canonicalRes_runInstr hs (fun _ _ hs' => ?_)
  split
  · exact .fault hs'
  split
  · exact .wait hs'
  split
  · exact (canonicalLanes_checkLanes hs' (fun _ _ hs'' => canonicalCheck_atomCheck hs'')).of_act ‹_›
  split
  · exact .wait ((canonical_landAll hs').of_pair ‹_›)
  split
  · exact .any (canonical_relLanes ((canonical_landAll hs').of_pair ‹_›))
  · exact .step (canonical_relLanes ((canonical_landAll hs').of_pair ‹_›))

end Sys2Proof.Machine
end

section
/-! SUPPORT. Canonical forms kept by blocks and commands of work channels (R208 to R211, R293 to R312): one fact for each operation, in the order of
the model. -/

namespace Sys2Proof.Machine

variable {s t : State}

/-! ### Context blocks (Block) -/

theorem canonical_recount {n : Nat} (hs : Canonical s) : Canonical (recount s n) :=
  canonical_foldl (fun _ _ hs' => canonical_putObj (canonical_putObj hs' ..) ..) _ (canonical_putObj (canonical_putObj hs ..) ..)

theorem canonical_putEntry {n h : Nat} {e : CtxEntry} (hs : Canonical s) : Canonical (putEntry s n h e) := canonical_recount (canonical_setSlice hs _)

theorem canonical_releaseStorage {n pa bytes tier : Nat} (hs : Canonical s) : Canonical (releaseStorage s n pa bytes tier) :=
  canonical_ite (canonical_recount (canonical_setSlice hs _)) (canonical_recount hs)

theorem canonical_freeQuarantine {n : Nat} (hs : Canonical s) : Canonical (freeQuarantine s n) :=
  canonical_ite hs (canonical_recount (canonical_setSlice hs _))

theorem canonical_mapLookup (hs : Canonical s) : Canonical (mapLookup s) := canonical_addObj (canonical_useFree hs _) ..
theorem canonical_takeMarks {n : Nat} (hs : Canonical s) : Canonical (takeMarks s n) := canonical_setSlice hs _

theorem canonicalRead_readPaGo {n n1 : Nat} {n2 : Nat} (hs : Canonical s) : CanonicalRead (readPaGo n n1 s n2) := by
  induction n1 generalizing s n2 with
  | zero =>
    simp only [readPaGo]
    exact .ok hs
  | succ n ih =>
    simp only [readPaGo]
    split
    · exact .error ((canonicalCheck_reach hs).of_error ‹_›)
    split
    · exact .error ((ih (canonical_homeSect hs)).of_error ‹_›)
    · exact .ok ((ih (canonical_homeSect hs)).of_ok ‹_›)

theorem canonicalRead_readPa {n pa len : Nat} (hs : Canonical s) : CanonicalRead (readPa s n pa len) := by
  simp only [readPa]
  split
  · exact .ok ((canonicalRead_readPaGo hs).of_ok ‹_›)
  · exact .error ((canonicalRead_readPaGo hs).of_error ‹_›)

theorem canonicalCheck_reachPa {n n1 : Nat} (hs : Canonical s) : CanonicalCheck (reachPa s n n1) := by
  induction n generalizing n1 with
  | zero =>
    simp only [reachPa]
    exact .ok
  | succ n ih =>
    simp only [reachPa]
    split
    · exact .error ((canonicalCheck_reach hs).of_error ‹_›)
    · exact ih

theorem canonical_writePaGo {n : Nat} {l : List (List Byte)} {n1 : Nat} (hs : Canonical s) : Canonical (writePaGo n l s n1) := by
  induction l generalizing s n1 with
  | nil =>
    simp only [writePaGo]
    exact hs
  | cons x l ih =>
    simp only [writePaGo]
    refine ih (canonical_writeSect ?_ ..)
    split
    · exact canonical_logWrite hs ..
    · exact hs

theorem canonical_writePa {n pa : Nat} {bs : List Byte} (hs : Canonical s) : Canonical (writePa s n pa bs) := canonical_writePaGo hs

/-! ### What commands share (Cmds) -/

theorem canonical_updFlight {ch seq : Nat} {f : Cmd → Cmd} (hs : Canonical s) : Canonical (updFlight s ch seq f) := canonical_setChan hs
theorem canonical_putFlight {ch : Nat} {c : Cmd} (hs : Canonical s) : Canonical (putFlight s ch c) := canonical_updFlight hs

theorem canonical_measure {sl ch : Nat} {c : Cmd} {bs : List Byte} (hs : Canonical s) : Canonical (measure s sl ch c bs) :=
  canonical_ite hs (canonical_setSlice hs _)

theorem canonical_emptyMslot {sl k : Nat} (hs : Canonical s) : Canonical (emptyMslot s sl k) := canonical_setSlice hs _

theorem canonical_measureEnd {sl ch : Nat} {c : Cmd} {f : Final} (hs : Canonical s) : Canonical (measureEnd s sl ch c f).1 := by
  unfold measureEnd
  extract_lets +onlyGivenNames k s1
  have h1 : Canonical s1 := canonical_ite (canonical_measure hs) hs
  refine canonical_ite_fst (canonical_emptyMslot h1) (canonical_ite_fst h1 (canonical_ite_fst (canonical_emptyMslot h1) ?_))
  exact canonical_emptyMslot (canonical_setSlice (canonical_ite (canonical_useFree h1 _) h1) _)

theorem canonical_journalAppend {ch : Nat} {c : Cmd} {st : Nat} {f : Final} (hs : Canonical s) : Canonical (journalAppend s ch c st f) := by
  simp only [journalAppend]
  split
  · exact hs
  · exact canonical_ite (canonical_addObj hs ..) (canonical_putObj (canonical_setLockSet hs) ..)

theorem canonical_removeCmd {ch seq : Nat} (hs : Canonical s) : Canonical (removeCmd s ch seq) := canonical_setChan hs
theorem canonical_setDue {ch : Nat} {due : Bool} (hs : Canonical s) : Canonical (setDue s ch due) := canonical_setChan hs

theorem canonical_notifyTail {ch : Nat} (hs : Canonical s) : Canonical (notifyTail s ch) :=
  canonical_ite (canonical_setDue hs) (canonical_setDue (canonical_sysStore hs))

theorem canonical_notifyAgain (hs : Canonical s) : Canonical (notifyAgain s) := canonical_foldl (fun _ _ hs' => canonical_notifyTail hs') _ hs

theorem canonical_writeRecord {ch : Nat} {c : Cmd} {f : Final} (hs : Canonical s) : Canonical (writeRecord s ch c f) := by
  unfold writeRecord
  extract_lets +onlyGivenNames n all st a s1 s2 s3 s4
  have h2 : Canonical s2 := canonical_addObj (canonical_addObj (canonical_writeRun hs ..) ..) ..
  have h3 : Canonical s3 := canonical_ite (canonical_addObj h2 ..) h2
  have h4 : Canonical s4 := canonical_ite (canonical_addObj h3 ..) h3
  exact canonical_removeCmd (canonical_journalAppend (canonical_notifyTail h4))

theorem canonical_holdFinal {ch : Nat} {c : Cmd} {f : Final} (hs : Canonical s) : Canonical (holdFinal s ch c f) := canonical_setChan hs

theorem canonical_endCmd {ch : Nat} {c : Cmd} {f : Final} (hs : Canonical s) : Canonical (endCmd s ch c f) := by
  simp only [endCmd]
  split
  · exact canonical_holdFinal hs
  split
  · exact canonical_holdFinal ((canonicalCheck_spanOk hs).of_wait ‹_›)
  · exact canonical_writeRecord (canonical_unpredictable hs)
  · exact canonical_writeRecord (canonical_ite_fst (canonical_measureEnd hs) hs)

theorem canonicalRes_withCmd {ops : List Nat} {r : CmdRef} {f : Cmd → Res} (hs : Canonical s) (hf : ∀ x0, CanonicalRes (f x0)) :
    CanonicalRes (withCmd ops r s f) := by
  simp only [withCmd]
  refine canonicalRes_withSome hs (fun _ => ?_)
  split
  · exact .refused
  split
  · exact .next (canonical_endCmd hs)
  · exact hf _

theorem canonical_anyKill {n : Nat} (hs : Canonical s) : Canonical (anyKill s n) := by
  simp only [anyKill]
  split
  · exact canonical_raiseFault (canonical_useFree hs _)
  · exact canonical_useFree hs _

theorem canonical_cmdAny {ch : Nat} {c : Cmd} (hs : Canonical s) : Canonical (cmdAny s ch c) :=
  canonical_endCmd (canonical_useFree (canonical_anyKill (canonical_unpredictable hs)) _)

theorem canonicalRes_cmdStop {ch : Nat} {c : Cmd} {bytes : Nat} {x : Stop} (hs : Canonical s) (hx : CanonicalStop x) :
    CanonicalRes (cmdStop s ch c bytes x) := by
  simp only [cmdStop]
  split
  · exact .next (canonical_endCmd hs)
  · exact .next (hx.of_wait rfl)
  · exact .next (canonical_cmdAny hs)
  · exact .fault

/-! ### Transfers, waits and signals (Commands) -/

theorem canonicalWrite_cmdStore {sl : Nat} {who : FrameFor} {space addr : Nat} {bs : List Byte} (hs : Canonical s) :
    CanonicalWrite (cmdStore s sl who space addr bs) := by
  simp only [cmdStore]
  split
  · split
    · exact .error .cause
    split
    · split
      · exact .ok ((canonicalServed_serveWrite hs).of_done ‹_›)
      · exact .error .cause
      · exact .error (.wait ((canonicalServed_serveWrite hs).of_wait ‹_›))
    split
    · exact .error .cause
    split
    · exact .ok (canonical_addObj ((canonicalOpt_sendFrame hs).of_some ‹_›) ..)
    · exact .error (.wait hs)
  split
  · exact .error ((canonicalCheck_spanOkBy hs).of_error ‹_›)
  · exact .ok (canonical_served (canonical_writeRunAs hs ..) _)

theorem canonicalRead_cmdLoad {sl : Nat} {who : FrameFor} {space addr n : Nat} (hs : Canonical s) :
    CanonicalRead (cmdLoad s sl who space addr n) := by
  simp only [cmdLoad]
  split
  · split
    · exact .ok ((canonicalGot_sysRead hs).of_got ‹_›)
    · exact .error (.wait ((canonicalGot_sysRead hs).of_wait ‹_›))
    · exact .error .cause
  split
  · exact .error ((canonicalRead_readRunAs hs).of_error ‹_›)
  · exact .ok (canonical_served ((canonicalRead_readRunAs hs).of_ok ‹_›) _)

theorem canonicalRead_sourceBytes {sl ch : Nat} {c : Cmd} {x : Xfer} {p n : Nat} (hs : Canonical s) :
    CanonicalRead (sourceBytes s sl ch c x p n) := by
  simp only [sourceBytes]
  split
  · exact .ok hs
  split
  · exact .ok hs
  · exact canonicalRead_cmdLoad hs

theorem canonical_noteLost {x : Sent} (hs : Canonical s) : Canonical (noteLost s x) := by
  simp only [noteLost]
  split
  · split
    · exact hs
    · exact canonical_ite (canonical_putFlight hs) hs
  · exact hs

theorem canonical_endXfer {ch : Nat} {c : Cmd} {f : Final} (hs : Canonical s) : Canonical (endXfer s ch c f) :=
  canonical_endCmd (canonical_dropReads hs)

theorem canonical_refusedHere {space addr cause : Nat} (hs : Canonical s) : Canonical (refusedHere s space addr cause) :=
  canonical_ite (canonical_refuseAt hs) hs

theorem canonicalRes_xferStop {ch : Nat} {c : Cmd} {space addr : Nat} {x : Stop} (hs : Canonical s) (hx : CanonicalStop x) :
    CanonicalRes (xferStop s ch c space addr x) := by
  simp only [xferStop]
  split
  · exact .next (canonical_endXfer (canonical_refusedHere hs))
  · exact .next (hx.of_wait rfl)
  · exact .fault
  · exact .next (canonical_cmdAny hs)

theorem canonicalRes_xferTail {ch : Nat} {c : Cmd} {x : Xfer} (hs : Canonical s) : CanonicalRes (xferTail s ch c x) := by
  simp only [xferTail]
  split
  · split
    · exact .next hs
    · exact .next (canonical_endXfer hs)
  split
  · exact .next hs
  split
  · exact canonicalRes_xferStop hs ((canonicalWrite_cmdStore hs).of_error ‹_›)
  split
  · exact .next (canonical_putFlight ((canonicalWrite_cmdStore hs).of_ok ‹_›))
  · exact .next (canonical_endXfer (canonical_putFlight ((canonicalWrite_cmdStore hs).of_ok ‹_›)))

theorem canonicalRes_xferGo {ch : Nat} {x : Xfer} {n : Nat} {x1 : Cmd} (hs : Canonical s) : CanonicalRes (xferGo ch x n x1 s) := by
  induction n generalizing x1 s with
  | zero =>
    simp only [xferGo]
    exact .next hs
  | succ n ih =>
    simp only [xferGo]
    split
    · exact canonicalRes_xferTail hs
    split
    · split
      · exact canonicalRes_xferStop hs ((canonicalWrite_cmdStore hs).of_error ‹_›)
      · exact ih (canonical_putFlight (canonical_measure ((canonicalWrite_cmdStore hs).of_ok ‹_›)))
    split
    · exact ih (canonical_putFlight (canonical_dropReads ((canonicalRead_sourceBytes hs).of_ok ‹_›)))
    · exact canonicalRes_xferStop hs .cause
    · split
      · exact canonicalRes_xferStop hs ((canonicalWrite_cmdStore hs).of_error ‹_›)
      · exact ih (canonical_putFlight (canonical_measure ((canonicalWrite_cmdStore hs).of_ok ‹_›)))
    · exact canonicalRes_xferStop hs ((canonicalRead_sourceBytes hs).of_error ‹_›)

theorem canonicalRes_xfer {ch : Nat} {c : Cmd} (hs : Canonical s) : CanonicalRes (xfer s ch c) := by
  simp only [xfer]
  split
  · exact .next (canonical_cmdAny hs)
  · exact canonicalRes_xferGo hs

theorem canonicalRes_execCopyCmd {r : CmdRef} (hs : Canonical s) : CanonicalRes (execCopyCmd r s) :=
  canonicalRes_withCmd hs (fun _ => canonicalRes_xfer hs)

theorem canonicalRes_execFillCmd {r : CmdRef} (hs : Canonical s) : CanonicalRes (execFillCmd r s) :=
  canonicalRes_withCmd hs (fun _ => canonicalRes_xfer hs)

theorem canonicalRes_execInlineWrite {r : CmdRef} (hs : Canonical s) : CanonicalRes (execInlineWrite r s) :=
  canonicalRes_withCmd hs (fun _ => canonicalRes_xfer hs)

theorem canonicalRes_execMeasuredLoad {r : CmdRef} (hs : Canonical s) : CanonicalRes (execMeasuredLoad r s) :=
  canonicalRes_withCmd hs (fun _ => canonicalRes_xfer hs)

theorem canonicalRes_evalWait {ch : Nat} {c : Cmd} (hs : Canonical s) : CanonicalRes (evalWait s ch c) := by
  simp only [evalWait]
  split
  · exact .next (canonical_cmdAny hs)
  split
  · exact canonicalRes_cmdStop hs ((canonicalRead_readRun hs).of_error ‹_›)
  split
  · exact .next (canonical_endCmd ((canonicalRead_readRun hs).of_ok ‹_›))
  · exact .next (canonical_putFlight ((canonicalRead_readRun hs).of_ok ‹_›))

theorem canonicalRes_execWaitCmd {r : CmdRef} (hs : Canonical s) : CanonicalRes (execWaitCmd r s) :=
  canonicalRes_withCmd hs (fun _ => canonicalRes_evalWait hs)

theorem canonicalRes_execWaitReevaluate {ch : Nat} (hs : Canonical s) : CanonicalRes (execWaitReevaluate ch s) :=
  canonicalRes_withSome hs (fun _ => canonicalRes_evalWait hs)

theorem canonicalServed_serveSignal {src addr op v : Nat} {from_ : Source} (hs : Canonical s) :
    CanonicalServed (serveSignal s src addr op v from_) := by
  have hread (sl sp a : Nat) : CanonicalRead (if op % 2 = 1 then readRunAs .nothing .device s sl sp a 8 else .ok (s, [])) := by
    split
    · exact canonicalRead_readRunAs hs
    · exact .ok hs
  simp only [serveSignal]
  split
  · exact .refused (canonical_refuseAt hs)
  · split
    · next waits => exact .wait ((canonicalCheck_spanOk hs).of_wait waits)
    · exact .refused (canonical_refuseAt hs)
    · split
      · next waits => exact .wait ((hread _ _ _).of_wait waits)
      · exact .refused (canonical_refuseAt hs)
      · next read => exact .done (canonical_noteExternal (canonical_addObj (canonical_writeRunAs ((hread _ _ _).of_ok read) ..) ..))

theorem canonicalRes_execSignalCmd {r : CmdRef} (hs : Canonical s) : CanonicalRes (execSignalCmd r s) := by
  simp only [execSignalCmd]
  refine canonicalRes_withCmd hs (fun _ => ?_)
  split
  · exact .next (canonical_cmdAny hs)
  split
  · split
    · exact .next (canonical_endCmd hs)
    · exact .next hs
  split
  · exact .next (canonical_endCmd hs)
  split
  · split
    · exact .next (canonical_endCmd ((canonicalServed_serveSignal hs).of_done ‹_›))
    · exact .next (canonical_endCmd ((canonicalServed_serveSignal hs).of_refused ‹_›))
    · exact .next ((canonicalServed_serveSignal hs).of_wait ‹_›)
  split
  · exact .next (canonical_endCmd hs)
  split
  · exact .next hs
  · exact .next (canonical_putFlight (canonical_addObj ((canonicalOpt_sendFrame hs).of_some ‹_›) ..))

theorem canonicalRes_execFenceCmd {r : CmdRef} (hs : Canonical s) : CanonicalRes (execFenceCmd r s) := by
  simp only [execFenceCmd]
  refine canonicalRes_withCmd hs (fun _ => ?_)
  split
  · exact .next (canonical_cmdAny hs)
  · exact .next (canonical_endCmd (canonical_setChan hs))

theorem canonicalRes_execReservedCommand {r : CmdRef} (hs : Canonical s) : CanonicalRes (execReservedCommand r s) := by
  simp only [execReservedCommand]
  refine canonicalRes_withSome hs (fun _ => ?_)
  split
  · exact .refused
  split
  · exact .next (canonical_endCmd hs)
  · exact .next (canonical_cmdAny hs)

theorem canonical_stopCmd {ch : Nat} {c : Cmd} {st : Nat} (hs : Canonical s) : Canonical (stopCmd s ch c st) := by
  simp only [stopCmd]
  split
  · exact hs
  · exact canonical_ite (canonical_endXfer hs) (canonical_endCmd hs)

theorem canonicalRes_advanceCmd {ch seq : Nat} (hs : Canonical s) : CanonicalRes (advanceCmd s ch seq) := by
  simp only [advanceCmd]
  split
  · exact .next hs
  split
  · exact .next (canonical_endCmd hs)
  split
  · exact canonicalRes_xfer hs
  split
  · exact canonicalRes_execSignalCmd hs
  · exact .next hs

end Sys2Proof.Machine
end

section
/-! SUPPORT. Canonical forms kept by the ember store (R208 to R228): one fact for each operation, in the order of the model. -/

namespace Sys2Proof.Machine

variable {s t : State}

/-! ### Maps, moves and tiering (Ember) -/

theorem canonical_startMoves {n : Nat} (hs : Canonical s) : Canonical (startMoves s n) := canonical_ite hs (canonical_setSlice hs _)

theorem canonicalCheck_emSpan {n : Nat} {c : Cmd} {addr len : Nat} (hs : Canonical s) : CanonicalCheck (emSpan s n c addr len) :=
  canonicalCheck_spanOkBy hs

theorem canonicalRead_emRead {n : Nat} {c : Cmd} {addr len : Nat} (hs : Canonical s) : CanonicalRead (emRead s n c addr len) :=
  canonicalRead_readRunAs hs

theorem canonical_emWrite {n : Nat} {c : Cmd} {addr : Nat} {bs : List Byte} (hs : Canonical s) : Canonical (emWrite s n c addr bs) :=
  canonical_writeRunAs hs ..

theorem canonicalElem_withResult {n : Nat} {c : Cmd} {addr size : Nat} {k : Unit → Except Unit (State × List Byte)} (hs : Canonical s)
    (hk : ∀ x0, CanonicalTry (k x0)) : CanonicalElem (withResult s n c addr size k) := by
  simp only [withResult]
  split
  · exact .stop ((canonicalCheck_ite .ok (canonicalCheck_emSpan hs)).of_error ‹_›)
  split
  · exact .ok (canonical_emWrite ((hk _).of_ok ‹_›))
  · exact .refused (canonical_emWrite hs)

theorem canonicalRes_elemGo {ch : Nat} {f : Cmd → State → Elem} {total n : Nat} {x : Cmd} (hf : ∀ x0 s', Canonical s' → CanonicalElem (f x0 s'))
    (hs : Canonical s) : CanonicalRes (elemGo ch f total n x s) := by
  induction n generalizing x s with
  | zero =>
    simp only [elemGo]
    exact .next hs
  | succ n ih =>
    simp only [elemGo]
    split
    · exact .next (canonical_startMoves (canonical_endCmd hs))
    split
    · exact ih (canonical_putFlight (canonical_served ((hf _ _ hs).of_ok ‹_›) _))
    · exact .next (canonical_startMoves (canonical_endCmd ((hf _ _ hs).of_refused ‹_›)))
    · exact canonicalRes_cmdStop hs ((hf _ _ hs).of_stop ‹_›)

theorem canonicalRes_elemOne {ch : Nat} {f : Cmd → State → Elem} {total : Nat} {c : Cmd} (hf : ∀ x0 s', Canonical s' → CanonicalElem (f x0 s'))
    (hs : Canonical s) : CanonicalRes (elemOne ch f total c s) := by
  simp only [elemOne]
  split
  · split
    · exact canonicalRes_elemGo (fun _ _ hs' => hf _ _ hs') (canonical_putFlight (canonical_served ((hf _ _ hs).of_ok ‹_›) _))
    · exact .next (canonical_putFlight (canonical_served ((hf _ _ hs).of_ok ‹_›) _))
  · exact canonicalRes_elemGo (fun _ _ hs' => hf _ _ hs') hs

theorem canonicalRes_mapOp {op : Nat} {r : CmdRef} {total : Cmd → Nat} {f : Cmd → State → Elem} (hs : Canonical s)
    (hf : ∀ x0 s', Canonical s' → CanonicalElem (f x0 s')) : CanonicalRes (mapOp op r s total f) := by
  simp only [mapOp]
  refine canonicalRes_withCmd hs (fun _ => ?_)
  split
  · exact .next (canonical_cmdAny hs)
  split
  · exact .refused
  · exact canonicalRes_elemGo (fun _ _ hs' => hf _ _ hs') hs

theorem canonicalRead_handleAt {n : Nat} {c : Cmd} (hs : Canonical s) : CanonicalRead (handleAt s n c) := by
  simp only [handleAt]
  split
  · exact .error ((canonicalRead_emRead hs).of_error ‹_›)
  · exact .ok ((canonicalRead_emRead hs).of_ok ‹_›)

theorem canonicalElem_onEntry {n size : Nat} {c : Cmd} {k : State → Nat → CtxEntry → Except Unit (State × List Byte)} (hs : Canonical s)
    (hk : ∀ s' x1 x2, Canonical s' → CanonicalTry (k s' x1 x2)) : CanonicalElem (onEntry n size c s k) := by
  simp only [onEntry]
  split
  · exact .stop ((canonicalRead_handleAt hs).of_error ‹_›)
  split
  · exact .stop (.wait ((canonicalRead_handleAt hs).of_ok ‹_›))
  refine canonicalElem_withResult (canonical_mapLookup ((canonicalRead_handleAt hs).of_ok ‹_›)) (fun _ => ?_)
  split
  · exact .error
  · exact hk _ _ _ (canonical_mapLookup ((canonicalRead_handleAt hs).of_ok ‹_›))

theorem canonicalOpt_donateGo {n n1 n2 : Nat} (hs : Canonical s) : CanonicalOpt (donateGo n n1 n2 s) := by
  induction n1 generalizing n2 s with
  | zero =>
    simp only [donateGo]
    exact .some hs
  | succ n ih =>
    simp only [donateGo]
    split
    · exact .none
    · exact ih (canonical_setSlice hs _)

theorem canonicalRes_execDonate {r : CmdRef} (hs : Canonical s) : CanonicalRes (execDonate r s) := by
  refine canonicalRes_mapOp hs fun c s hs => ?_
  split
  · next donated =>
    split at donated
    · exact .ok (canonical_recount ((canonicalOpt_donateGo hs).of_some donated))
    · cases donated
  · exact .refused hs

theorem canonicalOpt_reclaimGo {n n1 n2 : Nat} (hs : Canonical s) : CanonicalOpt (reclaimGo n n1 n2 s) := by
  induction n1 generalizing n2 s with
  | zero =>
    simp only [reclaimGo]
    exact .some hs
  | succ n ih =>
    simp only [reclaimGo]
    split
    · exact .none
    split
    · exact .none
    · exact ih (canonical_setSlice hs _)

theorem canonicalRes_execReclaim {r : CmdRef} (hs : Canonical s) : CanonicalRes (execReclaim r s) := by
  refine canonicalRes_mapOp hs fun c s hs => ?_
  split
  · next reclaimed =>
    split at reclaimed
    · exact .ok (canonical_recount ((canonicalOpt_reclaimGo hs).of_some reclaimed))
    · cases reclaimed
  · exact .refused hs

theorem canonicalRes_execAlloc {r : CmdRef} (hs : Canonical s) : CanonicalRes (execAlloc r s) := by
  simp only [execAlloc]
  refine canonicalRes_mapOp hs (fun _ _ hs' => canonicalElem_withResult (canonical_mapLookup hs') (fun _ => ?_))
  split
  · exact .error
  split
  · exact .ok (canonical_mapLookup hs')
  split
  · exact .error
  · exact .ok (canonical_ite (canonical_updFlight (canonical_foldl (fun _ _ hs'' => canonical_putEntry hs'') _ (canonical_mapLookup hs')))
      (canonical_foldl (fun _ _ hs'' => canonical_putEntry hs'') _ (canonical_mapLookup hs')))

theorem canonicalRes_execRefEntry {r : CmdRef} (hs : Canonical s) : CanonicalRes (execRefEntry r s) := by
  simp only [execRefEntry]
  refine canonicalRes_mapOp hs (fun _ _ hs' => canonicalElem_onEntry hs' (fun _ _ _ hs'' => ?_))
  split
  · exact .error
  · exact .ok (canonical_putEntry hs'')

theorem canonicalRes_execFreeEntry {r : CmdRef} (hs : Canonical s) : CanonicalRes (execFreeEntry r s) := by
  simp only [execFreeEntry]
  refine canonicalRes_mapOp hs (fun _ _ hs' => canonicalElem_onEntry hs' (fun _ _ _ hs'' => ?_))
  split
  · exact .ok (canonical_putEntry hs'')
  · exact .ok (canonical_ite (canonical_releaseStorage (canonical_putEntry hs'')) (canonical_putEntry hs''))

theorem canonicalRes_execQueryEntry {r : CmdRef} (hs : Canonical s) : CanonicalRes (execQueryEntry r s) :=
  canonicalRes_mapOp hs (fun _ _ hs' => canonicalElem_onEntry hs' (fun _ _ _ hs'' => .ok hs''))

theorem canonicalRes_execSetEntry {r : CmdRef} (hs : Canonical s) : CanonicalRes (execSetEntry r s) :=
  canonicalRes_mapOp hs (fun _ _ hs' => canonicalElem_onEntry hs' (fun _ _ _ hs'' => .ok (canonical_putEntry hs'')))

theorem canonicalRes_execLayoutCmd {r : CmdRef} (hs : Canonical s) : CanonicalRes (execLayoutCmd r s) := by
  simp only [execLayoutCmd]
  refine canonicalRes_withCmd hs (fun _ => ?_)
  split
  · exact .next (canonical_cmdAny hs)
  refine canonicalRes_mapOp hs (fun _ _ hs' => ?_)
  split
  · exact .refused hs'
  · exact .ok (canonical_putObj hs' ..)

theorem canonicalRead_readStage {n : Nat} {c : Cmd} {base h d n1 : Nat} {n2 : Nat} (hs : Canonical s) :
    CanonicalRead (readStage n c base h d n1 s n2) := by
  induction n1 generalizing s n2 with
  | zero =>
    simp only [readStage]
    exact .ok hs
  | succ n ih =>
    simp only [readStage]
    split
    · exact .error ((canonicalRead_emRead hs).of_error ‹_›)
    split
    · exact .error ((ih ((canonicalRead_emRead hs).of_ok ‹_›)).of_error ‹_›)
    · exact .ok ((ih ((canonicalRead_emRead hs).of_ok ‹_›)).of_ok ‹_›)

theorem canonicalRead_readPlanes {n : Nat} {c : Cmd} {d n1 : Nat} {n2 : Nat} (hs : Canonical s) : CanonicalRead (readPlanes n c d n1 s n2) := by
  induction n1 generalizing s n2 with
  | zero =>
    simp only [readPlanes]
    exact .ok hs
  | succ n ih =>
    simp only [readPlanes]
    split
    · exact .error ((canonicalRead_readStage hs).of_error ‹_›)
    split
    · exact .error ((canonicalRead_readStage ((canonicalRead_readStage hs).of_ok ‹_›)).of_error ‹_›)
    split
    · exact .error ((ih ((canonicalRead_readStage ((canonicalRead_readStage hs).of_ok ‹_›)).of_ok ‹_›)).of_error ‹_›)
    · exact .ok ((ih ((canonicalRead_readStage ((canonicalRead_readStage hs).of_ok ‹_›)).of_ok ‹_›)).of_ok ‹_›)

theorem canonicalOptPair_switchEntry {n h : Nat} {e : CtxEntry} {tier addr kf vf valid : Nat} (hs : Canonical s) :
    CanonicalOptPair (switchEntry s n h e tier addr kf vf valid) := by
  simp only [switchEntry]
  split
  · split
    · exact .none
    · exact .some (canonical_addObj (canonical_putEntry (canonical_putEntry hs)) ..)
  · exact .some (canonical_ite (canonical_releaseStorage (canonical_putEntry hs)) (canonical_putEntry hs))

theorem canonical_countSpecial {n : Nat} {vs : List FVal} (hs : Canonical s) : Canonical (countSpecial s n vs) :=
  canonical_addObj (canonical_addObj hs ..) ..

theorem canonicalTry_storeBlock {n h : Nat} {e : CtxEntry} {place : Nat × Nat} {kf vf valid : Nat} {bs : List Byte} (hs : Canonical s) :
    CanonicalTry (storeBlock s n h e place kf vf valid bs) := by
  simp only [storeBlock]
  split
  · exact .error
  · exact .ok ((canonicalOptPair_switchEntry (canonical_writePa hs)).of_some ‹_›)

/-- What a block transaction does to its entry: a stop, a refusal, or a state with the bytes to answer. -/
inductive CanonicalBlock : Except Stop (Except Unit (State × List Byte)) → Prop
  | ok {r : Except Unit (State × List Byte)} : CanonicalTry r → CanonicalBlock (.ok r)
  | error {e : Stop} : CanonicalStop e → CanonicalBlock (.error e)

theorem CanonicalBlock.of_ok {r : Except Stop (Except Unit (State × List Byte))} {t : State} {bs : List Byte} (h : CanonicalBlock r)
    (is : r = .ok (.ok (t, bs))) : Canonical t := by
  cases h <;> cases is
  exact CanonicalTry.of_ok ‹_› rfl

theorem CanonicalBlock.of_error {r : Except Stop (Except Unit (State × List Byte))} {e : Stop} (h : CanonicalBlock r) (is : r = .error e) :
    CanonicalStop e := by
  cases h <;> cases is
  assumption

theorem canonicalElem_onBlock {n : Nat} {c : Cmd} {k : State → Nat → CtxEntry → Except Stop (Except Unit (State × List Byte))}
    (hs : Canonical s) (hk : ∀ s h e, Canonical s → CanonicalBlock (k s h e)) : CanonicalElem (onBlock n c s k) := by
  simp only [onBlock]
  split
  · next stops => exact .stop ((canonicalRead_handleAt hs).of_error stops)
  · next is =>
    have ht := (canonicalRead_handleAt hs).of_ok is
    split
    · exact .stop (.wait ht)
    · have hu := canonical_mapLookup ht
      split
      · next stops => exact .stop ((canonicalCheck_emSpan hu).of_error stops)
      · split
        · exact .refused (canonical_emWrite hu)
        · split
          · next stops => exact .stop ((hk _ _ _ hu).of_error stops)
          · exact .refused (canonical_emWrite hu)
          · next is => exact .ok (canonical_emWrite ((hk _ _ _ hu).of_ok is))

theorem canonicalElem_encodeElem {n : Nat} {c : Cmd} (hs : Canonical s) : CanonicalElem (encodeElem n c s) := by
  refine canonicalElem_onBlock hs fun s h e hs => ?_
  simp only
  split
  · exact .ok .error
  · split
    · exact .ok .error
    · split
      · next stops => exact .error ((canonicalCheck_reachPa hs).of_error stops)
      · split
        · next stops => exact .error ((canonicalRead_readPlanes hs).of_error stops)
        · next read => exact .ok (canonicalTry_storeBlock (canonical_countSpecial ((canonicalRead_readPlanes hs).of_ok read)))

theorem canonicalCheck_rowsOk {n : Nat} {c : Cmd} {l : List (Nat × List Byte)} (hs : Canonical s) : CanonicalCheck (rowsOk s n c l) := by
  induction l with
  | nil =>
    simp only [rowsOk]
    exact .ok
  | cons x l ih =>
    simp only [rowsOk]
    split
    · exact .error ((canonicalCheck_emSpan hs).of_error ‹_›)
    · exact ih

theorem canonicalElem_decodeElem1 {n : Nat} {c : Cmd} (hs : Canonical s) : CanonicalElem (decodeElem1 n c s) := by
  refine canonicalElem_onBlock hs fun s h e hs => ?_
  simp only
  split
  · exact .ok (.ok hs)
  · split
    · next stops => exact .error ((canonicalRead_readPa hs).of_error stops)
    · next read =>
      have ht := (canonicalRead_readPa hs).of_ok read
      split
      · next stops => exact .error ((canonicalCheck_rowsOk ht).of_error stops)
      · exact .ok (.ok (canonical_foldl (fun _ _ hu => canonical_emWrite hu) _ ht))

theorem canonicalElem_migrateElem {n : Nat} {c : Cmd} (hs : Canonical s) : CanonicalElem (migrateElem n c s) := by
  refine canonicalElem_onBlock hs fun s h e hs => ?_
  simp only
  split
  · exact .ok .error
  · split
    · exact .ok .error
    · split
      · next stops => exact .error ((canonicalCheck_reachPa hs).of_error stops)
      · split
        · next stops => exact .error ((canonicalRead_readPa hs).of_error stops)
        · next read => exact .ok (canonicalTry_storeBlock (canonical_countSpecial ((canonicalRead_readPa hs).of_ok read)))

theorem canonicalElem_moveElem {n : Nat} {c : Cmd} (hs : Canonical s) : CanonicalElem (moveElem n c s) := by
  simp only [moveElem]
  split
  · exact canonicalElem_encodeElem hs
  split
  · exact canonicalElem_decodeElem1 hs
  · exact canonicalElem_migrateElem hs

theorem canonicalRes_moveOp {op : Nat} {r : CmdRef} (hs : Canonical s) : CanonicalRes (moveOp op r s) := by
  simp only [moveOp]
  refine canonicalRes_withCmd hs (fun _ => ?_)
  split
  · exact .next (canonical_cmdAny hs)
  split
  · exact .refused
  · exact canonicalRes_elemGo (fun _ _ hs' => canonicalElem_moveElem hs') hs

theorem canonicalRes_execContextBlockTransaction {r : CmdRef} (hs : Canonical s) : CanonicalRes (execContextBlockTransaction r s) := by
  simp only [execContextBlockTransaction]
  refine canonicalRes_withCmd hs (fun _ => ?_)
  split
  · exact .next (canonical_cmdAny hs)
  split
  · exact canonicalRes_elemGo (fun _ _ hs' => canonicalElem_moveElem hs') hs
  · exact canonicalRes_elemOne (fun _ _ hs' => canonicalElem_moveElem hs') hs

theorem canonical_takeDemoting {n : Nat} (hs : Canonical s) : Canonical (takeDemoting s n) := canonical_setSlice hs _

theorem canonical_evaluateTiering {n : Nat} (hs : Canonical s) : Canonical (evaluateTiering s n) :=
  canonical_startMoves (canonical_setSlice (canonical_takeDemoting hs) _)

theorem canonical_dropMove {n : Nat} {m : Move} (hs : Canonical s) : Canonical (dropMove s n m) := canonical_setSlice hs _

theorem canonicalRes_execTieringMoveComplete {n : Nat} (hs : Canonical s) : CanonicalRes (execTieringMoveComplete n s) := by
  simp only [execTieringMoveComplete]
  refine canonicalRes_withSome hs (fun _ => ?_)
  split
  · exact .next (canonical_startMoves (canonical_dropMove hs))
  split
  · exact .next (canonical_startMoves (canonical_setSlice (canonical_dropMove hs) _))
  split
  · exact .next (canonical_startMoves (canonical_dropMove hs))
  split
  · exact .next ((canonicalCheck_reachPa hs).of_wait ‹_›)
  · exact .next ((canonicalRead_readPa hs).of_wait ‹_›)
  · exact .next (canonical_startMoves (canonical_dropMove (canonical_addObj (canonical_addObj
      (canonical_releaseStorage (canonical_putEntry (canonical_writePa (canonical_countSpecial ((canonicalRead_readPa hs).of_ok ‹_›))))) ..) ..)))
  · exact .next (canonical_startMoves (canonical_dropMove hs))

theorem canonical_countHeatTick {n : Nat} (hs : Canonical s) : Canonical (countHeatTick s n) := canonical_setSlice hs _

theorem canonicalRes_execHeatDecay {n : Nat} (hs : Canonical s) : CanonicalRes (execHeatDecay n s) := by
  unfold execHeatDecay
  exact canonicalRes_onlyIf hs (.next (canonical_evaluateTiering (canonical_setSlice hs _)))

end Sys2Proof.Machine
end

section
/-! SUPPORT. Canonical forms kept by the matrix engine, rows of launches and the stoker (R84, R92 to R100, R144 to R149, R273 to R286): one fact for
each operation, in the order of the model. -/

namespace Sys2Proof.Machine

variable {s t : State}

/-! ### The matrix queue (Matrix) -/

theorem canonicalRes_matrixIssue {op : Nat} {g : GroupRef} {w : Word64} (hs : Canonical s) : CanonicalRes (matrixIssue op g w s) := by
  simp only [matrixIssue]
  refine canonicalRes_runInstr hs (fun _ _ hs' => ?_)
  split
  · exact .fault hs'
  split
  · exact .wait hs'
  · exact .step (canonical_setCore hs')

theorem canonical_putTile {a : MatAt} {i : Nat} {t : Tile} (hs : Canonical s) : Canonical (putTile s a i t) := canonical_updGang hs

theorem canonicalMat_doGmma {a : MatAt} (hs : Canonical s) : CanonicalMat (doGmma a s) := by
  simp only [doGmma]
  split
  · exact .any
  split
  · exact .fault
  split
  · exact .fault
  · exact .done (canonical_addObj (canonical_putTile hs) ..)

theorem canonicalMat_doAccZero {a : MatAt} (hs : Canonical s) : CanonicalMat (doAccZero a s) := .done (canonical_putTile hs)

theorem canonicalRead_engineRead {by_ : Asker} {core n a len : Nat} (hs : Canonical s) : CanonicalRead (engineRead by_ s core n a len) := by
  simp only [engineRead]
  split
  · exact .error ((canonicalRead_readRunAs hs).of_error ‹_›)
  refine .ok (canonical_foldl (fun _ _ hs' => ?_) _ ((canonicalRead_readRunAs hs).of_ok ‹_›))
  split
  · exact canonical_dropL1 hs'
  · exact hs'

theorem canonical_ldRows {by_ : Asker} {core n : Nat} {d : TileDesc} {ms : List Nat} {bs : List Byte} (hs : Canonical s)
    (is : ldRows by_ core n d ms s = .ok (t, bs)) : Canonical t := by
  induction ms generalizing s bs with
  | nil => cases is; exact hs
  | cons m ms ih =>
    simp only [ldRows] at is
    split at is
    · cases is
    · next read =>
      have hu := (canonicalRead_engineRead hs).of_ok read
      split at is
      · cases is
      · next rest => cases is; exact ih hu rest

theorem canonical_ldRows_waits {by_ : Asker} {core n a : Nat} {d : TileDesc} {ms : List Nat} (hs : Canonical s)
    (is : ldRows by_ core n d ms s = .error (a, .wait t)) : Canonical t := by
  induction ms generalizing s with
  | nil => cases is
  | cons m ms ih =>
    simp only [ldRows] at is
    split at is
    · next stops => cases is; exact (canonicalRead_engineRead hs).of_wait stops
    · next read =>
      have hu := (canonicalRead_engineRead hs).of_ok read
      split at is
      · next stops => cases is; exact ih hu stops
      · cases is

theorem canonicalMat_doAccLd {a : MatAt} (hs : Canonical s) : CanonicalMat (doAccLd a s) := by
  simp only [doAccLd]
  split
  · exact .any
  · split
    · split
      · exact .fault
      · exact .done (canonical_putTile hs)
    · split
      · next landed => exact .wait ((canonical_landAll hs).of_pair landed)
      · next landed =>
        have ht := (canonical_landAll hs).of_pair landed
        split
        · next rows => exact .done (canonical_putTile (canonical_ldRows ht rows))
        · exact .fault
        · next waits => exact .wait (canonical_ldRows_waits ht waits)
        · exact .absent
        · exact .any

theorem canonical_stBlocked_waits {by_ : Asker} {n a : Nat} {runs : List (Nat × List Byte)} (hs : Canonical s)
    (is : stBlocked by_ s n runs = some (a, .wait t)) : Canonical t := by
  induction runs with
  | nil => cases is
  | cons r rs ih =>
    simp only [stBlocked] at is
    split at is
    · next stops => cases is; exact (canonicalCheck_spanOkBy hs).of_wait stops
    · exact ih is

theorem canonicalMat_doAccSt {a : MatAt} (hs : Canonical s) : CanonicalMat (doAccSt a s) := by
  have ht := canonical_useFree hs 4096
  unfold doAccSt
  extract_lets w i d rm old fr t rows raised runs
  split
  · exact .any
  · split
    · exact .fault
    · split
      · split
        · exact .fault
        · exact .done (canonical_updGang ht)
      · split
        · exact .fault
        · next waits => exact .wait (canonical_stBlocked_waits ht waits)
        · exact .absent
        · exact .any
        · split
          · exact .any
          · exact .done (canonical_pushStores ht)

theorem canonical_matrixAny {a : MatAt} (hs : Canonical s) : Canonical (matrixAny a s) :=
  canonical_ite (canonical_raiseFault (canonical_useFree (canonical_unpredictable hs) _))
    (canonical_putTile (canonical_useFree (canonical_useFree (canonical_unpredictable hs) _) _))

theorem canonical_popMatrix {core : Nat} (hs : Canonical s) : Canonical (popMatrix s core) := canonical_setCore hs

theorem canonicalRes_execMatrixQueueExecute {core : Nat} (hs : Canonical s) : CanonicalRes (execMatrixQueueExecute core s) := by
  unfold execMatrixQueueExecute
  extract_lets c
  refine canonicalRes_onlyIf hs (canonicalRes_withSome hs fun e => canonicalRes_withSome hs fun l =>
    canonicalRes_onlyIf hs (canonicalRes_withSome hs fun g => ?_))
  have done : CanonicalMat (match fOpcode e.word with
      | 0xC0 => doGmma { l := l, g := g, e := e } s
      | 0xC1 => doAccZero { l := l, g := g, e := e } s
      | 0xC2 => doAccLd { l := l, g := g, e := e } s
      | _ => doAccSt { l := l, g := g, e := e } s) := by
    split
    · exact canonicalMat_doGmma hs
    · exact canonicalMat_doAccZero hs
    · exact canonicalMat_doAccLd hs
    · exact canonicalMat_doAccSt hs
  simp only
  split
  · next is => exact .next (canonical_reapGangs (canonical_popMatrix (canonical_served (done.of_done is) _)))
  · next is => exact .next (done.of_wait is)
  · exact .next (canonical_reapGangs (canonical_popMatrix (canonical_raiseFault hs)))
  · exact .fault
  · exact .next (canonical_reapGangs (canonical_popMatrix (canonical_matrixAny hs)))

/-! ### Rows of a launch (Slicing) -/

theorem canonicalOpt_layGangs {ok : State → Launch → Nat → Bool} {at_ : Gang → List Nat} {l : Launch} {l1 : List Gang} (hs : Canonical s) :
    CanonicalOpt (layGangs ok at_ l l1 s) := by
  induction l1 generalizing s with
  | nil =>
    simp only [layGangs]
    exact .some hs
  | cons x l ih =>
    simp only [layGangs]
    split
    · exact .none
    · exact ih (canonical_updLaunch hs)

theorem canonicalOpt_layLaunch {l : Launch} {rows : List Nat} {ph : Phase} {rot : Nat} (hs : Canonical s) :
    CanonicalOpt (layLaunch s l rows ph rot) :=
  canonicalOpt_layGangs (canonical_setLaunch hs)

theorem canonical_plan {n : Nat} (hs : Canonical s) : Canonical (plan s n).1 := canonical_with_free hs

theorem canonical_startLaunch {l : Launch} (hs : Canonical s) : Canonical (startLaunch s l) := by
  simp only [startLaunch]
  split
  · split
    · exact (canonicalOpt_layLaunch (canonical_useFree hs _)).of_some ‹_›
    · exact canonical_getD (canonicalOpt_layLaunch hs) hs
  · exact canonical_placeAll (canonical_setLaunch hs)

theorem canonical_startSlice {n : Nat} (hs : Canonical s) : Canonical (startSlice s n) :=
  canonical_foldl (fun _ _ hs' => canonical_startLaunch hs') _ (canonical_plan hs)

/-! ### Streams of a gang (Stoker) -/

theorem canonical_putStream {ctx gang : Nat} {t : Stream} (hs : Canonical s) : Canonical (putStream s ctx gang t) := canonical_updGang hs

theorem canonical_stopStream {ctx gang n core : Nat} (hs : Canonical s) : Canonical (stopStream s ctx gang n core) :=
  canonical_dropReads (canonical_updGang (canonical_served hs _))

theorem canonicalRes_stokerOp {op : Nat} {g : GroupRef} {w : Word64} {f : State → Here → Act} (hs : Canonical s)
    (hf : ∀ s' x1, Canonical s' → CanonicalAct (f s' x1)) : CanonicalRes (stokerOp op g w s f) := by
  simp only [stokerOp]
  refine canonicalRes_runInstr hs (fun _ _ hs' => ?_)
  split
  · exact hf _ _ hs'
  · exact .any hs'

theorem canonicalRes_execStkStart {g : GroupRef} {w : Word64} (hs : Canonical s) : CanonicalRes (execStkStart g w s) := by
  simp only [execStkStart]
  refine canonicalRes_stokerOp hs (fun _ _ hs' => ?_)
  split
  · exact .wait hs'
  split
  · exact .fault hs'
  · exact .step (canonical_putStream (canonical_stopStream hs'))

theorem canonicalRes_takeWith {op : Nat} {g : GroupRef} {w : Word64} {pick : Here → List Nat → Option Nat} (hs : Canonical s) :
    CanonicalRes (takeWith op g w s pick) := by
  simp only [takeWith]
  refine canonicalRes_stokerOp hs (fun _ _ hs' => ?_)
  split
  · exact .step hs'
  split
  · exact .any hs'
  split
  · exact .step hs'
  split
  · exact .step (canonical_putStream hs')
  split
  · exact .step hs'
  · exact .wait hs'

theorem canonicalRes_execStkGive {g : GroupRef} {w : Word64} (hs : Canonical s) : CanonicalRes (execStkGive g w s) := by
  simp only [execStkGive]
  refine canonicalRes_stokerOp hs (fun _ _ hs' => ?_)
  split
  · exact .wait hs'
  split
  · exact .any hs'
  split
  · exact .any hs'
  split
  · exact .wait hs'
  split
  · exact .any hs'
  · exact .step (canonical_putStream hs')

theorem canonicalRes_execStkStop {g : GroupRef} {w : Word64} (hs : Canonical s) : CanonicalRes (execStkStop g w s) :=
  canonicalRes_stokerOp hs (fun _ _ hs' => .step (canonical_stopStream hs'))

theorem canonicalRes_execStkWait {g : GroupRef} {w : Word64} (hs : Canonical s) : CanonicalRes (execStkWait g w s) := by
  simp only [execStkWait]
  refine canonicalRes_stokerOp hs (fun _ _ hs' => ?_)
  split
  · exact .step hs'
  split
  · exact .any hs'
  split
  · exact .wait hs'
  · exact .step hs'

theorem canonicalWork_ofStop {α : Type} {addr : Nat} {x : Stop} (hs : Canonical s) (hx : CanonicalStop x) :
    CanonicalWork (α := α) (.ofStop s addr x) := by
  cases hx with
  | cause => exact .fault hs
  | wait ht => exact .wait ht
  | absent => exact .absent
  | any => exact .any hs

theorem canonical_streamFill {a : StkAt} {space addr : Nat} (hs : Canonical s) : Canonical (streamFill a s space addr).1 := by
  simp only [streamFill]
  split
  · exact hs
  · exact canonical_ite_fst (canonical_detectHit hs) (canonical_detectMiss hs)

theorem canonicalWork_readPiece {a : StkAt} {addr n : Nat} (hs : Canonical s) : CanonicalWork (readPiece a s addr n) := by
  unfold readPiece
  split
  · split
    · exact .wait hs
    · split
      · next is => exact .done ((canonicalGot_sysRead hs).of_got is)
      · next is => exact .wait ((canonicalGot_sysRead hs).of_wait is)
      · next is => exact .fault ((canonicalGot_sysRead hs).of_fault is)
  · split
    · next landed => exact .wait ((canonical_landAll hs).of_pair landed)
    · next landed =>
      have ht := (canonical_landAll hs).of_pair landed
      extract_lets space
      split
      next filled =>
      have hu := (canonical_streamFill ht).of_pair filled
      split
      · next read => exact .done ((canonicalRead_readRunAs hu).of_ok read)
      · next stops => exact canonicalWork_ofStop hu ((canonicalRead_readRunAs hu).of_error stops)

theorem canonicalWork_readPieces {a : StkAt} {l : List (Nat × Nat × Nat)} (hs : Canonical s) : CanonicalWork (readPieces a l s) := by
  induction l generalizing s with
  | nil =>
    simp only [readPieces]
    exact .done hs
  | cons x l ih =>
    simp only [readPieces]
    split
    · split
      · exact .done ((ih ((canonicalWork_readPiece hs).of_done ‹_›)).of_done ‹_›)
      · exact ih ((canonicalWork_readPiece hs).of_done ‹_›)
    · split
      · exact .wait ((ih ((canonicalWork_readPiece hs).of_wait ‹_›)).of_done ‹_›)
      · exact ih ((canonicalWork_readPiece hs).of_wait ‹_›)
    · exact canonicalWork_readPiece hs

theorem canonicalWork_writablePieces {a : StkAt} {ps : List (Nat × Nat × Nat)} (hs : Canonical s) :
    CanonicalWork (writablePieces a ps s) := by
  induction ps generalizing s with
  | nil => exact .done hs
  | cons p ps ih =>
    unfold writablePieces
    extract_lets r
    have hr : CanonicalWork r := by
      simp only [r]
      split
      · split
        · exact .fault hs
        · split
          · exact .done hs
          · exact .fault hs
      · split
        · exact .done hs
        · next stops => exact canonicalWork_ofStop hs ((canonicalCheck_spanOkBy hs).of_error stops)
    clear_value r
    split
    · exact ih (hr.of_done rfl)
    · exact hr

theorem canonical_writePieces {a : StkAt} {data : List Byte} {l : List (Nat × Nat × Nat)} (hs : Canonical s) :
    Canonical (writePieces a data l s).1 := by
  induction l generalizing s with
  | nil =>
    simp only [writePieces]
    exact hs
  | cons x l ih =>
    simp only [writePieces]
    split
    · split
      · exact hs
      split
      · exact ih ((canonical_sysStore hs).of_pair ‹_›)
      · exact (canonical_sysStore hs).of_pair ‹_›
    · exact ih (canonical_writeRunAs hs ..)

theorem canonical_freeBytes {n : Nat} (hs : Canonical s) : Canonical (freeBytes s n).1 := canonical_useFree hs _

theorem canonicalRead_partOf {n : Nat} {e : CtxEntry} {head : Nat} {value : Bool} (hs : Canonical s) : CanonicalRead (partOf s n e head value) := by
  simp only [partOf]
  split
  · exact .error ((canonicalRead_readPa hs).of_error ‹_›)
  split
  · exact .error ((canonicalRead_readPa ((canonicalRead_readPa hs).of_ok ‹_›)).of_error ‹_›)
  · exact .ok ((canonicalRead_readPa ((canonicalRead_readPa hs).of_ok ‹_›)).of_ok ‹_›)

theorem canonical_decodePart {n dst d fmt pscale : Nat} {bs : List Byte} (hs : Canonical s) : Canonical (decodePart s n dst d fmt pscale bs).1 :=
  canonical_ite_fst (canonical_ite_fst hs (canonical_addObj hs ..)) hs

theorem canonical_lookupAt {n : Nat} {d : Desc} {i : Nat} (hs : Canonical s) : Canonical (lookupAt s n d i).1 :=
  canonical_ite_fst hs (canonical_ite_fst (canonical_mapLookup hs) (canonical_mapLookup hs))

theorem canonicalWork_slotParts {n : Nat} {t : Stream} {head : Nat} {value : Bool} {is : List Nat} {dim : Option Nat}
    (hs : Canonical s) : CanonicalWork (slotParts n t head value is s dim) := by
  induction is generalizing s dim with
  | nil => exact .done hs
  | cons i is ih =>
    unfold slotParts
    split
    · next looked => exact .fault ((canonical_lookupAt hs).of_pair looked)
    · next looked =>
      have ht := (canonical_lookupAt hs).of_pair looked
      extract_lets +onlyGivenNames w known
      split
      · exact .any ht
      · extract_lets +onlyGivenNames dim
        split
        · split
          · next rest => exact .done ((ih ht).of_done rest)
          · exact ih ht
        · split
          · next stops => exact canonicalWork_ofStop ht ((canonicalRead_partOf ht).of_error stops)
          · next part =>
            have hu := (canonicalRead_partOf ht).of_ok part
            extract_lets +onlyGivenNames hd x u
            split
            next decoded =>
            have hv := (canonical_decodePart (canonical_setSlice hu _)).of_pair decoded
            split
            · next rest => exact .done ((ih hv).of_done rest)
            · exact ih hv

theorem canonicalWork_contextSlot {n : Nat} {t : Stream} {seq : Nat} (hs : Canonical s) :
    CanonicalWork (contextSlot n t seq s) := by
  unfold contextSlot
  extract_lets
  split
  · next is =>
    have ht := (canonicalWork_slotParts hs).of_done is
    extract_lets
    split
    · exact .any ht
    · exact .done ht
  · next is =>
    have ht := (canonicalWork_slotParts hs).of_wait is
    exact .wait ⟨hs.1, ht.2⟩
  · next is => exact .fault ((canonicalWork_slotParts hs).of_fault is)
  · exact .absent
  · next is => exact .any ((canonicalWork_slotParts hs).of_any is)

theorem canonicalRes_stokerAny {a : StkAt} {next : State → State} (hs : Canonical s) (hnext : ∀ s', Canonical s' → Canonical (next s')) :
    CanonicalRes (stokerAny a s next) := by
  simp only [stokerAny]
  split
  · exact .next (canonical_raiseFault (canonical_useFree (canonical_unpredictable hs) _))
  split
  · exact .next (canonical_useFree (canonical_unpredictable hs) _)
  · exact .next (hnext _ (canonical_useFree (canonical_unpredictable hs) _))

theorem canonicalRes_stokerEvent {ctx gang stream : Nat} {f : StkAt → Res} (hs : Canonical s) (hf : ∀ x0, CanonicalRes (f x0)) :
    CanonicalRes (stokerEvent ctx gang stream s f) :=
  canonicalRes_withSome hs (fun _ => canonicalRes_onlyIf hs (canonicalRes_withSome hs
    (fun _ => canonicalRes_onlyIf hs (canonicalRes_withSome hs (fun _ => hf _)))))

theorem canonical_finishFill {a : StkAt} {covered : Nat} {dim : Option Nat} {bs : List Byte} (hs : Canonical s) :
    Canonical (finishFill a covered dim bs s) :=
  canonical_putStream (canonical_addObj (canonical_dropReads (canonical_updGang (canonical_served hs _))) ..)

theorem canonicalWork_fillData {a : StkAt} (hs : Canonical s) : CanonicalWork (fillData a s) := by
  simp only [fillData]
  split
  · split
    · exact .done ((canonicalWork_contextSlot hs).of_done ‹_›)
    · exact .wait ((canonicalWork_contextSlot hs).of_wait ‹_›)
    · exact .fault ((canonicalWork_contextSlot hs).of_fault ‹_›)
    · exact .absent
    · exact .any ((canonicalWork_contextSlot hs).of_any ‹_›)
  split
  · split
    · split
      · exact .any ((canonicalWork_readPieces (canonical_useFree hs _)).of_done ‹_›)
      · exact .done (canonical_useFree ((canonicalWork_readPieces (canonical_useFree hs _)).of_done ‹_›) _)
    · exact .wait ((canonicalWork_readPieces (canonical_useFree hs _)).of_wait ‹_›)
    · exact .fault ((canonicalWork_readPieces (canonical_useFree hs _)).of_fault ‹_›)
    · exact .absent
    · exact .any ((canonicalWork_readPieces (canonical_useFree hs _)).of_any ‹_›)
  split
  · exact .done ((canonicalWork_readPieces hs).of_done ‹_›)
  · exact .wait ((canonicalWork_readPieces hs).of_wait ‹_›)
  · exact .fault ((canonicalWork_readPieces hs).of_fault ‹_›)
  · exact .absent
  · exact .any ((canonicalWork_readPieces hs).of_any ‹_›)

theorem canonicalRes_execStokerSlotFilled {ctx gang stream : Nat} (hs : Canonical s) : CanonicalRes (execStokerSlotFilled ctx gang stream s) := by
  simp only [execStokerSlotFilled]
  refine canonicalRes_stokerEvent hs (fun _ => canonicalRes_onlyIf hs ?_)
  split
  · exact canonicalRes_stokerAny hs (fun _ hs' => canonical_putStream hs')
  refine canonicalRes_onlyIf hs ?_
  split
  · exact .next (canonical_raiseFault hs)
  split
  · exact .next (canonical_finishFill ((canonicalWork_fillData hs).of_done ‹_›))
  · exact .next ((canonicalWork_fillData hs).of_wait ‹_›)
  · exact .next (canonical_raiseFault ((canonicalWork_fillData hs).of_fault ‹_›))
  · exact .fault
  · exact canonicalRes_stokerAny ((canonicalWork_fillData hs).of_any ‹_›) (fun _ hs' => canonical_finishFill (canonical_freeBytes hs'))

theorem canonical_finishDrain {a : StkAt} {covered : Nat} (hs : Canonical s) : Canonical (finishDrain a covered s) :=
  canonical_putStream (canonical_served hs _)

theorem canonicalRes_execStokerSlotStored {ctx gang stream : Nat} (hs : Canonical s) : CanonicalRes (execStokerSlotStored ctx gang stream s) := by
  simp only [execStokerSlotStored]
  refine canonicalRes_stokerEvent hs (fun _ => canonicalRes_onlyIf hs ?_)
  split
  · exact canonicalRes_stokerAny hs (fun _ hs' => canonical_putStream hs')
  refine canonicalRes_onlyIf hs ?_
  split
  · exact .next (canonical_raiseFault hs)
  split
  · exact .next ((canonical_landAll hs).of_pair ‹_›)
  split
  · split
    · exact canonicalRes_stokerAny (canonical_useFree (canonical_useFree ((canonical_landAll hs).of_pair ‹_›) _) _)
        (fun _ hs' => canonical_finishDrain hs')
    split
    · split
      · exact .next (canonical_finishDrain (canonical_writePieces ((canonicalWork_writablePieces
          (canonical_useFree (canonical_useFree ((canonical_landAll hs).of_pair ‹_›) _) _)).of_done ‹_›)))
      · exact .next (canonical_putStream (canonical_writePieces ((canonicalWork_writablePieces
          (canonical_useFree (canonical_useFree ((canonical_landAll hs).of_pair ‹_›) _) _)).of_done ‹_›)))
    · exact .next ((canonicalWork_writablePieces (canonical_useFree (canonical_useFree ((canonical_landAll hs).of_pair ‹_›) _) _)).of_wait ‹_›)
    · exact .next (canonical_raiseFault ((canonicalWork_writablePieces (canonical_useFree (canonical_useFree ((canonical_landAll hs).of_pair ‹_›) _)
        _)).of_fault ‹_›))
    · exact .fault
    · exact .next ((canonicalWork_writablePieces (canonical_useFree (canonical_useFree ((canonical_landAll hs).of_pair ‹_›) _) _)).of_any ‹_›)
  split
  · exact canonicalRes_stokerAny ((canonical_landAll hs).of_pair ‹_›) (fun _ hs' => canonical_finishDrain hs')
  split
  · split
    · exact .next (canonical_finishDrain (canonical_writePieces ((canonicalWork_writablePieces ((canonical_landAll hs).of_pair ‹_›)).of_done ‹_›)))
    · exact .next (canonical_putStream (canonical_writePieces ((canonicalWork_writablePieces ((canonical_landAll hs).of_pair ‹_›)).of_done ‹_›)))
  · exact .next ((canonicalWork_writablePieces ((canonical_landAll hs).of_pair ‹_›)).of_wait ‹_›)
  · exact .next (canonical_raiseFault ((canonicalWork_writablePieces ((canonical_landAll hs).of_pair ‹_›)).of_fault ‹_›))
  · exact .fault
  · exact .next ((canonicalWork_writablePieces ((canonical_landAll hs).of_pair ‹_›)).of_any ‹_›)

end Sys2Proof.Machine
end

section
/-! SUPPORT. Canonical forms kept by launches, lock sets and the scheduler (R101 to R106, R261 to R300, R361 to R376): one fact for each operation, in
the order of the model. -/

namespace Sys2Proof.Machine

variable {s t : State}

/-! ### Launches from command to completion (LaunchOps) -/

theorem canonical_enterLaunch {l : Launch} (hs : Canonical s) : Canonical (enterLaunch s l) := canonical_startSlice (canonical_of_eq hs rfl rfl)

theorem canonicalRes_execLaunchCmd {r : CmdRef} (hs : Canonical s) : CanonicalRes (execLaunchCmd r s) := by
  simp only [execLaunchCmd]
  refine canonicalRes_withCmd hs (fun _ => ?_)
  split
  · exact .next hs
  split
  · exact .next (canonical_cmdAny hs)
  split
  · exact .next (canonical_endCmd hs)
  · exact .next (canonical_enterLaunch hs)

theorem canonical_mixLaunch {ch : Nat} {c : Cmd} {role : Role} {first : List Nat} (hs : Canonical s) : Canonical (mixLaunch s ch c role first) :=
  canonical_enterLaunch hs

theorem canonical_mixEnd {ch seq : Nat} (hs : Canonical s) : Canonical (mixEnd s ch seq) := by
  simp only [mixEnd]
  split
  · exact hs
  · exact canonical_ite hs (canonical_endCmd hs)

theorem canonical_mixDecode {ch seq : Nat} (hs : Canonical s) : Canonical (mixDecode s ch seq) := by
  simp only [mixDecode]
  split
  · exact hs
  · exact canonical_ite (canonical_mixLaunch hs) hs

theorem canonical_mixPrefill {ch seq : Nat} (hs : Canonical s) : Canonical (mixPrefill s ch seq) := by
  simp only [mixPrefill]
  split
  · exact hs
  · exact canonical_ite (canonical_mixLaunch hs) hs

theorem canonical_mixTick {ch seq : Nat} (hs : Canonical s) : Canonical (mixTick s ch seq) := by
  simp only [mixTick]
  split
  · exact hs
  · exact canonical_ite hs (canonical_mixEnd (canonical_mixDecode (canonical_mixPrefill (canonical_ite (canonical_putFlight hs) hs))))

theorem canonicalRead_readRecs {ch : Nat} {c : Cmd} (hs : Canonical s) : CanonicalRead (readRecs s ch c) := by
  unfold readRecs
  extract_lets +onlyGivenNames n zero one
  have hone (s : State) (use : Bool) (a : Nat) (hs : Canonical s) : CanonicalRead (one s use a) := by
    simp only [one]
    split
    · exact canonicalRead_readRun hs
    · exact .ok hs
  clear_value one
  split
  · next stops => exact .error ((hone _ _ _ hs).of_error stops)
  · next read =>
    have ht := (hone _ _ _ hs).of_ok read
    split
    · next stops => exact .error ((hone _ _ _ ht).of_error stops)
    · next read => exact .ok ((hone _ _ _ ht).of_ok read)

theorem canonicalRes_execMixCmd {r : CmdRef} (hs : Canonical s) : CanonicalRes (execMixCmd r s) := by
  simp only [execMixCmd]
  refine canonicalRes_withCmd hs (fun _ => ?_)
  split
  · exact .next hs
  split
  · exact .next (canonical_cmdAny hs)
  split
  · exact .next (canonical_endCmd hs)
  split
  · exact canonicalRes_cmdStop hs ((canonicalRead_readRecs hs).of_error ‹_›)
  split
  · exact .next (canonical_cmdAny ((canonicalRead_readRecs hs).of_ok ‹_›))
  · exact .next (canonical_mixTick (canonical_putFlight ((canonicalRead_readRecs hs).of_ok ‹_›)))

theorem canonical_putDebt {n m d : Nat} (hs : Canonical s) : Canonical (putDebt s n m d) := canonical_putObj (canonical_setSlice hs _) ..
theorem canonical_setOverrun {l : Launch} {d : Nat} (hs : Canonical s) : Canonical (setOverrun s l d) := canonical_putDebt hs
theorem canonical_settleDebt {l : Launch} (hs : Canonical s) : Canonical (settleDebt s l) := canonical_ite hs (canonical_setOverrun hs)

theorem canonical_dropLaunch {l : Launch} (hs : Canonical s) : Canonical (dropLaunch s l) := by
  simp only [dropLaunch]
  refine canonical_startSlice (canonical_placeSlice (canonical_with_launches ?_))
  split
  · exact canonical_settleDebt hs
  · exact hs

theorem canonical_mixLaunchEnded {l : Launch} {f : Final} (hs : Canonical s) : Canonical (mixLaunchEnded s l f) := by
  simp only [mixLaunchEnded]
  split
  · exact hs
  · exact canonical_mixEnd (canonical_mixDecode (canonical_putFlight (canonical_ite (canonical_addObj hs ..) hs)))

theorem canonical_endLaunch {l : Launch} {f : Final} (hs : Canonical s) : Canonical (endLaunch s l f) := by
  simp only [endLaunch]
  split
  · split
    · exact canonical_endCmd (canonical_dropLaunch hs)
    · exact canonical_dropLaunch hs
  · exact canonical_mixLaunchEnded (canonical_dropLaunch hs)

theorem canonical_abandonLocks {ctx n : Nat} (hs : Canonical s) : Canonical (abandonLocks ctx n s).1 := by
  induction n generalizing s with
  | zero =>
    simp only [abandonLocks]
    exact hs
  | succ n ih =>
    simp only [abandonLocks]
    split
    · exact hs
    split
    · exact hs
    split
    · exact (canonicalCheck_spanOk hs).of_wait ‹_›
    · exact ih (canonical_unpredictable (canonical_setLaunch hs))
    · exact ih (canonical_setLaunch hs)
    split
    · exact (canonicalRead_readRun hs).of_wait ‹_›
    · exact ih (canonical_setLaunch hs)
    · exact ih (canonical_setLaunch (canonical_writeRun ((canonicalRead_readRun hs).of_ok ‹_›) ..))

theorem canonical_landCtx {ctx : Nat} (hs : Canonical s) : Canonical (landCtx s ctx).1 := by
  refine canonical_foldl_pair (fun _ _ hx => ?_) _ hs
  exact canonical_landAll hx

theorem canonical_flushLaunch {ctx : Nat} (hs : Canonical s) : Canonical (flushLaunch s ctx).1 := by
  refine canonical_foldl_pair (fun _ _ hx => ?_) _ hs
  exact canonical_wcFlush hx

theorem canonical_discardWork {ctx : Nat} (hs : Canonical s) : Canonical (discardWork s ctx) := canonical_with_net (canonical_with_cores hs)
theorem canonical_storesDone {ctx : Nat} (hs : Canonical s) : Canonical (storesDone s ctx).1 := canonical_flushLaunch (canonical_landCtx hs)

theorem canonical_killLaunch {ctx : Nat} (hs : Canonical s) : Canonical (killLaunch s ctx) := by
  simp only [killLaunch]
  split
  · exact (canonical_storesDone (canonical_discardWork hs)).of_pair ‹_›
  split
  · exact (canonical_abandonLocks ((canonical_storesDone (canonical_discardWork hs)).of_pair ‹_›)).of_pair ‹_›
  split
  · exact (canonical_abandonLocks ((canonical_storesDone (canonical_discardWork hs)).of_pair ‹_›)).of_pair ‹_›
  split
  · exact canonical_endLaunch ((canonical_abandonLocks ((canonical_storesDone (canonical_discardWork hs)).of_pair ‹_›)).of_pair ‹_›)
  · exact (canonical_abandonLocks ((canonical_storesDone (canonical_discardWork hs)).of_pair ‹_›)).of_pair ‹_›
  split
  · exact (canonicalCheck_spanOk ((canonical_abandonLocks ((canonical_storesDone (canonical_discardWork hs)).of_pair ‹_›)).of_pair ‹_›)).of_wait ‹_›
  · exact canonical_endLaunch (canonical_unpredictable ((canonical_abandonLocks ((canonical_storesDone (canonical_discardWork hs)).of_pair
      ‹_›)).of_pair ‹_›))
  · exact canonical_endLaunch ((canonical_abandonLocks ((canonical_storesDone (canonical_discardWork hs)).of_pair ‹_›)).of_pair ‹_›)
  · exact canonical_endLaunch (canonical_writeRun ((canonical_abandonLocks ((canonical_storesDone (canonical_discardWork hs)).of_pair ‹_›)).of_pair
      ‹_›) ..)

theorem canonical_stopLaunch {ctx st : Nat} (hs : Canonical s) : Canonical (stopLaunch s ctx st) := canonical_killLaunch (canonical_updLaunch hs)

theorem canonicalRes_execFaultReport {ctx : Nat} (hs : Canonical s) : CanonicalRes (execFaultReport ctx s) := by
  simp only [execFaultReport]
  refine canonicalRes_withSome hs (fun _ => canonicalRes_onlyIf hs ?_)
  split
  · exact .next (canonical_setLaunch hs)
  · exact .next (canonical_setLaunch (canonical_useFree hs _))

theorem canonicalRes_execLaunchKill {ctx : Nat} (hs : Canonical s) : CanonicalRes (execLaunchKill ctx s) :=
  canonicalRes_withSome hs (fun _ => canonicalRes_onlyIf hs (.next (canonical_killLaunch hs)))

theorem canonical_watchdogFault {ctx cause info : Nat} (hs : Canonical s) : Canonical (watchdogFault s ctx cause info) := canonical_updLaunch hs

theorem canonicalRes_execWatchdogNoRetire {ctx : Nat} (hs : Canonical s) : CanonicalRes (execWatchdogNoRetire ctx s) :=
  canonicalRes_withSome hs (fun _ => canonicalRes_onlyIf hs (.next (canonical_watchdogFault hs)))

theorem canonicalRes_execWatchdogLimit {ctx : Nat} (hs : Canonical s) : CanonicalRes (execWatchdogLimit ctx s) :=
  canonicalRes_withSome hs (fun _ => canonicalRes_onlyIf hs (.next (canonical_watchdogFault hs)))

theorem canonicalRes_execLaunchComplete {ctx : Nat} (hs : Canonical s) : CanonicalRes (execLaunchComplete ctx s) := by
  simp only [execLaunchComplete]
  refine canonicalRes_withSome hs (fun _ => canonicalRes_onlyIf hs ?_)
  split
  · exact .next ((canonical_storesDone hs).of_pair ‹_›)
  split
  · exact .next ((canonical_abandonLocks ((canonical_storesDone hs).of_pair ‹_›)).of_pair ‹_›)
  split
  · exact .next ((canonical_abandonLocks ((canonical_storesDone hs).of_pair ‹_›)).of_pair ‹_›)
  split
  · exact .next (canonical_endLaunch ((canonical_abandonLocks ((canonical_storesDone hs).of_pair ‹_›)).of_pair ‹_›))
  · exact .next ((canonical_abandonLocks ((canonical_storesDone hs).of_pair ‹_›)).of_pair ‹_›)

/-! ### Lock sets and the bank engine (LockSets) -/

theorem canonical_sendTwice {q : Nat} {x : Nat × DraftFrame} (hs : Canonical s) : Canonical (sendTwice s q x) :=
  canonical_send (canonical_send hs _) _

theorem canonical_sendDraft {q kind : Nat} {f : DraftFrame} (hs : Canonical s) : Canonical (sendDraft s q kind f) :=
  canonical_ite hs (canonical_sendTwice (canonical_setPort hs))

theorem canonical_sendAll {kind : Nat} {f : DraftFrame} {qs : List Nat} (hs : Canonical s) : Canonical (sendAll s kind f qs) :=
  canonical_foldl (fun _ _ hs' => canonical_sendDraft hs') _ hs

theorem canonical_floodDraft {kind : Nat} {f : DraftFrame} {but : Option Nat} (hs : Canonical s) : Canonical (floodDraft s kind f but) :=
  canonical_sendAll hs

theorem canonical_downDraft {kind : Nat} {f : DraftFrame} (hs : Canonical s) : Canonical (downDraft s kind f) := canonical_sendAll hs

theorem canonical_repeatBarriers (hs : Canonical s) : Canonical (repeatBarriers s) := by
  simp only [repeatBarriers]
  split
  · exact hs
  · exact canonical_foldl (fun _ _ hs' => canonical_sendDraft hs') _ hs

theorem canonical_updSet {k : Nat} {f : LockSet → LockSet} (hs : Canonical s) : Canonical (updSet s k f) := canonical_setLockSet hs
theorem canonical_noteReserve (hs : Canonical s) : Canonical (noteReserve s) := canonical_putObj hs ..

theorem canonical_dropColl {ch seq : Nat} (hs : Canonical s) : Canonical (dropColl s ch seq) :=
  canonical_foldl (fun _ _ hs' => canonical_putObj hs' ..) _ (canonical_with_net hs)

theorem canonical_stopCommand {ch : Nat} {c : Cmd} {st : Nat} (hs : Canonical s) : Canonical (stopCommand s ch c st) :=
  canonical_ite hs (canonical_ite (canonical_foldl (fun _ _ hs' => canonical_stopLaunch hs') _ hs)
    (canonical_ite (canonical_mixEnd (canonical_foldl (fun _ _ hs' => canonical_stopLaunch hs') _ (canonical_putFlight hs)))
    (canonical_stopCmd (canonical_dropColl hs))))

theorem canonical_stopChannel {st ch : Nat} (hs : Canonical s) : Canonical (stopChannel s st ch) :=
  canonical_foldl (fun _ _ hs' => canonical_stopCommand hs') _ hs

theorem canonical_abandonWord {l : Nat × Nat × Nat} (hs : Canonical s) : Canonical (abandonWord s l) := by
  simp only [abandonWord]
  split
  · exact hs
  split
  · exact hs
  · exact canonical_writeRun ((canonicalRead_readRun hs).of_ok ‹_›) ..

theorem canonical_endHalted {k : Nat} (hs : Canonical s) : Canonical (endHalted s k) := by
  simp only [endHalted]
  split
  · exact hs
  refine canonical_foldl (fun _ _ hs' => ?_) _ (canonical_foldl (fun _ _ hs' => canonical_abandonWord hs') _ hs)
  split
  · exact canonical_endCmd (canonical_setChan hs')
  · exact hs'

theorem canonical_failLockSet {k : Nat} (hs : Canonical s) : Canonical (failLockSet s k) :=
  canonical_putObj (canonical_updSet (canonical_foldl (fun _ _ hs' => canonical_putObj (canonical_stopChannel hs') ..) _ (canonical_endHalted hs))) ..

theorem canonical_floodLost {m : Nat} (hs : Canonical s) : Canonical (floodLost s m) := canonical_floodDraft hs

theorem canonical_goCold {cause : Nat} (hs : Canonical s) : Canonical (goCold s cause) :=
  canonical_ite hs (canonical_foldl (fun _ _ hs' => canonical_stopChannel hs') _ (canonical_foldl (fun _ _ hs' => canonical_failLockSet hs') _
    (canonical_floodLost (canonical_putObj (canonical_putObj (canonical_flushCounters (canonical_setAlert hs _)) ..) ..))))

theorem canonical_dropForRollback {l : Launch} (hs : Canonical s) : Canonical (dropForRollback s l).1 := by
  simp only [dropForRollback]
  exact canonical_placeSlice (canonical_of_eq (canonical_landCtx (canonical_discardWork hs)) rfl rfl)

theorem canonical_forgetFrames {ch : Nat} (hs : Canonical s) : Canonical (forgetFrames s ch) := canonical_with_net hs

theorem canonical_haltMembers {k : Nat} (hs : Canonical s) : Canonical (haltMembers s k).1 := by
  unfold haltMembers
  extract_lets +onlyGivenNames chs
  split
  next dropped =>
  refine canonical_foldl (fun _ _ hu => canonical_with_bank (canonical_setSlice hu _)) _ ?_
  refine canonical_foldl (fun _ _ hu => canonical_setChan (canonical_forgetFrames ?_)) _ ?_
  · exact canonical_foldl (fun _ _ hv => canonical_dropColl hv) _ hu
  · refine Canonical.of_pair (canonical_foldl_pair (fun _ _ hx => ?_) _ hs) dropped
    exact canonical_dropForRollback hx

theorem canonical_beginRollback {k cls origin target : Nat} (hs : Canonical s) : Canonical (beginRollback s k cls origin target) := by
  simp only [beginRollback]
  split
  · exact hs
  split
  · exact canonical_updSet hs
  · exact canonical_ite (canonical_failLockSet (canonical_putObj hs ..)) (canonical_updSet
      (canonical_foldl (fun _ _ hs' => (keeps_snoopChip ..).canonical hs') _ (canonical_haltMembers (canonical_putObj hs ..))))

theorem canonical_originate {cls k : Nat} (hs : Canonical s) : Canonical (originate s cls k) :=
  canonical_ite hs (canonical_beginRollback (canonical_floodDraft hs))

theorem canonical_workEvent {cls : Nat} {work : List (Nat × Nat)} (hs : Canonical s) : Canonical (workEvent s cls work) := by
  simp only [workEvent]
  refine canonical_foldl (fun _ _ hs' => ?_) _ (canonical_foldl (fun _ _ hs' => canonical_originate hs') _ hs)
  split
  · exact hs'
  split
  · exact canonical_stopCommand hs'
  · exact hs'

theorem canonical_takeOutcome {id : Nat} {v : Vote} (hs : Canonical s) : Canonical (takeOutcome s id v) := by
  simp only [takeOutcome]
  split
  · exact canonical_downDraft hs
  · exact canonical_ite (canonical_updSet (canonical_downDraft hs)) (canonical_ite (canonical_originate (canonical_downDraft hs))
      (canonical_downDraft hs))

theorem canonicalOpt_combineVotes {id : Nat} {mine : Vote} {votes : List Vote} (hs : Canonical s) : CanonicalOpt (combineVotes s id mine votes) := by
  simp only [combineVotes]
  split
  · refine .some ?_
    split
    · exact canonical_sendDraft hs
    · exact canonical_takeOutcome hs
  · exact .none

theorem canonical_tryVotes {k : Nat} (hs : Canonical s) : Canonical (tryVotes s k) := by
  simp only [tryVotes]
  split
  · exact hs
  · exact canonical_getD (canonicalOpt_combineVotes hs) hs

theorem canonical_relayVote {id : Nat} {v : Vote} (hs : Canonical s) : Canonical (relayVote s id v) :=
  canonical_getD (canonicalOpt_combineVotes (canonical_with_net hs)) (canonical_with_net hs)

theorem canonical_deferMapOut {c : Nat × Nat} (hs : Canonical s) : Canonical (deferMapOut s c) :=
  canonical_ite (canonical_goCold (canonical_with_mem (canonical_addObj hs ..) rfl)) (canonical_with_mem (canonical_addObj hs ..) rfl)

theorem canonical_startMapOut {c : Nat × Nat} (hs : Canonical s) : Canonical (startMapOut s c) :=
  canonical_ite hs (canonical_ite (canonical_with_mem (canonical_ite hs (canonical_startDrain (canonical_putObj hs ..))) rfl)
    (canonical_deferMapOut hs))

theorem canonical_replaceCores (hs : Canonical s) : Canonical (replaceCores s) := canonical_with_cores hs

theorem canonical_maintain (hs : Canonical s) : Canonical (maintain s) :=
  canonical_with_bank (canonical_foldl (fun _ _ hs' => canonical_startMapOut hs') _ (canonical_replaceCores hs))

theorem canonical_finishBanks {bytes ch : Nat} (hs : Canonical s) : Canonical (finishBanks s bytes ch) := by
  simp only [finishBanks]
  refine canonical_foldl (fun _ _ hs' => canonical_ite (canonical_endCmd hs') hs') _ ?_
  split
  · exact canonical_ite (canonical_addObj (canonical_setChan hs) ..) hs
  · exact hs

theorem canonical_sealSet {k b : Nat} (hs : Canonical s) : Canonical (sealSet s k b) :=
  canonical_noteReserve (canonical_maintain (canonical_updSet (canonical_foldl (fun _ _ hs' => canonical_finishBanks hs') _
    (canonical_putObj (canonical_putObj (canonical_addObj (canonical_updSet (canonical_foldl
    (fun _ _ hs' => canonical_recount (canonical_setSlice hs' _)) _ (canonical_ite (canonical_addObj hs ..) hs))) ..) ..) ..))))

theorem canonical_confirmBank {k : Nat} (hs : Canonical s) : Canonical (confirmBank s k) := by
  simp only [confirmBank]
  split
  · exact canonical_noteReserve (canonical_putObj (canonical_updSet hs) ..)
  · exact hs

/-! ### Fetch, dispatch and boundaries (Sched) -/

theorem canonical_releaseCmd {ch seq t : Nat} (hs : Canonical s) : Canonical (releaseCmd s ch seq t) := by
  simp only [releaseCmd]
  split
  · exact canonical_setChan hs
  · exact canonical_updSet (canonical_setChan hs)

theorem canonical_releaseAt {ch B : Nat} (hs : Canonical s) : Canonical (releaseAt s ch B) :=
  canonical_foldl (fun _ _ hs' => canonical_ite (canonical_ite (canonical_releaseCmd (canonical_useFree hs' _)) (canonical_useFree hs' _))
    (canonical_releaseCmd hs')) _ hs

theorem canonical_releaseSet {k b : Nat} (hs : Canonical s) : Canonical (releaseSet s k b) := by
  simp only [releaseSet]
  refine canonical_putObj (canonical_foldl (fun _ _ hs' => ?_) _ hs) ..
  split
  · exact canonical_ite (canonical_releaseCmd hs') hs'
  · exact hs'

theorem canonicalRead_readExt {n ch first n1 : Nat} (hs : Canonical s) : CanonicalRead (readExt s n ch first n1) := by
  induction n1 with
  | zero =>
    simp only [readExt]
    exact .ok hs
  | succ n ih =>
    simp only [readExt]
    split
    · exact .error (ih.of_error ‹_›)
    split
    · exact .error ((canonicalRead_readRun (ih.of_ok ‹_›)).of_error ‹_›)
    · exact .ok ((canonicalRead_readRun (ih.of_ok ‹_›)).of_ok ‹_›)

theorem canonical_takeCommand {ch : Nat} {c : Cmd} (hs : Canonical s) : Canonical (takeCommand s ch c) := by
  simp only [takeCommand]
  split
  · exact canonical_ite (canonical_putObj (canonical_addObj (canonical_setChan hs) ..) ..)
      (canonical_noteReserve (canonical_updSet (canonical_addObj (canonical_setChan hs) ..)))
  · exact canonical_ite (canonical_releaseCmd (canonical_addObj (canonical_setChan hs) ..)) (canonical_addObj (canonical_setChan hs) ..)

theorem canonicalRes_fetchOne {ch : Nat} (hs : Canonical s) : CanonicalRes (fetchOne s ch) := by
  simp only [fetchOne]
  split
  · exact .next ((canonicalRead_readRun hs).of_wait ‹_›)
  · exact .fault
  · exact .next hs
  · exact .next (canonical_unpredictable hs)
  split
  · exact .next ((canonicalRead_readRun ((canonicalRead_readRun hs).of_ok ‹_›)).of_wait ‹_›)
  · exact .fault
  · exact .next ((canonicalRead_readRun hs).of_ok ‹_›)
  · exact .next (canonical_unpredictable ((canonicalRead_readRun hs).of_ok ‹_›))
  split
  · exact .next ((canonicalRead_readExt ((canonicalRead_readRun ((canonicalRead_readRun hs).of_ok ‹_›)).of_ok ‹_›)).of_wait ‹_›)
  · exact .fault
  · exact .next ((canonicalRead_readRun ((canonicalRead_readRun hs).of_ok ‹_›)).of_ok ‹_›)
  · exact .next (canonical_unpredictable ((canonicalRead_readRun ((canonicalRead_readRun hs).of_ok ‹_›)).of_ok ‹_›))
  · exact .next (canonical_takeCommand (canonical_putObj ((canonicalRead_readExt ((canonicalRead_readRun ((canonicalRead_readRun hs).of_ok ‹_›)).of_ok
      ‹_›)).of_ok ‹_›) ..))

theorem canonicalRes_execCommandFetch {ch : Nat} (hs : Canonical s) : CanonicalRes (execCommandFetch ch s) := by
  simp only [execCommandFetch]
  split
  · exact .refused
  refine canonicalRes_onlyIf hs ?_
  split
  · split
    · exact .next (canonical_useFree (canonical_unpredictable hs) _)
    · exact canonicalRes_fetchOne (canonical_useFree (canonical_unpredictable hs) _)
  · exact canonicalRes_fetchOne hs

theorem canonical_plansFor {hs : List (Nat × Cmd)} (cs : Canonical s) : Canonical (plansFor s hs).1 := by
  refine canonical_foldl_pair (fun _ _ hx => ?_) _ cs
  exact canonical_plan hx

theorem canonical_nextHead {r : Resource} (hs : Canonical s) : Canonical (nextHead s r).1 := canonical_plansFor hs

theorem canonicalRes_execDispatch {r : Resource} (hs : Canonical s) : CanonicalRes (execDispatch r s) := by
  simp only [execDispatch]
  refine canonicalRes_onlyIf hs (canonicalRes_withSome hs (fun _ => ?_))
  split
  · exact .next (canonical_endCmd (canonical_nextHead hs))
  · exact .next (canonical_addObj (canonical_setChan (canonical_with_nextOrd (canonical_nextHead hs))) ..)

theorem canonical_rekindleStart {k B low : Nat} (hs : Canonical s) : Canonical (rekindleStart s k B low) :=
  canonical_updSet (canonical_foldl (fun _ _ hs' => canonical_addObj (canonical_setChan hs') ..) _ (canonical_addObj (canonical_putObj hs ..) ..))

theorem canonical_boundarySet {B k : Nat} (hs : Canonical s) : Canonical (boundarySet s B k) := by
  have hadd := canonical_addObj hs (Obj.lsDeferrals k) 1
  unfold boundarySet
  extract_lets +onlyGivenNames x out voted clear
  have hclear (s : State) (hs : Canonical s) : Canonical (clear s) := canonical_updSet hs
  clear_value clear out voted
  split
  · refine canonical_ite (hclear _ hadd) (canonical_ite (hclear _ hs) (canonical_ite (hclear _ hadd) ?_))
    extract_lets +onlyGivenNames s1 b s2 s3
    have h1 : Canonical s1 := canonical_ite (canonical_rekindleStart hs) hs
    have h2 : Canonical s2 := canonical_ite (canonical_confirmBank (canonical_updSet h1)) h1
    have h3 : Canonical s3 := canonical_ite (canonical_sealSet h2) h2
    exact hclear _ (canonical_releaseSet h3)
  · refine canonical_ite (hclear _ hs) (hclear _ ?_)
    split
    · exact hadd
    · exact canonical_downDraft hadd

theorem canonical_applyPeriod {B : Nat} (hs : Canonical s) : Canonical (applyPeriod s B) := by
  simp only [applyPeriod]
  split
  · exact canonical_with_net (canonical_putObj hs ..)
  · exact hs

theorem canonical_endGranule {n : Nat} (hs : Canonical s) : Canonical (endGranule s n) := canonical_with_launches hs

theorem canonical_accrue {l : Launch} (hs : Canonical s) : Canonical (accrue s l) := by
  simp only [accrue]
  split
  · exact hs
  · exact canonical_setOverrun (canonical_updLaunch hs)

theorem canonical_accrueAll {n : Nat} (hs : Canonical s) : Canonical (accrueAll s n) := canonical_foldl (fun _ _ hs' => canonical_accrue hs') _ hs
theorem canonical_bankWaits (hs : Canonical s) : Canonical (bankWaits s) := canonical_with_chans hs

theorem canonical_boundarySlice {n : Nat} (hs : Canonical s) : Canonical (boundarySlice s n) := by
  unfold boundarySlice
  extract_lets +onlyGivenNames t u v
  have hu : Canonical u := canonical_accrueAll (canonical_endGranule (canonical_with_launches hs))
  have hv : Canonical v := canonical_foldl (fun _ _ hv => canonical_foldl (fun _ _ hw => canonical_mixTick hw) _ hv) _ hu
  exact canonical_evaluateTiering (canonical_takeMarks (canonical_countHeatTick (canonical_startSlice (canonical_placeSlice hv))))

theorem canonicalRes_execTickBoundary (hs : Canonical s) : CanonicalRes (execTickBoundary s) := by
  simp only [execTickBoundary]
  refine canonicalRes_onlyIf hs (.next (canonical_foldl (fun _ _ hs' => canonical_boundarySlice hs') _
    (canonical_repeatBarriers (canonical_with_net (canonical_foldl (fun _ _ hs' => ?_) _
    (canonical_foldl (fun _ _ hs' => canonical_boundarySet hs') _ (canonical_notifyAgain
    (canonical_landEvery (canonical_bankWaits (canonical_applyPeriod (canonical_with_granule
    (canonical_putObj (canonical_putObj (canonical_putObj hs ..) ..) ..))))))))))))
  split
  · exact hs'
  · exact canonical_releaseAt hs'

theorem canonical_noteKept {k : Launch × Keep} (hs : Canonical s) : Canonical (noteKept s k) := by
  simp only [noteKept]
  split
  · exact hs
  · exact canonical_updLaunch hs
  · exact canonical_addObj hs ..

theorem canonical_preempt {l : Launch} (hs : Canonical s) : Canonical (preempt s l) := canonical_addObj (canonical_setLaunch hs) ..

theorem canonical_granuleSlice {n : Nat} (hs : Canonical s) : Canonical (granuleSlice s n) :=
  canonical_startSlice (canonical_accrueAll (canonical_foldl (fun _ _ hs' => canonical_preempt hs') _
    (canonical_foldl (fun _ _ hs' => canonical_noteKept hs') _ (canonical_setSlice (canonical_foldl (fun _ _ hs' => canonical_putDebt hs') _
    (canonical_with_free (canonical_setSlice (canonical_endGranule hs) _))) _))))

theorem canonicalRes_execGranuleBoundary (hs : Canonical s) : CanonicalRes (execGranuleBoundary s) := by
  unfold execGranuleBoundary
  exact canonicalRes_onlyIf hs (.next (canonical_foldl (fun _ _ hs' => canonical_granuleSlice hs') _
    (canonical_bankWaits (canonical_with_granule (canonical_putObj hs ..)))))

theorem canonical_dropFills {ctx : Nat} (hs : Canonical s) : Canonical (dropFills s ctx) := canonical_settleFrozen (canonical_of_eq hs rfl rfl)

theorem canonicalRes_execSaveComplete {ctx : Nat} (hs : Canonical s) : CanonicalRes (execSaveComplete ctx s) := by
  simp only [execSaveComplete]
  refine canonicalRes_withSome hs (fun _ => canonicalRes_onlyIf hs ?_)
  split
  · exact .next ((canonical_storesDone hs).of_pair ‹_›)
  split
  · exact .next ((canonical_storesDone hs).of_pair ‹_›)
  split
  · exact .next ((canonical_storesDone hs).of_pair ‹_›)
  · exact .next (canonical_startSlice (canonical_placeSlice (canonical_setLaunch (canonical_dropFills ((canonical_storesDone hs).of_pair ‹_›)))))

theorem canonicalRes_execRestoreComplete {ctx : Nat} (hs : Canonical s) : CanonicalRes (execRestoreComplete ctx s) :=
  canonicalRes_withSome hs (fun _ => canonicalRes_onlyIf hs (.next (canonical_foldl (fun _ _ hs' => canonical_applyInv hs') _
    (canonical_placeAll (canonical_setLaunch hs)))))

theorem canonical_clearDebt {l : Launch} (hs : Canonical s) : Canonical (clearDebt s l) := canonical_setOverrun hs

theorem canonicalRes_execVoteClose {k : Nat} (hs : Canonical s) : CanonicalRes (execVoteClose k s) := by
  simp only [execVoteClose]
  split
  · exact .refused
  · exact canonicalRes_onlyIf hs (.next (canonical_tryVotes (canonical_updSet (canonical_ite (canonical_addObj hs ..) hs))))

end Sys2Proof.Machine
end

section
/-! SUPPORT. Canonical forms kept by collectives (R338, R346 to R351): one fact for each operation, in the order of the model. -/

namespace Sys2Proof.Machine

variable {s t : State}

/-! ### Steps of a collective (Collective) -/

theorem canonical_addContribution {b : CollBlk} {data : List Byte} (hs : Canonical s) : Canonical (addContribution s b data) := canonical_with_net hs

theorem canonicalOpt_sendPieces {x : Coll} {pass t m n : Nat} {l : List (List Byte)} (hs : Canonical s) :
    CanonicalOpt (sendPieces s x pass t m n l) := by
  induction l generalizing s n with
  | nil =>
    simp only [sendPieces]
    exact .some hs
  | cons x l ih =>
    simp only [sendPieces]
    split
    · exact ih (canonical_addContribution hs)
    split
    · exact .none
    · exact ih ((canonicalOpt_sendFrame hs).of_some ‹_›)

theorem canonicalRead_readPart {x : Coll} {t : Nat} (hs : Canonical s) : CanonicalRead (readPart s x t) := by
  simp only [readPart]
  split
  · exact .ok hs
  · exact canonicalRead_readRunAs hs

theorem canonicalRead_ownHeads {f : FFmt} {x : Coll} {l : List Nat} (hs : Canonical s) : CanonicalRead (ownHeads f x l s) := by
  induction l generalizing s with
  | nil =>
    simp only [ownHeads]
    exact .ok hs
  | cons x l ih =>
    simp only [ownHeads]
    split
    · exact .error ((canonicalRead_readPart hs).of_error ‹_›)
    split
    · exact .error ((ih ((canonicalRead_readPart hs).of_ok ‹_›)).of_error ‹_›)
    · exact .ok ((ih ((canonicalRead_readPart hs).of_ok ‹_›)).of_ok ‹_›)

theorem canonicalOpt_sendParts {x : Coll} {pass : Nat} {l : List (Nat × Nat × List Byte)} (hs : Canonical s) :
    CanonicalOpt (sendParts x pass l s) := by
  induction l generalizing s with
  | nil =>
    simp only [sendParts]
    exact .some hs
  | cons x l ih =>
    simp only [sendParts]
    split
    · exact .none
    · exact ih ((canonicalOpt_sendPieces hs).of_some ‹_›)

theorem canonicalWrite_sendRanks {x : Coll} {pass : Nat} {l : List (Nat × Nat × List Byte)} (hs : Canonical s) :
    CanonicalWrite (sendRanks s x pass l) := by
  simp only [sendRanks]
  split
  · exact .error .cause
  split
  · exact .error (.wait hs)
  · exact .ok ((canonicalOpt_sendParts hs).of_some ‹_›)

theorem canonicalWrite_sendHeads {x : Coll} {bs : List Byte} (hs : Canonical s) : CanonicalWrite (sendHeads s x bs) := canonicalWrite_sendRanks hs

theorem canonicalRead_readStep {x : Coll} {hs : List (List Byte)} {l : List (Nat × Nat)} (cs : Canonical s) : CanonicalRead (readStep x hs l s) := by
  induction l generalizing s with
  | nil =>
    simp only [readStep]
    exact .ok cs
  | cons x l ih =>
    simp only [readStep]
    split
    · exact ih cs
    split
    · exact .error ((canonicalRead_readPart cs).of_error ‹_›)
    split
    · exact .error ((ih ((canonicalRead_readPart cs).of_ok ‹_›)).of_error ‹_›)
    · exact .ok ((ih ((canonicalRead_readPart cs).of_ok ‹_›)).of_ok ‹_›)

theorem canonicalWrite_sendStep {x : Coll} {hs : List (List Byte)} (cs : Canonical s) : CanonicalWrite (sendStep s x hs) := by
  simp only [sendStep]
  split
  · exact .error ((canonicalRead_readStep cs).of_error ‹_›)
  · exact canonicalWrite_sendRanks ((canonicalRead_readStep cs).of_ok ‹_›)

theorem canonical_endColl {x : Coll} {c : Cmd} {f : Final} (hs : Canonical s) : Canonical (endColl s x c f) :=
  canonical_endCmd (canonical_dropColl (canonical_ite (canonical_addObj (canonical_with_net hs) ..) (canonical_with_net hs)))

theorem canonicalRes_collTail {x : Coll} {c : Cmd} (hs : Canonical s) : CanonicalRes (collTail s x c) := by
  simp only [collTail]
  split
  · split
    · exact .next (canonical_endColl hs)
    · exact .next hs
  split
  · exact .next (canonical_endColl hs)
  · exact .next ((canonicalCheck_spanOkBy hs).of_wait ‹_›)
  · exact .next (canonical_cmdAny (canonical_dropColl hs))
  · exact .fault
  split
  · exact .next (canonical_endColl (canonical_putFlight (canonical_served (canonical_writeRunAs hs ..) _)))
  · exact .next (canonical_putFlight (canonical_served (canonical_writeRunAs hs ..) _))

theorem canonical_nextStep {x : Coll} (hs : Canonical s) : Canonical (nextStep s x) := canonical_addObj (canonical_setColl hs) ..

theorem canonicalRes_collStop {x : Coll} {c : Cmd} {x1 : Stop} (hs : Canonical s) (hx1 : CanonicalStop x1) : CanonicalRes (collStop s x c x1) := by
  simp only [collStop]
  split
  · exact .next (canonical_endColl hs)
  · exact .next (hx1.of_wait rfl)
  · exact .next (canonical_cmdAny (canonical_dropColl hs))
  · exact .fault

theorem canonicalRes_collGo {g fuel : Nat} (hs : Canonical s) : CanonicalRes (collGo g fuel s) := by
  induction fuel generalizing s with
  | zero => exact .next hs
  | succ fuel ih =>
    unfold collGo
    split
    · exact .next hs
    · next x _ =>
      have heads : CanonicalRead (match collFmt x.dtype with
          | some f => ownHeads f x (List.range (collSizeOf x)) s
          | none => .ok (s, [])) := by
        split
        · exact canonicalRead_ownHeads hs
        · exact .ok hs
      split
      · exact .next hs
      · split
        · exact .next hs
        · split
          · exact canonicalRes_collTail hs
          · split
            · split
              · next stops => exact canonicalRes_collStop hs (heads.of_error stops)
              · next read =>
                have ht := heads.of_ok read
                split
                · next stops => exact canonicalRes_collStop ht ((canonicalWrite_sendHeads ht).of_error stops)
                · next sent => exact ih (canonical_served (canonical_setColl ((canonicalWrite_sendHeads ht).of_ok sent)) _)
            · split
              · split
                · exact .next hs
                · split
                  · next stops => exact canonicalRes_collStop hs ((canonicalWrite_sendStep hs).of_error stops)
                  · next sent => exact ih (canonical_served (canonical_setColl ((canonicalWrite_sendStep hs).of_ok sent)) _)
              · split
                · exact ih (canonical_nextStep hs)
                · exact .next hs

theorem canonicalRes_collAdvance {g : Nat} (hs : Canonical s) : CanonicalRes (collAdvance s g) := by
  simp only [collAdvance]
  split
  · exact .next hs
  · exact canonicalRes_collGo hs

theorem canonicalRes_barrierDone {id seq : Nat} (hs : Canonical s) : CanonicalRes (barrierDone s id seq) := by
  simp only [barrierDone]
  refine canonicalRes_foldl (fun _ _ hr => ?_) _ (.next (canonical_with_net (canonical_downDraft hs)))
  split
  · split
    · exact canonicalRes_collTail (hr.of_next rfl)
    · exact hr
  · exact hr

theorem canonicalRes_barrierTry {id seq : Nat} (hs : Canonical s) : CanonicalRes (barrierTry s id seq) := by
  simp only [barrierTry]
  split
  · split
    · exact .next (canonical_sendDraft (canonical_with_net hs))
    · exact canonicalRes_barrierDone hs
  · exact .next hs

theorem canonical_scrambleSpan {n : Nat} {l : List (Nat × Nat)} (hs : Canonical s) : Canonical (scrambleSpan n l s) := by
  induction l generalizing s with
  | nil =>
    simp only [scrambleSpan]
    exact hs
  | cons x l ih =>
    simp only [scrambleSpan]
    refine ih (canonical_ite (canonical_useFree hs _) ?_)
    split
    · exact canonical_writeRun (canonical_freeBytes (canonical_useFree hs _)) ..
    · exact canonical_useFree hs _

theorem canonical_collAny {x : Coll} {c : Cmd} (hs : Canonical s) : Canonical (collAny s x c) :=
  canonical_endColl (canonical_useFree (canonical_ite (canonical_scrambleSpan hs) (canonical_scrambleSpan (canonical_scrambleSpan hs))) _)

/-- The part of a COLLECTIVE that starts it, once its descriptor and member table have been read. -/
theorem canonicalRes_collStart {op g : Nat} {x y : Coll} {seqs : List (Nat × Nat)} (hs : Canonical s) :
    CanonicalRes (if op = 6 then barrierTry ((({ s with net := { s.net with gseq := seqs } } : State).setColl x).putObj (Obj.gBusy g) 1) (barrierId y)
      y.cseq
      else collAdvance ((({ s with net := { s.net with gseq := seqs } } : State).setColl x).putObj (Obj.gBusy g) 1) g) := by
  have ht := canonical_putObj (canonical_setColl (x := x) (canonical_with_net (x := { s.net with gseq := seqs }) hs)) (Obj.gBusy g) 1
  split
  · exact canonicalRes_barrierTry ht
  · exact canonicalRes_collAdvance ht

theorem canonicalRes_collective {op : Nat} {r : CmdRef} (hs : Canonical s) : CanonicalRes (collective op r s) := by
  refine canonicalRes_withCmd hs fun c => ?_
  extract_lets +onlyGivenNames n
  split
  · split
    · exact .refused
    · split
      · exact canonicalRes_collTail hs
      · split
        · exact canonicalRes_barrierTry hs
        · exact canonicalRes_collAdvance hs
  · split
    · exact .next (canonical_cmdAny hs)
    · split
      · next stops => exact canonicalRes_cmdStop hs ((canonicalRead_readRunAs hs).of_error stops)
      · next read =>
        have ht := (canonicalRead_readRunAs hs).of_ok read
        extract_lets +onlyGivenNames g size
        split
        · exact .next (canonical_endCmd ht)
        · split
          · exact .next (canonical_cmdAny ht)
          · split
            · exact .refused
            · split
              · exact .next (canonical_collAny ht)
              · split
                · exact .next ht
                · split
                  · next stops => exact canonicalRes_cmdStop ht ((canonicalRead_readRunAs ht).of_error stops)
                  · next table =>
                    have hu := (canonicalRead_readRunAs ht).of_ok table
                    split
                    · exact .next (canonical_cmdAny hu)
                    · exact canonicalRes_collStart hu

theorem canonical_stepWrite {x : Coll} {c : Cmd} {cs : List (Nat × List Byte)} (hs : Canonical s)
    (is : stepWrite s x c cs = .ok (some t)) : Canonical t := by
  unfold stepWrite at is
  extract_lets +onlyGivenNames n len at is
  split at is
  · cases is
  · split at is
    · cases is
    · cases is
      exact canonical_nextStep (canonical_with_net (canonical_putFlight (canonical_served (canonical_writeRunAs hs ..) _)))

theorem canonicalStop_stepWrite {x : Coll} {c : Cmd} {cs : List (Nat × List Byte)} {e : Stop} (hs : Canonical s)
    (is : stepWrite s x c cs = .error e) : CanonicalStop e := by
  unfold stepWrite at is
  extract_lets +onlyGivenNames n len at is
  split at is
  · cases is
  · split at is
    · next stops => cases is; exact (canonicalCheck_spanOkBy hs).of_error stops
    · cases is

theorem canonicalRes_execCollectiveStepStart {g : Nat} (hs : Canonical s) : CanonicalRes (execCollectiveStepStart g s) := by
  refine canonicalRes_withSome hs fun x => canonicalRes_onlyIf hs (canonicalRes_withSome hs fun c => canonicalRes_withSome hs fun cs => ?_)
  split
  · next stops => exact canonicalRes_collStop hs (canonicalStop_stepWrite hs stops)
  · exact .next (canonical_collAny hs)
  · next wrote => exact canonicalRes_collAdvance (canonical_stepWrite hs wrote)

theorem canonicalRes_execCollectiveWaitExpiry {g : Nat} (hs : Canonical s) : CanonicalRes (execCollectiveWaitExpiry g s) := by
  simp only [execCollectiveWaitExpiry]
  refine canonicalRes_withSome hs (fun _ => canonicalRes_onlyIf hs (canonicalRes_withSome hs (fun _ => ?_)))
  split
  · exact .next hs
  · exact .next (canonical_endColl hs)

theorem canonical_settleStep {x : Coll} (hs : Canonical s) : Canonical (settleStep s x) := by
  simp only [settleStep]
  split
  · exact hs
  split
  · exact hs
  split
  · exact hs
  · exact canonical_foldl (fun _ _ hs' => canonical_ite (canonical_useFree hs' _) (canonical_writeRun (canonical_useFree hs' _) ..)) _ hs

theorem canonical_stopColl {x : Coll} {st : Nat} (hs : Canonical s) : Canonical (stopColl s x st) := by
  simp only [stopColl]
  split
  · exact hs
  · exact canonical_ite hs (canonical_endColl (canonical_settleStep hs))

theorem canonicalRes_execOverrunStop {r : CmdRef} (hs : Canonical s) : CanonicalRes (execOverrunStop r s) := by
  simp only [execOverrunStop]
  refine canonicalRes_withSome hs (fun _ => canonicalRes_onlyIf hs (.next ?_))
  split
  · exact canonical_stopColl (canonical_with_launches (canonical_foldl (fun _ _ hs' => canonical_clearDebt hs') _ (canonical_addObj hs ..)))
  · exact canonical_stopCommand (canonical_with_launches (canonical_foldl (fun _ _ hs' => canonical_clearDebt hs') _ (canonical_addObj hs ..)))

end Sys2Proof.Machine
end

section
/-! SUPPORT. Canonical forms kept by the draft (R263 to R266, R335 to R338): one fact for each operation, in the order of the model. -/

namespace Sys2Proof.Machine

variable {s t : State}

/-! ### Draft frames and what they do (Draft) -/

theorem canonical_newFlood {q kind : Nat} {f : DraftFrame} (hs : Canonical s) : Canonical (newFlood s q kind f).1 := by
  simp only [newFlood]
  split
  · exact canonical_ite_fst (canonical_with_net hs) (canonical_with_net hs)
  · exact canonical_with_net hs

theorem canonical_sendHello {q : Nat} (hs : Canonical s) : Canonical (sendHello s q) := canonical_sendDraft (canonical_setPort hs)

theorem canonical_sendElect {best : Nat × Nat} {hops : Nat} {but : Option Nat} (hs : Canonical s) : Canonical (sendElect s best hops but) :=
  canonical_sendAll hs

theorem canonical_startElect (hs : Canonical s) : Canonical (startElect s) := canonical_sendElect (canonical_putObj (canonical_with_net hs) ..)

theorem canonical_putNeighbour {q : Nat} {m : Option Nat} (hs : Canonical s) : Canonical (putNeighbour s q m) :=
  canonical_putObj (canonical_setPort (canonical_ite hs (canonical_useFree hs _))) ..

theorem canonical_beginHello (hs : Canonical s) : Canonical (beginHello s) := canonical_putObj (canonical_with_net hs) ..
theorem canonical_noteBelow {m parent : Nat} (hs : Canonical s) : Canonical (noteBelow s m parent) := canonical_with_net hs

theorem canonical_chooseParent (hs : Canonical s) : Canonical (chooseParent s) := by
  simp only [chooseParent]
  split <;> exact canonical_putObj (canonical_with_net hs) ..

theorem canonical_noteDepth {m depth : Nat} (hs : Canonical s) : Canonical (noteDepth s m depth) := canonical_with_net hs

theorem canonical_growTree {m depth parent : Nat} (hs : Canonical s) : Canonical (growTree s m depth parent) :=
  canonical_putObj (canonical_putObj (canonical_noteDepth (canonical_with_net hs)) ..) ..

theorem canonical_markChild {m : Nat} (hs : Canonical s) : Canonical (markChild s m) := canonical_with_net hs

theorem canonical_rejoin {m : Nat} {intact : Bool} (hs : Canonical s) : Canonical (rejoin s m intact) :=
  canonical_foldl (fun _ _ hs' => canonical_ite hs' (canonical_ite (canonical_updSet hs') (canonical_failLockSet hs'))) _ (canonical_with_net hs)

theorem canonical_actHello {q : Nat} {f : DraftFrame} (hs : Canonical s) : Canonical (actHello s q f) := by
  unfold actHello
  extract_lets +onlyGivenNames st
  refine canonical_ite (canonical_with_boot hs) (canonical_ite hs (canonical_ite (canonical_putObj hs ..) ?_))
  extract_lets +onlyGivenNames s1 p s2 s3 s4
  have h3 : Canonical s3 := canonical_rejoin (canonical_setPort (canonical_putNeighbour hs))
  have h4 : Canonical s4 := canonical_ite h3 (canonical_sendHello h3)
  clear_value s4
  refine canonical_ite (canonical_ite ?_ h4) (canonical_ite h4 (canonical_ite (canonical_ite ?_ h4) (canonical_ite (canonical_startElect h4) h4)))
  · exact canonical_downDraft (canonical_growTree (canonical_putObj (canonical_markChild h4) ..))
  · exact canonical_putObj (canonical_with_net (canonical_chooseParent h4)) ..

theorem canonical_actElect {q : Nat} {f : DraftFrame} (hs : Canonical s) : Canonical (actElect s q f) :=
  canonical_ite hs (canonical_ite (canonical_sendElect (canonical_with_net (canonical_ite (canonical_startElect hs) hs)))
    (canonical_ite (canonical_startElect hs) hs))

theorem canonical_putRoute {m e : Nat} (hs : Canonical s) : Canonical (putRoute s m e) :=
  canonical_with_net (canonical_ite (canonical_addObj hs ..) (canonical_ite (canonical_subObj hs ..) hs))

theorem canonical_discoverRoute {m : Nat} (hs : Canonical s) : Canonical (discoverRoute s m) := by
  simp only [discoverRoute]
  split
  · exact hs
  split
  · exact canonical_putRoute (canonical_useFree hs _)
  · exact canonical_putRoute (canonical_useFree hs _)
  split
  · exact canonical_useFree hs _
  · exact canonical_putRoute (canonical_useFree hs _)

theorem canonical_freeTicks {late : Bool} (hs : Canonical s) : Canonical (freeTicks s late) :=
  canonical_putObj (canonical_putObj (canonical_putObj (canonical_with_net (canonical_useFree hs _)) ..) ..) ..

theorem canonical_lateTree {depth size : Nat} (hs : Canonical s) : Canonical (lateTree s depth size) :=
  canonical_putObj (canonical_putObj (canonical_useFree hs _) ..) ..

theorem canonical_assignTree {root m depth parent size : Nat} {late : Bool} (hs : Canonical s) :
    Canonical (assignTree s root m depth parent size late) :=
  canonical_ite (canonical_lateTree hs) (canonical_growTree (canonical_ite hs (canonical_growTree (canonical_with_net hs))))

theorem canonical_actAssign {q : Nat} {f : DraftFrame} (hs : Canonical s) : Canonical (actAssign s q f) := by
  unfold actAssign
  refine canonical_ite hs ?_
  extract_lets +onlyGivenNames depth parent late s1
  have h1 : Canonical s1 := canonical_assignTree (canonical_putObj hs ..)
  refine canonical_downDraft (canonical_ite ?_ (canonical_discoverRoute (canonical_noteBelow (canonical_ite (canonical_markChild h1) h1))))
  extract_lets +onlyGivenNames s2 n s3 s4 s5 s6
  have h4 : Canonical s4 := canonical_putObj (canonical_with_net (canonical_putObj (canonical_putObj h1 ..) ..)) ..
  have h5 : Canonical s5 := canonical_ite h4 (canonical_freeTicks h4)
  have h6 : Canonical s6 := canonical_ite (canonical_foldl (fun _ _ hu => canonical_sendHello hu) _ h5) h5
  exact canonical_discoverRoute (canonical_putObj h6 ..)

theorem canonical_noteHoldover (hs : Canonical s) : Canonical (noteHoldover s) := canonical_ite (canonical_with_net (canonical_putObj hs ..)) hs
theorem canonical_sendAlign {q : Nat} (hs : Canonical s) : Canonical (sendAlign s q) := canonical_sendDraft (canonical_setPort hs)
theorem canonical_setTime {t : Nat} (hs : Canonical s) : Canonical (setTime s t) := canonical_with_net (canonical_putObj hs ..)

theorem canonical_actAlign {q : Nat} {f : DraftFrame} (hs : Canonical s) : Canonical (actAlign s q f) := by
  have hp (x y : Port) (k v : Nat) := canonical_putObj (canonical_setPort (x := y) (canonical_setPort (x := x) hs)) k v
  simp only [actAlign]
  refine canonical_noteHoldover ?_
  split
  · exact canonical_setPort hs
  · exact canonical_putObj (canonical_ite (hp ..) (canonical_ite (canonical_setTime (hp ..)) (canonical_with_net (hp ..)))) ..

theorem canonical_freeSubtree {n : Nat} {l l1 : List (Nat × Nat × Nat)} (hs : Canonical s) : Canonical (freeSubtree n l l1 s).1 := by
  induction n generalizing l l1 s with
  | zero =>
    simp only [freeSubtree]
    exact hs
  | succ n ih =>
    simp only [freeSubtree]
    split
    · exact hs
    · exact canonical_ite_fst (ih (canonical_useFree hs _)) (ih (canonical_useFree hs _))

theorem canonical_freeTree {near l : List Nat} {l1 : List (Nat × Nat × Nat)} (hs : Canonical s) : Canonical (freeTree near l l1 s).1 := by
  induction l generalizing l1 s with
  | nil =>
    simp only [freeTree]
    exact hs
  | cons x l ih =>
    simp only [freeTree]
    exact ih (canonical_freeSubtree (canonical_useFree hs _))

theorem canonical_rootAssign (hs : Canonical s) : Canonical (rootAssign s) := by
  unfold rootAssign
  extract_lets +onlyGivenNames near
  split
  next tree =>
  extract_lets +onlyGivenNames start s1 first s2 s3 n s4 s5 n6 s6 s7 s8 s9
  have h1 : Canonical s1 := canonical_useFree ((canonical_freeTree hs).of_pair tree) _
  have h3 : Canonical s3 := canonical_putObj (canonical_putObj (canonical_putObj (canonical_putObj (canonical_putObj (canonical_putObj h1 ..) ..) ..)
    ..) ..) ..
  have h4 : Canonical s4 := canonical_with_net h3
  have h5 : Canonical s5 := by
    simp only [s5]
    split
    · exact canonical_ite (canonical_putObj (canonical_setTime h4) ..) h4
    · exact h4
  have h6 : Canonical s6 := canonical_ite (canonical_with_net h5) h5
  have h7 : Canonical s7 := canonical_ite (canonical_putObj (canonical_putObj (canonical_putObj h6 ..) ..) ..) h6
  have h8 : Canonical s8 := canonical_foldl (fun _ _ hu => canonical_markChild hu) _ h7
  have h9 : Canonical s9 := canonical_foldl (fun _ _ hu => canonical_discoverRoute (canonical_noteDepth hu)) _ h8
  exact canonical_foldl (fun _ _ hu => canonical_downDraft hu) _ h9

theorem canonical_lateJoin (hs : Canonical s) : Canonical (lateJoin s) := by
  simp only [lateJoin]
  split
  · exact hs
  · exact canonical_ite (canonical_useFree hs _) (canonical_downDraft (canonical_discoverRoute
      (canonical_growTree (canonical_putObj (canonical_useFree hs _) ..))))

theorem canonicalRes_execJoinedEntry (hs : Canonical s) : CanonicalRes (execJoinedEntry s) := by
  unfold execJoinedEntry
  extract_lets +onlyGivenNames d st
  refine canonicalRes_onlyIf hs ?_
  extract_lets +onlyGivenNames s1 s2
  have h2 : Canonical s2 := canonical_putObj (canonical_putObj (canonical_putObj (canonical_ite (canonical_rootAssign hs) hs) ..) ..) ..
  exact .next (canonical_ite h2 (canonical_noteHoldover h2))

theorem canonicalRes_execAlignExchange (hs : Canonical s) : CanonicalRes (execAlignExchange s) := by
  unfold execAlignExchange
  exact canonicalRes_onlyIf hs (.next (canonical_ite (canonical_lateJoin (canonical_foldl (fun _ _ hs' => canonical_sendAlign hs') _ hs))
    (canonical_foldl (fun _ _ hs' => canonical_sendAlign hs') _ hs)))

theorem canonicalRes_execHoldoverExpiry (hs : Canonical s) : CanonicalRes (execHoldoverExpiry s) :=
  canonicalRes_onlyIf hs (.next (canonical_foldl (fun _ _ hs' => canonical_originate hs') _
    (canonical_ite (canonical_addObj (canonical_putObj hs ..) ..) (canonical_floodLost (canonical_addObj (canonical_putObj hs ..) ..)))))

theorem canonical_moduleLost {m : Nat} (hs : Canonical s) : Canonical (moduleLost s m) := by
  unfold moduleLost
  extract_lets +onlyGivenNames n s1 s2
  have h2 : Canonical s2 := by
    refine canonical_foldl (fun s _ hu => ?_) _ (canonical_with_net hs)
    have hv := canonical_useFree hu 1
    exact canonical_ite hv (canonical_ite (canonical_originate hv) (canonical_updSet (canonical_originate hv)))
  clear_value s2
  refine canonical_ite ?_ h2
  extract_lets +onlyGivenNames more s3
  have h3 : Canonical s3 := canonical_useFree h2 _
  refine canonical_ite h3 ?_
  have h4 := canonical_addObj h3 Obj.reelections 1
  exact canonical_startElect (canonical_with_net (canonical_ite (canonical_putObj h4 ..) h4))

theorem canonical_actLost {q : Nat} {f : DraftFrame} (hs : Canonical s) : Canonical (actLost s q f) := by
  simp only [actLost]
  split
  · exact (canonical_newFlood hs).of_pair ‹_›
  · exact canonical_moduleLost (canonical_floodDraft ((canonical_newFlood hs).of_pair ‹_›))

theorem canonicalRes_execNeighbourLoss {q : Nat} (hs : Canonical s) : CanonicalRes (execNeighbourLoss q s) := by
  refine canonicalRes_withSome hs fun m => ?_
  extract_lets +onlyGivenNames links parent s1 s2 s3 s4
  have h2 : Canonical s2 := canonical_floodLost (canonical_foldl (fun _ _ hu => canonical_putNeighbour (canonical_setPort hu)) _ hs)
  have h3 : Canonical s3 := canonical_ite (canonical_chooseParent h2) h2
  refine .next (canonical_noteHoldover (canonical_moduleLost ?_))
  simp only [s4]
  split
  · exact canonical_putObj h3 ..
  · exact h3

theorem canonical_actVote {q : Nat} {f : DraftFrame} (hs : Canonical s) : Canonical (actVote s q f) := by
  simp only [actVote]
  split
  · exact hs
  split
  · exact canonical_tryVotes (canonical_updSet hs)
  · exact canonical_relayVote hs

theorem canonical_actOutcome {q : Nat} {f : DraftFrame} (hs : Canonical s) : Canonical (actOutcome s q f) := canonical_takeOutcome hs

theorem canonicalRes_actBarrierUp {q : Nat} {f : DraftFrame} (hs : Canonical s) : CanonicalRes (actBarrierUp s q f) :=
  canonicalRes_barrierTry (canonical_with_net hs)

theorem canonicalRes_actBarrierDown {f : DraftFrame} (hs : Canonical s) : CanonicalRes (actBarrierDown s f) := canonicalRes_barrierDone hs
theorem canonical_pendPeriod {p tick : Nat} (hs : Canonical s) : Canonical (pendPeriod s p tick) := canonical_ite hs (canonical_with_net hs)

theorem canonical_actPeriod {q : Nat} {f : DraftFrame} (hs : Canonical s) : Canonical (actPeriod s q f) := by
  simp only [actPeriod]
  split
  · exact (canonical_newFlood hs).of_pair ‹_›
  · exact canonical_floodDraft (canonical_pendPeriod ((canonical_newFlood hs).of_pair ‹_›))

theorem canonical_actRollback {q : Nat} {f : DraftFrame} (hs : Canonical s) : Canonical (actRollback s q f) := by
  simp only [actRollback]
  split
  · exact (canonical_newFlood hs).of_pair ‹_›
  split
  · exact canonical_beginRollback (canonical_floodDraft ((canonical_newFlood hs).of_pair ‹_›))
  · exact canonical_floodDraft ((canonical_newFlood hs).of_pair ‹_›)

theorem canonical_actNak {q : Nat} {f : DraftFrame} (hs : Canonical s) : Canonical (actNak s q f) :=
  canonical_foldl (fun _ _ hs' => canonical_sendTwice hs') _ hs

theorem canonicalRes_actDraft {q : Nat} {x : Nat × DraftFrame} (hs : Canonical s) : CanonicalRes (actDraft s q x) := by
  simp only [actDraft]
  split
  · exact .next (canonical_actHello hs)
  · exact .next (canonical_actElect hs)
  · exact .next (canonical_actAssign hs)
  · exact .next (canonical_actAlign hs)
  · exact .next (canonical_actVote hs)
  · exact .next (canonical_actOutcome hs)
  · exact canonicalRes_actBarrierUp hs
  · exact canonicalRes_actBarrierDown hs
  · exact .next (canonical_actPeriod hs)
  · exact .next (canonical_actRollback hs)
  · exact .next (canonical_actLost hs)
  · exact .next (canonical_actNak hs)
  · exact .next hs

theorem canonical_missedVotes {p : Nat} (hs : Canonical s) : Canonical (missedVotes s p) := by
  simp only [missedVotes]
  split
  · exact hs
  refine canonical_foldl (fun _ _ hs' => ?_) _ (canonical_foldl (fun _ _ hs' => ?_) _ hs)
  · split
    · exact canonical_ite hs' (canonical_relayVote hs')
    · exact hs'
  split
  · exact canonical_ite hs' (canonical_tryVotes (canonical_updSet hs'))
  · exact hs'

theorem canonical_resync {q seq : Nat} (hs : Canonical s) : Canonical (resync s q seq) :=
  canonical_missedVotes (canonical_setPort (canonical_addObj hs ..))

theorem canonicalRes_drainDraft {q n : Nat} (hs : Canonical s) : CanonicalRes (drainDraft q n s) := by
  induction n generalizing s with
  | zero =>
    simp only [drainDraft]
    exact .next hs
  | succ n ih =>
    simp only [drainDraft]
    split
    · exact .next hs
    split
    · exact ih ((canonicalRes_actDraft (canonical_setPort hs)).of_next ‹_›)
    · exact canonicalRes_actDraft (canonical_setPort hs)

theorem canonical_sendDraftNak {q : Nat} (hs : Canonical s) : Canonical (sendDraftNak s q) := canonical_sendDraft hs

theorem canonicalRes_recvDraft {kind q : Nat} {f : DraftFrame} (hs : Canonical s) : CanonicalRes (recvDraft kind q f s) := by
  simp only [recvDraft]
  refine canonicalRes_onlyIf hs ?_
  split
  · exact .next hs
  split
  · exact canonicalRes_actDraft (canonical_setPort hs)
  split
  · exact canonicalRes_drainDraft (canonical_setPort hs)
  split
  · exact canonicalRes_drainDraft (canonical_resync (canonical_addObj (canonical_setPort hs) ..))
  · exact .next (canonical_ite (canonical_addObj (canonical_setPort hs) ..) (canonical_sendDraftNak (canonical_addObj (canonical_setPort hs) ..)))

theorem canonicalRes_execDraftNakRetry {q : Nat} (hs : Canonical s) : CanonicalRes (execDraftNakRetry q s) :=
  canonicalRes_onlyIf hs (.next (canonical_sendDraftNak hs))

theorem canonicalRes_execParityUpdateComplete {k : Nat} (hs : Canonical s) : CanonicalRes (execParityUpdateComplete k s) := by
  unfold execParityUpdateComplete
  exact canonicalRes_onlyIf hs (.next (canonical_confirmBank (canonical_updSet hs)))

theorem canonicalRes_execBankCmd {r : CmdRef} (hs : Canonical s) : CanonicalRes (execBankCmd r s) := by
  simp only [execBankCmd]
  refine canonicalRes_withCmd hs (fun _ => ?_)
  split
  · exact .next (canonical_cmdAny hs)
  split
  · exact .next (canonical_endCmd hs)
  · exact .next hs

theorem canonical_putLinkUp {q : Nat} {up : Bool} (hs : Canonical s) : Canonical (putLinkUp s q up) := canonical_putObj hs ..

theorem canonical_rerouteEntry {q : Nat} {r : Nat × Nat} (hs : Canonical s) : Canonical (rerouteEntry s q r) :=
  canonical_ite (canonical_ite (canonical_putRoute (canonical_addObj hs ..)) (canonical_putRoute hs)) (canonical_ite hs (canonical_putRoute hs))

theorem canonicalRes_execPortDown {q : Nat} (hs : Canonical s) : CanonicalRes (execPortDown q s) :=
  canonicalRes_onlyIf hs (.next (canonical_noteHoldover (canonical_foldl (fun _ _ hs' => canonical_rerouteEntry hs') _
    (canonical_putObj (canonical_putLinkUp (canonical_setPort hs)) ..))))

theorem canonicalRes_execPortUp {q : Nat} (hs : Canonical s) : CanonicalRes (execPortUp q s) := by
  simp only [execPortUp]
  split
  · exact .refused
  · exact canonicalRes_onlyIf hs (.next (canonical_ite (canonical_sendHello (canonical_ite
      (canonical_beginHello (canonical_putLinkUp (canonical_setPort hs))) (canonical_putLinkUp (canonical_setPort hs))))
      (canonical_ite (canonical_beginHello (canonical_putLinkUp (canonical_setPort hs))) (canonical_putLinkUp (canonical_setPort hs)))))

theorem canonicalRes_execRouteRecompute {routes : List RouteCand} (hs : Canonical s) : CanonicalRes (execRouteRecompute routes s) := by
  simp only [execRouteRecompute]
  refine .next (canonical_foldl (fun _ _ hs' => canonical_ite hs' ?_) _ hs)
  split
  · exact hs'
  · exact canonical_putRoute hs'

end Sys2Proof.Machine
end

section
/-! SUPPORT. Canonical forms kept by the transport and RoCEv2 (R319 to R330): one fact for each operation, in the order of the model. -/

namespace Sys2Proof.Machine

variable {s t : State}

/-! ### The transport (Transport) -/

theorem canonicalRes_advanceWork {ch seq : Nat} (hs : Canonical s) : CanonicalRes (advanceWork s ch seq) := by
  simp only [advanceWork]
  split
  · exact canonicalRes_advanceCmd hs
  split
  · split
    · split
      · exact canonicalRes_collTail hs
      · exact .next hs
    · exact .next hs
  · exact canonicalRes_collAdvance hs

theorem canonicalRes_advanceAll {l : List (Nat × Nat)} (hs : Canonical s) : CanonicalRes (advanceAll l s) := by
  induction l generalizing s with
  | nil =>
    simp only [advanceAll]
    exact .next hs
  | cons x l ih =>
    simp only [advanceAll]
    split
    · exact ih ((canonicalRes_advanceWork hs).of_next ‹_›)
    · exact canonicalRes_advanceWork hs

theorem canonical_ackNow {no : Nat} (hs : Canonical s) : Canonical (ackNow s no) := by
  simp only [ackNow]
  split
  · exact hs
  · exact canonical_setPath (canonical_sendAck hs)

theorem canonicalOptPair_peerPath {src : Nat} (hs : Canonical s) : CanonicalOptPair (peerPath s src) := by
  unfold peerPath
  cases opened : openPath s src with
  | none => exact .none
  | some p => exact .some (canonical_setPath ((canonicalOptPair_openPath hs).of_some_pair opened))

theorem canonical_noteFrame {q : Nat} {f : TFrame} (hs : Canonical s) : Canonical (noteFrame s q f) :=
  canonical_ite hs (canonical_addObj (canonical_ite hs (canonical_addObj hs ..)) ..)

theorem canonical_respond {src psn addr n : Nat} {l : List Byte} (hs : Canonical s) : Canonical (respond s src psn addr n l) := by
  induction n generalizing s addr l with
  | zero =>
    simp only [respond]
    exact hs
  | succ n ih =>
    simp only [respond]
    exact canonical_ite (canonical_getD (canonicalOpt_sendFrame hs) hs) (ih (canonical_getD (canonicalOpt_sendFrame hs) hs))

theorem canonicalServed_perform {src : Nat} {x : Sent} (hs : Canonical s) : CanonicalServed (perform s src x) := by
  simp only [perform]
  split
  · split
    · exact .done ((canonicalServed_serveWrite hs).of_done ‹_›)
    · exact .refused ((canonicalServed_serveWrite hs).of_refused ‹_›)
    · exact .wait ((canonicalServed_serveWrite hs).of_wait ‹_›)
  · split
    · exact .done (canonical_respond ((canonicalServed_serveRead hs).of_done ‹_›))
    · exact .refused ((canonicalServed_serveRead hs).of_refused ‹_›)
    · exact .wait ((canonicalServed_serveRead hs).of_wait ‹_›)
  · split
    · exact .done hs
    · exact .done (canonical_with_net hs)
  · split
    · exact .done ((canonicalServed_serveSignal hs).of_done ‹_›)
    · exact .refused ((canonicalServed_serveSignal hs).of_refused ‹_›)
    · exact .wait ((canonicalServed_serveSignal hs).of_wait ‹_›)
  · split
    · exact .done hs
    · exact .done (canonical_addContribution hs)
  · exact .done hs

theorem canonical_pathNext {no : Nat} {x : Sent} (hs : Canonical s) : Canonical (pathNext s no x) := by
  simp only [pathNext]
  split
  · exact hs
  · exact canonical_setPath hs

theorem canonical_drainPath {no n : Nat} {l : List FrameFor} (hs : Canonical s) : Canonical (drainPath no n s l).1 := by
  induction n generalizing s l with
  | zero =>
    simp only [drainPath]
    exact hs
  | succ n ih =>
    simp only [drainPath]
    split
    · split
      · exact hs
      split
      · exact (canonicalServed_perform hs).of_wait ‹_›
      · exact ih (canonical_pathNext (canonical_sendAck ((canonicalServed_perform hs).of_refused ‹_›)))
      · exact ih (canonical_pathNext ((canonicalServed_perform hs).of_done ‹_›))
    · exact hs

theorem canonical_linkCheck {q : Nat} {f : TFrame} (hs : Canonical s) : Canonical (linkCheck s q f).1 :=
  canonical_ite_fst hs (canonical_ite_fst (canonical_ite_fst hs (canonical_sendLink (canonical_setPort hs)))
    (canonical_ite_fst (canonical_sendLink (canonical_setPort hs)) (canonical_setPort hs)))

theorem canonicalRes_recvControl {q : Nat} {f : TFrame} {k : PathCtx → State → Res} (hs : Canonical s)
    (hk : ∀ x0 s', Canonical s' → CanonicalRes (k x0 s')) : CanonicalRes (recvControl q f s k) := by
  simp only [recvControl]
  refine canonicalRes_onlyIf hs ?_
  split
  · exact .next ((canonical_linkCheck (canonical_noteFrame hs)).of_pair ‹_›)
  split
  · exact .next ((canonical_linkCheck (canonical_noteFrame hs)).of_pair ‹_›)
  split
  · exact .next ((canonical_linkCheck (canonical_noteFrame hs)).of_pair ‹_›)
  · exact hk _ _ (canonical_setPath ((canonical_linkCheck (canonical_noteFrame hs)).of_pair ‹_›))

theorem canonical_ackBelow {p : PathCtx} {psn : Nat} (hs : Canonical s) : Canonical (ackBelow s p psn).1 := canonical_setPath hs
theorem canonical_halveRate {p : PathCtx} (hs : Canonical s) : Canonical (halveRate s p) := canonical_addObj (canonical_setPath hs) ..

theorem canonicalRes_execAckFrame {q : Nat} {f : TFrame} (hs : Canonical s) : CanonicalRes (execAckFrame q f s) := by
  simp only [execAckFrame]
  refine canonicalRes_recvControl hs (fun _ _ hs' => canonicalRes_advanceAll ?_)
  split
  · exact canonical_ite (canonical_halveRate (canonical_ackBelow hs')) (canonical_ackBelow hs')
  · exact canonical_ackBelow hs'

theorem canonical_resend {p : PathCtx} (hs : Canonical s) : Canonical (resend s p) :=
  canonical_foldl (fun _ _ hs' => canonical_addObj (canonical_emit hs') ..) _ hs

theorem canonical_refusedFrame {dst : Nat} {x : Sent} (hs : Canonical s) : Canonical (refusedFrame s dst x) := by
  simp only [refusedFrame]
  split
  · exact canonical_with_net (canonical_noteLost hs)
  split
  · exact canonical_storeFailed (canonical_noteLost hs)
  · exact canonical_storeFailed (canonical_noteLost hs)
  · split
    · exact canonical_noteLost hs
    · exact canonical_ite (canonical_noteLost hs) (canonical_ite (canonical_endCmd (canonical_noteLost hs))
        (canonical_endXfer (canonical_noteLost hs)))
  · split
    · exact canonical_noteLost hs
    · exact canonical_ite (canonical_noteLost hs) (canonical_endXfer (canonical_noteLost hs))
  · exact canonical_noteLost hs

theorem canonicalRes_execNakFrame {q : Nat} {f : TFrame} (hs : Canonical s) : CanonicalRes (execNakFrame q f s) := by
  simp only [execNakFrame]
  refine canonicalRes_recvControl hs (fun _ _ hs' => ?_)
  split
  · split
    · exact canonicalRes_advanceAll (canonical_ackBelow hs')
    refine canonicalRes_advanceAll ?_
    split
    · exact canonical_setPath (canonical_refusedFrame (canonical_ackBelow hs'))
    · exact canonical_refusedFrame (canonical_ackBelow hs')
  split
  · exact canonicalRes_advanceAll (canonical_resend (canonical_ackBelow hs'))
  · exact canonicalRes_advanceAll (canonical_ackBelow hs')

theorem canonicalRes_execRetransmitTimeout {path : Nat} (hs : Canonical s) : CanonicalRes (execRetransmitTimeout path s) :=
  canonicalRes_withSome hs (fun _ => canonicalRes_onlyIf hs (.next (canonical_resend hs)))

theorem canonical_dropStores {xs : List Sent} (hs : Canonical s) : Canonical (dropStores s xs) :=
  canonical_addObj (canonical_foldl (fun _ _ hs' => canonical_storeFailed hs') _ hs) ..

theorem canonical_remoteLost {w : Nat × Nat} (hs : Canonical s) : Canonical (remoteLost s w) := by
  simp only [remoteLost]
  split
  · exact canonical_stopColl hs
  split
  · exact canonical_stopCmd hs
  · exact hs

theorem canonicalRes_execTransportTimeout {path : Nat} (hs : Canonical s) : CanonicalRes (execTransportTimeout path s) :=
  canonicalRes_withSome hs (fun _ => canonicalRes_onlyIf hs (canonicalRes_advanceAll
    (canonical_addObj (canonical_setPath (canonical_foldl (fun _ _ hs' => canonical_remoteLost hs') _
    (canonical_with_net (canonical_foldl (fun _ _ hs' => canonical_noteLost hs') _ (canonical_dropStores
    (canonical_foldl (fun _ _ hs' => canonical_ite (canonical_useFree hs' _) (canonical_originate (canonical_useFree hs' _))) _ hs)))))) ..)))

theorem canonicalRes_execEceRecovery {path : Nat} (hs : Canonical s) : CanonicalRes (execEceRecovery path s) :=
  canonicalRes_withSome hs (fun _ => canonicalRes_onlyIf hs (.next (canonical_setPath hs)))

theorem canonicalRes_execPathContextFree {path : Nat} (hs : Canonical s) : CanonicalRes (execPathContextFree path s) :=
  canonicalRes_withSome hs (fun _ => canonicalRes_onlyIf hs (.next (canonical_subObj (canonical_with_net hs) ..)))

theorem canonicalRes_execWcIdleSend {core : Nat} {line : Word64} (hs : Canonical s) : CanonicalRes (execWcIdleSend core line s) :=
  canonicalRes_withSome hs (fun _ => .next (canonical_wcSend hs))

theorem canonicalRes_execLinkAck {q : Nat} {f : TFrame} (hs : Canonical s) : CanonicalRes (execLinkAck q f s) := by
  simp only [execLinkAck]
  refine canonicalRes_onlyIf hs ?_
  split
  · exact .next hs
  split
  · exact .next (canonical_noteFrame hs)
  · exact .next (canonical_drainTx (canonical_setPort hs))

theorem canonicalRes_execLinkNak {q : Nat} {f : TFrame} (hs : Canonical s) : CanonicalRes (execLinkNak q f s) := by
  simp only [execLinkNak]
  refine canonicalRes_onlyIf hs ?_
  split
  · exact .next hs
  split
  · exact .next (canonical_noteFrame hs)
  · exact .next (canonical_foldl (fun _ _ hs' => canonical_send hs' _) _ (canonical_addObj (canonical_setPort hs) ..))

theorem canonicalRes_execLinkAckTimer {q : Nat} (hs : Canonical s) : CanonicalRes (execLinkAckTimer q s) := by
  unfold execLinkAckTimer
  exact canonicalRes_onlyIf hs (.next (canonical_ite (canonical_sendLink hs) (canonical_sendLink hs)))

theorem canonicalRes_execFrameForward {q dst ty : Nat} {f : TFrame} (hs : Canonical s) : CanonicalRes (execFrameForward q dst ty f s) := by
  simp only [execFrameForward]
  refine canonicalRes_onlyIf hs ?_
  split
  · exact .next (canonical_noteFrame ((canonical_linkCheck hs).of_pair ‹_›))
  split
  · exact .next ((canonical_linkCheck hs).of_pair ‹_›)
  · exact .next (canonical_addObj (canonical_emit ((canonical_linkCheck hs).of_pair ‹_›)) ..)

theorem canonicalRes_execTransportReservedType {ty : Nat} (hs : Canonical s) : CanonicalRes (execTransportReservedType ty s) := by
  simp only [execTransportReservedType]
  split
  · exact .refused
  · exact .next (canonical_addObj hs ..)

/-! ### RoCEv2 and its queues (Roce) -/

theorem canonical_sendRoce {qp op psn : Nat} {data : List Byte} (hs : Canonical s) : Canonical (sendRoce s qp op psn data) :=
  canonical_ite hs (canonical_ite (canonical_with_net (canonical_useFree hs _)) (canonical_send (canonical_useFree hs _) _))

theorem canonical_roceAck {qp psn : Nat} {syn : Byte} (hs : Canonical s) : Canonical (roceAck s qp psn syn) := canonical_sendRoce hs

theorem canonical_roceError {qp psn : Nat} {syn : Byte} (hs : Canonical s) : Canonical (roceError s qp psn syn) :=
  canonical_putObj (canonical_roceAck hs) ..

theorem canonical_drawCnp {p : RocePacket} (hs : Canonical s) : Canonical (drawCnp s p) := canonical_ite (canonical_sendRoce hs) hs

theorem canonicalRes_recvRoce {ops : List Nat} {p : RocePacket} {k : Qp → State → Res} (hs : Canonical s)
    (hk : ∀ x0 s', Canonical s' → CanonicalRes (k x0 s')) : CanonicalRes (recvRoce ops p s k) := by
  simp only [recvRoce]
  split
  · exact .refused
  split
  · exact .next hs
  split
  · exact .next hs
  split
  · split
    · exact hk _ _ (canonical_drawCnp hs)
    · split <;> exact .next (canonical_roceAck (canonical_drawCnp hs))
  split
  · exact hk _ _ (canonical_drawCnp hs)
  · split <;> exact .next (canonical_roceAck (canonical_drawCnp hs))

theorem canonical_roceDone {x : Qp} {psn : Nat} (hs : Canonical s) : Canonical (roceDone s x psn) := canonical_roceAck (canonical_setQp hs)

theorem canonicalWrite_putSlots {q : Nat} {msg : List Byte} {last : Bool} {n n1 : Nat} (hs : Canonical s) :
    CanonicalWrite (putSlots s q msg last n n1) := by
  induction n generalizing s n1 with
  | zero =>
    simp only [putSlots]
    exact .ok hs
  | succ n ih =>
    simp only [putSlots]
    split
    · exact .error ((canonicalCheck_spanOk hs).of_error ‹_›)
    · exact ih (canonical_writeRun hs ..)

theorem canonicalRes_execRoceSend {p : RocePacket} (hs : Canonical s) : CanonicalRes (execRoceSend p s) := by
  simp only [execRoceSend]
  refine canonicalRes_recvRoce hs (fun _ _ hs' => ?_)
  split
  · exact .next (canonical_roceError hs')
  split
  · exact .next (canonical_roceError hs')
  split
  · exact .next (canonical_roceError hs')
  split
  · exact .next (canonical_ite (canonical_roceAck hs') (canonical_roceError hs'))
  split
  · exact .next ((canonicalWrite_putSlots hs').of_wait ‹_›)
  · exact .fault
  · exact .next (canonical_unpredictable hs')
  · exact .next (canonical_roceError hs')
  · exact .next (canonical_roceDone (canonical_ite (canonical_putObj ((canonicalWrite_putSlots hs').of_ok ‹_›) ..)
      ((canonicalWrite_putSlots hs').of_ok ‹_›)))

theorem canonicalRes_execRdmaWrite {p : RocePacket} (hs : Canonical s) : CanonicalRes (execRdmaWrite p s) := by
  simp only [execRdmaWrite]
  refine canonicalRes_recvRoce hs (fun _ _ hs' => ?_)
  split
  · split
    · exact .next (canonical_roceError hs')
    split
    · exact .next (canonical_roceError hs')
    split
    · exact .next (canonical_roceError ((canonicalServed_serveWrite hs').of_refused ‹_›))
    · exact .next ((canonicalServed_serveWrite hs').of_wait ‹_›)
    · exact .next (canonical_roceDone ((canonicalServed_serveWrite hs').of_done ‹_›))
  split
  · exact .next (canonical_roceError hs')
  split
  · exact .next (canonical_roceError hs')
  split
  · exact .next (canonical_roceError ((canonicalServed_serveWrite hs').of_refused ‹_›))
  · exact .next ((canonicalServed_serveWrite hs').of_wait ‹_›)
  · exact .next (canonical_roceDone ((canonicalServed_serveWrite hs').of_done ‹_›))

theorem canonical_readResponses {q psn n : Nat} {x : Bool} {l : List Byte} (hs : Canonical s) : Canonical (readResponses s q psn n x l) := by
  induction n generalizing s psn x l with
  | zero =>
    simp only [readResponses]
    exact hs
  | succ n ih =>
    simp only [readResponses]
    exact canonical_ite (ih (canonical_sendRoce hs)) (canonical_sendRoce hs)

theorem canonicalRes_execRdmaRead {p : RocePacket} (hs : Canonical s) : CanonicalRes (execRdmaRead p s) := by
  simp only [execRdmaRead]
  split
  · split
    · exact .refused
    · exact .next (canonical_ite (canonical_drawCnp hs) hs)
  refine canonicalRes_recvRoce hs (fun _ _ hs' => ?_)
  split
  · exact .next (canonical_roceError hs')
  split
  · exact .next (canonical_roceError hs')
  split
  · exact .next (canonical_roceError ((canonicalServed_serveRead hs').of_refused ‹_›))
  · exact .next ((canonicalServed_serveRead hs').of_wait ‹_›)
  · exact .next (canonical_readResponses (canonical_setQp ((canonicalServed_serveRead hs').of_done ‹_›)))

theorem canonical_sendMessage {q fuel i n : Nat} {bs : List Byte} (hs : Canonical s)
    (is : sendMessage s q fuel i = .ok (some (t, n, bs))) : Canonical t := by
  induction fuel generalizing s i n bs with
  | zero => cases is
  | succ fuel ih =>
    simp only [sendMessage] at is
    split at is
    · cases is
    · next read =>
      have hu := (canonicalRead_readRun hs).of_ok read
      split at is
      · cases is
      · split at is
        · cases is; exact hu
        · split at is
          · cases is
          · cases is
          · next rest => cases is; exact ih hu rest

theorem canonicalStop_sendMessage {q fuel i : Nat} {e : Stop} (hs : Canonical s) (is : sendMessage s q fuel i = .error e) :
    CanonicalStop e := by
  induction fuel generalizing s i with
  | zero => cases is
  | succ fuel ih =>
    simp only [sendMessage] at is
    split at is
    · next stops => cases is; exact (canonicalRead_readRun hs).of_error stops
    · next read =>
      have hu := (canonicalRead_readRun hs).of_ok read
      split at is
      · cases is; exact .any
      · split at is
        · cases is
        · split at is
          · next stops => cases is; exact ih hu stops
          · cases is
          · cases is

theorem canonical_sendPackets {q psn n : Nat} {x : Bool} {l : List Byte} (hs : Canonical s) : Canonical (sendPackets s q psn n x l).1 := by
  induction n generalizing s psn x l with
  | zero =>
    simp only [sendPackets]
    exact hs
  | succ n ih =>
    simp only [sendPackets]
    exact canonical_ite_fst (ih (canonical_sendRoce hs)) (canonical_sendRoce hs)

theorem canonicalWrite_postGo {q tail fuel : Nat} (hs : Canonical s) : CanonicalWrite (postGo q tail fuel s) := by
  induction fuel generalizing s with
  | zero => exact .ok hs
  | succ fuel ih =>
    simp only [postGo]
    split
    · exact .ok hs
    · split
      · next stops => exact .error (canonicalStop_sendMessage hs stops)
      · exact .ok hs
      · next message => exact ih (canonical_setQp (canonical_sendPackets (canonical_sendMessage hs message)))

theorem canonical_postStop {q : Nat} {x : Stop} (hs : Canonical s) (hx : CanonicalStop x) : Canonical (postStop s q x) := by
  simp only [postStop]
  split
  · exact hx.of_wait rfl
  · exact canonical_putObj (canonical_useFree (canonical_unpredictable hs) _) ..
  · exact canonical_putObj hs ..

theorem canonical_postSends {q v : Nat} (hs : Canonical s) : Canonical (postSends s q v) := by
  simp only [postSends]
  split
  · exact hs
  split
  · exact (canonicalWrite_postGo hs).of_ok ‹_›
  · exact canonical_postStop hs ((canonicalWrite_postGo hs).of_error ‹_›)

theorem canonical_ackSends {q psn : Nat} (hs : Canonical s) : Canonical (ackSends s q psn) := canonical_putObj (canonical_setQp hs) ..

theorem canonical_resendSends {q : Nat} (hs : Canonical s) : Canonical (resendSends s q) := by
  simp only [resendSends]
  split
  · exact hs
  split
  · exact (canonicalWrite_postGo (canonical_setQp hs)).of_ok ‹_›
  · exact canonical_postStop (canonical_setQp hs) ((canonicalWrite_postGo (canonical_setQp hs)).of_error ‹_›)

theorem canonicalRes_execRoceAcknowledge {p : RocePacket} (hs : Canonical s) : CanonicalRes (execRoceAcknowledge p s) := by
  simp only [execRoceAcknowledge]
  split
  · exact .refused
  split
  · exact .next hs
  split
  · exact .next (canonical_ackSends (canonical_drawCnp hs))
  split
  · exact .next (canonical_resendSends (canonical_ackSends (canonical_drawCnp hs)))
  · exact .next (canonical_putObj (canonical_drawCnp hs) ..)

theorem canonicalRes_execCnp {qp : Nat} (hs : Canonical s) : CanonicalRes (execCnp qp s) := by
  simp only [execCnp]
  split
  · exact .refused
  · exact .next (canonical_addObj (canonical_setQp hs) ..)

theorem canonicalRes_execRoceUnsupportedOpcode {p : RocePacket} (hs : Canonical s) : CanonicalRes (execRoceUnsupportedOpcode p s) := by
  simp only [execRoceUnsupportedOpcode]
  split
  · exact .refused
  split
  · exact .next hs
  · exact .next (canonical_roceError (canonical_drawCnp hs))

theorem canonicalRes_execPfcFrame {q : Nat} {pause : Bool} (hs : Canonical s) : CanonicalRes (execPfcFrame q pause s) := by
  simp only [execPfcFrame]
  refine canonicalRes_onlyIf hs ?_
  split
  · exact .next (canonical_setPort hs)
  · exact .next (canonical_foldl (fun _ _ hs' => canonical_send hs' _) _ (canonical_with_net (canonical_setPort hs)))

theorem canonicalRes_execPtpMessage {ptpTime : Nat} (hs : Canonical s) : CanonicalRes (execPtpMessage ptpTime s) := by
  simp only [execPtpMessage]
  split
  · exact .next hs
  split
  · exact .next (canonical_ite (canonical_with_net hs) hs)
  split
  · exact .next hs
  · exact .next (canonical_putObj (canonical_with_net hs) ..)

theorem canonicalRes_execNeighbourDiscoveryMessage {q : Nat} {pfx iid : Word64} (hs : Canonical s) :
    CanonicalRes (execNeighbourDiscoveryMessage q pfx iid s) := by
  simp only [execNeighbourDiscoveryMessage]
  split
  · exact .refused
  · exact .next (canonical_ite (canonical_send hs _) hs)

end Sys2Proof.Machine
end

section
/-! SUPPORT. Canonical forms kept by home directories, pages, tiers and banking (R189 to R194, R238 to R258, R362 to R371): one fact for each
operation, in the order of the model. -/

namespace Sys2Proof.Machine

variable {s t : State}

/-! ### Requests at home directories (Coherence) -/

theorem canonical_invalidateAgent {a : Nat} {l : LineKey} (hs : Canonical s) : Canonical (invalidateAgent s a l) := by
  simp only [invalidateAgent]
  split
  · exact canonical_ite ((keeps_invalidateDie ..).canonical hs) ((keeps_dropCopy ..).canonical hs)
  split
  · exact (keeps_snoopChip ..).canonical hs
  · exact hs

theorem canonical_deliver {n : Nat} {l : LineKey} {r : DirReq} (hs : Canonical s) : Canonical (deliver s n l r) := by
  simp only [deliver]
  split
  · exact hs
  · exact canonical_ite hs (canonical_ite hs ((keeps_llmTouch ..).canonical hs))

theorem canonical_passDirty {b a : Nat} {l : LineKey} (hs : Canonical s) : Canonical (passDirty s b a l) := by
  simp only [passDirty]
  split
  · exact hs
  split
  · exact canonical_ite ((keeps_dirtyHome ..).canonical hs) (canonical_with_mem hs rfl)
  · exact (keeps_dirtyHome ..).canonical hs

theorem canonical_homeSupplies {n : Nat} {l : LineKey} {r : DirReq} (hs : Canonical s) : Canonical (homeSupplies s n l r) := by
  simp only [homeSupplies]
  split
  · exact hs
  · exact canonical_ite hs ((keeps_llmTouch ..).canonical hs)

theorem canonical_settleReq {e : DirEnt} {r : DirReq} (hs : Canonical s) : Canonical (settleReq s e r) := by
  simp only [settleReq]
  refine canonical_deliver ?_
  split
  · exact canonical_ite ((keeps_dropDir ..).canonical hs) ((keeps_putDir ..).canonical hs)
  · exact (keeps_dropDir ..).canonical hs

theorem canonical_beginReq {e : DirEnt} {r : DirReq} (hs : Canonical s) : Canonical (beginReq s e r) := by
  simp only [beginReq]
  split
  · split
    · split
      · split
        · exact canonical_settleReq (canonical_homeSupplies hs)
        split
        · exact canonical_settleReq hs
        split
        · exact (keeps_snoopChip ..).canonical ((keeps_putDir ..).canonical hs)
        · exact canonical_settleReq hs
      · exact canonical_settleReq (canonical_homeSupplies hs)
    · exact canonical_ite (canonical_settleReq (canonical_ite (canonical_ite (canonical_addObj hs ..) hs)
        (canonical_homeSupplies (canonical_ite (canonical_addObj hs ..) hs)))) ((keeps_putDir ..).canonical
        (canonical_ite (canonical_ite (canonical_addObj hs ..) hs) (canonical_homeSupplies (canonical_ite (canonical_addObj hs ..) hs))))
  · exact canonical_ite ((keeps_putDir ..).canonical hs) ((keeps_putDir ..).canonical hs)
  · exact (keeps_putDir ..).canonical hs

theorem canonical_holdReq {l : LineKey} {r : DirReq} (hs : Canonical s) : Canonical (holdReq s l r) := canonical_with_mem hs rfl

theorem canonical_beginIdle {n : Nat} {l : LineKey} {r : DirReq} (hs : Canonical s) : Canonical (beginIdle s n l r) := by
  simp only [beginIdle]
  split
  · exact hs
  · split
    · next held => exact canonical_holdReq ((keeps_dirRoom_waits held).canonical hs)
    · next room => exact canonical_settleReq (canonical_homeSupplies ((keeps_dirRoom room).canonical hs))

theorem canonical_serveQueue {l : LineKey} {n : Nat} {l1 : List DirReq} (hs : Canonical s) : Canonical (serveQueue l n l1 s) := by
  induction n generalizing l1 s with
  | zero =>
    simp only [serveQueue]
    exact hs
  | succ n ih =>
    simp only [serveQueue]
    split
    · exact hs
    split
    · exact canonical_ite ((keeps_putDir ..).canonical hs) (ih (canonical_beginReq hs))
    split
    · exact ih (canonical_beginIdle hs)
    · exact hs

theorem canonical_afterReq {l : LineKey} {q : List DirReq} (hs : Canonical s) : Canonical (afterReq s l q) := by
  simp only [afterReq]
  refine canonical_serveQueue ?_
  split
  · exact (keeps_putDir ..).canonical hs
  · exact hs

theorem canonical_enqueue {e : DirEnt} {r : DirReq} (hs : Canonical s) : Canonical (enqueue s e r) :=
  (keeps_putDir ..).canonical (canonical_useFree hs _)

theorem canonical_ownGate {n : Nat} {vas : List Nat} (hs : Canonical s) (is : ownGate s n vas = .ok t) : Canonical t := by
  simp only [ownGate] at is
  split at is
  · cases is
  · cases is
    exact canonical_foldl (fun _ _ hu => canonical_logWrite hu ..) _ hs

theorem canonical_ownGate_waits {n : Nat} {vas : List Nat} (hs : Canonical s) (is : ownGate s n vas = .error t) :
    Canonical t := by
  simp only [ownGate] at is
  split at is
  · next waits =>
    cases is
    obtain ⟨va, _, held⟩ := List.exists_of_findSome?_eq_some waits
    split at held
    · next gate => cases held; exact (canonicalCheck_imageGate hs).of_wait gate
    · cases held
  · cases is

theorem canonical_takeReq {n : Nat} {l : LineKey} {r : DirReq} (hs : Canonical s) : Canonical (takeReq s n l r) := by
  simp only [takeReq]
  split
  · exact canonical_holdReq hs
  · split
    · next waits =>
      split at waits
      · cases waits
      · exact canonical_holdReq (canonical_ownGate_waits hs waits)
    · next t gated =>
      have ht : Canonical t := by
        split at gated
        · cases gated; exact hs
        · exact canonical_ownGate hs gated
      split
      · exact canonical_ite (canonical_enqueue ht) (canonical_beginReq ht)
      · exact canonical_beginIdle ht

theorem canonicalRes_dirRequest {a kind : Nat} {l : LineKey} {sectors : BitVec 8} (hs : Canonical s) :
    CanonicalRes (dirRequest a kind l sectors s) := by
  simp only [dirRequest]
  split
  · exact .refused
  · exact canonicalRes_withSome hs (fun _ => .next (canonical_takeReq hs))

theorem canonical_serveHeld (hs : Canonical s) : Canonical (serveHeld s) := by
  simp only [serveHeld]
  split
  · exact hs
  refine canonical_foldl (fun _ _ hs' => ?_) _ (canonical_with_mem hs rfl)
  split
  · exact canonical_takeReq hs'
  · exact hs'

theorem canonicalRes_execWbk {a : Nat} {l : LineKey} {dirty : BitVec 8} (hs : Canonical s) : CanonicalRes (execWbk a l dirty s) := by
  simp only [execWbk]
  split
  · exact .refused
  · exact canonicalRes_withSome hs (fun _ => .next (canonical_ite hs (canonical_ite ((keeps_putDir ..).canonical hs)
      (canonical_ite ((keeps_putDir ..).canonical hs) hs))))

theorem canonical_dropOwned {a : Nat} {l : LineKey} {e : DirEnt} (hs : Canonical s) : Canonical (dropOwned s a l e) :=
  canonical_ite ((keeps_dropDir ..).canonical ((keeps_dropCopy ..).canonical hs)) (canonical_ite ((keeps_putDir ..).canonical hs) hs)

theorem canonicalRes_execDropLine {a : Nat} {l : LineKey} (hs : Canonical s) : CanonicalRes (execDropLine a l s) := by
  simp only [execDropLine]
  split
  · exact .refused
  · exact canonicalRes_withSome hs (fun _ => .next (canonical_ite hs (canonical_dropOwned hs)))

theorem canonical_writeBeneath {a x : Nat} (hs : Canonical s) : Canonical (writeBeneath s a x) := by
  simp only [writeBeneath]
  split
  · exact hs
  · exact (keeps_setUnder ..).canonical (canonical_with_mem hs rfl)

theorem canonical_forwarded {a : Nat} {l : LineKey} {e : DirEnt} {r : DirReq} (hs : Canonical s) : Canonical (forwarded s a l e r) := by
  simp only [forwarded]
  refine canonical_afterReq (canonical_ite (canonical_settleReq ?_) (canonical_ite ?_
    ((keeps_dropCopy ..).canonical (canonical_passDirty (canonical_settleReq ?_)))))
  · split
    · exact canonical_ite (canonical_writeBeneath (canonical_ite (canonical_homeSupplies hs) hs)) (canonical_ite (canonical_homeSupplies hs) hs)
    · exact canonical_ite (canonical_homeSupplies hs) hs
  · split
    · exact (keeps_dirtyHome ..).canonical (canonical_settleReq (canonical_ite (canonical_writeBeneath (canonical_ite (canonical_homeSupplies hs) hs))
        (canonical_ite (canonical_homeSupplies hs) hs)))
    · exact canonical_settleReq (canonical_ite (canonical_homeSupplies hs) hs)
  split
  · exact canonical_ite (canonical_writeBeneath (canonical_ite (canonical_homeSupplies hs) hs)) (canonical_ite (canonical_homeSupplies hs) hs)
  · exact canonical_ite (canonical_homeSupplies hs) hs

theorem canonicalRes_execForwardLine {a : Nat} {l : LineKey} (hs : Canonical s) : CanonicalRes (execForwardLine a l s) := by
  simp only [execForwardLine]
  refine canonicalRes_withSome hs (fun _ => canonicalRes_onlyIf hs (canonicalRes_withSome hs (fun _ => ?_)))
  split
  · exact .next ((keeps_snoopChip ..).canonical hs)
  · exact .next (canonical_ite hs (canonical_forwarded hs))

theorem canonical_answered {a : Nat} {l : LineKey} (hs : Canonical s) : Canonical (answered s a l) := by
  simp only [answered]
  split
  · exact hs
  split
  · exact hs
  split
  · exact (keeps_putDir ..).canonical hs
  split
  · exact canonical_ite (canonical_afterReq ((keeps_dropDir ..).canonical hs)) ((keeps_putDir ..).canonical hs)
  · exact canonical_afterReq (canonical_settleReq hs)

theorem canonical_dirForget {a : Nat} {l : LineKey} {keeps : Bool} (hs : Canonical s) : Canonical (dirForget s a l keeps) := by
  simp only [dirForget]
  split
  · exact hs
  split
  · exact hs
  split
  · exact canonical_ite hs (canonical_ite ((keeps_putDir ..).canonical hs) ((keeps_dropDir ..).canonical hs))
  · exact canonical_ite hs (canonical_ite ((keeps_dropDir ..).canonical hs) ((keeps_putDir ..).canonical hs))
  · exact hs

theorem canonical_snoopDone {p : Nat} {l : LineKey} (hs : Canonical s) : Canonical (snoopDone s p l) := by
  simp only [snoopDone]
  split
  · exact hs
  split
  · exact canonical_ite (canonical_forwarded hs) (canonical_answered hs)
  · exact canonical_answered hs

theorem canonicalRes_execInvalidation {t : InvTarget} {l : LineKey} (hs : Canonical s) : CanonicalRes (execInvalidation t l s) := by
  simp only [execInvalidation]
  split
  · split
    · exact .refused
    refine .next ?_
    split
    · exact (keeps_snoopChip ..).canonical (canonical_with_mem hs rfl)
    · exact canonical_answered (canonical_invalidateAgent (canonical_with_mem hs rfl))
  split
  · exact .refused
  · exact .next (canonical_with_mem hs rfl)

theorem canonicalRes_execWritebackLands {l : LineKey} (hs : Canonical s) : CanonicalRes (execWritebackLands l s) := by
  simp only [execWritebackLands]
  refine canonicalRes_withSome hs (fun _ => ?_)
  split
  · exact .next (canonical_afterReq ((keeps_dropDir ..).canonical ((keeps_dropCopy ..).canonical hs)))
  · exact .next hs

theorem canonical_queueWaiters {m : MissReg} {ws : List Asker} (hs : Canonical s) : Canonical (queueWaiters s m ws) := canonical_with_mem hs rfl

theorem canonical_freeMiss {u : MissUnit} {l : LineKey} (hs : Canonical s) : Canonical (freeMiss s u l) := by
  simp only [freeMiss]
  split
  · exact canonical_with_mem hs rfl
  split
  · exact (keeps_addWaiter ..).canonical (canonical_with_mem hs rfl)
  · exact canonical_with_mem hs rfl

theorem canonicalOpt_l1Fill {core : Nat} {m : MissReg} {l : List Nat} (hs : Canonical s) : CanonicalOpt (l1Fill s core m l) := by
  induction l generalizing s with
  | nil =>
    simp only [l1Fill]
    exact .some hs
  | cons x l ih =>
    simp only [l1Fill]
    split
    · exact .none
    · exact ih (canonical_l1Keep (canonical_readSect ((keeps_readVia ..).canonical hs) _))

theorem canonicalRes_execFillDataArrival {u : MissUnit} {l : LineKey} (hs : Canonical s) : CanonicalRes (execFillDataArrival u l s) := by
  simp only [execFillDataArrival]
  refine canonicalRes_withSome hs (fun _ => ?_)
  split
  · refine .next (canonical_ite (canonical_queueWaiters (canonical_freeMiss hs)) ?_)
    split
    · exact (keeps_llmTouch ..).canonical (canonical_queueWaiters (canonical_freeMiss hs))
    · exact canonical_queueWaiters (canonical_freeMiss hs)
  split
  · exact .next hs
  split
  · exact .next (canonical_queueWaiters (canonical_freeMiss hs))
  split
  · exact .next (canonical_queueWaiters ((canonicalOpt_l1Fill (canonical_freeMiss hs)).of_some ‹_›))
  · exact .next hs

theorem canonical_countOut {before s : State} (hs : Canonical s) : Canonical (countOut before s) := canonical_ite (canonical_addObj hs ..) hs

theorem canonicalRes_execDieLinkRetrain {l fails : Nat} (hs : Canonical s) : CanonicalRes (execDieLinkRetrain l fails s) := by
  simp only [execDieLinkRetrain]
  split
  · exact .refused
  refine canonicalRes_onlyIf hs ?_
  split
  · exact .next hs
  split
  · exact .next (canonical_countOut (canonical_with_mem hs rfl))
  · exact .next (canonical_ite (canonical_goCold (canonical_countOut (canonical_putObj (canonical_with_mem hs rfl) ..)))
      (canonical_countOut (canonical_putObj (canonical_with_mem hs rfl) ..)))

theorem canonicalRes_execDieLinkReturn {l : Nat} (hs : Canonical s) : CanonicalRes (execDieLinkReturn l s) :=
  canonicalRes_onlyIf hs (.next (canonical_with_mem hs rfl))

/-! ### Physical pages (Pages) -/

theorem canonicalOptPair_newTable {n l : Nat} (hs : Canonical s) : CanonicalOptPair (newTable s n l) := by
  simp only [newTable]
  split
  · exact .none
  · exact .some (canonical_setSlice hs _)

theorem canonicalOpt_putLeaf {n va leaf v n1 n2 : Nat} (hs : Canonical s) : CanonicalOpt (putLeaf n va leaf v n1 n2 s) := by
  induction n1 generalizing n2 s with
  | zero =>
    simp only [putLeaf]
    split
    · exact .none
    · exact .some (canonical_putPte hs ..)
  | succ n ih =>
    simp only [putLeaf]
    split
    · split
      · exact .none
      · exact .some (canonical_putPte hs ..)
    split
    · split
      · exact .none
      · exact ih hs
    split
    · exact .none
    · exact ih (canonical_putPte ((canonicalOptPair_newTable hs).of_some ‹_›) ..)

/-! ### Errors, patrol and map-out (MemTier) -/

theorem canonical_needPoint (hs : Canonical s) : Canonical (needPoint s) := by
  simp only [needPoint]
  split
  · exact hs
  · exact canonical_with_bank hs

theorem canonical_channelFailing {st ch : Nat} (hs : Canonical s) : Canonical (channelFailing s st ch) :=
  canonical_ite hs (canonical_ite (canonical_goCold (canonical_putObj hs ..)) (canonical_needPoint (canonical_putObj hs ..)))

theorem canonical_stackCorrected {st ch : Nat} (hs : Canonical s) : Canonical (stackCorrected s st ch) :=
  canonical_ite (canonical_channelFailing (canonical_with_mem (canonical_addObj hs ..) rfl)) (canonical_with_mem (canonical_addObj hs ..) rfl)

theorem canonical_coreDead {c : Nat} {hung : Bool} (hs : Canonical s) : Canonical (coreDead s c hung) :=
  canonical_ite (canonical_setCore hs) (canonical_ite (canonical_goCold (canonical_setCore (canonical_putObj hs ..)))
    (canonical_needPoint (canonical_setCore (canonical_putObj hs ..))))

theorem canonicalRes_execCoreHang {core : Nat} (hs : Canonical s) : CanonicalRes (execCoreHang core s) := by
  simp only [execCoreHang]
  split
  · exact .refused
  · exact canonicalRes_onlyIf hs (.next (canonical_workEvent (canonical_coreDead (canonical_addObj hs ..))))

theorem canonicalRes_execRowSelfTest {die row : Nat} {failed : BitVec 13} (hs : Canonical s) : CanonicalRes (execRowSelfTest die row failed s) := by
  simp only [execRowSelfTest]
  split
  · exact .refused
  · exact canonicalRes_onlyIf hs (.next (canonical_foldl (fun _ _ hs' => canonical_coreDead hs') _ (canonical_addObj (canonical_addObj hs ..) ..)))

theorem canonicalRes_execSpareReplacementComplete {die row : Nat} (hs : Canonical s) : CanonicalRes (execSpareReplacementComplete die row s) := by
  unfold execSpareReplacementComplete
  exact canonicalRes_withSome hs (fun _ => .next (canonical_foldl (fun _ _ hs' => canonical_ite (canonical_placeSlice hs') hs') _
    (canonical_addObj (canonical_putObj (canonical_setCore hs) ..) ..)))

theorem canonicalRes_execCorrectedError {p : ErrPlace} (hs : Canonical s) : CanonicalRes (execCorrectedError p s) := by
  simp only [execCorrectedError]
  split
  · split
    · exact .refused
    · exact .next (canonical_ite hs (canonical_ite (canonical_channelFailing (canonical_stackCorrected hs)) (canonical_stackCorrected hs)))
  · split
    · exact .refused
    · exact .next (canonical_addObj hs ..)
  · split
    · exact .refused
    · exact .next (canonical_ite (canonical_coreDead (canonical_setCore hs)) (canonical_setCore hs))
  · split
    · exact .refused
    · exact .next (canonical_addObj hs ..)
  · split
    · exact .refused
    · exact .next (canonical_addObj hs ..)
  · split
    · exact .refused
    · exact .next (canonical_addObj hs ..)
  · exact .next hs

theorem canonical_poisonLine {l : Nat} (hs : Canonical s) : Canonical (poisonLine s l) := canonical_with_mem hs rfl

theorem canonical_countUncorrected {pa : Nat} (hs : Canonical s) : Canonical (countUncorrected s pa) := by
  simp only [countUncorrected]
  split
  · exact canonical_addObj hs ..
  · exact canonical_addObj hs ..
  split
  · exact canonical_addObj hs ..
  · exact hs

theorem canonical_uncorrectable {l : Nat} {r : ErrReader} (hs : Canonical s) : Canonical (uncorrectable s l r) := by
  simp only [uncorrectable]
  split
  · exact canonical_goCold (canonical_countUncorrected (canonical_poisonLine hs))
  split
  · split
    · exact canonical_startMoves (canonical_setSlice (canonical_workEvent (canonical_foldl (fun _ _ hs' => canonical_originate hs') _
        (canonical_ite (canonical_countUncorrected (canonical_poisonLine hs)) (canonical_addObj (canonical_countUncorrected (canonical_poisonLine hs))
        ..)))) _)
    · exact canonical_workEvent (canonical_foldl (fun _ _ hs' => canonical_originate hs') _
        (canonical_ite (canonical_countUncorrected (canonical_poisonLine hs)) (canonical_addObj (canonical_countUncorrected (canonical_poisonLine hs))
        ..)))
  · exact canonical_workEvent (canonical_foldl (fun _ _ hs' => canonical_originate hs') _
      (canonical_ite (canonical_countUncorrected (canonical_poisonLine hs)) (canonical_addObj (canonical_countUncorrected (canonical_poisonLine hs))
      ..)))

theorem canonicalRes_execUncorrectableError {line : Nat} {reader : ErrReader} (hs : Canonical s) :
    CanonicalRes (execUncorrectableError line reader s) :=
  canonicalRes_onlyIf hs (.next (canonical_uncorrectable hs))

theorem canonicalRes_execPatrolScrub {line : Nat} {found : PatrolFind} {lastOfPass : Bool} (hs : Canonical s) :
    CanonicalRes (execPatrolScrub line found lastOfPass s) := by
  simp only [execPatrolScrub]
  refine canonicalRes_onlyIf hs (.next (canonical_ite (canonical_addObj ?_ ..) ?_))
  · split
    · exact hs
    · split
      · exact canonical_stackCorrected hs
      · exact canonical_addObj hs ..
      split
      · exact canonical_with_mem hs rfl
      · exact hs
    · exact canonical_uncorrectable hs
  split
  · exact hs
  · split
    · exact canonical_stackCorrected hs
    · exact canonical_addObj hs ..
    split
    · exact canonical_with_mem hs rfl
    · exact hs
  · exact canonical_uncorrectable hs

theorem canonicalRes_execCxlLinkFail {x : Nat} (hs : Canonical s) : CanonicalRes (execCxlLinkFail x s) := by
  simp only [execCxlLinkFail]
  split
  · exact .refused
  · exact canonicalRes_onlyIf hs (.next (canonical_putObj hs ..))

theorem canonicalOpt_bind_state {f : State → Option State} {o : Option State} (ho : CanonicalOpt o)
    (hf : ∀ s, Canonical s → CanonicalOpt (f s)) : CanonicalOpt (o.bind f) := by
  cases ho with
  | none => exact .none
  | some hs => exact hf _ hs

theorem canonicalOpt_emptyHole {d : Nat} (hs : Canonical s) : CanonicalOpt (emptyHole s d) := by
  unfold emptyHole
  extract_lets +onlyGivenNames top lo cut es
  have hcut : Canonical cut := canonical_putObj hs _ _
  clear_value cut es
  refine List.foldlRecOn (motive := CanonicalOpt) _ _ (.some hcut) fun o ho e _ => canonicalOpt_bind_state ho fun s hs => ?_
  extract_lets +onlyGivenNames others
  generalize (_ ++ _ : List Nat) = rooms
  cases rooms with
  | nil => exact .none
  | cons a _ => exact .some (canonical_relocate hs ..)

theorem canonicalRes_execMapOutComplete {stack ch : Nat} (hs : Canonical s) : CanonicalRes (execMapOutComplete stack ch s) := by
  refine canonicalRes_onlyIf hs ?_
  extract_lets +onlyGivenNames d held m t
  have ht : Canonical t := canonical_endDrain (canonical_with_mem hs rfl)
  clear_value t
  refine .next ?_
  split
  · exact canonical_settleFrozen (canonical_deferMapOut (canonical_needPoint (canonical_ite ht (canonical_putObj ht ..))))
  · next emptied =>
    extract_lets +onlyGivenNames m' u v w
    have hu : Canonical u := canonical_with_mem ((canonicalOpt_emptyHole ht).of_some emptied) rfl
    have hw : Canonical w := canonical_writeLookup (canonical_putObj (canonical_putObj (canonical_addObj hu ..) ..) ..)
    exact canonical_settleFrozen (canonical_ite (canonical_goCold hw) hw)

theorem canonicalRes_execMaintenancePoint (hs : Canonical s) : CanonicalRes (execMaintenancePoint s) :=
  canonicalRes_withSome hs (fun _ => canonicalRes_onlyIf hs (.next (canonical_maintain (canonical_addObj hs ..))))

/-! ### Before-images and rollbacks (Banking) -/

theorem canonical_takeImage {k n page pa : Nat} (hs : Canonical s) : Canonical (takeImage s k n page pa) :=
  canonical_ite (canonical_noteReserve (canonical_updSet hs)) (canonical_putObj hs ..)

theorem canonical_clashResults {n : Nat} (hs : Canonical s) : Canonical (clashResults s n) := canonical_ite (canonical_unpredictable hs) hs

theorem canonicalRes_execBeforeImageCopy {n page : Nat} (hs : Canonical s) : CanonicalRes (execBeforeImageCopy n page s) := by
  simp only [execBeforeImageCopy]
  refine canonicalRes_onlyIf hs (.next (canonical_clashResults (canonical_logWrite ?_ ..)))
  split
  · exact canonical_foldl (fun _ _ hs' => canonical_takeImage hs') _ (canonical_with_bank hs)
  · exact canonical_with_bank hs

theorem canonicalRes_execRollbackDetect {k cls : Nat} (hs : Canonical s) : CanonicalRes (execRollbackDetect k cls s) := by
  simp only [execRollbackDetect]
  split
  · exact .refused
  · exact canonicalRes_onlyIf hs (.next (canonical_originate hs))

theorem canonical_putLine {line : Nat} {cells : List Host.Cell} {i : Nat} {marks : List Nat} (hs : Canonical s) :
    Canonical (putLine s line cells i marks) :=
  canonical_with_mem (canonical_addObj (canonical_physPut hs ..) ..) rfl

theorem canonical_rebuildLines {old s : State} {k : Nat} (hs : Canonical s) : Canonical (rebuildLines old s k) :=
  canonical_ite (canonical_goCold hs) (canonical_foldl (fun _ _ hs' => canonical_putLine hs') _ hs)

theorem canonical_restoreImages {k : Nat} (hs : Canonical s) : Canonical (restoreImages s k) :=
  canonical_foldl (fun _ _ hs' => canonical_putPage hs' ..) _ hs

theorem canonical_restoreMap {m : MapSeal} (hs : Canonical s) : Canonical (restoreMap s m) :=
  canonical_recount (canonical_with_net (canonical_foldl (fun _ _ hs' => canonical_putObj hs' ..) _ (canonical_setSlice hs _)))

theorem canonical_zeroLock {l : Nat × Nat × Nat} (hs : Canonical s) : Canonical (zeroLock s l) := canonical_ite hs (canonical_writeRun hs ..)

theorem canonicalRes_execRestoreCompleteRollback {k : Nat} (hs : Canonical s) : CanonicalRes (execRestoreCompleteRollback k s) := by
  simp only [execRestoreCompleteRollback]
  refine canonicalRes_withSome hs (fun _ => canonicalRes_onlyIf hs ?_)
  split
  · exact .next (canonical_rebuildLines (canonical_restoreImages hs))
  · exact .next (canonical_noteReserve (canonical_updSet (canonical_foldl (fun _ _ hs' => canonical_clashResults hs') _
      (canonical_addObj (canonical_foldl (fun _ _ hs' => canonical_setSlice hs' _) _
      (canonical_replaceCores (canonical_foldl (fun _ _ hs' => canonical_zeroLock hs') _
      (canonical_foldl (fun _ _ hs' => canonical_restoreMap hs') _ (canonical_rebuildLines (canonical_restoreImages hs)))))) ..))))

theorem canonicalRes_execRejoinWaitExpiry {k : Nat} (hs : Canonical s) : CanonicalRes (execRejoinWaitExpiry k s) :=
  canonicalRes_withSome hs (fun _ => canonicalRes_onlyIf hs (.next (canonical_failLockSet hs)))

/-! ### Access to objects (Access) -/

theorem canonical_refuseAccess (hs : Canonical s) : Canonical (refuseAccess s) := canonical_addObj hs ..

end Sys2Proof.Machine
end

section
/-! SUPPORT. Canonical forms kept by slices and security (R381 to R401, R483): one fact for each operation, in the order of the model. -/

namespace Sys2Proof.Machine

variable {s t : State}

/-! ### Slices made, changed and taken apart (SliceOps) -/

theorem canonical_sopResult {n : Nat} {w : SopWait} {st done : Nat} (hs : Canonical s) : Canonical (sopResult s n w st done) :=
  canonical_ite (canonical_with_sopResults hs) (canonical_setSlice hs _)

theorem canonical_resetSubs {ix lo hi : Nat} (hs : Canonical s) : Canonical (resetSubs ix lo hi s) :=
  canonical_foldl (fun _ _ hs' => canonical_putObj hs' ..) _ hs

theorem canonical_noteGrants (hs : Canonical s) : Canonical (noteGrants s) := by
  unfold noteGrants
  extract_lets +onlyGivenNames hs used t
  have ht : Canonical t := canonical_foldl (fun _ _ hu => canonical_putObj (canonical_putObj (canonical_putObj hu ..) ..) ..) _ ‹_›
  clear_value t
  exact canonical_noteRegions (canonical_putObj (canonical_putObj ht ..) ..)

theorem canonical_freshChannel {owner : Nat} {c : Nat} (hs : Canonical s) : Canonical (freshChannel owner s c) :=
  canonical_with_chans (canonical_putObj (canonical_resetSubs hs) ..)

theorem canonical_freshObjects {n : Nat} (hs : Canonical s) : Canonical (freshObjects s n) :=
  canonical_resetSubs (canonical_resetSubs (canonical_resetSubs (canonical_resetSubs
    (canonical_resetSubs (canonical_resetSubs (canonical_resetSubs (canonical_putBlob hs)))))))

theorem canonical_created {n tb sb mb : Nat} (hs : Canonical s) : Canonical (created s n tb sb mb) := by
  unfold created
  extract_lets +onlyGivenNames h save old s1 s2 s3 s4 s5 s6 s7
  have h3 : Canonical s3 := canonical_grant (canonical_setSlice (canonical_freshObjects hs) _) ..
  have h4 : Canonical s4 := canonical_ite h3 (canonical_grant h3 ..)
  have h5 : Canonical s5 := canonical_foldl (fun _ _ hu => canonical_resetSubs (canonical_freshChannel hu)) _ h4
  have h6 : Canonical s6 := canonical_foldl (fun _ _ hu => canonical_putObj (canonical_putObj hu ..) ..) _ h5
  have h7 : Canonical s7 := canonical_putObj (canonical_putObj (canonical_putObj h6 ..) ..) ..
  exact canonical_noteGrants (canonical_putObj h7 ..)

theorem canonical_createSlice {n : Nat} (hs : Canonical s) : Canonical (createSlice s n).1 := by
  simp only [createSlice]
  split
  · exact hs
  split
  · split
    · exact canonical_created hs
    split
    · exact canonical_created hs
    · exact hs
  · exact hs

theorem canonicalOptPair_takePage {n tier size : Nat} {pref : Option Nat} (hs : Canonical s) :
    CanonicalOptPair (takePage s n tier size pref) := by
  unfold takePage
  extract_lets +onlyGivenNames cut
  have hcut (a : Nat) : Canonical (cut s a) := canonical_with_mem hs rfl
  clear_value cut
  exact canonicalOptPair_map (fun a => canonical_grant (hcut a) ..) _

theorem canonical_scrubSpares {n : Nat} (hs : Canonical s) : Canonical (scrubSpares s n) :=
  canonical_with_mem (canonical_foldl (fun _ _ hs' => canonical_zeroRange hs' ..) _ hs) rfl

theorem canonicalOpt_mapPage {n : Nat} {o : SopReq} {va : Nat} (hs : Canonical s) : CanonicalOpt (mapPage n o va s) := by
  simp only [mapPage]
  split
  · exact .none
  split
  · exact .none
  split
  · exact .none
  · exact .some (canonical_addObj ((canonicalOpt_putLeaf ((canonicalOptPair_takePage hs).of_some ‹_›)).of_some ‹_›) ..)

theorem canonical_forgetPages {n va size : Nat} (hs : Canonical s) : Canonical (forgetPages s n va size) := by
  unfold forgetPages
  extract_lets +onlyGivenNames gone x t locks
  have ht : Canonical t := canonical_setSlice hs _
  exact canonical_noteReserve (canonical_of_eq ht rfl rfl)

theorem canonicalOpt_unmapPage {n : Nat} {o : SopReq} {va : Nat} (hs : Canonical s) : CanonicalOpt (unmapPage n o va s) := by
  unfold unmapPage
  refine canonicalOpt_map (fun p => ?_) _
  extract_lets +onlyGivenNames t ext
  have ht : Canonical t := canonical_freeTables _ _ _ _ (canonical_putPte hs ..)
  exact canonical_forgetPages (canonical_subObj (canonical_with_mem ht rfl) ..)

theorem canonicalOpt_protectPage {n : Nat} {o : SopReq} {va : Nat} (hs : Canonical s) : CanonicalOpt (protectPage n o va s) :=
  canonicalOpt_map (fun _ => canonical_putPte hs ..) _

theorem canonical_pagesGo {size : Nat} {f : Nat → State → Option State} {n n1 : Nat} {n2 : Nat} (hf : ∀ x0 s', Canonical s' → CanonicalOpt (f x0 s'))
    (hs : Canonical s) : Canonical (pagesGo size f n n1 s n2).1 := by
  induction n generalizing n1 s n2 with
  | zero =>
    simp only [pagesGo]
    exact hs
  | succ n ih =>
    simp only [pagesGo]
    split
    · exact hs
    · exact ih ((hf _ _ hs).of_some ‹_›)

theorem canonical_pagesOp {n op : Nat} {o : SopReq} (hs : Canonical s) : Canonical (pagesOp s n op o).1 := by
  simp only [pagesOp]
  split
  · exact canonical_useFree (canonical_unpredictable hs) _
  refine canonical_noteRegions ?_
  split
  · exact canonical_ite_fst (canonical_pagesGo (fun _ _ hs' => canonicalOpt_mapPage hs') (canonical_scrubSpares hs))
      (canonical_pagesGo (fun _ _ hs' => canonicalOpt_mapPage hs') hs)
  split
  · exact canonical_ite_fst (canonical_pagesGo (fun _ _ hs' => canonicalOpt_unmapPage hs') (canonical_scrubSpares hs))
      (canonical_pagesGo (fun _ _ hs' => canonicalOpt_unmapPage hs') hs)
  · exact canonical_ite_fst (canonical_pagesGo (fun _ _ hs' => canonicalOpt_protectPage hs') (canonical_scrubSpares hs))
      (canonical_pagesGo (fun _ _ hs' => canonicalOpt_protectPage hs') hs)

theorem canonical_quiesceChannel {ch : Nat} (hs : Canonical s) : Canonical (quiesceChannel s ch) :=
  canonical_foldl (fun _ _ hs' => canonical_endCmd hs') _ hs

theorem canonical_recallLines {p : HeldLine → Bool} (hs : Canonical s) : Canonical (recallLines s p) :=
  canonical_foldl (fun _ _ hs' => (keeps_snoopChip ..).canonical hs') _ hs

theorem canonical_beginQuiesce {n limitUs : Nat} {w : SopWait} (hs : Canonical s) : Canonical (beginQuiesce s n limitUs w) :=
  canonical_setSlice (canonical_recallLines (canonical_foldl (fun _ _ hs' => canonical_quiesceChannel hs') _ (canonical_putObj hs ..))) _

theorem canonical_unpinAll {n : Nat} (hs : Canonical s) : Canonical (unpinAll s n) := canonical_with_mem (canonical_putObj hs ..) rfl

theorem canonical_resetSlice {n : Nat} (hs : Canonical s) : Canonical (resetSlice s n) := by
  unfold resetSlice
  extract_lets +onlyGivenNames x mapped keep old s1 s2 s3 s4 s5
  have h1 : Canonical s1 := canonical_freshObjects (canonical_unpinAll hs)
  have h2 : Canonical s2 := canonical_foldl (fun _ _ hu => canonical_putObj hu ..) _ h1
  have h3 : Canonical s3 := canonical_foldl (fun _ _ hu => canonical_putObj hu ..) _ h2
  have h4 : Canonical s4 := canonical_putObj (canonical_putObj h3 ..) ..
  have h5 : Canonical s5 := canonical_foldl (fun _ _ hu => canonical_with_chans (canonical_resetSubs (canonical_resetSubs (canonical_putObj hu ..))))
    _ h4
  exact canonical_recount (canonical_setSlice h5 _)

theorem canonical_dropCached {n : Nat} (hs : Canonical s) : Canonical (dropCached s n) := canonical_with_mem hs rfl

theorem canonical_dropCred {n : Nat} (hs : Canonical s) : Canonical (dropCred s n) :=
  canonical_putObj (canonical_putObj (canonical_with_odp hs) ..) ..

theorem canonical_closeWindows {n : Nat} (hs : Canonical s) : Canonical (closeWindows s n) :=
  canonical_foldl (fun _ _ hs' => canonical_putObj hs' ..) _ (canonical_foldl (fun _ _ hs' => canonical_putObj hs' ..) _ hs)

theorem canonical_destroySlice {n : Nat} (hs : Canonical s) : Canonical (destroySlice s n) := by
  unfold destroySlice
  extract_lets +onlyGivenNames s1 h x s2 s3 s4 s5 exts locks m b s6
  have h2 : Canonical s2 := canonical_dropCred (canonical_dropCached (canonical_closeWindows hs))
  have h3 : Canonical s3 := canonical_foldl (fun _ _ hu => canonical_freshChannel hu) _ h2
  have h5 : Canonical s5 := canonical_setSlice (canonical_freshObjects h3) _
  have h6 : Canonical s6 := canonical_of_eq h5 rfl rfl
  exact canonical_noteGrants (canonical_putObj (canonical_putObj h6 ..) ..)

theorem canonical_performOp {n : Nat} {w : SopWait} (hs : Canonical s) : Canonical (performOp s n w).1 :=
  canonical_ite_fst (canonical_ite_fst hs (canonical_createSlice hs)) (canonical_ite_fst hs
    (canonical_ite_fst (canonical_ite_fst hs (canonical_ite_fst hs (canonical_destroySlice hs)))
    (canonical_ite_fst (canonical_ite_fst hs (canonical_resetSlice hs)) (canonical_ite_fst (canonical_ite_fst hs (canonical_beginQuiesce hs))
    (canonical_ite_fst (canonical_ite_fst hs (canonical_putObj hs ..)) (canonical_ite_fst
    (canonical_ite_fst (canonical_ite hs (canonical_landEvery hs)) (canonical_pagesOp (canonical_ite hs (canonical_landEvery hs)))) hs))))))

theorem canonical_runOps {n n1 : Nat} (hs : Canonical s) : Canonical (runOps n n1 s) := by
  induction n1 generalizing s with
  | zero =>
    simp only [runOps]
    exact hs
  | succ n ih =>
    simp only [runOps]
    split
    · split
      · exact ih (canonical_sopResult ((canonical_performOp (canonical_setSlice hs _)).of_pair ‹_›))
      · exact canonical_ite ((canonical_performOp (canonical_setSlice hs _)).of_pair ‹_›)
          (canonical_setSlice ((canonical_performOp (canonical_setSlice hs _)).of_pair ‹_›) _)
    · exact hs

theorem canonical_runWaiting (hs : Canonical s) : Canonical (runWaiting s) := canonical_foldl (fun _ _ hs' => canonical_runOps hs') _ hs

theorem canonical_passTime (hs : Canonical s) : Canonical (passTime s) := by
  unfold passTime
  extract_lets +onlyGivenNames s1 s2
  have h2 : Canonical s2 := canonical_foldl (fun _ _ hu => canonical_landSome hu) _ (canonical_serveHeld (canonical_freePlaces (canonical_idle hs)))
  exact canonical_runWaiting (canonical_notifyAgain (canonical_drainBursts (canonical_ite (canonical_startElect h2) h2)))

theorem canonical_submitOp {n : Nat} {w : SopWait} (hs : Canonical s) : Canonical (submitOp s n w) :=
  canonical_ite (canonical_sopResult hs) (canonical_runOps (canonical_setSlice hs _))

theorem canonicalRes_requestOp {cr : Cred} {op : Nat} {o : SopReq} (hs : Canonical s) : CanonicalRes (requestOp cr op o s) := by
  simp only [requestOp]
  split
  · exact .next (canonical_addObj hs ..)
  split
  · exact .next (canonical_refuseAccess hs)
  · exact .next (canonical_submitOp hs)
  split
  · exact .refused
  · exact .next (canonical_submitOp hs)

theorem canonicalRes_limitCmd {n ch : Nat} {c : Cmd} (hs : Canonical s) : CanonicalRes (limitCmd n ch s c) := by
  simp only [limitCmd]
  split
  · exact .next (canonical_stopCommand hs)
  · split
    · exact .next (canonical_stopCommand hs)
    · split
      · next wrote => exact .next (canonical_stopCommand (canonical_stepWrite hs wrote))
      · exact .next (canonical_collAny hs)
      · next waits => exact .next (canonical_setSlice ((canonicalStop_stepWrite hs waits).of_wait rfl) _)
      · next stops => exact canonicalRes_collStop hs (canonicalStop_stepWrite hs stops)

theorem canonicalRes_execQuiesceLimitExpiry {n : Nat} (hs : Canonical s) : CanonicalRes (execQuiesceLimitExpiry n s) := by
  simp only [execQuiesceLimitExpiry]
  refine canonicalRes_withSome hs (fun _ => canonicalRes_onlyIf hs (canonicalRes_foldl (fun _ _ hr => ?_) _ (.next (canonical_setSlice hs _))))
  split
  · exact canonicalRes_limitCmd (hr.of_next rfl)
  · exact hr

theorem canonicalRes_execQuietReached {n : Nat} (hs : Canonical s) : CanonicalRes (execQuietReached n s) := by
  simp only [execQuietReached]
  refine canonicalRes_onlyIf hs (.next (canonical_runOps ?_))
  split
  · exact canonical_sopResult (canonical_setSlice (canonical_putObj hs ..) _)
  · exact canonical_setSlice (canonical_putObj hs ..) _

theorem canonicalRes_execScrubEnd {n : Nat} {checkFailed : Bool} (hs : Canonical s) : CanonicalRes (execScrubEnd n checkFailed s) := by
  simp only [execScrubEnd]
  refine canonicalRes_onlyIf hs ?_
  split
  · exact .next (canonical_goCold (canonical_useFree hs _))
  split
  · exact .next hs
  · exact .next (canonical_noteGrants (canonical_putObj (canonical_addObj (canonical_of_eq
      (canonical_foldl (fun _ _ hs' => canonical_zeroRange hs' ..) _ hs) rfl rfl) ..) ..))

/-! ### Tokens, SPDM and counters (Security) -/

theorem canonical_attestWrite {n : Nat} {nonce : List Byte} (hs : Canonical s) : Canonical (attestWrite n nonce s) := canonical_putBlob hs
theorem canonical_devAttestWrite {nonce : List Byte} (hs : Canonical s) : Canonical (devAttestWrite nonce s) := canonical_putBlob hs

theorem canonicalRes_settleWrite {cr : Cred} {k ty : Nat} {val : List Byte} {f : State → State} (hs : Canonical s)
    (hf : ∀ s', Canonical s' → Canonical (f s')) : CanonicalRes (settleWrite s cr k ty val f) := by
  simp only [settleWrite]
  split
  · exact .next (canonical_addObj hs ..)
  split
  · exact .next (canonical_refuseAccess hs)
  · exact .next (hf _ hs)

theorem canonicalRes_execAttestNonce {cr : Cred} {n : Nat} {nonce : List Byte} (hs : Canonical s) : CanonicalRes (execAttestNonce cr n nonce s) := by
  simp only [execAttestNonce]
  split
  · exact .refused
  · exact canonicalRes_settleWrite hs (fun _ hs' => canonical_attestWrite hs')

theorem canonicalRes_execDevAttestNonce {cr : Cred} {nonce : List Byte} (hs : Canonical s) : CanonicalRes (execDevAttestNonce cr nonce s) :=
  canonicalRes_settleWrite hs (fun _ hs' => canonical_devAttestWrite hs')

theorem canonical_spdmWrite {req : List Byte} (hs : Canonical s) : Canonical (spdmWrite req s) :=
  canonical_ite (canonical_ite (canonical_putBlob hs) (canonical_putBlob (canonical_useFree hs _))) (canonical_putBlob hs)

theorem canonicalRes_execSpdmRequest {cr : Cred} {req : List Byte} (hs : Canonical s) : CanonicalRes (execSpdmRequest cr req s) :=
  canonicalRes_settleWrite hs (fun _ hs' => canonical_spdmWrite hs')

theorem canonicalRes_execArbAdvance {cr : Cred} {i v : Nat} (hs : Canonical s) : CanonicalRes (execArbAdvance cr i v s) := by
  simp only [execArbAdvance]
  split
  · exact .refused
  · exact canonicalRes_settleWrite hs (fun _ hs' => canonical_ite (canonical_putObj hs' ..) (canonical_refuseAccess hs'))

theorem canonicalRes_execMgrKey {cr : Cred} {mgmt : Bool} {key : List Byte} (hs : Canonical s) : CanonicalRes (execMgrKey cr mgmt key s) := by
  simp only [execMgrKey]
  split
  · exact .next (canonical_addObj hs ..)
  split
  · exact .next (canonical_putObj hs ..)
  · exact .next (canonical_refuseAccess hs)

end Sys2Proof.Machine
end

section
/-! SUPPORT. Canonical forms kept by power and start-up (R410 to R444, R459 to R474): one fact for each operation, in the order of the model. -/

namespace Sys2Proof.Machine

variable {s t : State}

/-! ### Standby, damper and energy (PowerCtl) -/

theorem canonical_loseState {keep : Nat → Bool} (hs : Canonical s) : Canonical (loseState keep s) := ⟨swf_filter hs.1 _, rfl⟩

theorem canonical_toStandby (hs : Canonical s) : Canonical (toStandby s) :=
  canonical_ite hs (canonical_ite (canonical_putObj (canonical_with_boot (canonical_putObj (canonical_loseState (canonical_flushCounters hs)) ..)) ..)
    (canonical_with_boot (canonical_putObj (canonical_loseState (canonical_flushCounters hs)) ..)))

theorem canonical_beginChange {target : Nat} {byExcess : Bool} (hs : Canonical s) : Canonical (beginChange s target byExcess) :=
  canonical_with_power (canonical_putObj hs ..)

theorem canonical_noteWindow {m : DamperIn} (hs : Canonical s) : Canonical (noteWindow s m) :=
  canonical_foldl (fun _ _ hs' => canonical_putObj hs' ..) _ (canonical_foldl (fun _ _ hs' => canonical_putObj (canonical_putObj hs' ..) ..) _
    (canonical_with_power (canonical_putObj hs ..)))

theorem canonical_gateWindow {m : DamperIn} (hs : Canonical s) : Canonical (gateWindow s m) :=
  canonical_ite (canonical_with_power (canonical_addObj (canonical_useFree hs _) ..))
    (canonical_ite (canonical_addObj hs ..) (canonical_with_power hs))

theorem canonical_stepDown {byPower byCurrent byHeat : Bool} (hs : Canonical s) :
    Canonical (stepDown s byPower byCurrent byHeat) := by
  unfold stepDown
  extract_lets +onlyGivenNames s1 s2 s3 breaks s4 p
  have h1 : Canonical s1 := canonical_ite (canonical_addObj hs ..) hs
  have h2 : Canonical s2 := canonical_ite (canonical_addObj h1 ..) h1
  have h3 : Canonical s3 := canonical_ite (canonical_addObj h2 ..) h2
  have h4 : Canonical s4 := canonical_ite (canonical_addObj h3 ..) h3
  exact canonical_beginChange (canonical_with_power h4)

theorem canonical_boostWindow {mayUp : Bool} (hs : Canonical s) : Canonical (boostWindow s mayUp) :=
  canonical_ite (canonical_with_power (canonical_putObj (canonical_putObj hs ..) ..)) hs

theorem canonical_decideWindow {m : DamperIn} (hs : Canonical s) : Canonical (decideWindow s m) :=
  canonical_ite hs (canonical_ite (canonical_beginChange hs) (canonical_ite (canonical_stepDown hs)
    (canonical_ite (canonical_beginChange hs) (canonical_ite (canonical_beginChange (canonical_with_power hs))
    (canonical_ite (canonical_boostWindow hs) hs)))))

theorem canonicalRes_execDamperWindow {m : DamperIn} (hs : Canonical s) : CanonicalRes (execDamperWindow m s) := by
  unfold execDamperWindow
  exact canonicalRes_onlyIf hs (.next (canonical_ite (canonical_gateWindow (canonical_with_power (canonical_noteWindow hs)))
    (canonical_decideWindow (canonical_gateWindow (canonical_with_power (canonical_noteWindow hs))))))

theorem canonicalRes_execDamperTrim {measuredW : Nat} (hs : Canonical s) : CanonicalRes (execDamperTrim measuredW s) :=
  canonicalRes_onlyIf hs (.next (canonical_with_power (canonical_useFree (canonical_putObj hs ..) _)))

theorem canonicalRes_execPointChangeComplete (hs : Canonical s) : CanonicalRes (execPointChangeComplete s) :=
  canonicalRes_withSome hs (fun _ => .next (canonical_with_power (canonical_ite (canonical_addObj (canonical_putObj (canonical_putObj hs ..) ..) ..)
    (canonical_putObj (canonical_putObj hs ..) ..))))

theorem canonicalRes_execThermalTrip (hs : Canonical s) : CanonicalRes (execThermalTrip s) :=
  canonicalRes_onlyIf hs (.next (canonical_toStandby (canonical_raiseHeld (canonical_addObj hs ..))))

theorem canonicalRes_execDroopOnset {die row : Nat} (hs : Canonical s) : CanonicalRes (execDroopOnset die row s) := by
  simp only [execDroopOnset]
  split
  · exact .refused
  · exact canonicalRes_onlyIf hs (.next (canonical_with_power (canonical_addObj hs ..)))

theorem canonicalRes_execDroopRecovery {die row cycles : Nat} (hs : Canonical s) : CanonicalRes (execDroopRecovery die row cycles s) :=
  canonicalRes_onlyIf hs (.next (canonical_with_power (canonical_addObj hs ..)))

/-! ### Power input and protection (Electrical) -/

theorem canonical_goOff (hs : Canonical s) : Canonical (goOff s) := by
  unfold goOff
  extract_lets +onlyGivenNames kept t u
  have ht : Canonical t := canonical_loseState ⟨rfl, hs.2⟩
  have hu : Canonical u := canonical_putObj (canonical_foldl (fun _ _ hv => canonical_putObj hv ..) _ ht) ..
  exact canonical_of_eq hu rfl rfl

theorem canonicalRes_execInputBelow18v (hs : Canonical s) : CanonicalRes (execInputBelow18v s) :=
  canonicalRes_onlyIf hs (.next (canonical_with_elec (canonical_goOff hs)))

theorem canonicalRes_execPresentNClose (hs : Canonical s) : CanonicalRes (execPresentNClose s) :=
  canonicalRes_onlyIf hs (.next (canonical_with_elec hs))

theorem canonicalRes_execPresentNOpen (hs : Canonical s) : CanonicalRes (execPresentNOpen s) :=
  canonicalRes_onlyIf hs (.next (canonical_with_elec (canonical_goOff (canonical_flushCounters (canonical_ite (canonical_addObj hs ..) hs)))))

theorem canonicalRes_execInrushStart (hs : Canonical s) : CanonicalRes (execInrushStart s) := by
  unfold execInrushStart
  exact canonicalRes_onlyIf hs (.next (canonical_with_elec hs))

theorem canonicalRes_execInrushComplete (hs : Canonical s) : CanonicalRes (execInrushComplete s) :=
  canonicalRes_onlyIf hs (.next (canonical_with_elec hs))

theorem canonicalRes_execPowerGood (hs : Canonical s) : CanonicalRes (execPowerGood s) := by
  unfold execPowerGood
  exact canonicalRes_onlyIf hs (.next (canonical_of_eq hs rfl rfl))

theorem canonical_loseGood {e : Elec} (hs : Canonical s) : Canonical (loseGood s e) := canonical_of_eq hs rfl rfl

theorem canonicalRes_execUndervoltage (hs : Canonical s) : CanonicalRes (execUndervoltage s) :=
  canonicalRes_onlyIf hs (.next (canonical_toStandby (canonical_loseGood (canonical_setAlert (canonical_addObj hs ..) _))))

theorem canonicalRes_execOvervoltage (hs : Canonical s) : CanonicalRes (execOvervoltage s) :=
  canonicalRes_onlyIf hs (.next (canonical_toStandby (canonical_loseGood (canonical_setAlert (canonical_addObj hs ..) _))))

theorem canonicalRes_execOvervoltageRecovery (hs : Canonical s) : CanonicalRes (execOvervoltageRecovery s) :=
  canonicalRes_onlyIf hs (.next (canonical_with_elec hs))

theorem canonicalRes_execInputOvercurrent (hs : Canonical s) : CanonicalRes (execInputOvercurrent s) :=
  canonicalRes_onlyIf hs (.next (canonical_toStandby (canonical_loseGood (canonical_setAlert (canonical_addObj hs ..) _))))

theorem canonicalRes_execOvercurrentReclose (hs : Canonical s) : CanonicalRes (execOvercurrentReclose s) :=
  canonicalRes_onlyIf hs (.next (canonical_with_elec hs))

theorem canonicalRes_execAux12Short (hs : Canonical s) : CanonicalRes (execAux12Short s) :=
  canonicalRes_onlyIf hs (.next (canonical_with_elec (canonical_setAlert (canonical_addObj hs ..) _)))

theorem canonicalRes_execAux12Retry {mA : Nat} (hs : Canonical s) : CanonicalRes (execAux12Retry mA s) := by
  simp only [execAux12Retry]
  refine canonicalRes_onlyIf hs ?_
  split
  · exact .next hs
  · exact .next (canonical_with_elec (canonical_putObj hs ..))

theorem canonical_noteInput {terminalmV : Nat} (hs : Canonical s) : Canonical (noteInput s terminalmV) := canonical_with_elec hs

theorem canonicalRes_execVsenseCheck {sensemV terminalmV : Nat} (hs : Canonical s) : CanonicalRes (execVsenseCheck sensemV terminalmV s) := by
  simp only [execVsenseCheck]
  refine canonicalRes_onlyIf hs ?_
  split
  · exact .next (canonical_setAlert (canonical_putObj (canonical_putObj (canonical_noteInput hs) ..) ..) _)
  · exact .next (canonical_putObj (canonical_putObj (canonical_noteInput hs) ..) ..)

theorem canonicalRes_execEnableChange {high : Bool} {lowMs : Nat} (hs : Canonical s) : CanonicalRes (execEnableChange high lowMs s) := by
  simp only [execEnableChange]
  refine canonicalRes_onlyIf hs ?_
  split
  · exact .next (canonical_with_boot (canonical_putObj hs ..))
  · exact .next (canonical_toStandby (canonical_loseGood (canonical_putObj hs ..)))

theorem canonicalRes_execLeakDetect (hs : Canonical s) : CanonicalRes (execLeakDetect s) :=
  canonicalRes_onlyIf hs (.next (canonical_ite (canonical_toStandby (canonical_raiseHeld (canonical_addObj hs ..)))
    (canonical_raiseHeld (canonical_addObj hs ..))))

theorem canonicalRes_execCoolTachLow {hz : Nat} (hs : Canonical s) : CanonicalRes (execCoolTachLow hz s) :=
  canonicalRes_onlyIf hs (.next (canonical_raiseHeld (canonical_putObj hs ..)))

theorem canonicalRes_execPlateOverLimit {mC : Nat} (hs : Canonical s) : CanonicalRes (execPlateOverLimit mC s) :=
  canonicalRes_onlyIf hs (.next (canonical_raiseHeld (canonical_putObj hs ..)))

theorem canonicalRes_execMgmtLinkDown (hs : Canonical s) : CanonicalRes (execMgmtLinkDown s) :=
  canonicalRes_onlyIf hs (.next (canonical_raiseHeld (canonical_ite (canonical_addObj (canonical_putObj hs ..) ..) hs)))

theorem canonicalRes_execMgmtLinkUp (hs : Canonical s) : CanonicalRes (execMgmtLinkUp s) :=
  canonicalRes_onlyIf hs (.next (canonical_endHeld (canonical_putObj hs ..)))

theorem canonical_setHeld (hs : Canonical s) : Canonical (setHeld s) := canonical_putObj hs ..

theorem canonical_noteEnded {ended : Nat} (hs : Canonical s) : Canonical (noteEnded s ended) :=
  canonical_foldl (fun _ _ hs' => canonical_ite (canonical_endHeld hs') hs') _ hs

theorem canonical_noteSensors {t : Telemetry} (hs : Canonical s) : Canonical (noteSensors s t) := canonical_noteEnded hs

theorem canonicalRes_execEnergyUpdate {sensemV terminalmV : Nat} {t : Telemetry} (hs : Canonical s) :
    CanonicalRes (execEnergyUpdate sensemV terminalmV t s) :=
  canonicalRes_onlyIf hs (.next (canonical_setHeld (canonical_noteSensors (canonical_noteInput
    (canonical_with_elec (canonical_putObj (canonical_putObj (canonical_putObj (canonical_putObj
    (canonical_putObj (canonical_putObj (canonical_addObj hs ..) ..) ..) ..) ..) ..) ..))))))

/-! ### Management boot and start-up (Startup) -/

theorem canonical_noteVersion {stage : Nat} (hs : Canonical s) : Canonical (noteVersion s stage) := by
  simp only [noteVersion]
  split
  · exact ⟨swf_filter hs.1 _, hs.2⟩
  · exact canonical_putObj hs ..
  · exact canonical_putObj hs ..

theorem canonical_noteCopy {stage : Nat} {copy : Option Nat} (hs : Canonical s) : Canonical (noteCopy s stage copy) :=
  canonical_noteVersion (canonical_putObj hs ..)

theorem canonical_newEpoch (hs : Canonical s) : Canonical (newEpoch s) := canonical_with_odp (canonical_addObj hs ..)

theorem canonical_startFails {code stage : Nat} (hs : Canonical s) : Canonical (startFails s code stage) :=
  canonical_with_boot (canonical_putObj (canonical_putObj (canonical_loseState (canonical_flushCounters hs)) ..) ..)

theorem canonicalRes_execDomain87Up {b : MgmtBoot} (hs : Canonical s) : CanonicalRes (execDomain87Up b s) := by
  unfold execDomain87Up
  extract_lets +onlyGivenNames off
  refine canonicalRes_onlyIf hs ?_
  extract_lets +onlyGivenNames u boot elec t
  have hu : Canonical u := canonical_putObj hs ..
  have ht : Canonical t := canonical_of_eq hu rfl rfl
  clear_value t
  refine .next ?_
  split
  · exact canonical_startFails ht
  · split
    · exact canonical_startFails ht
    · extract_lets +onlyGivenNames v
      have hv : Canonical v := canonical_noteCopy ht
      split
      · exact canonical_startFails hv
      · exact canonical_newEpoch (canonical_with_boot (canonical_noteCopy hv))

theorem canonical_beginBoot (hs : Canonical s) : Canonical (beginBoot s) := by
  unfold beginBoot
  extract_lets +onlyGivenNames t u v
  have ht : Canonical t := canonical_loseState hs
  have hu : Canonical u := canonical_setHeld (canonical_ite ht (canonical_newEpoch ht))
  have hv : Canonical v := canonical_putObj hu ..
  exact canonical_of_eq hv rfl rfl

theorem canonical_siteFails {x : Nat × Nat × Nat} (hs : Canonical s) : Canonical (siteFails s x) :=
  canonical_ite hs (canonical_addObj (canonical_putObj (canonical_putObj hs ..) ..) ..)

theorem canonical_testSites {bad : List (Nat × Nat × Nat)} (hs : Canonical s) : Canonical (testSites s bad) :=
  canonical_foldl (fun _ _ hs' => canonical_ite (canonical_putObj hs' ..) hs') _ (canonical_foldl (fun _ _ hs' => canonical_siteFails hs') _
    (canonical_foldl (fun _ _ hs' => canonical_addObj hs' ..) _ hs))

theorem canonical_enterTrain (hs : Canonical s) : Canonical (enterTrain s) :=
  canonical_foldl (fun _ _ hs' => canonical_ite (canonical_putObj hs' ..) hs') _ (canonical_putObj (canonical_putObj hs ..) ..)

theorem canonical_runBoot {b : BootIn} (hs : Canonical s) : Canonical (runBoot b s) := by
  unfold runBoot
  refine canonical_ite (canonical_startFails hs) ?_
  extract_lets +onlyGivenNames c4 c5 s1
  have h1 : Canonical s1 := canonical_noteCopy (canonical_noteCopy (canonical_noteVersion (canonical_noteVersion hs)))
  clear_value s1
  refine canonical_ite (canonical_startFails h1) (canonical_ite (canonical_startFails h1) (canonical_ite (canonical_startFails h1) ?_))
  extract_lets +onlyGivenNames s2 s3 s4
  have h4 : Canonical s4 := canonical_testSites (canonical_putObj (canonical_putObj (canonical_putObj h1 ..) ..) ..)
  clear_value s4
  exact canonical_ite (canonical_startFails h4) (canonical_ite (canonical_goCold h4) (canonical_ite (canonical_goCold h4) (canonical_enterTrain h4)))

theorem canonicalRes_execBoot {b : BootIn} (hs : Canonical s) : CanonicalRes (execBoot b s) := by
  simp only [execBoot]
  split
  · exact .refused
  · exact canonicalRes_onlyIf hs (.next (canonical_runBoot (canonical_beginBoot hs)))

theorem canonical_trainFails {c : Nat × Nat} (hs : Canonical s) : Canonical (trainFails s c) :=
  canonical_ite hs (canonical_ite (canonical_goCold hs) (canonical_putObj (canonical_putObj (canonical_subObj (canonical_addObj hs ..) ..) ..) ..))

theorem canonical_freezeOut (hs : Canonical s) : Canonical (freezeOut s) :=
  canonical_foldl (fun _ _ hs' => canonical_writeLookup hs') _ (canonical_foldl (fun _ _ hs' => canonical_ite (canonical_putObj hs' ..) hs') _ hs)

theorem canonical_placeRegion {r : Nat × Nat × List Nat} (hs : Canonical s) : Canonical (placeRegion s r) :=
  canonical_ite (canonical_addObj hs ..) (canonical_ite (canonical_putObj (canonical_putObj (canonical_with_mem (canonical_addObj hs ..) rfl) ..) ..)
    (canonical_with_mem (canonical_addObj hs ..) rfl))

theorem canonical_cxlUp {p : CxlPort} (hs : Canonical s) : Canonical (cxlUp s p) :=
  canonical_putObj (canonical_putObj (canonical_putObj (canonical_putObj (canonical_putObj hs ..) ..) ..) ..) ..

theorem canonical_bringCxl {all : List CxlPort} (hs : Canonical s) : Canonical (bringCxl s all) :=
  canonical_useFree (canonical_foldl (fun _ _ hs' => canonical_placeRegion hs') _ (canonical_foldl (fun _ _ hs' => canonical_cxlUp hs') _ hs)) _

theorem canonical_portTrained {q : Nat} (hs : Canonical s) : Canonical (portTrained s q) :=
  canonical_ite (canonical_putLinkUp (canonical_setPort hs)) hs

theorem canonical_beginDiscovery (hs : Canonical s) : Canonical (beginDiscovery s) :=
  canonical_ite (canonical_putObj hs ..) (canonical_ite hs (canonical_foldl (fun _ _ hs' => canonical_actHello hs') _
    (canonical_with_boot (canonical_foldl (fun _ _ hs' => canonical_sendHello hs') _ (canonical_beginHello hs)))))

theorem canonical_enterReady (hs : Canonical s) : Canonical (enterReady s) :=
  canonical_beginDiscovery (canonical_ite (canonical_putObj (canonical_putObj (canonical_putObj hs ..) ..) ..)
    (canonical_needPoint (canonical_putObj (canonical_putObj (canonical_putObj hs ..) ..) ..)))

theorem canonicalRes_execReadyLocal {t : TrainIn} (hs : Canonical s) : CanonicalRes (execReadyLocal t s) := by
  unfold execReadyLocal
  split
  · exact .refused
  · refine canonicalRes_onlyIf hs ?_
    extract_lets +onlyGivenNames s1 s2 s3
    have h2 : Canonical s2 :=
      canonical_putObj (canonical_putObj (canonical_freezeOut (canonical_foldl (fun _ _ hu => canonical_trainFails hu) _ hs)) ..) ..
    have h3 : Canonical s3 := canonical_foldl (fun _ _ hu => canonical_portTrained hu) _ (canonical_bringCxl h2)
    exact .next (canonical_ite h3 (canonical_enterReady h3))

theorem canonicalRes_execTierZeroingComplete {tier : ZeroTarget} (hs : Canonical s) :
    CanonicalRes (execTierZeroingComplete tier s) := by
  unfold execTierZeroingComplete
  extract_lets +onlyGivenNames ready
  refine canonicalRes_onlyIf hs ?_
  extract_lets +onlyGivenNames m t
  have ht : Canonical t := canonical_with_mem hs rfl
  clear_value t
  refine .next (canonical_noteReserve ?_)
  split
  · split
    · exact canonical_grant ht ..
    · exact ht
  · exact ht

theorem canonical_restart (hs : Canonical s) : Canonical (restart s) := canonical_with_boot (canonical_toStandby hs)

theorem canonicalOpt_recoverImage {img : FwImage} (hs : Canonical s) : CanonicalOpt (recoverImage img s) := by
  simp only [recoverImage]
  split
  · exact .some (canonical_with_boot hs)
  · exact .none

end Sys2Proof.Machine
end

section
/-! SUPPORT. Canonical forms kept by chiplet ports and control flow (R86 to R88, R138 to R140, R446 to R457): one fact for each operation, in the
order of the model. -/

namespace Sys2Proof.Machine

variable {s t : State}

/-! ### Ports and the spark screen (Chiplet) -/

theorem canonical_startNegotiation {p : Nat} (hs : Canonical s) : Canonical (startNegotiation s p) := canonical_ite (canonical_putObj hs ..) hs

theorem canonical_cpEnableWrite {p v : Nat} (hs : Canonical s) : Canonical (cpEnableWrite p v s) :=
  canonical_ite (canonical_startNegotiation (canonical_putObj hs ..)) (canonical_putObj hs ..)

theorem canonicalRes_execCpEnable {cr : Cred} {p v : Nat} (hs : Canonical s) : CanonicalRes (execCpEnable cr p v s) := by
  simp only [execCpEnable]
  split
  · exact .refused
  · exact canonicalRes_settleWrite hs (fun _ hs' => canonical_cpEnableWrite hs')

theorem canonicalRes_execCpNegotiationComplete {p : Nat} {n : CpNegotiation} (hs : Canonical s) : CanonicalRes (execCpNegotiationComplete p n s) := by
  simp only [execCpNegotiationComplete]
  split
  · exact .refused
  refine canonicalRes_onlyIf hs ?_
  split
  · exact .next (canonical_putObj hs ..)
  split
  · exact .next (canonical_putObj (canonical_putObj hs ..) ..)
  · exact .next (canonical_setChip (canonical_putObj (canonical_putObj (canonical_putObj hs ..) ..) ..))

theorem canonical_putHeld {p : Nat} {hs : List HeldLine} (cs : Canonical s) : Canonical (putHeld s p hs) := canonical_putObj (canonical_setChip cs) ..

theorem canonical_poisonOwned {h : HeldLine} (hs : Canonical s) : Canonical (poisonOwned s h) := by
  unfold poisonOwned
  extract_lets +onlyGivenNames m t
  have ht : Canonical t := canonical_with_mem hs rfl
  clear_value t
  split
  · exact canonical_ite ht (canonical_foldl (fun _ _ hu => canonical_originate hu) _ (canonical_addObj ht ..))
  · exact ht

theorem canonical_fencePort {p : Nat} (hs : Canonical s) : Canonical (fencePort s p) :=
  canonical_foldl (fun _ _ hs' => canonical_dirForget (canonical_snoopDone hs')) _ (canonical_foldl (fun _ _ hs' => canonical_poisonOwned hs') _
    (canonical_setChip (canonical_putHeld (canonical_addObj (canonical_putObj hs ..) ..))))

theorem canonical_recordViolation {p kind : Nat} {addr : BitVec 48} (hs : Canonical s) : Canonical (recordViolation s p kind addr) :=
  canonical_ite (canonical_useFree hs _) (canonical_putObj (canonical_useFree hs _) ..)

theorem canonical_violation {p kind : Nat} {addr : BitVec 48} (hs : Canonical s) : Canonical (violation s p kind addr) :=
  canonical_ite (canonical_fencePort (canonical_addObj (canonical_setChip (canonical_recordViolation hs)) ..))
    (canonical_addObj (canonical_setChip (canonical_recordViolation hs)) ..)

theorem canonical_refuseReq {p : Nat} {addr : BitVec 48} (hs : Canonical s) : Canonical (refuseReq s p addr) :=
  canonical_send (canonical_addObj hs ..) _

theorem canonical_violateReq {p kind : Nat} {addr : BitVec 48} (hs : Canonical s) : Canonical (violateReq s p kind addr) :=
  canonical_violation (canonical_refuseReq hs)

theorem canonicalOpt_takeTokens {p w n : Nat} (hs : Canonical s) : CanonicalOpt (takeTokens s p w n) := by
  simp only [takeTokens]
  split
  · exact .some hs
  split
  · exact .none
  · exact .some (canonical_setChip hs)

theorem canonical_answerReq {p : Nat} {addr : BitVec 48} {bytes code : Nat} {data : List Byte} (hs : Canonical s) :
    Canonical (answerReq s p addr bytes code data) :=
  canonical_send (canonical_addObj hs ..) _

theorem canonical_openReq {p : Nat} {addr : BitVec 48} (hs : Canonical s) : Canonical (openReq s p addr) :=
  canonical_ite (canonical_refuseReq (canonical_useFree hs _)) (canonical_answerReq (canonical_useFree hs _))

theorem canonicalRes_request {p : Nat} {m : CpMsg} {wellFormed : Bool} {a : Ask} {f : Target → State → Except Halt State} (hs : Canonical s)
    (hf : ∀ x0 s', Canonical s' → CanonicalPort (f x0 s')) : CanonicalRes (request p m wellFormed a s f) := by
  simp only [request]
  split
  · exact .refused
  refine canonicalRes_onlyIf hs ?_
  split
  · exact .next (canonical_violateReq hs)
  split
  · exact .fault
  · exact .next (canonical_violateReq hs)
  split
  · exact .next (canonical_refuseReq hs)
  split
  · exact .next hs
  split
  · exact .fault
  · exact .next (canonical_violateReq hs)
  · exact .next (canonical_openReq (canonical_unpredictable hs))
  · exact .next ((hf _ _ hs).of_wait ‹_›)
  · exact .next (canonical_getD (canonicalOpt_takeTokens ((hf _ _ hs).of_ok ‹_›)) ((hf _ _ hs).of_ok ‹_›))

theorem canonicalPort_stopped {e : Stop} (he : CanonicalStop e) : CanonicalPort (stopped e) := by
  simp only [stopped]
  split
  · exact .wait (he.of_wait rfl)
  · exact .refused
  · exact .open_
  · exact .absent

theorem canonical_roomToHold {u : State} {p : Nat} {addr : BitVec 48} {t : Target} (hs : Canonical s)
    (is : roomToHold s p addr t = .error u) : Canonical u := by
  simp only [roomToHold] at is
  split at is
  · cases is
  · split at is
    · cases is
    · next waits => cases is; exact (keeps_dirRoom_waits waits).canonical hs

theorem canonical_grantLine {p : Nat} {addr : BitVec 48} {t : Target} {own : Bool} (hs : Canonical s) : Canonical (grantLine s p addr t own) :=
  canonical_ite hs (canonical_ite (canonical_putHeld (canonical_ite ((keeps_dirWrite ..).canonical hs) ((keeps_dirRead ..).canonical hs)))
    (canonical_addObj hs ..))

theorem canonical_agentRead {p n : Nat} {k : SectKey} (hs : Canonical s) : Canonical (agentRead s p n k).1 := by
  simp only [agentRead]
  refine canonical_readSect ?_ _
  split
  · exact canonical_ite ((keeps_llmTouch ..).canonical hs) hs
  · exact hs

theorem canonicalOpt_chipSupplies {p : Nat} {l : LineKey} {sectors : List Nat} (hs : Canonical s) : CanonicalOpt (chipSupplies s p l sectors) := by
  simp only [chipSupplies]
  split
  · exact .none
  split
  · exact .none
  · exact canonicalOpt_bind (fun _ => canonicalOpt_map (fun _ => (keeps_snoopChip ..).canonical ((keeps_putDir ..).canonical hs)) _) _

theorem canonicalRead_readSectors {p : Nat} {granted : Bool} {t : Target} {l : List Nat} (hs : Canonical s) :
    CanonicalRead (readSectors p granted t l s) := by
  induction l generalizing s with
  | nil =>
    simp only [readSectors]
    exact .ok hs
  | cons x l ih =>
    simp only [readSectors]
    split
    · exact .error ((canonicalCheck_reach hs).of_error ‹_›)
    split
    · exact .error ((ih (canonical_ite_fst (canonical_agentRead hs) (canonical_homeSect hs))).of_error ‹_›)
    · exact .ok ((ih (canonical_ite_fst (canonical_agentRead hs) (canonical_homeSect hs))).of_ok ‹_›)

theorem canonicalRes_execCpRd {p : Nat} {m : CpMsg} (hs : Canonical s) : CanonicalRes (execCpRd p m s) := by
  unfold execCpRd
  extract_lets +onlyGivenNames n
  refine canonicalRes_request hs fun t s hs => ?_
  extract_lets +onlyGivenNames granted
  split
  · next waits => exact .wait (canonical_roomToHold hs waits)
  · next supplies =>
    split at supplies
    · exact .wait ((canonicalOpt_chipSupplies hs).of_some supplies)
    · cases supplies
  · next stops => exact canonicalPort_stopped ((canonicalRead_readSectors hs).of_error stops)
  · next read => exact .ok (canonical_answerReq (canonical_grantLine (canonical_served ((canonicalRead_readSectors hs).of_ok read) _)))

theorem canonicalRes_execCpRdo {p : Nat} {m : CpMsg} (hs : Canonical s) : CanonicalRes (execCpRdo p m s) := by
  refine canonicalRes_request hs fun t s hs => ?_
  extract_lets +onlyGivenNames owns
  have logged : Canonical (if owns && t.space != 1 then logWrite s t.slice t.addr else s) := canonical_ite (canonical_logWrite hs ..) hs
  split
  · next waits => exact .wait (canonical_roomToHold hs waits)
  · next stops =>
    split at stops
    · exact canonicalPort_stopped ((canonicalCheck_writeOk hs).of_error stops)
    · cases stops
  · split
    · next stops => exact canonicalPort_stopped ((canonicalRead_readSectors logged).of_error stops)
    · next read =>
      exact .ok (canonical_answerReq (canonical_grantLine (canonical_served ((canonicalRead_readSectors logged).of_ok read) _)))

theorem canonical_writeRuns {p : Nat} {t : Target} {runs : List (Nat × List Byte)} (hs : Canonical s) : Canonical (writeRuns s p t runs) :=
  canonical_noteExternal (canonical_served (canonical_foldl (fun _ _ hs' => canonical_writeRunAs hs' ..) _ hs) _)

theorem canonicalRes_execCpWr {p : Nat} {m : CpMsg} (hs : Canonical s) : CanonicalRes (execCpWr p m s) := by
  simp only [execCpWr]
  refine canonicalRes_request hs (fun _ _ hs' => ?_)
  split
  · exact canonicalPort_stopped ((canonicalCheck_writeOk hs').of_error ‹_›)
  · exact .ok (canonical_answerReq (canonical_writeRuns hs'))

theorem canonicalRes_execCpAtom {p : Nat} {m : CpMsg} (hs : Canonical s) : CanonicalRes (execCpAtom p m s) := by
  simp only [execCpAtom]
  refine canonicalRes_request hs (fun _ _ hs' => ?_)
  split
  · exact canonicalPort_stopped ((canonicalCheck_writeOk hs').of_error ‹_›)
  · exact canonicalPort_stopped ((canonicalCheck_reach hs').of_error ‹_›)
  · exact .ok (canonical_answerReq (canonical_ite (canonical_served (canonical_homeSect hs') _) (canonical_writeRuns (canonical_homeSect hs'))))

theorem canonicalRes_execCpWbk {p : Nat} {m : CpMsg} (hs : Canonical s) : CanonicalRes (execCpWbk p m s) := by
  simp only [execCpWbk]
  refine canonicalRes_request hs (fun _ _ hs' => ?_)
  split
  · exact canonicalPort_stopped ((canonicalCheck_writeOk hs').of_error ‹_›)
  · exact .ok (canonical_answerReq (canonical_putHeld (canonical_dirForget (canonical_writeRuns hs'))))

theorem canonicalRes_execCpDrop {p : Nat} {m : CpMsg} (hs : Canonical s) : CanonicalRes (execCpDrop p m s) := by
  simp only [execCpDrop]
  refine canonicalRes_request hs (fun _ _ hs' => .ok (canonical_answerReq (canonical_putHeld ?_)))
  split
  · exact canonical_ite (canonical_dropOwned hs') hs'
  · exact hs'

theorem canonical_answerData {h : HeldLine} {runs : List (Nat × List Byte)} (hs : Canonical s)
    (is : answerData s h runs = .ok t) : Canonical t := by
  simp only [answerData] at is
  split at is
  · cases is; exact canonical_addObj hs ..
  · split at is
    · cases is
    · cases is; exact hs
    · cases is
      exact canonical_noteExternal (canonical_foldl (fun _ _ hu => canonical_noteCode (canonical_writeSect hu ..) ..) _ (canonical_logWrite hs ..))
  · cases is; exact canonical_foldl (fun _ _ hu => canonical_writeSect hu ..) _ hs

theorem canonical_answerData_waits {h : HeldLine} {runs : List (Nat × List Byte)} (hs : Canonical s)
    (is : answerData s h runs = .error t) : Canonical t := by
  simp only [answerData] at is
  split at is
  · cases is
  · split at is
    · next waits => cases is; exact (canonicalCheck_imageGate hs).of_wait waits
    · cases is
    · cases is
  · cases is

theorem canonicalRes_snoopAnswer {p : Nat} {m : CpMsg} {runs : List (Nat × List Byte)} (hs : Canonical s) :
    CanonicalRes (snoopAnswer p m runs s) := by
  unfold snoopAnswer
  split
  · exact .refused
  · refine canonicalRes_onlyIf hs ?_
    split
    · exact .next (canonical_violation hs)
    · split
      · exact .next (canonical_violation hs)
      · next q h? _ _ =>
        split
        · next waits =>
          split at waits
          · split at waits
            · exact .next (canonical_answerData_waits hs waits)
            · cases waits
          · cases waits
        · next t written =>
          have ht : Canonical t := by
            split at written
            · split at written
              · exact canonical_answerData hs written
              · cases written; exact hs
            · cases written; exact hs
          extract_lets +onlyGivenNames c s1 s2 s3
          have h1 : Canonical s1 := canonical_setChip ht
          have h2 : Canonical s2 := canonical_ite (canonical_addObj h1 ..) h1
          have h3 : Canonical s3 := canonical_putHeld h2
          clear_value s3
          refine .next ?_
          split
          · exact canonical_snoopDone (canonical_dirForget h3)
          · exact canonical_snoopDone h3
          · exact h3

theorem canonicalRes_execSnoopTimeout {p : Nat} {addr : BitVec 48} (hs : Canonical s) : CanonicalRes (execSnoopTimeout p addr s) :=
  canonicalRes_onlyIf hs (.next (canonical_violation hs))

theorem canonical_ssEnableWrite {w v : Nat} (hs : Canonical s) : Canonical (ssEnableWrite w v s) :=
  canonical_ite (canonical_recallLines (canonical_putObj hs ..)) (canonical_putObj hs ..)

theorem canonicalRes_execSsEnable {cr : Cred} {p win v : Nat} (hs : Canonical s) : CanonicalRes (execSsEnable cr p win v s) := by
  simp only [execSsEnable]
  split
  · exact .refused
  split
  · exact .next (canonical_refuseAccess hs)
  · exact canonicalRes_settleWrite hs (fun _ hs' => canonical_ssEnableWrite hs')

/-! ### Control flow (Control) -/

theorem canonicalRes_execNop {g : GroupRef} {w : Word64} (hs : Canonical s) : CanonicalRes (execNop g w s) :=
  canonicalRes_runInstr hs (fun _ _ hs' => .step hs')

theorem canonicalRes_execBr {g : GroupRef} {w : Word64} (hs : Canonical s) : CanonicalRes (execBr g w s) :=
  canonicalRes_runInstr hs (fun _ _ hs' => .jump hs')

theorem canonicalRes_execBrP {g : GroupRef} {w : Word64} (hs : Canonical s) : CanonicalRes (execBrP g w s) := by
  simp only [execBrP]
  refine canonicalRes_runInstr hs (fun _ _ hs' => ?_)
  split
  · split
    · exact .jump hs'
    split
    · split
      · exact .paths hs'
      · exact .step hs'
    · exact .paths hs'
  split
  · exact .jump hs'
  split
  · split
    · exact .paths hs'
    · exact .step hs'
  · exact .paths hs'

theorem canonicalRes_execCall {g : GroupRef} {w : Word64} (hs : Canonical s) : CanonicalRes (execCall g w s) :=
  canonicalRes_runInstr hs (fun _ _ hs' => .jump hs')

theorem canonicalRes_execRet {g : GroupRef} {w : Word64} (hs : Canonical s) : CanonicalRes (execRet g w s) := by
  simp only [execRet]
  refine canonicalRes_runInstr hs (fun _ _ hs' => ?_)
  split
  · exact .step hs'
  split
  · exact .jump hs'
  · exact .any hs'

theorem canonicalRes_execJmpS {g : GroupRef} {w : Word64} (hs : Canonical s) : CanonicalRes (execJmpS g w s) :=
  canonicalRes_runInstr hs (fun _ _ hs' => .jump hs')

theorem canonicalRes_execExitLanes {g : GroupRef} {w : Word64} (hs : Canonical s) : CanonicalRes (execExitLanes g w s) :=
  canonicalRes_runInstr hs (fun _ _ hs' => .paths hs')

theorem canonicalRes_execPause {g : GroupRef} {w : Word64} (hs : Canonical s) : CanonicalRes (execPause g w s) := by
  simp only [execPause]
  refine canonicalRes_runInstr hs (fun _ _ hs' => ?_)
  split <;> exact .paths hs'

theorem canonicalRes_execPauseExpiry {g : GroupRef} (hs : Canonical s) : CanonicalRes (execPauseExpiry g s) := by
  simp only [execPauseExpiry]
  split
  · exact .next hs
  split
  · exact .next hs
  split
  · exact .next (canonical_setGroup hs)
  split
  · split
    · exact .next (canonical_setGroup hs)
    · exact .next hs
  · exact .next hs

theorem canonicalRes_execBarGang {g : GroupRef} {w : Word64} (hs : Canonical s) : CanonicalRes (execBarGang g w s) := by
  simp only [execBarGang]
  refine canonicalRes_runInstr hs (fun _ _ hs' => ?_)
  split
  · exact .wait hs'
  · exact .paths hs'

end Sys2Proof.Machine
end

section
/-! SUPPORT. Canonical forms kept by objects and their protocol (R468, R476 to R494): one fact for each operation, in the order of the model. -/

namespace Sys2Proof.Machine

variable {s t : State}

/-! ### Writes of objects (ObjWrite) -/

theorem canonical_harvest {n : Nat} (hs : Canonical s) : Canonical (harvest s n).1 := canonical_setSlice hs _

theorem canonical_rebankLeaf {n l base va i : Nat} (hs : Canonical s) : Canonical (rebankGo.rebankLeaf n l base va s i) := by
  simp only [rebankGo.rebankLeaf]
  exact canonical_ite (canonical_putPte hs ..) hs

theorem canonical_rebankGo {n l base va : Nat} (hs : Canonical s) : Canonical (rebankGo n l base va s) := by
  induction l generalizing base va s with
  | zero => exact canonical_foldl (fun _ _ hu => canonical_rebankLeaf hu) _ hs
  | succ l ih =>
    simp only [rebankGo]
    exact canonical_foldl (fun _ _ hu => canonical_ite (ih hu) (canonical_rebankLeaf hu)) _ hs

theorem canonical_rebank {n : Nat} (hs : Canonical s) : Canonical (rebank s n) := canonical_noteReserve (canonical_rebankGo hs)

theorem canonical_lsEnableWrite {k v : Nat} (hs : Canonical s) : Canonical (lsEnableWrite k v s) :=
  canonical_ite hs (canonical_ite (canonical_noteReserve (canonical_putObj (canonical_putObj
    (canonical_putObj (canonical_putObj (canonical_putObj (canonical_putObj (canonical_putObj (canonical_setLockSet hs) ..) ..) ..) ..) ..) ..) ..))
    (canonical_noteReserve (canonical_foldl (fun _ _ hs' => canonical_freeQuarantine hs') _
    (canonical_ite (canonical_putObj (canonical_setLockSet hs) ..) (canonical_putObj (canonical_putObj (canonical_setLockSet hs) ..) ..)))))

theorem canonical_linkFreezeWrite {l v : Nat} (hs : Canonical s) : Canonical (linkFreezeWrite l v s) :=
  canonical_ite hs (canonical_countOut (canonical_ite (canonical_startDrain (canonical_putObj hs ..)) (canonical_endDrain (canonical_putObj hs ..))))

theorem canonical_chFreezeWrite {st ch v : Nat} (hs : Canonical s) : Canonical (chFreezeWrite st ch v s) :=
  canonical_ite hs (canonical_ite (canonical_with_mem hs rfl) (canonical_ite hs (canonical_settleFrozen
    (canonical_ite (canonical_startDrain (canonical_putObj hs ..)) (canonical_endDrain (canonical_putObj hs ..))))))

theorem canonical_migEnableWrite {n v : Nat} (hs : Canonical s) : Canonical (migEnableWrite n v s) :=
  canonical_ite (canonical_setSlice (canonical_putObj hs ..) _) (canonical_putObj hs ..)

theorem canonical_doorbellWrite {ch v : Nat} (hs : Canonical s) : Canonical (doorbellWrite ch v s) := canonical_setChan hs

theorem canonical_chEnableWrite {ch v : Nat} (hs : Canonical s) : Canonical (chEnableWrite ch v s) :=
  canonical_ite (canonical_quiesceChannel (canonical_putObj hs ..)) (canonical_putObj hs ..)

theorem canonical_periodAtWrite {v : Nat} (hs : Canonical s) : Canonical (periodAtWrite v s) :=
  canonical_floodDraft (canonical_pendPeriod (canonical_useFree (canonical_putObj hs ..) _))

theorem canonical_qpEnableWrite {q v : Nat} (hs : Canonical s) : Canonical (qpEnableWrite q v s) :=
  canonical_ite hs (canonical_putObj (canonical_putObj (canonical_putObj (canonical_putObj (canonical_putObj (canonical_setQp hs) ..) ..) ..) ..) ..)

theorem canonical_alertCauseWrite {v : Nat} (hs : Canonical s) : Canonical (alertCauseWrite v s) := canonical_putObj hs ..

theorem canonical_sopWrite {byManager : Bool} {n : Nat} {bs : List Byte} (hs : Canonical s) : Canonical (sopWrite byManager n bs s) :=
  canonical_ite (canonical_sopResult (canonical_useFree (canonical_unpredictable hs) _)) (canonical_submitOp hs)

theorem canonical_routeWrite {bs : List Byte} (hs : Canonical s) : Canonical (routeWrite bs s) :=
  canonical_foldl (fun _ _ hs' => canonical_ite hs' (canonical_ite (canonical_putRoute (canonical_useFree hs' _)) (canonical_putRoute hs'))) _ hs

theorem canonical_applyWrite {k v : Nat} {bs : List Byte} (hs : Canonical s) : Canonical (applyWrite k v bs s) := by
  have hput : Canonical (s.putObj k v) := canonical_putObj hs ..
  unfold applyWrite
  extract_lets +onlyGivenNames ix sub
  refine canonical_ite (canonical_periodAtWrite hs) (canonical_ite (canonical_alertCauseWrite hs)
    (canonical_ite (canonical_ite (canonical_restart hs) hs)
    (canonical_ite (canonical_sopWrite hs) (canonical_ite hs (canonical_ite (canonical_devAttestWrite hs) (canonical_ite (canonical_spdmWrite hs)
    (canonical_ite (canonical_routeWrite hs) ?_)))))))
  split
  · exact canonical_ite (canonical_doorbellWrite hs) (canonical_ite (canonical_chEnableWrite hs) hput)
  · exact canonical_ite (canonical_postSends hs) (canonical_ite (canonical_qpEnableWrite hs) hput)
  · exact canonical_ite (canonical_lsEnableWrite hs) hput
  · split
    · exact canonical_linkFreezeWrite hs
    · exact canonical_ite (canonical_chFreezeWrite hs) hput
    · exact canonical_ite (canonical_sopWrite hs) (canonical_ite (canonical_migEnableWrite hs) hput)
    · exact canonical_rebank hput
    · split
      · exact canonical_putObj hs ..
      · exact canonical_attestWrite hs
      · exact canonical_ite (canonical_cpEnableWrite hs) hput
      · exact canonical_ite (canonical_ssEnableWrite hs) hput
      · exact hput

theorem canonical_writeEntry {cr : Cred} {alone : Bool} {k ty : Nat} {bs : List Byte} {bulk : Bool} (hs : Canonical s) :
    Canonical (writeEntry s cr alone k ty bs bulk).1 := by
  simp only [writeEntry]
  split
  · exact canonical_ite_fst hs (canonical_ite_fst hs (canonical_putObj hs ..))
  split
  · exact hs
  split
  · exact canonical_ite (canonical_useFree hs _) hs
  · exact canonical_applyWrite hs

theorem canonicalRes_writeRow {cr : Cred} {k ty : Nat} {bs : List Byte} (hs : Canonical s) : CanonicalRes (writeRow cr k ty bs s) := by
  simp only [writeRow]
  split
  · exact .next (canonical_addObj hs ..)
  split
  · exact .next ((canonical_writeEntry hs).of_pair ‹_›)
  · exact .next (canonical_refuseAccess ((canonical_writeEntry hs).of_pair ‹_›))

theorem canonicalRes_execLinkFreeze {cr : Cred} {l v : Nat} (hs : Canonical s) : CanonicalRes (execLinkFreeze cr l v s) := by
  simp only [execLinkFreeze]
  split
  · exact .refused
  · exact canonicalRes_writeRow hs

theorem canonicalRes_execChFreeze {cr : Cred} {st ch v : Nat} (hs : Canonical s) : CanonicalRes (execChFreeze cr st ch v s) := by
  simp only [execChFreeze]
  split
  · exact .refused
  · exact canonicalRes_writeRow hs

theorem canonicalRes_execMigLogHarvest {cr : Cred} {n : Nat} (hs : Canonical s) : CanonicalRes (execMigLogHarvest cr n s) := by
  simp only [execMigLogHarvest]
  split
  · exact .refused
  split
  · exact .next (canonical_addObj hs ..)
  split
  · exact .refused
  split
  · exact .next (canonical_refuseAccess hs)
  · exact .next (canonical_send (canonical_harvest hs) _)

theorem canonicalRes_execMigEnable {cr : Cred} {n v : Nat} (hs : Canonical s) : CanonicalRes (execMigEnable cr n v s) := by
  simp only [execMigEnable]
  split
  · exact .refused
  · exact canonicalRes_writeRow hs

theorem canonicalRes_execDoorbell {cr : Cred} {ch v : Nat} (hs : Canonical s) : CanonicalRes (execDoorbell cr ch v s) := by
  simp only [execDoorbell]
  split
  · exact .refused
  · exact canonicalRes_writeRow hs

theorem canonicalRes_execComplHead {cr : Cred} {ch v : Nat} (hs : Canonical s) : CanonicalRes (execComplHead cr ch v s) := by
  simp only [execComplHead]
  split
  · exact .refused
  · exact canonicalRes_writeRow hs

theorem canonicalRes_execChEnable {cr : Cred} {ch v : Nat} (hs : Canonical s) : CanonicalRes (execChEnable cr ch v s) := by
  simp only [execChEnable]
  split
  · exact .refused
  · exact canonicalRes_writeRow hs

theorem canonicalRes_execLsEnable {cr : Cred} {k v : Nat} (hs : Canonical s) : CanonicalRes (execLsEnable cr k v s) := by
  simp only [execLsEnable]
  split
  · exact .refused
  · exact canonicalRes_writeRow hs

theorem canonicalRes_execWEnable {cr : Cred} {w v : Nat} (hs : Canonical s) : CanonicalRes (execWEnable cr w v s) := by
  simp only [execWEnable]
  split
  · exact .refused
  · exact canonicalRes_writeRow hs

theorem canonicalRes_execQpSqTail {cr : Cred} {q v : Nat} (hs : Canonical s) : CanonicalRes (execQpSqTail cr q v s) := by
  simp only [execQpSqTail]
  split
  · exact .refused
  · exact canonicalRes_writeRow hs

theorem canonicalRes_execQpRqHead {cr : Cred} {q v : Nat} (hs : Canonical s) : CanonicalRes (execQpRqHead cr q v s) := by
  simp only [execQpRqHead]
  split
  · exact .refused
  · exact canonicalRes_writeRow hs

theorem canonicalRes_execAlertCause {cr : Cred} {v ended : Nat} (hs : Canonical s) : CanonicalRes (execAlertCause cr v ended s) :=
  canonicalRes_settleWrite (canonical_noteEnded hs) (fun _ hs' => canonical_alertCauseWrite hs')

theorem canonicalRes_execFwRecovery {img : FwImage} (hs : Canonical s) : CanonicalRes (execFwRecovery img s) := by
  simp only [execFwRecovery]
  split
  · exact .next ((canonicalOpt_recoverImage hs).of_some ‹_›)
  · exact .next (canonical_refuseAccess hs)

theorem canonicalRes_execObjectWrite {cr : Cred} {index sub ty : Nat} {val : List Byte} (hs : Canonical s) :
    CanonicalRes (execObjectWrite cr index sub ty val s) := by
  simp only [execObjectWrite]
  split
  · exact .refused
  · exact canonicalRes_writeRow hs

/-! ### The dictionary's protocol (ObjDict) -/

theorem canonical_setWindow {w : Window} (hs : Canonical s) : Canonical (setWindow s w) :=
  canonical_ite (canonical_putObj (canonical_with_odp hs) ..) (canonical_with_odp hs)

theorem canonical_sendBand {dst : Nat} {bytes : List Byte} (hs : Canonical s) : Canonical (sendBand s dst bytes) :=
  canonical_getD (canonicalOpt_sendFrame hs) hs

theorem canonical_sendOd {r : OdResp} (hs : Canonical s) : Canonical (sendOd s r) := canonical_ite (canonical_sendBand hs) (canonical_send hs _)

theorem canonical_authFails {f : OdFrame} (hs : Canonical s) : Canonical (authFails s f) :=
  canonical_ite (canonical_with_odp (canonical_addObj hs ..)) (canonical_sendOd (canonical_with_odp (canonical_with_odp (canonical_addObj hs ..))))

theorem canonical_finishFrame {f : OdFrame} {p : Performed} (hp : Canonical p.s) : Canonical (finishFrame f p) :=
  canonical_ite (canonical_ite hp (canonical_setWindow hp)) (canonical_sendOd (canonical_ite hp (canonical_setWindow hp)))

theorem canonical_refuseAll {reason : Nat} (hs : Canonical s) : Canonical (refuseAll s reason).s := canonical_refuseAccess hs

theorem canonical_anyPerformed {cr : Cred} {p : Performed} (hs : Canonical s) (hp : Canonical p.s) : Canonical (anyPerformed s cr p).s := by
  simp only [anyPerformed]
  split
  · exact canonical_unpredictable (canonical_useFree (canonical_with_free (canonical_ite hp hs)) _)
  · exact canonical_useFree (canonical_with_free (canonical_ite hp hs)) _

theorem canonical_refuseFrame {f : OdFrame} (hs : Canonical s) : Canonical (refuseFrame s f) := canonical_sendOd (canonical_refuseAccess hs)

theorem canonical_firmwareTakes {f : OdFrame} (hs : Canonical s) : Canonical (firmwareTakes s f).1 :=
  canonical_ite_fst hs (canonical_ite_fst (canonical_addObj (canonical_useFree hs _) ..)
    (canonical_with_odp (canonical_ite (canonical_useFree hs _) hs)))

theorem canonical_odArrives {f : OdFrame} (hs : Canonical s) : Canonical (odArrives s f).1 :=
  canonical_ite_fst hs (canonical_firmwareTakes (canonical_addObj hs ..))

theorem canonical_answerFrame {f : OdFrame} {k : State → Performed} (hs : Canonical s) (hk : ∀ s', Canonical s' → Canonical (k s').s) :
    Canonical (answerFrame s f k) := by
  simp only [answerFrame]
  split
  · exact canonical_refuseFrame hs
  split
  · exact canonical_authFails hs
  split
  · exact canonical_finishFrame (hk _ hs)
  split
  · exact canonical_authFails hs
  split
  · exact canonical_sendOd hs
  · exact canonical_ite (canonical_authFails hs) (canonical_finishFrame (hk _ (canonical_setWindow hs)))

theorem canonical_takeFrame {f : OdFrame} {odd : Bool} {k : State → Performed} (hs : Canonical s) (hk : ∀ s', Canonical s' → Canonical (k s').s) :
    Canonical (takeFrame f odd s k) := by
  simp only [takeFrame]
  split
  · exact (canonical_odArrives hs).of_pair ‹_›
  refine canonical_answerFrame ((canonical_odArrives hs).of_pair ‹_›) (fun _ hs' => ?_)
  split
  · exact canonical_anyPerformed hs' (hk _ hs')
  · exact hk _ hs'

theorem canonical_takeMalformed {f : OdFrame} (hs : Canonical s) : Canonical (takeMalformed f s) := by
  simp only [takeMalformed]
  split
  · exact (canonical_odArrives hs).of_pair ‹_›
  · exact canonical_refuseFrame ((canonical_odArrives hs).of_pair ‹_›)

theorem canonical_noteRevocations {ks : List Nat} (hs : Canonical s) : Canonical (noteRevocations s ks) :=
  canonical_foldl (fun _ _ hs' => canonical_addObj (canonical_useFree hs' _) ..) _ hs

theorem canonical_flushOnRead {cr : Cred} {ks : List Nat} (hs : Canonical s) : Canonical (flushOnRead s cr ks) :=
  canonical_ite (canonical_flushCounters hs) hs

theorem canonical_odRead {f : OdFrame} (hs : Canonical s) : Canonical (odRead f s) :=
  canonical_takeFrame hs (fun _ hs' => canonical_addObj (canonical_flushOnRead (canonical_noteRevocations hs')) ..)

theorem canonical_writeAll {cr : Cred} {alone : Bool} {l : List (List Byte × List Byte)} {n : Nat} (hs : Canonical s) :
    Canonical (writeAll cr alone l s n).1 := by
  induction l generalizing s n with
  | nil =>
    simp only [writeAll]
    exact hs
  | cons x l ih =>
    simp only [writeAll]
    split
    · exact canonical_refuseAccess ((canonical_writeEntry hs).of_pair ‹_›)
    · exact ih ((canonical_writeEntry hs).of_pair ‹_›)

theorem canonical_odWrite {f : OdFrame} (hs : Canonical s) : Canonical (odWrite f s) := by
  simp only [odWrite]
  refine canonical_takeFrame hs (fun _ hs' => ?_)
  split
  · exact canonical_refuseAll hs'
  · exact canonical_writeAll hs'

theorem canonical_takeSnapshot {k : Nat} {r : ObjRow} (hs : Canonical s) : Canonical (takeSnapshot s k r).1 := by
  simp only [takeSnapshot]
  split
  · exact canonical_ite_fst (canonical_harvest hs) hs
  · exact hs

theorem canonical_readSnapshot {cr : Cred} {k : Nat} {e data : List Byte} {len off : Nat} (hs : Canonical s) :
    Canonical (readSnapshot s cr k e data len off).s :=
  canonical_with_odp hs

theorem canonical_odBulkRead {f : OdFrame} (hs : Canonical s) : Canonical (odBulkRead f s) := by
  simp only [odBulkRead]
  refine canonical_takeFrame hs (fun _ hs' => ?_)
  split
  · exact canonical_refuseAll hs'
  split
  · exact canonical_refuseAll hs'
  split
  · exact canonical_refuseAll hs'
  split
  · split
    · exact canonical_readSnapshot hs'
    · exact canonical_refuseAll hs'
  split
  · exact canonical_refuseAll hs'
  · exact canonical_readSnapshot (canonical_takeSnapshot (canonical_flushOnRead hs'))

theorem canonical_putBuffer {cr : Cred} {b : Option BulkBuf} (hs : Canonical s) : Canonical (putBuffer s cr b) := canonical_with_odp hs

theorem canonical_finishBulk {cr : Cred} {k ty : Nat} {data : List Byte} {img : FwImage} (hs : Canonical s) :
    Canonical (finishBulk s cr k ty data img).1 := by
  simp only [finishBulk]
  split
  · split
    · exact (canonicalOpt_recoverImage hs).of_some ‹_›
    · exact hs
  · exact canonical_ite_fst hs (canonical_writeEntry hs)

theorem canonical_odBulkWrite {f : OdFrame} {img : FwImage} (hs : Canonical s) : Canonical (odBulkWrite f img s) := by
  simp only [odBulkWrite]
  refine canonical_takeFrame hs (fun _ hs' => ?_)
  split
  · exact canonical_refuseAll hs'
  split
  · exact canonical_refuseAll hs'
  split
  · exact canonical_refuseAll hs'
  split
  · exact canonical_refuseAll hs'
  split
  · exact canonical_refuseAll (canonical_putBuffer hs')
  split
  · exact canonical_putBuffer hs'
  split
  · exact canonical_refuseAll (canonical_putBuffer hs')
  split
  · exact (canonical_finishBulk (canonical_putBuffer hs')).of_pair ‹_›
  · exact canonical_refuseAll ((canonical_finishBulk (canonical_putBuffer hs')).of_pair ‹_›)

theorem canonicalRes_execSnapshotExpiry {cr : Cred} {key : Nat} (hs : Canonical s) : CanonicalRes (execSnapshotExpiry cr key s) :=
  canonicalRes_onlyIf hs (.next (canonical_with_odp hs))

theorem canonicalRes_execBulkBufferExpiry {cr : Cred} (hs : Canonical s) : CanonicalRes (execBulkBufferExpiry cr s) :=
  canonicalRes_onlyIf hs (.next (canonical_putBuffer hs))

theorem canonical_putSubs {subs : List Subscription} (hs : Canonical s) : Canonical (putSubs s subs) := canonical_putObj (canonical_with_odp hs) ..

theorem canonical_odSubscribe {f : OdFrame} (hs : Canonical s) : Canonical (odSubscribe f s) := by
  simp only [odSubscribe]
  refine canonical_takeFrame hs (fun _ hs' => ?_)
  split
  · exact canonical_refuseAll hs'
  split
  · exact canonical_refuseAll hs'
  split
  · exact canonical_refuseAll hs'
  split
  · exact canonical_refuseAll hs'
  · exact canonical_putSubs hs'

theorem canonical_odUnsubscribe {f : OdFrame} (hs : Canonical s) : Canonical (odUnsubscribe f s) := by
  simp only [odUnsubscribe]
  refine canonical_takeFrame hs (fun _ hs' => ?_)
  split
  · exact canonical_refuseAll hs'
  split
  · exact canonical_refuseAll hs'
  split
  · exact canonical_refuseAll hs'
  · exact canonical_putSubs hs'

theorem canonical_sendNotify {x : Subscription} {ty : Nat} {value : List Byte} (hs : Canonical s) : Canonical (sendNotify s x ty value) :=
  canonical_ite (canonical_sendBand hs) (canonical_send hs _)

theorem canonicalRes_execOdNotify {sub : Nat} (hs : Canonical s) : CanonicalRes (execOdNotify sub s) := by
  simp only [execOdNotify]
  refine canonicalRes_withSome hs (fun _ => ?_)
  split
  · exact .refused
  split
  · exact .next (canonical_noteRevocations hs)
  split
  · exact .next (canonical_noteRevocations hs)
  · exact .next (canonical_sendNotify (canonical_addObj (canonical_addObj (canonical_putSubs
      (canonical_ite (canonical_noteRevocations hs) (canonical_useFree (canonical_noteRevocations hs) _))) ..) ..))

theorem canonicalRes_execStoredCounterFlush (hs : Canonical s) : CanonicalRes (execStoredCounterFlush s) :=
  canonicalRes_onlyIf hs (.next (canonical_with_odp (canonical_flushCounters hs)))

/-! ### Numbered frames as they arrive (Frames) -/

theorem canonical_odPerform {x : Nat × OdFrame × FwImage} (hs : Canonical s) : Canonical (odPerform s x) := by
  simp only [odPerform]
  split
  · exact canonical_odRead hs
  · exact canonical_odWrite hs
  · exact canonical_odBulkRead hs
  · exact canonical_odBulkWrite hs
  · exact canonical_odSubscribe hs
  · exact canonical_odUnsubscribe hs
  · exact canonical_takeMalformed hs

theorem canonical_drainAll {no n : Nat} {l : List FrameFor} (hs : Canonical s) : Canonical (drainAll no n s l).1 := by
  induction n generalizing s l with
  | zero =>
    simp only [drainAll]
    exact hs
  | succ n ih =>
    simp only [drainAll]
    split
    · split
      · exact ih (canonical_pathNext (canonical_odPerform (canonical_drainPath hs)))
      · exact canonical_drainPath hs
    · exact canonical_drainPath hs

theorem canonicalRes_recvSent {q : Nat} {x : Sent} (hs : Canonical s) : CanonicalRes (recvSent q x s) := by
  unfold recvSent
  extract_lets +onlyGivenNames f
  refine canonicalRes_onlyIf hs ?_
  extract_lets +onlyGivenNames s0
  have checked : Canonical (linkCheck s0 q f).1 := canonical_linkCheck (canonical_noteFrame hs)
  split
  · next is => exact .next (checked.of_pair is)
  · next is =>
    have ht := checked.of_pair is
    split
    · exact .next ht
    · split
      · exact .next ht
      · next opened =>
        have hu := (canonicalOptPair_peerPath ht).of_some opened
        extract_lets +onlyGivenNames d
        split
        · exact .next (canonical_ite (canonical_ackNow (canonical_setPath hu)) (canonical_setPath hu))
        · split
          · exact .next hu
          · extract_lets +onlyGivenNames held s1
            have h1 : Canonical s1 := canonical_setPath hu
            split
            · extract_lets +onlyGivenNames s2
              have h2 : Canonical s2 := canonical_ite h1 (canonical_sendAck (canonical_setPath h1))
              exact .next (canonical_ite (canonical_ackNow h2) h2)
            · split
              next drained =>
              have h2 := (canonical_drainAll h1).of_pair drained
              exact canonicalRes_advanceAll (canonical_ite (canonical_ackNow h2) h2)

theorem canonicalRes_recvFrame {ty q : Nat} {f : TFrame} (hs : Canonical s) : CanonicalRes (recvFrame ty q f s) := canonicalRes_recvSent hs

theorem canonicalRes_recvOd {n : Nat} {f : OdFrame} {img : FwImage} (hs : Canonical s) : CanonicalRes (recvOd n f img s) := by
  simp only [recvOd]
  split
  · exact .next (canonical_odPerform hs)
  · exact canonicalRes_recvSent hs

theorem canonicalRes_recvOp {op : Nat} {f : OdFrame} {img : FwImage} (hs : Canonical s) : CanonicalRes (recvOp op f img s) := by
  simp only [recvOp]
  split
  · exact .refused
  · exact canonicalRes_recvOd hs

theorem canonicalRes_execOdMalformedFrame {f : OdFrame} (hs : Canonical s) : CanonicalRes (execOdMalformedFrame f s) := by
  simp only [execOdMalformedFrame]
  split
  · exact .refused
  · exact canonicalRes_recvOd hs

theorem canonicalRes_execAckTimer {path : Nat} (hs : Canonical s) : CanonicalRes (execAckTimer path s) := by
  simp only [execAckTimer]
  exact canonicalRes_withSome hs (fun _ => canonicalRes_onlyIf (canonical_drainAll hs)
    (canonicalRes_advanceAll (canonical_ite (canonical_ackNow (canonical_drainAll hs)) (canonical_drainAll hs))))

end Sys2Proof.Machine
end

section
/-! SUPPORT. Canonical forms kept by lanes and scalars (R90, R91, R122, R123, R142): one fact for each operation, in the order of the model. -/

namespace Sys2Proof.Machine

variable {s t : State}

/-! ### Shuffles, votes and predicates (Lane) -/

theorem canonicalRes_shuffle {op : Nat} {g : GroupRef} {w : Word64} {src : Nat → Nat → Nat} (hs : Canonical s) :
    CanonicalRes (shuffle op g w s src) :=
  canonicalRes_runInstr hs (fun _ _ hs' => .step hs')

theorem canonicalRes_vote {op : Nat} {g : GroupRef} {w : Word64} {f : Group → LaneMask → Bool} (hs : Canonical s) : CanonicalRes (vote op g w s f) :=
  canonicalRes_runInstr hs (fun _ _ hs' => .step hs')

theorem canonicalRes_execVoteBallot {g : GroupRef} {w : Word64} (hs : Canonical s) : CanonicalRes (execVoteBallot g w s) :=
  canonicalRes_runInstr hs (fun _ _ hs' => .step hs')

theorem canonicalRes_predOp {op : Nat} {g : GroupRef} {w : Word64} {f : LaneMask → LaneMask → LaneMask} (hs : Canonical s) :
    CanonicalRes (predOp op g w s f) :=
  canonicalRes_runInstr hs (fun _ _ hs' => .step hs')

/-! ### The scalar class (Scalar) -/

theorem canonicalRes_scalarOp {ops : List Nat} {g : GroupRef} {w : Word64} {f : Word64 → Word64 → Word64} (hs : Canonical s) :
    CanonicalRes (scalarOp ops s g w f) :=
  canonicalRes_runInstr hs (fun _ _ hs' => .step hs')

theorem canonicalRes_execSclCmp {g : GroupRef} {w : Word64} (hs : Canonical s) : CanonicalRes (execSclCmp g w s) :=
  canonicalRes_runInstr hs (fun _ _ hs' => .step hs')

theorem canonicalRes_execSclMovi {g : GroupRef} {w : Word64} (hs : Canonical s) : CanonicalRes (execSclMovi g w s) :=
  canonicalRes_runInstr hs (fun _ _ hs' => .step hs')

theorem canonicalRes_execSclMovhi {g : GroupRef} {w : Word64} (hs : Canonical s) : CanonicalRes (execSclMovhi g w s) :=
  canonicalRes_runInstr hs (fun _ _ hs' => .step hs')

end Sys2Proof.Machine
end

section
/-! SUPPORT. Proof that every step keeps the canonical forms (logs 1 and 4): each command does, and so does a nanosecond. -/

namespace Sys2Proof.Machine

variable {s : State}

/-- Every command keeps the forms, in the order of the dispatch: those of one class by the operation that they share. -/
theorem canonicalRes_exec (hs : Canonical s) (i : Instr) : CanonicalRes (exec i s) := by
  simp only [exec]
  split
  iterate 14 exact canonicalRes_scalarOp hs
  · exact canonicalRes_execSclCmp hs
  · exact canonicalRes_execSclMovi hs
  · exact canonicalRes_execSclMovhi hs
  iterate 10 exact canonicalRes_vectorOp hs
  · exact canonicalRes_execCvt hs
  iterate 10 exact canonicalRes_vectorOp hs
  · exact canonicalRes_execCmp hs
  iterate 3 exact canonicalRes_vectorOp hs
  · exact canonicalRes_execMovVs hs
  · exact canonicalRes_vectorOp hs
  · exact canonicalRes_execIllegalInstruction hs
  · exact canonicalRes_execLd hs
  · exact canonicalRes_execSt hs
  iterate 4 exact canonicalRes_storeConverted hs
  · exact canonicalRes_atomicOp hs
  · exact canonicalRes_atomicTrap hs
  iterate 9 exact canonicalRes_atomicOp hs
  · exact canonicalRes_execLockAcq hs
  · exact canonicalRes_execLockRel hs
  · exact canonicalRes_execFence hs
  · exact canonicalRes_execDiscard hs
  · exact canonicalRes_execPinLlc hs
  · exact canonicalRes_execUnpinLlc hs
  · exact canonicalRes_execPfDev hs
  · exact canonicalRes_execIdGet hs
  · exact canonicalRes_execTimeGet hs
  · exact canonicalRes_execTickGet hs
  · exact canonicalRes_execNop hs
  · exact canonicalRes_execBr hs
  · exact canonicalRes_execBrP hs
  · exact canonicalRes_execCall hs
  · exact canonicalRes_execRet hs
  · exact canonicalRes_execJmpS hs
  · exact canonicalRes_execExitLanes hs
  · exact canonicalRes_execPause hs
  · exact canonicalRes_execPauseExpiry hs
  · exact canonicalRes_execBarGang hs
  iterate 4 exact canonicalRes_shuffle hs
  iterate 3 exact canonicalRes_vote hs
  · exact canonicalRes_execVoteBallot hs
  iterate 4 exact canonicalRes_predOp hs
  · exact canonicalRes_execStkStart hs
  · exact canonicalRes_takeWith hs
  · exact canonicalRes_takeWith hs
  · exact canonicalRes_execStkGive hs
  · exact canonicalRes_execStkStop hs
  · exact canonicalRes_execStkWait hs
  · exact canonicalRes_execStokerSlotFilled hs
  · exact canonicalRes_execStokerSlotStored hs
  iterate 4 exact canonicalRes_matrixIssue hs
  · exact canonicalRes_execMatrixQueueExecute hs
  · exact canonicalRes_execFaultReport hs
  · exact canonicalRes_execLaunchKill hs
  · exact canonicalRes_execWatchdogNoRetire hs
  · exact canonicalRes_execWatchdogLimit hs
  · exact canonicalRes_execCoreHang hs
  · exact canonicalRes_execRowSelfTest hs
  · exact canonicalRes_execLaunchComplete hs
  · exact canonicalRes_execLaunchCmd hs
  · exact canonicalRes_execCopyCmd hs
  · exact canonicalRes_execFillCmd hs
  · exact canonicalRes_execInlineWrite hs
  · exact canonicalRes_execWaitCmd hs
  · exact canonicalRes_execWaitReevaluate hs
  · exact canonicalRes_execSignalCmd hs
  · exact canonicalRes_execFenceCmd hs
  · exact canonicalRes_execBankCmd hs
  · exact canonicalRes_execMeasuredLoad hs
  · exact canonicalRes_execMixCmd hs
  · exact canonicalRes_execReservedCommand hs
  · exact canonicalRes_execDonate hs
  · exact canonicalRes_execReclaim hs
  · exact canonicalRes_execAlloc hs
  · exact canonicalRes_execRefEntry hs
  · exact canonicalRes_execFreeEntry hs
  · exact canonicalRes_execQueryEntry hs
  · exact canonicalRes_execSetEntry hs
  · exact canonicalRes_execLayoutCmd hs
  iterate 3 exact canonicalRes_moveOp hs
  · exact canonicalRes_execContextBlockTransaction hs
  iterate 7 exact canonicalRes_collective hs
  · exact canonicalRes_execCollectiveStepStart hs
  · exact canonicalRes_execCollectiveWaitExpiry hs
  · exact canonicalRes_execCommandFetch hs
  · exact canonicalRes_execDispatch hs
  · exact canonicalRes_execTickBoundary hs
  · exact canonicalRes_execGranuleBoundary hs
  · exact canonicalRes_execSaveComplete hs
  · exact canonicalRes_execRestoreComplete hs
  · exact canonicalRes_execOverrunStop hs
  · exact canonicalRes_execVoteClose hs
  iterate 4 exact canonicalRes_recvDraft hs
  · exact canonicalRes_execAlignExchange hs
  · exact canonicalRes_recvDraft hs
  · exact canonicalRes_recvDraft hs
  · exact canonicalRes_execParityUpdateComplete hs
  iterate 6 exact canonicalRes_recvDraft hs
  · exact canonicalRes_execDraftNakRetry hs
  · exact canonicalRes_execNeighbourLoss hs
  · exact canonicalRes_execHoldoverExpiry hs
  iterate 3 exact canonicalRes_recvFrame hs
  · exact canonicalRes_execAckFrame hs
  · exact canonicalRes_execNakFrame hs
  · exact canonicalRes_recvFrame hs
  · exact canonicalRes_recvFrame hs
  · exact canonicalRes_execLinkAck hs
  · exact canonicalRes_execLinkNak hs
  · exact canonicalRes_execLinkAckTimer hs
  · exact canonicalRes_execFrameForward hs
  · exact canonicalRes_execAckTimer hs
  · exact canonicalRes_execRetransmitTimeout hs
  · exact canonicalRes_execTransportTimeout hs
  · exact canonicalRes_execEceRecovery hs
  · exact canonicalRes_execPathContextFree hs
  · exact canonicalRes_execWcIdleSend hs
  · exact canonicalRes_execRoceSend hs
  · exact canonicalRes_execRdmaWrite hs
  · exact canonicalRes_execRdmaRead hs
  · exact canonicalRes_execRoceAcknowledge hs
  · exact canonicalRes_execCnp hs
  · exact canonicalRes_execRoceUnsupportedOpcode hs
  · exact canonicalRes_execPortDown hs
  · exact canonicalRes_execRouteRecompute hs
  · exact canonicalRes_execPortUp hs
  · exact canonicalRes_execJoinedEntry hs
  iterate 3 exact canonicalRes_dirRequest hs
  · exact canonicalRes_execWbk hs
  · exact canonicalRes_execDropLine hs
  · exact canonicalRes_execForwardLine hs
  · exact canonicalRes_execInvalidation hs
  · exact canonicalRes_execFillDataArrival hs
  · exact canonicalRes_execWritebackLands hs
  · exact canonicalRes_execLinkFreeze hs
  · exact canonicalRes_execDieLinkRetrain hs
  · exact canonicalRes_execChFreeze hs
  · exact canonicalRes_execCorrectedError hs
  · exact canonicalRes_execUncorrectableError hs
  · exact canonicalRes_execPatrolScrub hs
  · exact canonicalRes_execCxlLinkFail hs
  · exact canonicalRes_execTieringMoveComplete hs
  · exact canonicalRes_execHeatDecay hs
  · exact canonicalRes_execBeforeImageCopy hs
  · exact canonicalRes_execRollbackDetect hs
  · exact canonicalRes_execRestoreCompleteRollback hs
  · exact canonicalRes_execRejoinWaitExpiry hs
  · exact canonicalRes_execMaintenancePoint hs
  iterate 6 exact canonicalRes_requestOp hs
  · exact canonicalRes_execQuiesceLimitExpiry hs
  · exact canonicalRes_execQuietReached hs
  · exact canonicalRes_requestOp hs
  · exact canonicalRes_requestOp hs
  · exact canonicalRes_execScrubEnd hs
  · exact canonicalRes_execMigLogHarvest hs
  · exact canonicalRes_execMigEnable hs
  · exact canonicalRes_execAttestNonce hs
  · exact canonicalRes_execDevAttestNonce hs
  · exact canonicalRes_execSpdmRequest hs
  · exact canonicalRes_execArbAdvance hs
  · exact canonicalRes_execMgrKey hs
  · exact canonicalRes_execDoorbell hs
  · exact canonicalRes_execComplHead hs
  · exact canonicalRes_execChEnable hs
  · exact canonicalRes_writeRow hs
  · exact canonicalRes_execLsEnable hs
  · exact canonicalRes_execWEnable hs
  · exact canonicalRes_execQpSqTail hs
  · exact canonicalRes_execQpRqHead hs
  · exact canonicalRes_execAlertCause hs
  · exact canonicalRes_writeRow hs
  · exact canonicalRes_execFwRecovery hs
  · exact canonicalRes_execObjectWrite hs
  iterate 6 exact canonicalRes_recvOp hs
  · exact canonicalRes_execOdNotify hs
  · exact canonicalRes_execOdMalformedFrame hs
  · exact canonicalRes_execSnapshotExpiry hs
  · exact canonicalRes_execBulkBufferExpiry hs
  · exact canonicalRes_execStoredCounterFlush hs
  · exact canonicalRes_execCpEnable hs
  · exact canonicalRes_execCpNegotiationComplete hs
  · exact canonicalRes_execSsEnable hs
  · exact canonicalRes_execCpRd hs
  · exact canonicalRes_execCpRdo hs
  · exact canonicalRes_execCpWr hs
  · exact canonicalRes_execCpAtom hs
  · exact canonicalRes_execCpWbk hs
  · exact canonicalRes_execCpDrop hs
  · exact canonicalRes_snoopAnswer hs
  · exact canonicalRes_snoopAnswer hs
  · exact canonicalRes_execSnoopTimeout hs
  · exact canonicalRes_execDamperWindow hs
  · exact canonicalRes_execDamperTrim hs
  · exact canonicalRes_execEnergyUpdate hs
  · exact canonicalRes_execPointChangeComplete hs
  · exact canonicalRes_execThermalTrip hs
  · exact canonicalRes_execDroopOnset hs
  · exact canonicalRes_execDroopRecovery hs
  · exact canonicalRes_execDomain87Up hs
  · exact canonicalRes_execInputBelow18v hs
  · exact canonicalRes_execPresentNClose hs
  · exact canonicalRes_execPresentNOpen hs
  · exact canonicalRes_execInrushStart hs
  · exact canonicalRes_execInrushComplete hs
  · exact canonicalRes_execPowerGood hs
  · exact canonicalRes_execUndervoltage hs
  · exact canonicalRes_execOvervoltage hs
  · exact canonicalRes_execOvervoltageRecovery hs
  · exact canonicalRes_execInputOvercurrent hs
  · exact canonicalRes_execOvercurrentReclose hs
  · exact canonicalRes_execAux12Short hs
  · exact canonicalRes_execAux12Retry hs
  · exact canonicalRes_execEnableChange hs
  · exact canonicalRes_execVsenseCheck hs
  · exact canonicalRes_execLeakDetect hs
  · exact canonicalRes_execCoolTachLow hs
  · exact canonicalRes_execPlateOverLimit hs
  · exact canonicalRes_execMgmtLinkDown hs
  · exact canonicalRes_execBoot hs
  · exact canonicalRes_execReadyLocal hs
  · exact canonicalRes_execDieLinkReturn hs
  · exact canonicalRes_execMapOutComplete hs
  · exact canonicalRes_execSpareReplacementComplete hs
  · exact canonicalRes_execTierZeroingComplete hs
  · exact canonicalRes_execMgmtLinkUp hs
  · exact canonicalRes_execPtpMessage hs
  · exact canonicalRes_execNeighbourDiscoveryMessage hs
  · exact canonicalRes_execPfcFrame hs
  · exact canonicalRes_execTransportReservedType hs

/-- The step of the queue's front, or of the nanosecond where the queue is empty. -/
theorem canonicalRes_step (hs : Canonical s) : CanonicalRes (step s) := by
  cases queue : s.pending with
  | nil =>
    rw [step_of_pending_nil queue]
    exact .next (canonical_passTime hs)
  | cons i rest =>
    rw [show step s = exec i { s with pending := rest } by simp only [step, queue]]
    exact canonicalRes_exec (canonical_with_pending hs) i

/-- Settles O60 (logs 1, 4 and 73): every answer of a command holds canonical states only, so the state that a step goes on with is one. -/
theorem stepsKeepCanonicalForm : Obligations.StepsKeepCanonicalForm := by
  unfold Obligations.StepsKeepCanonicalForm
  intro s t hs goes
  exact (canonicalRes_step hs).of_next goes

end Sys2Proof.Machine
end

section
/-! SUPPORT. Proofs of CONTEXT_MAP (R208, R215, R217, R219): how the elements of an ember-store command go on one after another, and the
statement on DONATE, RECLAIM and LAYOUT. -/

namespace Sys2Proof.Machine

variable {s t : State} {r : CmdRef} {c : Cmd} {n : Nat}

/-! ### Channels that the context map and the pools leave -/

@[simp] theorem recount_chans (s : State) (n : Nat) : (recount s n).chans = s.chans :=
  foldl_leaves (·.chans) (fun _ _ => rfl) (List.range 3) _

@[simp] theorem putEntry_chans (s : State) (n h : Nat) (e : CtxEntry) : (putEntry s n h e).chans = s.chans := recount_chans _ n

@[simp] theorem mapLookup_chans (s : State) : (mapLookup s).chans = s.chans := rfl

@[simp] theorem emWrite_chans (s : State) (n : Nat) (c : Cmd) (a : Nat) (bs : List Byte) : (emWrite s n c a bs).chans = s.chans :=
  chans_of_chansNet (chansNet_writeRunAs ..)

theorem donateGo_chans {k va : Nat} (whole : donateGo n k va s = some t) : t.chans = s.chans := by
  induction k generalizing s va with
  | zero => cases whole; rfl
  | succ k ih =>
    simp only [donateGo] at whole
    split at whole
    · cases whole
    · exact (ih whole).trans rfl

theorem reclaimGo_chans {k va : Nat} (whole : reclaimGo n k va s = some t) : t.chans = s.chans := by
  induction k generalizing s va with
  | zero => cases whole; rfl
  | succ k ih =>
    simp only [reclaimGo] at whole
    split at whole
    · cases whole
    · split at whole
      · cases whole
      · exact (ih whole).trans rfl

theorem handleAt_chans {h : Nat} (read : handleAt s n c = .ok (t, h)) : t.chans = s.chans := by
  simp only [handleAt, emRead] at read
  split at read
  · cases read
  · next got => cases read; exact chans_of_chansNet (chansNet_readRunAs got)

/-! ### A command's elements, one after another (R218, R219, R222, R287) -/

/-- A command ends with the elements that it has done, and its slice's next automatic move may start. -/
def elemEnd (s : State) (ch : Nat) (c : Cmd) (st : Nat) : State :=
  startMoves (endCmd s ch c { status := st, bytes := c.done }) (chSliceOf s ch)

/-- The command as it stands after an element, one more done. -/
def oneMore (s : State) (ch : Nat) (c : Cmd) : Cmd :=
  { (findFlight (served s (.cmd ch c.seq)) ch c.seq).getD c with done := c.done + 1 }

/-- The state after an element: the requests of the command are served, and one more element of it is done. -/
def elemDone (s : State) (ch : Nat) (c : Cmd) : State := putFlight (served s (.cmd ch c.seq)) ch (oneMore s ch c)

theorem findFlight_served (s : State) (a : Asker) (ch seq : Nat) : findFlight (served s a) ch seq = findFlight s ch seq :=
  findFlight_of_chans (served_chans s a) ch seq

theorem oneMore_of_chans {ch : Nat} (found : findFlight s ch c.seq = some c) (same : t.chans = s.chans) :
    oneMore t ch c = { c with done := c.done + 1 } := by
  rw [oneMore, findFlight_served, findFlight_of_chans same, found, Option.getD_some]

section Go

variable {ch total : Nat} {f : Cmd → State → Elem} (fuel : Nat)

theorem elemGo_finished (all : total ≤ c.done) : elemGo ch f total (fuel + 1) c s = .next (elemEnd s ch c stOk) := by
  rw [elemGo, if_pos all]
  rfl

theorem elemGo_ok (more : c.done < total) (ok : f c s = .ok t) :
    elemGo ch f total (fuel + 1) c s = elemGo ch f total fuel (oneMore t ch c) (elemDone t ch c) := by
  rw [elemGo, if_neg more.not_ge, ok]
  rfl

theorem elemGo_refused (more : c.done < total) (no : f c s = .refused t) :
    elemGo ch f total (fuel + 1) c s = .next (elemEnd t ch c (if c.done = 0 then stRefused else stPartial)) := by
  rw [elemGo, if_neg more.not_ge, no]
  rfl

theorem elemGo_stop {e : Stop} (more : c.done < total) (stop : f c s = .stop e) :
    elemGo ch f total (fuel + 1) c s = cmdStop s ch c c.done e := by
  rw [elemGo, if_neg more.not_ge, stop]

/-- The last element of a command ends it. -/
theorem elemGo_last (last : c.done + 1 = total) (ok : f c s = .ok t) :
    elemGo ch f total (fuel + 2) c s = .next (elemEnd (elemDone t ch c) ch (oneMore t ch c) stOk) := by
  rw [elemGo_ok _ (by omega) ok]
  exact elemGo_finished fuel (show total ≤ c.done + 1 by omega)

theorem elemOne_last (last : c.done + 1 = total) (ok : f c s = .ok t) :
    elemOne ch f total c s = .next (elemEnd (elemDone t ch c) ch (oneMore t ch c) stOk) := by
  have done : total ≤ (oneMore t ch c).done := show total ≤ c.done + 1 by omega
  simp only [elemOne, ok]
  exact (if_pos done).trans (elemGo_finished 0 done)

theorem elemOne_more (more : c.done + 1 < total) (ok : f c s = .ok t) : elemOne ch f total c s = .next (elemDone t ch c) := by
  simp only [elemOne, ok]
  exact if_neg more.not_ge

theorem elemOne_refused (more : c.done < total) (no : f c s = .refused t) :
    elemOne ch f total c s = .next (elemEnd t ch c (if c.done = 0 then stRefused else stPartial)) := by
  simp only [elemOne, no]
  exact elemGo_refused 0 more no

theorem elemOne_stop {e : Stop} (more : c.done < total) (stop : f c s = .stop e) : elemOne ch f total c s = cmdStop s ch c c.done e := by
  simp only [elemOne, stop]
  exact elemGo_stop 0 more stop

end Go

theorem withCmd_of_running {ops : List Nat} (run : Running s r ops c) (f : Cmd → Res) : withCmd ops r s f = f c := by
  obtain ⟨found, kind, open_⟩ := run
  simp only [withCmd, found, withSome_some, open_, List.contains_iff_mem.2 kind, Bool.not_true, Bool.false_eq_true, if_false]

theorem running_found {ops : List Nat} (run : Running s r ops c) : findFlight s r.ch c.seq = some c := by
  obtain ⟨found, -, -⟩ := run
  rw [findFlight_seq found, found]

/-! ### DONATE, RECLAIM and LAYOUT (R208, R215, R217, R219) -/

theorem mapOp_eq {op : Nat} (run : Running s r [0x09] c) (good : mapBad c = false) (kind : emOp c = op) (total : Cmd → Nat)
    (f : Cmd → State → Elem) : mapOp op r s total f = elemGo r.ch f (total c) (total c + 1 - c.done) c s := by
  simp [mapOp, withCmd_of_running run, good, kind]

section Whole

variable {op : Nat} {f : Cmd → State → Elem} (run : Running s r [0x09] c) (good : mapBad c = false) (first : c.done = 0) (kind : emOp c = op)

include run good first kind

/-- An operation that counts 1 in BYTES (log 43) is refused with nothing changed. -/
theorem mapOp_whole_refused (no : f c s = .refused s) : mapOp op r s (fun _ => 1) f = .next (elemEnd s r.ch c stRefused) := by
  rw [mapOp_eq run good kind, first, elemGo_refused 1 (by omega) no, if_pos first]

/-- An operation that counts 1 in BYTES (log 43) has its effect whole and ends. -/
theorem mapOp_whole (ok : f c s = .ok t) (chans : t.chans = s.chans) :
    mapOp op r s (fun _ => 1) f =
      .next (elemEnd (putFlight (served t (.cmd r.ch c.seq)) r.ch { c with done := 1 }) r.ch { c with done := 1 } stOk) := by
  have one : oneMore t r.ch c = { c with done := 1 } := by rw [oneMore_of_chans (running_found run) chans, first]
  rw [mapOp_eq run good kind, first, elemGo_last 0 (by omega) ok, elemDone, one]

end Whole

/-- Whether a LAYOUT is refused its word `w`: an entry in use has the layout, or the word's fields allow no block (R208, R219). -/
def layoutRefused (s : State) (n w : Nat) (c : Cmd) : Bool :=
  ((s.slice n).entries.any fun p => p.2.state != 0 && p.2.layout == cmLayout c) || decide (256 < loHeads w) ||
    (loHeads w != 0 && (loKfmt w == 0 || loVfmt w == 0))

/-- The one element of a LAYOUT with the word `w`. -/
def layoutElem (n w : Nat) (c : Cmd) (s : State) : Elem :=
  if layoutRefused s n w c then .refused s else .ok (s.putObj (Obj.layout n (cmLayout c)) (w % 2 ^ 17))

theorem exec_layoutCmd (run : Running s r [0x09] c) (clean : loHeads (emArg c % 2 ^ 32) = 0 ∨ emArg c % 2 ^ 32 < 2 ^ 17) :
    exec (.layoutCmd r) s = mapOp 7 r s (fun _ => 1) (layoutElem (chSliceOf s r.ch) (emArg c % 2 ^ 32)) := by
  have unreserved : ¬ (emOp c = 7 ∧ loHeads (emArg c % 2 ^ 32) ≠ 0 ∧ emArg c % 2 ^ 32 / 2 ^ 17 ≠ 0) := by
    rintro ⟨-, heads, reserved⟩
    exact reserved (Nat.div_eq_of_lt (clean.resolve_left heads))
  refine (withCmd_of_running run _).trans ?_
  simp only [if_neg unreserved]
  rfl

theorem layoutRefused_iff {w : Nat} : layoutRefused s n w c = true ↔
    (s.slice n).entries.any (fun p => p.2.state != 0 && p.2.layout == cmLayout c) = true ∨ 256 < loHeads w ∨
      (loHeads w ≠ 0 ∧ (loKfmt w = 0 ∨ loVfmt w = 0)) := by
  simp only [layoutRefused, Bool.or_eq_true, Bool.and_eq_true, decide_eq_true_eq, bne_iff_ne, beq_iff_eq, or_assoc]

/-- The one element of a DONATE or a RECLAIM, whose pages `go` takes. -/
def rangeElem (go : Nat → Nat → Nat → State → Option State) (n : Nat) (c : Cmd) (s : State) : Elem :=
  match (if pageRange c then go n (emArg c / 2 ^ 21) (emList c) s else none) with
  | some s' => .ok (recount s' n)
  | none => .refused s

theorem exec_donate (r : CmdRef) (s : State) :
    exec (.donate r) s = mapOp 0 r s (fun _ => 1) (rangeElem donateGo (chSliceOf s r.ch)) := rfl

theorem exec_reclaim (r : CmdRef) (s : State) :
    exec (.reclaim r) s = mapOp 1 r s (fun _ => 1) (rangeElem reclaimGo (chSliceOf s r.ch)) := rfl

section Range

variable {go : Nat → Nat → Nat → State → Option State}

theorem rangeElem_ragged (ragged : pageRange c = false) : rangeElem go n c s = .refused s := by
  rw [rangeElem, if_neg (Bool.eq_false_iff.1 ragged)]

theorem rangeElem_none (pages : pageRange c = true) (no : go n (emArg c / 2 ^ 21) (emList c) s = none) :
    rangeElem go n c s = .refused s := by
  rw [rangeElem, if_pos pages, no]

theorem rangeElem_some (pages : pageRange c = true) (whole : go n (emArg c / 2 ^ 21) (emList c) s = some t) :
    rangeElem go n c s = .ok (recount t n) := by
  rw [rangeElem, if_pos pages, whole]

end Range

/-- Settles O40: each of the three has one element, so that its command has done none or the whole of it (log 43). -/
theorem contextMapWholeRanges : Obligations.ContextMapWholeRanges := by
  unfold Obligations.ContextMapWholeRanges
  intro s r c run good first n ends one does refuses w live
  have refused {i : Instr} {op : Nat} {f : Cmd → State → Elem} (is : exec i s = mapOp op r s (fun _ => 1) f)
      (no : f c s = .refused s) : refuses i op := fun kind => is.trans (mapOp_whole_refused run good first kind no)
  have whole {i : Instr} {op : Nat} {f : Cmd → State → Elem} {t : State} (is : exec i s = mapOp op r s (fun _ => 1) f)
      (ok : f c s = .ok t) (chans : t.chans = s.chans) : does i op t := fun kind => is.trans (mapOp_whole run good first kind ok chans)
  refine ⟨fun ragged => ⟨refused (exec_donate r s) (rangeElem_ragged ragged), refused (exec_reclaim r s) (rangeElem_ragged ragged)⟩,
    fun pages no => refused (exec_donate r s) (rangeElem_none pages no),
    fun pages t some_ => whole (exec_donate r s) (rangeElem_some pages some_) ((recount_chans t n).trans (donateGo_chans some_)),
    fun pages no => refused (exec_reclaim r s) (rangeElem_none pages no),
    fun pages t some_ => whole (exec_reclaim r s) (rangeElem_some pages some_) ((recount_chans t n).trans (reclaimGo_chans some_)),
    fun clean no => refused (exec_layoutCmd run clean) (if_pos (layoutRefused_iff.2 no)),
    fun clean unused few formats => whole (exec_layoutCmd run clean) (if_neg ?_) rfl⟩
  rw [layoutRefused_iff]
  rintro (used | many | ⟨heads, formatless⟩)
  · exact Bool.false_ne_true (unused.symm.trans used)
  · exact few.not_gt many
  · obtain ⟨k, v⟩ := formats.resolve_left heads
    exact formatless.elim k v

end Sys2Proof.Machine
end

section
/-! SUPPORT. Proofs of CONTEXT_MOVE (R211, R220 to R223, R225): what a block of each operation comes to, and the statement. -/

namespace Sys2Proof.Machine

variable {s t u : State} {r : CmdRef} {c : Cmd} {n : Nat}

/-! ### The elements of a CONTEXT_MOVE (R222) -/

section Move

variable (run : Running s r [0x0A] c) (good : moveBad s (chSliceOf s r.ch) c = false)

include run good

theorem moveOp_eq {op : Nat} (kind : emOp c = op) :
    moveOp op r s = elemGo r.ch (moveElem (chSliceOf s r.ch)) (emCount c) (emCount c + 1 - c.done) c s := by
  refine (withCmd_of_running run _).trans ?_
  rw [if_neg (Bool.eq_false_iff.1 good), if_neg (not_not_intro kind)]

theorem exec_contextBlockTransaction : exec (.contextBlockTransaction r) s =
    if emCount c ≤ c.done then elemGo r.ch (moveElem (chSliceOf s r.ch)) (emCount c) 1 c s
    else elemOne r.ch (moveElem (chSliceOf s r.ch)) (emCount c) c s :=
  (withCmd_of_running run _).trans (if_neg (Bool.eq_false_iff.1 good))

/-- The three operations and the single block come to the same where they end the command, or stop it. -/
theorem exec_moveRows {out : Res} (whole : elemGo r.ch (moveElem (chSliceOf s r.ch)) (emCount c) (emCount c + 1 - c.done) c s = out)
    (one : exec (.contextBlockTransaction r) s = out) :
    ∀ p ∈ [(Instr.encode r, 0), (.decode r, 1), (.migrate r, 2), (.contextBlockTransaction r, emOp c)], emOp c = p.2 → exec p.1 s = out := by
  intro p row kind
  simp only [List.mem_cons, List.not_mem_nil, or_false] at row
  obtain rfl | rfl | rfl | rfl := row
  · exact (moveOp_eq run good kind).trans whole
  · exact (moveOp_eq run good kind).trans whole
  · exact (moveOp_eq run good kind).trans whole
  · exact one

end Move

/-! ### One block of a CONTEXT_MOVE (R211, R220 to R223, R225) -/

/-- A block whose handle `h` is read, leaving `u` after its look-up, that no other work on its entry holds back, and whose result can be
written. -/
structure BlockAt (s u : State) (n h : Nat) (c : Cmd) : Prop where
  looked : ∃ s', handleAt s n c = .ok (s', h) ∧ (moving s' n h || earlierOn s' n h c) = false ∧ u = mapLookup s'
  able : emSpan u n c (arrayAt (emResult c) 4 c.done) 4 = .ok ()

/-- The layout word of an entry's block. -/
abbrev blockWord (u : State) (n h : Nat) : Nat := layoutWord u n (ctxEntry u n h).layout

/-- The format in which an ENCODE stores a part of its block: the command's, or where it names none the layout's (Table 7.6). -/
abbrev askedOr (asked own : Nat) : Nat := if asked = 0 then own else asked

/-- What a block of an entry in use comes to, after its reads. -/
def blockResult (u : State) (n : Nat) (c : Cmd) : Except Stop (Except Unit (State × List Byte)) → Elem
  | .error x => .stop x
  | .ok (.error ()) => .refused (emWrite u n c (arrayAt (emResult c) 4 c.done) (toLe 4 0xFFFFFFFF))
  | .ok (.ok (t, bs)) => .ok (emWrite t n c (arrayAt (emResult c) 4 c.done) bs)

/-- New storage of an entry with no other reference takes the place of the old (R223, R224). -/
theorem storeBlock_alone {h : Nat} {e : CtxEntry} (alone : e.refs ≤ 1) (place : Nat × Nat) (kf vf valid : Nat) (bs : List Byte)
    {v v' : State} (written : v = writePa s n place.2 bs)
    (switched : v' = putEntry v n h { e with state := 2, tier := place.1, kfmt := kf, vfmt := vf, valid := valid, addr := place.2 }) :
    storeBlock s n h e place kf vf valid bs =
      .ok (if e.state = 2 then releaseStorage v' n e.addr (entryBytes v n e) e.tier else v', toLe 4 h) := by
  subst written switched
  simp only [storeBlock, switchEntry, if_neg alone.not_gt]

theorem copyBlocked_alone {e : CtxEntry} (alone : e.refs ≤ 1) : copyBlocked s n e = false := by
  simp only [copyBlocked, decide_eq_false alone.not_gt, Bool.false_and]

section Block

variable {h : Nat} (block : BlockAt s u n h c)

include block

theorem onBlock_eq (k : State → Nat → CtxEntry → Except Stop (Except Unit (State × List Byte))) : onBlock n c s k =
    if u.getObj (Obj.mapQuota n) ≤ h ∨ (ctxEntry u n h).state = 0 then blockResult u n c (.ok (.error ()))
    else blockResult u n c (k u h (ctxEntry u n h)) := by
  obtain ⟨⟨s', read, free, rfl⟩, able⟩ := block
  simp only [onBlock, read, free, Bool.false_eq_true, if_false, able]
  split_ifs
  · rfl
  · split <;> next got => rw [got]; rfl

theorem moveElem_unused (unused : u.getObj (Obj.mapQuota n) ≤ h ∨ (ctxEntry u n h).state = 0) :
    moveElem n c s = blockResult u n c (.ok (.error ())) := by
  unfold moveElem
  split_ifs
  · exact (onBlock_eq block _).trans (if_pos unused)
  · exact (onBlock_eq block _).trans (if_pos unused)
  · exact (onBlock_eq block _).trans (if_pos unused)

variable (used : ¬ (u.getObj (Obj.mapQuota n) ≤ h ∨ (ctxEntry u n h).state = 0))

include used

/-- An EMPTY entry has no rows to write (R220). -/
theorem moveElem_decode_empty (op : emOp c = 1) (empty : (ctxEntry u n h).state ≠ 2) :
    moveElem n c s = blockResult u n c (.ok (.ok (u, toLe 4 0))) := by
  rw [moveElem, if_neg (by omega), if_pos op, decodeElem1, onBlock_eq block, if_neg used, if_pos empty]

theorem moveElem_decode_stored (op : emOp c = 1) (stored : (ctxEntry u n h).state = 2) {bs : List Byte}
    (read : readPa u n (ctxEntry u n h).addr (entryBytes u n (ctxEntry u n h)) = .ok (t, bs)) {rows : List (Nat × List Byte)}
    (staged : rows = decodeRows c (loDim (blockWord u n h)) (ctxEntry u n h).valid
      (decodeBlock (ctxEntry u n h).kfmt (ctxEntry u n h).vfmt (loHeads (blockWord u n h)) (loDim (blockWord u n h)) bs))
    (able : rowsOk t n c rows = .ok ()) :
    moveElem n c s = blockResult u n c (.ok (.ok (rows.foldl (fun t x => emWrite t n c x.1 x.2) t, toLe 4 (ctxEntry u n h).valid))) := by
  subst staged
  rw [moveElem, if_neg (by omega), if_pos op, decodeElem1, onBlock_eq block, if_neg used]
  simp only [stored, ne_eq, not_true_eq_false, if_false, read, able]

/-- An entry that is not STORED has no block to move. -/
theorem moveElem_migrate_empty (op : emOp c = 2) (empty : (ctxEntry u n h).state ≠ 2) :
    moveElem n c s = blockResult u n c (.ok (.error ())) := by
  rw [moveElem, if_neg (by omega), if_neg (by omega), migrateElem, onBlock_eq block, if_neg used]
  exact congrArg (blockResult u n c) (if_pos (.inl empty))

section Encode

variable (op : emOp c = 0) (alone : (ctxEntry u n h).refs ≤ 1) (heads : loHeads (blockWord u n h) ≠ 0) {kf vf bytes : Nat}
  (key : kf = askedOr (mvKfmt c) (loKfmt (blockWord u n h))) (value : vf = askedOr (mvVfmt c) (loVfmt (blockWord u n h)))
  (size : bytes = blockBytes kf vf (loHeads (blockWord u n h)) (loDim (blockWord u n h)))

include op alone heads key value size

theorem moveElem_encode_no_room (full : roomFor u n (mvTier c) bytes = none) : moveElem n c s = blockResult u n c (.ok (.error ())) := by
  subst key value size
  rw [moveElem, if_pos op, encodeElem, onBlock_eq block, if_neg used]
  simp only [heads, copyBlocked_alone alone, Bool.false_eq_true, or_self, if_false, full]

/-- The block is encoded from staging as it reads, into storage that is admitted before anything is written (R222, R223). -/
theorem moveElem_encode {place : Nat × Nat} {ps : Planes} (room : roomFor u n (mvTier c) bytes = some place)
    (admitted : reachPa u (bytes / 64) place.2 = .ok ())
    (staged : readPlanes n c (loDim (blockWord u n h)) (loHeads (blockWord u n h)) u 0 = .ok (t, ps)) :
    moveElem n c s = blockResult u n c (.ok (storeBlock (countSpecial t n (ps.flatMap fun p => p.1 ++ p.2)) n h (ctxEntry u n h) place kf vf
      (mvNpos c) (encodeBlock kf vf (loDim (blockWord u n h)) ps))) := by
  subst key value size
  rw [moveElem, if_pos op, encodeElem, onBlock_eq block, if_neg used]
  simp only [heads, copyBlocked_alone alone, Bool.false_eq_true, or_self, if_false, room, admitted, staged]

end Encode

end Block

/-- Settles O41: the rows of Table 7.7 and the single block end, go on or stop with what their block comes to, and each block is taken apart
by its operation and its entry. -/
theorem contextMoves : Obligations.ContextMoves := by
  unfold Obligations.ContextMoves
  intro s r c run n ends rows all good
  have block_one := exec_contextBlockTransaction run good
  have go_on (more : c.done < emCount c) : exec (.contextBlockTransaction r) s = elemOne r.ch (moveElem n) (emCount c) c s :=
    block_one.trans (if_neg more.not_ge)
  refine ⟨fun done => ?finished, fun more => ⟨fun t ok => ⟨fun last => ?last, fun more => (go_on (by omega)).trans (elemOne_more more ok)⟩,
    fun t no => ?refused, fun k x stop => ?stopped, fun s' h read still first => ?block⟩⟩
  case finished =>
    have ended := elemGo_finished (s := s) (ch := r.ch) (f := moveElem n) 0 done.ge
    refine exec_moveRows run good ?_ (block_one.trans ((if_pos done.ge).trans ended))
    rw [done, Nat.add_sub_cancel_left]
    exact ended
  case last =>
    refine exec_moveRows run good ?_ ((go_on more).trans (elemOne_last last ok))
    rw [show emCount c + 1 - c.done = 0 + 2 by omega]
    exact elemGo_last 0 last ok
  case refused =>
    refine exec_moveRows run good ?_ ((go_on more).trans (elemOne_refused more no))
    rw [show emCount c + 1 - c.done = emCount c - c.done + 1 by omega]
    exact elemGo_refused _ more no
  case stopped =>
    refine exec_moveRows run good ?_ ((go_on more).trans (elemOne_stop more stop))
    rw [show emCount c + 1 - c.done = emCount c - c.done + 1 by omega]
    exact elemGo_stop _ more stop
  case block =>
    intro u e w a put no able
    have block : BlockAt s u n h c := ⟨⟨s', read, by rw [still, first]; rfl, rfl⟩, able⟩
    have used (inside : h < u.getObj (Obj.mapQuota n)) (live : e.state ≠ 0) : ¬ (u.getObj (Obj.mapQuota n) ≤ h ∨ (ctxEntry u n h).state = 0) :=
      not_or_intro inside.not_ge live
    refine ⟨moveElem_unused block, fun inside empty => ⟨fun op => ?decodeEmpty, fun op => ?migrateEmpty⟩,
      fun inside stored op u' bs got => ?decode, fun inside live alone heads op => ?encode⟩
    case decodeEmpty => exact moveElem_decode_empty block (used inside (by omega)) op (show e.state ≠ 2 by omega)
    case migrateEmpty => exact moveElem_migrate_empty block (used inside (by omega)) op (show e.state ≠ 2 by omega)
    case decode => exact fun able => moveElem_decode_stored block (used inside (by omega)) op stored got rfl able
    case encode =>
      intro kf vf bytes
      refine ⟨fun full => moveElem_encode_no_room block (used inside live) op alone heads rfl rfl rfl full, ?_⟩
      intro place u' ps room admitted staged v v'
      rw [moveElem_encode block (used inside live) op alone heads rfl rfl rfl room admitted staged, storeBlock_alone alone place kf vf _ _ rfl rfl]
      rfl

end Sys2Proof.Machine
end

section
/-! SUPPORT. Proofs of tiering (R223 to R228): what heat, an evaluation and the end of an automatic move do to a slice, and the statement. -/

namespace Sys2Proof.Machine

variable {s u : State} {n : Nat}

/-! ### Heat (R227) -/

/-- A slice's own record, changed, is what its slice then reads. -/
theorem slice_setSlice_own (s : State) {x : Slice} (no : x.no = n := by exact slice_no _ _) : (s.setSlice x).slice n = x :=
  no ▸ slice_setSlice s x

/-- The boundary that completes HEAT_DECAY ticks makes a halving due. -/
theorem countHeatTick_completes (complete : s.getObj (Obj.heatDecay n) ≤ (s.slice n).heatTicks + 1) :
    (countHeatTick s n).slice n = { s.slice n with heatTicks := 0, heatDue := (s.slice n).heatDue + 1 } := by
  rw [countHeatTick]
  exact (congrArg (fun x => (s.setSlice x).slice n) (if_pos complete)).trans (slice_setSlice_own s)

theorem countHeatTick_counts (short : (s.slice n).heatTicks + 1 < s.getObj (Obj.heatDecay n)) :
    (countHeatTick s n).slice n = { s.slice n with heatTicks := (s.slice n).heatTicks + 1 } := by
  rw [countHeatTick]
  exact (congrArg (fun x => (s.setSlice x).slice n) (if_neg short.not_ge)).trans (slice_setSlice_own s)

/-- An entry with half its heat. -/
def halved (e : CtxEntry) : CtxEntry := { e with heat := e.heat / 2 }

/-- Halving what is listed halves every entry: one that is not listed is FREE, with no heat. -/
theorem sget_map_halved (es : List (Nat × CtxEntry)) (h : Nat) :
    sget freeEntry (es.map fun p => (p.1, halved p.2)) h = halved (sget freeEntry es h) := by
  induction es with
  | nil => simp [sget, halved, freeEntry]
  | cons p es ih =>
    simp only [List.map_cons, sget, ih]
    split_ifs <;> rfl

/-! ### Automatic moves (R226 to R228) -/

@[simp] theorem startMoves_mem (s : State) (n : Nat) : (startMoves s n).mem = s.mem := by
  simp only [startMoves]
  split_ifs <;> rfl

/-- Starting a move touches the slice's list of moves. -/
theorem startMoves_slice (s : State) (n : Nat) : ∃ ms, (startMoves s n).slice n = { s.slice n with moves := ms } := by
  simp only [startMoves]
  split_ifs
  · exact ⟨_, rfl⟩
  · exact ⟨_, slice_setSlice_own s⟩

@[simp] theorem evaluateTiering_mem (s : State) (n : Nat) : (evaluateTiering s n).mem = s.mem := startMoves_mem _ n

/-- An evaluation touches the slice's list of moves and which of its tiers demote. -/
theorem evaluateTiering_slice (s : State) (n : Nat) :
    ∃ ds ms, (evaluateTiering s n).slice n = { s.slice n with demoting := ds, moves := ms } := by
  have taken : ∃ ds, (takeDemoting s n).slice n = { s.slice n with demoting := ds } := ⟨_, slice_setSlice_own s⟩
  obtain ⟨ds, taken⟩ := taken
  simp only [evaluateTiering]
  generalize takeDemoting s n = t at taken ⊢
  obtain ⟨ms, started⟩ := startMoves_slice (t.setSlice { t.slice n with moves := _ }) n
  refine ⟨ds, ms, started.trans ?_⟩
  rw [slice_setSlice_own t, taken]

theorem exec_heatDecay (awake : 1 ≤ s.getObj (Obj.sState n)) (due : 0 < (s.slice n).heatDue) :
    exec (.heatDecay n) s = .next (evaluateTiering (s.setSlice
      { s.slice n with heatDue := (s.slice n).heatDue - 1, entries := (s.slice n).entries.map fun p => (p.1, halved p.2) }) n) := by
  have ready : decide (1 ≤ s.getObj (Obj.sState n) ∧ 0 < (s.slice n).heatDue) = true := decide_eq_true ⟨awake, due⟩
  show onlyIf s _ "heat decay due" _ = _
  rw [ready, onlyIf_true]
  rfl

/-- A halving that is due halves every heat and moves no byte. -/
theorem exec_heatDecay_halves (awake : 1 ≤ s.getObj (Obj.sState n)) (due : 0 < (s.slice n).heatDue) :
    ∃ t, exec (.heatDecay n) s = .next t ∧ (t.slice n).heatDue + 1 = (s.slice n).heatDue ∧ t.mem = s.mem ∧
      ∀ h, ctxEntry t n h = halved (ctxEntry s n h) := by
  refine ⟨_, exec_heatDecay awake due, ?_⟩
  generalize set : s.setSlice _ = u
  have slice : u.slice n = { s.slice n with heatDue := (s.slice n).heatDue - 1, entries := (s.slice n).entries.map fun p => (p.1, halved p.2) } := by
    rw [← set]
    exact slice_setSlice_own s
  obtain ⟨ds, ms, evaluated⟩ := evaluateTiering_slice u n
  refine ⟨?_, (evaluateTiering_mem u n).trans (by rw [← set]; rfl), fun h => ?_⟩
  · rw [evaluated, slice]
    exact Nat.sub_add_cancel due
  · rw [ctxEntry, evaluated, slice]
    exact sget_map_halved _ h

/-- The block of a move at its new place `a`: `u` is the state after its old storage `bs` was read, and the storage is released once the entry has
switched (R223 to R225). -/
def arrived (s u : State) (n : Nat) (m : Move) (a : Nat) (bs : List Byte) : State :=
  let e := ctxEntry s n m.handle
  let w := layoutWord s n e.layout
  let f := tierFmts s n e m
  let v := countSpecial u n (changedVals e.kfmt e.vfmt f.1 f.2 (loHeads w) (loDim w) bs)
  let v := writePa v n a (recodeBlock e.kfmt e.vfmt f.1 f.2 (loHeads w) (loDim w) bs)
  let v := putEntry v n m.handle { e with tier := m.tier, kfmt := f.1, vfmt := f.2, addr := a }
  let v := (releaseStorage v n e.addr (entryBytes s n e) e.tier).addObj (Obj.migrations n) 1
  v.addObj (Obj.recompressions n) ((if f.1 = e.kfmt then 0 else 1) + (if f.2 = e.vfmt then 0 else 1))

/-- The bytes of a block in its formats after a move. -/
def arrivedBytes (s : State) (n : Nat) (m : Move) : Nat :=
  let e := ctxEntry s n m.handle
  let w := layoutWord s n e.layout
  let f := tierFmts s n e m
  blockBytes f.1 f.2 (loHeads w) (loDim w)

section Arrival

variable {m : Move} (going : (s.slice n).moves.find? (·.started) = some m)

include going

/-- A move whose entry is no longer STORED leaves the list. -/
theorem exec_tieringMoveComplete_gone (gone : (ctxEntry s n m.handle).state ≠ 2) :
    exec (.tieringMoveComplete n) s = .next (startMoves (dropMove s n m) n) := by
  show execTieringMoveComplete n s = _
  simp only [execTieringMoveComplete, going, withSome_some, if_pos gone]

/-- A move whose storage is found, admitted and read puts its block into the target tier. -/
theorem exec_tieringMoveComplete_arrives (stored : (ctxEntry s n m.handle).state = 2)
    (clean : poisonedRun s (ctxEntry s n m.handle).addr (entryBytes s n (ctxEntry s n m.handle)) = false) {a : Nat} {bs : List Byte}
    (room : findRoom s n m.tier (arrivedBytes s n m) = some a) (admitted : reachPa s (arrivedBytes s n m / 64) a = .ok ())
    (read : readPa s n (ctxEntry s n m.handle).addr (entryBytes s n (ctxEntry s n m.handle)) = .ok (u, bs)) :
    exec (.tieringMoveComplete n) s = .next (startMoves (dropMove (arrived s u n m a bs) n m) n) := by
  show execTieringMoveComplete n s = _
  unfold arrivedBytes at room admitted
  simp only [execTieringMoveComplete, going, withSome_some, if_neg (not_not_intro stored), clean, Bool.false_eq_true, if_false, room, admitted, read]
  rfl

end Arrival

/-- Settles O42: heat is counted and halved in the slice's record, and a move that ends finds its storage then (log 40), or leaves the list. -/
theorem tieringFollowsHeat : Obligations.TieringFollowsHeat := by
  unfold Obligations.TieringFollowsHeat
  intro s n
  refine ⟨fun complete => ?due, fun short => ?counts, exec_heatDecay_halves,
    fun m going => ⟨exec_tieringMoveComplete_gone going, fun stored clean a u bs room admitted read =>
      exec_tieringMoveComplete_arrives going stored clean room admitted read⟩⟩
  case due => rw [countHeatTick_completes complete]; exact ⟨rfl, rfl⟩
  case counts => rw [countHeatTick_counts short]; exact ⟨rfl, rfl⟩

end Sys2Proof.Machine
end

section
/-! SUPPORT. Refutation of the statement on the elements of a CONTEXT_MAP (R218, R219). It has the command taken up anew after an element, with
the slice that its channel has by then; the command itself goes on with the slice that it began with. The two part where the write of a result
changes CH_SLICE, as it does in a state with a local directory of a die beyond the module's: no hypothesis excludes one, and its count of broadcasts
(R188, log 126) has the key of another object. -/

namespace Sys2Proof.Machine

variable {s t : State} {c : Cmd} {n : Nat}

/-! ### An element that names an entry -/

/-- An element on an entry in use, its handle `h` read, nothing before it on the entry, and its result admitted: it has the effect `k`. -/
theorem onEntry_ok {size h : Nat} {s' : State} {bs : List Byte} {k : State → Nat → CtxEntry → Except Unit (State × List Byte)}
    (sized : size ≠ 0) (read : handleAt s n c = .ok (s', h)) (still : moving s' n h = false) (first : earlierOn s' n h c = false)
    (able : emSpan (mapLookup s') n c (arrayAt (emResult c) size c.done) size = .ok ())
    (used : h < (mapLookup s').getObj (Obj.mapQuota n) ∧ (ctxEntry (mapLookup s') n h).state ≠ 0)
    (effect : k (mapLookup s') h (ctxEntry (mapLookup s') n h) = .ok (t, bs)) :
    onEntry n size c s k = .ok (emWrite t n c (arrayAt (emResult c) size c.done) bs) := by
  obtain ⟨inside, live⟩ := used
  have inUse : ¬ ((mapLookup s').getObj (Obj.mapQuota n) ≤ h ∨ (ctxEntry (mapLookup s') n h).state = 0) := not_or_intro inside.not_ge live
  simp only [onEntry, read, still, first, Bool.or_self, Bool.false_eq_true, if_false, withResult, if_neg sized, able, if_neg inUse, effect]

/-- What a REF does to its entry, with the result (Table 7.5). -/
def refEffect (n : Nat) (s : State) (h : Nat) (e : CtxEntry) : Except Unit (State × List Byte) :=
  if 16777215 ≤ e.refs then .error () else .ok (putEntry s n h { e with refs := e.refs + 1 }, toLe 4 (e.refs + 1))

/-- The elements of a REF. -/
def refElem (n : Nat) (c : Cmd) (s : State) : Elem := onEntry n 4 c s (refEffect n)

theorem exec_refEntry (r : CmdRef) (s : State) : exec (.refEntry r) s = mapOp 3 r s emCount (refElem (chSliceOf s r.ch)) := rfl

/-! ### The state of the counterexample -/

namespace StrayDie

set_option maxRecDepth 8000
set_option exponentiation.threshold 1000

/-- A die that the module lacks: `Obj.broadcasts die`, its count of broadcasts, has the key of `Obj.chSlice 0`. -/
def die : Nat := (0x6000 - 0x4004) * 256 - 4

/-- Channel 0 names the command. -/
def ref : CmdRef := { ch := 0, seq := 0 }

/-- A REF of two elements: handles at 0x40000, results at 0x40100. -/
def cmd : Cmd :=
  { seq := 0, op := 0x09, ext := 0, serial := false, tag := 0, released := true,
    slot := toLe 64 (3 * 2 ^ 128 + 2 * 2 ^ 160 + 0x40000 * 2 ^ 192 + 0x40100 * 2 ^ 256) }

/-- A translation entry: the next table, or as a leaf a page with every right. -/
def entry (leaf : Bool) (pa : Nat) : List Byte :=
  toLe 8 (encodePte { valid := true, leaf := leaf, write := leaf, exec := leaf, world := 0, banked := false, addr := pa })

/-- One table walk, by which virtual addresses below 1 GiB stand at the same physical addresses, and the handles 0 and 1. -/
def bytes : List Host.Cell :=
  cellsPut (cellsPut (cellsPut [] 0x10000 (entry false 0x20000)) 0x20000 (entry true 0)) 0x40000 (toLe 4 0 ++ toLe 4 1)

/-- Slice 0 with entries 0 and 1 EMPTY; an automatic move of entry 1 is in flight, and a local directory of the die tracks the line of the
results. -/
def start : State :=
  { State.reset with
    od := [(Obj.chSlice 0, 0), (Obj.mapQuota 0, 2), (Obj.mapCacheHits, 0), (Obj.mapCacheMisses, 0), (Obj.llmHits 0, 0), (Obj.llmMisses 0, 0),
      (Obj.stackTop 0, dieWindow), (Obj.rgnBase 0, 0), (Obj.rgnSize 0, dieWindow), (Obj.rgnWorld 0, 0), (Obj.sWorld 0, 0), (Obj.complSlots 0, 0)]
    chans := [{ no := 0, flight := [cmd] }]
    slices := [{ no := 0, transBase := 0x10000
                 entries := [(0, { state := 1, refs := 1 }), (1, { state := 1, refs := 1 })]
                 moves := [{ handle := 1, src := 0, tier := 1, demote := true, started := true }] }]
    mem := { bytes := bytes
             ldirs := [{ die := die, line := .dev 0x200, slice := 0, rows := [], broadcast := true }] } }

/-- The state once the first handle is read. -/
def read : State := match handleAt start 0 cmd with
  | .ok (s, _) => s
  | .error _ => start

theorem handleAt_start : handleAt start 0 cmd = .ok (read, 0) := by rfl

/-- The command with its first element done. -/
def next : Cmd := { cmd with done := 1 }

/-- The first element has its effect and its result is written; `u` is the state after its look-up. -/
def result (u : State) : State :=
  emWrite (putEntry u 0 0 { ctxEntry u 0 0 with refs := (ctxEntry u 0 0).refs + 1 }) 0 cmd (arrayAt (emResult cmd) 4 cmd.done)
    (toLe 4 ((ctxEntry u 0 0).refs + 1))

theorem result_chans (u : State) : (result u).chans = u.chans := (emWrite_chans ..).trans (putEntry_chans ..)

/-- The state after the first element. -/
def after (u : State) : State := putFlight (served (result u) (.cmd 0 cmd.seq)) 0 next

/-- Whether an outcome leaves the command in flight with no outcome of its own. -/
def goesOn : Res → Bool
  | .next t => (t.chan 0).flight.any fun c => c.final.isNone
  | _ => false

/-- What the proof needs of the state `u` after the first look-up. -/
structure Shows (u : State) : Prop where
  able : emSpan u 0 cmd (arrayAt (emResult cmd) 4 cmd.done) 4 = .ok ()
  used : 0 < u.getObj (Obj.mapQuota 0) ∧ (ctxEntry u 0 0).state ≠ 0
  few : (ctxEntry u 0 0).refs < 16777215
  /-- The second element, of slice 0, waits for the automatic move. -/
  waits : goesOn (elemGo 0 (refElem 0) 2 2 next (after u)) = true
  /-- The write of the first result has moved the channel to slice 1. -/
  moved : chSliceOf (after u) 0 = 1
  /-- The second element, of slice 1, meets a translation that stops it. -/
  stops : goesOn (elemGo 0 (refElem 1) 2 2 next (after u)) = false

theorem shows_hit : Shows ((read.useFree 1).addObj Obj.mapCacheHits 1) :=
  ⟨by decide, by decide, by decide, by decide, by decide, by decide⟩

theorem shows_miss : Shows ((read.useFree 1).addObj Obj.mapCacheMisses 1) :=
  ⟨by decide, by decide, by decide, by decide, by decide, by decide⟩

/-- Whether a look-up hits is left open (log 28): both ways the state shows it. -/
theorem shows_lookup : Shows (mapLookup read) := by
  simp only [mapLookup]
  split_ifs
  · exact shows_hit
  · exact shows_miss

theorem running : Running start ref [0x09] cmd := ⟨rfl, by decide, rfl⟩

theorem wellFormed : mapBad cmd = false := by decide

theorem slice_start : chSliceOf start ref.ch = 0 := by decide

theorem still : moving read 0 0 = false := by decide

theorem first : earlierOn read 0 0 cmd = false := by decide

theorem result_lookup_chans : (result (mapLookup read)).chans = start.chans :=
  (result_chans _).trans ((mapLookup_chans read).trans (handleAt_chans handleAt_start))

/-- The command does its first element and goes on with the second, as one of slice 0. -/
theorem exec_start : exec (.refEntry ref) start = elemGo 0 (refElem 0) 2 2 next (after (mapLookup read)) := by
  obtain ⟨able, used, few, -, -, -⟩ := shows_lookup
  have ok : refElem 0 cmd start = .ok (result (mapLookup read)) :=
    onEntry_ok (by decide) handleAt_start still first able used (if_neg few.not_ge)
  rw [exec_refEntry, mapOp_eq running wellFormed (by decide), slice_start]
  refine (elemGo_ok 2 (by decide) ok).trans ?_
  rw [elemDone, oneMore_of_chans (running_found running) result_lookup_chans]
  rfl

theorem running_after : Running (after (mapLookup read)) ref [0x09] next := by
  have found : findFlight (served (result (mapLookup read)) (.cmd 0 cmd.seq)) 0 cmd.seq = some cmd := by
    rw [findFlight_served, findFlight_of_chans result_lookup_chans]
    exact running_found running
  exact ⟨findFlight_putFlight found rfl, by decide, rfl⟩

/-- Taken up anew after its first element, the command goes on as one of slice 1. -/
theorem exec_after : exec (.refEntry ref) (after (mapLookup read)) = elemGo 0 (refElem 1) 2 2 next (after (mapLookup read)) := by
  rw [exec_refEntry, mapOp_eq running_after (by decide) (by decide), show chSliceOf (after (mapLookup read)) ref.ch = 1 from shows_lookup.moved]
  rfl

end StrayDie

/-- The claim on a REF of more than one element, out of the statement: after its first element the command is taken up anew. -/
theorem refEntry_anew {r : CmdRef} {h : Nat} {s' : State} (holds : Obligations.ContextMapElements) (run : Running s r [0x09] c)
    (good : mapBad c = false) (slice : chSliceOf s r.ch = n) (read : handleAt s n c = .ok (s', h)) (still : moving s' n h = false)
    (first : earlierOn s' n h c = false) (able : emSpan (mapLookup s') n c (arrayAt (emResult c) 4 c.done) 4 = .ok ())
    (used : h < (mapLookup s').getObj (Obj.mapQuota n) ∧ (ctxEntry (mapLookup s') n h).state ≠ 0)
    (few : (ctxEntry (mapLookup s') n h).refs < 16777215) (kind : emOp c = 3) (more : c.done + 1 < emCount c) :
    exec (.refEntry r) s = exec (.refEntry r) (putFlight (served (emWrite (putEntry (mapLookup s') n h
      { ctxEntry (mapLookup s') n h with refs := (ctxEntry (mapLookup s') n h).refs + 1 }) n c (arrayAt (emResult c) 4 c.done)
      (toLe 4 ((ctxEntry (mapLookup s') n h).refs + 1))) (.cmd r.ch c.seq)) r.ch { c with done := c.done + 1 }) := by
  subst slice
  obtain ⟨-, entries, -⟩ := holds s r c run good
  obtain ⟨ref, -⟩ := entries (by omega) s' h read still first
  obtain ⟨-, anew⟩ := ref used able few kind
  exact anew more

/-- Refutes O39: a REF of two elements is not the same command taken up anew after its first. The write of the first result invalidates the copies
that the local directory of a die beyond the module's tracks (R188), and the count of that broadcast is CH_SLICE of channel 0: the command, of
slice 0, waits for a move of its second entry, and taken up anew, as one of slice 1, it ends. -/
theorem not_contextMapElements : ¬ Obligations.ContextMapElements := by
  intro holds
  obtain ⟨able, used, few, waits, -, stops⟩ := StrayDie.shows_lookup
  have anew := refEntry_anew holds StrayDie.running StrayDie.wellFormed StrayDie.slice_start StrayDie.handleAt_start StrayDie.still StrayDie.first
    able used few (by decide) (by decide)
  rw [← StrayDie.exec_start] at waits
  rw [← StrayDie.exec_after] at stops
  exact Bool.false_ne_true (stops.symm.trans ((congrArg StrayDie.goesOn anew).symm.trans waits))

end Sys2Proof.Machine
end

section
/-! SUPPORT. Proofs of errors of cores and memory (R239 to R245, R250 to R252, R258, R356 to R358): what each command of an error does, and how a
map-out and the replacement of a core end. -/

namespace Sys2Proof.Machine

variable {s : State}

/-! ### Cores and their spares (R356 to R358) -/

theorem core_no (s : State) (c : Nat) : (s.core c).no = c := by
  unfold State.core
  cases found : s.cores.find? fun x => x.no == c with
  | none => rfl
  | some x => simpa using List.find?_some found

theorem core_setCore {x : Core} {c : Nat} (no : x.no = c) : (s.setCore x).core c = x := by
  subst no
  simp only [State.core, State.setCore, find?_upsert, Option.getD_some]

/-- Asking for a maintenance point touches the bank engine alone. -/
theorem needPoint_with_bank (s : State) : ∃ b, needPoint s = { s with bank := b } := by
  unfold needPoint
  cases s.bank.maintSince with
  | some t => exact ⟨_, rfl⟩
  | none => exact ⟨_, rfl⟩

@[simp] theorem needPoint_mem (s : State) : (needPoint s).mem = s.mem := by
  obtain ⟨b, asked⟩ := needPoint_with_bank s
  rw [asked]

@[simp] theorem needPoint_core (s : State) (c : Nat) : (needPoint s).core c = s.core c := by
  obtain ⟨b, asked⟩ := needPoint_with_bank s
  rw [asked]
  rfl

@[simp] theorem needPoint_getObj (s : State) (k : Nat) : (needPoint s).getObj k = s.getObj k := by
  obtain ⟨b, asked⟩ := needPoint_with_bank s
  rw [asked]
  rfl

/-- A number with bit `i` added where it is not set has it set. -/
theorem bitN_with_bit (d i : Nat) : bitN (if bitN d i then d else d + 2 ^ i) i = true := by
  split_ifs with h
  · exact h
  · rw [bitN, Nat.add_comm, Nat.testBit_two_pow_add_eq]
    simpa [bitN] using h

/-- The first core of a row whose spare is unused dies: its site is marked, and a maintenance point is due (R357, R359). -/
theorem coreDead_of_spare {c : Nat} {hung : Bool} (alive : (s.core c).dead = false) (unused : s.getObj (spareKey (c / 13)) ≠ 0xFF)
    (first : ∀ x ∈ s.cores, x.dead = true → x.no / 13 ≠ c / 13) :
    coreDead s c hung = needPoint ((s.putObj (deadKey (c / 13)) (if bitN (s.getObj (deadKey (c / 13))) (siteOf s c) then s.getObj (deadKey (c / 13))
      else s.getObj (deadKey (c / 13)) + 2 ^ siteOf s c)).setCore { s.core c with dead := true, hung := hung }) := by
  have spare : ¬ (s.getObj (spareKey (c / 13)) = 0xFF ∨ (s.cores.any fun y => y.dead && y.no / 13 == c / 13) = true) := by
    rintro (used | taken)
    · exact unused used
    · obtain ⟨x, listed, same⟩ := List.any_eq_true.1 taken
      obtain ⟨dead, row⟩ := Bool.and_eq_true_iff.1 same
      exact first x listed dead (beq_iff_eq.1 row)
  exact (if_neg (by simp [alive])).trans (if_neg spare)

theorem coreDead_marks {c : Nat} {hung : Bool} (alive : (s.core c).dead = false) (unused : s.getObj (spareKey (c / 13)) ≠ 0xFF)
    (first : ∀ x ∈ s.cores, x.dead = true → x.no / 13 ≠ c / 13) :
    ((coreDead s c hung).core c).dead = true ∧ bitN ((coreDead s c hung).getObj (deadKey (c / 13))) (siteOf s c) = true ∧
      (coreDead s c hung).mem = s.mem := by
  rw [coreDead_of_spare alive unused first]
  refine ⟨?_, ?_, needPoint_mem _⟩
  · rw [needPoint_core, core_setCore]
    exact core_no s c
  · rw [needPoint_getObj, State.setCore_getObj, State.getObj_putObj_same]
    exact bitN_with_bit _ _

theorem exec_coreHang {c : Nat} (hc : c < 624) (work : workOn s c ≠ []) (runs : (s.core c).hung = false) :
    exec (.coreHang c) s = .next (workEvent (coreDead (s.addObj Obj.coreHangs 1) c true) 0x02 (workOn s c)) := by
  simp only [exec, execCoreHang, if_neg (Nat.not_le.2 hc), List.isEmpty_eq_false_iff.2 work, runs, Bool.not_false, Bool.and_true, onlyIf_true]

/-- A row's self-test counts the cores that it tests and those of them that fail, which are dead from then on (R357, log 117). -/
theorem exec_rowSelfTest {die row : Nat} {failed : BitVec 13} (hd : die < 4) (hr : row < 12) (up : 3 ≤ s.getObj Obj.moduleState) :
    exec (.rowSelfTest die row failed) s = .next
      (((List.range 13).filter fun c => failed.getLsbD c && testable s (13 * (12 * die + row) + c)).foldl
        (fun s c => coreDead s (13 * (12 * die + row) + c) false)
        ((s.addObj (Obj.selftestRuns die) ((List.range 13).filter fun c => testable s (13 * (12 * die + row) + c)).length).addObj
          (Obj.selftestFails die) ((List.range 13).filter fun c => failed.getLsbD c && testable s (13 * (12 * die + row) + c)).length)) := by
  have inRange : ¬ (4 ≤ die ∨ 12 ≤ row) := by omega
  simp only [exec, execRowSelfTest, if_neg inRange, up, decide_true, onlyIf_true]

/-- The replacement of a core leaves the rows of every slice. -/
theorem sRows_replaced {r n : Nat} (hn : n < 64) :
    ((s.putObj (spareKey r) 0xFF).addObj Obj.coresReplaced 1).getObj (Obj.sRows n) = s.getObj (Obj.sRows n) := by
  rw [State.getObj_addObj_ne 1 (by simp only [Obj.coresReplaced, Obj.sRows]; omega),
    State.getObj_putObj_ne s 0xFF (by simp only [spareKey, Obj.spareSite, Obj.sRows]; omega)]

theorem exec_spareReplacementComplete {die row : Nat} {c : Core}
    (found : s.cores.find? (fun c => c.replacing && c.no / 13 == 12 * die + row) = some c)
    (free : ∀ n, (s.getObj (Obj.sRows n)).testBit (12 * die + row) = false) :
    exec (.spareReplacementComplete die row) s = .next (((s.setCore { c with dead := false, hung := false, replacing := false, errTimes := [] }).putObj
      (spareKey (12 * die + row)) 0xFF).addObj Obj.coresReplaced 1) := by
  simp only [exec, execSpareReplacementComplete, found, withSome_some]
  refine congrArg Host.Outcome.next (foldl_fixed fun n hn => if_neg ?_)
  rw [sRows_replaced (List.mem_range.1 hn), State.setCore_getObj, free n]
  simp

/-! ### Corrected errors (R239, R250, R251) -/

/-- On a channel that is mapped out no error counts. -/
theorem exec_correctedError_mappedOut {st ch : Nat} {b : Bool} (hs : st < 12) (hc : ch < 32) (out : s.getObj (Obj.chState st ch) = 2) :
    exec (.correctedError (.stack st ch b)) s = .next s := by
  have inRange : ¬ (12 ≤ st ∨ 32 ≤ ch) := by omega
  simp only [exec, execCorrectedError, if_neg inRange, if_pos out]

theorem exec_correctedError_stack {st ch : Nat} {b : Bool} (hs : st < 12) (hc : ch < 32) (on : s.getObj (Obj.chState st ch) ≠ 2) :
    exec (.correctedError (.stack st ch b)) s = .next (if b then channelFailing (stackCorrected s st ch) st ch else stackCorrected s st ch) := by
  have inRange : ¬ (12 ≤ st ∨ 32 ≤ ch) := by omega
  simp only [exec, execCorrectedError, if_neg inRange, if_neg on]

/-- The only error of the last second is below a limit above one: it counts, and no other object changes. -/
theorem stackCorrected_od {st ch : Nat} (hs : st < 12) (first : s.mem.errSecond = []) (limit : 1 < s.getObj Obj.failLimit) :
    (stackCorrected s st ch).od = (s.addObj (Obj.chCorrected st ch) 1).od := by
  have same : (s.addObj (Obj.chCorrected st ch) 1).getObj Obj.failLimit = s.getObj Obj.failLimit :=
    State.getObj_addObj_ne 1 (by simp only [Obj.chCorrected, Obj.failLimit]; omega)
  have below : ¬ s.getObj Obj.failLimit ≤ 1 := Nat.not_le.2 limit
  rw [← same] at below
  simp only [stackCorrected, State.addObj_mem, first, List.filter_nil, List.map_nil, lastSecond, List.nil_append, List.length_singleton]
  rw [if_neg (by exact below)]

theorem exec_correctedError_ddr {ch : Nat} (hc : ch < 8) (s : State) :
    exec (.correctedError (.ddr ch)) s = .next (s.addObj (Obj.ddrCorrected ch) 1) := by
  simp only [exec, execCorrectedError, if_neg (Nat.not_le.2 hc)]

theorem exec_correctedError_cxl {x : Nat} (hx : x < 8) (s : State) :
    exec (.correctedError (.cxl x)) s = .next (s.addObj (Obj.cxlFlitRetries x) 1) := by
  simp only [exec, execCorrectedError, if_neg (Nat.not_le.2 hx)]

theorem exec_correctedError_chiplet {p : Nat} (hp : p < 2) (s : State) :
    exec (.correctedError (.chiplet p)) s = .next (s.addObj (Obj.cpRetries p) 1) := by
  simp only [exec, execCorrectedError, if_neg (Nat.not_le.2 hp)]

theorem exec_correctedError_port {q : Nat} (hq : q < 16) (s : State) :
    exec (.correctedError (.port q)) s = .next (s.addObj (Obj.fecCorrected q) 1) := by
  simp only [exec, execCorrectedError, if_neg (Nat.not_le.2 hq)]

/-! ### Uncorrectable errors, patrol and links (R252, R258) -/

/-- Counting an error writes objects only. -/
theorem countUncorrected_with_od (s : State) (pa : Nat) : ∃ od, countUncorrected s pa = { s with od := od } := by
  unfold countUncorrected
  split
  · exact ⟨_, rfl⟩
  · exact ⟨_, rfl⟩
  · split
    · exact ⟨_, rfl⟩
    · exact ⟨_, rfl⟩

theorem poisonLine_marks {l i : Nat} (hi : i < 8) : 8 * l + i ∈ (poisonLine s l).mem.poison := by
  have added : (poisonLine s l).mem.poison = ((List.range 8).map (8 * l + ·)).foldl (fun ps k => addNew k ps) s.mem.poison := by
    rw [List.foldl_map, poisonLine]
  rw [added, mem_foldl_addNew]
  exact .inr (List.mem_map_of_mem (List.mem_range.2 hi))

theorem exec_uncorrectableError {line : Nat} {r : ErrReader} (there : paExists s (line * 512) = true) :
    exec (.uncorrectableError line r) s = .next (uncorrectable s line r) := by
  simp only [exec, execUncorrectableError, there, Bool.true_or, onlyIf_true]

/-- What the patrol finds outside the bank reserve, in no banked page, is counted and the line poisoned. -/
theorem uncorrectable_patrol {line : Nat} (outside : ∀ pa, ddrTop s ≤ pa → pa < ddrBase + 2 ^ 40 → pa ≠ line * 512)
    (unbanked : bankedSets (countUncorrected (poisonLine s line) (line * 512)) (line * 512) = []) :
    uncorrectable s line .patrol = countUncorrected (poisonLine s line) (line * 512) := by
  have top : ddrTop (countUncorrected (poisonLine s line) (line * 512)) = ddrTop s := by
    obtain ⟨od, counted⟩ := countUncorrected_with_od (poisonLine s line) (line * 512)
    rw [counted]
    rfl
  have kept : ¬ ((ddrTop s ≤ line * 512 ∧ line * 512 < ddrBase + 2 ^ 40) ∨ ErrReader.patrol = .bankReserve) := by
    rintro (⟨low, high⟩ | reader)
    · exact outside _ low high rfl
    · cases reader
  simp only [uncorrectable, top, if_neg kept, unbanked]
  rfl

theorem countUncorrected_marks {line pa i : Nat} (hi : i < 8) : 8 * line + i ∈ (countUncorrected (poisonLine s line) pa).mem.poison := by
  obtain ⟨od, counted⟩ := countUncorrected_with_od (poisonLine s line) pa
  rw [counted]
  exact poisonLine_marks hi

theorem exec_patrolScrub_clean {line : Nat} {last : Bool} (there : paExists s (line * 512) = true) (serves : lineFrozen s line = false) :
    exec (.patrolScrub line .clean last) s = .next (if last then s.addObj (Obj.scrubPasses (tierOf (line * 512))) 1 else s) := by
  simp only [exec, execPatrolScrub, there, serves, Bool.not_false, Bool.and_true, onlyIf_true]

theorem exec_cxlLinkFail {x : Nat} (hx : x < 8) (up : s.getObj (Obj.cxlLinkUp x) = 1) :
    exec (.cxlLinkFail x) s = .next (s.putObj (Obj.cxlLinkUp x) 0) := by
  simp only [exec, execCxlLinkFail, if_neg (Nat.not_le.2 hx), up, beq_self_eq_true, onlyIf_true]

/-! ### The end of a map-out (R241 to R245) -/

/-- The state once the copies of a channel's map-out have ended and its bursts with them. -/
def mapOutCopied (s : State) (stack ch : Nat) : State :=
  endDrain { s with mem := { s.mem with mapping := s.mem.mapping.filter (· != (stack, ch)),
                                        heldFreeze := s.mem.heldFreeze.filter (· != (stack, ch)) } } (Obj.chDrained stack ch)

/-- The channel is mapped out once the pages of its hole stand elsewhere: counted, its state and its place among the live channels changed, the
lookup written. -/
def mappedOut (v : State) (stack ch : Nat) : State :=
  let v' : State := { v with mem := { v.mem with deferrals := sput (fun _ => 0) v.mem.deferrals (32 * stack + ch) 0 } }
  let w := (v'.addObj (Obj.mapouts (stack / 3)) 1).putObj (Obj.chState stack ch) 2
  writeLookup (w.putObj (Obj.liveChannels stack) (w.getObj (Obj.liveChannels stack) - 2 ^ ch)) (stack / 3)

section MapOut

variable {stack ch : Nat} (going : (stack, ch) ∈ s.mem.mapping)
include going

/-- A hole that finds no room defers the map-out, and the channel is as frozen as the manager wants it (R244, log 49). -/
theorem exec_mapOutComplete_deferred (full : emptyHole (mapOutCopied s stack ch) (stack / 3) = none) :
    exec (.mapOutComplete stack ch) s = .next (settleFrozen (deferMapOut (needPoint (if (stack, ch) ∈ s.mem.heldFreeze then mapOutCopied s stack ch
      else (mapOutCopied s stack ch).putObj (Obj.chFreeze stack ch) 0)) (stack, ch))) := by
  rw [mapOutCopied] at full
  simp only [exec, execMapOutComplete, List.contains_iff_mem.2 going, onlyIf_true, full, List.contains_iff_mem]
  rfl

/-- A hole that is emptied ends the map-out, here of a die with fewer than four (R242, R243). -/
theorem exec_mapOutComplete_done {v : State} (emptied : emptyHole (mapOutCopied s stack ch) (stack / 3) = some v)
    (few : (mappedOut v stack ch).getObj (Obj.mapouts (stack / 3)) < 4) :
    exec (.mapOutComplete stack ch) s = .next (settleFrozen (mappedOut v stack ch)) := by
  have spared : ¬ (4 ≤ (mappedOut v stack ch).getObj (Obj.mapouts (stack / 3)) ∧
      ((failingChannels (mappedOut v stack ch)).any fun c => c.1 / 3 == stack / 3) = true) := fun all => few.not_ge all.1
  rw [mapOutCopied] at emptied
  simp only [exec, execMapOutComplete, List.contains_iff_mem.2 going, onlyIf_true, emptied]
  exact congrArg (fun t => Host.Outcome.next (settleFrozen t)) (if_neg spared)

end MapOut

/-- Settles O52: each command of an error, of a map-out's end and of a spare's replacement has its equation; what a dead core, a poisoned line and
a first corrected error leave has one lemma each. -/
theorem errorsCountAndMapOut : Obligations.ErrorsCountAndMapOut := by
  unfold Obligations.ErrorsCountAndMapOut
  intro s
  exact ⟨fun c hc work runs => exec_coreHang hc work runs,
    fun c hung alive unused first => coreDead_marks alive unused first,
    fun die row failed hd hr up => exec_rowSelfTest hd hr up,
    fun st ch hs hc => ⟨fun b out => exec_correctedError_mappedOut hs hc out,
      fun on => ⟨exec_correctedError_stack hs hc on, exec_correctedError_stack hs hc on⟩, stackCorrected_od hs⟩,
    fun ch hc => ⟨exec_correctedError_ddr hc s, exec_correctedError_cxl hc s⟩,
    fun p hp => exec_correctedError_chiplet hp s,
    fun q hq => exec_correctedError_port hq s,
    fun line r there => exec_uncorrectableError there,
    fun line outside unbanked => ⟨uncorrectable_patrol outside unbanked, fun i hi =>
      (uncorrectable_patrol outside unbanked).symm ▸ countUncorrected_marks hi⟩,
    fun line there serves => ⟨exec_patrolScrub_clean there serves, exec_patrolScrub_clean there serves⟩,
    fun x hx up => exec_cxlLinkFail hx up,
    fun stack ch going => ⟨exec_mapOutComplete_deferred going, fun v emptied => exec_mapOutComplete_done going emptied⟩,
    fun die row c found free => exec_spareReplacementComplete found free⟩

end Sys2Proof.Machine
end

section
/-! SUPPORT. Proofs of MIX (R286): what its command does with what it asks for. -/

namespace Sys2Proof.Machine

variable {s t : State} {r : CmdRef} {c : Cmd}

/-! ### MIX -/

/-- A MIX that asks for nothing completes at once. -/
theorem exec_mixCmd_idle (run : Running s r [0x0D] c) (fresh : c.recs = []) (good : mixBad s r.ch c = false)
    (tokens : mixTokens c = 0) (steps : mixSteps c = 0) : exec (.mixCmd r) s = .next (endCmd s r.ch c { status := stOk }) := by
  refine (withCmd_of_running run _).trans ?_
  simp [fresh, good, tokens, steps]

/-- A launch record of a MIX that its fields use stands at its alignment and has no reserved bit (R286). -/
theorem used_record_sound {count addr : Nat} {bs : List Byte} (sound : count ≠ 0 → addr % 64 = 0 ∧ launchBad bs = false) :
    (count != 0 && (addr % 64 != 0 || launchBad bs)) = false := by
  by_cases used : count = 0
  · simp [used]
  · obtain ⟨aligned, clean⟩ := sound used
    simp [aligned, clean]

/-- A MIX whose used records are read and sound keeps them and begins its tick's work. -/
theorem exec_mixCmd_starts {bs : List Byte} (run : Running s r [0x0D] c) (fresh : c.recs = []) (good : mixBad s r.ch c = false)
    (asks : ¬ (mixTokens c = 0 ∧ mixSteps c = 0)) (read : readRecs s r.ch c = .ok (t, bs))
    (prefill : mixTokens c ≠ 0 → c.field 16 8 % 64 = 0 ∧ launchBad (bs.take 48) = false)
    (decode : mixSteps c ≠ 0 → c.field 24 8 % 64 = 0 ∧ launchBad (bs.drop 48) = false) :
    exec (.mixCmd r) s = .next (mixTick (putFlight t r.ch { c with recs := bs }) r.ch r.seq) := by
  refine (withCmd_of_running run _).trans ?_
  simp only [fresh, List.isEmpty_nil, Bool.not_true, Bool.false_eq_true, if_false, good, if_neg asks, read, used_record_sound prefill,
    used_record_sound decode, Bool.or_self]

/-- Settles O34: the command is taken apart by what it asks for; its records are those that were read, once (log 37). -/
theorem mixStarts : Obligations.MixStarts := by
  unfold Obligations.MixStarts
  intro s r c run fresh good
  exact ⟨exec_mixCmd_idle run fresh good, fun asks s' bs read prefill decode => exec_mixCmd_starts run fresh good asks read prefill decode⟩

end Sys2Proof.Machine
end

section
/-! SUPPORT. Proofs of the fetch and the dispatch of commands (R274, R293 to R295, R299, R300): the objects in which the device's own reads count, the
bytes of a command, and the head of a queue. -/

namespace Sys2Proof.Machine

variable {s t : State} {n k ch : Nat} {c : Cmd}

/-! ### The objects in which a read at the home counts (R188, R207) -/

/-- An object that no read of slice `n` at a home changes: it counts neither the slice's accesses to an LLM nor a compute die's broadcasts. -/
structure Uncounted (n k : Nat) : Prop where
  hits : Obj.llmHits n ≠ k
  misses : Obj.llmMisses n ≠ k
  broadcasts : ∀ d < 4, Obj.broadcasts d ≠ k

theorem Uncounted.getObj_invalidateDie (h : Uncounted n k) {d : Nat} (hd : d < 4) (s : State) (wr : Option Nat) (l : LineKey) :
    (invalidateDie s wr d l).getObj k = s.getObj k := by
  have counted : (s.addObj (Obj.broadcasts d) 1).getObj k = s.getObj k := State.getObj_addObj_ne 1 (h.broadcasts d hd)
  simp only [invalidateDie]
  split
  · rfl
  · split_ifs
    · exact counted
    · exact counted
    · rfl
    · rfl

theorem Uncounted.getObj_dropCopy (h : Uncounted n k) (s : State) (wr : Option Nat) (a : Nat) (l : LineKey) :
    (dropCopy s wr a l).getObj k = s.getObj k := by
  obtain same | ⟨die, u, same, -, -, od⟩ := dropCopy_cases s wr a l
  · rw [same]
  · rw [same, h.getObj_invalidateDie die]
    simp only [State.getObj, od]

theorem Uncounted.getObj_llmRoom (h : Uncounted n k) {m d x : Nat} (room : llmRoom s m d x = some t) : t.getObj k = s.getObj k := by
  simp only [llmRoom] at room
  split at room
  · cases room
  · split at room
    · cases room; rfl
    · split at room
      · cases room
      · split at room
        · cases room; rfl
        · split at room
          · split at room
            · cases room; exact h.getObj_dropCopy s none d _
            · cases room; rfl
          · cases room; rfl

theorem Uncounted.getObj_llmTouch (h : Uncounted n k) (s : State) (d x : Nat) (is : List Nat) (w : Bool) (f : Fill) :
    (llmTouch s n d x is w f).getObj k = s.getObj k := by
  simp only [llmTouch]
  have counted : (if llmHit s d x is = true then s.addObj (Obj.llmHits n) 1 else s.addObj (Obj.llmMisses n) 1).getObj k = s.getObj k := by
    split_ifs
    · exact State.getObj_addObj_ne 1 h.hits
    · exact State.getObj_addObj_ne 1 h.misses
  generalize (if llmHit s d x is = true then s.addObj (Obj.llmHits n) 1 else s.addObj (Obj.llmMisses n) 1) = u at counted ⊢
  split
  · exact counted
  · split
    · exact counted
    · split
      · exact counted
      · next room => exact (h.getObj_llmRoom room).trans counted

/-- What the home reads of a line changes no object. -/
@[simp] theorem dirHomeRead_getObj (s : State) (l : LineKey) (k : Nat) : (dirHomeRead s l).getObj k = s.getObj k := by
  simp only [dirHomeRead]
  split
  · split
    · cases l with
      | dev x => exact congrArg (sget objReset · k) (dirtyHome_od s _ x)
      | shr m x => rfl
    · rfl
  · rfl

theorem Uncounted.getObj_readVia_home (h : Uncounted n k) (s : State) (l : LineKey) (is : List Nat) (f : Fill) :
    (readVia s n (lineDie s l) l is f).getObj k = s.getObj k := by
  cases l with
  | dev x => simp only [readVia, if_true, ite_self, h.getObj_llmTouch, dirHomeRead_getObj, apply_ite (State.getObj · k)]
  | shr m x => simp only [readVia, if_true, apply_ite (State.getObj · k), dirHomeRead_getObj, ite_self]

@[simp] theorem readSect_getObj (s : State) (x : SectKey) (k : Nat) : (readSect s x).1.getObj k = s.getObj k := by
  simp only [readSect]
  split <;> rfl

theorem Uncounted.getObj_readRunGo (h : Uncounted n k) (f : Fill) (space fuel : Nat) {addr len : Nat} {bs : List Byte}
    (read : readRunGo f .device n space fuel s addr len = .ok (t, bs)) : t.getObj k = s.getObj k := by
  induction fuel generalizing s t addr len bs with
  | zero => cases read; rfl
  | succ fuel ih =>
    simp only [readRunGo] at read
    split at read
    · cases read; rfl
    · split at read
      · cases read
      · split at read
        · cases read
        · next rest =>
          cases read
          rw [ih rest]
          exact (readSect_getObj _ _ k).trans (h.getObj_readVia_home s _ _ f)

/-- The device's own read of a slice's memory changes no other object than those that count it. -/
theorem Uncounted.getObj_readRun (h : Uncounted n k) {space addr len : Nat} {bs : List Byte} (read : readRun s n space addr len = .ok (t, bs)) :
    t.getObj k = s.getObj k := h.getObj_readRunGo .sectors space _ read

theorem uncounted_ringBase (n : Nat) (ch : Nat) : Uncounted n (Obj.ringBase ch) where
  hits := by simp only [Obj.llmHits, Obj.ringBase]; omega
  misses := by simp only [Obj.llmMisses, Obj.ringBase]; omega
  broadcasts d hd := by simp only [Obj.broadcasts, Obj.ringBase]; omega

/-! ### Fetch -/

/-- The command at FETCH `f` of a channel whose command word is `wb`, as it is taken in `s` (Table 10.1, R300). -/
def fetchedCmd (s : State) (n f : Nat) (wb slot payload : List Byte) : Cmd :=
  let w := leNat wb
  { seq := f, op := bits w 7 0, ext := bits w 10 8, serial := bitN w 11, tag := bits w 63 32, res := bits w 31 12 != 0,
    slot := slot, payload := payload, relTime := s.now, chunk := s.getObj (Obj.chunkTokens n) }

/-- The bytes of the command at FETCH of a channel: word, slot and extension slots, each read in the state that the read before it left. -/
structure CommandRead (s s1 s2 s3 : State) (ch : Nat) (wb slot payload : List Byte) : Prop where
  word : readRun s (chSliceOf s ch) 2 (s.getObj (Obj.cwordBase ch) + 8 * (s.getObj (Obj.fetch ch) % s.getObj (Obj.ringSlots ch))) 8 = .ok (s1, wb)
  slot : readRun s1 (chSliceOf s ch) 2 (s.getObj (Obj.ringBase ch) + 64 * (s.getObj (Obj.fetch ch) % s.getObj (Obj.ringSlots ch))) 64 = .ok (s2, slot)
  payload : readExt s2 (chSliceOf s ch) ch (s.getObj (Obj.fetch ch) + 1) (bits (leNat wb) 10 8) = .ok (s3, payload)

theorem fetchOne_reads {s1 s2 s3 : State} {wb slot payload : List Byte} (read : CommandRead s s1 s2 s3 ch wb slot payload) :
    fetchOne s ch = .next (takeCommand (s3.putObj (Obj.fetch ch) ((s.getObj (Obj.fetch ch) + 1 + bits (leNat wb) 10 8) % 2 ^ 32)) ch
      (fetchedCmd s3 (chSliceOf s ch) (s.getObj (Obj.fetch ch)) wb slot payload)) := by
  have base : s1.getObj (Obj.ringBase ch) = s.getObj (Obj.ringBase ch) := (uncounted_ringBase _ ch).getObj_readRun read.word
  simp only [fetchOne, read.word, base, read.slot, read.payload, fetchedCmd]

/-- A fetch whose ring is sound and whose TAIL is within it reads the command at FETCH. -/
theorem exec_commandFetch (hch : ch < 256) (may : mayFetch s ch = true) (sound : areasBad s ch = false)
    (within : ((s.chan ch).tail + 2 ^ 32 - s.getObj (Obj.fetch ch)) % 2 ^ 32 ≤ s.getObj (Obj.ringSlots ch)) :
    exec (.commandFetch ch) s = fetchOne s ch := by
  simp only [exec, execCommandFetch, if_neg (Nat.not_le.2 hch), may, onlyIf_true, sound, Bool.false_or, decide_eq_true_eq,
    if_neg (Nat.not_lt.2 within)]

/-! ### Dispatch -/

section Dispatch

variable {q : Resource} (free : resourceFree s q = true) (head : (nextHead s q).2 = some (ch, c))
include free head

/-- A head whose DCLASS its slice is not granted is refused (R274). -/
theorem exec_dispatch_refused (denied : ((nextHead s q).1.getObj (Obj.sDclasses (chSliceOf (nextHead s q).1 ch))).testBit c.dclass = false) :
    exec (.dispatch q) s = .next (endCmd (nextHead s q).1 ch c { status := stRefused }) := by
  simp only [exec, execDispatch, free, onlyIf_true, head, withSome_some, denied, Bool.not_false, if_true]

/-- Any other head goes into flight, numbered in the order of dispatch, and STARTED counts it. -/
theorem exec_dispatch_starts (granted : ((nextHead s q).1.getObj (Obj.sDclasses (chSliceOf (nextHead s q).1 ch))).testBit c.dclass = true) :
    let u := (nextHead s q).1
    let x := u.chan ch
    exec (.dispatch q) s = .next ((({ u with nextOrd := u.nextOrd + 1 }).setChan { x with
      fenceAt := if c.serial then some c.seq else x.fenceAt, fetched := x.fetched.drop 1, flight := x.flight ++ [{ c with ord := u.nextOrd }] }).addObj
      (Obj.started ch) 1) := by
  simp only [exec, execDispatch, free, onlyIf_true, head, withSome_some, granted, Bool.not_true, Bool.false_eq_true, if_false]

end Dispatch

/-- Settles O44: the reads of a fetch change no RING_BASE, so that the slots come from where the state said; a dispatch refuses or starts its
head. -/
theorem commandsFetchedAndDispatched : Obligations.CommandsFetchedAndDispatched := by
  unfold Obligations.CommandsFetchedAndDispatched
  refine ⟨?_, fun s q ch c free head => ⟨exec_dispatch_refused free head, exec_dispatch_starts free head⟩⟩
  intro s s1 s2 s3 ch wb slot payload hch may sound n f slots within word slotRead w payloadRead c
  exact (exec_commandFetch hch may sound within).trans (fetchOne_reads ⟨word, slotRead, payloadRead⟩)

end Sys2Proof.Machine
end

section
/-! SUPPORT. Proofs of boundaries, saves, restores and overrun (R261, R277, R278, R282): what a boundary leaves of clocks and memory where no store,
lock set or slice has anything to do at it. -/

namespace Sys2Proof.Machine

variable {s t u : State} {B ctx : Nat} {l k : Launch} {r : CmdRef} {c : Cmd}

/-! ### What releases and barriers leave: objects, memory and the granule -/

/-- The objects, memory and the number of the granule. -/
def clockwork (s : State) : List (Nat × Nat) × Mem × Nat := (s.od, s.mem, s.granule)

theorem od_of_clockwork (same : clockwork t = clockwork s) : t.od = s.od := congrArg Prod.fst same

theorem mem_of_clockwork (same : clockwork t = clockwork s) : t.mem = s.mem := congrArg (·.2.1) same

theorem granule_of_clockwork (same : clockwork t = clockwork s) : t.granule = s.granule := congrArg (·.2.2) same

theorem getObj_of_clockwork (same : clockwork t = clockwork s) (k : Nat) : t.getObj k = s.getObj k :=
  congrArg (sget objReset · k) (od_of_clockwork same)

theorem clockwork_net (s : State) (n : Net) : clockwork { s with net := n } = clockwork s := rfl

@[simp] theorem clockwork_releaseCmd (s : State) (ch seq n : Nat) : clockwork (releaseCmd s ch seq n) = clockwork s := by
  simp only [releaseCmd]
  split <;> rfl

@[simp] theorem clockwork_releaseAt (s : State) (ch n : Nat) : clockwork (releaseAt s ch n) = clockwork s := by
  refine foldl_leaves clockwork (fun s c => ?_) _ s
  simp only
  split_ifs
  · exact clockwork_releaseCmd _ ch c.seq n
  · rfl
  · exact clockwork_releaseCmd s ch c.seq n

@[simp] theorem clockwork_sendDraft (s : State) (q kind : Nat) (f : DraftFrame) : clockwork (sendDraft s q kind f) = clockwork s := by
  simp only [sendDraft]
  split_ifs <;> rfl

@[simp] theorem clockwork_repeatBarriers (s : State) : clockwork (repeatBarriers s) = clockwork s := by
  simp only [repeatBarriers]
  split
  · rfl
  · exact foldl_leaves clockwork (fun s x => clockwork_sendDraft s _ _ _) _ s

/-! ### The boundary of a tick -/

theorem landEvery_of_no_store (none_ : s.stores = []) : landEvery s = s := by
  simp only [landEvery, none_, List.map_nil, List.foldl_nil]

theorem applyPeriod_of_no_change (none_ : s.net.period = []) : applyPeriod s B = s := by
  simp only [applyPeriod, none_, List.find?_nil]

/-- A wait for a bank point that begins is no NOTIFY write. -/
theorem bankWaits_notifyDue (quiet : ∀ x ∈ s.chans, x.notifyDue = false) : ∀ x ∈ (bankWaits s).chans, x.notifyDue = false := by
  intro x listed
  obtain ⟨y, before, rfl⟩ := List.mem_map.1 listed
  exact quiet y before

/-- Nothing in the state ends at a boundary but the tick: no change of the period, no store and no NOTIFY write is pending. -/
structure BoundaryQuiet (s : State) : Prop where
  period : s.net.period = []
  stores : s.stores = []
  notify : ∀ x ∈ s.chans, x.notifyDue = false

/-- The state with its clocks at tick `B`. -/
def clocksAt (s : State) (B : Nat) : State :=
  let t := s.getObj Obj.tickStart + periodNs s
  { (((s.putObj Obj.deviceTime (max s.now t)).putObj Obj.tickStart t).putObj Obj.tickNumber B) with granule := 0 }

@[simp] theorem clockwork_bankWaits (s : State) : clockwork (bankWaits s) = clockwork s := rfl

/-! ### Lock sets and slices are those of objects that no clock is -/

theorem enabledSets_congr (same : ∀ j < 8, t.getObj (Obj.lsEnable j) = s.getObj (Obj.lsEnable j)) : enabledSets t = enabledSets s :=
  List.filter_congr fun j hj => by rw [same j (List.mem_range.1 hj)]

theorem liveSlices_congr (same : ∀ n < 64, t.getObj (Obj.sState n) = s.getObj (Obj.sState n)) : liveSlices t = liveSlices s :=
  List.filter_congr fun n hn => by rw [same n (List.mem_range.1 hn)]

theorem clocksAt_getObj_ne (s : State) (B : Nat) {k : Nat} (time : Obj.deviceTime ≠ k) (start : Obj.tickStart ≠ k) (number : Obj.tickNumber ≠ k) :
    (clocksAt s B).getObj k = s.getObj k :=
  (State.getObj_putObj_ne _ _ number).trans ((State.getObj_putObj_ne _ _ start).trans (State.getObj_putObj_ne _ _ time))

theorem enabledSets_clocksAt (s : State) (B : Nat) : enabledSets (clocksAt s B) = enabledSets s :=
  enabledSets_congr fun j hj => clocksAt_getObj_ne s B (by simp only [Obj.deviceTime, Obj.lsEnable]; omega)
    (by simp only [Obj.tickStart, Obj.lsEnable]; omega) (by simp only [Obj.tickNumber, Obj.lsEnable]; omega)

theorem liveSlices_clocksAt (s : State) (B : Nat) : liveSlices (clocksAt s B) = liveSlices s :=
  liveSlices_congr fun n hn => clocksAt_getObj_ne s B (by simp only [Obj.deviceTime, Obj.sState]; omega)
    (by simp only [Obj.tickStart, Obj.sState]; omega) (by simp only [Obj.tickNumber, Obj.sState]; omega)

theorem clocksAt_tick (s : State) (B : Nat) : (clocksAt s B).tick = B := State.getObj_putObj_same _ _ _

theorem clocksAt_tickStart (s : State) (B : Nat) : (clocksAt s B).getObj Obj.tickStart = s.getObj Obj.tickStart + periodNs s :=
  (State.getObj_putObj_ne _ _ (by decide)).trans (State.getObj_putObj_same _ _ _)

theorem clocksAt_now (s : State) (B : Nat) : (clocksAt s B).now = max s.now (s.getObj Obj.tickStart + periodNs s) :=
  (State.getObj_putObj_ne _ _ (by decide)).trans ((State.getObj_putObj_ne _ _ (by decide)).trans (State.getObj_putObj_same _ _ _))

/-- Where nothing is pending, the boundary ends no more than the waits of BANK begin. -/
theorem notifyAgain_of_quiet (quiet : BoundaryQuiet s) : notifyAgain (landEvery (bankWaits (applyPeriod s B))) = bankWaits s := by
  obtain ⟨period, stores, notify⟩ := quiet
  rw [applyPeriod_of_no_change period, landEvery_of_no_store (s := bankWaits s) stores]
  exact notifyAgain_of_none_due (bankWaits_notifyDue notify)

/-- The boundary of a tick ends with the slices' (R272, R277); before them a quiet one without a lock set moves the clocks alone. -/
theorem exec_tickBoundary (up : 5 ≤ s.getObj Obj.moduleState) : ∃ v, exec .tickBoundary s = .next ((liveSlices v).foldl boundarySlice v) ∧
    (BoundaryQuiet s → enabledSets s = [] → clockwork v = clockwork (clocksAt s ((s.tick + 1) % 2 ^ 48))) := by
  have means : exec .tickBoundary s = execTickBoundary s := rfl
  rw [means]
  unfold execTickBoundary
  rw [decide_eq_true up, onlyIf_true]
  extract_lets B start clocks begun sets released net barriers
  refine ⟨barriers, rfl, fun quiet alone => ?_⟩
  have repeated : clockwork barriers = clockwork released := (clockwork_repeatBarriers _).trans (clockwork_net released _)
  have channels : clockwork released = clockwork sets := by
    refine foldl_leaves clockwork (fun s ch => ?_) _ sets
    split
    · rfl
    · exact clockwork_releaseAt s ch B
  have ended : begun = bankWaits (clocksAt s B) := notifyAgain_of_quiet (s := clocksAt s B) ⟨quiet.period, quiet.stores, quiet.notify⟩
  have none_ : enabledSets begun = [] := ended ▸ (enabledSets_clocksAt s B).trans alone
  have unlocked : sets = begun := by
    show (enabledSets begun).foldl _ begun = begun
    rw [none_, List.foldl_nil]
  rw [repeated, channels, unlocked, ended, clockwork_bankWaits]

/-- Where no slice exists, a quiet boundary is over with the releases. -/
theorem slices_of_quiet {v : State} (same : clockwork v = clockwork (clocksAt s B)) (vacant : liveSlices s = []) :
    (liveSlices v).foldl boundarySlice v = v := by
  have none_ : liveSlices v = [] :=
    (liveSlices_congr fun n _ => getObj_of_clockwork same (Obj.sState n)).trans ((liveSlices_clocksAt s B).trans vacant)
  rw [none_, List.foldl_nil]

/-! ### The boundary of a granule -/

/-- The state at granule boundary `k` of the tick (R277). -/
def granuleAt (s : State) (k : Nat) : State :=
  { s.putObj Obj.deviceTime (max s.now (s.getObj Obj.tickStart + k * 10000)) with granule := k }

theorem exec_granuleBoundary (up : s.getObj Obj.moduleState = 5) (within : (s.granule + 1) * 10000 < periodNs s) :
    exec .granuleBoundary s =
      .next ((liveSlices (granuleAt s (s.granule + 1))).foldl granuleSlice (bankWaits (granuleAt s (s.granule + 1)))) := by
  simp only [exec, execGranuleBoundary, up, beq_self_eq_true, within, decide_true, Bool.and_self, onlyIf_true]
  rfl

theorem liveSlices_granuleAt (s : State) (k : Nat) : liveSlices (granuleAt s k) = liveSlices s :=
  liveSlices_congr fun n hn => State.getObj_putObj_ne _ _ (by simp only [Obj.deviceTime, Obj.sState]; omega)

theorem granuleAt_now (s : State) (k : Nat) : (granuleAt s k).now = max s.now (s.getObj Obj.tickStart + k * 10000) :=
  State.getObj_putObj_same _ _ _

/-! ### Saves and restores (R278) -/

/-- A save whose launch has nothing outstanding ends: its cores are free, its resident time stops. -/
theorem exec_saveComplete (found : s.launch? ctx = some l) (alive : l.killed = false) (saving : l.phase = .saving) (clean : l.reports = [])
    (answered : loadsPending s ctx = false) (drained : ∀ c ∈ s.cores, ∀ e ∈ c.mq, e.g.ctx ≠ ctx) (landed : storesDone s ctx = (u, true))
    (kept : (dropFills u ctx).launch? ctx = some k) (cleanly : k.reports = []) :
    exec (.saveComplete ctx) s = .next (startSlice (placeSlice ((dropFills u ctx).setLaunch
      { k with phase := .saved, since := u.now - k.since, live := k.live.map settledGang }) k.slice) k.slice) := by
  have queues : (s.cores.all fun c => c.mq.all fun e => e.g.ctx != ctx) = true :=
    List.all_eq_true.2 fun c hc => List.all_eq_true.2 fun e he => bne_iff_ne.2 (drained c hc e he)
  simp only [exec, execSaveComplete, found, withSome_some, saving, alive, clean, answered, queues, landed, kept, cleanly]
  rfl

theorem exec_restoreComplete (found : s.launch? ctx = some l) (alive : l.killed = false) (restoring : l.phase = .restoring) :
    let v := placeAll (s.setLaunch { l with phase := .resident, granules := 0 }) ctx
    exec (.restoreComplete ctx) s = .next ((((v.launch? ctx).map (·.live)).getD []).foldl (fun v g => applyInv v g.core) v) := by
  simp only [exec, execRestoreComplete, found, withSome_some, restoring, alive]
  rfl

/-! ### Overrun (R282) -/

/-- A command that overruns and is no collective is stopped, its launches' debts cleared. -/
theorem exec_overrunStop (found : findFlight s r.ch r.seq = some c) (open_ : c.final = none) (due : overrunDue s r.ch c = true)
    (plain : s.net.colls.find? (fun x => x.ch == r.ch && x.seq == r.seq) = none) :
    let mine (l : Launch) : Bool := l.ch == r.ch && l.seq == r.seq
    let u := (s.launches.filter mine).foldl clearDebt (s.addObj (Obj.overruns (chSliceOf s r.ch)) 1)
    exec (.overrunStop r) s = .next (stopCommand { u with
      launches := mapIf mine (fun l => { l with overAt := none, overrun := 0 }) u.launches } r.ch c stOverrun) := by
  intro mine u
  have colls : u.net = s.net := foldl_leaves (f := clearDebt) (·.net) (fun _ _ => rfl) _ _
  simp only [exec, execOverrunStop, found, withSome_some, open_, Option.isNone_none, due, Bool.and_self, onlyIf_true]
  rw [show ((s.launches.filter mine).foldl clearDebt (s.addObj (Obj.overruns (chSliceOf s r.ch)) 1)).net = s.net from colls, plain]

/-- Settles O45: each event has its equation; a quiet boundary leaves all but the clocks, which come to the boundary's time at the earliest
(log 2). -/
theorem ticksGranulesAndSlicing : Obligations.TicksGranulesAndSlicing := by
  unfold Obligations.TicksGranulesAndSlicing
  intro s
  refine ⟨fun up => ?_, fun up within => ⟨_, exec_granuleBoundary up within, ?_⟩, ?_, ?_⟩
  · obtain ⟨v, goes, moved⟩ := exec_tickBoundary up
    refine ⟨_, goes, fun alone vacant period stores notify => ?_⟩
    have same := moved ⟨period, stores, notify⟩ alone
    rw [slices_of_quiet same vacant]
    exact ⟨(getObj_of_clockwork same _).trans (clocksAt_tick s _), (getObj_of_clockwork same _).trans (clocksAt_tickStart s _),
      (getObj_of_clockwork same _).trans (clocksAt_now s _), granule_of_clockwork same, (mem_of_clockwork same).trans rfl⟩
  · intro vacant
    rw [liveSlices_granuleAt, vacant, List.foldl_nil]
    exact ⟨rfl, granuleAt_now s _, rfl⟩
  · intro ctx l found alive
    exact ⟨fun saving clean answered drained u k landed kept cleanly =>
      exec_saveComplete found alive saving clean answered drained landed kept cleanly, exec_restoreComplete found alive⟩
  · intro r c found open_ due plain
    exact exec_overrunStop found open_ due plain

end Sys2Proof.Machine
end

section
/-! SUPPORT. Proofs of lock sets (R283, R359 to R372): what a change of a lock set's slot leaves of it, and one equation for each event of a vote, a
bank point, a before-image, a rollback and a maintenance point. -/

namespace Sys2Proof.Machine

variable {s t u : State} {k n page pa : Nat} {r : CmdRef} {c : Cmd}

/-! ### The slot of a lock set -/

theorem lockSet_k (s : State) (k : Nat) : (s.lockSet k).k = k := by
  unfold State.lockSet
  cases found : s.locks.find? fun x => x.k == k with
  | none => rfl
  | some x => simpa using List.find?_some found

theorem lockSet_setLockSet {x : LockSet} (slot : x.k = k) : (s.setLockSet x).lockSet k = x := by
  subst slot
  simp only [State.lockSet, State.setLockSet, find?_upsert, Option.getD_some]

theorem lockSet_updSet {f : LockSet → LockSet} (slot : ∀ x, (f x).k = x.k) (s : State) (k : Nat) : (updSet s k f).lockSet k = f (s.lockSet k) :=
  lockSet_setLockSet ((slot _).trans (lockSet_k s k))

@[simp] theorem noteReserve_lockSet (s : State) (k : Nat) : (noteReserve s).lockSet k = s.lockSet k := rfl

/-! ### Votes and BANK (R283, R366) -/

theorem exec_voteClose (hk : k < 8) (on : s.getObj (Obj.lsEnable k) = 1) (joined : s.getObj Obj.moduleState = 5)
    (uncast : (s.lockSet k).mine = none) :
    let B := (s.tick + 1) % 2 ^ 48
    let v := ownVote s k B
    let late := v.ready && intervalDue s k (B - s.getObj (Obj.lsShift k)) && !(setIdle s k)
    let u := if late then s.addObj (Obj.banksDeferred k) 1 else s
    exec (.voteClose k) s = .next (tryVotes (updSet u k fun x => { x with mine := some v, outcome := none }) k) := by
  simp only [exec, execVoteClose, if_neg (Nat.not_le.2 hk), on, joined, uncast, beq_self_eq_true, Bool.and_self, onlyIf_true]

section Bank

variable (run : Running s r [0x0B] c)
include run

section WellFormed

variable (res : c.res = false) (sched : c.schedReserved = false) (ext : c.ext = 0) (slot : (c.slot.drop 16).any (· != 0) = false)
include res sched ext slot

/-- A well-formed BANK is refused outside lock sets. -/
theorem exec_bankCmd_outside (outside : lsOf s r.ch = none) : exec (.bankCmd r) s = .next (endCmd s r.ch c { status := stRefused }) := by
  refine (withCmd_of_running run _).trans ?_
  simp only [res, sched, ext, slot, bne_self_eq_false, Bool.or_self, Bool.false_eq_true, if_false, outside]

/-- In a lock set it waits for its bank point. -/
theorem exec_bankCmd_inside (inside : lsOf s r.ch ≠ none) : exec (.bankCmd r) s = .next s := by
  obtain ⟨j, member⟩ := Option.ne_none_iff_exists'.1 inside
  refine (withCmd_of_running run _).trans ?_
  simp only [res, sched, ext, slot, bne_self_eq_false, Bool.or_self, Bool.false_eq_true, if_false, member]

end WellFormed

/-- The seal completes a BANK that is alone in its channel (R367). -/
theorem finishBanks_of_alone (b : Nat) (none_ : (s.chan r.ch).fetched = []) (alone : (s.chan r.ch).flight = [c]) :
    finishBanks s b r.ch = endCmd s r.ch c { status := stOk, bytes := b } := by
  obtain ⟨-, op, open_⟩ := run
  simp only [finishBanks, none_, alone, List.foldl_cons, List.foldl_nil]
  exact if_pos ⟨List.mem_singleton.1 op, open_⟩

end Bank

/-! ### Parity and before-images (R361 to R365) -/

theorem exec_parityUpdateComplete {b : Nat} {bs : List Nat} (hk : k < 8) (pending : (s.lockSet k).parityDone = false) (reads : setFrozen s k = false)
    (sealed : (s.lockSet k).seals = b :: bs) : exec (.parityUpdateComplete k) s =
      .next (confirmBank (updSet s k fun x => { x with parityDone := true, parity := parityAll s k b }) k) := by
  simp only [exec, execParityUpdateComplete, hk, decide_true, pending, reads, sealed, List.isEmpty_cons, List.headD_cons, Bool.not_false, Bool.and_self,
    onlyIf_true]

/-- The lock sets that bank a slice take the page's image, where it is not there since the last seal. -/
def imagesTaken (u : State) (n page pa : Nat) : State :=
  let lacks (j : Nat) : Bool := !((u.lockSet j).images.any fun i => i.slice == n && i.page == page && some i.tick == (u.lockSet j).seals.head?)
  ((bankersOf u n).filter lacks).foldl (fun s j => takeImage s j n page pa) u

theorem exec_beforeImageCopy {rest : List (Nat × Nat)} (waits : s.bank.waiting = (n, page) :: rest) :
    let u : State := { s with bank := { s.bank with waiting := rest } }
    pageBase u n page = some pa → pageFrozen u pa = false →
      exec (.beforeImageCopy n page) s = .next (clashResults (logWrite (imagesTaken u n page pa) n (page * 65536)) n) := by
  intro u mapped reads
  have base : pageBase s n page = some pa := mapped
  have calm : pageFrozen s pa = false := reads
  have means : exec (.beforeImageCopy n page) s = execBeforeImageCopy n page s := rfl
  rw [means]
  simp only [execBeforeImageCopy, waits, List.head?_cons, List.drop_one, List.tail_cons, beq_self_eq_true, base, calm, Bool.not_false, Bool.and_self,
    onlyIf_true]
  simp only [u] at mapped
  simp only [mapped]
  rfl

theorem clashResults_of_apart (apart : regionClash u n = false) : clashResults u n = u := by
  rw [clashResults, if_neg (Bool.eq_false_iff.1 apart)]

theorem clashResults_of_clash (clash : regionClash u n = true) : clashResults u n = unpredictable u n := by
  rw [clashResults, if_pos clash]

/-- The before-image of a page, as of the last sealed tick of a lock set (R362). -/
def imageOf (u : State) (k n page pa : Nat) : Image :=
  { slice := n, page := page, pa := pa, bytes := pageCells u pa, tick := (u.lockSet k).seals.headD 0, marks := pageMarks u pa }

theorem imageOf_fields (u : State) (k n page pa : Nat) : (imageOf u k n page pa).page = page ∧ (imageOf u k n page pa).slice = n ∧
    (imageOf u k n page pa).bytes = pageCells u pa ∧ (imageOf u k n page pa).marks = pageMarks u pa := by
  simp only [imageOf, and_self]

/-- An image for which the reserve has room stands last among the set's. -/
theorem takeImage_of_room (room : 65536 ≤ reserveLeft u) :
    (takeImage u k n page pa).lockSet k = { u.lockSet k with images := (u.lockSet k).images ++ [imageOf u k n page pa] } := by
  simp only [takeImage, if_pos room, noteReserve_lockSet]
  exact lockSet_updSet (f := fun x => { x with images := x.images ++ [imageOf u k n page pa] }) (fun _ => rfl) u k

theorem takeImage_of_no_room (full : reserveLeft u < 65536) : takeImage u k n page pa = u.putObj (Obj.unprotected k) 1 :=
  if_neg (Nat.not_le.2 full)

/-! ### Rollback and its end (R370, R372) -/

theorem exec_rollbackDetect {cls : Nat} (hk : k < 8) (on : s.getObj (Obj.lsEnable k) = 1) (low : 1 ≤ cls) (high : cls ≤ 4)
    (holds : s.getObj (Obj.lsFailed k) ≠ 1) :
    let f : DraftFrame := { seq := 0, origin := s.ownId, arg0 := s.getObj (Obj.lsId k), arg1 := (s.lockSet k).seals.headD 0, arg2 := cls,
                            arg3 := s.ownId }
    exec (.rollbackDetect k cls) s = .next (beginRollback (floodDraft s 0x0A f none) k cls s.ownId f.arg1) := by
  have inRange : ¬ (8 ≤ k ∨ cls < 1 ∨ 4 < cls) := by omega
  simp only [exec, execRollbackDetect, if_neg inRange, on, beq_self_eq_true, onlyIf_true, originate, if_neg holds]

/-- The slot of a lock set restored to sealed tick `b` with parity pages `ps`: that tick alone, no images, and the rollback as restored (R370 step 4). -/
def restoredSlot (rb : Rb) (b now : Nat) (ps : List Parity) (x : LockSet) : LockSet :=
  { x with images := [], seals := [b], parity := ps, parityDone := true, unconfirmed := false, confirmed := false, ext := 0, extPrev := 0,
           mapSeals := x.mapSeals.filter (fun m => m.tick == b), rb := some { rb with restored := true, restoredAt := now, locks := [] } }

/-- The restore of a rollback ends with the slot as restored, whatever else it has written back. -/
theorem exec_restoreCompleteRollback {rb : Rb} (going : (s.lockSet k).rb = some rb) (first : rb.restored = false) (unheld : heldImages s k = [])
    (reads : setFrozen s k = false) (warm : (rebuildLines s (restoreImages s k) k).getObj Obj.moduleState ≠ 6) :
    ∃ (v : State) (ps : List Parity), exec (.restoreCompleteRollback k) s =
      .next (noteReserve (updSet v k (restoredSlot rb ((s.lockSet k).seals.getLast?.getD 0) (upNow s) ps))) := by
  have means : exec (.restoreCompleteRollback k) s = execRestoreCompleteRollback k s := rfl
  rw [means]
  simp only [execRestoreCompleteRollback, going, withSome_some, first, unheld, reads, List.isEmpty_nil, Bool.not_false, Bool.and_self, onlyIf_true,
    if_neg warm]
  exact ⟨_, _, rfl⟩

theorem lockSet_restored (rb : Rb) (b now : Nat) (ps : List Parity) (v : State) (k : Nat) :
    (noteReserve (updSet v k (restoredSlot rb b now ps))).lockSet k = restoredSlot rb b now ps (v.lockSet k) :=
  lockSet_updSet (f := restoredSlot rb b now ps) (fun _ => rfl) v k

theorem exec_rejoinWaitExpiry {m : Nat} (waits : (s.lockSet k).waitMember = some m) :
    exec (.rejoinWaitExpiry k) s = if rejoinOver s k then .next (failLockSet s k) else .next s := by
  simp only [exec, execRejoinWaitExpiry, waits, withSome_some, onlyIf]

theorem rejoinOver_of_no_rollback (none_ : (s.lockSet k).rb = none) : rejoinOver s k = false := by
  simp only [rejoinOver, none_]

/-- The wait runs from the restore at this member (log 115). -/
theorem rejoinOver_before {rb : Rb} (going : (s.lockSet k).rb = some rb) (early : upNow s < rb.restoredAt + 1000000 * s.getObj (Obj.rejoinWait k)) :
    rejoinOver s k = false := by
  simp only [rejoinOver, going, decide_eq_false (Nat.not_le.2 early), Bool.and_false]

theorem exec_maintenancePoint {since : Nat} (asked : s.bank.maintSince = some since) (late : since + 1000000000 ≤ upNow s)
    (uncast : ∀ j ∈ enabledSets s, (s.lockSet j).mine = none) : exec .maintenancePoint s = .next (maintain (s.addObj Obj.maintPoints 1)) := by
  have between : ((enabledSets s).all fun j => (s.lockSet j).mine.isNone) = true :=
    List.all_eq_true.2 fun j hj => by rw [uncast j hj]; rfl
  have means : exec .maintenancePoint s = execMaintenancePoint s := rfl
  rw [means, execMaintenancePoint, asked, withSome_some, between, Bool.and_true, decide_eq_true late, onlyIf_true]

/-- Settles O46: each event has its equation. A wait for a lost member runs by UPTIME from the restore (log 115), and a clash of regions leaves the
slice open (logs 47 and 119). -/
theorem lockSetsBankAndRollBack : Obligations.LockSetsBankAndRollBack := by
  unfold Obligations.LockSetsBankAndRollBack
  intro s k hk
  refine ⟨fun on joined uncast => exec_voteClose hk on joined uncast, ?_, fun pending reads b bs sealed =>
    exec_parityUpdateComplete hk pending reads sealed, ?_, fun on cls low high holds => exec_rollbackDetect hk on low high holds, ?_, ?_,
    fun t asked late uncast => exec_maintenancePoint asked late uncast⟩
  · intro r c run res sched ext slot
    exact ⟨exec_bankCmd_outside run res sched ext slot, exec_bankCmd_inside run res sched ext slot, finishBanks_of_alone run⟩
  · intro n page rest pa waits u mapped reads lacks v
    have means : exec (.beforeImageCopy n page) s = .next (clashResults v n) := exec_beforeImageCopy waits mapped reads
    exact ⟨fun apart => by rw [means, clashResults_of_apart apart], fun clash => by rw [means, clashResults_of_clash clash],
      fun room => ⟨imageOf u k n page pa, takeImage_of_room room, imageOf_fields u k n page pa⟩, takeImage_of_no_room⟩
  · intro rb going first unheld reads warm
    obtain ⟨v, ps, goes⟩ := exec_restoreCompleteRollback going first unheld reads warm
    refine ⟨_, goes, ?_⟩
    rw [lockSet_restored]
    exact ⟨rfl, rfl, rfl, rfl⟩
  · intro lost
    obtain ⟨m, waits⟩ := Option.ne_none_iff_exists'.1 lost
    have means := exec_rejoinWaitExpiry waits
    refine ⟨fun expired => ?_, fun none_ => ?_, fun rb going early => ?_⟩
    · rw [means, if_pos expired]
    · rw [means, rejoinOver_of_no_rollback none_]
      rfl
    · rw [means, rejoinOver_before going early]
      rfl

end Sys2Proof.Machine
end

section
/-! SUPPORT. Proofs of discovery, time, ports and routes (R260 to R264, R319, R320, R332 to R345, R470): what a port and its neighbour keep when frames
leave, how a neighbour is lost, and one equation for each event. -/

namespace Sys2Proof.Machine

variable {s t u v : State} {q k m : Nat}

/-! ### The record of a port -/

theorem port_q (s : State) (q : Nat) : (s.port q).q = q := by
  unfold State.port
  cases found : s.net.ports.find? fun x => x.q == q with
  | none => rfl
  | some x => simpa using List.find?_some found

theorem port_setPort_same {x : Port} (no : x.q = q) : (s.setPort x).port q = x := by
  subst no
  simp only [State.port, State.setPort, find?_upsert, Option.getD_some]

theorem port_setPort_ne {x : Port} (other : x.q ≠ q) : (s.setPort x).port q = s.port q := by
  simp only [State.port, State.setPort, find?_upsert_ne Port.q x other]

theorem port_of_ports (same : t.net.ports = s.net.ports) (q : Nat) : t.port q = s.port q := by
  simp only [State.port, same]

/-- A port that some neighbour is behind is listed with it. -/
theorem port_mem_of_neighbour (behind : (s.port q).neighbour = some m) : ∃ p ∈ s.net.ports, p.q = q ∧ p.neighbour = some m := by
  unfold State.port at behind
  cases found : s.net.ports.find? fun x => x.q == q with
  | none =>
    rw [found] at behind
    cases behind
  | some x =>
    rw [found] at behind
    exact ⟨x, List.mem_of_find?_eq_some found, by simpa using List.find?_some found, behind⟩

/-! ### Frames that leave -/

/-- Whether a port is up, and the neighbour behind it. -/
def link (s : State) (q : Nat) : Bool × Option Nat := ((s.port q).up, (s.port q).neighbour)

/-- A write of a port's record that leaves its link leaves every link. -/
theorem link_setPort {p : Nat} {x : Port} (no : x.q = p) (same : (x.up, x.neighbour) = link s p) (q : Nat) : link (s.setPort x) q = link s q := by
  by_cases here : p = q
  · subst here
    rw [link, port_setPort_same no, same]
  · rw [link, port_setPort_ne (no ▸ here), link]

@[simp] theorem link_sendTwice (s : State) (p : Nat) (x : Nat × DraftFrame) (q : Nat) : link (sendTwice s p x) q = link s q := rfl

@[simp] theorem link_sendDraft (s : State) (p kind : Nat) (f : DraftFrame) (q : Nat) : link (sendDraft s p kind f) q = link s q := by
  simp only [sendDraft]
  split_ifs
  · rfl
  · rw [link_sendTwice]
    refine link_setPort (p := p) ?_ ?_ q
    · exact port_q s p
    · rfl

@[simp] theorem link_sendAll (s : State) (kind : Nat) (f : DraftFrame) (ps : List Nat) (q : Nat) : link (sendAll s kind f ps) q = link s q :=
  foldl_leaves (link · q) (fun s p => link_sendDraft s p kind f q) ps s

@[simp] theorem link_sendHello (s : State) (p q : Nat) : link (sendHello s p) q = link s q := by
  simp only [sendHello, link_sendDraft]
  refine link_setPort (p := p) ?_ ?_ q
  · exact port_q s p
  · rfl

/-- The objects and the values in force. -/
def dictionary (s : State) : List (Nat × Nat) × List (Nat × Nat) := (s.od, s.inForce)

theorem getObj_of_dictionary (same : dictionary t = dictionary s) (k : Nat) : t.getObj k = s.getObj k :=
  congrArg (fun d : List (Nat × Nat) × List (Nat × Nat) => sget objReset d.1 k) same

@[simp] theorem dictionary_sendDraft (s : State) (p kind : Nat) (f : DraftFrame) : dictionary (sendDraft s p kind f) = dictionary s := by
  simp only [sendDraft]
  split_ifs <;> rfl

@[simp] theorem dictionary_sendAll (s : State) (kind : Nat) (f : DraftFrame) (ps : List Nat) : dictionary (sendAll s kind f ps) = dictionary s :=
  foldl_leaves dictionary (fun s p => dictionary_sendDraft s p kind f) ps s

/-! ### The root and its election (R342, R343) -/

/-- What makes a module the root: ROOT_ID, and its own ID in force. -/
def rootView (s : State) : Nat × List (Nat × Nat) := (s.getObj Obj.rootId, s.inForce)

theorem isRoot_of_rootView (same : rootView t = rootView s) : isRoot t = isRoot s := by
  obtain ⟨root, force⟩ := Prod.ext_iff.1 same
  simp only [isRoot, State.ownId, State.forced, show t.getObj Obj.rootId = s.getObj Obj.rootId from root, show t.inForce = s.inForce from force]

theorem rootView_of_dictionary (same : dictionary t = dictionary s) : rootView t = rootView s :=
  Prod.ext (getObj_of_dictionary same Obj.rootId) (congrArg (fun d => d.2) same)

theorem rootView_putObj (other : k ≠ Obj.rootId) (n : Nat) : rootView (s.putObj k n) = rootView s :=
  Prod.ext (State.getObj_putObj_ne s n other) rfl

theorem rootView_addObj (other : k ≠ Obj.rootId) (n : Nat) : rootView (s.addObj k n) = rootView s := rootView_putObj other _

theorem rootView_net (s : State) (n : Net) : rootView { s with net := n } = rootView s := rfl

@[simp] theorem rootView_putRoute (s : State) (m e : Nat) : rootView (putRoute s m e) = rootView s := by
  simp only [putRoute]
  split_ifs
  · exact rootView_addObj (by decide) 1
  · exact rootView_putObj (by decide) _
  · rfl

@[simp] theorem rootView_discoverRoute (s : State) (m : Nat) : rootView (discoverRoute s m) = rootView s := by
  simp only [discoverRoute]
  split_ifs
  · rfl
  · split
    · exact rootView_putRoute _ _ _
    · exact rootView_putRoute _ _ _
    · split
      · rfl
      · exact rootView_putRoute _ _ _

@[simp] theorem rootView_downDraft (s : State) (kind : Nat) (f : DraftFrame) : rootView (downDraft s kind f) = rootView s :=
  rootView_of_dictionary (dictionary_sendAll s kind f _)

theorem rootView_setTime (s : State) (n : Nat) : rootView (setTime s n) = rootView s :=
  (rootView_net _ _).trans (rootView_putObj (by decide) _)

theorem isRoot_putObj_ownId (s : State) : isRoot (s.putObj Obj.rootId s.ownId) = true := by
  simp only [isRoot, State.getObj_putObj_same]
  exact beq_self_eq_true s.ownId

/-- The module that ends its election is the root (R343). -/
theorem isRoot_rootAssign (s : State) : isRoot (rootAssign s) = true := by
  unfold rootAssign
  extract_lets near
  obtain ⟨w, t⟩ := freeTree near near [(s.ownId, 0, s.ownId)] s
  dsimp -zeta only
  extract_lets start used first rooted sized net treed timed _ fresh numbered marked routed
  have streamed : rootView ((t.zipIdx.drop 1).foldl
      (fun s r => downDraft s 0x03 (assignFrame s.ownId r.1.1 r.1.2.1 r.1.2.2 r.2 t.length)) routed) = rootView routed :=
    foldl_leaves rootView (fun s r => rootView_downDraft s _ _) _ routed
  have routes : rootView routed = rootView marked :=
    foldl_leaves rootView (f := fun s (r : Nat × Nat × Nat) => discoverRoute (noteDepth s r.1 r.2.1) r.1) (fun s r => rootView_discoverRoute _ r.1)
      (t.drop 1) marked
  have children : rootView marked = rootView numbered := foldl_leaves rootView (f := markChild) (fun _ _ => rfl) near numbered
  have ticks : rootView numbered = rootView fresh := by
    simp only [numbered]
    split_ifs
    · exact (rootView_putObj (by decide) _).trans ((rootView_putObj (by decide) _).trans (rootView_putObj (by decide) _))
    · rfl
  have eras : rootView fresh = rootView timed := by
    simp only [fresh]
    split_ifs <;> rfl
  have time : rootView timed = rootView treed := by
    simp only [timed]
    split
    · split_ifs
      · exact (rootView_putObj (by decide) 0).trans (rootView_setTime treed _)
      · rfl
    · rfl
  have sizes : rootView sized = rootView rooted :=
    (rootView_putObj (by decide) _).trans ((rootView_putObj (by decide) _).trans (rootView_putObj (by decide) _))
  have depth : rootView rooted = rootView (used.putObj Obj.rootId used.ownId) :=
    (rootView_putObj (by decide) 0xFF).trans (rootView_putObj (by decide) 0)
  have tree : rootView treed = rootView sized := rfl
  rw [isRoot_of_rootView (streamed.trans (routes.trans (children.trans (ticks.trans (eras.trans (time.trans (tree.trans (sizes.trans depth)))))))),
    isRoot_putObj_ownId]

/-- The module is JOINED and LOCKED (R263). -/
def atJoined (s : State) : State := ((s.putObj Obj.alignState 1).putObj Obj.discState 6).putObj Obj.moduleState 5

theorem isRoot_joined (s : State) : isRoot (atJoined s) = isRoot s :=
  isRoot_of_rootView ((rootView_putObj (by decide) 5).trans ((rootView_putObj (by decide) 6).trans (rootView_putObj (by decide) 1)))

theorem atJoined_state (s : State) : (atJoined s).getObj Obj.moduleState = 5 ∧ (atJoined s).getObj Obj.discState = 6 ∧
    (atJoined s).getObj Obj.alignState = 1 := by
  refine ⟨State.getObj_putObj_same _ _ _, ?_, ?_⟩
  · exact (State.getObj_putObj_ne _ 5 (by decide)).trans (State.getObj_putObj_same _ _ _)
  · exact (State.getObj_putObj_ne _ 5 (by decide)).trans ((State.getObj_putObj_ne _ 6 (by decide)).trans (State.getObj_putObj_same _ _ _))

theorem noteHoldover_of_live (live : livePorts s ≠ []) : noteHoldover s = s :=
  if_neg fun lost => live (List.isEmpty_iff.1 lost.2)

section Joining

variable (part : takesPart s = true) (own : s.getObj Obj.dupId ≠ 1) (running : s.getObj Obj.moduleState = 4 ∨ s.getObj Obj.moduleState = 5)
include part own running

/-- A module that has its place is JOINED, as long as a neighbour is left. -/
theorem exec_joinedEntry_placed (placed : s.getObj Obj.discState = 5) (below : isRoot s = false) (live : livePorts s ≠ []) :
    exec .joinedEntry s = .next (atJoined s) := by
  have converged : (takesPart s && s.getObj Obj.dupId != 1 && (s.getObj Obj.moduleState == 4 || s.getObj Obj.moduleState == 5)) = true := by
    simp [part, own, running]
  have means : exec .joinedEntry s = .next (if isRoot (atJoined s) then atJoined s else noteHoldover (atJoined s)) := by
    have third : s.getObj Obj.discState ≠ 3 := by omega
    simp only [exec, execJoinedEntry, converged, placed, beq_self_eq_true, Bool.true_or, Bool.true_and, onlyIf_true]
    rfl
  rw [means, isRoot_joined, below, noteHoldover_of_live (s := atJoined s) live]
  rfl

/-- The candidate of an election that ends is the root, and JOINED. -/
theorem exec_joinedEntry_root (electing : s.getObj Obj.discState = 3) (best : candidate s = true) :
    exec .joinedEntry s = .next (atJoined (rootAssign s)) := by
  have converged : (takesPart s && s.getObj Obj.dupId != 1 && (s.getObj Obj.moduleState == 4 || s.getObj Obj.moduleState == 5)) = true := by
    simp [part, own, running]
  have means : exec .joinedEntry s = .next (if isRoot (atJoined (rootAssign s)) then atJoined (rootAssign s) else noteHoldover (atJoined (rootAssign s))) := by
    simp only [exec, execJoinedEntry, converged, electing, best, beq_self_eq_true, Bool.true_or, Bool.or_true, Bool.true_and, onlyIf_true, if_true]
    rfl
  rw [means, isRoot_joined, isRoot_rootAssign]
  rfl

end Joining

/-! ### Alignment and holdover (R264, R339) -/

theorem exec_alignExchange (running : s.getObj Obj.moduleState = 4 ∨ s.getObj Obj.moduleState = 5) :
    let u := (livePorts s).foldl sendAlign s
    exec .alignExchange s = .next (if s.getObj Obj.moduleState = 5 ∧ isRoot u = true then lateJoin u else u) := by
  have up : (s.getObj Obj.moduleState == 4 || s.getObj Obj.moduleState == 5) = true := by simp [running]
  simp only [exec, execAlignExchange, up, onlyIf_true]

/-- The module in FREE, the loss of its alignment counted. -/
def unaligned (s : State) : State := (s.putObj Obj.alignState 0).addObj Obj.alignLosses 1

theorem enabledSets_unaligned (s : State) : enabledSets (unaligned s) = enabledSets s :=
  enabledSets_congr fun j hj => (State.getObj_addObj_ne 1 (by simp only [Obj.alignLosses, Obj.lsEnable]; omega)).trans
    (State.getObj_putObj_ne s 0 (by simp only [Obj.alignState, Obj.lsEnable]; omega))

/-- An expired holdover ends in FREE; the lock sets of the module, if any, take it as lost. -/
theorem exec_holdoverExpiry (held : s.getObj Obj.alignState = 2) (late : s.net.holdSince + 1000 * s.getObj Obj.holdoverLimit < s.now) :
    exec .holdoverExpiry s = .next ((enabledSets (unaligned s)).foldl (originate · 0x04 ·)
      (if (enabledSets (unaligned s)).isEmpty then unaligned s else floodLost (unaligned s) (unaligned s).ownId)) := by
  simp only [exec, execHoldoverExpiry, held, beq_self_eq_true, late, decide_true, Bool.and_self, onlyIf_true]
  rfl

theorem holdoverExpiry_alone (alone : enabledSets s = []) : (enabledSets (unaligned s)).foldl (originate · 0x04 ·)
    (if (enabledSets (unaligned s)).isEmpty then unaligned s else floodLost (unaligned s) (unaligned s).ownId) = unaligned s := by
  rw [enabledSets_unaligned, alone]
  rfl

/-! ### A neighbour that is lost (R345, R500) -/

/-- A link to a neighbour that is lost: the port has no neighbour, no child, no depth. -/
def linkLost (s : State) (q : Nat) : State := putNeighbour (s.setPort { (s.port q) with child := false, depth := 65535, hello := false }) q none

theorem linkLost_eq (s : State) (q : Nat) : ∃ p : Port, p.q = q ∧ p.neighbour = none ∧ (linkLost s q).net.ports =
    ((s.setPort { (s.port q) with child := false, depth := 65535, hello := false }).setPort p).net.ports :=
  ⟨{ ((s.setPort { (s.port q) with child := false, depth := 65535, hello := false }).port q) with neighbour := none, direct := _ },
    port_q _ q, rfl, rfl⟩

theorem neighbour_linkLost_same (s : State) (q : Nat) : ((linkLost s q).port q).neighbour = none := by
  obtain ⟨p, no, none_, ports⟩ := linkLost_eq s q
  rw [port_of_ports ports, port_setPort_same no, none_]

theorem neighbour_linkLost_ne {p : Nat} (other : p ≠ q) (s : State) : (linkLost s p).port q = s.port q := by
  obtain ⟨x, no, -, ports⟩ := linkLost_eq s p
  rw [port_of_ports ports, port_setPort_ne (no ▸ other), port_setPort_ne]
  rw [show Port.q _ = p from port_q s p]
  exact other

/-- Once each link of a list is lost, none of its ports has a neighbour. -/
theorem neighbour_linksLost {ps : List Nat} (lost : (s.port q).neighbour = none ∨ q ∈ ps) : ((ps.foldl linkLost s).port q).neighbour = none := by
  induction ps generalizing s with
  | nil => exact lost.resolve_right List.not_mem_nil
  | cons p ps ih =>
    refine ih ?_
    by_cases here : p = q
    · exact .inl (here ▸ neighbour_linkLost_same s p)
    · rw [neighbour_linkLost_ne here]
      exact lost.imp_right fun listed => (List.mem_cons.1 listed).resolve_left (Ne.symm here)

/-- A link that is lost writes its NEIGHBOUR object: no other object changes, and none becomes 1. -/
theorem getObj_linkLost (s : State) (p k : Nat) :
    (linkLost s p).getObj k = if k = Obj.neighbour (p / 4) (p % 4) then 0xFFFFFFFF else s.getObj k := State.getObj_putObj _ _ k _

theorem enabledSets_linkLost (alone : enabledSets s = []) (p : Nat) : enabledSets (linkLost s p) = [] := by
  refine List.filter_eq_nil_iff.2 fun j hj on => ?_
  rw [getObj_linkLost] at on
  split_ifs at on
  · exact absurd on (by decide)
  · exact List.filter_eq_nil_iff.1 alone j hj on

theorem rootId_linkLost (s : State) (p : Nat) : (linkLost s p).getObj Obj.rootId = s.getObj Obj.rootId := by
  rw [getObj_linkLost, if_neg]
  simp only [Obj.rootId, Obj.neighbour]
  omega

/-- What decides whether the loss of module `m` goes further: lock sets and the root. -/
structure LossEndsHere (s : State) (m : Nat) : Prop where
  alone : enabledSets s = []
  root : s.getObj Obj.rootId ≠ m

theorem LossEndsHere.linksLost (here : LossEndsHere s m) (ps : List Nat) : LossEndsHere (ps.foldl linkLost s) m := by
  induction ps generalizing s with
  | nil => exact here
  | cons p ps ih => exact ih ⟨enabledSets_linkLost here.alone p, by rw [rootId_linkLost]; exact here.root⟩

theorem LossEndsHere.of_dictionary (here : LossEndsHere s m) (same : dictionary t = dictionary s) : LossEndsHere t m :=
  ⟨(enabledSets_congr fun _ _ => getObj_of_dictionary same _).trans here.alone, by rw [getObj_of_dictionary same]; exact here.root⟩

theorem LossEndsHere.putObj (here : LossEndsHere s m) (root : k ≠ Obj.rootId) (sets : ∀ j < 8, k ≠ Obj.lsEnable j) (n : Nat) :
    LossEndsHere (s.putObj k n) m :=
  ⟨(enabledSets_congr fun j hj => State.getObj_putObj_ne s n (sets j hj)).trans here.alone,
    by rw [State.getObj_putObj_ne s n root]; exact here.root⟩

/-- A new parent changes PARENT_PORT and no port. -/
theorem chooseParent_leaves (s : State) : ∃ p n, chooseParent s = ({ s with net := { s.net with parent := p } }).putObj Obj.parentPort n := by
  simp only [chooseParent]
  split
  · exact ⟨_, _, rfl⟩
  · exact ⟨_, _, rfl⟩

/-- A loss that ends here is noted and no more. -/
theorem moduleLost_of_here (here : LossEndsHere s m) : moduleLost s m = { s with net := { s.net with lost := addNew m s.net.lost } } := by
  have none_ : enabledSets { s with net := { s.net with lost := addNew m s.net.lost } } = [] := here.alone
  have other : ¬ (s.getObj Obj.rootId = m ∧ s.getObj Obj.moduleState = 5) := fun root => here.root root.1
  simp only [moduleLost, none_, List.foldl_nil]
  exact if_neg other

theorem noteHoldover_leaves (s : State) : (noteHoldover s).net.ports = s.net.ports ∧ (noteHoldover s).net.lost = s.net.lost := by
  simp only [noteHoldover]
  split_ifs <;> exact ⟨rfl, rfl⟩

theorem mem_addNew (x : Nat) (l : List Nat) : x ∈ addNew x l := by
  simp only [addNew]
  split_ifs with there
  · exact there
  · exact List.mem_append_right l (List.mem_singleton_self x)

theorem exec_neighbourLoss (behind : (s.port q).neighbour = some m) : ∃ t, exec (.neighbourLoss q) s = .next t ∧
    (LossEndsHere s m → (t.port q).neighbour = none ∧ m ∈ t.net.lost) := by
  have means : exec (.neighbourLoss q) s = execNeighbourLoss q s := rfl
  rw [means, execNeighbourLoss, behind, withSome_some]
  extract_lets links parent unlinked told chosen placed
  refine ⟨_, rfl, fun here => ?_⟩
  have listed : q ∈ links := by
    obtain ⟨p, mem, no, with_⟩ := port_mem_of_neighbour behind
    exact List.mem_map.2 ⟨p, List.mem_filter.2 ⟨mem, by simp [with_]⟩, no⟩
  have lost : (unlinked.port q).neighbour = none := neighbour_linksLost (.inr listed)
  have link_told : link told q = link unlinked q := link_sendAll unlinked 0x0B _ _ q
  have here_told : LossEndsHere told m := (here.linksLost links).of_dictionary (dictionary_sendAll unlinked 0x0B _ _)
  have chosen_ports : chosen.net.ports = told.net.ports ∧ LossEndsHere chosen m := by
    simp only [chosen]
    split_ifs
    · obtain ⟨p, n, means⟩ := chooseParent_leaves told
      rw [means]
      refine ⟨rfl, LossEndsHere.putObj (s := { told with net := { told.net with parent := p } }) (here_told.of_dictionary rfl) (by decide) ?_ n⟩
      intro j hj
      simp only [Obj.parentPort, Obj.lsEnable]
      omega
    · exact ⟨rfl, here_told⟩
  have placed_ports : placed.net.ports = chosen.net.ports ∧ LossEndsHere placed m := by
    simp only [placed]
    split
    · refine ⟨rfl, chosen_ports.2.putObj (by decide) ?_ _⟩
      intro j hj
      simp only [Obj.myDepth, Obj.lsEnable]
      omega
    · exact ⟨rfl, chosen_ports.2⟩
  rw [moduleLost_of_here placed_ports.2]
  obtain ⟨ports, gone⟩ := noteHoldover_leaves { placed with net := { placed.net with lost := addNew m placed.net.lost } }
  constructor
  · rw [port_of_ports (ports.trans (placed_ports.1.trans chosen_ports.1))]
    exact (congrArg Prod.snd link_told).trans lost
  · rw [gone]
    exact mem_addNew m _

/-! ### Ports and routes (R333, R334, R470) -/

@[simp] theorem ports_putRoute (s : State) (m e : Nat) : (putRoute s m e).net.ports = s.net.ports := by
  simp only [putRoute]
  split_ifs <;> rfl

@[simp] theorem ports_rerouteEntry (s : State) (q : Nat) (r : Nat × Nat) : (rerouteEntry s q r).net.ports = s.net.ports := by
  unfold rerouteEntry
  extract_lets e alt e1
  split_ifs
  · exact ports_putRoute _ r.1 _
  · exact ports_putRoute s r.1 _
  · rfl
  · exact ports_putRoute s r.1 _

theorem exec_portDown (inRange : q < 64) (up : (s.port q).up = true) : ∃ t, exec (.portDown q) s = .next t ∧ (t.port q).up = false := by
  have means : exec (.portDown q) s = execPortDown q s := rfl
  rw [means, execPortDown, up, decide_eq_true inRange, Bool.and_self, onlyIf_true]
  extract_lets before down lost
  refine ⟨_, rfl, ?_⟩
  have rerouted : (lost.net.routes.foldl (fun s r => rerouteEntry s q r) lost).net.ports = lost.net.ports :=
    foldl_leaves (fun s => s.net.ports) (fun s r => ports_rerouteEntry s q r) _ lost
  rw [port_of_ports ((noteHoldover_leaves _).1.trans rerouted)]
  have written : ∀ x : Port, x.q = q → x.up = false → ((s.setPort x).port q).up = false := by
    intro x no down
    rw [port_setPort_same no, down]
  exact written _ (port_q s q) rfl

theorem link_beginHello (s : State) (q : Nat) : link (beginHello s) q = link s q := rfl

theorem exec_portUp (inRange : q < 64) (running : 3 ≤ s.getObj Obj.moduleState) (down : (s.port q).up = false)
    (given : q % 4 < modePorts (s.forced (Obj.portMode (q / 4)))) : ∃ t, exec (.portUp q) s = .next t ∧ (t.port q).up = true := by
  have means : exec (.portUp q) s = execPortUp q s := rfl
  have may : (decide (3 ≤ s.getObj Obj.moduleState) && !(s.port q).up && decide (q % 4 < modePorts (s.forced (Obj.portMode (q / 4))))) = true := by
    simp [running, down, given]
  rw [means, execPortUp]
  extract_lets st up hello
  rw [if_neg (by omega), may, onlyIf_true]
  refine ⟨_, rfl, ?_⟩
  have trained : (link up q).1 = true := congrArg Port.up (port_setPort_same (x := { (s.port q) with up := true }) (port_q s q))
  have begun : link hello q = link up q := by
    simp only [hello]
    split_ifs
    · exact link_beginHello up q
    · rfl
  have same : ∀ t, link t q = link up q → (t.port q).up = true := fun t kept => (congrArg Prod.fst kept).trans trained
  refine same _ ?_
  split_ifs
  · rw [link_sendHello, begun]
  · exact begun

/-- The entry that a module's table holds for another. -/
def route (s : State) (m : Nat) : Nat := sget (fun _ => 0) s.net.routes m

theorem route_putRoute_ne {x : Nat} (other : x ≠ m) (s : State) (e : Nat) : route (putRoute s x e) m = route s m := by
  have entry : route (putRoute s x e) m = sget (fun _ => 0) (sput (fun _ => 0) (s.net.routes) x e) m := by
    simp only [putRoute]
    split_ifs <;> rfl
  exact entry.trans (sget_sput_ne _ _ other)

theorem ownId_putRoute (s : State) (m e : Nat) : (putRoute s m e).ownId = s.ownId := by
  simp only [putRoute]
  split_ifs <;> rfl

/-- The entry of the module itself and one with a valid alternate stay. -/
theorem exec_routeRecompute (s : State) (rs : List RouteCand) : ∃ t, exec (.routeRecompute rs) s = .next t ∧
    ∀ m, m = s.ownId ∨ bitN (route s m) 14 = true → route t m = route s m := by
  refine ⟨_, rfl, fun m stays => ?_⟩
  refine (List.foldlRecOn (motive := fun v : State => v.ownId = s.ownId ∧ route v m = route s m) _ _ ⟨rfl, rfl⟩ fun v kept x _ => ?_).2
  obtain ⟨own, same⟩ := kept
  dsimp only
  by_cases here : x = m
  · subst here
    have left : x = v.ownId ∨ bitN (sget (fun _ => 0) v.net.routes x) 14 = true := by
      rw [own, show sget (fun _ => 0) v.net.routes x = route s x from same]
      exact stays
    rw [if_pos left]
    exact ⟨own, same⟩
  · split_ifs
    · exact ⟨own, same⟩
    · split
      · exact ⟨own, same⟩
      · exact ⟨(ownId_putRoute v x _).trans own, (route_putRoute_ne here v _).trans same⟩

/-! ### Neighbour discovery, PTP and priority flow control (R260, R319, R320, R341) -/

theorem exec_neighbourDiscovery (inRange : q ≤ 64) (pfx iid : Word64) : ∃ t, exec (.neighbourDiscoveryMessage q pfx iid) s = .next t ∧
    (q < 64 → (s.port q).up = true → pfx.toNat = s.forced Obj.fabricPrefix → iid.toNat = s.ownId + q * 2 ^ 18 → t = s.send (.nd q (vlanTag s))) ∧
    (q < 64 → (s.port q).up = false → t = s) := by
  have means : exec (.neighbourDiscoveryMessage q pfx iid) s = execNeighbourDiscoveryMessage q pfx iid s := rfl
  rw [means, execNeighbourDiscoveryMessage, if_neg (by omega)]
  refine ⟨_, rfl, fun port up network own => ?_, fun port down => ?_⟩
  · have fabric : q ≠ 64 := by omega
    have mine : (pfx.toNat == s.forced Obj.fabricPrefix && iid.toNat == s.ownId + q * 2 ^ 18) = true := by
      rw [Bool.and_eq_true, beq_iff_eq, beq_iff_eq]
      exact ⟨network, own⟩
    rw [if_neg fabric, if_neg fabric, up, Bool.and_assoc, mine]
    rfl
  · have fabric : q ≠ 64 := by omega
    rw [if_neg fabric, down]
    rfl

theorem exec_ptpMessage_off (time : Nat) (off : s.forced Obj.ptpEnable ≠ 1) : exec (.ptpMessage time) s = .next s := if_pos (.inl off)

theorem exec_ptpMessage_candidate (time : Nat) (on : s.forced Obj.ptpEnable = 1) (discovering : s.getObj Obj.moduleState = 4)
    (unset : s.net.timeSet = false) (best : candidate s = true) :
    exec (.ptpMessage time) s = .next { s with net := { s.net with ptp := some ((time : Int) - s.now) } } := by
  have means : exec (.ptpMessage time) s = execPtpMessage time s := rfl
  rw [means, execPtpMessage, discovering, on, unset, best]
  rfl

section Slewing

variable (time : Nat) (timed : s.getObj Obj.moduleState = 5 ∨ (s.getObj Obj.moduleState = 4 ∧ s.net.timeSet = true))
include timed

/-- A module that has its time takes none from PTP. -/
theorem not_discovering_untimed : ¬ (s.getObj Obj.moduleState = 4 ∧ (!s.net.timeSet) = true) := by
  rintro ⟨discovering, unset⟩
  rcases timed with locked | ⟨-, set⟩
  · omega
  · simp [set] at unset

theorem exec_ptpMessage_below (below : isRoot s = false) : exec (.ptpMessage time) s = .next s := by
  have means : exec (.ptpMessage time) s = execPtpMessage time s := rfl
  rw [means, execPtpMessage]
  extract_lets st ahead
  rw [if_neg (not_discovering_untimed timed), below]
  exact ite_self _

/-- The root slews toward the PTP time. -/
theorem exec_ptpMessage_root (on : s.forced Obj.ptpEnable = 1) (root : isRoot s = true) : exec (.ptpMessage time) s =
    .next ({ s with net := { s.net with slew := (time : Int) - s.now } }.putObj Obj.ptpOffset (((s.now : Int) - time) % 2 ^ 64).toNat) := by
  have means : exec (.ptpMessage time) s = execPtpMessage time s := rfl
  have running : ¬ (s.forced Obj.ptpEnable ≠ 1 ∨ (!(decide (s.getObj Obj.moduleState = 4 ∨ s.getObj Obj.moduleState = 5))) = true) := by
    have up : s.getObj Obj.moduleState = 4 ∨ s.getObj Obj.moduleState = 5 := timed.symm.imp_left And.left
    simp [on, up]
  rw [means, execPtpMessage, if_neg running, if_neg (not_discovering_untimed timed), root, ← Int.neg_sub (s.now : Int) time]
  rfl

end Slewing

theorem exec_pfcFrame (inRange : q < 64) (up : (s.port q).up = true) (pause : Bool) :
    ∃ t, exec (.pfcFrame q pause) s = .next t ∧ (t.port q).paused = pause := by
  have means : exec (.pfcFrame q pause) s = execPfcFrame q pause s := rfl
  rw [means, execPfcFrame, up, decide_eq_true inRange, Bool.and_self, onlyIf_true]
  have set : ((s.setPort { (s.port q) with paused := pause }).port q).paused = pause :=
    congrArg Port.paused (port_setPort_same (x := { (s.port q) with paused := pause }) (port_q s q))
  extract_lets before paused mine net resumed
  cases pause with
  | true => exact ⟨paused, rfl, set⟩
  | false =>
    refine ⟨_, rfl, ?_⟩
    rw [port_of_ports (t := mine.foldl _ resumed) (s := resumed)]
    · exact set
    · refine foldl_leaves (fun s : State => s.net.ports) (fun s x => ?_) mine resumed
      rfl

/-- Settles O48: each event of discovery, time, ports and routes by its own equation. -/
theorem portsTimeAndRoutes : Obligations.PortsTimeAndRoutes := by
  intro s
  refine ⟨fun part own running => ⟨fun placed below live => exec_joinedEntry_placed part own running placed below live,
      fun electing best => ⟨_, exec_joinedEntry_root part own running electing best, atJoined_state _⟩⟩,
    exec_alignExchange, fun held late => ⟨_, exec_holdoverExpiry held late, holdoverExpiry_alone⟩, fun q m behind => ?_,
    fun q => exec_portDown, fun q => exec_portUp, exec_routeRecompute s, fun q pfx iid inRange => exec_neighbourDiscovery inRange pfx iid,
    exec_ptpMessage_off, exec_ptpMessage_candidate, fun time timed => ⟨exec_ptpMessage_below time timed, fun on root => ?_⟩,
    fun q => exec_pfcFrame⟩
  · obtain ⟨t, next, ends⟩ := exec_neighbourLoss behind
    exact ⟨t, next, fun alone root => ends ⟨alone, root⟩⟩
  · exact ⟨_, exec_ptpMessage_root time timed on root, State.getObj_putObj_ne _ _ (by decide), rfl, State.getObj_putObj_same _ _ _⟩

end Sys2Proof.Machine
end

section
/-! SUPPORT. Refutation of the statement on the end of a command (R287, R296, R301). It has COMPL_TAIL rise by one; where a local directory of a die
beyond the module's tracks the line of the record, the write of the record counts a broadcast of that die (R188, log 126), and the key of that
count may be COMPL_TAIL's own. No hypothesis excludes such a directory. -/

namespace Sys2Proof.Machine

namespace StrayRing

set_option maxRecDepth 8000
set_option exponentiation.threshold 1000

/-- A die that the module lacks. -/
def die : Nat := (0x6000 - 0x4004) * 256 + 0x0C - 5

theorem broadcasts_die : Obj.broadcasts die = Obj.complTail 0 := by decide

/-- A command of channel 0. -/
def cmd : Cmd := { seq := 0, op := 0x01, ext := 0, serial := false, tag := 0, released := true, slot := [] }

/-- Channel 0 of slice 0 with an empty completion ring of four slots at 0x40000; a local directory of the die tracks the line of the first slot. -/
def start : State :=
  { State.reset with
    od := [(Obj.chSlice 0, 0), (Obj.complBase 0, 0x40000), (Obj.complSlots 0, 4), (Obj.complHead 0, 0), (Obj.complTail 0, 0), (Obj.completed 0, 0),
      (Obj.notify 0, 0), (Obj.llmHits 0, 0), (Obj.llmMisses 0, 0), (Obj.stackTop 0, dieWindow), (Obj.rgnBase 0, 0), (Obj.rgnSize 0, dieWindow),
      (Obj.rgnWorld 0, 0), (Obj.sWorld 0, 0)]
    chans := [{ no := 0, flight := [cmd] }]
    slices := [{ no := 0, transBase := 0x10000 }]
    mem := { bytes := StrayDie.bytes
             ldirs := [{ die := die, line := .dev 0x200, slice := 0, rows := [], broadcast := true }] } }

/-- The state once the command has ended with the status OK. -/
def ended : State := endCmd start 0 cmd { status := stOk }

theorem slotFree_start : slotFree start 0 0 = true := by decide

theorem unackedOf_start : unackedOf start 0 cmd.seq = [] := rfl

theorem notify_start : start.getObj (Obj.notify 0) = 0 := by decide

/-- The slot of the record. -/
theorem slot_start : start.getObj (Obj.complBase 0) + 32 * (start.getObj (Obj.complTail 0) % start.getObj (Obj.complSlots 0)) = 0x40000 := by decide

theorem spanOk_start : spanOk start (chSliceOf start 0) 2 0x40000 32 true = .ok () := by rfl

/-- Whether a translation gives an address. -/
def gives (pa : Nat) : Except Stop Nat → Bool
  | .ok a => a == pa
  | .error _ => false

theorem eq_ok_of_gives {r : Except Stop Nat} {pa : Nat} (given : gives pa r = true) : r = .ok pa := by
  cases r with
  | ok a => rw [eq_of_beq given]
  | error e => exact absurd given Bool.false_ne_true

theorem translate_start : translate start (chSliceOf start 0) 0x40000 1 = .ok 0x40000 := eq_ok_of_gives (by decide)

/-- The broadcast and the record each raise COMPL_TAIL. -/
theorem complTail_ended : ended.getObj (Obj.complTail 0) = 2 := by decide

end StrayRing

/-- The claim on COMPL_TAIL, out of the statement. -/
theorem complTail_endCmd {s : State} {ch pa : Nat} {c : Cmd} (holds : Obligations.CompletionRecordWritten) (f : Final) (free : slotFree s ch 0 = true)
    (acked : unackedOf s ch c.seq = []) (silent : s.getObj (Obj.notify ch) = 0) (few : ch < 256) {a : Nat}
    (slot : s.getObj (Obj.complBase ch) + 32 * (s.getObj (Obj.complTail ch) % s.getObj (Obj.complSlots ch)) = a) (aligned : a % 32 = 0)
    (able : spanOk s (chSliceOf s ch) 2 a 32 true = .ok ()) (stands : translate s (chSliceOf s ch) a 1 = .ok pa) (paAligned : pa % 32 = 0) :
    (endCmd s ch c f).getObj (Obj.complTail ch) = (s.getObj (Obj.complTail ch) + 1) % 2 ^ 32 := by
  subst slot
  obtain ⟨-, records⟩ := holds
  obtain ⟨-, -, tail, -⟩ := records s ch pa c f free acked silent aligned few able stands paAligned
  exact tail

/-- Refutes O32: COMPL_TAIL rises from 0 to 2 at the end of one command. The write of its record invalidates the copies that the local directory of a
die beyond the module's tracks (R188), and the count of that broadcast is COMPL_TAIL of channel 0. -/
theorem not_completionRecordWritten : ¬ Obligations.CompletionRecordWritten := by
  intro holds
  have one : StrayRing.ended.getObj (Obj.complTail 0) = (StrayRing.start.getObj (Obj.complTail 0) + 1) % 2 ^ 32 :=
    complTail_endCmd holds { status := stOk } StrayRing.slotFree_start StrayRing.unackedOf_start StrayRing.notify_start (by decide)
      StrayRing.slot_start (by decide) StrayRing.spanOk_start StrayRing.translate_start (by decide)
  rw [StrayRing.complTail_ended] at one
  exact absurd one (by decide)

end Sys2Proof.Machine
end

section
/-! SUPPORT. Proofs of transport frames (R314, R321, R323 to R327): the record of a path, a frame that arrives, what is held on a path in PSN order,
and a path that is given up. -/

namespace Sys2Proof.Machine

variable {s t u v : State} {q n fuel : Nat} {f : TFrame} {x : Sent} {p p' : PathCtx} {ws : List FrameFor}

/-! ### The record of a path -/

theorem path?_no (found : s.path? n = some p) : p.no = n := by simpa using List.find?_some found

@[simp] theorem path?_setPath (s : State) (p : PathCtx) : (s.setPath p).path? p.no = some p := find?_upsert PathCtx.no p s.net.paths

theorem path?_setPath_of_no (no : p.no = n) : (s.setPath p).path? n = some p := no ▸ path?_setPath s p

theorem path?_addObj (s : State) (k m n : Nat) : (s.addObj k m).path? n = s.path? n := rfl

theorem upsert_upsert {α : Type} (key : α → Nat) {x y : α} (same : key y = key x) (l : List α) : upsert key y (upsert key x l) = upsert key y l := by
  induction l with
  | nil => simp [upsert, same]
  | cons z l ih =>
    by_cases here : key z = key x
    · simp [upsert, here, same]
    · simp [upsert, here, same, ih]

/-- Of two writes of a path's record the later one counts. -/
theorem setPath_setPath (same : p'.no = p.no) : (s.setPath p).setPath p' = s.setPath p' := by
  simp only [State.setPath, upsert_upsert PathCtx.no same]

/-! ### A frame that comes through the link -/

/-- A good frame of the transport at a port that is up, which link retry passes on; `t` is the state that link retry leaves (R321, R325). -/
structure Arrives (s : State) (q : Nat) (f : TFrame) (t : State) : Prop where
  port : q < 64
  up : (s.port q).up = true
  ours : forTransport s f = true
  good : goodFrame f = true
  passed : linkCheck s q f = (t, true)

theorem noteFrame_of_good (good : goodFrame f = true) : noteFrame s q f = s := if_pos good

/-- A frame without a number does what it says to the path to its sender, which it marks as used. -/
theorem Arrives.recvControl (arrives : Arrives s q f t) (known : pathTo t f.src = some p) (k : PathCtx → State → Res) :
    recvControl q f s k = k { p with used := t.now } (t.setPath { p with used := t.now }) := by
  obtain ⟨port, up, ours, good, passed⟩ := arrives
  simp only [Machine.recvControl, decide_eq_true port, up, ours, Bool.and_self, onlyIf_true, noteFrame_of_good good, passed, good, Bool.not_true,
    Bool.false_eq_true, if_false, known]

/-- What a numbered frame comes to on its path, by how far its PSN lies ahead of the one expected: the last part of `recvSent`. -/
def takeSent (x : Sent) (s : State) (p : PathCtx) : Res :=
  let d := psnAhead x.f.psn p.expect
  if 2 ^ 31 ≤ d then
    let s := s.setPath { p with owed := p.owed + 1 }
    .next (if x.f.ackReq || decide (16 ≤ p.owed + 1) then ackNow s p.no else s)
  else if d ≠ 0 ∧ 64 ≤ p.held.length then .next s
  else
    let held := if p.held.any fun y => y.f.psn == x.f.psn then p.held else p.held ++ [x]
    let s := s.setPath { p with held := held }
    if d ≠ 0 then
      let s := if p.nakked then s else sendAck (s.setPath { p with held := held, nakked := true }) p 4 p.expect false
      .next (if x.f.ackReq then ackNow s p.no else s)
    else
      let (s, ws) := drainAll p.no (held.length + 1) s []
      let due := match s.path? p.no with
        | some p => x.f.ackReq || decide (16 ≤ p.owed)
        | none => false
      advanceAll (workOf ws) (if due then ackNow s p.no else s)

/-- The checks of a numbered frame before its path takes it: the first part of `recvSent`, for any continuation. -/
def recvNumbered (q : Nat) (f : TFrame) (s : State) (k : State → PathCtx → Res) : Res :=
  onlyIf s (decide (q < 64) && (s.port q).up && forTransport s f) "transport frame at a port that is up" <|
    match linkCheck (noteFrame s q f) q f with
    | (s, false) => .next s
    | (s, true) =>
      if !(goodFrame f) then .next s
      else match peerPath s f.src with
      | none => .next s
      | some (s, p) => k s p

theorem recvSent_eq (q : Nat) (x : Sent) (s : State) : recvSent q x s = recvNumbered q x.f s (takeSent x) := by
  delta recvSent recvNumbered takeSent
  rfl

theorem Arrives.recvNumbered (arrives : Arrives s q f t) (peer : peerPath t f.src = some (u, p)) (k : State → PathCtx → Res) :
    recvNumbered q f s k = k u p := by
  obtain ⟨port, up, ours, good, passed⟩ := arrives
  simp only [Machine.recvNumbered, decide_eq_true port, up, ours, Bool.and_self, onlyIf_true, noteFrame_of_good good, passed, good, Bool.not_true,
    Bool.false_eq_true, if_false, peer]

theorem Arrives.recvSent (arrives : Arrives s q x.f t) (peer : peerPath t x.f.src = some (u, p)) : recvSent q x s = takeSent x u p :=
  (recvSent_eq q x s).trans (arrives.recvNumbered peer (takeSent x))

/-- A frame that comes again is acknowledged again. -/
theorem takeSent_behind (behind : 2 ^ 31 ≤ psnAhead x.f.psn p.expect) : takeSent x s p = .next
    (if x.f.ackReq || decide (16 ≤ p.owed + 1) then ackNow (s.setPath { p with owed := p.owed + 1 }) p.no else s.setPath { p with owed := p.owed + 1 }) := by
  simp only [takeSent, if_pos behind]

/-- The first frame beyond a gap is held and draws the NAK. -/
theorem takeSent_gap (ahead : 0 < psnAhead x.f.psn p.expect) (near : psnAhead x.f.psn p.expect < 2 ^ 31) (empty : p.held = []) (quiet : p.nakked = false) :
    takeSent x s p = .next (if x.f.ackReq then ackNow (sendAck (s.setPath { p with held := [x], nakked := true }) p 4 p.expect false) p.no
      else sendAck (s.setPath { p with held := [x], nakked := true }) p 4 p.expect false) := by
  have gap : psnAhead x.f.psn p.expect ≠ 0 := by omega
  rw [takeSent, if_neg (Nat.not_le.2 near)]
  simp [gap, empty, quiet, setPath_setPath]

/-! ### Frames held on a path -/

theorem nextSent_of_empty (found : s.path? n = some p) (empty : p.held = []) : nextSent s n = none := by simp [nextSent, found, empty]

theorem drainPath_of_none (none_ : nextSent s n = none) : drainPath n fuel s ws = (s, ws) := by
  cases fuel with
  | zero => rfl
  | succ fuel =>
    rw [drainPath, none_]
    cases s.path? n <;> rfl

theorem drainAll_of_none (none_ : nextSent s n = none) : drainAll n fuel s ws = (s, ws) := by
  cases fuel with
  | zero => rfl
  | succ fuel => simp only [drainAll, drainPath_of_none none_, none_]

/-- The record of a path whose one held frame has been performed. -/
def passedOne (p : PathCtx) (x : Sent) : PathCtx :=
  { p with expect := (p.expect + 1) % 2 ^ 32, held := [], owed := p.owed + 1, nakked := false, sawCe := p.sawCe || x.f.ece }

theorem pathNext_of_one (found : s.path? n = some p) (held : p.held = [x]) : pathNext s n x = s.setPath (passedOne p x) := by
  simp [pathNext, found, held, passedOne]

/-- The one frame that a path holds, whose turn it is, is performed, and no other follows. -/
theorem drainAll_of_one (found : s.path? n = some p) (held : p.held = [x]) (turn : x.f.psn = p.expect) (plain : x.od = none)
    (done : perform s p.dst x = .done v ws) (after : v.path? n = some p') (still : p'.held = [x]) :
    drainAll n (fuel + 1) s [] = (v.setPath (passedOne p' x), ws) := by
  have next : nextSent s n = some x := by simp [nextSent, found, held, turn]
  have last : nextSent (v.setPath (passedOne p' x)) n = none :=
    nextSent_of_empty (path?_setPath_of_no (p := passedOne p' x) (path?_no (p := p') after)) rfl
  have once : drainPath n 2 s [] = (v.setPath (passedOne p' x), ws) := by
    rw [drainPath, found, next]
    simp only [plain, Option.isSome_none, Bool.false_eq_true, if_false, done, pathNext_of_one after still, drainPath_of_none last, List.nil_append]
  simp only [drainAll, found, Option.map_some, Option.getD_some, held, List.length_singleton, once, last]

/-- A frame whose turn it is, with none held on its path, is performed at once, and what is owed grows by it. -/
theorem takeSent_turn (turn : x.f.psn = p.expect) (empty : p.held = []) (plain : x.od = none)
    (done : perform (s.setPath { p with held := [x] }) p.dst x = .done v ws) (idle : workOf ws = []) (after : v.path? p.no = some p')
    (still : p'.held = [x]) :
    takeSent x s p = .next (if x.f.ackReq || decide (16 ≤ p'.owed + 1) then ackNow (v.setPath (passedOne p' x)) p.no else v.setPath (passedOne p' x)) := by
  have level : psnAhead x.f.psn p.expect = 0 := by
    rw [psnAhead, turn, Nat.add_sub_cancel_left, Nat.mod_self]
  have found : (s.setPath { p with held := [x] }).path? p.no = some { p with held := [x] } := path?_setPath s { p with held := [x] }
  have drained (fuel : Nat) := drainAll_of_one (fuel := fuel) found rfl turn plain done after still
  have left : (v.setPath (passedOne p' x)).path? p.no = some (passedOne p' x) :=
    path?_setPath_of_no (p := passedOne p' x) (path?_no (p := p') after)
  simp only [takeSent, level, empty, List.any_nil, Bool.false_eq_true, if_false, List.nil_append, drained, left, idle, advanceAll]
  rfl

/-- The rows of numbered frames but TYPE 7, each with its TYPE. -/
def numberedRows (q : Nat) (f : TFrame) : List (Instr × Nat) :=
  [(.writeFrame q f, 0), (.readReq q f, 1), (.readResp q f, 2), (.signalFrame q f, 5), (.collFrame q f, 6)]

theorem exec_numberedRows (s : State) : ∀ r ∈ numberedRows q f, exec r.1 s = recvSent q { ty := r.2, f := f } s := by
  simp only [numberedRows, List.forall_mem_cons, List.not_mem_nil, false_implies, implies_true, and_true]
  exact ⟨rfl, rfl, rfl, rfl, rfl⟩

/-! ### Acknowledgements that come in -/

/-- A path's record once the frames below a PSN are acknowledged. -/
def keptFrom (p : PathCtx) (psn : Nat) : PathCtx := { p with unacked := p.unacked.filter fun x => decide (psnAhead x.f.psn psn < 2 ^ 31) }

/-- Those for whom the frames below a PSN were sent. -/
def freedBelow (p : PathCtx) (psn : Nat) : List FrameFor := (p.unacked.filter fun x => decide (2 ^ 31 ≤ psnAhead x.f.psn psn)).map (·.who)

theorem ackBelow_eq (s : State) (p : PathCtx) (psn : Nat) : ackBelow s p psn = (s.setPath (keptFrom p psn), freedBelow p psn) := rfl

theorem exec_ackFrame (arrives : Arrives s q f t) (known : pathTo t f.src = some p) (idle : workOf (freedBelow p f.ackPsn) = []) :
    let r := keptFrom { p with used := t.now } f.ackPsn
    let w := (t.setPath { p with used := t.now }).setPath r
    exec (.ackFrame q f) s = .next (if f.ece then halveRate w r else w) := by
  intro r w
  have found : w.path? p.no = some r := path?_setPath _ r
  have freed : workOf (freedBelow { p with used := t.now } f.ackPsn) = [] := idle
  simp only [exec, execAckFrame, arrives.recvControl known, ackBelow_eq, freed, advanceAll]
  rw [show ((t.setPath { p with used := t.now }).setPath (keptFrom { p with used := t.now } f.ackPsn)).path? p.no = some r from found]

/-- A NAK for a gap frees what is below it and draws the rest again. -/
theorem exec_nakFrame_gap (arrives : Arrives s q f t) (known : pathTo t f.src = some p) (gap : f.aux ≠ 0xFFFFFFFF)
    (idle : workOf (freedBelow p f.aux) = []) :
    let r := keptFrom { p with used := t.now } f.aux
    exec (.nakFrame q f) s = .next (resend ((t.setPath { p with used := t.now }).setPath r) r) := by
  intro r
  have found : ((t.setPath { p with used := t.now }).setPath r).path? p.no = some r := path?_setPath _ r
  have freed : workOf (freedBelow { p with used := t.now } f.aux) = [] := idle
  simp only [exec, execNakFrame, arrives.recvControl known, if_neg gap, ackBelow_eq, freed, advanceAll]
  rw [show ((t.setPath { p with used := t.now }).setPath (keptFrom { p with used := t.now } f.aux)).path? p.no = some r from found]

/-! ### Timers of a path -/

theorem exec_ackTimer (found : s.path? n = some p) (empty : p.held = []) (owes : 0 < p.owed) : exec (.ackTimer n) s = .next (ackNow s n) := by
  have drained := drainAll_of_none (fuel := p.held.length + 1) (ws := []) (nextSent_of_empty found empty)
  simp only [exec, execAckTimer, found, withSome_some, drained, decide_eq_true owes, Bool.true_or, onlyIf_true, if_true]
  rfl

theorem exec_retransmitTimeout (found : s.path? n = some p) (sent : p.unacked ≠ []) : exec (.retransmitTimeout n) s = .next (resend s p) := by
  simp [exec, execRetransmitTimeout, found, List.isEmpty_eq_false_iff.2 sent]

theorem exec_eceRecovery (found : s.path? n = some p) (halved : p.rate < 64) :
    exec (.eceRecovery n) s = .next (s.setPath { p with rate := p.rate + 1 }) := by
  simp [exec, execEceRecovery, found, halved]

/-- A path that is idle for a second is gone. -/
theorem exec_pathContextFree (found : s.path? n = some p) (sent : p.unacked = []) (empty : p.held = []) (paid : p.owed = 0)
    (old : p.used + 1000000000 ≤ s.now) : ∃ t, exec (.pathContextFree n) s = .next t ∧ t.path? n = none := by
  have idle : (idlePath p && decide (p.used + 10 ^ 9 ≤ s.now)) = true := by simp [idlePath, sent, empty, paid, old]
  simp only [exec, execPathContextFree, found, withSome_some, idle, onlyIf_true]
  refine ⟨_, rfl, ?_⟩
  exact List.find?_eq_none.2 fun x mem => by simpa using (List.mem_filter.1 mem).2

/-! ### A path that is given up (R311, R315, R324) -/

theorem now_addObj {k : Nat} (other : k ≠ Obj.deviceTime) (s : State) (m : Nat) : (s.addObj k m).now = s.now := State.getObj_addObj_ne m other

@[simp] theorem now_storeFailed (s : State) (who : FrameFor) (refused : Bool) (a : Nat) : (storeFailed s who refused a).now = s.now := by
  cases who with
  | store g core slot => exact now_addObj (by decide) s 1
  | drain ctx gang st core => exact now_addObj (by decide) s 1
  | load | cmd | flag | device => rfl

/-- Stores that are dropped leave device time. -/
@[simp] theorem now_dropStores (s : State) (xs : List Sent) : (dropStores s xs).now = s.now :=
  (now_addObj (by decide) _ _).trans (foldl_leaves State.now (fun s w => now_storeFailed s w false _) _ s)

@[simp] theorem now_noteLost (s : State) (x : Sent) : (noteLost s x).now = s.now := by
  simp only [noteLost]
  split
  · split
    · rfl
    · split_ifs <;> rfl
  · rfl

/-- A fold none of whose elements moves the start stays there. -/
theorem foldl_of_fixed {α β : Type} {g : β → α → β} {b : β} {l : List α} (fixed : ∀ w ∈ l, g b w = b) : l.foldl g b = b :=
  List.foldlRecOn l g (motive := (· = b)) rfl fun _ same w mem => same ▸ fixed w mem

/-- A path whose frames are for no command and for no lock set is reset. -/
theorem exec_transportTimeout (found : s.path? n = some p) (sent : p.unacked ≠ []) (idle : workOf (p.unacked.map (·.who)) = [])
    (unread : s.net.reads = []) (outside : ∀ x ∈ p.unacked, ∀ ch, chanOfFrame s x.who = some ch → lsOf s ch = none) :
    ∃ t, exec (.transportTimeout n) s = .next t ∧ t.path? n = some { no := n, dst := p.dst, used := s.now } := by
  have free (w : FrameFor) (mem : w ∈ p.unacked.map (·.who)) : ((chanOfFrame s w).bind fun ch => lsOf s ch) = none := by
    obtain ⟨x, listed, rfl⟩ := List.mem_map.1 mem
    exact Option.bind_eq_none_iff.2 (outside x listed)
  have lost : (p.unacked.foldl noteLost (dropStores s p.unacked)).now = s.now :=
    (foldl_leaves State.now now_noteLost p.unacked _).trans (now_dropStores s p.unacked)
  obtain rfl := path?_no found
  simp only [exec, execTransportTimeout, found, withSome_some, List.isEmpty_eq_false_iff.2 sent, Bool.not_false, Bool.true_or, onlyIf_true, unread,
    List.filter_nil, List.map_nil, List.append_nil]
  rw [foldl_of_fixed (l := p.unacked.map (·.who)) fun w mem => by simp only [free w mem]]
  simp only [List.foldl_nil, found, Option.map_some, Option.getD_some, idle, advanceAll]
  refine ⟨_, rfl, (path?_addObj ..).trans ((path?_setPath_of_no rfl).trans ?_)⟩
  exact congrArg (fun now => some ({ no := p.no, dst := p.dst, used := now } : PathCtx)) lost

end Sys2Proof.Machine
end

section
/-! SUPPORT. Proofs of link retry, forwarding and idle write-combining entries (R314, R325, R327), and of the statement on transport frames. -/

namespace Sys2Proof.Machine

variable {s t : State} {q m : Nat} {f : TFrame}

/-! ### Link frames -/

theorem exec_linkAckTimer_off (near : (s.port q).neighbour = some m) (plain : linkRetry s q m = false) : exec (.linkAckTimer q) s = .next s := by
  simp only [exec, execLinkAckTimer, near, plain, Bool.and_false]
  rfl

section Link

variable (port : q < 64) (up : (s.port q).up = true)
include port up

/-- A LINK_ACK frees the replay buffer up to the LSEQ that it names, and what waited for room follows. -/
theorem exec_linkAck (ours : forTransport s f = true) (good : goodFrame f = true) :
    exec (.linkAck q f) s = .next (drainTx q (s.port q).txq.length (s.setPort { s.port q with
      replay := (s.port q).replay.filter fun x => decide (seqAhead x.1 f.aux < 32768) && x.1 != f.aux % 65536 })) := by
  simp only [exec, execLinkAck, decide_eq_true port, up, Bool.and_self, onlyIf_true, ours, good, Bool.not_true, Bool.false_eq_true, if_false]

/-- A LINK_NAK draws again what the replay buffer keeps from the LSEQ that it names. -/
theorem exec_linkNak (ours : forTransport s f = true) (good : goodFrame f = true) :
    let left := (s.port q).replay.filter fun x => decide (seqAhead x.1 f.aux < 32768)
    exec (.linkNak q f) s = .next (left.foldl (fun s x => s.send (.trans q x.2.1 x.2.2.1 x.2.2.2))
      ((s.setPort { s.port q with replay := left }).addObj (Obj.llrReplays (q / 4)) 1)) := by
  simp only [exec, execLinkNak, decide_eq_true port, up, Bool.and_self, onlyIf_true, ours, good, Bool.not_true, Bool.false_eq_true, if_false]

/-- On a hop with link retry the timer names the last LSEQ received in order, or again the missing one (log 102). -/
theorem exec_linkAckTimer (near : (s.port q).neighbour = some m) (retry : linkRetry s q m = true) : exec (.linkAckTimer q) s = .next
    (if (s.port q).rxNak then sendLink s q 9 (s.port q).rxLseq else sendLink s q 8 (((s.port q).rxLseq + 65535) % 65536)) := by
  simp only [exec, execLinkAckTimer, decide_eq_true port, up, near, retry, Bool.and_self, onlyIf_true]

/-! ### Forwarding -/

section Forward

variable {dst ty : Nat} (away : dst ≠ s.ownId) (passed : linkCheck s q f = (t, true)) (notAck : ty ≠ 8) (notNak : ty ≠ 9)
include away passed notAck notNak

theorem exec_frameForward : exec (.frameForward q dst ty f) s = if (routeOf t dst).isNone ∨ f.ip.hops ≤ 1 then .next t
    else .next ((emit t dst ty { f with ip := { f.ip with hops := f.ip.hops - 1 } }).addObj Obj.forwarded 1) := by
  simp only [exec, execFrameForward, decide_eq_true port, up, bne_iff_ne.2 away, Bool.and_self, onlyIf_true, passed, notAck, notNak, false_or]

end Forward

end Link

/-- The entry of a line in a write-combining buffer, alone with its line, is sent (R314). -/
theorem exec_wcIdleSend {core : Nat} {e : WcEnt} (mem : e ∈ (s.core core).wc) (alone : ∀ d ∈ (s.core core).wc, d.line = e.line → d = e) :
    exec (.wcIdleSend core e.line) s = .next (wcSend s core e).1 := by
  have found : (s.core core).wc.find? (fun d => d.line == e.line) = some e := by
    cases first : (s.core core).wc.find? fun d => d.line == e.line with
    | none => simpa using List.find?_eq_none.1 first e mem
    | some d => rw [alone d (List.mem_of_find?_eq_some first) (by simpa using List.find?_some first)]
  simp only [exec, execWcIdleSend, found, withSome_some]

theorem exec_transportReservedType {ty : Nat} (low : 10 ≤ ty) (high : ty < 16) :
    exec (.transportReservedType ty) s = .next (s.addObj Obj.crcDrops 1) := if_neg (by omega)

/-- Settles O49: a frame that link retry passes is taken by how far its PSN lies ahead, an acknowledgement frees what lies below its PSN, and each
timer and link frame has its own equation (logs 88, 102, 107). -/
theorem transportFrames : Obligations.TransportFrames := by
  unfold Obligations.TransportFrames
  refine ⟨fun s u q f p t port up ours good passed => ?_, fun s n p found => ?_, fun s core e mem alone => exec_wcIdleSend mem alone,
    fun s q f port up => ?_⟩
  · have arrives : Arrives s q f t := ⟨port, up, ours, good, passed⟩
    refine ⟨fun peer => ?_, fun known _ => ?_⟩
    · have taken (r : Instr × Nat) (row : r ∈ numberedRows q f) : exec r.1 s = takeSent { ty := r.2, f := f } u p :=
        (exec_numberedRows s r row).trans (arrives.recvSent peer)
      exact ⟨fun behind r row => (taken r row).trans (takeSent_behind behind),
        fun ahead near empty quiet r row => (taken r row).trans (takeSent_gap ahead near empty quiet),
        fun turn _ empty r row v ws p' done idle after still =>
          (taken r row).trans (takeSent_turn turn empty rfl done idle after still)⟩
    · exact ⟨fun idle => exec_ackFrame arrives known idle, fun gap idle => exec_nakFrame_gap arrives known gap idle⟩
  · exact ⟨exec_ackTimer found, exec_retransmitTimeout found, exec_transportTimeout found, exec_eceRecovery found, exec_pathContextFree found⟩
  · refine ⟨exec_linkAck port up, exec_linkNak port up, fun m near => ⟨exec_linkAckTimer port up near, exec_linkAckTimer_off near⟩,
      fun dst ty t away passed notAck notNak => ?_, fun ty low high => exec_transportReservedType low high⟩
    have forward := exec_frameForward port up away passed notAck notNak
    refine ⟨fun dropped => forward.trans (if_pos (dropped.imp_left Option.isNone_iff_eq_none.2)), fun route hops => forward.trans (if_neg ?_)⟩
    rw [Option.isNone_iff_eq_none, not_or]
    exact ⟨route, Nat.not_le.2 hops⟩

end Sys2Proof.Machine
end

section
/-! SUPPORT. Proofs of LAUNCH, WAIT, SIGNAL and FENCE (R302, R303, R306, R308). -/

namespace Sys2Proof.Machine

variable {s t : State} {r : CmdRef} {c : Cmd}

/-! ### LAUNCH -/

/-- Values written at rising keys from `b` on: each key reads as written. -/
theorem sget_foldl_sput_range {α : Type} [DecidableEq α] {d : Nat → α} (v : Nat → α) (b : Nat) (l : List (Nat × α)) {n k : Nat} (within : k < n) :
    sget d ((List.range n).foldl (fun l i => sput d l (b + i) (v i)) l) (b + k) = v k := by
  induction n with
  | zero => omega
  | succ n ih =>
    rw [List.range_succ, List.foldl_append, List.foldl_cons, List.foldl_nil, sget_sput]
    by_cases last : k = n
    · rw [if_pos (by rw [last]), last]
    · rw [if_neg (by omega), ih (by omega)]

/-- The scalar registers from s8 on start with the payload (R303). -/
theorem sget_startRegs (payload : List Byte) {k : Nat} (within : k < 56) :
    sget (fun _ => 0) (startRegs [] payload) (8 + k) = BitVec.ofNat 64 (fieldLe payload (8 * k) 8) := by
  simp only [startRegs, List.mapIdx_nil, List.foldl_nil, List.foldl_map]
  exact sget_foldl_sput_range (fun i => BitVec.ofNat 64 (fieldLe payload (8 * i) 8)) 8 [] within

/-- A field of a launch record by its place in the command. -/
theorem fieldLe_drop (bs : List Byte) (m off n : Nat) : fieldLe (bs.drop m) off n = fieldLe bs (m + off) n := by
  simp only [fieldLe, List.drop_drop]

section Launch

variable (run : Running s r [0x01] c) (fresh : ∀ l ∈ s.launches, ¬ (l.ch = r.ch ∧ l.seq = r.seq)) (res : c.res = false)
  (sched : c.schedReserved = false) (sound : launchBad (c.slot.drop 16) = false)
include run fresh res sched sound

/-- A sound LAUNCH without a launch yet completes at once where it has no gangs, and else enters its launch. -/
theorem exec_launchCmd : exec (.launchCmd r) s = if c.field 40 4 = 0 then .next (endCmd s r.ch c { status := stOk })
    else .next (enterLaunch s (launchOf s r.ch c .command (c.slot.drop 16) [])) := by
  have new : (s.launches.any fun l => l.ch == r.ch && l.seq == r.seq) = false := by
    simpa only [List.any_eq_false, Bool.and_eq_true, beq_iff_eq] using fresh
  have gangs : fieldLe (c.slot.drop 16) 24 4 = c.field 40 4 := fieldLe_drop c.slot 16 24 4
  refine (withCmd_of_running run _).trans ?_
  simp only [new, res, sched, sound, Bool.or_self, Bool.false_eq_true, if_false, gangs]

end Launch

/-- Settles O33: the record's fields are those of the command from byte 16 on, and the payload starts the registers from s8. -/
theorem launchCommandStarts : Obligations.LaunchCommandStarts := by
  unfold Obligations.LaunchCommandStarts
  intro s r c run res sched sound fresh
  have made := exec_launchCmd run fresh res sched sound
  exact ⟨fun none_ => made.trans (if_pos none_), fun some_ => made.trans (if_neg some_), fieldLe_drop c.slot 16 24 4,
    congrArg (· % 32 + 1) (fieldLe_drop c.slot 16 28 1), congrArg (fun v => 8 * (v % 32 + 1)) (fieldLe_drop c.slot 16 29 1),
    congrArg (16384 * ·) (fieldLe_drop c.slot 16 30 1), congrArg (· % 16) (fieldLe_drop c.slot 16 31 1), rfl,
    fun k within => sget_startRegs c.payload within⟩

/-! ### WAIT -/

/-- The condition of a WAIT by its code. -/
theorem waitCond_iff {cond : Nat} (code : cond < 4) (v word : Nat) : waitCond cond v word = true ↔
    (cond = 0 ∧ word = v) ∨ (cond = 1 ∧ word ≠ v) ∨ (cond = 2 ∧ v ≤ word) ∨ (cond = 3 ∧ signedN 64 v ≤ signedN 64 word) := by
  obtain rfl | rfl | rfl | rfl : cond = 0 ∨ cond = 1 ∨ cond = 2 ∨ cond = 3 := by omega
  all_goals simp [waitCond]

/-- A sound WAIT completes with the word that it read, or waits on. -/
theorem evalWait_of_read {ch : Nat} {bs : List Byte} (sound : waitBad c = false)
    (read : readRun s (chSliceOf s ch) (c.field 32 1 / 4 % 4) (c.field 16 8) 8 = .ok (t, bs)) :
    evalWait s ch c = if waitCond (c.field 32 1 % 4) (c.field 24 8) (leNat bs) = true then .next (endCmd t ch c { status := stOk, bytes := leNat bs })
      else .next (putFlight t ch { c with step := 1 }) := by
  simp only [evalWait, sound, Bool.false_eq_true, if_false, read]

/-! ### SIGNAL and FENCE -/

/-- A sound SIGNAL to a window of this module completes when it is performed. -/
theorem exec_signalCmd (run : Running s r [0x06] c) (res : c.res = false) (sched : c.schedReserved = false) (ext : c.ext = 0)
    (op : c.field 32 1 / 2 = 0) (rest : (c.slot.drop 33).any (· != 0) = false) (aligned : c.field 16 8 % 8 = 0) (unsent : c.step = 0)
    (class_ : gClass (c.field 16 8) < 2) (here : gModule (c.field 16 8) = s.ownId)
    (performed : serveSignal s s.ownId (c.field 16 8) (c.field 32 1) (c.field 24 8) (.local_ (some r.ch)) = .done t ()) :
    exec (.signalCmd r) s = .next (endCmd t r.ch c { status := stOk, bytes := 8 }) := by
  refine (withCmd_of_running run _).trans ?_
  simp only [res, sched, ext, op, rest, aligned, unsent, Nat.not_le.2 class_, here, performed, bne_self_eq_false, Bool.or_self, Bool.false_eq_true,
    zero_ne_one, if_false, if_true]

/-- A sound FENCE completes at once. -/
theorem exec_fenceCmd (run : Running s r [0x07] c) (res : c.res = false) (sched : c.schedReserved = false) (ext : c.ext = 0)
    (rest : (c.slot.drop 16).any (· != 0) = false) :
    exec (.fenceCmd r) s = .next (endCmd (s.setChan { s.chan r.ch with fenceAt := some c.seq }) r.ch c { status := stOk }) := by
  refine (withCmd_of_running run _).trans ?_
  simp only [res, sched, ext, rest, bne_self_eq_false, Bool.or_self, Bool.false_eq_true, if_false]

/-- Settles O37: a WAIT goes on by its condition on the word read, at its head and each time it is evaluated anew. -/
theorem waitSignalFence : Obligations.WaitSignalFence := by
  unfold Obligations.WaitSignalFence
  intro s r c
  refine ⟨?_,
    fun run res sched ext op rest aligned unsent class_ here t => exec_signalCmd run res sched ext op rest aligned unsent class_ here,
    fun run res sched ext rest => exec_fenceCmd run res sched ext rest⟩
  intro run sound t bs read word v holds
  have cond : waitCond (c.field 32 1 % 4) v word = true ↔ holds := waitCond_iff (Nat.mod_lt _ (by decide)) v word
  have head : exec (.waitCmd r) s = evalWait s r.ch c := withCmd_of_running run _
  have evaluated := evalWait_of_read sound read
  refine ⟨fun met => (head.trans evaluated).trans (if_pos (cond.2 met)), fun unmet => (head.trans evaluated).trans (if_neg (mt cond.1 unmet)),
    fun waiting met => ?_⟩
  have again : exec (.waitReevaluate r.ch) s = evalWait s r.ch c := by simp only [exec, execWaitReevaluate, waiting, withSome_some]
  exact (again.trans evaluated).trans (if_pos (cond.2 met))

end Sys2Proof.Machine
end

section
/-! SUPPORT. Proofs of transfers (R304, R307, R309, R310): what a transfer can come to, its walk over one piece, and the bytes that a command writes in
one sector of device memory. -/

namespace Sys2Proof.Machine

variable {s t u : State} {ch m fuel a pa : Nat} {r : CmdRef} {c : Cmd} {x : Xfer} {bs : List Byte} {by_ : Asker}

/-! ### A transfer stops the machine at an absent address alone -/

/-- A result that goes on, or that stops at an address that no tier populates. -/
def GoesOrAbsent (r : Res) : Prop := (∃ t, r = .next t) ∨ r = .fault .absentAddress

theorem goesOrAbsent_next (t : State) : GoesOrAbsent (.next t) := .inl ⟨t, rfl⟩

theorem goesOrAbsent_xferStop (s : State) (ch : Nat) (c : Cmd) (space addr : Nat) (e : Stop) : GoesOrAbsent (xferStop s ch c space addr e) := by
  cases e with
  | cause k i => exact goesOrAbsent_next _
  | wait t => exact goesOrAbsent_next t
  | absent => exact .inr rfl
  | any => exact goesOrAbsent_next _

theorem goesOrAbsent_xferTail (s : State) (ch : Nat) (c : Cmd) (x : Xfer) : GoesOrAbsent (xferTail s ch c x) := by
  simp only [xferTail]
  split
  · split <;> exact goesOrAbsent_next _
  · split
    · exact goesOrAbsent_next s
    · split
      · exact goesOrAbsent_xferStop ..
      · split <;> exact goesOrAbsent_next _

theorem goesOrAbsent_xferGo (ch : Nat) (x : Xfer) (fuel : Nat) (c : Cmd) (s : State) : GoesOrAbsent (xferGo ch x fuel c s) := by
  induction fuel generalizing c s with
  | zero => exact goesOrAbsent_next s
  | succ fuel ih =>
    simp only [xferGo]
    split
    · exact goesOrAbsent_xferTail s ch c x
    · split
      · split
        · exact goesOrAbsent_xferStop ..
        · exact ih _ _
      · split
        · exact ih _ _
        · exact goesOrAbsent_xferStop ..
        · split
          · exact goesOrAbsent_xferStop ..
          · exact ih _ _
        · exact goesOrAbsent_xferStop ..

theorem goesOrAbsent_xfer (s : State) (ch : Nat) (c : Cmd) : GoesOrAbsent (xfer s ch c) := by
  simp only [xfer]
  split
  · exact goesOrAbsent_next _
  · exact goesOrAbsent_xferGo ..

/-! ### The walk -/

theorem xfer_of_sound (sound : (xferOf c).bad = false) : xfer s ch c = xferGo ch (xferOf c) (2 * ((xferOf c).len - c.done) + 1) c s := by
  simp only [xfer, sound, Bool.false_eq_true, if_false]

theorem xferTail_of_no_flag (flag : x.flag = 0) (acked : unackedOf s ch c.seq = []) :
    xferTail s ch c x = .next (endXfer s ch c { status := stOk, bytes := x.len }) := by
  simp [xferTail, flag, acked]

theorem xferGo_finished (fuel : Nat) (all : x.len ≤ c.done) : xferGo ch x (fuel + 1) c s = xferTail s ch c x := if_pos all

/-- The state in which a transfer at its start has read its bytes. -/
def readInto (u : State) (ch : Nat) (c : Cmd) (bs : List Byte) : State := putFlight (dropReads u (.cmd ch c.seq)) ch { c with buf := bs }

/-- A transfer all of whose `n` bytes are written. -/
def movedAll (c : Cmd) (n : Nat) : Cmd := { c with done := n, buf := [] }

section Walk

variable (first : c.done = 0) (some_ : 0 < x.len) (narrow : x.dst < 2 ^ 64) (piece : pieceLen x.dspace x.dst x.len = x.len)
include first some_ narrow piece

/-- With nothing at hand the walk reads what comes next of the source. -/
theorem xferGo_reads (fuel : Nat) (empty : c.buf = []) (read : sourceBytes s (chSliceOf s ch) ch c x 0 (readLen x 0) = .ok (u, bs)) :
    xferGo ch x (fuel + 1) c s = xferGo ch x fuel { c with buf := bs } (readInto u ch c bs) := by
  simp only [xferGo, readInto, first, empty, Nat.not_le.2 some_, if_false, List.length_nil, Nat.add_zero, Nat.sub_zero, Nat.mod_eq_of_lt narrow, piece,
    read, List.nil_append]

/-- With the bytes of its one piece at hand it writes them. -/
theorem xferGo_writes (fuel : Nat) (full : c.buf.length = x.len)
    (store : cmdStore s (chSliceOf s ch) (.cmd ch c.seq) x.dspace x.dst c.buf = .ok t) :
    xferGo ch x (fuel + 1) c s =
      xferGo ch x fuel (movedAll c x.len) (putFlight (measure t (chSliceOf s ch) ch c c.buf) ch (movedAll c x.len)) := by
  have whole : c.buf.take x.len = c.buf := List.take_of_length_le full.le
  have none_ : c.buf.drop x.len = [] := List.drop_eq_nil_of_le full.le
  simp only [xferGo, movedAll, first, Nat.not_le.2 some_, if_false, Nat.add_zero, Nat.zero_add, Nat.sub_zero, Nat.mod_eq_of_lt narrow, piece, le_refl, if_true,
    whole, store, full, none_]

end Walk

/-- A sound transfer without a flag at its start, whose bytes are one piece of a sector of device memory and come from one piece of the source. -/
structure OnePiece (c : Cmd) (x : Xfer) : Prop where
  fields : x = xferOf c
  sound : x.bad = false
  flag : x.flag = 0
  some_ : 0 < x.len
  piece : pieceLen x.dspace x.dst x.len = x.len
  source : readLen x 0 = x.len
  device : x.dspace = 2
  narrow : x.dst < 2 ^ 64
  first : c.done = 0
  empty : c.buf = []

theorem OnePiece.within (one : OnePiece c x) : x.dst % 64 + x.len ≤ 64 := by
  have piece := one.piece
  have some_ := one.some_
  simp only [pieceLen, one.device, Nat.reduceEqDiff, if_false] at piece
  omega

theorem unackedOf_of_paths (same : t.net.paths = s.net.paths) (ch seq : Nat) : unackedOf t ch seq = unackedOf s ch seq := by
  simp only [unackedOf, same]

theorem measure_mem (s : State) (sl ch : Nat) (c : Cmd) (bs : List Byte) : (measure s sl ch c bs).mem = s.mem := by
  simp only [measure]
  split <;> rfl

theorem measure_net (s : State) (sl ch : Nat) (c : Cmd) (bs : List Byte) : (measure s sl ch c bs).net = s.net := by
  simp only [measure]
  split <;> rfl

/-- Such a transfer ends OK once its bytes are read and written. -/
theorem OnePiece.xfer (one : OnePiece c x) (read : sourceBytes s (chSliceOf s ch) ch c x 0 x.len = .ok (u, bs)) (len : bs.length = x.len)
    (store : cmdStore (readInto u ch c bs) (chSliceOf (readInto u ch c bs) ch) (.cmd ch c.seq) 2 x.dst bs = .ok t)
    (acked : unackedOf t ch c.seq = []) :
    xfer s ch c = .next (endXfer (putFlight (measure t (chSliceOf (readInto u ch c bs) ch) ch { c with buf := bs } bs) ch (movedAll c x.len)) ch
      (movedAll c x.len) { status := stOk, bytes := x.len }) := by
  obtain ⟨rfl, sound, flag, some_, piece, source, device, narrow, first, empty⟩ := one
  have fuel : 2 * ((xferOf c).len - c.done) + 1 = 2 * ((xferOf c).len - 1) + 2 + 1 := by omega
  rw [xfer_of_sound sound, fuel, xferGo_reads first some_ narrow piece _ empty (source.symm ▸ read),
    xferGo_writes (c := { c with buf := bs }) first some_ narrow piece _ len (device.symm ▸ store), xferGo_finished _ (Nat.le_refl _)]
  exact xferTail_of_no_flag flag ((unackedOf_of_paths (congrArg Net.paths (measure_net ..)) ch c.seq).trans acked)

/-! ### Bytes written in one sector of device memory -/

/-- A translated address keeps its place within its sector: pages are whole sectors, at whole sectors (Tables 5.3 and 5.4). -/
theorem translate_mod_sector {kind : Nat} (stands : translate s m a kind = .ok pa) : pa % 64 = a % 64 := by
  have base {l b : Nat} {e : Pte × Nat × Nat} (walked : walkFrom s a l b = some e) : e.1.addr % 64 = 0 := by
    have entry (b i : Nat) : (pteAt s b i).addr % 64 = 0 := by simp only [pteAt, decodePte]; omega
    induction l generalizing b with
    | zero =>
      simp only [walkFrom] at walked
      split_ifs at walked
      cases walked
      exact entry _ _
    | succ l ih =>
      simp only [walkFrom] at walked
      split_ifs at walked
      · cases walked
        exact entry _ _
      · exact ih walked
  have place (l : Nat) : a % 2 ^ levelShift l % 64 = a % 64 := by
    refine Nat.mod_mod_of_dvd a (pow_dvd_pow 2 (m := 6) ?_)
    simp only [levelShift]
    split_ifs <;> omega
  simp only [translate] at stands
  split at stands
  · cases stands
  next p l at_ found =>
    simp only [walk] at found
    split_ifs at found
    have aligned : p.addr % 64 = 0 := base found
    have offset := place l
    have at_ : pa = p.addr + a % 2 ^ levelShift l := by
      split at stands
      · cases stands
      · split at stands
        · cases stands
        · split at stands <;> split_ifs at stands <;> cases stands <;> rfl
    omega

/-- A write that may go through stands at the sector that its address translates to. -/
theorem writeOk_key {k : SectKey} (ok : writeOk s m 2 a by_ = .ok k) (stands : translate s m a 1 = .ok pa) : k = devSect pa := by
  simp only [writeOk, locate, OfNat.ofNat_ne_one, if_false, stands] at ok
  split at ok
  · cases ok
  · split at ok
    · cases ok
    · split at ok
      · cases ok
      · exact (Except.ok.inj ok).symm

theorem writeOk_of_spanOkBy {n space : Nat} (some_ : 0 < n) (ok : spanOkBy by_ s m space a n true = .ok ()) : ∃ k, writeOk s m space a by_ = .ok k := by
  simp only [spanOkBy, spanOkGo, if_neg some_.ne', if_true] at ok
  split at ok
  · cases ok
  · next k found => exact ⟨k, found⟩

theorem writeRunGo_nil (f : Fill) (wr : Option Nat) (by_ : Asker) (m space fuel : Nat) (s : State) (a done : Nat) :
    (writeRunGo f wr by_ m space fuel s a [] done).1 = s := by cases fuel <;> rfl

section Sector

variable (some_ : 0 < bs.length) (within : a % 64 + bs.length ≤ 64) (stands : translate s m a 1 = .ok pa)
include some_ within stands

/-- A run within a sector is one piece. -/
theorem writeRunAs_of_within (f : Fill) (wr : Option Nat) (ok : spanOkBy by_ s m 2 a bs.length true = .ok ()) :
    (writeRunAs f wr by_ s m 2 a bs).1 = writePieceAs f s wr m 2 a (devSect pa) bs := by
  obtain ⟨k, able⟩ := writeOk_of_spanOkBy some_ ok
  obtain rfl := writeOk_key able stands
  have whole : min bs.length (sectLeft a) = bs.length := Nat.min_eq_left (by simp only [sectLeft]; omega)
  have nonempty : bs.isEmpty = false := List.isEmpty_eq_false_iff.2 (List.length_pos_iff.1 some_)
  rw [writeRunAs, writeRunGo]
  simp only [nonempty, Bool.false_eq_true, if_false, able, whole, List.take_length, List.drop_length, writeRunGo_nil]

/-- A command's write within a sector is one piece, and its request is served. -/
theorem cmdStore_of_within {who : FrameFor} (ok : spanOkBy (cmdAsk who) s m 2 a bs.length true = .ok ()) :
    cmdStore s m who 2 a bs = .ok (served (writePieceAs .sectors s none m 2 a (devSect pa) bs) (cmdAsk who)) := by
  simp only [cmdStore, Nat.reduceEqDiff, if_false, ok, writeRunAs_of_within some_ within stands .sectors none ok]

end Sector

/-- The bytes written read as written. -/
theorem cellsGet_writeSectAt (die : Nat) (f : Fill) (s : State) (wr : Option Nat) (n l i off : Nat) (bs : List Byte) :
    cellsGet (writeSectAt die f s wr n ⟨.dev l, i⟩ off bs).mem.bytes (sectBase ⟨.dev l, i⟩ + off) bs.length = bs := by
  simp only [writeSectAt, (keeps_updateL1 _ _ _ _ _).2]
  split <;> exact cellsGet_cellsPut _ _ bs

theorem sectBase_devSect (pa : Nat) : sectBase (devSect pa) + pa % 64 = pa := by
  simp only [sectBase, devSect]
  omega

theorem cellsGet_writePieceAs (f : Fill) (s : State) (wr : Option Nat) (m : Nat) (place : pa % 64 = a % 64) (bs : List Byte) :
    cellsGet (writePieceAs f s wr m 2 a (devSect pa) bs).mem.bytes pa bs.length = bs := by
  have written := fun s' => cellsGet_writeSectAt (writerDie s wr (devSect pa).line) f s' wr m (pa / 512) (pa / 64 % 8) (pa % 64) bs
  simp only [show sectBase ⟨.dev (pa / 512), pa / 64 % 8⟩ + pa % 64 = pa from sectBase_devSect pa] at written
  simp only [writePieceAs, writePieceAt, ← place]
  exact written _

/-- A piece of device memory as a store of it. -/
def pieceStore (m a pa : Nat) (bs : List Byte) : StoreEnt :=
  { ctx := 0, core := 0, slice := m, space := 2, va := a, line := (devSect pa).line, i := (devSect pa).i, parts := [(a % 64, bs)] }

theorem storeRanges_pieceStore (place : pa % 64 = a % 64) : storeRanges [pieceStore m a pa bs] = [(pa, bs.length)] := by
  have at_ := sectBase_devSect pa
  simp only [devSect] at at_
  simp [storeRanges, pieceStore, devSect, ← place, at_]

/-- A piece leaves every other byte, but that a discarded sector may take the value beneath (R174). -/
theorem sameByte_writePieceAs (s : State) (m : Nat) (place : pa % 64 = a % 64) {b : Nat} (out : b < pa ∨ pa + bs.length ≤ b) :
    SameByte s (writePieceAs .sectors s none m 2 a (devSect pa) bs) b := by
  have stored := Stored.writePiece s (es := [pieceStore m a pa bs]) (List.mem_singleton_self _) (p := (a % 64, bs)) (List.mem_singleton_self _) none
  have same := stored.bytes b (by simpa [Outside, storeRanges_pieceStore place] using out)
  simp only [pieceStore, Nat.div_add_mod'] at same
  exact same

/-! ### Bytes read by a requester that stands on no compute die -/

theorem uncounted_chSlice (n ch : Nat) : Uncounted n (Obj.chSlice ch) where
  hits := by simp only [Obj.llmHits, Obj.chSlice]; omega
  misses := by simp only [Obj.llmMisses, Obj.chSlice]; omega
  broadcasts d hd := by simp only [Obj.broadcasts, Obj.chSlice]; omega

theorem Uncounted.getObj_readRunAs {k addr n : Nat} (h : Uncounted m k) (away : askerCore by_ = none) {f : Fill} {space : Nat}
    (read : readRunAs f by_ s m space addr n = .ok (t, bs)) : t.getObj k = s.getObj k := by
  have sect (s : State) (x : SectKey) : (agentSect f by_ s m x).1.getObj k = s.getObj k := by
    simp only [agentSect, away]
    exact (readSect_getObj _ _ k).trans (h.getObj_readVia_home s _ _ f)
  have run (fuel : Nat) {s t : State} {addr n : Nat} {bs : List Byte} (read : readRunGo f by_ m space fuel s addr n = .ok (t, bs)) :
      t.getObj k = s.getObj k := by
    induction fuel generalizing s t addr n bs with
    | zero => cases read; rfl
    | succ fuel ih =>
      simp only [readRunGo] at read
      split at read
      · cases read; rfl
      · split at read
        · cases read
        · split at read
          · cases read
          · next rest => cases read; exact (ih rest).trans (sect s _)
  exact run _ read

theorem readRunGo_length {f : Fill} {space fuel addr n : Nat} (enough : n = 0 ∨ addr % 64 + n ≤ 64 * fuel)
    (read : readRunGo f by_ m space fuel s addr n = .ok (t, bs)) : bs.length = n := by
  induction fuel generalizing s t addr n bs with
  | zero => cases read; exact (show n = 0 by omega).symm
  | succ fuel ih =>
    simp only [readRunGo] at read
    split at read
    · next none_ => cases read; exact none_.symm
    · split at read
      · cases read
      · split at read
        · cases read
        · next rest =>
          cases read
          rw [List.length_append, ih (by simp only [sectLeft]; omega) rest, sectGet, toLe_length]
          omega

theorem readRunAs_length {f : Fill} {space addr n : Nat} (read : readRunAs f by_ s m space addr n = .ok (t, bs)) : bs.length = n :=
  readRunGo_length (by omega) read

/-! ### The statements -/

/-- Settles O36: every branch of the walk goes on but at an address that no tier populates; with no byte to move the tail is reached at once. -/
theorem transfersGoOn : Obligations.TransfersGoOn := by
  unfold Obligations.TransfersGoOn
  intro s r c run x
  refine ⟨fun sound none_ first flag acked => ?_, goesOrAbsent_xfer s r.ch c⟩
  obtain ⟨found, -, -⟩ := run
  have quiet : unackedOf s r.ch c.seq = [] := by rw [findFlight_seq found, acked]
  have walk := xfer_of_sound (s := s) (ch := r.ch) sound
  rw [walk, xferGo_finished _ (by simp only [x] at none_; omega), xferTail_of_no_flag flag quiet]
  exact congrArg (fun n => Host.Outcome.next (endXfer s r.ch c { status := stOk, bytes := n })) none_

/-- What one piece, read as `bs` into `u`, leaves where its sector can be written: its bytes at the destination and every other byte as before. -/
theorem OnePiece.lands (one : OnePiece c x) (read : sourceBytes s (chSliceOf s ch) ch c x 0 x.len = .ok (u, bs)) (len : bs.length = x.len)
    (acked : unackedOf s ch c.seq = []) (net : u.net = s.net) (slice : chSliceOf u ch = chSliceOf s ch)
    (stands : translate (readInto u ch c bs) (chSliceOf s ch) x.dst 1 = .ok pa)
    (able : spanOkBy (.cmd ch c.seq) (readInto u ch c bs) (chSliceOf s ch) 2 x.dst x.len true = .ok ()) :
    ∃ t d, Machine.xfer s ch c = .next (endXfer t ch d { status := stOk, bytes := x.len }) ∧ d.seq = c.seq ∧ d.done = x.len ∧
      cellsGet t.mem.bytes pa x.len = bs ∧ ∀ a, a < pa ∨ pa + x.len ≤ a → SameByte (readInto u ch c bs) t a := by
  have same : chSliceOf (readInto u ch c bs) ch = chSliceOf s ch := slice
  have place := translate_mod_sector stands
  rw [← len] at able
  have store := cmdStore_of_within (len ▸ one.some_) (len ▸ one.within) stands (who := .cmd ch c.seq) able
  have paths : (served (writePieceAs .sectors (readInto u ch c bs) none (chSliceOf s ch) 2 x.dst (devSect pa) bs) (.cmd ch c.seq)).net.paths =
      s.net.paths := by
    rw [served_net, net_of_chansNet (chansNet_writePieceAs ..), ← net]
    rfl
  have ended := one.xfer read len (same.symm ▸ store) ((unackedOf_of_paths paths ch c.seq).trans acked)
  refine ⟨_, _, ended, rfl, rfl, ?_, fun a out => ?_⟩
  · refine (congrArg (fun b => cellsGet b pa x.len) ((congrArg Mem.bytes (measure_mem ..)).trans (served_bytes ..))).trans ?_
    rw [← len]
    exact cellsGet_writePieceAs _ _ _ _ place bs
  · have bytes := sameByte_writePieceAs (readInto u ch c bs) (chSliceOf s ch) place (bs := bs) (b := a) (len ▸ out)
    refine bytes.imp (fun b => ?_) fun ⟨d, mem, at_, b⟩ => ⟨d, mem, at_, ?_⟩
    all_goals exact (congrArg (cellGet · a) ((congrArg Mem.bytes (measure_mem ..)).trans (served_bytes ..))).trans b

/-- Settles O35: the pattern and the payload are at hand, and the bytes of a source sector are read at their home; what is at hand is one piece of
its destination's sector. -/
theorem transfersMoveBytes : Obligations.TransfersMoveBytes := by
  unfold Obligations.TransfersMoveBytes
  intro s r c pa run first empty x sound flag some_ piece source device narrow acked n ask go
  have one : OnePiece c x := ⟨rfl, sound, flag, some_, piece, source, device, narrow, first, empty⟩
  obtain ⟨found, kind, open_⟩ := run
  have quiet : unackedOf s r.ch c.seq = [] := by rw [findFlight_seq found, acked]
  have command {op : Nat} (is : c.op = op) : Running s r [op] c := ⟨found, List.mem_singleton.2 is, open_⟩
  have goes {i : Instr} {op : Nat} {u : State} {bs : List Byte} (row : exec i s = withCmd [op] r s fun c => xfer s r.ch c)
      (read : c.op = op → sourceBytes s n r.ch c x 0 x.len = .ok (u, bs)) (len : bs.length = x.len) (net : u.net = s.net)
      (slice : chSliceOf u r.ch = n) : go i op u bs := by
    intro is src stands able
    obtain ⟨t, d, ended, rest⟩ := one.lands (read is) len quiet net slice stands able
    exact ⟨t, d, (row.trans (withCmd_of_running (command is) _)).trans ended, rest⟩
  refine ⟨goes rfl (fun is => ?_) (by simp) rfl rfl, goes rfl (fun is => ?_) ?_ rfl rfl, fun src bs device_ read => ?_⟩
  · simp only [sourceBytes, is, if_true, Nat.zero_add]
  · simp only [sourceBytes, is, Nat.reduceEqDiff, if_false, if_true, List.drop_zero]
  · simp only [padTo, List.length_take, List.length_append, List.length_replicate]
    omega
  · have len := readRunAs_length read
    have net : (served src ask).net = s.net := (served_net src ask).trans (net_of_chansNet (chansNet_readRunAs read))
    have slice : chSliceOf (served src ask) r.ch = n := by
      have kept : src.getObj (Obj.chSlice r.ch) = n := (uncounted_chSlice n r.ch).getObj_readRunAs rfl read
      obtain ⟨_, _, _, same⟩ := served_eq src ask
      rw [same]
      exact kept
    have source {op : Nat} (fill : op ≠ 3) (inline : op ≠ 4) (is : c.op = op) : sourceBytes s n r.ch c x 0 x.len = .ok (served src ask, bs) := by
      simp only [sourceBytes, is, fill, inline, if_false, cmdLoad, device_, Nat.reduceEqDiff, Nat.add_zero, cmdAsk]
      rw [show readRunAs .sectors (.cmd r.ch c.seq) s n 2 (x.src % 2 ^ 64) x.len = .ok (src, bs) from read]
    exact ⟨goes rfl (source (by decide) (by decide)) len net slice, goes rfl (source (by decide) (by decide)) len net slice⟩

end Sys2Proof.Machine
end

section
/-! SUPPORT. Proofs of reserved commands (R15, R299): free values are used up in order (log 3), by an access to memory, a frame or unpredictable
results, and none is given back. -/

namespace Sys2Proof.Machine

variable {s t : State} {m space a n d : Nat} {k : SectKey} {w : Bool} {by_ : Asker}

/-! ### What the caches do with an access uses no free value -/

@[simp] theorem free_invalidateDie (s : State) (wr : Option Nat) (d : Nat) (l : LineKey) : (invalidateDie s wr d l).free = s.free := by
  rw [invalidateDie_eq]

@[simp] theorem free_dirtyHome (s : State) (d x : Nat) : (dirtyHome s d x).free = s.free := by rw [dirtyHome_eq]

@[simp] theorem free_invalidateL1 (s : State) (wr : Option Nat) (l : LineKey) : (invalidateL1 s wr l).free = s.free :=
  foldl_leaves State.free (fun s d => free_invalidateDie s wr d l) _ s

@[simp] theorem free_putDir (s : State) (e : DirEnt) : (putDir s e).free = s.free := rfl

@[simp] theorem free_dropDir (s : State) (l : LineKey) : (dropDir s l).free = s.free := rfl

@[simp] theorem free_setUnder (s : State) (d x : Nat) (u : List (Nat × Sector)) : (setUnder s d x u).free = s.free := rfl

@[simp] theorem free_snoopChip (s : State) (p : Nat) (h : HeldLine) (w : Bool) : (snoopChip s p h w).free = s.free := by
  simp only [snoopChip]
  split <;> rfl

@[simp] theorem free_dropCopy (s : State) (wr : Option Nat) (a : Nat) (l : LineKey) : (dropCopy s wr a l).free = s.free := by
  simp only [dropCopy]
  split
  · rfl
  · cases l with
    | dev x => exact (free_invalidateDie ..).trans (free_dirtyHome s a x)
    | shr m x => exact free_invalidateDie ..

theorem free_llmRoom {x : Nat} (room : llmRoom s n d x = some t) : t.free = s.free := by
  simp only [llmRoom] at room
  split at room
  · cases room
  · split at room
    · cases room; rfl
    · split at room
      · cases room
      · split at room
        · cases room; rfl
        · split at room
          · split at room
            · cases room; exact free_dropCopy s none d _
            · cases room; rfl
          · cases room; rfl

@[simp] theorem free_llmTouch (s : State) (n d x : Nat) (is : List Nat) (w : Bool) (f : Fill) : (llmTouch s n d x is w f).free = s.free := by
  simp only [llmTouch]
  have counted : (if llmHit s d x is = true then s.addObj (Obj.llmHits n) 1 else s.addObj (Obj.llmMisses n) 1).free = s.free := by
    split <;> rfl
  generalize (if llmHit s d x is = true then s.addObj (Obj.llmHits n) 1 else s.addObj (Obj.llmMisses n) 1) = u at counted ⊢
  split
  · exact counted
  · split
    · exact counted
    · split
      · exact counted
      · next room => exact (free_llmRoom room).trans counted

@[simp] theorem free_evictDir (s : State) (e : DirEnt) : (evictDir s e).free = s.free := by
  have copies (s : State) : ((agentsOf e).foldl (fun s a => dropCopy s none a e.line) s).free = s.free :=
    foldl_leaves State.free (fun s a => free_dropCopy s none a e.line) _ s
  have snoops (hs : List (Nat × HeldLine)) (s : State) : (hs.foldl (fun s p => snoopChip s p.1 p.2 true) s).free = s.free :=
    foldl_leaves State.free (fun s p => free_snoopChip s p.1 p.2 true) hs s
  simp only [evictDir]
  split <;> split_ifs <;> simp [copies, snoops]

theorem free_of_dirRoom {l : LineKey} {r : Except State State} (room : dirRoom s n l = r) : (roomState r).free = s.free := by
  obtain same | same | ⟨e, same | same⟩ := dirRoom_cases s n l <;> rw [← room, same]
  · rfl
  · rfl
  · exact free_evictDir s e
  · exact free_evictDir s e

@[simp] theorem free_dirHomeRead (s : State) (l : LineKey) : (dirHomeRead s l).free = s.free := by
  simp only [dirHomeRead]
  split
  · split
    · cases l <;> simp
    · rfl
  · rfl

@[simp] theorem free_dropOthers (s : State) (wr : Option Nat) (d : Nat) (l : LineKey) : (dropOthers s wr d l).free = s.free := by
  have copies (as : List Nat) (s : State) : (as.foldl (fun s a => dropCopy s wr a l) s).free = s.free :=
    foldl_leaves State.free (fun s a => free_dropCopy s wr a l) as s
  simp only [dropOthers, free_invalidateL1]
  split
  · rfl
  · rw [copies]
    split <;> rfl

@[simp] theorem free_dirWrite (s : State) (wr : Option Nat) (n d : Nat) (l : LineKey) (own : Bool) : (dirWrite s wr n d l own).free = s.free := by
  have others := free_dropOthers s wr d l
  simp only [dirWrite]
  split
  · split
    · split <;> exact (free_of_dirRoom ‹_›).trans others
    · exact others
  · split_ifs <;> simp

@[simp] theorem free_writeVia (s : State) (wr : Option Nat) (n d : Nat) (l : LineKey) (i : Nat) (f : Fill) : (writeVia s wr n d l i f).free = s.free := by
  cases l with
  | shr m x => exact free_dirWrite ..
  | dev x =>
    simp only [writeVia]
    split
    · simp
    · simp only [ownWrite]
      split
      · simp
      · split <;> simp

/-! ### A write uses free values up where it meets a discarded sector (R174) -/

theorem free_le_foldl {α : Type} {f : State → α → State} (up : ∀ s x, s.free ≤ (f s x).free) (xs : List α) (s : State) : s.free ≤ (xs.foldl f s).free := by
  induction xs generalizing s with
  | nil => exact Nat.le_refl _
  | cons x xs ih => exact (up s x).trans (ih _)

theorem free_le_mergeDead (s : State) (wr : Option Nat) (k : SectKey) (len : Nat) : s.free ≤ (mergeDead s wr k len).free := by
  have read : s.free ≤ (readSect s k).1.free := by
    simp only [readSect]
    split
    · exact Nat.le_refl _
    · exact Nat.le_add_right _ _
  simp only [mergeDead]
  split
  · exact Nat.le_refl _
  · split
    · exact Nat.le_refl _
    · cases wr <;> exact read

@[simp] theorem free_putSect (s : State) (k : SectKey) (off : Nat) (bs : List Byte) : (putSect s k off bs).free = s.free := by
  simp only [putSect]
  split <;> rfl

theorem free_le_writeSectAt (die : Nat) (f : Fill) (s : State) (wr : Option Nat) (n : Nat) (k : SectKey) (off : Nat) (bs : List Byte) :
    s.free ≤ (writeSectAt die f s wr n k off bs).free := by
  have fresh (s : State) : (freshL1 s wr k).free = s.free := by cases wr <;> rfl
  have update (s : State) : (updateL1 s wr k off bs).free = s.free := by cases wr <;> rfl
  have landed : s.free ≤ (putSect (writeVia (freshL1 (mergeDead s wr k bs.length) wr k) wr n die k.line k.i f) k off bs).free := by
    rw [free_putSect, free_writeVia, fresh]
    exact free_le_mergeDead s wr k bs.length
  simp only [writeSectAt, update]
  split <;> exact landed

@[simp] theorem free_noteCode (s : State) (m a n : Nat) : (noteCode s m a n).free = s.free := by
  simp only [noteCode]
  split <;> rfl

theorem free_le_writePieceAs (f : Fill) (s : State) (wr : Option Nat) (m space a : Nat) (k : SectKey) (bs : List Byte) :
    s.free ≤ (writePieceAs f s wr m space a k bs).free := by
  have logged : (if space = 1 then s else noteCode (logWrite s m a) m a bs.length).free = s.free := by
    split
    · rfl
    · exact free_noteCode ..
  exact logged.ge.trans (free_le_writeSectAt ..)

theorem free_le_writeRunGo (f : Fill) (wr : Option Nat) (by_ : Asker) (m space fuel : Nat) (s : State) (a : Nat) (bs : List Byte) (done : Nat) :
    s.free ≤ (writeRunGo f wr by_ m space fuel s a bs done).1.free := by
  induction fuel generalizing s a bs done with
  | zero => exact Nat.le_refl _
  | succ fuel ih =>
    simp only [writeRunGo]
    split
    · exact Nat.le_refl _
    · split
      · exact Nat.le_refl _
      · exact (free_le_writePieceAs ..).trans (ih _ _ _ _)

theorem free_le_writeRunAs (f : Fill) (wr : Option Nat) (by_ : Asker) (s : State) (m space a : Nat) (bs : List Byte) :
    s.free ≤ (writeRunAs f wr by_ s m space a bs).1.free := free_le_writeRunGo f wr by_ m space _ s a bs 0

/-! ### An access that waits uses no free value -/

theorem free_missWait (waits : missWait s k w by_ = some t) : t.free = s.free := by
  simp only [missWait] at waits
  split at waits
  · cases waits; rfl
  · cases waits; rfl
  · cases waits; rfl
  · split at waits
    · cases waits
      simp only [waitInput]
      split <;> rfl
    · cases waits; rfl
  · cases waits

theorem free_dirWait (waits : dirWait s k w by_ = some t) : t.free = s.free := by
  simp only [dirWait] at waits
  split at waits
  · cases waits
  · split at waits
    · cases waits
    · split at waits
      · split at waits
        · cases waits
        · next room => cases waits; exact free_of_dirRoom room
      · split at waits
        · cases waits
        · split at waits
          · split at waits
            · cases waits; exact free_snoopChip ..
            · cases waits
          · cases waits

theorem free_waitFrozen (s : State) (k : SectKey) (by_ : Asker) : (waitFrozen s k by_).free = s.free := by
  simp only [waitFrozen]
  split <;> rfl

theorem free_reach (waits : reach s k w by_ = .error (.wait t)) : t.free = s.free := by
  simp only [reach] at waits
  split at waits
  · cases waits
  split at waits
  · cases waits; rfl
  split at waits
  · cases waits; exact foldl_leaves State.free (fun s p => free_snoopChip s _ _ _) _ s
  split at waits
  · cases waits; rfl
  split at waits
  · next dir => cases waits; exact free_dirWait dir
  split at waits
  · next miss => cases waits; exact free_missWait miss
  split at waits
  · cases waits; exact free_waitFrozen s k by_
  split at waits
  · cases waits; rfl
  split at waits
  · cases waits; rfl
  · cases waits

/-- A translation does not wait. -/
theorem locate_not_wait {kind : Nat} : locate s m space a kind ≠ .error (.wait t) := by
  have translated : translate s m a kind ≠ .error (.wait t) := by
    simp only [translate]
    split
    · simp
    · split
      · simp
      · split
        · simp
        · split <;> split_ifs <;> simp
  simp only [locate]
  split_ifs
  · simp
  · simp
  · split
    · simp
    · next found => intro waits; cases waits; exact translated found

theorem free_writeOk (waits : writeOk s m space a by_ = .error (.wait t)) : t.free = s.free := by
  simp only [writeOk] at waits
  split at waits
  · next place => cases waits; exact absurd place locate_not_wait
  split at waits
  · cases waits
  split at waits
  · next reached => cases waits; exact free_reach reached
  split at waits
  · cases waits
  split at waits
  · next gate =>
    cases waits
    simp only [imageGate] at gate
    split_ifs at gate
    cases gate
    rfl
  · cases waits

theorem free_spanOk (waits : spanOk s m space a n true = .error (.wait t)) : t.free = s.free := by
  have go (fuel a n : Nat) (waits : spanOkGo s m space true .device fuel a n = .error (.wait t)) : t.free = s.free := by
    induction fuel generalizing a n with
    | zero => cases waits
    | succ fuel ih =>
      simp only [spanOkGo, if_true] at waits
      split at waits
      · cases waits
      · split at waits
        · next stop => cases waits; exact free_writeOk stop
        · exact ih _ _ waits
  exact go _ _ _ waits

/-! ### System-space stores -/

theorem free_le_noteExternal (s : State) (src : Source) (sl sp a : Nat) : s.free ≤ (noteExternal s src sl sp a).free := by
  simp only [noteExternal]
  split
  · exact Nat.le_refl _
  · refine free_le_foldl (fun s k => ?_) _ s
    split
    · exact Nat.le_refl _
    · exact Nat.le_add_right _ _
    · exact Nat.le_refl _
    · split <;> exact Nat.le_refl _

/-- The state that an access at a target leaves. -/
def Served.state {α : Type} : Served α → State
  | .done s _ => s
  | .refused s => s
  | .wait s => s

theorem free_le_serveWrite (s : State) (src addr : Nat) (bs : List Byte) (roce : Bool) (from_ : Source) :
    s.free ≤ (serveWrite s src addr bs roce from_).state.free := by
  simp only [serveWrite]
  split
  · exact Nat.le_refl _
  · split
    · next waits => exact (free_spanOk waits).ge
    · exact Nat.le_refl _
    · refine Nat.le_trans ?_ (free_le_noteExternal (State.addObj _ _ _) ..)
      exact free_le_writeRunAs ..

@[simp] theorem free_drainTx (q fuel : Nat) (s : State) : (drainTx q fuel s).free = s.free := by
  induction fuel generalizing s with
  | zero => rfl
  | succ fuel ih =>
    simp only [drainTx]
    split
    · rfl
    · split
      · rfl
      · exact (ih _).trans rfl

@[simp] theorem free_emit (s : State) (dst ty : Nat) (f : TFrame) : (emit s dst ty f).free = s.free := by
  simp only [emit]
  split
  · rfl
  · split
    · exact free_drainTx ..
    · rfl

theorem free_openPath {dst : Nat} {p : PathCtx} (opened : openPath s dst = some (t, p)) : t.free = s.free := by
  simp only [openPath] at opened
  split at opened
  · cases opened; rfl
  · split at opened
    · cases opened; rfl
    · split at opened
      · cases opened
      · cases opened; rfl

theorem free_sendFrame {dst ty : Nat} {f : TFrame} {who : FrameFor} (sent : sendFrame s dst ty f who = some t) : t.free = s.free := by
  simp only [sendFrame] at sent
  split at sent
  · cases sent
  · next opened =>
    have same := free_openPath opened
    cases sent
    exact (free_emit ..).trans same

theorem free_storeFailed (s : State) (who : FrameFor) (refused : Bool) (a : Nat) : (storeFailed s who refused a).free = s.free := by cases who <;> rfl

theorem free_le_sysStore (s : State) (sl : Nat) (who : FrameFor) (addr : Nat) (bs : List Byte) : s.free ≤ (sysStore s sl who addr bs).1.free := by
  simp only [sysStore]
  split
  · have served := free_le_serveWrite s s.ownId addr bs false (.local_ (chanOfFrame s who))
    split
    · next done => rw [done] at served; exact served
    · next refused => rw [refused] at served; exact served.trans (free_storeFailed ..).ge
    · next waits => rw [waits] at served; exact served
  · split
    · next sent => exact (free_sendFrame sent).ge
    · exact Nat.le_refl _

/-! ### Unpredictable results -/

theorem free_le_scrambleOne (n base : Nat) (s : State) : s.free ≤ (scrambleOne n base s).free := by
  have gang (f : Launch → Gang → Gang) : s.free ≤ (match pickGang s n (Config.freeNat (base + 3)) with
      | some (l, g) => updGang s l.ctx g.idx (f l)
      | none => s).free := by
    split <;> exact Nat.le_refl _
  simp only [scrambleOne]
  split
  · exact free_le_writeRunAs ..
  · exact free_le_writeRunAs ..
  · exact free_le_sysStore ..
  · exact gang _
  · exact gang _
  · exact gang _

theorem free_le_unpredictable (s : State) (n : Nat) : s.free ≤ (unpredictable s n).free := by
  have all (base k : Nat) (s : State) : s.free ≤ (scrambleAll n base k s).free := by
    induction k generalizing s with
    | zero => exact Nat.le_refl _
    | succ k ih => exact (free_le_scrambleOne ..).trans (ih _)
  exact (Nat.le_add_right s.free (5 * s.freeVal + 1)).trans (all _ _ (s.useFree (5 * s.freeVal + 1)))

theorem free_anyKill (s : State) (n : Nat) : (anyKill s n).free = s.free + 2 := by
  simp only [anyKill]
  split <;> rfl

theorem anyStatus_mem (k : Nat) : anyStatus k ∈ statusCodes := by
  have within : Config.freeNat k % statusCodes.length < statusCodes.length := Nat.mod_lt _ (by decide)
  rw [anyStatus, List.getD_eq_getElem _ _ within]
  exact List.getElem_mem within

theorem exec_reservedCommand {r : CmdRef} {c : Cmd} (found : findFlight s r.ch r.seq = some c) (open_ : c.final = none) (op : c.op = 0 ∨ 0x0E ≤ c.op) :
    exec (.reservedCommand r) s = .next (cmdAny s r.ch c) := by
  have reserved : reservedOp c.op = true := by simpa [reservedOp] using op
  simp only [exec, execReservedCommand, found, withSome_some, reserved, open_, Bool.not_true, Bool.false_eq_true, if_false]

/-- Settles O38: the command ends with the outcome that the next free values give, after those that its slice's values took. -/
theorem reservedCommandsGoOn : Obligations.ReservedCommandsGoOn := by
  unfold Obligations.ReservedCommandsGoOn
  intro s r c found open_ op
  refine ⟨_, _, exec_reservedCommand found open_ op, ?_, anyStatus_mem _⟩
  have killed := free_anyKill (unpredictable s (chSliceOf s r.ch)) (chSliceOf s r.ch)
  have used := free_le_unpredictable s (chSliceOf s r.ch)
  change s.free < (anyKill (unpredictable s (chSliceOf s r.ch)) (chSliceOf s r.ch)).free + 3
  omega

end Sys2Proof.Machine
end

section
/-! SUPPORT. Proofs of draft frames (R335, R336): how the SEQ of a frame that arrives lies to the one that is current on its link. -/

namespace Sys2Proof.Machine

variable {s : State} {q kind : Nat} {f : DraftFrame}

/-! ### Draft frames as they arrive -/

/-- The commands of draft frames, each with its KIND (R335). -/
def draftRows (q : Nat) (f : DraftFrame) : List (Instr × Nat) :=
  [(.hello q f, 1), (.elect q f, 2), (.assign q f, 3), (.align q f, 4), (.vote q f, 5), (.outcome q f, 6), (.barrierUp q f, 7), (.barrierDown q f, 8),
    (.periodFrame q f, 9), (.rollback q f, 10), (.lostFrame q f, 11), (.draftNak q f, 12)]

theorem exec_draftRows (s : State) : ∀ r ∈ draftRows q f, exec r.1 s = recvDraft r.2 q f s := by
  simp only [draftRows, List.forall_mem_cons, List.not_mem_nil, false_implies, implies_true, and_true]
  exact ⟨rfl, rfl, rfl, rfl, rfl, rfl, rfl, rfl, rfl, rfl, rfl, rfl⟩

/-- A frame of another EtherType is none of the draft's (R335). -/
theorem recvDraft_foreign (foreign : s.forced Obj.draftEthertype ≠ f.ether) : recvDraft kind q f s = .next s := by
  simp only [recvDraft, beq_false_of_ne foreign.symm, Bool.and_false, onlyIf_false]

/-- A frame of the draft's EtherType at a port that is up (R335). -/
structure DraftArrives (s : State) (q : Nat) (f : DraftFrame) : Prop where
  port : q < 64
  up : (s.port q).up = true
  ours : s.forced Obj.draftEthertype = f.ether

theorem DraftArrives.admitted (arrives : DraftArrives s q f) :
    (decide (q < 64) && (s.port q).up && f.ether == s.forced Obj.draftEthertype) = true := by
  simp only [decide_eq_true arrives.port, arrives.up, arrives.ours, beq_self_eq_true, Bool.and_self]

theorem seqAhead_self {n : Nat} : seqAhead n n = 0 := by
  simp [seqAhead]

/-- The state once the current SEQ of a link has moved past a frame that no other frame waits behind. -/
def seqTaken (s : State) (q : Nat) : State := s.setPort { s.port q with rxSeq := ((s.port q).rxSeq + 1) % 65536, gap := false }

/-- A frame whose turn it is acts. -/
theorem DraftArrives.recvDraft_turn (arrives : DraftArrives s q f) (turn : f.seq = (s.port q).rxSeq) (empty : (s.port q).heldDraft = []) :
    recvDraft kind q f s = actDraft (seqTaken s q) q (kind, f) := by
  simp [recvDraft, arrives.admitted, turn, seqAhead_self, empty, seqTaken]

/-- A frame whose SEQ has passed is a copy, and discarded. -/
theorem DraftArrives.recvDraft_copy (arrives : DraftArrives s q f) (passed : 32768 ≤ seqAhead f.seq (s.port q).rxSeq) :
    recvDraft kind q f s = .next s := by
  simp only [recvDraft, arrives.admitted, onlyIf_true, passed, true_or, if_true]

/-- The first frame beyond a gap is held; the missing ones are counted, and asked for unless they have been. -/
theorem DraftArrives.recvDraft_gap (arrives : DraftArrives s q f) (ahead : 0 < seqAhead f.seq (s.port q).rxSeq)
    (kept : seqAhead f.seq (s.port q).rxSeq < 256) (empty : (s.port q).heldDraft = []) :
    let v := (s.setPort { s.port q with heldDraft := [(kind, f)], gap := true }).addObj (Obj.draftDoubleLoss (q / 4)) (seqAhead f.seq (s.port q).rxSeq)
    recvDraft kind q f s = .next (if (s.port q).gap then v else sendDraftNak v q) := by
  have near : ¬ 32768 ≤ seqAhead f.seq (s.port q).rxSeq := by omega
  have fills : ¬ 256 ≤ seqAhead f.seq (s.port q).rxSeq := by omega
  simp [recvDraft, arrives.admitted, empty, near, fills, ahead, Nat.pos_iff_ne_zero.1 ahead]

/-- While a gap stands the first missing SEQ is asked for again (R336). -/
theorem exec_draftNakRetry (up : (s.port q).up = true) (gap : (s.port q).gap = true) : exec (.draftNakRetry q) s = .next (sendDraftNak s q) := by
  simp only [exec, execDraftNakRetry, up, gap, Bool.and_self, onlyIf_true]

/-! ### Barriers without a FLAG -/

theorem actBarrierUp_next (flags : ∀ x ∈ barrierHere s f.arg0 f.arg1, x.flag = 0) : ∃ t, actBarrierUp s q f = .next t := barrierTry_next flags

theorem actBarrierDown_next (flags : ∀ x ∈ barrierHere s f.arg0 f.arg1, x.flag = 0) : ∃ t, actBarrierDown s f = .next t := barrierDone_next flags

/-- Settles O47: a frame is taken by how far its SEQ lies ahead of its link's, whatever its KIND; a barrier's frame acts on collectives, which the
link's SEQ leaves. -/
theorem draftFramesInOrder : Obligations.DraftFramesInOrder := by
  unfold Obligations.DraftFramesInOrder
  refine fun s q f port up => ⟨fun foreign => ?_, fun ours => ?_⟩
  · have ignored (kind : Nat) : recvDraft kind q f s = .next s := recvDraft_foreign foreign
    exact ⟨ignored 1, ignored 2, ignored 3, ignored 4, ignored 5, ignored 6, ignored 7, ignored 8, ignored 9, ignored 10, ignored 11, ignored 12⟩
  · have arrives : DraftArrives s q f := ⟨port, up, ours⟩
    have acts (kind : Nat) (turn : f.seq = (s.port q).rxSeq) (_ : (s.port q).rxSeq < 65536) (empty : (s.port q).heldDraft = []) :
        recvDraft kind q f s = actDraft (seqTaken s q) q (kind, f) := arrives.recvDraft_turn turn empty
    refine ⟨acts 1, acts 2, acts 3, acts 4, acts 5, acts 6, acts 9, acts 10, acts 11, acts 12, fun turn seq empty flags => ⟨?up, ?down⟩, ?copy, ?gap,
      exec_draftNakRetry up⟩
    case up =>
      obtain ⟨t, next⟩ := actBarrierUp_next (s := seqTaken s q) (q := q) flags
      exact ⟨t, (acts 7 turn seq empty).trans next⟩
    case down =>
      obtain ⟨t, next⟩ := actBarrierDown_next (s := seqTaken s q) flags
      exact ⟨t, (acts 8 turn seq empty).trans next⟩
    case copy => exact fun r row passed => (exec_draftRows s r row).trans (arrives.recvDraft_copy passed)
    case gap => exact fun r row ahead kept empty => (exec_draftRows s r row).trans (arrives.recvDraft_gap ahead kept empty)

end Sys2Proof.Machine
end

section
/-! SUPPORT. Proofs of RoCEv2 packets (R326, R328 to R330, R383): how the PSN of a packet lies to the one that its queue pair expects, and what each
request does in its turn. -/

namespace Sys2Proof.Machine

variable {s t u : State} {p : RocePacket} {q : Nat} {x y : Qp} {ops : List Nat} {k : Qp → State → Res}

/-! ### The record of a queue pair -/

theorem qp_no (s : State) (q : Nat) : (s.qp q).no = q := by
  unfold State.qp
  cases found : s.net.qps.find? fun x => x.no == q with
  | none => rfl
  | some x => simpa using List.find?_some found

theorem qp_setQp_same (no : x.no = q) : (s.setQp x).qp q = x := by
  subst no
  simp only [State.qp, State.setQp, find?_upsert, Option.getD_some]

/-! ### Packets in PSN order (R328) -/

/-- The PSN that a queue pair expects: before its first packet (2^24), that packet's own. -/
def wantedPsn (x : Qp) (psn : Nat) : Nat := if x.rxPsn = 2 ^ 24 then psn % 2 ^ 24 else x.rxPsn

/-- How far a PSN lies ahead of the one expected. -/
def rocePsnAhead (x : Qp) (psn : Nat) : Nat := (psn + 2 ^ 24 - wantedPsn x psn) % 2 ^ 24

/-- A packet that a ready queue pair can take: the queue pair exists and is in RTS, the packet fits and its ICRC holds (R328). -/
structure RoceArrives (s : State) (p : RocePacket) : Prop where
  pair : p.qp < 1024
  fits : p.payload.length ≤ 4096
  icrc : p.icrcOk = true
  ready : s.getObj (Obj.qpState p.qp) = 1

theorem RoceArrives.recvRoce (arrives : RoceArrives s p) (enabled : s.getObj (Obj.qpEnable p.qp) = 1) (op : p.opcode ∈ ops) :
    recvRoce ops p s k =
      let u := drawCnp s p
      let x := u.qp p.qp
      if rocePsnAhead x p.psn = 0 then k { x with rxPsn := wantedPsn x p.psn } u
      else if 2 ^ 23 ≤ rocePsnAhead x p.psn then .next (roceAck u p.qp p.psn synAck)
      else .next (roceAck u p.qp (wantedPsn x p.psn) synSeq) := by
  obtain ⟨pair, fits, icrc, ready⟩ := arrives
  have formed : ¬ (1024 ≤ p.qp ∨ (!ops.contains p.opcode) = true) := by simp [pair, op]
  have good : ¬ ((!p.icrcOk) = true ∨ s.getObj (Obj.qpEnable p.qp) ≠ 1 ∨ s.getObj (Obj.qpState p.qp) ≠ 1) := by simp [icrc, enabled, ready]
  rw [Machine.recvRoce, if_neg formed, if_neg (Nat.not_lt.2 fits), if_neg good]
  rfl

section Order

variable (arrives : RoceArrives s p) (enabled : s.getObj (Obj.qpEnable p.qp) = 1) (op : p.opcode ∈ ops)
include arrives enabled op

/-- A packet that comes again is acknowledged again. -/
theorem recvRoce_behind (behind : 2 ^ 23 ≤ rocePsnAhead ((drawCnp s p).qp p.qp) p.psn) :
    recvRoce ops p s k = .next (roceAck (drawCnp s p) p.qp p.psn synAck) := by
  rw [arrives.recvRoce enabled op]
  have gap : rocePsnAhead ((drawCnp s p).qp p.qp) p.psn ≠ 0 := by omega
  simp only [gap, if_false, behind, if_true]

/-- A packet beyond a gap draws a sequence NAK. -/
theorem recvRoce_gap (ahead : 0 < rocePsnAhead ((drawCnp s p).qp p.qp) p.psn) (near : rocePsnAhead ((drawCnp s p).qp p.qp) p.psn < 2 ^ 23) :
    recvRoce ops p s k = .next (roceAck (drawCnp s p) p.qp (wantedPsn ((drawCnp s p).qp p.qp) p.psn) synSeq) := by
  rw [arrives.recvRoce enabled op]
  simp only [Nat.pos_iff_ne_zero.1 ahead, if_false, Nat.not_le.2 near]

/-- The packet that is next is performed. -/
theorem recvRoce_turn (turn : rocePsnAhead ((drawCnp s p).qp p.qp) p.psn = 0) :
    recvRoce ops p s k = k { (drawCnp s p).qp p.qp with rxPsn := wantedPsn ((drawCnp s p).qp p.qp) p.psn } (drawCnp s p) := by
  rw [arrives.recvRoce enabled op]
  simp only [turn, if_true]

end Order

/-- The packet that a queue pair expects next arrives: `u` is the state once its mark has drawn a CNP, `y` the queue pair's record there with the PSN
that it expects. -/
structure RoceNext (s : State) (p : RocePacket) (u : State) (y : Qp) : Prop where
  arrives : RoceArrives s p
  enabled : s.getObj (Obj.qpEnable p.qp) = 1
  marked : drawCnp s p = u
  record : { u.qp p.qp with rxPsn := wantedPsn (u.qp p.qp) p.psn } = y
  turn : rocePsnAhead (u.qp p.qp) p.psn = 0

theorem RoceNext.recvRoce (next : RoceNext s p u y) (op : p.opcode ∈ ops) : recvRoce ops p s k = k y u := by
  obtain ⟨arrives, enabled, rfl, rfl, turn⟩ := next
  exact recvRoce_turn arrives enabled op turn

/-- The commands of requests, each with its opcodes. -/
def roceRows (p : RocePacket) : List (Instr × List Nat) :=
  [(.roceSend p, [0x00, 0x01, 0x02, 0x04]), (.rdmaWrite p, [0x06, 0x07, 0x08, 0x0A]), (.rdmaRead p, [0x0C])]

/-- An RDMA READ request is no response. -/
theorem rdmaRead_not_response (op : p.opcode = 0x0C) : ¬ [0x0D, 0x0E, 0x0F, 0x10].contains p.opcode = true := by simp [op]

/-- A request of whatever opcode is taken by its PSN. -/
theorem exec_roceRows (s : State) : ∀ r ∈ roceRows p, p.opcode ∈ r.2 → ∃ k, exec r.1 s = recvRoce r.2 p s k := by
  simp only [roceRows, List.forall_mem_cons, List.not_mem_nil, false_implies, implies_true, and_true]
  refine ⟨fun _ => ?send, fun _ => ?write, fun op => ?read⟩
  case send =>
    change ∃ k, execRoceSend p s = _
    rw [execRoceSend]
    exact ⟨_, rfl⟩
  case write =>
    change ∃ k, execRdmaWrite p s = _
    rw [execRdmaWrite]
    exact ⟨_, rfl⟩
  case read =>
    change ∃ k, execRdmaRead p s = _
    exact ⟨_, if_neg (rdmaRead_not_response (List.mem_singleton.1 op))⟩

/-- The opcode of a message of one packet is one of SEND's. -/
theorem send_only_mem (op : p.opcode = 0x04) : p.opcode ∈ [0x00, 0x01, 0x02, 0x04] := by simp [op]

/-- The opcode of a WRITE of one packet is one of WRITE's. -/
theorem write_only_mem (op : p.opcode = 0x0A) : p.opcode ∈ [0x06, 0x07, 0x08, 0x0A] := by simp [op]

/-! ### SEND (R330) -/

namespace RoceNext

section Send

variable (next : RoceNext s p u y) (op : p.opcode = 0x04) (closed : y.rxOpen = false)
include next op closed

/-- A message to a slice that is not ACTIVE moves the queue pair to error (log 60). -/
theorem exec_roceSend_inactive (inactive : ¬ u.getObj (Obj.sState (u.getObj (Obj.qpSlice p.qp))) = 1) :
    exec (.roceSend p) s = .next (roceError u p.qp p.psn synAccess) := by
  simp only [exec, execRoceSend, next.recvRoce (send_only_mem op)]
  simp [op, closed, qpAdmits, inactive]

variable (empty : y.rxBytes = []) (active : u.getObj (Obj.sState (u.getObj (Obj.qpSlice p.qp))) = 1)
include empty active

/-- A message that the ring has no room for draws an RNR NAK (log 60). -/
theorem exec_roceSend_full (holds : msgSlots p.payload.length ≤ u.getObj (Obj.qpSlots p.qp))
    (full : u.getObj (Obj.qpSlots p.qp) < (u.getObj (Obj.qpRqTail p.qp) + 2 ^ 32 - u.getObj (Obj.qpRqHead p.qp)) % 2 ^ 32 + msgSlots p.payload.length) :
    exec (.roceSend p) s = .next (roceAck u p.qp p.psn synRnr) := by
  simp only [exec, execRoceSend, next.recvRoce (send_only_mem op)]
  simp [op, closed, qpAdmits, active, empty, Nat.not_lt.2 holds, -Nat.reducePow, full]

/-- A whole message takes its slots, and QP_RQ_TAIL passes them. -/
theorem exec_roceSend_room
    (room : (u.getObj (Obj.qpRqTail p.qp) + 2 ^ 32 - u.getObj (Obj.qpRqHead p.qp)) % 2 ^ 32 + msgSlots p.payload.length ≤ u.getObj (Obj.qpSlots p.qp))
    (put : putSlots u p.qp p.payload true (msgSlots p.payload.length) 0 = .ok t) :
    exec (.roceSend p) s = .next (roceDone (t.putObj (Obj.qpRqTail p.qp) ((t.getObj (Obj.qpRqTail p.qp) + msgSlots p.payload.length) % 2 ^ 32))
      { y with rxOpen := false, rxBytes := [] } p.psn) := by
  have holds : msgSlots p.payload.length ≤ u.getObj (Obj.qpSlots p.qp) := (Nat.le_add_left ..).trans room
  simp only [exec, execRoceSend, next.recvRoce (send_only_mem op)]
  simp [op, closed, qpAdmits, active, empty, Nat.not_lt.2 holds, -Nat.reducePow, Nat.not_lt.2 room, put]

end Send

/-! ### RDMA WRITE and READ (R328, R329) -/

theorem payload_small (next : RoceNext s p u y) : ¬ 2 ^ 31 < p.payload.length := by
  have fits := next.arrives.fits
  omega

section Write

variable {a src : Nat} (next : RoceNext s p u y) (op : p.opcode = 0x0A) (idle : y.waLeft = 0) (whole : p.len = p.payload.length)
include next op idle whole

/-- A WRITE that key or window rules out moves the queue pair to error. -/
theorem exec_rdmaWrite_denied (denied : rdmaAddr u p.qp p.rkey p.va.toNat = none) :
    exec (.rdmaWrite p) s = .next (roceError u p.qp p.psn synAccess) := by
  simp only [exec, execRdmaWrite, next.recvRoce (write_only_mem op)]
  simp [op, idle, whole, next.payload_small, denied, -Nat.reducePow]

theorem exec_rdmaWrite_refused (admitted : rdmaAddr u p.qp p.rkey p.va.toNat = some (a, src))
    (refused : serveWrite u src a p.payload true .host = .refused t) : exec (.rdmaWrite p) s = .next (roceError t p.qp p.psn synAccess) := by
  simp only [exec, execRdmaWrite, next.recvRoce (write_only_mem op)]
  simp [op, idle, whole, next.payload_small, admitted, refused, -Nat.reducePow]

/-- A WRITE is acknowledged once it has been performed. -/
theorem exec_rdmaWrite_done (admitted : rdmaAddr u p.qp p.rkey p.va.toNat = some (a, src))
    (done : serveWrite u src a p.payload true .host = .done t ()) : exec (.rdmaWrite p) s = .next
      (roceDone t { y with waKey := p.rkey, waVa := p.va + BitVec.ofNat 64 p.payload.length, waLeft := 0 } p.psn) := by
  simp only [exec, execRdmaWrite, next.recvRoce (write_only_mem op)]
  simp [op, idle, whole, next.payload_small, admitted, done, -Nat.reducePow]

end Write

section Read

variable {a src : Nat} {bs : List Byte} (next : RoceNext s p u y) (op : p.opcode = 0x0C) (len : p.len ≤ 2 ^ 31)
include next op len

/-- A READ that key or window rules out moves the queue pair to error. -/
theorem exec_rdmaRead_denied (denied : rdmaAddr u p.qp p.rkey p.va.toNat = none) :
    exec (.rdmaRead p) s = .next (roceError u p.qp p.psn synAccess) := by
  simp only [exec, execRdmaRead, if_neg (rdmaRead_not_response op), next.recvRoce (List.mem_singleton.2 op), if_neg (Nat.not_lt.2 len), denied]

theorem exec_rdmaRead_refused (admitted : rdmaAddr u p.qp p.rkey p.va.toNat = some (a, src)) (refused : serveRead u src a p.len true = .refused t) :
    exec (.rdmaRead p) s = .next (roceError t p.qp p.psn synAccess) := by
  simp only [exec, execRdmaRead, if_neg (rdmaRead_not_response op), next.recvRoce (List.mem_singleton.2 op), if_neg (Nat.not_lt.2 len), admitted, refused]

/-- A READ is answered with what it read, and takes as many PSNs as its responses have packets. -/
theorem exec_rdmaRead_done (admitted : rdmaAddr u p.qp p.rkey p.va.toNat = some (a, src)) (done : serveRead u src a p.len true = .done t bs) :
    let n := max 1 ((p.len + 4095) / 4096)
    exec (.rdmaRead p) s = .next (readResponses (t.setQp { y with rxPsn := (y.rxPsn + n) % 2 ^ 24 }) p.qp p.psn n true bs) := by
  simp only [exec, execRdmaRead, if_neg (rdmaRead_not_response op), next.recvRoce (List.mem_singleton.2 op), if_neg (Nat.not_lt.2 len), admitted, done]

end Read

end RoceNext

/-! ### Acknowledgements, other opcodes and CNPs (R326, R328) -/

theorem RoceArrives.admitted (arrives : RoceArrives s p) : ¬ ((!p.icrcOk) = true ∨ s.getObj (Obj.qpState p.qp) ≠ 1) := by
  simp [arrives.icrc, arrives.ready]

section Answers

variable (arrives : RoceArrives s p)
include arrives

section Acknowledge

variable (op : p.opcode = 0x11)
include op

theorem acknowledge_formed : ¬ (1024 ≤ p.qp ∨ p.opcode ≠ 0x11) := by
  simp [op, arrives.pair]

theorem exec_roceAcknowledge_ack (ack : (p.payload.headD 0).toNat < 0x20) :
    exec (.roceAcknowledge p) s = .next (ackSends (drawCnp s p) p.qp p.psn) := by
  simp only [exec, execRoceAcknowledge, if_neg (acknowledge_formed arrives op), if_neg arrives.admitted, if_pos ack]

/-- A NAK that asks for nothing again moves the queue pair to error (log 60). -/
theorem exec_roceAcknowledge_error (error : 0x61 ≤ (p.payload.headD 0).toNat) :
    exec (.roceAcknowledge p) s = .next ((drawCnp s p).putObj (Obj.qpState p.qp) 2) := by
  have notAck : ¬ (p.payload.headD 0).toNat < 0x20 := by omega
  have notAgain : ¬ ((p.payload.headD 0).toNat < 0x40 ∨ (p.payload.headD 0).toNat = 0x60) := by omega
  simp only [exec, execRoceAcknowledge, if_neg (acknowledge_formed arrives op), if_neg arrives.admitted, if_neg notAck, if_neg notAgain]

end Acknowledge

theorem exec_roceUnsupportedOpcode
    (op : p.opcode ∉ [0x00, 0x01, 0x02, 0x04, 0x06, 0x07, 0x08, 0x0A, 0x0C, 0x0D, 0x0E, 0x0F, 0x10, 0x11]) :
    exec (.roceUnsupportedOpcode p) s = .next (roceError (drawCnp s p) p.qp p.psn synInvalid) := by
  have formed : ¬ (1024 ≤ p.qp ∨
      [0x00, 0x01, 0x02, 0x04, 0x06, 0x07, 0x08, 0x0A, 0x0C, 0x0D, 0x0E, 0x0F, 0x10, 0x11].contains p.opcode = true) := by
    rw [not_or, List.contains_iff_mem]
    exact ⟨Nat.not_le.2 arrives.pair, op⟩
  simp only [exec, execRoceUnsupportedOpcode, if_neg formed, if_neg arrives.admitted]

end Answers

/-- The record of a queue pair that a CNP has halved the rate of (R326). -/
def slowed (s : State) (q : Nat) : Qp := { s.qp q with rate := max 1 (qpRate s (s.qp q) / 2), rateAt := s.now }

theorem exec_cnp (pair : q < 1024) : exec (.cnp q) s = .next ((s.setQp (slowed s q)).addObj Obj.ecnMarks 1) := if_neg (Nat.not_le.2 pair)

theorem qp_setQp_slowed (s : State) (q : Nat) : (s.setQp (slowed s q)).qp q = slowed s q := qp_setQp_same (qp_no s q)

/-- Settles O50: a request is taken by how far its PSN lies ahead of the one expected, whatever its opcode; the one that is next does what its opcode
says, with the syndromes of log 60. -/
theorem rocePackets : Obligations.RocePackets := by
  unfold Obligations.RocePackets
  intro s p pair fits icrc ready u x want y d active rows
  have arrives : RoceArrives s p := ⟨pair, fits, icrc, ready⟩
  refine ⟨fun enabled => ?_, exec_roceAcknowledge_ack arrives, exec_roceAcknowledge_error arrives, exec_roceUnsupportedOpcode arrives,
    _, exec_cnp pair, congrArg Qp.rate (qp_setQp_slowed s p.qp), rfl⟩
  have next (turn : d = 0) : RoceNext s p u y := ⟨arrives, enabled, rfl, rfl, turn⟩
  refine ⟨?behind, ?gap, ?inactive, ?send, ?write, ?read⟩
  case behind =>
    intro r row op behind
    obtain ⟨k, taken⟩ := exec_roceRows s r row op
    exact taken.trans (recvRoce_behind arrives enabled op behind)
  case gap =>
    intro r row op ahead near
    obtain ⟨k, taken⟩ := exec_roceRows s r row op
    exact taken.trans (recvRoce_gap arrives enabled op ahead near)
  case inactive => exact fun turn op closed inactive => (next turn).exec_roceSend_inactive op closed inactive
  case send =>
    exact fun turn op closed empty active => ⟨(next turn).exec_roceSend_full op closed empty active,
      fun room t put => (next turn).exec_roceSend_room op closed empty active room put⟩
  case write =>
    exact fun turn op idle whole => ⟨(next turn).exec_rdmaWrite_denied op idle whole, fun a src t admitted =>
      ⟨(next turn).exec_rdmaWrite_refused op idle whole admitted, (next turn).exec_rdmaWrite_done op idle whole admitted⟩⟩
  case read =>
    exact fun turn op len => ⟨(next turn).exec_rdmaRead_denied op len, fun a src t admitted =>
      ⟨(next turn).exec_rdmaRead_refused op len admitted, fun bs => (next turn).exec_rdmaRead_done op len admitted⟩⟩

end Sys2Proof.Machine
end

section
/-! SUPPORT. Proofs of the front of the queue and of reset (R459, R462; logs 4 and 74): the rows of the object table and the values they reset to. -/

namespace Sys2Proof.Machine

variable {r : ObjRow} {n ix sub : Nat}

/-- Settles O1: the front of the queue is what a step takes. -/
theorem frontCommandRuns : Obligations.FrontCommandRuns := by
  unfold Obligations.FrontCommandRuns
  exact fun s c rest => rfl

/-! ### Rows of the object table -/

/-- Whether some key is one of two rows'. -/
def overlaps (a b : ObjRow) : Bool :=
  decide (a.base < b.base + b.count) && decide (b.base < a.base + a.count) && decide (a.lo ≤ b.hi) && decide (b.lo ≤ a.hi)

/-- A row before which the table has none that overlaps it is the row of each of its keys. -/
theorem objRow?_of_first (first : objRows.find? (overlaps r) = some r) (low : r.base ≤ ix) (high : ix < r.base + r.count) (lo : r.lo ≤ sub)
    (hi : sub ≤ r.hi) (byte : sub < 256) : objRow? (ix * 256 + sub) = some r := by
  have index : (ix * 256 + sub) / 256 = ix := by omega
  have subindex : (ix * 256 + sub) % 256 = sub := by omega
  obtain ⟨-, before, after, table, clear⟩ := List.find?_eq_some_iff_append.1 first
  refine List.find?_eq_some_iff_append.2 ⟨?_, before, after, table, fun x mem => ?_⟩
  · simp [index, subindex, low, high, lo, hi]
  · have apart := clear x mem
    simp only [overlaps, Bool.not_eq_true', Bool.and_eq_false_iff, decide_eq_false_iff_not] at apart
    simp only [index, subindex, Bool.not_eq_true', Bool.and_eq_false_iff, decide_eq_false_iff_not]
    omega

theorem objReset_of_row {key : Nat} (row : objRow? key = some r) (value : r.reset = .num n) : objReset key = n := by
  simp only [objReset, row, value]

/-! ### Reset -/

/-- After reset no object is listed, so that each reads its reset value. -/
theorem getObj_reset (key : Nat) : State.reset.getObj key = objReset key := rfl

/-- What the objects of a row with a number in its reset column read after reset. -/
theorem getObj_reset_of_first (first : objRows.find? (overlaps r) = some r) (value : r.reset = .num n) (low : r.base ≤ ix)
    (high : ix < r.base + r.count) (lo : r.lo ≤ sub) (hi : sub ≤ r.hi) (byte : sub < 256) : State.reset.getObj (ix * 256 + sub) = n :=
  objReset_of_row (objRow?_of_first first low high lo hi byte) value

theorem getObj_reset_channel {c : Nat} (few : c < 256) : State.reset.getObj (Obj.chSlice c) = 0xFF ∧ State.reset.getObj (Obj.chEnable c) = 0 ∧
    State.reset.getObj (Obj.ringSlots c) = 64 ∧ State.reset.getObj (Obj.fetch c) = 0 := by
  have low : 0x6000 ≤ 0x6000 + c := Nat.le_add_right ..
  have high : 0x6000 + c < 0x6000 + 256 := Nat.add_lt_add_left few _
  refine ⟨?_, ?_, ?_, ?_⟩
  · exact getObj_reset_of_first (r := ⟨0x6000, 256, 0x01, 0x01, "CH_SLICE", 2, .ro, false, false, .num 255, false, 0, false⟩) (by decide) rfl low high
      (by decide) (by decide) (by decide)
  · exact getObj_reset_of_first (r := ⟨0x6000, 256, 0x02, 0x02, "CH_ENABLE", 1, .rw, false, false, .num 0, false, 0, false⟩) (by decide) rfl low high
      (by decide) (by decide) (by decide)
  · exact getObj_reset_of_first (r := ⟨0x6000, 256, 0x04, 0x04, "RING_SLOTS", 4, .rwq, false, false, .num 64, false, 0, false⟩) (by decide) rfl low high
      (by decide) (by decide) (by decide)
  · exact getObj_reset_of_first (r := ⟨0x6000, 256, 0x0A, 0x0A, "FETCH", 4, .ro, false, false, .num 0, false, 0, false⟩) (by decide) rfl low high
      (by decide) (by decide) (by decide)

theorem getObj_reset_sState (few : n < 64) : State.reset.getObj (Obj.sState n) = 0 :=
  getObj_reset_of_first (r := ⟨0x5040, 64, 0x01, 0x01, "S_STATE", 2, .ro, false, false, .num 0, false, 0, false⟩) (by decide) rfl (Nat.le_add_right ..)
    (Nat.add_lt_add_left few _) (by decide) (by decide) (by decide)

theorem getObj_reset_lsEnable (few : n < 8) : State.reset.getObj (Obj.lsEnable n) = 0 :=
  getObj_reset_of_first (r := ⟨0x7010, 8, 0x04, 0x04, "LS_ENABLE", 1, .mgr, false, true, .num 0, false, 0, false⟩) (by decide) rfl
    (Nat.le_add_right ..) (Nat.add_lt_add_left few _) (by decide) (by decide) (by decide)

theorem getObj_reset_port (few : n < 2) : State.reset.getObj (Obj.cpState n) = 0 ∧ State.reset.getObj (Obj.cpFenceLimit n) = 16 :=
  have low : 0xB000 ≤ 0xB000 + n := Nat.le_add_right ..
  have high : 0xB000 + n < 0xB000 + 2 := Nat.add_lt_add_left few _
  ⟨getObj_reset_of_first (r := ⟨0xB000, 2, 0x02, 0x02, "CP_STATE", 2, .ro, false, false, .num 0, false, 0, false⟩) (by decide) rfl low high
      (by decide) (by decide) (by decide),
    getObj_reset_of_first (r := ⟨0xB000, 2, 0x06, 0x06, "CP_FENCE_LIMIT", 3, .mgr, false, true, .num 16, false, 0, false⟩) (by decide) rfl low high
      (by decide) (by decide) (by decide)⟩

/-- Settles O59: an object that is not listed reads its reset value, of which the table gives the number; the rest is empty (logs 4, 74). -/
theorem resetState : Obligations.ResetState := by
  unfold Obligations.ResetState
  exact ⟨getObj_reset, by decide, by decide, by decide, by decide, by decide, by decide, by decide, by decide, by decide, by decide,
    fun c => getObj_reset_channel, fun n => getObj_reset_sState, fun k => getObj_reset_lsEnable, fun p => getObj_reset_port,
    rfl, fun a => rfl, rfl, rfl, rfl, rfl, rfl, rfl⟩

end Sys2Proof.Machine
end

section
/-! SUPPORT. Proofs of power and protection (R410 to R417, R421, R424 to R444, R460, R463; logs 79, 80): one equation for each event, and what the way
back to STANDBY and the loss of all power leave. -/

namespace Sys2Proof.Machine

variable {s : State} {n : Nat}

/-! ### The damper (R411 to R416) -/

theorem exec_damperWindow (m : DamperIn) (running : 3 ≤ s.getObj Obj.moduleState) :
    let u := gateWindow { noteWindow s m with power := countWindow (noteWindow s m) m } m
    exec (.damperWindow m) s = .next (if s.getObj Obj.moduleState = 3 then u else decideWindow u m) := by
  simp only [exec, execDamperWindow, decide_eq_true running, onlyIf_true]

/-- While a change of point is under way a window decides nothing. -/
theorem decideWindow_of_changing (m : DamperIn) (changing : s.power.change ≠ none) : decideWindow s m = s := by
  simp only [decideWindow, Option.isSome_iff_ne_none.2 changing, if_true]

theorem exec_pointChangeComplete {x : PointChange} (changing : s.power.change = some x) (moves : x.target ≠ s.getObj Obj.pointHeld)
    (steady : s.power.steadyBroken = false) : exec .pointChangeComplete s = .next
      { ((s.putObj Obj.pointHeld x.target).putObj Obj.coreClock (pointClock (classNow s) x.target)).addObj Obj.pointChanges 1 with
        power := { s.power with change := none, gate := if x.target = 3 ∨ x.byExcess = false then s.power.gate else 8 } } := by
  have moved : (s.getObj Obj.pointHeld != x.target) = true := bne_iff_ne.2 moves.symm
  simp only [exec, execPointChangeComplete, changing, withSome_some, moved, if_true, State.addObj_power, State.putObj_power, steady, Bool.false_and]

/-- The trim goes toward the measured power, by at most 5. -/
theorem trimStep_bounds (s : State) (v : Nat) : -5 ≤ trimStep s v ∧ trimStep s v ≤ 5 ∧
    (s.power.estSum = v * 1000 * s.power.estCount → trimStep s v = 0) ∧ (s.power.estSum < v * 1000 * s.power.estCount → 0 ≤ trimStep s v) ∧
    (v * 1000 * s.power.estCount < s.power.estSum → trimStep s v ≤ 0) := by
  simp only [trimStep]
  split_ifs <;> omega

theorem exec_damperTrim (v : Nat) (running : 3 ≤ s.getObj Obj.moduleState) : exec (.damperTrim v) s = .next
    { (s.putObj Obj.powerMeasured v).useFree 1 with power := { s.power with trims := s.power.trims + trimStep s v, estSum := 0, estCount := 0 } } := by
  simp only [exec, execDamperTrim, decide_eq_true running, onlyIf_true]

theorem exec_thermalTrip (on : 1 ≤ s.getObj Obj.moduleState) :
    exec .thermalTrip s = .next (toStandby ((s.addObj Obj.thermTrips 1).raiseHeld 8)) := by
  simp only [exec, execThermalTrip, decide_eq_true on, onlyIf_true]

/-! ### Droop (R417) -/

theorem exec_droopOnset {die row : Nat} (hd : die < 4) (hr : row < 12) (on : 2 ≤ s.getObj Obj.moduleState) : exec (.droopOnset die row) s = .next
    { s.addObj (Obj.droopEvents die) 1 with power := { s.power with stretched := addNew (die, row) s.power.stretched } } := by
  have within : ¬ (4 ≤ die ∨ 12 ≤ row) := by omega
  simp only [exec, execDroopOnset, if_neg within, decide_eq_true on, onlyIf_true]

theorem exec_droopRecovery {die row : Nat} (n : Nat) (stretched : (die, row) ∈ s.power.stretched) : exec (.droopRecovery die row n) s = .next
    { s.addObj (Obj.stretchedCycles die) n with power := { s.power with stretched := s.power.stretched.filter (· != (die, row)) } } := by
  simp only [exec, execDroopRecovery, List.contains_iff_mem.2 stretched, onlyIf_true]

/-! ### Energy and the sensors (R421, R443, R444) -/

/-- Causes that are over leave everything but the conditions held. -/
theorem foldl_endHeld_eq (ended : Nat) (l : List Nat) (s : State) :
    ∃ held, l.foldl (fun s i => if bitN ended i then s.endHeld i else s) s = { s with elec := { s.elec with held := held } } := by
  induction l generalizing s with
  | nil => exact ⟨s.elec.held, rfl⟩
  | cons i l ih =>
    rw [List.foldl_cons]
    split_ifs
    · exact ih (s.endHeld i)
    · exact ih s

theorem noteEnded_eq (s : State) (ended : Nat) : ∃ held, noteEnded s ended = { s with elec := { s.elec with held := held } } :=
  foldl_endHeld_eq ended _ s

theorem noteSensors_eq (s : State) (x : Telemetry) : ∃ held, noteSensors s x = { s with elec := { s.elec with held := held } } := noteEnded_eq s _

/-- Setting the bits of the conditions that hold leaves the conditions. -/
theorem alertsHeld_setHeld (s : State) : alertsHeld (setHeld s) = alertsHeld s := by
  have other (k : Nat) (ne : Obj.alertCause ≠ k) : (setHeld s).getObj k = s.getObj k := State.getObj_putObj_ne s _ ne
  simp only [alertsHeld, other Obj.senseOpen (by decide), other Obj.moduleState (by decide)]
  rfl

/-- What is measured over a millisecond, before the conditions of ALERT_CAUSE are looked at. -/
def measuredOver (s : State) (mV nJ : Nat) (x : Telemetry) : State :=
  let s1 := ((s.addObj Obj.energy (nJ / 1000000)).putObj Obj.inputVoltage mV).putObj Obj.inputCurrent x.inputmA
  let s2 := ((s1.putObj Obj.aux12Current x.aux12mA).putObj Obj.coolTachHz x.tachHz).putObj Obj.plateTemp (toI32 x.platemC)
  { s2.putObj Obj.spreaderTemp (toI32 x.spreadermC) with elec := { s.elec with energyNj := nJ % 1000000 } }

theorem exec_energyUpdate (sense terminal : Nat) (x : Telemetry) (on : 1 ≤ s.getObj Obj.moduleState) :
    let mV := if s.getObj Obj.senseOpen = 1 then terminal else sense
    exec (.energyUpdate sense terminal x) s = .next
      (setHeld (noteSensors (noteInput (measuredOver s mV (s.elec.energyNj + mV * x.inputmA) x) terminal) x)) := by
  simp only [exec, execEnergyUpdate, decide_eq_true on, onlyIf_true]
  rfl

/-- What the measurements leave: each in its object, the energy below a millijoule kept, and the rest as it was. -/
theorem measuredOver_reads (s : State) (mV nJ : Nat) (x : Telemetry) :
    let u := measuredOver s mV nJ x
    u.getObj Obj.energy = (s.addObj Obj.energy (nJ / 1000000)).getObj Obj.energy ∧ u.getObj Obj.inputVoltage = mV ∧ u.getObj Obj.inputCurrent = x.inputmA ∧
      u.getObj Obj.aux12Current = x.aux12mA ∧ u.getObj Obj.coolTachHz = x.tachHz ∧ u.getObj Obj.plateTemp = toI32 x.platemC ∧
      u.getObj Obj.spreaderTemp = toI32 x.spreadermC ∧ u.getObj Obj.alertCause = s.getObj Obj.alertCause := by
  intro u
  have last (k : Nat) : u.getObj k = ((((((((s.addObj Obj.energy (nJ / 1000000)).putObj Obj.inputVoltage mV).putObj Obj.inputCurrent x.inputmA).putObj
    Obj.aux12Current x.aux12mA).putObj Obj.coolTachHz x.tachHz).putObj Obj.plateTemp (toI32 x.platemC)).putObj Obj.spreaderTemp
    (toI32 x.spreadermC))).getObj k := rfl
  simp (disch := decide) only [last, State.getObj_putObj_ne, State.getObj_putObj_same, State.getObj_addObj_ne, and_self]

/-! ### Back to STANDBY, and off (R425, R459, R460) -/

theorem sget_filter_key {α : Type} {d : Nat → α} (f : Nat → Bool) (k : Nat) (l : List (Nat × α)) :
    sget d (l.filter fun p => f p.1) k = if f k then sget d l k else d k := by
  induction l with
  | nil => simp [sget]
  | cons p l ih =>
    obtain ⟨a, v⟩ := p
    by_cases here : k = a
    · subst here
      cases kept : f k <;> simp [sget, kept, ih]
    · cases kept : f a <;> simp [sget, kept, ih, here]

theorem getObj_loseState (keep : Nat → Bool) (s : State) (k : Nat) :
    (loseState keep s).getObj k = if isStored k || keep k then s.getObj k else objReset k :=
  sget_filter_key (fun k => isStored k || keep k) k s.od

/-- The module is in STANDBY or OFF after its way back. -/
theorem toStandby_moduleState (s : State) : (toStandby s).getObj Obj.moduleState ≤ 1 := by
  have back : ((loseState inDomain87 s.flushCounters).putObj Obj.moduleState 1).getObj Obj.moduleState = 1 := State.getObj_putObj_same ..
  simp only [toStandby]
  split_ifs with low
  · exact low
  · exact ((State.getObj_putObj_ne (k := Obj.startFail) _ _ (by decide)).trans back).le
  · exact back.le

@[simp] theorem toStandby_elec (s : State) : (toStandby s).elec = s.elec := by
  simp only [toStandby]
  split_ifs <;> rfl

/-- Of domain 87's objects those that the way back does not write are kept. -/
theorem toStandby_getObj {k : Nat} (kept : inDomain87 k = true) (state : Obj.moduleState ≠ k) (fail : Obj.startFail ≠ k) (s : State) :
    (toStandby s).getObj k = s.getObj k := by
  have lost : ((loseState inDomain87 s.flushCounters).putObj Obj.moduleState 1).getObj k = s.getObj k := by
    rw [State.getObj_putObj_ne _ _ state, getObj_loseState, kept, Bool.or_true, if_pos rfl, State.flushCounters_getObj]
  simp only [toStandby]
  split_ifs
  · rfl
  · exact (State.getObj_putObj_ne _ _ fail).trans lost
  · exact lost

theorem goOff_moduleState (s : State) : (goOff s).getObj Obj.moduleState = 0 := by
  unfold goOff
  exact State.getObj_putObj_same _ Obj.moduleState 0

theorem goOff_mem (s : State) : (goOff s).mem = {} :=
  foldl_leaves State.mem (fun (t : State) (p : Nat × Nat) => State.putObj_mem t p.1 p.2) _ _

end Sys2Proof.Machine
end

section
/-! SUPPORT. Proofs of the power input, the pins and the sideband (R424 to R444, R460, R463; log 80), and of the statement on power and protection. -/

namespace Sys2Proof.Machine

variable {s : State} {n : Nat}

section On

variable (on : 1 ≤ s.getObj Obj.moduleState)
include on

/-! ### The input (R425, R431) -/

theorem exec_inputBelow18v : ∃ t, exec .inputBelow18v s = .next t ∧ t.getObj Obj.moduleState = 0 ∧ t.mem = {} ∧ t.elec.switchClosed = false := by
  simp only [exec, execInputBelow18v, decide_eq_true on, onlyIf_true]
  exact ⟨_, rfl, goOff_moduleState s, goOff_mem s, rfl⟩

theorem exec_undervoltage : ∃ t, exec .undervoltage s = .next t ∧ t.getObj Obj.moduleState ≤ 1 ∧ t.elec.inputOn = false := by
  simp only [exec, execUndervoltage, decide_eq_true on, onlyIf_true]
  exact ⟨_, rfl, toStandby_moduleState _, congrArg Elec.inputOn (toStandby_elec _)⟩

theorem exec_overvoltage (normal : s.elec.overVolt = false) :
    ∃ t, exec .overvoltage s = .next t ∧ t.getObj Obj.moduleState ≤ 1 ∧ t.elec.switchClosed = false := by
  simp only [exec, execOvervoltage, normal, Bool.not_false, decide_eq_true on, Bool.and_self, onlyIf_true]
  exact ⟨_, rfl, toStandby_moduleState _, congrArg Elec.switchClosed (toStandby_elec _)⟩

theorem exec_inputOvercurrent (closed : s.elec.switchClosed = true) :
    ∃ t, exec .inputOvercurrent s = .next t ∧ t.getObj Obj.moduleState ≤ 1 ∧ t.elec.ocWait = true := by
  simp only [exec, execInputOvercurrent, closed, decide_eq_true on, Bool.and_self, onlyIf_true]
  exact ⟨_, rfl, toStandby_moduleState _, congrArg Elec.ocWait (toStandby_elec _)⟩

theorem exec_vsenseCheck_near {a b : Nat} (low : a ≤ b + 2000) (high : b ≤ a + 2000) :
    exec (.vsenseCheck a b) s = .next (((noteInput s b).putObj Obj.senseOpen 0).putObj Obj.inputVoltage a) := by
  simp only [exec, execVsenseCheck, decide_eq_true on, onlyIf_true, Nat.not_lt.2 low, Nat.not_lt.2 high, or_self, if_false]

theorem exec_vsenseCheck_apart {a b : Nat} (apart : b + 2000 < a ∨ a + 2000 < b) :
    exec (.vsenseCheck a b) s = .next ((((noteInput s b).putObj Obj.senseOpen 1).putObj Obj.inputVoltage b).setAlert 4) := by
  simp only [exec, execVsenseCheck, decide_eq_true on, onlyIf_true, if_pos apart]

/-! ### ENABLE, leak, cooler and plate (R431, R441, R443, R460) -/

theorem exec_enableChange_high (low : s.getObj Obj.enableIn ≠ 1) (ms : Nat) : exec (.enableChange true ms) s = .next
    { (s.putObj Obj.enableIn 1) with boot := { s.boot with mayStart := s.boot.mayStart || decide (10 ≤ ms) } } := by
  have changes : (true != (s.getObj Obj.enableIn == 1)) = true := by simpa using low
  simp only [exec, execEnableChange, decide_eq_true on, changes, Bool.and_self, onlyIf_true, if_true]

theorem exec_enableChange_low (high : s.getObj Obj.enableIn = 1) (ms : Nat) :
    ∃ t, exec (.enableChange false ms) s = .next t ∧ t.getObj Obj.moduleState ≤ 1 ∧ t.getObj Obj.enableIn = 0 := by
  have changes : (false != (s.getObj Obj.enableIn == 1)) = true := by simpa using high
  simp only [exec, execEnableChange, decide_eq_true on, changes, Bool.and_self, onlyIf_true]
  exact ⟨_, rfl, toStandby_moduleState _, (toStandby_getObj (by decide) (by decide) (by decide) _).trans (State.getObj_putObj_same s Obj.enableIn 0)⟩

theorem exec_leakDetect : exec .leakDetect s = .next
    (if s.getObj Obj.leakAction = 1 then toStandby ((s.addObj Obj.leakEvents 1).raiseHeld 6) else (s.addObj Obj.leakEvents 1).raiseHeld 6) := by
  have action : ((s.addObj Obj.leakEvents 1).raiseHeld 6).getObj Obj.leakAction = s.getObj Obj.leakAction :=
    (State.getObj_putObj_ne _ _ (by decide)).trans (State.getObj_addObj_ne 1 (by decide))
  simp only [exec, execLeakDetect, decide_eq_true on, onlyIf_true, action]

theorem exec_coolTachLow {hz : Nat} (slow : hz < s.getObj Obj.coolTachMin) :
    exec (.coolTachLow hz) s = .next ((s.putObj Obj.coolTachHz hz).raiseHeld 9) := by
  simp only [exec, execCoolTachLow, decide_eq_true (And.intro on slow), onlyIf_true]

theorem exec_plateOverLimit {mC : Nat} (hot : plateLimit (classNow s) < mC) :
    exec (.plateOverLimit mC) s = .next ((s.putObj Obj.plateTemp mC).raiseHeld 10) := by
  simp only [exec, execPlateOverLimit, decide_eq_true (And.intro on hot), onlyIf_true]

/-! ### Power-good, inrush and the management port's link (R427, R436, R463) -/

theorem exec_powerGood (present : s.elec.present = true) (closed : s.elec.switchClosed = true) (charged : s.elec.charged = true)
    (normal : s.elec.overVolt = false) (enabled : s.getObj Obj.enableIn = 1) : exec .powerGood s = .next
    { s with elec := { s.elec with inputOn := true }, boot := { s.boot with powerGood := true } } := by
  simp only [exec, execPowerGood, present, closed, charged, normal, enabled, Bool.not_false, beq_self_eq_true, decide_eq_true on, Bool.and_self,
    onlyIf_true]

theorem exec_inrushStart (present : s.elec.present = true) (due : s.elec.inrushDue = true) (open_ : s.elec.switchClosed = false)
    (normal : s.elec.overVolt = false) (idle : s.elec.ocWait = false) (powered : s.elec.inputOn = true) : exec .inrushStart s = .next
    { s with elec := { s.elec with switchClosed := true, inrushDue := false } } := by
  simp only [exec, execInrushStart, present, due, open_, normal, idle, powered, Bool.not_false, decide_eq_true on, Bool.and_self, onlyIf_true]

theorem exec_mgmtLinkUp (down : s.getObj Obj.mgmtLink = 0) : exec .mgmtLinkUp s = .next ((s.putObj Obj.mgmtLink 1).endHeld 5) := by
  simp only [exec, execMgmtLinkUp, down, decide_eq_true on, beq_self_eq_true, Bool.and_self, onlyIf_true]

theorem exec_mgmtLinkDown : exec .mgmtLinkDown s = .next
    ((if s.getObj Obj.mgmtLink = 1 then (s.putObj Obj.mgmtLink 0).addObj Obj.mgmtLinkLosses 1 else s).raiseHeld 5) := by
  simp only [exec, execMgmtLinkDown, decide_eq_true on, onlyIf_true]

end On

/-! ### AUX12, recovery and hot plug (R425, R427, R428) -/

theorem exec_aux12Short (on : aux12On s = true) : exec .aux12Short s = .next
    { ((s.addObj Obj.aux12Shorts 1).setAlert 3) with elec := { s.elec with aux12 := false } } := by
  simp only [exec, execAux12Short, on, onlyIf_true]

theorem exec_aux12Retry {mA : Nat} (off : s.elec.aux12 = false) (may : aux12May s = true) (few : mA ≤ 4000) : exec (.aux12Retry mA) s = .next
    { (s.putObj Obj.aux12Current mA) with elec := { s.elec with aux12 := true } } := by
  simp only [exec, execAux12Retry, off, may, Bool.not_false, Bool.and_self, onlyIf_true, if_neg (Nat.not_lt.2 few)]

theorem exec_overvoltageRecovery (high : s.elec.overVolt = true) : exec .overvoltageRecovery s = .next
    { s with elec := { s.elec with overVolt := false, inputOn := true, inrushDue := s.elec.present } } := by
  simp only [exec, execOvervoltageRecovery, high, onlyIf_true]

theorem exec_overcurrentReclose (waits : s.elec.ocWait = true) (present : s.elec.present = true) (normal : s.elec.overVolt = false) :
    exec .overcurrentReclose s = .next { s with elec := { s.elec with ocWait := false, switchClosed := true } } := by
  simp only [exec, execOvercurrentReclose, waits, present, normal, Bool.not_false, Bool.and_self, onlyIf_true]

theorem exec_presentNClose (absent : s.elec.present = false) :
    exec .presentNClose s = .next { s with elec := { s.elec with present := true, inrushDue := true } } := by
  simp only [exec, execPresentNClose, absent, Bool.not_false, onlyIf_true]

theorem exec_presentNOpen (present : s.elec.present = true) :
    ∃ t, exec .presentNOpen s = .next t ∧ t.getObj Obj.moduleState = 0 ∧ t.elec.present = false ∧ t.mem = {} := by
  simp only [exec, execPresentNOpen, present, onlyIf_true]
  exact ⟨_, rfl, goOff_moduleState _, rfl, goOff_mem _⟩

theorem exec_inrushComplete (closed : s.elec.switchClosed = true) (empty : s.elec.charged = false) :
    exec .inrushComplete s = .next { s with elec := { s.elec with charged := true } } := by
  simp only [exec, execInrushComplete, closed, empty, Bool.not_false, Bool.and_self, onlyIf_true]

/-- What an update of the energy leaves: each measurement in its object, ALERT_CAUSE with the conditions that hold, and memory as it was. -/
theorem exec_energyUpdate_reads (sense terminal : Nat) (x : Telemetry) (on : 1 ≤ s.getObj Obj.moduleState) :
    let mV := if s.getObj Obj.senseOpen = 1 then terminal else sense
    let nJ := s.elec.energyNj + mV * x.inputmA
    ∃ t, exec (.energyUpdate sense terminal x) s = .next t ∧ t.getObj Obj.energy = (s.addObj Obj.energy (nJ / 1000000)).getObj Obj.energy ∧
      t.elec.energyNj = nJ % 1000000 ∧ t.getObj Obj.inputVoltage = mV ∧ t.getObj Obj.inputCurrent = x.inputmA ∧
      t.getObj Obj.aux12Current = x.aux12mA ∧ t.getObj Obj.coolTachHz = x.tachHz ∧ t.getObj Obj.plateTemp = toI32 x.platemC ∧
      t.getObj Obj.spreaderTemp = toI32 x.spreadermC ∧ t.elec.inputOn = (s.elec.inputOn || decide (39500 ≤ terminal)) ∧
      t.getObj Obj.alertCause = s.getObj Obj.alertCause ||| alertsHeld t ∧ t.mem = s.mem := by
  intro mV nJ
  refine ⟨_, exec_energyUpdate sense terminal x on, ?_⟩
  obtain ⟨held, sensed⟩ := noteSensors_eq (noteInput (measuredOver s mV nJ x) terminal) x
  obtain ⟨energy, voltage, current, aux, tach, plate, spreader, cause⟩ := measuredOver_reads s mV nJ x
  rw [alertsHeld_setHeld, sensed]
  have left (k : Nat) (ne : Obj.alertCause ≠ k) : ∀ u : State, (setHeld u).getObj k = u.getObj k := fun u => State.getObj_putObj_ne u _ ne
  refine ⟨(left _ (by decide) _).trans energy, rfl, (left _ (by decide) _).trans voltage, (left _ (by decide) _).trans current,
    (left _ (by decide) _).trans aux, (left _ (by decide) _).trans tach, (left _ (by decide) _).trans plate, (left _ (by decide) _).trans spreader,
    rfl, (State.getObj_putObj_same ..).trans (congrArg (· ||| _) cause), rfl⟩

/-- Settles O57: each event by its own equation; a millisecond's measurements stand in their objects (logs 79, 80). -/
theorem powerAndProtection : Obligations.PowerAndProtection := by
  unfold Obligations.PowerAndProtection
  intro s st e
  refine ⟨fun m => exec_damperWindow m, fun m => decideWindow_of_changing m, fun x => exec_pointChangeComplete, ?trim, exec_energyUpdate_reads,
    exec_thermalTrip, fun die row => exec_droopOnset, fun die row n => exec_droopRecovery n, ?on, exec_overvoltageRecovery, exec_overcurrentReclose,
    exec_presentNClose, exec_presentNOpen, exec_inrushComplete⟩
  case trim =>
    intro v running
    obtain ⟨least, most, level, up, down⟩ := trimStep_bounds s v
    refine ⟨_, exec_damperTrim v running, State.getObj_putObj_same s _ v, rfl, rfl, ?_⟩
    change s.power.trims - 5 ≤ s.power.trims + trimStep s v ∧ s.power.trims + trimStep s v ≤ s.power.trims + 5 ∧
      (_ → s.power.trims + trimStep s v = s.power.trims) ∧ (_ → s.power.trims ≤ s.power.trims + trimStep s v) ∧
      (_ → s.power.trims + trimStep s v ≤ s.power.trims)
    exact ⟨by omega, by omega, fun h => by rw [level h, add_zero], fun h => by have := up h; omega, fun h => by have := down h; omega⟩
  case on =>
    intro on
    exact ⟨exec_inputBelow18v on, exec_undervoltage on, exec_overvoltage on, exec_inputOvercurrent on, exec_aux12Short,
      fun off may mA => exec_aux12Retry off may, fun a b => exec_vsenseCheck_near on, fun a b => exec_vsenseCheck_apart on,
      exec_enableChange_high on, exec_enableChange_low on,
      fun other => (exec_leakDetect on).trans (congrArg Host.Outcome.next (if_neg other)),
      fun act => (exec_leakDetect on).trans (congrArg Host.Outcome.next (if_pos act)), fun hz => exec_coolTachLow on,
      fun mC => exec_plateOverLimit on, exec_powerGood on, exec_mgmtLinkUp on,
      fun up => (exec_mgmtLinkDown on).trans (by rw [if_pos up]),
      fun down => (exec_mgmtLinkDown on).trans (by rw [if_neg (by omega)]), exec_inrushStart on⟩

end Sys2Proof.Machine
end

section
/-! SUPPORT. Proofs of writes of objects (R391, R396, R398, R400, R444, R453, R473, R483, R491): a write that is checked and performed or refused, and what
the objects with an effect of their own do. -/

namespace Sys2Proof.Machine

variable {s : State} {cr : Cred} {k ty v c n : Nat} {bs : List Byte}

/-! ### Checked writes (R491) -/

theorem writeRow_of_bad (bad : credOk s cr = false) : writeRow cr k ty bs s = .next (s.addObj Obj.odAuthFails 1) := by simp [writeRow, bad]

theorem writeRow_done (good : credOk s cr = true) (checked : checkWrite s cr k ty bs false = .ok v) (free : refusedFor s k v = none) :
    writeRow cr k ty bs s = .next (applyWrite k v bs s) := by
  simp [writeRow, writeEntry, good, checked, free]

theorem writeRow_refused (good : credOk s cr = true) (refused : checkWrite s cr k ty bs false = .error n) :
    writeRow cr k ty bs s = .next (refuseAccess s) := by
  simp [writeRow, writeEntry, good, refused]

theorem settleWrite_done {f : State → State} (good : credOk s cr = true) (checked : checkWrite s cr k ty bs false = .ok v) :
    settleWrite s cr k ty bs f = .next (f s) := by
  simp [settleWrite, good, checked]

/-- A write whose effect is a refusal is refused, whether or not the check lets it through. -/
theorem settleWrite_of_refusing {f : State → State} (good : credOk s cr = true) (refuses : f s = refuseAccess s) :
    settleWrite s cr k ty bs f = .next (refuseAccess s) := by
  simp only [settleWrite, good, Bool.not_true, Bool.false_eq_true, if_false, refuses]
  split <;> rfl

/-! ### What a write does, by the index of its object -/

/-- The objects that `applyWrite` names by their keys. -/
def namedKeys : List Nat :=
  [Obj.periodAt, Obj.alertCause, Obj.restart, Obj.sopRequest, Obj.sopResult, Obj.devAttestToken, Obj.devAttestNonce, Obj.spdmRequest, Obj.routeTable]

/-- An index at which no object is named by its key. -/
def plainIndex (ix : Nat) : Prop := ∀ k ∈ namedKeys, keyIx k ≠ ix

theorem keyIx_of {ix sub : Nat} (byte : sub < 256) : keyIx (ix * 256 + sub) = ix := by unfold keyIx; omega

theorem keySub_of {ix sub : Nat} (byte : sub < 256) : keySub (ix * 256 + sub) = sub := by unfold keySub; omega

theorem nth?_at {base count : Nat} (few : n < count) : nth? (base + n) base count = some n := by
  rw [nth?, if_pos ⟨Nat.le_add_right .., Nat.add_lt_add_left few _⟩, Nat.add_sub_cancel_left]

theorem nth?_below {ix base count : Nat} (below : ix < base) : nth? ix base count = none := if_neg fun h => absurd h.1 (Nat.not_le.2 below)

theorem nth?_above {ix base count : Nat} (above : base + count ≤ ix) : nth? ix base count = none := if_neg fun h => absurd h.2 (Nat.not_lt.2 above)

/-- What a write does at an index and a subindex: `applyWrite` past the objects that it names by their keys. -/
def indexedWrite (ix sub k v : Nat) (bs : List Byte) (s : State) : State :=
  match nth? ix 0x6000 256, nth? ix 0x3300 1024, nth? ix 0x7010 8 with
  | some c, _, _ => if sub = 9 then doorbellWrite c v s else if sub = 2 then chEnableWrite c v s else s.putObj k v
  | _, some q, _ => if sub = 0x0A then postSends s q v else if sub = 5 then qpEnableWrite q v s else s.putObj k v
  | _, _, some j => if sub = 4 then lsEnableWrite j v s else s.putObj k v
  | none, none, none => match nth? ix 0x4002 1, nth? ix 0x4110 12, nth? ix 0x5040 64, nth? ix 0x8040 64 with
    | some _, _, _, _ => linkFreezeWrite (sub - 1) v s
    | _, some st, _, _ => if sub ≤ 0x20 then chFreezeWrite st (sub - 1) v s else s.putObj k v
    | _, _, some n, _ => if sub = 0x19 then sopWrite false n bs s else if sub = 0x1B then migEnableWrite n v s else s.putObj k v
    | _, _, _, some n => rebank (s.putObj k v) n
    | none, none, none, none => match nth? ix 0x9003 1, nth? ix 0x9080 64, nth? ix 0xB000 2, nth? ix 0xB100 64 with
      | some _, _, _, _ => s.putObj (Obj.arbCounter (sub - 5)) v
      | _, some n, _, _ => attestWrite n bs s
      | _, _, some p, _ => if sub = 1 then cpEnableWrite p v s else s.putObj k v
      | _, _, _, some w => if sub = 1 then ssEnableWrite w v s else s.putObj k v
      | none, none, none, none => s.putObj k v

theorem applyWrite_of_plainIndex {ix sub : Nat} (plain : plainIndex ix) (byte : sub < 256) :
    applyWrite (ix * 256 + sub) v bs s = indexedWrite ix sub (ix * 256 + sub) v bs s := by
  have other (k : Nat) (named : k ∈ namedKeys) : ix * 256 + sub ≠ k := fun same => plain k named (same ▸ keyIx_of byte)
  simp only [namedKeys, List.forall_mem_cons, List.not_mem_nil, false_implies, implies_true, and_true] at other
  obtain ⟨h1, h2, h3, h4, h5, h6, h7, h8, h9⟩ := other
  simp only [applyWrite, h1, h2, h3, h4, h5, h6, h7, h8, h9, or_self, if_false, keyIx_of byte, keySub_of byte]
  rfl

theorem plainIndex_of {ix : Nat} (plain : ix ∉ namedKeys.map keyIx) : plainIndex ix := fun k mem same => plain (List.mem_map.2 ⟨k, mem, same⟩)

/-! ### Objects of a channel, a window, a queue pair, a lock set and a slice -/

theorem plainIndex_of_range {ix : Nat} (base count : Nat) (apart : ∀ k ∈ namedKeys.map keyIx, k < base ∨ base + count ≤ k) (low : base ≤ ix)
    (high : ix < base + count) : plainIndex ix :=
  plainIndex_of fun mem => (apart ix mem).elim (fun below => absurd low (Nat.not_le.2 below)) fun above => absurd high (Nat.not_lt.2 above)

end Sys2Proof.Machine
end

section
/-! SUPPORT. Proofs of the objects of channels, windows, queue pairs, lock sets, links and slices, and of the statement on writes of objects. -/

namespace Sys2Proof.Machine

variable {s : State} {cr : Cred} {k ty v n : Nat} {bs : List Byte}

/-! ### Objects of a channel, a window, a queue pair, a lock set, a link and a slice -/

theorem applyWrite_of_channel {c sub : Nat} (few : c < 256) (byte : sub < 256) : applyWrite ((0x6000 + c) * 256 + sub) v bs s =
    if sub = 9 then doorbellWrite c v s else if sub = 2 then chEnableWrite c v s else s.putObj ((0x6000 + c) * 256 + sub) v := by
  rw [applyWrite_of_plainIndex (plainIndex_of_range 0x6000 256 (by decide) (by omega) (by omega)) byte, indexedWrite, nth?_at few]

theorem applyWrite_of_window (few : n < 256) : applyWrite (Obj.wEnable n) v bs s = s.putObj (Obj.wEnable n) v := by
  rw [Obj.wEnable, applyWrite_of_plainIndex (plainIndex_of_range 0x6A00 256 (by decide) (by omega) (by omega)) (by decide), indexedWrite]
  simp (disch := omega) only [nth?_above, nth?_below]

theorem applyWrite_of_queuePair {sub : Nat} (few : n < 1024) (byte : sub < 256) : applyWrite ((0x3300 + n) * 256 + sub) v bs s =
    if sub = 0x0A then postSends s n v else if sub = 5 then qpEnableWrite n v s else s.putObj ((0x3300 + n) * 256 + sub) v := by
  rw [applyWrite_of_plainIndex (plainIndex_of_range 0x3300 1024 (by decide) (by omega) (by omega)) byte, indexedWrite, nth?_at few,
    nth?_below (by omega)]

theorem applyWrite_lsEnable (few : n < 8) : applyWrite (Obj.lsEnable n) v bs s = lsEnableWrite n v s := by
  rw [Obj.lsEnable, applyWrite_of_plainIndex (plainIndex_of_range 0x7010 8 (by decide) (by omega) (by omega)) (by decide), indexedWrite, nth?_at few,
    nth?_above (by omega), nth?_above (by omega)]
  rfl

theorem applyWrite_linkFreeze (few : n < 8) : applyWrite (Obj.linkFreeze n) v bs s = linkFreezeWrite n v s := by
  rw [Obj.linkFreeze, applyWrite_of_plainIndex (plainIndex_of_range 0x4002 1 (by decide) (by omega) (by omega)) (by omega), indexedWrite]
  exact congrArg (linkFreezeWrite · v s) (Nat.add_sub_cancel_left 1 n)

theorem applyWrite_chFreeze {st ch : Nat} (lowStack : st < 12) (channels : ch < 32) :
    applyWrite (Obj.chFreeze st ch) v bs s = chFreezeWrite st ch v s := by
  rw [Obj.chFreeze, applyWrite_of_plainIndex (plainIndex_of_range 0x4110 12 (by decide) (by omega) (by omega)) (by omega), indexedWrite, nth?_at lowStack,
    Nat.add_sub_cancel_left]
  simp (disch := omega) only [nth?_above, nth?_below, if_pos (show 0x01 + ch ≤ 0x20 by omega)]

theorem applyWrite_migEnable (few : n < 64) : applyWrite (Obj.migEnable n) v bs s = migEnableWrite n v s := by
  rw [Obj.migEnable, applyWrite_of_plainIndex (plainIndex_of_range 0x5040 64 (by decide) (by omega) (by omega)) (by decide), indexedWrite, nth?_at few]
  simp (disch := omega) only [nth?_above, nth?_below]
  rfl

/-- What a write of each of these objects does. -/
theorem applyWrite_chEnable_on (few : n < 256) : applyWrite (Obj.chEnable n) 1 bs s = s.putObj (Obj.chEnable n) 1 :=
  applyWrite_of_channel few (by decide)

theorem applyWrite_chEnable_off (few : n < 256) : applyWrite (Obj.chEnable n) 0 bs s = quiesceChannel (s.putObj (Obj.chEnable n) 0) n :=
  applyWrite_of_channel few (by decide)

theorem applyWrite_periodAt : applyWrite Obj.periodAt v bs s = periodAtWrite v s := by
  unfold applyWrite
  exact if_pos rfl

theorem applyWrite_restart : applyWrite Obj.restart v bs s = if v = 1 then restart s else s := by
  unfold applyWrite
  rw [if_neg (by decide), if_neg (by decide), if_pos rfl]

/-! ### Instructions that write an object -/

/-- The instructions that check a value for an object and perform the write as the object-dictionary protocol does. -/
def writesRow (cr : Cred) (i : Instr) (k ty : Nat) (bs : List Byte) : Prop :=
  (∃ ix sub, ix < 2 ^ 16 ∧ sub < 256 ∧ i = .objectWrite cr ix sub ty bs ∧ k = 256 * ix + sub) ∨
  (∃ c v, c < 256 ∧ ((i = .doorbell cr c v ∧ k = Obj.doorbell c ∧ ty = 4 ∧ bs = toLe 4 v) ∨
    (i = .complHead cr c v ∧ k = Obj.complHead c ∧ ty = 4 ∧ bs = toLe 4 v) ∨ (i = .chEnable cr c v ∧ k = Obj.chEnable c ∧ ty = 1 ∧ bs = toLe 1 v) ∨
    (i = .wEnable cr c v ∧ k = Obj.wEnable c ∧ ty = 1 ∧ bs = toLe 1 v))) ∨
  (∃ c v, c < 64 ∧ i = .migEnable cr c v ∧ k = Obj.migEnable c ∧ ty = 1 ∧ bs = toLe 1 v) ∨
  (∃ c v, c < 8 ∧ ((i = .lsEnable cr c v ∧ k = Obj.lsEnable c ∧ ty = 1 ∧ bs = toLe 1 v) ∨
    (i = .linkFreeze cr c v ∧ k = Obj.linkFreeze c ∧ ty = 1 ∧ bs = toLe 1 v))) ∨
  (∃ st ch v, st < 12 ∧ ch < 32 ∧ i = .chFreeze cr st ch v ∧ k = Obj.chFreeze st ch ∧ ty = 1 ∧ bs = toLe 1 v) ∨
  (∃ q v, q < 1024 ∧ ((i = .qpSqTail cr q v ∧ k = Obj.qpSqTail q ∧ ty = 4 ∧ bs = toLe 4 v) ∨
    (i = .qpRqHead cr q v ∧ k = Obj.qpRqHead q ∧ ty = 4 ∧ bs = toLe 4 v))) ∨
  (∃ v, (i = .periodAt cr v ∧ k = Obj.periodAt ∧ ty = 10 ∧ bs = toLe 8 v) ∨ (i = .restart cr v ∧ k = Obj.restart ∧ ty = 1 ∧ bs = toLe 1 v))

theorem exec_of_writesRow {i : Instr} (writes : writesRow cr i k ty bs) (s : State) : exec i s = writeRow cr k ty bs s := by
  rcases writes with ⟨ix, sub, high, byte, rfl, rfl⟩ | ⟨c, v, few, object⟩ | ⟨c, v, few, rfl, rfl, rfl, rfl⟩ | ⟨c, v, few, object⟩ |
    ⟨st, ch, v, lowStack, channels, rfl, rfl, rfl, rfl⟩ | ⟨q, v, few, object⟩ | ⟨v, object⟩
  case inl => exact if_neg (by omega)
  case inr.inl => obtain ⟨rfl, rfl, rfl, rfl⟩ | ⟨rfl, rfl, rfl, rfl⟩ | ⟨rfl, rfl, rfl, rfl⟩ | ⟨rfl, rfl, rfl, rfl⟩ := object <;> exact if_neg (by omega)
  case inr.inr.inl => exact if_neg (by omega)
  case inr.inr.inr.inl => obtain ⟨rfl, rfl, rfl, rfl⟩ | ⟨rfl, rfl, rfl, rfl⟩ := object <;> exact if_neg (by omega)
  case inr.inr.inr.inr.inl => exact if_neg (by omega)
  case inr.inr.inr.inr.inr.inl => obtain ⟨rfl, rfl, rfl, rfl⟩ | ⟨rfl, rfl, rfl, rfl⟩ := object <;> exact if_neg (by omega)
  case inr.inr.inr.inr.inr.inr => obtain ⟨rfl, rfl, rfl, rfl⟩ | ⟨rfl, rfl, rfl, rfl⟩ := object <;> rfl

/-! ### Attestation, counters, keys, images and the migration log -/

theorem exec_arbAdvance {c : Nat} (few : c < 4) (v : Nat) : exec (.arbAdvance cr c v) s =
    settleWrite s cr (Obj.arbAdvance c) 2 (toLe 1 v) fun s => if arbOk s c v then s.putObj (Obj.arbCounter c) v else refuseAccess s :=
  if_neg (Nat.not_le.2 few)

theorem exec_ssEnable {p win : Nat} (ports : p < 2) (windows : win < 32) (ok : ssEnableOk s (32 * p + win) = true) (v : Nat) :
    exec (.ssEnable cr p win v) s = settleWrite s cr (Obj.ssEnable (32 * p + win)) 1 (toLe 1 v) (ssEnableWrite (32 * p + win) v) := by
  simp only [exec, execSsEnable, ok, Bool.not_true, Bool.false_eq_true, false_and, and_false, if_false, if_neg (show ¬ (2 ≤ p ∨ 32 ≤ win) by omega)]

/-- Causes of ALERT_CAUSE that are over leave the right to write. -/
theorem credOk_noteEnded (s : State) (cr : Cred) (ended : Nat) : credOk (noteEnded s ended) cr = credOk s cr := by
  obtain ⟨held, same⟩ := noteEnded_eq s ended
  rw [same]
  rfl

theorem exec_mgrKey_done {mgmt : Bool} {key : List Byte} (good : credOk s cr = true) (whole : key.length = 97) (form : leNat key % 256 = 4)
    (may : mgrKeyOk s cr mgmt = true) : exec (.mgrKey cr mgmt key) s = .next (s.putObj Obj.mgrKey (leNat key)) := by
  simp [exec, execMgrKey, good, whole, form, may]

theorem exec_mgrKey_refused {mgmt : Bool} (good : credOk s cr = true) (mayNot : mgrKeyOk s cr mgmt = false) (key : List Byte) :
    exec (.mgrKey cr mgmt key) s = .next (refuseAccess s) := by
  simp [exec, execMgrKey, good, mayNot]

theorem exec_fwRecovery_done {img : FwImage} {t : State} (fits : recoverImage img s = some t) : exec (.fwRecovery img) s = .next t := by
  simp only [exec, execFwRecovery, fits]

theorem exec_fwRecovery_refused {img : FwImage} (unfit : recoverImage img s = none) : exec (.fwRecovery img) s = .next (refuseAccess s) := by
  simp only [exec, execFwRecovery, unfit]

theorem slice_harvest (s : State) (n : Nat) :
    (harvest s n).1.slice n = { s.slice n with migDirty := [], hseq := (s.slice n).hseq + 1 } := by
  have set := slice_setSlice s { s.slice n with migDirty := [], hseq := (s.slice n).hseq + 1 }
  rwa [slice_no s n] at set

/-- The row of MIG_LOG. -/
def migLogRow : ObjRow := ⟨0x5040, 64, 0x1C, 0x1C, "MIG_LOG", 12, .ro, false, false, .num 0, false, 0, true⟩

theorem objRow?_migLog (few : n < 64) : objRow? (Obj.migLog n) = some migLogRow :=
  objRow?_of_first (r := migLogRow) (by decide) (Nat.le_add_right ..) (Nat.add_lt_add_left few _) (by decide) (by decide) (by decide)

theorem mayRead_migLog (s : State) (k : Nat) : mayRead s .manager k migLogRow = true := by simp [mayRead, migLogRow]

theorem exec_migLogHarvest (few : n < 64) : ∃ r, exec (.migLogHarvest .manager n) s = .next ((harvest s n).1.send (.od r)) := by
  have good : credOk s .manager = true := rfl
  simp only [exec, execMigLogHarvest, if_neg (Nat.not_le.2 few), good, objRow?_migLog few, mayRead_migLog, Bool.not_true, Bool.false_eq_true, if_false]
  exact ⟨_, rfl⟩

/-- Settles O54: a write is its object's row checked and performed, and each object with an effect of its own has its equation. -/
theorem objectWrites : Obligations.ObjectWrites := by
  unfold Obligations.ObjectWrites
  refine ⟨?checked, ?effects, ?settled⟩
  case checked =>
    intro s cr i k ty bs writes
    rw [exec_of_writesRow writes s]
    exact ⟨writeRow_of_bad, fun good v => writeRow_done good, fun good r => writeRow_refused good⟩
  case effects =>
    intro s v bs
    exact ⟨fun c few => ⟨applyWrite_of_channel few (by decide), applyWrite_of_channel few (by decide), applyWrite_of_window few,
        applyWrite_chEnable_on few, applyWrite_chEnable_off few⟩,
      fun k few => ⟨applyWrite_lsEnable few, applyWrite_linkFreeze few⟩, fun st ch => applyWrite_chFreeze, fun n => applyWrite_migEnable,
      fun q few => ⟨applyWrite_of_queuePair few (by decide), applyWrite_of_queuePair few (by decide)⟩,
      applyWrite_periodAt, applyWrite_restart, applyWrite_restart⟩
  case settled =>
    intro s cr good sets
    refine ⟨fun n nonce few v checked => (if_neg (Nat.not_le.2 few)).trans (settleWrite_done good checked), fun nonce v => settleWrite_done good,
      fun req v => settleWrite_done good, ?advance, ?stays, fun p v few w checked => (if_neg (Nat.not_le.2 few)).trans (settleWrite_done good checked),
      ?window, ?alert, fun mgmt key => exec_mgrKey_done good, fun mgmt key mayNot => exec_mgrKey_refused good mayNot key, fun img t => exec_fwRecovery_done,
      fun img => exec_fwRecovery_refused, ?harvest⟩
    case advance =>
      intro c v few ok w checked
      rw [exec_arbAdvance few, settleWrite_done good checked, if_pos ok]
    case stays =>
      intro c v few notOk
      rw [exec_arbAdvance few]
      exact settleWrite_of_refusing good (if_neg (Bool.eq_false_iff.1 notOk))
    case window =>
      intro p win v ports windows on ok w checked
      subst on
      exact (exec_ssEnable ports windows ok 1).trans (settleWrite_done good checked)
    case alert =>
      exact fun v ended w checked => settleWrite_done ((credOk_noteEnded s cr ended).trans good) checked
    case harvest =>
      rintro n few rfl
      obtain ⟨r, harvested⟩ := exec_migLogHarvest (s := s) few
      exact ⟨_, harvested, congrArg Slice.migDirty (slice_harvest s n), congrArg Slice.hseq (slice_harvest s n)⟩

end Sys2Proof.Machine
end

section
/-! SUPPORT. Proofs of the management boot and of BOOT (R461, R462, R464 to R469; logs 64, 81): which copy of an image runs, how a start-up fails, and
what a start-up without a fault reads. -/

namespace Sys2Proof.Machine

variable {s t : State} {stage first c code : Nat} {sigs : BitVec 2}

/-! ### Copies of an image (R395, R461) -/

theorem copyOk_of_unsigned (unsigned : sigs.getLsbD c = false) : copyOk s stage sigs c = false := by simp [copyOk, unsigned]

theorem copyOk_of_older (counts : s.getObj (Obj.arbCounter (stage - 2)) ≠ 0)
    (older : copyVersion s stage c < s.getObj (Obj.arbCounter (stage - 2))) : copyOk s stage sigs c = false := by
  simp [copyOk, counts, Nat.not_le.2 older]

theorem copyOf_of_ok (ok : copyOk s stage sigs first = true) : copyOf s stage sigs first = some first := if_pos ok

theorem copyOf_of_none_ok (letter : first ≤ 1) (a : copyOk s stage sigs 0 = false) (b : copyOk s stage sigs 1 = false) :
    copyOf s stage sigs first = none := by
  obtain rfl | rfl : first = 0 ∨ first = 1 := by omega
  · simp [copyOf, a, b]
  · simp [copyOf, a, b]

/-- Which copy runs hangs on the stage's counter and on the images that were written, and on nothing else of the state. -/
theorem copyOf_congr (counter : t.getObj (Obj.arbCounter (stage - 2)) = s.getObj (Obj.arbCounter (stage - 2))) (images : t.boot.images = s.boot.images) :
    copyOf t stage sigs first = copyOf s stage sigs first := by
  have same (copy : Nat) : copyOk t stage sigs copy = copyOk s stage sigs copy := by
    unfold copyOk copyVersion
    rw [counter, images]
  simp only [copyOf, same]

/-! ### Versions and letters that are noted -/

/-- Noting what runs as a stage writes one object. -/
theorem noteVersion_eq (s : State) (stage : Nat) : ∃ od, noteVersion s stage = { s with od := od } := by
  simp only [noteVersion]
  split <;> exact ⟨_, rfl⟩

theorem noteCopy_eq (s : State) (stage : Nat) (copy : Option Nat) : ∃ od, noteCopy s stage copy = { s with od := od } := by
  obtain ⟨od, noted⟩ := noteVersion_eq (s.putObj Obj.bootCopies _) stage
  exact ⟨od, noted⟩

theorem getObj_noteVersion_ne {k : Nat} (other : Obj.securityVersion (stage - 2) ≠ k) : (noteVersion s stage).getObj k = s.getObj k := by
  simp only [noteVersion]
  split
  · exact sget_filter_ne s.od other
  · exact State.getObj_putObj_ne _ _ other
  · exact State.getObj_putObj_ne _ _ other

theorem getObj_noteCopy_ne {k : Nat} (copy : Option Nat) (letters : Obj.bootCopies ≠ k) (version : Obj.securityVersion (stage - 2) ≠ k) :
    (noteCopy s stage copy).getObj k = s.getObj k :=
  (getObj_noteVersion_ne version).trans (State.getObj_putObj_ne _ _ letters)

theorem noteCopy_boot (s : State) (stage : Nat) (copy : Option Nat) : (noteCopy s stage copy).boot = s.boot := by
  obtain ⟨od, noted⟩ := noteCopy_eq s stage copy
  rw [noted]

/-! ### A start-up that fails (R469, R472) -/

theorem startFails_moduleState (s : State) (code stage : Nat) : (startFails s code stage).getObj Obj.moduleState = 1 := by
  unfold startFails
  exact State.getObj_putObj_same _ Obj.moduleState 1

theorem startFails_startFail (s : State) (code stage : Nat) : (startFails s code stage).getObj Obj.startFail = code := by
  unfold startFails
  exact (State.getObj_putObj_ne (k := Obj.moduleState) _ 1 (by decide)).trans (State.getObj_putObj_same _ Obj.startFail code)

/-! ### The management boot (Table 17.2) -/

/-- The state at step M1. -/
def atM1 (b : MgmtBoot) (s : State) : State :=
  let off := s.getObj Obj.moduleState == 0
  { (s.putObj Obj.moduleState 1) with
    boot := { s.boot with ran := true, m3 := false, mayStart := s.boot.mayStart || off },
    elec := { s.elec with inputOn := if off then b.inputOk else s.elec.inputOn } }

/-- Steps M1 to M3. -/
def mgmtStages (b : MgmtBoot) (u : State) : State :=
  if !b.otpOk then startFails u 5 0
  else match copyOf u 2 b.stage2 0 with
    | none => startFails u 1 2
    | some c => match copyOf (noteCopy u 2 (some c)) 3 b.stage3 c with
      | none => startFails (noteCopy u 2 (some c)) 2 3
      | some d =>
        let v := noteCopy (noteCopy u 2 (some c)) 3 (some d)
        newEpoch { v with boot := { v.boot with m3 := true, epoch := true } }

theorem exec_domain87Up (b : MgmtBoot) (toCome : s.getObj Obj.moduleState = 0 ∨ s.boot.ran = false) :
    exec (.domain87Up b) s = .next (mgmtStages b (atM1 b s)) := by
  have due : (s.getObj Obj.moduleState == 0 || !s.boot.ran) = true := by simpa using toCome
  simp only [exec, execDomain87Up, due, onlyIf_true]
  rfl

theorem atM1_moduleState (b : MgmtBoot) (s : State) : (atM1 b s).getObj Obj.moduleState = 1 := State.getObj_putObj_same s Obj.moduleState 1

theorem copyOf_atM1 (b : MgmtBoot) (s : State) : copyOf (atM1 b s) stage sigs first = copyOf s stage sigs first :=
  copyOf_congr (State.getObj_putObj_ne (k := Obj.moduleState) s 1 (by unfold Obj.moduleState Obj.arbCounter; omega)) rfl

theorem copyOf_noteCopy (s : State) (copy : Option Nat) : copyOf (noteCopy s 2 copy) 3 sigs first = copyOf s 3 sigs first :=
  copyOf_congr (getObj_noteCopy_ne copy (by decide) (by decide)) (congrArg Boot.images (noteCopy_boot s 2 copy))

section Stages

variable {b : MgmtBoot} (u : State)

theorem mgmtStages_of_otp (bad : b.otpOk = false) : mgmtStages b u = startFails u 5 0 := by simp [mgmtStages, bad]

theorem mgmtStages_of_no2 (otp : b.otpOk = true) (none2 : copyOf u 2 b.stage2 0 = none) : mgmtStages b u = startFails u 1 2 := by
  simp [mgmtStages, otp, none2]

theorem mgmtStages_of_no3 (otp : b.otpOk = true) (some2 : copyOf u 2 b.stage2 0 = some c) (none3 : copyOf u 3 b.stage3 c = none) :
    mgmtStages b u = startFails (noteCopy u 2 (some c)) 2 3 := by
  simp [mgmtStages, otp, some2, copyOf_noteCopy, none3]

theorem mgmtStages_runs {d : Nat} (otp : b.otpOk = true) (some2 : copyOf u 2 b.stage2 0 = some c) (some3 : copyOf u 3 b.stage3 c = some d) :
    (mgmtStages b u).getObj Obj.moduleState = u.getObj Obj.moduleState ∧ (mgmtStages b u).boot.m3 = true ∧ (mgmtStages b u).boot.epoch = true := by
  simp only [mgmtStages, otp, Bool.not_true, Bool.false_eq_true, if_false, some2, copyOf_noteCopy, some3]
  refine ⟨?_, rfl, rfl⟩
  calc (newEpoch _).getObj Obj.moduleState
      = (noteCopy (noteCopy u 2 (some c)) 3 (some d)).getObj Obj.moduleState := State.getObj_addObj_ne (k := Obj.bootEpoch) 1 (by decide)
    _ = (noteCopy u 2 (some c)).getObj Obj.moduleState := getObj_noteCopy_ne _ (by decide) (by decide)
    _ = u.getObj Obj.moduleState := getObj_noteCopy_ne _ (by decide) (by decide)

/-- Whatever the management boot finds, the module is in STANDBY after it. -/
theorem mgmtStages_moduleState (b : MgmtBoot) (standby : u.getObj Obj.moduleState = 1) : (mgmtStages b u).getObj Obj.moduleState = 1 := by
  cases otp : b.otpOk with
  | false => rw [mgmtStages_of_otp u otp, startFails_moduleState]
  | true =>
    cases copy2 : copyOf u 2 b.stage2 0 with
    | none => rw [mgmtStages_of_no2 u otp copy2, startFails_moduleState]
    | some c =>
      cases copy3 : copyOf u 3 b.stage3 c with
      | none => rw [mgmtStages_of_no3 u otp copy2 copy3, startFails_moduleState]
      | some d => exact (mgmtStages_runs u otp copy2 copy3).1.trans standby

end Stages

/-! ### BOOT (Table 17.3) -/

theorem exec_boot {b : BootIn} (standby : s.getObj Obj.moduleState = 1) (good : s.boot.powerGood = true) (runs : s.boot.m3 = true)
    (may : s.boot.mayStart = true) (sites : ∀ x ∈ b.badSites, x.1 < 4 ∧ x.2.1 < 12 ∧ x.2.2 < 14) :
    exec (.boot b) s = .next (runBoot b (beginBoot s)) := by
  have wellFormed : (b.badSites.any fun x => decide (4 ≤ x.1 ∨ 12 ≤ x.2.1 ∨ 14 ≤ x.2.2)) = false := by
    refine List.any_eq_false.2 fun x mem => ?_
    have := sites x mem
    rw [decide_eq_true_eq]
    omega
  simp only [exec, execBoot, wellFormed, Bool.false_eq_true, if_false, standby, good, runs, may, beq_self_eq_true, Bool.and_self, onlyIf_true]

theorem runBoot_of_rails {b : BootIn} (bad : b.railsOk = false) : runBoot b s = startFails s 4 0 := by simp [runBoot, bad]

/-- What a start-up leaves that writes only objects: memory and launches. -/
def memoryAndLaunches (s : State) : Mem × List Launch := (s.mem, s.launches)

theorem of_memoryAndLaunches {mem : Mem} {launches : List Launch} (left : memoryAndLaunches s = (mem, launches)) :
    s.mem = mem ∧ s.launches = launches := ⟨congrArg Prod.fst left, congrArg Prod.snd left⟩

theorem memoryAndLaunches_beginBoot (s : State) : memoryAndLaunches (beginBoot s) = ({}, []) := by
  cases epoch : s.boot.epoch <;> simp [memoryAndLaunches, beginBoot, loseState, newEpoch, setHeld, epoch]

theorem memoryAndLaunches_putObj (s : State) (k v : Nat) : memoryAndLaunches (s.putObj k v) = memoryAndLaunches s := rfl

theorem memoryAndLaunches_noteVersion (s : State) (stage : Nat) : memoryAndLaunches (noteVersion s stage) = memoryAndLaunches s := by
  obtain ⟨od, noted⟩ := noteVersion_eq s stage
  rw [noted]
  rfl

theorem memoryAndLaunches_noteCopy (s : State) (stage : Nat) (copy : Option Nat) : memoryAndLaunches (noteCopy s stage copy) = memoryAndLaunches s := by
  obtain ⟨od, noted⟩ := noteCopy_eq s stage copy
  rw [noted]
  rfl

/-- The spare of a row takes the column of its dead site. -/
def spareTaken (s : State) (r : Nat) : State :=
  if goodSites s r < 14 ∧ s.getObj (spareKey r) ≠ 0xFF then s.putObj (spareKey r) 0xFF else s

theorem testSites_nil (s : State) : testSites s [] =
    (List.range 48).foldl spareTaken ((List.range 48).foldl (fun s r => s.addObj (Obj.selftestRuns (r / 12)) (goodSites s r)) s) := by
  simp only [testSites, List.foldl_nil]
  rfl

theorem spareTaken_eq (s : State) (r : Nat) : spareTaken s r = s.putObj (spareKey r) 0xFF ∨ spareTaken s r = s := by
  unfold spareTaken
  split_ifs
  · exact Or.inl rfl
  · exact Or.inr rfl

theorem memoryAndLaunches_spareTaken (s : State) (r : Nat) : memoryAndLaunches (spareTaken s r) = memoryAndLaunches s := by
  obtain taken | same := spareTaken_eq s r
  · rw [taken, memoryAndLaunches_putObj]
  · rw [same]

theorem memoryAndLaunches_testSites (s : State) : memoryAndLaunches (testSites s []) = memoryAndLaunches s := by
  rw [testSites_nil, foldl_leaves memoryAndLaunches memoryAndLaunches_spareTaken]
  exact foldl_leaves memoryAndLaunches (fun t r => memoryAndLaunches_putObj t _ _) (List.range 48) s

theorem memoryAndLaunches_enterTrain (s : State) : memoryAndLaunches (enterTrain s) = memoryAndLaunches s := by
  have ports : memoryAndLaunches (enterTrain s) = memoryAndLaunches ((s.putObj Obj.moduleState 3).putObj Obj.discState 1) := by
    simp only [enterTrain]
    refine foldl_leaves memoryAndLaunches (fun t p => ?_) _ _
    split_ifs
    · exact memoryAndLaunches_putObj t (Obj.cpState p) 1
    · rfl
  rw [ports, memoryAndLaunches_putObj, memoryAndLaunches_putObj]

theorem getObj_enterTrain_ne (s : State) {k : Nat} (ports : ∀ p, Obj.cpState p ≠ k) :
    (enterTrain s).getObj k = ((s.putObj Obj.moduleState 3).putObj Obj.discState 1).getObj k := by
  unfold enterTrain
  refine foldl_leaves (State.getObj · k) (fun t p => ?_) _ _
  split_ifs
  · exact State.getObj_putObj_ne _ _ (ports p)
  · rfl

theorem enterTrain_moduleState (s : State) : (enterTrain s).getObj Obj.moduleState = 3 :=
  (getObj_enterTrain_ne s fun p => by unfold Obj.cpState Obj.moduleState; omega).trans
    ((State.getObj_putObj_ne _ _ (by decide)).trans (State.getObj_putObj_same s Obj.moduleState 3))

theorem enterTrain_discState (s : State) : (enterTrain s).getObj Obj.discState = 1 :=
  (getObj_enterTrain_ne s fun p => by unfold Obj.cpState Obj.discState; omega).trans (State.getObj_putObj_same _ Obj.discState 1)

/-! #### Sites that are dead -/

/-- Objects of the start-up are not those of the dead sites. -/
theorem ne_deadKey {k r : Nat} (few : r < 48) (apart : k < 0x8010 * 256 ∨ 0x8014 * 256 ≤ k) : k ≠ deadKey r := by
  unfold deadKey Obj.deadSites
  omega

theorem spareKey_ne_deadKey (q r : Nat) : spareKey q ≠ deadKey r := by
  unfold spareKey deadKey Obj.spareSite Obj.deadSites
  omega

theorem getObj_deadKey_testSites (s : State) {r : Nat} (few : r < 48) : (testSites s []).getObj (deadKey r) = s.getObj (deadKey r) := by
  rw [testSites_nil]
  refine (foldl_leaves (State.getObj · (deadKey r)) (fun t q => ?_) _ _).trans (foldl_leaves (State.getObj · (deadKey r)) (fun t q => ?_) _ s)
  · obtain taken | same := spareTaken_eq t q
    · rw [taken]
      exact State.getObj_putObj_ne _ _ (spareKey_ne_deadKey q r)
    · rw [same]
  · exact State.getObj_addObj_ne _ (ne_deadKey few (Or.inr (by unfold Obj.selftestRuns; omega)))

/-- The state before the sites are tested, where images and OTP are good. -/
def beforeSites (b : BootIn) (s : State) : State :=
  let u := noteCopy (noteCopy (noteVersion (noteVersion s 2) 3) 4 (copyOf s 4 b.stage4 (letter s))) 5 (copyOf s 5 b.stage5 (letter s))
  ((u.putObj Obj.pointHeld 3).putObj Obj.coreClock (pointClock (classNow u) 3)).putObj Obj.linksDead b.deadLinks.toNat

theorem memoryAndLaunches_beforeSites (b : BootIn) (s : State) : memoryAndLaunches (beforeSites b s) = memoryAndLaunches s :=
  calc memoryAndLaunches (beforeSites b s)
      = memoryAndLaunches (noteCopy (noteCopy (noteVersion (noteVersion s 2) 3) 4 _) 5 _) := rfl
    _ = memoryAndLaunches (noteCopy (noteVersion (noteVersion s 2) 3) 4 _) := memoryAndLaunches_noteCopy _ 5 _
    _ = memoryAndLaunches (noteVersion (noteVersion s 2) 3) := memoryAndLaunches_noteCopy _ 4 _
    _ = memoryAndLaunches (noteVersion s 2) := memoryAndLaunches_noteVersion _ 3
    _ = memoryAndLaunches s := memoryAndLaunches_noteVersion s 2

theorem getObj_deadKey_beforeSites (b : BootIn) (s : State) {r : Nat} (few : r < 48) : (beforeSites b s).getObj (deadKey r) = s.getObj (deadKey r) := by
  have apart {k : Nat} (h : k < 0x8010 * 256 ∨ 0x8014 * 256 ≤ k) : k ≠ deadKey r := ne_deadKey few h
  unfold beforeSites
  rw [State.getObj_putObj_ne _ _ (apart (by decide)), State.getObj_putObj_ne _ _ (apart (by decide)), State.getObj_putObj_ne _ _ (apart (by decide)),
    getObj_noteCopy_ne _ (apart (by decide)) (apart (by decide)), getObj_noteCopy_ne _ (apart (by decide)) (apart (by decide)),
    getObj_noteVersion_ne (apart (by decide)), getObj_noteVersion_ne (apart (by decide))]

theorem runBoot_done {b : BootIn} (rails : b.railsOk = true) (some4 : copyOf s 4 b.stage4 (letter s) ≠ none) (some5 : copyOf s 5 b.stage5 (letter s) ≠ none)
    (otp : b.otpOk = true) (llm : b.llmOk = true) (links : b.deadLinks = 0) (sites : b.badSites = []) (enough : ∀ r, r < 48 → 13 ≤ goodSites s r) :
    runBoot b s = enterTrain (testSites (beforeSites b s) []) := by
  have is4 : (copyOf s 4 b.stage4 (letter s)).isNone = false := Option.isNone_eq_false_iff.2 (Option.isSome_iff_ne_none.2 some4)
  have is5 : (copyOf s 5 b.stage5 (letter s)).isNone = false := Option.isNone_eq_false_iff.2 (Option.isSome_iff_ne_none.2 some5)
  have alive : ¬ 2 ≤ popN 8 b.deadLinks.toNat := by rw [links]; decide
  have rows : ((List.range 48).any fun r => decide (goodSites (testSites (beforeSites b s) []) r < 13)) = false := by
    refine List.any_eq_false.2 fun r mem => ?_
    have few : r < 48 := List.mem_range.1 mem
    rw [decide_eq_true_eq, Nat.not_lt, goodSites, getObj_deadKey_testSites _ few, getObj_deadKey_beforeSites b s few]
    exact enough r few
  unfold beforeSites at rows ⊢
  simp only [runBoot, rails, is4, is5, otp, llm, sites, alive, rows, Bool.not_true, Bool.false_eq_true, if_false]

end Sys2Proof.Machine
end

section
/-! SUPPORT. Proofs of READY_LOCAL and of zeroing (R467, R468, R470 to R472), and of the statement on start-up. -/

namespace Sys2Proof.Machine

variable {s : State}

/-! ### TRAIN to READY_LOCAL (Table 17.4) -/

/-- The state when every link has trained or failed. -/
def trained (r : TrainIn) (s : State) : State :=
  let u := freezeOut (r.badChannels.foldl trainFails s)
  r.ports.foldl portTrained (bringCxl ((u.putObj Obj.ddrPresent (if r.ddrRate = 0 then 0 else 1)).putObj Obj.ddrRate r.ddrRate) r.cxl)

theorem exec_readyLocal {r : TrainIn} (train : s.getObj Obj.moduleState = 3) (channels : ∀ c ∈ r.badChannels, c.1 < 12 ∧ c.2 < 32)
    (rate : r.ddrRate ∈ [0, 6400, 8800]) (cxl : ∀ p ∈ r.cxl, p.port < 8) (ports : ∀ q ∈ r.ports, q < 64) :
    exec (.readyLocal r) s = .next (if (trained r s).getObj Obj.moduleState = 6 then trained r s else enterReady (trained r s)) := by
  have channelsOk : (r.badChannels.any fun c => decide (12 ≤ c.1 ∨ 32 ≤ c.2)) = false := by
    refine List.any_eq_false.2 fun c mem => ?_
    have := channels c mem
    rw [decide_eq_true_eq]
    omega
  have cxlOk : (r.cxl.any fun p => decide (8 ≤ p.port)) = false :=
    List.any_eq_false.2 fun p mem => by rw [decide_eq_true_eq]; exact Nat.not_le.2 (cxl p mem)
  have portsOk : (r.ports.any fun q => decide (64 ≤ q)) = false :=
    List.any_eq_false.2 fun q mem => by rw [decide_eq_true_eq]; exact Nat.not_le.2 (ports q mem)
  have rateOk : [0, 6400, 8800].contains r.ddrRate = true := List.contains_iff_mem.2 rate
  simp only [exec, execReadyLocal, channelsOk, cxlOk, portsOk, rateOk, Bool.not_true, Bool.or_self, Bool.false_eq_true, if_false, train, beq_self_eq_true,
    onlyIf_true]
  rfl

/-- What the training of no channel, no CXL port and no logical port leaves: the network, the objects in force and the bytes of memory. -/
def besidesTraining (s : State) : Net × List (Nat × Nat) × List Host.Cell := (s.net, s.inForce, s.mem.bytes)

theorem besidesTraining_putObj (s : State) (k v : Nat) : besidesTraining (s.putObj k v) = besidesTraining s := rfl

/-- The freeze bit of a channel that is mapped out is set. -/
def freezeMapped (s : State) (c : Nat × Nat) : State := if s.getObj (Obj.chState c.1 c.2) = 2 then s.putObj (Obj.chFreeze c.1 c.2) 1 else s

theorem freezeMapped_eq (s : State) (c : Nat × Nat) : freezeMapped s c = s.putObj (Obj.chFreeze c.1 c.2) 1 ∨ freezeMapped s c = s := by
  unfold freezeMapped
  split_ifs
  · exact Or.inl rfl
  · exact Or.inr rfl

theorem freezeOut_eq (s : State) : ∃ dies channels, freezeOut s = List.foldl writeLookup (List.foldl freezeMapped s channels) dies := ⟨_, _, rfl⟩

/-- A lookup that is written leaves the rest of the state. -/
theorem writeLookup_eq (s : State) (d : Nat) : ∃ l, writeLookup s d = { s with mem := { s.mem with lookup := l } } := by
  unfold writeLookup
  exact ⟨_, rfl⟩

theorem besidesTraining_writeLookup (s : State) (d : Nat) : besidesTraining (writeLookup s d) = besidesTraining s := by
  obtain ⟨l, written⟩ := writeLookup_eq s d
  rw [written]
  rfl

theorem getObj_writeLookup (s : State) (d k : Nat) : (writeLookup s d).getObj k = s.getObj k := by
  obtain ⟨l, written⟩ := writeLookup_eq s d
  rw [written]
  rfl

theorem besidesTraining_freezeOut (s : State) : besidesTraining (freezeOut s) = besidesTraining s := by
  obtain ⟨dies, channels, frozen⟩ := freezeOut_eq s
  rw [frozen, foldl_leaves besidesTraining besidesTraining_writeLookup]
  refine foldl_leaves besidesTraining (fun t c => ?_) channels s
  obtain set | same := freezeMapped_eq t c
  · rw [set, besidesTraining_putObj]
  · rw [same]

theorem getObj_freezeOut_ne {k : Nat} (apart : ∀ st c, Obj.chFreeze st c ≠ k) : (freezeOut s).getObj k = s.getObj k := by
  obtain ⟨dies, channels, frozen⟩ := freezeOut_eq s
  rw [frozen, foldl_leaves (State.getObj · k) (fun t d => getObj_writeLookup t d k)]
  refine foldl_leaves (State.getObj · k) (fun t c => ?_) channels s
  obtain set | same := freezeMapped_eq t c
  · rw [set, State.getObj_putObj_ne _ _ (apart _ _)]
  · rw [same]

/-- With no CXL port up every region that is wanted is empty (R257). -/
theorem size_of_cxlWanted_nil {x : Nat × Nat × List Nat} (wanted : x ∈ cxlWanted s []) : x.2.1 = 0 := by
  have none_up (p : Nat) : cxlCap [] p = 0 := rfl
  have least (xs : List Nat) : xs.foldl (fun m _ => min m 0) 0 = 0 := foldl_fixed fun _ _ => rfl
  simp only [cxlWanted, List.mem_append, List.mem_filterMap, List.mem_map, none_up, least] at wanted
  obtain ⟨y, -, formed⟩ | ⟨y, -, rfl⟩ := wanted
  · split_ifs at formed
    cases formed
    simp
  · rfl

theorem placeRegion_of_empty {x : Nat × Nat × List Nat} (empty : x.2.1 = 0) : placeRegion s x = s.addObj Obj.cxlUnmapped 0 := by
  simp [placeRegion, empty]

theorem besidesTraining_bringCxl_nil (s : State) : besidesTraining (bringCxl s []) = besidesTraining s :=
  List.foldlRecOn (motive := fun t => besidesTraining t = besidesTraining s) _ placeRegion rfl fun t kept x wanted => by
    rw [placeRegion_of_empty (size_of_cxlWanted_nil wanted)]
    exact kept

theorem getObj_bringCxl_nil {k : Nat} (other : Obj.cxlUnmapped ≠ k) : (bringCxl s []).getObj k = s.getObj k :=
  List.foldlRecOn (motive := fun t : State => t.getObj k = s.getObj k) _ placeRegion rfl fun t kept x wanted => by
    rw [placeRegion_of_empty (size_of_cxlWanted_nil wanted)]
    exact (State.getObj_addObj_ne 0 other).trans kept

section Nothing

variable {r : TrainIn} (channels : r.badChannels = []) (cxl : r.cxl = []) (ports : r.ports = [])
include channels cxl ports

theorem trained_nothing : trained r s =
    bringCxl (((freezeOut s).putObj Obj.ddrPresent (if r.ddrRate = 0 then 0 else 1)).putObj Obj.ddrRate r.ddrRate) [] := by
  simp only [trained, channels, cxl, ports, List.foldl_nil]

theorem besidesTraining_trained : besidesTraining (trained r s) = besidesTraining s := by
  rw [trained_nothing channels cxl ports, besidesTraining_bringCxl_nil, besidesTraining_putObj, besidesTraining_putObj, besidesTraining_freezeOut]

theorem trained_ddrRate : (trained r s).getObj Obj.ddrRate = r.ddrRate := by
  rw [trained_nothing channels cxl ports, getObj_bringCxl_nil (by decide), State.getObj_putObj_same]

theorem trained_moduleState : (trained r s).getObj Obj.moduleState = s.getObj Obj.moduleState := by
  have apart (st c : Nat) : Obj.chFreeze st c ≠ Obj.moduleState := by unfold Obj.chFreeze Obj.moduleState; omega
  rw [trained_nothing channels cxl ports, getObj_bringCxl_nil (by decide), State.getObj_putObj_ne _ _ (by decide),
    State.getObj_putObj_ne _ _ (by decide), getObj_freezeOut_ne apart]

end Nothing

/-- A module that takes part and has no port that is up waits for one. -/
theorem beginDiscovery_of_no_port (none : s.net.ports = []) (takes : takesPart s = true) : beginDiscovery s = s := by
  simp [beginDiscovery, none, takes]

/-- READY_LOCAL as its objects are written, with the need of a maintenance point or without. -/
theorem enterReady_of_no_port (none : s.net.ports = []) (takes : takesPart s = true) : ∃ bank,
    enterReady s = { ((s.putObj Obj.startFail 0).putObj Obj.coldCause 0).putObj Obj.moduleState 4 with bank := bank } := by
  unfold enterReady
  dsimp only
  split_ifs
  · exact ⟨_, beginDiscovery_of_no_port none takes⟩
  · obtain ⟨bank, noted⟩ := needPoint_with_bank (((s.putObj Obj.startFail 0).putObj Obj.coldCause 0).putObj Obj.moduleState 4)
    rw [noted]
    exact ⟨bank, beginDiscovery_of_no_port none takes⟩

/-- Where nothing but DDR trains and no port is there, READY_LOCAL is entered with the rate that DDR trained at. -/
theorem exec_readyLocal_alone {r : TrainIn} (train : s.getObj Obj.moduleState = 3) (channels : r.badChannels = [])
    (cxl : r.cxl = []) (ports : r.ports = []) (none : s.net.ports = []) (takes : takesPart s = true) :
    let t := if (trained r s).getObj Obj.moduleState = 6 then trained r s else enterReady (trained r s)
    t.getObj Obj.moduleState = 4 ∧ t.getObj Obj.ddrRate = r.ddrRate ∧ t.getObj Obj.startFail = 0 ∧ t.mem.bytes = s.mem.bytes := by
  have beside := besidesTraining_trained (s := s) channels cxl ports
  have net : (trained r s).net = s.net := congrArg Prod.fst beside
  have force : (trained r s).inForce = s.inForce := congrArg (·.2.1) beside
  have bytes : (trained r s).mem.bytes = s.mem.bytes := congrArg (·.2.2) beside
  have still : takesPart (trained r s) = true := by rwa [takesPart, State.ownId, State.forced, force]
  have warm : ¬ (trained r s).getObj Obj.moduleState = 6 := by rw [trained_moduleState channels cxl ports, train]; decide
  obtain ⟨bank, entered⟩ := enterReady_of_no_port (s := trained r s) ((congrArg Net.ports net).trans none) still
  rw [if_neg warm, entered]
  have writes (k : Nat) : State.getObj { ((((trained r s).putObj Obj.startFail 0).putObj Obj.coldCause 0).putObj Obj.moduleState 4) with bank := bank } k =
    ((((trained r s).putObj Obj.startFail 0).putObj Obj.coldCause 0).putObj Obj.moduleState 4).getObj k := rfl
  refine ⟨?_, ?_, ?_, bytes⟩
  · rw [writes, State.getObj_putObj_same]
  · rw [writes, State.getObj_putObj_ne _ _ (by decide), State.getObj_putObj_ne _ _ (by decide), State.getObj_putObj_ne _ _ (by decide),
      trained_ddrRate channels cxl ports]
  · rw [writes, State.getObj_putObj_ne _ _ (by decide), State.getObj_putObj_ne _ _ (by decide), State.getObj_putObj_same]

/-! ### Zeroing (R468) -/

/-- The stacked tier joins its pool, and the context map takes its area where it finds one. -/
theorem exec_tierZeroingComplete_stacked (ready : 4 ≤ s.getObj Obj.moduleState) (first : ZeroTarget.stacked ∉ s.mem.zeroed) :
    ∃ t, exec (.tierZeroingComplete .stacked) s = .next t ∧ ZeroTarget.stacked ∈ t.mem.zeroed ∧ t.mem.bytes = s.mem.bytes := by
  have yet : s.mem.zeroed.contains ZeroTarget.stacked = false := Bool.eq_false_iff.2 fun has => first (List.contains_iff_mem.1 has)
  simp only [exec, execTierZeroingComplete, decide_eq_true ready, yet, Bool.not_false, Bool.and_self, onlyIf_true, if_true]
  refine ⟨_, rfl, ?_⟩
  split <;> exact ⟨List.mem_append_right _ List.mem_cons_self, rfl⟩

/-- Settles O58: the copies that run decide the management boot and BOOT, and READY_LOCAL and zeroing leave the bytes of memory (logs 64, 81). -/
theorem startUp : Obligations.StartUp := by
  unfold Obligations.StartUp
  intro s
  refine ⟨?mgmt, fun stage sigs first _ _ letter => ⟨copyOf_of_ok, copyOf_of_none_ok letter, fun c => copyOk_of_unsigned, fun c => copyOk_of_older⟩,
    ?boot, ?ready, exec_tierZeroingComplete_stacked⟩
  case mgmt =>
    intro b toCome
    refine ⟨_, exec_domain87Up b toCome, mgmtStages_moduleState _ b (atM1_moduleState b s), fun bad => ?_, fun otp none2 => ?_, fun otp c some2 => ?_⟩
    · rw [mgmtStages_of_otp _ bad]
      exact ⟨startFails_startFail .., rfl⟩
    · rw [mgmtStages_of_no2 _ otp ((copyOf_atM1 b s).trans none2)]
      exact ⟨startFails_startFail .., rfl⟩
    · have runs2 : copyOf (atM1 b s) 2 b.stage2 0 = some c := (copyOf_atM1 b s).trans some2
      refine ⟨fun none3 => ?_, fun some3 => ?_⟩
      · rw [mgmtStages_of_no3 _ otp runs2 ((copyOf_atM1 b s).trans none3)]
        exact ⟨startFails_startFail .., congrArg Boot.m3 (noteCopy_boot (atM1 b s) 2 (some c))⟩
      · obtain ⟨d, is3⟩ := Option.ne_none_iff_exists'.1 some3
        obtain ⟨-, m3, epoch⟩ := mgmtStages_runs (atM1 b s) otp runs2 ((copyOf_atM1 b s).trans is3)
        exact ⟨m3, epoch⟩
  case boot =>
    intro b standby good runs may sites
    refine ⟨_, exec_boot standby good runs may sites, fun bad => ?_, fun rails some4 some5 otp llm links none enough => ?_⟩
    · rw [runBoot_of_rails bad]
      exact ⟨startFails_moduleState .., startFails_startFail .., rfl, rfl⟩
    · rw [runBoot_done rails some4 some5 otp llm links none enough]
      have left : memoryAndLaunches (enterTrain (testSites (beforeSites b (beginBoot s)) [])) = ({}, []) := by
        rw [memoryAndLaunches_enterTrain, memoryAndLaunches_testSites, memoryAndLaunches_beforeSites, memoryAndLaunches_beginBoot]
      exact ⟨enterTrain_moduleState _, enterTrain_discState _, of_memoryAndLaunches left⟩
  case ready =>
    intro r train channels rate cxl ports
    exact ⟨_, exec_readyLocal train channels rate cxl ports, fun noChannel noCxl noPort none takes =>
      exec_readyLocal_alone train noChannel noCxl noPort none takes⟩

end Sys2Proof.Machine
end

section
/-! SUPPORT. Proofs of the chiplet ports (R446 to R457; logs 68, 83): what the screen makes of a request, each kind of request that passes it, and the
answers to snoops. -/

namespace Sys2Proof.Machine

variable {s : State} {p : Nat} {m : CpMsg}

/-! ### Negotiation (R446, R448) -/

section Negotiation

variable {g : CpNegotiation} (few : p < 2) (negotiates : s.getObj (Obj.cpState p) = 1)
include few negotiates

theorem exec_cpNegotiationComplete_failed (failed : g.failed = true) :
    exec (.cpNegotiationComplete p g) s = .next (s.putObj (Obj.cpState p) 4) := by
  simp only [exec, execCpNegotiationComplete, if_neg (Nat.not_le.2 few), negotiates, beq_self_eq_true, onlyIf_true, failed, if_true]

theorem exec_cpNegotiationComplete_done (trained : g.failed = false) (word : dieWordOk g.dieWord.toNat = true)
    (modules : modulesOf g.trained g.dieWord.toNat ≠ 0) : exec (.cpNegotiationComplete p g) s = .next
      ((((s.putObj (Obj.cpCapsDie p) g.dieWord.toNat).putObj (Obj.cpState p) 2).putObj (Obj.cpRate p)
        (modulesOf g.trained g.dieWord.toNat * 64 * gigaTransfers g.dieWord.toNat / 8)).setChip
          { no := p, coherent := bitN g.dieWord.toNat 12 && bits g.dieWord.toNat 23 16 != 0, atomics := bitN g.dieWord.toNat 13 }) := by
  simp only [exec, execCpNegotiationComplete, if_neg (Nat.not_le.2 few), negotiates, beq_self_eq_true, onlyIf_true, trained, word, modules,
    Bool.not_true, Bool.false_eq_true, or_self, if_false]

end Negotiation

/-! ### The screen (R453, R454) -/

section Requests

variable {formed : Bool} {a : Ask} {f : Target → State → Except Halt State} {t : Target}
variable (few : p < 2) (admitted : s.getObj (Obj.cpState p) = 2)
include few admitted

theorem request_of_malformed (malformed : m.malformed = true) : request p m formed a s f = .next (violateReq s p 5 m.addr) := by
  simp only [request, if_neg (Nat.not_le.2 few), admitted, beq_self_eq_true, onlyIf_true, malformed, Bool.true_or, if_true]

variable (whole : m.malformed = false) (good : formed = true)
include whole good

theorem request_of_violation {k : Nat} (bad : screen s p m a = .error (some k)) : request p m formed a s f = .next (violateReq s p k m.addr) := by
  simp only [request, if_neg (Nat.not_le.2 few), admitted, beq_self_eq_true, onlyIf_true, whole, good, Bool.not_true, Bool.or_self, Bool.false_eq_true,
    if_false, bad]

variable (screened : screen s p m a = .ok t) (serves : s.getObj (Obj.sState t.slice) = 1 ∨ a.gives = true)
  (tokens : takeTokens s p (windowOf p m.addr) a.metered ≠ none)
include screened serves tokens

/-- A request that passes the screen, is served and metered: what comes of it is what its access comes to. -/
theorem request_of_screened : request p m formed a s f = match f t s with
    | .error .absent => .fault .absentAddress
    | .error .refused => .next (violateReq s p 3 m.addr)
    | .error .open_ => .next (openReq (unpredictable s t.slice) p m.addr)
    | .error (.wait u) => .next u
    | .ok v => .next ((takeTokens v p (windowOf p m.addr) a.metered).getD v) := by
  obtain ⟨u, taken⟩ := Option.ne_none_iff_exists'.1 tokens
  have served : ¬ (s.getObj (Obj.sState t.slice) ≠ 1 ∧ (!a.gives) = true) := by
    rintro ⟨stopped, keeps⟩
    exact serves.elim stopped fun gives => by simp [gives] at keeps
  simp only [request, if_neg (Nat.not_le.2 few), admitted, beq_self_eq_true, onlyIf_true, whole, good, Bool.not_true, Bool.or_self, Bool.false_eq_true,
    if_false, screened, if_neg served, taken] <;> rfl

theorem request_done {v : State} (performed : f t s = .ok v) :
    request p m formed a s f = .next ((takeTokens v p (windowOf p m.addr) a.metered).getD v) := by
  rw [request_of_screened few admitted whole good screened serves tokens, performed]

theorem request_waits {u : State} (waits : f t s = .error (.wait u)) : request p m formed a s f = .next u := by
  rw [request_of_screened few admitted whole good screened serves tokens, waits]

end Requests

/-- The six requests of a die all go through the screen. -/
theorem exec_eq_request {i : Instr} (mem : i ∈ [.cpRd p m, .cpRdo p m, .cpWr p m, .cpAtom p m, .cpWbk p m, .cpDrop p m]) (s : State) :
    ∃ formed a f, exec i s = request p m formed a s f := by
  simp only [List.mem_cons, List.not_mem_nil, or_false] at mem
  obtain rfl | rfl | rfl | rfl | rfl | rfl := mem
  · simp only [exec, execCpRd]; exact ⟨_, _, _, rfl⟩
  · simp only [exec, execCpRdo]; exact ⟨_, _, _, rfl⟩
  · simp only [exec, execCpWr]; exact ⟨_, _, _, rfl⟩
  · simp only [exec, execCpAtom]; exact ⟨_, _, _, rfl⟩
  · simp only [exec, execCpWbk]; exact ⟨_, _, _, rfl⟩
  · simp only [exec, execCpDrop]; exact ⟨_, _, _, rfl⟩

/-! ### Requests that pass the screen (R450, R451) -/

section Passing

variable {t : Target} {u : State} {bs : List Byte} {k : SectKey}
variable (few : p < 2) (admitted : s.getObj (Obj.cpState p) = 2) (whole : m.malformed = false)
include few admitted whole

section Reads

variable {granted : Bool} (grants : ((s.chip p).coherent && mayHold s p m.addr t) = granted)
  (screened : screen s p m { rights := [0], len := maskLen m.sectors, write := false, metered := 64 * (sectorsOf m.sectors).length } = .ok t)
  (line : aligned m.addr 512 = true) (some_ : m.sectors ≠ 0) (active : s.getObj (Obj.sState t.slice) = 1)
  (tokens : takeTokens s p (windowOf p m.addr) (64 * (sectorsOf m.sectors).length) ≠ none) (room : roomToHold s p m.addr t = .ok ())
include grants screened line some_ active tokens room

/-- The other die is the nearest holder: the read waits for its data. -/
theorem exec_cpRd_waits (grant : granted = true) (supplies : chipSupplies s p t.key.line (sectorsOf m.sectors) = some u) :
    exec (.cpRd p m) s = .next u := by
  have formed : (aligned m.addr 512 && m.sectors != 0) = true := by rw [line, bne_iff_ne.2 some_]; rfl
  simp only [exec, execCpRd]
  refine request_waits few admitted whole formed screened (Or.inl active) tokens ?_
  simp only [room, grants, grant, if_true, supplies]

theorem exec_cpRd_done (here : granted = false ∨ chipSupplies s p t.key.line (sectorsOf m.sectors) = none)
    (read : readSectors p granted t (sectorsOf m.sectors) s = .ok (u, bs)) : exec (.cpRd p m) s =
      .next ((takeTokens (answerReq (grantLine (served u (.port p)) p m.addr t false) p m.addr (64 * (sectorsOf m.sectors).length) 3 bs) p
        (windowOf p m.addr) (64 * (sectorsOf m.sectors).length)).getD
          (answerReq (grantLine (served u (.port p)) p m.addr t false) p m.addr (64 * (sectorsOf m.sectors).length) 3 bs)) := by
  have formed : (aligned m.addr 512 && m.sectors != 0) = true := by rw [line, bne_iff_ne.2 some_]; rfl
  have none_ : (if granted = true then chipSupplies s p t.key.line (sectorsOf m.sectors) else none) = none := by
    rcases here with not | nobody
    · rw [not]; rfl
    · rw [nobody, ite_self]
  simp only [exec, execCpRd]
  refine request_done few admitted whole formed screened (Or.inl active) tokens ?_
  simp only [room, grants, none_, read]

end Reads

theorem exec_cpRd_violates {k : Nat}
    (bad : screen s p m { rights := [0], len := maskLen m.sectors, write := false, metered := 64 * (sectorsOf m.sectors).length } = .error (some k))
    (line : aligned m.addr 512 = true) (some_ : m.sectors ≠ 0) : exec (.cpRd p m) s = .next (violateReq s p k m.addr) := by
  have formed : (aligned m.addr 512 && m.sectors != 0) = true := by rw [line, bne_iff_ne.2 some_]; rfl
  simp only [exec, execCpRd]
  exact request_of_violation few admitted whole formed bad

theorem exec_cpRdo_done (screened : screen s p m { rights := [0, 1], len := 512, write := true, coherent := true, metered := 512 } = .ok t)
    (line : aligned m.addr 512 = true) (active : s.getObj (Obj.sState t.slice) = 1) (tokens : takeTokens s p (windowOf p m.addr) 512 ≠ none)
    (room : roomToHold s p m.addr t = .ok ()) (may : mayHold s p m.addr t = true → ∃ k, writeOk s t.slice t.space t.addr (.port p) = .ok k)
    (read : readSectors p false t (List.range 8) (if mayHold s p m.addr t && t.space != 1 then logWrite s t.slice t.addr else s) = .ok (u, bs)) :
    exec (.cpRdo p m) s = .next ((takeTokens (answerReq (grantLine (served u (.port p)) p m.addr t true) p m.addr 512 3 bs) p (windowOf p m.addr) 512).getD
      (answerReq (grantLine (served u (.port p)) p m.addr t true) p m.addr 512 3 bs)) := by
  have writes : ∃ k, (if mayHold s p m.addr t = true then writeOk s t.slice t.space t.addr (.port p) else .ok t.key) = .ok k := by
    split_ifs with holds
    · exact may holds
    · exact ⟨_, rfl⟩
  obtain ⟨k, writes⟩ := writes
  simp only [exec, execCpRdo]
  refine request_done few admitted whole line screened (Or.inl active) tokens ?_
  simp only [room, writes, read]

theorem exec_cpWr_done (screened : screen s p m { rights := [1], len := m.len, write := true, metered := m.len } = .ok t) (least : 1 ≤ m.len)
    (within : m.addr.toNat % 512 + m.len ≤ 512) (mask : m.byteMask.length = m.len) (data : m.data.length = m.len)
    (active : s.getObj (Obj.sState t.slice) = 1) (tokens : takeTokens s p (windowOf p m.addr) m.len ≠ none)
    (may : writeOk s t.slice t.space t.addr (.port p) = .ok k) : exec (.cpWr p m) s =
      .next ((takeTokens (answerReq (writeRuns s p t (maskRuns 0 m.byteMask m.data)) p m.addr (m.byteMask.filter id).length 4 []) p (windowOf p m.addr)
        m.len).getD (answerReq (writeRuns s p t (maskRuns 0 m.byteMask m.data)) p m.addr (m.byteMask.filter id).length 4 [])) := by
  have formed : (decide (1 ≤ m.len ∧ m.addr.toNat % 512 + m.len ≤ 512) && m.byteMask.length == m.len && m.data.length == m.len) = true := by
    rw [decide_eq_true ⟨least, within⟩, beq_iff_eq.2 mask, beq_iff_eq.2 data]; rfl
  simp only [exec, execCpWr]
  refine request_done few admitted whole formed screened (Or.inl active) tokens ?_
  simp only [may]

theorem exec_cpAtom_done {z : Nat} (size : (if m.size8 then 8 else 4) = z)
    (screened : screen s p m { rights := [2], len := z, write := true, atomics := true, metered := z } = .ok t) (line : aligned m.addr z = true)
    (offered : m.op ≤ 10) (notFloat : m.op ≠ 1) (active : s.getObj (Obj.sState t.slice) = 1) (tokens : takeTokens s p (windowOf p m.addr) z ≠ none)
    (may : writeOk s t.slice t.space t.addr (.port p) = .ok k) (reached : reach s t.key false (.port p) = .ok ()) :
    let h := homeSect s t.slice k
    let old := leNat (sectGet h.2 (t.addr % 64) z)
    let new := chipAtom m.op (8 * z) old (m.b.toNat % 2 ^ (8 * z)) (m.c.toNat % 2 ^ (8 * z))
    let v := if m.op = 10 ∧ old ≠ m.b.toNat % 2 ^ (8 * z) then served h.1 (.port p) else writeRuns h.1 p t [(0, toLe z new)]
    exec (.cpAtom p m) s = .next ((takeTokens (answerReq v p m.addr z 3 (toLe z old)) p (windowOf p m.addr) z).getD
      (answerReq v p m.addr z 3 (toLe z old))) := by
  subst size
  have formed : (aligned m.addr (if m.size8 then 8 else 4) && decide (m.op ≤ 10 ∧ m.op ≠ 1)) = true := by
    rw [line, decide_eq_true ⟨offered, notFloat⟩]; rfl
  intro h old new v
  simp only [exec, execCpAtom]
  refine request_done few admitted whole formed screened (Or.inl active) tokens ?_
  simp only [may, reached]
  rfl

theorem exec_cpWbk_done (screened : screen s p m
      { rights := [1], len := 512, write := true, coherent := true, holds := true, metered := 64 * (sectorsOf m.sectors).length, gives := true } = .ok t)
    (line : aligned m.addr 512 = true) (some_ : m.sectors ≠ 0)
    (data : m.data.length = 64 * (sectorsOf m.sectors).length) (tokens : takeTokens s p (windowOf p m.addr) (64 * (sectorsOf m.sectors).length) ≠ none)
    (may : writeOk s t.slice t.space t.addr (.port p) = .ok k) :
    let v := dirForget (writeRuns s p t (sectorRuns m.sectors m.data)) (4 + p) t.key.line false
    let r := answerReq (putHeld v p ((v.chip p).held.filter fun h => h.addr != m.addr)) p m.addr (64 * (sectorsOf m.sectors).length) 4 []
    exec (.cpWbk p m) s = .next ((takeTokens r p (windowOf p m.addr) (64 * (sectorsOf m.sectors).length)).getD r) := by
  have formed : (aligned m.addr 512 && m.sectors != 0 && m.data.length == 64 * (sectorsOf m.sectors).length) = true := by
    rw [line, bne_iff_ne.2 some_, beq_iff_eq.2 data]; rfl
  intro v r
  simp only [exec, execCpWbk]
  refine request_done few admitted whole formed screened (Or.inr rfl) tokens ?_
  simp only [may]
  rfl

theorem exec_cpDrop_done (screened : screen s p m
      { rights := [], len := 512, write := false, coherent := true, holds := true, metered := 0, gives := true } = .ok t)
    (line : aligned m.addr 512 = true) (tokens : takeTokens s p (windowOf p m.addr) 0 ≠ none) :
    let v := match findDir s t.key.line with
      | some e => if e.state = .owned (4 + p) then dropOwned s (4 + p) t.key.line e else s
      | none => s
    let r := answerReq (putHeld v p ((v.chip p).held.filter fun h => h.addr != m.addr)) p m.addr 0 4 []
    exec (.cpDrop p m) s = .next ((takeTokens r p (windowOf p m.addr) 0).getD r) := by
  intro v r
  simp only [exec, execCpDrop]
  exact request_done few admitted whole line screened (Or.inr rfl) tokens rfl

end Passing

/-! ### Answers to snoops (R449, R452) -/

section Snoops

variable {runs : List (Nat × List Byte)} {q : BitVec 48 × Bool} {h : HeldLine} {l : LineKey}
variable (few : p < 2) (admitted : s.getObj (Obj.cpState p) = 2) (whole : m.malformed = false)
include few admitted whole

theorem snoopAnswer_of_unasked (unasked : (s.chip p).snoops.find? (fun q => q.1 == m.addr) = none) :
    snoopAnswer p m runs s = .next (violation s p 6 m.addr) := by
  simp only [snoopAnswer, if_neg (Nat.not_le.2 few), admitted, beq_self_eq_true, onlyIf_true, whole, Bool.false_eq_true, if_false, unasked]

variable (asked : (s.chip p).snoops.find? (fun q => q.1 == m.addr) = some q)
include asked

/-- An answer in time for a line that is held shared: it is given up, or kept shared after FWD_S. -/
theorem snoopAnswer_of_shared (held : (s.chip p).held.find? (fun h => h.addr == m.addr) = some h) (intime : m.late = false) (shared : h.owned = false) :
    let c := s.chip p
    let rest := if q.2 then c.held.filter fun h => h.addr != m.addr
      else c.held.map fun (h : HeldLine) => if h.addr = m.addr then { h with owned := false } else h
    let u := putHeld (s.setChip { c with snoops := c.snoops.erase q }) p rest
    snoopAnswer p m runs s = .next (snoopDone (dirForget u (4 + p) h.line (!q.2)) p h.line) := by
  simp only [snoopAnswer, if_neg (Nat.not_le.2 few), admitted, beq_self_eq_true, onlyIf_true, whole, Bool.false_eq_true, if_false, asked, held, shared,
    intime]

/-- An answer with the data of a line that is owned goes on. -/
theorem snoopAnswer_of_data {u : State} (held : (s.chip p).held.find? (fun h => h.addr == m.addr) = some h) (owned : h.owned = true)
    (data : answerData s h runs = .ok u) : ∃ t, snoopAnswer p m runs s = .next t := by
  simp only [snoopAnswer, if_neg (Nat.not_le.2 few), admitted, beq_self_eq_true, onlyIf_true, whole, Bool.false_eq_true, if_false, asked, held, owned,
    if_true, data]
  exact ⟨_, rfl⟩

/-- An answer in time for a line that the die holds no more. -/
theorem snoopAnswer_of_gone (gone : ∀ h ∈ (s.chip p).held, h.addr ≠ m.addr) (intime : m.late = false)
    (at_ : lineAt (putHeld (s.setChip { s.chip p with snoops := (s.chip p).snoops.erase q }) p (s.chip p).held) p m.addr = some l) :
    snoopAnswer p m runs s =
      .next (snoopDone (putHeld (s.setChip { s.chip p with snoops := (s.chip p).snoops.erase q }) p (s.chip p).held) p l) := by
  have notHeld : (s.chip p).held.find? (fun h => h.addr == m.addr) = none := List.find?_eq_none.2 fun h mem => by simpa using gone h mem
  have kept : ((s.chip p).held.filter fun h => h.addr != m.addr) = (s.chip p).held :=
    List.filter_eq_self.2 fun h mem => bne_iff_ne.2 (gone h mem)
  have still : ((s.chip p).held.map fun (h : HeldLine) => if h.addr = m.addr then { h with owned := false } else h) = (s.chip p).held :=
    (List.map_congr_left fun h mem => if_neg (gone h mem)).trans (List.map_id _)
  simp only [snoopAnswer, if_neg (Nat.not_le.2 few), admitted, beq_self_eq_true, onlyIf_true, whole, Bool.false_eq_true, if_false, asked, notHeld, intime,
    kept, still, ite_self, at_]

end Snoops

/-- A snoop that is not answered in time (R452). -/
theorem exec_snoopTimeout {q : BitVec 48 × Bool} (few : p < 2) (asked : q ∈ (s.chip p).snoops) :
    exec (.snoopTimeout p q.1) s = .next (violation s p 7 q.1) := by
  have listed : ((s.chip p).snoops.any fun r => r.1 == q.1) = true := List.any_eq_true.2 ⟨q, asked, beq_self_eq_true q.1⟩
  simp only [exec, execSnoopTimeout, decide_eq_true few, listed, Bool.and_self, onlyIf_true]

/-- Settles O56: the screen decides what becomes of a request, and the record of snoops what becomes of an answer (logs 68, 83). -/
theorem chipletRequestsAreScreened : Obligations.ChipletRequestsAreScreened := by
  unfold Obligations.ChipletRequestsAreScreened
  intro s p m few w n z requests
  refine ⟨fun g => exec_cpNegotiationComplete_failed few, fun g => exec_cpNegotiationComplete_done few, fun admitted => ⟨?malformed, fun whole => ?whole⟩,
    fun q => exec_snoopTimeout few⟩
  case malformed =>
    intro malformed i mem
    obtain ⟨formed, a, f, asks⟩ := exec_eq_request mem s
    exact asks.trans (request_of_malformed few admitted malformed)
  case whole =>
    refine ⟨?_, fun k bad line some_ => exec_cpRd_violates few admitted whole bad line some_, snoopAnswer_of_unasked few admitted whole, fun q h asked held intime => ⟨snoopAnswer_of_shared few admitted whole asked held intime, ?data⟩,
      fun q l asked gone intime => snoopAnswer_of_gone few admitted whole asked gone intime⟩
    intro t done ready
    refine ⟨?read, ?own, ?write, ?atomic, ?back, ?drop⟩
    case read =>
      intro screened line some_ isReady room granted
      exact ⟨fun u => exec_cpRd_waits few admitted whole rfl screened line some_ isReady.1 isReady.2 room,
        fun here u bs => exec_cpRd_done few admitted whole rfl screened line some_ isReady.1 isReady.2 room here⟩
    case own =>
      exact fun screened line isReady room may u bs => exec_cpRdo_done few admitted whole screened line isReady.1 isReady.2 room may
    case write =>
      exact fun screened least within mask data isReady k => exec_cpWr_done few admitted whole screened least within mask data isReady.1 isReady.2
    case atomic =>
      exact fun screened line offered notFloat isReady k => exec_cpAtom_done few admitted whole rfl screened line offered notFloat isReady.1 isReady.2
    case back =>
      exact fun screened line some_ data tokens k => exec_cpWbk_done few admitted whole screened line some_ data tokens
    case drop =>
      exact fun screened line tokens => exec_cpDrop_done few admitted whole screened line tokens
    case data =>
      intro owned length u data
      have formed : (m.malformed || !(m.data.length == 64 * (sectorsOf m.sectors).length)) = false := by rw [whole, beq_iff_eq.2 length]; rfl
      exact snoopAnswer_of_data (m := { m with malformed := m.malformed || !(m.data.length == 64 * (sectorsOf m.sectors).length) }) few admitted formed asked
        held owned data

end Sys2Proof.Machine
end

section
/-! SUPPORT. Proofs of frames of the object dictionary as they arrive (R436, R476, R477, R494; log 85): whether the dictionary takes one, and a frame of
TYPE 7 in its turn on its path. -/

namespace Sys2Proof.Machine

variable {s t u v : State} {f : OdFrame} {img : FwImage} {n q fuel : Nat} {x : Sent} {p p' : PathCtx} {o : Nat × OdFrame × FwImage}

/-! ### Whether the dictionary takes a frame (R476, R494) -/

theorem odArrives_of_not_served (away : odServed s f = false) : odArrives s f = (s, false) := by simp [odArrives, away]

theorem odArrives_of_served (served : odServed s f = true) : odArrives s f = firmwareTakes (s.addObj Obj.odFrames 1) f := by simp [odArrives, served]

theorem odServed_inBand (band : f.inBand = true) : odServed s f = true ↔ s.getObj Obj.moduleState = 5 := by simp [odServed, band]

/-- Over the management port nothing is served while its link is down, nor at another UDP port. -/
theorem odServed_of_closed (port : f.inBand = false) (closed : s.getObj Obj.mgmtLink ≠ 1 ∨ f.udp ≠ s.forced Obj.mgmtUdpPort) :
    odServed s f = false := by
  simp only [odServed, port, Bool.false_eq_true, if_false]
  rcases closed with down | elsewhere
  · simp [down]
  · simp [elsewhere]

theorem firmwareTakes_of_hardware (hard : byHardware f = true) : firmwareTakes s f = (s, true) := by simp [firmwareTakes, hard]

theorem firmwareTakes_of_room (soft : byHardware f = false) (room : (firmwareHeld s).length < 256) :
    firmwareTakes s f = ({ s with odp := { s.odp with firmware := firmwareHeld s ++ [upNow s] } }, true) := by
  simp [firmwareTakes, soft, Nat.not_le.2 room]

/-- With 256 frames that firmware may still hold, a frame is taken or dropped and counted. -/
theorem firmwareTakes_of_full (soft : byHardware f = false) (full : 256 ≤ (firmwareHeld s).length) :
    (firmwareTakes s f).2 = true ∨ firmwareTakes s f = ((s.useFree 1).addObj Obj.odDropped 1, false) := by
  simp only [firmwareTakes, soft, Bool.false_eq_true, if_false, decide_eq_true full, Bool.true_and]
  split_ifs
  · exact Or.inr rfl
  · exact Or.inl rfl

/-! ### A frame of TYPE 7 on its path (R323, R477) -/

/-- The one frame that a path holds, whose turn it is, is the dictionary's: it is performed, and no other follows. -/
theorem drainAll_of_dictionary (found : s.path? n = some p) (held : p.held = [x]) (turn : x.f.psn = p.expect) (asks : x.od = some o)
    (after : (odPerform s o).path? n = some p') (still : p'.held = [x]) :
    drainAll n (fuel + 1) s [] = ((odPerform s o).setPath (passedOne p' x), []) := by
  have next : nextSent s n = some x := by simp [nextSent, found, held, turn]
  have last : nextSent ((odPerform s o).setPath (passedOne p' x)) n = none :=
    nextSent_of_empty (path?_setPath_of_no (p := passedOne p' x) (path?_no (p := p') after)) rfl
  have stops (k : Nat) : drainPath n (k + 1) s [] = (s, []) := by
    rw [drainPath, found, next]
    simp only [asks, Option.isSome_some, if_true]
  simp only [drainAll, found, Option.map_some, Option.getD_some, stops, next, asks, pathNext_of_one after still, drainAll_of_none last]

/-- A frame of the dictionary whose turn it is, with none held on its path, is performed at once. -/
theorem takeSent_dictionary (turn : x.f.psn = p.expect) (empty : p.held = []) (asks : x.od = some o)
    (after : (odPerform (s.setPath { p with held := [x] }) o).path? p.no = some p') (still : p'.held = [x]) :
    let w := (odPerform (s.setPath { p with held := [x] }) o).setPath (passedOne p' x)
    takeSent x s p = .next (if x.f.ackReq || decide (16 ≤ p'.owed + 1) then ackNow w p.no else w) := by
  intro w
  have level : psnAhead x.f.psn p.expect = 0 := by rw [psnAhead, turn, Nat.add_sub_cancel_left, Nat.mod_self]
  have found : (s.setPath { p with held := [x] }).path? p.no = some { p with held := [x] } := path?_setPath s { p with held := [x] }
  have drained (fuel : Nat) : drainAll p.no (fuel + 1) (s.setPath { p with held := [x] }) [] = (w, []) :=
    drainAll_of_dictionary found rfl turn asks after still
  have left : w.path? p.no = some (passedOne p' x) := path?_setPath_of_no (p := passedOne p' x) (path?_no (p := p') after)
  have idle : workOf [] = [] := rfl
  simp only [takeSent, level, empty, List.any_nil, Bool.false_eq_true, if_false, List.nil_append, drained, left, idle, advanceAll]
  rfl

/-- A bad frame of the transport without link retry is counted and goes no further. -/
theorem recvSent_of_bad (port : q < 64) (up : (s.port q).up = true) (ours : forTransport s x.f = true) (bad : goodFrame x.f = false)
    (plain : x.f.llr = false) : recvSent q x s = .next (noteFrame s q x.f) := by
  have passed : linkCheck (noteFrame s q x.f) q x.f = (noteFrame s q x.f, true) := by simp [linkCheck, plain]
  simp only [recvSent, decide_eq_true port, up, ours, Bool.and_self, onlyIf_true, passed, bad, Bool.not_false, if_true]

/-- A frame of the dictionary as the transport holds it. -/
def odSent (f : OdFrame) (o : Nat × OdFrame × FwImage) : Sent := { ty := 7, f := { f.tr with payload := odBytes f }, od := some o }

/-- The rows of the dictionary's frames: the header of each names the row's operation. -/
theorem exec_odRow {r : Instr × Nat × FwImage} (mem : r ∈ [(Instr.odRead f, 1, noImage), (.odWrite f, 2, noImage), (.odBulkRead f, 3, noImage),
    (.odBulkWrite f img, 4, img), (.odSubscribe f, 5, noImage), (.odUnsubscribe f, 6, noImage)]) (op : f.op = r.2.1) :
    exec r.1 s = recvOd r.2.1 f r.2.2 s := by
  have named : recvOp r.2.1 f r.2.2 s = recvOd r.2.1 f r.2.2 s := if_neg fun other => other op
  rw [← named]
  simp only [List.mem_cons, List.not_mem_nil, or_false] at mem
  obtain rfl | rfl | rfl | rfl | rfl | rfl := mem <;> rfl

theorem exec_odMalformedFrame (bad : wellFormed f = false) : exec (.odMalformedFrame f) s = recvOd 0 f noImage s :=
  if_neg (Bool.eq_false_iff.1 bad)

theorem recvOd_of_port (port : f.inBand = false) : recvOd n f img s = .next (odPerform s (n, f, img)) := by simp [recvOd, port]

theorem recvOd_of_band (band : f.inBand = true) : recvOd n f img s = recvSent f.q (odSent f (n, f, img)) s := by simp [recvOd, band, odSent]

/-! ### A frame that the dictionary takes (R478 to R482) -/

variable {odd : Bool} {k : State → Performed}

/-- A frame that names an operation is taken; any other is malformed. -/
theorem odPerform_cases (n : Nat) (f : OdFrame) (img : FwImage) :
    (∃ odd k, ∀ s, odPerform s (n, f, img) = takeFrame f odd s k) ∨ ∀ s, odPerform s (n, f, img) = takeMalformed f s := by
  match n with
  | 0 => exact Or.inr fun _ => rfl
  | 1 => exact Or.inl ⟨_, _, fun _ => rfl⟩
  | 2 => exact Or.inl ⟨_, _, fun _ => rfl⟩
  | 3 => exact Or.inl ⟨_, _, fun _ => rfl⟩
  | 4 => exact Or.inl ⟨_, _, fun _ => rfl⟩
  | 5 => exact Or.inl ⟨_, _, fun _ => rfl⟩
  | 6 => exact Or.inl ⟨_, _, fun _ => rfl⟩
  | _ + 7 => exact Or.inr fun _ => rfl

theorem odPerform_of_op (least : 1 ≤ n) (most : n ≤ 6) (f : OdFrame) (img : FwImage) :
    ∃ odd k, ∀ s, odPerform s (n, f, img) = takeFrame f odd s k := by
  obtain rfl | rfl | rfl | rfl | rfl | rfl : n = 1 ∨ n = 2 ∨ n = 3 ∨ n = 4 ∨ n = 5 ∨ n = 6 := by omega
  · exact ⟨_, _, fun _ => rfl⟩
  · exact ⟨_, _, fun _ => rfl⟩
  · exact ⟨_, _, fun _ => rfl⟩
  · exact ⟨_, _, fun _ => rfl⟩
  · exact ⟨_, _, fun _ => rfl⟩
  · exact ⟨_, _, fun _ => rfl⟩

theorem odPerform_of_away (away : odArrives s f = (u, false)) (n : Nat) (img : FwImage) : odPerform s (n, f, img) = u := by
  obtain ⟨odd, k, taken⟩ | malformed := odPerform_cases n f img
  · simp only [taken, takeFrame, away]
  · simp only [malformed, takeMalformed, away]

theorem odPerform_malformed (arrives : odArrives s f = (u, true)) (img : FwImage) : odPerform s (0, f, img) = refuseFrame u f := by
  simp only [odPerform, takeMalformed, arrives]

/-- An operation whose frame arrives is answered. -/
theorem odPerform_answers (arrives : odArrives s f = (u, true)) (least : 1 ≤ n) (most : n ≤ 6) (img : FwImage) :
    ∃ k, odPerform s (n, f, img) = answerFrame u f k := by
  obtain ⟨odd, k, taken⟩ := odPerform_of_op least most f img
  exact ⟨fun s => if odd || reservedHeader f then anyPerformed s (credOf f) (k s) else k s, by simp only [taken, takeFrame, arrives]⟩

theorem answerFrame_of_malformed (bad : wellFormed f = false) : answerFrame u f k = refuseFrame u f := by simp [answerFrame, bad]

section WellFormed

variable (good : wellFormed f = true)
include good

theorem answerFrame_of_unsigned (unsigned : authOk u f = false) : answerFrame u f k = authFails u f := by simp [answerFrame, good, unsigned]

variable (signed : authOk u f = true)
include signed

theorem answerFrame_of_open (open_ : credOf f = .none) : answerFrame u f k = finishFrame f (k u) := by simp [answerFrame, good, signed, open_]

variable (named : credOf f ≠ .none)
include named

theorem answerFrame_of_epoch (other : f.epoch ≠ u.getObj Obj.bootEpoch) : answerFrame u f k = authFails u f := by
  simp [answerFrame, good, signed, named, other]

variable (now : f.epoch = u.getObj Obj.bootEpoch)
include now

theorem answerFrame_of_again {x : Nat × Nat × OdResp}
    (again : (window u (credOf f)).recent.find? (fun x => x.1 == f.counter && x.2.1 == f.reqId) = some x) : answerFrame u f k = sendOd u x.2.2 := by
  simp [answerFrame, good, signed, named, now, again]

theorem answerFrame_of_counter (first : (window u (credOf f)).recent.find? (fun x => x.1 == f.counter && x.2.1 == f.reqId) = none)
    (old : counterOk (window u (credOf f)) f.counter = false) : answerFrame u f k = authFails u f := by
  simp [answerFrame, good, signed, named, now, first, old]

theorem answerFrame_performed (first : (window u (credOf f)).recent.find? (fun x => x.1 == f.counter && x.2.1 == f.reqId) = none)
    (fresh : counterOk (window u (credOf f)) f.counter = true) :
    answerFrame u f k = finishFrame f (k (setWindow u (acceptCounter (window u (credOf f)) f.counter))) := by
  simp [answerFrame, good, signed, named, now, first, fresh]

end WellFormed

theorem body_length (good : wellFormed f = true) : f.body.length = f.bodyLen := by
  simp only [wellFormed, Bool.and_eq_true, beq_iff_eq] at good
  exact good.1.1.1.1.2

/-- A READ of one entry that may be read (R484). -/
theorem odPerform_read (arrives : odArrives s f = (u, true)) (good : wellFormed f = true) (plain : reservedHeader f = false) (open_ : credOf f = .none)
    (signed : authOk u f = true) (one : f.bodyLen = 8) (clear : (f.body.drop 3).any (· != 0) = false) {r : Nat × List Byte}
    (read : readEntry (noteRevocations u [entryKey f.body]) .none (entryKey f.body) = .ok r) (img : FwImage) :
    odPerform s (1, f, img) = finishFrame f
      { s := (noteRevocations u [entryKey f.body]).addObj Obj.odRefused 0, status := stOk, reason := 0, count := 1,
        body := valueEntry f.body r.1 stOk 0 r.2 } := by
  have length : f.body.length = 8 := (body_length good).trans one
  have full : f.body.isEmpty = false := List.isEmpty_eq_false_iff.2 fun empty => by simp [empty] at length
  have single : chunks 8 (f.bodyLen / 8) f.body = [f.body] := by
    rw [one]
    simp only [chunks, full, Bool.false_eq_true, if_false, List.take_of_length_le length.le]
  have entry : readOne (noteRevocations u [entryKey f.body]) .none f.body = (valueEntry f.body r.1 stOk 0 r.2, none) := by simp only [readOne, read]
  have kept (s : State) (ks : List Nat) : flushOnRead s .none ks = s := if_neg fun manager => absurd manager.1 (by decide)
  simp only [odPerform, odRead, takeFrame, arrives, single, List.any_cons, List.any_nil, clear, plain, Bool.or_self, Bool.false_eq_true, if_false,
    answerFrame_of_open good signed open_, open_, List.map_cons, List.map_nil, entry, kept, List.filterMap_cons, List.filterMap_nil, List.flatMap_cons,
    List.flatMap_nil, List.append_nil]
  rfl

end Sys2Proof.Machine
end

section
/-! SUPPORT. Proofs of responses, snapshots, staging buffers, notifications and stored counters (R477, R486 to R488, R493; logs 72, 84, 116), and of the
statement on the dictionary's frames. -/

namespace Sys2Proof.Machine

variable {s t u : State} {f : OdFrame} {img : FwImage} {cr : Cred} {k sub : Nat}

/-! ### Responses (R476, R477) -/

theorem sendOd_of_port {r : OdResp} (port : r.inBand = false) : sendOd u r = u.send (.od r) := by simp [sendOd, port]

theorem sendOd_of_band {r : OdResp} (sent : sendFrame u r.dst 7 { addr := BitVec.ofNat 64 (gAddr r.dst 2 0), payload := r.frame } .device = some t)
    (band : r.inBand = true) : sendOd u r = t := by
  simp [sendOd, sendBand, band, sent]

theorem refuseFrame_of_port (port : f.inBand = false) :
    refuseFrame u f = (refuseAccess u).send (.od (response u f stRefused 0x08 0 [])) := sendOd_of_port port

/-! ### What is held for a credential (R486, R487) -/

theorem exec_snapshotExpiry {x : Snapshot} (mem : x ∈ s.odp.snaps) (own : x.cred = cr) (key : x.key = k) (old : x.read + bulkIdleNs ≤ upNow s) :
    exec (.snapshotExpiry cr k) s = .next
      { s with odp := { s.odp with snaps := s.odp.snaps.filter fun x => !(x.cred == cr && x.key == k) } } := by
  have expired : (s.odp.snaps.any fun x => x.cred == cr && x.key == k && decide (x.read + bulkIdleNs ≤ upNow s)) = true :=
    List.any_eq_true.2 ⟨x, mem, by simp [own, key, old]⟩
  simp only [exec, execSnapshotExpiry, expired, onlyIf_true]

theorem exec_bulkBufferExpiry {x : BulkBuf} (mem : x ∈ s.odp.bufs) (own : x.cred = cr) (old : x.wrote + bulkIdleNs ≤ upNow s) :
    exec (.bulkBufferExpiry cr) s = .next { s with odp := { s.odp with bufs := s.odp.bufs.filter fun x => x.cred != cr } } := by
  have expired : (s.odp.bufs.any fun x => x.cred == cr && decide (x.wrote + bulkIdleNs ≤ upNow s)) = true :=
    List.any_eq_true.2 ⟨x, mem, by simp [own, old]⟩
  simp only [exec, execBulkBufferExpiry, expired, onlyIf_true]
  rfl

/-! ### Stored counters (R493) -/

theorem flushDue_iff : flushDue s = true ↔ ∀ t, s.odp.flushedAt = some t → t + 60000000000 ≤ upNow s := by
  cases at_ : s.odp.flushedAt with
  | none => simp [flushDue, at_]
  | some t => simp [flushDue, at_]

theorem exec_storedCounterFlush (on : 1 ≤ s.getObj Obj.moduleState) (due : ∀ t, s.odp.flushedAt = some t → t + 60000000000 ≤ upNow s) :
    exec .storedCounterFlush s = .next
      { s.flushCounters with odp := { s.flushCounters.odp with flushedAt := some (upNow s) } } := by
  simp only [exec, execStoredCounterFlush, decide_eq_true on, flushDue_iff.2 due, Bool.and_self, onlyIf_true]
  rfl

theorem exec_storedCounterFlush_early {t : Nat} (last : s.odp.flushedAt = some t) (early : upNow s < t + 60000000000) :
    exec .storedCounterFlush s = .next s := by
  have notDue : flushDue s = false := Bool.eq_false_iff.2 fun due => absurd (flushDue_iff.1 due t last) (Nat.not_le.2 early)
  simp only [exec, execStoredCounterFlush, notDue, Bool.and_false, onlyIf_false]

/-! ### Notifications (R488) -/

/-- The state from which a notification leaves: the sample is noted and the notification counted. -/
def notifying (u : State) (x : Subscription) (sub value : Nat) : State :=
  let v := if x.periodic then u else u.useFree 1
  ((putSubs v (v.odp.subs.map fun (y : Subscription) => if y.no = sub then { y with seq := y.seq + 1, last := some value, sentAt := upNow v } else y)).addObj
    Obj.notifySent 1).addObj Obj.notifyCoalesced (if x.periodic then 0 else u.freeVal % 2 ^ 32)

/-- Noting a notification writes three objects, the subscriptions and what is free. -/
theorem notifying_eq (u : State) (x : Subscription) (sub value : Nat) : ∃ subs free m n,
    notifying u x sub value = ((({ u with odp := { u.odp with subs := subs }, free := free } : State).putObj Obj.subsLive m).addObj Obj.notifySent 1).addObj
      Obj.notifyCoalesced n := by
  unfold notifying
  dsimp only
  split_ifs <;> exact ⟨_, _, _, _, rfl⟩

theorem notifying_leaves (u : State) (x : Subscription) (sub value : Nat) :
    (notifying u x sub value).out = u.out ∧ (notifying u x sub value).now = u.now ∧ (notifying u x sub value).mem = u.mem ∧
      (notifying u x sub value).getObj Obj.notifySent = (u.addObj Obj.notifySent 1).getObj Obj.notifySent := by
  obtain ⟨subs, free, m, n, noted⟩ := notifying_eq u x sub value
  rw [noted]
  have base (k : Nat) : State.getObj { u with odp := { u.odp with subs := subs }, free := free } k = u.getObj k := rfl
  refine ⟨rfl, ?_, rfl, ?_⟩
  · simp only [State.now]
    rw [State.getObj_addObj_ne n (by decide), State.getObj_addObj_ne 1 (by decide), State.getObj_putObj_ne _ m (by decide), base]
  · rw [State.getObj_addObj_ne n (by decide), State.getObj_addObj_same, State.getObj_addObj_same, State.getObj_putObj_ne _ m (by decide), base]

section Subscription

variable {x : Subscription} {r : ObjRow} (found : s.odp.subs.find? (fun x => x.no == sub) = some x) (row : objRow? x.key = some r)
include found row

theorem exec_odNotify_down (port : x.inBand = false) (down : (noteRevocations s [x.key]).getObj Obj.mgmtLink = 0) :
    exec (.odNotify sub) s = .next (noteRevocations s [x.key]) := by
  simp only [exec, execOdNotify, found, withSome_some, row, port, down, Bool.not_false, and_self, or_true, if_true]

variable (due : x.sentAt + notifyGap x ≤ upNow (noteRevocations s [x.key]))
  (route : x.inBand = true ∨ (noteRevocations s [x.key]).getObj Obj.mgmtLink ≠ 0)
include due route

theorem exec_odNotify_same (onChange : x.periodic = false) (same : x.last = some (leNat (objBytes (noteRevocations s [x.key]) x.key r))) :
    exec (.odNotify sub) s = .next (noteRevocations s [x.key]) := by
  simp only [exec, execOdNotify, found, withSome_some, row]
  rw [if_neg, if_pos ⟨by rw [onChange]; rfl, same⟩]
  rintro (early | ⟨port, down⟩)
  · exact absurd due (Nat.not_le.2 early)
  · exact route.elim (fun band => by simp [band] at port) fun up => up down

theorem exec_odNotify_sent (changed : x.periodic = true ∨ x.last ≠ some (leNat (objBytes (noteRevocations s [x.key]) x.key r))) :
    exec (.odNotify sub) s = .next (sendNotify (notifying (noteRevocations s [x.key]) x sub (leNat (objBytes (noteRevocations s [x.key]) x.key r))) x r.ty
      (objBytes (noteRevocations s [x.key]) x.key r)) := by
  simp only [exec, execOdNotify, found, withSome_some, row]
  rw [if_neg, if_neg]
  · rfl
  · rintro ⟨onChange, same⟩
    exact changed.elim (fun periodic => by simp [periodic] at onChange) fun other => other same
  · rintro (early | ⟨port, down⟩)
    · exact absurd due (Nat.not_le.2 early)
    · exact route.elim (fun band => by simp [band] at port) fun up => up down

end Subscription

/-- Settles O55: whether a frame arrives, its turn on its path, and the answer that its credential and counter give it (logs 72, 84, 85, 116). -/
theorem dictionaryFrames : Obligations.DictionaryFrames := by
  unfold Obligations.DictionaryFrames
  refine ⟨?arrives, ?comes, ?answers, ?held, ?stored⟩
  case arrives =>
    intro s f u
    refine ⟨odArrives_of_not_served, odServed_inBand, odServed_of_closed, fun served hard => ?_, fun served soft room => ?_, fun served soft full => ?_⟩
    · rw [odArrives_of_served served, firmwareTakes_of_hardware hard]
    · rw [odArrives_of_served served, firmwareTakes_of_room soft room]
    · rw [odArrives_of_served served]
      exact firmwareTakes_of_full soft full
  case comes =>
    intro s f img rows g comes
    have arrival (i : Instr) (n : Nat) (m : FwImage) (runs : exec i s = recvOd n f m s) : comes i (n, f, m) := by
      refine ⟨fun port => runs.trans (recvOd_of_port port), fun band port up ours => ⟨fun bad plain => ?_, fun s' u p good passed peer => ?_⟩⟩
      · exact (runs.trans (recvOd_of_band band)).trans (recvSent_of_bad (x := odSent f (n, f, m)) port up ours bad plain)
      · have taken : exec i s = takeSent (odSent f (n, f, m)) u p :=
          (runs.trans (recvOd_of_band band)).trans (Arrives.recvSent (x := odSent f (n, f, m)) ⟨port, up, ours, good, passed⟩ peer)
        exact ⟨fun behind => taken.trans (takeSent_behind behind), fun ahead near empty quiet => taken.trans (takeSent_gap ahead near empty quiet),
          fun turn _ empty p' after still => taken.trans (takeSent_dictionary turn empty rfl after still)⟩
    exact ⟨fun r mem op => arrival r.1 r.2.1 r.2.2 (exec_odRow (img := img) mem op), fun bad => arrival _ 0 noImage (exec_odMalformedFrame bad)⟩
  case answers =>
    intro s u f img cr
    refine ⟨fun away n => odPerform_of_away away n img, fun arrives => ⟨odPerform_malformed arrives img, refuseFrame_of_port, fun n least most => ?_,
      fun good plain open_ signed one clear => ?read⟩,
      fun r => ⟨sendOd_of_port, fun t => sendOd_of_band⟩⟩
    case read => exact fun v read => odPerform_read arrives good plain open_ signed one clear read img
    obtain ⟨k, answer⟩ := odPerform_answers arrives least most img
    rw [answer]
    exact ⟨answerFrame_of_malformed, answerFrame_of_unsigned, fun good signed => ⟨fun open_ => ⟨_, answerFrame_of_open good signed open_⟩,
      answerFrame_of_epoch good signed, fun named now => ⟨fun x => answerFrame_of_again good signed named now, fun first =>
        ⟨answerFrame_of_counter good signed named now first, fun fresh => ⟨_, answerFrame_performed good signed named now first fresh⟩⟩⟩⟩⟩
  case held =>
    exact fun s cr k => ⟨fun x => exec_snapshotExpiry, fun x => exec_bulkBufferExpiry⟩
  case stored =>
    intro s
    refine ⟨fun on due => ⟨_, exec_storedCounterFlush on due, rfl, rfl, rfl⟩, fun t => exec_storedCounterFlush_early, fun sub x r found row => ?_⟩
    intro u bs
    refine ⟨exec_odNotify_down found row, fun due route => ⟨exec_odNotify_same found row due route, fun changed => ?_⟩⟩
    obtain ⟨out, now, mem, sent⟩ := notifying_leaves u x sub (leNat bs)
    refine ⟨_, exec_odNotify_sent found row due route changed, out, now, mem, sent, fun port => ?_⟩
    have no : x.no = sub := by simpa using List.find?_some found
    rw [sendNotify, if_neg (Bool.eq_false_iff.1 port), now, no]

end Sys2Proof.Machine
end

section
/-! SUPPORT. Proofs of operations on slices (R383 to R390; logs 61, 75): the queue of operations, and what each operation comes to by the slice's state. -/

namespace Sys2Proof.Machine

variable {s t : State} {n : Nat} {cr : Cred} {w : SopWait} {o : SopReq}

/-! ### Slices that are set, and results -/

theorem setSlice_setSlice {x y : Slice} (same : y.no = x.no) : (s.setSlice x).setSlice y = s.setSlice y := by
  simp only [State.setSlice, upsert_upsert Slice.no same]

/-- A slice that is set with its own number is the one found under it. -/
theorem slice_setSlice_of_no {x : Slice} (no : x.no = n) : (s.setSlice x).slice n = x := no ▸ slice_setSlice s x

/-- A result leaves the queue of operations. -/
theorem waits_sopResult (s : State) (n : Nat) (w : SopWait) (st done : Nat) :
    ((sopResult s n w st done).slice n).waits = (s.slice n).waits := by
  simp only [sopResult]
  split_ifs
  · rfl
  · rw [slice_setSlice_of_no]
    exact slice_no s n

/-! ### The queue of operations (R388) -/

theorem runOps_of_current (busy : (s.slice n).current ≠ none) (fuel : Nat) : runOps n fuel s = s := by
  obtain ⟨q, current⟩ := Option.ne_none_iff_exists'.1 busy
  cases fuel with
  | zero => rfl
  | succ fuel => simp only [runOps, current]

theorem runOps_of_empty (empty : (s.slice n).waits = []) (fuel : Nat) : runOps n fuel s = s := by
  cases fuel with
  | zero => rfl
  | succ fuel =>
    simp only [runOps]
    split
    next w rest _ waits => rw [empty] at waits; cases waits
    next => rfl

/-- The operation whose turn it is. -/
theorem runOps_of_next {rest : List SopWait} (idle : (s.slice n).current = none) (next : (s.slice n).waits = w :: rest) (fuel : Nat) :
    runOps n (fuel + 1) s = match performOp (s.setSlice { s.slice n with waits := rest }) n w with
      | (t, some r) => runOps n fuel (sopResult t n w r.1 r.2)
      | (t, none) => if (t.slice n).current.isSome then t else t.setSlice { t.slice n with waits := w :: (t.slice n).waits } := by
  simp only [runOps]
  split
  next v others _ waits =>
    rw [next] at waits
    cases waits
    rfl
  next others => exact absurd next (others w rest idle)

/-- The operations on slices with their numbers. -/
abbrev sopRows (cr : Cred) (o : SopReq) : List (Instr × Nat) :=
  [(.createSlice cr o, 0x01), (.destroySlice cr o, 0x02), (.mapPages cr o, 0x10), (.unmap cr o, 0x11),
    (.protect cr o, 0x12), (.quiesceSlice cr o, 0x13), (.resumeSlice cr o, 0x14), (.resetSlice cr o, 0x15)]

section Requests

variable {mgr : Bool} (asker : (cr = .manager ∧ mgr = true ∧ n = o.slice ∧ n < 64) ∨ (cr = .slice n ∧ mgr = false)) (good : credOk s cr = true)
include asker good

/-- A request of a credential that may make it goes to the queue of its slice. -/
theorem requestOp_submits (op : Nat) : requestOp cr op o s = .next (submitOp s n { byManager := mgr, op := op, req := o }) := by
  obtain ⟨rfl, rfl, rfl, few⟩ | ⟨rfl, rfl⟩ := asker
  · simp only [requestOp, good, Bool.not_true, Bool.false_eq_true, if_false, if_neg (Nat.not_le.2 few)]
  · simp only [requestOp, good, Bool.not_true, Bool.false_eq_true, if_false]

/-- Each row of operations on slices is a request with the row's number. -/
theorem exec_sopRow {p : Instr × Nat} (mem : p ∈ sopRows cr o) :
    exec p.1 s = .next (submitOp s n { byManager := mgr, op := p.2, req := o }) := by
  rw [← requestOp_submits asker good]
  simp only [sopRows, List.mem_cons, List.not_mem_nil, or_false] at mem
  obtain rfl | rfl | rfl | rfl | rfl | rfl | rfl | rfl := mem <;> rfl

end Requests

/-- Behind an operation in progress up to eight wait. -/
theorem submitOp_of_busy (busy : (s.slice n).current ≠ none) (room : (s.slice n).waits.length < 8) :
    submitOp s n w = s.setSlice { s.slice n with waits := (s.slice n).waits ++ [w] } := by
  have full : ¬ 8 ≤ (s.slice n).waits.length := Nat.not_le.2 room
  have still : ((s.setSlice { s.slice n with waits := (s.slice n).waits ++ [w] }).slice n).current ≠ none := by
    rw [slice_setSlice_of_no (x := { s.slice n with waits := (s.slice n).waits ++ [w] }) (slice_no s n)]
    exact busy
  simp only [submitOp, Option.isSome_iff_ne_none.2 busy, if_true, if_neg full, runOps_of_current still]

/-- The ninth behind an operation in progress is refused. -/
theorem submitOp_of_full (busy : (s.slice n).current ≠ none) (full : 8 ≤ (s.slice n).waits.length) : submitOp s n w = sopResult s n w stRefused 0 := by
  simp only [submitOp, Option.isSome_iff_ne_none.2 busy, if_true, if_pos full]

section Idle

variable (idle : (s.slice n).current = none) (empty : (s.slice n).waits = [])
include idle empty

/-- With nothing in progress and nothing waiting a request is performed at once. -/
theorem submitOp_of_idle : submitOp s n w = match performOp (s.setSlice { s.slice n with waits := [] }) n w with
    | (t, some r) => runOps n 8 (sopResult t n w r.1 r.2)
    | (t, none) => if (t.slice n).current.isSome then t else t.setSlice { t.slice n with waits := w :: (t.slice n).waits } := by
  have short : ¬ (if (s.slice n).current.isSome then 8 else 9) ≤ (s.slice n).waits.length := by simp [idle, empty]
  have queue : { s.slice n with waits := (s.slice n).waits ++ [w] } = { s.slice n with waits := [w] } := by rw [empty, List.nil_append]
  have queued : (s.setSlice { s.slice n with waits := [w] }).slice n = { s.slice n with waits := [w] } := slice_setSlice_of_no (slice_no s n)
  have taken : (s.setSlice { s.slice n with waits := [w] }).setSlice { (s.setSlice { s.slice n with waits := [w] }).slice n with waits := [] } =
      s.setSlice { s.slice n with waits := [] } := by
    rw [queued]
    exact setSlice_setSlice rfl
  unfold submitOp
  dsimp only
  rw [if_neg short, queue, runOps_of_next (by rw [queued]; exact idle) (by rw [queued]), taken]

theorem submitOp_waits (waits : performOp (s.setSlice { s.slice n with waits := [] }) n w = (t, none)) :
    submitOp s n w = if (t.slice n).current.isSome then t else t.setSlice { t.slice n with waits := w :: (t.slice n).waits } := by
  rw [submitOp_of_idle idle empty, waits]

theorem submitOp_done {r : Nat × Nat} (done : performOp (s.setSlice { s.slice n with waits := [] }) n w = (t, some r)) (left : (t.slice n).waits = []) :
    submitOp s n w = sopResult t n w r.1 r.2 := by
  rw [submitOp_of_idle idle empty, done]
  exact runOps_of_empty ((waits_sopResult t n w r.1 r.2).trans left) 8

end Idle

/-! ### Operations by the state of their slice (R383 to R387) -/

theorem performOp_create_refused (new : s.getObj (Obj.sState n) = 0) (manager : w.byManager = true) (op : w.op = 0x01)
    (refused : createSlice s n = (s, stRefused)) : performOp s n w = (s, some (stRefused, 0)) := by
  simp [performOp, op, manager, new, refused]

theorem performOp_of_none (new : s.getObj (Obj.sState n) = 0) (op : w.op ≠ 0x01) : performOp s n w = (s, some (stRefused, 0)) := by
  simp [performOp, op, new]

theorem performOp_destroy (quiet : s.getObj (Obj.sState n) = 3) (manager : w.byManager = true) (op : w.op = 0x02) :
    performOp s n w = (destroySlice s n, some (stOk, 0)) := by
  simp [performOp, op, manager, quiet]

theorem performOp_reset (quiet : s.getObj (Obj.sState n) = 3) (op : w.op = 0x15) : performOp s n w = (resetSlice s n, some (stOk, 0)) := by
  simp [performOp, op, quiet]

section Running

variable (runs : s.getObj (Obj.sState n) = 1 ∨ s.getObj (Obj.sState n) = 2)
include runs

theorem performOp_reset_running (op : w.op = 0x15) : performOp s n w = (s, some (stNotQuiet, 0)) := by
  rcases runs with active | quiesces
  · simp [performOp, op, active]
  · simp [performOp, op, quiesces]

theorem performOp_destroy_running (manager : w.byManager = true) (op : w.op = 0x02) : performOp s n w = (s, some (stNotQuiet, 0)) := by
  rcases runs with active | quiesces
  · simp [performOp, op, manager, active]
  · simp [performOp, op, manager, quiesces]

end Running

theorem performOp_quiesce (active : s.getObj (Obj.sState n) = 1) (limit : w.req.limitUs ≤ 10000000) (op : w.op = 0x13) :
    performOp s n w = (beginQuiesce s n w.req.limitUs w, none) := by
  simp [performOp, op, active, Nat.not_lt.2 limit]

theorem performOp_resume (quiet : s.getObj (Obj.sState n) = 3) (op : w.op = 0x14) :
    performOp s n w = (s.putObj (Obj.sState n) 1, some (stOk, 0)) := by
  simp [performOp, op, quiet]

theorem current_beginQuiesce (s : State) (n limitUs : Nat) (w : SopWait) : ((beginQuiesce s n limitUs w).slice n).current = some w := by
  simp only [beginQuiesce]
  rw [slice_setSlice_of_no]
  exact slice_no _ n

/-- The slice last put into the list of slices keeps its queue of operations. -/
theorem waits_of_upsert {x : Slice} {l : List Slice} {ws : List SopWait} (put : t.slices = upsert Slice.no x l) (no : x.no = n) (waits : x.waits = ws) :
    (t.slice n).waits = ws := by
  have found : t.slice n = (t.setSlice x).slice n := by
    subst no
    rw [slice_setSlice]
    simp only [State.slice, put, find?_upsert, Option.getD_some]
  rw [found, slice_setSlice_of_no no, waits]

/-- An entry of the region table written from the runs of secure memory. -/
def regionNoted (rs : List (Nat × Nat × Nat)) (s : State) (e : Nat) : State :=
  let r := rs.getD e (0, 0, 0xFF)
  (((s.putObj (Obj.rgnBase e) r.1).putObj (Obj.rgnSize e) r.2.1).putObj (Obj.rgnWorld e) (if r.2.1 = 0 then 0 else 1)).putObj (Obj.rgnSlice e) r.2.2

theorem noteRegions_eq (s : State) : ∃ rs es, noteRegions s = List.foldl (regionNoted rs) s es := ⟨_, _, rfl⟩

theorem slices_noteRegions (s : State) : (noteRegions s).slices = s.slices := by
  obtain ⟨rs, es, noted⟩ := noteRegions_eq s
  rw [noted, foldl_leaves State.slices fun t e => by simp only [regionNoted, State.putObj_slices]]

theorem slices_noteGrants (s : State) : (noteGrants s).slices = s.slices := by
  simp only [noteGrants, slices_noteRegions, State.putObj_slices]
  rw [foldl_leaves State.slices fun t d => by simp only [State.putObj_slices]]

theorem slices_recount (s : State) (n : Nat) : (recount s n).slices = s.slices := by
  simp only [recount]
  rw [foldl_leaves State.slices fun t d => by simp only [State.putObj_slices], State.putObj_slices, State.putObj_slices]

theorem slices_closeWindows (s : State) (n : Nat) : (closeWindows s n).slices = s.slices := by
  simp only [closeWindows]
  rw [foldl_leaves State.slices fun t d => State.putObj_slices .., foldl_leaves State.slices fun t d => State.putObj_slices ..]

/-- A RESET keeps what waits, and a DESTROY too. -/
theorem waits_resetSlice (s : State) (n : Nat) : ((resetSlice s n).slice n).waits = (s.slice n).waits := by
  unfold resetSlice
  exact waits_of_upsert (slices_recount _ n) rfl rfl

theorem waits_destroySlice (s : State) (n : Nat) : ((destroySlice s n).slice n).waits = (s.slice n).waits := by
  have same : (closeWindows s n).slice n = s.slice n := by simp only [State.slice, slices_closeWindows]
  unfold destroySlice
  rw [← same]
  exact waits_of_upsert (slices_noteGrants _) rfl rfl

/-! ### MAP, UNMAP and PROTECT of one page (R390) -/

/-- One page of an operation is done or refused. -/
theorem pagesGo_one (size : Nat) (f : Nat → State → Option State) (va : Nat) (u : State) : pagesGo size f 1 va u 0 = match f va u with
    | some t => (t, 1)
    | none => (u, 0) := by
  simp only [pagesGo]
  cases f va u <;> rfl

section OnePage

variable {u : State} (size : o.psize < 3) (one : o.count = 1)
include size one

section Map

variable (tier : o.tier < 3) (die : o.die < 4 ∨ o.anyDie = true)
include tier die

/-- What a MAP of one page comes to: the page is mapped, or tried once more with the spare pages of other slices back in their pools. -/
theorem pagesOp_map : pagesOp u n opMap o = match mapPage n o o.va.toNat u with
    | some t => (noteRegions t, stOk, 1)
    | none => if u.mem.extents.any (otherSpare n) = true then match mapPage n o o.va.toNat (scrubSpares u n) with
        | some t => (noteRegions t, stOk, 1)
        | none => (noteRegions (scrubSpares u n), stRefused, 0)
      else (noteRegions u, stRefused, 0) := by
  have listed : ¬ (3 ≤ o.psize ∨ (opMap = opMap ∧ (3 ≤ o.tier ∨ (4 ≤ o.die ∧ !o.anyDie)))) := by
    rintro (reserved | ⟨-, high | ⟨far, some_⟩⟩)
    · exact Nat.not_lt.2 reserved size
    · exact Nat.not_lt.2 high tier
    · exact die.elim (Nat.not_lt.2 far) fun any => by simp [any] at some_
  rw [pagesOp, if_neg listed]
  simp only [if_true, one, pagesGo_one]
  cases mapPage n o o.va.toNat u with
  | some t => simp [doneStatus]
  | none =>
    cases spare : u.mem.extents.any (otherSpare n) with
    | false => simp [doneStatus]
    | true => cases mapPage n o o.va.toNat (scrubSpares u n) <;> simp [doneStatus]

end Map

theorem pagesOp_unmap (unmapped : unmapPage n o o.va.toNat u = some t) : pagesOp u n opUnmap o = (noteRegions t, stOk, 1) := by
  have listed : ¬ (3 ≤ o.psize ∨ (opUnmap = opMap ∧ (3 ≤ o.tier ∨ (4 ≤ o.die ∧ !o.anyDie)))) := by simp [size]
  rw [pagesOp, if_neg listed]
  simp [one, pagesGo_one, unmapped, doneStatus]

theorem pagesOp_protect (changed : protectPage n o o.va.toNat u = some t) : pagesOp u n opProtect o = (noteRegions t, stOk, 1) := by
  have listed : ¬ (3 ≤ o.psize ∨ (opProtect = opMap ∧ (3 ≤ o.tier ∨ (4 ≤ o.die ∧ !o.anyDie)))) := by simp [size]
  rw [pagesOp, if_neg listed]
  simp [one, pagesGo_one, changed, doneStatus]

end OnePage

theorem performOp_map (exists_ : s.getObj (Obj.sState n) ≠ 0) (op : w.op = 0x10) :
    performOp s n w = ((pagesOp s n opMap w.req).1, some (pagesOp s n opMap w.req).2) := by
  simp [performOp, op, exists_]

/-- With no store on its way an operation that takes entries away need not wait. -/
theorem performOp_entries (exists_ : s.getObj (Obj.sState n) ≠ 0) (stores : s.stores = []) (op : w.op = 0x11 ∨ w.op = 0x12) :
    performOp s n w = ((pagesOp s n w.op w.req).1, some (pagesOp s n w.op w.req).2) := by
  have landed : landEvery s = s := by simp [landEvery, stores]
  have none_ (va size : Nat) : storesInto s n va size = false := by simp [storesInto, stores]
  rcases op with unmap | protect
  · simp [performOp, unmap, exists_, landed, none_]
  · simp [performOp, protect, exists_, landed, none_]

/-! ### The limit of a QUIESCE, and quiet (R384, R385) -/

theorem exec_quiesceLimitExpiry {l : Nat} (limit : (s.slice n).limitAt = some l) (quiesces : s.getObj (Obj.sState n) = 2) (due : l ≤ s.now)
    (idle : ∀ ch ∈ channelsOf s n, (s.chan ch).flight = []) :
    exec (.quiesceLimitExpiry n) s = .next (s.setSlice { s.slice n with limitAt := none }) := by
  have todo (u : State) (same : ∀ ch ∈ channelsOf s n, (u.chan ch).flight = []) :
      ((channelsOf s n).flatMap fun ch => ((u.chan ch).flight.filter (preemptible u ch)).map fun c => (ch, c)) = [] :=
    List.flatMap_eq_nil_iff.2 fun ch mem => by simp [same ch mem]
  have none_ := todo (s.setSlice { s.slice n with limitAt := none }) idle
  simp only [exec, execQuiesceLimitExpiry, limit, withSome_some, quiesces, beq_self_eq_true, decide_eq_true due, Bool.and_self, onlyIf_true]
  rw [show channelsOf (s.setSlice { s.slice n with limitAt := none }) n = channelsOf s n from rfl, none_]
  rfl

theorem waits_quiet (empty : (s.slice n).waits = []) :
    (((s.putObj (Obj.sState n) 3).setSlice { s.slice n with current := none, limitAt := none }).slice n).waits = [] := by
  rw [slice_setSlice_of_no (x := { s.slice n with current := none, limitAt := none }) (slice_no s n)]
  exact empty

section Quiet

variable (few : n < 64) (quiesces : s.getObj (Obj.sState n) = 2) (quiet : isQuiet s n = true) (empty : (s.slice n).waits = [])
include few quiesces quiet empty

theorem exec_quietReached_idle (idle : (s.slice n).current = none) : exec (.quietReached n) s =
    .next ((s.putObj (Obj.sState n) 3).setSlice { s.slice n with current := none, limitAt := none }) := by
  simp only [exec, execQuietReached, decide_eq_true few, quiesces, beq_self_eq_true, quiet, Bool.and_self, onlyIf_true, idle]
  exact congrArg Host.Outcome.next (runOps_of_empty (waits_quiet empty) 8)

theorem exec_quietReached_done {q : SopWait} (current : (s.slice n).current = some q) : exec (.quietReached n) s =
    .next (sopResult ((s.putObj (Obj.sState n) 3).setSlice { s.slice n with current := none, limitAt := none }) n q stOk 0) := by
  simp only [exec, execQuietReached, decide_eq_true few, quiesces, beq_self_eq_true, quiet, Bool.and_self, onlyIf_true, current]
  exact congrArg Host.Outcome.next (runOps_of_empty ((waits_sopResult _ n q stOk 0).trans (waits_quiet empty)) 8)

end Quiet

/-! ### The end of a scrub (R401) -/

/-- A fold whose steps leave what is observed leaves it. -/
theorem foldl_leaves_of_mem {α β : Type} {f : State → α → State} {xs : List α} (obs : State → β) (step : ∀ x ∈ xs, ∀ s, obs (f s x) = obs s) (s : State) :
    obs (xs.foldl f s) = obs s :=
  List.foldlRecOn xs f (motive := fun t => obs t = obs s) rfl fun t kept x mem => (step x mem t).trans kept

theorem exec_scrubEnd_frozen (frozen : ∃ e ∈ s.mem.extents, e.slice = n ∧ e.use = .scrub ∧ rangeFrozen s e.base e.size = true) :
    exec (.scrubEnd n false) s = .next s := by
  obtain ⟨e, mem, own, use, waits⟩ := frozen
  have listed : ((s.mem.extents.filter fun e => e.slice == n && e.use == .scrub).any fun e => rangeFrozen s e.base e.size) = true :=
    List.any_eq_true.2 ⟨e, List.mem_filter.2 ⟨mem, by simp [own, use]⟩, waits⟩
  simp only [exec, execScrubEnd, Bool.false_eq_true, if_false, listed, if_true]
  cases decide (n < 64) && s.getObj (Obj.scrubPending n) == 1 && (!false || secureScrub s n) <;> rfl

theorem mem_noteRegions (s : State) : (noteRegions s).mem = s.mem := by
  obtain ⟨rs, es, noted⟩ := noteRegions_eq s
  rw [noted, foldl_leaves State.mem fun t e => by simp only [regionNoted, State.putObj_mem]]

theorem mem_noteGrants (s : State) : (noteGrants s).mem = s.mem := by
  simp only [noteGrants, mem_noteRegions, State.putObj_mem]
  rw [foldl_leaves State.mem fun t d => by simp only [State.putObj_mem]]

theorem getObj_noteRegions {k : Nat} (high : k < 0x9010 * 256) (s : State) : (noteRegions s).getObj k = s.getObj k := by
  obtain ⟨rs, es, noted⟩ := noteRegions_eq s
  rw [noted]
  refine foldl_leaves (State.getObj · k) (fun t e => ?_) es s
  rw [regionNoted, State.getObj_putObj_ne _ _ (by unfold Obj.rgnSlice; omega), State.getObj_putObj_ne _ _ (by unfold Obj.rgnWorld; omega),
    State.getObj_putObj_ne _ _ (by unfold Obj.rgnSize; omega), State.getObj_putObj_ne _ _ (by unfold Obj.rgnBase; omega)]

/-- The ways that are granted do not reach the objects of a slice. -/
theorem getObj_noteGrants {k : Nat} (low : 0x5001 * 256 ≤ k) (high : k < 0x9000 * 256) (s : State) : (noteGrants s).getObj k = s.getObj k := by
  simp only [noteGrants]
  rw [getObj_noteRegions (by omega), State.getObj_putObj_ne _ _ (by unfold Obj.slicesLive; omega),
    State.getObj_putObj_ne _ _ (by unfold Obj.mapUnassigned; omega)]
  refine foldl_leaves_of_mem (State.getObj · k) (fun d mem t => ?_) s
  have few := List.mem_range.1 mem
  rw [State.getObj_putObj_ne _ _ (by unfold Obj.rowWorld; omega), State.getObj_putObj_ne _ _ (by unfold Obj.freeWays; omega),
    State.getObj_putObj_ne _ _ (by unfold Obj.scratchWays; omega)]

/-- A byte of a range that is zeroed reads zero; another as before. -/
theorem cellGet_zeroRange (s : State) (lo size a : Nat) :
    cellGet (zeroRange s lo size).mem.bytes a = if lo ≤ a ∧ a < lo + size then 0 else cellGet s.mem.bytes a := by
  have read := sget_filter_key (d := scrubByte) (fun k => !decide (lo ≤ k ∧ k < lo + size)) a s.mem.bytes
  refine read.trans ?_
  by_cases within : lo ≤ a ∧ a < lo + size
  · simp only [within, decide_true, Bool.not_true, Bool.false_eq_true, if_false, and_self, if_true]
    rfl
  · simp only [within, decide_false, Bool.not_false, if_true, if_false]
    rfl

/-- Ranges zeroed one after another read zero. -/
theorem cellGet_zeroRanges {e : Extent} {es : List Extent} (mem : e ∈ es) {a : Nat} (low : e.base ≤ a) (high : a < e.base + e.size) (s : State) :
    cellGet (es.foldl (fun s e => zeroRange s e.base e.size) s).mem.bytes a = 0 := by
  have stays (es : List Extent) (s : State) (zero : cellGet s.mem.bytes a = 0) :
      cellGet (es.foldl (fun s e => zeroRange s e.base e.size) s).mem.bytes a = 0 :=
    List.foldlRecOn es _ (motive := fun t : State => cellGet t.mem.bytes a = 0) zero fun t kept x _ => by rw [cellGet_zeroRange, kept, ite_self]
  induction es generalizing s with
  | nil => cases mem
  | cons x es ih =>
    rcases List.mem_cons.1 mem with rfl | later
    · exact stays es _ (by rw [cellGet_zeroRange, if_pos ⟨low, high⟩])
    · exact ih later _

/-- A scrub that waits for no channel ends: what the slice held is zero, and none of it is held any more. -/
theorem exec_scrubEnd_done (few : n < 64) (pending : s.getObj (Obj.scrubPending n) = 1)
    (flows : ∀ e ∈ s.mem.extents, e.slice = n → e.use = .scrub → rangeFrozen s e.base e.size = false) : ∃ t, exec (.scrubEnd n false) s = .next t ∧
      t.getObj (Obj.scrubPending n) = 0 ∧ (∀ e ∈ t.mem.extents, ¬ (e.slice = n ∧ e.use = .scrub)) ∧
      ∀ e ∈ s.mem.extents, e.slice = n → e.use = .scrub → ∀ a, e.base ≤ a → a < e.base + e.size → cellGet t.mem.bytes a = 0 := by
  have free : ((s.mem.extents.filter fun e => e.slice == n && e.use == .scrub).any fun e => rangeFrozen s e.base e.size) = false := by
    refine List.any_eq_false.2 fun e mem => ?_
    obtain ⟨listed, own⟩ := List.mem_filter.1 mem
    simp only [Bool.and_eq_true, beq_iff_eq] at own
    exact Bool.eq_false_iff.1 (flows e listed own.1 own.2)
  simp only [exec, execScrubEnd, decide_eq_true few, pending, beq_self_eq_true, Bool.not_false, Bool.true_or, Bool.and_self, onlyIf_true,
    Bool.false_eq_true, if_false, free]
  refine ⟨_, rfl, ?_, ?_, ?_⟩
  · rw [getObj_noteGrants (by unfold Obj.scrubPending; omega) (by unfold Obj.scrubPending; omega), State.getObj_putObj_same]
  · rw [mem_noteGrants]
    rintro e mem ⟨own, use⟩
    have kept := (List.mem_filter.1 mem).2
    simp [own, use] at kept
  · rw [mem_noteGrants]
    intro e mem own use a low high
    exact cellGet_zeroRanges (List.mem_filter.2 ⟨mem, by simp [own, use]⟩) low high s

end Sys2Proof.Machine
end

section
/-! SUPPORT. What a fall to COLD leaves of MODULE_STATE (R356, R390): accesses of memory write counts only, so the state of the module stands. -/

namespace Sys2Proof.Machine

variable {s t : State}

/-- MODULE_STATE as a dictionary holds it. -/
def standing (od : List (Nat × Nat)) : Nat := sget objReset od Obj.moduleState

theorem getObj_moduleState (s : State) : s.getObj Obj.moduleState = standing s.od := rfl

/-- Objects from index 0x3000 upwards are not MODULE_STATE. -/
theorem standing_putObj {k : Nat} (high : 0x300000 ≤ k) (s : State) (v : Nat) : standing (s.putObj k v).od = standing s.od :=
  State.getObj_putObj_ne s v (by unfold Obj.moduleState; omega)

theorem standing_addObj {k : Nat} (high : 0x300000 ≤ k) (s : State) (v : Nat) : standing (s.addObj k v).od = standing s.od :=
  standing_putObj high s _

/-- A fold of a function that leaves MODULE_STATE leaves it. -/
@[simp] theorem standing_foldl {α : Type} {f : State → α → State} (kept : ∀ s a, standing (f s a).od = standing s.od) (l : List α) (s : State) :
    standing (l.foldl f s).od = standing s.od :=
  foldl_leaves (fun t : State => standing t.od) kept l s

/-! ### Copies and directories -/

@[simp] theorem standing_addBroadcasts (s : State) (d n : Nat) : standing (s.addObj (Obj.broadcasts d) n).od = standing s.od :=
  standing_addObj (by unfold Obj.broadcasts; omega) s n

@[simp] theorem standing_putDir (s : State) (e : DirEnt) : standing (putDir s e).od = standing s.od := rfl

@[simp] theorem standing_dropDir (s : State) (l : LineKey) : standing (dropDir s l).od = standing s.od := rfl

@[simp] theorem standing_invalidateDie (s : State) (wr : Option Nat) (d : Nat) (l : LineKey) :
    standing (invalidateDie s wr d l).od = standing s.od := by
  simp only [invalidateDie]
  split
  · rfl
  · split
    · exact standing_addBroadcasts s d 1
    · rfl

@[simp] theorem standing_invalidateL1 (s : State) (wr : Option Nat) (l : LineKey) : standing (invalidateL1 s wr l).od = standing s.od := by
  simp [invalidateL1]

@[simp] theorem standing_dropCopy (s : State) (wr : Option Nat) (a : Nat) (l : LineKey) : standing (dropCopy s wr a l).od = standing s.od := by
  simp only [dropCopy]
  split
  · rfl
  · cases l <;> simp

@[simp] theorem standing_snoopChip (s : State) (p : Nat) (h : HeldLine) (w : Bool) : standing (snoopChip s p h w).od = standing s.od :=
  snoopChip_getObj s p h w Obj.moduleState

theorem standing_llmRoom {n d x : Nat} (room : llmRoom s n d x = some t) : standing t.od = standing s.od := by
  simp only [llmRoom] at room
  repeat' split at room
  all_goals cases room
  all_goals simp

@[simp] theorem standing_llmTouch (s : State) (n d x : Nat) (is : List Nat) (w : Bool) (f : Fill) :
    standing (llmTouch s n d x is w f).od = standing s.od := by
  simp only [llmTouch]
  have counted : standing (if llmHit s d x is = true then s.addObj (Obj.llmHits n) 1 else s.addObj (Obj.llmMisses n) 1).od = standing s.od := by
    split
    · exact standing_addObj (by unfold Obj.llmHits; omega) s 1
    · exact standing_addObj (by unfold Obj.llmMisses; omega) s 1
  generalize (if llmHit s d x is = true then s.addObj (Obj.llmHits n) 1 else s.addObj (Obj.llmMisses n) 1) = u at counted ⊢
  rw [← counted]
  split
  · rfl
  · split
    · rfl
    · split
      · rfl
      · next room => simp [standing_llmRoom room]

@[simp] theorem standing_evictDir (s : State) (e : DirEnt) : standing (evictDir s e).od = standing s.od := by
  have counted (s : State) (d : Nat) : standing (s.addObj (Obj.dirEvictions d) 1).od = standing s.od :=
    standing_addObj (by unfold Obj.dirEvictions; omega) s 1
  simp only [evictDir]
  split <;> split <;> simp [counted]

theorem standing_dirRoom {n : Nat} {l : LineKey} (room : dirRoom s n l = .ok t) : standing t.od = standing s.od := by
  simp only [dirRoom] at room
  repeat' split at room
  all_goals cases room
  · rfl
  · exact standing_evictDir s _

theorem standing_dirRoom_waits {n : Nat} {l : LineKey} (waits : dirRoom s n l = .error t) : standing t.od = standing s.od := by
  simp only [dirRoom] at waits
  repeat' split at waits
  all_goals cases waits
  · rfl
  · exact standing_evictDir s _

@[simp] theorem standing_dirHomeRead (s : State) (l : LineKey) : standing (dirHomeRead s l).od = standing s.od :=
  dirHomeRead_getObj s l Obj.moduleState

@[simp] theorem standing_dirRead (s : State) (n d : Nat) (l : LineKey) : standing (dirRead s n d l).od = standing s.od := by
  simp only [dirRead]
  split
  · split
    · next room => simp [standing_dirRoom room]
    · next waits => exact standing_dirRoom_waits waits
  · split
    · rfl
    · split <;> simp

@[simp] theorem standing_dropOthers (s : State) (wr : Option Nat) (d : Nat) (l : LineKey) : standing (dropOthers s wr d l).od = standing s.od := by
  simp only [dropOthers, standing_invalidateL1]
  split
  · rfl
  · split <;> simp

@[simp] theorem standing_dirWrite (s : State) (wr : Option Nat) (n d : Nat) (l : LineKey) (own : Bool) :
    standing (dirWrite s wr n d l own).od = standing s.od := by
  simp only [dirWrite]
  rw [← standing_dropOthers s wr d l]
  split
  · split
    · split
      · next room => simp [standing_dirRoom room]
      · next waits => exact standing_dirRoom_waits waits
    · rfl
  · split
    · rfl
    · split <;> simp

@[simp] theorem standing_readVia (s : State) (n d : Nat) (l : LineKey) (is : List Nat) (f : Fill) :
    standing (readVia s n d l is f).od = standing s.od := by
  simp only [readVia]
  repeat' split
  all_goals simp

@[simp] theorem standing_ownWrite (s : State) (wr : Option Nat) (n d x i : Nat) (f : Fill) :
    standing (ownWrite s wr n d x i f).od = standing s.od := by
  simp only [ownWrite]
  repeat' split
  all_goals simp [setUnder]

@[simp] theorem standing_writeVia (s : State) (wr : Option Nat) (n d : Nat) (l : LineKey) (i : Nat) (f : Fill) :
    standing (writeVia s wr n d l i f).od = standing s.od := by
  simp only [writeVia]
  repeat' split
  all_goals simp

/-! ### Sectors and runs of bytes -/

@[simp] theorem standing_readSect (s : State) (k : SectKey) : standing (readSect s k).1.od = standing s.od :=
  readSect_getObj s k Obj.moduleState

@[simp] theorem standing_mergeDead (s : State) (wr : Option Nat) (k : SectKey) (len : Nat) : standing (mergeDead s wr k len).od = standing s.od := by
  simp only [mergeDead]
  split
  · rfl
  · cases wr <;> split <;> simp [dropL1]

@[simp] theorem standing_updateL1 (s : State) (wr : Option Nat) (k : SectKey) (off : Nat) (bs : List Byte) :
    standing (updateL1 s wr k off bs).od = standing s.od := by
  cases wr <;> rfl

@[simp] theorem standing_freshL1 (s : State) (wr : Option Nat) (k : SectKey) : standing (freshL1 s wr k).od = standing s.od := by
  cases wr <;> rfl

@[simp] theorem standing_putSect (s : State) (k : SectKey) (off : Nat) (bs : List Byte) : standing (putSect s k off bs).od = standing s.od := by
  simp only [putSect]
  split <;> rfl

@[simp] theorem standing_writeSectAt (d : Nat) (f : Fill) (s : State) (wr : Option Nat) (n : Nat) (k : SectKey) (off : Nat) (bs : List Byte) :
    standing (writeSectAt d f s wr n k off bs).od = standing s.od := by
  simp only [writeSectAt, standing_updateL1]
  split <;> simp

@[simp] theorem standing_agentSect (f : Fill) (a : Asker) (s : State) (n : Nat) (k : SectKey) : standing (agentSect f a s n k).1.od = standing s.od := by
  simp only [agentSect, homeSectAs]
  split <;> simp

@[simp] theorem standing_noteCode (s : State) (m addr n : Nat) : standing (noteCode s m addr n).od = standing s.od := by
  simp only [noteCode]
  split <;> rfl

@[simp] theorem standing_writePiece (s : State) (wr : Option Nat) (m space addr : Nat) (k : SectKey) (bs : List Byte) :
    standing (writePiece s wr m space addr k bs).od = standing s.od := by
  simp only [writePiece, writePieceAs, writePieceAt, standing_writeSectAt]
  split <;> simp [logWrite]

@[simp] theorem standing_writePieceAs (f : Fill) (s : State) (wr : Option Nat) (m space addr : Nat) (k : SectKey) (bs : List Byte) :
    standing (writePieceAs f s wr m space addr k bs).od = standing s.od := by
  simp only [writePieceAs, writePieceAt, standing_writeSectAt]
  split <;> simp [logWrite]

theorem standing_writeRunGo (f : Fill) (wr : Option Nat) (a : Asker) (m space fuel : Nat) (s : State) (addr : Nat) (bs : List Byte) (done : Nat) :
    standing (writeRunGo f wr a m space fuel s addr bs done).1.od = standing s.od := by
  induction fuel generalizing s addr bs done with
  | zero => rfl
  | succ fuel ih =>
    simp only [writeRunGo]
    repeat' split
    · rfl
    · rfl
    · rw [ih, standing_writePieceAs]

@[simp] theorem standing_writeRunAs (f : Fill) (wr : Option Nat) (a : Asker) (s : State) (m space addr : Nat) (bs : List Byte) :
    standing (writeRunAs f wr a s m space addr bs).1.od = standing s.od := standing_writeRunGo f wr a m space _ s addr bs 0

@[simp] theorem standing_writeRun (s : State) (m space addr : Nat) (bs : List Byte) : standing (writeRun s m space addr bs).1.od = standing s.od :=
  standing_writeRunAs .sectors none .device s m space addr bs

theorem standing_readRunGo {f : Fill} {a : Asker} {m space fuel addr n : Nat} {r : State × List Byte}
    (read : readRunGo f a m space fuel s addr n = .ok r) : standing r.1.od = standing s.od := by
  induction fuel generalizing s addr n r with
  | zero => cases read; rfl
  | succ fuel ih =>
    simp only [readRunGo] at read
    split at read
    · cases read; rfl
    · split at read
      · cases read
      · split at read
        · cases read
        · next rest =>
          cases read
          exact (ih rest).trans (standing_agentSect f a s m _)

theorem standing_readRun {m space addr n : Nat} {u : State} {bs : List Byte} (read : readRun s m space addr n = .ok (u, bs)) :
    standing u.od = standing s.od := standing_readRunGo read

/-! ### Accesses that wait -/

@[simp] theorem standing_servedAt (s : State) (a : Asker) (k : SectKey) : standing (servedAt s a k).od = standing s.od := by
  simp only [servedAt]
  split <;> rfl

@[simp] theorem standing_waitFrozen (s : State) (k : SectKey) (a : Asker) : standing (waitFrozen s k a).od = standing s.od := by
  simp only [waitFrozen]
  split <;> rfl

theorem standing_missWait {k : SectKey} {w : Bool} {a : Asker} (waits : missWait s k w a = some t) : standing t.od = standing s.od := by
  have input (m : MissReg) : standing (waitInput s m).od = standing s.od := by
    simp only [waitInput]
    split <;> rfl
  simp only [missWait] at waits
  repeat' split at waits
  all_goals cases waits
  · rfl
  · rfl
  · rfl
  · exact input _
  · rfl

theorem standing_dirWait {k : SectKey} {w : Bool} {a : Asker} (waits : dirWait s k w a = some t) : standing t.od = standing s.od := by
  simp only [dirWait] at waits
  split at waits
  · cases waits
  · split at waits
    · cases waits
    · split at waits
      · split at waits
        · cases waits
        · next room =>
          cases waits
          exact standing_dirRoom_waits room
      · repeat' split at waits
        all_goals cases waits
        exact standing_snoopChip _ _ _ _

theorem standing_reach {k : SectKey} {w : Bool} {a : Asker} (waits : reach s k w a = .error (.wait t)) : standing t.od = standing s.od := by
  simp only [reach] at waits
  split at waits
  · cases waits
  split at waits
  · cases waits; rfl
  split at waits
  · cases waits; simp
  split at waits
  · cases waits; rfl
  split at waits
  · next dir => cases waits; exact standing_dirWait dir
  split at waits
  · next miss => cases waits; exact standing_missWait miss
  repeat' split at waits
  all_goals cases waits
  · exact standing_waitFrozen s k a
  · rfl
  · rfl

/-- A translation fails at once. -/
theorem translate_ne_wait (s : State) (n va kind : Nat) (u : State) : translate s n va kind ≠ .error (.wait u) := by
  simp only [translate]
  repeat' split
  all_goals simp

theorem locate_ne_wait (s : State) (n space addr kind : Nat) (u : State) : locate s n space addr kind ≠ .error (.wait u) := by
  have fails := translate_ne_wait s n addr kind u
  simp only [locate]
  repeat' split
  all_goals simp_all

theorem standing_imageGate {n va : Nat} (waits : imageGate s n va = .error (.wait t)) : standing t.od = standing s.od := by
  simp only [imageGate] at waits
  repeat' split at waits
  all_goals cases waits
  rfl

theorem standing_readOk {m space addr : Nat} {a : Asker} (waits : readOk s m space addr a = .error (.wait t)) : standing t.od = standing s.od := by
  simp only [readOk] at waits
  split at waits
  · next e located =>
    cases waits
    exact absurd located (locate_ne_wait _ _ _ _ _ _)
  · split at waits
    · cases waits
    · split at waits
      · next stops =>
        cases waits
        exact standing_reach stops
      · cases waits

theorem standing_writeOk {m space addr : Nat} {a : Asker} (waits : writeOk s m space addr a = .error (.wait t)) : standing t.od = standing s.od := by
  simp only [writeOk] at waits
  split at waits
  · next e located =>
    cases waits
    exact absurd located (locate_ne_wait _ _ _ _ _ _)
  · split at waits
    · cases waits
    · split at waits
      · next stops =>
        cases waits
        exact standing_reach stops
      · split at waits
        · cases waits
        · split at waits
          · next stops =>
            cases waits
            exact standing_imageGate stops
          · cases waits

theorem standing_spanOk {m space addr n : Nat} {w : Bool} (waits : spanOk s m space addr n w = .error (.wait t)) : standing t.od = standing s.od := by
  have go (fuel addr n : Nat) (waits : spanOkGo s m space w .device fuel addr n = .error (.wait t)) : standing t.od = standing s.od := by
    induction fuel generalizing addr n with
    | zero => cases waits
    | succ fuel ih =>
      simp only [spanOkGo] at waits
      split at waits
      · cases waits
      · split at waits
        · next stops =>
          cases waits
          split at stops
          · exact standing_writeOk stops
          · exact standing_readOk stops
        · exact ih _ _ waits
  exact go _ _ _ waits

/-- A read of a run that waits part way has read the sectors before. -/
theorem standing_readRun_waits {m space addr n : Nat} (waits : readRun s m space addr n = .error (.wait t)) : standing t.od = standing s.od := by
  have go (fuel : Nat) (s : State) (addr n : Nat) (waits : readRunGo .sectors .device m space fuel s addr n = .error (.wait t)) :
      standing t.od = standing s.od := by
    induction fuel generalizing s addr n with
    | zero => cases waits
    | succ fuel ih =>
      simp only [readRunGo] at waits
      split at waits
      · cases waits
      · split at waits
        · next stops =>
          cases waits
          exact standing_readOk stops
        · split at waits
          · next rest =>
            cases waits
            exact (ih _ _ _ rest).trans (standing_agentSect _ _ s m _)
          · cases waits
  exact go _ _ _ _ waits

end Sys2Proof.Machine
end

section
/-! SUPPORT. What a fall to COLD leaves of MODULE_STATE: stores, frames, gangs and commands that end leave the state of the module. -/

namespace Sys2Proof.Machine

variable {s t : State}

/-! ### Gangs -/

@[simp] theorem standing_applyInv (s : State) (c : Nat) : standing (applyInv s c).od = standing s.od := rfl

@[simp] theorem standing_updLaunch (s : State) (ctx : Nat) (f : Launch → Launch) : standing (updLaunch s ctx f).od = standing s.od := rfl

@[simp] theorem standing_updGang (s : State) (ctx gang : Nat) (f : Gang → Gang) : standing (updGang s ctx gang f).od = standing s.od := rfl

@[simp] theorem standing_startGang (s : State) (l : Launch) (c : Nat) : standing (startGang s l c).od = standing s.od := rfl

@[simp] theorem standing_placeGangs (ctx fuel : Nat) (s : State) : standing (placeGangs ctx fuel s).od = standing s.od := by
  induction fuel generalizing s with
  | zero => rfl
  | succ fuel ih =>
    simp only [placeGangs]
    repeat' split
    all_goals simp [ih]

@[simp] theorem standing_placeAll (s : State) (ctx : Nat) : standing (placeAll s ctx).od = standing s.od := by
  simp only [placeAll]
  split <;> simp

@[simp] theorem standing_placeSlice (s : State) (n : Nat) : standing (placeSlice s n).od = standing s.od := by
  simp [placeSlice]

theorem standing_layGangs {ok : State → Launch → Nat → Bool} {places : Gang → List Nat} {l : Launch} {gs : List Gang}
    (laid : layGangs ok places l gs s = some t) : standing t.od = standing s.od := by
  induction gs generalizing s with
  | nil => cases laid; rfl
  | cons g gs ih =>
    simp only [layGangs] at laid
    split at laid
    · cases laid
    · exact (ih laid).trans (standing_updLaunch s l.ctx _)

theorem standing_layLaunch {l : Launch} {rows : List Nat} {ph : Phase} {rot : Nat} (laid : layLaunch s l rows ph rot = some t) :
    standing t.od = standing s.od := by
  simp only [layLaunch] at laid
  rw [standing_layGangs laid, State.setLaunch_od]

@[simp] theorem standing_startLaunch (s : State) (l : Launch) : standing (startLaunch s l).od = standing s.od := by
  simp only [startLaunch]
  split
  · split
    · next laid => simp [standing_layLaunch laid]
    · cases laid : layLaunch s { l with since := s.now - l.since } l.rows .restoring 0 with
      | none => rfl
      | some u => exact standing_layLaunch laid
  · simp

@[simp] theorem standing_startSlice (s : State) (n : Nat) : standing (startSlice s n).od = standing s.od := by
  simp only [startSlice, plan]
  exact standing_foldl (fun s l => standing_startLaunch s l) _ _

/-! ### Frames to other modules -/

@[simp] theorem standing_drainTx (q fuel : Nat) (s : State) : standing (drainTx q fuel s).od = standing s.od := by
  induction fuel generalizing s with
  | zero => rfl
  | succ fuel ih =>
    simp only [drainTx]
    repeat' split
    all_goals simp [ih]

@[simp] theorem standing_emit (s : State) (dst ty : Nat) (f : TFrame) : standing (emit s dst ty f).od = standing s.od := by
  simp only [emit]
  split
  · rfl
  · split <;> simp

theorem standing_openPath {dst : Nat} {p : PathCtx} (opened : openPath s dst = some (t, p)) : standing t.od = standing s.od := by
  simp only [openPath] at opened
  repeat' split at opened
  all_goals cases opened
  · rfl
  · exact standing_addObj (by unfold Obj.pathsLive; omega) _ 1
  · rfl

theorem standing_sendFrame {dst ty : Nat} {f : TFrame} {who : FrameFor} (sent : sendFrame s dst ty f who = some t) : standing t.od = standing s.od := by
  simp only [sendFrame] at sent
  split at sent
  · cases sent
  · next opened =>
    cases sent
    rw [standing_emit, State.setPath_od, standing_openPath opened]

/-! ### Stores to system space -/

@[simp] theorem standing_refuseAt (s : State) (off : Nat) : standing (refuseAt s off).od = standing s.od :=
  standing_addObj (by unfold Obj.wRefused; omega) s 1

@[simp] theorem standing_noteExternal (s : State) (src : Source) (sl sp a : Nat) : standing (noteExternal s src sl sp a).od = standing s.od := by
  simp only [noteExternal]
  split
  · rfl
  · refine standing_foldl (fun s k => ?_) _ s
    cases src with
    | host => rfl
    | module => rfl
    | local_ ch =>
      cases ch with
      | none => rfl
      | some ch => dsimp only; split <;> rfl

@[simp] theorem standing_addBytesIn (s : State) (n v : Nat) : standing (s.addObj (Obj.sysBytesIn n) v).od = standing s.od :=
  standing_addObj (by unfold Obj.sysBytesIn; omega) s v

@[simp] theorem standing_addBytesOut (s : State) (n v : Nat) : standing (s.addObj (Obj.sysBytesOut n) v).od = standing s.od :=
  standing_addObj (by unfold Obj.sysBytesOut; omega) s v

theorem standing_serveWrite_done {src addr : Nat} {bs : List Byte} {roce going : Bool} {by_ : Source} {x : Unit}
    (served : serveWrite s src addr bs roce by_ going = .done t x) : standing t.od = standing s.od := by
  simp only [serveWrite] at served
  repeat' split at served
  all_goals cases served
  simp

theorem standing_serveWrite_refused {src addr : Nat} {bs : List Byte} {roce going : Bool} {by_ : Source}
    (served : serveWrite s src addr bs roce by_ going = .refused t) : standing t.od = standing s.od := by
  simp only [serveWrite] at served
  repeat' split at served
  all_goals cases served
  all_goals simp

theorem standing_serveWrite_wait {src addr : Nat} {bs : List Byte} {roce going : Bool} {by_ : Source}
    (served : serveWrite s src addr bs roce by_ going = .wait t) : standing t.od = standing s.od := by
  simp only [serveWrite] at served
  repeat' split at served
  all_goals cases served
  next waits => exact standing_spanOk waits

@[simp] theorem standing_storeFailed (s : State) (who : FrameFor) (refused : Bool) (addr : Nat) :
    standing (storeFailed s who refused addr).od = standing s.od := by
  have dropped : standing (s.addObj Obj.storesDropped 1).od = standing s.od := standing_addObj (by unfold Obj.storesDropped; omega) s 1
  cases who <;> simp [storeFailed, raiseFault, noteLow, dropped]

@[simp] theorem standing_sysStore (s : State) (sl : Nat) (who : FrameFor) (addr : Nat) (bs : List Byte) :
    standing (sysStore s sl who addr bs).1.od = standing s.od := by
  simp only [sysStore]
  split
  · split
    · next done => exact standing_serveWrite_done done
    · next refused => simp [standing_serveWrite_refused refused]
    · next waits => exact standing_serveWrite_wait waits
  · split
    · next sent => simp [standing_sendFrame sent]
    · rfl

/-! ### Stores on their way -/

@[simp] theorem standing_landOne (s : State) (c i : Nat) : standing (landOne s c i).1.od = standing s.od := by
  simp only [landOne]
  split
  · rfl
  split
  · rfl
  split
  · rfl
  split
  · next waits => exact standing_reach waits
  · rfl
  · split
    · next gate =>
      split at gate
      · cases gate
      · exact standing_imageGate gate
    · rfl
    · simp

@[simp] theorem standing_landFirst (c fuel : Nat) (s : State) : standing (landFirst c fuel s).1.od = standing s.od := by
  induction fuel generalizing s with
  | zero => rfl
  | succ fuel ih =>
    have one := standing_landOne s c 0
    simp only [landFirst]
    split
    · next landed => rw [ih, ← one, landed]
    · next stays => rw [← one, stays]

@[simp] theorem standing_landAll (s : State) (c : Nat) : standing (landAll s c).1.od = standing s.od := standing_landFirst c _ s

@[simp] theorem standing_sendRuns (sl : Nat) (who : FrameFor) (line : Nat) (rs : List (Nat × List Byte)) (s : State) :
    standing (sendRuns sl who line rs s).1.od = standing s.od := by
  induction rs generalizing s with
  | nil => rfl
  | cons r rest ih =>
    have one := standing_sysStore s sl who (line + r.1) r.2
    simp only [sendRuns]
    split
    · next sent => rw [ih, ← one, sent]
    · next waits => rw [← one, waits]

@[simp] theorem standing_wcSend (s : State) (c : Nat) (e : WcEnt) : standing (wcSend s c e).1.od = standing s.od := by
  simp only [wcSend]
  split <;> simp

@[simp] theorem standing_wcFlush (c : Nat) (es : List WcEnt) (s : State) : standing (wcFlush c es s).1.od = standing s.od := by
  induction es generalizing s with
  | nil => rfl
  | cons e rest ih =>
    have one := standing_wcSend s c e
    simp only [wcFlush]
    split
    · next sent => rw [ih, ← one, sent]
    · next waits => rw [← one, waits]

/-! ### Unpredictable outcomes -/

@[simp] theorem standing_scrambleOne (n base : Nat) (s : State) : standing (scrambleOne n base s).od = standing s.od := by
  simp only [scrambleOne]
  repeat' split
  all_goals simp

@[simp] theorem standing_scrambleAll (n base k : Nat) (s : State) : standing (scrambleAll n base k s).od = standing s.od := by
  induction k generalizing s with
  | zero => rfl
  | succ k ih => rw [scrambleAll, ih, standing_scrambleOne]

@[simp] theorem standing_unpredictable (s : State) (n : Nat) : standing (unpredictable s n).od = standing s.od := by
  simp [unpredictable]

/-! ### Commands that end -/

@[simp] theorem standing_putFlight (s : State) (ch : Nat) (c : Cmd) : standing (putFlight s ch c).od = standing s.od := rfl

@[simp] theorem standing_measure (s : State) (sl ch : Nat) (c : Cmd) (bs : List Byte) : standing (measure s sl ch c bs).od = standing s.od := by
  simp only [measure]
  split <;> rfl

@[simp] theorem standing_measureEnd (s : State) (sl ch : Nat) (c : Cmd) (f : Final) : standing (measureEnd s sl ch c f).1.od = standing s.od := by
  have begun : standing (if c.field 32 4 = 0 then measure s sl ch c [] else s).od = standing s.od := by
    split <;> simp
  simp only [measureEnd]
  generalize (if c.field 32 4 = 0 then measure s sl ch c [] else s) = u at begun ⊢
  rw [← begun]
  repeat' split
  all_goals rfl

@[simp] theorem standing_journalAppend (s : State) (ch : Nat) (c : Cmd) (st : Nat) (f : Final) :
    standing (journalAppend s ch c st f).od = standing s.od := by
  simp only [journalAppend]
  split
  · rfl
  · split
    · exact standing_addObj (by unfold Obj.journalLost; omega) s 1
    · exact standing_putObj (by unfold Obj.journalCount; omega) _ _

@[simp] theorem standing_notifyTail (s : State) (ch : Nat) : standing (notifyTail s ch).od = standing s.od := by
  simp only [notifyTail]
  split <;> simp [setDue]

@[simp] theorem standing_writeRecord (s : State) (ch : Nat) (c : Cmd) (f : Final) : standing (writeRecord s ch c f).od = standing s.od := by
  have tail (u : State) : standing (u.addObj (Obj.complTail ch) 1).od = standing u.od := standing_addObj (by unfold Obj.complTail; omega) u 1
  have ended (u : State) : standing (u.addObj (Obj.completed ch) 1).od = standing u.od := standing_addObj (by unfold Obj.completed; omega) u 1
  have killed (u : State) : standing (u.addObj (Obj.killed ch) 1).od = standing u.od := standing_addObj (by unfold Obj.killed; omega) u 1
  have late (u : State) : standing (u.addObj (Obj.deadlineMissed ch) 1).od = standing u.od := standing_addObj (by unfold Obj.deadlineMissed; omega) u 1
  simp only [writeRecord, removeCmd, State.setChan_od, standing_journalAppend, standing_notifyTail]
  split <;> split <;> simp [tail, ended, killed, late]

@[simp] theorem standing_holdFinal (s : State) (ch : Nat) (c : Cmd) (f : Final) : standing (holdFinal s ch c f).od = standing s.od := rfl

@[simp] theorem standing_endCmd (s : State) (ch : Nat) (c : Cmd) (f : Final) : standing (endCmd s ch c f).od = standing s.od := by
  simp only [endCmd]
  split
  · rfl
  · split
    · next waits => simp [standing_spanOk waits]
    · simp
    · split <;> simp

@[simp] theorem standing_dropReads (s : State) (who : FrameFor) : standing (dropReads s who).od = standing s.od := rfl

@[simp] theorem standing_stopCmd (s : State) (ch : Nat) (c : Cmd) (st : Nat) : standing (stopCmd s ch c st).od = standing s.od := by
  simp only [stopCmd]
  split
  · rfl
  · split <;> simp [endXfer]

/-! ### Launches that end -/

@[simp] theorem standing_mixLaunch (s : State) (ch : Nat) (c : Cmd) (role : Role) (steps : List Nat) :
    standing (mixLaunch s ch c role steps).od = standing s.od := by
  simp [mixLaunch, enterLaunch]

@[simp] theorem standing_mixEnd (s : State) (ch seq : Nat) : standing (mixEnd s ch seq).od = standing s.od := by
  simp only [mixEnd]
  repeat' split
  all_goals simp

@[simp] theorem standing_mixDecode (s : State) (ch seq : Nat) : standing (mixDecode s ch seq).od = standing s.od := by
  simp only [mixDecode]
  repeat' split
  all_goals simp

@[simp] theorem standing_settleDebt (s : State) (l : Launch) : standing (settleDebt s l).od = standing s.od := by
  simp only [settleDebt]
  split
  · rfl
  · exact standing_putObj (by unfold Obj.overrunDebt; omega) _ _

@[simp] theorem standing_dropLaunch (s : State) (l : Launch) : standing (dropLaunch s l).od = standing s.od := by
  simp only [dropLaunch, standing_startSlice, standing_placeSlice]
  split <;> simp

@[simp] theorem standing_mixLaunchEnded (s : State) (l : Launch) (f : Final) : standing (mixLaunchEnded s l f).od = standing s.od := by
  have late : standing (s.addObj (Obj.deadlineMissed l.ch) 1).od = standing s.od := standing_addObj (by unfold Obj.deadlineMissed; omega) s 1
  simp only [mixLaunchEnded]
  split
  · rfl
  · simp only [standing_mixEnd, standing_mixDecode, standing_putFlight]
    split <;> split <;> simp [late]

@[simp] theorem standing_endLaunch (s : State) (l : Launch) (f : Final) : standing (endLaunch s l f).od = standing s.od := by
  simp only [endLaunch]
  repeat' split
  all_goals simp

@[simp] theorem standing_abandonLocks (ctx fuel : Nat) (s : State) : standing (abandonLocks ctx fuel s).1.od = standing s.od := by
  induction fuel generalizing s with
  | zero => rfl
  | succ fuel ih =>
    simp only [abandonLocks]
    split
    · rfl
    split
    · rfl
    split
    · next waits => exact standing_spanOk waits
    · simp [ih]
    · simp [ih]
    · split
      · next waits => exact standing_readRun_waits waits
      · simp [ih]
      · next read => simp [ih, standing_readRun read]

@[simp] theorem standing_landCtx (s : State) (ctx : Nat) : standing (landCtx s ctx).1.od = standing s.od :=
  List.foldlRecOn _ _ (motive := fun p : State × Bool => standing p.1.od = standing s.od) rfl fun p kept c _ => (standing_landAll p.1 c).trans kept

@[simp] theorem standing_flushLaunch (s : State) (ctx : Nat) : standing (flushLaunch s ctx).1.od = standing s.od :=
  List.foldlRecOn _ _ (motive := fun p : State × Bool => standing p.1.od = standing s.od) rfl fun p kept c _ =>
    (standing_wcFlush c.no _ p.1).trans kept

@[simp] theorem standing_storesDone (s : State) (ctx : Nat) : standing (storesDone s ctx).1.od = standing s.od := by
  simp [storesDone]

@[simp] theorem standing_discardWork (s : State) (ctx : Nat) : standing (discardWork s ctx).od = standing s.od := rfl

@[simp] theorem standing_killLaunch (s : State) (ctx : Nat) : standing (killLaunch s ctx).od = standing s.od := by
  have done := standing_storesDone (discardWork s ctx) ctx
  rw [standing_discardWork] at done
  simp only [killLaunch]
  split
  · next waits => rw [← done, waits]
  · next u landed =>
    have left := standing_abandonLocks ctx 257 u
    rw [landed] at done
    rw [← done]
    split
    · next waits => rw [← left, waits]
    · next v abandoned =>
      rw [abandoned] at left
      rw [← left]
      repeat' split
      · rfl
      · simp
      · rfl
      · next waits => exact standing_spanOk waits
      · simp
      · simp
      · simp

@[simp] theorem standing_stopLaunch (s : State) (ctx st : Nat) : standing (stopLaunch s ctx st).od = standing s.od := by
  simp [stopLaunch]

/-! ### Channels and lock sets that fail -/

@[simp] theorem standing_dropColl (s : State) (ch seq : Nat) : standing (dropColl s ch seq).od = standing s.od := by
  simp only [dropColl]
  exact standing_foldl (fun s x => standing_putObj (by unfold Obj.gBusy; omega) s 0) _ _

@[simp] theorem standing_stopCommand (s : State) (ch : Nat) (c : Cmd) (st : Nat) : standing (stopCommand s ch c st).od = standing s.od := by
  simp only [stopCommand]
  repeat' split
  all_goals simp

@[simp] theorem standing_stopChannel (s : State) (st ch : Nat) : standing (stopChannel s st ch).od = standing s.od := by
  simp [stopChannel]

@[simp] theorem standing_abandonWord (s : State) (l : Nat × Nat × Nat) : standing (abandonWord s l).od = standing s.od := by
  simp only [abandonWord]
  split
  · rfl
  · split
    · rfl
    · next read => simp [standing_readRun read]

/-- A halted command that has its outcome ends in its own channel. -/
theorem standing_endHaltedCmd (s : State) (x : Nat × Cmd) : standing (match x.2.final with
      | some f => endCmd (s.setChan { (s.chan x.1) with flight := (s.chan x.1).flight ++ [x.2] }) x.1 x.2 f
      | none => s).od = standing s.od := by
  split
  · rw [standing_endCmd, State.setChan_od]
  · rfl

@[simp] theorem standing_endHalted (s : State) (k : Nat) : standing (endHalted s k).od = standing s.od := by
  unfold endHalted
  split
  · rfl
  · rw [standing_foldl, standing_foldl standing_abandonWord]
    exact standing_endHaltedCmd

@[simp] theorem standing_failLockSet (s : State) (k : Nat) : standing (failLockSet s k).od = standing s.od := by
  have off (u : State) (ch : Nat) : standing (u.putObj (Obj.chEnable ch) 0).od = standing u.od := standing_putObj (by unfold Obj.chEnable; omega) u 0
  have failed (u : State) : standing (u.putObj (Obj.lsFailed k) 1).od = standing u.od := standing_putObj (by unfold Obj.lsFailed; omega) u 1
  simp [failLockSet, failed, updSet, off]

theorem standing_floodLost (s : State) (m : Nat) : standing (floodLost s m).od = standing s.od :=
  getObj_of_dictionary (dictionary_sendAll s 0x0B _ _) Obj.moduleState

/-- A module that goes COLD is COLD, whatever its commands then come to. -/
theorem moduleState_goCold (s : State) (cause : Nat) : (goCold s cause).getObj Obj.moduleState = 6 := by
  simp only [goCold]
  split
  · assumption
  · have cold (s : State) : standing (s.putObj Obj.moduleState 6).od = 6 := by
      rw [← getObj_moduleState, State.getObj_putObj_same]
    rw [getObj_moduleState, standing_foldl fun s ch => standing_stopChannel s stPartial ch, standing_foldl standing_failLockSet,
      standing_floodLost, cold]

end Sys2Proof.Machine
end

section
/-! SUPPORT. Operations on slices, quiet and scrub (O53): each row of operations at a slice that nothing is in progress for. -/

namespace Sys2Proof.Machine

variable {s t : State} {n : Nat} {cr : Cred} {mgr : Bool} {o : SopReq} {p : Instr × Nat}

/-- A scrub of a secure-world slice that fails its check leaves the module COLD. -/
theorem exec_scrubEnd_fails (few : n < 64) (pending : s.getObj (Obj.scrubPending n) = 1) (secure : secureScrub s n = true) :
    ∃ t, exec (.scrubEnd n true) s = .next t ∧ t.getObj Obj.moduleState = 6 := by
  refine ⟨goCold (s.useFree 1) (s.freeVal % 256), ?_, moduleState_goCold _ _⟩
  simp only [exec, execScrubEnd, decide_eq_true few, pending, beq_self_eq_true, secure, Bool.or_true, Bool.and_self, onlyIf_true, if_true]

/-- The slice has its queue emptied, and its number as before. -/
theorem waits_emptied (s : State) (n : Nat) : ((s.setSlice { s.slice n with waits := [] }).slice n).waits = [] := by
  rw [slice_setSlice_of_no (x := { s.slice n with waits := [] }) (slice_no s n)]

section Rows

variable (good : credOk s cr = true) (asker : (cr = .manager ∧ mgr = true ∧ n = o.slice ∧ n < 64) ∨ (cr = .slice n ∧ mgr = false))
  (idle : (s.slice n).current = none) (empty : (s.slice n).waits = [])
include good asker idle empty

theorem exec_sopRow_waits (row : p ∈ sopRows cr o)
    (waits : performOp (s.setSlice { s.slice n with waits := [] }) n { byManager := mgr, op := p.2, req := o } = (t, none)) : exec p.1 s = .next
      (if (t.slice n).current.isSome then t else t.setSlice { t.slice n with waits := { byManager := mgr, op := p.2, req := o } :: (t.slice n).waits }) := by
  rw [exec_sopRow asker good row, submitOp_waits idle empty waits]

theorem exec_sopRow_done (row : p ∈ sopRows cr o) {r : Nat × Nat}
    (done : performOp (s.setSlice { s.slice n with waits := [] }) n { byManager := mgr, op := p.2, req := o } = (t, some r))
    (left : (t.slice n).waits = []) : exec p.1 s = .next (sopResult t n { byManager := mgr, op := p.2, req := o } r.1 r.2) := by
  rw [exec_sopRow asker good row, submitOp_done idle empty done left]

theorem exec_quiesceSlice (active : s.getObj (Obj.sState n) = 1) (limit : o.limitUs ≤ 10000000) : exec (.quiesceSlice cr o) s =
    .next (beginQuiesce (s.setSlice { s.slice n with waits := [] }) n o.limitUs { byManager := mgr, op := 0x13, req := o }) := by
  have row : (Instr.quiesceSlice cr o, 0x13) ∈ sopRows cr o := by simp [sopRows]
  rw [exec_sopRow_waits good asker idle empty row (performOp_quiesce active limit rfl), current_beginQuiesce]
  rfl

end Rows

section OnePage

variable {u : State} (exists_ : u.getObj (Obj.sState n) ≠ 0) (size : o.psize < 3) (one : o.count = 1)
include exists_ size one

/-- A MAP of one page takes a page, after a scrub of spares where there is none, or is refused. -/
theorem performOp_map_one (tier : o.tier < 3) (die : o.die < 4 ∨ o.anyDie = true) :
    (mapPage n o o.va.toNat u = some t → performOp u n { byManager := mgr, op := 0x10, req := o } = (noteRegions t, some (stOk, 1))) ∧
    (mapPage n o o.va.toNat u = none → u.mem.extents.any (otherSpare n) = false →
      performOp u n { byManager := mgr, op := 0x10, req := o } = (noteRegions u, some (stRefused, 0))) ∧
    (mapPage n o o.va.toNat u = none → u.mem.extents.any (otherSpare n) = true →
      (mapPage n o o.va.toNat (scrubSpares u n) = some t →
        performOp u n { byManager := mgr, op := 0x10, req := o } = (noteRegions t, some (stOk, 1))) ∧
      (mapPage n o o.va.toNat (scrubSpares u n) = none →
        performOp u n { byManager := mgr, op := 0x10, req := o } = (noteRegions (scrubSpares u n), some (stRefused, 0)))) := by
  have performed : performOp u n { byManager := mgr, op := 0x10, req := o } = ((pagesOp u n opMap o).1, some (pagesOp u n opMap o).2) :=
    performOp_map exists_ rfl
  have pages := pagesOp_map (n := n) (u := u) size one tier die
  refine ⟨fun mapped => ?_, fun refused none_ => ?_, fun refused spare => ⟨fun mapped => ?_, fun again => ?_⟩⟩
  · simp only [performed, pages, mapped]
  · simp only [performed, pages, refused, none_, Bool.false_eq_true, if_false]
  · simp only [performed, pages, refused, spare, if_true, mapped]
  · simp only [performed, pages, refused, spare, if_true, again]

theorem performOp_unmap_one (stores : u.stores = []) (unmapped : unmapPage n o o.va.toNat u = some t) :
    performOp u n { byManager := mgr, op := 0x11, req := o } = (noteRegions t, some (stOk, 1)) := by
  rw [performOp_entries exists_ stores (Or.inl rfl)]
  simp only [show (0x11 : Nat) = opUnmap from rfl, pagesOp_unmap size one unmapped]

theorem performOp_protect_one (stores : u.stores = []) (changed : protectPage n o o.va.toNat u = some t) :
    performOp u n { byManager := mgr, op := 0x12, req := o } = (noteRegions t, some (stOk, 1)) := by
  rw [performOp_entries exists_ stores (Or.inr rfl)]
  simp only [show (0x12 : Nat) = opProtect from rfl, pagesOp_protect size one changed]

end OnePage

/-- Settles O53: the operations by the slice's state (logs 61, 75), the queue of requests, quiet, and the scrub, whose failed check
leaves the module COLD whatever its commands come to. -/
theorem sliceOperations : Obligations.SliceOperations := by
  unfold Obligations.SliceOperations
  intro s cr o n mgr good asker rows x w u st
  have kept : (u.slice n).waits = [] := waits_emptied s n
  refine ⟨fun p row busy room => ?_, fun p row busy full => ?_, fun idle empty => ⟨fun p row t waits => ?_, fun p row t r done left => ?_,
      fun new p row other => ?_, fun manager new refused => ?_, fun manager quiet => ?_, fun quiet => ?_, fun runs => ⟨?_, fun manager => ?_⟩,
      fun active limit => ?_, fun quiet => ?_, fun exists_ size one t => ⟨fun tier die => ?_, fun stores unmapped => ?_, fun stores changed => ?_⟩⟩,
    fun l limit quiesces due flights => ?_, fun few quiesces quiet empty => ⟨fun idle => ?_, fun q current => ?_⟩, fun frozen => ?_,
    fun few pending flows => ?_, fun few pending secure => ?_⟩
  · rw [exec_sopRow asker good row, submitOp_of_busy busy room]
  · rw [exec_sopRow asker good row, submitOp_of_full busy full]
  · exact exec_sopRow_waits good asker idle empty row waits
  · exact exec_sopRow_done good asker idle empty row done left
  · exact exec_sopRow_done good asker idle empty row (performOp_of_none new other) kept
  · exact exec_sopRow_done good asker idle empty (p := (.createSlice cr o, 0x01)) (by simp) (performOp_create_refused new manager rfl refused) kept
  · exact exec_sopRow_done good asker idle empty (p := (.destroySlice cr o, 0x02)) (r := (stOk, 0)) (by simp)
      (performOp_destroy quiet manager rfl) ((waits_destroySlice u n).trans kept)
  · exact exec_sopRow_done good asker idle empty (p := (.resetSlice cr o, 0x15)) (by simp) (performOp_reset quiet rfl)
      ((waits_resetSlice u n).trans kept)
  · exact exec_sopRow_done good asker idle empty (p := (.resetSlice cr o, 0x15)) (by simp) (performOp_reset_running runs rfl) kept
  · exact exec_sopRow_done good asker idle empty (p := (.destroySlice cr o, 0x02)) (by simp) (performOp_destroy_running runs manager rfl) kept
  · exact exec_quiesceSlice good asker idle empty active limit
  · exact exec_sopRow_done good asker idle empty (p := (.resumeSlice cr o, 0x14)) (by simp) (performOp_resume quiet rfl) kept
  · exact performOp_map_one exists_ size one tier die
  · exact performOp_unmap_one exists_ size one stores unmapped
  · exact performOp_protect_one exists_ size one stores changed
  · exact exec_quiesceLimitExpiry limit quiesces due flights
  · exact exec_quietReached_idle few quiesces quiet empty idle
  · exact exec_quietReached_done few quiesces quiet empty current
  · exact exec_scrubEnd_frozen frozen
  · exact exec_scrubEnd_done few pending flows
  · exact exec_scrubEnd_fails few pending secure

end Sys2Proof.Machine
end
